-- ==== Sys2Proof/Word.lean ====
section
/-! DEFINITION. Word types of the Tahild: bytes, parcels, parcel addresses, the five engines, and the
four-fold tuples that shapes, furrows and maps are made of (R15, R37, R46). -/
namespace Sys2Proof

/-- One byte of memory. -/
abbrev Byte := BitVec 8
/-- A 16-bit parcel of instruction text (R46). -/
abbrev Parcel := BitVec 16
/-- A 64-bit scalar word. -/
abbrev Word := BitVec 64
/-- A 57-bit parcel address (R46, R50). -/
abbrev PAddr := BitVec 57

/-- The five engines, each with its strand (R15). -/
inductive Eng where
  | S | L | V | M | W
  deriving DecidableEq, Repr

/-- The ENG code of an engine (file 03, table under "Engines and the shared text"). -/
def Eng.code : Eng → Nat
  | .S => 0
  | .L => 1
  | .V => 2
  | .M => 3
  | .W => 4

/-- Four like things: one per slot axis, logical axis or furrow dimension. -/
structure Quad (α : Type) where
  c0 : α
  c1 : α
  c2 : α
  c3 : α
  deriving DecidableEq, Repr

/-- Component `i` (0 to 3; any other index reads component 3). -/
def Quad.get {α : Type} (q : Quad α) : Nat → α
  | 0 => q.c0
  | 1 => q.c1
  | 2 => q.c2
  | _ => q.c3

/-- Replace component `i` (0 to 3; any other index writes component 3). -/
def Quad.set {α : Type} (q : Quad α) (i : Nat) (x : α) : Quad α :=
  match i with
  | 0 => { q with c0 := x }
  | 1 => { q with c1 := x }
  | 2 => { q with c2 := x }
  | _ => { q with c3 := x }

/-- The same thing four times. -/
def Quad.all {α : Type} (x : α) : Quad α := ⟨x, x, x, x⟩

/-- Apply a function to each component. -/
def Quad.map {α β : Type} (f : α → β) (q : Quad α) : Quad β := ⟨f q.c0, f q.c1, f q.c2, f q.c3⟩

/-- The components in order. -/
def Quad.toList {α : Type} (q : Quad α) : List α := [q.c0, q.c1, q.c2, q.c3]

end Sys2Proof
end

