-- ==== Sys2Proof/Config.lean ====
section
/-! DEFINITION. What the device fixes (R2) and the free values: constants without a body, each standing for a value the
spec leaves open. Nothing in Lean can evaluate a free value, so a theorem about one holds for every value. -/
namespace Sys2Proof.Config

/-- Core cycles that the step numbered by the argument took (R106: CYCLE varies between runs). Free value, log 9. -/
opaque stepCycles : Nat → BitVec 64

/-- Where the loader has placed the program of a launch: (address, bytes) of its text and of each of its data images, in the
order of R298's component BIN. Indexed by the words of the record that the host writes. Free value, log 20. -/
opaque placedSpans : List (BitVec 64) → List (Nat × Nat)

/-- SHA3-256 of firmware image `i` in boot order as it stands at reset number `n` (R336). Free value, log 21. -/
opaque firmwareDigest : Nat → Nat → BitVec 256

/-- Whether the signature of firmware image `i` is good at reset number `n` (R336). Free value, log 21. -/
opaque firmwareSigned : Nat → Nat → Bool

/-- Security version of firmware image `i` at reset number `n` (R336). Free value, log 21. -/
opaque firmwareVersion : Nat → Nat → Nat

/-- How far the fused version counter of firmware image `i` is raised at reset number `n` (R336). Free value, log 21. -/
opaque fuseRaise : Nat → Nat → Nat

/-- The ML-DSA-44 signature over a report's SHA3-256 by the key that the device derives from its fused secret and the given
measurements (R337). Free value, log 21. -/
opaque signature : List (BitVec 256) → BitVec 256 → List Byte

/-- Whether a key outside the radius of a full one-entry bank under MERGE, where R220 has no pair to merge, is folded into
that entry or refused; indexed by the worker, the text position and the key's number. Free value, log 22. -/
opaque loneMerge : Nat → Nat → Nat → Bool

/-- Centroid of a finite sum, as it stands in its cell and at its anchor, of a valid entry whose COUNT is 0 (R214, R219): the
spec states no quotient. Free value, log 61. -/
opaque emptyCentroid : BitVec 256 → Int → BitVec 32

/-- Words of an error record that the spec gives copy commands and leaves open for decode jobs and score passes (R235, R251,
R254): DONE and SEQ (index 0), and FADDR where no address failed (index 1); indexed by worker and parcel address too.
Free value, log 23. -/
opaque openWord : Nat → Nat → Nat → BitVec 64

/-- Whether an access of the step numbered by the first argument misses a write that it may miss (R267), by the write's number.
Free value, log 45. -/
opaque misses : Nat → Nat → Bool

/-- Whether a peer store, named by its number in coherence order, that was in flight when the last port to the peer went down,
in the step numbered by the first argument, was lost (R329). Free value, log 45. -/
opaque storeLost : Nat → Nat → Bool

/-- Byte of the control image in a save area that was written in the step numbered by the first argument, at an offset (R320:
64 KiB whose layout the spec leaves open). Free value, log 54. -/
opaque controlByte : Nat → Nat → BitVec 8

/-- Stack attention units of the device (R2). -/
def sauCount : Nat := 128
/-- Capacity of one vector register in bits (R37). -/
def vregBits : Nat := 262144
/-- Scratchpad bytes per core (R2). -/
def spadBytes : Nat := 0x80000
/-- Accumulator cells per core (R2). -/
def cellCount : Nat := 32768
/-- Compute dies (R2). -/
def dies : Nat := 4
/-- Physical cores per die, spares included (R2, R293). -/
def coresPerDie : Nat := 26
/-- Enabled cores per die after reset (R2). -/
def enabledPerDie : Nat := 24
/-- Capacity of an in-flight write queue (R28). -/
def pendCap : Nat := 32
/-- Capacity of an outcome queue (R16). -/
def outcomeCap : Nat := 64
/-- Capacity of a configuration queue (R22). -/
def confCap : Nat := 32
/-- Tokens a queue holds (R23). -/
def tokenCap : Nat := 15
/-- Image entries a queue holds (R32). -/
def imageCap : Nat := 4
/-- Entries that q14 and q15 hold (R32). -/
def wordCap : Nat := 16
/-- Bytes of the queue store shared by entries behind the first of each queue (R32). -/
def sharedStore : Nat := 65536
/-- Bytes of L1 that pinned lines may take (R33). -/
def pinnedBytes : Nat := 65536
/-- Stepping reported by DEVID (R324 gives no value: DESIGN CHOICE, log 3). -/
def dieStepping : Nat := 0

end Sys2Proof.Config
end

