-- ==== Sys2Proof/Machine/Bits.lean ====
section
/-! DEFINITION. Bit fields, signed readings, slot packing, little-endian bytes and integer roots: the plain arithmetic
that every family shares. All recursion is structural. -/
namespace Sys2Proof.Machine

/-- Bits [lo + len - 1 : lo] of a number. -/
def bits (v lo len : Nat) : Nat := (v >>> lo) % 2 ^ len

/-- Bit `i` of a number. -/
def bit (v i : Nat) : Bool := v.testBit i

/-- The low `w` bits read as two's complement. -/
def signed (w v : Nat) : Int :=
  let u := v % 2 ^ w
  if 2 * u < 2 ^ w then (u : Int) else (u : Int) - (2 ^ w : Nat)

/-- An integer's low `w` bits. -/
def wrap (w : Nat) (i : Int) : Nat := (i % (2 ^ w : Nat)).toNat

/-- Ceiling division. -/
def ceilDiv (a b : Nat) : Nat := (a + b - 1) / b

/-- Length of a number in bits; 0 for 0. -/
def bitLen (n : Nat) : Nat := if n = 0 then 0 else Nat.log2 n + 1

/-- One bit as a number. -/
def ofBool (b : Bool) : Nat := if b then 1 else 0

/-- Clamp an integer between two bounds. -/
def clampInt (lo hi i : Int) : Int := if i < lo then lo else if hi < i then hi else i

/-- Range of an integer container: lowest and highest value. -/
def intRange (sgn : Bool) (w : Nat) : Int × Int :=
  if sgn then (-(2 ^ (w - 1) : Nat), (2 ^ (w - 1) : Nat) - 1) else (0, (2 ^ w : Nat) - 1)

/-- Read a container as an integer. -/
def readInt (sgn : Bool) (w v : Nat) : Int := if sgn then signed w v else (v % 2 ^ w : Nat)

/-- Ones in the low `w` bits. -/
def popcount : Nat → Nat → Nat
  | 0, _ => 0
  | w + 1, v => ofBool (v.testBit w) + popcount w v

/-- Element `s` of a register read at width `w` (R37). -/
def slotOf (data w s : Nat) : Nat := (data >>> (w * s)) % 2 ^ w

/-- Pack elements of width `w`, the first lowest (R37). -/
def packSlots (w : Nat) : List Nat → Nat
  | [] => 0
  | x :: r => x % 2 ^ w + packSlots w r <<< w

/-- Replace the low `n` bits of `old`. -/
def overLow (n old new : Nat) : Nat := (old >>> n) <<< n + new % 2 ^ n

/-- Little-endian bytes of a number. -/
def toBytes (v : Nat) : Nat → List (BitVec 8)
  | 0 => []
  | n + 1 => BitVec.ofNat 8 v :: toBytes (v >>> 8) n

/-- A number from little-endian bytes. -/
def ofBytes : List (BitVec 8) → Nat
  | [] => 0
  | b :: r => b.toNat + ofBytes r <<< 8

/-- Little-endian 64-bit words of a byte list of `8 * n` bytes. -/
def wordsOf : Nat → List (BitVec 8) → List (BitVec 64)
  | 0, _ => []
  | n + 1, l => BitVec.ofNat 64 (ofBytes (l.take 8)) :: wordsOf n (l.drop 8)

/-- Bytes of little-endian 64-bit words. -/
def bytesOf (l : List (BitVec 64)) : List (BitVec 8) := l.flatMap fun w => toBytes w.toNat 8

/-- Integer square root by bits, from bit `k - 1` down: the largest `r` built from `acc` with `r * r ≤ n`. -/
def isqrtFrom (n : Nat) : Nat → Nat → Nat
  | 0, acc => acc
  | k + 1, acc =>
    let t := acc + 2 ^ k
    isqrtFrom n k (if t * t ≤ n then t else acc)

/-- Integer square root. -/
def isqrt (n : Nat) : Nat := isqrtFrom n (bitLen n / 2 + 1) 0

/-- Element of a list, with a default. -/
def nth {α : Type} (d : α) (l : List α) (i : Nat) : α := l.getD i d

/-- The numbers from `a` up to but not including `a + n`. -/
def upFrom (a : Nat) : Nat → List Nat
  | 0 => []
  | n + 1 => a :: upFrom (a + 1) n

/-- Replace element `i` of a list. -/
def setNth {α : Type} (l : List α) (i : Nat) (x : α) : List α := l.set i x

/-- Remove element `i` of a list. -/
def dropNth {α : Type} (l : List α) (i : Nat) : List α := l.eraseIdx i

/-- Run a fallible action over a list, left to right. -/
def listM {ε α β : Type} (f : α → Except ε β) : List α → Except ε (List β)
  | [] => .ok []
  | a :: r =>
    match f a with
    | .error x => .error x
    | .ok b =>
      match listM f r with
      | .error x => .error x
      | .ok l => .ok (b :: l)

end Sys2Proof.Machine
end

