-- ==== Sys2Proof/Machine/Float.lean ====
section
/-! DEFINITION. Number formats, exact values and the one rounding function (R55, R66 to R73). -/
namespace Sys2Proof.Machine

/-- An exact value, or one known to lie strictly between two neighbours: `fin neg m e low` is (−1)^neg × (m + δ) × 2^e with
δ = 0, or 0 < δ < 1 when `low` is set. -/
inductive XReal where
  | nan
  | inf (neg : Bool)
  | fin (neg : Bool) (m : Nat) (e : Int) (low : Bool)
  deriving DecidableEq, Repr

/-- A float format (R66): mantissa bits, exponent bits, bias, and whether it is e4m3, which has no infinity. -/
structure FloatFmt where
  mant : Nat
  expo : Nat
  bias : Nat
  noInf : Bool
  deriving DecidableEq, Repr

/-- The float format behind a code of R55. -/
def floatFmt : Nat → Option FloatFmt
  | 0 => some ⟨23, 8, 127, false⟩
  | 1 => some ⟨7, 8, 127, false⟩
  | 2 => some ⟨10, 5, 15, false⟩
  | 3 => some ⟨3, 4, 7, true⟩
  | 4 => some ⟨2, 5, 15, false⟩
  | _ => none

/-- Container width in bits of a format code (R55); cell 256, mbit 1. -/
def fmtWidth (c : Nat) : Nat :=
  match c with
  | 0 => 32 | 1 => 16 | 2 => 16 | 3 => 8 | 4 => 8
  | 5 => 8 | 6 => 16 | 7 => 32 | 8 => 64
  | 9 => 8 | 10 => 16 | 11 => 32 | 12 => 64
  | 13 => 4 | 14 => 8 | 15 => 16 | 16 => 16
  | 17 => 4 | 18 => 8 | 19 => 8 | 20 => 8
  | 21 => 256
  | _ => 1

/-- Integer formats: whether signed, and the width (R68). -/
def intFmt (c : Nat) : Option (Bool × Nat) :=
  if 5 ≤ c ∧ c ≤ 8 then some (true, fmtWidth c) else if 9 ≤ c ∧ c ≤ 12 then some (false, fmtWidth c) else none

/-- Block formats kb4 to kb16 (R74). -/
def isKb (c : Nat) : Bool := 13 ≤ c && c ≤ 16

/-- Codebook formats cb4 to vq4 (R76). -/
def isCb (c : Nat) : Bool := 17 ≤ c && c ≤ 20

/-- Formats that carry scale bytes. -/
def isBlock (c : Nat) : Bool := isKb c || isCb c

/-- Mantissa width of a kb format (R74). -/
def kbBits (c : Nat) : Nat :=
  match c with
  | 13 => 4
  | 14 => 8
  | 15 => 12
  | _ => 16

/-- f32, bf16 and f16: the formats that FTZ binds (R72). -/
def ftzFmt (c : Nat) : Bool := c ≤ 2

/-- Canonical NaN bits (R66, R67). -/
def FloatFmt.nanBits (f : FloatFmt) : Nat :=
  if f.noInf then 2 ^ (f.expo + f.mant) - 1 else (2 ^ f.expo - 1) <<< f.mant + 2 ^ (f.mant - 1)

/-- Bits of +∞ (meaningless for e4m3). -/
def FloatFmt.infBits (f : FloatFmt) : Nat := (2 ^ f.expo - 1) <<< f.mant

/-- Bits of the largest finite value (R66). -/
def FloatFmt.maxBits (f : FloatFmt) : Nat :=
  if f.noInf then 2 ^ (f.expo + f.mant) - 2 else f.infBits - 1

/-- The sign bit in place. -/
def FloatFmt.signBits (f : FloatFmt) (neg : Bool) : Nat := if neg then 2 ^ (f.expo + f.mant) else 0

/-- Exponent of the last place of a subnormal. -/
def FloatFmt.lowExp (f : FloatFmt) : Int := 1 - (f.bias : Int) - (f.mant : Int)

/-- Read a bit pattern exactly (R66). -/
def FloatFmt.read (f : FloatFmt) (v : Nat) : XReal :=
  let neg := bit v (f.expo + f.mant)
  let e := bits v f.mant f.expo
  let m := bits v 0 f.mant
  if f.noInf && e == 2 ^ f.expo - 1 && m == 2 ^ f.mant - 1 then .nan
  else if !f.noInf && e == 2 ^ f.expo - 1 then (if m = 0 then .inf neg else .nan)
  else if e = 0 then .fin neg m f.lowExp false
  else .fin neg (m + 2 ^ f.mant) (f.lowExp + (e - 1 : Nat)) false

/-- Whether a pattern is subnormal. -/
def FloatFmt.subnormal (f : FloatFmt) (v : Nat) : Bool := bits v f.mant f.expo == 0 && bits v 0 f.mant != 0

/-- A pattern with a subnormal flushed to a zero of its sign (R72). -/
def FloatFmt.flush (f : FloatFmt) (v : Nat) : Nat :=
  if f.subnormal v then f.signBits (bit v (f.expo + f.mant)) else v

/-- Integer part and discarded fraction of a magnitude in units of 2^q: (y0, remainder, shift). -/
def cutAt (m : Nat) (e q : Int) : Nat × Nat × Nat :=
  if q ≤ e then (m <<< (e - q).toNat, 0, 0)
  else
    let sh := (q - e).toNat
    (m >>> sh, m % 2 ^ sh, sh)

/-- Whether rounding moves from y0 to y1 (R69, R71): remainder `r` of `sh` bits with `low` below it, `odd` for y0's last
bit, `n` the stochastic number. -/
def roundsUp (rm : Nat) (neg odd low : Bool) (r sh n : Nat) : Bool :=
  if r = 0 ∧ low = false then false
  else
    match rm with
    | 0 => decide (2 ^ sh < 2 * r) || (decide (2 * r = 2 ^ sh) && (low || odd))
    | 1 => false
    | 2 => !neg
    | 3 => neg
    | 4 => decide (2 ^ sh ≤ 2 * r)
    | _ => decide (2 ^ 32 ≤ (r <<< 32) >>> sh + n)

/-- Magnitude rounded to a multiple of 2^q. -/
def roundMag (rm : Nat) (neg low : Bool) (m : Nat) (e q : Int) (n : Nat) : Nat :=
  let c := cutAt m e q
  c.1 + ofBool (roundsUp rm neg (c.1 % 2 == 1) low c.2.1 c.2.2 n)

/-- How a conversion came out (R83): in range, NaN, infinite, or clamped. -/
inductive ConvKind where
  | plain
  | nan
  | inf
  | sat
  deriving DecidableEq, Repr

/-- A converted value: its bits and how it came out. -/
structure Conv where
  bits : Nat
  kind : ConvKind
  deriving DecidableEq, Repr

/-- The overflow row of R70. -/
def FloatFmt.overflow (f : FloatFmt) (fp8 sat : Bool) (rm : Nat) (neg : Bool) : Conv :=
  let big : Conv := ⟨f.signBits neg + f.maxBits, .plain⟩
  let inf : Conv := ⟨f.signBits neg + f.infBits, .inf⟩
  if fp8 && sat then ⟨f.signBits neg + f.maxBits, .sat⟩
  else if f.noInf then ⟨f.nanBits, .nan⟩
  else
    match rm with
    | 1 => big
    | 2 => if neg then big else inf
    | 3 => if neg then inf else big
    | _ => inf

/-- Round a value once into a float format (R69 to R73). `n` is the stochastic number of R71. -/
def FloatFmt.round (f : FloatFmt) (fp8 sat ftz : Bool) (rm n : Nat) : XReal → Conv
  | .nan => ⟨f.nanBits, .nan⟩
  | .inf neg =>
    if f.noInf then
      if sat then ⟨f.signBits neg + f.maxBits, .sat⟩ else ⟨f.nanBits, .nan⟩
    else ⟨f.signBits neg + f.infBits, .inf⟩
  | .fin neg m e low =>
    if m = 0 ∧ low = false then ⟨f.signBits neg, .plain⟩
    else
      let top := (bitLen m : Int) - 1 + e
      let q := max (top - f.mant) f.lowExp
      let y := roundMag rm neg low m e q n
      let b := (q - f.lowExp).toNat <<< f.mant + y
      if f.maxBits < b then f.overflow fp8 sat rm neg
      else if ftz && !fp8 && b < 2 ^ f.mant then ⟨f.signBits neg, .plain⟩
      else ⟨f.signBits neg + b, .plain⟩

/-- Round a value to an integer and clamp it to the container (R68): NaN gives 0. -/
def roundInt (sgn : Bool) (w rm n : Nat) : XReal → Conv
  | .nan => ⟨0, .nan⟩
  | .inf neg =>
    let r := intRange sgn w
    ⟨wrap w (if neg then r.1 else r.2), .sat⟩
  | .fin neg m e low =>
    let r := intRange sgn w
    let y := roundMag rm neg low m e 0 n
    let i : Int := if neg then -(y : Int) else y
    let c := clampInt r.1 r.2 i
    ⟨wrap w c, if c = i then .plain else .sat⟩

/-- Convert an exact value into a float or integer format code (R68 to R73). Other codes give 0. -/
def convTo (fmt rm : Nat) (sat ftz : Bool) (n : Nat) (x : XReal) : Conv :=
  match floatFmt fmt with
  | some f => f.round (!ftzFmt fmt) sat ftz rm n x
  | none =>
    match intFmt fmt with
    | some (sgn, w) => roundInt sgn w rm n x
    | none => ⟨0, .plain⟩

/-- Read a container as an exact value; FTZ flushes f32, bf16 and f16 inputs (R72). -/
def readNum (fmt : Nat) (ftz : Bool) (v : Nat) : XReal :=
  match floatFmt fmt with
  | some f => f.read (if ftz && ftzFmt fmt then f.flush v else v)
  | none =>
    match intFmt fmt with
    | some (sgn, w) =>
      let i := readInt sgn w v
      .fin (decide (i < 0)) i.natAbs 0 false
    | none => .nan

/-! ## Exact arithmetic -/

/-- Change of sign. -/
def XReal.neg : XReal → XReal
  | .nan => .nan
  | .inf n => .inf (!n)
  | .fin n m e l => .fin (!n) m e l

/-- Magnitude. -/
def XReal.abs : XReal → XReal
  | .nan => .nan
  | .inf _ => .inf false
  | .fin _ m e l => .fin false m e l

/-- Whether the value is NaN. -/
def XReal.isNan : XReal → Bool
  | .nan => true
  | _ => false

/-- Whether the value is finite. -/
def XReal.isFin : XReal → Bool
  | .fin .. => true
  | _ => false

/-- The integer S of a finite exact value in units of 2^q, for q at most its exponent. -/
def atExp (neg : Bool) (m : Nat) (e q : Int) : Int :=
  let y := m <<< (e - q).toNat
  if neg then -(y : Int) else y

/-- Exact sum; an exact zero from operands of opposite sign is +0, or −0 when rounding down (R69). -/
def XReal.add (rdn : Bool) : XReal → XReal → XReal
  | .nan, _ => .nan
  | _, .nan => .nan
  | .inf a, .inf b => if a = b then .inf a else .nan
  | .inf a, _ => .inf a
  | _, .inf b => .inf b
  | .fin na ma ea _, .fin nb mb eb _ =>
    let q := min ea eb
    let s := atExp na ma ea q + atExp nb mb eb q
    if s = 0 then .fin (if na = nb then na else rdn) 0 q false
    else .fin (decide (s < 0)) s.natAbs q false

/-- Exact product. -/
def XReal.mul : XReal → XReal → XReal
  | .nan, _ => .nan
  | _, .nan => .nan
  | .inf a, .inf b => .inf (a != b)
  | .inf a, .fin nb mb _ _ => if mb = 0 then .nan else .inf (a != nb)
  | .fin na ma _ _, .inf b => if ma = 0 then .nan else .inf (na != b)
  | .fin na ma ea _, .fin nb mb eb _ => .fin (na != nb) (ma * mb) (ea + eb) false

/-- Quotient of exact values, to at least 96 bits and a mark for what is below. -/
def XReal.div : XReal → XReal → XReal
  | .nan, _ => .nan
  | _, .nan => .nan
  | .inf _, .inf _ => .nan
  | .inf a, .fin nb _ _ _ => .inf (a != nb)
  | .fin na _ _ _, .inf b => .fin (na != b) 0 0 false
  | .fin na ma ea la, .fin nb mb eb _ =>
    if mb = 0 then (if ma = 0 then .nan else .inf (na != nb))
    else
      let k := 96 + bitLen mb
      let n := ma <<< k
      .fin (na != nb) (n / mb) (ea - eb - k) (la || n % mb != 0)

/-- Square root, to at least 96 bits and a mark for what is below; −0 keeps its sign, a negative value gives NaN. -/
def XReal.sqrt : XReal → XReal
  | .nan => .nan
  | .inf n => if n then .nan else .inf false
  | .fin n m e _ =>
    if m = 0 then .fin n 0 0 false
    else if n then .nan
    else
      let k := 200 + (if e % 2 = 0 then 0 else 1)
      let x := m <<< k
      let r := isqrt x
      .fin false r ((e - k) / 2) (r * r != x)

/-- Reciprocal square root, to at least 90 bits and a mark for what is below. -/
def XReal.rsqrt : XReal → XReal
  | .nan => .nan
  | .inf n => if n then .nan else .fin false 0 0 false
  | .fin n m e _ =>
    if m = 0 then .inf n
    else if n then .nan
    else
      let k := 200 + 2 * bitLen m + (if e % 2 = 0 then 0 else 1)
      let x := 2 ^ k / m
      let r := isqrt x
      .fin false r (-((e + k) / 2)) (r * r * m != 2 ^ k)

/-- Order of values, NaN excepted: `none` when either is NaN. −0 equals +0. -/
def XReal.cmp : XReal → XReal → Option Ordering
  | .nan, _ => none
  | _, .nan => none
  | .inf a, .inf b => some (if a = b then .eq else if a then .lt else .gt)
  | .inf a, _ => some (if a then .lt else .gt)
  | _, .inf b => some (if b then .gt else .lt)
  | .fin na ma ea _, .fin nb mb eb _ =>
    let q := min ea eb
    let a := atExp na ma ea q
    let b := atExp nb mb eb q
    some (if a < b then .lt else if a = b then .eq else .gt)

/-- The sign of a value; NaN counts as positive. -/
def XReal.sign : XReal → Bool
  | .nan => false
  | .inf n => n
  | .fin n _ _ _ => n

/-- An integer as an exact value. -/
def XReal.ofInt (i : Int) : XReal := .fin (decide (i < 0)) i.natAbs 0 false

/-- A value times a power of two. -/
def XReal.scale (k : Int) : XReal → XReal
  | .fin n m e l => .fin n m (e + k) l
  | x => x

/-- Whether the first of two patterns is kept by a minimum or maximum, NaN apart: −0 counts below +0 and equal values keep
the first (R90, R111). -/
def keepsFirst (wantMax : Bool) (x y : XReal) : Bool :=
  match x.cmp y with
  | some .lt => !wantMax
  | some .gt => wantMax
  | _ => x.sign == y.sign || (x.sign != wantMax)

/-- Minimum or maximum of two patterns of a float format (R90, R111): NaN passes the other operand, two NaNs give the
canonical one. -/
def minMaxBits (fmt : Nat) (ftz wantMax : Bool) (a b : Nat) : Nat :=
  match floatFmt fmt with
  | none => 0
  | some f =>
    let a := if ftz && ftzFmt fmt then f.flush a else a
    let b := if ftz && ftzFmt fmt then f.flush b else b
    let x := f.read a
    let y := f.read b
    if x.isNan && y.isNan then f.nanBits
    else if x.isNan then b
    else if y.isNan then a
    else if keepsFirst wantMax x y then a
    else b

/-- Round into f32 with RNE, the form that many rules use. -/
def roundF32 (ftz : Bool) (x : XReal) : Nat := (convTo 0 0 false ftz 0 x).bits

/-- Read an f32 pattern. -/
def readF32 (ftz : Bool) (v : Nat) : XReal := readNum 0 ftz v

end Sys2Proof.Machine
end

