-- ==== Sys2Proof/Syntax.lean ====
section
/-! DEFINITION. The syntax: one constructor of `Instr` per row of spec/opcode_table.json. The first 214 rows and the two
headlands are words of Kyham text (R46 to R58); the other 63 rows are the device's own whole steps (file 95), which have
no words and carry the plain numbers that say what they act on. -/
namespace Sys2Proof

/-- The guard of an S32, S32I, S64 or E64 word: GN negates, GP names a predicate (R30). -/
structure Guard where
  gn : Bool
  gp : BitVec 4
  deriving DecidableEq, Repr

/-- The fields of an S64 word (R50). In `samo` the guard bits hold order and scope (R96). -/
structure S64 where
  g : Guard
  d : BitVec 5
  a : BitVec 5
  mod5 : BitVec 5
  imm : BitVec 32
  deriving DecidableEq, Repr

/-- The fields of an E64 word (R51): tokens, guard, MOD11 and the four operand fields. -/
structure E64 where
  tk : BitVec 4
  g : Guard
  mod11 : BitVec 11
  d8 : BitVec 8
  a8 : BitVec 8
  b8 : BitVec 8
  c8 : BitVec 8
  deriving DecidableEq, Repr

/-- A request to this device from outside. The host loads and stores HBM over CXL.mem (R323). A peer, over Fupel, also makes
atomics, the XOR writes of a `wcpyx` and cell adds there, sends the rows of a `wsend` to this device's windows, and returns the
refusals of rows that this device sent (R210, R240, R276). -/
inductive MemRequest where
  | load (pa : Nat) (bytes : Nat)
  | store (pa : Nat) (data : List Byte)
  /-- An atomic on `bytes` bytes, by R96's code of the operation, with its operands. -/
  | atomic (pa : Nat) (bytes : Nat) (op : Nat) (x : Nat) (y : Nat)
  | xor (pa : Nat) (data : List Byte)
  /-- A term admitted to the 32-byte cell at an address. -/
  | cellAdd (pa : Nat) (anchor : Int) (term : BitVec 32)
  | row (lid : Nat) (sender : Nat) (row : Nat) (expert : Nat) (token : BitVec 32) (data : List Byte) (knot : Nat)
  | refusal (lid : Nat) (sender : Nat) (entry : Word) (knot : Nat)
  deriving DecidableEq, Repr

/-- What the management controller reads of a frozen device (R335): a sector of memory by its physical address, a sector of a
core's save area, a part of the core that a context holds, a BAR0 register, the images that failed at boot (R336), or the
reports of traps that no handler took (R313). -/
inductive Probe where
  | sector (pa : Nat)
  | area (core : Nat) (off : Nat)
  | scalar (core : Nat) (r : Nat)
  | vector (core : Nat) (p : Nat)
  | mask (core : Nat) (m : Nat)
  | csr (core : Nat) (c : Nat)
  | strand (core : Nat) (e : Nat)
  | block (core : Nat) (e : Nat) (i : Nat)
  | preds (core : Nat) (e : Nat)
  | furrow (core : Nat) (e : Nat) (f : Nat)
  | tile (core : Nat) (e : Nat) (z : Nat)
  | sheaf (core : Nat) (e : Nat) (h : Nat)
  | counters (core : Nat) (z : Nat)
  | knot (core : Nat) (k : Nat)
  | queue (core : Nat) (q : Nat)
  | queueSide (core : Nat) (q : Nat)
  | tokens (core : Nat)
  | scratchpad (core : Nat) (off : Nat)
  | cell (core : Nat) (i : Nat)
  | plane (core : Nat) (shadow : Bool) (i : Nat)
  | codebook (core : Nat) (bank : Nat) (back : Bool)
  | register (off : Nat)
  | bootFailure
  | reports
  deriving DecidableEq, Repr

/-- The operations of the opcode table (R56 to R58) and the device's own steps (file 95). -/
inductive Instr where
  /-- NOP (R94). S does nothing but counts toward its shadows. -/
  | nop
  /-- EXIT (R17). Each strand that reaches it stops issuing; the worker completes once all strands have stopped and drained. -/
  | exit
  /-- BRK (R102). Raises the breakpoint trap, cause 0x0F, with the code in TADDR[5:0]. -/
  | brk (c : BitVec 6)
  /-- FENCE (R92). Orders S's accesses, and those carried to S, at the encoded scope and kind. -/
  | fence (k : BitVec 3) (s : BitVec 3)
  /-- RET (R19). Pops the block stack to the depth in s31 and transfers to the return address in s31. -/
  | ret
  /-- ERET (R317). Privileged return from a handler: drains handler writes, restores S's in-flight queue and the mode, and
  resumes every strand. -/
  | eret
  /-- SETTLE (R93). Stalls S until every earlier L, V, M and W instruction has landed, pushed and performed at core scope, then
  acquires. -/
  | settle
  /-- YIELD (R94). Takes a pending pre-emption request at this boundary, otherwise acts as nop. -/
  | yield
  /-- SPIN (R94). Hints that S is polling; the device may slow S's issue by up to 64 cycles. -/
  | spin
  /-- SADD (R87). sD := sA + sB modulo 2^64. -/
  | sadd (g : Guard) (d : BitVec 5) (a : BitVec 5) (b : BitVec 5)
  /-- SSUB (R87). sD := sA − sB modulo 2^64. -/
  | ssub (g : Guard) (d : BitVec 5) (a : BitVec 5) (b : BitVec 5)
  /-- SMUL (R87). sD := low 64 bits of sA × sB. -/
  | smul (g : Guard) (d : BitVec 5) (a : BitVec 5) (b : BitVec 5)
  /-- SMULH (R87). sD := high 64 bits of the signed 128-bit product. -/
  | smulh (g : Guard) (d : BitVec 5) (a : BitVec 5) (b : BitVec 5)
  /-- SMULHN (R87). sD := high 64 bits of the unsigned 128-bit product. -/
  | smulhn (g : Guard) (d : BitVec 5) (a : BitVec 5) (b : BitVec 5)
  /-- SDIV (R88). Signed quotient rounded toward zero, never faulting. -/
  | sdiv (g : Guard) (d : BitVec 5) (a : BitVec 5) (b : BitVec 5)
  /-- SDIVN (R88). Unsigned quotient, never faulting. -/
  | sdivn (g : Guard) (d : BitVec 5) (a : BitVec 5) (b : BitVec 5)
  /-- SREM (R88). Signed remainder with the sign of sA, never faulting. -/
  | srem (g : Guard) (d : BitVec 5) (a : BitVec 5) (b : BitVec 5)
  /-- SREMN (R88). Unsigned remainder, never faulting. -/
  | sremn (g : Guard) (d : BitVec 5) (a : BitVec 5) (b : BitVec 5)
  /-- SAND (R87). Bitwise and of sA and sB. -/
  | sand (g : Guard) (d : BitVec 5) (a : BitVec 5) (b : BitVec 5)
  /-- SOR (R87). Bitwise or of sA and sB. -/
  | sor (g : Guard) (d : BitVec 5) (a : BitVec 5) (b : BitVec 5)
  /-- SXOR (R87). Bitwise xor of sA and sB. -/
  | sxor (g : Guard) (d : BitVec 5) (a : BitVec 5) (b : BitVec 5)
  /-- SANDN (R87). sD := sA and not sB. -/
  | sandn (g : Guard) (d : BitVec 5) (a : BitVec 5) (b : BitVec 5)
  /-- SSHL (R87). Shifts sA left by sB[5:0]. -/
  | sshl (g : Guard) (d : BitVec 5) (a : BitVec 5) (b : BitVec 5)
  /-- SSHR (R87). Shifts sA logically right by sB[5:0]. -/
  | sshr (g : Guard) (d : BitVec 5) (a : BitVec 5) (b : BitVec 5)
  /-- SSRA (R87). Shifts sA arithmetically right by sB[5:0]. -/
  | ssra (g : Guard) (d : BitVec 5) (a : BitVec 5) (b : BitVec 5)
  /-- SMIN (R87). Signed minimum of sA and sB. -/
  | smin (g : Guard) (d : BitVec 5) (a : BitVec 5) (b : BitVec 5)
  /-- SMAX (R87). Signed maximum of sA and sB. -/
  | smax (g : Guard) (d : BitVec 5) (a : BitVec 5) (b : BitVec 5)
  /-- SMINN (R87). Unsigned minimum of sA and sB. -/
  | sminn (g : Guard) (d : BitVec 5) (a : BitVec 5) (b : BitVec 5)
  /-- SMAXN (R87). Unsigned maximum of sA and sB. -/
  | smaxn (g : Guard) (d : BitVec 5) (a : BitVec 5) (b : BitVec 5)
  /-- SEQ (R87). pD := sA = sB. -/
  | seq (g : Guard) (d : BitVec 5) (a : BitVec 5) (b : BitVec 5)
  /-- SNE (R87). pD := sA ≠ sB. -/
  | sne (g : Guard) (d : BitVec 5) (a : BitVec 5) (b : BitVec 5)
  /-- SLT (R87). pD := sA < sB, signed. -/
  | slt (g : Guard) (d : BitVec 5) (a : BitVec 5) (b : BitVec 5)
  /-- SLTN (R87). pD := sA < sB, unsigned. -/
  | sltn (g : Guard) (d : BitVec 5) (a : BitVec 5) (b : BitVec 5)
  /-- SLE (R87). pD := sA ≤ sB, signed. -/
  | sle (g : Guard) (d : BitVec 5) (a : BitVec 5) (b : BitVec 5)
  /-- SLEN (R87). pD := sA ≤ sB, unsigned. -/
  | slen (g : Guard) (d : BitVec 5) (a : BitVec 5) (b : BitVec 5)
  /-- PAND (R87). pD := pA and pB. -/
  | pand (g : Guard) (d : BitVec 5) (a : BitVec 5) (b : BitVec 5)
  /-- POR (R87). pD := pA or pB. -/
  | por (g : Guard) (d : BitVec 5) (a : BitVec 5) (b : BitVec 5)
  /-- PXOR (R87). pD := pA xor pB. -/
  | pxor (g : Guard) (d : BitVec 5) (a : BitVec 5) (b : BitVec 5)
  /-- PANDN (R87). pD := pA and not pB. -/
  | pandn (g : Guard) (d : BitVec 5) (a : BitVec 5) (b : BitVec 5)
  /-- SCLZ (R87). sD := count of leading zero bits of sA. -/
  | sclz (g : Guard) (d : BitVec 5) (a : BitVec 5)
  /-- SPOPC (R87). sD := count of one bits of sA. -/
  | spopc (g : Guard) (d : BitVec 5) (a : BitVec 5)
  /-- SCMOV (R87). If sB ≠ 0 then sD := sA, otherwise no write. -/
  | scmov (g : Guard) (d : BitVec 5) (a : BitVec 5) (b : BitVec 5)
  /-- JMPR (R91). Transfers control to the headland at sA[56:0] and posts the outcome. -/
  | jmpr (g : Guard) (a : BitVec 5)
  /-- CALLR (R91). As jmpr, writing the link to s31. -/
  | callr (g : Guard) (a : BitVec 5)
  /-- SFADD (R90). f32 sum of sA and sB, rounded once under RNE and FTZ. -/
  | sfadd (g : Guard) (d : BitVec 5) (a : BitVec 5) (b : BitVec 5)
  /-- SFSUB (R90). f32 difference, rounded once. -/
  | sfsub (g : Guard) (d : BitVec 5) (a : BitVec 5) (b : BitVec 5)
  /-- SFMUL (R90). f32 product, rounded once. -/
  | sfmul (g : Guard) (d : BitVec 5) (a : BitVec 5) (b : BitVec 5)
  /-- SFMIN (R90). f32 minimum with −0.0 below +0.0 and NaN passing the other operand. -/
  | sfmin (g : Guard) (d : BitVec 5) (a : BitVec 5) (b : BitVec 5)
  /-- SFMAX (R90). f32 maximum with −0.0 below +0.0 and NaN passing the other operand. -/
  | sfmax (g : Guard) (d : BitVec 5) (a : BitVec 5) (b : BitVec 5)
  /-- SFLT (R90). pD := sA < sB as f32; NaN gives false. -/
  | sflt (g : Guard) (d : BitVec 5) (a : BitVec 5) (b : BitVec 5)
  /-- SFEQ (R90). pD := sA = sB as f32; NaN gives false. -/
  | sfeq (g : Guard) (d : BitVec 5) (a : BitVec 5) (b : BitVec 5)
  /-- SFLE (R90). pD := sA ≤ sB as f32; NaN gives false. -/
  | sfle (g : Guard) (d : BitVec 5) (a : BitVec 5) (b : BitVec 5)
  /-- SCVTIF (R90). Converts i64 sA to f32 with RNE. -/
  | scvtif (g : Guard) (d : BitVec 5) (a : BitVec 5)
  /-- SCVTFI (R90). Converts f32 sA to i64 toward zero, clamped, NaN to 0. -/
  | scvtfi (g : Guard) (d : BitVec 5) (a : BitVec 5)
  /-- CSRR (R105). Reads a CSR into sD, with the read effects of CSRs such as REFQ. -/
  | csrr (g : Guard) (d : BitVec 5) (c : BitVec 10)
  /-- CSRW (R105). Writes sD to a CSR, as configuration where the CSR is text-ordered. -/
  | csrw (g : Guard) (d : BitVec 5) (c : BitVec 10)
  /-- CSRS (R105). Atomically sets the CSR bits that are one in sD. -/
  | csrs (g : Guard) (d : BitVec 5) (c : BitVec 10)
  /-- CSRC (R105). Atomically clears the CSR bits that are one in sD. -/
  | csrc (g : Guard) (d : BitVec 5) (c : BitVec 10)
  /-- SQPUSH (R98). Pushes sA to q14, stalling while q14 is full. -/
  | sqpush (g : Guard) (a : BitVec 5)
  /-- SQPOP (R98). Stalls while q15 is empty, then pops its head into sD. -/
  | sqpop (g : Guard) (d : BitVec 5)
  /-- SQFREE (R98). Writes a snapshot of the free entries of q15 and q14 into sD. -/
  | sqfree (g : Guard) (d : BitVec 5)
  /-- STOK (R98). Pushes a token to S→L once S's earlier accesses are performed at core scope, as a release. -/
  | stok (g : Guard)
  /-- STOKW (R98). Stalls while W→S is empty, then pops a token as an acquire. -/
  | stokw (g : Guard)
  /-- KADD (R99). Adds sA[31:0] to a knot as a release at core scope. -/
  | kadd (g : Guard) (d : BitVec 5) (a : BitVec 5)
  /-- KWAIT (R99). Stalls until the knot value reaches sA[31:0] or its error bit is set, then acquires. -/
  | kwait (g : Guard) (d : BitVec 5) (a : BitVec 5)
  /-- KREAD (R99). Reads a knot's value and error bit into sD, as an acquire. -/
  | kread (g : Guard) (d : BitVec 5) (a : BitVec 5)
  /-- KSET (R99). Sets a knot's value and error bit from sA. -/
  | kset (g : Guard) (d : BitVec 5) (a : BitVec 5)
  /-- SGSYNC (R296). Arrives at the next generation of a group with a release, then waits for the generation to complete and
  acquires. -/
  | sgsync (g : Guard) (c : BitVec 10)
  /-- SGARR (R296). Arrives at the next generation of a group with a release, without waiting for it. -/
  | sgarr (g : Guard) (c : BitVec 10)
  /-- STASK (R293). Takes a task from the own deque or steals one, or returns −1 when none remain. -/
  | stask (g : Guard) (d : BitVec 5)
  /-- SCOMMIT (R294). Commits the worker's open task with a release at device scope. -/
  | scommit (g : Guard)
  /-- SDTRIG (R290). Marks the worker as triggered for early start, releasing at device scope. -/
  | sdtrig (g : Guard)
  /-- SDWAIT (R290). Stalls until every producer has triggered, then acquires at device scope. -/
  | sdwait (g : Guard)
  /-- STRAP (R102). Completes and then takes the system-call trap, cause 0x10, with TADDR := n. -/
  | strap (g : Guard) (c : BitVec 10)
  /-- SMBEND (R205). Waits for earlier wsend issue, then contributes and clears this worker's expert counts for the micro-batch
  close. -/
  | smbend (g : Guard)
  /-- SADDI (R89). sD := sD + sext(imm10). -/
  | saddi (g : Guard) (d : BitVec 5) (i : BitVec 10)
  /-- SLI (R89). sD := sext(imm10). -/
  | sli (g : Guard) (d : BitVec 5) (i : BitVec 10)
  /-- SLUI (R89). sD := (sD << 10) or the 10 immediate bits. -/
  | slui (g : Guard) (d : BitVec 5) (i : BitVec 10)
  /-- SANDI (R89). sD := sD and sext(imm10). -/
  | sandi (g : Guard) (d : BitVec 5) (i : BitVec 10)
  /-- SORI (R89). sD := sD or sext(imm10). -/
  | sori (g : Guard) (d : BitVec 5) (i : BitVec 10)
  /-- SXORI (R89). sD := sD xor sext(imm10). -/
  | sxori (g : Guard) (d : BitVec 5) (i : BitVec 10)
  /-- SSHLI (R89). Shifts sD left by the immediate 0–63. -/
  | sshli (g : Guard) (d : BitVec 5) (i : BitVec 10)
  /-- SSHRI (R89). Shifts sD logically right by the immediate 0–63. -/
  | sshri (g : Guard) (d : BitVec 5) (i : BitVec 10)
  /-- SSRAI (R89). Shifts sD arithmetically right by the immediate 0–63. -/
  | ssrai (g : Guard) (d : BitVec 5) (i : BitVec 10)
  /-- SEQI (R89). pP := sD = imm6. -/
  | seqi (g : Guard) (d : BitVec 5) (p : BitVec 4) (i : BitVec 6)
  /-- SLTI (R89). pP := sD < imm6, signed. -/
  | slti (g : Guard) (d : BitVec 5) (p : BitVec 4) (i : BitVec 6)
  /-- SLTNI (R89). pP := sD < imm6, unsigned. -/
  | sltni (g : Guard) (d : BitVec 5) (p : BitVec 4) (i : BitVec 6)
  /-- KADDI (R99). Adds sext(imm10) to a knot. -/
  | kaddi (g : Guard) (d : BitVec 5) (i : BitVec 10)
  /-- KWAITI (R99). Stalls until the knot reaches the immediate threshold or its error bit is set, then acquires. -/
  | kwaiti (g : Guard) (d : BitVec 5) (i : BitVec 10)
  /-- SLD (R95). Loads 8 to 64 bits at sA + sext(IMM32), optionally with acquire. -/
  | sld (f : S64)
  /-- SST (R95). Stores the low bits of sD at sA + sext(IMM32), optionally with release. -/
  | sst (f : S64)
  /-- SAMO (R96). Performs an atomic read-modify-write at the encoded scope and order, returning the old value. -/
  | samo (f : S64)
  /-- BR (R91). Transfers control by a signed parcel offset to a headland and posts the outcome. -/
  | br (f : S64)
  /-- CALL (R91). As br, writing the return address and depth to s31. -/
  | call (f : S64)
  /-- SLI32 (R338). sD := sext(IMM32). -/
  | sli32 (f : S64)
  /-- SADDI32 (R338). sD := sA + sext(IMM32). -/
  | saddi32 (f : S64)
  /-- SFSET (R151). Writes a furrow field selected by MOD5, as configuration. -/
  | sfset (f : S64)
  /-- SZSET (R184). Writes a tile descriptor field, as configuration. -/
  | szset (f : S64)
  /-- SHSET (R217). Writes a sheaf descriptor field, as configuration. -/
  | shset (f : S64)
  /-- SSHAPE (R38). Requests a shape and format and writes the pure-function grant to sD and the shape CSRs. -/
  | sshape (f : S64)
  /-- SBKJ (R207). Scans BKT0–BKT7 for the first capacity ≥ sA and jumps to its schedule. -/
  | sbkj (f : S64)
  /-- SLAUNCH (R291). Privileged: copies a launch record into a device-filled queue and returns its LID or a status. -/
  | slaunch (f : S64)
  /-- SLAYDEF (R242). Privileged: validates a 64-byte layout image and writes, deletes or refuses the layout record. -/
  | slaydef (f : S64)
  /-- SATINV (R308). Privileged: releases and starts dropping translations of a range and ASID from every translation cache. -/
  | satinv (f : S64)
  /-- VADD (R110). Elementwise float sum, rounded once. -/
  | vadd (f : E64)
  /-- VSUB (R110). Elementwise float difference, rounded once. -/
  | vsub (f : E64)
  /-- VMUL (R110). Elementwise float product, rounded once. -/
  | vmul (f : E64)
  /-- VFMA (R112). Fused a × b + c, rounded once. -/
  | vfma (f : E64)
  /-- VFMS (R112). Fused a × b − c, rounded once. -/
  | vfms (f : E64)
  /-- VFNMA (R112). Fused c − a × b, rounded once. -/
  | vfnma (f : E64)
  /-- VMIN (R111). Elementwise float minimum delivering an input unchanged. -/
  | vmin (f : E64)
  /-- VMAX (R111). Elementwise float maximum delivering an input unchanged. -/
  | vmax (f : E64)
  /-- VABS (R111). Clears the sign of each element. -/
  | vabs (f : E64)
  /-- VNEG (R111). Inverts the sign of each element. -/
  | vneg (f : E64)
  /-- VDIV (R110). Correctly rounded elementwise quotient. -/
  | vdiv (f : E64)
  /-- VSQRT (R110). Correctly rounded square root. -/
  | vsqrt (f : E64)
  /-- VRCP (R110). Correctly rounded reciprocal. -/
  | vrcp (f : E64)
  /-- VRSQ (R110). Correctly rounded reciprocal square root. -/
  | vrsq (f : E64)
  /-- VEXP2 (R110). Correctly rounded 2^a. -/
  | vexp2 (f : E64)
  /-- VLOG2 (R110). Correctly rounded log2 a. -/
  | vlog2 (f : E64)
  /-- VTANH (R110). Correctly rounded tanh a. -/
  | vtanh (f : E64)
  /-- VSINCOS (R113). Writes sin a to vD and cos a to vD+1, each correctly rounded. -/
  | vsincos (f : E64)
  /-- VROT (R130). Rotates slot pairs by position times a bank frequency, each result rounded once. -/
  | vrot (f : E64)
  /-- VIADD (R115). Integer sum, optionally saturating. -/
  | viadd (f : E64)
  /-- VISUB (R115). Integer difference, optionally saturating. -/
  | visub (f : E64)
  /-- VIMUL (R115). Integer product, optionally saturating. -/
  | vimul (f : E64)
  /-- VIMULH (R115). High half of the double-width integer product. -/
  | vimulh (f : E64)
  /-- VIAND (R115). Bitwise and. -/
  | viand (f : E64)
  /-- VIOR (R115). Bitwise or. -/
  | vior (f : E64)
  /-- VIXOR (R115). Bitwise xor. -/
  | vixor (f : E64)
  /-- VISHL (R115). Shift left by b mod w. -/
  | vishl (f : E64)
  /-- VISHR (R115). Logical shift right by b mod w. -/
  | vishr (f : E64)
  /-- VISRA (R115). Arithmetic shift right by b mod w. -/
  | visra (f : E64)
  /-- VIMIN (R115). Integer minimum. -/
  | vimin (f : E64)
  /-- VIMAX (R115). Integer maximum. -/
  | vimax (f : E64)
  /-- VIPOPC (R115). Count of one bits per element. -/
  | vipopc (f : E64)
  /-- VCVT (R118). Converts each element between float and integer formats. -/
  | vcvt (f : E64)
  /-- VQNT (R119). Quantises blocks to a kb or codebook format through the quantiser, counting saturation in QSAT. -/
  | vqnt (f : E64)
  /-- VDQ (R120). Decodes block or codebook data and rounds it once into a float format. -/
  | vdq (f : E64)
  /-- VCMP (R116). Compares elements into a mask register. -/
  | vcmp (f : E64)
  /-- VSEL (R114). Selects a or b bits per slot by mask. -/
  | vsel (f : E64)
  /-- MAND (R117). mD := mA and mB. -/
  | mand (f : E64)
  /-- MOR (R117). mD := mA or mB. -/
  | mor (f : E64)
  /-- MXOR (R117). mD := mA xor mB. -/
  | mxor (f : E64)
  /-- MNOT (R117). mD := not mA. -/
  | mnot (f : E64)
  /-- MCNT (R117). Pushes the count of set mask bits to q15. -/
  | mcnt (f : E64)
  /-- VPSET (R145). Reduces a mask to a predicate bit that S then writes as configuration. -/
  | vpset (f : E64)
  /-- VCRD (R125). Writes each slot's logical coordinate read through A's map. -/
  | vcrd (f : E64)
  /-- VMAP (R126). Copies A and installs a new AFFINE map popped from six q14 entries after checking it. -/
  | vmap (f : E64)
  /-- VMAPQ (R127). Pushes A's six map words to q15. -/
  | vmapq (f : E64)
  /-- VNOISE (R129). Draws index-keyed noise from a noise key or a bank's front copy. -/
  | vnoise (f : E64)
  /-- VGBIAS (R204). Adds the routing bias of the expert given by a logical coordinate, from a captured generation. -/
  | vgbias (f : E64)
  /-- VMOV (R132). Copies A, keeping its map, or with a LOST map in raw form. -/
  | vmov (f : E64)
  /-- VSLICE (R133). Moves slots within lines by +n, zero-filling, and adjusts the map origin. -/
  | vslice (f : E64)
  /-- VTRN (R134). Exchanges slot axes 0 and 1. -/
  | vtrn (f : E64)
  /-- VRESH (R135). Keeps the slots and converts the map to the grant in force. -/
  | vresh (f : E64)
  /-- VPERM (R136). Gathers within lines by index, optionally writing a companion of source indices. -/
  | vperm (f : E64)
  /-- VCOMPACT (R137). Packs the active slots of each line to its front, optionally writing a companion. -/
  | vcompact (f : E64)
  /-- VEXPAND (R138). Spreads packed slots back to the active positions of each line. -/
  | vexpand (f : E64)
  /-- VBCAST (R133). Broadcasts line index n to the whole line. -/
  | vbcast (f : E64)
  /-- VSHIFT (R133). Shifts slots within lines by n, zero-filling. -/
  | vshift (f : E64)
  /-- VRSUM (R141). Sums each line exactly and writes the result to its active slots. -/
  | vrsum (f : E64)
  /-- VRMAX (R141). Writes each line's maximum to its active slots. -/
  | vrmax (f : E64)
  /-- VRMIN (R141). Writes each line's minimum to its active slots. -/
  | vrmin (f : E64)
  /-- VRARGMAX (R141). Writes the ixl of each line's maximum. -/
  | vrargmax (f : E64)
  /-- VSCAN (R142). Inclusive exact prefix sums within lines. -/
  | vscan (f : E64)
  /-- VXSCAN (R142). Exclusive exact prefix sums within lines. -/
  | vxscan (f : E64)
  /-- VCADD (R143). Adds each active slot as a term into the cells of a tile. -/
  | vcadd (f : E64)
  /-- VATMRG (R246). Merges two attention triples per line and records the tree position. -/
  | vatmrg (f : E64)
  /-- VKADD (R100). V-strand knot add, releasing V's completed instructions. -/
  | vkadd (f : E64)
  /-- VKWAIT (R100). Holds V back until a knot reaches the threshold or errors. -/
  | vkwait (f : E64)
  /-- VNOP (R100). V no-operation that carries tokens and counts toward shadows. -/
  | vnop (f : E64)
  /-- LDV (R161). Loads the image at the furrow position into a register or queue, stamps its map and advances. -/
  | ldv (f : E64)
  /-- LDQ (R162). Reads n consecutive elements and pushes them to q15. -/
  | ldq (f : E64)
  /-- LGTH (R164). Gathers elements by logical index into an EXPLICIT-mapped destination. -/
  | lgth (f : E64)
  /-- LBC (R163). Broadcasts the element at the position into every slot and advances by one element. -/
  | lbc (f : E64)
  /-- LPRE (R165). Prefetches the lines of an image ahead of the position into L1 or L2. -/
  | lpre (f : E64)
  /-- LADV (R166). Advances the L copy of a furrow n times. -/
  | ladv (f : E64)
  /-- LRST (R166). Resets the L copy's position to 0 and recaptures table entries. -/
  | lrst (f : E64)
  /-- LCBLD (R201). Loads n entries into a bank's back or front copy and increments VERSION. -/
  | lcbld (f : E64)
  /-- LCBSW (R202). Flips a bank's front and back copies. -/
  | lcbsw (f : E64)
  /-- LMSK (R167). Loads mask bits from an mbit image. -/
  | lmsk (f : E64)
  /-- LKADD (R100). L-strand knot add. -/
  | lkadd (f : E64)
  /-- LKWAIT (R100). L-strand knot wait. -/
  | lkwait (f : E64)
  /-- LNOP (R100). L no-operation. -/
  | lnop (f : E64)
  /-- MZCLR (R192). Clears every cell and counter of a tile. -/
  | mzclr (f : E64)
  /-- MLDB (R194). Quantises a source into one K-band of the shadow plane. -/
  | mldb (f : E64)
  /-- MSWAP (R195). Exchanges the active and shadow planes after earlier mmul reads finish. -/
  | mswap (f : E64)
  /-- MMUL (R197). Streams A rows against the active plane and admits each block product into tile cells. -/
  | mmul (f : E64)
  /-- MRANK (R198). Writes the rank of each score within its line. -/
  | mrank (f : E64)
  /-- MRDZ (R199). Reads tile cells out once into a format, updating the tile counters. -/
  | mrdz (f : E64)
  /-- MZCNT (R200). Pushes the five tile counters to q15 after earlier readouts land. -/
  | mzcnt (f : E64)
  /-- SHINS (R222). Inserts each key into a sheaf bank and pushes the entry numbers. -/
  | shins (f : E64)
  /-- SHMRG (R223). Merges the closest pair of sheaf entries. -/
  | shmrg (f : E64)
  /-- SHRD (R214). Pushes the bank's centroids or counts. -/
  | shrd (f : E64)
  /-- SHCLR (R223). Clears every cell of a sheaf bank. -/
  | shclr (f : E64)
  /-- MKADD (R100). M-strand knot add. -/
  | mkadd (f : E64)
  /-- MKWAIT (R100). M-strand knot wait. -/
  | mkwait (f : E64)
  /-- MNOP (R100). M no-operation. -/
  | mnop (f : E64)
  /-- WST (R168). Stores the active in-frame slots to the image at the W position and advances. -/
  | wst (f : E64)
  /-- WSTQ (R168). Stores an image and starts a knot add that follows visibility at SCOPE. -/
  | wstq (f : E64)
  /-- WSCT (R169). Scatters slots to elements by logical index. -/
  | wsct (f : E64)
  /-- WAMO (R170). Per-slot integer atomics at SCOPE. -/
  | wamo (f : E64)
  /-- WCADD (R171). Adds each slot as a term into a cell by address. -/
  | wcadd (f : E64)
  /-- WCPY (R229). Checks and hands a copy-engine command with a transform to an engine. -/
  | wcpy (f : E64)
  /-- WCPYX (R240). Hands an XOR-into-destination copy command to an engine. -/
  | wcpyx (f : E64)
  /-- WSEND (R209). Checks and sends token rows as requests to expert windows, counting per expert. -/
  | wsend (f : E64)
  /-- WATTD (R247). Issues a decode attention job to the stack attention units. -/
  | wattd (f : E64)
  /-- WATTS (R254). Closes a buffered job with a score pass into a cell table, or drops it. -/
  | watts (f : E64)
  /-- WFLUSH (R172). Writes back, and optionally invalidates, the lines an image touches. -/
  | wflush (f : E64)
  /-- WMSK (R167). Stores mask bits to an mbit image. -/
  | wmsk (f : E64)
  /-- WKADD (R100). W-strand knot add. -/
  | wkadd (f : E64)
  /-- WKWAIT (R100). W-strand knot wait. -/
  | wkwait (f : E64)
  /-- WNOP (R100). W no-operation. -/
  | wnop (f : E64)
  /-- HEADLAND (R18). Opens a block repeated an immediate REP times and pushes a block-stack entry. -/
  | headland (b : BitVec 11) (r : Bool) (n : BitVec 14)
  /-- HEADLAND_COUNTED (R18). Opens a block whose count S reads from a scalar register, skipping the body on 0. -/
  | headlandCounted (b : BitVec 11) (r : Bool) (c : BitVec 5)
  /-- LAUNCH_COMPLETION (R287). A draining launch whose producers are complete writes DIGEST and STATUS and advances DONE. -/
  | launchCompletion (lid : Nat)
  /-- RECORD_TAKE (R287). The arbiter takes a queued record in ring order and checks it. -/
  | recordTake (q : Nat)
  /-- AGING_STEP (R288). Every full 100 µs in READY or PREEMPTED raises a launch's effective level. -/
  | agingStep (lid : Nat)
  /-- WORKER_COMPLETION (R17). The worker completes once all strands stopped, writes landed and stores are visible at device
  scope. -/
  | workerCompletion (key : Nat)
  /-- TRAP_ENTRY (R313). After all strands stop on a fault, the trap CSRs are written and S enters the handler in supervisor
  mode. -/
  | trapEntry (key : Nat)
  /-- ABORTED_LAUNCH_COMPLETION (R339). Once the aborted launch's commands and jobs have stopped, STATUS 3 is written and the
  launch becomes COMPLETE. -/
  | abortedLaunchCompletion (lid : Nat)
  /-- PREEMPTION_REQUEST (R318). A pre-emption request stops every strand of a worker at its next instruction boundary. -/
  | preemptionRequest (key : Nat)
  /-- CONTEXT_SAVE (R320). After in-flight work is settled, the worker's context is written to the vault save area. -/
  | contextSave (key : Nat)
  /-- CONTEXT_RESTORE (R320). The saved context is loaded back and the worker resumes, reissuing SAU job records. -/
  | contextRestore (key : Nat)
  /-- SAVE_IMAGE_MOVE (R320). Another context's save image is moved to reserved HBM before a worker starts, or back before a
  restore. -/
  | saveImageMove (key : Nat)
  /-- PLANE_TRANSFER (R182). The matrix planes of another context are written out, or this context's are loaded back, before a
  plane instruction. -/
  | planeTransfer (key : Nat)
  /-- NEIGHBOUR_TABLE_REBUILD (R222). After a restore the sheaf closest-neighbour table is rebuilt before the first sheaf
  instruction. -/
  | neighbourTableRebuild (key : Nat)
  /-- PAGE_WALK (R305). A walker translates a virtual address through four levels, waiting for a free walker. -/
  | pageWalk (key : Nat) (va : Nat)
  /-- SATINV_COMPLETION (R309). Once matching translations are dropped and their accesses drained, the satinv knot is added as a
  release. -/
  | satinvCompletion (n : Nat)
  /-- COPY_CHUNK (R232). A copy engine translates, checks and writes one chunk of a command. -/
  | copyChunk (key : Nat) (seq : Nat)
  /-- COPY_COMMAND_COMPLETION (R233). When every destination write is visible at SCOPE the engine adds 1 to the completion knot.
  -/
  | copyCommandCompletion (key : Nat) (seq : Nat)
  /-- SPAN_FOLD (R249). An SAU folds the tokens of one span into a triple and writes it. -/
  | spanFold (n : Nat) (span : Nat)
  /-- DECODE_JOB_COMPLETION (R251). When every span triple is visible the job adds to its knot, or ends with the error mark. -/
  | decodeJobCompletion (n : Nat)
  /-- SCORE_PASS_COMPLETION (R254). After every score term is admitted the buffers are released and the knot is added. -/
  | scorePassCompletion (n : Nat)
  /-- WSTQ_KNOT_ADD (R168). Once a wstq's bytes are visible at SCOPE, 1 is added to its knot. -/
  | wstqKnotAdd (n : Nat)
  /-- ADMIT_REQUEST (R210). The receiving unit admits or refuses a sent row against the window header. -/
  | admitRequest (n : Nat)
  /-- REFUSAL_ARRIVAL (R210). A refusal packet appends to the refusal queue, increments REFCNT and adds to the refusal knot. -/
  | refusalArrival (n : Nat)
  /-- MICRO_BATCH_CLOSE (R205). Once every worker has contributed, the bias table is updated from the counts and the generation
  advances. -/
  | microBatchClose (lid : Nat)
  /-- PHASE_END (R257). When every worker has committed or exited, the phase ends, PHASE advances and the detector resets. -/
  | phaseEnd (lid : Nat)
  /-- DOORBELL (R325). A doorbell write makes the arbiter read the queue header and take records up to TAIL, setting QERR on
  inconsistency. -/
  | doorbell (m : Nat) (q : Nat)
  /-- QERR_CLEAR (R325). Writing 1 to QERR clears it so the queue is served again. -/
  | qerrClear (m : Nat) (q : Nat)
  /-- RCTL_WRITE (R327). Enables a pool region, or clears EN and drains the region. -/
  | rctlWrite (m : Nat) (r : Nat) (v : Word)
  /-- RESUME (R328). Writing RESUME while STATE is lost starts region recovery. -/
  | resume (m : Nat) (r : Nat)
  /-- REGION_RECOVERY_COMPLETE (R328). When the pool device has cleared holder state the region returns to STATE 01. -/
  | regionRecoveryComplete (r : Nat)
  /-- LSTORE_CLEAR (R328). Writing 1 to LSTORE clears the lost-store indication. -/
  | lstoreClear (m : Nat) (r : Nat)
  /-- PLOST_CLEAR (R329). Writing 1 to PLOST clears a port's lost-peer-store indication. -/
  | plostClear (m : Nat) (p : Nat)
  /-- CLAIM_OWNERSHIP (R330). A master writes its own id while OWN is free and becomes owner. -/
  | claimOwnership (m : Nat)
  /-- OFFER_OWNERSHIP (R330). The owner writes another id, setting PEND to offer ownership. -/
  | offerOwnership (m : Nat) (x : Nat)
  /-- RELEASE_OWNERSHIP (R330). The owner writes 0xFFFF, freeing OWN and PEND. -/
  | releaseOwnership (m : Nat)
  /-- ACCEPT_OWNERSHIP (R330). The offered master writes its id and becomes owner. -/
  | acceptOwnership (m : Nat)
  /-- REGISTER_WRITE (R324). A write to a BAR0 register without behaviour of its own takes effect if the writer is the owner. -/
  | registerWrite (m : Nat) (off : Nat) (v : Word)
  /-- HOST_MEMORY_REQUEST (R323). The host accesses device HBM through CXL.mem, coherent by back-invalidation. -/
  | hostMemoryRequest (rq : MemRequest)
  /-- PEER_REQUEST (R276). A request from a peer device over Fupel is performed at this device's home agent. -/
  | peerRequest (d : Nat) (rq : MemRequest)
  /-- BACK_INVALIDATION (R278). The pool device's back-invalidation makes this device write back, invalidate and settle a pool
  line. -/
  | backInvalidation (line : Nat)
  /-- POOL_LINK_LOSS (R279). Loss of a pool port's link stops access to its regions, drops dirty sectors and records lost
  stores. -/
  | poolLinkLoss (p : Nat)
  /-- FUPEL_PORT_DOWN (R329). A Fupel port goes down and its requests move to another port, or fail when none is up. -/
  | fupelPortDown (p : Nat)
  /-- CORE_SPARE (R334). A spare core and vault are brought in while the physical core holds no context. -/
  | coreSpare (core : Nat)
  /-- MACRO_COLUMN_SPARE (R334). A spare macro column is brought in when no plane is resident. -/
  | macroColumnSpare (core : Nat) (col : Nat)
  /-- PSEUDO_CHANNEL_SPARE (R334). A spare HBM pseudo-channel is copied in online. -/
  | pseudoChannelSpare (n : Nat)
  /-- FUPEL_LANE_SPARE (R334). A spare Fupel lane is brought in and the port retrains. -/
  | fupelLaneSpare (p : Nat)
  /-- THERMAL_FREEZE (R331). A die above 105 °C at the floor clock for 1 ms is frozen. -/
  | thermalFreeze (d : Nat)
  /-- FREEZE (R335). A freeze command stops every compute and memory clock and takes the links down. -/
  | freeze (m : Nat)
  /-- DIAGNOSTIC_READ (R335). While frozen, the controller reads a register, SRAM or sector over the management port. -/
  | diagnosticRead (x : Probe)
  /-- ATTESTATION_REPORT (R337). A nonce request returns a signed report of measurements and optionally a launch digest. -/
  | attestationReport (nonce : BitVec 256) (lid : Nat)
  /-- POOL_LINK_UP (R328). A pool port's link comes back up, which lets a region in recovery proceed from STATE 11 to service. -/
  | poolLinkUp (p : Nat)
  /-- FUPEL_PORT_UP (R329). A Fupel port trains up, setting UP, LANES and PEER in PSTAT and becoming usable for its ROUTE masks.
  -/
  | fupelPortUp (p : Nat) (d : Nat) (n : Nat)
  /-- FLIT_RETRANSMISSION (R329). A flit that fails its link-level CRC is retransmitted in order and RETRY is incremented. -/
  | flitRetransmission (p : Nat)
  /-- FUPEL_LANE_LOSS (R334). A port that loses a lane with no spare left runs on at reduced width, with LANES = 3. -/
  | fupelLaneLoss (p : Nat)
  /-- REPETITION_END (R19). At a block's end address the count is decremented and the body repeats or the entry pops, subject to
  the slip window. -/
  | repetitionEnd
  /-- WRITE_LANDING (R25). A pending register, mask or predicate write lands once its count is passed and its result is ready. -/
  | writeLanding
  /-- TOKEN_PUSH (R23). An instruction's token is pushed after it completes, waiting for room in a full queue. -/
  | tokenPush
  /-- QUEUE_PUSH (R32). A result pushes its operand-queue entry at landing, waiting for queue room. -/
  | queuePush
  /-- SCRUB (R332). The management controller scrubs every vault, L2 and HBM sector within each 24 hours, marking uncorrectable
  sectors. -/
  | scrub
  /-- ARBITER_DECISION (R288). The arbiter chooses a READY or PREEMPTED launch by effective level and reserves cores. -/
  | arbiterDecision
  /-- OFFER_LAPSE (R330). An ownership offer lapses after 1 ms and PEND returns to 0xFFFF. -/
  | offerLapse
  /-- CLOCK_STEP (R331). Outside rated conditions the controller lowers the core clock by 125 MHz. -/
  | clockStep
  /-- RESET (R336). At reset the boot ROM verifies and measures the firmware images and discards all contexts. -/
  | reset
  /-- MACHINE_CHECK_LOG_READ (R333). The machine-check records are read over the management port. -/
  | machineCheckLogRead
  deriving DecidableEq, Repr

end Sys2Proof
end

