-- ==== Sys2Proof/Decode.lean ====
section
/-! DEFINITION. Decoding of parcels, total on any parcels: the formats of R47 to R51, the opcode maps of R56 to R58, the
checks that R59 makes before anything is popped (steps 1 to 5), and the encoder. A word the spec reserves is no
`Instr`: `decode` says by name what the strand raises for it. -/
namespace Sys2Proof

/-! ### Fields of MOD11 (R54) -/

/-- Bits [10:9]: TY, AX, SEL or the per-instruction field. -/
def E64.top2 (f : E64) : Nat := (f.mod11.extractLsb' 9 2).toNat
/-- Bits [8:6]: RM, CC or EW. -/
def E64.mid3 (f : E64) : Nat := (f.mod11.extractLsb' 6 3).toNat
/-- Bits [10:6]: a format code. -/
def E64.fmt5 (f : E64) : BitVec 5 := f.mod11.extractLsb' 6 5
/-- Bits [5:3]: MK, or RM in the conversion layout. -/
def E64.lo3 (f : E64) : Nat := (f.mod11.extractLsb' 3 3).toNat
/-- Bits [2:0]: HINT with NA, SCOPE, OP or AW. -/
def E64.end3 (f : E64) : Nat := (f.mod11.extractLsb' 0 3).toNat
/-- Bit `i` of MOD11. -/
def E64.modBit (f : E64) (i : Nat) : Bool := f.mod11.getLsbD i
/-- Bits [1:0]: MS. -/
def E64.ms (f : E64) : Nat := (f.mod11.extractLsb' 0 2).toNat
/-- Bit 2: ZM, or SAT in the conversion layout. -/
def E64.zm (f : E64) : Bool := f.modBit 2
/-- B8:C8 read as one 16-bit number, B8 high (R53). -/
def E64.bc (f : E64) : BitVec 16 := f.b8 ++ f.c8

/-! ### Format codes (R55) -/

/-- A format code that names a format: 0x00 to 0x16. -/
def fmtNamed (c : BitVec 5) : Bool := c.toNat ≤ 0x16
/-- The furrow's own format, or a named one (R54). -/
def fmtOverride (c : BitVec 5) : Bool := c == 0x1F || fmtNamed c
/-- A block format (R74). -/
def fmtIsKb (c : BitVec 5) : Bool := 0x0D ≤ c.toNat && c.toNat ≤ 0x10
/-- A codebook format (R76). -/
def fmtIsCb (c : BitVec 5) : Bool := 0x11 ≤ c.toNat && c.toNat ≤ 0x14

/-- A conversion source format that no small immediate has: e4m3, e5m2, a block or a codebook format (R14). -/
def immIllegal (c : BitVec 5) : Bool := c == 3 || c == 4 || fmtIsKb c || fmtIsCb c

/-! ### Queue rights (R32) -/

/-- Whether an engine may push a queue. -/
def mayPush (e : Eng) (q : Nat) : Bool :=
  match e with
  | .S => q == 14
  | .L => q ≤ 7 || q == 15
  | .V => q == 8 || q == 9 || q == 12 || q == 15
  | .M => q == 10 || q == 11 || q == 13 || q == 15
  | .W => false

/-- Whether an engine may pop a queue. -/
def mayPop (e : Eng) (q : Nat) : Bool :=
  match e with
  | .S => q == 15
  | .L => false
  | .V => q ≤ 3 || q == 10 || q == 11 || q == 14
  | .M => 4 ≤ q && q ≤ 9
  | .W => q == 12 || q == 13

/-- What the static checks find: nothing, an illegal encoding (cause 0x01 subcode 1) or queue misuse (0x0E). -/
inductive Verdict where
  | ok
  | illegal
  | misuse
  deriving DecidableEq, Repr

/-- The finding of R59 on one field: whether step 4 passes it, and what step 5 says of a queue it names. -/
structure Finding where
  lit : Bool
  queue : Verdict
  deriving DecidableEq, Repr

/-- A step-4 condition alone. -/
def need (b : Bool) : Finding := ⟨b, .ok⟩

/-- Step 4 over all fields first, then step 5 in field order (R59). -/
def settleFindings (l : List Finding) : Verdict :=
  if l.all (·.lit) then
    match l.find? (fun x => x.queue != .ok) with
    | some x => x.queue
    | none => .ok
  else .illegal

/-- Step 5 for a queue code: denied by R32's table 0x0E, allowed but not among the named ones subcode 1. -/
def queueFinding (allowed named : Nat → Bool) (x : BitVec 8) : Finding :=
  let q := x.toNat - 0x80
  ⟨true, if !allowed q then .misuse else if named q then .ok else .illegal⟩

/-- The code names a v register (R52). -/
def isV (x : BitVec 8) : Bool := x.toNat < 0x80
/-- The code names a queue (R52). -/
def isQ (x : BitVec 8) : Bool := 0x80 ≤ x.toNat && x.toNat ≤ 0x8F
/-- The code names a coordinate operand (R52). -/
def isCoord (x : BitVec 8) : Bool := 0x90 ≤ x.toNat && x.toNat ≤ 0x94
/-- The code is a small immediate (R52). -/
def isImm (x : BitVec 8) : Bool := 0xC0 ≤ x.toNat
/-- The small immediate a code stands for (R14, R52). -/
def immOf (x : BitVec 8) : Int := (x.toNat : Int) - 0xE0

/-- A destination: a v register, or a queue the instruction names. -/
def dst (e : Eng) (named : Nat → Bool) (x : BitVec 8) : Finding :=
  if isV x then need true else if isQ x then queueFinding (mayPush e) named x else need false
/-- A source that is a v register or a queue the instruction names. -/
def src (e : Eng) (named : Nat → Bool) (x : BitVec 8) : Finding :=
  if isV x then need true else if isQ x then queueFinding (mayPop e) named x else need false
/-- A queue destination only (R221): a v register is illegal. -/
def dstQ (e : Eng) (named : Nat → Bool) (x : BitVec 8) : Finding :=
  if isQ x then queueFinding (mayPush e) named x else need false

/-- Queues that V's operand lists name as destination (q15 is pushed only implicitly, R32). -/
def vDstQ (q : Nat) : Bool := q == 8 || q == 9 || q == 12
/-- Every queue V may pop is a legal V source (R123). -/
def vSrcQ (_ : Nat) : Bool := true
/-- A destination of V. -/
def vDst (x : BitVec 8) : Finding := dst .V vDstQ x
/-- A register or queue source of V. -/
def vSrc (x : BitVec 8) : Finding := src .V vSrcQ x
/-- A source of a V lane instruction: register, queue, coordinate or small immediate (R52, R108). -/
def lane (x : BitVec 8) : Finding :=
  if isCoord x || isImm x then need true else vSrc x
/-- A source field that an operand list gives as a v register alone: a queue goes through step 5 of R59 (R160, log 42). -/
def vOnlySrc (e : Eng) (x : BitVec 8) : Finding := src e (fun _ => false) x
/-- A field that holds a small immediate or q14; any other code is illegal (R124, log 42). -/
def immOrQ14 (x : BitVec 8) : Finding := need (isImm x || x == 0x8E)
/-- A count of L that is a small immediate from `lo` to `hi`: a queue goes through step 5 of R59 (R160). -/
def countL (lo hi : Int) (x : BitVec 8) : Finding :=
  if isQ x then queueFinding (mayPop .L) (fun _ => false) x else need (isImm x && lo ≤ immOf x && immOf x ≤ hi)
/-- A companion field: a v register or 0xFF (R124). -/
def companion (x : BitVec 8) : Finding := need (isV x || x == 0xFF)

/-- MK and ZM: ZM = 1 with MK = 7 is illegal (R54). -/
def maskOk (f : E64) : Bool := !(f.zm && f.lo3 == 7)

/-- The field that MS selects (R54): A, B or C. -/
def E64.mapField (f : E64) : BitVec 8 :=
  match f.ms with
  | 0 => f.a8
  | 1 => f.b8
  | _ => f.c8

/-- A source field of a lane instruction that has (`used`) or lacks a data operand there; `sel` says MS selects it. A field
read only as a map source names a v register or a queue (R108). -/
def laneField (used sel : Bool) (x : BitVec 8) : Finding :=
  if used then lane x else if sel then vSrc x else need (x == 0)

/-- R11: where a coordinate is read, the map source must be a v register or a queue. -/
def mapRule (f : E64) (reads : Bool) : Finding :=
  need (!reads || isV f.mapField || isQ f.mapField)

/-- The checks that lane instructions of `n` data operands share: destination apart. -/
def laneFindings (f : E64) (n : Nat) (rsr : Bool) : List Finding :=
  let cs := [f.a8, f.b8, f.c8].take n
  [ need (f.ms ≠ 3), lane f.a8, laneField (2 ≤ n) (f.ms == 1) f.b8, laneField (3 ≤ n) (f.ms == 2) f.c8,
    mapRule f (rsr || cs.any isCoord) ]

/-- V float layout with `n` sources; `rounds` when RM matters to it (R54, R110, R71). -/
def checkFloat (f : E64) (n : Nat) (rounds : Bool) : List Finding :=
  [need (f.top2 ≠ 3), need (f.mid3 < 6), need (maskOk f), vDst f.d8] ++ laneFindings f n (rounds && f.mid3 == 5)

/-- V integer layout (R54, R115); UNS and SAT where the table accepts them. -/
def checkInt (f : E64) (n : Nat) (uns sat : Bool) : List Finding :=
  [need (uns || !f.modBit 8), need (sat || !f.modBit 7), need (!f.modBit 6), need (maskOk f), vDst f.d8]
    ++ laneFindings f n false

/-- Mask logic (R117): MOD11 zero, mask numbers in the fields used, zero in the others. -/
def checkMask (f : E64) (d a b : Bool) : List Finding :=
  let m (used : Bool) (x : BitVec 8) : Finding := need (if used then decide (x.toNat < 8) else x == 0)
  [need (f.mod11 == 0), m d f.d8, m a f.a8, m b f.b8, need (f.c8 == 0)]

/-- V movement and reduction layout: EW, MK with ZM, and MS 00 (R54, R122); EW 101 to 111 is illegal in `vmapq` too, which
reads no EW (log 43). -/
def checkMove (f : E64) : List Finding :=
  [need (f.mid3 ≤ 4), need (maskOk f), need (f.ms == 0)]

/-- A C8 of the form RM and FMT (R124). -/
def rmFmt (x : BitVec 8) : Finding := need ((x.extractLsb' 5 3).toNat < 6 && fmtNamed (x.extractLsb' 0 5))

/-- A zero field. -/
def zero8 (x : BitVec 8) : Finding := need (x == 0)
/-- A plain number below `n` (R53). -/
def num (n : Nat) (x : BitVec 8) : Finding := need (x.toNat < n)
/-- SCOPE codes 1 to `n` (R160). -/
def scopeOk (s n : Nat) : Bool := 1 ≤ s && s ≤ n
/-- HINT, bits [2:1]: 11 is illegal (R160). -/
def hintOk (f : E64) : Bool := (f.mod11.extractLsb' 1 2).toNat ≠ 3
/-- A W source: v, q12 or q13 (R160). -/
def wSrc (x : BitVec 8) : Finding := src .W (fun _ => true) x
/-- An L destination: v or q0 to q7 (R160). -/
def lDst (x : BitVec 8) : Finding := dst .L (· ≤ 7) x
/-- An M source: v or q4 to q9 (R191). -/
def mSrc (x : BitVec 8) : Finding := src .M (fun _ => true) x
/-- M's queue destinations: q10, q11, q13 (R191). -/
def mDstQ (q : Nat) : Bool := q == 10 || q == 11 || q == 13
/-- An index field that is a v register, or 0xFF for none (R160). -/
def indexOrNone (x : BitVec 8) : Finding := if x == 0xFF then need true else vOnlySrc .W x
/-- The knot add, knot wait and nop forms (R54, R100). -/
def checkKnot (f : E64) : List Finding := [need (f.mod11 == 0), num 32 f.d8, zero8 f.a8]
/-- See `checkKnot`. -/
def checkNop (f : E64) : List Finding := [need (f.mod11 == 0), zero8 f.d8, zero8 f.a8, zero8 f.b8, zero8 f.c8]
/-- `wcpy` and `wcpyx` (R226, R229). -/
def checkCopy (f : E64) (xor : Bool) : List Finding :=
  let xf := (f.mod11.extractLsb' 7 4).toNat
  let sc := (f.mod11.extractLsb' 4 3).toNat
  let rk := f.modBit 2
  [ need (if xor then xf == 0 || xf == 5 else xf ≤ 6), need (scopeOk sc 5), need (!rk || 3 ≤ sc), need (f.ms == 0),
    num 32 f.d8, num (if xf == 6 then 16 else 32) f.a8, need (if rk then isV f.b8 else decide (f.b8.toNat < 32)),
    need (f.c8.toNat < 16 || f.c8 == 0xFF) ]
/-- MOD11 of `wattd` and `watts` (R247, R254). -/
def checkSau (f : E64) : List Finding :=
  [need ((f.mod11.extractLsb' 7 4) == 0), need (scopeOk (f.mod11.extractLsb' 4 3).toNat 5), need (f.end3 == 0)]

/-- CSR numbers that R106 and R311 assign. -/
def csrAssigned (c : Nat) : Bool :=
  c ≤ 0x00D || (0x010 ≤ c && c ≤ 0x01B) || (0x020 ≤ c && c ≤ 0x023) || (0x100 ≤ c && c ≤ 0x10C)

/-- GN = 1 with GP = 15 is illegal (R30, R59 step 2). -/
def Guard.ok (g : Guard) : Bool := !(g.gn && g.gp == 15)

/-- The findings of R59 steps 4 and 5 on an E64 instruction, from its description. -/
def e64Findings : Instr → List Finding
  | .vadd f | .vsub f | .vmul f | .vdiv f => checkFloat f 2 true
  | .vfma f | .vfms f | .vfnma f => checkFloat f 3 true
  | .vmin f | .vmax f => checkFloat f 2 false
  | .vabs f | .vneg f => checkFloat f 1 false
  | .vsqrt f | .vrcp f | .vrsq f | .vexp2 f | .vlog2 f | .vtanh f => checkFloat f 1 true
  | .vsincos f => need (f.d8.toNat ≤ 0x7E) :: checkFloat f 1 true
  | .vrot f =>
    [need (f.top2 ≠ 3), need (f.mid3 < 6), need (maskOk f), need (f.ms == 0), need (isV f.d8), vSrc f.a8, num 16 f.b8,
      need (isCoord f.c8)]
  | .viadd f | .visub f | .vimul f => checkInt f 2 true true
  | .vimulh f | .vimin f | .vimax f => checkInt f 2 true false
  | .viand f | .vior f | .vixor f | .vishl f | .vishr f | .visra f => checkInt f 2 false false
  | .vipopc f => checkInt f 1 false false
  | .vcvt f =>
    let s := f.c8.extractLsb' 0 5
    let floaty (c : BitVec 5) : Bool := c.toNat ≤ 4
    [ need (fmtNamed f.fmt5), need (f.lo3 < 6), need (f.ms < 2), need (f.c8.extractLsb' 5 3 == 0), need (fmtNamed s),
      vDst f.d8, lane f.a8, laneField false (f.ms == 1) f.b8,
      need (!(isImm f.a8 && immIllegal s)),
      mapRule f (isCoord f.a8 || (f.lo3 == 5 && (floaty f.fmt5 || floaty s))) ]
  | .vqnt f =>
    [ need (fmtNamed f.fmt5), need (f.lo3 < 6), need (f.ms == 0), need (!f.zm), need (!f.c8.getLsbD 7),
      need (f.c8.extractLsb' 5 2 ≠ 3), need (fmtNamed (f.c8.extractLsb' 0 5)), vDst f.d8, lane f.a8,
      need (!(isImm f.a8 && immIllegal (f.c8.extractLsb' 0 5))),
      need (if fmtIsKb f.fmt5 then f.b8 == 0 else decide (f.b8.toNat < 16)),
      mapRule f (isCoord f.a8 || (f.lo3 == 5 && fmtIsKb f.fmt5)) ]
  | .vdq f =>
    let s := (f.c8.extractLsb' 4 4).toNat
    [ need (fmtNamed f.fmt5), need (f.lo3 < 6), need (f.ms < 2), need (s < 8), need (s < 4 || f.c8.extractLsb' 0 4 == 0),
      vDst f.d8, lane f.a8, need (!isImm f.a8), laneField false (f.ms == 1) f.b8,
      mapRule f (isCoord f.a8 || f.lo3 == 5) ]
  | .vcmp f =>
    [need (f.modBit 2 || f.top2 ≠ 3), num 8 f.d8] ++ laneFindings f 2 false
  | .vsel f =>
    [ need (f.top2 ≠ 3), need (f.mid3 < 6), need (maskOk f), need (f.ms ≠ 3), vDst f.d8, lane f.a8,
      laneField (f.lo3 ≠ 7) (f.ms == 1) f.b8, laneField false (f.ms == 2) f.c8,
      mapRule f (isCoord f.a8 || (f.lo3 ≠ 7 && isCoord f.b8)) ]
  | .mand f | .mor f | .mxor f => checkMask f true true true
  | .mnot f => checkMask f true true false
  | .mcnt f => checkMask f false true false
  | .vpset f =>
    [need (f.top2 ≠ 3), need (f.mod11.extractLsb' 0 9 == 0), num 16 f.d8, num 8 f.a8, zero8 f.b8, zero8 f.c8]
  | .vcrd f | .vgbias f => checkMove f ++ [vDst f.d8, vSrc f.a8, zero8 f.b8, zero8 f.c8]
  | .vmap f =>
    checkMove f ++ [need (f.top2 == 0), need (f.lo3 == 7), vDst f.d8, vSrc f.a8,
      (if isQ f.b8 then queueFinding (mayPop .V) (· == 14) f.b8 else need false), zero8 f.c8]
  | .vmapq f => checkMove f ++ [need (f.top2 == 0), need (f.lo3 == 7), zero8 f.d8, vSrc f.a8, zero8 f.b8, zero8 f.c8]
  | .vnoise f =>
    checkMove f ++ [need (f.top2 ≠ 3), vDst f.d8, vSrc f.a8, num (if f.top2 == 2 then 16 else 4) f.b8, zero8 f.c8]
  | .vmov f => checkMove f ++ [need (f.top2 < 2), vDst f.d8, vSrc f.a8, zero8 f.b8, zero8 f.c8]
  | .vslice f | .vbcast f =>
    checkMove f ++ [vDst f.d8, vSrc f.a8, immOrQ14 f.b8, need (!(isImm f.b8 && immOf f.b8 < 0)), zero8 f.c8]
  | .vshift f => checkMove f ++ [vDst f.d8, vSrc f.a8, immOrQ14 f.b8, zero8 f.c8]
  | .vtrn f => checkMove f ++ [need (f.top2 == 0), vDst f.d8, vSrc f.a8, zero8 f.b8, zero8 f.c8]
  | .vresh f => checkMove f ++ [need (f.top2 == 0), need (f.lo3 == 7), vDst f.d8, vSrc f.a8, zero8 f.b8, zero8 f.c8]
  | .vperm f => checkMove f ++ [vDst f.d8, vSrc f.a8, vSrc f.b8, companion f.c8]
  | .vcompact f => checkMove f ++ [need (!f.zm), vDst f.d8, vSrc f.a8, companion f.b8, zero8 f.c8]
  | .vexpand f =>
    [ need (f.mid3 ≤ 4), need (maskOk f), need (f.ms ≠ 3), vDst f.d8, vSrc f.a8, laneField false (f.ms == 1) f.b8,
      laneField false (f.ms == 2) f.c8 ]
  | .vrsum f | .vrmax f | .vrmin f | .vrargmax f | .vscan f | .vxscan f =>
    checkMove f ++ [vDst f.d8, vSrc f.a8, zero8 f.b8, rmFmt f.c8]
  | .vcadd f =>
    checkMove f ++ [need (f.top2 == 0), need (!f.zm), num 16 f.d8, vSrc f.a8, zero8 f.b8,
      need (f.c8.extractLsb' 5 3 == 0 && fmtNamed (f.c8.extractLsb' 0 5))]
  | .vatmrg f =>
    checkMove f ++ [need (f.top2 == 0), need (f.mid3 == 2), need (f.lo3 == 7), need (isV f.d8), need (isV f.a8), need (isV f.b8)]
  | .vkadd f | .vkwait f | .lkadd f | .lkwait f | .mkadd f | .mkwait f | .wkadd f | .wkwait f => checkKnot f
  | .vnop f | .lnop f | .mnop f | .wnop f => checkNop f
  | .ldv f | .lbc f =>
    [need (fmtOverride f.fmt5), need (hintOk f), lDst f.d8, num 32 f.a8, zero8 f.b8, zero8 f.c8]
  | .ldq f =>
    [ need (fmtOverride f.fmt5), need (f.lo3 == 7), need (f.mod11.extractLsb' 1 2 == 0), dstQ .L (· == 15) f.d8,
      num 32 f.a8, countL 1 16 f.b8, zero8 f.c8 ]
  | .lgth f =>
    [need (fmtOverride f.fmt5), need (!f.modBit 0), need (hintOk f), lDst f.d8, num 32 f.a8, need (isV f.b8), zero8 f.c8]
  | .lpre f =>
    [ need (f.fmt5 == 0x1F), need (f.lo3 == 7), need (f.mod11.extractLsb' 1 2 == 0), zero8 f.d8, num 32 f.a8,
      countL 0 31 f.b8, zero8 f.c8 ]
  | .ladv f =>
    [ need (f.fmt5 == 0x1F), need (f.lo3 == 7), need (f.end3 == 0), zero8 f.d8, num 32 f.a8, countL 0 31 f.b8,
      zero8 f.c8 ]
  | .lrst f =>
    [need (f.fmt5 == 0x1F), need (f.lo3 == 7), need (f.end3 == 0), zero8 f.d8, num 32 f.a8, zero8 f.b8, zero8 f.c8]
  | .lcbld f =>
    [ need (fmtOverride f.fmt5), need (f.lo3 == 7), need (!f.modBit 2), num 16 f.d8, num 32 f.a8,
      need (1 ≤ f.bc.toNat && f.bc.toNat ≤ 256) ]
  | .lcbsw f => [need (f.mod11 == 0), num 16 f.d8, zero8 f.a8, zero8 f.b8, zero8 f.c8]
  | .lmsk f =>
    [ need (f.fmt5 == 0x1F), need (f.lo3 == 7), need (hintOk f), num 8 f.d8, num 32 f.a8, zero8 f.b8, zero8 f.c8 ]
  | .mzclr f | .mzcnt f => [need (f.mod11 == 0), num 16 f.d8, zero8 f.a8, zero8 f.b8, zero8 f.c8]
  | .mldb f =>
    [ need (fmtOverride f.fmt5), need (f.lo3 < 5), need (f.ms ≠ 3), num 4 f.d8, mSrc f.a8,
      need (if f.fmt5 == 0x1F then decide (f.b8.toNat < 16) else f.b8 == 0), zero8 f.c8 ]
  | .mswap f => [need (f.mod11 == 0), zero8 f.d8, zero8 f.a8, zero8 f.b8, zero8 f.c8]
  | .mmul f =>
    [ need (f.lo3 < 5), need (!(f.fmt5 == 0x1F && f.end3 ≠ 0)), num 16 f.d8, mSrc f.a8,
      zero8 f.b8, zero8 f.c8 ]
  | .mrank f =>
    [ need (f.mod11.extractLsb' 6 5 == 0), need (f.ms == 0), need (maskOk f), dst .M mDstQ f.d8, mSrc f.a8, zero8 f.b8,
      zero8 f.c8 ]
  | .mrdz f =>
    [ need (f.lo3 < 6), need (f.ms == 0), dst .M mDstQ f.d8, num 16 f.a8,
      need (f.bc.extractLsb' 14 2 == 0) ]
  | .shins f =>
    [need (f.mod11.extractLsb' 0 6 == 0), dstQ .M mDstQ f.d8, num 4 f.a8, mSrc f.b8, zero8 f.c8]
  | .shmrg f | .shclr f => [need (f.mod11 == 0), num 4 f.d8, zero8 f.a8, zero8 f.b8, zero8 f.c8]
  | .shrd f =>
    [need (f.mod11.extractLsb' 1 10 == 0), dstQ .M mDstQ f.d8, num 4 f.a8, zero8 f.b8, zero8 f.c8]
  | .wst f => [need (fmtOverride f.fmt5), need (hintOk f), num 32 f.d8, wSrc f.a8, zero8 f.b8, zero8 f.c8]
  | .wstq f =>
    [need (fmtOverride f.fmt5), need (scopeOk f.end3 3), num 32 f.d8, wSrc f.a8, zero8 f.b8, num 32 f.c8]
  | .wsct f =>
    [ need (fmtOverride f.fmt5), need (!f.modBit 0), need (hintOk f), num 32 f.d8, wSrc f.a8, vOnlySrc .W f.b8,
      zero8 f.c8 ]
  | .wamo f =>
    [ need (fmtOverride f.fmt5), num 32 f.d8, wSrc f.a8, indexOrNone f.b8,
      need (scopeOk (f.c8.extractLsb' 0 3).toNat 5 && !f.c8.getLsbD 3 && f.c8.extractLsb' 5 3 == 0) ]
  | .wcadd f =>
    [need (fmtNamed f.fmt5), need (scopeOk f.end3 5), num 32 f.d8, wSrc f.a8, indexOrNone f.b8, zero8 f.c8]
  | .wcpy f => checkCopy f false
  | .wcpyx f => checkCopy f true
  | .wsend f =>
    [need (fmtNamed f.fmt5), need (f.end3 == 0), num 32 f.d8, wSrc f.a8, vOnlySrc .W f.b8, vOnlySrc .W f.c8]
  | .wattd f => checkSau f ++ [num 32 f.d8, need (isV f.a8), need (isV f.b8), num 32 f.c8]
  | .watts f => checkSau f ++ [num 32 f.d8, need (isV f.a8)]
  | .wflush f =>
    [ need (f.fmt5 == 0x1F), need (f.lo3 == 7), need (!f.modBit 2), num 32 f.d8, zero8 f.a8, zero8 f.b8, zero8 f.c8 ]
  | .wmsk f => [need (f.fmt5 == 0x1F), need (hintOk f), num 32 f.d8, num 8 f.a8, zero8 f.b8, zero8 f.c8]
  | _ => []

/-- The step-4 conditions on an S instruction (R48 to R50 and the description of each). -/
def sFieldsOk : Instr → Bool
  | .fence k s => k.toNat ≤ 4 && s.toNat ≤ 5
  | .csrr _ _ c | .csrw _ _ c | .csrs _ _ c | .csrc _ _ c => csrAssigned c.toNat
  | .sgsync _ c | .sgarr _ c => c.toNat ≤ 255
  | .seq _ d _ _ | .sne _ d _ _ | .slt _ d _ _ | .sltn _ d _ _ | .sle _ d _ _ | .slen _ d _ _
  | .sflt _ d _ _ | .sfeq _ d _ _ | .sfle _ d _ _ => d.toNat < 16
  | .pand _ d a b | .por _ d a b | .pxor _ d a b | .pandn _ d a b => d.toNat < 16 && a.toNat < 16 && b.toNat < 16
  | .sshli _ _ i | .sshri _ _ i | .ssrai _ _ i => i.toNat < 64
  | .kwaiti _ _ i => !i.msb
  | .sld f => (f.mod5.extractLsb' 3 2).toNat < 2 && !(f.mod5.getLsbD 2 && f.mod5.extractLsb' 0 2 == 3)
  | .sst f => !f.mod5.getLsbD 3 && !f.mod5.getLsbD 2
  | .samo f =>
    let sc := (f.g.gp.extractLsb' 0 3).toNat
    let op := (f.mod5.extractLsb' 0 4).toNat
    scopeOk sc 5 && op ≤ 9 && !(op == 5 && (f.d == 0 || f.d == 31))
  | .br f | .call f => f.d == 0 && f.a == 0 && f.mod5 == 0
  | .sli32 f => f.a == 0 && f.mod5 == 0
  | .saddi32 f => f.mod5 == 0
  | .sfset f => f.mod5.toNat ≤ 16
  | .szset f => f.d.toNat < 16 && f.mod5.toNat ≤ 4
  | .shset f => f.d.toNat < 4 && f.mod5.toNat ≤ 7
  | .sshape f => fmtNamed f.mod5
  | .sbkj f => f.d == 0 && f.mod5 == 0 && f.imm == 0
  | .slaunch f => f.mod5 == 0
  | .slaydef f => f.mod5 == 0 && f.imm.extractLsb' 16 16 == 0
  | .satinv f => f.imm.extractLsb' 17 15 == 0 && !(f.imm.getLsbD 16 && f.imm.extractLsb' 0 16 ≠ 0)
  | _ => true

/-- R59 steps 2, 4 and 5 on an instruction, the guard encoding first. Only `samo` has no guard (R96). -/
def Instr.verdict (g : Option Guard) (i : Instr) : Verdict :=
  match g with
  | some g => if g.ok then (if sFieldsOk i then settleFindings (e64Findings i) else .illegal) else .illegal
  | none => if sFieldsOk i then settleFindings (e64Findings i) else .illegal

/-! ### Vector registers that an instruction reads (R10, R27) -/

/-- What an E64 instruction reads of the vector registers (R27, R108): its guard, the codes of its vector sources, data or map;
the code through whose map it reads coordinates, with the number of earlier fields that name the same queue; and the
destinations that keep slots of what they hold (R109, R161). -/
structure Reads where
  guard : Guard
  srcs : List (BitVec 8)
  coords : Option (BitVec 8 × Nat)
  dests : List (BitVec 8)
  deriving DecidableEq, Repr

/-- The field that MS selects, as a source of coordinates. -/
def E64.mapSource (f : E64) : BitVec 8 × Nat :=
  (f.mapField, (([f.a8, f.b8, f.c8].take f.ms).filter (· == f.mapField)).length)

/-- The destination of a layout with MK and ZM, where it keeps its inactive slots (R109). -/
def E64.merges (f : E64) : List (BitVec 8) := if f.zm || f.lo3 == 7 then [] else [f.d8]

/-- The destination of a load, where it keeps its inactive slots (R161). -/
def E64.mergesL (f : E64) : List (BitVec 8) := if f.lo3 == 7 then [] else [f.d8]

/-- A lane instruction of `n` data operands: it reads coordinates for a coordinate operand, and for RM 5 where it rounds. -/
def E64.readsLane (f : E64) (n : Nat) (rsr : Bool) (dests : List (BitVec 8)) : Reads :=
  let l := [f.a8, f.b8, f.c8].take n
  ⟨f.g, l ++ [f.mapField], if rsr || l.any isCoord then some f.mapSource else none, dests⟩

/-- An instruction with the one source A, which it may read coordinates through. -/
def E64.readsA (f : E64) (coords : Bool) (dests : List (BitVec 8)) : Reads :=
  ⟨f.g, [f.a8], if coords then some (f.a8, 0) else none, dests⟩

/-- Sources read as they are. -/
def E64.readsOnly (f : E64) (l dests : List (BitVec 8)) : Reads := ⟨f.g, l, none, dests⟩

/-- What an instruction of L, V, M or W reads of the vector registers; any other reads none. -/
def Instr.reads : Instr → Option Reads
  | .ldv f | .lbc f => some (f.readsOnly [] f.mergesL)
  | .lgth f => some (f.readsOnly [f.b8] f.mergesL)
  | .vadd f | .vsub f | .vmul f | .vdiv f => some (f.readsLane 2 (f.mid3 == 5) f.merges)
  | .vfma f | .vfms f | .vfnma f => some (f.readsLane 3 (f.mid3 == 5) f.merges)
  | .vmin f | .vmax f => some (f.readsLane 2 false f.merges)
  | .vabs f | .vneg f => some (f.readsLane 1 false f.merges)
  | .vsqrt f | .vrcp f | .vrsq f | .vexp2 f | .vlog2 f | .vtanh f => some (f.readsLane 1 (f.mid3 == 5) f.merges)
  | .vsincos f => some (f.readsLane 1 (f.mid3 == 5) (f.merges.flatMap fun d => [d, d + 1]))
  | .viadd f | .visub f | .vimul f | .vimulh f | .vimin f | .vimax f | .viand f | .vior f | .vixor f | .vishl f | .vishr f | .visra f =>
    some (f.readsLane 2 false f.merges)
  | .vipopc f => some (f.readsLane 1 false f.merges)
  | .vcvt f => some (f.readsLane 1 (f.lo3 == 5) [])
  | .vqnt f => some (f.readsLane 1 (f.lo3 == 5 && fmtIsKb f.fmt5) [])
  | .vdq f => some (f.readsLane 1 (f.lo3 == 5) [])
  | .vcmp f => some (f.readsLane 2 false [])
  | .vsel f => some (f.readsLane (if f.lo3 == 7 then 1 else 2) false [])
  | .vrot f | .vcrd f | .vnoise f | .vgbias f => some (f.readsA true f.merges)
  | .vmap f | .vmapq f | .vresh f | .vcadd f => some (f.readsA false [])
  | .vmov f | .vslice f | .vbcast f | .vshift f | .vtrn f => some (f.readsA false f.merges)
  | .vperm f => some { f.readsA (isV f.c8) f.merges with srcs := [f.a8, f.b8] }
  | .vcompact f => some (f.readsA (isV f.b8) [])
  | .vexpand f => some (f.readsOnly [f.a8, f.mapField] f.merges)
  | .vrsum f | .vscan f | .vxscan f => some (f.readsA (f.c8.extractLsb' 5 3 == 5) f.merges)
  | .vrmax f | .vrmin f => some (f.readsA false f.merges)
  | .vrargmax f => some (f.readsA true f.merges)
  | .vatmrg f => some (f.readsOnly [f.a8, f.b8] [])
  | .mldb f | .mmul f => some (f.readsA false [])
  | .mrank f => some (f.readsA false f.merges)
  | .shins f => some (f.readsOnly [f.b8] [])
  | .wst f | .wstq f | .watts f => some (f.readsA false [])
  | .wsct f | .wamo f | .wcadd f | .wattd f => some (f.readsOnly [f.a8, f.b8] [])
  | .wsend f => some (f.readsOnly [f.a8, f.b8, f.c8] [])
  | .wcpy f | .wcpyx f => some (f.readsOnly (if f.modBit 2 then [f.b8] else []) [])
  | _ => none

/-- The E64 constructor that an engine assigns to an opcode (R57, R58); none where it assigns none. -/
def e64Instr (eng : Eng) (op : Nat) (f : E64) : Option Instr :=
  match eng with
  | .S => none
  | .L =>
    match op with
    | 0x00 => some (.ldv f)
    | 0x01 => some (.ldq f)
    | 0x02 => some (.lgth f)
    | 0x03 => some (.lbc f)
    | 0x04 => some (.lpre f)
    | 0x05 => some (.ladv f)
    | 0x06 => some (.lrst f)
    | 0x07 => some (.lcbld f)
    | 0x08 => some (.lcbsw f)
    | 0x09 => some (.lmsk f)
    | 0x78 => some (.lkadd f)
    | 0x79 => some (.lkwait f)
    | 0x7F => some (.lnop f)
    | _ => none
  | .V =>
    match op with
    | 0x00 => some (.vadd f)
    | 0x01 => some (.vsub f)
    | 0x02 => some (.vmul f)
    | 0x03 => some (.vfma f)
    | 0x04 => some (.vfms f)
    | 0x05 => some (.vfnma f)
    | 0x06 => some (.vmin f)
    | 0x07 => some (.vmax f)
    | 0x08 => some (.vabs f)
    | 0x09 => some (.vneg f)
    | 0x0A => some (.vdiv f)
    | 0x0B => some (.vsqrt f)
    | 0x0C => some (.vrcp f)
    | 0x0D => some (.vrsq f)
    | 0x0E => some (.vexp2 f)
    | 0x0F => some (.vlog2 f)
    | 0x10 => some (.vtanh f)
    | 0x11 => some (.vsincos f)
    | 0x12 => some (.vrot f)
    | 0x18 => some (.viadd f)
    | 0x19 => some (.visub f)
    | 0x1A => some (.vimul f)
    | 0x1B => some (.vimulh f)
    | 0x1C => some (.viand f)
    | 0x1D => some (.vior f)
    | 0x1E => some (.vixor f)
    | 0x1F => some (.vishl f)
    | 0x20 => some (.vishr f)
    | 0x21 => some (.visra f)
    | 0x22 => some (.vimin f)
    | 0x23 => some (.vimax f)
    | 0x24 => some (.vipopc f)
    | 0x28 => some (.vcvt f)
    | 0x29 => some (.vqnt f)
    | 0x2A => some (.vdq f)
    | 0x30 => some (.vcmp f)
    | 0x31 => some (.vsel f)
    | 0x32 => some (.mand f)
    | 0x33 => some (.mor f)
    | 0x34 => some (.mxor f)
    | 0x35 => some (.mnot f)
    | 0x36 => some (.mcnt f)
    | 0x37 => some (.vpset f)
    | 0x38 => some (.vcrd f)
    | 0x39 => some (.vmap f)
    | 0x3A => some (.vmapq f)
    | 0x3B => some (.vnoise f)
    | 0x3C => some (.vgbias f)
    | 0x40 => some (.vmov f)
    | 0x41 => some (.vslice f)
    | 0x42 => some (.vtrn f)
    | 0x43 => some (.vresh f)
    | 0x44 => some (.vperm f)
    | 0x45 => some (.vcompact f)
    | 0x46 => some (.vexpand f)
    | 0x47 => some (.vbcast f)
    | 0x48 => some (.vshift f)
    | 0x50 => some (.vrsum f)
    | 0x51 => some (.vrmax f)
    | 0x52 => some (.vrmin f)
    | 0x53 => some (.vrargmax f)
    | 0x54 => some (.vscan f)
    | 0x55 => some (.vxscan f)
    | 0x56 => some (.vcadd f)
    | 0x57 => some (.vatmrg f)
    | 0x78 => some (.vkadd f)
    | 0x79 => some (.vkwait f)
    | 0x7F => some (.vnop f)
    | _ => none
  | .M =>
    match op with
    | 0x00 => some (.mzclr f)
    | 0x01 => some (.mldb f)
    | 0x02 => some (.mswap f)
    | 0x03 => some (.mmul f)
    | 0x04 => some (.mrank f)
    | 0x05 => some (.mrdz f)
    | 0x06 => some (.mzcnt f)
    | 0x10 => some (.shins f)
    | 0x11 => some (.shmrg f)
    | 0x12 => some (.shrd f)
    | 0x13 => some (.shclr f)
    | 0x78 => some (.mkadd f)
    | 0x79 => some (.mkwait f)
    | 0x7F => some (.mnop f)
    | _ => none
  | .W =>
    match op with
    | 0x00 => some (.wst f)
    | 0x01 => some (.wstq f)
    | 0x02 => some (.wsct f)
    | 0x03 => some (.wamo f)
    | 0x04 => some (.wcadd f)
    | 0x05 => some (.wcpy f)
    | 0x06 => some (.wcpyx f)
    | 0x07 => some (.wsend f)
    | 0x08 => some (.wattd f)
    | 0x09 => some (.watts f)
    | 0x0A => some (.wflush f)
    | 0x0B => some (.wmsk f)
    | 0x78 => some (.wkadd f)
    | 0x79 => some (.wkwait f)
    | 0x7F => some (.wnop f)
    | _ => none

/-- The S64 constructor of an opcode (R56). -/
def s64Instr (op : Nat) (f : S64) : Option Instr :=
  match op with
  | 0x00 => some (.sld f)
  | 0x01 => some (.sst f)
  | 0x02 => some (.samo f)
  | 0x03 => some (.br f)
  | 0x04 => some (.call f)
  | 0x05 => some (.sli32 f)
  | 0x06 => some (.saddi32 f)
  | 0x07 => some (.sfset f)
  | 0x08 => some (.szset f)
  | 0x09 => some (.shset f)
  | 0x0A => some (.sshape f)
  | 0x0B => some (.sbkj f)
  | 0x0C => some (.slaunch f)
  | 0x0D => some (.slaydef f)
  | 0x0E => some (.satinv f)
  | _ => none

/-- The S32 or S32I instruction of an opcode, its fields taken from p1 (R49, R56). A field that the instruction does not
use must be zero, and a predicate field is 0 to 15; `none` where one is not. -/
def s32Instr (op : Nat) (g : Guard) (p1 : Parcel) : Option Instr :=
  let d := p1.extractLsb' 10 5
  let a := p1.extractLsb' 5 5
  let b := p1.extractLsb' 0 5
  match op with
  | 0x00 => some (.sadd g d a b)
  | 0x01 => some (.ssub g d a b)
  | 0x02 => some (.smul g d a b)
  | 0x03 => some (.smulh g d a b)
  | 0x04 => some (.smulhn g d a b)
  | 0x05 => some (.sdiv g d a b)
  | 0x06 => some (.sdivn g d a b)
  | 0x07 => some (.srem g d a b)
  | 0x08 => some (.sremn g d a b)
  | 0x09 => some (.sand g d a b)
  | 0x0A => some (.sor g d a b)
  | 0x0B => some (.sxor g d a b)
  | 0x0C => some (.sandn g d a b)
  | 0x0D => some (.sshl g d a b)
  | 0x0E => some (.sshr g d a b)
  | 0x0F => some (.ssra g d a b)
  | 0x10 => some (.smin g d a b)
  | 0x11 => some (.smax g d a b)
  | 0x12 => some (.sminn g d a b)
  | 0x13 => some (.smaxn g d a b)
  | 0x14 => some (.seq g d a b)
  | 0x15 => some (.sne g d a b)
  | 0x16 => some (.slt g d a b)
  | 0x17 => some (.sltn g d a b)
  | 0x18 => some (.sle g d a b)
  | 0x19 => some (.slen g d a b)
  | 0x1A => some (.pand g d a b)
  | 0x1B => some (.por g d a b)
  | 0x1C => some (.pxor g d a b)
  | 0x1D => some (.pandn g d a b)
  | 0x1E => if b == 0 then some (.sclz g d a) else none
  | 0x1F => if b == 0 then some (.spopc g d a) else none
  | 0x20 => some (.scmov g d a b)
  | 0x21 => if d == 0 && b == 0 then some (.jmpr g a) else none
  | 0x22 => if d == 0 && b == 0 then some (.callr g a) else none
  | 0x23 => some (.sfadd g d a b)
  | 0x24 => some (.sfsub g d a b)
  | 0x25 => some (.sfmul g d a b)
  | 0x26 => some (.sfmin g d a b)
  | 0x27 => some (.sfmax g d a b)
  | 0x28 => some (.sflt g d a b)
  | 0x29 => some (.sfeq g d a b)
  | 0x2A => some (.sfle g d a b)
  | 0x2B => if b == 0 then some (.scvtif g d a) else none
  | 0x2C => if b == 0 then some (.scvtfi g d a) else none
  | 0x2D => some (.csrr g d (p1.extractLsb' 0 10))
  | 0x2E => some (.csrw g d (p1.extractLsb' 0 10))
  | 0x2F => some (.csrs g d (p1.extractLsb' 0 10))
  | 0x30 => some (.csrc g d (p1.extractLsb' 0 10))
  | 0x31 => if d == 0 && b == 0 then some (.sqpush g a) else none
  | 0x32 => if a == 0 && b == 0 then some (.sqpop g d) else none
  | 0x33 => if a == 0 && b == 0 then some (.sqfree g d) else none
  | 0x34 => if d == 0 && a == 0 && b == 0 then some (.stok g) else none
  | 0x35 => if d == 0 && a == 0 && b == 0 then some (.stokw g) else none
  | 0x36 => if b == 0 then some (.kadd g d a) else none
  | 0x37 => if b == 0 then some (.kwait g d a) else none
  | 0x38 => if b == 0 then some (.kread g d a) else none
  | 0x39 => if b == 0 then some (.kset g d a) else none
  | 0x3A => if d == 0 then some (.sgsync g (p1.extractLsb' 0 10)) else none
  | 0x3B => if d == 0 then some (.sgarr g (p1.extractLsb' 0 10)) else none
  | 0x3C => if a == 0 && b == 0 then some (.stask g d) else none
  | 0x3D => if d == 0 && a == 0 && b == 0 then some (.scommit g) else none
  | 0x3E => if d == 0 && a == 0 && b == 0 then some (.sdtrig g) else none
  | 0x3F => if d == 0 && a == 0 && b == 0 then some (.sdwait g) else none
  | 0x40 => if d == 0 then some (.strap g (p1.extractLsb' 0 10)) else none
  | 0x41 => if d == 0 && a == 0 && b == 0 then some (.smbend g) else none
  | 0x48 => some (.saddi g d (p1.extractLsb' 0 10))
  | 0x49 => some (.sli g d (p1.extractLsb' 0 10))
  | 0x4A => some (.slui g d (p1.extractLsb' 0 10))
  | 0x4B => some (.sandi g d (p1.extractLsb' 0 10))
  | 0x4C => some (.sori g d (p1.extractLsb' 0 10))
  | 0x4D => some (.sxori g d (p1.extractLsb' 0 10))
  | 0x4E => some (.sshli g d (p1.extractLsb' 0 10))
  | 0x4F => some (.sshri g d (p1.extractLsb' 0 10))
  | 0x50 => some (.ssrai g d (p1.extractLsb' 0 10))
  | 0x51 => some (.seqi g d (p1.extractLsb' 6 4) (p1.extractLsb' 0 6))
  | 0x52 => some (.slti g d (p1.extractLsb' 6 4) (p1.extractLsb' 0 6))
  | 0x53 => some (.sltni g d (p1.extractLsb' 6 4) (p1.extractLsb' 0 6))
  | 0x54 => some (.kaddi g d (p1.extractLsb' 0 10))
  | 0x55 => some (.kwaiti g d (p1.extractLsb' 0 10))
  | _ => none

/-! ### Parcels -/

/-- ENG of a parcel 0 (R47). -/
def engOf (p0 : Parcel) : Nat := (p0.extractLsb' 13 3).toNat
/-- LEN of a parcel 0: the number of parcels, none for the reserved code (R47). -/
def lenOf (p0 : Parcel) : Option Nat :=
  match (p0.extractLsb' 11 2).toNat with
  | 0 => some 1
  | 1 => some 2
  | 2 => some 4
  | _ => none
/-- The engine whose strand executes a word; X and the reserved codes have none. -/
def engine (p0 : Parcel) : Option Eng :=
  match engOf p0 with
  | 0 => some .S
  | 1 => some .L
  | 2 => some .V
  | 3 => some .M
  | 4 => some .W
  | _ => none

/-- Whether R47 allows an ENG with a LEN. -/
def formatLegal (p0 : Parcel) : Bool :=
  match engOf p0, lenOf p0 with
  | 0, some _ => true
  | 1, some 4 | 2, some 4 | 3, some 4 | 4, some 4 => true
  | 5, some 2 => true
  | _, _ => false

/-- What a strand finds at a parcel address (R47, R59 steps 1 to 5). -/
inductive Decoded where
  /-- A legal instruction. -/
  | instr (i : Instr)
  /-- A reserved ENG and LEN combination: S raises cause 0x01 subcode 1, every other strand waits (R47). -/
  | reserved
  /-- Cause 0x01 subcode 1 in the strand of the engine named. -/
  | illegal (e : Eng)
  /-- Cause 0x0E in the strand of the engine named. -/
  | misuse (e : Eng)
  deriving DecidableEq, Repr

/-- The guard of an instruction that carries one (R30). -/
def Instr.guard? : Instr → Option Guard
  | .sadd g _ _ _ => some g
  | .ssub g _ _ _ => some g
  | .smul g _ _ _ => some g
  | .smulh g _ _ _ => some g
  | .smulhn g _ _ _ => some g
  | .sdiv g _ _ _ => some g
  | .sdivn g _ _ _ => some g
  | .srem g _ _ _ => some g
  | .sremn g _ _ _ => some g
  | .sand g _ _ _ => some g
  | .sor g _ _ _ => some g
  | .sxor g _ _ _ => some g
  | .sandn g _ _ _ => some g
  | .sshl g _ _ _ => some g
  | .sshr g _ _ _ => some g
  | .ssra g _ _ _ => some g
  | .smin g _ _ _ => some g
  | .smax g _ _ _ => some g
  | .sminn g _ _ _ => some g
  | .smaxn g _ _ _ => some g
  | .seq g _ _ _ => some g
  | .sne g _ _ _ => some g
  | .slt g _ _ _ => some g
  | .sltn g _ _ _ => some g
  | .sle g _ _ _ => some g
  | .slen g _ _ _ => some g
  | .pand g _ _ _ => some g
  | .por g _ _ _ => some g
  | .pxor g _ _ _ => some g
  | .pandn g _ _ _ => some g
  | .sclz g _ _ => some g
  | .spopc g _ _ => some g
  | .scmov g _ _ _ => some g
  | .jmpr g _ => some g
  | .callr g _ => some g
  | .sfadd g _ _ _ => some g
  | .sfsub g _ _ _ => some g
  | .sfmul g _ _ _ => some g
  | .sfmin g _ _ _ => some g
  | .sfmax g _ _ _ => some g
  | .sflt g _ _ _ => some g
  | .sfeq g _ _ _ => some g
  | .sfle g _ _ _ => some g
  | .scvtif g _ _ => some g
  | .scvtfi g _ _ => some g
  | .csrr g _ _ => some g
  | .csrw g _ _ => some g
  | .csrs g _ _ => some g
  | .csrc g _ _ => some g
  | .sqpush g _ => some g
  | .sqpop g _ => some g
  | .sqfree g _ => some g
  | .stok g => some g
  | .stokw g => some g
  | .kadd g _ _ => some g
  | .kwait g _ _ => some g
  | .kread g _ _ => some g
  | .kset g _ _ => some g
  | .sgsync g _ => some g
  | .sgarr g _ => some g
  | .stask g _ => some g
  | .scommit g => some g
  | .sdtrig g => some g
  | .sdwait g => some g
  | .strap g _ => some g
  | .smbend g => some g
  | .saddi g _ _ => some g
  | .sli g _ _ => some g
  | .slui g _ _ => some g
  | .sandi g _ _ => some g
  | .sori g _ _ => some g
  | .sxori g _ _ => some g
  | .sshli g _ _ => some g
  | .sshri g _ _ => some g
  | .ssrai g _ _ => some g
  | .seqi g _ _ _ => some g
  | .slti g _ _ _ => some g
  | .sltni g _ _ _ => some g
  | .kaddi g _ _ => some g
  | .kwaiti g _ _ => some g
  | .sld f => some f.g
  | .sst f => some f.g
  | .br f => some f.g
  | .call f => some f.g
  | .sli32 f => some f.g
  | .saddi32 f => some f.g
  | .sfset f => some f.g
  | .szset f => some f.g
  | .shset f => some f.g
  | .sshape f => some f.g
  | .sbkj f => some f.g
  | .slaunch f => some f.g
  | .slaydef f => some f.g
  | .satinv f => some f.g
  | .vadd f => some f.g
  | .vsub f => some f.g
  | .vmul f => some f.g
  | .vfma f => some f.g
  | .vfms f => some f.g
  | .vfnma f => some f.g
  | .vmin f => some f.g
  | .vmax f => some f.g
  | .vabs f => some f.g
  | .vneg f => some f.g
  | .vdiv f => some f.g
  | .vsqrt f => some f.g
  | .vrcp f => some f.g
  | .vrsq f => some f.g
  | .vexp2 f => some f.g
  | .vlog2 f => some f.g
  | .vtanh f => some f.g
  | .vsincos f => some f.g
  | .vrot f => some f.g
  | .viadd f => some f.g
  | .visub f => some f.g
  | .vimul f => some f.g
  | .vimulh f => some f.g
  | .viand f => some f.g
  | .vior f => some f.g
  | .vixor f => some f.g
  | .vishl f => some f.g
  | .vishr f => some f.g
  | .visra f => some f.g
  | .vimin f => some f.g
  | .vimax f => some f.g
  | .vipopc f => some f.g
  | .vcvt f => some f.g
  | .vqnt f => some f.g
  | .vdq f => some f.g
  | .vcmp f => some f.g
  | .vsel f => some f.g
  | .mand f => some f.g
  | .mor f => some f.g
  | .mxor f => some f.g
  | .mnot f => some f.g
  | .mcnt f => some f.g
  | .vpset f => some f.g
  | .vcrd f => some f.g
  | .vmap f => some f.g
  | .vmapq f => some f.g
  | .vnoise f => some f.g
  | .vgbias f => some f.g
  | .vmov f => some f.g
  | .vslice f => some f.g
  | .vtrn f => some f.g
  | .vresh f => some f.g
  | .vperm f => some f.g
  | .vcompact f => some f.g
  | .vexpand f => some f.g
  | .vbcast f => some f.g
  | .vshift f => some f.g
  | .vrsum f => some f.g
  | .vrmax f => some f.g
  | .vrmin f => some f.g
  | .vrargmax f => some f.g
  | .vscan f => some f.g
  | .vxscan f => some f.g
  | .vcadd f => some f.g
  | .vatmrg f => some f.g
  | .vkadd f => some f.g
  | .vkwait f => some f.g
  | .vnop f => some f.g
  | .ldv f => some f.g
  | .ldq f => some f.g
  | .lgth f => some f.g
  | .lbc f => some f.g
  | .lpre f => some f.g
  | .ladv f => some f.g
  | .lrst f => some f.g
  | .lcbld f => some f.g
  | .lcbsw f => some f.g
  | .lmsk f => some f.g
  | .lkadd f => some f.g
  | .lkwait f => some f.g
  | .lnop f => some f.g
  | .mzclr f => some f.g
  | .mldb f => some f.g
  | .mswap f => some f.g
  | .mmul f => some f.g
  | .mrank f => some f.g
  | .mrdz f => some f.g
  | .mzcnt f => some f.g
  | .shins f => some f.g
  | .shmrg f => some f.g
  | .shrd f => some f.g
  | .shclr f => some f.g
  | .mkadd f => some f.g
  | .mkwait f => some f.g
  | .mnop f => some f.g
  | .wst f => some f.g
  | .wstq f => some f.g
  | .wsct f => some f.g
  | .wamo f => some f.g
  | .wcadd f => some f.g
  | .wcpy f => some f.g
  | .wcpyx f => some f.g
  | .wsend f => some f.g
  | .wattd f => some f.g
  | .watts f => some f.g
  | .wflush f => some f.g
  | .wmsk f => some f.g
  | .wkadd f => some f.g
  | .wkwait f => some f.g
  | .wnop f => some f.g
  | _ => none

/-- Apply the static checks to an instruction an engine decodes. -/
def judge (e : Eng) (i : Instr) : Decoded :=
  match i.verdict i.guard? with
  | .ok => .instr i
  | .illegal => .illegal e
  | .misuse => .misuse e

/-- C16 instructions (R48, R56): ARG6 is zero but for `fence` and `brk`. -/
def c16Instr (op : Nat) (arg : BitVec 6) : Option Instr :=
  match op with
  | 2 => some (.brk arg)
  | 3 => some (.fence (arg.extractLsb' 3 3) (arg.extractLsb' 0 3))
  | 0 => if arg == 0 then some .nop else none
  | 1 => if arg == 0 then some .exit else none
  | 4 => if arg == 0 then some .ret else none
  | 5 => if arg == 0 then some .eret else none
  | 6 => if arg == 0 then some .settle else none
  | 7 => if arg == 0 then some .yield else none
  | 8 => if arg == 0 then some .spin else none
  | _ => none

/-- GN and GP of S32, S32I and S64: p1[15] and p0[3:0] (R30). -/
def sGuard (p0 p1 : Parcel) : Guard := ⟨p1.getLsbD 15, p0.extractLsb' 0 4⟩

/-- The fields of an S64 word (R50). -/
def s64Fields (p0 p1 p2 p3 : Parcel) : S64 :=
  ⟨sGuard p0 p1, p1.extractLsb' 10 5, p1.extractLsb' 5 5, p1.extractLsb' 0 5, p3 ++ p2⟩

/-- The fields of an E64 word (R51). -/
def e64Fields (p0 p1 p2 p3 : Parcel) : E64 :=
  ⟨p0.extractLsb' 0 4, ⟨p1.getLsbD 15, p1.extractLsb' 11 4⟩, p1.extractLsb' 0 11,
    p2.extractLsb' 8 8, p2.extractLsb' 0 8, p3.extractLsb' 8 8, p3.extractLsb' 0 8⟩

/-- The headland word (R18): p1[13:5] must be zero with CNT = 1. -/
def headlandInstr (p0 p1 : Parcel) : Option Instr :=
  let b := p0.extractLsb' 0 11
  let r := p1.getLsbD 15
  if p1.getLsbD 14 then
    if p1.extractLsb' 5 9 == 0 then some (.headlandCounted b r (p1.extractLsb' 0 5)) else none
  else some (.headland b r (p1.extractLsb' 0 14))

/-- The instruction that legal ENG and LEN lead to, its opcode and must-be-zero fields read, before the field checks. -/
def rawInstr (p0 p1 p2 p3 : Parcel) : Option Instr :=
  let op := (p0.extractLsb' 4 7).toNat
  match engine p0 with
  | none => headlandInstr p0 p1
  | some .S =>
    match lenOf p0 with
    | some 1 => c16Instr (p0.extractLsb' 6 5).toNat (p0.extractLsb' 0 6)
    | some 2 => s32Instr op (sGuard p0 p1) p1
    | _ => s64Instr op (s64Fields p0 p1 p2 p3)
  | some e => e64Instr e op (e64Fields p0 p1 p2 p3)

/-- Decode the word whose parcels are given (later ones than its LEN asks for are not read). -/
def decode (p0 p1 p2 p3 : Parcel) : Decoded :=
  if formatLegal p0 then
    match rawInstr p0 p1 p2 p3 with
    | some i => judge ((engine p0).getD .S) i
    | none => .illegal ((engine p0).getD .S)
  else .reserved

/-! ### Encoding -/

/-- A C16 word (R48). -/
def c16 (op : Nat) (arg : BitVec 6) : Parcel := 0b00000#5 ++ BitVec.ofNat 5 op ++ arg
/-- An S32 word (R49). -/
def s32 (op : Nat) (g : Guard) (d a b : BitVec 5) : List Parcel :=
  [0b00001#5 ++ BitVec.ofNat 7 op ++ g.gp, BitVec.ofBool g.gn ++ d ++ a ++ b]
/-- An S32 or S32I word whose low ten bits are one field (R49). -/
def s32i (op : Nat) (g : Guard) (d : BitVec 5) (i : BitVec 10) : List Parcel :=
  [0b00001#5 ++ BitVec.ofNat 7 op ++ g.gp, BitVec.ofBool g.gn ++ d ++ i]
/-- An S64 word (R50). -/
def s64 (op : Nat) (f : S64) : List Parcel :=
  [0b00010#5 ++ BitVec.ofNat 7 op ++ f.g.gp, BitVec.ofBool f.g.gn ++ f.d ++ f.a ++ f.mod5,
    f.imm.extractLsb' 0 16, f.imm.extractLsb' 16 16]
/-- An E64 word (R51). -/
def e64 (eng op : Nat) (f : E64) : List Parcel :=
  [BitVec.ofNat 3 eng ++ 0b10#2 ++ BitVec.ofNat 7 op ++ f.tk, BitVec.ofBool f.g.gn ++ f.g.gp ++ f.mod11,
    f.d8 ++ f.a8, f.b8 ++ f.c8]

/-- The words of an instruction: its parcels, p0 first (R48 to R58). A step of the device has no words. -/
def encode : Instr → List Parcel
  | .nop => [c16 0 0]
  | .exit => [c16 1 0]
  | .brk c => [c16 2 c]
  | .fence k s => [c16 3 (k ++ s)]
  | .ret => [c16 4 0]
  | .eret => [c16 5 0]
  | .settle => [c16 6 0]
  | .yield => [c16 7 0]
  | .spin => [c16 8 0]
  | .sadd g d a b => s32 0x00 g d a b
  | .ssub g d a b => s32 0x01 g d a b
  | .smul g d a b => s32 0x02 g d a b
  | .smulh g d a b => s32 0x03 g d a b
  | .smulhn g d a b => s32 0x04 g d a b
  | .sdiv g d a b => s32 0x05 g d a b
  | .sdivn g d a b => s32 0x06 g d a b
  | .srem g d a b => s32 0x07 g d a b
  | .sremn g d a b => s32 0x08 g d a b
  | .sand g d a b => s32 0x09 g d a b
  | .sor g d a b => s32 0x0A g d a b
  | .sxor g d a b => s32 0x0B g d a b
  | .sandn g d a b => s32 0x0C g d a b
  | .sshl g d a b => s32 0x0D g d a b
  | .sshr g d a b => s32 0x0E g d a b
  | .ssra g d a b => s32 0x0F g d a b
  | .smin g d a b => s32 0x10 g d a b
  | .smax g d a b => s32 0x11 g d a b
  | .sminn g d a b => s32 0x12 g d a b
  | .smaxn g d a b => s32 0x13 g d a b
  | .seq g d a b => s32 0x14 g d a b
  | .sne g d a b => s32 0x15 g d a b
  | .slt g d a b => s32 0x16 g d a b
  | .sltn g d a b => s32 0x17 g d a b
  | .sle g d a b => s32 0x18 g d a b
  | .slen g d a b => s32 0x19 g d a b
  | .pand g d a b => s32 0x1A g d a b
  | .por g d a b => s32 0x1B g d a b
  | .pxor g d a b => s32 0x1C g d a b
  | .pandn g d a b => s32 0x1D g d a b
  | .sclz g d a => s32 0x1E g d a 0
  | .spopc g d a => s32 0x1F g d a 0
  | .scmov g d a b => s32 0x20 g d a b
  | .jmpr g a => s32 0x21 g 0 a 0
  | .callr g a => s32 0x22 g 0 a 0
  | .sfadd g d a b => s32 0x23 g d a b
  | .sfsub g d a b => s32 0x24 g d a b
  | .sfmul g d a b => s32 0x25 g d a b
  | .sfmin g d a b => s32 0x26 g d a b
  | .sfmax g d a b => s32 0x27 g d a b
  | .sflt g d a b => s32 0x28 g d a b
  | .sfeq g d a b => s32 0x29 g d a b
  | .sfle g d a b => s32 0x2A g d a b
  | .scvtif g d a => s32 0x2B g d a 0
  | .scvtfi g d a => s32 0x2C g d a 0
  | .csrr g d c => s32i 0x2D g d c
  | .csrw g d c => s32i 0x2E g d c
  | .csrs g d c => s32i 0x2F g d c
  | .csrc g d c => s32i 0x30 g d c
  | .sqpush g a => s32 0x31 g 0 a 0
  | .sqpop g d => s32 0x32 g d 0 0
  | .sqfree g d => s32 0x33 g d 0 0
  | .stok g => s32 0x34 g 0 0 0
  | .stokw g => s32 0x35 g 0 0 0
  | .kadd g d a => s32 0x36 g d a 0
  | .kwait g d a => s32 0x37 g d a 0
  | .kread g d a => s32 0x38 g d a 0
  | .kset g d a => s32 0x39 g d a 0
  | .sgsync g c => s32i 0x3A g 0 c
  | .sgarr g c => s32i 0x3B g 0 c
  | .stask g d => s32 0x3C g d 0 0
  | .scommit g => s32 0x3D g 0 0 0
  | .sdtrig g => s32 0x3E g 0 0 0
  | .sdwait g => s32 0x3F g 0 0 0
  | .strap g c => s32i 0x40 g 0 c
  | .smbend g => s32 0x41 g 0 0 0
  | .saddi g d i => s32i 0x48 g d i
  | .sli g d i => s32i 0x49 g d i
  | .slui g d i => s32i 0x4A g d i
  | .sandi g d i => s32i 0x4B g d i
  | .sori g d i => s32i 0x4C g d i
  | .sxori g d i => s32i 0x4D g d i
  | .sshli g d i => s32i 0x4E g d i
  | .sshri g d i => s32i 0x4F g d i
  | .ssrai g d i => s32i 0x50 g d i
  | .seqi g d p i => s32i 0x51 g d (p ++ i)
  | .slti g d p i => s32i 0x52 g d (p ++ i)
  | .sltni g d p i => s32i 0x53 g d (p ++ i)
  | .kaddi g d i => s32i 0x54 g d i
  | .kwaiti g d i => s32i 0x55 g d i
  | .sld f => s64 0x00 f
  | .sst f => s64 0x01 f
  | .samo f => s64 0x02 f
  | .br f => s64 0x03 f
  | .call f => s64 0x04 f
  | .sli32 f => s64 0x05 f
  | .saddi32 f => s64 0x06 f
  | .sfset f => s64 0x07 f
  | .szset f => s64 0x08 f
  | .shset f => s64 0x09 f
  | .sshape f => s64 0x0A f
  | .sbkj f => s64 0x0B f
  | .slaunch f => s64 0x0C f
  | .slaydef f => s64 0x0D f
  | .satinv f => s64 0x0E f
  | .ldv f => e64 1 0x00 f
  | .ldq f => e64 1 0x01 f
  | .lgth f => e64 1 0x02 f
  | .lbc f => e64 1 0x03 f
  | .lpre f => e64 1 0x04 f
  | .ladv f => e64 1 0x05 f
  | .lrst f => e64 1 0x06 f
  | .lcbld f => e64 1 0x07 f
  | .lcbsw f => e64 1 0x08 f
  | .lmsk f => e64 1 0x09 f
  | .lkadd f => e64 1 0x78 f
  | .lkwait f => e64 1 0x79 f
  | .lnop f => e64 1 0x7F f
  | .vadd f => e64 2 0x00 f
  | .vsub f => e64 2 0x01 f
  | .vmul f => e64 2 0x02 f
  | .vfma f => e64 2 0x03 f
  | .vfms f => e64 2 0x04 f
  | .vfnma f => e64 2 0x05 f
  | .vmin f => e64 2 0x06 f
  | .vmax f => e64 2 0x07 f
  | .vabs f => e64 2 0x08 f
  | .vneg f => e64 2 0x09 f
  | .vdiv f => e64 2 0x0A f
  | .vsqrt f => e64 2 0x0B f
  | .vrcp f => e64 2 0x0C f
  | .vrsq f => e64 2 0x0D f
  | .vexp2 f => e64 2 0x0E f
  | .vlog2 f => e64 2 0x0F f
  | .vtanh f => e64 2 0x10 f
  | .vsincos f => e64 2 0x11 f
  | .vrot f => e64 2 0x12 f
  | .viadd f => e64 2 0x18 f
  | .visub f => e64 2 0x19 f
  | .vimul f => e64 2 0x1A f
  | .vimulh f => e64 2 0x1B f
  | .viand f => e64 2 0x1C f
  | .vior f => e64 2 0x1D f
  | .vixor f => e64 2 0x1E f
  | .vishl f => e64 2 0x1F f
  | .vishr f => e64 2 0x20 f
  | .visra f => e64 2 0x21 f
  | .vimin f => e64 2 0x22 f
  | .vimax f => e64 2 0x23 f
  | .vipopc f => e64 2 0x24 f
  | .vcvt f => e64 2 0x28 f
  | .vqnt f => e64 2 0x29 f
  | .vdq f => e64 2 0x2A f
  | .vcmp f => e64 2 0x30 f
  | .vsel f => e64 2 0x31 f
  | .mand f => e64 2 0x32 f
  | .mor f => e64 2 0x33 f
  | .mxor f => e64 2 0x34 f
  | .mnot f => e64 2 0x35 f
  | .mcnt f => e64 2 0x36 f
  | .vpset f => e64 2 0x37 f
  | .vcrd f => e64 2 0x38 f
  | .vmap f => e64 2 0x39 f
  | .vmapq f => e64 2 0x3A f
  | .vnoise f => e64 2 0x3B f
  | .vgbias f => e64 2 0x3C f
  | .vmov f => e64 2 0x40 f
  | .vslice f => e64 2 0x41 f
  | .vtrn f => e64 2 0x42 f
  | .vresh f => e64 2 0x43 f
  | .vperm f => e64 2 0x44 f
  | .vcompact f => e64 2 0x45 f
  | .vexpand f => e64 2 0x46 f
  | .vbcast f => e64 2 0x47 f
  | .vshift f => e64 2 0x48 f
  | .vrsum f => e64 2 0x50 f
  | .vrmax f => e64 2 0x51 f
  | .vrmin f => e64 2 0x52 f
  | .vrargmax f => e64 2 0x53 f
  | .vscan f => e64 2 0x54 f
  | .vxscan f => e64 2 0x55 f
  | .vcadd f => e64 2 0x56 f
  | .vatmrg f => e64 2 0x57 f
  | .vkadd f => e64 2 0x78 f
  | .vkwait f => e64 2 0x79 f
  | .vnop f => e64 2 0x7F f
  | .mzclr f => e64 3 0x00 f
  | .mldb f => e64 3 0x01 f
  | .mswap f => e64 3 0x02 f
  | .mmul f => e64 3 0x03 f
  | .mrank f => e64 3 0x04 f
  | .mrdz f => e64 3 0x05 f
  | .mzcnt f => e64 3 0x06 f
  | .shins f => e64 3 0x10 f
  | .shmrg f => e64 3 0x11 f
  | .shrd f => e64 3 0x12 f
  | .shclr f => e64 3 0x13 f
  | .mkadd f => e64 3 0x78 f
  | .mkwait f => e64 3 0x79 f
  | .mnop f => e64 3 0x7F f
  | .wst f => e64 4 0x00 f
  | .wstq f => e64 4 0x01 f
  | .wsct f => e64 4 0x02 f
  | .wamo f => e64 4 0x03 f
  | .wcadd f => e64 4 0x04 f
  | .wcpy f => e64 4 0x05 f
  | .wcpyx f => e64 4 0x06 f
  | .wsend f => e64 4 0x07 f
  | .wattd f => e64 4 0x08 f
  | .watts f => e64 4 0x09 f
  | .wflush f => e64 4 0x0A f
  | .wmsk f => e64 4 0x0B f
  | .wkadd f => e64 4 0x78 f
  | .wkwait f => e64 4 0x79 f
  | .wnop f => e64 4 0x7F f
  | .headland b r n => [0b10101#5 ++ b, BitVec.ofBool r ++ 0#1 ++ n]
  | .headlandCounted b r c => [0b10101#5 ++ b, BitVec.ofBool r ++ 1#1 ++ 0#9 ++ c]
  | .repetitionEnd => []
  | .writeLanding => []
  | .tokenPush => []
  | .queuePush => []
  | .workerCompletion _ => []
  | .trapEntry _ => []
  | .abortedLaunchCompletion _ => []
  | .scrub => []
  | .preemptionRequest _ => []
  | .contextSave _ => []
  | .contextRestore _ => []
  | .saveImageMove _ => []
  | .planeTransfer _ => []
  | .neighbourTableRebuild _ => []
  | .pageWalk _ _ => []
  | .satinvCompletion _ => []
  | .copyChunk _ _ => []
  | .copyCommandCompletion _ _ => []
  | .spanFold _ _ => []
  | .decodeJobCompletion _ => []
  | .scorePassCompletion _ => []
  | .wstqKnotAdd _ => []
  | .admitRequest _ => []
  | .refusalArrival _ => []
  | .microBatchClose _ => []
  | .phaseEnd _ => []
  | .doorbell _ _ => []
  | .recordTake _ => []
  | .arbiterDecision => []
  | .agingStep _ => []
  | .launchCompletion _ => []
  | .qerrClear _ _ => []
  | .rctlWrite _ _ _ => []
  | .resume _ _ => []
  | .regionRecoveryComplete _ => []
  | .lstoreClear _ _ => []
  | .plostClear _ _ => []
  | .claimOwnership _ => []
  | .offerOwnership _ _ => []
  | .releaseOwnership _ => []
  | .acceptOwnership _ => []
  | .offerLapse => []
  | .registerWrite _ _ _ => []
  | .hostMemoryRequest _ => []
  | .peerRequest _ _ => []
  | .backInvalidation _ => []
  | .poolLinkLoss _ => []
  | .fupelPortDown _ => []
  | .coreSpare _ => []
  | .macroColumnSpare _ _ => []
  | .pseudoChannelSpare _ => []
  | .fupelLaneSpare _ => []
  | .clockStep => []
  | .thermalFreeze _ => []
  | .freeze _ => []
  | .diagnosticRead _ => []
  | .reset => []
  | .attestationReport _ _ => []
  | .machineCheckLogRead => []
  | .poolLinkUp _ => []
  | .fupelPortUp _ _ _ => []
  | .flitRetransmission _ => []
  | .fupelLaneLoss _ => []

/-- Decode a list of parcels, missing ones reading as zero. -/
def decodeParcels (l : List Parcel) : Decoded :=
  decode (l.getD 0 0) (l.getD 1 0) (l.getD 2 0) (l.getD 3 0)

/-- The parcels of an instruction given as one number of `nbits` bits, in the order spec/opcode_table.json numbers them:
its rows of 32 bits hold p0 in bits 31 to 16 (SADD, p0 = 0x0800, has match 0x08000000). A number numbered with p0 in its
lowest bits is told apart by LEN: the high half of a row's number is a parcel whose LEN says two parcels. -/
def tableParcels (nbits w : Nat) : List Parcel :=
  if nbits ≤ 16 then [BitVec.ofNat 16 w]
  else if nbits ≤ 32 then
    let hi : Parcel := BitVec.ofNat 16 (w >>> 16)
    let lo : Parcel := BitVec.ofNat 16 w
    if lenOf hi == some 2 then [hi, lo] else [lo, hi]
  else
    let q (k : Nat) : Parcel := BitVec.ofNat 16 (w >>> (16 * k))
    if lenOf (q 3) == some 4 && engOf (q 3) ≤ 4 then [q 3, q 2, q 1, q 0] else [q 0, q 1, q 2, q 3]

/-- The instruction that the decoder reads from a table word (a word shorter than the instruction has zeros above). -/
def decodeTableWord (nbits w : Nat) : Option Instr :=
  match decodeParcels (tableParcels nbits w) with
  | .instr i => some i
  | _ => none

end Sys2Proof
end

