-- ==== Sys2Proof/Machine/Sha3.lean ====
section
/-! DEFINITION. SHA3-256, the hash of the manifest chains, the measurements and the reports (R298, R336, R337). The
function itself is FIPS 202's, which the spec names and does not define (log 8). -/
namespace Sys2Proof.Machine.Sha3

/-- The 24 round constants. -/
def roundConsts : List Nat :=
  [0x0000000000000001, 0x0000000000008082, 0x800000000000808A, 0x8000000080008000, 0x000000000000808B,
   0x0000000080000001, 0x8000000080008081, 0x8000000000008009] ++
  [0x000000000000008A, 0x0000000000000088, 0x0000000080008009, 0x000000008000000A, 0x000000008000808B,
   0x800000000000008B, 0x8000000000008089, 0x8000000000008003] ++
  [0x8000000000008002, 0x8000000000000080, 0x000000000000800A, 0x800000008000000A, 0x8000000080008081,
   0x8000000000008080, 0x0000000080000001, 0x8000000080008008]

/-- Rotation amounts of lanes x + 5y. -/
def rotations : List Nat :=
  [0, 1, 62, 28, 27, 36, 44, 6, 55, 20, 3, 10, 43, 25, 39, 41, 45, 15, 21, 8, 18, 2, 61, 56, 14]

/-- Rotate a 64-bit lane left. -/
def rotl (v n : Nat) : Nat := ((v <<< n) ||| (v >>> (64 - n))) % 2 ^ 64

/-- Lane (x, y). -/
def lane (a : List Nat) (x y : Nat) : Nat := nth 0 a (x % 5 + 5 * (y % 5))

/-- The lanes of a state, by a function of (x, y). -/
def build (f : Nat → Nat → Nat) : List Nat := (upFrom 0 25).map fun i => f (i % 5) (i / 5)

/-- One round. -/
def round (a : List Nat) (rc : Nat) : List Nat :=
  let c := (upFrom 0 5).map fun x => lane a x 0 ^^^ lane a x 1 ^^^ lane a x 2 ^^^ lane a x 3 ^^^ lane a x 4
  let d := (upFrom 0 5).map fun x => nth 0 c ((x + 4) % 5) ^^^ rotl (nth 0 c ((x + 1) % 5)) 1
  let t := build fun x y => rotl (lane a x y ^^^ nth 0 d x) (nth 0 rotations (x + 5 * y))
  let b := build fun x y => lane t (x + 3 * y) x
  let e := build fun x y => lane b x y ^^^ ((2 ^ 64 - 1 - lane b (x + 1) y) &&& lane b (x + 2) y)
  match e with
  | [] => []
  | h :: r => (h ^^^ rc) :: r

/-- The permutation. -/
def permute (a : List Nat) : List Nat := roundConsts.foldl round a

/-- Absorb blocks of 17 lanes. -/
def absorb : Nat → List (BitVec 8) → List Nat → List Nat
  | 0, _, a => a
  | n + 1, l, a =>
    let w := (wordsOf 17 (l.take 136)).map BitVec.toNat
    absorb n (l.drop 136) (permute (List.zipWith (· ^^^ ·) a (w ++ List.replicate 8 0)))

/-- Padding to a multiple of 136 bytes. -/
def pad (l : List (BitVec 8)) : List (BitVec 8) :=
  let k := 136 - l.length % 136
  if k = 1 then l ++ [0x86] else l ++ 0x06 :: (List.replicate (k - 2) 0 ++ [0x80])

/-- SHA3-256 of bytes: the 32 bytes, byte 0 in the low bits. -/
def hash (l : List (BitVec 8)) : BitVec 256 :=
  let p := pad l
  let a := absorb (p.length / 136) p (List.replicate 25 0)
  BitVec.ofNat 256 (packSlots 64 (a.take 4))

/-- The 32 bytes of a hash. -/
def bytes (h : BitVec 256) : List (BitVec 8) := toBytes h.toNat 32

/-- The 4 words of a hash. -/
def words (h : BitVec 256) : List (BitVec 64) := (upFrom 0 4).map fun i => BitVec.ofNat 64 (bits h.toNat (64 * i) 64)

/-- A hash chain over event records, from 32 zero bytes (R298). -/
def chain (events : List (List (BitVec 64))) : BitVec 256 :=
  events.foldl (fun h e => hash (bytes h ++ bytesOf e)) 0

end Sys2Proof.Machine.Sha3
end

