-- ==== Sys2Proof/Machine/Tab.lean ====
section
/-! DEFINITION. Sparse tables as plain data: lists of (key, value), strictly rising keys, one canonical form.
A table either holds present entries only (`find?`, `put`, `erase`) or stands for a total map in which an unlisted key
reads as a default and no listed entry equals it (`get`, `set`). -/
namespace Sys2Proof.Machine

/-- A table keyed by numbers. -/
abbrev Tab (α : Type) := List (Nat × α)

/-- The entry under a key, if listed. -/
def tabFind {α : Type} : Tab α → Nat → Option α
  | [], _ => none
  | (j, x) :: r, k => if j = k then some x else tabFind r k

/-- Remove a key. -/
def tabErase {α : Type} (t : Tab α) (k : Nat) : Tab α := t.filter fun e => e.1 ≠ k

/-- Insert before the first larger key. -/
def tabInsert {α : Type} : Tab α → Nat → α → Tab α
  | [], k, x => [(k, x)]
  | e :: r, k, x => if k < e.1 then (k, x) :: e :: r else e :: tabInsert r k x

/-- Put an entry, replacing the one under its key. -/
def tabPut {α : Type} (t : Tab α) (k : Nat) (x : α) : Tab α := tabInsert (tabErase t k) k x

/-- What a key reads as, with the default `d` for an unlisted key. -/
def tabGet {α : Type} (d : α) (t : Tab α) (k : Nat) : α := (tabFind t k).getD d

/-- Write a key of a total map: writing the default removes the entry. -/
def tabSet {α : Type} [DecidableEq α] (d : α) (t : Tab α) (k : Nat) (x : α) : Tab α :=
  if x = d then tabErase t k else tabPut t k x

/-- Keys strictly rising. -/
def tabSorted {α : Type} : Tab α → Bool
  | [] => true
  | [_] => true
  | a :: b :: r => decide (a.1 < b.1) && tabSorted (b :: r)

/-- The canonical form of a total map with default `d`. -/
def tabWf {α : Type} [DecidableEq α] (d : α) (t : Tab α) : Bool := tabSorted t && t.all fun e => e.2 ≠ d

/-- Change every value of a table of present entries. -/
def tabMap {α : Type} (f : α → α) (t : Tab α) : Tab α := t.map fun e => (e.1, f e.2)

/-- Memory: (address, byte) pairs; an unlisted byte reads 0 (log 2). -/
abbrev Memory := Tab (BitVec 8)

/-- What a byte of memory that nothing has written reads as (log 2). -/
def memDefault : BitVec 8 := 0

/-- Read one byte. -/
def Memory.read (m : Memory) (a : Nat) : BitVec 8 := tabGet memDefault m a

/-- Write one byte. -/
def Memory.write (m : Memory) (a : Nat) (b : BitVec 8) : Memory := tabSet memDefault m a b

/-- The canonical form of memory. -/
def Memory.wf (m : Memory) : Bool := tabWf memDefault m

/-- `n` bytes from `a` up. -/
def Memory.readBytes (m : Memory) (a : Nat) : Nat → List (BitVec 8)
  | 0 => []
  | n + 1 => m.read a :: Memory.readBytes m (a + 1) n

/-- Bytes written from `a` up. -/
def Memory.writeBytes (m : Memory) (a : Nat) : List (BitVec 8) → Memory
  | [] => m
  | b :: r => Memory.writeBytes (m.write a b) (a + 1) r

end Sys2Proof.Machine
end

