-- ==== Sys2Proof/Machine/State.lean ====
section
/-! DEFINITION. The state of one Tahild module as plain data, everything the spec gives the machine, and the state right
after reset. INVENTORY.md lists each field with its rule and reset value. -/
namespace Sys2Proof.Machine

/-! ## Registers and maps -/

/-- Format code and block length that a register holds beside block data (R75). -/
structure Tag where
  fmt : Nat
  len : Nat
  deriving DecidableEq, Repr

/-- The grant a map was made under: g0, g1, g2 (R40). -/
structure Grant3 where
  g0 : Nat
  g1 : Nat
  g2 : Nat
  deriving DecidableEq, Repr

/-- A map word in its three produced states (R40): LOST, AFFINE with targets (7 for none), signed steps, signed origins
and extents, or EXPLICIT with the companion's physical register and the extents. -/
inductive CMap where
  | lost
  | affine (g : Grant3) (tgt : Quad Nat) (step : Quad Int) (org : Quad (BitVec 32)) (ext : Quad Nat)
  | explicit (g : Grant3) (comp : Nat) (ext : Quad Nat)
  deriving DecidableEq, Repr

/-- A vector register: 32 KiB of data, 4 KiB of scales, tag and map, written as one unit (R35, R36). -/
structure VReg where
  data : BitVec 262144
  scale : BitVec 32768
  tag : Option Tag
  map : CMap
  deriving DecidableEq, Repr

/-- The launch value of a vector register (R36). -/
def VReg.zero : VReg := ⟨0, 0, none, .lost⟩

/-- An image entry of q0 to q13 (R32): slot count, element width, data, scales, tag and map, and the 128-byte lines of global
memory that it keeps pinned (R33). -/
structure ImgEntry where
  count : Nat
  width : Nat
  data : BitVec 262144
  scale : BitVec 32768
  tag : Option Tag
  map : CMap
  pins : List Nat
  deriving DecidableEq, Repr

/-- A knot (R34). -/
structure Knot where
  val : BitVec 32
  err : Bool
  deriving DecidableEq, Repr

/-- The shape in force: granted dimensions, element width in bits, requested format (R37 to R39). -/
structure Shape where
  g : Quad Nat
  width : Nat
  fmt : Nat
  deriving DecidableEq, Repr

/-! ## Furrows and descriptors -/

/-- A captured table entry (R157): its value, or absent. -/
inductive Capture where
  | absent
  | value (v : Word)
  deriving DecidableEq, Repr

/-- What binding a layout record leaves in a furrow beside the copied fields (R158, R243). -/
structure Bound where
  ctxid : BitVec 32
  base : Word
  size : BitVec 48
  deriving DecidableEq, Repr

/-- A furrow copy (R150). `fmt`, `st`, `ind` and `itab` hold the written value whole, so that the reserved bits that R152
checks at use are there. -/
structure Furrow where
  base : Word
  fmt : Word
  ext : Quad (BitVec 16)
  st : Quad Word
  pos : Quad Nat
  atEnd : Bool
  sbase : Word
  sstride : Word
  ind : Word
  itab : Word
  layout : BitVec 16
  bound : Option Bound
  capt : Tab Capture
  deriving DecidableEq, Repr

/-- The reset state of a furrow (R150): format f32 (code 0), LB 16, extents 1, no layout. -/
def Furrow.reset : Furrow :=
  ⟨0, 0, .all 1, .all 0, .all 0, false, 0, 0, 0, 0, 0xFFFF, none, []⟩

/-- A tile descriptor (R183). -/
structure Tile where
  base : BitVec 16
  rows : BitVec 16
  cols : BitVec 16
  anchor : BitVec 16
  deriving DecidableEq, Repr

/-- Launch value of a tile descriptor (R183). -/
def Tile.reset : Tile := ⟨0, 1, 1, 0⟩

/-- The five counters of a tile (R83). -/
structure Counts where
  nanc : BitVec 32
  infc : BitVec 32
  ovfc : BitVec 32
  satc : BitVec 32
  inxc : BitVec 32
  deriving DecidableEq, Repr

/-- Counters at zero. -/
def Counts.zero : Counts := ⟨0, 0, 0, 0, 0⟩

/-- A sheaf descriptor (R216). -/
structure Sheaf where
  base : BitVec 16
  dim : BitVec 16
  cap : BitVec 16
  rad2 : BitVec 32
  metric : BitVec 16
  policy : BitVec 16
  anchor : BitVec 16
  deriving DecidableEq, Repr

/-- Launch value of a sheaf descriptor (R216). -/
def Sheaf.reset : Sheaf := ⟨0, 1, 1, 0, 0, 0, 0⟩

/-- A plane of the matrix array (R176): 128 bytes of mantissas per (128-row band, byte column), keyed band*512 + column, so
that a value of WB 16 has its two bytes in neighbouring groups of columns; scale bytes per (band, column). -/
structure Plane where
  mant : Tab (BitVec 1024)
  scale : Tab (BitVec 64)
  wb : Nat
  lb : Nat
  fixed : Bool
  deriving DecidableEq, Repr

/-- Launch value of a plane (R177). -/
def Plane.reset : Plane := ⟨[], [], 8, 32, false⟩

/-- A codebook bank (R188). -/
structure Bank where
  copy0 : Tab Word
  copy1 : Tab Word
  count0 : Nat
  count1 : Nat
  front : Bool
  version : BitVec 32
  clean : Bool
  deriving DecidableEq, Repr

/-- Launch value of a bank that no image loads (R188). -/
def Bank.reset : Bank := ⟨[], [], 0, 0, false, 0, true⟩

/-! ## Strands -/

/-- A block-stack entry (R19), with the ROT bit of its headland (R29). -/
structure Block where
  head : PAddr
  fin : PAddr
  left : Nat
  rot : Bool
  deriving DecidableEq, Repr

/-- An outcome-queue entry (R16). -/
structure CtlOut where
  taken : Bool
  target : PAddr
  count : Nat
  depth : Nat
  deriving DecidableEq, Repr

/-- A configuration write (R22). A `.layout` write of a furrow carries the record that S found (R158). -/
inductive ConfW where
  | pred (n : Nat) (b : Bool)
  | shape (s : Shape)
  | furrow (n : Nat) (field : Nat) (v : Word) (record : List Word)
  | tile (n : Nat) (field : Nat) (v : Word)
  | sheaf (n : Nat) (field : Nat) (v : Word)
  | csr (c : Nat) (v : Word)
  deriving DecidableEq, Repr

/-- A posted configuration write and the text position a strand must have reached to apply it (R22, log 5). -/
structure ConfEntry where
  due : Nat
  w : ConfW
  deriving DecidableEq, Repr

/-- The nine token queues (R23). -/
inductive TokQ where
  | SL | WL | LV | LM | VM | MV | VW | MW | WS
  deriving DecidableEq, Repr

/-- Part of a fetched entry (R33): where in its data or scales a value lies, and the global memory it came from. -/
structure Part where
  scale : Bool
  slot : Nat
  width : Nat
  addr : Nat
  shift : Nat
  deriving DecidableEq, Repr

/-- What a pending write does when it lands (R25 to R28): register, registers of one landing (R139), mask, queue pushes, of
which a fetched entry looks at global memory again (R33), tokens (R23), an engine-form knot add (R100), a tile's counter
update (R83), saturated quantiser blocks (R78). -/
inductive Landing where
  | sreg (r : Nat) (v : Word)
  | vregs (l : List (Nat × VReg))
  | mask (m : Nat) (v : BitVec 65536)
  | image (q : Nat) (e : ImgEntry)
  | fetched (q : Nat) (e : ImgEntry) (l : List Part)
  | words (l : List Word)
  | token (q : TokQ)
  | knotAdd (k : Nat) (n : BitVec 32)
  | counts (z : Nat) (c : Counts)
  | qsat (n : Nat)
  deriving DecidableEq, Repr

/-- An entry of the in-flight write queue (R28): what lands, the landing count, the interlocked mark (R27), the text position
of the writer, and whether it waits for every earlier entry (R100). -/
structure Pend where
  acts : List Landing
  count : Nat
  lock : Bool
  pos : Nat
  last : Bool
  deriving DecidableEq, Repr

/-- Text-ordered configuration as one strand sees it (R22). -/
structure View where
  preds : BitVec 16
  shape : Shape
  slip : Nat
  ftz : Bool
  e4m3sat : Bool
  nkey : Quad Word
  bkt : Tab Word
  gamma : BitVec 32
  furrows : Tab Furrow
  tiles : Tab Tile
  sheaves : Tab Sheaf
  deriving DecidableEq, Repr

/-- The last steps in which a strand has acquired: at a scope that holds its core, its die, its device at least, each as the
step's number plus one (R263, R265). -/
structure Acquired where
  core : Nat
  die : Nat
  dev : Nat
  deriving DecidableEq, Repr

/-- The launch values of the text-ordered configuration (R39, R106, R150, R183, R216), before the record's own. -/
def View.launch : View :=
  ⟨0x8000, ⟨⟨8192, 1, 1, 1⟩, 32, 0⟩, 4, false, false, .all 0, [], 0, [], [], []⟩

/-- A wait that has begun (R101, R296): for a knot to reach a value; for a group's generation, in a deterministic launch
perhaps also for a phase to end; or met, whatever comes after. -/
inductive Wait where
  | knot (k : Nat) (n : BitVec 32)
  | group (g gen : Nat) (phase : Option Nat)
  | met
  deriving DecidableEq, Repr

/-- One strand (R15 to R29), with its last acquires and its last access to an SO page (R263, log 45). -/
structure Strand where
  pc : PAddr
  pos : Nat
  stack : List Block
  rrb : Nat
  dbn : Nat
  outq : List CtlOut
  confq : List ConfEntry
  pend : List Pend
  exited : Bool
  gate : Option Nat
  wait : Option Wait
  acq : Acquired
  soLast : Nat
  view : View
  deriving DecidableEq, Repr

/-- A strand at parcel address 0 with nothing in it. -/
def Strand.zero : Strand := ⟨0, 0, [], 0, 0, [], [], [], false, none, none, ⟨0, 0, 0⟩, 0, .launch⟩

/-- One thing per engine. -/
structure Five (α : Type) where
  s : α
  l : α
  v : α
  m : α
  w : α
  deriving DecidableEq, Repr

/-! ## Workers -/

/-- A trap that has been decided and not yet entered: a bad ENTRY, or a pre-emption notice that waits for an `eret`, `held`
(R19, R322). -/
structure TrapNote where
  cause : Nat
  sub : Nat
  addr : Word
  slot : Option Nat
  strand : Eng
  pc : PAddr
  held : Bool
  deriving DecidableEq, Repr

/-- Supervisor CSRs and the mode (R310, R311). -/
structure Sup where
  priv : Bool
  ppriv : Bool
  tin : Bool
  pnote : Bool
  tdepth : Nat
  cause : BitVec 8
  sub : BitVec 4
  taddr : Word
  tpc : PAddr
  tstrand : BitVec 3
  tslot : BitVec 32
  tscratch : Word
  tvec : PAddr
  ctxid : BitVec 32
  asid : BitVec 16
  ptroot : PAddr
  laytab : PAddr
  errlog : PAddr
  deriving DecidableEq, Repr

/-- Launch values of the supervisor CSRs before the record's own (R311). -/
def Sup.launch : Sup :=
  ⟨false, false, false, false, 0, 0, 0, 0, 0, 0, 0xFFFFFFFF, 0, 0, 0, 0, 0, 0, 0⟩

/-- A `shins` under way, between two of its keys (R212, R224): its word, the sheaf and FTZ it began with, the elements of its
keys with their format, and the entries that took the keys so far, last first. -/
structure Insertion where
  word : E64
  sheaf : Sheaf
  ftz : Bool
  keys : List (List Nat)
  fmt : Nat
  done : List Int
  deriving DecidableEq, Repr

/-- Where a worker stands: running, stopped for a pre-emption with work in flight, saved, or completed (R17, R318). -/
inductive WorkerStatus where
  | running
  | stopped
  | saved
  | done
  deriving DecidableEq, Repr

/-- A worker: one core serving one launch (R15, R35, R321). -/
structure Worker where
  lid : Nat
  wid : Nat
  core : Nat
  status : WorkerStatus
  strands : Five Strand
  sregs : Tab Word
  vregs : Tab VReg
  masks : Tab (BitVec 65536)
  images : Tab (List ImgEntry)
  q14 : List Word
  q15 : List Word
  tokens : Tab Nat
  knots : Tab Knot
  farKnots : List Nat
  spad : Memory
  cells : Tab (BitVec 256)
  counters : Tab Counts
  active : Plane
  shadow : Plane
  nbrValid : Bool
  banks : Tab Bank
  qsat : BitVec 32
  cycle : BitVec 64
  refq : List Word
  lostref : Bool
  refcnt : BitVec 32
  sent : Tab Nat
  modeLog : List (List Word)
  codebookLog : List (List Word)
  layoutLog : List (List Word)
  nkeyLog : List (List Word)
  treeLog : List (List Word)
  arrivals : Tab Nat
  openTask : Option Nat
  committed : Bool
  triggered : Bool
  copySeq : Nat
  vpres : List (Nat × Bool)
  sup : Sup
  trapPend : List Pend
  stopPc : PAddr
  stopPos : Nat
  stopWaits : List (Option Wait)
  inHandler : Bool
  note : Option TrapNote
  preempt : Bool
  imageMoved : Bool
  insertion : Option Insertion
  deriving DecidableEq, Repr

/-! ## Launches -/

/-- States of a taken record (R287). -/
inductive LaunchState where
  | waiting
  | ready
  | running
  | preempted
  | draining
  | complete
  deriving DecidableEq, Repr

/-- A task in the sense of the conflict detector (R297): a numbered task, or a worker without one. -/
inductive TaskId where
  | task (n : Nat)
  | worker (w : Nat)
  deriving DecidableEq, Repr

/-- A detector state other than NONE (R297). -/
inductive Sector where
  | read (t : TaskId)
  | readMany
  | write (t : TaskId)
  deriving DecidableEq, Repr

/-- A launch whose record has been taken (R284 to R299); `args`, `bkt` and `books` are its images as taken (R286, R288). -/
structure Launch where
  record : List Word
  args : List Word
  bkt : List Word
  books : List (List Word)
  state : LaunchState
  prio : Nat
  age : Nat
  order : Nat
  status : Nat
  aborting : Bool
  producers : List Nat
  phase : Nat
  phaseEnds : List Nat
  groups : List Nat
  place : List Word
  bias : List (BitVec 32)
  biasGen : BitVec 32
  phaseBias : List (BitVec 32)
  phaseGamma : BitVec 32
  contrib : Tab (List (Tab Nat × BitVec 32))
  exitGamma : BitVec 32
  smbend : Bool
  deques : Tab (List Nat)
  left : Nat
  sectors : Tab Sector
  detOff : Bool
  biasLog : List (List Word)
  mandig : BitVec 256
  digest : BitVec 256
  bin : BitVec 256
  ended : Bool
  deriving DecidableEq, Repr

/-- The arbiter's own account of a launch queue (R284, R287, R325): the header as last read, HEAD, DONE, TAIL as read,
records completed out of ring order. -/
structure QueueSt where
  ring : Nat
  size : Nat
  prio : Nat
  enabled : Bool
  devq : Bool
  head : Nat
  done : Nat
  tail : Nat
  completed : List Nat
  deriving DecidableEq, Repr

/-- A launch queue before any doorbell. -/
def QueueSt.zero : QueueSt := ⟨0, 0, 0, false, false, 0, 0, 0, []⟩

/-! ## Engines -/

/-- An accepted copy command (R228 to R240): its image at issue, its progress, and the step of its issue, which also names it
among the agents (R259). -/
structure CopyCmd where
  key : Nat
  seq : Nat
  xf : Nat
  xor : Bool
  ord : Bool
  scope : Nat
  dst : Furrow
  src : Furrow
  tile : Tile
  tileNo : Nat
  knot : Nat
  remote : Option Word
  kcode : BitVec 8
  ecode : BitVec 8
  engine : Nat
  ftz : Bool
  e4m3sat : Bool
  priv : Bool
  pc : PAddr
  task : TaskId
  chunks : Nat
  next : Nat
  counts : Counts
  failed : Bool
  born : Nat
  deriving DecidableEq, Repr

/-- A decode job (R247 to R253): its record, the captured GEN, the captured entries, spans written, logits held by token; the
step of its issue and that of its last acquire (R281). -/
structure SauJob where
  key : Nat
  desc : BitVec 512
  query : List (BitVec 32)
  dst : Furrow
  knot : Nat
  scope : Nat
  buf : Bool
  ftz : Bool
  priv : Bool
  pc : PAddr
  gen : Option Word
  entries : List Word
  folded : List Nat
  failed : Option (Nat × Word)
  complete : Bool
  logits : Tab (BitVec 32)
  born : Nat
  acq : Nat
  deriving DecidableEq, Repr

/-- A score pass (R254); `ftz` is MODE's as it stood, which touches nothing that a pass admits (R72). -/
structure ScorePass where
  key : Nat
  m : BitVec 32
  s : BitVec 32
  tag : BitVec 16
  knot : Nat
  scope : Nat
  drop : Bool
  ftz : Bool
  priv : Bool
  pc : PAddr
  born : Nat
  deriving DecidableEq, Repr

/-- A knot add not yet delivered (`wstq`, R168): its SCOPE and the text position of its instruction. -/
structure KnotAdd where
  key : Nat
  knot : Nat
  scope : Nat
  pos : Nat
  deriving DecidableEq, Repr

/-- A `satinv` in flight (R309). -/
structure Satinv where
  key : Nat
  base : Nat
  limit : Nat
  asid : Nat
  all : Bool
  knot : Nat
  deriving DecidableEq, Repr

/-- One row on its way to an expert window (R209), and whether it came from a peer device (R276). -/
structure SendReq where
  lid : Nat
  sender : Nat
  row : Nat
  expert : Nat
  token : BitVec 32
  data : List Byte
  knot : Nat
  phase : Nat
  peer : Bool
  deriving DecidableEq, Repr

/-- A refusal on its way back (R210). -/
structure RefusalMsg where
  key : Nat
  entry : Word
  knot : Nat
  deriving DecidableEq, Repr

/-- A cached leaf entry (R307): tag, global mark, the virtual range it covers and the entry itself. -/
structure TlbEntry where
  asid : Nat
  global : Bool
  base : Nat
  size : Nat
  pte : Word
  deriving DecidableEq, Repr

/-- A cached table entry of level 3 to 1 (R307): tag, level, the virtual range its table covers, the table's address. -/
structure WalkEntry where
  asid : Nat
  level : Nat
  base : Nat
  size : Nat
  table : Nat
  deriving DecidableEq, Repr

/-- A translation cache, oldest entry first. -/
structure Tlb where
  leaves : List TlbEntry
  tables : List WalkEntry
  deriving DecidableEq, Repr

/-- An empty translation cache. -/
def Tlb.empty : Tlb := ⟨[], []⟩

/-! ## Device -/

/-- A pool region (R327, R328), and whether a RESUME waits for the link (log 36). -/
structure Region where
  ctl : Word
  state : Nat
  lstore : Bool
  asked : Bool
  deriving DecidableEq, Repr

/-- A region at reset. -/
def Region.reset : Region := ⟨0, 0, false, false⟩

/-- A Fupel port (R329, R334). -/
structure Port where
  up : Bool
  lanes : Nat
  peer : Nat
  retry : Nat
  plost : Bool
  spareUsed : Bool
  deriving DecidableEq, Repr

/-- A port at reset. -/
def Port.reset : Port := ⟨false, 0, 0, 0, false, false⟩

/-- Where a write stood: in a worker's scratchpad, in one of its cells, or in memory. -/
inductive Spot where
  | spad (key : Nat)
  | cell (key : Nat)
  | mem
  deriving DecidableEq, Repr

/-- An agent (R259): a strand of a worker, or an engine's work on a command of the worker, named by the step of its issue. -/
inductive Doer where
  | strand (e : Eng)
  | command (born : Nat)
  deriving DecidableEq, Repr

/-- An agent with its worker. -/
structure Who where
  key : Nat
  doer : Doer
  deriving DecidableEq, Repr

/-- Ordering kinds of a page (R262). -/
inductive PageKind where
  | rc
  | so
  | un
  deriving DecidableEq, Repr

/-- A write performed at a scope, seen from a core, in a step (R260, R266). -/
structure Reach where
  time : Nat
  scope : Nat
  core : Nat
  deriving DecidableEq, Repr

/-- What a write does to the 32 bytes of its line: `width` bits from `shift` take a value, or a cell takes a sum. -/
inductive Edit where
  | put (shift width val : Nat)
  | add (c : BitVec 256)
  deriving DecidableEq, Repr

/-- A store, atomic or cell add that some agent may still miss (R260, R261, R267, log 45): its number in coherence order, which
the writes of one indivisible event share (R224); the 32 bytes it lies in, what they held before the oldest record of them, and
what it did; the agent, or none for the device and for masters outside, and its text position; the page's kind; the scopes it is
performed at; the step in which another agent first saw it, the agents that have seen it, and whether every agent has. -/
structure Write where
  id : Nat
  spot : Spot
  line : Nat
  old : Nat
  edit : Edit
  who : Option Who
  pos : Nat
  kind : PageKind
  reach : List Reach
  shown : Option Nat
  seenBy : List Who
  done : Bool
  deriving DecidableEq, Repr

/-- A 16-byte sector of a core's scratchpad or, with `cell`, of its accumulator store, by its byte offset (R332). -/
structure LocalSector where
  key : Nat
  cell : Bool
  off : Nat
  deriving DecidableEq, Repr

/-- A place in a core's SRAM that an error can be corrected in and counted against (R332). -/
inductive SramPlace where
  | spad (off : Nat)
  | cells (off : Nat)
  | regs (e : Eng)
  deriving DecidableEq, Repr

/-- A strand whose next instruction meets an error of its registers or queues: a residue mismatch, KIND 1, or an uncorrectable
error of their SRAM, KIND 2 (R332, R333); a single-bit error, KIND 0, is corrected there and counted. -/
structure RegFault where
  key : Nat
  eng : Eng
  kind : Nat
  deriving DecidableEq, Repr

/-- A turn of the model's own scheduler (log 1). -/
inductive Turn where
  | strand (key : Nat) (e : Eng)
  | event (i : Instr)
  deriving DecidableEq, Repr

/-- One Tahild module. -/
structure State where
  tick : Nat
  agenda : List Turn
  curKey : Nat
  curEng : Eng
  workers : Tab Worker
  launches : Tab Launch
  queues : Tab QueueSt
  lastQueue : Nat
  starts : Nat
  reserved : Option Nat
  mem : Memory
  poolDirty : Memory
  coreTlb : Tab Tlb
  dieTlb : Tab Tlb
  engTlb : Tab Tlb
  sauTlb : Tab Tlb
  copies : List CopyCmd
  jobs : List SauJob
  passes : List ScorePass
  knotAdds : List KnotAdd
  satinvs : List Satinv
  sends : List SendReq
  refusals : List RefusalMsg
  own : BitVec 16
  offered : BitVec 16
  qhbase : Word
  ctxtab : Word
  devnum : BitVec 10
  qirq : Tab Word
  regions : Tab Region
  poolUp : List Nat
  ports : Tab Port
  routes : Tab (BitVec 18)
  messages : List Nat
  replies : List (List Byte)
  retired : List Nat
  spareIn : List Nat
  coreUse : Tab Nat
  saveArea : Tab Nat
  planeOwner : Tab Nat
  macroCols : Tab (List Nat)
  pseudoSpares : List Nat
  clockMHz : Nat
  frozen : Bool
  boots : Nat
  fuses : Tab Nat
  measures : Tab (BitVec 256)
  bootFailed : List Nat
  badSectors : List Nat
  badLocal : List LocalSector
  regFaults : List RegFault
  softSectors : List Nat
  softLocal : List LocalSector
  corrected : Tab Nat
  mended : List (Nat × SramPlace)
  mclog : List (List Word)
  reports : List (List Word)
  vaults : Tab Memory
  movedImages : Tab Memory
  writes : List Write
  deriving DecidableEq, Repr

/-- Why a run of `exec` has no meaning at all. `step` raises none of these. -/
inductive Fault where
  /-- Raised by `exec` on a strand's instruction when the state names no live worker to run it. Safe: the hardware runs no
  instruction without a worker. -/
  | noWorker
  /-- Raised by `exec` on an instruction of another engine than the strand in turn, which that strand skips (R15). Safe. -/
  | wrongEngine
  deriving DecidableEq, Repr

/-- Why an instruction is turned away. -/
inductive Refusal where
  /-- Raised by the arm of an instruction that has no meaning yet. Safe. -/
  | notModelled (mnemonic : String)
  deriving DecidableEq, Repr

/-- The measurement registers after the boot of a reset (R336): register `i` takes the digest of image `i` if it passes. -/
def measured (n : Nat) (good : Nat → Bool) : Tab (BitVec 256) :=
  ([0, 1, 2, 3, 4, 5].filter good).map fun i => (i, Sha3.hash (Sha3.bytes 0 ++ Sha3.bytes (Config.firmwareDigest n i)))

/-- The machine right after reset: no worker, no launch, no context (R335, R336), BAR0 as R324 and R330 say, memory with
nothing listed (log 2), the pool and Fupel links down (log 3), every firmware image passed and measured (log 21). -/
def State.reset : State where
  tick := 0
  agenda := []
  curKey := 0
  curEng := .S
  workers := []
  launches := []
  queues := []
  lastQueue := 63
  starts := 0
  reserved := none
  mem := []
  poolDirty := []
  coreTlb := []
  dieTlb := []
  engTlb := []
  sauTlb := []
  copies := []
  jobs := []
  passes := []
  knotAdds := []
  satinvs := []
  sends := []
  refusals := []
  own := 0xFFFF
  offered := 0xFFFF
  qhbase := 0
  ctxtab := 0
  devnum := 0
  qirq := []
  regions := []
  poolUp := []
  ports := []
  routes := []
  messages := []
  replies := []
  retired := []
  spareIn := []
  coreUse := []
  saveArea := []
  planeOwner := []
  macroCols := []
  pseudoSpares := []
  clockMHz := 2500
  frozen := false
  boots := 1
  fuses := []
  measures := measured 0 fun _ => true
  bootFailed := []
  badSectors := []
  badLocal := []
  regFaults := []
  softSectors := []
  softLocal := []
  corrected := []
  mended := []
  mclog := []
  reports := []
  vaults := []
  movedImages := []
  writes := []

end Sys2Proof.Machine
end

