-- ==== Sys2Proof/Machine/Base.lean ====
section
/-! DEFINITION. Looking at and changing the parts of the state: the strand in turn, workers, launches, record words; and how
an instruction can end short of its effect. -/
namespace Sys2Proof.Machine

/-- The part of an engine. -/
def Five.get {α : Type} (f : Five α) : Eng → α
  | .S => f.s
  | .L => f.l
  | .V => f.v
  | .M => f.m
  | .W => f.w

/-- Replace the part of an engine. -/
def Five.set {α : Type} (f : Five α) (e : Eng) (x : α) : Five α :=
  match e with
  | .S => { f with s := x }
  | .L => { f with l := x }
  | .V => { f with v := x }
  | .M => { f with m := x }
  | .W => { f with w := x }

/-- The five parts in ENG order. -/
def Five.toList {α : Type} (f : Five α) : List α := [f.s, f.l, f.v, f.m, f.w]

/-- Change all five parts. -/
def Five.map {α β : Type} (g : α → β) (f : Five α) : Five β := ⟨g f.s, g f.l, g f.v, g f.m, g f.w⟩

/-- Change the parts of L, V, M and W. -/
def Five.mapOthers {α : Type} (g : α → α) (f : Five α) : Five α := ⟨f.s, g f.l, g f.v, g f.m, g f.w⟩

/-- The engines that follow S. -/
def otherEngines : List Eng := [.L, .V, .M, .W]

/-- All engines in ENG order. -/
def allEngines : List Eng := [.S, .L, .V, .M, .W]

/-- The engine behind an ENG code. -/
def engOfCode : Nat → Eng
  | 0 => .S
  | 1 => .L
  | 2 => .V
  | 3 => .M
  | _ => .W

/-- The key of logical worker `w` of launch `lid`. -/
def workerKey (lid w : Nat) : Nat := lid * 128 + w

/-- A worker with nothing in it: launch values, before the record's own (R36, R39, R106, R311). -/
def Worker.zero : Worker :=
  { lid := 0, wid := 0, core := 0, status := .running
    strands := ⟨.zero, .zero, .zero, .zero, .zero⟩
    sregs := [], vregs := [], masks := [], images := [], q14 := [], q15 := [], tokens := [], knots := [], farKnots := []
    spad := [], cells := [], counters := [], active := .reset, shadow := .reset, nbrValid := true, banks := []
    qsat := 0, cycle := 0, refq := [], lostref := false, refcnt := 0, sent := []
    modeLog := [], codebookLog := [], layoutLog := [], nkeyLog := [], treeLog := []
    arrivals := [], openTask := none, committed := false, triggered := false, copySeq := 0, vpres := []
    sup := .launch, trapPend := [], stopPc := 0, stopPos := 0, stopWaits := [], inHandler := false, note := none
    preempt := false, imageMoved := false, insertion := none }

/-- A worker by key. -/
def State.worker? (s : State) (key : Nat) : Option Worker := tabFind s.workers key

/-- A worker by key, or one with nothing in it. -/
def State.worker (s : State) (key : Nat) : Worker := (s.worker? key).getD .zero

/-- Put a worker. -/
def State.putWorker (s : State) (key : Nat) (w : Worker) : State := { s with workers := tabPut s.workers key w }

/-- Change a worker if it is there. -/
def State.modWorker (s : State) (key : Nat) (f : Worker → Worker) : State :=
  match s.worker? key with
  | some w => s.putWorker key (f w)
  | none => s

/-- Whether a decided trap holds every strand of a worker until it is entered (R19). -/
def Worker.noted (w : Worker) : Bool := w.note.any fun n => !n.held

/-- The worker in turn. -/
def State.wk (s : State) : Worker := s.worker s.curKey

/-- Put the worker in turn. -/
def State.setWk (s : State) (w : Worker) : State := s.putWorker s.curKey w

/-- Change the worker in turn. -/
def State.modWk (s : State) (f : Worker → Worker) : State := s.setWk (f s.wk)

/-- The strand in turn. -/
def State.st (s : State) : Strand := s.wk.strands.get s.curEng

/-- Put a strand of a worker. -/
def Worker.setStrand (w : Worker) (e : Eng) (t : Strand) : Worker := { w with strands := w.strands.set e t }

/-- Put the strand in turn. -/
def State.setSt (s : State) (t : Strand) : State := s.setWk (s.wk.setStrand s.curEng t)

/-- Change the strand in turn. -/
def State.modSt (s : State) (f : Strand → Strand) : State := s.setSt (f s.st)

/-- Configuration as the strand in turn sees it (R22). -/
def State.view (s : State) : View := s.st.view

/-- Whether a worker is there, alive and running. -/
def State.live (s : State) : Bool :=
  match s.worker? s.curKey with
  | some w => w.status == .running
  | none => false

/-! ## Launches -/

/-- A launch with nothing in it. -/
def Launch.zero : Launch :=
  { record := [], args := [], bkt := [], books := [], state := .waiting, prio := 0, age := 0, order := 0, status := 0
    aborting := false, producers := []
    phase := 0, phaseEnds := [], groups := [], place := [], bias := [], biasGen := 0, phaseBias := [], phaseGamma := 0
    contrib := [], exitGamma := 0, smbend := false, deques := [], left := 0, sectors := [], detOff := false
    biasLog := [], mandig := 0, digest := 0, bin := 0, ended := false }

/-- A launch by LID, or one with nothing in it. -/
def State.launch (s : State) (lid : Nat) : Launch := (tabFind s.launches lid).getD .zero

/-- Put a launch. -/
def State.putLaunch (s : State) (lid : Nat) (l : Launch) : State := { s with launches := tabPut s.launches lid l }

/-- Change a launch if it is there. -/
def State.modLaunch (s : State) (lid : Nat) (f : Launch → Launch) : State :=
  match tabFind s.launches lid with
  | some l => s.putLaunch lid (f l)
  | none => s

/-- Word `i` of a launch record (R285). -/
def Launch.word (l : Launch) (i : Nat) : Nat := (nth 0 l.record i).toNat

/-- Worker count W. -/
def Launch.workersN (l : Launch) : Nat := bits (l.word 1) 0 16

/-- NTASK. -/
def Launch.ntask (l : Launch) : Nat := bits (l.word 1) 32 32

/-- NPHASE. -/
def Launch.nphase (l : Launch) : Nat := bits (l.word 1) 16 16

/-- DET. -/
def Launch.det (l : Launch) : Bool := bit (l.word 2) 0

/-- EARLY. -/
def Launch.early (l : Launch) : Bool := bit (l.word 2) 1

/-- NEXP. -/
def Launch.nexp (l : Launch) : Nat := bits (l.word 11) 0 11

/-- ENTRY. -/
def Launch.entry (l : Launch) : PAddr := BitVec.ofNat 57 (l.word 0)

/-- The launch of the worker in turn. -/
def State.ln (s : State) : Launch := s.launch s.wk.lid

/-- Whether a worker has exited: all five strands have (R17). -/
def Worker.gone (w : Worker) : Bool := w.strands.toList.all (·.exited)

/-- Number of phases of a launch that has tasks. -/
def Launch.phases (l : Launch) : Nat := l.phaseEnds.length

/-- The workers of a launch, by logical number. -/
def State.workersOf (s : State) (lid : Nat) : List Worker :=
  (upFrom 0 (s.launch lid).workersN).map fun w => s.worker (workerKey lid w)

/-- Whether the current phase of a deterministic launch is over and its end still to come (R257, R294). -/
def State.phaseOver (s : State) (lid : Nat) : Bool :=
  let l := s.launch lid
  l.det && (l.state == .running || l.state == .preempted) && !l.aborting && !l.ended &&
    (if l.ntask = 0 then !(s.workersOf lid).all (·.gone) && (s.workersOf lid).all fun w => w.gone || w.committed
      else l.left == 0 && decide (l.phase < l.phases))

/-- The task an access of a worker belongs to (R297). -/
def Worker.task (w : Worker) : TaskId :=
  match w.openTask with
  | some n => .task n
  | none => .worker w.wid

/-! ## Ways to end short -/

/-- A trap to be taken: cause, subcode, TADDR and the slot where one applies (R312). -/
structure Trap where
  cause : Nat
  sub : Nat
  addr : Nat
  slot : Option Nat
  deriving DecidableEq, Repr

/-- Why an instruction does not take effect now: it waits, it traps, or it met a machine check (R8, R312, R316). -/
inductive Stop where
  | stall
  | trap (t : Trap)
  | machine (kind : Nat) (pa : Nat)
  deriving DecidableEq, Repr

/-- Actions on the state that may end short. -/
abbrev M (α : Type) := StateT State (Except Stop) α

/-- End short. -/
def M.stop {α : Type} (x : Stop) : M α := fun _ => .error x

/-- Wait. -/
def M.stall {α : Type} : M α := M.stop .stall

/-- Trap. -/
def M.trap {α : Type} (cause sub addr : Nat) (slot : Option Nat) : M α := M.stop (.trap ⟨cause, sub, addr, slot⟩)

/-- Illegal instruction, cause 0x01, with a subcode (R312). -/
def M.illegal {α : Type} (sub : Nat) : M α := M.trap 1 sub 0 none

/-- Go on only if a legality condition of step 8 of R59 holds. -/
def M.legal (b : Bool) : M Unit := if b then pure () else M.illegal 3

/-- Wait unless a condition holds. -/
def M.await (b : Bool) : M Unit := if b then pure () else M.stall

/-- Read something of the state. -/
def M.look {α : Type} (f : State → α) : M α := fun s => .ok (f s, s)

/-- Go on with a result that may end short. -/
def M.lift {α : Type} (r : Except Stop α) : M α := fun s =>
  match r with
  | .ok a => .ok (a, s)
  | .error x => .error x

/-- Change the state. -/
def M.change (f : State → State) : M Unit := fun s => .ok ((), f s)

/-- Do something for each element of a list. -/
def M.each {α : Type} (f : α → M Unit) : List α → M Unit
  | [] => pure ()
  | a :: r => do f a; M.each f r

/-- Collect a result for each element of a list. -/
def M.gather {α β : Type} (f : α → M β) : List α → M (List β)
  | [] => pure []
  | a :: r => do
    let b ← f a
    let l ← M.gather f r
    pure (b :: l)

/-! ## Cores -/

/-- The die of a physical core (R293). -/
def dieOf (core : Nat) : Nat := core / Config.coresPerDie

/-- Whether a physical core is in service (R2, R334). -/
def State.coreEnabled (s : State) (core : Nat) : Bool :=
  decide (core < Config.dies * Config.coresPerDie) && !s.retired.contains core &&
    (decide (core % Config.coresPerDie < Config.enabledPerDie) || s.spareIn.contains core)

end Sys2Proof.Machine
end

