-- ==== Sys2Proof/Machine/Access.lean ====
section
/-! DEFINITION. Address windows, page walks, translation caches, permissions, pool regions and peers, error-marked sectors,
the conflict detector, and the reads and writes of every address space (R147, R276 to R283, R297, R304 to R307, R332). -/
namespace Sys2Proof.Machine

/-- Who makes an access: a core's strands, a copy engine, a stack attention unit (R307). -/
inductive Agent where
  | core (c : Nat)
  | engine (e : Nat)
  | sau (u : Nat)
  deriving DecidableEq, Repr

/-- The context an access is made in. -/
structure Cx where
  asid : Nat
  root : Nat
  user : Bool
  lid : Nat
  wid : Nat
  wcnt : Nat
  deriving DecidableEq, Repr

/-- Kinds of access, as the checks of R306 tell them apart. -/
inductive Acc where
  | load
  | store
  | atomic
  | cellAdd
  | fetch
  | flush
  deriving DecidableEq, Repr

/-- Why an access cannot be made: a cause of R312, or a machine check (R333 KIND and the sector's address). -/
inductive AErr where
  | fault (cause : Nat)
  | machine (kind : Nat) (pa : Nat)
  deriving DecidableEq, Repr

/-- A physical place: its address in the model's one physical memory (peer device d's HBM from (d + 1) · 2^52 up), whether it
is a pool byte, whether the access goes straight to the home (SO pages, NC pages, peers), and its page's kind. -/
structure Phys where
  addr : Nat
  pool : Bool
  home : Bool
  kind : PageKind
  deriving DecidableEq, Repr

/-- Where an address leads. -/
inductive Place where
  | spad (key off : Nat)
  | cell (key idx byte : Nat)
  | knot (key k : Nat)
  | phys (p : Phys)
  deriving DecidableEq, Repr

/-- The context of a worker (R310, R311). -/
def State.cxOf (s : State) (w : Worker) : Cx :=
  ⟨w.sup.asid.toNat, w.sup.ptroot.toNat, !w.sup.priv, w.lid, w.wid, (s.launch w.lid).workersN⟩

/-! ## The fixed windows -/

/-- Whether an address lies in the range of the fixed windows (R147). -/
def inWindows (va : Nat) : Bool := decide (0x1F0 ≤ va >>> 48) && decide (va >>> 48 ≤ 0x1FF)

/-- The place behind a window address; `none` where no valid offset matches (R147). -/
def windowPlace (cx : Cx) (va : Nat) : Option Place :=
  let off := va % 2 ^ 48
  let w20 := off >>> 20
  let o20 := off % 2 ^ 20
  match va >>> 48 with
  | 0x1F0 => if off < 0x80000 then some (.spad (workerKey cx.lid cx.wid) off) else none
  | 0x1F1 => if o20 < 0x80000 ∧ w20 < cx.wcnt then some (.spad (workerKey cx.lid w20) o20) else none
  | 0x1F2 => if off < 0x100000 then some (.cell (workerKey cx.lid cx.wid) (off / 32) (off % 32)) else none
  | 0x1F3 => if w20 < cx.wcnt then some (.cell (workerKey cx.lid w20) (o20 / 32) (o20 % 32)) else none
  | 0x1F4 =>
    let w := off >>> 12
    let o := off % 4096
    if w < cx.wcnt ∧ o < 256 ∧ o % 8 = 0 then some (.knot (workerKey cx.lid w) (o / 8)) else none
  | _ => none

/-! ## Page-table entries and the physical map -/

/-- Parts of the physical map (R305). -/
inductive PKind where
  | hbm
  | vault
  | pool
  | host
  deriving DecidableEq, Repr

/-- The target of a physical address, if the map of R305 has one. -/
def physKind (pa : Nat) : Option PKind :=
  if pa < 0x8000000000 then some .hbm
  else if 0x10000000000 ≤ pa ∧ pa < 0x10100000000 then
    let o := pa - 0x10000000000
    if (o >>> 24) % 64 < 24 ∧ o % 0x1000000 < 0x400000 then some .vault else none
  else if 0x4000000000000 ≤ pa ∧ pa < 0x8000000000000 then some .pool
  else if 0x8000000000000 ≤ pa ∧ pa < 0x10000000000000 then some .host
  else none

/-- Bits [51:12] of an entry, in place (R304). -/
def pteAddr (pte : Nat) : Nat := (bits pte 12 40) <<< 12

/-- Whether a valid table entry is well formed (R304, R305). -/
def tableOk (pte : Nat) : Bool := bits pte 52 12 == 0 && bits pte 2 10 == 0

/-- Size of the range that a leaf at a level maps (R305). -/
def leafSize (level pte : Nat) : Nat :=
  match level with
  | 0 => if bit pte 11 then 2 ^ 16 else 2 ^ 12
  | 1 => 2 ^ 21
  | _ => 2 ^ 30

/-- Whether a valid leaf at a level below 3 is well formed, its target apart (R304, R305). -/
def leafOk (level pte : Nat) : Bool :=
  !bit pte 63 && (bit pte 62 || bits pte 52 10 == 0) && (level == 0 || !bit pte 11) &&
    pteAddr pte % leafSize level pte == 0 && bits pte 6 2 != 3 && !(bit pte 62 && bit pte 9)

/-- The ordering kind of a well-formed leaf (R262). -/
def leafKind (pte : Nat) : PageKind := if bits pte 6 2 = 1 then .so else if bits pte 6 2 = 2 then .un else .rc

/-- The physical place that a leaf gives an address, where the map has it (R305). -/
def leafPhys (size pte va : Nat) : Option Phys :=
  let pa := pteAddr pte / size * size + va % size
  let home := bits pte 6 2 == 1 || bit pte 8
  if bit pte 62 then
    if physKind pa = some .hbm then some ⟨((bits pte 52 10 + 1) <<< 52) + pa, false, true, leafKind pte⟩ else none
  else
    match physKind pa with
    | none => none
    | some k => if bit pte 9 = (k == .pool) then some ⟨pa, bit pte 9, home, leafKind pte⟩ else none

/-! ## Physical bytes -/

/-- One byte of physical memory as this device sees it: a pool byte held dirty on the device is newer than the pool's. -/
def State.physByte (s : State) (a : Nat) : BitVec 8 :=
  match tabFind s.poolDirty a with
  | some b => b
  | none => s.mem.read a

/-- `n` physical bytes from `a`, as a little-endian number. -/
def State.physNat (s : State) (a : Nat) : Nat → Nat
  | 0 => 0
  | n + 1 => (s.physByte a).toNat + State.physNat s (a + 1) n <<< 8

/-- Write one byte: a pool byte short of pool scope stays dirty on the device (R277, R279). -/
def State.putByte (s : State) (p : Phys) (a : Nat) (b : BitVec 8) : State :=
  if p.pool && !p.home then { s with poolDirty := tabPut s.poolDirty a b }
  else { s with mem := s.mem.write a b, poolDirty := tabErase s.poolDirty a }

/-- Write bytes from `a` up. -/
def State.putBytes (s : State) (p : Phys) (a : Nat) : List (BitVec 8) → State
  | [] => s
  | b :: r => State.putBytes (s.putByte p a b) p (a + 1) r

/-- The marked sector among those that bytes [a, a + n) touch. -/
def sectorHit (sectors : List Nat) (a n : Nat) : Option Nat := sectors.find? fun x => decide (x < a + n ∧ a < x + 16)

/-- KIND of a machine check at an address: 2 for SRAM, 3 for HBM, a peer's too (R333). -/
def checkKind (a : Nat) : Nat := if physKind (a % 2 ^ 52) = some .hbm then 3 else 2

/-- A location's count of corrected errors goes up by one (R332). -/
def countError (t : Tab Nat) (x : Nat) : Tab Nat := tabPut t x ((tabFind t x).getD 0 + 1)

/-- Correct single-bit errors in the sectors that bytes [a, a + n) touch, and count them (R332). -/
def State.correct (s : State) (a n : Nat) : State :=
  let hit := fun (x : Nat) => decide (x < a + n ∧ a < x + 16)
  { s with
    softSectors := s.softSectors.filter fun x => !hit x
    corrected := (s.softSectors.filter hit).foldl countError s.corrected }

/-! ## Regions and peers -/

/-- Whether region `r` is enabled. -/
def Region.enabled (r : Region) : Bool := r.ctl.getLsbD 63

/-- Pool port of a region. -/
def Region.port (r : Region) : Nat := bits r.ctl.toNat 58 2

/-- First address of a region. -/
def Region.base (r : Region) : Nat := (bits r.ctl.toNat 30 22) <<< 30

/-- Bytes of a region. -/
def Region.size (r : Region) : Nat := (bits r.ctl.toNat 0 16) <<< 30

/-- Whether an address lies in a region. -/
def Region.has (r : Region) (a : Nat) : Bool := r.enabled && decide (r.base ≤ a ∧ a < r.base + r.size)

/-- The fault of a pool access: no region, or a region out of service (R279, R327, R328). -/
def State.poolFault (s : State) (a : Nat) : Option Nat :=
  match s.regions.find? fun e => e.2.has a with
  | none => some 0x08
  | some e => if e.2.state = 1 then none else some 0x0C

/-- Whether some port that may carry requests to device `d` is up (R329). -/
def State.peerUp (s : State) (d : Nat) : Bool :=
  s.ports.any fun e => e.2.up && ((tabFind s.routes d).getD 0).getLsbD e.1

/-- The fault of reaching a physical place, if any (R279, R327, R329). -/
def State.placeFault (s : State) (p : Phys) : Option Nat :=
  if p.pool then s.poolFault p.addr
  else if 2 ^ 52 ≤ p.addr then (if s.peerUp (p.addr >>> 52 - 1) then none else some 0x08)
  else none

/-! ## Translation caches and walks -/

/-- The translation cache of an agent. -/
def State.tlb (s : State) : Agent → Tlb
  | .core c => (tabFind s.coreTlb c).getD .empty
  | .engine e => (tabFind s.engTlb e).getD .empty
  | .sau u => (tabFind s.sauTlb u).getD .empty

/-- Entries an agent's cache holds (R307). -/
def Agent.capacity : Agent → Nat
  | .core _ => 512
  | .engine _ => 64
  | .sau _ => 32

/-- A cached leaf for an address. -/
def Tlb.find (t : Tlb) (asid va : Nat) : Option TlbEntry :=
  t.leaves.find? fun e => (e.global || e.asid == asid) && decide (e.base ≤ va ∧ va < e.base + e.size)

/-- The deepest cached table for an address. -/
def Tlb.table (t : Tlb) (asid va : Nat) : Option WalkEntry :=
  let ok := fun (e : WalkEntry) => e.asid == asid && decide (e.base ≤ va ∧ va < e.base + e.size)
  match t.tables.find? fun e => ok e && e.level == 0 with
  | some e => some e
  | none =>
    match t.tables.find? fun e => ok e && e.level == 1 with
    | some e => some e
    | none => t.tables.find? fun e => ok e && e.level == 2

/-- Add what a walk found, oldest entries leaving first (log 10). -/
def Tlb.add (t : Tlb) (cap : Nat) (e : TlbEntry) (l : List WalkEntry) : Tlb :=
  let leaves := (t.leaves.filter (· ≠ e)) ++ [e]
  let tables := (t.tables.filter fun x => !l.contains x) ++ l
  ⟨leaves.drop (leaves.length - cap), tables.drop (tables.length - cap)⟩

/-- Bytes of address space that a table of a level covers. -/
def tableSpan (level : Nat) : Nat := 2 ^ (21 + 9 * level)

/-- Index of an address in a table of a level (R305). -/
def tableIndex (level va : Nat) : Nat :=
  if level = 3 then (va >>> 39) % 2 ^ 18 else (va >>> (12 + 9 * level)) % 512

/-- Read one page-table entry as an atomic 64-bit load (R283). -/
def State.readEntry (s : State) (a : Nat) : Except AErr Nat :=
  match physKind a with
  | none => .error (.fault 0x08)
  | some k =>
    match (if k = .pool then s.poolFault a else none) with
    | some c => .error (.fault c)
    | none =>
      match sectorHit s.badSectors a 8 with
      | some x => .error (.machine (checkKind a) x)
      | none => .ok (s.physNat a 8)

/-- What an entry read at a level below 3 gives if it is a leaf. -/
def leafEntry (asid va level pte : Nat) : Except AErr TlbEntry :=
  if leafOk level pte then
    let size := leafSize level pte
    .ok ⟨asid, bit pte 5, va / size * size, size, BitVec.ofNat 64 pte⟩
  else .error (.fault 0x08)

/-- Walk from a table of a level down to a leaf (R305): the leaf, and the tables met on the way. -/
def State.walkFrom (s : State) (asid va : Nat) : Nat → Nat → Except AErr (TlbEntry × List WalkEntry)
  | 0, table =>
    match s.readEntry (table + 8 * tableIndex 0 va) with
    | .error x => .error x
    | .ok pte =>
      if !bit pte 0 || bit pte 1 then .error (.fault 0x08)
      else
        match leafEntry asid va 0 pte with
        | .error x => .error x
        | .ok e => .ok (e, [])
  | level + 1, table =>
    match s.readEntry (table + 8 * tableIndex (level + 1) va) with
    | .error x => .error x
    | .ok pte =>
      if !bit pte 0 then .error (.fault 0x08)
      else if bit pte 1 then
        if tableOk pte then
          match State.walkFrom s asid va level (pteAddr pte) with
          | .error x => .error x
          | .ok (e, l) =>
            .ok (e, ⟨asid, level, va / tableSpan level * tableSpan level, tableSpan level, pteAddr pte⟩ :: l)
        else .error (.fault 0x08)
      else if level + 1 = 3 then .error (.fault 0x08)
      else
        match leafEntry asid va (level + 1) pte with
        | .error x => .error x
        | .ok e => .ok (e, [])

/-- A walk for an address, from the deepest cached table or from the root. -/
def State.walk (s : State) (t : Tlb) (cx : Cx) (va : Nat) : Except AErr (TlbEntry × List WalkEntry) :=
  match t.table cx.asid va with
  | some e => s.walkFrom cx.asid va e.level e.table
  | none => s.walkFrom cx.asid va 3 cx.root

/-- The entry of the die's cache for an access of a core. -/
def State.dieFind (s : State) (ag : Agent) (asid va : Nat) : Option TlbEntry :=
  match ag with
  | .core c => ((tabFind s.dieTlb (dieOf c)).getD .empty).find asid va
  | _ => none

/-- A translation: from the agent's cache, then the die's for a core, then by a walk (R305, R307). The flag says whether the
walk's result is new. -/
def State.lookup (s : State) (ag : Agent) (cx : Cx) (va : Nat) : Except AErr (TlbEntry × List WalkEntry × Bool) :=
  match (s.tlb ag).find cx.asid va with
  | some e => .ok (e, [], false)
  | none =>
    match s.dieFind ag cx.asid va with
    | some e => .ok (e, [], true)
    | none =>
      match s.walk (s.tlb ag) cx va with
      | .error x => .error x
      | .ok (e, l) => .ok (e, l, true)

/-- Keep a translation in the caches. -/
def State.fill (s : State) (ag : Agent) (e : TlbEntry) (l : List WalkEntry) : State :=
  let t := (s.tlb ag).add ag.capacity e l
  match ag with
  | .core c =>
    { s with
      coreTlb := tabPut s.coreTlb c t
      dieTlb := tabPut s.dieTlb (dieOf c) (((tabFind s.dieTlb (dieOf c)).getD .empty).add 8192 e []) }
  | .engine n => { s with engTlb := tabPut s.engTlb n t }
  | .sau n => { s with sauTlb := tabPut s.sauTlb n t }

/-- The permission checks of R306. -/
def permitted (user : Bool) (acc : Acc) (pte : Nat) : Bool :=
  let needR := acc == .load || acc == .atomic || acc == .fetch
  let needW := acc == .store || acc == .atomic || acc == .cellAdd
  !(user && !bit pte 4) && !(needR && !bit pte 2) && !(needW && (!bit pte 3 || bit pte 10))

/-- Translate and check a non-window address: the place and what the caches learn. -/
def State.translate (s : State) (ag : Agent) (cx : Cx) (va : Nat) (acc : Acc) :
    Except AErr (Phys × TlbEntry × List WalkEntry × Bool) :=
  if 2 ^ 57 ≤ va then .error (.fault 0x08)
  else
    match s.lookup ag cx va with
    | .error x => .error x
    | .ok (e, l, new) =>
      match leafPhys e.size e.pte.toNat va with
      | none => .error (.fault 0x08)
      | some p =>
        if permitted cx.user acc e.pte.toNat then
          match s.placeFault p with
          | some c => .error (.fault c)
          | none => .ok (p, e, l, new)
        else .error (.fault 0x09)

/-- The entries that a walk read: one in the table it began with, one in each table it met (R305). -/
def walkReads (va start level : Nat) (l : List WalkEntry) : List Nat :=
  (start + 8 * tableIndex level va) :: l.map fun e => e.table + 8 * tableIndex e.level va

/-- Single-bit errors met by the walk of a new translation are corrected and counted (R332). -/
def State.noteWalk (s : State) (ag : Agent) (cx : Cx) (va : Nat) (l : List WalkEntry) : State :=
  let reads :=
    if (s.dieFind ag cx.asid va).isSome then []
    else match (s.tlb ag).table cx.asid va with
      | some e => walkReads va e.table e.level l
      | none => walkReads va cx.root 3 l
  reads.foldl (fun s a => s.correct a 8) s

/-- Translate, keeping the translation in the caches. -/
def State.resolve (s : State) (ag : Agent) (cx : Cx) (va : Nat) (acc : Acc) : Except AErr (Phys × State) :=
  match s.translate ag cx va acc with
  | .error x => .error x
  | .ok (p, e, l, new) => .ok (p, if new then (s.noteWalk ag cx va l).fill ag e l else s)

/-! ## Reads and writes by place -/

/-- A knot as its window shows it: value, error bit in bit 32 (R97). -/
def Knot.word (k : Knot) : Nat := k.val.toNat + ofBool k.err <<< 32

/-- A knot of a worker. -/
def Worker.knot (w : Worker) (k : Nat) : Knot := (tabFind w.knots k).getD ⟨0, false⟩

/-- Whether a knot satisfies a wait for a value (R34). -/
def Knot.reaches (x : Knot) (n : BitVec 32) : Bool := x.err || decide (n.toNat ≤ x.val.toNat)

/-- A wait after a knot has taken a value (R101). -/
def toldWait (k : Nat) (x : Knot) (o : Option Wait) : Option Wait :=
  match o with
  | some (.knot j n) => if j = k ∧ x.reaches n then some .met else o
  | _ => o

/-- A strand's wait after a knot has taken a value (R101). -/
def Strand.told (t : Strand) (k : Nat) (x : Knot) : Strand := { t with wait := toldWait k x t.wait }

/-- Put a knot of a worker; strands that wait for its value are told, S's waits under handlers too (R31, R101). -/
def Worker.setKnot (w : Worker) (k : Nat) (x : Knot) : Worker :=
  { w with
    knots := tabSet ⟨0, false⟩ w.knots k x
    strands := w.strands.map fun t => t.told k x
    stopWaits := w.stopWaits.map (toldWait k x) }

/-- Add to a knot, with an error mark or without (R34). -/
def Worker.addKnot (w : Worker) (k : Nat) (n : BitVec 32) (err : Bool) : Worker :=
  let x := w.knot k
  w.setKnot k ⟨x.val + n, x.err || err⟩

/-- An accumulator cell. -/
def Worker.cell (w : Worker) (i : Nat) : BitVec 256 := tabGet 0 w.cells i

/-- Put an accumulator cell. -/
def Worker.setCell (w : Worker) (i : Nat) (c : BitVec 256) : Worker := { w with cells := tabSet 0 w.cells i c }

/-- `n` bytes from `a` of a memory as a little-endian number. -/
def Memory.nat (m : Memory) (a : Nat) : Nat → Nat
  | 0 => 0
  | n + 1 => (m.read a).toNat + Memory.nat m (a + 1) n <<< 8

/-- Read `n` bytes at a place, little-endian. -/
def State.readPlace (s : State) (p : Place) (n : Nat) : Nat :=
  match p with
  | .spad key off => (s.worker key).spad.nat off n
  | .cell key i b => ((s.worker key).cell i).toNat >>> (8 * b) % 2 ^ (8 * n)
  | .knot key k => ((s.worker key).knot k).word
  | .phys p => s.physNat p.addr n

/-- A place in a core's SRAM: the worker, whether it is a cell, and the byte offset. -/
def Place.local? : Place → Option (Nat × Bool × Nat)
  | .spad key off => some (key, false, off)
  | .cell key i b => some (key, true, 32 * i + b)
  | _ => none

/-- Whether `n` bytes at a place touch a sector of a core's SRAM. -/
def LocalSector.hit (x : LocalSector) (p : Place) (n : Nat) : Bool :=
  match p.local? with
  | some (key, c, off) => x.key == key && x.cell == c && decide (x.off < off + n ∧ off < x.off + 16)
  | none => false

/-- The machine check a read meets, if any (R332). A sector of a core's SRAM is named by its byte offset (log 39). -/
def State.readCheck (s : State) (p : Place) (n : Nat) : Option AErr :=
  match p with
  | .phys p =>
    match sectorHit s.badSectors p.addr n with
    | some x => some (.machine (checkKind p.addr) (x % 2 ^ 52))
    | none => none
  | p => (s.badLocal.find? fun x => x.hit p n).map fun x => .machine 2 x.off

/-- A sector of a core's SRAM as a place of that core. -/
def State.sramOf (s : State) (x : LocalSector) : Nat × SramPlace :=
  ((s.worker x.key).core, if x.cell then .cells x.off else .spad x.off)

/-- Single-bit errors of some sectors of a core's SRAM are gone; those of `fixed` are counted as corrected (R332). -/
def State.mend (s : State) (gone fixed : LocalSector → Bool) : State :=
  { s with
    softLocal := s.softLocal.filter fun x => !gone x
    mended := s.mended ++ (s.softLocal.filter fixed).map s.sramOf }

/-- Single-bit errors that a read meets are corrected and counted (R332). -/
def State.noteRead (s : State) (p : Place) (n : Nat) : State :=
  match p with
  | .phys p => s.correct p.addr n
  | p => s.mend (fun x => x.hit p n) fun x => x.hit p n

/-- Write bytes at a place. A whole cell is written through its window only by cell adds. -/
def State.writePlace (s : State) (p : Place) (l : List (BitVec 8)) : State :=
  match p with
  | .spad key off => s.modWorker key fun w => { w with spad := w.spad.writeBytes off l }
  | .cell key i _ => s.modWorker key fun w => w.setCell i (BitVec.ofNat 256 (ofBytes l))
  | .knot _ _ => s
  | .phys p => s.putBytes p p.addr l

/-- Bytes of sector `x` that the writes cover. -/
def coverage (x : Nat) (ws : List (Place × List (BitVec 8))) : Nat :=
  ((upFrom x 16).filter fun a =>
    ws.any fun w =>
      match w.1 with
      | .phys p => decide (p.addr ≤ a ∧ a < p.addr + w.2.length)
      | _ => false).length

/-- Bytes of a sector of a core's SRAM that the writes cover. -/
def LocalSector.coverage (x : LocalSector) (ws : List (Place × List (BitVec 8))) : Nat :=
  ((upFrom x.off 16).filter fun a =>
    ws.any fun w =>
      match w.1.local? with
      | some (key, c, off) => x.key == key && x.cell == c && decide (off ≤ a ∧ a < off + w.2.length)
      | none => false).length

/-- Whether a write covers some of a sector's bytes and not all. -/
def partly (n : Nat) : Bool := decide (0 < n ∧ n < 16)

/-- The machine check of a group of writes: a partial write to a sector that holds an uncorrectable error (R332). -/
def State.writeCheck (s : State) (ws : List (Place × List (BitVec 8))) : Option AErr :=
  match s.badSectors.find? fun x => partly (coverage x ws) with
  | some x => some (.machine 5 (x % 2 ^ 52))
  | none => (s.badLocal.find? fun x => partly (x.coverage ws)).map fun x => .machine 5 x.off

/-- What a group of writes does to the sectors' error marks (R332): a full-sector write ends an error, and a single-bit error
of a sector written in part is corrected and counted. -/
def State.sweep (s : State) (ws : List (Place × List (BitVec 8))) : State :=
  { s.mend (fun x => x.coverage ws != 0) fun x => partly (x.coverage ws) with
    badSectors := s.badSectors.filter fun x => coverage x ws != 16
    badLocal := s.badLocal.filter fun x => x.coverage ws != 16
    softSectors := s.softSectors.filter fun x => coverage x ws == 0
    corrected := (s.softSectors.filter fun x => partly (coverage x ws)).foldl countError s.corrected }

/-- Perform a group of writes in order (R332). -/
def State.writeAll (s : State) (ws : List (Place × List (BitVec 8))) : State :=
  ws.foldl (fun s w => s.writePlace w.1 w.2) (s.sweep ws)

/-- Write every byte of the pool held dirty in a range to the pool (R277 to R279). -/
def State.flushPool (s : State) (lo hi : Nat) : State :=
  let sel := fun (e : Nat × BitVec 8) => decide (lo ≤ e.1 ∧ e.1 < hi)
  { s with
    mem := (s.poolDirty.filter sel).foldl (fun m e => Memory.write m e.1 e.2) s.mem
    poolDirty := s.poolDirty.filter fun e => !sel e }

/-- Write back every dirty pool byte: a fence, a release or an atomic at pool or system scope (R274, R277). -/
def State.flushAllPool (s : State) : State := s.flushPool 0 (2 ^ 52)

/-! ## The conflict detector -/

/-- One access against a sector state (R297): the new state, or none for a conflict. -/
def sectorNext (t : TaskId) (store : Bool) : Option Sector → Option Sector
  | none => some (if store then .write t else .read t)
  | some (.read u) => if store then (if u = t then some (.write t) else none) else some (if u = t then .read t else .readMany)
  | some .readMany => if store then none else some .readMany
  | some (.write u) => if u = t then some (.write t) else none

/-- The sectors of an access. -/
def sectorsOf (p : Place) (n : Nat) : List Nat :=
  match p with
  | .phys p => upFrom (p.addr / 16) ((p.addr + n - 1) / 16 - p.addr / 16 + 1)
  | _ => []

/-- An access against the detector: the launch after it, or none for a conflict (R297). Windows are not checked. -/
def Launch.detect (l : Launch) (t : TaskId) (store : Bool) (p : Place) (n : Nat) : Option Launch :=
  if l.det && !l.detOff then
    (sectorsOf p n).foldl
      (fun o x =>
        match o with
        | none => none
        | some l =>
          match sectorNext t store (tabFind l.sectors x) with
          | none => none
          | some y => some { l with sectors := tabPut l.sectors x y })
      (some l)
  else some l

/-! ## Fetch -/

/-- One parcel of text (R60, R306): a window address is refused; the walk behind a fetch is not kept (log 10). -/
def State.fetchParcel (s : State) (w : Worker) (va : PAddr) : Except AErr Parcel :=
  if inWindows va.toNat then .error (.fault 0x09)
  else
    match s.translate (.core w.core) (s.cxOf w) va.toNat .fetch with
    | .error x => .error x
    | .ok (p, _) =>
      match s.readCheck (.phys p) 2 with
      | some x => .error x
      | none => .ok (BitVec.ofNat 16 (s.physNat p.addr 2))

end Sys2Proof.Machine
end

