-- ==== Sys2Proof/Machine/Order.lean ====
section
/-! DEFINITION. The order of accesses (R259 to R278, log 45). Memory holds every write in coherence order, which is the order of
turns. Beside it stands a record of each write that some agent may still miss: what an agent sees is what is left when those it
misses are taken out. A release performs writes at a scope (R260, R266); an acquire makes its agent's later accesses see what is
performed at a scope that holds them both (R263, R265). -/
namespace Sys2Proof.Machine

/-! ## Cells as sums (R79, R80) -/

/-- V of a cell in two's complement bits. -/
def cellV (c : BitVec 256) : Nat := c.toNat % 2 ^ 240

/-- The five sticky flags, bit 0 upward: NAN, PINF, NINF, OVF, INEX. -/
def cellFlags (c : BitVec 256) : Nat := bits c.toNat 240 5

/-- A cell from V and flags; bits [255:245] are written as zero. -/
def cellOf (v flags : Nat) : BitVec 256 := BitVec.ofNat 256 (v % 2 ^ 240 + flags <<< 240)

/-- The sum of two cells, flags together (R80, R220). -/
def addCellPair (a b : BitVec 256) : BitVec 256 := cellOf (cellV a + cellV b) (cellFlags a ||| cellFlags b)

/-! ## Lines of 32 bytes -/

/-- The 32 bytes that hold a place, and its byte among them; none for a knot (R260). -/
def Place.line? : Place → Option (Spot × Nat × Nat)
  | .spad key off => some (.spad key, off / 32, off % 32)
  | .cell key i b => some (.cell key, i, b)
  | .knot _ _ => none
  | .phys p => some (.mem, p.addr / 32, p.addr % 32)

/-- The ordering kind of a place: the windows behave as RC (R262). -/
def Place.kind : Place → PageKind
  | .phys p => p.kind
  | _ => .rc

/-- A line's bytes as every write has left them. -/
def State.lineNow (s : State) (x : Spot) (l : Nat) : Nat :=
  match x with
  | .spad key => (s.worker key).spad.nat (32 * l) 32
  | .cell key => ((s.worker key).cell l).toNat
  | .mem => s.physNat (32 * l) 32

/-- The records of a line, newest first. -/
def State.lineLog (s : State) (x : Spot) (l : Nat) : List Write := s.writes.filter fun u => u.spot == x && u.line == l

/-- A line's bytes after an edit. -/
def Edit.run (v : Nat) : Edit → Nat
  | .put sh w x => v - bits v sh w <<< sh + (x % 2 ^ w) <<< sh
  | .add c => (addCellPair (BitVec.ofNat 256 v) c).toNat

/-- Whether an edit is a sum. -/
def Edit.isAdd : Edit → Bool
  | .add _ => true
  | .put _ _ _ => false

/-- Whether an edit touches bytes [b, b + n) of its line. -/
def Edit.meets (b n : Nat) : Edit → Bool
  | .put sh w _ => decide (sh < 8 * (b + n) ∧ 8 * b < sh + w)
  | .add _ => true

/-! ## What an agent sees (R260, R261, R267, R268) -/

/-- An agent as it reads: its core, its last acquires and, for an access to an SO page, its last access to one (R263). -/
structure Reader where
  who : Who
  core : Nat
  acq : Acquired
  so : Nat
  deriving DecidableEq, Repr

/-- The narrowest scope that holds two cores (R259). -/
def span (a b : Nat) : Nat := if a = b then 1 else if dieOf a = dieOf b then 2 else 3

/-- The last acquire of at least a scope. -/
def Acquired.atLeast (a : Acquired) (n : Nat) : Nat := if n ≤ 1 then a.core else if n = 2 then a.die else a.dev

/-- After an acquire of a scope in a step (R265); one at strand scope acquires nothing. -/
def Acquired.take (a : Acquired) (scope tick : Nat) : Acquired :=
  ⟨if 1 ≤ scope then tick + 1 else a.core, if 2 ≤ scope then tick + 1 else a.die, if 3 ≤ scope then tick + 1 else a.dev⟩

/-- Acquires no older than a step. -/
def Acquired.since (a : Acquired) (n : Nat) : Acquired := ⟨max n a.core, max n a.die, max n a.dev⟩

/-- Everything acquired in a step. -/
def Acquired.all (n : Nat) : Acquired := ⟨n, n, n⟩

/-- Whether a write was performed, at a scope that holds a core, before an acquire of the core's agent at a scope that holds the
releasing core (R265). -/
def Reach.orders (v : Reach) (core : Nat) (a : Acquired) : Bool :=
  decide (span v.core core ≤ v.scope ∧ v.time < a.atLeast (span v.core core))

/-- Whether a write is ordered before the accesses that follow an agent's acquires: performed at a scope of both, or seen by
some other agent before them, as SO and RC writes are multi-copy atomic (R265, R271). -/
def Write.before (u : Write) (core : Nat) (a : Acquired) : Bool :=
  u.done || u.reach.any (fun v => v.orders core a) || u.shown.any fun t => decide (t < a.core)

/-- Whether an agent is a strand: a command's accesses are not ordered among themselves (R268, R281). -/
def Who.isStrand (w : Who) : Bool :=
  match w.doer with
  | .strand _ => true
  | .command _ => false

/-- Whether a write is a strand's own: to itself a strand is sequential (R268). -/
def Who.owns (w : Who) (u : Write) : Bool := w.isStrand && u.who == some w

/-- Whether an agent cannot miss a write: it is its own (R268), it has seen it (R261), or it is ordered before the access. -/
def Reader.must (r : Reader) (u : Write) : Bool :=
  r.who.owns u || u.seenBy.contains r.who || u.before r.core (if u.kind = .so then r.acq.since r.so else r.acq)

/-- Whether an access of an agent in this step sees a write: one that it may miss is missed or not by the free choice of log
45. -/
def State.sees (s : State) (r : Reader) (u : Write) : Bool := r.must u || !Config.misses s.tick u.id

/-- The records that count for a reader, newest first: a sum is seen with every plain write before it (R261, R272). -/
def counted (sees : Write → Bool) : Bool → List Write → List Write
  | _, [] => []
  | sum, u :: r =>
    if sees u || (sum && !u.edit.isAdd) then u :: counted sees (sum || u.edit.isAdd) r else counted sees sum r

/-- A line as a reader sees it. -/
def State.lineSeen (s : State) (r : Reader) (x : Spot) (l : Nat) : Nat :=
  match (s.lineLog x l).getLast? with
  | none => s.lineNow x l
  | some u => (counted (s.sees r) false (s.lineLog x l)).foldr (fun u v => u.edit.run v) u.old

/-- What a reader finds in `n` bytes at a place; with no record of the line, what memory holds. -/
def State.look (s : State) (r : Reader) (p : Place) (n : Nat) : Nat :=
  match p.line? with
  | none => s.readPlace p n
  | some (x, l, b) => if (s.lineLog x l).isEmpty then s.readPlace p n else bits (s.lineSeen r x l) (8 * b) (8 * n)

/-- A write seen by another agent in a step: the agent never misses it again, and a write other than UN shows to all (R261,
R271). -/
def Write.seen (u : Write) (w : Who) (tick : Nat) : Write :=
  { u with
    seenBy := if u.seenBy.contains w then u.seenBy else w :: u.seenBy
    shown := if u.kind = .un ∨ u.who = some w then u.shown else some (u.shown.getD tick) }

/-- The numbers of the records of a line that an access has seen. -/
def seenIds (w : Who) (b n : Nat) (l : List Write) : List Nat :=
  (l.filter fun u => u.edit.meets b n && !w.owns u).map Write.id

/-- Mark records as seen. -/
def State.markSeen (s : State) (w : Who) (l : List Nat) : State :=
  if l.isEmpty then s else { s with writes := s.writes.map fun u => if l.contains u.id then u.seen w s.tick else u }

/-- After an agent has looked at `n` bytes. -/
def State.looked (s : State) (r : Reader) (p : Place) (n : Nat) : State :=
  match p.line? with
  | none => s
  | some (x, l, b) => s.markSeen r.who (seenIds r.who b n (counted (s.sees r) false (s.lineLog x l)))

/-- After an agent has read the newest of `n` bytes, as an atomic does (R261). -/
def State.lookedNewest (s : State) (w : Who) (p : Place) (n : Nat) : State :=
  match p.line? with
  | none => s
  | some (x, l, b) => s.markSeen w (seenIds w b n (s.lineLog x l))

/-! ## Agents -/

/-- The agent that a strand of a worker is. -/
def strandWho (key : Nat) (e : Eng) : Who := ⟨key, .strand e⟩

/-- The strand in turn as a reader of a place. -/
def State.reader (s : State) (p : Place) : Reader :=
  ⟨strandWho s.curKey s.curEng, s.wk.core, s.st.acq, if p.kind = .so then s.st.soLast else 0⟩

/-- A strand of a worker as a reader of global memory. -/
def Worker.readerOf (w : Worker) (key : Nat) (e : Eng) : Reader := ⟨strandWho key e, w.core, (w.strands.get e).acq, 0⟩

/-- A command of a worker as a reader: what its issue, or a later acquire, has ordered before it (R281). It counts as an agent
of its worker's core. -/
def State.commandReader (s : State) (key born acq : Nat) : Reader := ⟨⟨key, .command born⟩, (s.worker key).core, .all acq, 0⟩

/-- The strand in turn has made an access: to an SO page, it is performed before its next one (R263). -/
def State.accessed (s : State) (p : Place) : State :=
  if p.kind = .so then s.modSt fun t => { t with soLast := s.tick + 1 } else s

/-- What the strand in turn loads from a place. -/
def State.loads (s : State) (p : Place) (n : Nat) : Nat := s.look (s.reader p) p n

/-- After the strand in turn has loaded from a place. -/
def State.loaded (s : State) (p : Place) (n : Nat) : State := (s.looked (s.reader p) p n).accessed p

/-! ## Records of writes -/

/-- The number of the next write. -/
def State.nextWrite (s : State) : Nat :=
  match s.writes with
  | u :: _ => u.id + 1
  | [] => 0

/-- Who makes a write, how far it is performed at once, and whether every agent sees it. -/
structure Author where
  who : Option Who
  pos : Nat
  reach : List Reach
  done : Bool
  deriving DecidableEq, Repr

/-- Record an edit of a line under a number, as memory stands before it. -/
def State.recordAs (s : State) (n : Nat) (a : Author) (kind : PageKind) (x : Spot) (l : Nat) (e : Edit) : State :=
  { s with writes := ⟨n, x, l, s.lineNow x l, e, a.who, a.pos, kind, a.reach, none, [], a.done⟩ :: s.writes }

/-- Record an edit of a line as a write of its own. -/
def State.record (s : State) (a : Author) (kind : PageKind) (x : Spot) (l : Nat) (e : Edit) : State :=
  s.recordAs s.nextWrite a kind x l e

/-- Record an edit at a place. A write to an SO page is performed at system scope in its own step (R263). -/
def State.recordAt (s : State) (a : Author) (p : Place) (e : Nat → Edit) : State :=
  match p.line? with
  | none => s
  | some (x, l, b) =>
    let a := if p.kind = .so then { a with reach := ⟨s.tick, 5, (s.worker ((a.who.map Who.key).getD 0)).core⟩ :: a.reach } else a
    s.record a p.kind x l (e b)

/-- A write of whole bytes at a byte of a line. -/
def putBytesEdit (l : List (BitVec 8)) (b : Nat) : Edit := .put (8 * b) (8 * l.length) (ofBytes l)

/-- A sum at a cell. -/
def addEdit (c : BitVec 256) (_ : Nat) : Edit := .add c

/-- The strand in turn as an author. -/
def State.strandAuthor (s : State) : Author := ⟨some (strandWho s.curKey s.curEng), s.st.pos, [], false⟩

/-- A command as an author. -/
def commandAuthor (key born : Nat) : Author := ⟨some ⟨key, .command born⟩, 0, [], false⟩

/-- Record a group of writes of bytes. -/
def State.noteWrites (s : State) (a : Author) (ws : List (Place × List (BitVec 8))) : State :=
  ws.foldl (fun s w => s.recordAt a w.1 (putBytesEdit w.2)) s

/-- Bytes of one line out of a longer write: the line, the byte and the bytes. -/
def lineParts (a : Nat) (l : List (BitVec 8)) : List (Nat × Nat × List (BitVec 8)) :=
  (upFrom (a / 32) ((a + l.length - 1) / 32 - a / 32 + 1)).map fun k =>
    let lo := max a (32 * k)
    (k, lo - 32 * k, (l.drop (lo - a)).take (32 * k + 32 - lo))

/-- A write of the device itself, or from outside, that every agent sees at once: recorded where older records of its lines
stand. -/
def State.noteDone (s : State) (x : Spot) (a : Nat) (l : List (BitVec 8)) : State :=
  if s.writes.isEmpty || l.isEmpty then s
  else
    (lineParts a l).foldl (fun s p =>
      if (s.lineLog x p.1).isEmpty then s else s.record ⟨none, 0, [], true⟩ .rc x p.1 (putBytesEdit p.2.2 p.2.1)) s

/-- The same at a place. -/
def State.noteDoneAt (s : State) (p : Place) (l : List (BitVec 8)) : State :=
  match p.line? with
  | none => s
  | some (x, k, b) => s.noteDone x (32 * k + b) l

/-- Perform a group of writes that every agent sees at once. -/
def State.writeDone (s : State) (ws : List (Place × List (BitVec 8))) : State :=
  (ws.foldl (fun s w => s.noteDoneAt w.1 w.2) s).writeAll ws

/-- Plain device memory at a physical address. -/
def plain (a : Nat) : Phys := ⟨a, false, true, .rc⟩

/-- The device writes bytes into its memory at a physical address. -/
def State.putPhys (s : State) (a : Nat) (l : List (BitVec 8)) : State := (s.noteDone .mem a l).putBytes (plain a) a l

/-! ## The strand in turn and its core's cells (R269, R272) -/

/-- Record edits of cells by the strand in turn, each a write of its own: cell adds, which are atomic one by one (R81). -/
def State.noteCells (s : State) (l : List (Nat × Edit)) : State :=
  l.foldl (fun s e => s.record s.strandAuthor .rc (.cell s.curKey) e.1 e.2) s

/-- Record edits of cells by the strand in turn as one indivisible event (R212, R224). -/
def State.noteEvent (s : State) (l : List (Nat × Edit)) : State :=
  l.foldl (fun t e => t.recordAs s.nextWrite s.strandAuthor .rc (.cell s.curKey) e.1 e.2) s

/-- A cell as the strand in turn sees it. -/
def State.seenCell (s : State) (i : Nat) : BitVec 256 := BitVec.ofNat 256 (s.loads (.cell s.curKey i 0) 32)

/-- After the strand in turn has loaded cells. -/
def State.loadedCells (s : State) (l : List Nat) : State :=
  let r := s.reader (.cell s.curKey 0 0)
  s.markSeen r.who (l.flatMap fun i => seenIds r.who 0 32 (counted (s.sees r) false (s.lineLog (.cell s.curKey) i)))

/-- After the strand in turn has read the newest of cells that it changes. -/
def State.readCells (s : State) (l : List Nat) : State :=
  let w := strandWho s.curKey s.curEng
  s.markSeen w (l.flatMap fun i => seenIds w 0 32 (s.lineLog (.cell s.curKey) i))

/-- Whether a sector lies in one of some cells of a worker. -/
def LocalSector.among (x : LocalSector) (key : Nat) (l : List Nat) : Bool := x.key == key && x.cell && l.contains (x.off / 32)

/-- The sector with an uncorrectable error that an access of the strand in turn to cells meets, if any (R332). -/
def State.cellCheck (s : State) (l : List Nat) : Option Nat := (s.badLocal.find? fun x => x.among s.curKey l).map LocalSector.off

/-- Single-bit errors in cells that the strand in turn reads are corrected and counted (R332). -/
def State.mendCells (s : State) (l : List Nat) : State := s.mend (fun x => x.among s.curKey l) fun x => x.among s.curKey l

/-- Cells of the strand in turn are written whole: their error marks are gone (R332). -/
def State.wipeCells (s : State) (l : List Nat) : State :=
  { s.mend (fun x => x.among s.curKey l) fun _ => false with badLocal := s.badLocal.filter fun x => !x.among s.curKey l }

/-! ## Releases and acquires (R263 to R266, R276) -/

/-- Whether a line lies in a peer's memory (R276). -/
def Write.atPeer (u : Write) : Bool := u.spot == .mem && decide (2 ^ 52 ≤ 32 * u.line)

/-- A write performed at a scope, unless it is already performed as far from the same core. -/
def Write.perform (u : Write) (v : Reach) : Write :=
  if u.reach.any fun x => x.core == v.core && decide (v.scope ≤ x.scope) then u else { u with reach := v :: u.reach }

/-- Whether a release of an agent may carry a write: UN writes only where it orders them (R263, R266), a peer's only at system
scope (R276). -/
def Write.carriedBy (u : Write) (scope : Nat) (un : Bool) : Bool := (un || u.kind != .un) && (scope == 5 || !u.atPeer)

/-- Strand `e` of a worker releases at a scope what it wrote up to a text position and what is ordered before it (R265, R266);
at strand scope nothing. -/
def State.releaseTo (s : State) (key : Nat) (e : Eng) (pos scope : Nat) (un : Bool) : State :=
  let w := s.worker key
  let a := (w.strands.get e).acq
  if scope = 0 then s
  else
    { s with
      writes := s.writes.map fun u =>
        if u.carriedBy scope un && ((u.who == some (strandWho key e) && decide (u.pos ≤ pos)) || u.before w.core a) then
          u.perform ⟨s.tick, scope, w.core⟩
        else u }

/-- The strand in turn releases at a scope, UN writes too if told; at pool or system scope dirty pool bytes are written back
(R266, R274, R277). -/
def State.releaseAs (s : State) (scope : Nat) (un : Bool) : State :=
  let s := s.releaseTo s.curKey s.curEng s.st.pos scope un
  if 4 ≤ scope then s.flushAllPool else s

/-- The releases of R265 other than `fence.rel.un` and `fence.full`. -/
def State.release (s : State) (scope : Nat) : State := s.releaseAs scope false

/-- The strand in turn acquires at a scope. -/
def State.acquire (s : State) (scope : Nat) : State := s.modSt fun t => { t with acq := t.acq.take scope s.tick }

/-- Every write that a predicate picks is performed at a scope, seen from a core (R260). -/
def State.performAll (s : State) (pick : Write → Bool) (scope core : Nat) : State :=
  { s with writes := s.writes.map fun u => if pick u then u.perform ⟨s.tick, scope, core⟩ else u }

/-- Whether a write is a worker's: its strands' or its commands'. -/
def Write.ofWorker (u : Write) (key : Nat) : Bool :=
  match u.who with
  | some w => w.key == key
  | none => false

/-- Everything that a worker has written is performed at a scope: a trap, its completion, a save (R17, R273, R313). -/
def State.performWorker (s : State) (key scope : Nat) : State := s.performAll (·.ofWorker key) scope (s.worker key).core

/-- The end of a command: its writes are performed at its scope, its UN writes too (R233, R263, R281). -/
def State.performCommand (s : State) (key born scope : Nat) : State :=
  s.performAll (·.who == some ⟨key, .command born⟩) scope (s.worker key).core

end Sys2Proof.Machine
end

