-- ==== Sys2Proof/Machine/Furrow.lean ====
section
/-! DEFINITION. Furrows: fields, writes, captures, legality, element addresses, scale addresses and the advance
(R150 to R158, R241, R243). -/
namespace Sys2Proof.Machine

/-- FMT of a furrow. -/
def Furrow.format (f : Furrow) : Nat := bits f.fmt.toNat 0 5

/-- Block length in elements: 16, 32 or 64 (LB 11 is refused at use). -/
def Furrow.blockLen (f : Furrow) : Nat := 16 <<< bits f.fmt.toNat 5 2

/-- Block axis. -/
def Furrow.bax (f : Furrow) : Nat := bits f.fmt.toNat 7 2

/-- ANCHOR. -/
def Furrow.anchor (f : Furrow) : Int := signed 12 (f.fmt.toNat >>> 16)

/-- Whether an anchor lies in its range (R150, R185). -/
def anchorOk (a : Int) : Bool := decide (-1100 ≤ a) && decide (a ≤ 1000)

/-- Extent of dimension `k`. -/
def Furrow.extent (f : Furrow) (k : Nat) : Nat := (f.ext.get k).toNat

/-- Stride of dimension `k`, 48 bits signed. -/
def Furrow.stride (f : Furrow) (k : Nat) : Int := signed 48 (f.st.get k).toNat

/-- Whether the indirect dimension is enabled. -/
def Furrow.indirect (f : Furrow) : Bool := f.ind.getLsbD 3

/-- The indirect dimension. -/
def Furrow.indDim (f : Furrow) : Nat := bits f.ind.toNat 0 2

/-- Bytes of a table entry: 4 or 8. -/
def Furrow.entrySize (f : Furrow) : Nat := if f.ind.getLsbD 2 then 8 else 4

/-- Table offset. -/
def Furrow.table (f : Furrow) : Nat := bits f.itab.toNat 0 19

/-- Elements of the frame. -/
def Furrow.frame (f : Furrow) : Nat := f.extent 0 * f.extent 1 * f.extent 2 * f.extent 3

/-- Linear index of coordinates in given extents (R155). -/
def linearIn (e c : Quad Nat) : Nat := c.c0 + e.c0 * (c.c1 + e.c1 * (c.c2 + e.c2 * c.c3))

/-- The extents as numbers. -/
def Furrow.extents (f : Furrow) : Quad Nat := f.ext.map BitVec.toNat

/-- Coordinates of a linear index (R41, R164). -/
def Furrow.coords (f : Furrow) (i : Nat) : Quad Nat :=
  let e := f.extents
  ⟨i % e.c0, i / e.c0 % e.c1, i / (e.c0 * e.c1) % e.c2, i / (e.c0 * e.c1 * e.c2)⟩

/-- POS as it reads (R155). -/
def Furrow.posLinear (f : Furrow) : Nat := if f.atEnd then f.frame else linearIn f.extents f.pos

/-! ## Captures -/

/-- Capture entry `j` as it stands in the scratchpad (R157); nothing at or above the extent. -/
def Furrow.capture (f : Furrow) (spad : Memory) (j : Nat) : Furrow :=
  if f.extent f.indDim ≤ j then f
  else
    let a := f.table + f.entrySize * j
    let c : Capture :=
      if a + f.entrySize ≤ Config.spadBytes then .value (BitVec.ofNat 64 (spad.nat a f.entrySize)) else .absent
    { f with capt := tabPut f.capt j c }

/-- Recapture for the position held (R157). -/
def Furrow.recapture (f : Furrow) (spad : Memory) : Furrow :=
  let f0 := { f with capt := [] }
  if f.indirect && !f.atEnd then
    let p := f.pos.get f.indDim
    ((f0.capture spad p).capture spad (p + 1)).capture spad (p + 2)
  else f0

/-- Position 0, with a recapture (R157). -/
def Furrow.restart (f : Furrow) (spad : Memory) : Furrow := { f with pos := .all 0, atEnd := false }.recapture spad

/-- The furrow as an image instruction starts on it: END acts as position 0 (R155, R157). -/
def Furrow.begin (f : Furrow) (spad : Memory) : Furrow := if f.atEnd then f.restart spad else f

/-! ## Writes -/

/-- No layout bound. -/
def Furrow.raw (f : Furrow) : Furrow := { f with layout := 0xFFFF, bound := none }

/-- Bind a layout record (R158, R241): `rec` holds its eight words, or is empty where there is none. -/
def Furrow.bind (f : Furrow) (h : BitVec 16) (r : List Word) : Furrow :=
  let w := fun i => (nth 0 r i).toNat
  if r.length = 8 ∧ bit (w 2) 31 ∧ h ≠ 0xFFFF then
    let st3 := bits (w 4) 48 16 + bits (w 5) 48 16 <<< 16 + bits (w 6) 48 16 <<< 32
    let sx := fun n => BitVec.ofInt 64 (signed 48 n)
    { f with
      base := BitVec.ofNat 64 (bits (w 0) 0 57)
      fmt := BitVec.ofNat 64 (bits (w 2) 0 28)
      ext := ⟨BitVec.ofNat 16 (w 3), BitVec.ofNat 16 (w 3 >>> 16), BitVec.ofNat 16 (w 3 >>> 32), BitVec.ofNat 16 (w 3 >>> 48)⟩
      st := ⟨sx (w 4), sx (w 5), sx (w 6), sx st3⟩
      sbase := BitVec.ofNat 64 (bits (w 0) 0 57 + bits (w 7) 0 40)
      sstride := BitVec.ofInt 64 (signed 24 (w 7 >>> 40))
      layout := h
      bound := some ⟨BitVec.ofNat 32 (w 2 >>> 32), BitVec.ofNat 64 (bits (w 0) 0 57), BitVec.ofNat 48 (w 1)⟩ }
  else { f with layout := h, bound := none }

/-- A write of `sfset` (R151), as one strand's copy takes it. -/
def Furrow.write (f : Furrow) (field : Nat) (v : Word) (r : List Word) (spad : Memory) : Furrow :=
  let home := fun (f : Furrow) => { f with pos := .all 0, atEnd := false }
  let dim := fun (k : Nat) =>
    { home f.raw with
      ext := f.ext.set k (v.extractLsb' 0 16)
      st := f.st.set k (BitVec.ofInt 64 (signed 16 (v.toNat >>> 16))) }.recapture spad
  match field with
  | 0 => { home f.raw with base := v }.recapture spad
  | 1 => { f.raw with fmt := v }
  | 2 => dim 0
  | 3 => dim 1
  | 4 => dim 2
  | 5 => dim 3
  | 6 => { f.raw with st := f.st.set 0 v }
  | 7 => { f.raw with st := f.st.set 1 v }
  | 8 => { f.raw with st := f.st.set 2 v }
  | 9 => { f.raw with st := f.st.set 3 v }
  | 10 =>
    let p := fun i => bits v.toNat (16 * i) 16
    { f with pos := ⟨p 0, p 1, p 2, p 3⟩, atEnd := false }.recapture spad
  | 11 => { f.raw with sbase := v }
  | 12 => { f.raw with sstride := v }
  | 13 => { f with ind := v }.recapture spad
  | 14 => { f with itab := v }.recapture spad
  | 15 => (home (f.bind (v.extractLsb' 0 16) r)).recapture spad
  | 16 => .reset
  | _ => f

/-! ## Legality, addresses, advance -/

/-- The checks of R152 under an effective format. -/
def Furrow.fieldsOk (f : Furrow) (eff : Nat) : Bool :=
  let v := f.fmt.toNat
  let strideOk := fun (k : Nat) => (f.st.get k).toInt == f.stride k
  f.extent 0 != 0 && f.extent 1 != 0 && f.extent 2 != 0 && f.extent 3 != 0 &&
    bits v 9 7 == 0 && v >>> 28 == 0 && strideOk 0 && strideOk 1 && strideOk 2 && strideOk 3 &&
    f.ind.toNat >>> 4 == 0 && f.itab.toNat >>> 19 == 0 && bits v 5 2 != 3 &&
    ((f.format != 21 && eff != 21) || anchorOk f.anchor) && !(f.indirect && f.indDim == 0) &&
    f.table % f.entrySize == 0 && decide (f.format < 23) && decide (eff < 23)

/-- The checks of R152, and of R154 for packed formats, under an effective format. -/
def Furrow.legal (f : Furrow) (eff : Nat) : Bool := f.fieldsOk eff && (decide (8 ≤ fmtWidth eff) || f.stride 0 == 0)

/-- The effective format of an instruction's FMT field (R160). -/
def Furrow.effective (f : Furrow) (fmt : Nat) : Nat := if fmt = 31 then f.format else fmt

/-- The indirect term of R157 from an entry's value. -/
def Furrow.indTerm (f : Furrow) (v : Nat) : Int :=
  if f.entrySize = 8 then signed 64 v else signed 32 v * f.stride f.indDim

/-- Address of table entry `j` in the own-scratchpad window. -/
def Furrow.entryAddr (f : Furrow) (j : Nat) : Nat := 0x1F0 <<< 48 + f.table + f.entrySize * j

/-- Byte address of element `c` (R154) with a given indirect term, and its bit within that byte for packed formats. -/
def Furrow.addr (f : Furrow) (eff : Nat) (c : Quad Nat) (term : Int) : Nat × Nat :=
  let part := fun k => if f.indirect && k == f.indDim then term else f.stride k * (c.get k : Int)
  let w := fmtWidth eff
  let first : Int := if w < 8 then ((w * c.c0 / 8 : Nat) : Int) else part 0
  (wrap 64 ((f.base.toNat : Int) + first + part 1 + part 2 + part 3), if w < 8 then w * c.c0 % 8 else 0)

/-- The indirect term of element `c` from the captures: `none` for an absent entry, and for one that no capture has met
(log 51); 0 where nothing is indirect. -/
def Furrow.term (f : Furrow) (c : Quad Nat) : Option Int :=
  if f.indirect then
    match tabFind f.capt (c.get f.indDim) with
    | some (.value v) => some (f.indTerm v.toNat)
    | _ => none
  else some 0

/-- Linear block index of element `c` (R156). -/
def Furrow.blockIndex (f : Furrow) (c : Quad Nat) : Nat :=
  let n := f.blockLen
  linearIn (f.extents.set f.bax (ceilDiv (f.extent f.bax) n)) (c.set f.bax (c.get f.bax / n))

/-- Address of the scale byte of the block that holds element `c` (R156). -/
def Furrow.scaleAddr (f : Furrow) (c : Quad Nat) : Nat :=
  wrap 64 ((f.sbase.toNat : Int) + f.sstride.toInt * (f.blockIndex c : Int))

/-- Whether coordinates lie in the frame (R155). -/
def Furrow.inFrame (f : Furrow) (c : Quad Nat) : Bool :=
  decide (c.c0 < f.extent 0) && decide (c.c1 < f.extent 1) && decide (c.c2 < f.extent 2) && decide (c.c3 < f.extent 3)

/-- One carry of the advance (R155). -/
def carry (e g p : Quad Nat) (j : Nat) : Quad Nat :=
  if e.get j ≤ p.get j then (p.set j 0).set (j + 1) (p.get (j + 1) + g.get (j + 1)) else p

/-- One advance by an image of sizes `g` within an instruction (R155), with its capture (R157); END stays END (log 31). Earlier
captures stay, those of a position that has wrapped to 0 among them (log 51). -/
def Furrow.step (f : Furrow) (g : Quad Nat) (spad : Memory) : Furrow :=
  if f.atEnd then f
  else
    let e := f.extents
    let p := carry e g (carry e g (carry e g { f.pos with c0 := f.pos.c0 + g.c0 } 0) 1) 2
    if e.c3 ≤ p.c3 then { f with pos := .all 0, atEnd := true }
    else
      let k := f.indDim
      let f' := { f with pos := p }
      if f.indirect && f.pos.get k != p.get k then f'.capture spad (p.get k + 2) else f'

/-- Repeated steps. -/
def Furrow.steps (f : Furrow) (g : Quad Nat) (spad : Memory) : Nat → Furrow
  | 0 => f
  | n + 1 => Furrow.steps (f.step g spad) g spad n

/-- The advance of an image instruction: one that starts at END acts as if at position 0 (R155). -/
def Furrow.advance (f : Furrow) (g : Quad Nat) (spad : Memory) : Furrow := (f.begin spad).step g spad

/-- The advance of `ladv` (R166): no times leaves the copy as it is, at END too (log 31). -/
def Furrow.advanceBy (f : Furrow) (g : Quad Nat) (spad : Memory) (n : Nat) : Furrow :=
  if n = 0 then f else (f.begin spad).steps g spad n

end Sys2Proof.Machine
end

