-- ==== Sys2Proof/Machine/Ops.lean ====
section
/-! DEFINITION. The named operations over registers, queues, tokens, configuration and time: reads and writes of every
register file, landing (R25 to R28, R36, R45), boundaries and rotation (R20, R29), text-ordered configuration (R22), taking an
exception and returning from it (R313, R317), aborting a launch (R313, R316, R339), and how an instruction of a strand runs
(R23, R30, R59). -/
namespace Sys2Proof.Machine

/-! ## Register files -/

/-- Read a scalar register: s0 reads zero (R35). -/
def Worker.sget (w : Worker) (r : Nat) : Word := if r = 0 then 0 else tabGet 0 w.sregs r

/-- Write a scalar register: a write to s0 is discarded (R35, R86). -/
def Worker.sset (w : Worker) (r : Nat) (v : Word) : Worker :=
  if r = 0 then w else { w with sregs := tabSet 0 w.sregs r v }

/-- Read a physical vector register. -/
def Worker.vget (w : Worker) (p : Nat) : VReg := tabGet .zero w.vregs p

/-- Write a physical vector register. -/
def Worker.vset (w : Worker) (p : Nat) (x : VReg) : Worker := { w with vregs := tabSet .zero w.vregs p x }

/-- Read a mask register. -/
def Worker.mget (w : Worker) (m : Nat) : BitVec 65536 := tabGet 0 w.masks m

/-- Write a mask register. -/
def Worker.mset (w : Worker) (m : Nat) (x : BitVec 65536) : Worker := { w with masks := tabSet 0 w.masks m x }

/-- Physical register behind a name under a rotating base (R29). -/
def physReg (rrb n : Nat) : Nat := if n < 64 then n else 64 + (n - 64 + 64 - rrb) % 64

/-- A predicate as a strand sees it; p15 reads true (R35). -/
def View.pred (v : View) (p : Nat) : Bool := p == 15 || v.preds.getLsbD p

/-- Set a predicate; a write to p15 is discarded (R35, R86). -/
def View.setPred (v : View) (p : Nat) (b : Bool) : View :=
  if p = 15 then v
  else { v with preds := if b then v.preds ||| BitVec.twoPow 16 p else v.preds &&& ~~~BitVec.twoPow 16 p }

/-- Whether a guard lets an instruction execute (R30). -/
def View.guard (v : View) (g : Guard) : Bool := v.pred g.gp.toNat != g.gn

/-- A furrow copy of a view. -/
def View.furrow (v : View) (n : Nat) : Furrow := tabGet .reset v.furrows n

/-- Put a furrow copy. -/
def View.setFurrow (v : View) (n : Nat) (f : Furrow) : View := { v with furrows := tabSet .reset v.furrows n f }

/-- A tile descriptor of a view. -/
def View.tile (v : View) (n : Nat) : Tile := tabGet .reset v.tiles n

/-- A sheaf descriptor of a view. -/
def View.sheaf (v : View) (n : Nat) : Sheaf := tabGet .reset v.sheaves n

/-- Tile counters. -/
def Worker.tileCounts (w : Worker) (z : Nat) : Counts := tabGet .zero w.counters z

/-- Put tile counters. -/
def Worker.setCounts (w : Worker) (z : Nat) (c : Counts) : Worker := { w with counters := tabSet .zero w.counters z c }

/-- Add with saturation at 2^32 − 1 (R78, R83). -/
def satAdd (a b : BitVec 32) : BitVec 32 := if a.toNat + b.toNat < 2 ^ 32 then a + b else 0xFFFFFFFF

/-- Add counter updates (R83). -/
def Counts.add (a b : Counts) : Counts :=
  ⟨satAdd a.nanc b.nanc, satAdd a.infc b.infc, satAdd a.ovfc b.ovfc, satAdd a.satc b.satc, satAdd a.inxc b.inxc⟩

/-- Count saturated blocks (R78). -/
def Worker.addQsat (w : Worker) (n : Nat) : Worker := { w with qsat := satAdd w.qsat (BitVec.ofNat 32 (min n (2 ^ 32 - 1))) }

/-- A codebook bank. -/
def Worker.bank (w : Worker) (b : Nat) : Bank := tabGet .reset w.banks b

/-- Put a codebook bank. -/
def Worker.setBank (w : Worker) (b : Nat) (x : Bank) : Worker := { w with banks := tabSet .reset w.banks b x }

/-! ## Operand and token queues -/

/-- Entries of an image queue. -/
def Worker.image (w : Worker) (q : Nat) : List ImgEntry := tabGet [] w.images q

/-- Put the entries of an image queue. -/
def Worker.setImage (w : Worker) (q : Nat) (l : List ImgEntry) : Worker := { w with images := tabSet [] w.images q l }

/-- Bytes of an entry in the queue store: a multiple of 1 KiB (R32). -/
def ImgEntry.size (e : ImgEntry) : Nat := ceilDiv (e.count * e.width) 8192 * 1024

/-- Bytes in use in the shared part of the queue store: every entry behind a queue's first (R32). -/
def Worker.sharedUsed (w : Worker) : Nat :=
  (w.images.map fun e => ((e.2.drop 1).map ImgEntry.size).sum).sum

/-- Room to push an image entry (R32). -/
def Worker.imageRoom (w : Worker) (q : Nat) (e : ImgEntry) : Bool :=
  decide ((w.image q).length < Config.imageCap) &&
    ((w.image q).isEmpty || decide (w.sharedUsed + e.size ≤ Config.sharedStore))

/-- Code of a token queue as a key. -/
def TokQ.code : TokQ → Nat
  | .SL => 0
  | .WL => 1
  | .LV => 2
  | .LM => 3
  | .VM => 4
  | .MV => 5
  | .VW => 6
  | .MW => 7
  | .WS => 8

/-- Tokens in a queue. -/
def Worker.tokensIn (w : Worker) (q : TokQ) : Nat := tabGet 0 w.tokens q.code

/-- Put the tokens of a queue. -/
def Worker.setTokens (w : Worker) (q : TokQ) (n : Nat) : Worker := { w with tokens := tabSet 0 w.tokens q.code n }

/-- Inbound token queues 0 and 1 of an engine (R23). -/
def tokIn : Eng → TokQ × TokQ
  | .L => (.WL, .SL)
  | .V => (.LV, .MV)
  | .M => (.LM, .VM)
  | _ => (.VW, .MW)

/-- Outbound token queues 0 and 1 of an engine (R23). -/
def tokOut : Eng → TokQ × TokQ
  | .L => (.LV, .LM)
  | .V => (.VM, .VW)
  | .M => (.MV, .MW)
  | _ => (.WL, .WS)

/-- The queues that a TK field pops (R23). -/
def tokPops (e : Eng) (tk : BitVec 4) : List TokQ :=
  (if tk.getLsbD 3 then [(tokIn e).1] else []) ++ (if tk.getLsbD 2 then [(tokIn e).2] else [])

/-- The queues that a TK field pushes (R23). -/
def tokPushes (e : Eng) (tk : BitVec 4) : List TokQ :=
  (if tk.getLsbD 1 then [(tokOut e).1] else []) ++ (if tk.getLsbD 0 then [(tokOut e).2] else [])

/-! ## Companions (R45) -/

/-- A map after a write to physical register(s) `ns`: LOST if it names one as companion. -/
def CMap.kill (ns : List Nat) (m : CMap) : CMap :=
  match m with
  | .explicit _ c _ => if ns.contains c then .lost else m
  | _ => m

/-- A register after that. -/
def VReg.kill (ns : List Nat) (x : VReg) : VReg := { x with map := x.map.kill ns }

/-- A queue entry after that. -/
def ImgEntry.kill (ns : List Nat) (x : ImgEntry) : ImgEntry := { x with map := x.map.kill ns }

/-- A pending act after that. -/
def Landing.kill (ns : List Nat) : Landing → Landing
  | .vregs l => .vregs (l.map fun e => (e.1, e.2.kill ns))
  | .image q e => .image q (e.kill ns)
  | .fetched q e l => .fetched q (e.kill ns) l
  | a => a

/-- Vector registers that an act will write. -/
def Landing.vdests : Landing → List Nat
  | .vregs l => l.map Prod.fst
  | _ => []

/-- A pending entry after that: a map is safe from a write to a companion that its own landing writes (R45, R139). -/
def Pend.kill (ns : List Nat) (p : Pend) : Pend :=
  { p with acts := p.acts.map (Landing.kill (ns.filter fun n => !(p.acts.flatMap Landing.vdests).contains n)) }

/-- Every map of a worker that names one of the registers becomes LOST: registers, queue entries, pending results. -/
def Worker.killMaps (ns : List Nat) (w : Worker) : Worker :=
  { w with
    vregs := w.vregs.map fun e => (e.1, e.2.kill ns)
    images := w.images.map fun e => (e.1, e.2.map (ImgEntry.kill ns))
    strands := w.strands.map fun t => { t with pend := t.pend.map (Pend.kill ns) } }

/-- Vector registers written by one landing (R36, R45, R139): other maps lose these companions, the new ones keep theirs. -/
def Worker.landVregs (w : Worker) (l : List (Nat × VReg)) : Worker :=
  l.foldl (fun w e => w.vset e.1 e.2) (w.killMaps (l.map Prod.fst))

/-! ## Landing (R25 to R28) -/

/-- Whether a pending act is a queue push. -/
def Landing.isPush : Landing → Bool
  | .image _ _ => true
  | .fetched _ _ _ => true
  | .words _ => true
  | _ => false

/-- Whether a pending act is a token. -/
def Landing.isToken : Landing → Bool
  | .token _ => true
  | _ => false

/-- Destinations an act writes, as keys: scalars, vector registers, masks. -/
def Landing.dests : Landing → List (Nat × Nat)
  | .sreg r _ => [(0, r)]
  | .vregs l => l.map fun e => (1, e.1)
  | .mask m _ => [(2, m)]
  | _ => []

/-- An act with the writes to given destinations taken out (R26). -/
def Landing.without (ds : List (Nat × Nat)) : Landing → Landing
  | .sreg r v => if ds.contains (0, r) then .vregs [] else .sreg r v
  | .vregs l => .vregs (l.filter fun e => !ds.contains (1, e.1))
  | .mask m v => if ds.contains (2, m) then .vregs [] else .mask m v
  | a => a

/-- A pending entry likewise. -/
def Pend.without (ds : List (Nat × Nat)) (p : Pend) : Pend := { p with acts := p.acts.map (Landing.without ds) }

/-- The queue an act pushes, q15 as 15. -/
def Landing.queue? : Landing → Option Nat
  | .image q _ => some q
  | .fetched q _ _ => some q
  | .words _ => some 15
  | _ => none

/-- Room for a push (R32). -/
def Worker.pushRoom (w : Worker) : Landing → Bool
  | .image q e => w.imageRoom q e
  | .fetched q e _ => w.imageRoom q e
  | .words l => decide (w.q15.length + l.length ≤ Config.wordCap)
  | _ => true

/-- Do an act: registers, masks, knots, counters, and pushes that have room (R25, R32, R36, R78, R83, R100). -/
def Worker.landAct (w : Worker) : Landing → Worker
  | .sreg r v => w.sset r v
  | .vregs l => w.landVregs l
  | .mask m v => w.mset m v
  | .knotAdd k n => w.addKnot k n false
  | .counts z c => w.setCounts z ((w.tileCounts z).add c)
  | .qsat n => w.addQsat n
  | .image q e => w.setImage q (w.image q ++ [e])
  | .fetched q e _ => w.setImage q (w.image q ++ [e])
  | .words l => { w with q15 := w.q15 ++ l }
  | .token _ => w

/-- Room for the pushes of a list of acts, one after another (R32). -/
def Worker.roomFor (w : Worker) : List Landing → Bool
  | [] => true
  | a :: r => if a.isPush then w.pushRoom a && (w.landAct a).roomFor r else w.roomFor r

/-- What an entry does at its landing; its tokens follow (R23). -/
def Pend.now (p : Pend) : List Landing := p.acts.filter fun a => !a.isToken

/-- Whether an entry's landing point is passed: count 0, and at the head if it waits for all earlier ones (R25, R100). -/
def Pend.due (p : Pend) (first : Bool) : Bool := p.count == 0 && (!p.last || first)

/-- Whether two entries push a queue in common: their pushes keep their order (R32). -/
def Pend.meets (p x : Pend) : Bool := p.now.any fun a => a.queue?.isSome && x.now.any fun b => a.queue? == b.queue?

/-- The tile whose counters an entry of `mzcnt` reports: it pushes its words behind every readout of the tile (R200). -/
def Pend.reports (p : Pend) : Option Nat :=
  match p.acts with
  | .words _ :: .counts z _ :: _ => some z
  | _ => none

/-- Whether an entry holds a counter update of a tile. -/
def Pend.counts (p : Pend) (z : Nat) : Bool :=
  p.acts.any fun a => match a with
    | .counts y _ => y == z
    | _ => false

/-- Whether a due entry behind `earlier` ones can land, as a whole (R27, R139), or can push its next token (R23). -/
def Worker.ready (w : Worker) (earlier : List Pend) (p : Pend) : Bool :=
  p.due earlier.isEmpty &&
    if p.now.isEmpty then
      match p.acts with
      | .token q :: _ =>
        decide (w.tokensIn q < Config.tokenCap) && !earlier.any fun x => x.count == 0 && x.acts.contains (.token q)
      | _ => true
    else
      w.roomFor p.now && !(earlier.any fun x => x.count == 0 && p.meets x) &&
        match p.reports with
        | some z => !earlier.any fun x => x.counts z
        | none => true

/-- The first ready entry behind those already passed, with its index. -/
def Worker.readyFrom (w : Worker) (earlier : List Pend) : List Pend → Option (Nat × Pend)
  | [] => none
  | p :: r => if w.ready earlier p then some (earlier.length, p) else Worker.readyFrom w (earlier ++ [p]) r

/-- The first ready entry of a strand, with its index (R25, R27). -/
def Worker.due (w : Worker) (e : Eng) : Option (Nat × Pend) := w.readyFrom [] (w.strands.get e).pend

/-- Replace entry `i` of a queue, dropping it when nothing is left to do. -/
def putPend (l : List Pend) (i : Nat) (p : Pend) : List Pend := if p.acts.isEmpty then dropNth l i else setNth l i p

/-- Entry `i` lands, its tokens apart (R25, R26, R36, R139): older pending writes to the same destinations are discarded. -/
def Worker.landDue (w : Worker) (e : Eng) (i : Nat) (p : Pend) : Worker :=
  let later := p.acts.filter Landing.isToken
  let ds := p.now.flatMap Landing.dests
  let t := w.strands.get e
  let older := (t.pend.take i).map (Pend.without ds)
  let w1 := w.setStrand e { t with pend := older ++ t.pend.drop (i + 1) }
  let w2 := p.now.foldl Worker.landAct w1
  let t2 := w2.strands.get e
  let back := if later.isEmpty then [] else [{ p with acts := later }]
  w2.setStrand e { t2 with pend := t2.pend.take i ++ back ++ t2.pend.drop i }

/-- What a strand's ready entry does next: nothing ready, land in registers, push an entry, push a token. -/
inductive DueKind where
  | none
  | land
  | push
  | token
  deriving DecidableEq, Repr

/-- What an entry does next. -/
def Pend.kind (p : Pend) : DueKind :=
  if p.now.isEmpty then (if p.acts.isEmpty then .land else .token) else if p.now.any Landing.isPush then .push else .land

/-- The next thing that a strand's pending entries do. -/
def Worker.dueKind (w : Worker) (e : Eng) : DueKind :=
  match w.due e with
  | Option.none => .none
  | some (_, p) => p.kind

/-- Whether a due entry that cannot land holds the strand: its landing point was reached by counting (R25), or it waits to push
a token (R23). An interlocked one delays only what reads its destinations (R27). -/
def heldBy : Bool → List Pend → Bool
  | _, [] => false
  | first, p :: r => (p.due first && (!p.lock || p.now.isEmpty)) || heldBy false r

/-- Room in a strand's in-flight write queue; a strand whose queue is full issues nothing (R28). -/
def Strand.room (t : Strand) : Bool := decide (t.pend.length < Config.pendCap)

/-- Whether a strand waits for a landing. -/
def Strand.held (t : Strand) : Bool := heldBy true t.pend

/-- Vector registers that interlocked entries will write when they land (R27). -/
def Strand.awaited (t : Strand) : List Nat :=
  t.pend.flatMap fun p =>
    if p.count == 0 && p.lock then (p.now.flatMap Landing.dests).filterMap fun d => if d.1 = 1 then some d.2 else none else []

/-- Put a value of `w` bits into slot `i` of packed bits. -/
def putSlot (v w i x : Nat) : Nat := v - slotOf v w i <<< (w * i) + (x % 2 ^ w) <<< (w * i)

/-- Bytes that hold a part. -/
def Part.size (p : Part) : Nat := max 1 (p.width / 8)

/-- A part's value in the bytes that hold it, as L finds them now (R33). -/
def State.partValue (s : State) (r : Reader) (p : Part) : Nat := bits (s.look r (.phys (plain p.addr)) p.size) p.shift p.width

/-- The value that an entry holds for a part. -/
def ImgEntry.partOf (e : ImgEntry) (p : Part) : Nat :=
  if p.scale then slotOf e.scale.toNat 8 p.slot else slotOf e.data.toNat p.width p.slot

/-- An entry with a part's value. -/
def ImgEntry.putPart (e : ImgEntry) (p : Part) (v : Nat) : ImgEntry :=
  if p.scale then { e with scale := BitVec.ofNat 32768 (putSlot e.scale.toNat 8 p.slot v) }
  else { e with data := BitVec.ofNat 262144 (putSlot e.data.toNat p.width p.slot v) }

/-- A fetched entry with its parts as L of the worker finds them now (R33). -/
def State.refetch (s : State) (r : Reader) (e : ImgEntry) (l : List Part) : ImgEntry :=
  l.foldl (fun e p => e.putPart p (s.partValue r p)) e

/-- A part that has changed since it was fetched and now lies in a sector with an uncorrectable error: the sector (R332). -/
def State.badPart (s : State) (r : Reader) (e : ImgEntry) (l : List Part) : Option Nat :=
  (l.filter fun p => s.partValue r p != e.partOf p).findSome? fun p => sectorHit s.badSectors p.addr p.size

/-- L of the worker in turn, the strand that fetches. -/
def State.fetcher (s : State) : Reader := s.wk.readerOf s.curKey .L

/-- An act as it lands: a fetched entry is as its lines are now (R33). -/
def State.settled (s : State) (a : Landing) : Landing :=
  match a with
  | .fetched q e l => .image q (s.refetch s.fetcher e l)
  | a => a

/-- An entry as it lands. -/
def State.settledPend (s : State) (p : Pend) : Pend := { p with acts := p.acts.map s.settled }

/-- The parts of an act that are fetched again. -/
def Landing.parts : Landing → List Part
  | .fetched _ _ l => l
  | _ => []

/-- After L has fetched an entry's parts again: it has seen what it found (R261). -/
def State.refetched (s : State) (p : Pend) : State :=
  (p.acts.flatMap Landing.parts).foldl (fun s x => s.looked s.fetcher (.phys (plain x.addr)) x.size) s

/-- Whether an act is an engine-form knot add. -/
def Landing.isKnotAdd : Landing → Bool
  | .knotAdd _ _ => true
  | _ => false

/-- An engine-form knot add is a release of its strand at core scope (R100, R265). -/
def State.landed (s : State) (p : Pend) : State :=
  if p.acts.any Landing.isKnotAdd then s.releaseTo s.curKey s.curEng p.pos 1 false else s

/-- The error that an entry's landing meets: a part fetched again from a marked sector (R33, R332). -/
def State.badFetch (s : State) (p : Pend) : Option Nat :=
  p.acts.findSome? fun a => match a with
    | .fetched _ e l => s.badPart s.fetcher e l
    | _ => none

/-- The strand's ready entry lands, if what it does next is of a kind. -/
def landReady (k : DueKind) (s : State) : State :=
  match s.wk.due s.curEng with
  | some (i, p) => if p.kind = k then (((s.refetched p).modWk fun w => w.landDue s.curEng i (s.settledPend p)).landed p) else s
  | none => s

/-- A ready entry of the strand in turn lands in registers, masks, knots or counters (WRITE_LANDING). -/
def landWrite (s : State) : State := landReady .land s

/-- A ready entry of the strand in turn pushes its next token (TOKEN_PUSH): a release at core scope up to it (R24, R265). -/
def pushToken (s : State) : State :=
  match s.wk.due s.curEng with
  | some (i, p) =>
    match p.acts with
    | .token q :: r =>
      let w := s.wk.setTokens q (s.wk.tokensIn q + 1)
      let t := w.strands.get s.curEng
      (s.setWk (w.setStrand s.curEng { t with pend := putPend t.pend i { p with acts := r } })).releaseTo s.curKey s.curEng p.pos 1
        false
    | _ => s
  | none => s

/-- One more instruction of the strand has issued: every landing count goes down (R25). -/
def countDown (l : List Pend) : List Pend := l.map fun p => { p with count := p.count - 1 }

/-- Every pending write becomes interlocked (R27). -/
def interlock (l : List Pend) : List Pend := l.map fun p => { p with count := 0, lock := true }

/-- A boundary (R20, R27). In a handler S's boundaries are not counted against the slip window (R314). -/
def Strand.boundary (t : Strand) (counts : Bool) : Strand :=
  { t with dbn := if counts then t.dbn + 1 else t.dbn, pend := interlock t.pend }

/-- Whether the strand in turn may pass a boundary (R21); a handler's boundaries are free (R314). -/
def Worker.slipOk (w : Worker) (e : Eng) : Bool :=
  let t := w.strands.get e
  let low := (w.strands.toList.map Strand.dbn).foldl min t.dbn
  (e == .S && w.inHandler) || decide (t.dbn + 1 ≤ low + t.view.slip)

/-- Whether boundaries of an engine's strand count now. -/
def Worker.counting (w : Worker) (e : Eng) : Bool := !(e == .S && w.inHandler)

/-! ## Text-ordered configuration (R22) -/

/-- A write to a text-ordered CSR as it changes a view (R21, R106, R107, R206, R207). -/
def View.writeCsr (v : View) (c : Nat) (x : Word) : View :=
  if c = 0x004 then
    let n := bits x.toNat 0 5
    { v with slip := if n = 0 then 1 else min n 16 }
  else if c = 0x008 then { v with ftz := x.getLsbD 0, e4m3sat := x.getLsbD 1 }
  else if 0x00A ≤ c ∧ c ≤ 0x00D then { v with nkey := v.nkey.set (c - 0x00A) x }
  else if 0x010 ≤ c ∧ c ≤ 0x017 then { v with bkt := tabSet 0 v.bkt (c - 0x010) x }
  else if c = 0x01B then { v with gamma := x.extractLsb' 0 32 }
  else v

/-- A write of `szset` (R184). -/
def Tile.write (t : Tile) (field : Nat) (v : Word) : Tile :=
  let x := v.extractLsb' 0 16
  match field with
  | 0 => { t with base := x }
  | 1 => { t with rows := x }
  | 2 => { t with cols := x }
  | 3 => { t with anchor := x }
  | 4 => .reset
  | _ => t

/-- A write of `shset` (R217). -/
def Sheaf.write (t : Sheaf) (field : Nat) (v : Word) : Sheaf :=
  let x := v.extractLsb' 0 16
  match field with
  | 0 => { t with base := x }
  | 1 => { t with dim := x }
  | 2 => { t with cap := x }
  | 3 => { t with rad2 := v.extractLsb' 0 32 }
  | 4 => { t with metric := x }
  | 5 => { t with policy := x }
  | 6 => { t with anchor := x }
  | 7 => .reset
  | _ => t

/-- A configuration write as it changes one strand's view; captures read the scratchpad as it stands (R22, R157). -/
def View.apply (v : View) (spad : Memory) : ConfW → View
  | .pred n b => v.setPred n b
  | .shape s => { v with shape := s }
  | .furrow n field x r => v.setFurrow n ((v.furrow n).write field x r spad)
  | .tile n field x => { v with tiles := tabSet .reset v.tiles n ((v.tile n).write field x) }
  | .sheaf n field x => { v with sheaves := tabSet .reset v.sheaves n ((v.sheaf n).write field x) }
  | .csr c x => v.writeCsr c x

/-- Apply the posted writes that a strand's position has reached, in order (R22). -/
def applyDue (spad : Memory) (pos : Nat) : List ConfEntry → View → View × List ConfEntry
  | [], v => (v, [])
  | c :: r, v => if c.due ≤ pos then applyDue spad pos r (v.apply spad c.w) else (v, c :: r)

/-- A strand after applying what is due. -/
def Strand.sync (t : Strand) (spad : Memory) : Strand :=
  let x := applyDue spad t.pos t.confq t.view
  { t with view := x.1, confq := x.2 }

/-- Room in all four configuration queues (R22). -/
def Worker.confRoom (w : Worker) : Bool :=
  otherEngines.all fun e => decide ((w.strands.get e).confq.length < Config.confCap)

/-- A configuration write by S: at once for itself, posted to the others, due at a position (R22, R314). -/
def Worker.configure (w : Worker) (due : Nat) (c : ConfW) : Worker :=
  let t := w.strands.s
  let w1 := { w with strands := { w.strands with s := { t with view := t.view.apply w.spad c } } }
  { w1 with strands := w1.strands.mapOthers fun t => { t with confq := t.confq ++ [⟨due, c⟩] } }

/-- The position at which S's configuration writes fall due: past the word of `len` parcels, or the trap point in a handler. -/
def Worker.configDue (w : Worker) (len : Nat) : Nat :=
  if w.inHandler then w.stopPos else w.strands.s.pos + len

/-! ## Headlands in text -/

/-- The next four parcels from an address; a parcel that cannot be fetched ends the list with its fault. -/
def State.fetchFour (s : State) (w : Worker) (pc : PAddr) : Nat → List Parcel × Option (AErr × PAddr)
  | 0 => ([], none)
  | n + 1 =>
    match s.fetchParcel w pc with
    | .error x => ([], some (x, pc))
    | .ok p =>
      let r := State.fetchFour s w (pc + 2) n
      (p :: r.1, r.2)

/-- Whether a parcel begins a headland (R18, R47). -/
def isHeadland (p : Parcel) : Bool := engOf p == 5 && formatLegal p

/-- Whether an even address holds a headland (R19). -/
def State.headlandAt (s : State) (w : Worker) (pc : PAddr) : Bool :=
  !pc.getLsbD 0 &&
    match s.fetchParcel w pc with
    | .ok p => isHeadland p
    | .error _ => false

/-- Whether a transfer to an address may proceed (R19): a headland, or an even address whose fetch faults, which is
reported at the target (R60, R306, log 11). -/
def State.targetOk (s : State) (w : Worker) (pc : PAddr) : Bool :=
  !pc.getLsbD 0 &&
    match s.fetchParcel w pc with
    | .ok p => isHeadland p
    | .error _ => true

/-! ## Aborts, machine checks, traps -/

/-- Keys of the workers of a launch. -/
def State.keysOf (s : State) (lid : Nat) : List Nat := (s.workers.filter fun e => e.2.lid == lid).map Prod.fst

/-- Abort a launch with STATUS 3: its workers stop; the record completes later (R313, R316, R339). -/
def State.abortLaunch (s : State) (lid : Nat) : State :=
  { s.modLaunch lid (fun l => { l with aborting := true, status := 3 }) with
    workers := s.workers.map fun e => (e.1, if e.2.lid = lid then { e.2 with status := .done } else e.2) }

/-- Append a machine-check record; the log keeps the last 256 (R333). -/
def State.logCheck (s : State) (r : List Word) : State :=
  let l := s.mclog ++ [r]
  { s with mclog := l.drop (l.length - 256) }

/-- A machine check met by a strand or an engine (R316, R332, R333). -/
def State.machineCheck (s : State) (w : Worker) (unit kind pa : Nat) (pc : PAddr) : State :=
  let word := fun (n : Nat) => BitVec.ofNat 64 n
  (s.logCheck [word (kind <<< 8 + 0x0D), word w.lid, word (w.wid <<< 57 + unit <<< 54 + pa % 2 ^ 52), word pc.toNat]).abortLaunch
    w.lid

/-- A ready entry of the strand in turn lands with its pushes (QUEUE_PUSH, R32, R139), unless it meets an error (R332). -/
def pushQueue (s : State) : State :=
  match (s.wk.due s.curEng).bind fun x => s.badFetch x.2 with
  | some pa => s.machineCheck s.wk s.curEng.code (checkKind pa) pa s.st.pc
  | none => landReady .push s

/-- The worker after taking a trap raised by strand `e` at `pc` (R313): the trap CSRs, the mode, S's trap copy and its wait, and S
at TVEC. -/
def Worker.trapped (w : Worker) (e : Eng) (pc : PAddr) (t : Trap) : Worker :=
  let sup : Sup :=
    { w.sup with
      ppriv := w.sup.priv, priv := true, tin := true, tdepth := w.strands.s.stack.length
      cause := BitVec.ofNat 8 t.cause, sub := BitVec.ofNat 4 t.sub, taddr := BitVec.ofNat 64 t.addr
      tpc := pc, tstrand := BitVec.ofNat 3 e.code
      tslot := (match t.slot with
        | some n => BitVec.ofNat 32 n
        | none => 0xFFFFFFFF) }
  { w with
    sup := sup
    trapPend := w.strands.s.pend
    stopPc := if e = .S then pc else w.strands.s.pc
    stopPos := if w.inHandler then w.stopPos else w.strands.s.pos
    stopWaits := w.strands.s.wait :: w.stopWaits
    inHandler := true
    strands := { w.strands with s := { w.strands.s with pc := w.sup.tvec, pend := [], wait := none } } }

/-- S of the worker in turn acquires at core scope: a trap, a `settle` (R93, R313). -/
def State.acquireS (s : State) : State :=
  s.modWk fun w => w.setStrand .S { w.strands.s with acq := w.strands.s.acq.take 1 s.tick }

/-- The report of a trap that no handler takes: LID, logical worker, cause, strand, and the address of the instruction
(R313, log 55). -/
def State.reportTrap (s : State) (w : Worker) : State :=
  let word := fun (n : Nat) => BitVec.ofNat 64 n
  { s with reports := s.reports ++
      [[word w.lid, word w.wid, w.sup.cause.zeroExtend 64, w.sup.tstrand.zeroExtend 64, w.sup.tpc.zeroExtend 64]] }

/-- Take a trap raised by strand `e` at `pc` (R313). With TIN set before, or no headland at TVEC, the worker stops there and
its launch is aborted. A conflict turns the phase's further checks off (R258, R297). A trap of another strand waits for the keys
of a `shins` under way (R224): the strand raises it again. -/
def State.takeTrap (s : State) (e : Eng) (pc : PAddr) (t : Trap) : State :=
  if s.wk.insertion.isSome then s else
  let s := if t.cause = 0x0B then s.modLaunch s.wk.lid fun l => { l with detOff := true } else s
  let w := s.wk.trapped e pc t
  let s1 := ((s.performWorker s.curKey 1).setWk w).acquireS
  if s.wk.sup.tin || !s.headlandAt w w.sup.tvec then (s1.reportTrap w).abortLaunch w.lid else s1

/-- A text position after the pc moves within its text from `a` to `b` (log 5). -/
def movedPos (pos : Nat) (a b : PAddr) : Nat := pos + b.toNat / 2 - a.toNat / 2

/-- The return of R317, its checks and waits done: the stack, S's writes, the mode, TIN; S at its stop position or, for
TSTRAND 0, at TPC, in the wait that the latest trap found it in (R101); the strand that TSTRAND names at TPC. -/
def Worker.returned (w : Worker) : Worker :=
  let t := w.strands.s
  let st := t.stack.drop (t.stack.length - w.sup.tdepth)
  let forS := w.sup.tstrand == 0
  let t' : Strand :=
    { t with
      stack := st, pend := w.trapPend, wait := w.stopWaits.headD none
      pc := if forS then w.sup.tpc else w.stopPc
      pos := if forS then movedPos w.stopPos w.stopPc w.sup.tpc else w.stopPos }
  let w1 := { w with strands := { w.strands with s := t' }, trapPend := [], stopWaits := w.stopWaits.drop 1, inHandler := false
                     sup := { w.sup with priv := w.sup.ppriv, tin := false } }
  if forS then w1
  else
    let e := engOfCode w.sup.tstrand.toNat
    let u := w1.strands.get e
    w1.setStrand e { u with pc := w.sup.tpc, pos := movedPos u.pos u.pc w.sup.tpc }

/-! ## How an instruction runs -/

/-- What an executed instruction leaves pending: acts at a landing count, and whether they wait for all earlier ones. -/
structure Issue where
  acts : List Landing
  shadow : Nat
  last : Bool
  deriving DecidableEq, Repr

/-- Nothing pending. -/
def Issue.none : Issue := ⟨[], 0, false⟩

/-- Acts at a landing count. -/
def Issue.after (n : Nat) (l : List Landing) : Issue := ⟨l, n, false⟩

/-- The next state of an action: its own, the same one for a wait, or the trap's or machine check's. -/
def settleStop (s : State) : Except Stop (Unit × State) → Host.Outcome State Fault Refusal
  | .ok (_, t) => .next t
  | .error .stall => .next s
  | .error (.trap t) => .next (s.takeTrap s.curEng s.st.pc t)
  | .error (.machine kind pa) => .next (s.machineCheck s.wk s.curEng.code kind pa s.st.pc)

/-- Run an action for a strand's own instruction. -/
def runOwn (e : Eng) (act : M Unit) (s : State) : Host.Outcome State Fault Refusal :=
  if s.live then
    if s.curEng = e then settleStop s (act s) else .fault .wrongEngine
  else .fault .noWorker

/-- The strand in turn after its own instruction of `len` parcels has issued (R25, R28, R46). -/
def Strand.issued (t : Strand) (len : Nat) (i : Issue) (toks : List TokQ) : Strand :=
  let acts := i.acts ++ toks.map Landing.token
  let new := if acts.isEmpty then [] else [⟨acts, i.shadow, false, t.pos, i.last⟩]
  { t with
    pend := countDown t.pend ++ new
    pc := t.pc + BitVec.ofNat 57 (2 * len)
    pos := t.pos + len }

/-- A strand that pops tokens acquires at core scope (R24). -/
def State.popAcquire (s : State) (e : Eng) (tk : BitVec 4) : State := if (tokPops e tk).isEmpty then s else s.acquire 1

/-- Issue an E64 instruction: room in the in-flight queue (R28), tokens (R23), guard (R30), effect, pops, the pending entry. -/
def issueE64 (e : Eng) (f : E64) (on off : M Issue) : M Unit := do
  let t ← M.look State.st
  M.await (t.room)
  let w ← M.look State.wk
  M.await ((tokPops e f.tk).all fun q => decide (0 < w.tokensIn q))
  M.change fun s => s.popAcquire e f.tk
  let i ← if t.view.guard f.g then on else off
  M.change fun s =>
    let w := (tokPops e f.tk).foldl (fun w q => w.setTokens q (w.tokensIn q - 1)) s.wk
    s.setWk (w.setStrand e ((w.strands.get e).issued 4 i (tokPushes e f.tk)))

/-- Run an E64 instruction of an engine. -/
def runE64 (e : Eng) (f : E64) (on off : M Issue) (s : State) : Host.Outcome State Fault Refusal :=
  runOwn e (issueE64 e f on off) s

/-- Issue an S instruction of `len` parcels (R28, R30). -/
def issueS (len : Nat) (g : Option Guard) (on off : M Issue) : M Unit := do
  let t ← M.look State.st
  M.await (t.room)
  let go := match g with
    | some g => t.view.guard g
    | none => true
  let i ← if go then on else off
  M.change fun s => s.setWk (s.wk.setStrand .S (s.wk.strands.s.issued len i []))

/-- Run an S instruction. -/
def runS (len : Nat) (g : Option Guard) (on off : M Issue) (s : State) : Host.Outcome State Fault Refusal :=
  runOwn .S (issueS len g on off) s

/-- A configuration write by S's word of `len` parcels, once all four configuration queues have room (R22). -/
def postConfig (len : Nat) (c : ConfW) : M Unit := do
  let w ← M.look State.wk
  M.await w.confRoom
  M.change fun s => s.setWk (s.wk.configure (s.wk.configDue len) c)

/-- Write a scalar at once (shadow 0): pending older writes to it are discarded (R26). -/
def Worker.snow (w : Worker) (r : Nat) (v : Word) : Worker :=
  let t := w.strands.s
  { w with strands := { w.strands with s := { t with pend := t.pend.map (Pend.without [(0, r)]) } } }.sset r v

/-- Nothing happens. -/
def M.nothing : M Issue := pure .none

/-- Change the worker in turn. -/
def M.work (f : Worker → Worker) : M Unit := M.change fun s => s.modWk f

end Sys2Proof.Machine
end

