-- ==== Sys2Proof/Machine/Maps.lean ====
section
/-! DEFINITION. Shapes and their grant, slot indices, map words, coordinate reads and how maps follow data
(R37 to R45, R128). -/
namespace Sys2Proof.Machine

/-! ## Shapes -/

/-- Slot count G. -/
def Shape.slots (s : Shape) : Nat := s.g.c0 * s.g.c1 * s.g.c2 * s.g.c3

/-- Whether G slots of a width fit in a register (R37). -/
def Shape.fits (s : Shape) (w : Nat) : Bool := decide (s.slots * w ≤ Config.vregBits)

/-- The grant's first three sizes, as a map records them. -/
def Shape.grant3 (s : Shape) : Grant3 := ⟨s.g.c0, s.g.c1, s.g.c2⟩

/-- Size of slot axis `j`. -/
def Shape.size (s : Shape) (j : Nat) : Nat := s.g.get j

/-- Slot axis indices of a slot under sizes g0 to g2 (R37). -/
def slotIndex (g : Grant3) (s : Nat) : Quad Nat :=
  ⟨s % g.g0, s / g.g0 % g.g1, s / (g.g0 * g.g1) % g.g2, s / (g.g0 * g.g1 * g.g2)⟩

/-- Slots below axis `j`: the step between neighbours along it. -/
def Shape.inner (s : Shape) (j : Nat) : Nat :=
  match j with
  | 0 => 1
  | 1 => s.g.c0
  | 2 => s.g.c0 * s.g.c1
  | _ => s.g.c0 * s.g.c1 * s.g.c2

/-- Index of a slot along axis `j`. -/
def Shape.indexOn (s : Shape) (j slot : Nat) : Nat := slot / s.inner j % s.size j

/-- The slot in the same line along axis `j`, at index `k`. -/
def Shape.moveTo (s : Shape) (j slot k : Nat) : Nat := slot - s.indexOn j slot * s.inner j + k * s.inner j

/-- The slots of a slot's line along axis `j`, in ascending index. -/
def Shape.line (s : Shape) (j slot : Nat) : List Nat := (upFrom 0 (s.size j)).map fun k => s.moveTo j slot k

/-- One reduction step of the grant (R38): dimension `a` shrinks until the product fits. -/
def shrinkDim (cap : Nat) (d : Quad Nat) (a : Nat) : Quad Nat :=
  let p := d.c0 * d.c1 * d.c2 * d.c3
  if cap < p then d.set a (max 1 (cap / (p / d.get a))) else d

/-- The grant of R38. -/
def grantOf (req : Quad Nat) (w : Nat) : Quad Nat :=
  let cap := Config.vregBits / w
  let d := req.map fun x => min (max x 1) cap
  let d := d.set 0 (min (16 * ceilDiv d.c0 16) cap)
  shrinkDim cap (shrinkDim cap (shrinkDim cap d 3) 2) 1

/-- The grant as `sshape` writes it (R38) and SHP0 reads it (R39). -/
def Shape.word0 (s : Shape) : Word :=
  BitVec.ofNat 64 (s.g.c0 % 65536 + s.g.c1 <<< 16 + s.g.c2 <<< 32 + s.g.c3 <<< 48)

/-- Width code of EW (R39, R54). -/
def widthCode (w : Nat) : Nat :=
  match w with
  | 8 => 0
  | 16 => 1
  | 32 => 2
  | 64 => 3
  | _ => 4

/-- Width behind an EW code. -/
def widthOfCode (c : Nat) : Nat :=
  match c with
  | 0 => 8
  | 1 => 16
  | 2 => 32
  | 3 => 64
  | _ => 4

/-- SHP1 (R39). -/
def Shape.word1 (s : Shape) : Word := BitVec.ofNat 64 (s.slots <<< 32 + widthCode s.width <<< 8 + s.fmt)

/-! ## Map words (R40) -/

/-- Four extents whose product is in range, each at least 1. -/
def extentsOk (e : Quad Nat) : Bool :=
  decide (1 ≤ e.c0) && decide (1 ≤ e.c1) && decide (1 ≤ e.c2) && decide (1 ≤ e.c3) &&
    decide (e.c0 * e.c1 * e.c2 * e.c3 ≤ 2 ^ 31)

/-- Whether a step fits its field. -/
def stepOk (i : Int) : Bool := decide (-128 ≤ i) && decide (i ≤ 127)

/-- A map that is not well formed, or has a step out of range, is LOST (R40). -/
def CMap.check (m : CMap) : CMap :=
  match m with
  | .lost => .lost
  | .affine _ _ st _ e => if extentsOk e && stepOk st.c0 && stepOk st.c1 && stepOk st.c2 && stepOk st.c3 then m else .lost
  | .explicit _ _ e => if extentsOk e then m else .lost

/-- M0 without its state and companion: 65,536 does not fit a field of 16 bits and shows as 0 in each (R40, log 46). -/
def grantWord (g : Grant3) : Nat := (g.g0 % 65536) <<< 16 + (g.g1 % 65536) <<< 32 + (g.g2 % 65536) <<< 48

/-- The six words of a map (R40). -/
def CMap.words (m : CMap) : List Word :=
  let w := fun (n : Nat) => BitVec.ofNat 64 n
  match m with
  | .lost => [0, 0, 0, 0, 0, 0]
  | .affine g t st o e =>
    let d := fun j => (t.get j <<< 8 + wrap 8 (st.get j)) <<< (16 * j)
    [ w (grantWord g + 1), w (d 0 + d 1 + d 2 + d 3), w (o.c0.toNat + o.c1.toNat <<< 32),
      w (o.c2.toNat + o.c3.toNat <<< 32), w (e.c0 + e.c1 <<< 32), w (e.c2 + e.c3 <<< 32) ]
  | .explicit g c e => [w (grantWord g + c <<< 8 + 2), 0, 0, 0, w (e.c0 + e.c1 <<< 32), w (e.c2 + e.c3 <<< 32)]

/-- The AFFINE map that six words give (R126): none if a check of R126 fails. -/
def mapOfWords (g : Grant3) (l : List Word) : Option CMap :=
  let m := fun i => (nth 0 l i).toNat
  let t := fun j => bits (m 1) (16 * j + 8) 3
  let st := fun j => signed 8 (m 1 >>> (16 * j))
  let pad := fun j => bits (m 1) (16 * j + 11) 5 == 0
  let tOk := fun j => decide (t j ≤ 3) || t j == 7
  let o := fun i k => BitVec.ofNat 32 (m i >>> (32 * k))
  let e : Quad Nat := ⟨bits (m 4) 0 32, bits (m 4) 32 32, bits (m 5) 0 32, bits (m 5) 32 32⟩
  if bits (m 0) 0 2 == 1 && bits (m 0) 2 14 == 0 && pad 0 && pad 1 && pad 2 && pad 3 && tOk 0 && tOk 1 && tOk 2 && tOk 3 &&
      extentsOk e && m 0 >>> 16 == grantWord g >>> 16 then
    some (.affine g ⟨t 0, t 1, t 2, t 3⟩ ⟨st 0, st 1, st 2, st 3⟩ ⟨o 2 0, o 2 1, o 3 0, o 3 1⟩ e)
  else none

/-! ## Coordinates (R41) -/

/-- What a coordinate read gives: c0 to c3 and ixl, as i32 values. -/
structure Coord where
  c : Quad Int
  ixl : Int
  deriving DecidableEq, Repr

/-- Operand k: ix0 to ix3, or ixl for 4. -/
def Coord.get (x : Coord) (k : Nat) : Int := if k = 4 then x.ixl else x.c.get k

/-- Logical axis `a` of an AFFINE map at slot indices `i`, modulo 2^32. -/
def affineAxis (t : Quad Nat) (st : Quad Int) (o : Quad (BitVec 32)) (i : Quad Nat) (a : Nat) : Nat :=
  let part := fun j => if t.get j = a then st.get j * (i.get j : Int) else 0
  wrap 32 (((o.get a).toNat : Int) + part 0 + part 1 + part 2 + part 3)

/-- Read the coordinates of slot `s` through a map; companions are read from the worker's registers. The error is the
cause: lost 0x03, range 0x04. -/
def readCoord (w : Worker) (m : CMap) (s : Nat) : Except Nat Coord :=
  match m with
  | .lost => .error 0x03
  | .affine g t st o e =>
    let i := slotIndex g s
    let c := fun a => affineAxis t st o i a
    let l := wrap 32 (linearIn e ⟨c 0, c 1, c 2, c 3⟩ : Nat)
    .ok ⟨⟨signed 32 (c 0), signed 32 (c 1), signed 32 (c 2), signed 32 (c 3)⟩, signed 32 l⟩
  | .explicit _ comp e =>
    if 8192 ≤ s then .error 0x03
    else
      let i := signed 32 (slotOf (w.vget comp).data.toNat 32 s)
      let n := e.c0 * e.c1 * e.c2 * e.c3
      if i < 0 ∨ (n : Int) ≤ i then .error 0x04
      else
        let k := i.toNat
        .ok ⟨⟨(k % e.c0 : Nat), (k / e.c0 % e.c1 : Nat), (k / (e.c0 * e.c1) % e.c2 : Nat), (k / (e.c0 * e.c1 * e.c2) : Nat)⟩, i⟩

/-- The noise function (R128), `n` rounds from x and y. -/
def mixRounds : Nat → Nat → Nat → Nat
  | 0, x, _ => x
  | n + 1, x, y =>
    let x := (x + y) % 2 ^ 32
    let x := x ^^^ (x >>> 16)
    let x := (x * 0x6C8E9CF5) % 2 ^ 32
    let x := x ^^^ (x >>> 15)
    mixRounds n x ((y * 0x2C1B3C6D + 0x9E3779B9) % 2 ^ 32)

/-- mix (R128): key and the 32-bit pattern of an index. -/
def mix (key : Word) (idx : Int) : Nat := mixRounds 4 (wrap 32 idx ^^^ bits key.toNat 0 32) (bits key.toNat 32 32)

/-! ## How maps follow (R43, R44) -/

/-- An AFFINE map made afresh: the slot axes named in `feeds` feed their logical axes with step 1 where their size is above
1 (R43, R155). -/
def freshMap (s : Shape) (feeds : Nat → Bool) (o : Quad (BitVec 32)) (e : Quad Nat) : CMap :=
  let on := fun j => feeds j && decide (1 < s.size j)
  let t := fun j => if on j then j else 7
  let st := fun j => if on j then (1 : Int) else 0
  CMap.check (.affine s.grant3 ⟨t 0, t 1, t 2, t 3⟩ ⟨st 0, st 1, st 2, st 3⟩ o e)

/-- Origin of the logical axis that slot axis `j` feeds, moved by STEP_j · n. -/
def moveOrigin (t : Quad Nat) (st : Quad Int) (o : Quad (BitVec 32)) (j : Nat) (n : Int) : Quad (BitVec 32) :=
  if t.get j = 7 then o
  else o.set (t.get j) (BitVec.ofInt 32 (((o.get (t.get j)).toNat : Int) + st.get j * n))

/-- `vslice` by n, and `vshift` by −n (R43). -/
def CMap.slice (m : CMap) (j : Nat) (n : Int) : CMap :=
  match m with
  | .affine g t st o e => .affine g t st (moveOrigin t st o j n) e
  | _ => .lost

/-- `vbcast` from index n (R43). -/
def CMap.bcast (m : CMap) (j : Nat) (n : Int) : CMap :=
  match m with
  | .affine g t st o e => .affine g t (st.set j 0) (moveOrigin t st o j n) e
  | _ => .lost

/-- A reduction along j (R43). -/
def CMap.reduce (m : CMap) (j : Nat) : CMap :=
  match m with
  | .affine g t st o e => .affine g t (st.set j 0) o e
  | _ => m

/-- `vtrn` (R43). A size of 65,536 moves as it is (log 46). -/
def CMap.transpose (m : CMap) : CMap :=
  match m with
  | .affine g t st o e =>
    .affine ⟨g.g1, g.g0, g.g2⟩ { t with c0 := t.c1, c1 := t.c0 } { st with c0 := st.c1, c1 := st.c0 } o e
  | _ => .lost

/-- An old slot axis on its way into new ones (R44): size left, target, step, whether part of it is used, whether it is a
merge of whole axes. -/
structure OldAxis where
  size : Nat
  tgt : Nat
  step : Int
  part : Bool
  merged : Bool
  deriving DecidableEq, Repr

/-- Match old slot axes against new sizes, all above 1 (R44): keep, split, merge, or none for anything else. -/
def matchAxes : Nat → List OldAxis → List Nat → Option (List (Nat × Int))
  | 0, _, _ => none
  | _ + 1, [], [] => some []
  | _ + 1, [], _ :: _ => none
  | _ + 1, _ :: _, [] => none
  | k + 1, a :: os, h :: ns =>
    if h = a.size then (matchAxes k os ns).map fun l => (a.tgt, a.step) :: l
    else if h < a.size then
      if a.merged || a.size % h != 0 then none
      else
        let st := if a.tgt = 7 then 0 else a.step
        (matchAxes k (⟨a.size / h, a.tgt, st * (h : Int), true, false⟩ :: os) ns).map fun l => (a.tgt, st) :: l
    else
      match os with
      | [] => none
      | b :: os' =>
        if a.part then none
        else if a.tgt = 7 && b.tgt == 7 then matchAxes k (⟨a.size * b.size, 7, 0, false, true⟩ :: os') (h :: ns)
        else if a.tgt == b.tgt && b.step == a.step * (a.size : Int) then
          matchAxes k (⟨a.size * b.size, a.tgt, a.step, false, true⟩ :: os') (h :: ns)
        else none

/-- Give the descriptors of `l` to the axes whose size is above 1, and TGT 7, STEP 0 to the others. -/
def spread : List Nat → List (Nat × Int) → List (Nat × Int)
  | [], _ => []
  | h :: r, l =>
    if h = 1 then (7, 0) :: spread r l
    else
      match l with
      | [] => (7, 0) :: spread r []
      | x :: l' => x :: spread r l'

/-- `vresh` (R44). An EXPLICIT map is kept whatever its recorded sizes are (log 46). -/
def CMap.reshape (m : CMap) (s : Shape) : CMap :=
  match m with
  | .lost => .lost
  | .explicit _ c e => .explicit s.grant3 c e
  | .affine g t st o e =>
    let p := g.g0 * g.g1 * g.g2
    if p = 0 ∨ s.slots % p ≠ 0 then .lost
    else
      let sizes := [g.g0, g.g1, g.g2, s.slots / p]
      let olds := ((upFrom 0 4).map fun j => (⟨nth 1 sizes j, t.get j, st.get j, false, false⟩ : OldAxis)).filter
        fun a => a.size ≠ 1
      let news := s.g.toList
      match matchAxes 16 olds (news.filter (· ≠ 1)) with
      | none => .lost
      | some l =>
        let d := spread news l
        let x := fun j => nth ((7 : Nat), (0 : Int)) d j
        CMap.check (.affine s.grant3 ⟨(x 0).1, (x 1).1, (x 2).1, (x 3).1⟩ ⟨(x 0).2, (x 1).2, (x 2).2, (x 3).2⟩ o e)

/-- The map EXPLICIT on a companion with the extents of another map (R43): LOST from LOST. -/
def CMap.onCompanion (m : CMap) (s : Shape) (comp : Nat) : CMap :=
  match m with
  | .lost => .lost
  | .affine _ _ _ _ e => .explicit s.grant3 comp e
  | .explicit _ _ e => .explicit s.grant3 comp e

/-- The companion of a map, if it has one. -/
def CMap.companion : CMap → Option Nat
  | .explicit _ c _ => some c
  | _ => none

end Sys2Proof.Machine
end

