-- ==== Sys2Proof/Machine/Operands.lean ====
section
/-! DEFINITION. Operand forms of the vector engines: registers, queues, q14, small immediates and coordinates as sources;
registers and queues as destinations; masks; what a guarded-off instruction still pops and pushes (R14, R30, R32, R52,
R108, R109, R123). -/
namespace Sys2Proof.Machine

/-- A vector source as read at issue. -/
inductive Src where
  | slots (data scale : Nat) (tag : Option Tag) (map : CMap)
  | bcast (v : Nat)
  | imm (i : Int)
  | coord (k : Nat)
  deriving DecidableEq, Repr

/-- The map a source carries: LOST for what has none, a small immediate as well as a q14 broadcast (R43, log 46). -/
def Src.map : Src → CMap
  | .slots _ _ _ m => m
  | _ => .lost

/-- The tag a source carries. -/
def Src.tag : Src → Option Tag
  | .slots _ _ t _ => t
  | _ => none

/-- Scale bytes of a source. -/
def Src.scale : Src → Nat
  | .slots _ s _ _ => s
  | _ => 0

/-- Bits of slot `s` of a source of data at width `w`; an immediate's two's complement bits (R14). -/
def Src.slot (x : Src) (w s : Nat) : Nat :=
  match x with
  | .slots d _ _ _ => slotOf d w s
  | .bcast v => v % 2 ^ w
  | .imm i => wrap w i
  | .coord _ => 0

/-- Number of the queue a code names. -/
def qNum (x : BitVec 8) : Nat := x.toNat - 0x80

/-- Physical register of a code, for the strand in turn. -/
def State.phys (s : State) (x : BitVec 8) : Nat := physReg s.st.rrb x.toNat

/-- The register behind a code. -/
def State.vreg (s : State) (x : BitVec 8) : VReg := s.wk.vget (s.phys x)

/-- The image entry at depth `n` of a queue, waiting for it. -/
def peekImage (q n : Nat) : M ImgEntry := do
  let w ← M.look State.wk
  match (w.image q)[n]? with
  | some e => pure e
  | none => M.stall

/-- Compare an image entry with the shape and the width read: queue misuse with TADDR 4 (R32). -/
def compareEntry (e : ImgEntry) (width : Option Nat) : M Unit := do
  let v ← M.look State.view
  let wOk := match width with
    | some w => e.width == w
    | none => true
  if e.count == v.shape.slots && wOk then pure () else M.trap 0x0E 0 4 none

/-- Pop an image entry read at a width, or only for its map (R32). -/
def popImage (q : Nat) (width : Option Nat) : M Src := do
  let e ← peekImage q 0
  compareEntry e width
  M.change fun s => s.modWk fun w => w.setImage q ((w.image q).drop 1)
  pure (.slots e.data.toNat e.scale.toNat e.tag e.map)

/-- Pop one entry of q14 (R123). -/
def popWord : M Word := do
  let w ← M.look State.wk
  match w.q14 with
  | [] => M.stall
  | x :: r => do
    M.change fun s => s.modWk fun w => { w with q14 := r }
    pure x

/-- Read a source field (R52, R108, R123). -/
def readSrc (x : BitVec 8) (width : Option Nat) : M Src := do
  if isV x then
    let r ← M.look fun s => s.vreg x
    pure (.slots r.data.toNat r.scale.toNat r.tag r.map)
  else if isQ x then
    if qNum x = 14 then
      let v ← popWord
      pure (.bcast v.toNat)
    else popImage (qNum x) width
  else if isCoord x then pure (.coord (x.toNat - 0x90))
  else pure (.imm (immOf x))

/-- The map that the source in field `i` of a list of fields will have, without popping (R45 is checked before, R59). -/
def peekMap (fields : List (BitVec 8)) (i : Nat) : M CMap := do
  let x := nth 0 fields i
  if isV x then M.look fun s => (s.vreg x).map
  else if isQ x && qNum x != 14 then
    let e ← peekImage (qNum x) ((fields.take i).filter (· == x)).length
    pure e.map
  else pure .lost

/-- The own-companion rule (R45): a destination register must not be the companion of the map it would carry. -/
def ownCompanion (d : BitVec 8) (m : CMap) : M Unit := do
  let p ← M.look fun s => s.phys d
  if isV d && m.companion == some p then M.illegal 1 else pure ()

/-! ## Masks -/

/-- The mask that MK names: none for 7 (R109). -/
def State.maskOf (s : State) (mk : Nat) : Option Nat := if mk = 7 then none else some (s.wk.mget mk).toNat

/-- Whether a slot is active under a mask (R109). -/
def activeIn (m : Option Nat) (s : Nat) : Bool :=
  match m with
  | none => true
  | some b => b.testBit s

/-! ## Destinations -/

/-- What goes into a destination: packed slots, sideband and tag, map. -/
structure Result where
  slots : Nat
  scale : Nat
  tag : Option Tag
  map : CMap
  deriving DecidableEq, Repr

/-- The act that delivers a result of `n` slots at a width to a register or queue (R36, R37, R42). A register keeps its bits
above; its old value is read at issue. -/
def State.deliver (s : State) (d : BitVec 8) (n w : Nat) (r : Result) : Landing :=
  if isQ d then
    .image (qNum d) ⟨n, w, BitVec.ofNat 262144 (r.slots % 2 ^ (n * w)), BitVec.ofNat 32768 r.scale, r.tag, r.map, []⟩
  else
    let p := s.phys d
    let old := s.wk.vget p
    .vregs [(p, ⟨BitVec.ofNat 262144 (overLow (n * w) old.data.toNat r.slots), BitVec.ofNat 32768 r.scale, r.tag, r.map⟩)]

/-- The value an inactive slot takes (R109): zero under ZM or in a queue, the old destination slot otherwise. -/
def State.inactive (s : State) (d : BitVec 8) (zm : Bool) (w slot : Nat) : Nat :=
  if zm || isQ d then 0 else slotOf (s.vreg d).data.toNat w slot

/-- The landing of `G` slots at the shape in force. -/
def deliverShape (d : BitVec 8) (w shadow : Nat) (r : Result) : M Issue := do
  let s ← M.look id
  pure (.after shadow [s.deliver d s.view.shape.slots w r])

/-- A zero-filled entry with a LOST map, as a guarded-off instruction pushes (R30); nothing for a register. -/
def zeroPush (d : BitVec 8) (w shadow : Nat) : M Issue := do
  let s ← M.look id
  if isQ d then pure (.after shadow [s.deliver d s.view.shape.slots w ⟨0, 0, none, .lost⟩]) else pure .none

/-- Pop and discard every queue that source fields name, at the widths given (R30). -/
def discard : List (BitVec 8 × Option Nat) → M Unit
  | [] => pure ()
  | (x, w) :: r => do
    if isQ x then
      let _ ← readSrc x w
      discard r
    else discard r

/-- The traffic of a guarded-off instruction with operand queues alone (R30). -/
def offQueues (srcs : List (BitVec 8 × Option Nat)) (d : BitVec 8) (w shadow : Nat) : M Issue := do
  discard srcs
  zeroPush d w shadow

/-- Room in q15 for `n` entries, or wait (R32). -/
def awaitWords (n : Nat) : M Unit := do
  let w ← M.look State.wk
  let pending := w.q15.length + n
  M.await (decide (pending ≤ Config.wordCap))

/-! ## Slot by slot -/

/-- Turn a per-slot error into the trap of that slot (R7). -/
def slotTrap {α : Type} (s : Nat) (r : Except Nat α) : Except Stop α :=
  match r with
  | .ok a => .ok a
  | .error c => .error (.trap ⟨c, 0, 0, some s⟩)

/-- Values of all slots: active ones computed in ascending order, the first fault reported (R7, R109). -/
def eachSlot (n : Nat) (mask : Option Nat) (f : Nat → Except Stop Nat) (off : Nat → Nat) : M (List Nat) :=
  M.lift (listM (fun i => if activeIn mask i then f i else .ok (off i)) (upFrom 0 n))

/-- The stochastic number of a slot under RM 5 (R71); 0 in the other modes. -/
def stoch (w : Worker) (key : Word) (m : CMap) (rm slot : Nat) : Except Nat Nat :=
  if rm = 5 then
    match readCoord w m slot with
    | .ok c => .ok (mix key c.ixl)
    | .error x => .error x
  else .ok 0

/-- A source slot as a float of a type (R14, R108): bits after FTZ, an immediate exactly, a coordinate rounded once. -/
def floatOf (w : Worker) (x : Src) (m : CMap) (fmt rm : Nat) (ftz : Bool) (n slot : Nat) : Except Nat XReal :=
  match x with
  | .imm i => .ok (.ofInt i)
  | .coord k =>
    match readCoord w m slot with
    | .ok c => .ok (readNum fmt false (convTo fmt rm false false n (.ofInt (c.get k))).bits)
    | .error e => .error e
  | _ => .ok (readNum fmt ftz (x.slot (fmtWidth fmt) slot))

/-- A source slot as an integer's container bits (R14, R108): a coordinate is clamped under SAT or cut. -/
def intOf (w : Worker) (x : Src) (m : CMap) (sgn sat : Bool) (width slot : Nat) : Except Nat Nat :=
  match x with
  | .coord k =>
    match readCoord w m slot with
    | .ok c =>
      let i := c.get k
      let r := intRange sgn width
      .ok (wrap width (if sat then clampInt r.1 r.2 i else i))
    | .error e => .error e
  | _ => .ok (x.slot width slot)

end Sys2Proof.Machine
end

