-- ==== Sys2Proof/Machine/Trans.lean ====
section
/-! DEFINITION. The transcendental functions of R110, R113 and R245 to some 480 bits, cut down, with the mark that the
exact value lies above the cut. One rounding follows. That no f32, bf16 or f16 argument has a value within the series'
error of a rounding boundary is DEDUCED (log 7). -/
namespace Sys2Proof.Machine.Trans

/-- Fraction bits of the working form. -/
def frac : Nat := 544

/-- ln 2 with 544 fraction bits, cut. -/
def ln2 : Nat := 0xb17217f7d1cf79abc9e3b39803f2f6af40f343267298b62d8a0d175b8baafa2be7b876206debac98559552fb4afa1b10ed2eae35c138214427573b291169b8253e96ca16

/-- π/2 with 832 fraction bits, cut. -/
def halfPi : Nat := 0x1921fb54442d18469898cc51701b839a252049c1114cf98e804177d4c76273644a29410f31c6809bbdf2a33679a748636605614dbe4be286e9fc26adadaa3848bc90b6aecc4bcfd8de89885d34c6fdad617feb96de80d6fdbdc70d7f6b5133f4b5d3e4822f8963fcc

/-- Sum of r^j/j! from term `k` on. -/
def expSeries (r : Nat) : Nat → Nat → Nat → Nat
  | 0, _, _ => 0
  | n + 1, k, t => t + expSeries r n (k + 1) ((t * r) >>> frac / (k + 1))

/-- e^r for 0 ≤ r < 1. -/
def expFrac (r : Nat) : Nat := expSeries r 112 0 (2 ^ frac)

/-- A finite value in units of 2^-frac, cut toward −∞. -/
def fixed (neg : Bool) (m : Nat) (e : Int) : Int :=
  let k := e + frac
  let u : Nat := if 0 ≤ k then m <<< k.toNat else m >>> (-k).toNat
  if neg then -(u : Int) else u

/-- A positive fixed-point value as an exact value with the mark below, times 2^k. -/
def done (v : Nat) (k : Int) : XReal := .fin false (v >>> 64) (k - 480) true

/-- e^x for a nonzero finite x, exponents held within ±4096. -/
def expOf (neg : Bool) (m : Nat) (e : Int) : XReal :=
  let big := decide (13 < (bitLen m : Int) + e)
  if big then done (2 ^ frac) (if neg then -8000 else 8000)
  else
    let x := fixed neg m e
    let n := x / (ln2 : Int)
    done (expFrac (x - n * ln2).toNat) n

/-- e^x (R245): exp(−∞) = +0 and exp(0) = 1 exactly. -/
def exp : XReal → XReal
  | .nan => .nan
  | .inf n => if n then .fin false 0 0 false else .inf false
  | .fin n m e _ => if m = 0 then .fin false 1 0 false else expOf n m e

/-- 2^x (R110); exact for an integer x. -/
def exp2 : XReal → XReal
  | .nan => .nan
  | .inf n => if n then .fin false 0 0 false else .inf false
  | .fin neg m e _ =>
    if m = 0 then .fin false 1 0 false
    else if 13 < (bitLen m : Int) + e then done (2 ^ frac) (if neg then -8000 else 8000)
    else
      let x := fixed neg m e
      let n := x / (2 ^ frac : Nat)
      let f := (x % (2 ^ frac : Nat)).toNat
      if f = 0 then .fin false 1 n false
      else done (expFrac ((f * ln2) >>> frac)) n

/-- Sum of z^(2j+1)/(2j+1) from the term with power `t` on. -/
def atanhSeries (z2 : Nat) : Nat → Nat → Nat → Nat
  | 0, _, _ => 0
  | n + 1, k, t => t / (2 * k + 1) + atanhSeries z2 n (k + 1) ((t * z2) >>> frac)

/-- ln y for 1 ≤ y < 2. -/
def lnFrac (y : Nat) : Nat :=
  let z := ((y - 2 ^ frac) <<< frac) / (y + 2 ^ frac)
  2 * atanhSeries ((z * z) >>> frac) 176 0 z

/-- log2 x (R110); exact for a power of two. -/
def log2 : XReal → XReal
  | .nan => .nan
  | .inf n => if n then .nan else .inf false
  | .fin neg m e _ =>
    if m = 0 then .inf true
    else if neg then .nan
    else
      let k := bitLen m - 1
      if m = 2 ^ k then .ofInt (k + e)
      else
        let y := (m <<< frac) >>> k
        let v : Int := (k + e) * (2 ^ frac : Nat) + ((lnFrac y <<< frac) / ln2 : Nat)
        .fin (decide (v < 0)) (v.natAbs >>> 64) (-480) true

/-- tanh x (R110). -/
def tanh : XReal → XReal
  | .nan => .nan
  | .inf n => .fin n 1 0 false
  | .fin n m e _ =>
    if m = 0 then .fin n 0 0 false
    else if 7 < (bitLen m : Int) + e then .fin n (2 ^ 480 - 1) (-480) true
    else
      let x := fixed false m (e + 1)
      let k := x / (ln2 : Int)
      let ex := expFrac (x - k * ln2).toNat <<< k.toNat
      .fin n ((((ex - 2 ^ frac) <<< frac) / (ex + 2 ^ frac)) >>> 64) (-480) true

/-- Alternating series of sine (from k = 1, t = r) or cosine (from k = 0, t = 1): the terms of even and of odd place. -/
def altSeries (r2 : Nat) : Nat → Nat → Nat → Nat × Nat
  | 0, _, _ => (0, 0)
  | n + 1, k, t =>
    let rest := altSeries r2 n (k + 2) (((t * r2) >>> frac) / ((k + 1) * (k + 2)))
    (t + rest.2, rest.1)

/-- sin r for 0 ≤ r < π/2. -/
def sinFrac (r : Nat) : Nat :=
  let p := altSeries ((r * r) >>> frac) 72 1 r
  p.1 - p.2

/-- cos r for 0 ≤ r < π/2. -/
def cosFrac (r : Nat) : Nat :=
  let p := altSeries ((r * r) >>> frac) 72 0 (2 ^ frac)
  p.1 - p.2

/-- Quadrant and remainder of a positive finite value in units of 2^-frac. -/
def reduce (m : Nat) (e : Int) : Nat × Nat :=
  let k := e + 832
  let x : Nat := if 0 ≤ k then m <<< k.toNat else m >>> (-k).toNat
  ((x / halfPi) % 4, (x % halfPi) >>> 288)

/-- sin x (R110, R113). -/
def sin : XReal → XReal
  | .nan => .nan
  | .inf _ => .nan
  | .fin n m e _ =>
    if m = 0 then .fin n 0 0 false
    else
      let q := reduce m e
      let v := if q.1 % 2 = 0 then sinFrac q.2 else cosFrac q.2
      .fin (n != decide (2 ≤ q.1)) (v >>> 64) (-480) true

/-- cos x (R110, R113). -/
def cos : XReal → XReal
  | .nan => .nan
  | .inf _ => .nan
  | .fin _ m e _ =>
    if m = 0 then .fin false 1 0 false
    else
      let q := reduce m e
      let v := if q.1 % 2 = 0 then cosFrac q.2 else sinFrac q.2
      .fin (q.1 == 1 || q.1 == 2) (v >>> 64) (-480) true

end Sys2Proof.Machine.Trans
end

