-- ==== Sys2Proof/Machine/Lane.lean ====
section
/-! DEFINITION. V's lane arithmetic: the shared reading of sources, masks and maps (R108, R109), and the float and integer
groups (R110 to R115). -/
namespace Sys2Proof.Machine

/-! ## Shared operations -/

/-- Sources of a lane instruction and the map its result copies. -/
structure Lane where
  a : Src
  b : Src
  c : Src
  map : CMap
  deriving DecidableEq, Repr

/-- A field that an instruction neither reads nor takes a map from. -/
def Src.none : Src := .imm 0

/-- Read field `i` of a lane instruction with `n` data operands at a width: data, a map only, or nothing (R108). -/
def laneSrc (n ms w i : Nat) (x : BitVec 8) : M Src :=
  if i < n then readSrc x (some w)
  else if i = ms then readSrc x none
  else pure .none

/-- Read the sources in field order A, B, C. -/
def readLane (f : E64) (n w : Nat) : M Lane := do
  let a ← laneSrc n f.ms w 0 f.a8
  let b ← laneSrc n f.ms w 1 f.b8
  let c ← laneSrc n f.ms w 2 f.c8
  pure ⟨a, b, c, (match f.ms with
    | 0 => a
    | 1 => b
    | _ => c).map⟩

/-- Fields of a lane instruction that a guarded-off one still pops. -/
def laneOff (f : E64) (n w : Nat) : List (BitVec 8 × Option Nat) :=
  let x := fun (i : Nat) (c : BitVec 8) => if i < n then [(c, some w)] else if i = f.ms then [(c, (none : Option Nat))] else []
  x 0 f.a8 ++ x 1 f.b8 ++ x 2 f.c8

/-- Steps 7 and 8 of R59 for a lane instruction: the own-companion rule for its destination, and the width. -/
def laneChecks (f : E64) (dests : List (BitVec 8)) (w : Nat) : M Unit := do
  let m ← peekMap [f.a8, f.b8, f.c8] f.ms
  M.each (fun d => ownCompanion d m) dests
  let v ← M.look State.view
  M.legal (v.shape.fits w)

/-- Bits of every slot: active ones by `slot`, the others as R109 says. -/
def laneSlots (f : E64) (d : BitVec 8) (w : Nat) (slot : State → Nat → Except Nat Nat) : M Nat := do
  let s ← M.look id
  let l ← eachSlot s.view.shape.slots (s.maskOf f.lo3) (fun i => slotTrap i (slot s i)) (fun i => s.inactive d f.zm w i)
  pure (packSlots w l)

/-- Run a lane instruction of `n` operands at width `w`: one result per slot from the sources, with a copy of the map. -/
def laneRun (f : E64) (n w shadow : Nat) (slot : State → Lane → Nat → Except Nat Nat) (s : State) :
    Host.Outcome State Fault Refusal :=
  runE64 .V f
    (do laneChecks f [f.d8] w
        let x ← readLane f n w
        let r ← laneSlots f f.d8 w fun s i => slot s x i
        deliverShape f.d8 w shadow ⟨r, 0, none, x.map⟩)
    (offQueues (laneOff f n w) f.d8 w shadow) s

/-! ## Float group (R110 to R113) -/

/-- The format that TY names in the float layout: f32, bf16, f16. -/
def tyFmt (f : E64) : Nat := f.top2

/-- A float lane instruction: exact inputs, one rounding into TY (R110). -/
def floatRun (f : E64) (n shadow : Nat) (op : XReal → XReal → XReal → XReal) (s : State) : Host.Outcome State Fault Refusal :=
  let fmt := tyFmt f
  let rm := f.mid3
  laneRun f n (fmtWidth fmt) shadow
    (fun s x i => do
      let ftz := s.view.ftz
      let k ← stoch s.wk s.view.nkey.c0 x.map rm i
      let a ← floatOf s.wk x.a x.map fmt rm ftz k i
      let b ← floatOf s.wk x.b x.map fmt rm ftz k i
      let c ← floatOf s.wk x.c x.map fmt rm ftz k i
      pure (convTo fmt rm false ftz k (op a b c)).bits) s

/-- A source slot as bits of a float type: a coordinate or immediate is converted (R108). -/
def floatBits (w : Worker) (x : Src) (m : CMap) (key : Word) (fmt rm n : Nat) : Except Nat Nat :=
  match x with
  | .slots d _ _ _ => .ok (slotOf d (fmtWidth fmt) n)
  | .bcast v => .ok (v % 2 ^ fmtWidth fmt)
  | .imm i => .ok (convTo fmt 0 false false 0 (.ofInt i)).bits
  | .coord k =>
    match readCoord w m n with
    | .ok c => .ok (convTo fmt rm false false (if rm = 5 then mix key c.ixl else 0) (.ofInt (c.get k))).bits
    | .error e => .error e

/-- A float lane instruction that delivers bits of its inputs (R111); RM bears only on coordinate operands. -/
def bitsRun (f : E64) (n : Nat) (op : Bool → Nat → Nat → Nat) (s : State) : Host.Outcome State Fault Refusal :=
  let fmt := tyFmt f
  laneRun f n (fmtWidth fmt) 2
    (fun s x i => do
      let a ← floatBits s.wk x.a x.map s.view.nkey.c0 fmt f.mid3 i
      let b ← floatBits s.wk x.b x.map s.view.nkey.c0 fmt f.mid3 i
      pure (op s.view.ftz a b)) s

/-- An exact change of sign bits under FTZ; NaN becomes canonical (R111). -/
def signOp (fmt : Nat) (g : XReal → XReal) (ftz : Bool) (a : Nat) : Nat := (convTo fmt 0 false ftz 0 (g (readNum fmt ftz a))).bits

/-- vadd (R110). -/
def execVadd (f : E64) (s : State) : Host.Outcome State Fault Refusal :=
  floatRun f 2 2 (fun a b _ => XReal.add (f.mid3 == 3) a b) s
/-- vsub (R110). -/
def execVsub (f : E64) (s : State) : Host.Outcome State Fault Refusal :=
  floatRun f 2 2 (fun a b _ => XReal.add (f.mid3 == 3) a b.neg) s
/-- vmul (R110). -/
def execVmul (f : E64) (s : State) : Host.Outcome State Fault Refusal := floatRun f 2 2 (fun a b _ => a.mul b) s
/-- vfma (R110, R112). -/
def execVfma (f : E64) (s : State) : Host.Outcome State Fault Refusal :=
  floatRun f 3 2 (fun a b c => XReal.add (f.mid3 == 3) (a.mul b) c) s
/-- vfms (R110, R112). -/
def execVfms (f : E64) (s : State) : Host.Outcome State Fault Refusal :=
  floatRun f 3 2 (fun a b c => XReal.add (f.mid3 == 3) (a.mul b) c.neg) s
/-- vfnma (R110, R112). -/
def execVfnma (f : E64) (s : State) : Host.Outcome State Fault Refusal :=
  floatRun f 3 2 (fun a b c => XReal.add (f.mid3 == 3) c (a.mul b).neg) s
/-- vmin (R111). -/
def execVmin (f : E64) (s : State) : Host.Outcome State Fault Refusal :=
  bitsRun f 2 (fun ftz a b => minMaxBits (tyFmt f) ftz false a b) s
/-- vmax (R111). -/
def execVmax (f : E64) (s : State) : Host.Outcome State Fault Refusal :=
  bitsRun f 2 (fun ftz a b => minMaxBits (tyFmt f) ftz true a b) s
/-- vabs (R111). -/
def execVabs (f : E64) (s : State) : Host.Outcome State Fault Refusal :=
  bitsRun f 1 (fun ftz a _ => signOp (tyFmt f) XReal.abs ftz a) s
/-- vneg (R111). -/
def execVneg (f : E64) (s : State) : Host.Outcome State Fault Refusal :=
  bitsRun f 1 (fun ftz a _ => signOp (tyFmt f) XReal.neg ftz a) s
/-- vdiv (R110). -/
def execVdiv (f : E64) (s : State) : Host.Outcome State Fault Refusal := floatRun f 2 4 (fun a b _ => a.div b) s
/-- vsqrt (R110). -/
def execVsqrt (f : E64) (s : State) : Host.Outcome State Fault Refusal := floatRun f 1 4 (fun a _ _ => a.sqrt) s
/-- vrcp (R110). -/
def execVrcp (f : E64) (s : State) : Host.Outcome State Fault Refusal :=
  floatRun f 1 4 (fun a _ _ => (XReal.ofInt 1).div a) s
/-- vrsq (R110). -/
def execVrsq (f : E64) (s : State) : Host.Outcome State Fault Refusal := floatRun f 1 4 (fun a _ _ => a.rsqrt) s
/-- vexp2 (R110). -/
def execVexp2 (f : E64) (s : State) : Host.Outcome State Fault Refusal := floatRun f 1 4 (fun a _ _ => Trans.exp2 a) s
/-- vlog2 (R110). -/
def execVlog2 (f : E64) (s : State) : Host.Outcome State Fault Refusal := floatRun f 1 4 (fun a _ _ => Trans.log2 a) s
/-- vtanh (R110). -/
def execVtanh (f : E64) (s : State) : Host.Outcome State Fault Refusal := floatRun f 1 4 (fun a _ _ => Trans.tanh a) s

/-- vsincos (R113): sin a into vD and cos a into v(D + 1), landing together. -/
def execVsincos (f : E64) (s : State) : Host.Outcome State Fault Refusal :=
  let fmt := tyFmt f
  let w := fmtWidth fmt
  let half := fun (op : XReal → XReal) (x : Lane) (s : State) (i : Nat) => do
    let k ← stoch s.wk s.view.nkey.c0 x.map f.mid3 i
    let a ← floatOf s.wk x.a x.map fmt f.mid3 s.view.ftz k i
    pure (convTo fmt f.mid3 false s.view.ftz k (op a)).bits
  runE64 .V f
    (do laneChecks f [f.d8, f.d8 + 1] w
        let x ← readLane f 1 w
        let r0 ← laneSlots f f.d8 w (half Trans.sin x)
        let r1 ← laneSlots f (f.d8 + 1) w (half Trans.cos x)
        let i0 ← deliverShape f.d8 w 4 ⟨r0, 0, none, x.map⟩
        let i1 ← deliverShape (f.d8 + 1) w 4 ⟨r1, 0, none, x.map⟩
        let regs := (i0.acts ++ i1.acts).flatMap fun a => match a with
          | .vregs l => l
          | _ => []
        pure (.after 4 [.vregs regs]))
    (offQueues (laneOff f 1 w) f.d8 w 4) s

/-! ## Integer group (R115) -/

/-- Width that TY names in the integer layout. -/
def tyWidth (ty : Nat) : Nat :=
  match ty with
  | 0 => 32
  | 1 => 16
  | 2 => 8
  | _ => 64

/-- An integer lane instruction: the operands read as UNS says, the exact result clamped under SAT and cut to the width. -/
def intRun (f : E64) (n : Nat) (op : Nat → Int → Int → Int) (s : State) : Host.Outcome State Fault Refusal :=
  let w := tyWidth f.top2
  let sgn := !f.modBit 8
  let sat := f.modBit 7
  laneRun f n w 2
    (fun s x i => do
      let a ← intOf s.wk x.a x.map sgn sat w i
      let b ← intOf s.wk x.b x.map sgn sat w i
      let r := op w (readInt sgn w a) (readInt sgn w b)
      let lim := intRange sgn w
      pure (wrap w (if sat then clampInt lim.1 lim.2 r else r))) s

/-- A bitwise operation on the containers as unsigned numbers. -/
def onBits (g : Nat → Nat → Nat) (w : Nat) (a b : Int) : Int := ((g (wrap w a) (wrap w b) : Nat) : Int)

/-- viadd (R115). -/
def execViadd (f : E64) (s : State) : Host.Outcome State Fault Refusal := intRun f 2 (fun _ a b => a + b) s
/-- visub (R115). -/
def execVisub (f : E64) (s : State) : Host.Outcome State Fault Refusal := intRun f 2 (fun _ a b => a - b) s
/-- vimul (R115). -/
def execVimul (f : E64) (s : State) : Host.Outcome State Fault Refusal := intRun f 2 (fun _ a b => a * b) s
/-- vimulh (R115): the high half of the double-width product. -/
def execVimulh (f : E64) (s : State) : Host.Outcome State Fault Refusal :=
  intRun f 2 (fun w a b => a * b / (2 ^ w : Nat)) s
/-- viand (R115). -/
def execViand (f : E64) (s : State) : Host.Outcome State Fault Refusal := intRun f 2 (onBits fun a b => a &&& b) s
/-- vior (R115). -/
def execVior (f : E64) (s : State) : Host.Outcome State Fault Refusal := intRun f 2 (onBits fun a b => a ||| b) s
/-- vixor (R115). -/
def execVixor (f : E64) (s : State) : Host.Outcome State Fault Refusal := intRun f 2 (onBits fun a b => a ^^^ b) s
/-- vishl (R115): by b mod w. -/
def execVishl (f : E64) (s : State) : Host.Outcome State Fault Refusal :=
  intRun f 2 (fun w => onBits (fun a b => a <<< (b % w)) w) s
/-- vishr (R115): logical, by b mod w. -/
def execVishr (f : E64) (s : State) : Host.Outcome State Fault Refusal :=
  intRun f 2 (fun w => onBits (fun a b => a >>> (b % w)) w) s
/-- visra (R115): arithmetic, by b mod w. -/
def execVisra (f : E64) (s : State) : Host.Outcome State Fault Refusal :=
  intRun f 2 (fun w a b => a / (2 ^ (wrap w b % w) : Nat)) s
/-- vimin (R115). -/
def execVimin (f : E64) (s : State) : Host.Outcome State Fault Refusal := intRun f 2 (fun _ a b => min a b) s
/-- vimax (R115). -/
def execVimax (f : E64) (s : State) : Host.Outcome State Fault Refusal := intRun f 2 (fun _ a b => max a b) s
/-- vipopc (R115). -/
def execVipopc (f : E64) (s : State) : Host.Outcome State Fault Refusal :=
  intRun f 1 (fun w a _ => ((popcount w (wrap w a) : Nat) : Int)) s

end Sys2Proof.Machine
end

