-- ==== Sys2Proof/Machine/Quant.lean ====
section
/-! DEFINITION. Block and codebook data: reading elements (R74, R76) and the quantiser (R77). -/
namespace Sys2Proof.Machine

/-- Elements of one code of a codebook format: 1, 2 or 4 (R76). -/
def vecLen (fmt : Nat) : Nat :=
  match fmt with
  | 19 => 2
  | 20 => 4
  | _ => 1

/-- Signed mantissa of a kb container (R74): kb12's top bits are ignored. -/
def kbMant (fmt v : Nat) : Int := signed (kbBits fmt) v

/-- Exact value of a kb element (R74). -/
def kbValue (fmt sb v : Nat) : XReal :=
  if sb = 255 then .nan
  else
    let m := kbMant fmt v
    .fin (decide (m < 0)) m.natAbs ((sb : Int) - 127 - ((kbBits fmt : Int) - 2)) false

/-- The bf16 elements of a bank entry (R76). -/
def entryElems (fmt : Nat) (x : Word) : List XReal :=
  (upFrom 0 (vecLen fmt)).map fun k => readNum 1 false (bits x.toNat (16 * k) 16)

/-- Front copy of a bank: its entries and valid count (R188). -/
def Bank.copy (b : Bank) : Tab Word × Nat := if b.front then (b.copy1, b.count1) else (b.copy0, b.count0)

/-- Exact values of a code (R76): NaN in a NaN block, and cause 0x05 for a code at or above the count. -/
def codeValues (fmt sb c : Nat) (b : Tab Word × Nat) : Except Nat (List XReal) :=
  if sb = 255 then .ok ((upFrom 0 (vecLen fmt)).map fun _ => .nan)
  else if b.2 ≤ c then .error 0x05
  else .ok ((entryElems fmt (tabGet 0 b.1 c)).map (XReal.scale ((sb : Int) - 127)))

/-- Exact values of one container of a block or codebook format. -/
def blockValues (fmt sb c : Nat) (b : Tab Word × Nat) : Except Nat (List XReal) :=
  if isKb fmt then .ok [kbValue fmt sb c] else codeValues fmt sb c b

/-- floor(log2 |x|) of a finite nonzero value. -/
def floorLog2 : XReal → Int
  | .fin _ m e _ => (bitLen m : Int) - 1 + e
  | _ => 0

/-- The larger of two magnitudes. -/
def maxMag (a b : XReal) : XReal := if a.abs.cmp b.abs = some .lt then b.abs else a.abs

/-- Largest magnitude of a list; zero for none. -/
def maxMags (l : List XReal) : XReal := l.foldl maxMag (.fin false 0 0 false)

/-- Whether a finite value is zero. -/
def XReal.isZero : XReal → Bool
  | .fin _ m _ _ => m == 0
  | _ => false

/-- Usable entries of a bank for a format: those below the count, and below the codes that the format's container can hold
(R76), whose elements are all finite (R77). -/
def usable (fmt : Nat) (b : Tab Word × Nat) : List (Nat × List XReal) :=
  ((upFrom 0 (min b.2 (2 ^ fmtWidth fmt))).map fun c => (c, entryElems fmt (tabGet 0 b.1 c))).filter fun e => e.2.all XReal.isFin

/-- Squared distance of two vectors, exact. -/
def dist2 : List XReal → List XReal → XReal
  | x :: l, y :: r =>
    let d := XReal.add false x y.neg
    XReal.add false (d.mul d) (dist2 l r)
  | _, _ => .fin false 0 0 false

/-- The usable entry nearest to a vector; ties go to the lower code (R77). -/
def nearest (y : List XReal) : List (Nat × List XReal) → Option (Nat × XReal)
  | [] => none
  | e :: r =>
    let d := dist2 y e.2
    match nearest y r with
    | none => some (e.1, d)
    | some (c, d') => if d'.cmp d = some .lt then some (c, d') else some (e.1, d)

/-- A quantised block: scale byte, codes, whether it saturated. -/
structure QBlock where
  sb : Nat
  codes : List Nat
  sat : Bool
  deriving DecidableEq, Repr

/-- `encode` for mantissas of `w` bits (R77), unclamped. -/
def kbEncode (w rm n : Nat) (y : XReal) : Int :=
  match y.scale ((w : Int) - 2) with
  | .fin neg m e low =>
    let k := roundMag rm neg low m e 0 n
    if neg then -(k : Int) else k
  | _ => 0

/-- A block with its mantissas as numbers. -/
structure KBlock where
  sb : Nat
  mants : List Int
  sat : Bool
  deriving DecidableEq, Repr

/-- The loop of R77 for mantissas of `w` bits: `fuel` retries left, exponent `e`. -/
def kbLoop (w rm : Nat) (xs : List (XReal × Nat)) : Nat → Int → KBlock
  | fuel, e =>
    let r := intRange true w
    let enc := fun (e : Int) => xs.map fun x => kbEncode w rm x.2 (x.1.scale (-e))
    let clamped := fun (e : Int) => (⟨(e + 127).toNat, (enc e).map (clampInt r.1 r.2), true⟩ : KBlock)
    if 127 < e then clamped 127
    else if (enc e).all fun m => decide (r.1 ≤ m ∧ m ≤ r.2) then ⟨(e + 127).toNat, enc e, false⟩
    else
      match fuel with
      | 0 => clamped e
      | k + 1 => kbLoop w rm xs k (e + 1)

/-- The quantiser of R77 for a kb block with mantissas of `w` bits; each element with its stochastic number. -/
def kbQuantise (w rm : Nat) (xs : List (XReal × Nat)) : KBlock :=
  let zeros := xs.map fun _ => (0 : Int)
  let amax := maxMags (xs.map Prod.fst)
  if xs.any fun x => x.1.isNan then ⟨255, zeros, false⟩
  else if xs.any fun x => !x.1.isFin then ⟨255, zeros, true⟩
  else if amax.isZero then ⟨0, zeros, false⟩
  else kbLoop w rm xs 3 (max (floorLog2 amax) (-127))

/-- The loop of R77 for a codebook block. -/
def cbLoop (ent : List (Nat × List XReal)) (emax : XReal) (xs : List (List XReal)) : Nat → Int → QBlock
  | fuel, e =>
    let code := fun (e : Int) => xs.map fun y =>
      match nearest (y.map (XReal.scale (-e))) ent with
      | some (c, _) => c
      | none => 0
    let clamped := fun (e : Int) => (⟨(e + 127).toNat, code e, true⟩ : QBlock)
    if 127 < e then clamped 127
    else if xs.all fun y => y.all fun x => (x.scale (-e)).abs.cmp emax != some .gt then ⟨(e + 127).toNat, code e, false⟩
    else
      match fuel with
      | 0 => clamped e
      | k + 1 => cbLoop ent emax xs k (e + 1)

/-- The quantiser of R77 on one block of codes: each code's elements, its stochastic number (kb only), and the bank. Cause
0x05 where the block consults a bank without a usable entry. A kb12 mantissa fills its container with copies of its sign. -/
def quantise (fmt rm : Nat) (b : Tab Word × Nat) (xs : List (List XReal × Nat)) : Except Nat QBlock :=
  let all := xs.flatMap Prod.fst
  let bad : Bool → QBlock := fun sat => ⟨255, xs.map fun _ => 0, sat⟩
  if isKb fmt then
    let k := kbQuantise (kbBits fmt) rm (xs.map fun x => (nth .nan x.1 0, x.2))
    .ok ⟨k.sb, k.mants.map (wrap (fmtWidth fmt)), k.sat⟩
  else if all.any XReal.isNan then .ok (bad false)
  else if all.any fun x => !x.isFin then .ok (bad true)
  else
    let amax := maxMags all
    let ent := usable fmt b
    let emax := maxMags (ent.flatMap Prod.snd)
    if emax.isZero then .error 0x05
    else if amax.isZero then
      let z := match nearest ((upFrom 0 (vecLen fmt)).map fun _ => .fin false 0 0 false) ent with
        | some (c, _) => c
        | none => 0
      .ok ⟨0, xs.map fun _ => z, false⟩
    else .ok (cbLoop ent emax (xs.map Prod.fst) 3 (max (floorLog2 amax - floorLog2 emax) (-127)))

/-- Cut a list into pieces of `n`. -/
def chunks {α : Type} (n : Nat) : Nat → List α → List (List α)
  | 0, _ => []
  | k + 1, l => l.take n :: chunks n k (l.drop n)

end Sys2Proof.Machine
end

