-- ==== Sys2Proof/Machine/Convert.lean ====
section
/-! DEFINITION. Conversions between formats, the quantiser's instruction and the decoding of block and codebook data
(R118 to R120). -/
namespace Sys2Proof.Machine

/-- The bank code in a field, as its front copy stands (R188). -/
def Worker.front (w : Worker) (b : Nat) : Tab Word × Nat := (w.bank b).copy

/-- SAT in force for a destination format (R72). -/
def satFor (own e4m3sat : Bool) : Bool := own || e4m3sat

/-! ## vcvt (R118) -/

/-- Destination and source formats of `vcvt`, and whether both are among those it accepts. -/
def cvtFmt (c : Nat) : Bool := (floatFmt c).isSome || (intFmt c).isSome

/-- One slot of `vcvt`. -/
def cvtSlot (f : E64) (s : State) (x : Lane) (i : Nat) : Except Nat Nat := do
  let df := f.fmt5.toNat
  let sf := bits f.c8.toNat 0 5
  let rm := f.lo3
  let v := s.view
  match intFmt sf with
  | some (sgn, w) =>
    let n ← intOf s.wk x.a x.map sgn false w i
    match intFmt df with
    | some (dsgn, dw) =>
      let r := intRange dsgn dw
      let y := readInt sgn w n
      pure (wrap dw (if f.zm then clampInt r.1 r.2 y else y))
    | none =>
      let k ← stoch s.wk v.nkey.c0 x.map rm i
      pure (convTo df rm (satFor f.zm v.e4m3sat) v.ftz k (.ofInt (readInt sgn w n))).bits
  | none =>
    let k ← stoch s.wk v.nkey.c0 x.map rm i
    let y ← floatOf s.wk x.a x.map sf rm v.ftz k i
    pure (convTo df rm (satFor f.zm v.e4m3sat) v.ftz k y).bits

/-- vcvt (R118): every slot is active. -/
def execVcvt (f : E64) (s : State) : Host.Outcome State Fault Refusal :=
  let df := f.fmt5.toNat
  let sf := bits f.c8.toNat 0 5
  runE64 .V f
    (do let m ← peekMap [f.a8, f.b8, 0] f.ms
        ownCompanion f.d8 m
        let v ← M.look State.view
        M.legal (cvtFmt df && cvtFmt sf && v.shape.fits (max (fmtWidth df) (fmtWidth sf)) && (!isCoord f.a8 || sf == 7))
        let a ← readSrc f.a8 (some (fmtWidth sf))
        let b ← if f.ms = 1 then readSrc f.b8 none else pure .none
        let s ← M.look id
        let x : Lane := ⟨a, b, .none, if f.ms = 1 then b.map else a.map⟩
        let l ← eachSlot s.view.shape.slots none (fun i => slotTrap i (cvtSlot f s x i)) (fun _ => 0)
        deliverShape f.d8 (fmtWidth df) 2 ⟨packSlots (fmtWidth df) l, 0, none, x.map⟩)
    (offQueues ([(f.a8, some (fmtWidth sf))] ++ (if f.ms = 1 then [(f.b8, none)] else [])) f.d8 (fmtWidth df) 2) s

/-! ## vqnt (R119) -/

/-- Block length behind an LB code. -/
def lbLen (c : Nat) : Nat := 16 <<< c

/-- Source slot `i` of `vqnt` and its stochastic number: a codebook's quantising uses none, so that its map is not read unless a
coordinate is converted (R77, log 48). -/
def qntSlot (rm sf df : Nat) (s : State) (a : Src) (i : Nat) : Except Nat (XReal × Nat) := do
  let c := match a with
    | .coord _ => true
    | _ => false
  let k ← if isKb df || c then stoch s.wk s.view.nkey.c0 a.map rm i else pure 0
  let x ← floatOf s.wk a a.map sf rm s.view.ftz k i
  pure (x, k)

/-- Block `b` of `vqnt`: `n` elements per code, `len` codes. -/
def qntBlock (rm sf df len : Nat) (bank : Tab Word × Nat) (s : State) (a : Src) (b : Nat) : Except Stop QBlock := do
  let n := vecLen df
  let first := b * len * n
  let l ← listM (fun i => slotTrap i (qntSlot rm sf df s a i)) (upFrom first (len * n))
  let codes := (chunks n len l).map fun c => (c.map Prod.fst, (nth (XReal.nan, 0) c 0).2)
  slotTrap first (quantise df rm bank codes)

/-- vqnt (R77, R78, R119). A queue entry of vq2 or vq4 codes has G slots, those behind the codes zero (log 48). -/
def execVqnt (f : E64) (s : State) : Host.Outcome State Fault Refusal :=
  let df := f.fmt5.toNat
  let sf := bits f.c8.toNat 0 5
  let len := lbLen (bits f.c8.toNat 5 2)
  let n := vecLen df
  let w := fmtWidth df
  runE64 .V f
    (do let v ← M.look State.view
        let g := v.shape.slots
        if n = 1 then do
          let m ← peekMap [f.a8, 0, 0] 0
          ownCompanion f.d8 m
        else pure ()
        M.legal (isBlock df && ftzFmt sf && v.shape.fits (max w (fmtWidth sf)) && g % (n * len) == 0)
        let a ← readSrc f.a8 (some (fmtWidth sf))
        let s ← M.look id
        let blocks ← M.lift (listM (qntBlock f.lo3 sf df len (s.wk.front f.b8.toNat) s a) (upFrom 0 (g / (n * len))))
        let codes := packSlots w (blocks.flatMap QBlock.codes)
        let r : Result := ⟨codes, packSlots 8 (blocks.map QBlock.sb), some ⟨df, len⟩, if n = 1 then a.map else .lost⟩
        let sats := (blocks.filter QBlock.sat).length
        pure (.after 3 [s.deliver f.d8 (if isQ f.d8 then g else g / n) w r, .qsat sats]))
    (offQueues [(f.a8, some (fmtWidth sf))] f.d8 w 3) s

/-! ## vdq (R120) -/

/-- Source format of `vdq`. -/
def dqFmt (c : Nat) : Nat := if c < 4 then 17 + c else 9 + c

/-- One code slot of `vdq`: its exact elements rounded, the k-th for slot n·j + k. The codes go in order, a code's index before
the coordinates that RM 5 reads for its slots: the first fault met in that order is the one reported (log 62). -/
def dqSlot (f : E64) (sf len : Nat) (bank : Tab Word × Nat) (s : State) (a : Src) (m : CMap) (j : Nat) :
    Except Stop (List Nat) := do
  let n := vecLen sf
  let v := s.view
  let l ← slotTrap j (blockValues sf (slotOf a.scale 8 (j / len)) (a.slot (fmtWidth sf) j) bank)
  listM (fun k => slotTrap (n * j + k) (do
    let r ← stoch s.wk v.nkey.c0 m f.lo3 (n * j + k)
    pure (convTo f.fmt5.toNat f.lo3 (satFor f.zm v.e4m3sat) v.ftz r (nth .nan l k)).bits)) (upFrom 0 n)

/-- vdq (R120). -/
def execVdq (f : E64) (s : State) : Host.Outcome State Fault Refusal :=
  let df := f.fmt5.toNat
  let sf := dqFmt (bits f.c8.toNat 4 4)
  let n := vecLen sf
  let w := fmtWidth df
  runE64 .V f
    (do if n = 1 then do
          let m ← peekMap [f.a8, f.b8, 0] f.ms
          ownCompanion f.d8 m
        else pure ()
        let v ← M.look State.view
        let g := v.shape.slots
        M.legal (ftzFmt df && v.shape.fits (max w (fmtWidth sf)))
        let a ← readSrc f.a8 (some (fmtWidth sf))
        let b ← if f.ms = 1 then readSrc f.b8 none else pure .none
        let len := match a.tag with
          | some t => t.len
          | none => 0
        M.legal (a.tag == some ⟨sf, len⟩ && len != 0 && g % (n * len) == 0)
        let m := if f.ms = 1 then b.map else a.map
        let s ← M.look id
        let l ← M.lift (listM (dqSlot f sf len (s.wk.front (bits f.c8.toNat 0 4)) s a m) (upFrom 0 (g / n)))
        deliverShape f.d8 w 2 ⟨packSlots w l.flatten, 0, none, if n = 1 then m else .lost⟩)
    (offQueues ([(f.a8, some (fmtWidth sf))] ++ (if f.ms = 1 then [(f.b8, none)] else [])) f.d8 w 2) s

end Sys2Proof.Machine
end

