-- ==== Sys2Proof/Machine/Flags.lean ====
section
/-! DEFINITION. The flags and counters of the machine's arithmetic: exact cells with their sticky flags (R79 to R81), their
readout and the tile counters (R82, R83), and tile descriptors as they are used (R183 to R186). -/
namespace Sys2Proof.Machine

/-! ## Cells -/

/-- Admit a term into a cell at an anchor (R80). -/
def admitTerm (anchor : Int) (t : XReal) (c : BitVec 256) : BitVec 256 :=
  let v := cellV c
  let fl := cellFlags c
  match t with
  | .nan => cellOf v (fl ||| 1)
  | .inf neg => cellOf v (fl ||| (if neg then 4 else 2))
  | .fin neg m e _ =>
    let y := roundMag 0 neg false m e anchor 0
    let fl := if (cutAt m e anchor).2.1 = 0 then fl else fl ||| 16
    if 2 ^ 200 ≤ y then cellOf v (fl ||| 8)
    else cellOf (v + wrap 240 (if neg then -(y : Int) else y)) fl

/-- What a cell reads as before conversion (R82). -/
def cellValue (anchor : Int) (c : BitVec 256) : XReal :=
  let fl := cellFlags c
  if bit fl 0 || (bit fl 1 && bit fl 2) then .nan
  else if bit fl 1 then .inf false
  else if bit fl 2 then .inf true
  else (XReal.ofInt (signed 240 (cellV c))).scale anchor

/-- A readout of a cell (R82): the converted value, and what it adds to the counters (R83). -/
def readCell (fmt rm : Nat) (sat ftz : Bool) (n : Nat) (anchor : Int) (c : BitVec 256) : Nat × Counts :=
  let r := convTo fmt rm sat ftz n (cellValue anchor c)
  let one := fun (b : Bool) => BitVec.ofNat 32 (ofBool b)
  let fl := cellFlags c
  (r.bits, ⟨one (r.kind == .nan), one (r.kind == .inf), one (bit fl 3), one (r.kind == .sat), one (bit fl 4)⟩)

/-- The sum of counter updates. -/
def sumCounts (l : List Counts) : Counts := l.foldl Counts.add .zero

/-! ## Tiles -/

/-- ANCHOR of a tile. -/
def Tile.anch (t : Tile) : Int := t.anchor.toInt

/-- The descriptor check of R185. -/
def Tile.ok (t : Tile) : Bool :=
  let r := t.rows.toNat
  let c := t.cols.toNat
  decide (t.base.toNat ≤ 32767) && decide (1 ≤ r ∧ r ≤ 512) && decide (1 ≤ c ∧ c ≤ 512) &&
    decide (t.base.toNat + r * c ≤ Config.cellCount) && anchorOk t.anch

/-- Number of the accumulator cell (r, c) of a tile (R183). -/
def Tile.cell (t : Tile) (r c : Nat) : Nat := t.base.toNat + r * t.cols.toNat + c

/-- Add a term into a cell of a worker (R80, R81). -/
def Worker.addTerm (w : Worker) (anchor : Int) (i : Nat) (t : XReal) : Worker := w.setCell i (admitTerm anchor t (w.cell i))

/-- Terms admitted into cells at an anchor, as sums (R80, R81). -/
def termEdits (anchor : Int) (l : List (Nat × XReal)) : List (Nat × Edit) := l.map fun e => (e.1, .add (admitTerm anchor e.2 0))

/-- Terms added into cells of a worker, one after another. -/
def Worker.addTerms (w : Worker) (anchor : Int) (l : List (Nat × XReal)) : Worker :=
  l.foldl (fun w e => w.addTerm anchor e.1 e.2) w

/-- The strand in turn adds terms into cells of its worker: every add is applied, and until they are performed at a scope other
agents may miss them (R267, R272). -/
def State.addTerms (s : State) (anchor : Int) (l : List (Nat × XReal)) : State :=
  (s.noteCells (termEdits anchor l)).modWk fun w => w.addTerms anchor l

/-- The strand in turn reads cells of its worker, or adds into them: their errors are corrected, or stop it (R332). -/
def meetCells (l : List Nat) : M Unit := do
  let s ← M.look id
  match s.cellCheck l with
  | some x => M.stop (.machine 2 x)
  | none => M.change fun s => s.mendCells l

/-- A slot as a term: a float decomposed exactly without FTZ, an integer as S · 2^0 (R80, R143). -/
def termOf (fmt v : Nat) : XReal := readNum fmt false v

/-- Formats whose slots can be terms: f32, bf16, f16, i32, i64, n32, n64 (R143, R171). -/
def caddFormat (c : Nat) : Bool := ftzFmt c || c == 7 || c == 8 || c == 11 || c == 12

/-- Every cell in a range cleared. -/
def Worker.clearCells (w : Worker) (lo n : Nat) : Worker :=
  { w with cells := w.cells.filter fun e => !decide (lo ≤ e.1 ∧ e.1 < lo + n) }

/-- The strand in turn clears a range of cells of its worker: writes of whole cells (R269, R332). -/
def State.clearCells (s : State) (lo n : Nat) : State :=
  ((s.noteCells ((upFrom lo n).map fun i => (i, .put 0 256 0))).wipeCells (upFrom lo n)).modWk fun w => w.clearCells lo n

end Sys2Proof.Machine
end

