-- ==== Sys2Proof/Machine/Fetch.lean ====
section
/-! DEFINITION. What a strand's turn does: nothing, a landing, the end of a repetition, a fetched word, a skipped word
(R15, R16, R19, R22, R25, R31, R59, R306); which turn comes next (log 1); and placing a word where the next step fetches. -/
namespace Sys2Proof.Machine

/-! ## Kinds of words -/

/-- The control instructions of R16, the counted headland apart. -/
def isControl : Instr → Bool
  | .br _ => true
  | .call _ => true
  | .ret => true
  | .jmpr _ _ => true
  | .callr _ _ => true
  | .sbkj _ => true
  | .exit => true
  | _ => false

/-- Whether a CSR is text-ordered (R106). -/
def csrOrdered (c : Nat) : Bool :=
  c == 0x004 || c == 0x008 || (0x00A ≤ c && c ≤ 0x00D) || (0x010 ≤ c && c ≤ 0x017) || c == 0x01B

/-- The S instructions that write configuration, and `vpset` (R22). -/
def isConfig : Instr → Bool
  | .seq _ _ _ _ => true
  | .sne _ _ _ _ => true
  | .slt _ _ _ _ => true
  | .sltn _ _ _ _ => true
  | .sle _ _ _ _ => true
  | .slen _ _ _ _ => true
  | .pand _ _ _ _ => true
  | .por _ _ _ _ => true
  | .pxor _ _ _ _ => true
  | .pandn _ _ _ _ => true
  | .sflt _ _ _ _ => true
  | .sfeq _ _ _ _ => true
  | .sfle _ _ _ _ => true
  | .seqi _ _ _ _ => true
  | .slti _ _ _ _ => true
  | .sltni _ _ _ _ => true
  | .csrw _ _ c => csrOrdered c.toNat
  | .csrs _ _ c => csrOrdered c.toNat
  | .csrc _ _ c => csrOrdered c.toNat
  | .sfset _ => true
  | .szset _ => true
  | .shset _ => true
  | .sshape _ => true
  | .vpset _ => true
  | _ => false

/-- Whether an instruction is `vpset`, which S waits for (R145). -/
def isVpset : Instr → Bool
  | .vpset _ => true
  | _ => false

/-! ## A strand's turn -/

/-- What a turn does: the state it leaves, and the instruction to run in it, if any. -/
structure Move where
  state : State
  run : Option Instr
  deriving DecidableEq, Repr

/-- The strand waits or has been dealt with. -/
def Move.done (s : State) : Move := ⟨s, none⟩

/-- The strand in turn passes over a word of `len` parcels (R15). -/
def State.skipWord (s : State) (len : Nat) : State :=
  s.modSt fun t => { t with pc := t.pc + BitVec.ofNat 57 (2 * len), pos := t.pos + len }

/-- A fault that the strand in turn raises before its instruction has any effect. -/
def State.raise (s : State) (cause sub addr : Nat) : State := s.takeTrap s.curEng s.st.pc ⟨cause, sub, addr, none⟩

/-- A fetch that fails: S reports it, the others wait (R306). -/
def State.fetchFails (s : State) (x : Option (AErr × PAddr)) : Move :=
  if s.curEng = .S then
    match x with
    | some (.fault c, a) => .done (s.raise c 0 a.toNat)
    | some (.machine k pa, _) => .done (s.machineCheck s.wk 0 k pa s.st.pc)
    | none => .done s
  else .done s

/-- A word of another engine: control words and S's wait for `vpset` are run, configuration is waited for, the rest is
skipped (R15, R16, R22, R145). -/
def State.foreign (s : State) (len : Nat) (i : Option Instr) : Move :=
  match i with
  | none => .done (s.skipWord len)
  | some i =>
    if s.curEng = .S then (if isVpset i && !s.wk.inHandler then ⟨s, some i⟩ else .done (s.skipWord len))
    else if isControl i then ⟨s, some i⟩
    else if isConfig i && decide (s.wk.strands.s.pos ≤ s.st.pos) then .done s
    else .done (s.skipWord len)

/-- The map that a source field gives, `n` earlier fields having popped the same queue. -/
def State.mapAt (s : State) (x : BitVec 8) (n : Nat) : CMap :=
  if isV x then (s.wk.vget (physReg s.st.rrb x.toNat)).map
  else if isQ x then (((s.wk.image (x.toNat - 0x80))[n]?).map ImgEntry.map).getD .lost
  else .lost

/-- Whether an instruction that is not guarded off reads a register that an interlocked write is still to reach, as a source, as
a destination that keeps slots, or as the companion of the map it reads coordinates through: it waits (R10, R27). -/
def State.awaits (s : State) (i : Instr) : Bool :=
  let l := s.st.awaited
  !l.isEmpty &&
    match i.reads with
    | none => false
    | some r =>
      s.view.guard r.guard &&
        ((r.srcs ++ r.dests).any (fun x => isV x && l.contains (physReg s.st.rrb x.toNat)) ||
          match r.coords with
          | none => false
          | some (x, n) =>
            match s.mapAt x n with
            | .explicit _ c _ => l.contains c
            | _ => false)

/-- Single-bit errors in the text just fetched are corrected and counted (R332). -/
def State.noteFetch (s : State) (len : Nat) : State :=
  if s.softSectors.isEmpty then s
  else
    match s.translate (.core s.wk.core) (s.cxOf s.wk) s.st.pc.toNat .fetch with
    | .ok (p, _) => s.correct p.addr (2 * len)
    | .error _ => s

/-- The strand in turn at a word whose parcels are at hand (R15, R47, R59). -/
def State.atWord (s : State) (len : Nat) (p0 p1 p2 p3 : Parcel) : Move :=
  if engine p0 = none ∨ engine p0 = some s.curEng then
    match decode p0 p1 p2 p3 with
    | .instr i => if s.awaits i then .done s else ⟨s, some i⟩
    | .reserved => .done s
    | .illegal _ => if engine p0 = none ∧ s.curEng ≠ .S then .done s else .done (s.raise 1 1 0)
    | .misuse _ => .done (s.raise 0x0E 0 0)
  else s.foreign len (rawInstr p0 p1 p2 p3)

/-- The strand in turn fetches (R47, R59, R306). -/
def State.fetchMove (s : State) : Move :=
  let r := s.fetchFour s.wk s.st.pc 4
  match r.1 with
  | [] => s.fetchFails r.2
  | p0 :: l =>
    if formatLegal p0 then
      let n := (lenOf p0).getD 1
      if l.length + 1 < n then s.fetchFails r.2 else (s.noteFetch n).atWord n p0 (nth 0 l 0) (nth 0 l 1) (nth 0 l 2)
    else if s.curEng = .S then .done (s.raise 1 1 0)
    else .done s

/-- Whether the strand stands at the end of its innermost block; in a handler only entries above TDEPTH count (R19, R314). -/
def Worker.atEnd (w : Worker) (e : Eng) : Bool :=
  let t := w.strands.get e
  match t.stack with
  | [] => false
  | b :: _ => b.fin == t.pc && (!(e == .S && w.inHandler) || decide (w.sup.tdepth < t.stack.length))

/-- Whether V still waits for S to pass the `vpset` that V has evaluated (R145). -/
def Worker.gated (w : Worker) (e : Eng) : Bool :=
  match (w.strands.get e).gate with
  | none => false
  | some p => decide (w.strands.s.pos ≤ p)

/-- The error of its registers or queues that the strand in turn meets now (R316, R332). -/
def State.regFault? (s : State) : Option RegFault := s.regFaults.find? fun x => x.key == s.curKey && x.eng == s.curEng

/-- Such an error is met: a single-bit one is corrected and counted, and the strand goes on; any other is a machine check, to
which no address belongs (R332, R333, log 39). -/
def State.meetRegFault (s : State) (x : RegFault) : State :=
  let t := { s with regFaults := s.regFaults.filter (· ≠ x) }
  if x.kind = 0 then { t with mended := t.mended ++ [(s.wk.core, .regs x.eng)] }
  else t.machineCheck s.wk s.curEng.code x.kind 0 s.st.pc

/-- Whether a worker stops for a pre-emption request: not while a `shins` is between its keys (R224, R318). -/
def Worker.yields (w : Worker) : Bool := w.preempt && w.insertion.isNone

/-- The `shins` that a strand is in the midst of: M's alone (R224). -/
def Worker.inserting (w : Worker) (e : Eng) : Option Insertion := if e = .M then w.insertion else none

/-- The turn of the strand that the state names. No strand moves between the last commit of a phase and the phase's end
(R257, log 29). -/
def State.strandMove (s : State) : Move :=
  let w := s.wk
  let e := s.curEng
  if !s.live || s.frozen then .done s
  else if w.yields then .done (s.setWk { w with status := .stopped })
  else if (w.preempt && e != .M) || s.phaseOver w.lid then .done s
  else if (w.noted && (w.inserting e).isNone) || (w.inHandler && e != .S) then .done s
  else
    let s := s.modSt fun t => t.sync w.spad
    let t := s.st
    match s.wk.dueKind e with
    | .land => ⟨s, some .writeLanding⟩
    | .push => ⟨s, some .queuePush⟩
    | .token => ⟨s, some .tokenPush⟩
    | .none =>
      if t.held then .done s
      else if let some x := w.inserting e then ⟨s, some (.shins x.word)⟩
      else if t.exited && !(e == .S && w.inHandler) then .done s
      else if w.atEnd e then ⟨s, some .repetitionEnd⟩
      else if w.gated e then .done s
      else
        match s.regFault? with
        | some x => .done (s.meetRegFault x)
        | none => s.fetchMove

/-! ## Turns (log 1) -/

/-- Whether an instruction is a step of the device, which has no words. -/
def isEvent (i : Instr) : Bool := (encode i).isEmpty

/-- The five strand turns of a worker. -/
def strandTurns (key : Nat) : List Turn := allEngines.map fun e => .strand key e

/-- The device's own steps that may be due, none of them started from outside. -/
def State.innerTurns (s : State) : List Turn :=
  let evs : List Instr :=
    s.workers.flatMap (fun e => [.trapEntry e.1, .workerCompletion e.1, .preemptionRequest e.1, .contextSave e.1,
      .saveImageMove e.1, .contextRestore e.1, .planeTransfer e.1, .neighbourTableRebuild e.1]) ++
    s.launches.flatMap (fun e => [.abortedLaunchCompletion e.1, .microBatchClose e.1, .phaseEnd e.1, .launchCompletion e.1]) ++
    s.copies.flatMap (fun c => [.copyChunk c.key c.seq, .copyCommandCompletion c.key c.seq]) ++
    ((upFrom 0 s.jobs.length).zip s.jobs).flatMap (fun e => [.spanFold e.1 e.2.folded.length, .decodeJobCompletion e.1]) ++
    (upFrom 0 s.passes.length).map (fun n => .scorePassCompletion n) ++
    (upFrom 0 s.knotAdds.length).map (fun n => .wstqKnotAdd n) ++
    (upFrom 0 s.satinvs.length).map (fun n => .satinvCompletion n) ++
    (upFrom 0 s.sends.length).map (fun n => .admitRequest n) ++
    (upFrom 0 s.refusals.length).map (fun n => .refusalArrival n) ++
    s.queues.map (fun e => .recordTake e.1) ++ [.arbiterDecision]
  evs.map .event

/-- The turns that come round when the agenda is empty. -/
def State.rotation (s : State) : List Turn := s.workers.flatMap (fun e => strandTurns e.1) ++ s.innerTurns

/-- Whose turn it is: the head of the agenda, else the rotation by the tick. -/
def State.turn (s : State) : Turn :=
  match s.agenda with
  | t :: _ => t
  | [] => nth (.event .arbiterDecision) s.rotation (s.tick % s.rotation.length)

/-- The turn is taken: the tick and the agenda go on, the worker's cycles pass (R106, log 9), and the strand is named. -/
def State.enter (s : State) (t : Turn) : State :=
  let s1 := { s with tick := s.tick + 1, agenda := s.agenda.drop 1 }
  match t with
  | .event _ => s1
  | .strand key e =>
    if s.frozen then { s1 with curKey := key, curEng := e }
    else { s1 with curKey := key, curEng := e }.modWorker key fun w => { w with cycle := w.cycle + Config.stepCycles s.tick }

/-- What the turn does: the strand's move, or the device's own step. A frozen device only resets, reads for diagnosis and
answers its management port (R335). -/
def State.move (s : State) : Move :=
  let t := s.turn
  let s1 := s.enter t
  match t with
  | .strand _ _ => s1.strandMove
  | .event i =>
    if isEvent i then
      if s.frozen then
        match i with
        | .reset => ⟨s1, some i⟩
        | .diagnosticRead _ => ⟨s1, some i⟩
        | .machineCheckLogRead => ⟨s1, some i⟩
        | .attestationReport _ _ => ⟨s1, some i⟩
        | _ => .done s1
      else ⟨s1, some i⟩
    else .done s1

/-! ## Placing a word -/

/-- Text address of the worker that `placeWord` starts (log 12). -/
def placedText : PAddr := 0x1000000000

/-- A device that runs one worker at `placedText`: two page-table entries map its text to physical 0x4000_0000 (log 12). -/
def State.placed (s : State) : State :=
  let m := Memory.writeBytes s.mem 0x200000 (toBytes 0x400003 8)
  let m := Memory.writeBytes m 0x400200 (toBytes 0x4000001D 8)
  let st : Strand := { Strand.zero with pc := placedText }
  let w : Worker :=
    { Worker.zero with
      strands := ⟨st, st, st, st, st⟩
      sup := { Sup.launch with ptroot := 0x200000 } }
  let l : Launch := { Launch.zero with record := [0x1000000000, 1], state := .running }
  { s with regFaults := [], mem := m, workers := tabPut s.workers 0 w, launches := tabPut s.launches 0 l, frozen := false }

/-- The strand that would fetch for a word of engine `e`, if a running worker has one ready: its key and physical text. -/
def State.fetchSite (s : State) (e : Eng) : Option (Nat × Nat) :=
  let key := match s.turn with
    | .strand k _ => k
    | .event _ => s.curKey
  let s1 := { s with curKey := key, curEng := e }
  let w := s1.wk
  let t := s1.st
  if s1.live && !s1.frozen && !w.preempt && w.insertion.isNone && !w.noted && !(w.inHandler && e != .S) &&
      !s1.phaseOver w.lid && w.dueKind e == .none && !t.held && t.awaited.isEmpty && s1.regFault?.isNone &&
      !(t.exited && !(e == .S && w.inHandler)) && !w.atEnd e && !w.gated e then
    match s1.translate (.core w.core) (s1.cxOf w) t.pc.toNat .fetch with
    | .ok (p, _) => if inWindows t.pc.toNat then none else some (key, p.addr)
    | .error _ => none
  else none

/-- A word of parcels where the next step fetches it. -/
def State.placeWord (s : State) (l : List Parcel) : State :=
  let e := (engine (nth 0 l 0)).getD .S
  let bytes := ((l ++ [0, 0, 0, 0]).take 4).flatMap fun (p : Parcel) => toBytes p.toNat 2
  let put := fun (s : State) (key a : Nat) =>
    { s with mem := s.mem.writeBytes a bytes, agenda := [.strand key e] }
  match s.fetchSite e with
  | some (key, a) => put s key a
  | none => put s.placed 0 0x40000000

end Sys2Proof.Machine
end

