-- ==== Sys2Proof/Machine/Scalar.lean ====
section
/-! DEFINITION. The scalar instructions of S: integer, immediate, predicate and f32 arithmetic (R86 to R90, R338). All of
them write at once (shadow 0); a predicate write is configuration. -/
namespace Sys2Proof.Machine

/-! ## Shared operations -/

/-- Write sD at once from the scalars as they read. -/
def writeS (d : Nat) (f : Worker → Word) : M Issue := do
  M.work fun w => w.snow d (f w)
  pure .none

/-- sD := f sA sB (S32). -/
def alu2 (g : Guard) (d a b : BitVec 5) (f : Word → Word → Word) (s : State) : Host.Outcome State Fault Refusal :=
  runS 2 (some g) (writeS d.toNat fun w => f (w.sget a.toNat) (w.sget b.toNat)) M.nothing s

/-- sD := f sA (S32). -/
def alu1 (g : Guard) (d a : BitVec 5) (f : Word → Word) (s : State) : Host.Outcome State Fault Refusal :=
  runS 2 (some g) (writeS d.toNat fun w => f (w.sget a.toNat)) M.nothing s

/-- sD := f sD (S32I). -/
def aluI (g : Guard) (d : BitVec 5) (f : Word → Word) (s : State) : Host.Outcome State Fault Refusal :=
  runS 2 (some g) (writeS d.toNat fun w => f (w.sget d.toNat)) M.nothing s

/-- Write a predicate: configuration, except p15, whose write is discarded (R22, R86). -/
def writeP (p : Nat) (b : Bool) : M Issue := do
  if p = 15 then pure .none
  else
    postConfig 2 (.pred p b)
    pure .none

/-- pD := f of two scalars (S32). -/
def compareS (g : Guard) (d a b : BitVec 5) (f : Word → Word → Bool) (s : State) : Host.Outcome State Fault Refusal :=
  runS 2 (some g)
    (do let w ← M.look State.wk
        writeP d.toNat (f (w.sget a.toNat) (w.sget b.toNat)))
    M.nothing s

/-- pP := f of sD (S32I). -/
def compareI (g : Guard) (d : BitVec 5) (p : BitVec 4) (f : Word → Bool) (s : State) : Host.Outcome State Fault Refusal :=
  runS 2 (some g)
    (do let w ← M.look State.wk
        writeP p.toNat (f (w.sget d.toNat)))
    M.nothing s

/-- pD := f of two predicates (S32). -/
def logicP (g : Guard) (d a b : BitVec 5) (f : Bool → Bool → Bool) (s : State) : Host.Outcome State Fault Refusal :=
  runS 2 (some g)
    (do let v ← M.look State.view
        writeP d.toNat (f (v.pred a.toNat) (v.pred b.toNat)))
    M.nothing s

/-- sext of a ten-bit immediate. -/
def sext10 (i : BitVec 10) : Word := i.signExtend 64

/-- Shift amount sB[5:0]. -/
def shAmt (b : Word) : Nat := bits b.toNat 0 6

/-- Signed quotient rounded toward zero (R88). -/
def sdivOf (a b : Word) : Word := if b = 0 then BitVec.ofInt 64 (-1) else BitVec.ofInt 64 (a.toInt.tdiv b.toInt)

/-- Unsigned quotient (R88). -/
def sdivnOf (a b : Word) : Word := if b = 0 then BitVec.ofInt 64 (-1) else BitVec.ofNat 64 (a.toNat / b.toNat)

/-- Signed remainder with the sign of the dividend (R88). -/
def sremOf (a b : Word) : Word := if b = 0 then a else BitVec.ofInt 64 (a.toInt.tmod b.toInt)

/-- Unsigned remainder (R88). -/
def sremnOf (a b : Word) : Word := if b = 0 then a else BitVec.ofNat 64 (a.toNat % b.toNat)

/-- An f32 result in a scalar: bits [63:32] zero (R90). -/
def f32Word (n : Nat) : Word := BitVec.ofNat 64 (n % 2 ^ 32)

/-- The f32 in a scalar, under FTZ (R72, R90). -/
def f32Of (ftz : Bool) (x : Word) : XReal := readF32 ftz (x.toNat % 2 ^ 32)

/-- sD := an f32 result of sA and sB under the FTZ in force, rounded once with RNE (R90). -/
def floatS (g : Guard) (d a b : BitVec 5) (f : XReal → XReal → XReal) (s : State) : Host.Outcome State Fault Refusal :=
  alu2 g d a b (fun x y => f32Word (roundF32 s.view.ftz (f (f32Of s.view.ftz x) (f32Of s.view.ftz y)))) s

/-- sD := the smaller or larger of two f32 (R90). -/
def pickS (g : Guard) (d a b : BitVec 5) (wantMax : Bool) (s : State) : Host.Outcome State Fault Refusal :=
  alu2 g d a b (fun x y => f32Word (minMaxBits 0 s.view.ftz wantMax (x.toNat % 2 ^ 32) (y.toNat % 2 ^ 32))) s

/-- pD := an f32 compare that some orders satisfy; NaN gives false (R90). -/
def compareF (g : Guard) (d a b : BitVec 5) (f : Ordering → Bool) (s : State) : Host.Outcome State Fault Refusal :=
  compareS g d a b
    (fun x y => match (f32Of s.view.ftz x).cmp (f32Of s.view.ftz y) with
      | some o => f o
      | none => false) s

/-! ## Integer instructions (R87, R88) -/

/-- sD := sA + sB modulo 2^64 (R87). -/
def execSadd (g : Guard) (d a b : BitVec 5) (s : State) : Host.Outcome State Fault Refusal :=
  alu2 g d a b (fun x y => x + y) s

/-- sD := sA − sB modulo 2^64 (R87). -/
def execSsub (g : Guard) (d a b : BitVec 5) (s : State) : Host.Outcome State Fault Refusal :=
  alu2 g d a b (fun x y => x - y) s

/-- Low 64 bits of the product (R87). -/
def execSmul (g : Guard) (d a b : BitVec 5) (s : State) : Host.Outcome State Fault Refusal :=
  alu2 g d a b (fun x y => x * y) s

/-- High 64 bits of the signed product (R87). -/
def execSmulh (g : Guard) (d a b : BitVec 5) (s : State) : Host.Outcome State Fault Refusal :=
  alu2 g d a b (fun x y => BitVec.ofInt 64 (x.toInt * y.toInt / (2 ^ 64 : Nat))) s

/-- High 64 bits of the unsigned product (R87). -/
def execSmulhn (g : Guard) (d a b : BitVec 5) (s : State) : Host.Outcome State Fault Refusal :=
  alu2 g d a b (fun x y => BitVec.ofNat 64 (x.toNat * y.toNat / 2 ^ 64)) s

/-- Signed quotient (R88). -/
def execSdiv (g : Guard) (d a b : BitVec 5) (s : State) : Host.Outcome State Fault Refusal :=
  alu2 g d a b sdivOf s

/-- Unsigned quotient (R88). -/
def execSdivn (g : Guard) (d a b : BitVec 5) (s : State) : Host.Outcome State Fault Refusal :=
  alu2 g d a b sdivnOf s

/-- Signed remainder (R88). -/
def execSrem (g : Guard) (d a b : BitVec 5) (s : State) : Host.Outcome State Fault Refusal :=
  alu2 g d a b sremOf s

/-- Unsigned remainder (R88). -/
def execSremn (g : Guard) (d a b : BitVec 5) (s : State) : Host.Outcome State Fault Refusal :=
  alu2 g d a b sremnOf s

/-- Bitwise and (R87). -/
def execSand (g : Guard) (d a b : BitVec 5) (s : State) : Host.Outcome State Fault Refusal :=
  alu2 g d a b (fun x y => x &&& y) s

/-- Bitwise or (R87). -/
def execSor (g : Guard) (d a b : BitVec 5) (s : State) : Host.Outcome State Fault Refusal :=
  alu2 g d a b (fun x y => x ||| y) s

/-- Bitwise exclusive or (R87). -/
def execSxor (g : Guard) (d a b : BitVec 5) (s : State) : Host.Outcome State Fault Refusal :=
  alu2 g d a b (fun x y => x ^^^ y) s

/-- sA and not sB (R87). -/
def execSandn (g : Guard) (d a b : BitVec 5) (s : State) : Host.Outcome State Fault Refusal :=
  alu2 g d a b (fun x y => x &&& ~~~y) s

/-- Shift left by sB[5:0] (R87). -/
def execSshl (g : Guard) (d a b : BitVec 5) (s : State) : Host.Outcome State Fault Refusal :=
  alu2 g d a b (fun x y => x <<< shAmt y) s

/-- Logical shift right by sB[5:0] (R87). -/
def execSshr (g : Guard) (d a b : BitVec 5) (s : State) : Host.Outcome State Fault Refusal :=
  alu2 g d a b (fun x y => x >>> shAmt y) s

/-- Arithmetic shift right by sB[5:0] (R87). -/
def execSsra (g : Guard) (d a b : BitVec 5) (s : State) : Host.Outcome State Fault Refusal :=
  alu2 g d a b (fun x y => x.sshiftRight (shAmt y)) s

/-- Signed minimum (R87). -/
def execSmin (g : Guard) (d a b : BitVec 5) (s : State) : Host.Outcome State Fault Refusal :=
  alu2 g d a b (fun x y => if x.slt y then x else y) s

/-- Signed maximum (R87). -/
def execSmax (g : Guard) (d a b : BitVec 5) (s : State) : Host.Outcome State Fault Refusal :=
  alu2 g d a b (fun x y => if x.slt y then y else x) s

/-- Unsigned minimum (R87). -/
def execSminn (g : Guard) (d a b : BitVec 5) (s : State) : Host.Outcome State Fault Refusal :=
  alu2 g d a b (fun x y => if x < y then x else y) s

/-- Unsigned maximum (R87). -/
def execSmaxn (g : Guard) (d a b : BitVec 5) (s : State) : Host.Outcome State Fault Refusal :=
  alu2 g d a b (fun x y => if x < y then y else x) s

/-- pD := sA = sB (R87). -/
def execSeq (g : Guard) (d a b : BitVec 5) (s : State) : Host.Outcome State Fault Refusal :=
  compareS g d a b (fun x y => x == y) s

/-- pD := sA ≠ sB (R87). -/
def execSne (g : Guard) (d a b : BitVec 5) (s : State) : Host.Outcome State Fault Refusal :=
  compareS g d a b (fun x y => x != y) s

/-- pD := sA < sB, signed (R87). -/
def execSlt (g : Guard) (d a b : BitVec 5) (s : State) : Host.Outcome State Fault Refusal :=
  compareS g d a b (fun x y => x.slt y) s

/-- pD := sA < sB, unsigned (R87). -/
def execSltn (g : Guard) (d a b : BitVec 5) (s : State) : Host.Outcome State Fault Refusal :=
  compareS g d a b (fun x y => x.ult y) s

/-- pD := sA ≤ sB, signed (R87). -/
def execSle (g : Guard) (d a b : BitVec 5) (s : State) : Host.Outcome State Fault Refusal :=
  compareS g d a b (fun x y => x.sle y) s

/-- pD := sA ≤ sB, unsigned (R87). -/
def execSlen (g : Guard) (d a b : BitVec 5) (s : State) : Host.Outcome State Fault Refusal :=
  compareS g d a b (fun x y => x.ule y) s

/-- pD := pA and pB (R87). -/
def execPand (g : Guard) (d a b : BitVec 5) (s : State) : Host.Outcome State Fault Refusal :=
  logicP g d a b (fun x y => x && y) s

/-- pD := pA or pB (R87). -/
def execPor (g : Guard) (d a b : BitVec 5) (s : State) : Host.Outcome State Fault Refusal :=
  logicP g d a b (fun x y => x || y) s

/-- pD := pA exclusive-or pB (R87). -/
def execPxor (g : Guard) (d a b : BitVec 5) (s : State) : Host.Outcome State Fault Refusal :=
  logicP g d a b (fun x y => x != y) s

/-- pD := pA and not pB (R87). -/
def execPandn (g : Guard) (d a b : BitVec 5) (s : State) : Host.Outcome State Fault Refusal :=
  logicP g d a b (fun x y => x && !y) s

/-- Leading zero bits of sA (R87). -/
def execSclz (g : Guard) (d a : BitVec 5) (s : State) : Host.Outcome State Fault Refusal :=
  alu1 g d a (fun x => BitVec.ofNat 64 (64 - bitLen x.toNat)) s

/-- One bits of sA (R87). -/
def execSpopc (g : Guard) (d a : BitVec 5) (s : State) : Host.Outcome State Fault Refusal :=
  alu1 g d a (fun x => BitVec.ofNat 64 (popcount 64 x.toNat)) s

/-- If sB ≠ 0 then sD := sA (R87). -/
def execScmov (g : Guard) (d a b : BitVec 5) (s : State) : Host.Outcome State Fault Refusal :=
  runS 2 (some g)
    (do let w ← M.look State.wk
        if w.sget b.toNat = 0 then pure .none else writeS d.toNat fun w => w.sget a.toNat)
    M.nothing s

/-! ## f32 instructions (R90) -/

/-- f32 sum (R90). -/
def execSfadd (g : Guard) (d a b : BitVec 5) (s : State) : Host.Outcome State Fault Refusal :=
  floatS g d a b (XReal.add false) s

/-- f32 difference (R90). -/
def execSfsub (g : Guard) (d a b : BitVec 5) (s : State) : Host.Outcome State Fault Refusal :=
  floatS g d a b (fun x y => XReal.add false x y.neg) s

/-- f32 product (R90). -/
def execSfmul (g : Guard) (d a b : BitVec 5) (s : State) : Host.Outcome State Fault Refusal :=
  floatS g d a b XReal.mul s

/-- f32 minimum (R90). -/
def execSfmin (g : Guard) (d a b : BitVec 5) (s : State) : Host.Outcome State Fault Refusal :=
  pickS g d a b false s

/-- f32 maximum (R90). -/
def execSfmax (g : Guard) (d a b : BitVec 5) (s : State) : Host.Outcome State Fault Refusal :=
  pickS g d a b true s

/-- pD := sA < sB as f32 (R90). -/
def execSflt (g : Guard) (d a b : BitVec 5) (s : State) : Host.Outcome State Fault Refusal :=
  compareF g d a b (fun o => o == .lt) s

/-- pD := sA = sB as f32 (R90). -/
def execSfeq (g : Guard) (d a b : BitVec 5) (s : State) : Host.Outcome State Fault Refusal :=
  compareF g d a b (fun o => o == .eq) s

/-- pD := sA ≤ sB as f32 (R90). -/
def execSfle (g : Guard) (d a b : BitVec 5) (s : State) : Host.Outcome State Fault Refusal :=
  compareF g d a b (fun o => o != .gt) s

/-- i64 to f32 with RNE (R90). -/
def execScvtif (g : Guard) (d a : BitVec 5) (s : State) : Host.Outcome State Fault Refusal :=
  alu1 g d a (fun x => f32Word (roundF32 s.view.ftz (.ofInt x.toInt))) s

/-- f32 to i64 toward zero, clamped; NaN gives 0 (R90). -/
def execScvtfi (g : Guard) (d a : BitVec 5) (s : State) : Host.Outcome State Fault Refusal :=
  alu1 g d a (fun x => BitVec.ofNat 64 (convTo 8 1 true false 0 (f32Of s.view.ftz x)).bits) s

/-! ## Immediates (R89, R338) -/

/-- sD := sD + sext(imm) (R89). -/
def execSaddi (g : Guard) (d : BitVec 5) (i : BitVec 10) (s : State) : Host.Outcome State Fault Refusal :=
  aluI g d (fun x => x + sext10 i) s

/-- sD := sext(imm) (R89). -/
def execSli (g : Guard) (d : BitVec 5) (i : BitVec 10) (s : State) : Host.Outcome State Fault Refusal :=
  aluI g d (fun _ => sext10 i) s

/-- sD := (sD << 10) or the ten bits (R89). -/
def execSlui (g : Guard) (d : BitVec 5) (i : BitVec 10) (s : State) : Host.Outcome State Fault Refusal :=
  aluI g d (fun x => x <<< 10 ||| i.zeroExtend 64) s

/-- sD := sD and sext(imm) (R89). -/
def execSandi (g : Guard) (d : BitVec 5) (i : BitVec 10) (s : State) : Host.Outcome State Fault Refusal :=
  aluI g d (fun x => x &&& sext10 i) s

/-- sD := sD or sext(imm) (R89). -/
def execSori (g : Guard) (d : BitVec 5) (i : BitVec 10) (s : State) : Host.Outcome State Fault Refusal :=
  aluI g d (fun x => x ||| sext10 i) s

/-- sD := sD exclusive-or sext(imm) (R89). -/
def execSxori (g : Guard) (d : BitVec 5) (i : BitVec 10) (s : State) : Host.Outcome State Fault Refusal :=
  aluI g d (fun x => x ^^^ sext10 i) s

/-- Shift left by 0 to 63 (R89). -/
def execSshli (g : Guard) (d : BitVec 5) (i : BitVec 10) (s : State) : Host.Outcome State Fault Refusal :=
  aluI g d (fun x => x <<< i.toNat) s

/-- Logical shift right by 0 to 63 (R89). -/
def execSshri (g : Guard) (d : BitVec 5) (i : BitVec 10) (s : State) : Host.Outcome State Fault Refusal :=
  aluI g d (fun x => x >>> i.toNat) s

/-- Arithmetic shift right by 0 to 63 (R89). -/
def execSsrai (g : Guard) (d : BitVec 5) (i : BitVec 10) (s : State) : Host.Outcome State Fault Refusal :=
  aluI g d (fun x => x.sshiftRight i.toNat) s

/-- pP := sD = imm, signed (R89). -/
def execSeqi (g : Guard) (d : BitVec 5) (p : BitVec 4) (i : BitVec 6) (s : State) : Host.Outcome State Fault Refusal :=
  compareI g d p (fun x => x == i.signExtend 64) s

/-- pP := sD < imm, signed (R89). -/
def execSlti (g : Guard) (d : BitVec 5) (p : BitVec 4) (i : BitVec 6) (s : State) : Host.Outcome State Fault Refusal :=
  compareI g d p (fun x => x.slt (i.signExtend 64)) s

/-- pP := sD < imm, unsigned (R89). -/
def execSltni (g : Guard) (d : BitVec 5) (p : BitVec 4) (i : BitVec 6) (s : State) : Host.Outcome State Fault Refusal :=
  compareI g d p (fun x => x.ult (i.zeroExtend 64)) s

/-- sD := sext(IMM32) (R338). -/
def execSli32 (f : S64) (s : State) : Host.Outcome State Fault Refusal :=
  runS 4 (some f.g) (writeS f.d.toNat fun _ => f.imm.signExtend 64) M.nothing s

/-- sD := sA + sext(IMM32) (R338). -/
def execSaddi32 (f : S64) (s : State) : Host.Outcome State Fault Refusal :=
  runS 4 (some f.g) (writeS f.d.toNat fun w => w.sget f.a.toNat + f.imm.signExtend 64) M.nothing s

end Sys2Proof.Machine
end

