-- ==== Sys2Proof/Machine/Csr.lean ====
section
/-! DEFINITION. Control and status registers, and the configuration instructions of S (R39, R104 to R107, R151, R158, R184,
R217, R310, R311). -/
namespace Sys2Proof.Machine

/-! ## Reading (R106, R107, R206, R210, R299, R311) -/

/-- RRBS (R29): the five rotating bases, one byte each. -/
def Worker.rrbs (w : Worker) : Nat :=
  let t := w.strands
  t.s.rrb + t.l.rrb <<< 8 + t.v.rrb <<< 16 + t.m.rrb <<< 24 + t.w.rrb <<< 32

/-- TSTATUS (R311): TDEPTH in three bits (log 56). -/
def Sup.status (p : Sup) : Nat :=
  ofBool p.priv + ofBool p.ppriv <<< 1 + ofBool p.tin <<< 2 + ofBool p.pnote <<< 3 + (p.tdepth % 8) <<< 8

/-- The head of the refusal queue as REFQ shows it (R210). -/
def Worker.refqWord (w : Worker) : Nat :=
  let mark := ofBool w.lostref <<< 62
  match w.refq with
  | [] => mark
  | x :: _ => 2 ^ 63 ||| mark ||| x.toNat

/-- The value that a CSR reads as, as S sees it. Unassigned numbers are refused by the decoder (R105). -/
def State.csrRead (s : State) (c : Nat) : Word :=
  let w := s.wk
  let v := w.strands.s.view
  let l := s.ln
  let n : Nat → Word := fun x => BitVec.ofNat 64 x
  match c with
  | 0x000 => n w.wid
  | 0x001 => n l.workersN
  | 0x002 => w.cycle
  | 0x003 => n (if l.det then l.phase else 0)
  | 0x004 => n v.slip
  | 0x005 => n w.rrbs
  | 0x006 => v.shape.word0
  | 0x007 => v.shape.word1
  | 0x008 => n (ofBool v.ftz + ofBool v.e4m3sat <<< 1 + ofBool l.det <<< 8)
  | 0x009 => w.qsat.zeroExtend 64
  | 0x00A => v.nkey.c0
  | 0x00B => v.nkey.c1
  | 0x00C => v.nkey.c2
  | 0x00D => v.nkey.c3
  | 0x010 => tabGet 0 v.bkt 0
  | 0x011 => tabGet 0 v.bkt 1
  | 0x012 => tabGet 0 v.bkt 2
  | 0x013 => tabGet 0 v.bkt 3
  | 0x014 => tabGet 0 v.bkt 4
  | 0x015 => tabGet 0 v.bkt 5
  | 0x016 => tabGet 0 v.bkt 6
  | 0x017 => tabGet 0 v.bkt 7
  | 0x018 => n w.refqWord
  | 0x019 => w.refcnt.zeroExtend 64
  | 0x01A => l.biasGen.zeroExtend 64
  | 0x01B => v.gamma.zeroExtend 64
  | 0x020 => if l.det then l.mandig.extractLsb' 0 64 else 0
  | 0x021 => if l.det then l.mandig.extractLsb' 64 64 else 0
  | 0x022 => if l.det then l.mandig.extractLsb' 128 64 else 0
  | 0x023 => if l.det then l.mandig.extractLsb' 192 64 else 0
  | 0x100 => n w.sup.status
  | 0x101 => w.sup.tvec.zeroExtend 64
  | 0x102 => n (w.sup.cause.toNat + w.sup.sub.toNat <<< 8)
  | 0x103 => w.sup.taddr
  | 0x104 => w.sup.tpc.zeroExtend 64
  | 0x105 => w.sup.tstrand.zeroExtend 64
  | 0x106 => w.sup.tslot.zeroExtend 64
  | 0x107 => w.sup.tscratch
  | 0x108 => w.sup.ctxid.zeroExtend 64
  | 0x109 => w.sup.asid.zeroExtend 64
  | 0x10A => w.sup.ptroot.zeroExtend 64
  | 0x10B => w.sup.laytab.zeroExtend 64
  | 0x10C => w.sup.errlog.zeroExtend 64
  | _ => 0

/-- What a read does beside: REFQ pops its queue and clears LOSTREF (R210). -/
def Worker.csrReadEffect (w : Worker) (c : Nat) : Worker :=
  if c = 0x018 then { w with refq := w.refq.drop 1, lostref := false } else w

/-! ## Writing -/

/-- Whether a CSR is read-only to programs (R106, R311). -/
def csrReadOnly (c : Nat) : Bool :=
  c ≤ 0x003 || (0x005 ≤ c && c ≤ 0x007) || (0x018 ≤ c && c ≤ 0x01A) || (0x020 ≤ c && c ≤ 0x023) || c == 0x105 ||
    c == 0x106 || (0x108 ≤ c && c ≤ 0x10C)

/-- A write to a supervisor CSR; reserved and read-only bits keep their values (R311). -/
def Sup.write (p : Sup) (c : Nat) (x : Word) : Sup :=
  match c with
  | 0x100 => { p with ppriv := x.getLsbD 1, tin := x.getLsbD 2, pnote := x.getLsbD 3 }
  | 0x101 => { p with tvec := x.extractLsb' 0 57 }
  | 0x102 => { p with cause := x.extractLsb' 0 8, sub := x.extractLsb' 8 4 }
  | 0x103 => { p with taddr := x }
  | 0x104 => { p with tpc := x.extractLsb' 0 57 }
  | 0x107 => { p with tscratch := x }
  | _ => p

/-- A write to a CSR that is not text-ordered takes effect at once (R105). -/
def Worker.csrWriteNow (w : Worker) (c : Nat) (x : Word) : Worker :=
  if c = 0x009 then { w with qsat := x.extractLsb' 0 32 } else { w with sup := w.sup.write c x }

/-- The manifest event of a CSR write: MODE and NKEY writes are logged (R298). -/
def Worker.csrLog (w : Worker) (det : Bool) (c : Nat) (x : Word) : Worker :=
  if c = 0x008 then
    { w with modeLog := w.modeLog ++ [[BitVec.ofNat 64 (x.toNat % 4), BitVec.ofNat 64 (ofBool det)]] }
  else if 0x00A ≤ c ∧ c ≤ 0x00D then { w with nkeyLog := w.nkeyLog ++ [[BitVec.ofNat 64 (c - 0x00A), x]] }
  else w

/-- Write a CSR: privilege, read-only registers, configuration or at once (R105, R310). -/
def writeCsrM (c : Nat) (f : Word → Word) : M Issue := do
  let s ← M.look id
  let w := s.wk
  if 0x100 ≤ c ∧ !w.sup.priv then M.trap 2 0 0 none
  else if csrReadOnly c then (if w.sup.priv then pure .none else M.trap 2 0 0 none)
  else
    let x := f (s.csrRead c)
    if csrOrdered c then
      postConfig 2 (.csr c x)
      M.work fun w => w.csrLog s.ln.det c x
      pure .none
    else
      M.work fun w => w.csrWriteNow c x
      pure .none

/-- csrr (R105). -/
def execCsrr (g : Guard) (d : BitVec 5) (c : BitVec 10) (s : State) : Host.Outcome State Fault Refusal :=
  runS 2 (some g)
    (do if 0x100 ≤ c.toNat ∧ !s.wk.sup.priv then M.trap 2 0 0 none
        else
          M.work fun w => (w.csrReadEffect c.toNat).snow d.toNat (s.csrRead c.toNat)
          pure .none)
    M.nothing s

/-- csrw (R105). -/
def execCsrw (g : Guard) (d : BitVec 5) (c : BitVec 10) (s : State) : Host.Outcome State Fault Refusal :=
  runS 2 (some g) (writeCsrM c.toNat fun _ => s.wk.sget d.toNat) M.nothing s

/-- csrs (R105): sets the bits that are one in sD. -/
def execCsrs (g : Guard) (d : BitVec 5) (c : BitVec 10) (s : State) : Host.Outcome State Fault Refusal :=
  runS 2 (some g) (writeCsrM c.toNat fun x => x ||| s.wk.sget d.toNat) M.nothing s

/-- csrc (R105): clears the bits that are one in sD. -/
def execCsrc (g : Guard) (d : BitVec 5) (c : BitVec 10) (s : State) : Host.Outcome State Fault Refusal :=
  runS 2 (some g) (writeCsrM c.toNat fun x => x &&& ~~~s.wk.sget d.toNat) M.nothing s

/-! ## Configuration instructions -/

/-- The value of an S64 configuration write: sA + sext(IMM32) (R103). -/
def confValue (f : S64) (w : Worker) : Word := w.sget f.a.toNat + f.imm.signExtend 64

/-- The eight words of a layout record, or none where there is no table or the handle is 0xFFFF (R241). -/
def State.layoutRecord (s : State) (w : Worker) (h : BitVec 16) : List Word :=
  if w.sup.laytab = 0 ∨ h = 0xFFFF then []
  else (upFrom 0 8).map fun i => BitVec.ofNat 64 (s.physNat (w.sup.laytab.toNat + 64 * h.toNat + 8 * i) 8)

/-- sfset (R151, R158): a furrow field; LAYOUT carries the record as S finds it. -/
def execSfset (f : S64) (s : State) : Host.Outcome State Fault Refusal :=
  runS 4 (some f.g)
    (do let v := confValue f s.wk
        let r := if f.mod5.toNat = 15 then s.layoutRecord s.wk (v.extractLsb' 0 16) else []
        postConfig 4 (.furrow f.d.toNat f.mod5.toNat v r)
        pure .none)
    M.nothing s

/-- szset (R184): a tile descriptor field. -/
def execSzset (f : S64) (s : State) : Host.Outcome State Fault Refusal :=
  runS 4 (some f.g)
    (do postConfig 4 (.tile f.d.toNat f.mod5.toNat (confValue f s.wk))
        pure .none)
    M.nothing s

/-- shset (R217): a sheaf descriptor field. -/
def execShset (f : S64) (s : State) : Host.Outcome State Fault Refusal :=
  runS 4 (some f.g)
    (do postConfig 4 (.sheaf f.d.toNat f.mod5.toNat (confValue f s.wk))
        pure .none)
    M.nothing s

/-- The shape that `sshape` requests (R38, R104). -/
def requested (f : S64) (w : Worker) : Shape :=
  let fmt := f.mod5.toNat
  ⟨grantOf ⟨(w.sget f.a.toNat).toNat, bits f.imm.toNat 0 16, bits f.imm.toNat 16 8, bits f.imm.toNat 24 8⟩ (fmtWidth fmt),
    fmtWidth fmt, fmt⟩

/-- sshape (R38, R104): the grant to sD and, as configuration, to the shape in force. -/
def execSshape (f : S64) (s : State) : Host.Outcome State Fault Refusal :=
  runS 4 (some f.g)
    (do M.legal (f.mod5.toNat < 0x15)
        let x := requested f s.wk
        postConfig 4 (.shape x)
        writeS f.d.toNat fun _ => x.word0)
    M.nothing s

end Sys2Proof.Machine
end

