-- ==== Sys2Proof/Machine/Elem.lean ====
section
/-! DEFINITION. One element's access by a strand: the checks of R95, R97, R148 and R159 in order, the conflict detector
(R258, R297), and the read or the writes once every element has passed. -/
namespace Sys2Proof.Machine

/-- Go on with an access, or trap at an address and slot, or meet a machine check. -/
def M.access {α : Type} (addr : Nat) (slot : Option Nat) (r : Except AErr α) : M α :=
  match r with
  | .ok a => pure a
  | .error (.fault c) => M.trap c 0 addr slot
  | .error (.machine k pa) => M.stop (.machine k pa)

/-- Step 1 of R159: the window behind an address, with the rights of the access; `none` for a translated address. An address
above 57 bits leads nowhere (R95, R154). -/
def windowOf (cx : Cx) (rights : Place → Bool) (va : Nat) : Except AErr (Option Place) :=
  if 2 ^ 57 ≤ va then .error (.fault 0x08)
  else if inWindows va then
    match windowPlace cx va with
    | none => .error (.fault 0x08)
    | some p => if rights p then .ok (some p) else .error (.fault 0x09)
  else .ok none

/-- Step 3 of R159. -/
def aligned (va size : Nat) : Except AErr Unit := if va % size = 0 then .ok () else .error (.fault 0x0A)

/-- The place of an element of `size` bytes at an address in a context, checked as R159 orders, with the bounds check of R158
in its place. -/
def placeIn (cx : Cx) (ag : Agent) (va size : Nat) (acc : Acc) (slot : Option Nat) (rights : Place → Bool)
    (bounds : Except AErr Unit) : M Place := do
  let s ← M.look id
  let win ← M.access va slot (windowOf cx rights va)
  M.access va slot bounds
  M.access va slot (aligned va size)
  match win with
  | some p => pure p
  | none =>
    let r ← M.access va slot (s.resolve ag cx va acc)
    M.change fun _ => r.2
    pure (.phys r.1)

/-- The place of an element for the worker in turn. -/
def placeOf (ag : Agent) (va size : Nat) (acc : Acc) (slot : Option Nat) (rights : Place → Bool) (bounds : Except AErr Unit) :
    M Place := do
  let s ← M.look id
  placeIn (s.cxOf s.wk) ag va size acc slot rights bounds

/-- The detector's verdict on an access by a task of a launch (R258, R297). -/
def detectIn (lid : Nat) (t : TaskId) (va : Nat) (slot : Option Nat) (store : Bool) (p : Place) (size : Nat) : M Unit := do
  let s ← M.look id
  let l := s.launch lid
  if !l.det || l.detOff || (sectorsOf p size).isEmpty then pure ()
  else
    match l.detect t store p size with
    | none => M.trap 0x0B 0 va slot
    | some l => M.change fun s => s.putLaunch lid l

/-- The detector's verdict on an access by the worker in turn. -/
def detectAt (va : Nat) (slot : Option Nat) (store : Bool) (p : Place) (size : Nat) : M Unit := do
  let s ← M.look id
  detectIn s.wk.lid s.wk.task va slot store p size

/-- Read the newest bytes of a place for an atomic of the strand in turn, which has seen them then (R261, R332). -/
def readNewest (p : Place) (size : Nat) : M Nat := do
  let s ← M.look id
  match s.readCheck p size with
  | some x => M.access 0 none (.error x)
  | none =>
    M.change fun s => ((s.lookedNewest (strandWho s.curKey s.curEng) p size).accessed p).noteRead p size
    pure (s.readPlace p size)

/-- Load an element whose place is known: what the strand in turn sees there (R267, R332). -/
def readAt (p : Place) (size : Nat) : M Nat := do
  let s ← M.look id
  match s.readCheck p size with
  | some x => M.access 0 none (.error x)
  | none =>
    M.change fun s => (s.loaded p size).noteRead p size
    pure (s.loads p size)

/-- Perform a group of writes after their machine check; until they are performed at a scope, other agents may miss them (R260,
R267, R332). -/
def writeAs (a : Author) (ws : List (Place × List (BitVec 8))) : M Unit := do
  let s ← M.look id
  match s.writeCheck ws with
  | some x => M.access 0 none (.error x)
  | none => M.change fun s => (s.noteWrites a ws).writeAll ws

/-- The same for stores of the strand in turn. -/
def storeAllM (ws : List (Place × List (BitVec 8))) : M Unit := do
  let s ← M.look id
  writeAs s.strandAuthor ws
  M.change fun s => ws.foldl (fun s w => s.accessed w.1) s

/-- Perform a group of writes that every agent sees at once, after their machine check (R332). -/
def writeAllM (ws : List (Place × List (BitVec 8))) : M Unit := do
  let s ← M.look id
  match s.writeCheck ws with
  | some x => M.access 0 none (.error x)
  | none => M.change fun s => s.writeDone ws

/-- The place as seen by an atomic of a scope: at pool or system scope a pool page is reached at its home (R277). -/
def Place.atScope (p : Place) (scope : Nat) : Place :=
  match p with
  | .phys x => .phys { x with home := x.home || decide (4 ≤ scope) }
  | p => p

/-- The agent that a worker's strands are (R307). -/
def Worker.agent (w : Worker) : Agent := .core w.core

/-- The new value of an atomic on `b` bits: R96's MOD5 codes. -/
def atomicNew (op b old x y : Nat) : Nat :=
  match op with
  | 0 => (old + x) % 2 ^ b
  | 1 => old &&& x
  | 2 => old ||| x
  | 3 => old ^^^ x
  | 4 => x
  | 5 => if old = x then y else old
  | 6 => if signed b x < signed b old then x else old
  | 7 => if signed b old < signed b x then x else old
  | 8 => min old x
  | _ => max old x

end Sys2Proof.Machine
end

