-- ==== Sys2Proof/Machine/Memory.lean ====
section
/-! DEFINITION. S's loads, stores and atomics (R95 to R97), and the privileged instructions that read memory: launching,
defining layouts and dropping translations (R242, R291, R308, R309). -/
namespace Sys2Proof.Machine

/-! ## Rights in the windows (R97) -/

/-- What `sld` of `n` bytes may reach. -/
def sldRights (n : Nat) : Place → Bool
  | .spad _ _ => true
  | .cell _ _ _ => n == 8
  | .knot _ _ => n == 8
  | .phys _ => true

/-- What `sst` may reach. -/
def sstRights : Place → Bool
  | .spad _ _ => true
  | .cell _ _ _ => false
  | .knot _ _ => false
  | .phys _ => true

/-- What `samo` may reach: knots only by a 32-bit add. -/
def samoRights (op n : Nat) : Place → Bool
  | .spad _ _ => true
  | .cell _ _ _ => false
  | .knot _ _ => op == 0 && n == 4
  | .phys _ => true

/-! ## Shared operations -/

/-- Effective address sA + sext(IMM32) (R95). -/
def effective (f : S64) (w : Worker) : Nat := (confValue f w).toNat

/-- Load `n` bytes at an address for S. -/
def loadS (va n : Nat) : M Nat := do
  let w ← M.look State.wk
  let p ← placeOf w.agent va n .load none (sldRights n) (.ok ())
  detectAt va none false p n
  readAt p n

/-- Store bytes at an address for S. -/
def storeS (va : Nat) (l : List (BitVec 8)) : M Unit := do
  let w ← M.look State.wk
  let p ← placeOf w.agent va l.length .store none sstRights (.ok ())
  detectAt va none true p l.length
  storeAllM [(p, l)]

/-- Bytes of a W code (R95). -/
def widthBytes (c : Nat) : Nat := 2 ^ (c % 4)

/-- A loaded value, sign-extended or zero-extended (R95). -/
def extended (sx : Bool) (n v : Nat) : Word := if sx then BitVec.ofInt 64 (signed (8 * n) v) else BitVec.ofNat 64 v

/-- Refuse in user mode (R310). -/
def privileged : M Unit := do
  let w ← M.look State.wk
  if w.sup.priv then pure () else M.trap 2 0 0 none

/-! ## sld, sst, samo -/

/-- sld (R95): an acquire load acquires at device scope (R265). -/
def execSld (f : S64) (s : State) : Host.Outcome State Fault Refusal :=
  runS 4 (some f.g)
    (do let n := widthBytes f.mod5.toNat
        let v ← loadS (effective f s.wk) n
        if f.mod5.getLsbD 3 then M.change fun s => s.acquire 3 else pure ()
        pure (.after 2 [.sreg f.d.toNat (extended (f.mod5.getLsbD 2) n v)])) M.nothing s

/-- sst (R95): a release store releases at device scope (R265). -/
def execSst (f : S64) (s : State) : Host.Outcome State Fault Refusal :=
  runS 4 (some f.g)
    (do let n := widthBytes f.mod5.toNat
        if f.mod5.getLsbD 4 then M.change fun s => s.release 3 else pure ()
        storeS (effective f s.wk) (toBytes (s.wk.sget f.d.toNat).toNat n)
        pure .none) M.nothing s

/-- An add to a knot through the knot window: a wait that observes it acquires at device scope (R34, R265). -/
def State.addFarKnot (s : State) (key k : Nat) (n : BitVec 32) (err : Bool) : State :=
  s.modWorker key fun w => { w.addKnot k n err with farKnots := if w.farKnots.contains k then w.farKnots else k :: w.farKnots }

/-- The scopes at which an atomic of a scope is performed in its own step: on a pool page at pool or system scope it is done at
the pool device, on a peer's page at its home (R276, R277). -/
def State.atomicReach (s : State) (p : Place) (scope : Nat) : List Reach :=
  match p with
  | .phys x =>
    if 2 ^ 52 ≤ x.addr then [⟨s.tick, 5, s.wk.core⟩]
    else if x.pool ∧ 4 ≤ scope then [⟨s.tick, scope, s.wk.core⟩] else []
  | _ => []

/-- One atomic of a scope at a place: the old value, and the write. -/
def atomicAt (scope : Nat) (p : Place) (n op x y : Nat) : M Nat := do
  match p with
  | .knot key k =>
    let s ← M.look id
    M.change fun s => s.addFarKnot key k (BitVec.ofNat 32 x) false
    pure ((s.worker key).knot k).val.toNat
  | p =>
    let old ← readNewest p n
    let s ← M.look id
    writeAs { s.strandAuthor with reach := s.atomicReach p scope } [(p, toBytes (atomicNew op (8 * n) old x y) n)]
    pure old

/-- Whether a place is a knot. -/
def Place.isKnot : Place → Bool
  | .knot _ _ => true
  | _ => false

/-- samo (R96, R97): no guard; the guard bits hold order and scope. An add to a knot is a release whatever order is encoded, at
device scope at least (R97, log 52). -/
def execSamo (f : S64) (s : State) : Host.Outcome State Fault Refusal :=
  runS 4 none
    (do let w := s.wk
        let n := if f.mod5.getLsbD 4 then 8 else 4
        let op := bits f.mod5.toNat 0 4
        let scope := bits f.g.gp.toNat 0 3
        let x := (w.sget f.d.toNat).toNat % 2 ^ (8 * n)
        let y := (w.sget (f.d.toNat + 1)).toNat % 2 ^ (8 * n)
        let p ← placeOf w.agent (effective f w) n .atomic none (samoRights op n) (.ok ())
        if p.isKnot then M.change fun s => s.release (max 3 scope)
        else if f.g.gp.getLsbD 3 then M.change fun s => s.release scope
        else pure ()
        let old ← atomicAt scope (p.atScope scope) n op x y
        if f.g.gn then M.change fun s => s.acquire scope else pure ()
        pure (.after 2 [.sreg f.d.toNat (BitVec.ofNat 64 old)])) M.nothing s

/-! ## slaunch (R291) -/

/-- Address of a queue's header (R324). -/
def State.header (s : State) (q : Nat) : Nat := s.qhbase.toNat + 64 * q

/-- Word `i` of a queue's header as it stands in memory (R284). -/
def State.headerWord (s : State) (q i : Nat) : Nat := s.physNat (s.header q + 8 * i) 8

/-- Address of slot `i` of a queue's ring (R284). -/
def ringSlot (ring size i : Nat) : Nat := ring + 256 * (i % size)

/-- The account of a queue after reading its header: HEAD and DONE stay the arbiter's own (R284, R325). -/
def State.readHeader (s : State) (q : Nat) : QueueSt :=
  let h := s.headerWord q
  let a := (tabFind s.queues q).getD .zero
  { a with
    ring := bits (h 0) 0 57, size := bits (h 1) 0 16, prio := bits (h 1) 16 2, enabled := bit (h 1) 18, devq := bit (h 1) 19
    tail := h 2 }

/-- Append a record to a device-filled queue: its LID, −1 when full, −2 when not open to it (R291). -/
def State.launchRecord (s : State) (rec : List (BitVec 64)) : State × Word :=
  let q := bits (nth 0 rec 2).toNat 8 6
  let h := s.headerWord q
  let size := bits (h 1) 0 16
  if !(bit (h 1) 18 && bit (h 1) 19) then (s, BitVec.ofInt 64 (-2))
  else if size ≤ h 2 - h 4 then (s, BitVec.ofInt 64 (-1))
  else
    let s1 := s.putPhys (ringSlot (bits (h 0) 0 57) size (h 2)) (bytesOf rec)
    let s2 := s1.putPhys (s.header q + 16) (toBytes (h 2 + 1) 8)
    ({ s2 with queues := tabPut s2.queues q (s2.readHeader q) }, BitVec.ofNat 64 (q <<< 57 + h 2))

/-- slaunch (R291): a release. -/
def execSlaunch (f : S64) (s : State) : Host.Outcome State Fault Refusal :=
  runS 4 (some f.g)
    (do privileged
        let ea := effective f s.wk
        if ea < 2 ^ 57 ∧ ea % 256 ≠ 0 then M.trap 0x0A 0 ea none
        else
          let rec ← M.gather (fun i => loadS (ea + 8 * i) 8) (upFrom 0 32)
          let t ← M.look fun s => s.release 3
          let r := t.launchRecord (rec.map (BitVec.ofNat 64))
          M.change fun _ => r.1
          pure (.after 2 [.sreg f.d.toNat r.2])) M.nothing s

/-! ## slaydef (R241, R242) -/

/-- A layout image as a furrow: the fields that R152 judges. -/
def layoutFurrow (r : List Word) : Furrow := Furrow.reset.bind 0 (r.set 2 (nth 0 r 2 ||| 0x80000000))

/-- The lowest and highest byte, relative to BASE, of the elements of a furrow (R242). -/
def Furrow.span (f : Furrow) : Int × Int :=
  let d := fun k => f.stride k * ((f.extent k : Int) - 1)
  let lo := fun k => min 0 (d k)
  let hi := fun k => max 0 (d k)
  let w := fmtWidth f.format
  let bytes : Int := if w < 8 then ((ceilDiv (f.extent 0 * w) 8 : Nat) : Int) else ((w / 8 : Nat) : Int)
  (lo 0 + lo 1 + lo 2 + lo 3, hi 0 + hi 1 + hi 2 + hi 3 + bytes - 1)

/-- Number of blocks of a furrow (R156). -/
def Furrow.blocks (f : Furrow) : Nat :=
  let e := f.extents.set f.bax (ceilDiv (f.extent f.bax) f.blockLen)
  e.c0 * e.c1 * e.c2 * e.c3

/-- Check 1 of R242: a field illegal under R152, a reserved bit, or BASE not aligned to the container. -/
def layoutFieldsOk (r : List Word) : Bool :=
  let w := fun i => (nth 0 r i).toNat
  let f := layoutFurrow r
  let cont := max 1 (fmtWidth f.format / 8)
  bits (w 0) 57 7 == 0 && bits (w 1) 48 16 == 0 && bits (w 2) 28 3 == 0 && bits (w 2) 9 7 == 0 &&
    f.fieldsOk f.format && f.base.toNat % cont == 0

/-- Check 2 of R242: every element byte and scale byte lies in [BASE, BASE + SIZE). -/
def layoutInside (r : List Word) : Bool :=
  let f := layoutFurrow r
  let size : Int := ((bits (nth 0 r 1).toNat 0 48 : Nat) : Int)
  let e := f.span
  let off : Int := ((bits (nth 0 r 7).toNat 0 40 : Nat) : Int)
  let reach := f.sstride.toInt * ((f.blocks : Int) - 1)
  let scales := decide (0 ≤ off + min 0 reach) && decide (off + max 0 reach < size)
  decide (0 ≤ e.1) && decide (e.2 < size) && (!isBlock f.format || scales)

/-- The status of `slaydef` on an image (R242): checks 5, 4, 1, 3, 2 in that order; an image with VALID 0 deletes. -/
def layoutStatus (noTable : Bool) (h : Nat) (r : List Word) : Nat :=
  let base := bits (nth 0 r 0).toNat 0 57
  let top := base + bits (nth 0 r 1).toNat 0 48
  if noTable then 5
  else if h = 0xFFFF then 4
  else if !bit (nth 0 r 2).toNat 31 then 0
  else if !layoutFieldsOk r then 1
  else if 2 ^ 57 < top ∨ 0x01F0000000000000 < top then 3
  else if !layoutInside r then 2
  else 0

/-- slaydef (R242): the record is written with this context's CTXID; a success is logged (R298). -/
def execSlaydef (f : S64) (s : State) : Host.Outcome State Fault Refusal :=
  runS 4 (some f.g)
    (do privileged
        let w := s.wk
        let ea := (w.sget f.a.toNat).toNat
        let h := bits f.imm.toNat 0 16
        if ea < 2 ^ 57 ∧ ea % 64 ≠ 0 then M.trap 0x0A 0 ea none
        else
          let img ← M.gather (fun i => loadS (ea + 8 * i) 8) (upFrom 0 8)
          let r : List Word := img.map (BitVec.ofNat 64)
          let st := layoutStatus (w.sup.laytab == 0) h r
          if st = 0 then
            let out := r.set 2 (BitVec.ofNat 64 (bits (nth 0 r 2).toNat 0 32 + w.sup.ctxid.toNat <<< 32))
            M.change fun t => t.putPhys (w.sup.laytab.toNat + 64 * h) (bytesOf out)
            M.work fun w => { w with layoutLog := w.layoutLog ++ [BitVec.ofNat 64 h :: out] }
          else pure ()
          pure (.after 2 [.sreg f.d.toNat (BitVec.ofNat 64 st)])) M.nothing s

/-! ## satinv (R308, R309) -/

/-- The range that a `satinv` drops: nothing for size 0, its end limited to 2^57 (R308). -/
def satinvRange (base size : Nat) : Nat × Nat :=
  let lo := base / 4096 * 4096
  if size = 0 then (lo, lo) else (lo, min (2 ^ 57) (ceilDiv (base + size) 4096 * 4096))

/-- satinv (R308, R309): issued with a release; the drop and the knot add follow in SATINV_COMPLETION. -/
def execSatinv (f : S64) (s : State) : Host.Outcome State Fault Refusal :=
  runS 4 (some f.g)
    (do privileged
        let w := s.wk
        M.await (decide ((s.satinvs.filter fun x => x.key == s.curKey).length < 4))
        let r := satinvRange (w.sget f.a.toNat).toNat (w.sget f.d.toNat).toNat
        M.change fun t =>
          { t.release 3 with satinvs := t.satinvs ++
              [⟨t.curKey, r.1, r.2, bits f.imm.toNat 0 16, f.imm.getLsbD 16, f.mod5.toNat⟩] }
        pure .none) M.nothing s

end Sys2Proof.Machine
end

