-- ==== Sys2Proof/Machine/Image.lean ====
section
/-! DEFINITION. Images through a furrow, shared by L, W and the codebook loads: which elements a set of slots names, the checks
of R158 and R159 on each element and scale byte in slot order, the detector (R258), and the reads and writes
(R148, R154 to R159). -/
namespace Sys2Proof.Machine

/-! ## Elements -/

/-- Coordinates of slot `i` of the image at a position (R155). -/
def Furrow.slotCoord (f : Furrow) (sh : Shape) (i : Nat) : Quad Nat :=
  let x := slotIndex sh.grant3 i
  ⟨f.pos.c0 + x.c0, f.pos.c1 + x.c1, f.pos.c2 + x.c2, f.pos.c3 + x.c3⟩

/-- The active, in-frame slots of the image at the position, with their coordinates (R155). -/
def Furrow.image (f : Furrow) (sh : Shape) (m : Option Nat) : List (Nat × Quad Nat) :=
  ((upFrom 0 sh.slots).filter (activeIn m)).filterMap fun i =>
    let c := f.slotCoord sh i
    if f.inFrame c then some (i, c) else none

/-- The active slots whose logical index lies in the frame, with their elements (R164). -/
def Furrow.indexed (f : Furrow) (ix : Nat → Int) (n : Nat) (m : Option Nat) : List (Nat × Quad Nat) :=
  ((upFrom 0 n).filter (activeIn m)).filterMap fun i =>
    let k := ix i
    if 0 ≤ k ∧ k < (f.frame : Int) then some (i, f.coords k.toNat) else none

/-- An element that an element instruction names: its number, and the furrow as it stands at it, with the captures made so far
(R157). -/
structure ElemAt where
  slot : Nat
  furrow : Furrow
  deriving DecidableEq, Repr

/-- `n` consecutive elements from the position, numbered from `i`, and the furrow after them (R162). -/
def Furrow.elemsFrom (f : Furrow) (spad : Memory) (i : Nat) : Nat → List ElemAt × Furrow
  | 0 => ([], f)
  | n + 1 =>
    let r := Furrow.elemsFrom (f.step (.all 1) spad) spad (i + 1) n
    ((if !f.atEnd && f.inFrame f.pos then [⟨i, f⟩] else []) ++ r.1, r.2)

/-- The elements of an element instruction, which starts as an image instruction does (R155). -/
def Furrow.elements (f : Furrow) (spad : Memory) (n : Nat) : List ElemAt × Furrow :=
  (f.begin spad).elemsFrom spad 0 n

/-! ## Legality -/

/-- The strand's copy of a furrow. -/
def State.furrow (s : State) (x : BitVec 8) : Furrow := s.view.furrow x.toNat

/-- Put the strand's copy of a furrow. -/
def putFurrow (x : BitVec 8) (f : Furrow) : M Unit :=
  M.change fun s => s.modSt fun t => { t with view := t.view.setFurrow x.toNat f }

/-- An image instruction needs size 1 along an enabled indirect dimension (R157). -/
def Furrow.indOk (f : Furrow) (sh : Shape) : Bool := !f.indirect || sh.size f.indDim == 1

/-- Block length of an image access in elements; 0 for a format without blocks (R156). -/
def Furrow.blocked (f : Furrow) (eff : Nat) : Nat := if isBlock eff then f.blockLen else 0

/-- The block conditions of an image access for a register (R156). -/
def Furrow.blockOk (f : Furrow) (eff : Nat) (sh : Shape) : Bool :=
  !isBlock eff || (f.bax == 0 && sh.size 0 % f.blockLen == 0)

/-- Whole blocks: an access at a block format needs G to be a multiple of the block length (R75). -/
def Furrow.wholeBlocks (f : Furrow) (eff : Nat) (sh : Shape) : Bool := !isBlock eff || sh.slots % f.blockLen == 0

/-! ## Checks of one access -/

/-- One element or scale byte that an instruction touches: slot, address, place, first bit for packed formats, bytes, and the
block it is the scale of. -/
structure Touch where
  slot : Nat
  addr : Nat
  place : Place
  shift : Nat
  size : Nat
  block : Option Nat
  deriving DecidableEq, Repr

/-- Whether a furrow is raw or bound to a live record of the context (R158, R243). -/
def State.boundLive (s : State) (f : Furrow) : Bool :=
  f.layout == 0xFFFF ||
    (let r := s.layoutRecord s.wk f.layout
     let w2 := (nth 0 r 2).toNat
     f.bound.isSome && r.length == 8 && bit w2 31 && w2 >>> 32 == s.wk.sup.ctxid.toNat)

/-- The context check of a bound furrow (R158), made at a slot in its place of R159: a mismatch is met at the lowest active,
in-frame slot, behind that slot's window (log 57). -/
def contextCheck (f : Furrow) (slot : Nat) : M Unit := do
  let s ← M.look id
  if s.boundLive f then pure () else M.trap 0x06 0 f.layout.toNat (some slot)

/-- The bounds check of R158 on bytes at an address: a bound furrow's range, or for a raw furrow in user mode the scratchpad
and cell windows. -/
def Furrow.within (f : Furrow) (cx : Cx) (va n : Nat) : Except AErr Unit :=
  if f.layout = 0xFFFF then
    if cx.user then
      match windowPlace cx va with
      | some (.spad _ _) => .ok ()
      | some (.cell _ _ _) => .ok ()
      | _ => .error (.fault 0x09)
    else .ok ()
  else
    match f.bound with
    | some b => if b.base.toNat ≤ va ∧ va + n ≤ b.base.toNat + b.size.toNat then .ok () else .error (.fault 0x07)
    | none => .error (.fault 0x06)

/-- The kind of an access through a furrow: its entry checks and the rights in the windows, by format. -/
structure Access where
  acc : Acc
  rights : Nat → Place → Bool

/-- Check `n` bytes at an address for a slot, in a context (R159). -/
def touchIn (cx : Cx) (ag : Agent) (f : Furrow) (k : Access) (fmt slot va shift n : Nat) (block : Option Nat) : M Touch := do
  let p ← placeIn cx ag va n k.acc (some slot) (k.rights fmt) (f.within cx va n)
  pure ⟨slot, va, p, shift, n, block⟩

/-- The same for the worker in turn, with the context check of R158 behind the window (R159). -/
def touchAt (f : Furrow) (k : Access) (fmt slot va shift n : Nat) (block : Option Nat) : M Touch := do
  let s ← M.look id
  let _ ← M.access va (some slot) (windowOf (s.cxOf s.wk) (k.rights fmt) va)
  contextCheck f slot
  touchIn (s.cxOf s.wk) s.wk.agent f k fmt slot va shift n block

/-- Check the element of a slot: its table entry first where that is absent (R157), then R159. -/
def touchElem (f : Furrow) (k : Access) (eff : Nat) (e : Nat × Quad Nat) : M Touch :=
  match f.term e.2 with
  | none => M.trap 0x08 0 (f.entryAddr (e.2.get f.indDim)) (some e.1)
  | some t =>
    let a := f.addr eff e.2 t
    touchAt f k eff e.1 a.1 a.2 (max 1 (fmtWidth eff / 8)) none

/-- Check elements in slot order, each block's scale byte after the first of its elements (R156, R159); `len` is the block
length, 0 without blocks. -/
def plan (f : Furrow) (k : Access) (eff len : Nat) : Option Nat → List (Nat × Quad Nat) → M (List Touch)
  | _, [] => pure []
  | prev, e :: r => do
    let t ← touchElem f k eff e
    let b := e.1 / len
    let sc ← if len ≠ 0 ∧ prev ≠ some b then do
        let x ← touchAt f k 9 e.1 (f.scaleAddr e.2) 0 1 (some b)
        pure [x]
      else pure []
    let l ← plan f k eff len (some b) r
    pure (t :: (sc ++ l))

/-- The detector on every access of an instruction, in slot order (R258, R297). -/
def detectAll (store : Bool) (l : List Touch) : M Unit :=
  M.each (fun t => detectAt t.addr (some t.slot) store t.place t.size) l

/-! ## Rights in the windows (R148) -/

/-- L's loads. -/
def loadAccess : Access :=
  ⟨.load, fun fmt p => match p with
    | .spad _ _ => true
    | .phys _ => true
    | _ => fmt == 8 || fmt == 12⟩

/-- W's stores. -/
def storeAccess : Access :=
  ⟨.store, fun _ p => match p with
    | .spad _ _ => true
    | .phys _ => true
    | _ => false⟩

/-- `wamo` of an operation: knots take an add at n32. -/
def amoAccess (op : Nat) : Access :=
  ⟨.atomic, fun fmt p => match p with
    | .spad _ _ => true
    | .phys _ => true
    | .cell _ _ _ => false
    | .knot _ _ => op == 0 && fmt == 11⟩

/-- Cell adds. -/
def cellAccess : Access :=
  ⟨.cellAdd, fun _ p => match p with
    | .cell _ _ _ => true
    | .phys _ => true
    | _ => false⟩

/-- `wflush` (R172). -/
def flushAccess : Access :=
  ⟨.flush, fun _ p => match p with
    | .spad _ _ => true
    | .phys _ => true
    | _ => false⟩

/-! ## Loads -/

/-- What a load read: element values by slot, scale bytes by block, and what of it came from global memory (R33). -/
structure Loaded where
  vals : Tab Nat
  scales : Tab Nat
  parts : List Part
  deriving DecidableEq, Repr

/-- The part of a fetched entry that a touched place gives, if it lies in global memory (R33). -/
def Touch.part? (t : Touch) (w : Nat) : Option Part :=
  match t.place with
  | .phys p => some ⟨t.block.isSome, t.block.getD t.slot, if t.block.isSome then 8 else w, p.addr, t.shift⟩
  | _ => none

/-- Read what has passed every check. -/
def readTouches (w : Nat) (l : List Touch) : M Loaded := do
  let r ← M.gather (fun t => do
    let v ← readAt t.place t.size
    pure (t, v)) l
  let el := r.filter fun x => x.1.block.isNone
  let sc := r.filterMap fun x => x.1.block.map fun b => (b, x.2)
  pure ⟨el.map fun x => (x.1.slot, bits x.2 x.1.shift w), sc, l.filterMap fun t => t.part? w⟩

/-- Check and read the elements of an element instruction, each through the furrow as it stands at it (R157, R162). -/
def loadEach (eff : Nat) (es : List ElemAt) : M Loaded := do
  let l ← M.gather (fun e => touchElem e.furrow loadAccess eff (e.slot, e.furrow.pos)) es
  detectAll false l
  readTouches (fmtWidth eff) l

/-- Check and read elements (R159, R258). -/
def loadElems (f : Furrow) (eff len : Nat) (es : List (Nat × Quad Nat)) : M Loaded := do
  let l ← plan f loadAccess eff len none es
  detectAll false l
  readTouches (fmtWidth eff) l

/-- Slot values from values listed in rising slot order; the others by `off`. -/
def fillSlots (off : Nat → Nat) (i : Nat) : Nat → Tab Nat → List Nat
  | 0, _ => []
  | n + 1, [] => off i :: fillSlots off (i + 1) n []
  | n + 1, e :: r => if e.1 = i then e.2 :: fillSlots off (i + 1) n r else off i :: fillSlots off (i + 1) n (e :: r)

/-- Whether some slot of a block is active. -/
def blockActive (m : Option Nat) (len b : Nat) : Bool := (upFrom (b * len) len).any (activeIn m)

/-- A list with each number once. -/
def dedup : List Nat → List Nat
  | [] => []
  | a :: r => if r.contains a then dedup r else a :: dedup r

/-- The 128-byte lines that parts pin in L1 (R33): a peer's bytes are never cached there (R276). -/
def pinsOf (l : List Part) : List Nat := dedup ((l.filter fun p => decide (p.addr < 2 ^ 52)).map fun p => p.addr / 128)

/-- Lines pinned by queue entries and by entries that have not landed (R33). -/
def Worker.pinned (w : Worker) : List Nat :=
  (w.images.flatMap fun e => e.2.flatMap ImgEntry.pins) ++
    w.strands.l.pend.flatMap fun p => p.acts.flatMap fun a => match a with
      | .fetched _ e _ => e.pins
      | _ => []

/-- Whether a load may pin lines: at most 64 KiB are pinned, and a load that would pin more stalls (R33, log 47). -/
def Worker.pinRoom (w : Worker) (l : List Nat) : Bool :=
  l.isEmpty || decide ((dedup (w.pinned ++ l)).length * 128 ≤ Config.pinnedBytes)

/-- A load's landing: an entry for a queue keeps its lines pinned and looks at them again as it is pushed (R33). -/
def Landing.fetch (l : List Part) : Landing → Landing
  | .image q e => .fetched q { e with pins := pinsOf l } l
  | a => a

/-- The landing of loaded slots of G slots (R156, R161): inactive slots and blocks keep a register's old content. A load for a
queue waits while its lines would pin too much (R33). -/
def deliverLoad (d : BitVec 8) (m : Option Nat) (w : Nat) (tag : Option Tag) (x : Loaded) (map : CMap) : M Issue := do
  let s ← M.look id
  M.await (!isQ d || s.wk.pinRoom (pinsOf x.parts))
  let g := s.view.shape.slots
  let off := fun i => if activeIn m i then 0 else s.inactive d false w i
  let side := match tag with
    | none => 0
    | some t =>
      packSlots 8 (fillSlots (fun b =>
        if blockActive m t.len b || isQ d then 0 else slotOf (s.vreg d).scale.toNat 8 b) 0 (g / t.len) x.scales)
  pure (.after 3 [(s.deliver d g w ⟨packSlots w (fillSlots off 0 g x.vals), side, tag, map⟩).fetch x.parts])

/-- The tag a load of a format stamps (R156). -/
def loadTag (eff len : Nat) : Option Tag := if len = 0 then none else some ⟨eff, len⟩

/-! ## Stores -/

/-- Write one value at a touched place: whole bytes, or bits of one byte for a packed format. -/
def State.putItem (s : State) (w : Nat) (x : Touch × Nat) : State :=
  let t := x.1
  if 8 ≤ w then s.writePlace t.place (toBytes x.2 (w / 8))
  else
    let old := s.readPlace t.place 1
    let kept := old - bits old t.shift w <<< t.shift
    s.writePlace t.place (toBytes (kept + (x.2 % 2 ^ w) <<< t.shift) 1)

/-- Width of an item of elements of `w` bits: scale bytes are whole bytes. -/
def itemWidth (w : Nat) (x : Touch × Nat) : Nat := if x.1.block.isSome then 8 else w

/-- Write values at touched places in order. -/
def State.putItems (s : State) (w : Nat) (l : List (Touch × Nat)) : State := l.foldl (fun s x => s.putItem (itemWidth w x) x) s

/-- The bytes that a group of items touches. -/
def itemBytes (l : List (Touch × Nat)) : List (Place × List (BitVec 8)) := l.map fun x => (x.1.place, toBytes x.2 x.1.size)

/-- The bits that an item of a width writes, from byte `b` of its line. -/
def itemEdit (w : Nat) (x : Touch × Nat) (b : Nat) : Edit := .put (8 * b + x.1.shift) w x.2

/-- Record the writes of items. -/
def State.noteItems (s : State) (a : Author) (w : Nat) (l : List (Touch × Nat)) : State :=
  l.foldl (fun s x => s.recordAt a x.1.place (itemEdit (itemWidth w x) x)) s

/-- Write items after the machine check of the whole group; until they are performed at a scope, other agents may miss them
(R260, R267, R332). -/
def writeItems (a : Author) (w : Nat) (l : List (Touch × Nat)) : M Unit := do
  let s ← M.look id
  match s.writeCheck (itemBytes l) with
  | some x => M.access 0 none (.error x)
  | none => M.change fun s => ((s.noteItems a w l).sweep (itemBytes l)).putItems w l

/-- The same for stores of the strand in turn. -/
def storeItems (w : Nat) (l : List (Touch × Nat)) : M Unit := do
  let s ← M.look id
  writeItems s.strandAuthor w l
  M.change fun s => l.foldl (fun s x => s.accessed x.1.place) s

/-- Check and write elements: slot values by `val`, scale bytes by `scale` (R156, R159, R168). -/
def storeElems (f : Furrow) (eff len : Nat) (val scale : Nat → Nat) (es : List (Nat × Quad Nat)) : M Unit := do
  let l ← plan f storeAccess eff len none es
  detectAll true l
  storeItems (fmtWidth eff) (l.map fun t => (t, match t.block with
    | some b => scale b
    | none => val t.slot))

/-- The advance that a guarded-off image instruction still makes, unless NA is set (R30). -/
def offImage (x : BitVec 8) (na : Bool) (g : State → Quad Nat) : M Unit := do
  let s ← M.look id
  if na then pure () else putFurrow x ((s.furrow x).advance (g s) s.wk.spad)

/-- The lowest active slot, if any. -/
def lowestActive (m : Option Nat) (n : Nat) : Option Nat := (upFrom 0 n).find? (activeIn m)

end Sys2Proof.Machine
end

