-- ==== Sys2Proof/Machine/LoadL.lean ====
section
/-! DEFINITION. The L instructions that load through a furrow (R161 to R167) and the codebook loads (R201, R202). -/
namespace Sys2Proof.Machine

/-- NA: the furrow does not advance. -/
def noAdvance (f : E64) : Bool := f.modBit 0

/-- ldv (R161). -/
def execLdv (f : E64) (s : State) : Host.Outcome State Fault Refusal :=
  let w := fmtWidth ((s.furrow f.a8).effective f.fmt5.toNat)
  runE64 .L f
    (do let s ← M.look id
        let u := s.furrow f.a8
        let eff := u.effective f.fmt5.toNat
        let sh := s.view.shape
        M.legal (u.legal eff && sh.fits w && (if isQ f.d8 then u.wholeBlocks eff sh else u.blockOk eff sh) && u.indOk sh)
        let m := s.maskOf f.lo3
        let u := u.begin s.wk.spad
        let len := u.blocked eff
        let x ← loadElems u eff len (u.image sh m)
        let map := freshMap sh (fun _ => true) (u.pos.map (BitVec.ofNat 32)) u.extents
        let i ← deliverLoad f.d8 m w (loadTag eff len) x map
        if noAdvance f then pure () else putFurrow f.a8 (u.advance sh.g s.wk.spad)
        pure i)
    (do offImage f.a8 (noAdvance f) fun s => s.view.shape.g
        zeroPush f.d8 w 3) s

/-- Count of `ldq`, `lpre` and `ladv`: a small immediate. -/
def countOf (x : BitVec 8) : Nat := (immOf x).toNat

/-- A loaded value as `ldq` pushes it: sign-extended for signed formats (R162). -/
def pushedWord (eff v : Nat) : Word :=
  match intFmt eff with
  | some (sgn, w) => BitVec.ofInt 64 (readInt sgn w v)
  | none => BitVec.ofNat 64 v

/-- Whether a format is one that `ldq` and `lcbld` read: 8 to 64 bits. -/
def wordFmt (eff : Nat) : Bool := decide (8 ≤ fmtWidth eff ∧ fmtWidth eff ≤ 64)

/-- ldq (R162): it makes its accesses once q15 has room (R174, log 6). -/
def execLdq (f : E64) (s : State) : Host.Outcome State Fault Refusal :=
  let n := countOf f.b8
  runE64 .L f
    (do let s ← M.look id
        let u := s.furrow f.a8
        let eff := u.effective f.fmt5.toNat
        M.legal (u.legal eff && wordFmt eff)
        awaitWords n
        let e := u.elements s.wk.spad n
        let x ← loadEach eff e.1
        if noAdvance f then pure () else putFurrow f.a8 e.2
        pure (.after 3 [.words ((fillSlots (fun _ => 0) 0 n x.vals).map (pushedWord eff))]))
    (do let s ← M.look id
        awaitWords n
        if noAdvance f then pure () else putFurrow f.a8 ((s.furrow f.a8).elements s.wk.spad n).2
        pure (.after 3 [.words ((upFrom 0 n).map fun _ => 0)])) s

/-- lgth (R164). -/
def execLgth (f : E64) (s : State) : Host.Outcome State Fault Refusal :=
  let w := fmtWidth ((s.furrow f.a8).effective f.fmt5.toNat)
  runE64 .L f
    (do let s ← M.look id
        if f.d8 = f.b8 then M.illegal 1 else pure ()
        let u := s.furrow f.a8
        let eff := u.effective f.fmt5.toNat
        let sh := s.view.shape
        M.legal (u.legal eff && sh.fits w && sh.fits 32 && !isBlock eff && !u.indirect)
        let m := s.maskOf f.lo3
        let ix := (s.vreg f.b8).data.toNat
        let x ← loadElems u eff 0 (u.indexed (fun i => signed 32 (slotOf ix 32 i)) sh.slots m)
        deliverLoad f.d8 m w none x (CMap.check (.explicit sh.grant3 (s.phys f.b8) u.extents)))
    (zeroPush f.d8 w 3) s

/-- lbc (R163): one element into every slot. -/
def execLbc (f : E64) (s : State) : Host.Outcome State Fault Refusal :=
  let w := fmtWidth ((s.furrow f.a8).effective f.fmt5.toNat)
  runE64 .L f
    (do let s ← M.look id
        let u := s.furrow f.a8
        let eff := u.effective f.fmt5.toNat
        let sh := s.view.shape
        let len := u.blocked eff
        M.legal (u.legal eff && sh.fits w && (len == 0 || sh.slots % len == 0))
        let m := s.maskOf f.lo3
        let low := lowestActive m sh.slots
        let u := u.begin s.wk.spad
        let es := match low with
          | some i => if u.inFrame u.pos then [(i, u.pos)] else []
          | none => []
        let x ← loadElems u eff len es
        let v := nth 0 (x.vals.map Prod.snd) 0
        let sc := nth 0 (x.scales.map Prod.snd) 0
        let all : Loaded :=
          ⟨((upFrom 0 sh.slots).filter (activeIn m)).map fun i => (i, v),
            if len = 0 then [] else ((upFrom 0 (sh.slots / len)).filter (blockActive m len)).map fun b => (b, sc),
            x.parts.flatMap fun p =>
              if p.scale then ((upFrom 0 (sh.slots / len)).filter (blockActive m len)).map fun b => { p with slot := b }
              else ((upFrom 0 sh.slots).filter (activeIn m)).map fun i => { p with slot := i }⟩
        let map := freshMap sh (fun _ => false) (u.pos.map (BitVec.ofNat 32)) u.extents
        let i ← deliverLoad f.d8 m w (loadTag eff len) all map
        if noAdvance f then pure () else putFurrow f.a8 (u.advance (.all 1) s.wk.spad)
        pure i)
    (do offImage f.a8 (noAdvance f) fun _ => .all 1
        zeroPush f.d8 w 3) s

/-- lpre (R165): a prefetch changes nothing that a program sees. -/
def execLpre (f : E64) (s : State) : Host.Outcome State Fault Refusal :=
  runE64 .L f
    (do let s ← M.look id
        let u := s.furrow f.a8
        M.legal (u.legal u.format && s.view.shape.fits (fmtWidth u.format) && u.indOk s.view.shape)
        pure .none) M.nothing s

/-- ladv (R166): on an indirect furrow as an image instruction (R157, log 18). -/
def execLadv (f : E64) (s : State) : Host.Outcome State Fault Refusal :=
  runE64 .L f
    (do let s ← M.look id
        let u := s.furrow f.a8
        M.legal (u.legal u.format && u.indOk s.view.shape)
        putFurrow f.a8 (u.advanceBy s.view.shape.g s.wk.spad (countOf f.b8))
        pure .none) M.nothing s

/-- lrst (R166). -/
def execLrst (f : E64) (s : State) : Host.Outcome State Fault Refusal :=
  runE64 .L f
    (do let s ← M.look id
        let u := s.furrow f.a8
        M.legal (u.legal u.format)
        putFurrow f.a8 (u.restart s.wk.spad)
        pure .none) M.nothing s

/-- lmsk (R167): out-of-frame bits read 0, bits at G and above are cleared. -/
def execLmsk (f : E64) (s : State) : Host.Outcome State Fault Refusal :=
  runE64 .L f
    (do let s ← M.look id
        let u := s.furrow f.a8
        let sh := s.view.shape
        M.legal (u.legal u.format && u.format == 22 && u.indOk sh)
        let u := u.begin s.wk.spad
        let x ← loadElems u 22 0 (u.image sh none)
        if noAdvance f then pure () else putFurrow f.a8 (u.advance sh.g s.wk.spad)
        pure (.after 3 [.mask f.d8.toNat (BitVec.ofNat 65536 (packSlots 1 (fillSlots (fun _ => 0) 0 sh.slots x.vals)))]))
    (do offImage f.a8 (noAdvance f) fun s => s.view.shape.g
        pure .none) s

/-! ## Codebook banks (R188, R189, R201, R202) -/

/-- A bank after a load of entries into its back copy, or its front copy: the count, VERSION, and no longer clean. -/
def Bank.load (b : Bank) (front : Bool) (l : List Word) : Bank :=
  let put := fun (t : Tab Word) => ((upFrom 0 l.length).zip l).foldl (fun t e => tabSet 0 t e.1 e.2) t
  let b := { b with version := b.version + 1, clean := false }
  if b.front == front then { b with copy1 := put b.copy1, count1 := l.length }
  else { b with copy0 := put b.copy0, count0 := l.length }

/-- lcbld (R189, R201): every check is made before an entry is written; the write is one event, logged (R298). -/
def execLcbld (f : E64) (s : State) : Host.Outcome State Fault Refusal :=
  let n := f.bc.toNat
  let na := f.modBit 1
  runE64 .L f
    (do let s ← M.look id
        let u := s.furrow f.a8
        let eff := u.effective f.fmt5.toNat
        M.legal (u.legal eff && wordFmt eff)
        let e := u.elements s.wk.spad n
        let x ← loadEach eff e.1
        if na then pure () else putFurrow f.a8 e.2
        let l := (fillSlots (fun _ => 0) 0 n x.vals).map (BitVec.ofNat 64)
        M.work fun w =>
          let b := (w.bank f.d8.toNat).load (f.modBit 0) l
          { w.setBank f.d8.toNat b with
            codebookLog := w.codebookLog ++ [[BitVec.ofNat 64 f.d8.toNat, b.version.zeroExtend 64, BitVec.ofNat 64 n]] }
        pure .none)
    (do let s ← M.look id
        if na then pure () else putFurrow f.a8 ((s.furrow f.a8).elements s.wk.spad n).2
        pure .none) s

/-- lcbsw (R202). -/
def execLcbsw (f : E64) (s : State) : Host.Outcome State Fault Refusal :=
  runE64 .L f
    (do M.work fun w => w.setBank f.d8.toNat { w.bank f.d8.toNat with front := !(w.bank f.d8.toNat).front }
        pure .none) M.nothing s

end Sys2Proof.Machine
end

