-- ==== Sys2Proof/Machine/StoreW.lean ====
section
/-! DEFINITION. The W instructions that store, add or flush through a furrow (R167 to R172). -/
namespace Sys2Proof.Machine

/-- The image store of `wst` and `wstq` (R168), with its advance. The scale byte of a block of slots goes to the block of its
lowest active, in-frame element, whatever BAX and g0 are (R156, log 58). -/
def storeImage (f : E64) (na : Bool) : M Unit := do
  let s ← M.look id
  let u := s.furrow f.d8
  let eff := u.effective f.fmt5.toNat
  let w := fmtWidth eff
  let sh := s.view.shape
  let len := u.blocked eff
  M.legal (u.legal eff && sh.fits w && u.wholeBlocks eff sh && u.indOk sh)
  let a ← readSrc f.a8 (some w)
  M.legal (len == 0 || a.tag == some ⟨eff, len⟩)
  let m := s.maskOf f.lo3
  let u := u.begin s.wk.spad
  storeElems u eff len (a.slot w) (slotOf a.scale 8) (u.image sh m)
  if na then pure () else putFurrow f.d8 (u.advance sh.g s.wk.spad)

/-- What a guarded-off store still does: its pop and its advance (R30). -/
def offStore (f : E64) (w : Nat) (na : Bool) : M Issue := do
  discard [(f.a8, some w)]
  offImage f.d8 na fun s => s.view.shape.g
  pure .none

/-- Width at which a W instruction reads its source. -/
def storeWidth (f : E64) (s : State) : Nat := fmtWidth ((s.furrow f.d8).effective f.fmt5.toNat)

/-- wst (R168). -/
def execWst (f : E64) (s : State) : Host.Outcome State Fault Refusal :=
  runE64 .W f
    (do storeImage f (noAdvance f)
        pure .none) (offStore f (storeWidth f s) (noAdvance f)) s

/-- wstq (R168): the knot add follows in WSTQ_KNOT_ADD. -/
def execWstq (f : E64) (s : State) : Host.Outcome State Fault Refusal :=
  runE64 .W f
    (do storeImage f false
        M.change fun s => { s with knotAdds := s.knotAdds ++ [⟨s.curKey, f.c8.toNat, f.end3, s.st.pos⟩] }
        pure .none) (offStore f (storeWidth f s) false) s

/-- Index of a slot in an index register (R164). -/
def State.indexAt (s : State) (x : BitVec 8) : Nat → Int :=
  let d := (s.vreg x).data.toNat
  fun i => signed 32 (slotOf d 32 i)

/-- wsct (R169): ascending slots, so the highest slot's value is the one left. -/
def execWsct (f : E64) (s : State) : Host.Outcome State Fault Refusal :=
  runE64 .W f
    (do let s ← M.look id
        let u := s.furrow f.d8
        let eff := u.effective f.fmt5.toNat
        let w := fmtWidth eff
        let sh := s.view.shape
        M.legal (u.legal eff && sh.fits w && sh.fits 32 && !isBlock eff && !u.indirect)
        let a ← readSrc f.a8 (some w)
        let m := s.maskOf f.lo3
        storeElems u eff 0 (a.slot w) (fun _ => 0) (u.indexed (s.indexAt f.b8) sh.slots m)
        pure .none)
    (do discard [(f.a8, some (storeWidth f s))]
        pure .none) s

/-- Whether a W instruction names an index register. -/
def hasIndex (f : E64) : Bool := f.b8 != 0xFF

/-- Elements of `wamo` and `wcadd`: by index register, or the image at the position. -/
def targets (f : E64) (s : State) (u : Furrow) (m : Option Nat) : List (Nat × Quad Nat) :=
  if hasIndex f then u.indexed (s.indexAt f.b8) s.view.shape.slots m else u.image s.view.shape m

/-- Legality of the index form of `wamo` and `wcadd` (R164). -/
def indexOk (f : E64) (sh : Shape) : Bool := !hasIndex f || sh.fits 32

/-- Legality of the frame and index forms of `wcadd` (R157, R164). -/
def targetsOk (f : E64) (u : Furrow) (sh : Shape) : Bool :=
  if hasIndex f then sh.fits 32 && !u.indirect else u.indOk sh

/-- R96's operation code behind an OP of `wamo` (R170). -/
def amoOp (op : Nat) : Nat := if op < 4 then op else op + 2

/-- wamo (R170): exempt from the detector (R297); an add to a knot is a release at device scope at least (R148, log 52). -/
def execWamo (f : E64) (s : State) : Host.Outcome State Fault Refusal :=
  let scope := bits f.c8.toNat 0 3
  runE64 .W f
    (do let s ← M.look id
        let u := s.furrow f.d8
        let eff := u.effective f.fmt5.toNat
        let w := fmtWidth eff
        let sh := s.view.shape
        M.legal (u.legal eff && (eff == 7 || eff == 8 || eff == 11 || eff == 12) && sh.fits w && indexOk f sh && !u.indirect)
        let a ← readSrc f.a8 (some w)
        let m := s.maskOf f.lo3
        let u := if hasIndex f then u else u.begin s.wk.spad
        let l ← plan u (amoAccess f.end3) eff 0 none (targets f s u m)
        if l.any fun t => t.place.isKnot then M.change fun s => s.release (max 3 scope)
        else if f.c8.getLsbD 4 then M.change fun s => s.release scope
        else pure ()
        M.each (fun t => do
          let _ ← atomicAt scope (t.place.atScope scope) t.size (amoOp f.end3) (a.slot w t.slot) 0
          pure ()) l
        if hasIndex f then pure () else putFurrow f.d8 (u.advance sh.g s.wk.spad)
        pure .none)
    (if hasIndex f then do
        discard [(f.a8, some (storeWidth f s))]
        pure .none
      else offStore f (storeWidth f s) false) s

/-- Add a term into the cell at a place (R80, R81, R171): until the add is performed at a scope, other agents may miss it (R267,
R272). -/
def State.addCell (s : State) (a : Author) (p : Place) (anchor : Int) (t : XReal) : State :=
  let c := BitVec.ofNat 256 (s.readPlace p 32)
  (s.recordAt a p (addEdit (admitTerm anchor t 0))).writePlace p (toBytes (admitTerm anchor t c).toNat 32)

/-- The strand in turn adds terms at touched places (R332). -/
def addCells (scope : Nat) (anchor : Int) (val : Nat → XReal) (l : List Touch) : M Unit :=
  M.each (fun t => do
    let p := t.place.atScope scope
    let s ← M.look id
    match s.readCheck p 32 with
    | some x => M.access 0 none (.error x)
    | none => M.change fun s => ((s.noteRead p 32).addCell s.strandAuthor p anchor (val t.slot)).accessed p) l

/-- wcadd (R171): exempt from the detector (R297). -/
def execWcadd (f : E64) (s : State) : Host.Outcome State Fault Refusal :=
  let sf := f.fmt5.toNat
  let w := fmtWidth sf
  runE64 .W f
    (do let s ← M.look id
        let u := s.furrow f.d8
        let sh := s.view.shape
        M.legal (u.legal u.format && u.format == 21 && caddFormat sf && sh.fits w && targetsOk f u sh)
        let a ← readSrc f.a8 (some w)
        let m := s.maskOf f.lo3
        let u := if hasIndex f then u else u.begin s.wk.spad
        let l ← plan u cellAccess 21 0 none (targets f s u m)
        addCells f.end3 u.anchor (fun i => termOf sf (a.slot w i)) l
        if hasIndex f then pure () else putFurrow f.d8 (u.advance sh.g s.wk.spad)
        pure .none)
    (if hasIndex f then do
        discard [(f.a8, some w)]
        pure .none
      else offStore f w false) s

/-- Write back the pool lines that a touched place lies in (R172, R277). -/
def State.flushLine (s : State) (p : Place) : State :=
  match p with
  | .phys x => if x.pool then s.flushPool (x.addr / 128 * 128) (x.addr / 128 * 128 + 128) else s
  | _ => s

/-- Check the elements that a flush reaches, each followed by its scale byte in a block format; an address in a scratchpad is
passed over by itself (R172). -/
def flushPlan (u : Furrow) (blocked : Bool) : List (Nat × Quad Nat) → M (List Touch)
  | [] => pure []
  | e :: r =>
    match u.term e.2 with
    | none => M.trap 0x08 0 (u.entryAddr (e.2.get u.indDim)) (some e.1)
    | some t => do
      let s ← M.look id
      let near := fun (va : Nat) => match windowPlace (s.cxOf s.wk) va with
        | some (.spad _ _) => true
        | _ => false
      let one := fun (fmt va shift n : Nat) (block : Option Nat) => do
        if near va then pure [] else
          let x ← touchAt u flushAccess fmt e.1 va shift n block
          pure [x]
      let a := u.addr u.format e.2 t
      let x ← one u.format a.1 a.2 (max 1 (fmtWidth u.format / 8)) none
      let y ← if blocked then one 9 (u.scaleAddr e.2) 0 1 (some e.1) else pure []
      let l ← flushPlan u blocked r
      pure (x ++ (y ++ l))

/-- wflush (R172): LEVEL 1 or INV writes dirty pool bytes back to the pool. -/
def execWflush (f : E64) (s : State) : Host.Outcome State Fault Refusal :=
  runE64 .W f
    (do let s ← M.look id
        let u := s.furrow f.d8
        let sh := s.view.shape
        M.legal (u.legal u.format && sh.fits (fmtWidth u.format) && u.indOk sh)
        let u := u.begin s.wk.spad
        let l ← flushPlan u (isBlock u.format) (u.image sh none)
        if f.modBit 0 || f.modBit 1 then M.change fun s => l.foldl (fun s t => s.flushLine t.place) s else pure ()
        putFurrow f.d8 (u.advance sh.g s.wk.spad)
        pure .none)
    (do offImage f.d8 false fun s => s.view.shape.g
        pure .none) s

/-- wmsk (R167). -/
def execWmsk (f : E64) (s : State) : Host.Outcome State Fault Refusal :=
  runE64 .W f
    (do let s ← M.look id
        let u := s.furrow f.d8
        let sh := s.view.shape
        M.legal (u.legal u.format && u.format == 22 && u.indOk sh)
        let m := s.maskOf f.lo3
        let u := u.begin s.wk.spad
        let b := (s.wk.mget f.a8.toNat).toNat
        storeElems u 22 0 (fun i => bits b i 1) (fun _ => 0) (u.image sh m)
        if noAdvance f then pure () else putFurrow f.d8 (u.advance sh.g s.wk.spad)
        pure .none)
    (do offImage f.d8 (noAdvance f) fun s => s.view.shape.g
        pure .none) s

end Sys2Proof.Machine
end

