-- ==== Sys2Proof/Machine/Copy.lean ====
section
/-! DEFINITION. Copy engines: issuing `wcpy` and `wcpyx` (R226, R228 to R230), chunks (R232, R237 to R240, R301), errors and the
copy error log (R234, R235), completion (R233, R302) and the stop of aborted launches (R339). A chunk is one step (log 4). -/
namespace Sys2Proof.Machine

/-! ## Transforms -/

/-- Formats that re-block takes: kb4 to kb16, cb4, cb8 (R238). -/
def blkFmt (c : Nat) : Bool := isKb c || c == 17 || c == 18

/-- Equal FMT, LB and BAX, as carried scale bytes need (R237). -/
def Furrow.sameBlocks (d a : Furrow) : Bool :=
  d.format == a.format && (!isBlock d.format || (d.blockLen == a.blockLen && d.bax == a.bax))

/-- Source E_k + p_k fits destination E_k in each dimension (R237). -/
def padFits (d a : Furrow) : Bool :=
  (upFrom 0 4).all fun k => decide (a.extent k + d.pos.get k ≤ d.extent k)

/-- The frame and format rules of a transform (R226, R237 to R239). -/
def copyRules (xf : Nat) (d a : Furrow) (t : Tile) : Bool :=
  let plainFmt := d.format == a.format && !isBlock d.format
  let w := fmtWidth d.format
  let ind := if xf = 5 then a.indirect && !d.indirect else !d.indirect && (xf == 6 || !a.indirect)
  ind &&
    match xf with
    | 1 => plainFmt && (w == 8 || w == 16 || w == 32 || w == 64) && d.extents == ⟨a.extent 1, a.extent 0, a.extent 2, a.extent 3⟩
    | 2 => plainFmt && padFits d a
    | 3 => blkFmt a.format && d.sameBlocks a && a.bax == 0 && decide (a.extent 0 ≤ 512 ∧ a.extent 1 ≤ 512) && a.extent 2 == 1 &&
        a.extent 3 == 1
    | 4 => d.extents == a.extents && cvtFmt d.format && cvtFmt a.format
    | 6 => d.extents == ⟨t.cols.toNat, t.rows.toNat, 1, 1⟩ && cvtFmt d.format
    | _ => d.sameBlocks a && d.extents == a.extents

/-- The destination of re-block as a furrow over 128-row bands (R238): bit `w·(k mod 128)` of run `(k div 128)·N + n`. -/
def Furrow.banded (d a : Furrow) : Furrow :=
  let w := fmtWidth d.format
  let n := a.extent 1
  let bands := ceilDiv (a.extent 0) 128
  { d with
    fmt := BitVec.ofNat 64 (d.format + bits d.fmt.toNat 5 2 <<< 5)
    ext := ⟨128, BitVec.ofNat 16 n, BitVec.ofNat 16 bands, 1⟩
    st := ⟨if w = 4 then 0 else BitVec.ofNat 64 (w / 8), BitVec.ofNat 64 (16 * w), BitVec.ofNat 64 (n * 16 * w), 0⟩
    sstride := 1 }

/-- The checks of R152 on the furrows of a command, and of R185 on its tile (R230): the extents and strides of a re-block's
destination are ignored (R238). -/
def copyFurrowsOk (xf : Nat) (d a : Furrow) (t : Tile) : Bool :=
  let d := if xf = 3 then { d with ext := (d.banded a).ext, st := (d.banded a).st } else d
  d.legal d.format && (if xf = 6 then t.ok else a.legal a.format)

/-- The source element of a destination element, or none for zero bits (R237, R238). -/
def CopyCmd.from (c : CopyCmd) (e : Quad Nat) : Option (Quad Nat) :=
  match c.xf with
  | 1 => some ⟨e.c1, e.c0, e.c2, e.c3⟩
  | 2 =>
    let p := c.dst.pos
    let x : Quad Nat := ⟨e.c0 - p.c0, e.c1 - p.c1, e.c2 - p.c2, e.c3 - p.c3⟩
    if p.c0 ≤ e.c0 ∧ p.c1 ≤ e.c1 ∧ p.c2 ≤ e.c2 ∧ p.c3 ≤ e.c3 ∧ c.src.inFrame x then some x else none
  | 3 =>
    let k := 128 * e.c2 + e.c0
    if k < c.src.extent 0 then some ⟨k, e.c1, 0, 0⟩ else none
  | _ => some e

/-- The source element whose block gives the scale byte of a destination element's block, or none for scale 0x00 (R238). -/
def CopyCmd.scaleFrom (c : CopyCmd) (e : Quad Nat) : Option (Quad Nat) :=
  if c.xf = 3 then
    let k := (128 * e.c2 + e.c0) / c.src.blockLen * c.src.blockLen
    if k < c.src.extent 0 then some ⟨k, e.c1, 0, 0⟩ else none
  else some e

/-- A value converted as `vcvt` does without a coordinate source, under RNE (R118, R237). -/
def convertBits (df sf : Nat) (sat ftz : Bool) (v : Nat) : Nat :=
  match intFmt sf with
  | some (sgn, w) =>
    let y := readInt sgn w v
    match intFmt df with
    | some (dsgn, dw) =>
      let r := intRange dsgn dw
      wrap dw (if sat then clampInt r.1 r.2 y else y)
    | none => (convTo df 0 sat ftz 0 (.ofInt y)).bits
  | none => (convTo df 0 sat ftz 0 (readNum sf ftz v)).bits

/-! ## Issue (R228 to R230) -/

/-- XF of a copy instruction (R229). -/
def copyXf (f : E64) : Nat := bits f.mod11.toNat 7 4

/-- SCOPE of a copy or stack attention instruction. -/
def engineScope (f : E64) : Nat := bits f.mod11.toNat 4 3

/-- The remote knot address of RK, read at issue: an aligned knot-window address of the launch (R229). -/
def remoteKnot (f : E64) : M (Option Word) := do
  let s ← M.look id
  if f.modBit 2 then
    let va := bits (s.vreg f.b8).data.toNat 0 64
    match inWindows va, windowPlace (s.cxOf s.wk) va with
    | true, some (.knot _ _) => pure (some (BitVec.ofNat 64 va))
    | _, _ => M.trap 0x08 0 va none
  else pure none

/-- Commands of a worker accepted and not completed. -/
def State.copiesOf (s : State) (key : Nat) : List CopyCmd := s.copies.filter fun c => c.key == key

/-- The command of a copy instruction, as issued (R230). -/
def State.copyCmd (s : State) (f : E64) (xor : Bool) (remote : Option Word) : CopyCmd :=
  let w := s.wk
  let v := s.view
  let xf := copyXf f
  let d := s.furrow f.d8
  let a := s.furrow f.a8
  { key := s.curKey, seq := w.copySeq, xf := xf, xor := xor, ord := f.modBit 3, scope := engineScope f
    dst := if xf = 3 then d.banded a else d, src := if xf = 6 then .reset else a
    tile := if xf = 6 then v.tile f.a8.toNat else .reset, tileNo := if xf = 6 then f.a8.toNat else 0
    knot := f.b8.toNat % 32, remote := remote, kcode := f.b8, ecode := f.c8
    engine := dieOf w.core * 16 + (if f.c8 = 0xFF then 0 else f.c8.toNat)
    ftz := v.ftz, e4m3sat := v.e4m3sat, priv := w.sup.priv, pc := s.st.pc, task := w.task
    chunks := 0, next := 0, counts := .zero, failed := false, born := s.tick }

/-- The context check of a command's furrow (R158, R230, R243): no slot is named. -/
def copyContext (f : Furrow) : M Unit := do
  let s ← M.look id
  if s.boundLive f then pure () else M.trap 0x06 0 f.layout.toNat none

/-- Issue a copy command: checks, the stall of R228, acceptance, the release at SCOPE (R266). -/
def issueCopy (f : E64) (xor : Bool) : M Issue := do
  let s ← M.look id
  let xf := copyXf f
  let d := s.furrow f.d8
  let a := s.furrow f.a8
  let t := s.view.tile f.a8.toNat
  M.legal (copyFurrowsOk xf d a t && copyRules xf d a t)
  copyContext d
  if xf = 6 then pure () else copyContext a
  let r ← remoteKnot f
  M.await (decide ((s.copiesOf s.curKey).length < 32))
  M.change fun t => t.release (engineScope f)
  M.change fun t => { t with copies := t.copies ++ [s.copyCmd f xor r] }
  M.work fun w => { w with copySeq := w.copySeq + 1 }
  pure .none

/-- wcpy (R226, R229, R230). -/
def execWcpy (f : E64) (s : State) : Host.Outcome State Fault Refusal := runE64 .W f (issueCopy f false) M.nothing s

/-- wcpyx (R229, R240). -/
def execWcpyx (f : E64) (s : State) : Host.Outcome State Fault Refusal := runE64 .W f (issueCopy f true) M.nothing s

/-! ## Accesses of an engine -/

/-- Rights of an engine's reads: those of L loads without the knot window (R230). -/
def engineLoad : Access :=
  ⟨.load, fun fmt p => match p with
    | .spad _ _ => true
    | .phys _ => true
    | .cell _ _ _ => fmt == 8 || fmt == 12
    | .knot _ _ => false⟩

/-- An engine may read a place: an uncorrectable error is a machine check of KIND 4 (R332, R333). -/
def engineCheck (p : Place) (n : Nat) : M Unit := do
  let s ← M.look id
  match s.readCheck p n with
  | some (.machine _ pa) => M.stop (.machine 4 pa)
  | some (.fault c) => M.trap c 0 0 none
  | none => M.change fun s => s.noteRead p n

/-- An engine's read of a place, as its command sees it (R267, R281). -/
def engineRead (r : Reader) (p : Place) (n : Nat) : M Nat := do
  engineCheck p n
  let s ← M.look id
  M.change fun s => s.looked r p n
  pure (s.look r p n)

/-- An engine's read of the newest bytes, as part of an atomic (R261). -/
def engineNewest (w : Who) (p : Place) (n : Nat) : M Nat := do
  engineCheck p n
  M.change fun s => s.lookedNewest w p n
  M.look fun s => s.readPlace p n

/-- A command as an agent. -/
def CopyCmd.who (c : CopyCmd) : Who := ⟨c.key, .command c.born⟩

/-- A command as it reads: after its issue or, with ORD, after what it has waited for (R231, R281). -/
def CopyCmd.reader (c : CopyCmd) (s : State) : Reader := s.commandReader c.key c.born (if c.ord then s.tick + 1 else c.born + 1)

/-- One access of a command: the checks of R159 in the issuing mode, then the detector; the slot of a fault is its SIDE
(R230, R258, R301). -/
def CopyCmd.touch (c : CopyCmd) (side : Nat) (f : Furrow) (k : Access) (fmt va shift n : Nat) (block : Option Nat) : M Touch := do
  let s ← M.look id
  let w := s.worker c.key
  let t ← touchIn { s.cxOf w with user := !c.priv } (.engine c.engine) f k fmt side va shift n block
  detectIn w.lid c.task va (some side) (side == 1) t.place n
  pure t

/-- The indirect term of a source element: a page gather reads its table entry now, from the scratchpad (R226, R232). -/
def CopyCmd.term (c : CopyCmd) (e : Quad Nat) : M Int := do
  let s ← M.look id
  let f := c.src
  if c.xf = 5 then
    let j := e.get f.indDim
    let a := f.table + f.entrySize * j
    if a + f.entrySize ≤ Config.spadBytes then do
      let v ← engineRead (c.reader s) (.spad c.key a) f.entrySize
      pure (f.indTerm v)
    else M.trap 0x08 0 (f.entryAddr j) (some 0)
  else pure 0

/-- What a destination element receives, before its scale byte: source bits, converted bits, or a cell's readout with what it
counts (R237 to R239). -/
def CopyCmd.value (c : CopyCmd) (e : Quad Nat) : M (Nat × Counts) := do
  let s ← M.look id
  if c.xf = 6 then
    let t := c.tile
    let v ← engineRead (c.reader s) (.cell c.key (t.cell e.c1 e.c0) 0) 32
    pure (readCell c.dst.format 0 c.e4m3sat c.ftz 0 t.anch (BitVec.ofNat 256 v))
  else
    match c.from e with
    | none => pure (0, .zero)
    | some x =>
      let fmt := c.src.format
      let k ← c.term x
      let a := c.src.addr fmt x k
      let t ← c.touch 0 c.src engineLoad fmt a.1 a.2 (max 1 (fmtWidth fmt / 8)) none
      let v ← engineRead (c.reader s) t.place t.size
      let b := bits v t.shift (fmtWidth fmt)
      pure (if c.xf = 4 then convertBits c.dst.format fmt c.e4m3sat c.ftz b else b, .zero)

/-- The scale byte that a destination element's block receives (R237, R238). -/
def CopyCmd.scale (c : CopyCmd) (e : Quad Nat) : M Nat :=
  match c.scaleFrom e with
  | none => pure 0
  | some x => do
    let t ← c.touch 0 c.src engineLoad 9 (c.src.scaleAddr x) 0 1 (some 0)
    let s ← M.look id
    engineRead (c.reader s) t.place 1

/-- One destination element: checks and reads in the order of R301, and the writes to make. A scale byte is XORed once, with
its block's first element (R240). -/
def CopyCmd.element (c : CopyCmd) (i : Nat) : M (List (Touch × Nat) × Counts) := do
  let e := c.dst.coords i
  let fmt := c.dst.format
  let blocked := isBlock fmt && c.xf != 4
  let v ← c.value e
  let sc ← if blocked then c.scale e else pure 0
  let a := c.dst.addr fmt e 0
  let t ← c.touch 1 c.dst storeAccess fmt a.1 a.2 (max 1 (fmtWidth fmt / 8)) none
  if blocked then
    let u ← c.touch 1 c.dst storeAccess 9 (c.dst.scaleAddr e) 0 1 (some 0)
    let first := e.get c.dst.bax % c.dst.blockLen == 0
    pure (if c.xor && !first then [(t, v.1)] else [(t, v.1), (u, sc)], v.2)
  else pure ([(t, v.1)], v.2)

/-- Several elements. -/
def CopyCmd.elements (c : CopyCmd) : List Nat → M (List (Touch × Nat) × Counts)
  | [] => pure ([], .zero)
  | i :: r => do
    let x ← c.element i
    let y ← c.elements r
    pure (x.1 ++ y.1, x.2.add y.2)

/-! ## Chunks (R232) -/

/-- The elements from `i` on, at most `n`, that stay in a 4 KiB block of destination addresses. -/
def CopyCmd.within (c : CopyCmd) (page : Nat) (i : Nat) : Nat → List Nat
  | 0 => []
  | n + 1 =>
    if i < c.dst.frame then
      let fmt := c.dst.format
      let a := (c.dst.addr fmt (c.dst.coords i) 0).1
      if a / 4096 = page ∧ (a + max 1 (fmtWidth fmt / 8) - 1) / 4096 = page then i :: CopyCmd.within c page (i + 1) n else []
    else []

/-- The elements of the next chunk: the first one always. -/
def CopyCmd.chunk (c : CopyCmd) : List Nat :=
  let a := (c.dst.addr c.dst.format (c.dst.coords c.next) 0).1
  c.next :: c.within (a / 4096) (c.next + 1) 4095

/-- XOR a value into a touched place (R240): a write that other agents may miss until the command is done. -/
def State.xorItem (s : State) (a : Author) (w : Nat) (x : Touch × Nat) : State :=
  let y := (x.1, bits (s.readPlace x.1.place x.1.size) x.1.shift w ^^^ x.2)
  (s.recordAt a x.1.place (itemEdit w y)).putItem w y

/-- A write as seen from the command's scope: XOR at pool or system scope is done at the home (R240, R277). -/
def CopyCmd.atScope (c : CopyCmd) (x : Touch × Nat) : Touch × Nat :=
  if c.xor then ({ x.1 with place := x.1.place.atScope c.scope }, x.2) else x

/-- The writes of a chunk (R232, R240), after their machine checks (R332). -/
def CopyCmd.writes (c : CopyCmd) (l : List (Touch × Nat)) : M Unit := do
  let w := fmtWidth c.dst.format
  let l := l.map c.atScope
  let a := commandAuthor c.key c.born
  if c.xor then
    M.each (fun x => do
      let _ ← engineNewest c.who x.1.place x.1.size
      pure ()) l
    M.change fun s => l.foldl (fun s x => s.xorItem a (itemWidth w x) x) s
  else writeItems a w l

/-- Put a command back. -/
def State.putCopy (s : State) (c : CopyCmd) : State :=
  { s with copies := s.copies.map fun x => if x.key = c.key ∧ x.seq = c.seq then c else x }

/-- One chunk of a command: all checks before any write (R232). -/
def CopyCmd.runChunk (c : CopyCmd) : M Unit := do
  let r ← c.elements c.chunk
  c.writes r.1
  M.change fun s => s.putCopy { c with next := c.next + c.chunk.length, chunks := c.chunks + 1, counts := c.counts.add r.2 }

/-! ## Errors (R234, R235) -/

/-- Write an error record through the context's translation with supervisor rights; a fault drops it (R235). -/
def errorRecord (w : Worker) (ag : Agent) (r : List Word) : M Unit := fun s =>
  let log := w.sup.errlog.toNat
  let cx := { s.cxOf w with user := false }
  let act : M Unit := do
    let p ← placeIn cx ag log 4 .atomic none (fun _ => false) (.ok ())
    engineCheck p 4
    let n ← M.look fun s => s.readPlace p 4
    writeAllM [(p, toBytes (n + 1) 4)]
    let q ← placeIn cx ag (log + 32 + 32 * (n % 31)) 8 .store none (fun _ => false) (.ok ())
    writeAllM [(q, bytesOf r)]
  if log = 0 then .ok ((), s)
  else
    match act s with
    | .error (.trap _) => .ok ((), s)
    | x => x

/-- The error record of a command (R235). -/
def CopyCmd.record (c : CopyCmd) (w : Worker) (t : Trap) : List Word :=
  let word := fun (n : Nat) => BitVec.ofNat 64 n
  let side := match t.slot with
    | some 1 => 1
    | _ => 0
  [ word t.addr,
    word (w.wid <<< 32 + c.kcode.toNat <<< 24 + c.ecode.toNat <<< 16 + c.xf <<< 10 + ofBool c.xor <<< 9 + side <<< 8 + t.cause),
    word (c.chunks <<< 32 + c.seq), word c.pc.toNat ]

/-- A machine check met by an engine or a stack attention unit (R316, R333): the launch is aborted. -/
def engineSettle (key : Nat) (pc : PAddr) (s : State) : Except Stop (Unit × State) → State
  | .ok (_, t) => t
  | .error (.machine kind pa) => s.machineCheck (s.worker key) 7 kind pa pc
  | .error _ => s

/-- A fault in a chunk ends the command: nothing of the chunk is written, the record is, and the mark waits for the knot add
(R234, R258). -/
def CopyCmd.fail (c : CopyCmd) (t : Trap) (s : State) : State :=
  let w := s.worker c.key
  let s := if t.cause = 0x0B then s.modLaunch w.lid fun l => { l with detOff := true } else s
  let s := s.putCopy { c with failed := true }
  engineSettle c.key c.pc s (errorRecord w (.engine c.engine) (c.record w t) s)

/-- Whether the agents of a worker may work: it is not saved and its launch is not being aborted (R236, R252, R339). -/
def State.agentsMay (s : State) (key : Nat) : Bool :=
  match s.worker? key with
  | none => false
  | some w => w.status != .saved && !(s.launch w.lid).aborting

/-- Whether a command has all its chunks behind it, or has failed. -/
def CopyCmd.isOver (c : CopyCmd) : Bool := c.failed || decide (c.dst.frame ≤ c.next)

/-- Whether a command has begun. -/
def CopyCmd.begun (c : CopyCmd) : Bool := c.failed || decide (0 < c.next)

/-- Commands accepted before a given one, in issue order. -/
def before (key seq : Nat) : List CopyCmd → List CopyCmd
  | [] => []
  | x :: r => if x.key = key ∧ x.seq = seq then [] else x :: before key seq r

/-- Whether a command may start: commands that name one engine start in issue order (R231). For a command that names none the
device may choose an idle engine (R228). -/
def State.mayStart (s : State) (c : CopyCmd) : Bool :=
  c.ecode == 0xFF || !(before c.key c.seq s.copies).any fun x =>
    x.ecode != 0xFF && x.engine == c.engine && !x.begun && s.agentsMay x.key

/-- Whether a command may run its next chunk: ORD waits for every earlier command of its worker (R231). -/
def State.chunkMay (s : State) (c : CopyCmd) : Bool :=
  s.agentsMay c.key && !c.isOver && (c.begun || s.mayStart c) &&
    (!c.ord || !(s.copiesOf c.key).any fun x => decide (x.seq < c.seq))

/-- The command of a worker with a number. -/
def State.copy? (s : State) (key seq : Nat) : Option CopyCmd := s.copies.find? fun c => c.key == key && c.seq == seq

/-- One chunk, or its fault, or its machine check. -/
def State.copyChunk (s : State) (key seq : Nat) : State :=
  match s.copy? key seq with
  | none => s
  | some c =>
    if s.chunkMay c then
      match c.runChunk s with
      | .error (.trap t) => c.fail t s
      | r => engineSettle key c.pc s r
    else s

/-- COPY_CHUNK (R232). -/
def execCopyChunk (key seq : Nat) (s : State) : Host.Outcome State Fault Refusal := .next (s.copyChunk key seq)

/-! ## Completion (R233) -/

/-- Add to a completion knot, local or remote (R34, R229, R233). -/
def State.completeKnot (s : State) (key knot : Nat) (remote : Option Word) (err : Bool) : State :=
  match remote with
  | none => s.modWorker key fun w => w.addKnot knot 1 err
  | some va =>
    match windowPlace (s.cxOf (s.worker key)) va.toNat with
    | some (.knot k n) => s.addFarKnot k n 1 err
    | _ => s

/-- The writes of a command are visible at its scope (R233, R251, R281); at pool or system scope dirty pool bytes are at the
pool. After an error mark no write of the command need be (R13). -/
def State.visibleAt (s : State) (key born scope : Nat) (failed : Bool) : State :=
  let s := if failed then s else s.performCommand key born scope
  if 4 ≤ scope then s.flushAllPool else s

/-- The end of a command: a readout's counters, then the knot add with its mark (R233, R234, R239, R302). -/
def State.copyDone (s : State) (key seq : Nat) : State :=
  match s.copy? key seq with
  | none => s
  | some c =>
    if c.isOver && !(s.launch (s.worker key).lid).aborting then
      let s := { s with copies := s.copies.filter fun x => !(x.key == key && x.seq == seq) }
      let s := s.visibleAt key c.born c.scope c.failed
      let s := if c.xf = 6 ∧ !c.failed then
          s.modWorker key fun w => w.setCounts c.tileNo ((w.tileCounts c.tileNo).add c.counts)
        else s
      s.completeKnot key c.knot c.remote c.failed
    else s

/-- COPY_COMMAND_COMPLETION (R233). -/
def execCopyCommandCompletion (key seq : Nat) (s : State) : Host.Outcome State Fault Refusal := .next (s.copyDone key seq)

end Sys2Proof.Machine
end

