-- ==== Sys2Proof/Machine/Control.lean ====
section
/-! DEFINITION. Control: headlands, transfers and their outcomes, repetition ends, exit, landings as steps of their own,
traps that programs raise, and the return from them (R16 to R21, R25 to R29, R91, R94, R102, R207, R317). -/
namespace Sys2Proof.Machine

/-! ## Shared operations -/

/-- Depth of the block stack that a strand's own blocks start from (R314). -/
def Worker.base (w : Worker) (e : Eng) : Nat := if e = .S ∧ w.inHandler then w.sup.tdepth else 0

/-- Whether a block's body holds an address. -/
def Block.contains (b : Block) (a : PAddr) : Bool := decide (b.head.toNat + 4 ≤ a.toNat ∧ a.toNat < b.fin.toNat)

/-- Pop every entry whose body does not hold the target, above a base (R19, R314). -/
def popBlocks (base : Nat) (target : PAddr) (l : List Block) : List Block :=
  ((l.take (l.length - base)).filter fun b => b.contains target) ++ l.drop (l.length - base)

/-- How a taken transfer changes the block stack (R19). -/
inductive Transfer where
  | jump
  | call
  | ret (depth : Nat)
  deriving DecidableEq, Repr

/-- The block stack after a taken transfer. -/
def Transfer.stack (k : Transfer) (base : Nat) (target : PAddr) (l : List Block) : List Block :=
  match k with
  | .jump => popBlocks base target l
  | .call => l
  | .ret d => l.drop (l.length - d)

/-- A strand after a transfer by its control word of `len` parcels: it counts toward shadows and passes a boundary. -/
def Strand.jumped (t : Strand) (len : Nat) (target : PAddr) (stack : List Block) (counts : Bool) : Strand :=
  { t with pend := countDown t.pend, pos := t.pos + len, pc := target, stack := stack }.boundary counts

/-- Post an outcome to L, V, M and W once each has room; a handler posts none (R16, R314). -/
def postOutcome (o : CtlOut) : M Unit := do
  let w ← M.look State.wk
  if w.inHandler then pure ()
  else
    M.await (otherEngines.all fun e => decide ((w.strands.get e).outq.length < Config.outcomeCap))
    M.work fun w => { w with strands := w.strands.mapOthers fun t => { t with outq := t.outq ++ [o] } }

/-- S transfers to a target (R16, R19, R21). -/
def transferS (len : Nat) (k : Transfer) (target : PAddr) : M Unit := do
  let w ← M.look State.wk
  M.await (w.strands.s.room && w.slipOk .S)
  let depth := match k with
    | .ret d => d
    | _ => 0
  postOutcome ⟨true, target, 0, depth⟩
  M.work fun w =>
    let t := w.strands.s
    w.setStrand .S (t.jumped len target (k.stack (w.base .S) target t.stack) (w.counting .S))

/-- S does not transfer: the outcome says so and S goes on. -/
def fallS (len : Nat) : M Unit := do
  let t ← M.look State.st
  M.await t.room
  postOutcome ⟨false, 0, 0, 0⟩
  M.work fun w => w.setStrand .S (w.strands.s.issued len .none [])

/-- S's guarded transfer to a computed headland, with the link written for a call (R19, R91). The link holds the depth in
three bits (log 56). -/
def guardedTransfer (len : Nat) (g : Guard) (k : Transfer) (target : State → PAddr) : M Unit := do
  let s ← M.look id
  if s.view.guard g then
    if s.targetOk s.wk (target s) then
      if k = .call then
        M.work fun w =>
          let t := w.strands.s
          w.snow 31 (BitVec.ofNat 64 ((t.pc + BitVec.ofNat 57 (2 * len)).toNat + (t.stack.length % 8) <<< 57))
      else pure ()
      transferS len k (target s)
    else M.trap 1 2 (target s).toNat none
  else fallS len

/-- A strand other than S at a control word: it pops the outcome and acts on it (R16). -/
def follow (len : Nat) (kind : Nat → Transfer) : M Unit := do
  let s ← M.look id
  let e := s.curEng
  M.await s.st.room
  match s.st.outq with
  | [] => M.stall
  | o :: r =>
    if o.taken then
      M.await (s.wk.slipOk e)
      M.change fun s => s.modSt fun t =>
        { t with outq := r }.jumped len o.target ((kind o.depth).stack 0 o.target t.stack) true
    else M.change fun s => s.modSt fun t => { t with outq := r }.issued len .none []

/-- Run an action for whichever strand is in turn. -/
def runAny (act : M Unit) (s : State) : Host.Outcome State Fault Refusal :=
  if s.live then settleStop s (act s) else .fault .noWorker

/-- A control word: S evaluates it, the others follow (R16). -/
def runControl (len : Nat) (kind : Nat → Transfer) (own : M Unit) (s : State) : Host.Outcome State Fault Refusal :=
  runAny (if s.curEng = .S then own else follow len kind) s

/-- Target of `br` and `call` (R50). -/
def branchTarget (f : S64) (s : State) : PAddr := s.st.pc + BitVec.ofInt 57 (2 * f.imm.toInt)

/-- Address in a scalar (R91). -/
def scalarTarget (a : BitVec 5) (s : State) : PAddr := BitVec.ofNat 57 (s.wk.sget a.toNat).toNat

/-- The bucket that a scan of BKT0 to BKT7 takes (R207). -/
def bucketOf (v : View) (n : Nat) : Word :=
  let cap := fun i => bits (tabGet 0 v.bkt i).toNat 0 16
  match (upFrom 0 8).find? fun i => cap i != 0 && decide (n ≤ cap i) with
  | some i => tabGet 0 v.bkt i
  | none => tabGet 0 v.bkt 7

/-- Target of `sbkj` (R207). -/
def bucketTarget (a : BitVec 5) (s : State) : PAddr :=
  let b := bucketOf s.view (s.wk.sget a.toNat).toNat
  s.ln.entry + BitVec.ofInt 57 (2 * signed 48 (b.toNat >>> 16))

/-! ## Transfers (R91, R207) -/

/-- br (R91): to a headland by a parcel offset. -/
def execBr (f : S64) (s : State) : Host.Outcome State Fault Refusal :=
  runControl 4 (fun _ => .jump) (guardedTransfer 4 f.g .jump (branchTarget f)) s

/-- call (R91): as `br`, the link in s31. -/
def execCall (f : S64) (s : State) : Host.Outcome State Fault Refusal :=
  runControl 4 (fun _ => .call) (guardedTransfer 4 f.g .call (branchTarget f)) s

/-- jmpr (R91): to the headland at sA. -/
def execJmpr (g : Guard) (a : BitVec 5) (s : State) : Host.Outcome State Fault Refusal :=
  runControl 2 (fun _ => .jump) (guardedTransfer 2 g .jump (scalarTarget a)) s

/-- callr (R91): as `jmpr`, the link in s31. -/
def execCallr (g : Guard) (a : BitVec 5) (s : State) : Host.Outcome State Fault Refusal :=
  runControl 2 (fun _ => .call) (guardedTransfer 2 g .call (scalarTarget a)) s

/-- sbkj (R207): to the schedule of the first bucket that is large enough. -/
def execSbkj (f : S64) (s : State) : Host.Outcome State Fault Refusal :=
  runControl 4 (fun _ => .jump) (guardedTransfer 4 f.g .jump (bucketTarget f.a)) s

/-- ret (R19, R91): to s31[56:0] at depth s31[59:57]. -/
def execRet (s : State) : Host.Outcome State Fault Refusal :=
  runControl 1 .ret
    (do let w ← M.look State.wk
        let link := (w.sget 31).toNat
        let depth := bits link 57 3
        if w.strands.s.stack.length < depth ∨ bit link 0 then M.illegal 1
        else transferS 1 (.ret depth) (BitVec.ofNat 57 link)) s

/-- The worker in turn commits its open task. -/
def State.commitTask (s : State) : State :=
  if s.wk.openTask.isSome then
    (s.modWk fun w => { w with openTask := none }).modLaunch s.wk.lid fun l => { l with left := l.left - 1 }
  else s

/-- What the exit of a worker's last strand does: its open task is committed (R294), and worker 0's γ stands for later closes
(R205). -/
def State.lastExit (s : State) : State :=
  if s.wk.gone then
    let s1 := s.commitTask
    if s1.wk.wid = 0 then s1.modLaunch s1.wk.lid fun l => { l with exitGamma := s1.wk.strands.s.view.gamma } else s1
  else s

/-- exit (R17): the strand in turn stops issuing and lets its pending writes land; a release at device scope of what it wrote
(R290). In a handler S stays where it is. -/
def execExit (s : State) : Host.Outcome State Fault Refusal :=
  runAny
    (do M.await (!(s.curEng == .S && s.wk.inHandler) && s.st.room)
        M.change fun s => ((s.release 3).modSt fun t =>
          { t with exited := true, pend := interlock t.pend, pc := t.pc + 2, pos := t.pos + 1 }).lastExit) s

/-! ## Headlands (R18, R19) -/

/-- Whether the body from `a` to `fin` ends on an instruction boundary, as far as its text can be read (R18). -/
def State.bodyEnds (s : State) (w : Worker) (fin : Nat) : Nat → Nat → Bool
  | 0, _ => false
  | n + 1, a =>
    if fin ≤ a then a == fin
    else
      match s.fetchParcel w (BitVec.ofNat 57 a) with
      | .error _ => true
      | .ok p =>
        match lenOf p with
        | none => true
        | some l => State.bodyEnds s w fin n (a + 2 * l)

/-- The checks that S makes at a headland, its count apart (R18). -/
def State.headOk (s : State) (blen : Nat) : Bool :=
  let w := s.wk
  let t := w.strands.s
  let fin := t.pc.toNat + 4 + 2 * blen
  let inside := match t.stack with
    | b :: _ => decide (t.stack.length ≤ w.base .S) || decide (fin ≤ b.fin.toNat)
    | [] => true
  decide (0 < blen) && inside && s.bodyEnds w fin (blen + 1) (t.pc.toNat + 4)

/-- Enter a block `count` times, or pass it by (R18, R19, R28). -/
def enterBlock (blen : Nat) (rot : Bool) (count : Nat) : M Unit := do
  let s ← M.look id
  let e := s.curEng
  let pc := s.st.pc
  let fin := pc + BitVec.ofNat 57 (4 + 2 * blen)
  M.await s.st.room
  if count = 0 then M.change fun s => s.modSt fun t => { t with pc := fin, pos := t.pos + 2 }
  else if e = .S ∧ s.wk.base .S + 4 ≤ s.st.stack.length then M.illegal 1
  else
    M.await (s.wk.slipOk e)
    M.change fun s => s.modSt fun t =>
      { t with stack := ⟨pc, fin, count, rot⟩ :: t.stack, pc := pc + 4, pos := t.pos + 2 }.boundary (s.wk.counting e)

/-- Headland with an immediate count (R18): every strand reads REP for itself. S alone raises the faults of an illegal one; a
strand that comes there first passes or enters it as it reads (log 49). -/
def execHeadland (b : BitVec 11) (r : Bool) (n : BitVec 14) (s : State) : Host.Outcome State Fault Refusal :=
  runAny
    (if s.curEng = .S then
        (if s.headOk b.toNat && n != 0 then enterBlock b.toNat r n.toNat else M.illegal 1)
      else enterBlock b.toNat r n.toNat) s

/-- Headland with a counted register (R16, R18): S reads the count and posts it. -/
def execHeadlandCounted (b : BitVec 11) (r : Bool) (c : BitVec 5) (s : State) : Host.Outcome State Fault Refusal :=
  runAny
    (if s.curEng = .S then
        (if s.headOk b.toNat then
          (do let n := (s.wk.sget c.toNat).toNat
              enterBlock b.toNat r n
              postOutcome ⟨true, 0, n, 0⟩)
        else M.illegal 1)
      else
        (do match s.st.outq with
            | [] => M.stall
            | o :: q =>
              enterBlock b.toNat r o.count
              M.change fun s => s.modSt fun t => { t with outq := q })) s

/-- The end of a repetition, with its rotation (R19, R29); nothing where the strand is not there or the slip window holds. The
pop that comes with the last repetition is no second boundary, nor are the pops of a taken transfer (R20, log 49). -/
def repetitionEnds (s : State) : State :=
  let w := s.wk
  let e := s.curEng
  let t := s.st
  match t.stack with
  | [] => s
  | b :: r =>
    if s.live && w.atEnd e && w.slipOk e then
      let t := { t with rrb := if b.rot then (t.rrb + 1) % 64 else t.rrb }
      let t := if 1 < b.left then { t with stack := { b with left := b.left - 1 } :: r, pc := b.head + 4 } else { t with stack := r }
      s.setSt (t.boundary (w.counting e))
    else s

/-- REPETITION_END (R19, R29). -/
def execRepetitionEnd (s : State) : Host.Outcome State Fault Refusal := .next (repetitionEnds s)

/-! ## Landings as steps (R23, R25, R32) -/

/-- WRITE_LANDING (R25, R26, R36, R45). -/
def execWriteLanding (s : State) : Host.Outcome State Fault Refusal := .next (if s.live then landWrite s else s)

/-- QUEUE_PUSH (R32): the due push enters its queue, or waits for room. -/
def execQueuePush (s : State) : Host.Outcome State Fault Refusal := .next (if s.live then pushQueue s else s)

/-- TOKEN_PUSH (R23): the due token enters its queue, or waits for room. -/
def execTokenPush (s : State) : Host.Outcome State Fault Refusal := .next (if s.live then pushToken s else s)

/-! ## Hints and traps (R94, R102, R317) -/

/-- nop (R94). -/
def execNop (s : State) : Host.Outcome State Fault Refusal := runS 1 none M.nothing M.nothing s

/-- spin (R94): a hint without effect on results. -/
def execSpin (s : State) : Host.Outcome State Fault Refusal := runS 1 none M.nothing M.nothing s

/-- yield (R94, R318): takes a pending pre-emption request at this boundary, else as `nop`. The trap of cause 0x11 is the
notice that follows the restore (R312, R322, log 44). -/
def execYield (s : State) : Host.Outcome State Fault Refusal :=
  runS 1 none
    (do M.await (!s.wk.preempt || s.wk.insertion.isNone)
        M.work fun w => if w.preempt then { w with status := .stopped } else w
        pure .none) M.nothing s

/-- brk (R102): the trap of cause 0x0F. -/
def execBrk (c : BitVec 6) (s : State) : Host.Outcome State Fault Refusal := runOwn .S (M.trap 0x0F 0 c.toNat none) s

/-- strap (R102): completes, then takes the trap of cause 0x10 with TPC after it. -/
def execStrap (g : Guard) (c : BitVec 10) (s : State) : Host.Outcome State Fault Refusal :=
  runOwn .S
    (do M.await (!s.view.guard g || s.wk.insertion.isNone)
        issueS 2 (some g) M.nothing M.nothing
        M.change fun t => if s.view.guard g then t.takeTrap .S t.st.pc ⟨0x10, 0, c.toNat, none⟩ else t) s

/-- Every strand of a worker acquires at core scope. -/
def Worker.acquireAll (w : Worker) (tick : Nat) : Worker :=
  { w with strands := w.strands.map fun t => { t with acq := t.acq.take 1 tick } }

/-- The state after the return of R317: every access of the handler is performed at device scope, before any access of the
strands that resume; with a held notice taken (R322). -/
def State.returned (s : State) : State :=
  let w := s.wk
  let w := if w.inHandler then w else { w with stopPc := s.st.pc + 2, stopPos := s.st.pos + 1 }
  let s := (s.releaseAs 3 true).setWk (w.returned.acquireAll s.tick)
  match w.note with
  | none => s
  | some _ =>
    let s := s.setWk { s.wk with note := none }
    s.takeTrap .S s.wk.strands.s.pc ⟨0x11, 0, 0, none⟩

/-- eret (R317): the return from a handler, once S's handler writes have landed. -/
def execEret (s : State) : Host.Outcome State Fault Refusal :=
  runOwn .S
    (do let w := s.wk
        if !w.sup.priv then M.trap 2 0 0 none
        else if w.strands.s.stack.length < w.sup.tdepth ∨ w.sup.tpc.getLsbD 0 then M.illegal 1
        else if w.strands.s.pend.isEmpty then M.change State.returned
        else M.change fun s => s.modSt fun t => { t with pend := interlock t.pend }) s

end Sys2Proof.Machine
end

