-- ==== Sys2Proof/Machine/Sync.lean ====
section
/-! DEFINITION. Fences, waits, knots, scalar queues, tokens, groups, tasks, commits and early start (R23, R34, R92, R93,
R98 to R101, R205, R257, R290, R292 to R296). Every access is performed when its instruction issues (log 4); until its strand
performs it at a scope that holds them, other agents may miss it (log 45). -/
namespace Sys2Proof.Machine

/-! ## Waiting -/

/-- Issue an S instruction that may have to wait after it has begun: `none` keeps what it did and stays (R101, R296). -/
def issueWait (len : Nat) (g : Guard) (on : M (Option Issue)) : M Unit := do
  let t ← M.look State.st
  M.await (t.room)
  if t.view.guard g then
    let i ← on
    match i with
    | none => pure ()
    | some i => M.change fun s => s.modSt fun t => { t with wait := none }.issued len i []
  else M.change fun s => s.modSt fun t => t.issued len .none []

/-- The scope at which a look at a knot acquires: core, or device once an add has come through the knot window (R34, R265). -/
def Worker.knotScope (w : Worker) (k : Nat) : Nat := if w.farKnots.contains k then 3 else 1

/-- A knot wait by the strand in turn: satisfied now or since it began, with its acquire, else it begins or goes on (R34,
R101). -/
def knotWait (k : Nat) (n : BitVec 32) : M (Option Issue) := do
  let s ← M.look id
  if s.st.wait = some .met ∨ (s.wk.knot k).reaches n then do
    M.change fun s => s.acquire (s.wk.knotScope k)
    pure (some .none)
  else
    M.change fun s => s.modSt fun t => { t with wait := some (.knot k n) }
    pure none

/-! ## Fences and settle (R92, R93) -/

/-- fence (R92): all but the acquire kind release at the scope, the full kind and `rel.un` UN writes too; the acquire and the full
kind acquire at it. At strand scope a fence does nothing (R263, R265, R274). -/
def execFence (k : BitVec 3) (sc : BitVec 3) (s : State) : Host.Outcome State Fault Refusal :=
  runS 1 none
    (do if k ≠ 1 ∧ sc ≠ 0 then M.change fun s => s.releaseAs sc.toNat (k == 0 || k == 4) else pure ()
        if k = 0 ∨ k = 1 then M.change fun s => s.acquire sc.toNat else pure ()
        pure .none) M.nothing s

/-- Whether a strand has issued, landed and pushed everything before a text position (R93). -/
def Strand.settled (t : Strand) (pos : Nat) : Bool :=
  (t.exited || decide (pos ≤ t.pos)) && t.pend.all fun p => decide (pos ≤ p.pos)

/-- Whether a write is an access of L, V, M or W of a worker before a text position (R93). -/
def Write.settledBy (u : Write) (key pos : Nat) : Bool :=
  decide (u.pos < pos) && otherEngines.any fun e => u.who == some (strandWho key e)

/-- settle (R93): the other strands' accesses are performed at core scope, and S acquires them. -/
def execSettle (s : State) : Host.Outcome State Fault Refusal :=
  runS 1 none
    (do let w := s.wk
        let pos := if w.inHandler then w.stopPos else w.strands.s.pos
        M.await (otherEngines.all fun e => (w.strands.get e).settled pos)
        M.change fun s => (s.performAll (·.settledBy s.curKey pos) 1 s.wk.core).acquire 1
        pure .none) M.nothing s

/-! ## Scalar queues and S's tokens (R98) -/

/-- Push a value to q14 (R32). -/
def pushQ14 (x : Word) : M Issue := do
  let w ← M.look State.wk
  M.await (decide (w.q14.length < Config.wordCap))
  M.work fun w => { w with q14 := w.q14 ++ [x] }
  pure .none

/-- sqpush (R98): guarded off it pushes 0. -/
def execSqpush (g : Guard) (a : BitVec 5) (s : State) : Host.Outcome State Fault Refusal :=
  runS 2 (some g) (pushQ14 (s.wk.sget a.toNat)) (pushQ14 0) s

/-- Pop q15, waiting for an entry. -/
def popQ15 : M Word := do
  let w ← M.look State.wk
  match w.q15 with
  | [] => M.stall
  | x :: r =>
    M.work fun w => { w with q15 := r }
    pure x

/-- sqpop (R98): guarded off it pops and discards. -/
def execSqpop (g : Guard) (d : BitVec 5) (s : State) : Host.Outcome State Fault Refusal :=
  runS 2 (some g)
    (do let x ← popQ15
        writeS d.toNat fun _ => x)
    (do let _ ← popQ15
        pure .none) s

/-- sqfree (R98): free entries of q15 and q14. -/
def execSqfree (g : Guard) (d : BitVec 5) (s : State) : Host.Outcome State Fault Refusal :=
  runS 2 (some g)
    (writeS d.toNat fun w => BitVec.ofNat 64 ((Config.wordCap - w.q15.length) + (Config.wordCap - w.q14.length) <<< 8))
    M.nothing s

/-- Push a token to S→L: a release at core scope (R24). -/
def pushSL : M Issue := do
  let w ← M.look State.wk
  M.await (decide (w.tokensIn .SL < Config.tokenCap))
  M.work fun w => w.setTokens .SL (w.tokensIn .SL + 1)
  M.change fun s => s.release 1
  pure .none

/-- Pop a token from W→S: an acquire (R24). -/
def popWS : M Issue := do
  let w ← M.look State.wk
  M.await (decide (0 < w.tokensIn .WS))
  M.work fun w => w.setTokens .WS (w.tokensIn .WS - 1)
  M.change fun s => s.acquire 1
  pure .none

/-- stok (R98): pushes whether or not it is guarded off. -/
def execStok (g : Guard) (s : State) : Host.Outcome State Fault Refusal := runS 2 (some g) pushSL pushSL s

/-- stokw (R98): pops whether or not it is guarded off. -/
def execStokw (g : Guard) (s : State) : Host.Outcome State Fault Refusal := runS 2 (some g) popWS popWS s

/-! ## Knots (R34, R99 to R101) -/

/-- kadd (R99). -/
def execKadd (g : Guard) (d a : BitVec 5) (s : State) : Host.Outcome State Fault Refusal :=
  runS 2 (some g)
    (do M.work fun w => w.addKnot d.toNat ((w.sget a.toNat).extractLsb' 0 32) false
        M.change fun s => s.release 1
        pure .none) M.nothing s

/-- kaddi (R99). -/
def execKaddi (g : Guard) (d : BitVec 5) (i : BitVec 10) (s : State) : Host.Outcome State Fault Refusal :=
  runS 2 (some g)
    (do M.work fun w => w.addKnot d.toNat (i.signExtend 32) false
        M.change fun s => s.release 1
        pure .none) M.nothing s

/-- kset (R99). -/
def execKset (g : Guard) (d a : BitVec 5) (s : State) : Host.Outcome State Fault Refusal :=
  runS 2 (some g)
    (do M.work fun w =>
          { w.setKnot d.toNat ⟨(w.sget a.toNat).extractLsb' 0 32, (w.sget a.toNat).getLsbD 32⟩ with
            farKnots := w.farKnots.filter (· ≠ d.toNat) }
        M.change fun s => s.release 1
        pure .none) M.nothing s

/-- kread (R99): an acquire. -/
def execKread (g : Guard) (d a : BitVec 5) (s : State) : Host.Outcome State Fault Refusal :=
  runS 2 (some g)
    (do M.change fun s => s.acquire (s.wk.knotScope a.toNat)
        writeS d.toNat fun w => BitVec.ofNat 64 (w.knot a.toNat).word) M.nothing s

/-- kwait (R99). -/
def execKwait (g : Guard) (d a : BitVec 5) (s : State) : Host.Outcome State Fault Refusal :=
  runOwn .S (issueWait 2 g (knotWait d.toNat ((s.wk.sget a.toNat).extractLsb' 0 32))) s

/-- kwaiti (R99). -/
def execKwaiti (g : Guard) (d : BitVec 5) (i : BitVec 10) (s : State) : Host.Outcome State Fault Refusal :=
  runOwn .S (issueWait 2 g (knotWait d.toNat (i.zeroExtend 32))) s

/-- An engine-form knot add (R100): applied when every earlier instruction of the strand has completed. -/
def engineKadd (e : Eng) (f : E64) (s : State) : Host.Outcome State Fault Refusal :=
  runE64 e f (pure ⟨[.knotAdd f.d8.toNat (f.bc.zeroExtend 32)], 0, true⟩) M.nothing s

/-- An engine-form knot wait (R100): its tokens are popped when it begins (R23). -/
def engineKwait (e : Eng) (f : E64) (s : State) : Host.Outcome State Fault Refusal :=
  runOwn e
    (do let w := s.wk
        let t := s.st
        M.await (t.room)
        let begun := t.wait.isSome
        M.await (begun || (tokPops e f.tk).all fun q => decide (0 < w.tokensIn q))
        if begun then pure ()
        else M.change fun s =>
          (s.modWk fun w => (tokPops e f.tk).foldl (fun w q => w.setTokens q (w.tokensIn q - 1)) w).popAcquire e f.tk
        let go ← if t.view.guard f.g then knotWait f.d8.toNat (f.bc.zeroExtend 32) else pure (some .none)
        match go with
        | none => pure ()
        | some i => M.change fun s => s.modSt fun t => { t with wait := none }.issued 4 i (tokPushes e f.tk)) s

/-- An engine's nop (R100): tokens and guard only. -/
def engineNop (e : Eng) (f : E64) (s : State) : Host.Outcome State Fault Refusal := runE64 e f M.nothing M.nothing s

/-- lkadd (R100). -/
def execLkadd (f : E64) (s : State) : Host.Outcome State Fault Refusal := engineKadd .L f s
/-- vkadd (R100). -/
def execVkadd (f : E64) (s : State) : Host.Outcome State Fault Refusal := engineKadd .V f s
/-- mkadd (R100). -/
def execMkadd (f : E64) (s : State) : Host.Outcome State Fault Refusal := engineKadd .M f s
/-- wkadd (R100). -/
def execWkadd (f : E64) (s : State) : Host.Outcome State Fault Refusal := engineKadd .W f s
/-- lkwait (R100). -/
def execLkwait (f : E64) (s : State) : Host.Outcome State Fault Refusal := engineKwait .L f s
/-- vkwait (R100). -/
def execVkwait (f : E64) (s : State) : Host.Outcome State Fault Refusal := engineKwait .V f s
/-- mkwait (R100). -/
def execMkwait (f : E64) (s : State) : Host.Outcome State Fault Refusal := engineKwait .M f s
/-- wkwait (R100). -/
def execWkwait (f : E64) (s : State) : Host.Outcome State Fault Refusal := engineKwait .W f s
/-- lnop (R100). -/
def execLnop (f : E64) (s : State) : Host.Outcome State Fault Refusal := engineNop .L f s
/-- vnop (R100). -/
def execVnop (f : E64) (s : State) : Host.Outcome State Fault Refusal := engineNop .V f s
/-- mnop (R100). -/
def execMnop (f : E64) (s : State) : Host.Outcome State Fault Refusal := engineNop .M f s
/-- wnop (R100). -/
def execWnop (f : E64) (s : State) : Host.Outcome State Fault Refusal := engineNop .W f s

/-! ## Groups (R295, R296) -/

/-- Arrivals of a worker at a group. -/
def Worker.arrived (w : Worker) (g : Nat) : Nat := tabGet 0 w.arrivals g

/-- Member set of a group, as a bit per logical worker (R295). -/
def Launch.members (l : Launch) (g : Nat) : Nat := nth 0 l.groups g

/-- Whether every member of a group has arrived at generation `k` or exited (R296). -/
def State.generationDone (s : State) (lid g k : Nat) : Bool :=
  let l := s.launch lid
  (upFrom 0 l.workersN).all fun i =>
    !(l.members g).testBit i ||
      match s.worker? (workerKey lid i) with
      | some w => w.gone || w.status == .done || decide (k ≤ w.arrived g)
      | none => true

/-- Generations of a group that the worker has arrived at and that are not complete. -/
def State.openGenerations (s : State) (lid g n : Nat) : Nat :=
  ((upFrom 1 n).filter fun k => !s.generationDone lid g k).length

/-- Trap of an instruction on a group that the worker is no member of (R296). -/
def memberOnly (g : Nat) : M Unit := do
  let s ← M.look id
  if (s.ln.members g).testBit s.wk.wid then pure () else M.trap 0x0E 0 3 none

/-- Whether a group holds every worker of the launch (R257). -/
def Launch.everyone (l : Launch) (g : Nat) : Bool := decide (l.members g = 2 ^ l.workersN - 1)

/-- The worker in turn arrives at its next generation of a group: a release at device scope (R257, R296). -/
def arrive (g : Nat) : M Unit := do
  M.work fun w => { w with arrivals := tabSet 0 w.arrivals g (w.arrived g + 1) }
  M.change fun s => s.release 3

/-- Whether a wait for a generation, and for the end of a phase, is over (R257, R296). -/
def State.waitOver (s : State) (lid : Nat) : Wait → Bool
  | .group g k ph =>
    s.generationDone lid g k &&
      match ph with
      | none => true
      | some p => decide (p < (s.launch lid).phase)
  | .met => true
  | .knot _ _ => false

/-- sgarr (R296). -/
def execSgarr (g : Guard) (c : BitVec 10) (s : State) : Host.Outcome State Fault Refusal :=
  runS 2 (some g)
    (do memberOnly c.toNat
        let n := s.wk.arrived c.toNat
        M.await (decide (s.openGenerations s.wk.lid c.toNat n < 16))
        arrive c.toNat
        pure .none) M.nothing s

/-- A wait of `sgsync` is over: it acquires at device scope (R257, R296). -/
def groupReturn : M (Option Issue) := do
  M.change fun s => s.acquire 3
  pure (some .none)

/-- sgsync (R257, R296): arrives, then waits for the generation and, after a commit in a deterministic launch without tasks,
for the phase. -/
def execSgsync (g : Guard) (c : BitVec 10) (s : State) : Host.Outcome State Fault Refusal :=
  runOwn .S
    (issueWait 2 g
      (do match s.st.wait with
          | some w => if s.waitOver s.wk.lid w then groupReturn else pure none
          | none =>
            memberOnly c.toNat
            let l := s.ln
            let k := s.wk.arrived c.toNat + 1
            let ph := if l.det && l.ntask == 0 && l.everyone c.toNat && s.wk.committed then some l.phase else none
            arrive c.toNat
            let t ← M.look id
            if t.waitOver s.wk.lid (.group c.toNat k ph) then groupReturn
            else
              M.change fun s => s.modSt fun t => { t with wait := some (.group c.toNat k ph) }
              pure none)) s

/-! ## Tasks and commits (R257, R292 to R294) -/

/-- Deque of a worker. -/
def Launch.deque (l : Launch) (w : Nat) : List Nat := tabGet [] l.deques w

/-- Take the last element of a list. -/
def takeLast (l : List Nat) : Option (Nat × List Nat) :=
  match l.reverse with
  | [] => none
  | x :: r => some (x, r.reverse)

/-- The task that `stask` finds: the own head, else the first victim's tail round the ring (R293). -/
def Launch.findTask (l : Launch) (w : Nat) : Option (Nat × Launch) :=
  match l.deque w with
  | x :: r => some (x, { l with deques := tabSet [] l.deques w r })
  | [] =>
    let n := l.workersN
    let ring := (upFrom (w + 1) (n - 1)).map fun i => i % n
    match ring.find? fun v => !(l.deque v).isEmpty with
    | none => none
    | some v =>
      match takeLast (l.deque v) with
      | none => none
      | some (x, r) => some (x, { l with deques := tabSet [] l.deques v r })

/-- Whether no later phase brings tasks (R293). -/
def Launch.lastPhase (l : Launch) : Bool := !l.det || l.ntask == 0 || decide (l.nphase ≤ l.phase + 1)

/-- stask (R293): a task, −1 when none remain, or a wait for the next phase; its return acquires at device scope. -/
def execStask (g : Guard) (d : BitVec 5) (s : State) : Host.Outcome State Fault Refusal :=
  runS 2 (some g)
    (do let l := s.ln
        let w := s.wk
        if l.det ∧ w.openTask.isSome then M.trap 0x0E 0 1 none
        else
          match l.findTask w.wid with
          | some (x, l') =>
            M.change fun s => s.putLaunch w.lid l'
            M.work fun w => if l.det then { w with openTask := some x } else w
            M.change fun s => s.acquire 3
            pure (.after 2 [.sreg d.toNat (BitVec.ofNat 64 x)])
          | none =>
            M.await l.lastPhase
            M.change fun s => s.acquire 3
            pure (.after 2 [.sreg d.toNat (BitVec.ofInt 64 (-1))])) M.nothing s

/-- scommit (R257, R294): a release at device scope. -/
def execScommit (g : Guard) (s : State) : Host.Outcome State Fault Refusal :=
  runS 2 (some g)
    (do let l := s.ln
        let w := s.wk
        if !l.det then
          M.change fun s => s.release 3
          pure .none
        else if l.ntask = 0 then
          if w.committed then M.trap 0x0E 0 2 none
          else
            M.work fun w => { w with committed := true }
            M.change fun s => s.release 3
            pure .none
        else if w.openTask.isSome then
          M.change fun s => s.commitTask.release 3
          pure .none
        else M.trap 0x0E 0 2 none) M.nothing s

/-! ## Early start (R290) -/

/-- Queue of a LID. -/
def lidQueue (lid : Nat) : Nat := lid >>> 57

/-- Record number of a LID. -/
def lidIndex (lid : Nat) : Nat := lid % 2 ^ 57

/-- The account of a queue. -/
def State.account (s : State) (q : Nat) : QueueSt := (tabFind s.queues q).getD .zero

/-- Whether the record of a LID has completed. -/
def State.isComplete (s : State) (lid : Nat) : Bool :=
  match tabFind s.launches lid with
  | some l => l.state == .complete
  | none => decide (lidIndex lid < (s.account (lidQueue lid)).done)

/-- Whether every worker of a launch has triggered or exited: not while its record is still QUEUED (R287, R290). -/
def State.launchTriggered (s : State) (lid : Nat) : Bool :=
  match tabFind s.launches lid with
  | none => s.isComplete lid
  | some l =>
    match l.state with
    | .complete => true
    | .waiting => false
    | .ready => false
    | _ => (s.keysOf lid).all fun k => (s.worker k).triggered || (s.worker k).gone || (s.worker k).status == .done

/-- sdtrig (R290): a release at device scope; a second one does nothing. -/
def execSdtrig (g : Guard) (s : State) : Host.Outcome State Fault Refusal :=
  runS 2 (some g)
    (do M.change fun s => if s.wk.triggered then s else (s.modWk fun w => { w with triggered := true }).release 3
        pure .none) M.nothing s

/-- sdwait (R290): an acquire at device scope. -/
def execSdwait (g : Guard) (s : State) : Host.Outcome State Fault Refusal :=
  runS 2 (some g)
    (do M.await (s.ln.producers.all s.launchTriggered)
        M.change fun s => s.acquire 3
        pure .none) M.nothing s

/-! ## Expert counts (R205, R206) -/

/-- smbend (R205, R206): outside deterministic launches S waits for W's earlier sends and contributes its counts. In a handler
its text position is the trap point (log 60). -/
def execSmbend (g : Guard) (s : State) : Host.Outcome State Fault Refusal :=
  runS 2 (some g)
    (do let w := s.wk
        let l := s.ln
        if l.det then
          M.change fun s => s.modLaunch w.lid fun l => { l with smbend := true }
          pure .none
        else
          let t := w.strands.w
          M.await (t.exited || decide ((if w.inHandler then w.stopPos else w.strands.s.pos) ≤ t.pos))
          let old := tabGet [] l.contrib w.wid
          M.change fun s => s.modLaunch w.lid fun l =>
            { l with contrib := tabPut l.contrib w.wid (old ++ [(w.sent, s.view.gamma)]) }
          M.work fun w => { w with sent := [] }
          pure .none) M.nothing s

end Sys2Proof.Machine
end

