-- ==== Sys2Proof/Machine/Routing.lean ====
section
/-! DEFINITION. Expert routing: `wsend` (R208, R209), the receiving units and refusals (R210, R211), and the close of a
micro-batch (R203, R205, R206). -/
namespace Sys2Proof.Machine

/-! ## wsend (R209) -/

/-- The entry of an expert in the placement table (R208). -/
def Launch.placeOf (l : Launch) (e : Nat) : Nat := (nth 0 l.place e).toNat

/-- Whether an expert lies on another device than this (R208). -/
def State.farExpert (s : State) (l : Launch) (e : Nat) : Bool := bits (l.placeOf e) 48 10 != s.devnum.toNat

/-- Whether row `r` is sent: its mask bit is set and its expert is not negative (R209). -/
def sendsRow (m : Option Nat) (ix : Nat → Int) (r : Nat) : Bool := activeIn m r && decide (0 ≤ ix r)

/-- The checks on the sending rows, in order (R209). -/
def checkExperts (l : Launch) (ix : Nat → Int) : List Nat → M Unit
  | [] => pure ()
  | r :: rest => do
    let e := (ix r).toNat
    if e < l.nexp ∧ bit (l.placeOf e) 63 then checkExperts l ix rest else M.trap 0x08 0 e (some r)

/-- The request of a row of `g0` slots at a width. -/
def State.sendReq (s : State) (f : E64) (a : Src) (w g0 r : Nat) : SendReq :=
  let row := packSlots w ((upFrom (g0 * r) g0).map (a.slot w))
  { lid := s.wk.lid, sender := s.wk.wid, row := r, expert := (s.indexAt f.b8 r).toNat
    token := BitVec.ofInt 32 (s.indexAt f.c8 r), data := toBytes row (g0 * w / 8), knot := f.d8.toNat, phase := s.ln.phase
    peer := false }

/-- Count a row sent to an expert (R205). -/
def Worker.countSent (w : Worker) (e : Nat) : Worker := { w with sent := tabSet 0 w.sent e (tabGet 0 w.sent e + 1) }

/-- wsend (R209): the requests are handed over at issue, a release at device scope or, when a row leaves the device, at system
scope. -/
def execWsend (f : E64) (s : State) : Host.Outcome State Fault Refusal :=
  let fmt := f.fmt5.toNat
  let w := fmtWidth fmt
  runE64 .W f
    (do let s ← M.look id
        let sh := s.view.shape
        M.legal (cvtFmt fmt && decide (sh.slots ≤ 8192) && sh.fits w)
        let a ← readSrc f.a8 (some w)
        let g0 := sh.size 0
        let l := s.ln
        let ix := s.indexAt f.b8
        let rows := (upFrom 0 (sh.slots / g0)).filter (sendsRow (s.maskOf f.lo3) ix)
        checkExperts l ix rows
        M.change fun t => t.release (if rows.any fun r => s.farExpert l (ix r).toNat then 5 else 3)
        M.change fun t => { t with sends := t.sends ++ rows.map (s.sendReq f a w g0) }
        M.work fun w => rows.foldl (fun w r => w.countSent (ix r).toNat) w
        pure .none)
    (do discard [(f.a8, some w)]
        pure .none) s

/-! ## Admit units (R210, R211) -/

/-- The refusal of a request, as its queue entry and its knot (R210). -/
def SendReq.refusal (q : SendReq) (reason : Nat) : RefusalMsg :=
  ⟨workerKey q.lid q.sender, BitVec.ofNat 64 (reason <<< 60 + q.expert <<< 32 + q.token.toNat), q.knot⟩

/-- What an admitted row writes into the window at `woff`, as scratchpad offsets and bytes: FILL, then its slot. -/
def SendReq.slotWrites (q : SendReq) (woff fill rowb : Nat) : List (Nat × List Byte) :=
  [(woff + 4, toBytes (fill + 1) 4), (woff + 32 + fill * (8 + rowb), toBytes q.token.toNat 8 ++ q.data)]

/-- The decision of R210: the window's worker with the row in its slot and its arrival knot added to, or the reason of a
refusal. -/
def Worker.takeRow (w : Worker) (woff : Nat) (q : SendReq) : Except Nat Worker :=
  let word := fun i => w.spad.nat (woff + 4 * i) 4
  let cap := word 0
  let fill := word 1
  let rowb := word 2
  let kn := word 3
  if 31 < kn ∨ Config.spadBytes < woff + 32 + cap * (8 + rowb) then .error 2
  else if rowb ≠ q.data.length then .error 1
  else if cap ≤ fill then .error 0
  else
    let m := (q.slotWrites woff fill rowb).foldl (fun (m : Memory) x => m.writeBytes x.1 x.2) w.spad
    .ok ({ w with spad := m }.addKnot kn 1 false)

/-- Whether the placement table here has a window for a request: at its sender that was checked before it was sent (R209), of
a peer's request it is not known (R276, log 33). -/
def State.placed? (s : State) (q : SendReq) : Bool :=
  let l := s.launch q.lid
  !q.peer || (decide (q.expert < l.nexp) && bit (l.placeOf q.expert) 63 && !s.farExpert l q.expert)

/-- Decide a request at its window: the state, and the refusal if there is one. Every agent sees the row and FILL at once. A
window of a worker that is not there is refused as invalid; one of a worker that has completed stands while its launch does (log
32). -/
def State.decideRequest (s : State) (q : SendReq) : State × Option RefusalMsg :=
  let e := (s.launch q.lid).placeOf q.expert
  let key := workerKey q.lid (bits e 32 16)
  match (if s.placed? q then s.worker? key else none) with
  | none => (s, some (q.refusal 2))
  | some w =>
    let woff := bits e 0 19
    match w.takeRow woff q with
    | .ok w' =>
      let s := (q.slotWrites woff (w.spad.nat (woff + 4) 4) q.data.length).foldl (fun s x => s.noteDone (.spad key) x.1 x.2) s
      (s.putWorker key w', none)
    | .error x => (s, some (q.refusal x))

/-- A refusal arrives: the queue of 64 or LOSTREF, REFCNT, then the refusal knot (R210). -/
def Worker.refused (w : Worker) (m : RefusalMsg) : Worker :=
  let w1 := if w.refq.length < 64 then { w with refq := w.refq ++ [m.entry] } else { w with lostref := true }
  { w1 with refcnt := satAdd w1.refcnt 1 }.addKnot m.knot 1 false

/-- Whether a request has its window on this device: every request of a peer has (R276), one of this device's own by the
placement table (R208). -/
def State.homeRequest (s : State) (q : SendReq) : Bool := q.peer || !s.farExpert (s.launch q.lid) q.expert

/-- The packet that takes a refusal back to a peer device (R210, log 33): its queue entry and its knot. -/
def RefusalMsg.packet (m : RefusalMsg) : List Byte := toBytes m.entry.toNat 8 ++ toBytes m.knot 8

/-- A refusal goes back to the sender, on this device or on a peer. -/
def State.sendRefusal (s : State) (q : SendReq) (m : RefusalMsg) : State :=
  if q.peer then { s with replies := s.replies ++ [m.packet] } else { s with refusals := s.refusals ++ [m] }

/-- The n-th request is decided by its receiving unit, or held to the phase's end in a deterministic launch (R211). A request for
another device leaves this one (log 33). -/
def State.admitRequest (s : State) (n : Nat) : State :=
  match s.sends[n]? with
  | none => s
  | some q =>
    let l := s.launch q.lid
    let rest := { s with sends := dropNth s.sends n }
    if l.aborting || !s.homeRequest q then rest
    else if l.det then s
    else
      let r := rest.decideRequest q
      match r.2 with
      | none => r.1
      | some m => r.1.sendRefusal q m

/-- ADMIT_REQUEST (R210). -/
def execAdmitRequest (n : Nat) (s : State) : Host.Outcome State Fault Refusal := .next (s.admitRequest n)

/-- The n-th refusal packet arrives. -/
def State.refusalArrival (s : State) (n : Nat) : State :=
  match s.refusals[n]? with
  | none => s
  | some m => { s with refusals := dropNth s.refusals n }.modWorker m.key fun w => w.refused m

/-- REFUSAL_ARRIVAL (R210). -/
def execRefusalArrival (n : Nat) (s : State) : Host.Outcome State Fault Refusal := .next (s.refusalArrival n)

/-- Insert into a list ordered by a comparison, after its equals. -/
def insertBy {α : Type} (before : α → α → Bool) (x : α) : List α → List α
  | [] => [x]
  | y :: r => if before x y then x :: y :: r else y :: insertBy before x r

/-- Order a list by a comparison. -/
def sortBy {α : Type} (before : α → α → Bool) (l : List α) : List α := l.foldl (fun r x => insertBy before x r) []

/-- The order in which a receiving unit decides held requests: token id as it is stored, without a sign (log 60), sender, row
(R211). -/
def SendReq.before (a b : SendReq) : Bool :=
  decide (a.token.toNat < b.token.toNat) ||
    (a.token == b.token && (decide (a.sender < b.sender) || (a.sender == b.sender && decide (a.row < b.row))))

/-- The order in which a sender's refusals of a phase are delivered: token id, expert (R211). -/
def RefusalMsg.before (a b : RefusalMsg) : Bool :=
  let t := fun (m : RefusalMsg) => bits m.entry.toNat 0 32
  let e := fun (m : RefusalMsg) => bits m.entry.toNat 32 10
  decide (t a < t b) || (t a == t b && decide (e a < e b))

/-- The held requests of a launch decided at the end of a phase, and their refusals delivered (R211). -/
def State.decideHeld (s : State) (lid : Nat) : State :=
  let held := sortBy SendReq.before (s.sends.filter fun q => q.lid == lid)
  let s0 := { s with sends := s.sends.filter fun q => q.lid != lid }
  let step := fun (x : State × List RefusalMsg) (q : SendReq) =>
    if !x.1.homeRequest q then x
    else
      let r := x.1.decideRequest q
      match r.2 with
      | none => (r.1, x.2)
      | some m => if q.peer then (r.1.sendRefusal q m, x.2) else (r.1, x.2 ++ [m])
  let r := held.foldl step (s0, [])
  (sortBy RefusalMsg.before r.2).foldl (fun s m => s.modWorker m.key fun w => w.refused m) r.1

/-! ## Closing a micro-batch (R205, R206) -/

/-- The sum of several workers' counts for an expert. -/
def countOfExpert (l : List (Tab Nat)) (e : Nat) : Nat := (l.map fun t => tabGet 0 t e).sum

/-- The new bias of an expert (R205): no FTZ. -/
def closedBias (bias gamma : BitVec 32) (sign : Int) : BitVec 32 :=
  BitVec.ofNat 32 (roundF32 false (XReal.add false (readF32 false bias.toNat) ((readF32 false gamma.toNat).mul (.ofInt sign))))

/-- The bias table's log record: the generation and the hash of the table as installed (R298). -/
def Launch.biasRecord (l : Launch) : List Word :=
  l.biasGen.zeroExtend 64 :: Sha3.words (Sha3.hash (l.bias.flatMap fun b => toBytes b.toNat 4))

/-- The close over counts with a step γ: the table, the generation, the log (R205, R298). -/
def Launch.close (l : Launch) (counts : List (Tab Nat)) (gamma : BitVec 32) : Launch :=
  let n := l.nexp
  let total := ((upFrom 0 n).map (countOfExpert counts)).sum
  let sign := fun e =>
    let c := countOfExpert counts e * n
    if c < total then (1 : Int) else if total < c then -1 else 0
  let bias := (upFrom 0 n).map fun e => closedBias (nth 0 l.bias e) gamma (sign e)
  let l := { l with bias := bias, biasGen := l.biasGen + 1 }
  { l with biasLog := l.biasLog ++ [l.biasRecord] }

/-- Contributions of a worker that no close has used. -/
def Launch.contributions (l : Launch) (w : Nat) : List (Tab Nat × BitVec 32) := tabGet [] l.contrib w

/-- Whether a launch outside phases has a close to make: every worker has contributed or exited, and at least one contributed
(R205). The launch does not drain before it is made. -/
def State.batchOver (s : State) (lid : Nat) : Bool :=
  let l := s.launch lid
  let ws := upFrom 0 l.workersN
  let ready := fun w => !(l.contributions w).isEmpty ||
    (match s.worker? (workerKey lid w) with
      | some x => x.gone
      | none => true)
  (l.state == .running || l.state == .preempted) && !l.det && !l.aborting && ws.all ready &&
    ws.any (fun w => !(l.contributions w).isEmpty)

/-- The next close of a launch outside phases (R205). -/
def State.closeBatch (s : State) (lid : Nat) : State :=
  if s.batchOver lid then
    let l := s.launch lid
    let ws := upFrom 0 l.workersN
    let heads := ws.flatMap fun w => (l.contributions w).take 1
    let gamma := match l.contributions 0 with
      | x :: _ => x.2
      | [] => l.exitGamma
    let l := l.close (heads.map Prod.fst) gamma
    s.putLaunch lid { l with contrib := l.contrib.map fun e => (e.1, e.2.drop 1) }
  else s

/-- MICRO_BATCH_CLOSE (R205). -/
def execMicroBatchClose (lid : Nat) (s : State) : Host.Outcome State Fault Refusal := .next (s.closeBatch lid)

/-- The close at the end of a phase, over all counts since the last one, if an `smbend` executed in the phase (R206). -/
def State.closePhase (s : State) (lid : Nat) : State :=
  let l := s.launch lid
  if l.smbend then
    let counts := (s.keysOf lid).map fun k => (s.worker k).sent
    let s : State := { s with workers := s.workers.map fun e => (e.1, if e.2.lid = lid then { e.2 with sent := [] } else e.2) }
    s.putLaunch lid { l.close counts l.phaseGamma with smbend := false }
  else s

end Sys2Proof.Machine
end

