-- ==== Sys2Proof/Machine/Coords.lean ====
section
/-! DEFINITION. V's instructions on coordinates: materialising them, maps through queues, noise, rotation, the routing bias and
cell adds (R125 to R131, R143, R204). -/
namespace Sys2Proof.Machine

/-! ## Shared operations of the movement layout (R122) -/

/-- Width that EW names. -/
def ewWidth (f : E64) : Nat := widthOfCode f.mid3

/-- Steps 7 and 8 of R59 for an instruction of the movement layout: the map its destination would carry, and the width. -/
def moveChecks (f : E64) (w : Nat) (g : CMap → CMap) : M Unit := do
  let m ← peekMap [f.a8, f.b8, f.c8] f.ms
  ownCompanion f.d8 (g m)
  let v ← M.look State.view
  M.legal (v.shape.fits w)

/-- Values of all slots under the instruction's mask, its inactive slots as R109 says at width `w`. -/
def moveSlots (f : E64) (w : Nat) (slot : State → Nat → Except Stop Nat) : M Nat := do
  let s ← M.look id
  let l ← eachSlot s.view.shape.slots (s.maskOf f.lo3) (slot s) (fun i => s.inactive f.d8 f.zm w i)
  pure (packSlots w l)

/-- The coordinates of a slot through a map, or the trap of that slot (R7, R41). -/
def coordAt (s : State) (m : CMap) (i : Nat) : Except Stop Coord := slotTrap i (readCoord s.wk m i)

/-- An instruction that reads A for its map alone: D gets one value per slot and a copy of the map. -/
def fromMap (f : E64) (w shadow : Nat) (legal : Bool) (slot : State → CMap → Nat → Except Stop Nat) (s : State) :
    Host.Outcome State Fault Refusal :=
  runE64 .V f
    (do let m ← peekMap [f.a8] 0
        ownCompanion f.d8 m
        let v ← M.look State.view
        M.legal (legal && v.shape.fits w)
        let a ← readSrc f.a8 none
        let r ← moveSlots f w fun s i => slot s a.map i
        deliverShape f.d8 w shadow ⟨r, 0, none, a.map⟩)
    (offQueues [(f.a8, none)] f.d8 w shadow) s

/-! ## Coordinates and maps (R125 to R127) -/

/-- vcrd (R125). -/
def execVcrd (f : E64) (s : State) : Host.Outcome State Fault Refusal :=
  let w := ewWidth f
  fromMap f w 1 (f.mid3 == 2 || f.mid3 == 3)
    (fun s m i => do
      let c ← coordAt s m i
      pure (wrap w (c.get f.top2))) s

/-- The six words at the head of q14, waiting for them. -/
def peekSix : M (List Word) := do
  let w ← M.look State.wk
  M.await (decide (6 ≤ w.q14.length))
  pure (w.q14.take 6)

/-- Drop six words of q14. -/
def dropSix : M Unit := M.work fun w => { w with q14 := w.q14.drop 6 }

/-- vmap (R126). -/
def execVmap (f : E64) (s : State) : Host.Outcome State Fault Refusal :=
  let w := ewWidth f
  runE64 .V f
    (do let v ← M.look State.view
        M.legal (v.shape.fits w)
        let a ← readSrc f.a8 (some w)
        let l ← peekSix
        match mapOfWords v.shape.grant3 l with
        | none => M.illegal 3
        | some m => do
          dropSix
          let r := packSlots w ((upFrom 0 v.shape.slots).map fun i => a.slot w i)
          deliverShape f.d8 w 1 ⟨r, a.scale, a.tag, m⟩)
    (do discard [(f.a8, some w)]
        let _ ← peekSix
        dropSix
        zeroPush f.d8 w 1) s

/-- vmapq (R127): six words as one group, six zeros when guarded off. -/
def execVmapq (f : E64) (s : State) : Host.Outcome State Fault Refusal :=
  runE64 .V f
    (do let a ← readSrc f.a8 none
        pure (.after 1 [.words a.map.words]))
    (do discard [(f.a8, none)]
        pure (.after 1 [.words [0, 0, 0, 0, 0, 0]])) s

/-! ## Noise (R128, R129) -/

/-- One slot of `vnoise`. -/
def noiseSlot (f : E64) (w : Nat) (s : State) (m : CMap) (i : Nat) : Except Stop Nat := do
  let c ← coordAt s m i
  let key := s.view.nkey.get f.b8.toNat
  match f.top2 with
  | 0 => pure (mix key c.ixl)
  | 1 => pure (convTo 0 0 false false 0 (.fin false (mix key c.ixl >>> 8) (-24) false)).bits
  | _ =>
    let b := s.wk.front f.b8.toNat
    if b.2 = 0 then slotTrap i (.error 0x05)
    else pure ((tabGet 0 b.1 (c.ixl % (b.2 : Int)).toNat).toNat % 2 ^ w)

/-- vnoise (R129). -/
def execVnoise (f : E64) (s : State) : Host.Outcome State Fault Refusal :=
  fromMap f (ewWidth f) 2 (f.top2 == 2 || f.mid3 == 2) (noiseSlot f (ewWidth f)) s

/-! ## Rotation (R130) -/

/-- Both results of a pair, exact: canonical NaN where an input, the frequency or the angle is not finite. `rdn` says whether
an exact zero sum of opposite signs is negative (R69). -/
def rotate (rdn : Bool) (pos : Int) (freq x0 x1 : XReal) : XReal × XReal :=
  if freq.isFin && x0.isFin && x1.isFin then
    let th := (XReal.ofInt pos).mul freq
    let c := Trans.cos th
    let s := Trans.sin th
    (XReal.add rdn (x0.mul c) (x1.mul s).neg, XReal.add rdn (x0.mul s) (x1.mul c))
  else (.nan, .nan)

/-- One slot of `vrot`; the faults of the pair name its even slot. -/
def rotSlot (f : E64) (s : State) (a : Src) (i : Nat) : Except Stop Nat := do
  let fmt := f.top2
  let rm := f.mid3
  let ev := i - i % 2
  let c ← coordAt s a.map ev
  let j := c.get 0 / 2
  let b := s.wk.front f.b8.toNat
  if j < 0 ∨ (b.2 : Int) ≤ j then slotTrap ev (.error 0x05)
  else
    let ftz := s.view.ftz
    let freq := readNum 0 false (tabGet 0 b.1 j.toNat).toNat
    let x := fun (n : Nat) => readNum fmt ftz (a.slot (fmtWidth fmt) n)
    let r := rotate (rm == 3) (c.get (f.c8.toNat - 0x90)) freq (x ev) (x (ev + 1))
    let k ← slotTrap i (stoch s.wk s.view.nkey.c0 a.map rm i)
    pure (convTo fmt rm false ftz k (if i % 2 = 0 then r.1 else r.2)).bits

/-- vrot (R130). -/
def execVrot (f : E64) (s : State) : Host.Outcome State Fault Refusal :=
  let w := fmtWidth f.top2
  runE64 .V f
    (do moveChecks f w id
        let a ← readSrc f.a8 (some w)
        let r ← moveSlots f w fun s i => rotSlot f s a i
        deliverShape f.d8 w 4 ⟨r, 0, none, a.map⟩)
    (offQueues [(f.a8, some w)] f.d8 w 4) s

/-! ## The routing bias (R131, R204, R206) -/

/-- The bias table that a `vgbias` uses: the current one, or in a deterministic launch that of the phase's start. -/
def Launch.biasUsed (l : Launch) : List (BitVec 32) := if l.det then l.phaseBias else l.bias

/-- One slot of `vgbias`. -/
def biasSlot (f : E64) (s : State) (a : Src) (i : Nat) : Except Stop Nat := do
  let c ← coordAt s a.map i
  let e := c.get f.top2
  if e < 0 ∨ (s.ln.nexp : Int) ≤ e then slotTrap i (.error 0x04)
  else
    let ftz := s.view.ftz
    let b := readF32 ftz (nth 0 s.ln.biasUsed e.toNat).toNat
    pure (roundF32 ftz (XReal.add false (readF32 ftz (a.slot 32 i)) b))

/-- vgbias (R204). -/
def execVgbias (f : E64) (s : State) : Host.Outcome State Fault Refusal :=
  runE64 .V f
    (do moveChecks f 32 id
        M.legal (f.mid3 == 2)
        let a ← readSrc f.a8 (some 32)
        let r ← moveSlots f 32 fun s i => biasSlot f s a i
        deliverShape f.d8 32 2 ⟨r, 0, none, a.map⟩)
    (offQueues [(f.a8, some 32)] f.d8 32 2) s

/-! ## Cell adds (R143) -/

/-- vcadd (R143): every add is applied when the instruction issues; other strands may see the cells as they were until the adds
are released (R269). -/
def execVcadd (f : E64) (s : State) : Host.Outcome State Fault Refusal :=
  let fmt := bits f.c8.toNat 0 5
  let w := ewWidth f
  runE64 .V f
    (do let v ← M.look State.view
        let t := v.tile f.d8.toNat
        let g := v.shape.slots
        M.legal (caddFormat fmt && fmtWidth fmt == w && v.shape.fits w && t.ok && decide (g ≤ t.rows.toNat * t.cols.toNat))
        let a ← readSrc f.a8 (some w)
        let m ← M.look fun s => s.maskOf f.lo3
        let l := ((upFrom 0 g).filter (activeIn m)).map fun i => (t.base.toNat + i, termOf fmt (a.slot w i))
        meetCells (l.map Prod.fst)
        M.change fun s => s.addTerms t.anch l
        pure .none)
    (do discard [(f.a8, some w)]
        pure .none) s

end Sys2Proof.Machine
end

