-- ==== Sys2Proof/Machine/Move.lean ====
section
/-! DEFINITION. V's movement instructions (R132 to R139). -/
namespace Sys2Proof.Machine

/-- A pure movement: source slot or zero for each destination slot, and the map's rule. -/
def moveRun (f : E64) (g : CMap → CMap) (from_ : Shape → Nat → Option Nat) (s : State) : Host.Outcome State Fault Refusal :=
  let w := ewWidth f
  runE64 .V f
    (do moveChecks f w g
        let a ← readSrc f.a8 (some w)
        let r ← moveSlots f w fun s i => .ok (match from_ s.view.shape i with
          | some k => a.slot w k
          | none => 0)
        deliverShape f.d8 w 1 ⟨r, 0, none, g a.map⟩)
    (offQueues [(f.a8, some w)] f.d8 w 1) s

/-- vmov (R132): the plain form keeps the map, and the sideband and tag where every slot is active; the raw form neither. -/
def execVmov (f : E64) (s : State) : Host.Outcome State Fault Refusal :=
  let w := ewWidth f
  let raw := f.top2 == 1
  let g := fun (m : CMap) => if raw then .lost else m
  runE64 .V f
    (do moveChecks f w g
        let a ← readSrc f.a8 (some w)
        let r ← moveSlots f w fun _ i => .ok (a.slot w i)
        let side := !raw && f.lo3 == 7
        deliverShape f.d8 w 1 ⟨r, if side then a.scale else 0, if side then a.tag else none, g a.map⟩)
    (offQueues [(f.a8, some w)] f.d8 w 1) s

/-- The signed number of an offset, index or shift field (R133): a small immediate, or an entry of q14. -/
def offsetOf : Src → Int
  | .imm i => i
  | .bcast v => signed 64 v
  | _ => 0

/-- A movement by a number n along AX: the source index of a destination index, and the map's rule. -/
def offsetRun (f : E64) (g : Nat → Int → CMap → CMap) (from_ : Int → Int → Option Int) (s : State) :
    Host.Outcome State Fault Refusal :=
  let w := ewWidth f
  runE64 .V f
    (do moveChecks f w fun _ => .lost
        let a ← readSrc f.a8 (some w)
        let b ← readSrc f.b8 (some 64)
        let n := offsetOf b
        let r ← moveSlots f w fun s i =>
          let sh := s.view.shape
          .ok (match from_ n (sh.indexOn f.top2 i) with
            | some k => if 0 ≤ k ∧ k < sh.size f.top2 then a.slot w (sh.moveTo f.top2 i k.toNat) else 0
            | none => 0)
        deliverShape f.d8 w 1 ⟨r, 0, none, g f.top2 n a.map⟩)
    (offQueues [(f.a8, some w), (f.b8, some 64)] f.d8 w 1) s

/-- vslice (R133): a negative n gives zeros. -/
def execVslice (f : E64) (s : State) : Host.Outcome State Fault Refusal :=
  offsetRun f (fun j n m => m.slice j n) (fun n i => if n < 0 then none else some (i + n)) s

/-- vshift (R133). -/
def execVshift (f : E64) (s : State) : Host.Outcome State Fault Refusal :=
  offsetRun f (fun j n m => m.slice j (-n)) (fun n i => some (i - n)) s

/-- vbcast (R133). -/
def execVbcast (f : E64) (s : State) : Host.Outcome State Fault Refusal :=
  offsetRun f (fun j n m => m.bcast j n) (fun n _ => some n) s

/-- The source slot of a transposition's destination slot (R134). -/
def transposed (sh : Shape) (i : Nat) : Nat :=
  let g0 := sh.g.c0
  let g1 := sh.g.c1
  i / g1 % g0 + g0 * (i % g1 + g1 * (i / (g0 * g1)))

/-- vtrn (R134). -/
def execVtrn (f : E64) (s : State) : Host.Outcome State Fault Refusal :=
  moveRun f CMap.transpose (fun sh i => some (transposed sh i)) s

/-- vresh (R135). -/
def execVresh (f : E64) (s : State) : Host.Outcome State Fault Refusal :=
  moveRun f (fun m => m.reshape s.view.shape) (fun _ i => some i) s

/-! ## With a companion (R136, R137, R139) -/

/-- Whether a companion field names a register. -/
def hasComp (c : BitVec 8) : Bool := isV c

/-- The own-companion rule of R139: the companion must not be the destination. -/
def notOwn (d c : BitVec 8) : M Unit := if isV c && c == d then M.illegal 1 else pure ()

/-- D and its companion C land together (R139): D is EXPLICIT on C with A's extents, or LOST without one. C is written before D
is pushed, so that D's map, made in the same landing, stays. -/
def deliverPair (d c : BitVec 8) (w : Nat) (data comp : List Nat) (m : CMap) : M Issue := do
  let s ← M.look id
  let g := s.view.shape.slots
  let map := if hasComp c then m.onCompanion s.view.shape (s.phys c) else .lost
  let l0 := s.deliver d g w ⟨packSlots w data, 0, none, map⟩
  if hasComp c then
    let l1 := s.deliver c g 32 ⟨packSlots 32 comp, 0, none, .lost⟩
    match l0, l1 with
    | .vregs a, .vregs b => pure (.after 1 [.vregs (a ++ b)])
    | _, _ => pure (.after 1 [l1, l0])
  else pure (.after 1 [l0])

/-- vperm (R136): the index check comes before the coordinate read. -/
def execVperm (f : E64) (s : State) : Host.Outcome State Fault Refusal :=
  let w := ewWidth f
  runE64 .V f
    (do notOwn f.d8 f.c8
        let v ← M.look State.view
        let sh := v.shape
        let g := sh.slots
        M.legal (sh.fits w && sh.fits 32)
        let a ← readSrc f.a8 (some w)
        let ix ← readSrc f.b8 (some 32)
        let s ← M.look id
        let m := s.maskOf f.lo3
        let from_ := fun (i : Nat) =>
          let k := signed 32 (ix.slot 32 i)
          if activeIn m i && decide (0 ≤ k ∧ k < sh.size f.top2) then some (sh.moveTo f.top2 i k.toNat) else none
        let comp ← eachSlot g none
          (fun i => match from_ i with
            | some k => if hasComp f.c8 then do
                let c ← slotTrap i (readCoord s.wk a.map k)
                pure (wrap 32 c.ixl)
              else pure 0
            | none => pure (2 ^ 32 - 1)) (fun _ => 0)
        let data := (upFrom 0 g).map fun i =>
          if activeIn m i then
            match from_ i with
            | some k => a.slot w k
            | none => 0
          else s.inactive f.d8 f.zm w i
        deliverPair f.d8 f.c8 w data comp a.map)
    (offQueues [(f.a8, some w), (f.b8, some 32)] f.d8 w 1) s

/-- The active slots of a slot's line along an axis, in ascending index. -/
def activeLine (sh : Shape) (j : Nat) (m : Option Nat) (i : Nat) : List Nat := (sh.line j i).filter (activeIn m)

/-- vcompact (R137). -/
def execVcompact (f : E64) (s : State) : Host.Outcome State Fault Refusal :=
  let w := ewWidth f
  runE64 .V f
    (do notOwn f.d8 f.b8
        let v ← M.look State.view
        let sh := v.shape
        let g := sh.slots
        M.legal (sh.fits w && (!hasComp f.b8 || sh.fits 32))
        let a ← readSrc f.a8 (some w)
        let s ← M.look id
        let m := s.maskOf f.lo3
        let ixl ← eachSlot g m
          (fun i => if hasComp f.b8 then do
              let c ← slotTrap i (readCoord s.wk a.map i)
              pure (wrap 32 c.ixl)
            else pure 0) (fun _ => 0)
        let from_ := fun (i : Nat) => (activeLine sh f.top2 m i)[sh.indexOn f.top2 i]?
        let data := (upFrom 0 g).map fun i => match from_ i with
          | some k => a.slot w k
          | none => 0
        let comp := (upFrom 0 g).map fun i => match from_ i with
          | some k => nth 0 ixl k
          | none => 2 ^ 32 - 1
        deliverPair f.d8 f.b8 w data comp a.map)
    (offQueues [(f.a8, some w)] f.d8 w 1) s

/-- Place of a slot among the active slots of its line. -/
def activeRank (sh : Shape) (j : Nat) (m : Option Nat) (i : Nat) : Nat :=
  ((activeLine sh j m i).filter fun k => decide (k < i)).length

/-- vexpand (R138): the map is that of the field MS names, or LOST. -/
def execVexpand (f : E64) (s : State) : Host.Outcome State Fault Refusal :=
  let w := ewWidth f
  let g := fun (m : CMap) => if f.ms = 0 then .lost else m
  runE64 .V f
    (do moveChecks f w g
        let x ← readLane f 1 w
        let r ← moveSlots f w fun s i =>
          let sh := s.view.shape
          .ok (x.a.slot w (sh.moveTo f.top2 i (activeRank sh f.top2 (s.maskOf f.lo3) i)))
        deliverShape f.d8 w 1 ⟨r, 0, none, g x.map⟩)
    (offQueues (laneOff f 1 w) f.d8 w 1) s

end Sys2Proof.Machine
end

