-- ==== Sys2Proof/Machine/Reduce.lean ====
section
/-! DEFINITION. V's reductions and scans along a slot axis, and the attention merge (R84, R140 to R142, R244 to R246). -/
namespace Sys2Proof.Machine

/-- Format in C8 (R124). -/
def redFmt (f : E64) : Nat := bits f.c8.toNat 0 5

/-- RM in C8 (R124). -/
def redRm (f : E64) : Nat := bits f.c8.toNat 5 3

/-- Formats that reductions and scans accept (R140). -/
def redOk (c : Nat) : Bool := ftzFmt c || (intFmt c).isSome

/-- Exact sum of float terms (R84): a zero sum is −0.0 under rdn or when every term is −0.0; no term gives +0.0. -/
def sumReals (rdn : Bool) (l : List XReal) : XReal :=
  match l with
  | [] => .fin false 0 0 false
  | x :: r =>
    match r.foldl (XReal.add rdn) x with
    | .fin n m e low => if m = 0 then .fin (rdn || l.all XReal.sign) 0 e false else .fin n m e low
    | y => y

/-- Sum of a list of slots in a format, rounded once (R140). -/
def sumSlots (fmt rm : Nat) (ftz : Bool) (k : Nat) (l : List Nat) : Nat :=
  match intFmt fmt with
  | some (sgn, w) => wrap w ((l.map (readInt sgn w)).sum)
  | none => (convTo fmt rm false ftz k (sumReals (rm == 3) (l.map (readNum fmt ftz)))).bits

/-- Whether the first of two numbers of a format beats the second as maximum or minimum; −0.0 lies below +0.0. -/
def beats (wantMax : Bool) (x y : XReal) : Bool :=
  match x.cmp y with
  | some .lt => !wantMax
  | some .gt => wantMax
  | some .eq => x.sign != y.sign && (y.sign == wantMax)
  | none => false

/-- The patterns of a list that are numbers, or all of them when none is (R140). -/
def contenders (fmt : Nat) (ftz : Bool) (l : List (Nat × Int)) : List (Nat × Int) :=
  let r := l.filter fun x => !(readNum fmt ftz x.1).isNan
  if r.isEmpty then l else r

/-- The extreme of a line, with the lowest index among equals (R141). -/
def extreme (fmt : Nat) (ftz wantMax : Bool) : List (Nat × Int) → Option (Nat × Int)
  | [] => none
  | x :: r =>
    match extreme fmt ftz wantMax r with
    | none => some x
    | some y =>
      let a := readNum fmt ftz x.1
      let b := readNum fmt ftz y.1
      if beats wantMax a b then some x
      else if beats wantMax b a then some y
      else if x.2 ≤ y.2 then some x
      else some y

/-- What an empty line gives as maximum or minimum (R140). -/
def emptyExtreme (fmt : Nat) (wantMax : Bool) : Nat :=
  match intFmt fmt with
  | some (sgn, w) => wrap w (if wantMax then (intRange sgn w).1 else (intRange sgn w).2)
  | none => (convTo fmt 0 false false 0 (.inf wantMax)).bits

/-- Maximum or minimum of a list of slots: an input unchanged but for FTZ, the canonical NaN when all are NaN (R140). -/
def extremeSlots (fmt : Nat) (ftz wantMax : Bool) (l : List Nat) : Nat :=
  match extreme fmt ftz wantMax (contenders fmt ftz (l.map fun x => (x, 0))) with
  | none => emptyExtreme fmt wantMax
  | some x =>
    match intFmt fmt with
    | some (_, w) => x.1 % 2 ^ w
    | none => (convTo fmt 0 false ftz 0 (readNum fmt ftz x.1)).bits

/-- A reduction or scan: for each active slot, from the active slots that `pick` takes of its line. -/
def reduceRun (f : E64) (g : CMap → CMap) (pick : Shape → Option Nat → Nat → List Nat)
    (val : Bool → Nat → List Nat → Nat) (rounds : Bool) (s : State) : Host.Outcome State Fault Refusal :=
  let w := ewWidth f
  runE64 .V f
    (do moveChecks f w g
        M.legal (redOk (redFmt f) && fmtWidth (redFmt f) == w)
        let a ← readSrc f.a8 (some w)
        let r ← moveSlots f w fun s i => do
          let k ← if rounds && ftzFmt (redFmt f) then slotTrap i (stoch s.wk s.view.nkey.c0 a.map (redRm f) i) else pure 0
          pure (val s.view.ftz k ((pick s.view.shape (s.maskOf f.lo3) i).map (a.slot w)))
        deliverShape f.d8 w 3 ⟨r, 0, none, g a.map⟩)
    (offQueues [(f.a8, some w)] f.d8 w 3) s

/-- vrsum (R140, R141). -/
def execVrsum (f : E64) (s : State) : Host.Outcome State Fault Refusal :=
  reduceRun f (fun m => m.reduce f.top2) (fun sh m i => activeLine sh f.top2 m i)
    (fun ftz k l => sumSlots (redFmt f) (redRm f) ftz k l) true s

/-- vrmax (R140, R141). -/
def execVrmax (f : E64) (s : State) : Host.Outcome State Fault Refusal :=
  reduceRun f (fun m => m.reduce f.top2) (fun sh m i => activeLine sh f.top2 m i)
    (fun ftz _ l => extremeSlots (redFmt f) ftz true l) false s

/-- vrmin (R140, R141). -/
def execVrmin (f : E64) (s : State) : Host.Outcome State Fault Refusal :=
  reduceRun f (fun m => m.reduce f.top2) (fun sh m i => activeLine sh f.top2 m i)
    (fun ftz _ l => extremeSlots (redFmt f) ftz false l) false s

/-- vscan (R142). -/
def execVscan (f : E64) (s : State) : Host.Outcome State Fault Refusal :=
  reduceRun f id (fun sh m i => (activeLine sh f.top2 m i).filter fun k => decide (k ≤ i))
    (fun ftz k l => sumSlots (redFmt f) (redRm f) ftz k l) true s

/-- vxscan (R142). -/
def execVxscan (f : E64) (s : State) : Host.Outcome State Fault Refusal :=
  reduceRun f id (fun sh m i => (activeLine sh f.top2 m i).filter fun k => decide (k < i))
    (fun ftz k l => sumSlots (redFmt f) (redRm f) ftz k l) true s

/-- vrargmax (R140, R141): i32 indices, so the destination has 32-bit slots (R122). -/
def execVrargmax (f : E64) (s : State) : Host.Outcome State Fault Refusal :=
  let w := ewWidth f
  let fmt := redFmt f
  runE64 .V f
    (do moveChecks f w fun m => m.reduce f.top2
        let v ← M.look State.view
        M.legal (redOk fmt && fmtWidth fmt == w && v.shape.fits 32)
        let a ← readSrc f.a8 (some w)
        let s ← M.look id
        let m := s.maskOf f.lo3
        let g := v.shape.slots
        let ixl ← eachSlot g m (fun i => do
          let c ← coordAt s a.map i
          pure (wrap 32 c.ixl)) (fun _ => 0)
        let r ← moveSlots f 32 fun s i =>
          let l := (activeLine v.shape f.top2 m i).map fun k => (a.slot w k, signed 32 (nth 0 ixl k))
          .ok (match extreme fmt s.view.ftz true (contenders fmt s.view.ftz l) with
            | some x => wrap 32 x.2
            | none => 2 ^ 32 - 1)
        deliverShape f.d8 32 3 ⟨r, 0, none, a.map.reduce f.top2⟩)
    (offQueues [(f.a8, some w)] f.d8 32 3) s

/-! ## Triples (R244 to R246) -/

/-- A triple in f32 patterns: maximum, sum, accumulator elements. -/
structure Triple where
  m : Nat
  s : Nat
  a : List Nat
  deriving DecidableEq, Repr

/-- A triple as a list of patterns, m and s first (R244). -/
def Triple.toList (t : Triple) : List Nat := t.m :: t.s :: t.a

/-- A triple from a list of patterns. -/
def Triple.ofList (l : List Nat) : Triple := ⟨nth 0 l 0, nth 0 l 1, l.drop 2⟩

/-- f32 pattern of −∞. -/
def negInf : Nat := 0xFF800000

/-- The identity triple with `n` accumulator elements (R244). -/
def Triple.identity (n : Nat) : Triple := ⟨negInf, 0, (upFrom 0 n).map fun _ => 0⟩

/-- merge (R245). -/
def Triple.merge (ftz : Bool) (l r : Triple) : Triple :=
  let rd := readF32 ftz
  let ml := rd l.m
  let mr := rd r.m
  let bad := fun (x : XReal) => x.isNan || x == .inf false
  if bad ml || bad mr || (rd l.s).isNan || (rd r.s).isNan then
    let nan := roundF32 false .nan
    ⟨nan, nan, l.a.map fun _ => nan⟩
  else
    let m := minMaxBits 0 ftz true l.m r.m
    if m = negInf then .identity l.a.length
    else
      let coeff := fun (x : XReal) => rd (roundF32 ftz (Trans.exp (XReal.add false x (rd m).neg)))
      let cl := coeff ml
      let cr := coeff mr
      let mix := fun (x y : Nat) => roundF32 ftz (XReal.add false ((rd x).mul cl) ((rd y).mul cr))
      ⟨m, mix l.s r.s, (upFrom 0 l.a.length).map fun k => mix (nth 0 l.a k) (nth 0 r.a k)⟩

/-- vatmrg (R246): line by line along slot axis 0; recorded in the tree-shape record. -/
def execVatmrg (f : E64) (s : State) : Host.Outcome State Fault Refusal :=
  runE64 .V f
    (do moveChecks f 32 id
        let a ← readSrc f.a8 (some 32)
        let b ← readSrc f.b8 (some 32)
        let s ← M.look id
        let sh := s.view.shape
        let g0 := sh.size 0
        let row := fun (x : Src) (r : Nat) => Triple.ofList ((upFrom (g0 * r) g0).map (x.slot 32))
        let out := (upFrom 0 (sh.slots / g0)).flatMap fun r => (Triple.merge s.view.ftz (row a r) (row b r)).toList
        let pc := BitVec.ofNat 64 s.st.pc.toNat
        M.work fun w => { w with treeLog := w.treeLog ++ [[pc, BitVec.ofNat 64 f.c8.toNat]] }
        deliverShape f.d8 32 4 ⟨packSlots 32 out, 0, none, a.map⟩) M.nothing s

end Sys2Proof.Machine
end

