-- ==== Sys2Proof/Machine/Sau.lean ====
section
/-! DEFINITION. Stack attention units: issuing `wattd` and `watts` (R247, R248, R254), capture (R250), the fold of a span (R249),
completion and errors (R251, R253, R254). -/
namespace Sys2Proof.Machine

/-! ## Job descriptors (R248) -/

/-- Word `i` of a job descriptor. -/
def descWord (d : BitVec 512) (i : Nat) : Nat := bits d.toNat (64 * i) 64

/-- PTAB. -/
def descPtab (d : BitVec 512) : Nat := bits (descWord d 0) 0 57
/-- NTOK. -/
def descNtok (d : BitVec 512) : Nat := bits (descWord d 1) 32 32
/-- T0. -/
def descT0 (d : BitVec 512) : Nat := bits (descWord d 1) 0 32
/-- TAG. -/
def descTag (d : BitVec 512) : Nat := bits (descWord d 2) 48 16
/-- DH. -/
def descDh (d : BitVec 512) : Nat := bits (descWord d 2) 32 16
/-- SCALE. -/
def descScale (d : BitVec 512) : Nat := bits (descWord d 2) 0 32
/-- STAB. -/
def descStab (d : BitVec 512) : Nat := bits (descWord d 3) 0 57
/-- SANC. -/
def descSanc (d : BitVec 512) : Int := signed 16 (descWord d 4)

/-- Number of spans (R249). -/
def descSpans (d : BitVec 512) : Nat := ceilDiv (descT0 d + descNtok d) 256 - descT0 d / 256

/-- The checks on a descriptor (R248). PTAB and, with BUF, STAB are multiples of 8 and 32 (log 34). -/
def descOk (d : BitVec 512) (buf : Bool) : Bool :=
  let n := descNtok d
  let dh := descDh d
  bits (descWord d 0) 57 7 == 0 && bits (descWord d 3) 57 7 == 0 && bits (descWord d 4) 16 48 == 0 && descWord d 5 == 0 &&
    descWord d 6 == 0 && descWord d 7 == 0 && descPtab d % 8 == 0 && (!buf || descStab d % 32 == 0) &&
    decide (1 ≤ n ∧ descT0 d + n ≤ 2 ^ 32 ∧ n ≤ (if buf then 8192 else 65536)) &&
    decide (8 ≤ dh ∧ dh ≤ 256) && dh % 8 == 0 && (!buf || decide (-1100 ≤ descSanc d ∧ descSanc d ≤ 1000))

/-- The checks on the destination of a job (R248). -/
def jobFurrowOk (f : Furrow) (d : BitVec 512) : Bool :=
  f.legal f.format && f.format == 0 && decide (descDh d + 2 ≤ f.extent 0) && decide (descSpans d ≤ f.extent 1)

/-! ## Accesses (R250) -/

/-- Rights of a stack attention unit in the windows: as an engine's, and cell adds to cells (log 34). -/
def sauRights (acc : Acc) : Place → Bool
  | .spad _ _ => acc == .load || acc == .store
  | .cell _ _ _ => acc == .cellAdd
  | .knot _ _ => false
  | .phys _ => true

/-- The stack attention unit that works in a step: any of the 128 of the device, 16 for each die's stacks (R2, R249, log 34). -/
def State.sauUnit (s : State) : Agent := .sau (s.tick % Config.sauCount)

/-- The place of an access in the job's context and mode. -/
def sauPlace (key : Nat) (priv : Bool) (va n : Nat) (acc : Acc) : M Place := do
  let s ← M.look id
  placeIn { s.cxOf (s.worker key) with user := !priv } s.sauUnit va n acc none (sauRights acc) (.ok ())

/-- Who reads for a decode job or score pass: its worker, the issuing mode, the step of its issue, and that of its last acquire
(R281). -/
structure SauAgent where
  key : Nat
  priv : Bool
  born : Nat
  acq : Nat

/-- A read by a stack attention unit. -/
def sauRead (g : SauAgent) (va n : Nat) : M Nat := do
  let p ← sauPlace g.key g.priv va n .load
  let s ← M.look id
  engineRead (s.commandReader g.key g.born g.acq) p n

/-- Address of entry `i` of a page table (R225). -/
def entryAt (d : BitVec 512) (i : Nat) : Nat := descPtab d + 8 + 8 * i

/-- First page of a job's range. -/
def firstPage (d : BitVec 512) : Nat := descT0 d / 16

/-- Number of pages of a job's range. -/
def pageCount (d : BitVec 512) : Nat := (descT0 d + descNtok d - 1) / 16 - firstPage d + 1

/-- The first entry of the range that is not valid: its address. -/
def invalidEntry (d : BitVec 512) : Nat → List Nat → Option Nat
  | _, [] => none
  | i, e :: r => if bit e 63 then invalidEntry d (i + 1) r else some (entryAt d i)

/-- One try at the capture (R250): GEN and the entries, or none where an unpublished entry was met. A header GEN other than the
one captured before ends it (R252). The capture acquires at device scope (R281). -/
def captureTable (g : SauAgent) (d : BitVec 512) (gen : Option Word) : M (Option (Word × List Word)) := do
  let g ← M.look fun s => { g with acq := s.tick + 1 }
  let h ← sauRead g (descPtab d) 4
  if gen.isSome ∧ gen ≠ some (BitVec.ofNat 64 h) then M.trap 0x08 0 (descPtab d) none
  let l ← M.gather (fun i => sauRead g (entryAt d i) 8) (upFrom (firstPage d) (pageCount d))
  if l.any fun e => bit e 63 && bits e 0 8 == (h + 1) % 256 then pure none
  else
    match invalidEntry d (firstPage d) l with
    | some a => M.trap 0x08 0 a none
    | none => pure (some (BitVec.ofNat 64 h, l.map (BitVec.ofNat 64)))

/-- Address of the row of token `t` (R248). -/
def rowAt (d : BitVec 512) (entries : List Word) (t : Nat) : Nat :=
  (bits (nth 0 entries (t / 16 - firstPage d)).toNat 8 49) <<< 8 + t % 16 * (4 * descDh d)

/-- Exact sum of a list in order. -/
def exactSum : List XReal → XReal
  | [] => .ofInt 0
  | [x] => x
  | x :: y :: r => XReal.add false x (exactSum (y :: r))

/-- The logit of a token from its K elements (R249): FTZ applies to q. -/
def logit (ftz : Bool) (scale : Nat) (q : List (BitVec 32)) (k : List Nat) : Nat :=
  let products := (q.zip k).map fun x => (readF32 ftz x.1.toNat).mul (readNum 1 false x.2)
  roundF32 false ((readF32 false scale).mul (exactSum products))

/-- The K elements of a token. -/
def tokenKeys (g : SauAgent) (d : BitVec 512) (entries : List Word) (t : Nat) : M (List Nat) :=
  M.gather (fun k => sauRead g (rowAt d entries t + 2 * k) 2) (upFrom 0 (descDh d))

/-- The V elements of a token as f32 patterns, exact. -/
def tokenValues (g : SauAgent) (d : BitVec 512) (entries : List Word) (t : Nat) : M (List Nat) :=
  M.gather (fun k => do
    let v ← sauRead g (rowAt d entries t + 2 * descDh d + 2 * k) 2
    pure (v <<< 16)) (upFrom 0 (descDh d))

/-- Positions of span `j` (R249). -/
def spanTokens (d : BitVec 512) (j : Nat) : List Nat :=
  let b := descT0 d / 256 + j
  let lo := max (descT0 d) (256 * b)
  let hi := min (descT0 d + descNtok d) (256 * (b + 1))
  upFrom lo (hi - lo)

/-! ## Jobs -/

/-- Put a job back at its place in the list. -/
def State.putJob (s : State) (n : Nat) (j : SauJob) : State := { s with jobs := setNth s.jobs n j }

/-- A job as it reads. -/
def SauJob.agent (j : SauJob) : SauAgent := ⟨j.key, j.priv, j.born, j.acq⟩

/-- The capture of a job: tried at acceptance, and again until the table is published (R250). -/
def SauJob.capture (j : SauJob) : M SauJob := do
  let r ← captureTable j.agent j.desc j.gen
  let s ← M.look id
  match r with
  | none => pure j
  | some x => pure { j with gen := some x.1, entries := x.2, acq := s.tick + 1 }

/-- A step of a job: what it becomes, or its failure (R251). -/
def State.jobStep (s : State) (j : SauJob) (act : M SauJob) : State × SauJob :=
  match act s with
  | .ok (j, t) => (t, j)
  | .error (.trap t) => (s, { j with failed := some (t.cause, BitVec.ofNat 64 t.addr) })
  | .error (.machine kind pa) => (s.machineCheck (s.worker j.key) 7 kind pa j.pc, j)
  | .error .stall => (s, j)

/-- Jobs of a worker that are not complete or still hold buffers. -/
def State.jobsOf (s : State) (key : Nat) : List SauJob := s.jobs.filter fun j => j.key == key

/-- The job of a `wattd` as issued (R247, R248). -/
def State.newJob (s : State) (f : E64) : SauJob :=
  let d : BitVec 512 := (s.vreg f.b8).data.extractLsb' 0 512
  let q := (s.vreg f.a8).data.toNat
  { key := s.curKey, desc := d, query := (upFrom 0 (descDh d)).map fun i => BitVec.ofNat 32 (slotOf q 32 i)
    dst := s.furrow f.d8, knot := f.c8.toNat % 32, scope := engineScope f, buf := f.modBit 3, ftz := s.view.ftz
    priv := s.wk.sup.priv, pc := s.st.pc, gen := none, entries := [], folded := [], failed := none, complete := false
    logits := [], born := s.tick, acq := s.tick + 1 }

/-- wattd (R247, R248, R250). -/
def execWattd (f : E64) (s : State) : Host.Outcome State Fault Refusal :=
  runE64 .W f
    (do let s ← M.look id
        let j := s.newJob f
        let twin := j.buf && (s.jobsOf s.curKey).any fun x => x.buf && x.failed.isNone && descTag x.desc == descTag j.desc
        M.legal (descOk j.desc j.buf && !twin && jobFurrowOk j.dst j.desc)
        copyContext j.dst
        M.await (decide ((s.jobsOf s.curKey).length < 16))
        M.change fun t => t.release j.scope
        M.change fun t =>
          let r := t.jobStep j j.capture
          { r.1 with jobs := r.1.jobs ++ [r.2] }
        pure .none) M.nothing s

/-- Fold one span and write its triple (R249). -/
def SauJob.fold (j : SauJob) (span : Nat) : M SauJob := do
  let ts := spanTokens j.desc span
  let rows ← M.gather (fun t => do
    let k ← tokenKeys j.agent j.desc j.entries t
    let v ← tokenValues j.agent j.desc j.entries t
    pure (t, logit j.ftz (descScale j.desc) j.query k, v)) ts
  let one := 0x3F800000
  let r := rows.foldl (fun (a : Triple) x => Triple.merge j.ftz a ⟨x.2.1, one, x.2.2⟩) (.identity (descDh j.desc))
  let s ← M.look id
  let cx := { s.cxOf (s.worker j.key) with user := !j.priv }
  let items ← M.gather (fun i => do
    let e : Quad Nat := ⟨i, span, 0, 0⟩
    match j.dst.term e with
    | none => M.trap 0x08 0 (j.dst.entryAddr (e.get j.dst.indDim)) none
    | some k =>
      let t ← touchIn cx s.sauUnit j.dst storeAccess 0 0 (j.dst.addr 0 e k).1 0 4 none
      pure (t, nth 0 r.toList i)) (upFrom 0 (descDh j.desc + 2))
  writeItems (commandAuthor j.key j.born) 32 items
  let held := if j.buf then rows.foldl (fun l x => tabPut l x.1 (BitVec.ofNat 32 x.2.1)) j.logits else j.logits
  pure { j with folded := j.folded ++ [span], logits := held }

/-- One turn of a job's span: its capture while that is open, else the fold (R249, R250). -/
def State.spanFold (s : State) (n span : Nat) : State :=
  match s.jobs[n]? with
  | none => s
  | some j =>
    if s.agentsMay j.key && j.failed.isNone && !j.complete then
      let act : M SauJob :=
        if j.entries.isEmpty then j.capture
        else if decide (span < descSpans j.desc) && !j.folded.contains span then j.fold span
        else pure j
      let r := s.jobStep j act
      r.1.putJob n r.2
    else s

/-- SPAN_FOLD (R249). -/
def execSpanFold (n span : Nat) (s : State) : Host.Outcome State Fault Refusal := .next (s.spanFold n span)

/-! ## Completion (R251) -/

/-- The error record of a job or score pass (R235, R251, R254): ENG 0xFE; words the spec leaves open are free (log 23). -/
def sauRecord (w : Worker) (xf knot cause : Nat) (addr : Word) (pc : PAddr) : List Word :=
  let word := fun (n : Nat) => BitVec.ofNat 64 n
  [ addr, word (w.wid <<< 32 + knot <<< 24 + 0xFE <<< 16 + xf <<< 10 + cause), Config.openWord 0 w.wid pc.toNat, word pc.toNat ]

/-- Write an error record and add to the knot with the mark (R234, R251, R302). -/
def State.sauFails (s : State) (key born xf knot scope cause : Nat) (addr : Word) (pc : PAddr) : State :=
  let w := s.worker key
  let s := engineSettle key pc s (errorRecord w s.sauUnit (sauRecord w xf knot cause addr pc) s)
  (s.visibleAt key born scope true).completeKnot key knot none true

/-- The end of a job: with its error, or once every triple is written (R251). A buffered job stays (R253). -/
def State.jobDone (s : State) (n : Nat) : State :=
  match s.jobs[n]? with
  | none => s
  | some j =>
    let gone := { s with jobs := dropNth s.jobs n }
    if !s.agentsMay j.key || j.complete then s
    else
      match j.failed with
      | some x => gone.sauFails j.key j.born 8 j.knot j.scope x.1 x.2 j.pc
      | none =>
        if !j.entries.isEmpty && j.folded.length == descSpans j.desc then
          let s := if j.buf then s.putJob n { j with complete := true } else gone
          (s.visibleAt j.key j.born j.scope false).completeKnot j.key j.knot none false
        else s

/-- DECODE_JOB_COMPLETION (R251). -/
def execDecodeJobCompletion (n : Nat) (s : State) : Host.Outcome State Fault Refusal := .next (s.jobDone n)

/-! ## Score passes (R254) -/

/-- Score passes of a worker that are not complete. -/
def State.passesOf (s : State) (key : Nat) : List ScorePass := s.passes.filter fun x => x.key == key

/-- watts (R254): at most 16 passes of a worker are in progress (log 34). -/
def execWatts (f : E64) (s : State) : Host.Outcome State Fault Refusal :=
  runE64 .W f
    (do let s ← M.look id
        M.await (decide ((s.passesOf s.curKey).length < 16))
        let r := (s.vreg f.a8).data.toNat
        let p : ScorePass :=
          { key := s.curKey, m := BitVec.ofNat 32 (slotOf r 32 0), s := BitVec.ofNat 32 (slotOf r 32 1), tag := f.bc
            knot := f.d8.toNat % 32, scope := engineScope f, drop := f.modBit 3, ftz := s.view.ftz, priv := s.wk.sup.priv
            pc := s.st.pc, born := s.tick }
        M.change fun t => t.release p.scope
        M.change fun t => { t with passes := t.passes ++ [p] }
        pure .none) M.nothing s

/-- The score term of a logit, or none where the job scored no token (R254). FTZ touches neither the term, which is admitted
into a cell, nor what it is made of (R72). -/
def scoreTerm (m sum x : Nat) : Option Nat :=
  let a := readF32 false m
  let b := readF32 false sum
  if a == .inf true && b.isZero && !b.sign then none
  else if a.isNan || b.isNan || a == .inf false || b.cmp (.ofInt 0) != some .gt then some (roundF32 false .nan)
  else some (roundF32 false ((Trans.exp (XReal.add false (readF32 false x) a.neg)).div b))

/-- The logits of a buffered job: those held, or recomputed for a score pass from a fresh capture (R253); none while the table is
being rewritten. -/
def SauJob.scores (j : SauJob) (g : SauAgent) : M (Option (List (Nat × Nat))) := do
  if !j.logits.isEmpty then pure (some (j.logits.map fun e => (e.1, e.2.toNat)))
  else
    let r ← captureTable g j.desc j.gen
    let s ← M.look id
    match r with
    | none => pure none
    | some x =>
      let l ← M.gather (fun t => do
        let k ← tokenKeys { g with acq := s.tick + 1 } j.desc x.2 t
        pure (t, logit j.ftz (descScale j.desc) j.query k)) (upFrom (descT0 j.desc) (descNtok j.desc))
      pure (some l)

/-- The adds of a score pass into the cell table: every address is checked, then every term admitted (R80, R81, R254). The
answer is false while the logits cannot be had. -/
def ScorePass.add (p : ScorePass) (j : SauJob) : M Bool := do
  let r ← j.scores ⟨p.key, p.priv, p.born, p.born + 1⟩
  match r with
  | none => pure false
  | some l =>
    let terms := l.filterMap fun x => (scoreTerm p.m.toNat p.s.toNat x.2).map fun t => (x.1, t)
    let items ← M.gather (fun x => do
      let q ← sauPlace p.key p.priv (descStab j.desc + 32 * x.1) 32 .cellAdd
      engineCheck q 32
      pure (q, x.2)) terms
    M.change fun s => items.foldl (fun s x =>
      s.addCell (commandAuthor p.key p.born) (x.1.atScope p.scope) (descSanc j.desc) (readF32 false x.2)) s
    pure true

/-- A state without the n-th score pass, and without the buffered job it closes. -/
def State.closePass (s : State) (n : Nat) (key tag : Nat) : State :=
  { s with
    passes := dropNth s.passes n
    jobs := s.jobs.filter fun j => !(j.key == key && j.buf && descTag j.desc == tag) }

/-- The end of a score pass (R254): it waits for its job to complete. -/
def State.passDone (s : State) (n : Nat) : State :=
  match s.passes[n]? with
  | none => s
  | some p =>
    if !s.agentsMay p.key then s
    else
      let closed := fun (s : State) => s.closePass n p.key p.tag.toNat
      match s.jobs.find? fun j => j.key == p.key && j.buf && descTag j.desc == p.tag.toNat with
      | none => (closed s).sauFails p.key p.born 9 p.knot p.scope 0x08 (Config.openWord 1 (s.worker p.key).wid p.pc.toNat) p.pc
      | some j =>
        if !j.complete then s
        else if p.drop then ((closed s).visibleAt p.key p.born p.scope false).completeKnot p.key p.knot none false
        else
          match p.add j s with
          | .ok (true, t) => ((closed t).visibleAt p.key p.born p.scope false).completeKnot p.key p.knot none false
          | .ok (false, _) => s
          | .error (.trap t) => (closed s).sauFails p.key p.born 9 p.knot p.scope t.cause (BitVec.ofNat 64 t.addr) p.pc
          | .error (.machine kind pa) => s.machineCheck (s.worker p.key) 7 kind pa p.pc
          | .error .stall => s

/-- SCORE_PASS_COMPLETION (R254). -/
def execScorePassCompletion (n : Nat) (s : State) : Host.Outcome State Fault Refusal := .next (s.passDone n)

end Sys2Proof.Machine
end

