-- ==== Sys2Proof/Machine/Launches.lean ====
section
/-! DEFINITION. The launch arbiter and the life of a launch: taking and checking records (R284 to R287, R295), the decision,
start, pre-emption and resumption (R288, R289), phases (R257, R292, R294), the manifest (R298, R299), completion and abort
(R17, R287, R339). -/
namespace Sys2Proof.Machine

/-! ## Images of a record (R285) -/

/-- The context of a record's images: its page table and ASID, supervisor rights (log 35). -/
def recordCx (r : List Word) : Cx :=
  ⟨bits (nth 0 r 17).toNat 0 16, bits (nth 0 r 16).toNat 0 57, false, 0, 0, 0⟩

/-- One byte of an image, if it can be read. -/
def State.imageByte (s : State) (cx : Cx) (va : Nat) : Option (BitVec 8) :=
  if 2 ^ 57 ≤ va ∨ inWindows va then none
  else
    match s.walk .empty cx va with
    | .error _ => none
    | .ok (e, _) =>
      match leafPhys e.size e.pte.toNat va with
      | none => none
      | some p =>
        if permitted false .load e.pte.toNat && (s.placeFault p).isNone && (s.readCheck (.phys p) 1).isNone then
          some (s.physByte p.addr)
        else none

/-- `n` bytes of an image as a little-endian number, if all can be read. -/
def State.imageNat (s : State) (cx : Cx) (va : Nat) : Nat → Option Nat
  | 0 => some 0
  | n + 1 =>
    match s.imageByte cx va, State.imageNat s cx (va + 1) n with
    | some b, some x => some (b.toNat + x <<< 8)
    | _, _ => none

/-- `n` values of `size` bytes, if all can be read. -/
def State.imageWords (s : State) (cx : Cx) (va size : Nat) : Nat → Option (List Nat)
  | 0 => some []
  | n + 1 =>
    match s.imageNat cx va size, State.imageWords s cx (va + size) size n with
    | some x, some l => some (x :: l)
    | _, _ => none

/-- An image that a record names, or a default where it names none. -/
def State.imageOr (s : State) (cx : Cx) (va size n : Nat) (none? : Bool) : Option (List Nat) :=
  if none? then some ((upFrom 0 n).map fun _ => 0) else s.imageWords cx va size n

/-! ## Checking a record (R286, R295) -/

/-- Cores in service that a DIES mask allows (R285, R286). -/
def State.allowedCores (s : State) (dies : Nat) : List Nat :=
  (upFrom 0 (Config.dies * Config.coresPerDie)).filter fun c => s.coreEnabled c && (dies == 0 || dies.testBit (dieOf c))

/-- Bits of a record that R285 leaves zero. -/
def recordReservedOk (r : List Word) : Bool :=
  let w := fun i => (nth 0 r i).toNat
  let addr := fun i => bits (w i) 57 7 == 0
  addr 0 && bits (w 2) 2 6 == 0 && bits (w 2) 14 2 == 0 && bits (w 2) 21 43 == 0 && addr 3 && addr 4 && addr 5 && addr 10 &&
    bits (w 11) 11 53 == 0 && addr 12 && addr 13 && addr 14 && addr 15 && addr 16 && bits (w 17) 48 16 == 0 && addr 18 &&
    bits (w 19) 4 60 == 0 && w 20 == 0 && w 21 == 0 && w 22 == 0 && w 23 == 0 && w 28 == 0 && w 29 == 0 && w 30 == 0 &&
    bits (w 31) 8 56 == 0

/-- DIES of a record. -/
def Launch.dies (l : Launch) : Nat := bits (l.word 19) 0 4

/-- SLIP of a record, 0 standing for 4. -/
def Launch.slip (l : Launch) : Nat := if bits (l.word 2) 16 5 = 0 then 4 else bits (l.word 2) 16 5

/-- Whether a list never decreases. -/
def rising : List Nat → Bool
  | [] => true
  | [_] => true
  | a :: b :: r => decide (a ≤ b) && rising (b :: r)

/-- The cumulative ends of a launch's phases, or none if the table breaks R286. -/
def State.phaseTable (s : State) (cx : Cx) (l : Launch) : Option (List Nat) :=
  if l.nphase = 0 then some [l.ntask]
  else
    match s.imageWords cx (l.word 3) 4 l.nphase with
    | none => none
    | some t => if rising t && t.getLast? == some l.ntask then some t else none

/-- One codebook of the list: its entries, or none where a field is bad or the image cannot be read (R285, R286). -/
def State.codebook (s : State) (cx : Cx) (addr count : Nat) : Option (List Word) :=
  if bits addr 57 7 ≠ 0 ∨ 256 < count then none
  else (s.imageWords cx addr 8 count).map fun l => l.map (BitVec.ofNat 64)

/-- The codebooks of a list of (address, count) words. -/
def State.codebooks (s : State) (cx : Cx) : List Nat → Option (List (List Word))
  | a :: n :: r =>
    match s.codebook cx a n, State.codebooks s cx r with
    | some x, some l => some (x :: l)
    | _, _ => none
  | _ => some []

/-- The member sets of a group table image. -/
def groupSets : List Nat → List Nat
  | lo :: hi :: r => (lo + hi <<< 64) :: groupSets r
  | _ => []

/-- R295: no bit at or above W, and no worker in more than four groups. -/
def groupsOk (w : Nat) (g : List Nat) : Bool :=
  g.all (fun x => decide (x < 2 ^ w)) && (upFrom 0 w).all fun i => decide ((g.filter fun x => x.testBit i).length ≤ 4)

/-- A launch from a record with its images, or the STATUS of its refusal: 1 for a field, 2 for the groups (R286). -/
def State.loadRecord (s : State) (r : List Word) (prio : Nat) (producers : List Nat) : Except Nat Launch :=
  let l : Launch := { Launch.zero with record := r, prio := prio, producers := producers }
  let cx := recordCx r
  let w := l.workersN
  if w = 0 ∨ 96 < w ∨ (s.allowedCores l.dies).length < w ∨ !recordReservedOk r ∨ 16 < bits (l.word 2) 16 5 ∨ 1024 < l.nexp then
    .error 1
  else
    let routes := l.nexp != 0
    match s.phaseTable cx l, s.imageOr cx (l.word 4) 8 512 (l.word 4 == 0), s.imageWords cx (l.word 5) 8 30,
      s.imageOr cx (l.word 12) 4 l.nexp (l.word 12 == 0), s.imageOr cx (l.word 13) 8 l.nexp (!routes || l.word 13 == 0),
      s.imageOr cx (l.word 14) 8 32 (l.word 14 == 0), s.imageOr cx (l.word 15) 8 8 (l.word 15 == 0) with
    | some ends, some grp, some args, some bias, some place, some books, some bkt =>
      match s.codebooks cx books with
      | none => .error 1
      | some cbs =>
        let sets := groupSets grp
        if groupsOk w sets then
          let bias := bias.map (BitVec.ofNat 32)
          .ok
            { l with
              phaseEnds := ends, groups := sets, args := args.map (BitVec.ofNat 64), bkt := bkt.map (BitVec.ofNat 64), books := cbs
              place := place.map (BitVec.ofNat 64), bias := bias, phaseBias := bias }
        else .error 2
    | _, _, _, _, _, _, _ => .error 1

/-! ## The manifest (R298, R299) -/

/-- The hash of a component over the chains of the workers. -/
def componentHash (chains : List (List (List Word))) : BitVec 256 := Sha3.hash (chains.flatMap fun c => Sha3.bytes (Sha3.chain c))

/-- SHA3-256 of a program as placed: the bytes of its text and of its data images, where the loader put them (R298, log 20). A
byte that cannot be read counts as zero. -/
def State.placedHash (s : State) (r : List Word) : BitVec 256 :=
  Sha3.hash ((Config.placedSpans (r.take 20)).flatMap fun x =>
    (upFrom x.1 x.2).map fun a => (s.imageByte (recordCx r) a).getD 0)

/-- The launch-wide events: BIN, BIAS, WORKERS. -/
def Launch.binLog (l : Launch) : List (List Word) := [Sha3.words l.bin]

/-- Its WORKERS event. -/
def Launch.workersLog (l : Launch) : List (List Word) :=
  [[BitVec.ofNat 64 l.workersN, BitVec.ofNat 64 l.ntask, BitVec.ofNat 64 l.nphase]]

/-- The digest of a launch as its logs stand. -/
def State.digestOf (s : State) (lid : Nat) : BitVec 256 :=
  let l := s.launch lid
  let ws := (upFrom 0 l.workersN).map fun w => s.worker (workerKey lid w)
  let wide := fun (e : List (List Word)) => componentHash (ws.map fun _ => e)
  let own := fun (f : Worker → List (List Word)) => componentHash (ws.map f)
  Sha3.hash
    ([ wide l.binLog, own Worker.modeLog, own Worker.codebookLog, own Worker.layoutLog, own Worker.nkeyLog,
       own Worker.treeLog, wide l.biasLog, wide l.workersLog ].flatMap Sha3.bytes)

/-! ## Completing records (R284, R287, R325) -/

/-- DONE moved past records that have completed. -/
def advanceDone (l : List Nat) : Nat → Nat → Nat
  | 0, d => d
  | n + 1, d => if l.contains d then advanceDone l n (d + 1) else d

/-- DONE of a queue advances over completed records, a release at system scope (R266, R284); with IDs enabled the message follows
(R325). -/
def State.advanceQueue (s : State) (q : Nat) : State :=
  let a := s.account q
  let d := advanceDone a.completed a.completed.length a.done
  if d = a.done then s
  else
    let s := s.flushAllPool.putPhys (s.header q + 32) (toBytes d 8)
    let s := { s with queues := tabPut s.queues q { a with done := d, completed := a.completed.filter fun i => decide (d ≤ i) } }
    let irq := (tabGet 0 s.qirq q).toNat
    if bit irq 16 then { s with messages := s.messages ++ [bits irq 0 11] } else s

/-- Whether a write is of a launch: of its workers' strands or their commands. -/
def Write.ofLaunch (u : Write) (lid : Nat) : Bool :=
  match u.who with
  | some w => w.key / 128 == lid
  | none => false

/-- A record becomes COMPLETE: DIGEST where there is one, STATUS, then DONE, a release at system scope of what the launch wrote
(R284, R287, R299). -/
def State.finish (s : State) (lid status : Nat) (digest : Option (BitVec 256)) : State :=
  let s := s.performAll (·.ofLaunch lid) 5 0
  let q := lidQueue lid
  let a := s.account q
  let slot := ringSlot a.ring a.size (lidIndex lid)
  let s := match digest with
    | some d => s.putPhys (slot + 192) (Sha3.bytes d)
    | none => s
  let s := s.putPhys (slot + 248) (toBytes status 8)
  let s := s.modLaunch lid fun l => { l with state := .complete, status := status, digest := digest.getD 0 }
  let s := { s with queues := tabPut s.queues q { a with completed := a.completed ++ [lidIndex lid] } }
  s.advanceQueue q

/-! ## Taking a record (R286, R287) -/

/-- Launches of a queue that are past QUEUED and not COMPLETE. -/
def State.busyOf (s : State) (q : Nat) : Nat :=
  (s.launches.filter fun e => lidQueue e.1 == q && e.2.state != .complete).length

/-- QERR of a queue (R325). -/
def State.qerr (s : State) (q : Nat) : Bool := (tabGet 0 s.qirq q).getLsbD 31

/-- Producers of a record: the one before it in its queue and DEP0 to DEP3, as far as they are not COMPLETE (R287). -/
def State.producersOf (s : State) (q i : Nat) (r : List Word) : List Nat :=
  let prev := if i = 0 then [] else [q <<< 57 + (i - 1)]
  let deps := ((upFrom 6 4).map fun k => (nth 0 r k).toNat).filter (· ≠ 2 ^ 64 - 1)
  (prev ++ deps).filter fun d => !s.isComplete d

/-- The machine check of a record that lies in a sector with an uncorrectable error (R332, R333, log 39). -/
def State.recordCheck (s : State) (lid pa : Nat) : State :=
  let word := fun (n : Nat) => BitVec.ofNat 64 n
  s.logCheck [word (checkKind pa <<< 8 + 0x0D), word lid, word (7 <<< 54 + pa % 2 ^ 52), 0]

/-- The next record of a queue is taken and checked, and its images are read (R286, R287, R288); HEAD is written with a release at
system scope (R284). One that cannot be read for an error ends with STATUS 3 (R316). -/
def State.takeRecord (s : State) (q : Nat) : State :=
  let a := s.account q
  if a.head < a.tail ∧ s.busyOf q < 4 ∧ !s.qerr q then
    let slot := ringSlot a.ring a.size a.head
    let bad := sectorHit s.badSectors slot 256
    let s := s.correct slot 256
    let r := (upFrom 0 32).map fun k => BitVec.ofNat 64 (s.physNat (slot + 8 * k) 8)
    let lid := q <<< 57 + a.head
    let load := s.loadRecord r a.prio (s.producersOf q a.head r)
    let s := { s with queues := tabPut s.queues q { a with head := a.head + 1 } }
    let s := s.flushAllPool.putPhys (s.header q + 24) (toBytes (a.head + 1) 8)
    match bad, load with
    | some pa, _ => ((s.recordCheck lid pa).putLaunch lid .zero).finish lid 3 none
    | none, .ok l => s.putLaunch lid l
    | none, .error st => (s.putLaunch lid { Launch.zero with record := r }).finish lid st none
  else s

/-- RECORD_TAKE (R286, R287). -/
def execRecordTake (q : Nat) (s : State) : Host.Outcome State Fault Refusal := .next (s.takeRecord q)

/-! ## The arbiter's decision (R288, R289) -/

/-- Whether every producer of a launch is COMPLETE. -/
def State.producersDone (s : State) (l : Launch) : Bool := l.producers.all s.isComplete

/-- WAITING launches whose dependences are met, or that start early, become READY (R287). -/
def State.promote (s : State) : State :=
  { s with
    launches := s.launches.map fun e =>
      (e.1, if e.2.state = .waiting ∧ (e.2.early || s.producersDone e.2) then { e.2 with state := .ready, age := 0 } else e.2) }

/-- Effective level (R288). -/
def Launch.level (l : Launch) : Nat := min 3 (l.prio + l.age)

/-- Whether a launch may be chosen. -/
def Launch.choosable (l : Launch) : Bool := (l.state == .ready || l.state == .preempted) && !l.aborting

/-- Whether one launch comes before another in a decision (R288). -/
def State.prefers (s : State) (a b : Nat × Launch) : Bool :=
  let rank := fun (e : Nat × Launch) => (lidQueue e.1 + 63 - s.lastQueue) % 64
  let pre := fun (e : Nat × Launch) => e.2.state == .preempted
  decide (b.2.level < a.2.level) ||
    (a.2.level == b.2.level &&
      ((pre a && !pre b) ||
        (pre a == pre b &&
          (decide (rank a < rank b) || (rank a == rank b && decide (lidIndex a.1 < lidIndex b.1))))))

/-- The launch that a decision takes, a reservation kept against equal and lower levels (R288). -/
def State.candidate (s : State) : Option Nat :=
  let cs := s.launches.filter fun e => e.2.choosable
  let best := cs.foldl (fun (o : Option (Nat × Launch)) e =>
    match o with
    | none => some e
    | some b => if s.prefers e b then some e else some b) none
  match best with
  | none => none
  | some b =>
    match s.reserved with
    | none => some b.1
    | some r =>
      match cs.find? fun e => e.1 == r with
      | none => some b.1
      | some e => if e.2.level < b.2.level then some b.1 else some r

/-- Free cores that a launch may use. -/
def State.freeCores (s : State) (l : Launch) : List Nat := (s.allowedCores l.dies).filter fun c => (tabFind s.coreUse c).isNone

/-- Keys of a launch's workers that have not completed. -/
def State.openKeys (s : State) (lid : Nat) : List Nat := (s.keysOf lid).filter fun k => (s.worker k).status != .done

/-- Whether a core's save area holds nothing, or the image of a given worker (R320). -/
def State.areaFor (s : State) (core key : Nat) : Bool :=
  match tabFind s.saveArea core with
  | none => true
  | some k => k == key

/-- Whether a pre-empted launch can resume: its open workers are saved, and their cores are free, no other image in the save
areas that theirs come back to (R289, R320). -/
def State.canResume (s : State) (lid : Nat) : Bool :=
  (s.openKeys lid).all fun k =>
    (s.worker k).status == .saved && (tabFind s.coreUse (s.worker k).core).isNone && s.areaFor (s.worker k).core k

/-- The launch values of a core's worker (R36, R39, R106, R288, R298, R311, R326). It sees what was performed at a scope that
holds it before its start, and a bank loaded from an image is not clean (log 60). -/
def State.newWorker (s : State) (lid wid core : Nat) (l : Launch) : Worker :=
  let word := fun (n : Nat) => BitVec.ofNat 64 n
  let v : View :=
    { View.launch with slip := l.slip, bkt := ((upFrom 0 8).zip l.bkt).foldl (fun t e => tabSet 0 t e.1 e.2) [] }
  let t : Strand := { Strand.zero with pc := l.entry, view := v, acq := .all (s.tick + 1) }
  let ctx := bits (l.word 17) 16 32
  let e := s.ctxtab.toNat + 16 * (ctx % 4096)
  let tab0 := s.physNat e 8
  let tvec := if bit tab0 63 && bits tab0 0 32 == ctx then BitVec.ofNat 57 (s.physNat (e + 8) 8) else 0
  let books := (upFrom 0 16).zip l.books |>.filter fun b => !b.2.isEmpty
  { Worker.zero with
    lid := lid, wid := wid, core := core
    strands := ⟨t, t, t, t, t⟩
    sregs := ((upFrom 1 30).zip l.args).foldl (fun m a => tabSet 0 m a.1 a.2) []
    banks := books.foldl (fun m b =>
      tabSet .reset m b.1 { Bank.reset.load true b.2 with clean := false }) []
    sup := { Sup.launch with
      tvec := tvec, ctxid := BitVec.ofNat 32 ctx, asid := BitVec.ofNat 16 (l.word 17), ptroot := BitVec.ofNat 57 (l.word 16)
      laytab := BitVec.ofNat 57 (l.word 18), errlog := BitVec.ofNat 57 (l.word 10) }
    modeLog := [[0, word (ofBool l.det)]]
    codebookLog := books.map fun b => [word b.1, 1, word b.2.length]
    nkeyLog := (upFrom 0 4).map fun k => [word k, 0] }

/-- Deal phase `q` of a launch to its deques (R292). -/
def Launch.deal (l : Launch) (q : Nat) : Launch :=
  if l.ntask = 0 then l
  else
    let b := if q = 0 then 0 else nth 0 l.phaseEnds (q - 1)
    let n := nth b l.phaseEnds q - b
    let w := l.workersN
    { l with
      left := n
      deques := (upFrom 0 w).foldl (fun t i => tabSet [] t i (upFrom (b + i * n / w) ((i + 1) * n / w - i * n / w))) [] }

/-- The launch at its start: its tasks, its first bias record, its place among the starts. -/
def Launch.started (l : Launch) (order : Nat) : Launch :=
  { ((if l.det then l else { l with phaseEnds := [l.ntask] }).deal 0) with
    state := .running, order := order, biasLog := [l.biasRecord] }

/-- A worker with the trap of a bad ENTRY pending: before it issues anything (R19). -/
def State.checkEntry (s : State) (w : Worker) (entry : PAddr) : Worker :=
  if s.targetOk w entry then w
  else { w with note := some ⟨1, 2, entry.zeroExtend 64, none, .S, entry, false⟩ }

/-- Start a launch on given cores (R288). The planes of a context that is still there keep the array (R182). -/
def State.startOn (s : State) (lid : Nat) (cores : List Nat) : State :=
  let l := s.launch lid
  let s1 := s.putLaunch lid { l.started s.starts with bin := s.placedHash l.record }
  let put := fun (s : State) (x : Nat × Nat) =>
    let key := workerKey lid x.1
    let owner := match tabFind s.planeOwner x.2 with
      | some k => if (s.worker? k).isSome then k else key
      | none => key
    { s.putWorker key (s.checkEntry (s.newWorker lid x.1 x.2 l) l.entry) with
      coreUse := tabPut s.coreUse x.2 key, planeOwner := tabPut s.planeOwner x.2 owner }
  { ((upFrom 0 l.workersN).zip cores).foldl put s1 with
    starts := s.starts + 1, lastQueue := lidQueue lid, reserved := none }

/-- Resume a pre-empted launch: its cores are taken again; its workers are restored next (R289). -/
def State.resume (s : State) (lid : Nat) : State :=
  let s := s.modLaunch lid fun l => { l with state := .running }
  { (s.openKeys lid).foldl (fun s k => { s with coreUse := tabPut s.coreUse (s.worker k).core k }) s with
    lastQueue := lidQueue lid, reserved := none }

/-- Cores that workers on their way into a save will free. -/
def State.coresComing (s : State) (l : Launch) : Nat :=
  ((s.allowedCores l.dies).filter fun c =>
    match tabFind s.coreUse c with
    | some k => (s.launch (s.worker k).lid).state == .preempted
    | none => false).length

/-- The running launch that a pre-emption takes: of the lowest PRIO below `prio`, the most recently started (R289). -/
def State.victim (s : State) (prio : Nat) : Option Nat :=
  let vs := s.launches.filter fun e => e.2.state == .running && !e.2.aborting && decide (e.2.prio < prio)
  (vs.foldl (fun (o : Option (Nat × Launch)) e =>
    match o with
    | none => some e
    | some b =>
      if e.2.prio < b.2.prio ∨ (e.2.prio = b.2.prio ∧ b.2.order < e.2.order) then some e else some b) none).map Prod.fst

/-- The cores of a launch's completed workers are free: no context of theirs is to be saved (R289). -/
def State.freeDone (s : State) (lid : Nat) : State :=
  { s with coreUse := s.coreUse.filter fun e => !((s.worker e.2).lid == lid && (s.worker e.2).status == .done) }

/-- Make room for a READY launch: one more launch is pre-empted while too few cores are free or coming (R289). -/
def State.makeRoom (s : State) (l : Launch) : State :=
  if l.state = .ready ∧ (s.freeCores l).length + s.coresComing l < l.workersN then
    match s.victim l.prio with
    | some v => (s.modLaunch v fun x => { x with state := .preempted, age := 0 }).freeDone v
    | none => s
  else s

/-- One decision of the arbiter (R288, R289). -/
def State.arbitrate (s : State) : State :=
  let s := s.promote
  match s.candidate with
  | none => { s with reserved := none }
  | some lid =>
    let s := { s with reserved := some lid }
    let l := s.launch lid
    if l.state = .preempted then (if s.canResume lid then s.resume lid else s)
    else
      let cores := (s.freeCores l).take l.workersN
      if cores.length < l.workersN then s.makeRoom l
      else if cores.all fun c => (tabFind s.saveArea c).isNone then s.startOn lid cores
      else s

/-- ARBITER_DECISION (R288). -/
def execArbiterDecision (s : State) : Host.Outcome State Fault Refusal := .next s.arbitrate

/-- AGING_STEP (R288): one more full 100 µs in READY or PREEMPTED. -/
def execAgingStep (lid : Nat) (s : State) : Host.Outcome State Fault Refusal :=
  .next (s.modLaunch lid fun l => if l.choosable then { l with age := l.age + 1 } else l)

/-! ## Phases (R257, R292, R294) -/

/-- The launch at the end of a phase that leaves it running, and at the end of one whose last commit was the last worker's
`exit`: no later phase begins (R257, R292, R294). -/
def Launch.nextPhase (l : Launch) (last : Bool) : Launch :=
  if last then { l with ended := true } else { l.deal (l.phase + 1) with phase := l.phase + 1 }

/-- The end of a phase: held requests, the close, PHASE, the detector, the digest, the next deal (R206, R211, R257, R292, R297,
R299). -/
def State.endPhase (s : State) (lid : Nat) : State :=
  if s.phaseOver lid then
    let last := (s.workersOf lid).all (·.gone)
    let s := (s.decideHeld lid).closePhase lid
    let s : State :=
      { s with workers := s.workers.map fun e => (e.1, if e.2.lid = lid then { e.2 with committed := false } else e.2) }
    let gamma := (s.worker (workerKey lid 0)).strands.s.view.gamma
    s.modLaunch lid fun l =>
      { l.nextPhase last with
        sectors := [], detOff := false, phaseBias := l.bias, phaseGamma := gamma
        mandig := s.digestOf lid }
  else s

/-- PHASE_END (R257). -/
def execPhaseEnd (lid : Nat) (s : State) : Host.Outcome State Fault Refusal := .next (s.endPhase lid)

/-! ## Completion (R17, R287, R339) -/

/-- Whether anything that a worker issued is still under way (R17). -/
def State.workLeft (s : State) (key : Nat) : Bool :=
  !(s.copiesOf key).isEmpty || (s.jobs.any fun j => j.key == key && !j.complete) || !(s.passesOf key).isEmpty ||
    (s.knotAdds.any fun k => k.key == key) || s.satinvs.any fun x => x.key == key

/-- Whether a worker has completed (R17). A launch drains only once the ends of its phases and its closes are behind it (R205,
R206, R211). -/
def State.workerOver (s : State) (key : Nat) : Bool :=
  match s.worker? key with
  | none => false
  | some w =>
    w.status == .running && w.gone && !w.inHandler && !w.noted && w.strands.toList.all (fun t => t.pend.isEmpty) &&
      !s.workLeft key && !s.phaseOver w.lid && !s.batchOver w.lid

/-- Free the cores of a launch. -/
def State.freeLaunch (s : State) (lid : Nat) : State := { s with coreUse := s.coreUse.filter fun e => e.2 / 128 != lid }

/-- A worker completes, what it wrote performed at device scope; with the last one the launch drains and its cores are free (R17,
R287). In a pre-empted launch its core is free at once (R289). -/
def State.completeWorker (s : State) (key : Nat) : State :=
  if s.workerOver key then
    let s := (s.performWorker key 3).modWorker key fun w => { w with status := .done }
    let s := { s with jobs := s.jobs.filter fun j => j.key != key }
    let lid := key / 128
    if (s.keysOf lid).all fun k => (s.worker k).status == .done then
      (s.modLaunch lid fun l => { l with state := .draining }).freeLaunch lid
    else if (s.launch lid).state = .preempted then s.freeDone lid
    else s
  else s

/-- WORKER_COMPLETION (R17). -/
def execWorkerCompletion (key : Nat) (s : State) : Host.Outcome State Fault Refusal := .next (s.completeWorker key)

/-- Whether a spot lies in the SRAM of a worker of a launch. -/
def Spot.isLocalOf (x : Spot) (lid : Nat) : Bool :=
  match x with
  | .spad k => k / 128 == lid
  | .cell k => k / 128 == lid
  | .mem => false

/-- A launch's workers, and everything they had under way, are gone. -/
def State.forget (s : State) (lid : Nat) : State :=
  let of := fun (k : Nat) => k / 128 == lid
  { s.freeLaunch lid with
    workers := s.workers.filter fun e => e.2.lid != lid
    copies := s.copies.filter fun c => !of c.key
    jobs := s.jobs.filter fun j => !of j.key
    passes := s.passes.filter fun p => !of p.key
    knotAdds := s.knotAdds.filter fun k => !of k.key
    satinvs := s.satinvs.filter fun x => !of x.key
    sends := s.sends.filter fun q => q.lid != lid
    refusals := s.refusals.filter fun m => !of m.key
    saveArea := s.saveArea.filter fun e => !of e.2
    movedImages := s.movedImages.filter fun e => !of e.1
    badLocal := s.badLocal.filter fun x => !of x.key
    regFaults := s.regFaults.filter fun x => !of x.key
    softLocal := s.softLocal.filter fun x => !of x.key
    writes := s.writes.filter fun u => !u.spot.isLocalOf lid }

/-- Whether requests or refusals of a launch are still to be decided; a deterministic launch's last phase has no end that
decides them (R211, R257). -/
def State.sendsLeft (s : State) (lid : Nat) : Bool :=
  !(s.launch lid).det && ((s.sends.any fun q => q.lid == lid) || s.refusals.any fun m => m.key / 128 == lid)

/-- A draining launch completes once its producers have (R287, R299). -/
def State.completeLaunch (s : State) (lid : Nat) : State :=
  let l := s.launch lid
  if l.state == .draining && !l.aborting && s.producersDone l && !s.sendsLeft lid then
    (s.finish lid 0 (some (s.digestOf lid))).forget lid
  else s

/-- LAUNCH_COMPLETION (R287). -/
def execLaunchCompletion (lid : Nat) (s : State) : Host.Outcome State Fault Refusal := .next (s.completeLaunch lid)

/-- An aborted launch completes with STATUS 3 once its producers have: its commands and jobs stand at a boundary, make no knot
add and write no record (R287, R339). -/
def State.completeAborted (s : State) (lid : Nat) : State :=
  let l := s.launch lid
  if l.aborting && l.state != .complete && s.producersDone l then
    ((s.finish lid 3 (some (s.digestOf lid))).forget lid).modLaunch lid fun l => { l with aborting := false }
  else s

/-- ABORTED_LAUNCH_COMPLETION (R339). -/
def execAbortedLaunchCompletion (lid : Nat) (s : State) : Host.Outcome State Fault Refusal := .next (s.completeAborted lid)

end Sys2Proof.Machine
end

