-- ==== Sys2Proof/Machine/Context.lean ====
section
/-! DEFINITION. Trap entry before the first instruction (R19, R313), pre-emption, save and restore (R318 to R322), planes and
neighbour tables on their way back (R182, R222), page walks (R305, R307), invalidation (R309), and the knot adds of `wstq`
(R168). -/
namespace Sys2Proof.Machine

/-- The S strand of a worker in turn: where a worker-wide trap is taken. -/
def State.asS (s : State) (key : Nat) : State := { s with curKey := key, curEng := .S }

/-! ## Traps that wait (R19, R322) -/

/-- A decided trap is entered: a bad ENTRY, before the worker issues anything (R19, R313). -/
def State.enterTrap (s : State) (key : Nat) : State :=
  match s.worker? key with
  | none => s
  | some w =>
    match w.note with
    | none => s
    | some n =>
      if w.status = .running ∧ !n.held ∧ w.insertion.isNone then
        ((s.putWorker key { w with note := none }).asS key).takeTrap n.strand n.pc ⟨n.cause, n.sub, n.addr.toNat, n.slot⟩
      else s

/-- TRAP_ENTRY (R313). -/
def execTrapEntry (key : Nat) (s : State) : Host.Outcome State Fault Refusal := .next (s.enterTrap key)

/-! ## Pre-emption (R318 to R322) -/

/-- A pre-emption request reaches a running worker of a pre-empted launch (R289, R318). -/
def State.requestPreemption (s : State) (key : Nat) : State :=
  s.modWorker key fun w =>
    if w.status = .running ∧ (s.launch w.lid).state = .preempted then { w with preempt := true } else w

/-- PREEMPTION_REQUEST (R318). -/
def execPreemptionRequest (key : Nat) (s : State) : Host.Outcome State Fault Refusal := .next (s.requestPreemption key)

/-- A job at a save: one that is not complete is abandoned and kept as its record; held logits are dropped (R252, R253). -/
def SauJob.saved (j : SauJob) : SauJob :=
  if j.failed.isSome then j
  else { j with entries := [], folded := if j.complete then j.folded else [], logits := [] }

/-! ### The bytes of a save area (R320, log 54) -/

/-- A value of some bytes at an offset of the area. -/
structure AreaItem where
  off : Nat
  size : Nat
  val : Nat
  deriving DecidableEq, Repr

/-- Values one behind the other from an offset, each with its size. -/
def placeFrom (off : Nat) : List (Nat × Nat) → List AreaItem
  | [] => []
  | x :: r => ⟨off, x.1, x.2⟩ :: placeFrom (off + x.1) r

/-- v0 to v127 and, where they hold block data, their sidebands. -/
def Worker.vregItems (w : Worker) : List AreaItem :=
  (upFrom 0 128).flatMap fun p =>
    let x := w.vget p
    ⟨0x010000 + 0x8000 * p, 0x8000, x.data.toNat⟩ ::
      (if x.tag.isSome then [⟨0x410000 + 0x1000 * p, 0x1000, x.scale.toNat⟩] else [])

/-- The scratchpad, the accumulator store and the masks. -/
def Worker.arrayItems (w : Worker) : List AreaItem :=
  ((upFrom 0 Config.spadBytes).map fun a => ⟨0x490000 + a, 1, (w.spad.read a).toNat⟩) ++
    ((upFrom 0 Config.cellCount).map fun i => ⟨0x510000 + 32 * i, 32, (w.cell i).toNat⟩) ++
    (upFrom 0 8).map fun m => ⟨0x690000 + 0x2000 * m, 0x2000, (w.mget m).toNat⟩

/-- The entries of the operand queues that are there: q0 to q13, then q14 and q15. -/
def Worker.queueItems (w : Worker) : List AreaItem :=
  placeFrom 0x610000
    (((upFrom 0 14).flatMap fun q => (w.image q).map fun e => (e.size, e.data.toNat)) ++
      (w.q14 ++ w.q15).map fun x => (8, x.toNat))

/-- The entries of the codebook banks that are not clean (R190): copy 0, then copy 1. -/
def Worker.bookItems (w : Worker) : List AreaItem :=
  (upFrom 0 16).flatMap fun b =>
    let x := w.bank b
    if x.clean then []
    else (upFrom 0 256).flatMap fun i =>
      [⟨0x6A0000 + 0x1000 * b + 8 * i, 8, (tabGet 0 x.copy0 i).toNat⟩,
        ⟨0x6A0800 + 0x1000 * b + 8 * i, 8, (tabGet 0 x.copy1 i).toNat⟩]

/-- Sizes and values of the registers that an act will write. -/
def Landing.values : Landing → List (Nat × Nat)
  | .sreg _ v => [(8, v.toNat)]
  | .vregs l => l.map fun e => (0x8000, e.2.data.toNat)
  | .mask _ v => [(0x2000, v.toNat)]
  | _ => []

/-- The values of pending register writes, S's trap copy last. -/
def Worker.pendItems (w : Worker) : List AreaItem :=
  placeFrom 0x6B0000
    (((w.strands.toList.flatMap fun t => t.pend) ++ w.trapPend).flatMap fun p => p.acts.flatMap Landing.values)

/-- A plane at an offset: mantissas, then scale bytes, then WB, LB and SET in a byte each (R182). -/
def Plane.items (p : Plane) (off : Nat) : List AreaItem :=
  ((upFrom 0 2048).flatMap fun i =>
    [⟨off + 128 * i, 128, (tabGet 0 p.mant i).toNat⟩, ⟨off + 0x40000 + 8 * i, 8, (tabGet 0 p.scale i).toNat⟩]) ++
    [⟨off + 0x44000, 1, p.wb⟩, ⟨off + 0x44001, 1, p.lb⟩, ⟨off + 0x44002, 1, ofBool p.fixed⟩]

/-- Both planes, as a transfer writes them (R182). -/
def Worker.planeItems (w : Worker) : List AreaItem := w.active.items 0x720000 ++ w.shadow.items 0x768000

/-- Items written into the bytes of a save area. -/
def Memory.putItems (m : Memory) (l : List AreaItem) : Memory :=
  l.foldl (fun m x => m.writeBytes x.off (toBytes x.val x.size)) m

/-- What a save writes (R320): the control image, whose layout is open, and every part that has a place of its own. -/
def Worker.areaItems (w : Worker) (tick : Nat) : List AreaItem :=
  ((upFrom 0 0x10000).map fun a => ⟨a, 1, (Config.controlByte tick a).toNat⟩) ++
    w.vregItems ++ w.arrayItems ++ w.queueItems ++ w.bookItems ++ w.pendItems

/-- The bytes of the save area of a core's vault. -/
def State.vault (s : State) (core : Nat) : Memory := tabGet [] s.vaults core

/-- Write items into the save area of a core's vault. -/
def State.putVault (s : State) (core : Nat) (l : List AreaItem) : State :=
  { s with vaults := tabSet [] s.vaults core ((s.vault core).putItems l) }

/-- The context of a stopped worker is written to its core's save area, and the core is free (R319, R320); its stores are seen by
then (R273). -/
def State.save (s : State) (key : Nat) : State :=
  match s.worker? key with
  | none => s
  | some w =>
    if w.status = .stopped then
      { ((s.putVault w.core (w.areaItems s.tick)).performWorker key 3).putWorker key
          { w with status := .saved, preempt := false, imageMoved := false
                   banks := w.banks.map fun b => (b.1, { b.2 with clean := true }) } with
        jobs := s.jobs.map fun j => if j.key = key then j.saved else j
        saveArea := tabPut s.saveArea w.core key
        coreUse := tabErase s.coreUse w.core }
    else s

/-- CONTEXT_SAVE (R320). -/
def execContextSave (key : Nat) (s : State) : Host.Outcome State Fault Refusal := .next (s.save key)

/-- An image moves from a core's vault to reserved HBM (R320). -/
def State.imageOut (s : State) (key core : Nat) : State :=
  { s with movedImages := tabSet [] s.movedImages key (s.vault core), saveArea := tabErase s.saveArea core }

/-- An image comes back to its vault (R320). -/
def State.imageBack (s : State) (key core : Nat) : State :=
  { s with
    vaults := tabSet [] s.vaults core (tabGet [] s.movedImages key), movedImages := tabErase s.movedImages key
    saveArea := tabPut s.saveArea core key }

/-- A save image moves to reserved HBM when another launch is to start, and back when its own is to be restored (R320). -/
def State.moveImage (s : State) (key : Nat) : State :=
  match s.worker? key with
  | none => s
  | some w =>
    if w.status = .saved then
      if (s.launch w.lid).state = .running then
        if w.imageMoved && (tabFind s.saveArea w.core).isNone then
          (s.putWorker key { w with imageMoved := false }).imageBack key w.core
        else s
      else if !w.imageMoved && s.reserved.isSome && s.reserved != some w.lid && (tabFind s.coreUse w.core).isNone then
        (s.putWorker key { w with imageMoved := true }).imageOut key w.core
      else s
    else s

/-- SAVE_IMAGE_MOVE (R320). -/
def execSaveImageMove (key : Nat) (s : State) : Host.Outcome State Fault Refusal := .next (s.moveImage key)

/-- The notice of R322 to a restored worker: taken at once or, with TIN set, held for its next `eret`. -/
def State.notify (s : State) (key : Nat) : State :=
  let w := s.worker key
  if !w.sup.pnote then s
  else if w.sup.tin then s.putWorker key { w with note := some ⟨0x11, 0, 0, none, .S, 0, true⟩ }
  else (s.asS key).takeTrap .S w.strands.s.pc ⟨0x11, 0, 0, none⟩

/-- A translation cache without what the context of an ASID can use: after a restore it starts cold (R321, log 10). -/
def Tlb.cold (t : Tlb) (asid : Nat) : Tlb :=
  ⟨t.leaves.filter fun e => !(e.global || e.asid == asid), t.tables.filter fun e => e.asid != asid⟩

/-- Cold caches for a context on a core (R321). -/
def State.coldCaches (s : State) (core asid : Nat) : State :=
  let cold := fun (t : Tab Tlb) => t.map fun e => (e.1, e.2.cold asid)
  { s with
    coreTlb := tabErase s.coreTlb core
    dieTlb := s.dieTlb.map fun e => (e.1, if e.1 = dieOf core then e.2.cold asid else e.2)
    engTlb := cold s.engTlb, sauTlb := cold s.sauTlb }

/-- The records of a worker's abandoned jobs are reissued, each capturing again (R252). -/
def State.reissue (s : State) (key : Nat) : State :=
  (upFrom 0 s.jobs.length).foldl (fun s n =>
    match s.jobs[n]? with
    | none => s
    | some j =>
      if j.key = key ∧ !j.complete ∧ j.failed.isNone then
        let r := s.jobStep j j.capture
        r.1.putJob n r.2
      else s) s

/-- A saved worker of a resumed launch is loaded back with cold caches, and its jobs are reissued (R252, R320 to R322). Its tile
counters come back as they were saved, as R321 says of every item, where R83 names a restore among what clears them (log 53). -/
def State.restore (s : State) (key : Nat) : State :=
  match s.worker? key with
  | none => s
  | some w =>
    if w.status = .saved ∧ (s.launch w.lid).state = .running ∧ !w.imageMoved then
      let w := { w with status := .running, nbrValid := false
                        banks := w.banks.map fun b => (b.1, { b.2 with clean := true }) }
      State.notify
        (({ s.putWorker key w with saveArea := tabErase s.saveArea w.core }.coldCaches w.core w.sup.asid.toNat).reissue key)
        key
    else s

/-- CONTEXT_RESTORE (R320). -/
def execContextRestore (key : Nat) (s : State) : Host.Outcome State Fault Refusal := .next (s.restore key)

/-! ## Planes and neighbour tables (R182, R222) -/

/-- The planes in a core's array are written to the save area of the context that owns them, wherever its image lies (R182,
R320). -/
def State.planesOut (s : State) (core key : Nat) : State :=
  match tabFind s.planeOwner core with
  | none => s
  | some k =>
    match s.worker? k with
    | none => s
    | some w =>
      if k = key then s
      else if w.imageMoved then
        { s with movedImages := tabSet [] s.movedImages k (Memory.putItems (tabGet [] s.movedImages k) w.planeItems) }
      else s.putVault core w.planeItems

/-- The array of a worker's core takes the worker's planes, those of another context being written out (R182). -/
def State.transferPlanes (s : State) (key : Nat) : State :=
  match s.worker? key with
  | none => s
  | some w =>
    if w.status = .running then { s.planesOut w.core key with planeOwner := tabPut s.planeOwner w.core key } else s

/-- PLANE_TRANSFER (R182). -/
def execPlaneTransfer (key : Nat) (s : State) : Host.Outcome State Fault Refusal := .next (s.transferPlanes key)

/-- NEIGHBOUR_TABLE_REBUILD (R222). -/
def execNeighbourTableRebuild (key : Nat) (s : State) : Host.Outcome State Fault Refusal :=
  .next (s.modWorker key fun w => { w with nbrValid := true })

/-! ## Walks and invalidation (R305, R307, R309) -/

/-- Whether an address is walked at all: not above 57 bits, and not in the fixed windows (R147, R305). -/
def walkable (va : Nat) : Bool := decide (va < 2 ^ 57) && !inWindows va

/-- A walk for a worker's core: what it finds is cached; a walk that fails, or ends in an entry whose target the map does not
have, leaves nothing (R305, R307). -/
def State.pageWalk (s : State) (key va : Nat) : State :=
  match s.worker? key with
  | none => s
  | some w =>
    if walkable va then
      match s.lookup (.core w.core) (s.cxOf w) va with
      | .ok (e, l, true) =>
        if (leafPhys e.size e.pte.toNat va).isSome then
          (s.noteWalk (.core w.core) (s.cxOf w) va l).fill (.core w.core) e l
        else s
      | _ => s
    else s

/-- PAGE_WALK (R305). -/
def execPageWalk (key va : Nat) (s : State) : Host.Outcome State Fault Refusal := .next (s.pageWalk key va)

/-- Whether a range [base, base + size) meets [lo, hi). -/
def meets (base size lo hi : Nat) : Bool := decide (base < hi ∧ lo < base + size)

/-- A translation cache after an invalidation: leaves of the ASID or global ones, and every table that covers part of the
range (R309). -/
def Tlb.drop (t : Tlb) (x : Satinv) : Tlb :=
  ⟨t.leaves.filter fun e => !(meets e.base e.size x.base x.limit && (x.all || e.global || e.asid == x.asid)),
   t.tables.filter fun e => !meets e.base e.size x.base x.limit⟩

/-- Whether a cached leaf is one that a `satinv` drops (R309). -/
def Satinv.hits (x : Satinv) (e : TlbEntry) : Bool :=
  meets e.base e.size x.base x.limit && (x.all || e.global || e.asid == x.asid)

/-- Whether a physical address lies in a frame that some cached leaf which a `satinv` drops leads to. -/
def State.dropsFrame (s : State) (x : Satinv) (a : Nat) : Bool :=
  (s.coreTlb ++ s.dieTlb ++ s.engTlb ++ s.sauTlb).any fun t => t.2.leaves.any fun e =>
    x.hits e &&
      match leafPhys e.size e.pte.toNat e.base with
      | some p => decide (p.addr ≤ a ∧ a < p.addr + e.size)
      | none => false

/-- A fetched entry whose parts at some addresses are fetched for the last time (R33, R309). -/
def Landing.fixParts (s : State) (r : Reader) (pick : Nat → Bool) : Landing → Landing
  | .fetched q e l => .fetched q (s.refetch r e (l.filter fun p => pick p.addr)) (l.filter fun p => !pick p.addr)
  | a => a

/-- Every load whose entry has not been pushed is complete where it read some addresses (R309). -/
def State.completeLoads (s : State) (pick : Nat → Bool) : State :=
  { s with
    workers := s.workers.map fun e =>
      let fix := fun (p : Pend) => { p with acts := p.acts.map (Landing.fixParts s (e.2.readerOf e.1 .L) pick) }
      (e.1, { e.2 with strands := { e.2.strands with l := { e.2.strands.l with pend := e.2.strands.l.pend.map fix } } }) }

/-- The n-th `satinv` drops what it names everywhere; every access that used a dropped translation is complete and visible at
device scope, and the knot add follows (R283, R309). Every store to memory that is still to be performed is performed with them
(log 45). -/
def State.finishSatinv (s : State) (n : Nat) : State :=
  match s.satinvs[n]? with
  | none => s
  | some x =>
    let drop := fun (t : Tab Tlb) => t.map fun e => (e.1, e.2.drop x)
    let s := if x.base < x.limit then
        { (s.completeLoads (s.dropsFrame x)).performAll (·.spot == .mem) 3 (s.worker x.key).core with
          coreTlb := drop s.coreTlb, dieTlb := drop s.dieTlb, engTlb := drop s.engTlb, sauTlb := drop s.sauTlb }
      else s
    { s with satinvs := dropNth s.satinvs n }.addFarKnot x.key x.knot 1 false

/-- SATINV_COMPLETION (R309). -/
def execSatinvCompletion (n : Nat) (s : State) : Host.Outcome State Fault Refusal := .next (s.finishSatinv n)

/-- The n-th knot add of a `wstq`: its image is visible at SCOPE, and the add is a release of W at that scope (R168, R265). -/
def State.wstqAdd (s : State) (n : Nat) : State :=
  match s.knotAdds[n]? with
  | none => s
  | some k =>
    let s := s.performAll (fun u => u.who == some (strandWho k.key .W) && u.pos == k.pos) k.scope (s.worker k.key).core
    { s.releaseTo k.key .W k.pos k.scope false with knotAdds := dropNth s.knotAdds n }.modWorker k.key fun w =>
      w.addKnot k.knot 1 false

/-- WSTQ_KNOT_ADD (R168). -/
def execWstqKnotAdd (n : Nat) (s : State) : Host.Outcome State Fault Refusal := .next (s.wstqAdd n)

end Sys2Proof.Machine
end

