-- ==== Sys2Proof/Machine/HostPort.lean ====
section
/-! DEFINITION. The host port, the pool ports and the Fupel ports: BAR0, read and written, and its masters (R324, R330),
doorbells (R325), pool regions (R278, R279, R327, R328), Fupel ports (R329), and requests from outside to this device's memory
(R276, R323). -/
namespace Sys2Proof.Machine

/-! ## Masters (R330) -/

/-- Whether a number names a master: host 0, management controller 1, peer d as 2 + d. -/
def isMaster (m : Nat) : Bool := decide (m < 1026)

/-- Whether a master owns the device. -/
def State.owner (s : State) (m : Nat) : Bool := isMaster m && s.own == BitVec.ofNat 16 m

/-- A write that takes effect only for the owner (R324). -/
def State.ifOwner (s : State) (m : Nat) (f : State → State) : State := if s.owner m then f s else s

/-- CLAIM_OWNERSHIP (R330). -/
def execClaimOwnership (m : Nat) (s : State) : Host.Outcome State Fault Refusal :=
  .next (if isMaster m && s.own == 0xFFFF then { s with own := BitVec.ofNat 16 m } else s)

/-- OFFER_OWNERSHIP (R330). -/
def execOfferOwnership (m x : Nat) (s : State) : Host.Outcome State Fault Refusal :=
  .next (s.ifOwner m fun s => if x < 0xFFFF ∧ x ≠ m then { s with offered := BitVec.ofNat 16 x } else s)

/-- RELEASE_OWNERSHIP (R330). -/
def execReleaseOwnership (m : Nat) (s : State) : Host.Outcome State Fault Refusal :=
  .next (s.ifOwner m fun s => { s with own := 0xFFFF, offered := 0xFFFF })

/-- ACCEPT_OWNERSHIP (R330). -/
def execAcceptOwnership (m : Nat) (s : State) : Host.Outcome State Fault Refusal :=
  .next (if isMaster m && s.offered == BitVec.ofNat 16 m then { s with own := BitVec.ofNat 16 m, offered := 0xFFFF } else s)

/-- OFFER_LAPSE (R330). -/
def execOfferLapse (s : State) : Host.Outcome State Fault Refusal := .next { s with offered := 0xFFFF }

/-! ## Registers and doorbells (R324, R325) -/

/-- Whether some record past QUEUED is not COMPLETE (R324). -/
def State.anyBusy (s : State) : Bool := s.launches.any fun e => e.2.state != .complete

/-- QIRQ of a queue. -/
def State.irq (s : State) (q : Nat) : Word := tabGet 0 s.qirq q

/-- Put QIRQ of a queue. -/
def State.setIrq (s : State) (q : Nat) (v : Word) : State := { s with qirq := tabSet 0 s.qirq q v }

/-- Bits [51:12] of a value, in place. -/
def pageField (v : Word) : Word := v &&& 0x000FFFFFFFFFF000

/-- A write to QIRQ: IE and VEC are stored, a 1 clears QERR (R325). -/
def qirqWrite (old v : Word) : Word := (v &&& 0x107FF) ||| (if v.getLsbD 31 then 0 else old &&& 0x80000000)

/-- A write to a BAR0 register without behaviour of its own (R324). -/
def State.writeRegister (s : State) (off : Nat) (v : Word) : State :=
  if off = 0x10 then (if s.anyBusy then s else { s with qhbase := pageField v })
  else if off = 0x18 then (if s.anyBusy then s else { s with ctxtab := pageField v })
  else if off = 0x20 then { s with devnum := v.extractLsb' 0 10 }
  else if 0x1400 ≤ off ∧ off < 0x1600 ∧ off % 8 = 0 then
    let q := (off - 0x1400) / 8
    s.setIrq q (qirqWrite (s.irq q) v)
  else if 0x4000 ≤ off ∧ off < 0x6000 ∧ off % 8 = 0 then
    { s with routes := tabSet 0 s.routes ((off - 0x4000) / 8) (v.extractLsb' 0 18) }
  else s

/-- REGISTER_WRITE (R324). -/
def execRegisterWrite (m off : Nat) (v : Word) (s : State) : Host.Outcome State Fault Refusal :=
  .next (s.ifOwner m fun s => s.writeRegister off v)

/-- A doorbell: the header is read. An inconsistent TAIL sets QERR, and no record of the queue is taken before the driver has
cleared QERR and rung again: none is known to be left (R325). -/
def State.ring (s : State) (q : Nat) : State :=
  let a := s.readHeader q
  if 64 ≤ q ∨ a.devq ∨ !a.enabled ∨ s.qerr q then s
  else if a.tail < a.head ∨ a.size < a.tail - a.done then
    let b := s.account q
    { s.setIrq q (s.irq q ||| 0x80000000) with queues := tabPut s.queues q { b with tail := b.head } }
  else { s with queues := tabPut s.queues q a }

/-- DOORBELL (R325). -/
def execDoorbell (m q : Nat) (s : State) : Host.Outcome State Fault Refusal := .next (s.ifOwner m fun s => s.ring q)

/-- QERR_CLEAR (R325). -/
def execQerrClear (m q : Nat) (s : State) : Host.Outcome State Fault Refusal :=
  .next (s.ifOwner m fun s => s.setIrq q (s.irq q &&& ~~~0x80000000))

/-! ## Pool regions (R278, R279, R327, R328) -/

/-- A region. -/
def State.region (s : State) (r : Nat) : Region := tabGet .reset s.regions r

/-- Put a region. -/
def State.setRegion (s : State) (r : Nat) (x : Region) : State := { s with regions := tabSet .reset s.regions r x }

/-- A fetched entry that keeps what it has from some addresses: they are not fetched again (R280). -/
def Landing.keepParts (pick : Nat → Bool) : Landing → Landing
  | .fetched q e l => .fetched q e (l.filter fun p => !pick p.addr)
  | a => a

/-- A pending entry likewise. -/
def Pend.keepParts (pick : Nat → Bool) (p : Pend) : Pend := { p with acts := p.acts.map (Landing.keepParts pick) }

/-- L's pending entries likewise. -/
def Worker.keepParts (pick : Nat → Bool) (w : Worker) : Worker :=
  { w with strands := { w.strands with l := { w.strands.l with pend := w.strands.l.pend.map (Pend.keepParts pick) } } }

/-- Every load that has returned keeps its data from some addresses (R279, R280). -/
def State.keepLoads (s : State) (pick : Nat → Bool) : State :=
  { s with workers := s.workers.map fun e => (e.1, e.2.keepParts pick) }

/-- The region loses its link: its dirty bytes are dropped, with the records of writes to it, and a lost store is recorded; what
loads have returned is kept (R279, R280). -/
def State.loseRegion (s : State) (r state : Nat) : State :=
  let x := s.region r
  let lost := s.poolDirty.any fun e => x.has e.1
  { s.keepLoads x.has with
    poolDirty := s.poolDirty.filter fun e => !x.has e.1
    writes := s.writes.filter fun u => u.spot != Spot.mem || !x.has (32 * u.line) }.setRegion r
      { x with state := state, lstore := x.lstore || lost }

/-- Whether a region may be enabled (R327): a size, inside the pool, clear of the other enabled regions. -/
def State.regionOk (s : State) (r : Nat) (x : Region) : Bool :=
  decide (0 < x.size) && decide (0x4000000000000 ≤ x.base ∧ x.base + x.size ≤ 0x8000000000000) &&
    s.regions.all fun e => e.1 == r || !e.2.enabled || decide (x.base + x.size ≤ e.2.base ∨ e.2.base + e.2.size ≤ x.base)

/-- A write to RCTL: reserved bits read 0; while EN is set only its clearing counts, after a drain (R327). -/
def State.writeRegion (s : State) (r : Nat) (v : Word) : State :=
  let x := s.region r
  let y : Region := { x with ctl := v &&& 0x8C0FFFFFC000FFFF }
  if 16 ≤ r then s
  else if x.enabled then
    if v.getLsbD 63 then s
    else
      let s := s.loseRegion r 0
      s.setRegion r { s.region r with ctl := y.ctl, asked := false }
  else if y.enabled then
    if s.regionOk r y then s.setRegion r { y with state := if s.poolUp.contains y.port then 1 else 0 } else s
  else s.setRegion r y

/-- RCTL_WRITE (R327). -/
def execRctlWrite (m r : Nat) (v : Word) (s : State) : Host.Outcome State Fault Refusal :=
  .next (s.ifOwner m fun s => s.writeRegion r v)

/-- RESUME of a lost region: recovery starts once its port has its link (R328, log 36). -/
def Region.resumed (x : Region) (up : Bool) : Region :=
  if x.state = 2 then (if up then { x with state := 3, asked := false } else { x with asked := true }) else x

/-- RESUME (R328). -/
def execResume (m r : Nat) (s : State) : Host.Outcome State Fault Refusal :=
  .next (s.ifOwner m fun s => s.setRegion r ((s.region r).resumed (s.poolUp.contains (s.region r).port)))

/-- REGION_RECOVERY_COMPLETE (R328). -/
def execRegionRecoveryComplete (r : Nat) (s : State) : Host.Outcome State Fault Refusal :=
  .next (if (s.region r).state = 3 ∧ s.poolUp.contains (s.region r).port then s.setRegion r { s.region r with state := 1 } else s)

/-- LSTORE_CLEAR (R328). -/
def execLstoreClear (m r : Nat) (s : State) : Host.Outcome State Fault Refusal :=
  .next (s.ifOwner m fun s => s.setRegion r { s.region r with lstore := false })

/-- Numbers of the enabled regions of a port. -/
def State.regionsOf (s : State) (p : Nat) : List Nat := (s.regions.filter fun e => e.2.enabled && e.2.port == p).map Prod.fst

/-- A pool port's link is lost (R279, R328). -/
def State.poolLost (s : State) (p : Nat) : State :=
  let s := { s with poolUp := s.poolUp.filter (· ≠ p) }
  (s.regionsOf p).foldl (fun s r =>
    if (s.region r).state = 1 ∨ (s.region r).state = 3 then s.loseRegion r 2 else s) s

/-- POOL_LINK_LOSS (R279). -/
def execPoolLinkLoss (p : Nat) (s : State) : Host.Outcome State Fault Refusal := .next (s.poolLost p)

/-- A region whose port's link comes up: one that was never in service is in service, one that waits to recover recovers (R328,
log 36). -/
def Region.linked (x : Region) : Region :=
  if x.state = 0 then { x with state := 1 }
  else if x.state = 2 ∧ x.asked then { x with state := 3, asked := false }
  else x

/-- A pool port's link comes up (R328). -/
def State.poolBack (s : State) (p : Nat) : State :=
  if p < 4 ∧ !s.poolUp.contains p then
    let s := { s with poolUp := p :: s.poolUp }
    (s.regionsOf p).foldl (fun s r => s.setRegion r (s.region r).linked) s
  else s

/-- POOL_LINK_UP (R328). -/
def execPoolLinkUp (p : Nat) (s : State) : Host.Outcome State Fault Refusal := .next (s.poolBack p)

/-- BACK_INVALIDATION (R278): the line's dirty bytes are written back, no copy of it is left, and every write to it is complete,
so that no agent misses one any more. -/
def execBackInvalidation (line : Nat) (s : State) : Host.Outcome State Fault Refusal :=
  let gone := fun (u : Write) => u.spot == Spot.mem && u.line / 4 == line
  .next { s.flushPool (128 * line) (128 * line + 128) with
    writes := s.writes.map fun u => if gone u then { u with done := true } else u }

/-! ## Fupel ports (R329, R334) -/

/-- A port. -/
def State.port (s : State) (p : Nat) : Port := tabGet .reset s.ports p

/-- Put a port. -/
def State.setPort (s : State) (p : Nat) (x : Port) : State := { s with ports := tabSet .reset s.ports p x }

/-- PLOST_CLEAR (R329). -/
def execPlostClear (m p : Nat) (s : State) : Host.Outcome State Fault Refusal :=
  .next (s.ifOwner m fun s => s.setPort p { s.port p with plost := false })

/-- Whether a write is still on its way to its peer: a store that is performed at no scope and that nobody has seen (R276,
R329). An atomic has returned and is performed at the peer. -/
def Write.inFlight (u : Write) : Bool := u.atPeer && u.reach.isEmpty && u.shown.isNone && u.seenBy.isEmpty && !u.done

/-- Whether a write was carried by port `p` to a peer that no port reaches any more, and is lost on the way (R329, log 45). -/
def State.losesStore (s : State) (p : Nat) (u : Write) : Bool :=
  let d := (32 * u.line) >>> 52 - 1
  u.inFlight && ((tabFind s.routes d).getD 0).getLsbD p && !s.peerUp d && Config.storeLost s.tick u.id

/-- A line of memory as some of its writes leave it, from what it held before the oldest record: the records newest first. -/
def lineAfter (base : Nat) (l : List Write) : Nat := l.foldr (fun u v => u.edit.run v) base

/-- What a line of memory held before the oldest record of it. -/
def State.lineBase (s : State) (l : Nat) : Nat := (((s.lineLog .mem l).getLast?).map Write.old).getD 0

/-- A record of a line in memory once the writes that `gone` picks have not happened. -/
def State.rebased (s : State) (gone : Write → Bool) (u : Write) : Write :=
  if u.spot = .mem then
    { u with old := lineAfter (s.lineBase u.line) ((s.lineLog .mem u.line).filter fun v => !gone v && decide (v.id < u.id)) }
  else u

/-- The bytes of a line of memory once the writes that `gone` picks have not happened. -/
def State.lineWithout (s : State) (gone : Write → Bool) (l : Nat) : Nat :=
  lineAfter (s.lineBase l) ((s.lineLog .mem l).filter fun v => !gone v)

/-- Writes to peers that `gone` picks have not happened. -/
def State.undo (s : State) (gone : Write → Bool) : State :=
  { s with
    mem := (s.writes.filter gone).foldl (fun m u => m.writeBytes (32 * u.line) (toBytes (s.lineWithout gone u.line) 32)) s.mem
    writes := (s.writes.filter fun u => !gone u).map (s.rebased gone) }

/-- Lost stores never reach the peer, and PLOST of the port that carried them is set (R329). -/
def State.loseStores (s : State) (p : Nat) : State :=
  if s.writes.any (s.losesStore p) then (s.undo (s.losesStore p)).setPort p { s.port p with plost := true } else s

/-- A Fupel port that is up goes down; its requests move to another port of the same ROUTE mask, if one is up (R329). -/
def State.portDown (s : State) (p : Nat) : State :=
  if (s.port p).up then (s.setPort p { s.port p with up := false, lanes := 0 }).loseStores p else s

/-- FUPEL_PORT_DOWN (R329). -/
def execFupelPortDown (p : Nat) (s : State) : Host.Outcome State Fault Refusal := .next (s.portDown p)

/-- FUPEL_PORT_UP (R329). -/
def execFupelPortUp (p d n : Nat) (s : State) : Host.Outcome State Fault Refusal :=
  .next (if p < 18 ∧ d < 1024 ∧ 1 ≤ n ∧ n ≤ 4 then s.setPort p { s.port p with up := true, lanes := n, peer := d } else s)

/-- FLIT_RETRANSMISSION (R329): RETRY saturates. -/
def execFlitRetransmission (p : Nat) (s : State) : Host.Outcome State Fault Refusal :=
  .next (if (s.port p).up then s.setPort p { s.port p with retry := min 0xFFFF ((s.port p).retry + 1) } else s)

/-- FUPEL_LANE_SPARE (R334): the port retrains at its width. -/
def execFupelLaneSpare (p : Nat) (s : State) : Host.Outcome State Fault Refusal :=
  .next (if p < 18 then s.setPort p { s.port p with spareUsed := true } else s)

/-- FUPEL_LANE_LOSS (R334): with the spare used the port runs on with three lanes. -/
def execFupelLaneLoss (p : Nat) (s : State) : Host.Outcome State Fault Refusal :=
  .next (if (s.port p).up && (s.port p).spareUsed then s.setPort p { s.port p with lanes := 3 } else s)

/-! ## Requests from outside (R276, R323) -/

/-- Whether `n` bytes from an address lie in this device's HBM (R305). -/
def inHbm (pa n : Nat) : Bool := physKind pa == some .hbm && physKind (pa + n - 1) == some .hbm

/-- The record of a machine check that an access from outside meets: no launch of this device made it (R333, log 39). -/
def State.outsideCheck (s : State) (kind pa : Nat) : State :=
  let word := fun (n : Nat) => BitVec.ofNat 64 n
  s.logCheck [word (kind <<< 8 + 0x0D), BitVec.allOnes 64, word (7 <<< 54 + pa % 2 ^ 52), 0]

/-- Read `n` bytes of HBM for an access from outside, and go on with them; a sector with an uncorrectable error is logged
(R332). -/
def State.outsideRead (s : State) (pa n : Nat) (go : State → Nat → State) : State :=
  if inHbm pa n then
    match sectorHit s.badSectors pa n with
    | some x => s.outsideCheck (checkKind pa) x
    | none => go (s.correct pa n) (s.physNat pa n)
  else s

/-- Write bytes of HBM for an access from outside; a partial store into a sector with an uncorrectable error is not performed,
and logged (R332). -/
def State.outsideWrite (s : State) (pa : Nat) (l : List Byte) : State :=
  if inHbm pa l.length then
    match s.writeCheck [(.phys (plain pa), l)] with
    | some (.machine kind x) => s.outsideCheck kind x
    | _ => s.writeDone [(.phys (plain pa), l)]
  else s

/-- An entry of the refusal queue: REASON, EXPERT and TOKEN; its other bits read 0 (R4, R210). -/
def refqFields (x : Word) : Word := x &&& 0x300003FFFFFFFFFF

/-- A request from outside, performed at the home agent: a load or an atomic is answered with what it read; a row waits for its
admit unit, a refusal for its sender's routing unit (R210, R240, R276, R332). -/
def State.serve (s : State) : MemRequest → State
  | .load pa n => s.outsideRead pa n fun s v => { s with replies := s.replies ++ [toBytes v n] }
  | .store pa l => s.outsideWrite pa l
  | .atomic pa n op x y => s.outsideRead pa n fun s v =>
      { s.outsideWrite pa (toBytes (atomicNew op (8 * n) v x y) n) with replies := s.replies ++ [toBytes v n] }
  | .xor pa l => s.outsideRead pa l.length fun s v => s.outsideWrite pa (toBytes (v ^^^ ofBytes l) l.length)
  | .cellAdd pa anchor t => s.outsideRead pa 32 fun s _ =>
      s.addCell ⟨none, 0, [], true⟩ (.phys (plain pa)) anchor (readF32 false t.toNat)
  | .row lid sender row expert token data knot =>
    { s with sends := s.sends ++ [⟨lid, sender, row, expert, token, data, knot, (s.launch lid).phase, true⟩] }
  | .refusal lid sender entry knot => { s with refusals := s.refusals ++ [⟨workerKey lid sender, refqFields entry, knot⟩] }

/-- Whether the host makes requests of a form: loads and stores (R323). -/
def fromHost : MemRequest → Bool
  | .load _ _ => true
  | .store _ _ => true
  | _ => false

/-- HOST_MEMORY_REQUEST (R323). -/
def execHostMemoryRequest (rq : MemRequest) (s : State) : Host.Outcome State Fault Refusal :=
  .next (if fromHost rq then s.serve rq else s)

/-- PEER_REQUEST (R276): it arrives over a port that is up to that peer. -/
def execPeerRequest (d : Nat) (rq : MemRequest) (s : State) : Host.Outcome State Fault Refusal :=
  .next (if s.ports.any fun e => e.2.up && e.2.peer == d then s.serve rq else s)

/-! ## Reading BAR0 (R324) -/

/-- RSTAT of a region (R328). -/
def Region.status (x : Region) : Word := BitVec.ofNat 64 (x.state + ofBool x.lstore <<< 2)

/-- PSTAT of a port (R329). -/
def Port.status (x : Port) : Word :=
  BitVec.ofNat 64 (ofBool x.up + ofBool x.plost <<< 1 + x.lanes <<< 8 + x.peer <<< 16 + x.retry <<< 32)

/-- What a BAR0 register reads as, to every master; offsets that are not listed read 0 (R324). -/
def State.readRegister (s : State) (off : Nat) : Word :=
  if off = 0x0 then BitVec.ofNat 64 (0x0960 + Config.dieStepping <<< 16)
  else if off = 0x8 then s.own.zeroExtend 64 ||| s.offered.zeroExtend 64 <<< 32
  else if off = 0x10 then s.qhbase
  else if off = 0x18 then s.ctxtab
  else if off = 0x20 then s.devnum.zeroExtend 64
  else if 0x1400 ≤ off ∧ off < 0x1600 ∧ off % 8 = 0 then s.irq ((off - 0x1400) / 8)
  else if 0x2000 ≤ off ∧ off < 0x2100 ∧ off % 16 = 0 then (s.region ((off - 0x2000) / 16)).ctl
  else if 0x2000 ≤ off ∧ off < 0x2100 ∧ off % 16 = 8 then (s.region ((off - 0x2000) / 16)).status
  else if 0x3000 ≤ off ∧ off < 0x3090 ∧ off % 8 = 0 then (s.port ((off - 0x3000) / 8)).status
  else if 0x4000 ≤ off ∧ off < 0x6000 ∧ off % 8 = 0 then (tabGet 0 s.routes ((off - 0x4000) / 8)).zeroExtend 64
  else 0

end Sys2Proof.Machine
end

