-- ==== Sys2Proof/Machine/Mask.lean ====
section
/-! DEFINITION. Compare, select, mask logic and predicates from masks (R114, R116, R117, R145). -/
namespace Sys2Proof.Machine

/-- A mask register of G bits (R37): the bits above are cleared. -/
def maskValue (g v : Nat) : BitVec 65536 := BitVec.ofNat 65536 (v % 2 ^ g)

/-! ## Compare (R116) -/

/-- The answer of a compare code to an order, `none` for a NaN: codes 0 to 5, and 6 unord, 7 ord (R54). -/
def compareFloat (cc : Nat) (o : Option Ordering) : Bool :=
  match cc with
  | 0 => o == some .eq
  | 1 => o != some .eq
  | 2 => o == some .lt
  | 3 => o == some .lt || o == some .eq
  | 4 => o == some .gt
  | 5 => o == some .gt || o == some .eq
  | 6 => o == none
  | _ => o != none

/-- The answer of a compare code on two containers of a width: 6 and 7 are unsigned lt and ge (R54). -/
def compareInt (cc w a b : Nat) : Bool :=
  let x := signed w a
  let y := signed w b
  match cc with
  | 0 => x == y
  | 1 => x != y
  | 2 => decide (x < y)
  | 3 => decide (x ≤ y)
  | 4 => decide (y < x)
  | 5 => decide (y ≤ x)
  | 6 => decide (a % 2 ^ w < b % 2 ^ w)
  | _ => decide (b % 2 ^ w ≤ a % 2 ^ w)

/-- Width of the elements that `vcmp` compares. -/
def cmpWidth (f : E64) : Nat := if f.modBit 2 then tyWidth f.top2 else fmtWidth f.top2

/-- One slot of `vcmp`; a coordinate in a float compare is rounded to nearest even (log 30). -/
def cmpSlot (f : E64) (s : State) (x : Lane) (i : Nat) : Except Nat Nat :=
  let w := cmpWidth f
  if f.modBit 2 then
    do let a ← intOf s.wk x.a x.map true false w i
       let b ← intOf s.wk x.b x.map true false w i
       pure (ofBool (compareInt f.mid3 w a b))
  else
    do let a ← floatOf s.wk x.a x.map f.top2 0 s.view.ftz 0 i
       let b ← floatOf s.wk x.b x.map f.top2 0 s.view.ftz 0 i
       pure (ofBool (compareFloat f.mid3 (a.cmp b)))

/-- vcmp (R116). -/
def execVcmp (f : E64) (s : State) : Host.Outcome State Fault Refusal :=
  let w := cmpWidth f
  runE64 .V f
    (do laneChecks f [] w
        let x ← readLane f 2 w
        let s ← M.look id
        let g := s.view.shape.slots
        let l ← eachSlot g (s.maskOf f.lo3) (fun i => slotTrap i (cmpSlot f s x i)) (fun _ => 0)
        pure (.after 2 [.mask f.d8.toNat (maskValue g (packSlots 1 l))]))
    (do discard (laneOff f 2 w)
        pure .none) s

/-! ## Select (R114) -/

/-- Data operands of `vsel`: B is none when MK is 7. -/
def selOperands (f : E64) : Nat := if f.lo3 = 7 then 1 else 2

/-- vsel (R114): bits copied; a coordinate is rounded to nearest even. -/
def execVsel (f : E64) (s : State) : Host.Outcome State Fault Refusal :=
  let w := fmtWidth (tyFmt f)
  let n := selOperands f
  runE64 .V f
    (do laneChecks f [f.d8] w
        let x ← readLane f n w
        let s ← M.look id
        let pick := fun (y : Src) (i : Nat) => slotTrap i (floatBits s.wk y x.map 0 (tyFmt f) 0 i)
        let m := s.maskOf f.lo3
        let l ← eachSlot s.view.shape.slots none
          (fun i => if activeIn m i then pick x.a i else if f.zm then .ok 0 else pick x.b i) (fun _ => 0)
        deliverShape f.d8 w 2 ⟨packSlots w l, 0, none, x.map⟩)
    (offQueues (laneOff f n w) f.d8 w 2) s

/-! ## Mask logic (R117) -/

/-- A mask instruction on the G low bits. -/
def maskRun (f : E64) (op : Nat → Nat → Nat) (s : State) : Host.Outcome State Fault Refusal :=
  runE64 .V f
    (do let s ← M.look id
        let g := s.view.shape.slots
        let m := fun (x : BitVec 8) => (s.wk.mget x.toNat).toNat
        pure (.after 2 [.mask f.d8.toNat (maskValue g (op (m f.a8) (m f.b8)))])) M.nothing s

/-- mand (R117). -/
def execMand (f : E64) (s : State) : Host.Outcome State Fault Refusal := maskRun f (fun a b => a &&& b) s
/-- mor (R117). -/
def execMor (f : E64) (s : State) : Host.Outcome State Fault Refusal := maskRun f (fun a b => a ||| b) s
/-- mxor (R117). -/
def execMxor (f : E64) (s : State) : Host.Outcome State Fault Refusal := maskRun f (fun a b => a ^^^ b) s
/-- mnot (R117). -/
def execMnot (f : E64) (s : State) : Host.Outcome State Fault Refusal := maskRun f (fun a _ => a ^^^ (2 ^ 65536 - 1)) s

/-- mcnt (R117): guarded off it pushes one zero entry (R30). -/
def execMcnt (f : E64) (s : State) : Host.Outcome State Fault Refusal :=
  runE64 .V f
    (do let s ← M.look id
        let n := popcount s.view.shape.slots (s.wk.mget f.a8.toNat).toNat
        pure (.after 2 [.words [BitVec.ofNat 64 n]]))
    (pure (.after 2 [.words [0]])) s

/-! ## Predicate from a mask (R145) -/

/-- The bit that SEL makes of the low `g` bits of a mask: any, all, none. -/
def maskBit (sel g m : Nat) : Bool :=
  let c := popcount g m
  match sel with
  | 0 => decide (0 < c)
  | 1 => c == g
  | _ => c == 0

/-- S at a `vpset` (R22, R145): it waits for V's value, writes the predicate as configuration and goes on. -/
def takeVpset (f : E64) : M Unit := do
  let s ← M.look id
  let t := s.st
  if t.view.guard f.g then
    match tabFind s.wk.vpres t.pos with
    | none => M.stall
    | some b => do
      postConfig 4 (.pred f.d8.toNat b)
      M.work fun w => { w with vpres := w.vpres.filter fun e => e.1 != t.pos }
  else pure ()
  M.change fun s => s.modSt fun t => { t with pc := t.pc + 8, pos := t.pos + 4 }

/-- vpset (R145): V evaluates it and waits for S; S takes the value. -/
def execVpset (f : E64) (s : State) : Host.Outcome State Fault Refusal :=
  if s.curEng = .S then runOwn .S (takeVpset f) s
  else
    runE64 .V f
      (do let s ← M.look id
          let b := maskBit f.top2 s.view.shape.slots (s.wk.mget f.a8.toNat).toNat
          M.work fun w => { w with vpres := w.vpres ++ [(s.st.pos, b)] }
          M.change fun s => s.modSt fun t => { t with gate := some t.pos }
          pure .none) M.nothing s

end Sys2Proof.Machine
end

