-- ==== Sys2Proof/Machine/Matrix.lean ====
section
/-! DEFINITION. The matrix array and the exact tiles (R176 to R187, R191 to R200). -/
namespace Sys2Proof.Machine

/-! ## Tiles (R192, R199, R200) -/

/-- mzclr (R192). -/
def execMzclr (f : E64) (s : State) : Host.Outcome State Fault Refusal :=
  runE64 .M f
    (do let v ← M.look State.view
        let z := f.d8.toNat
        let t := v.tile z
        M.legal t.ok
        M.change fun s => s.clearCells t.base.toNat (t.rows.toNat * t.cols.toNat)
        M.work fun w => w.setCounts z .zero
        pure .none) M.nothing s

/-- The cell that `mrdz` reads for a slot, if it lies in the tile (R199). -/
def rdzCell (f : E64) (s : State) (t : Tile) (i : Nat) : Option Nat :=
  let g0 := s.view.shape.size 0
  let r := bits f.bc.toNat 5 9 + i / g0
  let c := 16 * bits f.bc.toNat 0 5 + i % g0
  if r < t.rows.toNat ∧ c < t.cols.toNat then some (t.cell r c) else none

/-- What `mrdz` finds for a slot, as M sees the cells (R269): the converted value and its counts, or nothing outside the tile
(R199). -/
def rdzSlot (f : E64) (s : State) (t : Tile) (map : CMap) (i : Nat) : Except Stop (Nat × Counts) := do
  match rdzCell f s t i with
  | some c =>
    let v := s.view
    let k ← slotTrap i (stoch s.wk v.nkey.c0 map f.lo3 i)
    pure (readCell f.fmt5.toNat f.lo3 (satFor f.zm v.e4m3sat) v.ftz k t.anch (s.seenCell c))
  | none => pure (0, .zero)

/-- mrdz (R82, R83, R199). -/
def execMrdz (f : E64) (s : State) : Host.Outcome State Fault Refusal :=
  let fmt := f.fmt5.toNat
  let w := fmtWidth fmt
  runE64 .M f
    (do let s ← M.look id
        let z := f.a8.toNat
        let t := s.view.tile z
        let sh := s.view.shape
        M.legal (cvtFmt fmt && sh.fits w && sh.size 2 == 1 && sh.size 3 == 1 && t.ok)
        let o : Quad (BitVec 32) := ⟨BitVec.ofNat 32 (16 * bits f.bc.toNat 0 5), BitVec.ofNat 32 (bits f.bc.toNat 5 9), 0, 0⟩
        let map := freshMap sh (fun j => decide (j < 2)) o ⟨t.cols.toNat, t.rows.toNat, 1, 1⟩
        let cells := (upFrom 0 sh.slots).filterMap (rdzCell f s t)
        meetCells cells
        let l ← M.lift (listM (rdzSlot f s t map) (upFrom 0 sh.slots))
        M.change fun s => s.loadedCells cells
        let d := s.deliver f.d8 sh.slots w ⟨packSlots w (l.map Prod.fst), 0, none, map⟩
        pure (.after 3 [d, .counts z (sumCounts (l.map Prod.snd))]))
    (zeroPush f.d8 w 3) s

/-- Counter updates of a tile that are still pending in a queue (R83). -/
def pendingCounts (z : Nat) (l : List Pend) : Counts :=
  sumCounts (l.flatMap fun p => p.acts.filterMap fun a => match a with
    | .counts y c => if y = z then some c else none
    | _ => none)

/-- Whether an act is a readout's counter update of tile `z`, or an earlier push to q15. -/
def Landing.before (z : Nat) : Landing → Bool
  | .counts y _ => y == z
  | .words _ => true
  | _ => false

/-- The landing count that keeps `mzcnt` behind them: the pending counts fall by one as it issues. -/
def waitBehind (z : Nat) (l : List Pend) : Nat :=
  (l.map fun p => if p.acts.any (Landing.before z) then p.count - 1 else 0).foldl max 0

/-- The five words of `mzcnt`, in order. -/
def Counts.words (c : Counts) : List Word :=
  [c.nanc.zeroExtend 64, c.infc.zeroExtend 64, c.ovfc.zeroExtend 64, c.satc.zeroExtend 64, c.inxc.zeroExtend 64]

/-- mzcnt (R83, R200): it lands behind the tile's earlier readouts and reports them. Its own counter update adds nothing: it says
which tile's readouts the five words stay behind. -/
def execMzcnt (f : E64) (s : State) : Host.Outcome State Fault Refusal :=
  runE64 .M f
    (do let s ← M.look id
        let z := f.d8.toNat
        M.legal (s.view.tile z).ok
        let c := (s.wk.tileCounts z).add (pendingCounts z s.st.pend)
        pure (.after (waitBehind z s.st.pend) [.words c.words, .counts z .zero]))
    (do let t ← M.look State.st
        pure (.after (waitBehind 16 t.pend) [.words Counts.zero.words])) s

/-! ## Sources of the array -/

/-- Tag of the source in a field, without popping. -/
def peekTag (x : BitVec 8) : M (Option Tag) := do
  if isQ x then
    let e ← peekImage (qNum x) 0
    pure e.tag
  else M.look fun s => (s.vreg x).tag

/-- Exact value of slot `i` of a source: a float after FTZ, or a block or codebook element (R194). -/
def exactSlot (fmt len : Nat) (ftz : Bool) (bank : Tab Word × Nat) (a : Src) (i : Nat) : Except Stop XReal :=
  let v := a.slot (fmtWidth fmt) i
  if isBlock fmt then
    match blockValues fmt (slotOf a.scale 8 (i / len)) v bank with
    | .ok l => .ok (nth .nan l 0)
    | .error c => .error (.trap ⟨c, 0, 0, some i⟩)
  else .ok (readNum fmt ftz v)

/-! ## The shadow plane (R193, R194) -/

/-- The pop of a guarded-off array instruction: compared at its float width, or at that of the entry's tag (R30, R32). -/
def offArray (f : E64) : M Issue := do
  if isQ f.a8 then
    let t ← peekTag f.a8
    let w := if ftzFmt f.fmt5.toNat then some (fmtWidth f.fmt5.toNat) else t.map fun t => fmtWidth t.fmt
    discard [(f.a8, w)]
    pure .none
  else pure .none

/-- Another context's planes must have left the core's array, and this one's be in it (R182). -/
def awaitPlanes : M Unit := do
  let s ← M.look id
  M.await (match tabFind s.planeOwner s.wk.core with
    | none => true
    | some k => k == s.curKey)

/-- A column of a K-band: mantissas of 16 bits, scale bytes, saturated blocks. -/
structure Column where
  mant : BitVec 2048
  scale : BitVec 64
  sats : Nat
  deriving DecidableEq, Repr

/-- Quantise one column's `g0` values into blocks of `len` (R194); rows beyond are zero. -/
def bandColumn (wb rm len g0 : Nat) (xs : List XReal) : Column :=
  let bl := (chunks len (g0 / len) xs).map fun c => kbQuantise wb rm (c.map fun x => (x, 0))
  ⟨BitVec.ofNat 2048 (packSlots 16 ((bl.flatMap KBlock.mants).map (wrap 16))), BitVec.ofNat 64 (packSlots 8 (bl.map KBlock.sb)),
    (bl.filter KBlock.sat).length⟩

/-- Byte `part` of each mantissa of a column: its low or its high byte. -/
def Column.bytes (c : Column) (part : Nat) : BitVec 1024 :=
  BitVec.ofNat 1024 (packSlots 8 ((upFrom 0 128).map fun i => slotOf c.mant.toNat 8 (2 * i + part)))

/-- The byte column that holds byte `part` of column `n`: at WB 16 the N-groups of 64 columns go in pairs, the high bytes in the
odd one (R176). -/
def byteColumn (wb n part : Nat) : Nat := if wb = 16 then n / 64 * 128 + part * 64 + n % 64 else n

/-- A plane with one K-band replaced by columns from column 0 up, the others zero. -/
def Plane.setBand (p : Plane) (band wb lb : Nat) (cols : List Column) : Plane :=
  let keep := fun (e : Nat) => e / 512 != band
  let ns := (upFrom 0 cols.length).zip cols
  let put := fun (t : Tab (BitVec 1024)) (e : Nat × Column) (part : Nat) =>
    tabSet 0 t (band * 512 + byteColumn wb e.1 part) (e.2.bytes part)
  { mant := ns.foldl (fun t e => if wb = 16 then put (put t e 0) e 1 else put t e 0) (p.mant.filter fun e => keep e.1)
    scale := ns.foldl (fun t e => tabSet 0 t (band * 512 + e.1) e.2.scale) (p.scale.filter fun e => keep e.1)
    wb := wb, lb := lb, fixed := true }

/-- Codebook formats that `mldb` takes (R193). -/
def ldbCode (c : Nat) : Bool := c == 17 || c == 18

/-- A bank other than 0 needs a codebook source (R76, R193): checked in an instruction that is guarded off as well (R59). -/
def ldbBank (f : E64) : M Unit := do
  if f.fmt5 = 0x1F ∧ f.b8 ≠ 0 then
    match ← peekTag f.a8 with
    | some t => if isCb t.fmt then pure () else M.illegal 1
    | none => M.illegal 1
  else pure ()

/-- The source format of `mldb`: its own float format, or that of A's tag (R193). -/
def ldbFormat (f : E64) (len : Nat) : M Nat := do
  if f.fmt5 = 0x1F then
    match ← peekTag f.a8 with
    | none => M.illegal 3
    | some t => if (isKb t.fmt || ldbCode t.fmt) ∧ t.len = len then pure t.fmt else M.illegal 3
  else if ftzFmt f.fmt5.toNat then pure f.fmt5.toNat
  else M.illegal 3

/-- mldb (R177, R193, R194). -/
def execMldb (f : E64) (s : State) : Host.Outcome State Fault Refusal :=
  let wb := if f.zm then 16 else 8
  let len := lbLen f.ms
  runE64 .M f
    (do ldbBank f
        let sf ← ldbFormat f len
        awaitPlanes
        let s ← M.look id
        let sh := s.view.shape
        let p := s.wk.shadow
        M.legal (decide (sh.size 0 ≤ 128) && sh.size 0 % len == 0 && sh.size 2 == 1 && sh.size 3 == 1 &&
          decide (sh.size 1 ≤ if f.zm then 256 else 512) && sh.fits (fmtWidth sf) &&
          (!p.fixed || (p.wb == wb && p.lb == len)))
        let a ← readSrc f.a8 (some (fmtWidth sf))
        let xs ← M.lift (listM (exactSlot sf len s.view.ftz (s.wk.front f.b8.toNat) a) (upFrom 0 sh.slots))
        let cols := (chunks (sh.size 0) (sh.size 1) xs).map (bandColumn wb f.lo3 len (sh.size 0))
        M.work fun w => { w with shadow := w.shadow.setBand f.d8.toNat wb len cols }
        pure (.after 0 [.qsat (cols.map Column.sats).sum]))
    (do ldbBank f
        offArray f) s

/-- mswap (R177, R195). -/
def execMswap (f : E64) (s : State) : Host.Outcome State Fault Refusal :=
  runE64 .M f
    (do awaitPlanes
        M.work fun w => { w with active := w.shadow, shadow := { w.active with fixed := false } }
        pure .none) M.nothing s

/-! ## Multiplying (R178 to R180, R196, R197) -/

/-- The 128 bytes of a band's byte column. -/
def Plane.bytesAt (p : Plane) (band c : Nat) : Nat := (tabGet 0 p.mant (band * 512 + c)).toNat

/-- Mantissas of the LB rows of block `j` in column `n` of a plane, as WB reads the cells (R176). -/
def Plane.block (p : Plane) (j n : Nat) : List Int :=
  let row := j * p.lb
  let lo := p.bytesAt (row / 128) (byteColumn p.wb n 0)
  let hi := p.bytesAt (row / 128) (byteColumn p.wb n 1)
  (upFrom (row % 128) p.lb).map fun i =>
    if p.wb = 16 then signed 16 (slotOf lo 8 i + slotOf hi 8 i <<< 8) else signed 8 (slotOf lo 8 i)

/-- Scale byte of block `j` in column `n`. -/
def Plane.blockScale (p : Plane) (j n : Nat) : Nat :=
  let row := j * p.lb
  slotOf (tabGet 0 p.scale (row / 128 * 512 + n)).toNat 8 (row % 128 / p.lb)

/-- Sum of products. -/
def dot : List Int → List Int → Int
  | x :: l, y :: r => x * y + dot l r
  | _, _ => 0

/-- The term of one block product (R179). -/
def productTerm (p : Plane) (wa j n : Nat) (a : KBlock) : XReal :=
  let sb := p.blockScale j n
  if a.sb = 255 ∨ sb = 255 then .nan
  else (XReal.ofInt (dot a.mants (p.block j n))).scale
    (((a.sb : Int) - 127) + ((sb : Int) - 127) - ((wa : Int) - 2) - ((p.wb : Int) - 2))

/-- The A format of `mmul`, its mantissa width and whether the A-path quantiser forms it (R178, R196). -/
def mulFormat (f : E64) (len : Nat) : M (Nat × Nat) := do
  if f.fmt5 = 0x1F then
    match ← peekTag f.a8 with
    | none => M.illegal 3
    | some t => if isKb t.fmt ∧ t.len = len then pure (t.fmt, kbBits t.fmt) else M.illegal 3
  else if ftzFmt f.fmt5.toNat then pure (f.fmt5.toNat, 2 * (f.end3 + 1))
  else M.illegal 3

/-- Block `b` of A, of LB slots: taken from a kb source, or formed by the A-path quantiser. -/
def aBlock (sf wa len rm : Nat) (ftz : Bool) (a : Src) (b : Nat) : KBlock :=
  let slots := upFrom (b * len) len
  if isKb sf then ⟨slotOf a.scale 8 b, slots.map fun i => signed wa (a.slot (fmtWidth sf) i), false⟩
  else kbQuantise wa rm (slots.map fun i => (readNum sf ftz (a.slot (fmtWidth sf) i), 0))

/-- Legality of `mmul` (R180, R185, R196). -/
def mulOk (sh : Shape) (t : Tile) (p : Plane) (sf wa : Nat) : Bool :=
  sh.size 2 == 1 && sh.size 3 == 1 && decide (sh.size 1 ≤ 64 ∧ sh.size 1 ≤ t.rows.toNat) && t.ok &&
    decide (t.cols.toNat ≤ if p.wb = 16 then 256 else 512) && sh.size 0 % p.lb == 0 && decide (sh.size 0 ≤ 512) &&
    decide (wa + p.wb + Nat.log2 p.lb - 1 ≤ 31) && sh.fits (fmtWidth sf)

/-- mmul (R178 to R181, R196, R197): every add is applied when the instruction issues; other agents may see the cells as they
were until the adds are performed at a scope (R269, R272). -/
def execMmul (f : E64) (s : State) : Host.Outcome State Fault Refusal :=
  runE64 .M f
    (do let s ← M.look id
        let p := s.wk.active
        let (sf, wa) ← mulFormat f p.lb
        let sh := s.view.shape
        let t := s.view.tile f.d8.toNat
        M.legal (mulOk sh t p sf wa)
        awaitPlanes
        let a ← readSrc f.a8 (some (fmtWidth sf))
        let nb := sh.size 0 / p.lb
        let bl := (upFrom 0 (sh.size 1 * nb)).map fun b => (b, aBlock sf wa p.lb f.lo3 s.view.ftz a b)
        meetCells (upFrom t.base.toNat (sh.size 1 * t.cols.toNat))
        M.change fun s => s.addTerms t.anch (bl.flatMap fun b =>
          (upFrom 0 t.cols.toNat).map fun n => (t.cell (b.1 / nb) n, productTerm p wa (b.1 % nb) n b.2))
        pure (.after 0 [.qsat (bl.filter fun b => b.2.sat).length]))
    (offArray f) s

/-! ## Ranking (R187, R198) -/

/-- Whether score `x` comes before score `y` when its slot is the lower (`low`) or not (R187). -/
def ranksBefore (x y : XReal) (low : Bool) : Bool :=
  if x.isNan then y.isNan && low
  else if y.isNan then true
  else
    match x.cmp y with
    | some .gt => true
    | some .eq => low
    | _ => false

/-- mrank (R187, R198). -/
def execMrank (f : E64) (s : State) : Host.Outcome State Fault Refusal :=
  runE64 .M f
    (do moveChecks f 32 id
        let v ← M.look State.view
        M.legal (v.shape.width == 32 && decide (v.shape.size 0 ≤ 512))
        let a ← readSrc f.a8 (some 32)
        let x := fun i => readNum 0 false (a.slot 32 i)
        let r ← moveSlots f 32 fun s i =>
          .ok ((activeLine s.view.shape 0 (s.maskOf f.lo3) i).filter fun j =>
            j != i && ranksBefore (x j) (x i) (decide (j < i))).length
        deliverShape f.d8 32 3 ⟨r, 0, none, a.map⟩)
    (offQueues [(f.a8, some 32)] f.d8 32 3) s

end Sys2Proof.Machine
end

