-- ==== Sys2Proof/Machine/Package.lean ====
section
/-! DEFINITION. The management controller: scrubbing and the machine-check log (R332, R333), spares (R334), the clock and the
freeze (R331, R335), reset and measurement (R336), attestation (R337). -/
namespace Sys2Proof.Machine

/-! ## Scrub and log (R332, R333) -/

/-- SCRUB (R332): single-bit errors are corrected and counted; uncorrectable sectors stay marked. -/
def execScrub (s : State) : Host.Outcome State Fault Refusal :=
  .next
    { s.mend (fun _ => true) fun _ => true with
      softSectors := [], corrected := s.softSectors.foldl countError s.corrected }

/-- MACHINE_CHECK_LOG_READ (R333). -/
def execMachineCheckLogRead (s : State) : Host.Outcome State Fault Refusal :=
  .next { s with replies := s.replies ++ [s.mclog.flatMap bytesOf] }

/-! ## Spares (R334) -/

/-- The first spare core of a die that is not yet in service or retired. -/
def State.spareCore (s : State) (die : Nat) : Option Nat :=
  ((upFrom (die * Config.coresPerDie + Config.enabledPerDie) (Config.coresPerDie - Config.enabledPerDie)).filter fun c =>
    !s.spareIn.contains c && !s.retired.contains c).head?

/-- Whether a core in service holds no running or saved context (R334): that of a worker that has completed is neither. -/
def State.coreIdle (s : State) (core : Nat) : Bool :=
  s.coreEnabled core && !s.workers.any fun e => e.2.core == core && e.2.status != .done

/-- What a core holds is on another one: a worker that has completed there, and its launch's claim on the core. -/
def State.moveCore (s : State) (core x : Nat) : State :=
  let use := match tabFind s.coreUse core with
    | some k => tabPut (tabErase s.coreUse core) x k
    | none => s.coreUse
  { s with
    coreUse := use
    workers := s.workers.map fun e => if e.2.core = core then (e.1, { e.2 with core := x }) else e
    vaults := tabSet [] s.vaults x (tabGet [] s.vaults core) }

/-- A core goes out of service. A spare of its die takes its place, with the core's data; with no spare left the die runs on
fewer cores (R334). -/
def State.spareCoreIn (s : State) (core : Nat) : State :=
  let s1 := { s with retired := core :: s.retired, planeOwner := tabErase s.planeOwner core }
  match s.spareCore (dieOf core) with
  | none => s1
  | some x => { s1.moveCore core x with spareIn := x :: s.spareIn }

/-- CORE_SPARE (R334). -/
def execCoreSpare (core : Nat) (s : State) : Host.Outcome State Fault Refusal :=
  .next (if s.coreIdle core then s.spareCoreIn core else s)

/-- The macro of a physical column: 72 columns each (R334). -/
def macroOf (col : Nat) : Nat := col / 72

/-- MACRO_COLUMN_SPARE (R334): no plane is resident and its macro has a spare left. -/
def execMacroColumnSpare (core col : Nat) (s : State) : Host.Outcome State Fault Refusal :=
  let used := tabGet [] s.macroCols core
  let resident := match tabFind s.planeOwner core with
    | some k => (s.worker? k).isSome
    | none => false
  .next
    (if !resident && decide (macroOf col < 32) && !used.contains col &&
        decide ((used.filter fun c => macroOf c == macroOf col).length < 8) then
      { s with macroCols := tabSet [] s.macroCols core (col :: used) }
    else s)

/-- PSEUDO_CHANNEL_SPARE (R334): one per stack, online. -/
def execPseudoChannelSpare (n : Nat) (s : State) : Host.Outcome State Fault Refusal :=
  .next (if n < 8 ∧ !s.pseudoSpares.contains n then { s with pseudoSpares := n :: s.pseudoSpares } else s)

/-! ## Clock and freeze (R331, R335) -/

/-- CLOCK_STEP (R331). -/
def execClockStep (s : State) : Host.Outcome State Fault Refusal :=
  .next { s with clockMHz := max 1250 (s.clockMHz - 125) }

/-- Everything stops where it is and the links go down; stores in flight may be lost (R279, R329, R335). -/
def State.freeze (s : State) : State :=
  { ((s.ports.map Prod.fst).foldl State.portDown ((upFrom 0 4).foldl State.poolLost s)) with frozen := true }

/-- THERMAL_FREEZE (R331): a die too hot at the floor clock. -/
def execThermalFreeze (d : Nat) (s : State) : Host.Outcome State Fault Refusal :=
  .next (if d < Config.dies ∧ s.clockMHz = 1250 then s.freeze else s)

/-- FREEZE (R335). -/
def execFreeze (m : Nat) (s : State) : Host.Outcome State Fault Refusal := .next (s.ifOwner m State.freeze)

/-- The key of the context that a core holds, running or saved, if it holds one. -/
def State.contextOn (s : State) (core : Nat) : Option Nat :=
  match tabFind s.coreUse core with
  | some k => some k
  | none => tabFind s.saveArea core

/-- The bytes of a value of 64 bits. -/
def wordBytes (w : Word) : List Byte := toBytes w.toNat 8

/-- The bytes of a queue's entries: each entry's data, or the words of q14 and q15. -/
def Worker.queueBytes (w : Worker) (q : Nat) : List Byte :=
  if q = 14 then w.q14.flatMap wordBytes
  else if q = 15 then w.q15.flatMap wordBytes
  else (w.image q).flatMap fun e => toBytes e.data.toNat e.size

/-- The scale bytes and map words of a queue's entries. -/
def Worker.queueSide (w : Worker) (q : Nat) : List Byte :=
  (w.image q).flatMap fun e => toBytes e.scale.toNat 4096 ++ e.map.words.flatMap wordBytes

/-- The fields of a block-stack entry: head, end, repetitions left, whether it rotates. -/
def Block.bytes (b : Block) : List Byte :=
  toBytes b.head.toNat 8 ++ toBytes b.fin.toNat 8 ++ toBytes b.left 8 ++ toBytes (ofBool b.rot) 1

/-- The fields of a furrow, in their order (R150): four 16-bit extents, four strides, four positions, and END among them. -/
def Furrow.bytes (f : Furrow) : List Byte :=
  [f.base, f.fmt].flatMap wordBytes ++ f.ext.toList.flatMap (fun x => toBytes x.toNat 2) ++ f.st.toList.flatMap wordBytes ++
    f.pos.toList.flatMap (fun n => toBytes n 2) ++ toBytes (ofBool f.atEnd) 1 ++
    [f.sbase, f.sstride, f.ind, f.itab].flatMap wordBytes ++ toBytes f.layout.toNat 2

/-- The fields of a tile descriptor (R183). -/
def Tile.bytes (t : Tile) : List Byte := [t.base, t.rows, t.cols, t.anchor].flatMap fun x => toBytes x.toNat 2

/-- The fields of a sheaf descriptor (R216). -/
def Sheaf.bytes (h : Sheaf) : List Byte :=
  [h.base, h.dim, h.cap].flatMap (fun x => toBytes x.toNat 2) ++ toBytes h.rad2.toNat 4 ++
    [h.metric, h.policy, h.anchor].flatMap fun x => toBytes x.toNat 2

/-- The five counters of a tile (R83). -/
def Counts.bytes (c : Counts) : List Byte := [c.nanc, c.infc, c.ovfc, c.satc, c.inxc].flatMap fun x => toBytes x.toNat 4

/-- What a diagnostic read finds in a worker's own registers and SRAM (R335, log 59). -/
def Worker.probe (w : Worker) : Probe → List Byte
  | .scalar _ r => wordBytes (w.sget r)
  | .vector _ p =>
    let x := w.vget p
    toBytes x.data.toNat 32768 ++ toBytes x.scale.toNat 4096 ++ x.map.words.flatMap wordBytes
  | .mask _ m => toBytes (w.mget m).toNat 8192
  | .strand _ e =>
    let t := w.strands.get (engOfCode e)
    toBytes t.pc.toNat 8 ++ toBytes t.stack.length 8
  | .block _ e i => (((w.strands.get (engOfCode e)).stack[i]?).map Block.bytes).getD []
  | .preds _ e => toBytes (w.strands.get (engOfCode e)).view.preds.toNat 2
  | .furrow _ e f => ((w.strands.get (engOfCode e)).view.furrow f).bytes
  | .tile _ e z => ((w.strands.get (engOfCode e)).view.tile z).bytes
  | .sheaf _ e h => ((w.strands.get (engOfCode e)).view.sheaf h).bytes
  | .counters _ z => (w.tileCounts z).bytes
  | .knot _ k => toBytes (w.knot k).word 8
  | .queue _ q => w.queueBytes q
  | .queueSide _ q => w.queueSide q
  | .tokens _ => (upFrom 0 9).flatMap fun q => toBytes (tabGet 0 w.tokens q) 1
  | .scratchpad _ off => toBytes (Memory.nat w.spad (off / 16 * 16) 16) 16
  | .cell _ i => toBytes (w.cell i).toNat 32
  | .codebook _ b back =>
    let x := w.bank b
    (upFrom 0 256).flatMap fun i => wordBytes (tabGet 0 (if x.front == back then x.copy0 else x.copy1) i)
  | _ => []

/-- What a diagnostic read finds in the context that a core holds; a core without one has no bytes to show (log 59). -/
def State.probeContext (s : State) (core : Nat) (x : Probe) : List Byte :=
  match s.contextOn core with
  | none => []
  | some key => (s.worker key).probe x

/-- What a diagnostic read finds (R335), little-endian; a vector register with its scale bytes and map words, a strand by its
parcel address and the depth of its block stack (log 59). -/
def State.probe (s : State) (x : Probe) : List Byte :=
  match x with
  | .sector pa => toBytes (s.physNat (pa / 16 * 16) 16) 16
  | .area c off => toBytes (Memory.nat (tabGet [] s.vaults c) (off / 16 * 16) 16) 16
  | .csr c n =>
    match s.contextOn c with
    | none => []
    | some key => wordBytes ({ s with curKey := key, curEng := .S }.csrRead n)
  | .plane c shadow i =>
    let w := s.worker ((tabFind s.planeOwner c).getD 0)
    let p := if shadow then w.shadow else w.active
    toBytes (tabGet 0 p.mant i).toNat 128 ++ toBytes (tabGet 0 p.scale i).toNat 8
  | .register off => wordBytes (s.readRegister off)
  | .bootFailure => s.bootFailed.map (BitVec.ofNat 8)
  | .reports => s.reports.flatMap bytesOf
  | .scalar c _ | .vector c _ | .mask c _ | .strand c _ | .block c _ _ | .preds c _ | .furrow c _ _ | .tile c _ _ | .sheaf c _ _
  | .counters c _ | .knot c _ | .queue c _ | .queueSide c _ | .tokens c | .scratchpad c _ | .cell c _ | .codebook c _ _ =>
    s.probeContext c x

/-- DIAGNOSTIC_READ (R335): over the management port of a frozen device. -/
def execDiagnosticRead (x : Probe) (s : State) : Host.Outcome State Fault Refusal :=
  .next (if s.frozen then { s with replies := s.replies ++ [s.probe x] } else s)

/-! ## Reset (R336) -/

/-- Whether firmware image `i` passes its checks at the next reset: its signature, and its security version against the fused
counter (R336). -/
def State.imageGood (s : State) (i : Nat) : Bool :=
  Config.firmwareSigned s.boots i && decide (tabGet 0 s.fuses i ≤ Config.firmwareVersion s.boots i)

/-- The fused version counters after a reset: they only increase (R336, log 21). -/
def State.fusesNext (s : State) : Tab Nat :=
  (upFrom 0 6).map fun i => (i, tabGet 0 s.fuses i + Config.fuseRaise s.boots i)

/-- Every launch that has started and not completed ends with STATUS 3 (R335). -/
def State.abortAll (s : State) : State :=
  s.launches.foldl (fun s e =>
    match e.2.state with
    | .running => s.finish e.1 3 none
    | .preempted => s.finish e.1 3 none
    | .draining => s.finish e.1 3 none
    | _ => s) s

/-- RESET (R335, R336): contexts are discarded, running launches aborted; spares and memory stay (log 37). Every image that passes
is measured; where one fails the device stays in reset, the failure readable. -/
def execReset (s : State) : Host.Outcome State Fault Refusal :=
  let a := s.abortAll
  let failed := (upFrom 0 6).filter fun i => !s.imageGood i
  .next
    { State.reset with
      tick := s.tick, mem := a.mem
      badSectors := a.badSectors, softSectors := a.softSectors, corrected := a.corrected, mended := a.mended
      mclog := s.mclog, reports := s.reports, vaults := s.vaults
      retired := s.retired, spareIn := s.spareIn, macroCols := s.macroCols, pseudoSpares := s.pseudoSpares
      ports := s.ports.map fun e => (e.1, { Port.reset with spareUsed := e.2.spareUsed })
      boots := s.boots + 1, fuses := s.fusesNext, measures := measured s.boots s.imageGood, bootFailed := failed
      frozen := !failed.isEmpty }

/-! ## Attestation (R337) -/

/-- Whether the record of a LID still stands in its slot (R337). -/
def State.recordStands (s : State) (lid : Nat) : Bool :=
  let a := s.account (lidQueue lid)
  decide (a.tail ≤ lidIndex lid + a.size)

/-- The digest and STATUS that a report shows of a launch: one that is COMPLETE and whose record stands (R337). -/
def State.reported (s : State) (lid : Nat) : BitVec 256 × Nat :=
  match tabFind s.launches lid with
  | some l => if l.state = .complete ∧ s.recordStands lid then (l.digest, l.status) else (0, 0xFF)
  | none => (0, 0xFF)

/-- The 336 bytes of a report (R337). A LID of 2^64 or more stands for a request that names none. -/
def State.report (s : State) (nonce : BitVec 256) (lid : Nat) : List Byte :=
  let r := s.reported lid
  Sha3.bytes nonce ++ (upFrom 0 8).flatMap (fun i => Sha3.bytes (tabGet 0 s.measures i)) ++
    toBytes (if lid < 2 ^ 64 then lid else 0) 8 ++ Sha3.bytes r.1 ++ toBytes r.2 1 ++ toBytes 0 7

/-- ATTESTATION_REPORT (R337): the report and the signature over its SHA3-256. -/
def execAttestationReport (nonce : BitVec 256) (lid : Nat) (s : State) : Host.Outcome State Fault Refusal :=
  let r := s.report nonce lid
  .next { s with replies := s.replies ++ [r ++ Config.signature ((upFrom 0 8).map fun i => tabGet 0 s.measures i) (Sha3.hash r)] }

end Sys2Proof.Machine
end

