-- ==== Sys2Proof/Machine/Sheaves.lean ====
section
/-! DEFINITION. Sheaf banks: layout, centroids and distances, insertion, merging, and the four instructions (R212 to R224). -/
namespace Sys2Proof.Machine

/-! ## The bank (R215, R218) -/

/-- ANCHOR of a sheaf descriptor. -/
def Sheaf.anch (h : Sheaf) : Int := h.anchor.toInt

/-- The descriptor check of R218. -/
def Sheaf.ok (h : Sheaf) : Bool :=
  let d := h.dim.toNat
  let c := h.cap.toNat
  decide (h.base.toNat ≤ 32767) && decide (1 ≤ d ∧ d ≤ 256) && decide (1 ≤ c ∧ c ≤ 256) &&
    decide (h.base.toNat + c * (d + 1) ≤ Config.cellCount) && decide (h.metric.toNat ≤ 1) && decide (h.policy.toNat ≤ 2) &&
    anchorOk h.anch

/-- Cell `k` of entry `i` (R215). -/
def Sheaf.cell (h : Sheaf) (i k : Nat) : Nat := h.base.toNat + i * (h.dim.toNat + 1) + k

/-- Count cell of an entry. -/
def Worker.countCell (w : Worker) (h : Sheaf) (i : Nat) : BitVec 256 := w.cell (h.cell i h.dim.toNat)

/-- VALID of an entry. -/
def Worker.entryValid (w : Worker) (h : Sheaf) (i : Nat) : Bool := (w.countCell h i).getLsbD 64

/-- COUNT of an entry. -/
def Worker.entryCount (w : Worker) (h : Sheaf) (i : Nat) : Nat := bits (w.countCell h i).toNat 0 64

/-- A count cell written; COUNT saturates (R215). -/
def Sheaf.setCount (h : Sheaf) (i n : Nat) (valid : Bool) : Nat × Edit :=
  (h.cell i h.dim.toNat, .put 0 256 (min n (2 ^ 64 - 1) + ofBool valid <<< 64))

/-- Valid entries in ascending order. -/
def Worker.validEntries (w : Worker) (h : Sheaf) : List Nat := (upFrom 0 h.cap.toNat).filter (w.entryValid h)

/-- The lowest free entry. -/
def Worker.freeEntry (w : Worker) (h : Sheaf) : Option Nat := (upFrom 0 h.cap.toNat).find? fun i => !w.entryValid h i

/-! ## Centroids and distances (R219) -/

/-- Rounding to f32 with RNE, as a value. -/
def near (ftz : Bool) (x : XReal) : XReal := readF32 false (roundF32 ftz x)

/-- A sum cell divided by COUNT and rounded once, as f32 bits (R214, R219). The spec states no quotient of a finite sum by a COUNT
of 0, which only a program that adds into a count cell brings about: a free value (log 61). -/
def centroidBits (anchor : Int) (ftz : Bool) (c : BitVec 256) (n : Nat) : Nat :=
  let x := cellValue anchor c
  if n = 0 ∧ x.isFin then (Config.emptyCentroid c anchor).toNat else roundF32 ftz (x.div (.ofInt (n : Nat)))

/-- Centroid of an entry. -/
def Worker.centroid (w : Worker) (h : Sheaf) (ftz : Bool) (i : Nat) : List XReal :=
  (upFrom 0 h.dim.toNat).map fun k => readF32 false (centroidBits h.anch ftz (w.cell (h.cell i k)) (w.entryCount h i))

/-- dist or score of two vectors (R219). -/
def measure (metric : Nat) (ftz : Bool) (x c : List XReal) : XReal :=
  let pairs := x.zip c
  let terms := pairs.map fun p =>
    if metric = 0 then
      let df := near ftz (XReal.add false p.1 p.2.neg)
      near ftz (df.mul df)
    else p.1.mul p.2
  near ftz (terms.foldl (XReal.add false) (.fin false 0 0 false))

/-- Whether the first measure is nearer than the second, ties apart (R219). -/
def nearer (metric : Nat) (a b : XReal) : Bool :=
  if a.isNan then false
  else if b.isNan then true
  else a.cmp b == some (if metric = 0 then .lt else .gt)

/-- The first of the nearest of a list. -/
def nearestOf {α : Type} (metric : Nat) : List (α × XReal) → Option (α × XReal)
  | [] => none
  | x :: r =>
    match nearestOf metric r with
    | none => some x
    | some y => if nearer metric y.2 x.2 then some y else some x

/-- Within the radius (R212, R219): a NaN never is. -/
def Sheaf.within (h : Sheaf) (m : XReal) : Bool :=
  match m.cmp (readF32 false h.rad2.toNat) with
  | none => false
  | some o => o == .eq || o == (if h.metric.toNat = 0 then .lt else .gt)

/-- The closest pair of valid entries, lexicographically lowest among equals (R219). -/
def Worker.closestPair (w : Worker) (h : Sheaf) (ftz : Bool) : Option (Nat × Nat) :=
  let es := (w.validEntries h).map fun i => (i, w.centroid h ftz i)
  let pairs := es.flatMap fun a => (es.filter fun b => decide (a.1 < b.1)).map fun b =>
    ((a.1, b.1), measure h.metric.toNat ftz a.2 b.2)
  (nearestOf h.metric.toNat pairs).map Prod.fst

/-! ## Insertion (R220): what a key does to the bank's cells, edit after edit -/

/-- Edits of the sum cells of an entry. -/
def Sheaf.onSums (h : Sheaf) (i : Nat) (g : Nat → Edit) : List (Nat × Edit) :=
  (upFrom 0 h.dim.toNat).map fun k => (h.cell i k, g k)

/-- absorb (R220). FTZ does not touch what is admitted (R72, R80). -/
def Worker.absorb (w : Worker) (h : Sheaf) (i : Nat) (x : List XReal) : List (Nat × Edit) :=
  h.onSums i (fun k => .add (admitTerm h.anch (nth .nan x k) 0)) ++ [h.setCount i (w.entryCount h i + 1) true]

/-- open (R220). -/
def Sheaf.openEntry (h : Sheaf) (i : Nat) (x : List XReal) : List (Nat × Edit) :=
  h.onSums i (fun k => .put 0 256 (admitTerm h.anch (nth .nan x k) 0).toNat) ++ [h.setCount i 1 true]

/-- merge (R220): exact; the second entry is left free. -/
def Worker.mergeEntries (w : Worker) (h : Sheaf) (i j : Nat) : List (Nat × Edit) :=
  h.onSums i (fun k => .add (w.cell (h.cell j k))) ++ [h.setCount i (w.entryCount h i + w.entryCount h j) true] ++
    h.onSums j (fun _ => .put 0 256 0) ++ [h.setCount j 0 false]

/-- insert (R220): the edits, and the entry that took the key, or −1. The key is measured as `x`, under FTZ, and admitted as `y`,
without it. `lone` decides where MERGE has no pair (log 22). -/
def Worker.insertKey (w : Worker) (h : Sheaf) (ftz lone : Bool) (x y : List XReal) : List (Nat × Edit) × Int :=
  if y.any fun v => !v.isFin then ([], -1)
  else
    let es := (w.validEntries h).map fun i => (i, measure h.metric.toNat ftz x (w.centroid h ftz i))
    let opened := fun (i : Nat) => (h.openEntry i y, (i : Int))
    match nearestOf h.metric.toNat es with
    | none =>
      match w.freeEntry h with
      | some i => opened i
      | none => ([], -1)
    | some (n, m) =>
      if h.within m then (w.absorb h n y, n)
      else
        match w.freeEntry h with
        | some i => opened i
        | none =>
          match h.policy.toNat with
          | 0 => ([], -1)
          | 1 =>
            match w.closestPair h ftz with
            | some (i, j) => (w.mergeEntries h i j ++ h.openEntry j y, j)
            | none => if lone then (w.absorb h n y, n) else ([], -1)
          | _ => (w.absorb h n y, n)

/-- Cells of a worker after edits. -/
def Worker.edited (w : Worker) (l : List (Nat × Edit)) : Worker :=
  l.foldl (fun w e => w.setCell e.1 (BitVec.ofNat 256 (e.2.run (w.cell e.1).toNat))) w

/-- Cells that edits write whole. -/
def wholeCells (l : List (Nat × Edit)) : List Nat := (l.filter fun e => !e.2.isAdd).map Prod.fst

/-- The M strand in turn edits cells of a bank as one indivisible event (R212, R224). -/
def State.editBank (s : State) (l : List (Nat × Edit)) : State :=
  ((s.noteEvent l).wipeCells (wholeCells l)).modWk fun w => w.edited l

/-- Cells that a search of a bank reads: every count cell, and the sum cells of the valid entries (R219, R220). -/
def Worker.bankCells (w : Worker) (h : Sheaf) : List Nat :=
  (upFrom 0 h.cap.toNat).map (fun i => h.cell i h.dim.toNat) ++
    (w.validEntries h).flatMap fun i => (upFrom 0 h.dim.toNat).map (h.cell i)

/-- A search of a bank by the M strand in turn: it reads the newest of its cells, which it may change in the same event (R224,
R332, log 45). -/
def searchBank (h : Sheaf) : M Unit := do
  let l ← M.look fun s => s.wk.bankCells h
  meetCells l
  M.change fun s => s.readCells l

/-! ## Instructions (R213, R214, R221 to R223) -/

/-- After a restore the neighbour table is rebuilt before the first sheaf instruction (R222). -/
def awaitTable : M Unit := do
  let w ← M.look State.wk
  M.await w.nbrValid

/-- u of R222. -/
def Sheaf.units (h : Sheaf) : Nat := ceilDiv (h.cap.toNat * h.dim.toNat) 4096

/-- The conditions of R222 on a sheaf and the shape in force. -/
def Sheaf.fits (h : Sheaf) (sh : Shape) (w : Nat) : Bool :=
  h.ok && decide (h.dim.toNat ≤ sh.size 0) && sh.fits w && sh.fits 32 &&
    decide (sh.slots / sh.size 0 * (2 * h.units + 1) ≤ 1024)

/-- The elements of the keys in a source (R222): of each row the first DIM slots. -/
def Sheaf.keysOf (h : Sheaf) (sh : Shape) (w : Nat) (b : Src) : List (List Nat) :=
  (upFrom 0 (sh.slots / sh.size 0)).map fun r => (upFrom (sh.size 0 * r) h.dim.toNat).map (b.slot w)

/-- The beginning of a `shins` (R222): its checks, its tokens and its source. Its keys follow, each in a turn of its own
(R212, R224). -/
def beginInsertion (f : E64) : M Unit := do
  let s ← M.look id
  let fmt := f.fmt5.toNat
  let h := s.view.sheaf f.a8.toNat
  M.await (s.st.room)
  M.await ((tokPops .M f.tk).all fun q => decide (0 < s.wk.tokensIn q))
  M.legal (ftzFmt fmt && h.fits s.view.shape (fmtWidth fmt))
  awaitTable
  let b ← readSrc f.b8 (some (fmtWidth fmt))
  M.work fun w =>
    { (tokPops .M f.tk).foldl (fun w q => w.setTokens q (w.tokensIn q - 1)) w with
      insertion := some ⟨f, h, s.view.ftz, h.keysOf s.view.shape (fmtWidth fmt) b, fmt, []⟩ }
  M.change fun s => s.popAcquire .M f.tk

/-- One key of a `shins`, one indivisible step (R212, R220): its edits and the entry that took the key. Key numbers count from 0
in the free choice of log 22. -/
def Worker.keyTurn (w : Worker) (x : Insertion) (pos : Nat) : List (Nat × Edit) × Int :=
  let key := nth [] x.keys x.done.length
  w.insertKey x.sheaf x.ftz (Config.loneMerge w.wid pos x.done.length) (key.map (readNum x.fmt x.ftz))
    (key.map (readNum x.fmt false))

/-- The entry that a `shins` pushes after its last key (R213). -/
def shinsResult (sh : Shape) (l : List Int) : Result :=
  ⟨packSlots 32 ((upFrom 0 sh.slots).map fun i => wrap 32 (nth 0 l i)), 0, none, .lost⟩

/-- A turn of a `shins` under way: its next key and, after the last, its issue (R213). -/
def insertionTurn (x : Insertion) : M Unit := do
  searchBank x.sheaf
  let s ← M.look id
  let r := s.wk.keyTurn x s.st.pos
  let done := r.2 :: x.done
  M.change fun s => s.editBank r.1
  if done.length < x.keys.length then M.work fun w => { w with insertion := some { x with done } }
  else do
    M.work fun w => { w with insertion := none }
    let i ← deliverShape x.word.d8 32 0 (shinsResult s.view.shape done.reverse)
    M.work fun w => w.setStrand .M ((w.strands.get .M).issued 4 i (tokPushes .M x.word.tk))

/-- shins (R213, R220, R222): its beginning, then one key a turn; guarded off it inserts nothing and pushes zeros. -/
def execShins (f : E64) (s : State) : Host.Outcome State Fault Refusal :=
  match s.wk.insertion with
  | some x => runOwn .M (insertionTurn x) s
  | none =>
    if s.view.guard f.g then runOwn .M (beginInsertion f) s
    else runE64 .M f M.nothing
      (do discard [(f.b8, if fmtNamed f.fmt5 then some (fmtWidth f.fmt5.toNat) else none)]
          zeroPush f.d8 32 0) s

/-- shmrg (R223): fewer than two valid entries change nothing. -/
def execShmrg (f : E64) (s : State) : Host.Outcome State Fault Refusal :=
  runE64 .M f
    (do let v ← M.look State.view
        let h := v.sheaf f.d8.toNat
        M.legal h.ok
        awaitTable
        searchBank h
        M.change fun s =>
          match s.wk.closestPair h v.ftz with
          | some (i, j) => s.editBank (s.wk.mergeEntries h i j)
          | none => s
        pure .none) M.nothing s

/-- What a slot of `shrd` holds, from a count cell and a sum cell (R214). -/
def shrdSlot (anchor : Int) (counts ftz first : Bool) (count sum : BitVec 256) : Nat :=
  let n := bits count.toNat 0 64
  if !count.getLsbD 64 then 0
  else if counts then (if first then min n (2 ^ 32 - 1) else 0)
  else centroidBits anchor ftz sum n

/-- The cells that a slot of `shrd` reads, its count cell and its sum cell, where it has an entry and a dimension (R214). -/
def shrdCells (h : Sheaf) (sh : Shape) (i : Nat) : Option (Nat × Nat) :=
  let x := slotIndex sh.grant3 i
  if x.c2 = 0 ∧ x.c3 = 0 ∧ x.c0 < h.dim.toNat ∧ x.c1 < h.cap.toNat then
    some (h.cell x.c1 h.dim.toNat, h.cell x.c1 x.c0)
  else none

/-- shrd (R214, R223), of the cells as M sees them (R269). -/
def execShrd (f : E64) (s : State) : Host.Outcome State Fault Refusal :=
  runE64 .M f
    (do let s ← M.look id
        let v := s.view
        let h := v.sheaf f.a8.toNat
        let sh := v.shape
        M.legal (h.ok && sh.width == 32 && sh.fits 32)
        awaitTable
        let pairs := (upFrom 0 sh.slots).filterMap (shrdCells h sh)
        let cells := pairs.map Prod.fst ++
          if f.modBit 0 then [] else (pairs.filter fun c => (s.seenCell c.1).getLsbD 64).map Prod.snd
        meetCells cells
        M.change fun s => s.loadedCells cells
        let one := fun (i : Nat) =>
          match shrdCells h sh i with
          | some c => shrdSlot h.anch (f.modBit 0) v.ftz ((slotIndex sh.grant3 i).c0 == 0) (s.seenCell c.1) (s.seenCell c.2)
          | none => 0
        let map := freshMap sh (fun j => decide (j < 2)) (.all 0) ⟨h.dim.toNat, h.cap.toNat, 1, 1⟩
        deliverShape f.d8 32 0 ⟨packSlots 32 ((upFrom 0 sh.slots).map one), 0, none, map⟩)
    (zeroPush f.d8 32 0) s

/-- shclr (R223): count cells included. -/
def execShclr (f : E64) (s : State) : Host.Outcome State Fault Refusal :=
  runE64 .M f
    (do let v ← M.look State.view
        let h := v.sheaf f.d8.toNat
        M.legal h.ok
        awaitTable
        M.change fun s => s.clearCells h.base.toNat (h.cap.toNat * (h.dim.toNat + 1))
        pure .none) M.nothing s

end Sys2Proof.Machine
end

