-- ==== Sys2Proof/Machine/Dispatch.lean ====
section
/-! DEFINITION. The meaning of every instruction, arm by arm. -/
namespace Sys2Proof.Machine

/-- Run an instruction in a state that names the strand in turn. -/
def exec (i : Instr) (s : State) : Host.Outcome State Fault Refusal :=
  match i with
  | .nop => Sys2Proof.Machine.execNop s
  | .exit => Sys2Proof.Machine.execExit s
  | .brk c => Sys2Proof.Machine.execBrk c s
  | .fence k sc => Sys2Proof.Machine.execFence k sc s
  | .ret => Sys2Proof.Machine.execRet s
  | .eret => Sys2Proof.Machine.execEret s
  | .settle => Sys2Proof.Machine.execSettle s
  | .yield => Sys2Proof.Machine.execYield s
  | .spin => Sys2Proof.Machine.execSpin s
  | .sadd g d a b => Sys2Proof.Machine.execSadd g d a b s
  | .ssub g d a b => Sys2Proof.Machine.execSsub g d a b s
  | .smul g d a b => Sys2Proof.Machine.execSmul g d a b s
  | .smulh g d a b => Sys2Proof.Machine.execSmulh g d a b s
  | .smulhn g d a b => Sys2Proof.Machine.execSmulhn g d a b s
  | .sdiv g d a b => Sys2Proof.Machine.execSdiv g d a b s
  | .sdivn g d a b => Sys2Proof.Machine.execSdivn g d a b s
  | .srem g d a b => Sys2Proof.Machine.execSrem g d a b s
  | .sremn g d a b => Sys2Proof.Machine.execSremn g d a b s
  | .sand g d a b => Sys2Proof.Machine.execSand g d a b s
  | .sor g d a b => Sys2Proof.Machine.execSor g d a b s
  | .sxor g d a b => Sys2Proof.Machine.execSxor g d a b s
  | .sandn g d a b => Sys2Proof.Machine.execSandn g d a b s
  | .sshl g d a b => Sys2Proof.Machine.execSshl g d a b s
  | .sshr g d a b => Sys2Proof.Machine.execSshr g d a b s
  | .ssra g d a b => Sys2Proof.Machine.execSsra g d a b s
  | .smin g d a b => Sys2Proof.Machine.execSmin g d a b s
  | .smax g d a b => Sys2Proof.Machine.execSmax g d a b s
  | .sminn g d a b => Sys2Proof.Machine.execSminn g d a b s
  | .smaxn g d a b => Sys2Proof.Machine.execSmaxn g d a b s
  | .seq g d a b => Sys2Proof.Machine.execSeq g d a b s
  | .sne g d a b => Sys2Proof.Machine.execSne g d a b s
  | .slt g d a b => Sys2Proof.Machine.execSlt g d a b s
  | .sltn g d a b => Sys2Proof.Machine.execSltn g d a b s
  | .sle g d a b => Sys2Proof.Machine.execSle g d a b s
  | .slen g d a b => Sys2Proof.Machine.execSlen g d a b s
  | .pand g d a b => Sys2Proof.Machine.execPand g d a b s
  | .por g d a b => Sys2Proof.Machine.execPor g d a b s
  | .pxor g d a b => Sys2Proof.Machine.execPxor g d a b s
  | .pandn g d a b => Sys2Proof.Machine.execPandn g d a b s
  | .sclz g d a => Sys2Proof.Machine.execSclz g d a s
  | .spopc g d a => Sys2Proof.Machine.execSpopc g d a s
  | .scmov g d a b => Sys2Proof.Machine.execScmov g d a b s
  | .jmpr g a => Sys2Proof.Machine.execJmpr g a s
  | .callr g a => Sys2Proof.Machine.execCallr g a s
  | .sfadd g d a b => Sys2Proof.Machine.execSfadd g d a b s
  | .sfsub g d a b => Sys2Proof.Machine.execSfsub g d a b s
  | .sfmul g d a b => Sys2Proof.Machine.execSfmul g d a b s
  | .sfmin g d a b => Sys2Proof.Machine.execSfmin g d a b s
  | .sfmax g d a b => Sys2Proof.Machine.execSfmax g d a b s
  | .sflt g d a b => Sys2Proof.Machine.execSflt g d a b s
  | .sfeq g d a b => Sys2Proof.Machine.execSfeq g d a b s
  | .sfle g d a b => Sys2Proof.Machine.execSfle g d a b s
  | .scvtif g d a => Sys2Proof.Machine.execScvtif g d a s
  | .scvtfi g d a => Sys2Proof.Machine.execScvtfi g d a s
  | .csrr g d c => Sys2Proof.Machine.execCsrr g d c s
  | .csrw g d c => Sys2Proof.Machine.execCsrw g d c s
  | .csrs g d c => Sys2Proof.Machine.execCsrs g d c s
  | .csrc g d c => Sys2Proof.Machine.execCsrc g d c s
  | .sqpush g a => Sys2Proof.Machine.execSqpush g a s
  | .sqpop g d => Sys2Proof.Machine.execSqpop g d s
  | .sqfree g d => Sys2Proof.Machine.execSqfree g d s
  | .stok g => Sys2Proof.Machine.execStok g s
  | .stokw g => Sys2Proof.Machine.execStokw g s
  | .kadd g d a => Sys2Proof.Machine.execKadd g d a s
  | .kwait g d a => Sys2Proof.Machine.execKwait g d a s
  | .kread g d a => Sys2Proof.Machine.execKread g d a s
  | .kset g d a => Sys2Proof.Machine.execKset g d a s
  | .sgsync g c => Sys2Proof.Machine.execSgsync g c s
  | .sgarr g c => Sys2Proof.Machine.execSgarr g c s
  | .stask g d => Sys2Proof.Machine.execStask g d s
  | .scommit g => Sys2Proof.Machine.execScommit g s
  | .sdtrig g => Sys2Proof.Machine.execSdtrig g s
  | .sdwait g => Sys2Proof.Machine.execSdwait g s
  | .strap g c => Sys2Proof.Machine.execStrap g c s
  | .smbend g => Sys2Proof.Machine.execSmbend g s
  | .saddi g d ic => Sys2Proof.Machine.execSaddi g d ic s
  | .sli g d ic => Sys2Proof.Machine.execSli g d ic s
  | .slui g d ic => Sys2Proof.Machine.execSlui g d ic s
  | .sandi g d ic => Sys2Proof.Machine.execSandi g d ic s
  | .sori g d ic => Sys2Proof.Machine.execSori g d ic s
  | .sxori g d ic => Sys2Proof.Machine.execSxori g d ic s
  | .sshli g d ic => Sys2Proof.Machine.execSshli g d ic s
  | .sshri g d ic => Sys2Proof.Machine.execSshri g d ic s
  | .ssrai g d ic => Sys2Proof.Machine.execSsrai g d ic s
  | .seqi g d p ic => Sys2Proof.Machine.execSeqi g d p ic s
  | .slti g d p ic => Sys2Proof.Machine.execSlti g d p ic s
  | .sltni g d p ic => Sys2Proof.Machine.execSltni g d p ic s
  | .kaddi g d ic => Sys2Proof.Machine.execKaddi g d ic s
  | .kwaiti g d ic => Sys2Proof.Machine.execKwaiti g d ic s
  | .sld f => Sys2Proof.Machine.execSld f s
  | .sst f => Sys2Proof.Machine.execSst f s
  | .samo f => Sys2Proof.Machine.execSamo f s
  | .br f => Sys2Proof.Machine.execBr f s
  | .call f => Sys2Proof.Machine.execCall f s
  | .sli32 f => Sys2Proof.Machine.execSli32 f s
  | .saddi32 f => Sys2Proof.Machine.execSaddi32 f s
  | .sfset f => Sys2Proof.Machine.execSfset f s
  | .szset f => Sys2Proof.Machine.execSzset f s
  | .shset f => Sys2Proof.Machine.execShset f s
  | .sshape f => Sys2Proof.Machine.execSshape f s
  | .sbkj f => Sys2Proof.Machine.execSbkj f s
  | .slaunch f => Sys2Proof.Machine.execSlaunch f s
  | .slaydef f => Sys2Proof.Machine.execSlaydef f s
  | .satinv f => Sys2Proof.Machine.execSatinv f s
  | .vadd f => Sys2Proof.Machine.execVadd f s
  | .vsub f => Sys2Proof.Machine.execVsub f s
  | .vmul f => Sys2Proof.Machine.execVmul f s
  | .vfma f => Sys2Proof.Machine.execVfma f s
  | .vfms f => Sys2Proof.Machine.execVfms f s
  | .vfnma f => Sys2Proof.Machine.execVfnma f s
  | .vmin f => Sys2Proof.Machine.execVmin f s
  | .vmax f => Sys2Proof.Machine.execVmax f s
  | .vabs f => Sys2Proof.Machine.execVabs f s
  | .vneg f => Sys2Proof.Machine.execVneg f s
  | .vdiv f => Sys2Proof.Machine.execVdiv f s
  | .vsqrt f => Sys2Proof.Machine.execVsqrt f s
  | .vrcp f => Sys2Proof.Machine.execVrcp f s
  | .vrsq f => Sys2Proof.Machine.execVrsq f s
  | .vexp2 f => Sys2Proof.Machine.execVexp2 f s
  | .vlog2 f => Sys2Proof.Machine.execVlog2 f s
  | .vtanh f => Sys2Proof.Machine.execVtanh f s
  | .vsincos f => Sys2Proof.Machine.execVsincos f s
  | .vrot f => Sys2Proof.Machine.execVrot f s
  | .viadd f => Sys2Proof.Machine.execViadd f s
  | .visub f => Sys2Proof.Machine.execVisub f s
  | .vimul f => Sys2Proof.Machine.execVimul f s
  | .vimulh f => Sys2Proof.Machine.execVimulh f s
  | .viand f => Sys2Proof.Machine.execViand f s
  | .vior f => Sys2Proof.Machine.execVior f s
  | .vixor f => Sys2Proof.Machine.execVixor f s
  | .vishl f => Sys2Proof.Machine.execVishl f s
  | .vishr f => Sys2Proof.Machine.execVishr f s
  | .visra f => Sys2Proof.Machine.execVisra f s
  | .vimin f => Sys2Proof.Machine.execVimin f s
  | .vimax f => Sys2Proof.Machine.execVimax f s
  | .vipopc f => Sys2Proof.Machine.execVipopc f s
  | .vcvt f => Sys2Proof.Machine.execVcvt f s
  | .vqnt f => Sys2Proof.Machine.execVqnt f s
  | .vdq f => Sys2Proof.Machine.execVdq f s
  | .vcmp f => Sys2Proof.Machine.execVcmp f s
  | .vsel f => Sys2Proof.Machine.execVsel f s
  | .mand f => Sys2Proof.Machine.execMand f s
  | .mor f => Sys2Proof.Machine.execMor f s
  | .mxor f => Sys2Proof.Machine.execMxor f s
  | .mnot f => Sys2Proof.Machine.execMnot f s
  | .mcnt f => Sys2Proof.Machine.execMcnt f s
  | .vpset f => Sys2Proof.Machine.execVpset f s
  | .vcrd f => Sys2Proof.Machine.execVcrd f s
  | .vmap f => Sys2Proof.Machine.execVmap f s
  | .vmapq f => Sys2Proof.Machine.execVmapq f s
  | .vnoise f => Sys2Proof.Machine.execVnoise f s
  | .vgbias f => Sys2Proof.Machine.execVgbias f s
  | .vmov f => Sys2Proof.Machine.execVmov f s
  | .vslice f => Sys2Proof.Machine.execVslice f s
  | .vtrn f => Sys2Proof.Machine.execVtrn f s
  | .vresh f => Sys2Proof.Machine.execVresh f s
  | .vperm f => Sys2Proof.Machine.execVperm f s
  | .vcompact f => Sys2Proof.Machine.execVcompact f s
  | .vexpand f => Sys2Proof.Machine.execVexpand f s
  | .vbcast f => Sys2Proof.Machine.execVbcast f s
  | .vshift f => Sys2Proof.Machine.execVshift f s
  | .vrsum f => Sys2Proof.Machine.execVrsum f s
  | .vrmax f => Sys2Proof.Machine.execVrmax f s
  | .vrmin f => Sys2Proof.Machine.execVrmin f s
  | .vrargmax f => Sys2Proof.Machine.execVrargmax f s
  | .vscan f => Sys2Proof.Machine.execVscan f s
  | .vxscan f => Sys2Proof.Machine.execVxscan f s
  | .vcadd f => Sys2Proof.Machine.execVcadd f s
  | .vatmrg f => Sys2Proof.Machine.execVatmrg f s
  | .vkadd f => Sys2Proof.Machine.execVkadd f s
  | .vkwait f => Sys2Proof.Machine.execVkwait f s
  | .vnop f => Sys2Proof.Machine.execVnop f s
  | .ldv f => Sys2Proof.Machine.execLdv f s
  | .ldq f => Sys2Proof.Machine.execLdq f s
  | .lgth f => Sys2Proof.Machine.execLgth f s
  | .lbc f => Sys2Proof.Machine.execLbc f s
  | .lpre f => Sys2Proof.Machine.execLpre f s
  | .ladv f => Sys2Proof.Machine.execLadv f s
  | .lrst f => Sys2Proof.Machine.execLrst f s
  | .lcbld f => Sys2Proof.Machine.execLcbld f s
  | .lcbsw f => Sys2Proof.Machine.execLcbsw f s
  | .lmsk f => Sys2Proof.Machine.execLmsk f s
  | .lkadd f => Sys2Proof.Machine.execLkadd f s
  | .lkwait f => Sys2Proof.Machine.execLkwait f s
  | .lnop f => Sys2Proof.Machine.execLnop f s
  | .mzclr f => Sys2Proof.Machine.execMzclr f s
  | .mldb f => Sys2Proof.Machine.execMldb f s
  | .mswap f => Sys2Proof.Machine.execMswap f s
  | .mmul f => Sys2Proof.Machine.execMmul f s
  | .mrank f => Sys2Proof.Machine.execMrank f s
  | .mrdz f => Sys2Proof.Machine.execMrdz f s
  | .mzcnt f => Sys2Proof.Machine.execMzcnt f s
  | .shins f => Sys2Proof.Machine.execShins f s
  | .shmrg f => Sys2Proof.Machine.execShmrg f s
  | .shrd f => Sys2Proof.Machine.execShrd f s
  | .shclr f => Sys2Proof.Machine.execShclr f s
  | .mkadd f => Sys2Proof.Machine.execMkadd f s
  | .mkwait f => Sys2Proof.Machine.execMkwait f s
  | .mnop f => Sys2Proof.Machine.execMnop f s
  | .wst f => Sys2Proof.Machine.execWst f s
  | .wstq f => Sys2Proof.Machine.execWstq f s
  | .wsct f => Sys2Proof.Machine.execWsct f s
  | .wamo f => Sys2Proof.Machine.execWamo f s
  | .wcadd f => Sys2Proof.Machine.execWcadd f s
  | .wcpy f => Sys2Proof.Machine.execWcpy f s
  | .wcpyx f => Sys2Proof.Machine.execWcpyx f s
  | .wsend f => Sys2Proof.Machine.execWsend f s
  | .wattd f => Sys2Proof.Machine.execWattd f s
  | .watts f => Sys2Proof.Machine.execWatts f s
  | .wflush f => Sys2Proof.Machine.execWflush f s
  | .wmsk f => Sys2Proof.Machine.execWmsk f s
  | .wkadd f => Sys2Proof.Machine.execWkadd f s
  | .wkwait f => Sys2Proof.Machine.execWkwait f s
  | .wnop f => Sys2Proof.Machine.execWnop f s
  | .headland b r n => Sys2Proof.Machine.execHeadland b r n s
  | .headlandCounted b r c => Sys2Proof.Machine.execHeadlandCounted b r c s
  | .repetitionEnd => Sys2Proof.Machine.execRepetitionEnd s
  | .writeLanding => Sys2Proof.Machine.execWriteLanding s
  | .tokenPush => Sys2Proof.Machine.execTokenPush s
  | .queuePush => Sys2Proof.Machine.execQueuePush s
  | .workerCompletion key => Sys2Proof.Machine.execWorkerCompletion key s
  | .trapEntry key => Sys2Proof.Machine.execTrapEntry key s
  | .abortedLaunchCompletion lid => Sys2Proof.Machine.execAbortedLaunchCompletion lid s
  | .scrub => Sys2Proof.Machine.execScrub s
  | .preemptionRequest key => Sys2Proof.Machine.execPreemptionRequest key s
  | .contextSave key => Sys2Proof.Machine.execContextSave key s
  | .contextRestore key => Sys2Proof.Machine.execContextRestore key s
  | .saveImageMove key => Sys2Proof.Machine.execSaveImageMove key s
  | .planeTransfer key => Sys2Proof.Machine.execPlaneTransfer key s
  | .neighbourTableRebuild key => Sys2Proof.Machine.execNeighbourTableRebuild key s
  | .pageWalk key va => Sys2Proof.Machine.execPageWalk key va s
  | .satinvCompletion n => Sys2Proof.Machine.execSatinvCompletion n s
  | .copyChunk key seq => Sys2Proof.Machine.execCopyChunk key seq s
  | .copyCommandCompletion key seq => Sys2Proof.Machine.execCopyCommandCompletion key seq s
  | .spanFold n span => Sys2Proof.Machine.execSpanFold n span s
  | .decodeJobCompletion n => Sys2Proof.Machine.execDecodeJobCompletion n s
  | .scorePassCompletion n => Sys2Proof.Machine.execScorePassCompletion n s
  | .wstqKnotAdd n => Sys2Proof.Machine.execWstqKnotAdd n s
  | .admitRequest n => Sys2Proof.Machine.execAdmitRequest n s
  | .refusalArrival n => Sys2Proof.Machine.execRefusalArrival n s
  | .microBatchClose lid => Sys2Proof.Machine.execMicroBatchClose lid s
  | .phaseEnd lid => Sys2Proof.Machine.execPhaseEnd lid s
  | .doorbell m q => Sys2Proof.Machine.execDoorbell m q s
  | .recordTake q => Sys2Proof.Machine.execRecordTake q s
  | .arbiterDecision => Sys2Proof.Machine.execArbiterDecision s
  | .agingStep lid => Sys2Proof.Machine.execAgingStep lid s
  | .launchCompletion lid => Sys2Proof.Machine.execLaunchCompletion lid s
  | .qerrClear m q => Sys2Proof.Machine.execQerrClear m q s
  | .rctlWrite m r v => Sys2Proof.Machine.execRctlWrite m r v s
  | .resume m r => Sys2Proof.Machine.execResume m r s
  | .regionRecoveryComplete r => Sys2Proof.Machine.execRegionRecoveryComplete r s
  | .lstoreClear m r => Sys2Proof.Machine.execLstoreClear m r s
  | .plostClear m p => Sys2Proof.Machine.execPlostClear m p s
  | .claimOwnership m => Sys2Proof.Machine.execClaimOwnership m s
  | .offerOwnership m x => Sys2Proof.Machine.execOfferOwnership m x s
  | .releaseOwnership m => Sys2Proof.Machine.execReleaseOwnership m s
  | .acceptOwnership m => Sys2Proof.Machine.execAcceptOwnership m s
  | .offerLapse => Sys2Proof.Machine.execOfferLapse s
  | .registerWrite m off v => Sys2Proof.Machine.execRegisterWrite m off v s
  | .hostMemoryRequest rq => Sys2Proof.Machine.execHostMemoryRequest rq s
  | .peerRequest d rq => Sys2Proof.Machine.execPeerRequest d rq s
  | .backInvalidation line => Sys2Proof.Machine.execBackInvalidation line s
  | .poolLinkLoss p => Sys2Proof.Machine.execPoolLinkLoss p s
  | .fupelPortDown p => Sys2Proof.Machine.execFupelPortDown p s
  | .coreSpare core => Sys2Proof.Machine.execCoreSpare core s
  | .macroColumnSpare core col => Sys2Proof.Machine.execMacroColumnSpare core col s
  | .pseudoChannelSpare n => Sys2Proof.Machine.execPseudoChannelSpare n s
  | .fupelLaneSpare p => Sys2Proof.Machine.execFupelLaneSpare p s
  | .clockStep => Sys2Proof.Machine.execClockStep s
  | .thermalFreeze d => Sys2Proof.Machine.execThermalFreeze d s
  | .freeze m => Sys2Proof.Machine.execFreeze m s
  | .diagnosticRead x => Sys2Proof.Machine.execDiagnosticRead x s
  | .reset => Sys2Proof.Machine.execReset s
  | .attestationReport nonce lid => Sys2Proof.Machine.execAttestationReport nonce lid s
  | .machineCheckLogRead => Sys2Proof.Machine.execMachineCheckLogRead s
  | .poolLinkUp p => Sys2Proof.Machine.execPoolLinkUp p s
  | .fupelPortUp p d n => Sys2Proof.Machine.execFupelPortUp p d n s
  | .flitRetransmission p => Sys2Proof.Machine.execFlitRetransmission p s
  | .fupelLaneLoss p => Sys2Proof.Machine.execFupelLaneLoss p s

end Sys2Proof.Machine
end

