-- ==== Sys2Proof/Machine/Step.lean ====
section
/-! DEFINITION. One step of the device: whose turn it is, what that turn does, and the instruction it runs (log 1). -/
namespace Sys2Proof.Machine

/-- One step. -/
def step (s : State) : Host.Outcome State Fault Refusal :=
  match s.move.run with
  | some i => exec i s.move.state
  | none => .next s.move.state

/-- The word of a table row where the next step fetches it (log 12). -/
def State.withFetchWord (s : State) (nbits w : Nat) : State := s.placeWord (tableParcels nbits w)

end Sys2Proof.Machine
end

