-- ==== Sys2Proof/Safety.lean ====
section
/-! DEFINITION. What a safe step is: one that neither faults nor is refused; and the invariant that steps keep. -/
namespace Sys2Proof.Machine

/-- The step from a state gives a next state. -/
def Goes (s : State) : Prop := ∃ t, step s = .next t

/-- An instruction in a state gives a next state. -/
def Completes (i : Instr) (s : State) : Prop := ∃ t, exec i s = .next t

/-- The canonical form that every step keeps: physical memory, the dirty pool bytes, the worker table, and every scratchpad. -/
structure State.Canonical (s : State) : Prop where
  mem : s.mem.wf = true
  dirty : tabSorted s.poolDirty = true
  workers : tabSorted s.workers = true
  spads : ∀ e ∈ s.workers, e.2.spad.wf = true

end Sys2Proof.Machine
end

