-- ==== Sys2Proof/WellFormed.lean ====
section
/-! DEFINITION. Well-formed instructions: those whose words pass the checks of R59 steps 1 to 5 (R30, R32, R48 to R54 and each
instruction's own operand list). A step of the device has no words and nothing to check. -/
namespace Sys2Proof

/-- Whether an instruction's words are a legal encoding. -/
def Instr.wellFormed (i : Instr) : Bool := i.verdict i.guard? == .ok

end Sys2Proof
end

