-- ==== Sys2Proof/Certificates/Slice0/Terms.lean ====
section
/-! DEFINITION. The terms of the statements: when a strand can issue its instruction, and the state after one instruction of a
strand in terms of what it wrote, posted or left pending. Every state here is the old one with the named fields changed, so it
says what stays as well. -/
namespace Sys2Proof.Machine

/-! ## When a strand can issue -/

/-- The strand of engine `e` of a running worker has the turn, and its in-flight write queue has room (R15, R28). -/
structure Turn.Ready (e : Eng) (s : State) : Prop where
  live : s.live = true
  turn : s.curEng = e
  room : s.st.pend.length < 32

/-- The same for an E64 instruction: the tokens that it pops are there (R23), and its guard lets it execute (R30). -/
structure Turn.Go (e : Eng) (f : E64) (s : State) : Prop where
  live : s.live = true
  turn : s.curEng = e
  room : s.st.pend.length < 32
  tokens : ∀ q ∈ tokPops e f.tk, 0 < s.wk.tokensIn q
  guard : s.view.guard f.g = true

/-- Every configuration queue has room (R22). -/
def State.configFree (s : State) : Prop := ∀ e ∈ [Eng.L, .V, .M, .W], (s.wk.strands.get e).confq.length < 32

/-- Every outcome queue has room (R16). -/
def State.outcomeFree (s : State) : Prop := ∀ e ∈ [Eng.L, .V, .M, .W], (s.wk.strands.get e).outq.length < 64

/-! ## After one instruction of a strand -/

/-- A strand after its own word of `len` parcels has issued (R25, R28, R46): the landing counts of its pending writes fall by
one, what the instruction leaves pending goes in last with landing count `shadow`, and the strand stands at the next word. -/
def Strand.stepped (t : Strand) (len shadow : Nat) (acts : List Landing) : Strand :=
  { t with
    pend := t.pend.map (fun p => { p with count := p.count - 1 }) ++
      (match acts with
        | [] => []
        | _ => [⟨acts, shadow, false, t.pos, false⟩])
    pc := t.pc + BitVec.ofNat 57 (2 * len)
    pos := t.pos + len }

/-- The state after an S word of `len` parcels that left `acts` pending at landing count `shadow`. -/
def State.afterS (s : State) (len shadow : Nat) (acts : List Landing) : State :=
  s.setWk (s.wk.setStrand .S (s.wk.strands.s.stepped len shadow acts))

/-- The state after an S word of `len` parcels that wrote scalar `d` at once (shadow 0). -/
def State.wroteS (s : State) (len : Nat) (d : BitVec 5) (v : Word) : State :=
  (s.setWk (s.wk.snow d.toNat v)).afterS len 0 []

/-- The state after S has made a configuration write (R22): S's own view has it; each other strand has it in its queue, to
apply when it reaches `due`. -/
def State.posted (s : State) (due : Nat) (c : ConfW) : State :=
  let w := s.wk
  let q := fun (t : Strand) => { t with confq := t.confq ++ [⟨due, c⟩] }
  s.setWk
    { w with
      strands := ⟨{ w.strands.s with view := w.strands.s.view.apply w.spad c }, q w.strands.l, q w.strands.v, q w.strands.m,
        q w.strands.w⟩ }

/-- Where a configuration write of an S word of `len` parcels falls due: after the word; in a handler at the trap point, so that
the other strands have it when they go on (R22, R314). -/
def State.dueAt (s : State) (len : Nat) : Nat := if s.wk.inHandler then s.wk.stopPos else s.wk.strands.s.pos + len

/-- The state after a predicate write of an S word of two parcels; a write to p15 is discarded (R35, R86). -/
def State.wroteP (s : State) (p : Nat) (b : Bool) : State :=
  (if p = 15 then s else s.posted (s.dueAt 2) (.pred p b)).afterS 2 0 []

/-- The state with which an E64 instruction of engine `e` works: where it pops tokens, its strand has acquired at core scope
(R24). -/
def State.gained (s : State) (e : Eng) (f : E64) : State := if (tokPops e f.tk).isEmpty then s else s.acquire 1

/-- The state once an E64 instruction of engine `e` has popped its tokens (R23). -/
def State.popped (s : State) (e : Eng) (f : E64) : State :=
  s.setWk ((tokPops e f.tk).foldl (fun w q => w.setTokens q (w.tokensIn q - 1)) s.wk)

/-- The state after an E64 instruction of engine `e` has issued with its tokens popped before: `acts` and after them the tokens it
pushes (R23) are pending at landing count `shadow`. -/
def State.issuedE (s : State) (e : Eng) (f : E64) (shadow : Nat) (acts : List Landing) : State :=
  s.setWk (s.wk.setStrand e ((s.wk.strands.get e).stepped 4 shadow (acts ++ (tokPushes e f.tk).map .token)))

/-- The state after an E64 instruction of engine `e` (R23): its tokens are popped, `acts` and the tokens it pushes pending. -/
def State.afterE (s : State) (e : Eng) (f : E64) (shadow : Nat) (acts : List Landing) : State :=
  (s.popped e f).issuedE e f shadow acts

/-! ## What stays -/

/-- Everything of the device outside the worker in turn, and of that worker everything outside its scalars and its strands, is as
before. -/
structure Same.Outside (s t : State) : Prop where
  device : t = { s with workers := t.workers }
  others : ∀ k, k ≠ s.curKey → t.worker? k = s.worker? k
  worker : t.wk = { s.wk with sregs := t.wk.sregs, strands := t.wk.strands }

/-- Every byte of physical memory, and of the worker's scratchpad, reads as before. -/
def Same.memory (s t : State) : Prop :=
  (∀ a, t.physByte a = s.physByte a) ∧ ∀ a, t.wk.spad.read a = s.wk.spad.read a

/-! ## Control (R16, R18, R19) -/

/-- A boundary of the strand of engine `e` keeps inside the slip window (R21); in a handler S's boundaries are free (R314). -/
def State.slipFree (s : State) (e : Eng) : Prop :=
  (e = .S ∧ s.wk.inHandler = true) ∨
    ∀ d ∈ [Eng.S, .L, .V, .M, .W], (s.wk.strands.get e).dbn + 1 ≤ (s.wk.strands.get d).dbn + (s.wk.strands.get e).view.slip

/-- A strand after a taken transfer by its control word of `len` parcels (R19, R20, R27): it stands at the target with the
stack given, has passed a boundary, and its pending writes are interlocked (R27). -/
def Strand.transferred (t : Strand) (len : Nat) (target : PAddr) (stack : List Block) (counts : Bool) : Strand :=
  { t with
    pc := target, pos := t.pos + len, stack := stack, dbn := if counts then t.dbn + 1 else t.dbn
    pend := t.pend.map fun p => { p with count := 0, lock := true } }

/-- The state after S posts an outcome to L, V, M and W; a handler posts none (R16, R314). -/
def State.told (s : State) (o : CtlOut) : State :=
  let w := s.wk
  let q := fun (t : Strand) => { t with outq := t.outq ++ [o] }
  if w.inHandler then s
  else s.setWk { w with strands := ⟨w.strands.s, q w.strands.l, q w.strands.v, q w.strands.m, q w.strands.w⟩ }

/-- The state after S's taken transfer: the outcome posted, S at the target. -/
def State.jumpedS (s : State) (len : Nat) (target : PAddr) (depth : Nat) (stack : List Block) : State :=
  let t := s.told ⟨true, target, 0, depth⟩
  t.setWk (t.wk.setStrand .S (t.wk.strands.s.transferred len target stack (!s.wk.inHandler)))

/-- Depth at which the blocks of S's own text start: TDEPTH in a handler (R314). -/
def State.baseS (s : State) : Nat := if s.wk.inHandler then s.wk.sup.tdepth else 0

/-- The link that a call of `len` parcels writes to s31: the address after it, and in bits 59 to 57 the block-stack depth (R19;
in a handler at depth 8 its low three bits, log 56). -/
def State.link (s : State) (len : Nat) : Word :=
  BitVec.ofNat 64 ((s.st.pc + BitVec.ofNat 57 (2 * len)).toNat + s.st.stack.length % 8 * 2 ^ 57)

/-! ## Rounding (R69, R71) -/

/-- `y` is the magnitude m · 2^e of a value, negative under `neg`, brought to a multiple of 2^q in a mode: y0 is the value cut
off, and the mode takes y0 or the next multiple away from zero. `n` is the stochastic number. -/
def Rounds (rm : Nat) (neg : Bool) (m : Nat) (e q : Int) (n y : Nat) : Prop :=
  let k := (q - e).toNat
  let y0 := if q ≤ e then m * 2 ^ (e - q).toNat else m / 2 ^ k
  let r := if q ≤ e then 0 else m % 2 ^ k
  let up : Prop := r ≠ 0 ∧
    match rm with
    | 0 => 2 ^ k < 2 * r ∨ 2 * r = 2 ^ k ∧ y0 % 2 = 1
    | 1 => False
    | 2 => neg = false
    | 3 => neg = true
    | 4 => 2 ^ k ≤ 2 * r
    | _ => 2 ^ 32 ≤ r * 2 ^ 32 / 2 ^ k + n
  (up → y = y0 + 1) ∧ (¬ up → y = y0)

/-! ## Number formats (R66, R68) -/

/-- A float format: its code, mantissa and exponent bits, exponent of the last place of a subnormal, greatest finite magnitude
`top` · 2^`topExp`, and the patterns of that magnitude, of +∞ and of the canonical NaN. -/
structure FloatRow where
  fmt : Nat
  mant : Nat
  expo : Nat
  low : Int
  top : Nat
  topExp : Int
  max : Nat
  inf : Nat
  nan : Nat
  deriving DecidableEq, Repr

/-- The table of R66; e4m3 (code 3) has no infinity. -/
def floatRows : List FloatRow :=
  [⟨0, 23, 8, -149, 2 ^ 24 - 1, 104, 0x7F7FFFFF, 0x7F800000, 0x7FC00000⟩,
   ⟨1, 7, 8, -133, 255, 120, 0x7F7F, 0x7F80, 0x7FC0⟩,
   ⟨2, 10, 5, -24, 2047, 5, 0x7BFF, 0x7C00, 0x7E00⟩,
   ⟨3, 3, 4, -9, 7, 6, 0x7E, 0, 0x7F⟩,
   ⟨4, 2, 5, -16, 7, 13, 0x7B, 0x7C, 0x7E⟩]

/-- A pattern of a float format with FTZ, if set, taken: a subnormal is a zero of its sign (R72). -/
def FloatRow.flush (r : FloatRow) (ftz : Bool) (v : Nat) : Nat :=
  if ftz ∧ v / 2 ^ r.mant % 2 ^ r.expo = 0 then v / 2 ^ (r.mant + r.expo) * 2 ^ (r.mant + r.expo) else v

/-- The integer formats (R55, R68): code, whether signed, width. -/
def intRows : List (Nat × Bool × Nat) :=
  [(5, true, 8), (6, true, 16), (7, true, 32), (8, true, 64), (9, false, 8), (10, false, 16), (11, false, 32), (12, false, 64)]

/-- The number behind a finite exact value; 0 for the others. -/
def XReal.val : XReal → ℚ
  | .fin neg m e _ => (if neg then -1 else 1) * m * 2 ^ e
  | _ => 0

/-- One value counts below another for a minimum or maximum: it is less, or −0 beside +0 (R90, R111). -/
def XReal.Below (x y : XReal) : Prop := x.cmp y = some .lt ∨ x.cmp y = some .eq ∧ x.sign = true ∧ y.sign = false

/-- A finite value, known exactly. -/
def XReal.exact (x : XReal) : Prop := ∃ neg m e, x = .fin neg m e false

/-- The least k in e, e + 1, …, e + 3, none above 127, for which `p` holds (the loop of R77). -/
def Fits (p : Int → Prop) (e k : Int) : Prop := e ≤ k ∧ k ≤ min 127 (e + 3) ∧ p k ∧ ∀ j, e ≤ j → j < k → ¬ p j

/-! ## Maps (R44) -/

/-- Old slot axes (size, TGT, STEP), all of size above 1, turn into new sizes with the descriptors given: kept, split or merged.
-/
inductive Matched : List (Nat × Nat × Int) → List Nat → List (Nat × Int) → Prop
  | none : Matched [] [] []
  | keep (g t : Nat) (σ : Int) {os ns ds} : Matched os ns ds → Matched ((g, t, σ) :: os) (g :: ns) ((t, σ) :: ds)
  | split (t : Nat) (σ : Int) (hs : List Nat) {os ns ds} : 2 ≤ hs.length → Matched os ns ds →
    Matched ((hs.prod, t, σ) :: os) (hs ++ ns)
      ((List.range hs.length).map (fun k => (t, if t = 7 then 0 else σ * ((hs.take k).prod : Nat))) ++ ds)
  | merge (g t : Nat) (σ : Int) (as : List (Nat × Nat × Int)) {os ns ds} : 1 ≤ as.length →
    List.IsChain (fun a b => a.2.1 = 7 ∧ b.2.1 = 7 ∨ a.2.1 ≠ 7 ∧ b.2.1 = a.2.1 ∧ b.2.2 = a.2.2 * (a.1 : Int)) ((g, t, σ) :: as) →
    Matched os ns ds →
    Matched ((g, t, σ) :: as ++ os) ((g * (as.map Prod.fst).prod) :: ns) ((t, if t = 7 then 0 else σ) :: ds)

/-! ## V (R108, R109, R122) -/

/-- Slot `i` is a slot of the shape in force, and the mask that MK names lets it be active (R109). -/
def State.active (t : State) (f : E64) (i : Nat) : Prop := i < t.view.shape.slots ∧ activeIn (t.maskOf f.lo3) i = true

/-- Packed slots of a result at a width: `val` in the active slots; in the others zero under ZM or for a queue, and else what the
destination held (R109). -/
def State.took (t : State) (f : E64) (d : BitVec 8) (w : Nat) (val : Nat → Nat) : Nat :=
  packSlots w ((List.range t.view.shape.slots).map fun i =>
    if activeIn (t.maskOf f.lo3) i then val i
    else if f.zm || isQ d then 0
    else slotOf (t.vreg d).data.toNat w i)

/-- The state after a V instruction whose sources left `t`: its result, without sideband or tag and with the map given, is pending
for its destination. -/
def State.vOut (t : State) (f : E64) (w shadow : Nat) (map : CMap) (val : Nat → Nat) : State :=
  t.afterE .V f shadow [t.deliver f.d8 t.view.shape.slots w ⟨t.took f f.d8 w val, 0, none, map⟩]

/-- A lane instruction with `n` data operands at width `w` can execute: steps 7 and 8 of R59 find nothing, and reading its sources
gives `x` and leaves `t`. -/
structure Turn.Lane (f : E64) (n w : Nat) (s : State) (x : Lane) (t : State) : Prop where
  go : Turn.Go .V f s
  checks : laneChecks f [f.d8] w (s.gained .V f) = .ok ((), s.gained .V f)
  reads : readLane f n w (s.gained .V f) = .ok (x, t)

/-- An instruction of the movement layout that reads A alone can execute: steps 7 and 8 of R59 find nothing for a destination map
`g` of the source's, and reading A gives `a` and leaves `t`. -/
structure Turn.Move (f : E64) (w : Nat) (g : CMap → CMap) (s : State) (a : Src) (t : State) : Prop where
  go : Turn.Go .V f s
  checks : moveChecks f w g (s.gained .V f) = .ok ((), s.gained .V f)
  reads : readSrc f.a8 (some w) (s.gained .V f) = .ok (a, t)

/-- What a guarded-off V instruction still does with operand queues (R30): its fields, the source fields whose queues it pops
with the widths they are read at, and the width and shadow of the zero entry it pushes to a queue named as destination. -/
def Off.traffic : Instr → Option (E64 × List (BitVec 8 × Option Nat) × Nat × Nat)
  | .vadd f | .vsub f | .vmul f | .vmin f | .vmax f => some (f, laneOff f 2 (fmtWidth f.top2), fmtWidth f.top2, 2)
  | .vfma f | .vfms f | .vfnma f => some (f, laneOff f 3 (fmtWidth f.top2), fmtWidth f.top2, 2)
  | .vabs f | .vneg f => some (f, laneOff f 1 (fmtWidth f.top2), fmtWidth f.top2, 2)
  | .vdiv f => some (f, laneOff f 2 (fmtWidth f.top2), fmtWidth f.top2, 4)
  | .vsqrt f | .vrcp f | .vrsq f | .vexp2 f | .vlog2 f | .vtanh f | .vsincos f =>
    some (f, laneOff f 1 (fmtWidth f.top2), fmtWidth f.top2, 4)
  | .viadd f | .visub f | .vimul f | .vimulh f | .viand f | .vior f | .vixor f | .vishl f | .vishr f | .visra f | .vimin f
  | .vimax f => some (f, laneOff f 2 (tyWidth f.top2), tyWidth f.top2, 2)
  | .vipopc f => some (f, laneOff f 1 (tyWidth f.top2), tyWidth f.top2, 2)
  | .vsel f => some (f, laneOff f (if f.lo3 = 7 then 1 else 2) (fmtWidth f.top2), fmtWidth f.top2, 2)
  | .vcvt f =>
    some (f, (f.a8, some (fmtWidth (bits f.c8.toNat 0 5))) :: (if f.ms = 1 then [(f.b8, none)] else []), fmtWidth f.fmt5.toNat, 2)
  | .vqnt f => some (f, [(f.a8, some (fmtWidth (bits f.c8.toNat 0 5)))], fmtWidth f.fmt5.toNat, 3)
  | .vdq f =>
    some (f, (f.a8, some (fmtWidth (dqFmt (bits f.c8.toNat 4 4)))) :: (if f.ms = 1 then [(f.b8, none)] else []),
      fmtWidth f.fmt5.toNat, 2)
  | .vcrd f => some (f, [(f.a8, none)], ewWidth f, 1)
  | .vnoise f => some (f, [(f.a8, none)], ewWidth f, 2)
  | .vrot f => some (f, [(f.a8, some (fmtWidth f.top2))], fmtWidth f.top2, 4)
  | .vgbias f => some (f, [(f.a8, some 32)], 32, 2)
  | .vmov f | .vtrn f | .vresh f | .vcompact f => some (f, [(f.a8, some (ewWidth f))], ewWidth f, 1)
  | .vslice f | .vshift f | .vbcast f => some (f, [(f.a8, some (ewWidth f)), (f.b8, some 64)], ewWidth f, 1)
  | .vperm f => some (f, [(f.a8, some (ewWidth f)), (f.b8, some 32)], ewWidth f, 1)
  | .vexpand f => some (f, laneOff f 1 (ewWidth f), ewWidth f, 1)
  | .vrsum f | .vrmax f | .vrmin f | .vscan f | .vxscan f => some (f, [(f.a8, some (ewWidth f))], ewWidth f, 3)
  | .vrargmax f => some (f, [(f.a8, some (ewWidth f))], 32, 3)
  | _ => none

/-- What a destination D and its companion C leave pending (R139): one landing writes both registers; D's map is EXPLICIT on C
with the extents of the source's map, or LOST without a companion. -/
def State.pairActs (t : State) (d c : BitVec 8) (w : Nat) (data comp : List Nat) (m : CMap) : List Landing :=
  let g := t.view.shape.slots
  let l := t.deliver d g w ⟨packSlots w data, 0, none, if isV c then m.onCompanion t.view.shape (t.phys c) else .lost⟩
  let k := t.deliver c g 32 ⟨packSlots 32 comp, 0, none, .lost⟩
  if isV c then
    match l, k with
    | .vregs x, .vregs y => [.vregs (x ++ y)]
    | _, _ => [k, l]
  else [l]

/-- The active slots of the line of slot `i` along axis `j`, lowest first (R141). -/
def State.line (t : State) (f : E64) (j i : Nat) : List Nat :=
  ((List.range (t.view.shape.size j)).map (t.view.shape.moveTo j i)).filter (activeIn (t.maskOf f.lo3))

/-! ## Sheaves (R215, R219, R220) -/

/-- A value rounded to f32, nearest even. -/
def f32Near (ftz : Bool) (x : XReal) : XReal := readNum 0 false (convTo 0 0 false ftz 0 x).bits

/-- Dimension `k` of the centroid of entry `i` (R219); a free value where a program has brought COUNT to 0 (log 61). -/
def Worker.cen (w : Worker) (h : Sheaf) (ftz : Bool) (i k : Nat) : XReal :=
  let c := w.cell (h.base.toNat + i * (h.dim.toNat + 1) + k)
  let n := (w.cell (h.base.toNat + i * (h.dim.toNat + 1) + h.dim.toNat)).toNat % 2 ^ 64
  let x := cellValue h.anchor.toInt c
  if n = 0 ∧ x.isFin = true then readNum 0 false (Config.emptyCentroid c h.anchor.toInt).toNat
  else f32Near ftz (x.div (.fin false n 0 false))

/-- dist (metric 0) or score (metric 1) of a key to entry `i` (R219). -/
def Worker.dist (w : Worker) (h : Sheaf) (ftz : Bool) (x : Nat → XReal) (i : Nat) : XReal :=
  f32Near ftz <| ((List.range h.dim.toNat).map fun k =>
    let c := w.cen h ftz i k
    if h.metric = 0 then
      let d := f32Near ftz (XReal.add false (x k) c.neg)
      f32Near ftz (d.mul d)
    else (x k).mul c).foldl (XReal.add false) (.fin false 0 0 false)

/-- Measure `a` is nearer than `b` (R219): NaN is nearer than nothing. -/
def Sheaf.Nearer (h : Sheaf) (a b : XReal) : Prop :=
  a ≠ .nan ∧ (b = .nan ∨ a.cmp b = some (if h.metric = 0 then .lt else .gt))

/-- Entry `i` is in use (R215). -/
def Worker.Valid (w : Worker) (h : Sheaf) (i : Nat) : Prop :=
  i < h.cap.toNat ∧ (w.cell (h.base.toNat + i * (h.dim.toNat + 1) + h.dim.toNat)).getLsbD 64 = true

/-- Entry `i` is the lowest free one. -/
def Worker.LowestFree (w : Worker) (h : Sheaf) (i : Nat) : Prop :=
  i < h.cap.toNat ∧ ¬ w.Valid h i ∧ ∀ j < i, w.Valid h j

/-- Entry `n` is the nearest valid one; a tie goes to the lower index (R219). -/
def Worker.Nearest (w : Worker) (h : Sheaf) (ftz : Bool) (x : Nat → XReal) (n : Nat) : Prop :=
  w.Valid h n ∧ ∀ j, w.Valid h j →
    (j < n → h.Nearer (w.dist h ftz x n) (w.dist h ftz x j)) ∧ (n < j → ¬ h.Nearer (w.dist h ftz x j) (w.dist h ftz x n))

/-- (i, j) is the closest pair of valid entries; a tie goes to the lexicographically lowest (R219). -/
def Worker.Closest (w : Worker) (h : Sheaf) (ftz : Bool) (i j : Nat) : Prop :=
  let m := fun (a b : Nat) => w.dist h ftz (w.cen h ftz a) b
  w.Valid h i ∧ w.Valid h j ∧ i < j ∧ ∀ a b, w.Valid h a → w.Valid h b → a < b →
    (a < i ∨ a = i ∧ b < j → h.Nearer (m i j) (m a b)) ∧ (i < a ∨ i = a ∧ j < b → ¬ h.Nearer (m a b) (m i j))

/-- `t` is `w` but for its cells; those of entry `i` are made of its old ones, COUNT and VALID as given (R215). -/
structure Worker.Entry (w : Worker) (h : Sheaf) (i : Nat) (sum : Nat →
  BitVec 256) (count : Nat) (valid : Bool) (t : Worker) : Prop where
  sums : ∀ k < h.dim.toNat, t.cell (h.base.toNat + i * (h.dim.toNat + 1) + k) = sum k
  count : (t.cell (h.base.toNat + i * (h.dim.toNat + 1) + h.dim.toNat)).toNat = min count (2 ^ 64 - 1) + if valid then 2 ^ 64 else 0
  others : ∀ c, (c < h.base.toNat + i * (h.dim.toNat + 1) ∨ h.base.toNat + (i + 1) * (h.dim.toNat + 1) ≤ c) → t.cell c = w.cell c
  rest : t = { w with cells := t.cells }

/-- An event of the M strand in turn on the cells it has searched: what it changes is one write of M, its cells under one number;
every cell that changes has its record, and M has seen the newest of what it searched (R212, R224). Nothing else of the device
changes but error marks of cells. -/
structure Sheaf.OneWrite (s q : State) (cells : List Nat) : Prop where
  rest : q = { s with
    workers := q.workers, writes := q.writes, softLocal := q.softLocal, badLocal := q.badLocal, mended := q.mended }
  others : ∀ k, k ≠ s.curKey → q.worker? k = s.worker? k
  worker : q.wk = { s.wk with cells := q.wk.cells }
  record : ∃ new, q.writes = new ++ ((s.mendCells cells).readCells cells).writes ∧
    (∀ x ∈ new, x.spot = .cell s.curKey ∧ x.who = some ⟨s.curKey, .strand s.curEng⟩ ∧ x.pos = s.st.pos ∧ x.reach = [] ∧
      x.done = false ∧
      x.id = s.nextWrite) ∧
    ∀ c, q.wk.cell c ≠ s.wk.cell c → ∃ x ∈ new, x.line = c
  seen : ∀ x ∈ ((s.mendCells cells).readCells cells).writes, x.spot = .cell s.curKey → x.line ∈ cells →
    x.edit.meets 0 32 = true → (⟨s.curKey, .strand s.curEng⟩ : Who) ∈ x.seenBy ∨ x.who = some ⟨s.curKey, .strand s.curEng⟩

/-- absorb(n, y) (R220). -/
def Worker.Absorbed (w : Worker) (h : Sheaf) (n : Nat) (y : Nat → XReal) (t : Worker) : Prop :=
  let at_ := h.base.toNat + n * (h.dim.toNat + 1)
  w.Entry h n (fun k => admitTerm h.anchor.toInt (y k) (w.cell (at_ + k)))
    ((w.cell (at_ + h.dim.toNat)).toNat % 2 ^ 64 + 1) true t

/-- open(n, y) (R220). -/
def Worker.Opened (w : Worker) (h : Sheaf) (n : Nat) (y : Nat → XReal) (t : Worker) : Prop :=
  w.Entry h n (fun k => admitTerm h.anchor.toInt (y k) 0) 1 true t

/-- merge(i, j) (R220): by way of the state in which entry i has taken up entry j. -/
def Worker.Merged (w : Worker) (h : Sheaf) (i j : Nat) (t : Worker) : Prop :=
  let cell := fun (n k : Nat) => (w.cell (h.base.toNat + n * (h.dim.toNat + 1) + k)).toNat
  ∃ m, w.Entry h i (fun k => BitVec.ofNat 256 ((cell i k + cell j k) % 2 ^ 240 +
      2 ^ 240 * (cell i k / 2 ^ 240 % 32 ||| cell j k / 2 ^ 240 % 32)))
      (cell i h.dim.toNat % 2 ^ 64 + cell j h.dim.toNat % 2 ^ 64) true m ∧
    m.Entry h j (fun _ => 0) 0 false t

/-! ## L and W (R154 to R159) -/

/-- The state after the strand in turn has put its own copy of the furrow that a field names. -/
def State.putFurrow (s : State) (x : BitVec 8) (u : Furrow) : State :=
  s.modSt fun t => { t with view := t.view.setFurrow x.toNat u }

/-- The conditions of an image instruction through furrow `u` in format `eff` (R59 step 8, R157). -/
def Furrow.imageOk (u : Furrow) (eff : Nat) (sh : Shape) : Prop :=
  u.legal eff = true ∧ sh.fits (fmtWidth eff) = true ∧ u.indOk sh = true

/-- Table entry `j` of an indirect furrow as a capture of it finds it (R157). -/
def Furrow.entryIn (u : Furrow) (spad : Memory) (j : Nat) : Capture :=
  let a := u.itab.toNat % 2 ^ 19 + u.entrySize * j
  if a + u.entrySize ≤ 2 ^ 19 then .value (BitVec.ofNat 64 (spad.nat a u.entrySize)) else .absent

/-- The state after a source field has been read at a width: an operand queue is popped (R32). -/
def State.afterRead (s : State) (x : BitVec 8) (w : Nat) : State :=
  match readSrc x (some w) s with
  | .ok (_, p) => p
  | .error _ => s

/-- The elements and scale bytes that an access `k` to `es` through furrow `u` touches, with their places, as its checks find them
(R159); none where a check fails. -/
def State.touched (s : State) (u : Furrow) (k : Access) (eff len : Nat) (es : List (Nat × Quad Nat)) : List Touch :=
  match plan u k eff len none es s with
  | .ok (l, _) => l
  | .error _ => []

/-- What remains of the records of a line, newest first, for an agent that misses some: a sum stands on every plain write before
it (R261, R272). -/
inductive Kept (sees : Write → Bool) : Bool → List Write → List Write → Prop
  | none (sum : Bool) : Kept sees sum [] []
  | keep (sum : Bool) (u : Write) {l k : List Write} : (sees u = true ∨ sum = true ∧ u.edit.isAdd = false) →
    Kept sees (sum || u.edit.isAdd) l k → Kept sees sum (u :: l) (u :: k)
  | miss (sum : Bool) (u : Write) {l k : List Write} : ¬ (sees u = true ∨ sum = true ∧ u.edit.isAdd = false) →
    Kept sees sum l k → Kept sees sum (u :: l) k

/-- What a reader may find in a place (R267): with no record of its line, what memory holds; else what the line held before the
oldest record, with the edits of the records that it sees, in coherence order. It sees every one that it cannot miss. -/
def State.mayFind (s : State) (a : Reader) (p : Place) (n v : Nat) : Prop :=
  match p.line? with
  | none => v = s.readPlace p n
  | some (x, l, b) =>
    match (s.lineLog x l).getLast? with
    | none => v = s.readPlace p n
    | some u0 => ∃ sees k, (∀ u ∈ s.lineLog x l, a.must u = true → sees u = true) ∧ Kept sees false (s.lineLog x l) k ∧
      v = k.foldr (fun u v => u.edit.run v) u0.old / 2 ^ (8 * b) % 2 ^ (8 * n)

/-- What the strand in turn may find in a place. -/
def State.maySee (s : State) (p : Place) (n v : Nat) : Prop := s.mayFind (s.reader p) p n v

/-- Two places share no byte. -/
def Place.apart (p : Place) (n : Nat) (q : Place) (m : Nat) : Prop :=
  match p, q with
  | .phys x, .phys y => x.addr + n ≤ y.addr ∨ y.addr + m ≤ x.addr
  | .spad k a, .spad j b => k = j → a + n ≤ b ∨ b + m ≤ a
  | _, _ => True

end Sys2Proof.Machine
end

