-- ==== Sys2Proof/Certificates/Slice0/Obligations.lean ====
section
/-! DEFINITION. The statements for the provers. -/
open Sys2Proof Sys2Proof.Machine

/-! ## S: scalars -/

/-- R88: division never faults. A quotient by 0 is all ones and the remainder then sA; −2^63 by −1 gives −2^63 and 0; a division
by anything else completes too. -/
def Obligations.DivisionNeverFaults : Prop :=
  ∀ (s : State) (g : Guard) (d a b : BitVec 5), Turn.Ready .S s → s.view.guard g = true →
    let x := s.wk.sget a.toNat
    let y := s.wk.sget b.toNat
    let gives := fun (i : Instr) (v : Word) => exec i s = .next (s.wroteS 2 d v)
    (y = 0 →
      gives (.sdiv g d a b) (BitVec.ofInt 64 (-1)) ∧ gives (.sdivn g d a b) (BitVec.ofNat 64 (2 ^ 64 - 1)) ∧
      gives (.srem g d a b) x ∧ gives (.sremn g d a b) x) ∧
    (x.toInt = -2 ^ 63 → y.toInt = -1 →
      gives (.sdiv g d a b) (BitVec.ofInt 64 (-2 ^ 63)) ∧ gives (.srem g d a b) 0) ∧
    ∀ i ∈ [Instr.sdiv g d a b, .sdivn g d a b, .srem g d a b, .sremn g d a b], ∃ v, gives i v

/-- R87, R88: every two-operand integer instruction of S writes its result to sD at once, with division that never faults. -/
def Obligations.ScalarIntegerResults : Prop :=
  ∀ (s : State) (g : Guard) (d a b : BitVec 5), Turn.Ready .S s → s.view.guard g = true →
    let x := s.wk.sget a.toNat
    let y := s.wk.sget b.toNat
    let n := y.toNat % 64
    exec (.sadd g d a b) s = .next (s.wroteS 2 d (BitVec.ofNat 64 (x.toNat + y.toNat))) ∧
    exec (.ssub g d a b) s = .next (s.wroteS 2 d (BitVec.ofInt 64 (x.toInt - y.toInt))) ∧
    exec (.smul g d a b) s = .next (s.wroteS 2 d (BitVec.ofNat 64 (x.toNat * y.toNat))) ∧
    exec (.smulh g d a b) s = .next (s.wroteS 2 d (BitVec.ofInt 64 (x.toInt * y.toInt / 2 ^ 64))) ∧
    exec (.smulhn g d a b) s = .next (s.wroteS 2 d (BitVec.ofNat 64 (x.toNat * y.toNat / 2 ^ 64))) ∧
    exec (.sdiv g d a b) s =
      .next (s.wroteS 2 d (if y = 0 then BitVec.allOnes 64 else BitVec.ofInt 64 (x.toInt.tdiv y.toInt))) ∧
    exec (.sdivn g d a b) s =
      .next (s.wroteS 2 d (if y = 0 then BitVec.allOnes 64 else BitVec.ofNat 64 (x.toNat / y.toNat))) ∧
    exec (.srem g d a b) s = .next (s.wroteS 2 d (if y = 0 then x else BitVec.ofInt 64 (x.toInt.tmod y.toInt))) ∧
    exec (.sremn g d a b) s = .next (s.wroteS 2 d (if y = 0 then x else BitVec.ofNat 64 (x.toNat % y.toNat))) ∧
    exec (.sand g d a b) s = .next (s.wroteS 2 d (x &&& y)) ∧
    exec (.sor g d a b) s = .next (s.wroteS 2 d (x ||| y)) ∧
    exec (.sxor g d a b) s = .next (s.wroteS 2 d (x ^^^ y)) ∧
    exec (.sandn g d a b) s = .next (s.wroteS 2 d (x &&& ~~~y)) ∧
    exec (.sshl g d a b) s = .next (s.wroteS 2 d (BitVec.ofNat 64 (x.toNat * 2 ^ n))) ∧
    exec (.sshr g d a b) s = .next (s.wroteS 2 d (BitVec.ofNat 64 (x.toNat / 2 ^ n))) ∧
    exec (.ssra g d a b) s = .next (s.wroteS 2 d (BitVec.ofInt 64 (x.toInt / 2 ^ n))) ∧
    exec (.smin g d a b) s = .next (s.wroteS 2 d (BitVec.ofInt 64 (min x.toInt y.toInt))) ∧
    exec (.smax g d a b) s = .next (s.wroteS 2 d (BitVec.ofInt 64 (max x.toInt y.toInt))) ∧
    exec (.sminn g d a b) s = .next (s.wroteS 2 d (BitVec.ofNat 64 (min x.toNat y.toNat))) ∧
    exec (.smaxn g d a b) s = .next (s.wroteS 2 d (BitVec.ofNat 64 (max x.toNat y.toNat)))

/-- R87, R89, R338: the one-operand, conditional and immediate integer instructions of S. -/
def Obligations.ScalarUnaryAndImmediateResults : Prop :=
  ∀ (s : State) (g : Guard) (d a b : BitVec 5) (i : BitVec 10) (f : S64), Turn.Ready .S s → s.view.guard g = true → f.g = g →
    let x := s.wk.sget a.toNat
    let o := s.wk.sget d.toNat
    let k := i.signExtend 64
    exec (.sclz g d a) s = .next (s.wroteS 2 d (if x = 0 then 64 else BitVec.ofNat 64 (63 - Nat.log2 x.toNat))) ∧
    exec (.spopc g d a) s = .next (s.wroteS 2 d (BitVec.ofNat 64 ((List.range 64).countP x.getLsbD))) ∧
    exec (.scmov g d a b) s =
      .next (if s.wk.sget b.toNat = 0 then s.afterS 2 0 [] else s.wroteS 2 d x) ∧
    exec (.saddi g d i) s = .next (s.wroteS 2 d (o + k)) ∧
    exec (.sli g d i) s = .next (s.wroteS 2 d k) ∧
    exec (.slui g d i) s = .next (s.wroteS 2 d (BitVec.ofNat 64 (o.toNat * 2 ^ 10 + i.toNat))) ∧
    exec (.sandi g d i) s = .next (s.wroteS 2 d (o &&& k)) ∧
    exec (.sori g d i) s = .next (s.wroteS 2 d (o ||| k)) ∧
    exec (.sxori g d i) s = .next (s.wroteS 2 d (o ^^^ k)) ∧
    (i.toNat < 64 →
      exec (.sshli g d i) s = .next (s.wroteS 2 d (BitVec.ofNat 64 (o.toNat * 2 ^ i.toNat))) ∧
      exec (.sshri g d i) s = .next (s.wroteS 2 d (BitVec.ofNat 64 (o.toNat / 2 ^ i.toNat))) ∧
      exec (.ssrai g d i) s = .next (s.wroteS 2 d (BitVec.ofInt 64 (o.toInt / 2 ^ i.toNat)))) ∧
    exec (.sli32 f) s = .next (s.wroteS 4 f.d (f.imm.signExtend 64)) ∧
    exec (.saddi32 f) s = .next (s.wroteS 4 f.d (s.wk.sget f.a.toNat + f.imm.signExtend 64))

/-- (1) R90: the f32 instructions of S round once to nearest even under the FTZ in force and leave bits 63 to 32 zero; sfmin and
sfmax deliver an input; scvtfi truncates and clamps, a NaN giving 0. (2) R90, R111: the smaller or larger of two patterns of f32,
bf16 or f16 is one of them after FTZ, −0 counting below +0; one NaN gives the other pattern, two give the canonical NaN. (3) R90:
values compare by their order, the infinities outermost and the zeros equal; a NaN is unordered. -/
def Obligations.ScalarFloatResults : Prop :=
  (∀ (s : State) (g : Guard) (d a b : BitVec 5), Turn.Ready .S s → s.view.guard g = true →
    let z := s.view.ftz
    let lo := fun (r : BitVec 5) => (s.wk.sget r.toNat).toNat % 2 ^ 32
    let x := readF32 z (lo a)
    let y := readF32 z (lo b)
    let once := fun (v : XReal) => (BitVec.ofNat 32 (roundF32 z v)).zeroExtend 64
    exec (.sfadd g d a b) s = .next (s.wroteS 2 d (once (x.add false y))) ∧
    exec (.sfsub g d a b) s = .next (s.wroteS 2 d (once (x.add false y.neg))) ∧
    exec (.sfmul g d a b) s = .next (s.wroteS 2 d (once (x.mul y))) ∧
    exec (.sfmin g d a b) s = .next (s.wroteS 2 d ((BitVec.ofNat 32 (minMaxBits 0 z false (lo a) (lo b))).zeroExtend 64)) ∧
    exec (.sfmax g d a b) s = .next (s.wroteS 2 d ((BitVec.ofNat 32 (minMaxBits 0 z true (lo a) (lo b))).zeroExtend 64)) ∧
    exec (.scvtif g d a) s = .next (s.wroteS 2 d (once (.ofInt (s.wk.sget a.toNat).toInt))) ∧
    exec (.scvtfi g d a) s = .next (s.wroteS 2 d (BitVec.ofNat 64 (convTo 8 1 true false 0 x).bits))) ∧
  (∀ r ∈ floatRows, r.fmt < 3 → ∀ (z mx : Bool) (a b : Nat), a < 2 ^ (r.mant + r.expo + 1) → b < 2 ^ (r.mant + r.expo + 1) →
    let x := readNum r.fmt z a
    let y := readNum r.fmt z b
    let m := minMaxBits r.fmt z mx a b
    (x = .nan → y = .nan → m = r.nan) ∧ (x = .nan → y ≠ .nan → m = r.flush z b) ∧ (x ≠ .nan → y = .nan → m = r.flush z a) ∧
    (x ≠ .nan → y ≠ .nan → (m = r.flush z a ∨ m = r.flush z b) ∧
      (x.Below y → m = if mx then r.flush z b else r.flush z a) ∧ (y.Below x → m = if mx then r.flush z a else r.flush z b))) ∧
  (∀ x y : XReal,
    (x = .nan ∨ y = .nan → x.cmp y = none) ∧
    (x.isFin = true → y.isFin = true → x.cmp y = some (if x.val < y.val then .lt else if x.val = y.val then .eq else .gt)) ∧
    ∀ n, y ≠ .nan → (XReal.inf n).cmp y = some (if y = .inf n then .eq else if n then .lt else .gt) ∧
      y.cmp (.inf n) = some (if y = .inf n then .eq else if n then .gt else .lt))

/-- R87, R89, R90, R22: compares and predicate logic write a predicate as text-ordered configuration: S sees it at once, the
other strands at their own turn in the text; a write to p15 is discarded. -/
def Obligations.ComparesWritePredicates : Prop :=
  ∀ (s : State) (g : Guard) (d a b : BitVec 5) (p : BitVec 4) (i : BitVec 6), Turn.Ready .S s → s.view.guard g = true →
    s.configFree →
    let x := s.wk.sget a.toNat
    let y := s.wk.sget b.toNat
    let o := s.wk.sget d.toNat
    let c := (readF32 s.view.ftz (x.toNat % 2 ^ 32)).cmp (readF32 s.view.ftz (y.toNat % 2 ^ 32))
    let q := fun (n : BitVec 5) => s.view.pred n.toNat
    exec (.seq g d a b) s = .next (s.wroteP d.toNat (decide (x = y))) ∧
    exec (.sne g d a b) s = .next (s.wroteP d.toNat (decide (x ≠ y))) ∧
    exec (.slt g d a b) s = .next (s.wroteP d.toNat (decide (x.toInt < y.toInt))) ∧
    exec (.sltn g d a b) s = .next (s.wroteP d.toNat (decide (x.toNat < y.toNat))) ∧
    exec (.sle g d a b) s = .next (s.wroteP d.toNat (decide (x.toInt ≤ y.toInt))) ∧
    exec (.slen g d a b) s = .next (s.wroteP d.toNat (decide (x.toNat ≤ y.toNat))) ∧
    exec (.seqi g d p i) s = .next (s.wroteP p.toNat (decide (o.toInt = i.toInt))) ∧
    exec (.slti g d p i) s = .next (s.wroteP p.toNat (decide (o.toInt < i.toInt))) ∧
    exec (.sltni g d p i) s = .next (s.wroteP p.toNat (decide (o.toNat < i.toNat))) ∧
    exec (.sflt g d a b) s = .next (s.wroteP d.toNat (decide (c = some .lt))) ∧
    exec (.sfeq g d a b) s = .next (s.wroteP d.toNat (decide (c = some .eq))) ∧
    exec (.sfle g d a b) s = .next (s.wroteP d.toNat (decide (c = some .lt ∨ c = some .eq))) ∧
    exec (.pand g d a b) s = .next (s.wroteP d.toNat (q a && q b)) ∧
    exec (.por g d a b) s = .next (s.wroteP d.toNat (q a || q b)) ∧
    exec (.pxor g d a b) s = .next (s.wroteP d.toNat (q a ^^ q b)) ∧
    exec (.pandn g d a b) s = .next (s.wroteP d.toNat (q a && !q b))

/-- (1) R35, R26: a scalar write at shadow 0 is read back, s0 reads zero and discards its write, no other scalar changes, and
older pending writes to the same register never land. (2) R35, R86: p15 reads true whatever is written, a predicate write
changes that predicate alone, and the predicates of another strand stay until it takes the posted write (R22). -/
def Obligations.WritesReadBack : Prop :=
  (∀ (s : State) (len : Nat) (d : BitVec 5) (v : Word) (r : Nat),
    let t := s.wroteS len d v
    t.wk.sget r = (if r = 0 then 0 else if r = d.toNat then v else s.wk.sget r) ∧
    (∀ p ∈ t.wk.strands.s.pend, ∀ x, Landing.sreg d.toNat x ∉ p.acts) ∧
    t.wk.strands.s.pend.length = s.wk.strands.s.pend.length) ∧
  (∀ (s : State) (p q : Nat) (b : Bool) (e : Eng), q < 16 →
    let t := s.wroteP p b
    t.wk.strands.s.view.pred q = (if q = 15 then true else if q = p then b else s.wk.strands.s.view.pred q) ∧
    (e ≠ .S → (t.wk.strands.get e).view = (s.wk.strands.get e).view))

/-- The S instructions that R30 makes wholly inert when their guard is off, with guard and length in parcels: arithmetic,
compares, configuration, CSRs, loads and stores, knots, groups, tasks. -/
def Terms.inertOff : Instr → Option (Guard × Nat)
  | .sadd g _ _ _ | .ssub g _ _ _ | .smul g _ _ _ | .smulh g _ _ _ | .smulhn g _ _ _ | .sdiv g _ _ _ | .sdivn g _ _ _
  | .srem g _ _ _ | .sremn g _ _ _ | .sand g _ _ _ | .sor g _ _ _ | .sxor g _ _ _ | .sandn g _ _ _ | .sshl g _ _ _
  | .sshr g _ _ _ | .ssra g _ _ _ | .smin g _ _ _ | .smax g _ _ _ | .sminn g _ _ _ | .smaxn g _ _ _ | .scmov g _ _ _
  | .seq g _ _ _ | .sne g _ _ _ | .slt g _ _ _ | .sltn g _ _ _ | .sle g _ _ _ | .slen g _ _ _ | .pand g _ _ _
  | .por g _ _ _ | .pxor g _ _ _ | .pandn g _ _ _ | .sfadd g _ _ _ | .sfsub g _ _ _ | .sfmul g _ _ _ | .sfmin g _ _ _
  | .sfmax g _ _ _ | .sflt g _ _ _ | .sfeq g _ _ _ | .sfle g _ _ _ | .seqi g _ _ _ | .slti g _ _ _ | .sltni g _ _ _ =>
    some (g, 2)
  | .sclz g _ _ | .spopc g _ _ | .scvtif g _ _ | .scvtfi g _ _ | .csrr g _ _ | .csrw g _ _ | .csrs g _ _ | .csrc g _ _
  | .kadd g _ _ | .kwait g _ _ | .kread g _ _ | .kset g _ _ | .saddi g _ _ | .sli g _ _ | .slui g _ _ | .sandi g _ _
  | .sori g _ _ | .sxori g _ _ | .sshli g _ _ | .sshri g _ _ | .ssrai g _ _ | .kaddi g _ _ | .kwaiti g _ _ => some (g, 2)
  | .sqfree g _ | .sgsync g _ | .sgarr g _ | .stask g _ => some (g, 2)
  | .scommit g | .sdtrig g | .sdwait g | .smbend g => some (g, 2)
  | .sld f | .sst f | .sli32 f | .saddi32 f | .sfset f | .szset f | .shset f | .sshape f | .slaunch f | .slaydef f
  | .satinv f => some (f.g, 4)
  | _ => none

/-- R30: an arithmetic, compare, configuration, CSR, load, store, knot, group or task instruction of S that its guard holds back
only goes on to the next word: nothing is written, posted, loaded or stored. -/
def Obligations.GuardedOffIsInert : Prop :=
  ∀ (i : Instr) (g : Guard) (len : Nat) (s : State), Terms.inertOff i = some (g, len) → Turn.Ready .S s →
    s.view.guard g = false → exec i s = .next (s.afterS len 0 [])

/-- The integer and f32 instructions of S that have a destination scalar. -/
def Terms.scalarDest : Instr → Option (BitVec 5)
  | .sadd _ d _ _ | .ssub _ d _ _ | .smul _ d _ _ | .smulh _ d _ _ | .smulhn _ d _ _ | .sdiv _ d _ _ | .sdivn _ d _ _
  | .srem _ d _ _ | .sremn _ d _ _ | .sand _ d _ _ | .sor _ d _ _ | .sxor _ d _ _ | .sandn _ d _ _ | .sshl _ d _ _
  | .sshr _ d _ _ | .ssra _ d _ _ | .smin _ d _ _ | .smax _ d _ _ | .sminn _ d _ _ | .smaxn _ d _ _ | .scmov _ d _ _
  | .sfadd _ d _ _ | .sfsub _ d _ _ | .sfmul _ d _ _ | .sfmin _ d _ _ | .sfmax _ d _ _ => some d
  | .sclz _ d _ | .spopc _ d _ | .scvtif _ d _ | .scvtfi _ d _ | .saddi _ d _ | .sli _ d _ | .slui _ d _ | .sandi _ d _
  | .sori _ d _ | .sxori _ d _ | .sshli _ d _ | .sshri _ d _ | .ssrai _ d _ => some d
  | .sli32 f | .saddi32 f => some f.d
  | _ => none

/-- The compares and predicate logic of S, with the predicate they write. -/
def Terms.predDest : Instr → Option Nat
  | .seq _ d _ _ | .sne _ d _ _ | .slt _ d _ _ | .sltn _ d _ _ | .sle _ d _ _ | .slen _ d _ _ | .pand _ d _ _ | .por _ d _ _
  | .pxor _ d _ _ | .pandn _ d _ _ | .sflt _ d _ _ | .sfeq _ d _ _ | .sfle _ d _ _ => some d.toNat
  | .seqi _ _ p _ | .slti _ _ p _ | .sltni _ _ p _ => some p.toNat
  | _ => none

/-- (1) R86: what scalar arithmetic leaves alone, in every outcome with a next state (a wait included): every scalar but its
destination, every predicate and all other configuration of every strand, all memory, and everything else of the device. (2)
R86, R89: what compares and predicate logic leave alone: every scalar, every predicate of S but the one named, all memory, the
views of the other strands, and everything else of the device. -/
def Obligations.ScalarFrames : Prop :=
  (∀ (i : Instr) (d : BitVec 5) (s t : State), Terms.scalarDest i = some d → exec i s = .next t →
    Same.Outside s t ∧ Same.memory s t ∧ (∀ r, r ≠ d.toNat → t.wk.sget r = s.wk.sget r) ∧
    ∀ e, (t.wk.strands.get e).view = (s.wk.strands.get e).view ∧ (t.wk.strands.get e).stack = (s.wk.strands.get e).stack ∧
      (t.wk.strands.get e).confq = (s.wk.strands.get e).confq) ∧
  (∀ (i : Instr) (p : Nat) (s t : State), Terms.predDest i = some p → exec i s = .next t →
    Same.Outside s t ∧ Same.memory s t ∧ (∀ r, t.wk.sget r = s.wk.sget r) ∧
    (∀ q, q < 16 → q ≠ p → t.wk.strands.s.view.pred q = s.wk.strands.s.view.pred q) ∧
    t.wk.strands.s.view = { s.wk.strands.s.view with preds := t.wk.strands.s.view.preds } ∧
    ∀ e, e ≠ .S → (t.wk.strands.get e).view = (s.wk.strands.get e).view)

/-! ## S: control -/

/-- (1) R16, R19, R91, R207: a transfer of S whose guard lets it and whose target is a headland. `br` and `call` go by a parcel
offset, `jmpr` and `callr` to sA[56:0], `sbkj` to the schedule of the first bucket large enough; calls write the link to s31 and
keep the block stack, the others pop every block that does not hold the target. L, V, M and W are told. (2) R207: the schedule
that `sbkj` goes to: that of the first of BKT0 to BKT7 whose CAP is not 0 and at least sA, or BKT7's where there is none; its
offset in parcels is added to ENTRY. (3) R19: a jump pops every block whose body does not hold the target, and no others; S in a
handler leaves the program's blocks below as they are (R314). -/
def Obligations.TakenTransfers : Prop :=
  (∀ (s : State) (g : Guard) (a : BitVec 5) (f : S64), Turn.Ready .S s → s.view.guard g = true → f.g = g →
    s.outcomeFree → s.slipFree .S →
    let near := s.st.pc + BitVec.ofInt 57 (2 * f.imm.toInt)
    let far := (s.wk.sget a.toNat).extractLsb' 0 57
    let sched := bucketTarget f.a s
    let jump := fun (len : Nat) (x : PAddr) => s.jumpedS len x 0 (popBlocks s.baseS x s.st.stack)
    let call := fun (len : Nat) (x : PAddr) => (s.setWk (s.wk.snow 31 (s.link len))).jumpedS len x 0 s.st.stack
    (s.headlandAt s.wk near = true →
      exec (.br f) s = .next (jump 4 near) ∧ exec (.call f) s = .next (call 4 near)) ∧
    (s.headlandAt s.wk far = true →
      exec (.jmpr g a) s = .next (jump 2 far) ∧ exec (.callr g a) s = .next (call 2 far)) ∧
    (s.headlandAt s.wk sched = true → exec (.sbkj f) s = .next (jump 4 sched))) ∧
  (∀ (s : State) (a : BitVec 5) (i : Nat), i < 8 →
    let b := fun (n : Nat) => tabGet 0 s.view.bkt n
    let fits := fun (n : Nat) => bits (b n).toNat 0 16 ≠ 0 ∧ (s.wk.sget a.toNat).toNat ≤ bits (b n).toNat 0 16
    (fits i ∨ i = 7) → (∀ j, j < i → ¬ fits j) →
    bucketTarget a s = s.ln.entry + BitVec.ofInt 57 (2 * signed 48 ((b i).toNat / 2 ^ 16))) ∧
  (∀ (x : PAddr) (own rest : List Block),
    popBlocks rest.length x (own ++ rest) =
      own.filter (fun b => decide (b.head.toNat + 4 ≤ x.toNat ∧ x.toNat < b.fin.toNat)) ++ rest)

/-- (1) R16, R30, R91: a transfer whose guard is off posts an outcome that says so, and S goes on to the next word. (2) R19,
R91, R207: a transfer whose guard lets it and whose target is odd, or holds no headland though it can be fetched, is an illegal
instruction with subcode 2 and the target in TADDR, the schedule of `sbkj` (R207) included. (3) R28: while its in-flight write
queue is full, a strand that could transfer, enter a block or exit waits, and changes nothing. -/
def Obligations.TransfersNotTakenOrIllegal : Prop :=
  (∀ (s : State) (g : Guard) (a : BitVec 5) (f : S64), Turn.Ready .S s → s.view.guard g = false → f.g = g →
    s.outcomeFree →
    let on := fun (len : Nat) => (s.told ⟨false, 0, 0, 0⟩).afterS len 0 []
    exec (.br f) s = .next (on 4) ∧ exec (.call f) s = .next (on 4) ∧ exec (.sbkj f) s = .next (on 4) ∧
    exec (.jmpr g a) s = .next (on 2) ∧ exec (.callr g a) s = .next (on 2)) ∧
  (∀ (s : State) (g : Guard) (a : BitVec 5) (f : S64), s.live = true → s.curEng = .S → s.view.guard g = true → f.g = g →
    let near := s.st.pc + BitVec.ofInt 57 (2 * f.imm.toInt)
    let far := (s.wk.sget a.toNat).extractLsb' 0 57
    let bad := fun (x : PAddr) => x.getLsbD 0 = true ∨ ∃ p, s.fetchParcel s.wk x = .ok p ∧ isHeadland p = false
    let trap := fun (x : PAddr) => s.takeTrap .S s.st.pc ⟨1, 2, x.toNat, none⟩
    (bad near → exec (.br f) s = .next (trap near) ∧ exec (.call f) s = .next (trap near)) ∧
    (bad far → exec (.jmpr g a) s = .next (trap far) ∧ exec (.callr g a) s = .next (trap far)) ∧
    (bad (bucketTarget f.a s) → exec (.sbkj f) s = .next (trap (bucketTarget f.a s)))) ∧
  (∀ (s : State) (g : Guard) (a c : BitVec 5) (f : S64) (b : BitVec 11) (r : Bool) (n : BitVec 14), s.live = true →
    32 ≤ s.st.pend.length → f.g = g →
    let ok := fun (x : PAddr) => s.curEng = .S → s.view.guard g = true → s.headlandAt s.wk x = true
    let link := (s.wk.sget 31).toNat
    (ok (s.st.pc + BitVec.ofInt 57 (2 * f.imm.toInt)) → exec (.br f) s = .next s ∧ exec (.call f) s = .next s) ∧
    (ok ((s.wk.sget a.toNat).extractLsb' 0 57) → exec (.jmpr g a) s = .next s ∧ exec (.callr g a) s = .next s) ∧
    (ok (bucketTarget f.a s) → exec (.sbkj f) s = .next s) ∧
    ((s.curEng = .S → link / 2 ^ 57 % 8 ≤ s.st.stack.length ∧ link % 2 = 0) → exec .ret s = .next s) ∧
    ((s.curEng = .S → s.headOk b.toNat = true ∧ n ≠ 0) →
      exec (.headland b r n) s = .next s ∧ exec (.headlandCounted b r c) s = .next s) ∧
    exec .exit s = .next s)

/-- R19, R91: `ret` goes to s31[56:0] and pops the block stack down to the depth in s31[59:57]; a stack that is already lower,
or an odd address, is an illegal instruction. -/
def Obligations.RetReturns : Prop :=
  ∀ (s : State), s.live = true → s.curEng = .S → s.outcomeFree → s.slipFree .S →
    let link := (s.wk.sget 31).toNat
    let depth := link / 2 ^ 57 % 8
    (s.st.pend.length < 32 → depth ≤ s.st.stack.length → link % 2 = 0 →
      exec .ret s = .next (s.jumpedS 1 (BitVec.ofNat 57 link) depth (s.st.stack.drop (s.st.stack.length - depth)))) ∧
    (s.st.stack.length < depth ∨ link % 2 = 1 → exec .ret s = .next (s.takeTrap .S s.st.pc ⟨1, 1, 0, none⟩))

/-- R16, R19: L, V, M and W take every transfer from their outcome queues: the head outcome is popped; if it was taken the
strand goes to its target, popping blocks as S did; if not, it goes on. With nothing there the strand waits. -/
def Obligations.OtherStrandsFollow : Prop :=
  ∀ (s : State) (i : Instr) (len : Nat) (g : Guard) (a : BitVec 5) (f : S64), s.live = true → s.curEng ≠ .S →
    s.st.pend.length < 32 → s.slipFree s.curEng →
    (i = .br f ∧ len = 4 ∨ i = .sbkj f ∧ len = 4 ∨ i = .jmpr g a ∧ len = 2 ∨ i = .call f ∧ len = 4 ∨ i = .callr g a ∧ len = 2 ∨
      i = .ret ∧ len = 1) →
    match s.st.outq with
    | [] => exec i s = .next s
    | o :: r =>
      let t := { s.st with outq := r }
      let stack := match i with
        | .call _ => t.stack
        | .callr _ _ => t.stack
        | .ret => t.stack.drop (t.stack.length - o.depth)
        | _ => popBlocks 0 o.target t.stack
      exec i s = .next (s.setSt (if o.taken then t.transferred len o.target stack true else t.stepped len 0 []))

/-- (1) R16, R18, R19, R20: entering a block. S checks the body; a positive count pushes the block and goes to its first word,
past a boundary; a counted headland with count 0 goes to the end of the body; S posts the count, the other strands take it from
their outcome queues. (2) R18, R19: an illegal headland of S (no body, a body outside the enclosing one or cut by its end, REP
0, a fifth nested block) is an illegal instruction. -/
def Obligations.Headlands : Prop :=
  (∀ (s : State) (b : BitVec 11) (r : Bool) (n : BitVec 14) (c : BitVec 5), s.live = true → s.st.pend.length < 32 →
    s.slipFree s.curEng →
    let fin := s.st.pc + BitVec.ofNat 57 (4 + 2 * b.toNat)
    let enter := fun (t : Strand) (k : Nat) (counts : Bool) =>
      { t with
        stack := ⟨t.pc, fin, k, r⟩ :: t.stack, pc := t.pc + 4, pos := t.pos + 2, dbn := if counts then t.dbn + 1 else t.dbn
        pend := t.pend.map fun p => { p with count := 0, lock := true } }
    let skip := fun (t : Strand) => { t with pc := fin, pos := t.pos + 2 }
    let k := (s.wk.sget c.toNat).toNat
    (s.curEng = .S → s.headOk b.toNat = true → s.st.stack.length < s.baseS + 4 →
      (n.toNat ≠ 0 → exec (.headland b r n) s = .next (s.setSt (enter s.st n.toNat (!s.wk.inHandler)))) ∧
      (s.outcomeFree →
        exec (.headlandCounted b r c) s =
          .next ((s.setSt (if k = 0 then skip s.st else enter s.st k (!s.wk.inHandler))).told ⟨true, 0, k, 0⟩))) ∧
    (s.curEng ≠ .S →
      (n.toNat ≠ 0 → exec (.headland b r n) s = .next (s.setSt (enter s.st n.toNat true))) ∧
      ∀ o q, s.st.outq = o :: q →
        exec (.headlandCounted b r c) s =
          .next (s.setSt { (if o.count = 0 then skip s.st else enter s.st o.count true) with outq := q }))) ∧
  (∀ (s : State) (b : BitVec 11) (r : Bool) (n : BitVec 14) (c : BitVec 5), s.live = true → s.curEng = .S →
    let trap := s.takeTrap .S s.st.pc ⟨1, 1, 0, none⟩
    let fifth := s.baseS + 4 ≤ s.st.stack.length ∧ s.st.pend.length < 32
    (s.headOk b.toNat = false ∨ n = 0 ∨ fifth → exec (.headland b r n) s = .next trap) ∧
    (s.headOk b.toNat = false ∨ fifth ∧ (s.wk.sget c.toNat).toNat ≠ 0 → exec (.headlandCounted b r c) s = .next trap))

/-- (1) R19, R20, R27, R29: at the end of its innermost block a strand that may pass a boundary repeats the body or, after the
last repetition, pops the block and goes on where it stands; a ROT block turns the rotating base; pending writes are
interlocked. The pop that comes with the last repetition is no second boundary (log 49). (2) R17, R205, R290, R294: `exit`
releases at device scope what the strand has written and stops it after its word, its pending writes interlocked; when it is the
last of the five the worker's open task is committed (R294, log 29), and the BSTEP value of worker 0 stands for later closes
(R205). (3) In a handler S waits at an `exit` and changes nothing (log 29). -/
def Obligations.RepetitionsAndExits : Prop :=
  (∀ (s : State) (b : Block) (r : List Block), s.live = true → s.st.stack = b :: r → b.fin = s.st.pc → s.slipFree s.curEng →
    (s.curEng = .S → s.wk.inHandler = true → s.wk.sup.tdepth < s.st.stack.length) →
    exec .repetitionEnd s =
      .next (s.setSt
        { s.st with
          stack := if 1 < b.left then { b with left := b.left - 1 } :: r else r
          pc := if 1 < b.left then b.head + 4 else s.st.pc
          rrb := if b.rot then (s.st.rrb + 1) % 64 else s.st.rrb
          dbn := if s.curEng = .S ∧ s.wk.inHandler = true then s.st.dbn else s.st.dbn + 1
          pend := s.st.pend.map fun p => { p with count := 0, lock := true } })) ∧
  (∀ (s : State), s.live = true → s.st.pend.length < 32 → (s.curEng = .S → s.wk.inHandler = false) →
    let t := (s.release 3).setSt
      { s.st with
        exited := true, pend := s.st.pend.map (fun p => { p with count := 0, lock := true }), pc := s.st.pc + 2
        pos := s.st.pos + 1 }
    let last := ∀ e, e ≠ s.curEng → (s.wk.strands.get e).exited = true
    let γ := s.wk.strands.s.view.gamma
    (¬ last → exec .exit s = .next t) ∧
    (last → s.wk.openTask = none → s.wk.wid ≠ 0 → exec .exit s = .next t) ∧
    ∀ l, tabFind s.launches s.wk.lid = some l →
      (last → s.wk.openTask = none → s.wk.wid = 0 → exec .exit s = .next (t.putLaunch s.wk.lid { l with exitGamma := γ })) ∧
      ∀ n, last → s.wk.openTask = some n →
        exec .exit s =
          .next ((t.setWk { t.wk with openTask := none }).putLaunch s.wk.lid
            { l with left := l.left - 1, exitGamma := if s.wk.wid = 0 then γ else l.exitGamma })) ∧
  (∀ (s : State), s.live = true → s.curEng = .S → s.wk.inHandler = true → exec .exit s = .next s)

/-! ## S: configuration, queues, knots, groups, tasks -/

/-- (1) R22, R38, R103, R104, R151, R184, R217: a configuration instruction posts one write, which S has at once and the other
strands at their turn in the text; `sshape` writes the grant to sD, and refuses the formats cell and mbit. (2) R38: a grant
gives each dimension at least one slot and fits the 262,144 bits of a register; a request that fits, with d0 a multiple of 16,
is granted as it is. (3) R22: each strand takes the posted writes in order, each once the strand has reached its place in the
text, and none before. -/
def Obligations.ConfigurationWrites : Prop :=
  (∀ (s : State) (f : S64), Turn.Ready .S s → s.view.guard f.g = true → s.configFree →
    let v := s.wk.sget f.a.toNat + f.imm.signExtend 64
    let record := if f.mod5.toNat = 15 then s.layoutRecord s.wk (v.extractLsb' 0 16) else []
    let w := fmtWidth f.mod5.toNat
    let g := grantOf
      ⟨(s.wk.sget f.a.toNat).toNat, f.imm.toNat % 2 ^ 16, f.imm.toNat / 2 ^ 16 % 2 ^ 8, f.imm.toNat / 2 ^ 24 % 2 ^ 8⟩ w
    let packed := BitVec.ofNat 64 (g.c0 % 2 ^ 16 + g.c1 * 2 ^ 16 + g.c2 * 2 ^ 32 + g.c3 * 2 ^ 48)
    exec (.sfset f) s = .next ((s.posted (s.dueAt 4) (.furrow f.d.toNat f.mod5.toNat v record)).afterS 4 0 []) ∧
    exec (.szset f) s = .next ((s.posted (s.dueAt 4) (.tile f.d.toNat f.mod5.toNat v)).afterS 4 0 []) ∧
    exec (.shset f) s = .next ((s.posted (s.dueAt 4) (.sheaf f.d.toNat f.mod5.toNat v)).afterS 4 0 []) ∧
    (f.mod5.toNat < 0x15 →
      exec (.sshape f) s = .next ((s.posted (s.dueAt 4) (.shape ⟨g, w, f.mod5.toNat⟩)).wroteS 4 f.d packed)) ∧
    (f.mod5.toNat = 0x15 ∨ f.mod5.toNat = 0x16 → exec (.sshape f) s = .next (s.takeTrap .S s.st.pc ⟨1, 3, 0, none⟩))) ∧
  (∀ (req : Quad Nat) (w : Nat), w ∈ [4, 8, 16, 32, 64] →
    let g := grantOf req w
    (∀ k, 1 ≤ g.get k) ∧ g.c0 * g.c1 * g.c2 * g.c3 * w ≤ 262144 ∧
    ((∀ k, 1 ≤ req.get k) → 16 ∣ req.c0 → req.c0 * req.c1 * req.c2 * req.c3 * w ≤ 262144 → g = req)) ∧
  (∀ (t : Strand) (spad : Memory) (early late : List ConfEntry), t.confq = early ++ late → (∀ c ∈ early, c.due ≤ t.pos) →
    (∀ c, late.head? = some c → t.pos < c.due) →
    t.sync spad = { t with view := early.foldl (fun v c => v.apply spad c.w) t.view, confq := late })

/-- (1) R29, R39, R104 to R107, R210, R299, R310, R311: `csrr` gives the CSR's value, a read of REFQ takes its head, and user
mode reads no CSR from 0x100; TSTATUS shows TDEPTH in three bits (log 56). (2) R22, R105 to R107, R298, R310, R311: `csrw`
writes sD, `csrs` sets and `csrc` clears the bits that are one in it. A text-ordered CSR is configuration, and MODE and NKEY
writes are noted for the manifest; QSAT and the supervisor CSRs change at once; a write to a read-only CSR is ignored in
supervisor mode and traps in user mode, like any to a CSR from 0x100. -/
def Obligations.CsrAccesses : Prop :=
  (∀ (s : State) (g : Guard) (d : BitVec 5) (c : BitVec 10), Turn.Ready .S s → s.view.guard g = true →
    let w := s.wk
    let v := w.strands.s.view
    let p := w.sup
    let b := fun (x : Bool) (n : Nat) => if x then 2 ^ n else 0
    let word := fun (n : Nat) => BitVec.ofNat 64 n
    let gives := fun (n : BitVec 10) (x : Word) => c = n → exec (.csrr g d c) s = .next (s.wroteS 2 d x)
    gives 0x000 (word w.wid) ∧ gives 0x001 (word s.ln.workersN) ∧ gives 0x002 w.cycle ∧
    gives 0x003 (word (if s.ln.det then s.ln.phase else 0)) ∧ gives 0x004 (word v.slip) ∧
    gives 0x005 (word (w.strands.s.rrb + w.strands.l.rrb * 2 ^ 8 + w.strands.v.rrb * 2 ^ 16 + w.strands.m.rrb * 2 ^ 24 +
      w.strands.w.rrb * 2 ^ 32)) ∧
    gives 0x006 v.shape.word0 ∧ gives 0x007 v.shape.word1 ∧
    gives 0x008 (word (b v.ftz 0 + b v.e4m3sat 1 + b s.ln.det 8)) ∧ gives 0x009 (w.qsat.zeroExtend 64) ∧
    gives 0x00A v.nkey.c0 ∧ gives 0x00B v.nkey.c1 ∧ gives 0x00C v.nkey.c2 ∧ gives 0x00D v.nkey.c3 ∧
    (∀ i : Nat, i < 8 → gives (BitVec.ofNat 10 (0x010 + i)) (tabGet 0 v.bkt i)) ∧
    gives 0x019 (w.refcnt.zeroExtend 64) ∧ gives 0x01A (s.ln.biasGen.zeroExtend 64) ∧ gives 0x01B (v.gamma.zeroExtend 64) ∧
    (∀ i : Nat, i < 4 → gives (BitVec.ofNat 10 (0x020 + i)) (if s.ln.det then s.ln.mandig.extractLsb' (64 * i) 64 else 0)) ∧
    (c = 0x018 → exec (.csrr g d c) s =
      .next ((s.setWk { w with refq := w.refq.drop 1, lostref := false }).wroteS 2 d
        (word (b w.lostref 62) ||| (match w.refq with
          | [] => 0
          | x :: _ => word (2 ^ 63) ||| x)))) ∧
    (p.priv = true →
      gives 0x100 (word (b p.priv 0 + b p.ppriv 1 + b p.tin 2 + b p.pnote 3 + p.tdepth % 8 * 2 ^ 8)) ∧
      gives 0x101 (p.tvec.zeroExtend 64) ∧ gives 0x102 (word (p.cause.toNat + p.sub.toNat * 2 ^ 8)) ∧ gives 0x103 p.taddr ∧
      gives 0x104 (p.tpc.zeroExtend 64) ∧ gives 0x105 (p.tstrand.zeroExtend 64) ∧ gives 0x106 (p.tslot.zeroExtend 64) ∧
      gives 0x107 p.tscratch ∧ gives 0x108 (p.ctxid.zeroExtend 64) ∧ gives 0x109 (p.asid.zeroExtend 64) ∧
      gives 0x10A (p.ptroot.zeroExtend 64) ∧ gives 0x10B (p.laytab.zeroExtend 64) ∧ gives 0x10C (p.errlog.zeroExtend 64)) ∧
    (p.priv = false → 0x100 ≤ c.toNat → exec (.csrr g d c) s = .next (s.takeTrap .S s.st.pc ⟨2, 0, 0, none⟩))) ∧
  (∀ (s : State) (g : Guard) (d : BitVec 5) (c : BitVec 10) (i : Instr) (x : Word), Turn.Ready .S s → s.view.guard g = true →
    let w := s.wk
    let old := s.csrRead c.toNat
    let o := w.sget d.toNat
    let n := c.toNat
    (i = .csrw g d c ∧ x = o ∨ i = .csrs g d c ∧ x = old ||| o ∨ i = .csrc g d c ∧ x = old &&& ~~~o) →
    let note : Worker → Worker := fun w =>
      if n = 0x008 then { w with modeLog := w.modeLog ++ [[BitVec.ofNat 64 (x.toNat % 4), if s.ln.det then 1 else 0]] }
      else if 0x00A ≤ n ∧ n ≤ 0x00D then { w with nkeyLog := w.nkeyLog ++ [[BitVec.ofNat 64 (n - 0x00A), x]] }
      else w
    (n ∈ [0x004, 0x008, 0x00A, 0x00B, 0x00C, 0x00D, 0x010, 0x011, 0x012, 0x013, 0x014, 0x015, 0x016, 0x017, 0x01B] →
      s.configFree →
      exec i s =
        .next (((s.posted (s.dueAt 2) (.csr n x)).setWk (note (s.posted (s.dueAt 2) (.csr n x)).wk)).afterS 2 0 [])) ∧
    (n = 0x009 → exec i s = .next ((s.setWk { w with qsat := x.extractLsb' 0 32 }).afterS 2 0 [])) ∧
    (n ∈ [0x100, 0x101, 0x102, 0x103, 0x104, 0x107] → w.sup.priv = true →
      exec i s = .next ((s.setWk { w with sup := w.sup.write n x }).afterS 2 0 [])) ∧
    (n ∈ [0x000, 0x001, 0x002, 0x003, 0x005, 0x006, 0x007, 0x018, 0x019, 0x01A, 0x020, 0x021, 0x022, 0x023] ∨ 0x100 ≤ n →
      w.sup.priv = false → exec i s = .next (s.takeTrap .S s.st.pc ⟨2, 0, 0, none⟩)) ∧
    (n ∈ [0x000, 0x001, 0x002, 0x003, 0x005, 0x006, 0x007, 0x018, 0x019, 0x01A, 0x020, 0x021, 0x022, 0x023, 0x105, 0x106, 0x108,
        0x109, 0x10A, 0x10B, 0x10C] →
      w.sup.priv = true → exec i s = .next (s.afterS 2 0 [])))

/-- R30, R32, R98: `sqpush` and `sqpop` move an entry whether or not they are guarded off, `stok` and `stokw` a token; each
waits, changed in nothing, while it cannot; `sqfree` counts the free entries of q15 and q14. A token that S pushes releases at
core scope what S has written, one that it pops acquires (R24, R265). -/
def Obligations.ScalarQueues : Prop :=
  ∀ (s : State) (g : Guard) (d a : BitVec 5), Turn.Ready .S s →
    let w := s.wk
    let on := s.view.guard g
    (exec (.sqpush g a) s =
      .next (if w.q14.length < 16 then (s.setWk { w with q14 := w.q14 ++ [if on then w.sget a.toNat else 0] }).afterS 2 0 [] else s)) ∧
    (match w.q15 with
      | [] => exec (.sqpop g d) s = .next s
      | x :: r =>
        let t := s.setWk { w with q15 := r }
        exec (.sqpop g d) s = .next (if on then t.wroteS 2 d x else t.afterS 2 0 [])) ∧
    (on = true →
      exec (.sqfree g d) s = .next (s.wroteS 2 d (BitVec.ofNat 64 ((16 - w.q15.length) + (16 - w.q14.length) * 2 ^ 8)))) ∧
    (exec (.stok g) s =
      .next (if w.tokensIn .SL < 15 then ((s.setWk (w.setTokens .SL (w.tokensIn .SL + 1))).release 1).afterS 2 0 [] else s)) ∧
    (exec (.stokw g) s =
      .next (if 0 < w.tokensIn .WS then ((s.setWk (w.setTokens .WS (w.tokensIn .WS - 1))).acquire 1).afterS 2 0 [] else s))

/-- (1) R34, R99 to R101: S's adds, sets and reads of a knot take effect at once, adds and sets releasing at core scope what S
has written, a read acquiring (R265): at device scope where an add through the knot window has come since the last set. A strand
that waits for a value that the knot now has is satisfied whatever comes after, the waits of S that traps have put by too; the
engines' adds are left pending behind everything the strand has issued before. (2) R23, R100: the engine forms of a knot add,
and the engines' nops. The add is left pending, to be applied when every earlier entry of the strand has gone; guarded off it
adds nothing. -/
def Obligations.KnotAdds : Prop :=
  (∀ (s : State) (g : Guard) (d a : BitVec 5) (n : BitVec 10), Turn.Ready .S s → s.view.guard g = true →
    let w := s.wk
    let x := w.sget a.toNat
    let put := fun (k : Knot) => ((s.setWk (w.setKnot d.toNat k)).release 1).afterS 2 0 []
    let own := fun (k : Knot) => { w.setKnot d.toNat k with farKnots := w.farKnots.filter (· ≠ d.toNat) }
    let old := w.knot d.toNat
    let src := w.knot a.toNat
    exec (.kadd g d a) s = .next (put ⟨old.val + x.extractLsb' 0 32, old.err⟩) ∧
    exec (.kaddi g d n) s = .next (put ⟨old.val + n.signExtend 32, old.err⟩) ∧
    exec (.kset g d a) s = .next (((s.setWk (own ⟨x.extractLsb' 0 32, x.getLsbD 32⟩)).release 1).afterS 2 0 []) ∧
    exec (.kread g d a) s =
      .next ((s.acquire (if a.toNat ∈ w.farKnots then 3 else 1)).wroteS 2 d (BitVec.ofNat 64 (src.val.toNat + if src.err then 2 ^ 32 else 0))) ∧
    (∀ k, (w.setKnot d.toNat k).knot d.toNat = k ∧ (∀ j, j ≠ d.toNat → (w.setKnot d.toNat k).knot j = w.knot j) ∧
      ∀ m,
        let met := if k.err = true ∨ m.toNat ≤ k.val.toNat then some Wait.met else some (.knot d.toNat m)
        (∀ e, (w.strands.get e).wait = some (.knot d.toNat m) → ((w.setKnot d.toNat k).strands.get e).wait = met) ∧
        ∀ n : Nat, w.stopWaits[n]? = some (some (Wait.knot d.toNat m)) → (w.setKnot d.toNat k).stopWaits[n]? = some met)) ∧
  (∀ (s : State) (f : E64) (e : Eng) (add hint : Instr),
    ((e, add, hint) = (.L, .lkadd f, .lnop f) ∨ (e, add, hint) = (.V, .vkadd f, .vnop f) ∨
      (e, add, hint) = (.M, .mkadd f, .mnop f) ∨
      (e, add, hint) = (.W, .wkadd f, .wnop f)) →
    Turn.Ready e s → (∀ q ∈ tokPops e f.tk, 0 < s.wk.tokensIn q) →
    exec hint s = .next ((s.gained e f).afterE e f 0 []) ∧
    (s.view.guard f.g = false → exec add s = .next ((s.gained e f).afterE e f 0 [])) ∧
    (s.view.guard f.g = true →
      let t := (s.gained e f).popped e f
      let u := t.wk.strands.get e
      exec add s =
        .next (t.setWk (t.wk.setStrand e
          { u with
            pend := u.pend.map (fun p => { p with count := p.count - 1 }) ++
              [⟨.knotAdd f.d8.toNat (f.bc.zeroExtend 32) :: (tokPushes e f.tk).map .token, 0, false, u.pos, true⟩]
            pc := u.pc + 8, pos := u.pos + 4 }))))

/-- R34, R99 to R101: a knot wait goes on once the knot has, or has had since the wait began, the value or its error bit; else
the strand notes that it waits and stays. A wait that is over acquires at core scope, or at device scope where an add through the
knot window has come since the last set (R265). An engine's wait pops its tokens when it begins. -/
def Obligations.KnotWaits : Prop :=
  (∀ (s : State) (g : Guard) (d a : BitVec 5) (n : BitVec 10), Turn.Ready .S s → s.view.guard g = true →
    let after := fun (m : BitVec 32) =>
      if s.st.wait == some .met || (s.wk.knot d.toNat).err || decide (m.toNat ≤ (s.wk.knot d.toNat).val.toNat) then
        let t := s.acquire (if d.toNat ∈ s.wk.farKnots then 3 else 1)
        (t.setSt { t.st with wait := none }).afterS 2 0 []
      else s.setSt { s.st with wait := some (.knot d.toNat m) }
    exec (.kwait g d a) s = .next (after ((s.wk.sget a.toNat).extractLsb' 0 32)) ∧
    exec (.kwaiti g d n) s = .next (after (n.zeroExtend 32))) ∧
  ∀ (s : State) (f : E64) (e : Eng) (i : Instr),
    ((e, i) = (.L, .lkwait f) ∨ (e, i) = (.V, .vkwait f) ∨ (e, i) = (.M, .mkwait f) ∨ (e, i) = (.W, .wkwait f)) →
    Turn.Ready e s → (s.st.wait = none → ∀ q ∈ tokPops e f.tk, 0 < s.wk.tokensIn q) →
    let t := if s.st.wait = none then (s.popped e f).gained e f else s
    let k := s.wk.knot f.d8.toNat
    let m := f.bc.zeroExtend 32
    exec i s =
      .next (if !s.view.guard f.g || s.st.wait == some .met || k.err || decide (m.toNat ≤ k.val.toNat) then
          let u := if s.view.guard f.g then t.acquire (if f.d8.toNat ∈ s.wk.farKnots then 3 else 1) else t
          (u.setSt { u.st with wait := none }).issuedE e f 0 []
        else t.setSt { t.st with wait := some (.knot f.d8.toNat m) })

/-- R94: `nop` has no effect but that it counts toward S's shadows; `yield` takes a pending pre-emption request and else acts as
`nop`; `spin` changes no result. (How far `spin` may slow S is time, which the model leaves out: log 41.) -/
def Obligations.Hints : Prop :=
  ∀ (s : State), Turn.Ready .S s →
    exec .nop s = .next (s.afterS 1 0 []) ∧
    exec .spin s = .next (s.afterS 1 0 []) ∧
    (s.wk.preempt = false → exec .yield s = .next (s.afterS 1 0 [])) ∧
    (s.wk.preempt = true → s.wk.insertion = none →
      exec .yield s = .next ((s.setWk { s.wk with status := .stopped }).afterS 1 0 [])) ∧
    (s.afterS 1 0 []).wk.strands.s =
      { s.wk.strands.s with
        pend := s.wk.strands.s.pend.map fun p => { p with count := p.count - 1 }, pc := s.wk.strands.s.pc + 2
        pos := s.wk.strands.s.pos + 1 }

/-- (1) R92, R93, R265, R266, R290: fences and waits. Every kind of fence but the acquire releases at its scope, the full kind
and `rel.un` UN writes too; the full kind and the acquire acquire at it. `settle` waits for all that the other strands hold from
before it; their writes are then performed at core scope, and S acquires them. The first `sdtrig` releases at device scope and
marks the worker; `sdwait` waits for the producers and acquires. (2) R263, R265, R266, R276: a release at a scope above the
strand's performs at it what the strand has written up to a place in the text, an instruction's own, and what is ordered before
its accesses: UN writes only where it orders them, writes to a peer's memory only at system scope. At pool or system scope the
dirty pool bytes are written back (log 24). Nothing else changes. (3) R265: an acquire at a scope counts from its own step for
that scope and those inside it, and changes nothing else. -/
def Obligations.FencesAndEarlyStart : Prop :=
  (∀ (s : State) (g : Guard) (k sc : BitVec 3), Turn.Ready .S s →
    let pos := if s.wk.inHandler then s.wk.stopPos else s.wk.strands.s.pos
    let settled := fun (t : Strand) => (t.exited = true ∨ pos ≤ t.pos) ∧ ∀ p ∈ t.pend, pos ≤ p.pos
    let theirs := fun (u : Write) => decide (u.pos < pos) && [Eng.L, .V, .M, .W].any fun e => u.who == some ⟨s.curKey, .strand e⟩
    let all := { s with writes := s.writes.map fun u => if theirs u then u.perform ⟨s.tick, 1, s.wk.core⟩ else u }
    let out := if k = 1 then s else s.releaseAs sc.toNat (k == 0 || k == 4)
    exec (.fence k sc) s = .next ((if k = 0 ∨ k = 1 then out.acquire sc.toNat else out).afterS 1 0 []) ∧
    ((∀ e, e ≠ .S → settled (s.wk.strands.get e)) → exec .settle s = .next ((all.acquire 1).afterS 1 0 [])) ∧
    ((∃ e, e ≠ .S ∧ ¬ settled (s.wk.strands.get e)) → exec .settle s = .next s) ∧
    (s.view.guard g = true →
      exec (.sdtrig g) s =
        .next ((if s.wk.triggered then s else (s.setWk { s.wk with triggered := true }).release 3).afterS 2 0 []) ∧
      exec (.sdwait g) s = .next (if s.ln.producers.all s.launchTriggered then (s.acquire 3).afterS 2 0 [] else s))) ∧
  (∀ (s : State) (key : Nat) (e : Eng) (pos scope : Nat) (un : Bool),
    let w := s.worker key
    let carried := fun (u : Write) =>
      (un || u.kind != .un) && (scope == 5 || !(u.spot == .mem && decide (2 ^ 52 ≤ 32 * u.line))) &&
        (u.who == some ⟨key, .strand e⟩ && decide (u.pos ≤ pos) || u.before w.core (w.strands.get e).acq)
    s.releaseTo key e pos 0 un = s ∧
    (1 ≤ scope → s.releaseTo key e pos scope un =
      { s with writes := s.writes.map fun u => if carried u then u.perform ⟨s.tick, scope, w.core⟩ else u }) ∧
    (let t := s.releaseTo s.curKey s.curEng s.st.pos scope un
     s.releaseAs scope un = if 4 ≤ scope then t.flushAllPool else t) ∧
    s.release scope = s.releaseAs scope false ∧
    ∀ (u : Write) (v : Reach),
      u.perform v = if u.reach.any fun x => x.core == v.core && decide (v.scope ≤ x.scope) then u else { u with reach := v :: u.reach }) ∧
  (∀ (s : State) (scope : Nat),
    let a := s.st.acq
    s.acquire scope = s.setSt { s.st with
      acq := ⟨if 1 ≤ scope then s.tick + 1 else a.core, if 2 ≤ scope then s.tick + 1 else a.die,
        if 3 ≤ scope then s.tick + 1 else a.dev⟩ })

/-- (1) R257, R295, R296: `sgarr` arrives at the next generation of a group, while fewer than 16 of them are open; `sgsync`
arrives and goes on when the generation is complete, in a deterministic launch without tasks after a commit also when the phase
has ended; a worker that is no member takes cause 0x0E with TADDR 3. (2) R293: `stask` takes the head of the worker's own deque,
else the last element of the first later worker's deque round the ring that has one; with none left it gives −1, or waits where
a later phase may bring tasks; its return acquires at device scope (R257); a deterministic worker that still holds a task takes
cause 0x0E with TADDR 1. (3) R205, R257, R294: `scommit` ends a deterministic worker's task, and a commit with nothing open
takes cause 0x0E with TADDR 2; elsewhere it only releases, as every commit and arrival does, at device scope. `smbend` hands the
worker's counts, with its BSTEP, to its next close once W has passed all that precedes it (in a handler the trap point: log 60);
in a deterministic launch the close comes with the phase. -/
def Obligations.GroupsAndTasks : Prop :=
  (∀ (s : State) (g : Guard) (c : BitVec 10), Turn.Ready .S s → s.view.guard g = true →
    let w := s.wk
    let n := w.arrived c.toNat
    let arrived := (s.setWk { w with arrivals := tabSet 0 w.arrivals c.toNat (n + 1) }).release 3
    let back := fun (t : State) => ((t.acquire 3).setSt { (t.acquire 3).st with wait := none }).afterS 2 0 []
    let member := ((nth 0 s.ln.groups c.toNat).testBit w.wid)
    let trap := s.takeTrap .S s.st.pc ⟨0x0E, 0, 3, none⟩
    (member = false → exec (.sgarr g c) s = .next trap ∧ (s.st.wait = none → exec (.sgsync g c) s = .next trap)) ∧
    (member = true →
      exec (.sgarr g c) s = .next (if s.openGenerations w.lid c.toNat n < 16 then arrived.afterS 2 0 [] else s)) ∧
    (member = true → s.st.wait = none →
      let everyone := decide (nth 0 s.ln.groups c.toNat = 2 ^ s.ln.workersN - 1)
      let phase := if s.ln.det && s.ln.ntask == 0 && everyone && w.committed then some s.ln.phase else none
      exec (.sgsync g c) s =
        .next (if arrived.waitOver w.lid (.group c.toNat (n + 1) phase) then
            back arrived
          else arrived.setSt { arrived.st with wait := some (.group c.toNat (n + 1) phase) })) ∧
    (∀ x, s.st.wait = some x →
      exec (.sgsync g c) s = .next (if s.waitOver w.lid x then back s else s))) ∧
  (∀ (s : State) (g : Guard) (d : BitVec 5), Turn.Ready .S s → s.view.guard g = true →
    let w := s.wk
    let l := s.ln
    let deque := fun (i : Nat) => tabGet [] l.deques i
    let took := fun (x v : Nat) (r : List Nat) =>
      let t := s.putLaunch w.lid { l with deques := tabSet [] l.deques v r }
      ((t.setWk (if l.det then { w with openTask := some x } else w)).acquire 3).afterS 2 2 [.sreg d.toNat (BitVec.ofNat 64 x)]
    (l.det = true → w.openTask ≠ none → exec (.stask g d) s = .next (s.takeTrap .S s.st.pc ⟨0x0E, 0, 1, none⟩)) ∧
    (l.det = false ∨ w.openTask = none →
      (∀ x r, deque w.wid = x :: r → exec (.stask g d) s = .next (took x w.wid r)) ∧
      (∀ n x r, deque w.wid = [] → 1 ≤ n → n < l.workersN → (∀ m, 1 ≤ m → m < n → deque ((w.wid + m) % l.workersN) = []) →
        deque ((w.wid + n) % l.workersN) = r ++ [x] → exec (.stask g d) s = .next (took x ((w.wid + n) % l.workersN) r)) ∧
      (deque w.wid = [] → (∀ m, 1 ≤ m → m < l.workersN → deque ((w.wid + m) % l.workersN) = []) →
        exec (.stask g d) s =
          .next (if l.lastPhase then (s.acquire 3).afterS 2 2 [.sreg d.toNat (BitVec.allOnes 64)] else s)))) ∧
  (∀ (s : State) (g : Guard), Turn.Ready .S s → s.view.guard g = true →
    let w := s.wk
    let l := s.ln
    let trap := s.takeTrap .S s.st.pc ⟨0x0E, 0, 2, none⟩
    (l.det = false → exec (.scommit g) s = .next ((s.release 3).afterS 2 0 [])) ∧
    (l.det = true → l.ntask = 0 →
      exec (.scommit g) s = .next (if w.committed then trap else ((s.setWk { w with committed := true }).release 3).afterS 2 0 [])) ∧
    (l.det = true → l.ntask ≠ 0 → w.openTask = none → exec (.scommit g) s = .next trap) ∧
    (l.det = true → l.ntask ≠ 0 → w.openTask ≠ none →
      exec (.scommit g) s =
        .next ((((s.setWk { w with openTask := none }).modLaunch w.lid fun l => { l with left := l.left - 1 }).release 3).afterS
          2 0 [])) ∧
    (l.det = true → exec (.smbend g) s = .next ((s.modLaunch w.lid fun l => { l with smbend := true }).afterS 2 0 [])) ∧
    (l.det = false →
      exec (.smbend g) s =
        .next (if w.strands.w.exited || decide ((if w.inHandler then w.stopPos else w.strands.s.pos) ≤ w.strands.w.pos) then
            ((s.modLaunch w.lid fun x =>
              { x with contrib := tabPut x.contrib w.wid (tabGet [] l.contrib w.wid ++ [(w.sent, s.view.gamma)]) }).setWk
              { w with sent := [] }).afterS 2 0 []
          else s)))

/-! ## S: memory -/

/-- (1) R95, R97, R147, R332: what an S access of `n` bytes does at ea = sA + sext(IMM32) in its worker's own scratchpad window:
`sld` loads what the strand sees there with a shadow of 2, sign-extended where SX says so, and acquires where `.acq` asks for
it; `sst` stores the low bits of sD at once, after the release that `.rel` asks for (R265); `samo`, after the release that it
asks for, makes the new value of R96 from the newest one, gives that, and acquires where told. Nothing is fetched from outside
the scratchpad. (2) R97: through the knot window a `samo` that adds 32 bits is a knot add, a release whatever order is encoded,
at device scope at least (log 52), and gives the old value; an 8-byte `sld` reads value and error bit; `sld` of 8 bytes reads an
accumulator cell. -/
def Obligations.ScalarAccessesThroughWindows : Prop :=
  (∀ (s : State) (f : S64) (n off : Nat), Turn.Ready .S s →
    let home := workerKey s.wk.lid s.wk.wid
    let p : Place := .spad home off
    let ea := (s.wk.sget f.a.toNat + f.imm.signExtend 64).toNat
    let d := s.wk.sget f.d.toNat
    ea = 0x1F0 * 2 ^ 48 + off → off + n ≤ 0x80000 → off % n = 0 → s.readCheck p n = none →
    (s.view.guard f.g = true → n = 2 ^ (f.mod5.toNat % 4) →
      let v := s.loads p n
      let r := (s.loaded p n).noteRead p n
      let t := if f.mod5.getLsbD 4 then s.release 3 else s
      let x := [(p, toBytes d.toNat n)]
      (exec (.sld f) s =
        .next ((if f.mod5.getLsbD 3 then r.acquire 3 else r).afterS 4 2 [.sreg f.d.toNat
          (if f.mod5.getLsbD 2 then BitVec.ofInt 64 (signed (8 * n) v) else BitVec.ofNat 64 v)])) ∧
      (s.writeCheck x = none → exec (.sst f) s = .next (((t.noteWrites t.strandAuthor x).writeAll x).afterS 4 0 []))) ∧
    (n = (if f.mod5.getLsbD 4 then 8 else 4) →
      let x := d.toNat % 2 ^ (8 * n)
      let y := (s.wk.sget (f.d.toNat + 1)).toNat % 2 ^ (8 * n)
      let old := (s.worker home).spad.nat off n
      let scope := f.g.gp.toNat % 8
      let t := if f.g.gp.getLsbD 3 then s.release scope else s
      let r := (t.lookedNewest ⟨s.curKey, .strand .S⟩ p n).noteRead p n
      let z := [(p, toBytes (atomicNew (f.mod5.toNat % 16) (8 * n) old x y) n)]
      let o := (r.noteWrites r.strandAuthor z).writeAll z
      r.writeCheck z = none →
      exec (.samo f) s =
        .next ((if f.g.gn then o.acquire scope else o).afterS 4 2 [.sreg f.d.toNat (BitVec.ofNat 64 old)]))) ∧
  (∀ (s : State) (f : S64) (k : Nat), Turn.Ready .S s →
    let home := workerKey s.wk.lid s.wk.wid
    let ea := (s.wk.sget f.a.toNat + f.imm.signExtend 64).toNat
    (k < 32 → s.wk.wid < s.ln.workersN → ea = 0x1F4 * 2 ^ 48 + s.wk.wid * 2 ^ 12 + 8 * k →
      let old := (s.worker home).knot k
      (f.mod5.toNat = 0 →
        let scope := f.g.gp.toNat % 8
        let t := (s.release (max 3 scope)).modWorker home fun w =>
          let x := w.addKnot k (BitVec.ofNat 32 (s.wk.sget f.d.toNat).toNat) false
          { x with farKnots := if w.farKnots.contains k then w.farKnots else k :: w.farKnots }
        exec (.samo f) s =
          .next ((if f.g.gn then t.acquire scope else t).afterS 4 2 [.sreg f.d.toNat (old.val.zeroExtend 64)])) ∧
      (f.mod5.toNat % 8 = 3 → s.view.guard f.g = true →
        exec (.sld f) s =
          .next ((if f.mod5.getLsbD 3 then s.acquire 3 else s).afterS 4 2
            [.sreg f.d.toNat (BitVec.ofNat 64 (old.val.toNat + if old.err then 2 ^ 32 else 0))]))) ∧
    (∀ b, b < 4 → 32 * k + 8 * b < 0x100000 → ea = 0x1F2 * 2 ^ 48 + 32 * k + 8 * b → f.mod5.toNat % 8 = 3 →
      s.view.guard f.g = true →
      let p : Place := .cell home k (8 * b)
      let r := (s.loaded p 8).noteRead p 8
      s.readCheck p 8 = none →
      exec (.sld f) s =
        .next ((if f.mod5.getLsbD 3 then r.acquire 3 else r).afterS 4 2 [.sreg f.d.toNat (BitVec.ofNat 64 (s.loads p 8))]) ∧
      (s.lineLog (.cell home) k = [] → BitVec.ofNat 64 (s.loads p 8) = ((s.worker home).cell k).extractLsb' (64 * b) 64)))

/-- (1) R95, R305 to R307, R332: the same at a translated address, where no conflict detector is at work: the translation is
kept, the bytes of the page's frame are read or written, single-bit errors are corrected and counted. (2) R304, R306, R307,
R327, R329: what a translation answers once the leaf is found, in a cache of the core, of its die or by a walk: no place for a
leaf whose target the map refuses, the rights of the mode and the access in the order of R306, the region and the port behind the
place. (3) R305: a walk follows four table entries by the fields of the address to a leaf of 4 KiB or 64 KiB, ends at a leaf of
level 1 or 2 with 2 MiB or 1 GiB, and takes an invalid or malformed entry for `not present`. -/
def Obligations.ScalarAccessesTranslated : Prop :=
  (∀ (s u : State) (f : S64) (n : Nat) (p : Phys), Turn.Ready .S s → s.ln.det = false ∨ s.ln.detOff = true →
    let ea := (s.wk.sget f.a.toNat + f.imm.signExtend 64).toNat
    let d := s.wk.sget f.d.toNat
    ea < 2 ^ 57 → inWindows ea = false → ea % n = 0 →
    (s.view.guard f.g = true → n = 2 ^ (f.mod5.toNat % 4) →
      (s.resolve (.core s.wk.core) (s.cxOf s.wk) ea .load = .ok (p, u) → u.readCheck (.phys p) n = none →
        let v := u.loads (.phys p) n
        let r := (u.loaded (.phys p) n).correct p.addr n
        exec (.sld f) s =
          .next ((if f.mod5.getLsbD 3 then r.acquire 3 else r).afterS 4 2
            [.sreg f.d.toNat (if f.mod5.getLsbD 2 then BitVec.ofInt 64 (signed (8 * n) v) else BitVec.ofNat 64 v)])) ∧
      (let t := if f.mod5.getLsbD 4 then s.release 3 else s
        let x := [(Place.phys p, toBytes d.toNat n)]
        t.resolve (.core s.wk.core) (s.cxOf s.wk) ea .store = .ok (p, u) → u.writeCheck x = none →
        exec (.sst f) s = .next ((((u.noteWrites u.strandAuthor x).writeAll x).accessed (.phys p)).afterS 4 0 []))) ∧
    (n = (if f.mod5.getLsbD 4 then 8 else 4) → s.resolve (.core s.wk.core) (s.cxOf s.wk) ea .atomic = .ok (p, u) →
      let x := d.toNat % 2 ^ (8 * n)
      let y := (s.wk.sget (f.d.toNat + 1)).toNat % 2 ^ (8 * n)
      let scope := f.g.gp.toNat % 8
      let t := if f.g.gp.getLsbD 3 then u.release scope else u
      let q : Place := .phys { p with home := p.home || decide (4 ≤ scope) }
      let old := t.physNat p.addr n
      let z := [(q, toBytes (atomicNew (f.mod5.toNat % 16) (8 * n) old x y) n)]
      let r := ((t.lookedNewest ⟨s.curKey, .strand .S⟩ q n).accessed q).correct p.addr n
      let reach := if 2 ^ 52 ≤ p.addr then [⟨s.tick, 5, s.wk.core⟩]
        else if p.pool = true ∧ 4 ≤ scope then [⟨s.tick, scope, s.wk.core⟩] else []
      let o := (r.noteWrites ⟨some ⟨s.curKey, .strand .S⟩, s.st.pos, reach, false⟩ z).writeAll z
      t.readCheck q n = none → r.writeCheck z = none →
      exec (.samo f) s =
        .next ((if f.g.gn then o.acquire scope else o).afterS 4 2 [.sreg f.d.toNat (BitVec.ofNat 64 old)]))) ∧
  (∀ (s : State) (ag : Agent) (cx : Cx) (va : Nat) (acc : Acc), va < 2 ^ 57 →
    (∀ x, s.lookup ag cx va = .error x → s.resolve ag cx va acc = .error x) ∧
    ∀ e l new, s.lookup ag cx va = .ok (e, l, new) →
      let pte := e.pte.toNat
      let allowed := (cx.user = true → pte.testBit 4 = true) ∧ (acc ∈ [.load, .atomic, .fetch] → pte.testBit 2 = true) ∧
        (acc ∈ [.store, .atomic, .cellAdd] → pte.testBit 3 = true ∧ pte.testBit 10 = false)
      (leafPhys e.size pte va = none → s.resolve ag cx va acc = .error (.fault 8)) ∧
      ∀ p, leafPhys e.size pte va = some p →
        (¬ allowed → s.resolve ag cx va acc = .error (.fault 9)) ∧
        (allowed → ∀ c, s.placeFault p = some c → s.resolve ag cx va acc = .error (.fault c)) ∧
        (allowed → s.placeFault p = none →
          s.resolve ag cx va acc = .ok (p, if new then (s.noteWalk ag cx va l).fill ag e l else s))) ∧
  (∀ (s : State) (asid va root a b c d : Nat),
    let read := fun (table index x : Nat) => s.readEntry (table + 8 * index) = .ok x
    let frame := fun (x : Nat) => x / 2 ^ 12 % 2 ^ 40 * 2 ^ 12
    let table := fun (x : Nat) => x % 4 = 3 ∧ tableOk x = true
    let leaf := fun (x level : Nat) => x % 4 = 1 ∧ leafOk level x = true
    let entry := fun (x size : Nat) => (⟨asid, x.testBit 5, va / size * size, size, BitVec.ofNat 64 x⟩ : TlbEntry)
    let walks := s.walkFrom asid va 3 root
    let found := fun (e : TlbEntry) => ∃ l, walks = .ok (e, l)
    read root (va / 2 ^ 39 % 2 ^ 18) a →
    (¬ table a → walks = .error (.fault 8)) ∧
    (table a → read (frame a) (va / 2 ^ 30 % 512) b →
      (leaf b 2 → found (entry b (2 ^ 30))) ∧
      (¬ table b → ¬ leaf b 2 → walks = .error (.fault 8)) ∧
      (table b → read (frame b) (va / 2 ^ 21 % 512) c →
        (leaf c 1 → found (entry c (2 ^ 21))) ∧
        (¬ table c → ¬ leaf c 1 → walks = .error (.fault 8)) ∧
        (table c → read (frame c) (va / 2 ^ 12 % 512) d →
          (leaf d 0 → found (entry d (if d.testBit 11 then 2 ^ 16 else 2 ^ 12))) ∧
          (¬ leaf d 0 → walks = .error (.fault 8))))))

/-- (1) R95 to R97, R258, R306, R312: where an S access traps instead, with the address in TADDR: cause 0x08 where an address
leads nowhere, 0x09 where a window does not allow the access, 0x0A where it is not aligned, what the translation reports, and
0x0B for a conflict that the detector finds. (2) R316, R332: where it meets a sector with an uncorrectable error. -/
def Obligations.ScalarAccessFaults : Prop :=
  (∀ (s : State) (f : S64), Turn.Ready .S s → s.view.guard f.g = true →
    let ea := (s.wk.sget f.a.toNat + f.imm.signExtend 64).toNat
    let n := 2 ^ (f.mod5.toNat % 4)
    let m := if f.mod5.getLsbD 4 then 8 else 4
    let trap := fun (cause : Nat) => Host.Outcome.next (s.takeTrap .S s.st.pc ⟨cause, 0, ea, none⟩)
    (2 ^ 57 ≤ ea ∨ inWindows ea = true ∧ windowPlace (s.cxOf s.wk) ea = none →
      exec (.sld f) s = trap 8 ∧ exec (.sst f) s = trap 8 ∧ exec (.samo f) s = trap 8) ∧
    (ea / 2 ^ 48 = 0x1F2 → ea % 2 ^ 48 < 0x100000 →
      exec (.sst f) s = trap 9 ∧ exec (.samo f) s = trap 9 ∧ (n ≠ 8 → exec (.sld f) s = trap 9)) ∧
    (ea / 2 ^ 48 = 0x1F4 → windowPlace (s.cxOf s.wk) ea ≠ none →
      exec (.sst f) s = trap 9 ∧ (n ≠ 8 → exec (.sld f) s = trap 9) ∧ (f.mod5 ≠ 0 → exec (.samo f) s = trap 9)) ∧
    (ea < 2 ^ 57 ∧ inWindows ea = false ∨ ea / 2 ^ 48 = 0x1F0 ∧ ea % 2 ^ 48 < 0x80000 →
      (ea % n ≠ 0 → exec (.sld f) s = trap 0x0A ∧ exec (.sst f) s = trap 0x0A) ∧ (ea % m ≠ 0 → exec (.samo f) s = trap 0x0A)) ∧
    (ea < 2 ^ 57 → inWindows ea = false →
      let t := if f.mod5.getLsbD 4 then s.release 3 else s
      (∀ c,
        (ea % n = 0 → s.resolve (.core s.wk.core) (s.cxOf s.wk) ea .load = .error (.fault c) → exec (.sld f) s = trap c) ∧
        (ea % n = 0 → t.resolve (.core s.wk.core) (s.cxOf s.wk) ea .store = .error (.fault c) → exec (.sst f) s = trap c) ∧
        (ea % m = 0 → s.resolve (.core s.wk.core) (s.cxOf s.wk) ea .atomic = .error (.fault c) → exec (.samo f) s = trap c)) ∧
      ∀ p u, s.ln.det = true → s.ln.detOff = false →
        (ea % n = 0 → s.resolve (.core s.wk.core) (s.cxOf s.wk) ea .load = .ok (p, u) →
          s.ln.detect s.wk.task false (.phys p) n = none → exec (.sld f) s = trap 0x0B) ∧
        (ea % n = 0 → t.resolve (.core s.wk.core) (s.cxOf s.wk) ea .store = .ok (p, u) →
          s.ln.detect s.wk.task true (.phys p) n = none → exec (.sst f) s = trap 0x0B))) ∧
  (∀ (s : State) (f : S64) (off kind pa : Nat), Turn.Ready .S s → s.view.guard f.g = true →
    let n := 2 ^ (f.mod5.toNat % 4)
    let p : Place := .spad (workerKey s.wk.lid s.wk.wid) off
    (s.wk.sget f.a.toNat + f.imm.signExtend 64).toNat = 0x1F0 * 2 ^ 48 + off → off + n ≤ 0x80000 → off % n = 0 →
    (s.readCheck p n = some (.machine kind pa) → exec (.sld f) s = .next (s.machineCheck s.wk 0 kind pa s.st.pc)) ∧
    (s.writeCheck [(p, toBytes (s.wk.sget f.d.toNat).toNat n)] = some (.machine kind pa) →
      exec (.sst f) s = .next (s.machineCheck s.wk 0 kind pa s.st.pc)))

/-- (1) R268: a store in one place is read back byte for byte, and every other byte of memory and of every scratchpad stays, dirty
pool bytes and writes that go home included. (2) R260, R261, R267, R272, log 45: what a strand's load sees: what the line held
before its oldest record, with the edits of the records that the load sees, in coherence order (which it sees of those that it may
miss is a free value); with no record of the line, what memory holds. An edit of bytes changes those alone; a sum adds its term as
admission does. (3) R263, R265, R268, R271: what an agent cannot miss: a strand's own writes, what it has seen, what was performed
at a scope that holds both before its last acquire of that scope or a wider one (before its last access to an SO page, for a write
to one), and what another agent saw before then of writes other than UN. (4) R261, R271: after a look the agent has seen what it
found there. (5) R260, R263: a strand's store stands in the record as its own, performed nowhere yet, but at system scope on an SO
page; what the device writes itself nobody misses. -/
def Obligations.StoresReadBackAndKeepTheRest : Prop :=
  (∀ (s : State) (p : Phys) (l : List Byte),
    let t := s.writeAll [(.phys p, l)]
    (∀ a, t.physByte a = if p.addr ≤ a ∧ a < p.addr + l.length then nth 0 l (a - p.addr) else s.physByte a) ∧
    t.workers = s.workers ∧
    (∀ (m : Memory) (o a : Nat), (m.writeBytes o l).read a = if o ≤ a ∧ a < o + l.length then nth 0 l (a - o) else m.read a) ∧
    ∀ (k off : Nat) (w : Worker), s.worker? k = some w →
      let u := s.writeAll [(.spad k off, l)]
      u.worker? k = some { w with spad := w.spad.writeBytes off l } ∧ (∀ j, j ≠ k → u.worker? j = s.worker? j) ∧
      ∀ a, u.physByte a = s.physByte a) ∧
  (∀ (s : State) (p : Place) (n : Nat),
    (∀ r, s.mayFind r p n (s.look r p n)) ∧ s.loads p n = s.look (s.reader p) p n ∧ (∀ r, s.writes = [] →
      s.look r p n = s.readPlace p n) ∧
    (∀ sh w x v k, ((Edit.put sh w x).run v).testBit k = if sh ≤ k ∧ k < sh + w then x.testBit (k - sh) else v.testBit k) ∧
    ∀ (anchor : Int) (x : XReal) (c : BitVec 256),
      (Edit.add (admitTerm anchor x 0)).run c.toNat = (admitTerm anchor x c).toNat) ∧
  (∀ (r : Reader) (u : Write) (core : Nat) (a : Acquired),
    let own := (∃ e, r.who.doer = .strand e) ∧ u.who = some r.who
    (r.must u = true ↔ own ∨ r.who ∈ u.seenBy ∨
      u.before r.core (if u.kind = .so then ⟨max r.so r.acq.core, max r.so r.acq.die, max r.so r.acq.dev⟩ else r.acq) = true) ∧
    (u.before core a = true ↔ u.done = true ∨ (∃ t, u.shown = some t ∧ t < a.core) ∨
      ∃ v ∈ u.reach,
        if v.core = core then 1 ≤ v.scope ∧ v.time < a.core
        else if dieOf v.core = dieOf core then 2 ≤ v.scope ∧ v.time < a.die else 3 ≤ v.scope ∧ v.time < a.dev)) ∧
  (∀ (s : State) (r : Reader) (p : Place) (n l b : Nat) (x : Spot) (k : List Write), p.line? = some (x, l, b) →
    Kept (s.sees r) false (s.lineLog x l) k →
    ∀ u ∈ k, u.edit.meets b n = true → r.who.owns u = false →
      let v := u.seen r.who s.tick
      v ∈ (s.looked r p n).writes ∧ r.who ∈ v.seenBy ∧ (∀ y ∈ u.seenBy, y ∈ v.seenBy) ∧ v.reach = u.reach ∧
      v.shown = if u.kind = .un ∨ u.who = some r.who then u.shown else some (u.shown.getD s.tick)) ∧
  (∀ (s : State) (a : Author) (p : Place) (l : List Byte),
    (p.line? = none → s.noteWrites a [(p, l)] = s) ∧
    (∀ x k b, p.line? = some (x, k, b) →
      ∃ u, s.noteWrites a [(p, l)] = { s with writes := u :: s.writes } ∧ u.spot = x ∧ u.line = k ∧ u.old = s.lineNow x k ∧
        u.edit = .put (8 * b) (8 * l.length) (ofBytes l) ∧ u.who = a.who ∧ u.pos = a.pos ∧ u.kind = p.kind ∧ u.shown = none ∧
        u.seenBy = [] ∧ u.done = a.done ∧ (p.kind ≠ .so → u.reach = a.reach) ∧
        (p.kind = .so → ∃ core, u.reach = ⟨s.tick, 5, core⟩ :: a.reach)) ∧
    ∀ (o : Nat) (spot : Spot), ∀ u ∈ (s.noteDone spot o l).writes, u ∈ s.writes ∨ u.done = true)

/-- What S's accesses leave alone in every outcome with a next state, traps included: of memory, scratchpads and knots all but
the bytes stored to behind ea (none for a load) and the knot added to; every scalar, register, mask, queue, cell, counter, plane
and bank of every worker; every strand's configuration and blocks. -/
def Obligations.ScalarAccessFrame : Prop :=
  ∀ (s t : State) (f : S64) (i : Instr) (acc : Acc) (n : Nat), tabSorted s.poolDirty = true →
    (i = .sld f ∧ acc = .load ∧ n = 0 ∨ i = .sst f ∧ acc = .store ∧ n = 2 ^ (f.mod5.toNat % 4) ∨
      i = .samo f ∧ acc = .atomic ∧ n = (if f.mod5.getLsbD 4 then 8 else 4)) →
    exec i s = .next t →
    let ea := (s.wk.sget f.a.toNat + f.imm.signExtend 64).toNat
    (∀ a, (∀ p u, inWindows ea = false → s.resolve (.core s.wk.core) (s.cxOf s.wk) ea acc = .ok (p, u) →
        ¬ (p.addr ≤ a ∧ a < p.addr + n)) → t.physByte a = s.physByte a) ∧
    (∀ k a, (∀ off, inWindows ea = true → windowPlace (s.cxOf s.wk) ea = some (.spad k off) → ¬ (off ≤ a ∧ a < off + n)) →
      (t.worker k).spad.read a = (s.worker k).spad.read a) ∧
    (∀ k j, (i = .samo f → inWindows ea = true → windowPlace (s.cxOf s.wk) ea ≠ some (.knot k j)) →
      (t.worker k).knot j = (s.worker k).knot j) ∧
    ∀ k,
      let w := s.worker k
      let x := t.worker k
      x.sregs = w.sregs ∧ x.vregs = w.vregs ∧ x.masks = w.masks ∧ x.images = w.images ∧ x.q14 = w.q14 ∧ x.q15 = w.q15 ∧
      x.tokens = w.tokens ∧ x.cells = w.cells ∧ x.counters = w.counters ∧ x.active = w.active ∧ x.shadow = w.shadow ∧
      x.banks = w.banks ∧
      ∀ e, (x.strands.get e).view = (w.strands.get e).view ∧ (x.strands.get e).confq = (w.strands.get e).confq ∧
        (x.strands.get e).stack = (w.strands.get e).stack

/-! ## S: traps and privilege -/

/-- R242, R291, R308: the privileged instructions that act on memory, in supervisor mode. (1) `slaunch` is a release (R266).
Into a queue that has EN and DEVQ set and TAIL − DONE below SIZE it copies the record to slot TAIL, increments TAIL and gives
the new record's LID, the arbiter's account taking over the header (R284); −1 where TAIL − DONE has reached SIZE, −2 where EN
or DEVQ is clear, both without effect. (2) `slaydef` judges its image in the order 5, 4, 1, 3, 2 and writes the record with
this context's CTXID, a success noted for the manifest (R298), where all checks pass or VALID is 0. (3) An address that is not
a multiple of 256 or 64 takes cause 0x0A, a failed read its own trap. (4) `satinv` releases and is issued with its range
rounded out to pages, and waits while four of the worker's are in flight (R309). -/
def Obligations.SupervisorInstructions : Prop :=
  ∀ (s u : State) (f : S64) (l : List Nat), Turn.Ready .S s → s.view.guard f.g = true → s.wk.sup.priv = true →
    let a := s.wk.sget f.a.toNat
    let ea := (a + f.imm.signExtend 64).toNat
    let reads := fun (x n : Nat) => M.gather (fun i => loadS (x + 8 * i) 8) (upFrom 0 n) s
    let gives := fun (i : Instr) (t : State) (v : Word) => exec i s = .next (t.afterS 4 2 [.sreg f.d.toNat v])
    let trap := fun (x : Trap) => Host.Outcome.next (s.takeTrap .S s.st.pc x)
    let put := fun (t : State) (x : Nat) (b : List Byte) => t.putPhys x b
    let words : List Word := l.map (BitVec.ofNat 64)
    let w := fun (i : Nat) => (nth 0 words i).toNat
    (ea % 256 = 0 → reads ea 32 = .ok (l, u) →
      let v := u.release 3
      let q := w 2 / 2 ^ 8 % 64
      let head := v.qhbase.toNat + 64 * q
      let h := fun (i : Nat) => v.physNat (head + 8 * i) 8
      let size := h 1 % 2 ^ 16
      let opened := (h 1).testBit 18 = true ∧ (h 1).testBit 19 = true
      let t := put (put v (h 0 % 2 ^ 57 + 256 * (h 2 % size)) (bytesOf words)) (head + 16) (toBytes (h 2 + 1) 8)
      (¬ opened → gives (.slaunch f) v (BitVec.ofInt 64 (-2))) ∧
      (opened → size ≤ h 2 - h 4 → gives (.slaunch f) v (BitVec.ofInt 64 (-1))) ∧
      (opened → h 2 - h 4 < size →
        gives (.slaunch f) { t with queues := tabPut t.queues q (t.readHeader q) } (BitVec.ofNat 64 (q * 2 ^ 57 + h 2)))) ∧
    (a.toNat % 64 = 0 → reads a.toNat 8 = .ok (l, u) →
      let h := f.imm.toNat % 2 ^ 16
      let r := Furrow.reset.bind 0 (words.set 2 (nth 0 words 2 ||| 0x80000000))
      let base : Nat := w 0 % 2 ^ 57
      let size : Nat := w 1 % 2 ^ 48
      let width := fmtWidth r.format
      let reach := fun (k : Nat) => r.stride k * ((r.extent k : Int) - 1)
      let sum := fun (g : Nat → Int) => g 0 + g 1 + g 2 + g 3
      let last : Int := Int.ofNat (if width < 8 then (r.extent 0 * width + 7) / 8 else width / 8)
      let scales := r.sstride.toInt * ((r.blocks : Int) - 1)
      let off : Int := Int.ofNat (w 7 % 2 ^ 40)
      let noTable := s.wk.sup.laytab = 0
      let valid := (w 2).testBit 31 = true
      let bad : Prop := w 0 / 2 ^ 57 ≠ 0 ∨ w 1 / 2 ^ 48 ≠ 0 ∨ w 2 / 2 ^ 28 % 8 ≠ 0 ∨ w 2 / 2 ^ 9 % 2 ^ 7 ≠ 0 ∨
        r.fieldsOk r.format = false ∨ r.base.toNat % max 1 (width / 8) ≠ 0
      let high : Prop := 2 ^ 57 < base + size ∨ 0x01F0000000000000 < base + size
      let outside : Prop := sum (fun k => min 0 (reach k)) < 0 ∨ (size : Int) ≤ sum (fun k => max 0 (reach k)) + last - 1 ∨
        isBlock r.format = true ∧ (off + min 0 scales < 0 ∨ (size : Int) ≤ off + max 0 scales)
      let out := words.set 2 (BitVec.ofNat 64 (w 2 % 2 ^ 32 + s.wk.sup.ctxid.toNat * 2 ^ 32))
      let t := put u (s.wk.sup.laytab.toNat + 64 * h) (bytesOf out)
      let wrote := t.setWk { t.wk with layoutLog := t.wk.layoutLog ++ [BitVec.ofNat 64 h :: out] }
      (noTable → gives (.slaydef f) u 5) ∧
      (¬ noTable → h = 0xFFFF → gives (.slaydef f) u 4) ∧
      (¬ noTable → h ≠ 0xFFFF → ¬ valid → gives (.slaydef f) wrote 0) ∧
      (¬ noTable → h ≠ 0xFFFF → valid →
        (bad → gives (.slaydef f) u 1) ∧
        (¬ bad → high → gives (.slaydef f) u 3) ∧
        (¬ bad → ¬ high → outside → gives (.slaydef f) u 2) ∧
        (¬ bad → ¬ high → ¬ outside → gives (.slaydef f) wrote 0))) ∧
    (ea < 2 ^ 57 → ea % 256 ≠ 0 → exec (.slaunch f) s = trap ⟨0x0A, 0, ea, none⟩) ∧
    (a.toNat < 2 ^ 57 → a.toNat % 64 ≠ 0 → exec (.slaydef f) s = trap ⟨0x0A, 0, a.toNat, none⟩) ∧
    (∀ x,
      (ea % 256 = 0 → reads ea 32 = .error (.trap x) → exec (.slaunch f) s = trap x) ∧
      (a.toNat % 64 = 0 → reads a.toNat 8 = .error (.trap x) → exec (.slaydef f) s = trap x)) ∧
    let size := (s.wk.sget f.d.toNat).toNat
    let lo := a.toNat / 4096 * 4096
    let hi := if size = 0 then lo else min (2 ^ 57) ((a.toNat + size + 4095) / 4096 * 4096)
    exec (.satinv f) s =
      .next (if (s.satinvs.filter fun x => x.key == s.curKey).length < 4 then
          ({ s.release 3 with
            satinvs := s.satinvs ++ [⟨s.curKey, lo, hi, f.imm.toNat % 2 ^ 16, f.imm.getLsbD 16, f.mod5.toNat⟩] } : State).afterS 4 0 []
        else s)

/-- (1) R102: `brk` takes cause 0x0F with its number in TADDR and TPC at itself; `strap` completes and then takes cause 0x10
with TPC behind it, guarded off nothing; while a `shins` of M is between its keys it waits (R224). (2) R242, R291, R308, R310: in
user mode a privileged instruction that its guard lets execute takes cause 0x02. -/
def Obligations.ProgramTraps : Prop :=
  (∀ (s : State) (g : Guard) (n : BitVec 6) (c : BitVec 10), Turn.Ready .S s →
    exec (.brk n) s = .next (s.takeTrap .S s.st.pc ⟨0x0F, 0, n.toNat, none⟩) ∧
    exec (.strap g c) s =
      .next (if s.view.guard g = false then s.afterS 2 0 []
        else if s.wk.insertion = none then (s.afterS 2 0 []).takeTrap .S (s.st.pc + 4) ⟨0x10, 0, c.toNat, none⟩
        else s)) ∧
  (∀ (s : State) (f : S64), Turn.Ready .S s → s.wk.sup.priv = false →
    let trap := Host.Outcome.next (s.takeTrap .S s.st.pc ⟨2, 0, 0, none⟩)
    exec .eret s = trap ∧
    (s.view.guard f.g = true → exec (.slaunch f) s = trap ∧ exec (.slaydef f) s = trap ∧ exec (.satinv f) s = trap))

/-- (1) R258, R297, R313: a trap taken while TIN is clear, with a headland at TVEC: cause, subcode, TADDR, TPC, strand and slot
go to the trap CSRs, the mode to PPRIV; the mode becomes supervisor, TIN is set, TDEPTH holds S's depth; S goes on at TVEC, its
pending writes and its wait put aside; what the worker has written is performed at core scope, and S acquires; a conflict turns
the detector off until the phase ends; nothing else of the worker or the device changes. (2) R313: a trap taken while TIN is
set, or with no headland at TVEC, aborts the launch: STATUS 3, each of its workers stops, and the event is reported to the
management controller (log 55). (3) R224: while a `shins` of M is between its keys the trap waits. -/
def Obligations.TrapEntry : Prop :=
  (∀ (s : State) (e : Eng) (pc : PAddr) (x : Trap), s.wk.insertion = none →
    let s0 := if x.cause = 0x0B then s.modLaunch s.wk.lid (fun l => { l with detOff := true }) else s
    let w := s.wk
    (w.sup.tin = false → s0.headlandAt (w.trapped e pc x) w.sup.tvec = true →
      s.takeTrap e pc x =
        { s0.setWk
          { w with
            sup :=
              { w.sup with
                ppriv := w.sup.priv, priv := true, tin := true, tdepth := w.strands.s.stack.length
                cause := BitVec.ofNat 8 x.cause, sub := BitVec.ofNat 4 x.sub, taddr := BitVec.ofNat 64 x.addr, tpc := pc
                tstrand := (match e with
                  | .S => 0
                  | .L => 1
                  | .V => 2
                  | .M => 3
                  | .W => 4)
                tslot := (match x.slot with
                  | some n => BitVec.ofNat 32 n
                  | none => BitVec.allOnes 32) }
            strands :=
              { w.strands with
                s :=
                  { w.strands.s with
                    pc := w.sup.tvec, pend := [], wait := none
                    acq := { w.strands.s.acq with core := s.tick + 1 } } }
            trapPend := w.strands.s.pend
            stopPc := if e = .S then pc else w.strands.s.pc
            stopPos := if w.inHandler then w.stopPos else w.strands.s.pos
            stopWaits := w.strands.s.wait :: w.stopWaits
            inHandler := true } with
          writes := s.writes.map fun u =>
            if (match u.who with
              | some x => x.key == s.curKey
              | none => false) then u.perform ⟨s.tick, 1, w.core⟩ else u }) ∧
    ∀ l, s.live = true → (w.sup.tin = true ∨ s0.headlandAt (w.trapped e pc x) w.sup.tvec = false) →
      tabFind s.launches w.lid = some l →
      let t := s.takeTrap e pc x
      tabFind t.launches w.lid = some { l with aborting := true, status := 3, detOff := l.detOff || decide (x.cause = 0x0B) } ∧
      (∀ k v, t.worker? k = some v → v.lid = w.lid → v.status = .done) ∧
      (∀ k v, s.worker? k = some v → v.lid ≠ w.lid → t.worker? k = some v) ∧
      t.reports = s.reports ++
        [[BitVec.ofNat 64 w.lid, BitVec.ofNat 64 w.wid, BitVec.ofNat 64 (x.cause % 256), BitVec.ofNat 64 e.code, pc.zeroExtend 64]] ∧
      t.mem = s.mem ∧ t.poolDirty = s.poolDirty) ∧
  (∀ (s : State) (e : Eng) (pc : PAddr) (x : Trap), s.wk.insertion ≠ none → s.takeTrap e pc x = s)

/-- R315, R317, R322: `eret` in supervisor mode, once S's handler writes have landed: a release of them, UN writes too, that
every strand acquires. The mode is PPRIV again, TIN is clear, S's blocks above TDEPTH are popped and its writes of before the
trap stand again; S goes on where it stopped (behind the `eret` where it is in no handler), or at TPC where TSTRAND is 0, in the
wait that the trap found it in, and the strand that TSTRAND names at TPC. A pre-emption notice that was held back is then taken,
TPC at the place where S would resume. With fewer blocks than TDEPTH, or an odd TPC, it is an illegal instruction. -/
def Obligations.ReturnFromTrap : Prop :=
  ∀ (s : State), s.live = true → s.curEng = .S → s.wk.sup.priv = true →
    let w := s.wk
    let S := w.strands.s
    (S.stack.length < w.sup.tdepth ∨ w.sup.tpc.getLsbD 0 = true → exec .eret s = .next (s.takeTrap .S s.st.pc ⟨1, 1, 0, none⟩)) ∧
    (w.sup.tdepth ≤ S.stack.length → w.sup.tpc.getLsbD 0 = false → S.pend ≠ [] →
      exec .eret s = .next (s.setSt { S with pend := S.pend.map fun p => { p with count := 0, lock := true } })) ∧
    (w.sup.tdepth ≤ S.stack.length → w.sup.tpc.getLsbD 0 = false → S.pend = [] →
      ∃ t,
        exec .eret s =
          .next (if w.note = none then t else t.takeTrap .S t.wk.strands.s.pc ⟨0x11, 0, 0, none⟩) ∧
        t.wk.sup = { w.sup with priv := w.sup.ppriv, tin := false } ∧ t.wk.inHandler = false ∧ t.wk.note = none ∧
        t.wk.sregs = w.sregs ∧
        t.wk.strands.s.stack = S.stack.drop (S.stack.length - w.sup.tdepth) ∧ t.wk.strands.s.pend = w.trapPend ∧
        t.wk.strands.s.wait = w.stopWaits.headD none ∧ t.wk.stopWaits = w.stopWaits.drop 1 ∧ t.wk.strands.s.view = S.view ∧
        (t.wk.strands.s.pc =
          if w.sup.tstrand = 0 then w.sup.tpc else if w.inHandler then w.stopPc else S.pc + 2) ∧
        (∀ e, e ≠ .S → (t.wk.strands.get e).pc = if engOfCode w.sup.tstrand.toNat = e then w.sup.tpc else (w.strands.get e).pc) ∧
        (∀ e, e ≠ .S → (t.wk.strands.get e).stack = (w.strands.get e).stack ∧ (t.wk.strands.get e).pend = (w.strands.get e).pend) ∧
        t.writes = (s.releaseAs 3 true).writes ∧ ∀ e, (t.wk.strands.get e).acq = { (w.strands.get e).acq with core := s.tick + 1 })

/-! ## V -/

/-- (1) R14, R32, R52, R108, R123: what each form of a source field gives: a register's slots, sideband, tag and map; the head
entry of q14 for every slot; the head image entry of a queue, popped, once its slot count and width have been compared; a
coordinate; a small immediate as the integer it stands for. An empty queue makes the strand wait. (2) R36, R37, R43, R45, R109:
a result delivered to a register and landed reads back slot by slot, keeps the register's bits above its slots, and carries its
map; every other register keeps its data, sideband and tag, and a map that named the written register as companion is LOST. A
queue takes the slots as one entry. -/
def Obligations.SourcesAndLandedResults : Prop :=
  (∀ (s : State) (x : BitVec 8) (w : Option Nat),
    (x.toNat < 0x80 →
      let r := s.wk.vget (if x.toNat < 64 then x.toNat else 64 + (x.toNat - 64 + 64 - s.st.rrb) % 64)
      readSrc x w s = .ok (.slots r.data.toNat r.scale.toNat r.tag r.map, s)) ∧
    (x = 0x8E →
      (s.wk.q14 = [] → readSrc x w s = .error .stall) ∧
      ∀ v l, s.wk.q14 = v :: l → readSrc x w s = .ok (.bcast v.toNat, s.setWk { s.wk with q14 := l })) ∧
    (0x80 ≤ x.toNat → x.toNat < 0x90 → x ≠ 0x8E →
      let q := x.toNat - 0x80
      (s.wk.image q = [] → readSrc x w s = .error .stall) ∧
      ∀ e l, s.wk.image q = e :: l →
        (e.count = s.view.shape.slots → (∀ n, w = some n → e.width = n) →
          readSrc x w s = .ok (.slots e.data.toNat e.scale.toNat e.tag e.map, s.setWk (s.wk.setImage q l))) ∧
        (e.count ≠ s.view.shape.slots ∨ (∃ n, w = some n ∧ e.width ≠ n) →
          readSrc x w s = .error (.trap ⟨0x0E, 0, 4, none⟩))) ∧
    (∀ k ≤ 4, x = BitVec.ofNat 8 (0x90 + k) → readSrc x w s = .ok (.coord k, s)) ∧
    ∀ i : Int, -32 ≤ i → i ≤ 31 → x = BitVec.ofInt 8 (0xE0 + i) → readSrc x w s = .ok (.imm i, s)) ∧
  (∀ (t : State) (f : E64) (d : BitVec 8) (w sc : Nat) (val : Nat → Nat) (tag : Option Tag) (m : CMap), 0 < w →
    t.view.shape.slots * w ≤ 262144 →
    let g := t.view.shape.slots
    let act := t.deliver d g w ⟨t.took f d w val, sc, tag, m⟩
    let slotVal := fun (i : Nat) =>
      if activeIn (t.maskOf f.lo3) i then val i % 2 ^ w
      else if f.zm || isQ d then 0
      else slotOf (t.vreg d).data.toNat w i
    (isV d = true →
      let p := t.phys d
      let u := t.wk.landAct act
      (∀ i < g, slotOf (u.vget p).data.toNat w i = slotVal i) ∧
      (∀ b, g * w ≤ b → (u.vget p).data.getLsbD b = (t.wk.vget p).data.getLsbD b) ∧
      (u.vget p).map = m ∧ (u.vget p).tag = tag ∧
      ∀ q ≠ p, (u.vget q).data = (t.wk.vget q).data ∧ (u.vget q).scale = (t.wk.vget q).scale ∧
        (u.vget q).tag = (t.wk.vget q).tag ∧
        (u.vget q).map = if (t.wk.vget q).map.companion = some p then .lost else (t.wk.vget q).map) ∧
    (isQ d = true → ∃ e, act = .image (d.toNat - 0x80) e ∧ e.count = g ∧ e.width = w ∧ e.map = m ∧ e.tag = tag ∧
      ∀ i < g, slotOf e.data.toNat w i = slotVal i))

/-- (1) R108 to R113: every float instruction of V computes each active slot from its exact operands and rounds once into TY; the
result lands with the map of the field that MS names, after shadow 2, or 4 for the harder functions. Together with `vsincos`. (2)
R110: a quotient, a square root or its reciprocal is given to the last place of a long magnitude, exactly or with the mark that
the value lies above it by less than that place. (3) R69 to R71: so marked, a value rounds as every exact value in that interval
does. (4) R110: the special cases of IEEE 754: NaN, the infinities, the zeros and the negative numbers. -/
def Obligations.LaneFloatResults : Prop :=
  (∀ (f : E64) (s t : State) (x : Lane) (n : Nat) (key : Nat → Nat) (a b c : Nat → XReal),
    let fmt := f.top2
    let rm := f.mid3
    let ftz := t.view.ftz
    let rdn := f.mid3 == 3
    Turn.Lane f n (fmtWidth fmt) s x t →
    (∀ i, t.active f i → stoch t.wk t.view.nkey.c0 x.map rm i = .ok (key i) ∧
      floatOf t.wk x.a x.map fmt rm ftz (key i) i = .ok (a i) ∧ floatOf t.wk x.b x.map fmt rm ftz (key i) i = .ok (b i) ∧
      floatOf t.wk x.c x.map fmt rm ftz (key i) i = .ok (c i)) →
    let out := fun (shadow : Nat) (r : Nat → XReal) =>
      (Host.Outcome.next (t.vOut f (fmtWidth fmt) shadow x.map fun i => (convTo fmt rm false ftz (key i) (r i)).bits) :
        Host.Outcome State Fault Refusal)
    (n = 1 →
      exec (.vsqrt f) s = out 4 (fun i => (a i).sqrt) ∧
      exec (.vrcp f) s = out 4 (fun i => (XReal.ofInt 1).div (a i)) ∧
      exec (.vrsq f) s = out 4 (fun i => (a i).rsqrt) ∧
      exec (.vexp2 f) s = out 4 (fun i => Trans.exp2 (a i)) ∧
      exec (.vlog2 f) s = out 4 (fun i => Trans.log2 (a i)) ∧
      exec (.vtanh f) s = out 4 (fun i => Trans.tanh (a i))) ∧
    (n = 2 →
      exec (.vadd f) s = out 2 (fun i => XReal.add rdn (a i) (b i)) ∧
      exec (.vsub f) s = out 2 (fun i => XReal.add rdn (a i) (b i).neg) ∧
      exec (.vmul f) s = out 2 (fun i => (a i).mul (b i)) ∧
      exec (.vdiv f) s = out 4 (fun i => (a i).div (b i))) ∧
    (n = 3 →
      exec (.vfma f) s = out 2 (fun i => XReal.add rdn ((a i).mul (b i)) (c i)) ∧
      exec (.vfms f) s = out 2 (fun i => XReal.add rdn ((a i).mul (b i)) (c i).neg) ∧
      exec (.vfnma f) s = out 2 (fun i => XReal.add rdn (c i) ((a i).mul (b i)).neg))) ∧
  (∀ (f : E64) (s t : State) (x : Lane) (key : Nat → Nat) (a : Nat → XReal),
    let fmt := f.top2
    let w := fmtWidth fmt
    let g := t.view.shape.slots
    let val := fun (r : Nat → XReal) (i : Nat) => (convTo fmt f.mid3 false t.view.ftz (key i) (r i)).bits
    Turn.Go .V f s → isV f.d8 = true → isV (f.d8 + 1) = true →
    laneChecks f [f.d8, f.d8 + 1] w (s.gained .V f) = .ok ((), s.gained .V f) → readLane f 1 w (s.gained .V f) = .ok (x, t) →
    (∀ i, t.active f i → stoch t.wk t.view.nkey.c0 x.map f.mid3 i = .ok (key i) ∧
      floatOf t.wk x.a x.map fmt f.mid3 t.view.ftz (key i) i = .ok (a i)) →
    ∃ u v, t.deliver f.d8 g w ⟨t.took f f.d8 w (val fun i => Trans.sin (a i)), 0, none, x.map⟩ = .vregs [u] ∧
      t.deliver (f.d8 + 1) g w ⟨t.took f (f.d8 + 1) w (val fun i => Trans.cos (a i)), 0, none, x.map⟩ = .vregs [v] ∧
      exec (.vsincos f) s = .next (t.afterE .V f 4 [.vregs [u, v]])) ∧
  (∀ (x y : XReal), x.exact → y.exact →
    let near := fun (z : XReal) (neg : Bool) (within : ℚ → ℚ → Prop) => ∃ m e low, z = .fin neg m e low ∧ 2 ^ 90 ≤ m ∧
      (low = false → within (m * 2 ^ e) (m * 2 ^ e)) ∧ (low = true → within (m * 2 ^ e) ((m + 1) * 2 ^ e))
    let holds := fun (f : ℚ → ℚ) (v a b : ℚ) => if a = b then f a = v else f a < v ∧ v < f b
    (x.val ≠ 0 → y.val ≠ 0 → near (x.div y) (x.sign != y.sign) (holds id (|x.val| / |y.val|))) ∧
    (0 < x.val → near x.sqrt false (holds (· ^ 2) x.val) ∧ near x.rsqrt false (holds (· ^ 2) (1 / x.val)))) ∧
  (∀ (rm n m j k : Nat) (e : Int) (sat ftz neg : Bool), rm ≤ 5 → 0 < m → 0 < j → j < 2 ^ k →
    let c := fun (fmt : Nat) (x : XReal) => (convTo fmt rm sat ftz n x).bits
    (∀ r ∈ floatRows, e + 32 ≤ max ((m.log2 : Int) + e - r.mant) r.low →
      c r.fmt (.fin neg m e true) = c r.fmt (.fin neg (m * 2 ^ k + j) (e - k) false)) ∧
    ∀ r ∈ intRows, e + 32 ≤ 0 → c r.1 (.fin neg m e true) = c r.1 (.fin neg (m * 2 ^ k + j) (e - k) false)) ∧
  ∀ (x y : XReal) (a b rdn : Bool), x.exact → y.exact →
    let inf := XReal.inf
    let zero := fun (z : XReal) (neg : Bool) => z.exact ∧ z.val = 0 ∧ z.sign = neg
    let one := fun (z : XReal) (v : ℚ) => z.exact ∧ z.val = v
    (∀ z ∈ [x, inf a, .nan], XReal.add rdn z .nan = .nan ∧ XReal.add rdn .nan z = .nan ∧ z.mul .nan = .nan ∧
      XReal.mul .nan z = .nan ∧
      z.div .nan = .nan ∧ XReal.div .nan z = .nan) ∧
    (∀ g ∈ [XReal.sqrt, XReal.rsqrt, XReal.neg, XReal.abs, Trans.exp2, Trans.log2, Trans.tanh, Trans.sin, Trans.cos], g .nan = .nan) ∧
    XReal.add rdn (inf a) (inf b) = (if a = b then inf a else .nan) ∧ XReal.add rdn (inf a) x = inf a ∧
      XReal.add rdn x (inf a) = inf a ∧
    (inf a).mul (inf b) = inf (a != b) ∧ (inf a).mul x = (if x.val = 0 then .nan else inf (a != x.sign)) ∧
    x.mul (inf a) = (if x.val = 0 then .nan else inf (x.sign != a)) ∧
    (inf a).div (inf b) = .nan ∧ (inf a).div x = inf (a != x.sign) ∧ zero (x.div (inf a)) (x.sign != a) ∧
    (y.val = 0 → x.div y = if x.val = 0 then .nan else inf (x.sign != y.sign)) ∧
    (x.val = 0 → y.val ≠ 0 → zero (x.div y) (x.sign != y.sign)) ∧
    XReal.sqrt (inf a) = (if a then .nan else inf false) ∧ (x.val = 0 → zero x.sqrt x.sign ∧ x.rsqrt = inf x.sign) ∧
    (x.val < 0 → x.sqrt = .nan ∧ x.rsqrt = .nan ∧ Trans.log2 x = .nan) ∧
    XReal.rsqrt (inf true) = .nan ∧ zero (XReal.rsqrt (inf false)) false ∧
    x.neg.val = -x.val ∧ x.neg.sign = (!x.sign) ∧ (inf a).neg = inf (!a) ∧ x.abs.val = |x.val| ∧ x.abs.sign = false ∧
    (inf a).abs = inf false ∧
    zero (Trans.exp2 (inf true)) false ∧ Trans.exp2 (inf false) = inf false ∧ (x.val = 0 → one (Trans.exp2 x) 1) ∧
    (x.val = 0 → Trans.log2 x = inf true) ∧ Trans.log2 (inf false) = inf false ∧ Trans.log2 (inf true) = .nan ∧
    one (Trans.tanh (inf a)) (if a then -1 else 1) ∧ (x.val = 0 → zero (Trans.tanh x) x.sign) ∧
    Trans.sin (inf a) = .nan ∧ Trans.cos (inf a) = .nan ∧ (x.val = 0 → zero (Trans.sin x) x.sign ∧ one (Trans.cos x) 1)

/-- R111, R115: the sign and order instructions of V deliver bits of their inputs, and its integer instructions the exact result
cut to the width, or clamped to the type's range under SAT. -/
def Obligations.LaneIntegerResults : Prop :=
  (∀ (f : E64) (s t : State) (x : Lane) (n : Nat) (a b : Nat → Nat),
    let fmt := f.top2
    let ftz := t.view.ftz
    let sign := fun (g : XReal → XReal) (n : Nat) => (convTo fmt 0 false ftz 0 (g (readNum fmt ftz n))).bits
    Turn.Lane f n (fmtWidth fmt) s x t →
    (∀ i, t.active f i → floatBits t.wk x.a x.map t.view.nkey.c0 fmt f.mid3 i = .ok (a i) ∧
      floatBits t.wk x.b x.map t.view.nkey.c0 fmt f.mid3 i = .ok (b i)) →
    let out := fun (r : Nat → Nat) =>
      (Host.Outcome.next (t.vOut f (fmtWidth fmt) 2 x.map r) : Host.Outcome State Fault Refusal)
    (n = 1 →
      exec (.vabs f) s = out (fun i => sign XReal.abs (a i)) ∧
      exec (.vneg f) s = out (fun i => sign XReal.neg (a i))) ∧
    (n = 2 →
      exec (.vmin f) s = out (fun i => minMaxBits fmt ftz false (a i) (b i)) ∧
      exec (.vmax f) s = out (fun i => minMaxBits fmt ftz true (a i) (b i)))) ∧
  ∀ (f : E64) (s t : State) (x : Lane) (n w : Nat) (a b : Nat → Nat),
    w = (match f.top2 with
      | 0 => 32
      | 1 => 16
      | 2 => 8
      | _ => 64) →
    let sgn := !f.modBit 8
    let sat := f.modBit 7
    let lo : Int := if sgn then -2 ^ (w - 1) else 0
    let hi : Int := if sgn then 2 ^ (w - 1) - 1 else 2 ^ w - 1
    let num := fun (n : Nat) => if sgn then signed w n else ((n % 2 ^ w : Nat) : Int)
    Turn.Lane f n w s x t →
    (∀ i, t.active f i → intOf t.wk x.a x.map sgn sat w i = .ok (a i) ∧ intOf t.wk x.b x.map sgn sat w i = .ok (b i)) →
    let out := fun (r : Nat → Int) =>
      (Host.Outcome.next (t.vOut f w 2 x.map fun i => wrap w (if sat then max lo (min hi (r i)) else r i)) :
        Host.Outcome State Fault Refusal)
    let nat := fun (r : Nat → Nat → Nat) (i : Nat) => ((r (a i % 2 ^ w) (b i % 2 ^ w) : Nat) : Int)
    (n = 1 → exec (.vipopc f) s = out (fun i => (((List.range w).countP (a i % 2 ^ w).testBit : Nat) : Int))) ∧
    (n = 2 →
      exec (.viadd f) s = out (fun i => num (a i) + num (b i)) ∧
      exec (.visub f) s = out (fun i => num (a i) - num (b i)) ∧
      exec (.vimul f) s = out (fun i => num (a i) * num (b i)) ∧
      exec (.vimulh f) s = out (fun i => num (a i) * num (b i) / 2 ^ w) ∧
      exec (.viand f) s = out (nat fun x y => x &&& y) ∧
      exec (.vior f) s = out (nat fun x y => x ||| y) ∧
      exec (.vixor f) s = out (nat fun x y => x ^^^ y) ∧
      exec (.vishl f) s = out (nat fun x y => x * 2 ^ (y % w)) ∧
      exec (.vishr f) s = out (nat fun x y => x / 2 ^ (y % w)) ∧
      exec (.visra f) s = out (fun i => num (a i) / 2 ^ (b i % 2 ^ w % w)) ∧
      exec (.vimin f) s = out (fun i => min (num (a i)) (num (b i))) ∧
      exec (.vimax f) s = out (fun i => max (num (a i)) (num (b i))))

/-- R114, R116, R117, R145: compares write a whole mask, `vsel` copies bits by one, the mask instructions work on the G low
bits, and `vpset` makes a predicate of a mask: V evaluates it, S waits for the value and makes the configuration write. -/
def Obligations.ComparesSelectsAndMasks : Prop :=
  (∀ (f : E64) (s t : State) (x : Lane) (hit : Nat → Bool),
    let w := cmpWidth f
    Turn.Go .V f s → laneChecks f [] w (s.gained .V f) = .ok ((), s.gained .V f) → readLane f 2 w (s.gained .V f) = .ok (x, t) →
    (∀ i, t.active f i → if f.modBit 2 = true
      then ∃ a b, intOf t.wk x.a x.map true false w i = .ok a ∧ intOf t.wk x.b x.map true false w i = .ok b ∧
        let y := signed w a
        let z := signed w b
        hit i = [decide (y = z), decide (y ≠ z), decide (y < z), decide (y ≤ z), decide (z < y), decide (z ≤ y),
          decide (a % 2 ^ w < b % 2 ^ w), decide (b % 2 ^ w ≤ a % 2 ^ w)].getD f.mid3 false
      else ∃ a b, floatOf t.wk x.a x.map f.top2 0 t.view.ftz 0 i = .ok a ∧ floatOf t.wk x.b x.map f.top2 0 t.view.ftz 0 i = .ok b ∧
        let o := a.cmp b
        hit i = [decide (o = some .eq), decide (o ≠ some .eq), decide (o = some .lt), decide (o = some .lt ∨ o = some .eq),
          decide (o = some .gt), decide (o = some .gt ∨ o = some .eq), decide (o = none), decide (o ≠ none)].getD f.mid3 false) →
    ∃ m, exec (.vcmp f) s = .next (t.afterE .V f 2 [.mask f.d8.toNat m]) ∧
      ∀ i < 65536, m.getLsbD i = (decide (i < t.view.shape.slots) && activeIn (t.maskOf f.lo3) i && hit i)) ∧
  (∀ (f : E64) (s t : State) (x : Lane) (v : Nat → Nat),
    let w := fmtWidth f.top2
    let g := t.view.shape.slots
    Turn.Lane f (if f.lo3 = 7 then 1 else 2) w s x t →
    (∀ i < g, if activeIn (t.maskOf f.lo3) i then floatBits t.wk x.a x.map 0 f.top2 0 i = .ok (v i)
      else if f.zm then v i = 0 else floatBits t.wk x.b x.map 0 f.top2 0 i = .ok (v i)) →
    exec (.vsel f) s = .next (t.afterE .V f 2 [t.deliver f.d8 g w ⟨packSlots w ((List.range g).map v), 0, none, x.map⟩])) ∧
  (∀ (f : E64) (s : State), Turn.Go .V f s →
    let g := s.view.shape.slots
    let a := s.wk.mget f.a8.toNat
    let b := s.wk.mget f.b8.toNat
    let holds := fun (i : Instr) (p : Nat → Bool) => ∃ m, exec i s = .next ((s.gained .V f).afterE .V f 2 [.mask f.d8.toNat m]) ∧
      ∀ i < 65536, m.getLsbD i = (decide (i < g) && p i)
    holds (.mand f) (fun i => a.getLsbD i && b.getLsbD i) ∧
    holds (.mor f) (fun i => a.getLsbD i || b.getLsbD i) ∧
    holds (.mxor f) (fun i => a.getLsbD i != b.getLsbD i) ∧
    holds (.mnot f) (fun i => !a.getLsbD i) ∧
    exec (.mcnt f) s = .next ((s.gained .V f).afterE .V f 2 [.words [BitVec.ofNat 64 ((List.range g).countP a.getLsbD)]]) ∧
    ∃ v : Bool, (v = true ↔ match f.top2 with
        | 0 => ∃ i < g, a.getLsbD i = true
        | 1 => ∀ i < g, a.getLsbD i = true
        | _ => ∀ i < g, a.getLsbD i = false) ∧
      exec (.vpset f) s =
        .next ((((s.gained .V f).modWk fun w => { w with vpres := w.vpres ++ [(s.st.pos, v)] }).modSt
          fun t => { t with gate := some t.pos }).afterE .V f 0 [])) ∧
  ∀ (f : E64) (s : State), s.live = true → s.curEng = .S →
    let skip := fun (s : State) => s.modSt fun t => { t with pc := t.pc + 8, pos := t.pos + 4 }
    (s.view.guard f.g = false → exec (.vpset f) s = .next (skip s)) ∧
    (s.view.guard f.g = true → tabFind s.wk.vpres s.st.pos = none → exec (.vpset f) s = .next s) ∧
    ∀ v, s.view.guard f.g = true → tabFind s.wk.vpres s.st.pos = some v → s.configFree →
      exec (.vpset f) s =
        .next (skip ((s.posted (s.dueAt 4) (.pred f.d8.toNat v)).modWk fun w =>
          { w with vpres := w.vpres.filter fun e => e.1 != s.st.pos }))

/-- R118 to R120: `vcvt` rounds, clamps or cuts every slot from its exact value; `vqnt` quantises block by block, with the scale
bytes in the sideband and the saturated blocks counted; `vdq` decodes each code and rounds its elements. R66 to R73: how a pattern
reads, how an exact value becomes one in every mode, with overflow, SAT and FTZ, and that sums and products are exact. R77: what
the quantiser answers for a kb block and for a codebook block. -/
def Obligations.Conversions : Prop :=
  (∀ (f : E64) (s u t : State) (m : CMap) (a b : Src) (v : Nat → Nat),
    let df := f.fmt5.toNat
    let sf := bits f.c8.toNat 0 5
    let rm := f.lo3
    let g := t.view.shape.slots
    let map := if f.ms = 1 then b.map else a.map
    let sat := f.zm || t.view.e4m3sat
    Turn.Go .V f s → peekMap [f.a8, f.b8, 0] f.ms (s.gained .V f) = .ok (m, s.gained .V f) →
      ownCompanion f.d8 m (s.gained .V f) = .ok ((), s.gained .V f) →
    cvtFmt df = true → cvtFmt sf = true → s.view.shape.fits (max (fmtWidth df) (fmtWidth sf)) = true →
    (isCoord f.a8 = true → sf = 7) → readSrc f.a8 (some (fmtWidth sf)) (s.gained .V f) = .ok (a, u) →
    (if f.ms = 1 then readSrc f.b8 none u = .ok (b, t) else b = .none ∧ t = u) →
    (∀ i < g, match intFmt sf, intFmt df with
      | some (sgn, w), some (dsgn, dw) => ∃ n, intOf t.wk a map sgn false w i = .ok n ∧
        let y := readInt sgn w n
        let lim := intRange dsgn dw
        v i = wrap dw (if f.zm then max lim.1 (min lim.2 y) else y)
      | some (sgn, w), none => ∃ n k, intOf t.wk a map sgn false w i = .ok n ∧ stoch t.wk t.view.nkey.c0 map rm i = .ok k ∧
        v i = (convTo df rm sat t.view.ftz k (.ofInt (readInt sgn w n))).bits
      | none, _ => ∃ k y, stoch t.wk t.view.nkey.c0 map rm i = .ok k ∧ floatOf t.wk a map sf rm t.view.ftz k i = .ok y ∧
        v i = (convTo df rm sat t.view.ftz k y).bits) →
    exec (.vcvt f) s = .next (t.afterE .V f 2 [t.deliver f.d8 g (fmtWidth df)
      ⟨packSlots (fmtWidth df) ((List.range g).map v), 0, none, map⟩])) ∧
  (∀ (f : E64) (s t : State) (m : CMap) (a : Src) (q : Nat → QBlock),
    let df := f.fmt5.toNat
    let sf := bits f.c8.toNat 0 5
    let len := 16 * 2 ^ bits f.c8.toNat 5 2
    let n := vecLen df
    let w := fmtWidth df
    let g := s.view.shape.slots
    let blocks := (List.range (g / (n * len))).map q
    Turn.Go .V f s → (n = 1 → peekMap [f.a8, 0, 0] 0 (s.gained .V f) = .ok (m, s.gained .V f) ∧
      ownCompanion f.d8 m (s.gained .V f) = .ok ((), s.gained .V f)) →
    isBlock df = true → ftzFmt sf = true → s.view.shape.fits (max w (fmtWidth sf)) = true → g % (n * len) = 0 →
    readSrc f.a8 (some (fmtWidth sf)) (s.gained .V f) = .ok (a, t) →
    (∀ b < g / (n * len), qntBlock f.lo3 sf df len (t.wk.front f.b8.toNat) t a b = .ok (q b)) →
    exec (.vqnt f) s = .next (t.afterE .V f 3
      [t.deliver f.d8 (if isQ f.d8 then g else g / n) w
        ⟨packSlots w (blocks.flatMap QBlock.codes), packSlots 8 (blocks.map QBlock.sb), some ⟨df, len⟩, if n = 1 then a.map else .lost⟩,
       .qsat (blocks.countP QBlock.sat)])) ∧
  (∀ (f : E64) (s u t : State) (m : CMap) (a b : Src) (len : Nat) (v : Nat → List Nat),
    let df := f.fmt5.toNat
    let sf := dqFmt (bits f.c8.toNat 4 4)
    let n := vecLen sf
    let w := fmtWidth df
    let g := s.view.shape.slots
    let map := if f.ms = 1 then b.map else a.map
    Turn.Go .V f s → (n = 1 → peekMap [f.a8, f.b8, 0] f.ms (s.gained .V f) = .ok (m, s.gained .V f) ∧
      ownCompanion f.d8 m (s.gained .V f) = .ok ((), s.gained .V f)) →
    ftzFmt df = true → s.view.shape.fits (max w (fmtWidth sf)) = true →
      readSrc f.a8 (some (fmtWidth sf)) (s.gained .V f) = .ok (a, u) →
    (if f.ms = 1 then readSrc f.b8 none u = .ok (b, t) else b = .none ∧ t = u) →
    a.tag = some ⟨sf, len⟩ → len ≠ 0 → g % (n * len) = 0 →
    (∀ j < g / n, ∃ l, blockValues sf (slotOf a.scale 8 (j / len)) (a.slot (fmtWidth sf) j) (t.wk.front (bits f.c8.toNat 0 4)) = .ok l ∧
      (v j).length = n ∧ ∀ k < n, ∃ r, stoch t.wk t.view.nkey.c0 map f.lo3 (n * j + k) = .ok r ∧
        nth 0 (v j) k = (convTo df f.lo3 (f.zm || t.view.e4m3sat) t.view.ftz r (nth .nan l k)).bits) →
    exec (.vdq f) s = .next (t.afterE .V f 2 [t.deliver f.d8 t.view.shape.slots w
      ⟨packSlots w ((List.range (g / n)).map v).flatten, 0, none, if n = 1 then map else .lost⟩])) ∧
  (∀ r ∈ floatRows,
    let w := r.mant + r.expo + 1
    let sign := fun (neg : Bool) => if neg then 2 ^ (w - 1) else 0
    (∀ v < 2 ^ w,
      let neg := v.testBit (w - 1)
      let x := v / 2 ^ r.mant % 2 ^ r.expo
      let m := v % 2 ^ r.mant
      readNum r.fmt false v = (if x = 0 then .fin neg m r.low false
        else if r.fmt = 3 then (if v % 2 ^ 7 = 0x7F then .nan else .fin neg (m + 2 ^ r.mant) (r.low + (x - 1 : Nat)) false)
        else if x = 2 ^ r.expo - 1 then (if m = 0 then .inf neg else .nan)
        else .fin neg (m + 2 ^ r.mant) (r.low + (x - 1 : Nat)) false) ∧
      readNum r.fmt true v = if r.fmt ≤ 2 ∧ x = 0 then .fin neg 0 r.low false else readNum r.fmt false v) ∧
    ∀ (rm n : Nat) (sat ftz neg : Bool), rm ≤ 5 → n < 2 ^ 32 →
      let c := fun (x : XReal) => (convTo r.fmt rm sat ftz n x).bits
      c .nan = r.nan ∧
      c (.inf neg) = (if r.fmt = 3 then (if sat then sign neg + r.max else r.nan) else sign neg + r.inf) ∧
      (∀ e, c (.fin neg 0 e false) = sign neg) ∧
      ∀ (m y : Nat) (e : Int), 0 < m →
        let q : Int := max ((m.log2 : Int) + e - r.mant) r.low
        let size := y * 2 ^ (q - r.low).toNat
        let big := r.top * 2 ^ (r.topExp - r.low).toNat
        let p := c (.fin neg m e false)
        Rounds rm neg m e q n y →
        (big < size → p = (if 2 < r.fmt ∧ sat = true then sign neg + r.max else if r.fmt = 3 then r.nan
          else if rm = 1 ∨ rm = 2 ∧ neg = true ∨ rm = 3 ∧ neg = false then sign neg + r.max else sign neg + r.inf)) ∧
        (size ≤ big → ftz = true ∧ r.fmt ≤ 2 ∧ size < 2 ^ r.mant → p = sign neg) ∧
        (size ≤ big → ¬(ftz = true ∧ r.fmt ≤ 2 ∧ size < 2 ^ r.mant) →
          p < 2 ^ w ∧ ∃ k z, readNum r.fmt false p = .fin neg k z false ∧ k * 2 ^ (z - r.low).toNat = size)) ∧
  (∀ r ∈ intRows,
    let w := r.2.2
    let lo : Int := if r.2.1 then -2 ^ (w - 1) else 0
    let hi : Int := if r.2.1 then 2 ^ (w - 1) - 1 else 2 ^ w - 1
    (∀ (ftz : Bool) (v : Nat), v < 2 ^ w →
      let i : Int := if r.2.1 = true ∧ 2 ^ (w - 1) ≤ v then (v : Int) - 2 ^ w else v
      readNum r.1 ftz v = .fin (decide (i < 0)) i.natAbs 0 false) ∧
    ∀ (rm n : Nat) (sat ftz neg : Bool), rm ≤ 5 → n < 2 ^ 32 →
      let c := fun (x : XReal) => (convTo r.1 rm sat ftz n x).bits
      let as_ := fun (i : Int) => (max lo (min hi i) % 2 ^ w).toNat
      c .nan = 0 ∧ c (.inf neg) = as_ (if neg then lo else hi) ∧
      ∀ (m y : Nat) (e : Int), Rounds rm neg m e 0 n y → c (.fin neg m e false) = as_ (if neg then -y else y)) ∧
  (∀ (rdn na nb : Bool) (ma mb : Nat) (ea eb : Int),
    let a : XReal := .fin na ma ea false
    let b : XReal := .fin nb mb eb false
    (XReal.add rdn a b).exact ∧ (XReal.add rdn a b).val = a.val + b.val ∧ (a.mul b).exact ∧ (a.mul b).val = a.val * b.val ∧
    (a.val + b.val = 0 → (XReal.add rdn a b).sign = if na = nb then na else rdn) ∧ (a.mul b).sign = (na != nb)) ∧
  (∀ (fmt rm : Nat) (bank : Tab Word × Nat) (xs : List (XReal × Nat)) (amax : ℚ), isKb fmt = true → rm ≤ 5 →
    (∀ x ∈ xs, x.2 < 2 ^ 32) →
    let w := kbBits fmt
    let r := quantise fmt rm bank (xs.map fun x => ([x.1], x.2))
    let all := fun (sb : Nat) (sat : Bool) => Except.ok (⟨sb, xs.map fun _ => 0, sat⟩ : QBlock)
    ((∃ x ∈ xs, x.1 = .nan) → r = all 255 false) ∧
    ((∀ x ∈ xs, x.1 ≠ .nan) → (∃ x ∈ xs, ∃ n, x.1 = .inf n) → r = all 255 true) ∧
    ((∀ x ∈ xs, x.1.exact ∧ x.1.val = 0) → r = all 0 false) ∧
    ((∀ x ∈ xs, x.1.exact ∧ |x.1.val| ≤ amax) → (∃ x ∈ xs, |x.1.val| = amax) → 0 < amax →
      let e0 := max (Int.log 2 amax) (-127)
      let code := fun (e : Int) (x : XReal × Nat) (k : Int) => ∃ neg m ex y, x.1 = .fin neg m ex false ∧
        Rounds rm neg m (ex - e + w - 2) 0 x.2 y ∧ k = if neg then -(y : Int) else y
      let fits := fun (e : Int) => ∀ x ∈ xs, ∀ k, code e x k → -2 ^ (w - 1) ≤ k ∧ k < 2 ^ (w - 1)
      ∀ (e : Int) (ks : List Int), List.Forall₂ (code e) xs ks →
        (Fits fits e0 e → r = .ok ⟨(e + 127).toNat, ks.map (wrap (fmtWidth fmt)), false⟩) ∧
        ((∀ k, ¬ Fits fits e0 k) → e = min 127 (e0 + 3) →
          r = .ok ⟨(e + 127).toNat, ks.map fun k => wrap (fmtWidth fmt) (max (-2 ^ (w - 1)) (min (2 ^ (w - 1) - 1) k)), true⟩))) ∧
  ∀ (fmt rm : Nat) (bank : Tab Word × Nat) (xs : List (List XReal × Nat)) (amax emax : ℚ), isCb fmt = true →
    (∀ y ∈ xs, y.1.length = vecLen fmt) →
    let elems := fun (c : Nat) => (List.range (vecLen fmt)).map fun k => readNum 1 false ((tabGet 0 bank.1 c).toNat / 2 ^ (16 * k) % 2 ^ 16)
    let usable := fun (c : Nat) => c < bank.2 ∧ c < 2 ^ fmtWidth fmt ∧ ∀ x ∈ elems c, x.exact
    let far := fun (e : Int) (y : List XReal) (c : Nat) =>
      ((List.range (vecLen fmt)).map fun k => ((nth .nan y k).val / 2 ^ e - (nth .nan (elems c) k).val) ^ 2).sum
    let near := fun (e : Int) (y : List XReal × Nat) (c : Nat) => usable c ∧
      ∀ d, usable d → far e y.1 c < far e y.1 d ∨ far e y.1 c = far e y.1 d ∧ c ≤ d
    let r := quantise fmt rm bank xs
    let within := fun (p : XReal → Prop) => ∀ y ∈ xs, ∀ x ∈ y.1, p x
    let all := fun (sb : Nat) (sat : Bool) => Except.ok (⟨sb, xs.map fun _ => 0, sat⟩ : QBlock)
    (¬within (· ≠ .nan) → r = all 255 false) ∧
    (within (· ≠ .nan) → (¬within fun x => ∀ n, x ≠ .inf n) → r = all 255 true) ∧
    (within XReal.exact →
      ((∀ c, usable c → ∀ x ∈ elems c, x.val = 0) → r = .error 5) ∧
      ((∃ c, usable c ∧ ∃ x ∈ elems c, |x.val| = emax) → (∀ c, usable c → ∀ x ∈ elems c, |x.val| ≤ emax) → 0 < emax →
        (∀ c, (within fun x => x.val = 0) → near 0 (List.replicate (vecLen fmt) (.fin false 0 0 false), 0) c →
          r = .ok ⟨0, xs.map fun _ => c, false⟩) ∧
        ((within fun x => |x.val| ≤ amax) → (¬within fun x => |x.val| ≠ amax) → 0 < amax →
          let e0 := max (Int.log 2 amax - Int.log 2 emax) (-127)
          let fits := fun (e : Int) => within fun x => |x.val| / 2 ^ e ≤ emax
          ∀ (e : Int) (cs : List Nat), List.Forall₂ (near e) xs cs →
            (Fits fits e0 e → r = .ok ⟨(e + 127).toNat, cs, false⟩) ∧
            ((∀ k, ¬ Fits fits e0 k) → e = min 127 (e0 + 3) → r = .ok ⟨(e + 127).toNat, cs, true⟩))))

/-- R125 to R131, R143, R204: the instructions of V on coordinates: materialising one, maps through queues, noise, rotation, the
routing bias, and adding slots to cells, each add a write of its own that others may miss until it is performed (R272). R41,
R128: what reading a coordinate gives, and the noise function. -/
def Obligations.CoordinateInstructions : Prop :=
  (∀ (f : E64) (s t : State) (a : Src) (m : CMap) (w : Nat) (c : Nat → Coord),
    Turn.Go .V f s → peekMap [f.a8] 0 (s.gained .V f) = .ok (m, s.gained .V f) →
      ownCompanion f.d8 m (s.gained .V f) = .ok ((), s.gained .V f) → s.view.shape.fits w = true →
    w = ewWidth f → readSrc f.a8 none (s.gained .V f) = .ok (a, t) → (∀ i, t.active f i → readCoord t.wk a.map i = .ok (c i)) →
    (f.mid3 = 2 ∨ f.mid3 = 3 →
      exec (.vcrd f) s = .next (t.vOut f w 1 a.map fun i => wrap w ((c i).get f.top2))) ∧
    let key := t.view.nkey.get f.b8.toNat
    (f.mid3 = 2 → f.top2 = 0 → exec (.vnoise f) s = .next (t.vOut f w 2 a.map fun i => mix key (c i).ixl)) ∧
    (f.mid3 = 2 → f.top2 = 1 →
      exec (.vnoise f) s = .next (t.vOut f w 2 a.map fun i =>
        (convTo 0 0 false false 0 (.fin false (mix key (c i).ixl / 2 ^ 8) (-24) false)).bits)) ∧
    (f.top2 = 2 → (t.wk.front f.b8.toNat).2 ≠ 0 →
      let bank := t.wk.front f.b8.toNat
      exec (.vnoise f) s = .next (t.vOut f w 2 a.map fun i =>
        (tabGet 0 bank.1 ((c i).ixl % (bank.2 : Int)).toNat).toNat % 2 ^ w))) ∧
  (∀ (f : E64) (s t : State) (a : Src) (c : Nat → Coord) (key : Nat → Nat),
    let fmt := f.top2
    let w := fmtWidth fmt
    let table := t.wk.front f.b8.toNat
    let ev := fun (i : Nat) => i - i % 2
    Turn.Move f w id s a t →
    (∀ i, t.active f i → readCoord t.wk a.map (ev i) = .ok (c i) ∧ stoch t.wk t.view.nkey.c0 a.map f.mid3 i = .ok (key i) ∧
      0 ≤ (c i).get 0 / 2 ∧ (c i).get 0 / 2 < (table.2 : Int)) →
    exec (.vrot f) s = .next (t.vOut f w 4 a.map fun i =>
      let x := fun (n : Nat) => readNum fmt t.view.ftz (a.slot w n)
      let freq := readNum 0 false (tabGet 0 table.1 ((c i).get 0 / 2).toNat).toNat
      let r := rotate (f.mid3 == 3) ((c i).get (f.c8.toNat - 0x90)) freq (x (ev i)) (x (ev i + 1))
      (convTo fmt f.mid3 false t.view.ftz (key i) (if i % 2 = 0 then r.1 else r.2)).bits)) ∧
  (∀ (f : E64) (s t : State) (a : Src) (e : Nat → Nat),
    Turn.Move f 32 id s a t → f.mid3 = 2 →
    (∀ i, t.active f i → ∃ c, readCoord t.wk a.map i = .ok c ∧ c.get f.top2 = (e i : Int) ∧ e i < t.ln.nexp) →
    exec (.vgbias f) s = .next (t.vOut f 32 2 a.map fun i =>
      let bias := if t.ln.det then t.ln.phaseBias else t.ln.bias
      roundF32 t.view.ftz (XReal.add false (readF32 t.view.ftz (a.slot 32 i)) (readF32 t.view.ftz (nth 0 bias (e i)).toNat)))) ∧
  (∀ (f : E64) (s t : State) (a : Src) (m : CMap),
    let w := ewWidth f
    Turn.Go .V f s → s.view.shape.fits w = true → readSrc f.a8 (some w) (s.gained .V f) = .ok (a, t) → 6 ≤ t.wk.q14.length →
    mapOfWords s.view.shape.grant3 (t.wk.q14.take 6) = some m →
    let u := t.modWk fun w => { w with q14 := w.q14.drop 6 }
    exec (.vmap f) s = .next (u.afterE .V f 1 [u.deliver f.d8 u.view.shape.slots w
      ⟨packSlots w ((List.range s.view.shape.slots).map (a.slot w)), a.scale, a.tag, m⟩])) ∧
  (∀ (f : E64) (s t : State) (a : Src), Turn.Go .V f s → readSrc f.a8 none (s.gained .V f) = .ok (a, t) →
    exec (.vmapq f) s = .next (t.afterE .V f 1 [.words a.map.words])) ∧
  (∀ (f : E64) (s t : State) (a : Src),
    let fmt := bits f.c8.toNat 0 5
    let w := ewWidth f
    let z := s.view.tile f.d8.toNat
    let g := s.view.shape.slots
    Turn.Go .V f s → caddFormat fmt = true → fmtWidth fmt = w → s.view.shape.fits w = true → z.ok = true →
    g ≤ z.rows.toNat * z.cols.toNat → readSrc f.a8 (some w) (s.gained .V f) = .ok (a, t) →
    let l := ((List.range g).filter (activeIn (t.maskOf f.lo3))).map fun i => (z.base.toNat + i, termOf fmt (a.slot w i))
    let u := (t.mendCells (l.map Prod.fst)).addTerms z.anch l
    (∀ x, t.cellCheck (l.map Prod.fst) = some x → exec (.vcadd f) s = .next (s.machineCheck s.wk 2 2 x s.st.pc)) ∧
    (t.cellCheck (l.map Prod.fst) = none → exec (.vcadd f) s = .next (u.afterE .V f 0 []) ∧
      u.wk = { t.wk with cells := u.wk.cells } ∧
      ∀ c, u.wk.cell c = if z.base.toNat ≤ c ∧ c < z.base.toNat + g ∧ activeIn (t.maskOf f.lo3) (c - z.base.toNat) = true
        then admitTerm z.anch (termOf fmt (a.slot w (c - z.base.toNat))) (t.wk.cell c) else t.wk.cell c)) ∧
  (∀ (s : State) (anchor : Int) (l : List (Nat × XReal)),
    let ids := fun (k : Nat) => match s.writes with
      | u :: _ => u.id + 1 + k
      | [] => k
    ∃ new, (s.addTerms anchor l).writes = new.reverse ++ s.writes ∧
      List.Forall₂ (fun (e : (Nat × XReal) × Nat) (u : Write) => u.spot = .cell s.curKey ∧ u.line = e.1.1 ∧
        u.edit = .add (admitTerm anchor e.1.2 0) ∧ u.who = some ⟨s.curKey, .strand s.curEng⟩ ∧ u.pos = s.st.pos ∧ u.reach = [] ∧
        u.id = ids e.2 ∧ u.done = false) l.zipIdx new) ∧
  (∀ (w : Worker) (g : Grant3) (t : Quad Nat) (st : Quad Int) (o : Quad (BitVec 32)) (e : Quad Nat) (comp i : Nat),
    let at_ : Quad Nat := ⟨i % g.g0, i / g.g0 % g.g1, i / (g.g0 * g.g1) % g.g2, i / (g.g0 * g.g1 * g.g2)⟩
    let part := fun (a j : Nat) => if t.get j = a then st.get j * (at_.get j : Int) else 0
    let c := fun (a : Nat) => o.get a + BitVec.ofInt 32 (part a 0 + part a 1 + part a 2 + part a 3)
    let x := fun (n : Nat) => BitVec.ofNat 32 n
    let l := BitVec.toInt (BitVec.ofNat 32 ((w.vget comp).data.toNat / 2 ^ (32 * i)))
    readCoord w .lost i = .error 3 ∧
    readCoord w (.affine g t st o e) i = .ok ⟨⟨(c 0).toInt, (c 1).toInt, (c 2).toInt, (c 3).toInt⟩,
      (c 0 + x e.c0 * (c 1 + x e.c1 * (c 2 + x e.c2 * c 3))).toInt⟩ ∧
    (8192 ≤ i → readCoord w (.explicit g comp e) i = .error 3) ∧
    (i < 8192 → l < 0 ∨ (e.c0 * e.c1 * e.c2 * e.c3 : Nat) ≤ l → readCoord w (.explicit g comp e) i = .error 4) ∧
    (i < 8192 → 0 ≤ l → l < (e.c0 * e.c1 * e.c2 * e.c3 : Nat) → readCoord w (.explicit g comp e) i =
      .ok ⟨⟨l % e.c0, l / e.c0 % e.c1, l / (e.c0 * e.c1) % e.c2, l / (e.c0 * e.c1 * e.c2)⟩, l⟩)) ∧
  ∀ (key : Word) (idx : Int),
    let round := fun (p : BitVec 32 × BitVec 32) =>
      let a := p.1 + p.2
      let b := (a ^^^ a >>> 16) * 0x6C8E9CF5
      (b ^^^ b >>> 15, p.2 * 0x2C1B3C6D + 0x9E3779B9)
    mix key idx = (round (round (round (round (BitVec.ofInt 32 idx ^^^ key.extractLsb' 0 32, key.extractLsb' 32 32))))).1.toNat

/-- R132 to R139: each movement instruction of V, slot by slot: where a destination slot comes from, and its map. R43, R44: what
each map becomes; a reshaped map that is not LOST gives every slot the coordinates it had (the EXPLICIT case is log 46). -/
def Obligations.Movements : Prop :=
  (∀ (f : E64) (s t : State) (a : Src),
    let w := ewWidth f
    let raw := f.top2 = 1
    let side := ¬raw ∧ f.lo3 = 7
    let map := fun (m : CMap) => if raw then .lost else m
    Turn.Move f w map s a t →
    exec (.vmov f) s = .next (t.afterE .V f 1 [t.deliver f.d8 t.view.shape.slots w
      ⟨t.took f f.d8 w (a.slot w), if side then a.scale else 0, if side then a.tag else none, map a.map⟩])) ∧
  (∀ (f : E64) (s u t : State) (a b : Src) (n : Int),
    let w := ewWidth f
    let j := f.top2
    let sh := t.view.shape
    let at_ := fun (k : Int) (i : Nat) => if 0 ≤ k ∧ k < sh.size j then a.slot w (sh.moveTo j i k.toNat) else 0
    Turn.Move f w (fun _ => .lost) s a u → readSrc f.b8 (some 64) u = .ok (b, t) →
    n = (match b with
      | .imm k => k
      | .bcast v => signed 64 v
      | _ => 0) →
    exec (.vslice f) s =
      .next (t.vOut f w 1 (a.map.slice j n) fun i => if n < 0 then 0 else at_ (sh.indexOn j i + n) i) ∧
    exec (.vshift f) s = .next (t.vOut f w 1 (a.map.slice j (-n)) fun i => at_ (sh.indexOn j i - n) i) ∧
    exec (.vbcast f) s = .next (t.vOut f w 1 (a.map.bcast j n) fun i => at_ n i)) ∧
  (∀ (f : E64) (s t : State) (a : Src),
    let w := ewWidth f
    (Turn.Move f w CMap.transpose s a t →
      let g0 := t.view.shape.g.c0
      let g1 := t.view.shape.g.c1
      exec (.vtrn f) s = .next (t.vOut f w 1 a.map.transpose fun i =>
        a.slot w (i / g1 % g0 + g0 * (i % g1 + g1 * (i / (g0 * g1)))))) ∧
    (Turn.Move f w (fun m => m.reshape s.view.shape) s a t →
      exec (.vresh f) s = .next (t.vOut f w 1 (a.map.reshape s.view.shape) (a.slot w)))) ∧
  (∀ (f : E64) (s u t : State) (a ix : Src) (ixl : Nat → Nat),
    let w := ewWidth f
    let j := f.top2
    let g := s.view.shape.slots
    let on := activeIn (t.maskOf f.lo3)
    let k := fun (i : Nat) => signed 32 (ix.slot 32 i)
    let hit := fun (i : Nat) => on i && decide (0 ≤ k i ∧ k i < s.view.shape.size j)
    let src := fun (i : Nat) => s.view.shape.moveTo j i (k i).toNat
    Turn.Go .V f s → (isV f.c8 = true → f.c8 ≠ f.d8) → s.view.shape.fits w = true → s.view.shape.fits 32 = true →
    readSrc f.a8 (some w) (s.gained .V f) = .ok (a, u) → readSrc f.b8 (some 32) u = .ok (ix, t) →
    (∀ i < g, hit i = true → isV f.c8 = true → ∃ c, readCoord t.wk a.map (src i) = .ok c ∧ ixl i = wrap 32 c.ixl) →
    exec (.vperm f) s = .next (t.afterE .V f 1 (t.pairActs f.d8 f.c8 w
      ((List.range g).map fun i => if on i then (if hit i then a.slot w (src i) else 0) else t.inactive f.d8 f.zm w i)
      ((List.range g).map fun i => if hit i then (if isV f.c8 then ixl i else 0) else 2 ^ 32 - 1) a.map))) ∧
  (∀ (f : E64) (s t : State) (a : Src) (ixl : Nat → Nat),
    let w := ewWidth f
    let j := f.top2
    let sh := s.view.shape
    let g := sh.slots
    let from_ := fun (i : Nat) => (t.line f j i)[sh.indexOn j i]?
    Turn.Go .V f s → (isV f.b8 = true → f.b8 ≠ f.d8) → sh.fits w = true → (isV f.b8 = true → sh.fits 32 = true) →
    readSrc f.a8 (some w) (s.gained .V f) = .ok (a, t) →
    (∀ i < g, activeIn (t.maskOf f.lo3) i = true → isV f.b8 = true → ∃ c, readCoord t.wk a.map i = .ok c ∧ ixl i = wrap 32 c.ixl) →
    (isV f.b8 = false → ∀ i, ixl i = 0) →
    exec (.vcompact f) s = .next (t.afterE .V f 1 (t.pairActs f.d8 f.b8 w
      ((List.range g).map fun i => (from_ i).elim 0 (a.slot w)) ((List.range g).map fun i => (from_ i).elim (2 ^ 32 - 1) ixl) a.map))) ∧
  (∀ (f : E64) (s t : State) (x : Lane),
    let w := ewWidth f
    let j := f.top2
    let map := fun (m : CMap) => if f.ms = 0 then .lost else m
    Turn.Go .V f s → moveChecks f w map (s.gained .V f) = .ok ((), s.gained .V f) → readLane f 1 w (s.gained .V f) = .ok (x, t) →
    exec (.vexpand f) s = .next (t.vOut f w 1 (map x.map) fun i =>
      x.a.slot w (t.view.shape.moveTo j i ((t.line f j i).countP fun k => decide (k < i))))) ∧
  (∀ (g : Grant3) (t : Quad Nat) (st : Quad Int) (o : Quad (BitVec 32)) (e : Quad Nat) (comp j : Nat) (n : Int) (sh : Shape), j < 4 →
    (∀ k, t.get k < 4 ∨ t.get k = 7) →
    let m : CMap := .affine g t st o e
    let x : CMap := .explicit g comp e
    let moved := fun (n : Int) => if t.get j = 7 then o else o.set (t.get j) (o.get (t.get j) + BitVec.ofInt 32 (st.get j * n))
    m.slice j n = .affine g t st (moved n) e ∧ m.bcast j n = .affine g t (st.set j 0) (moved n) e ∧
    m.reduce j = .affine g t (st.set j 0) o e ∧
    m.transpose = .affine ⟨g.g1, g.g0, g.g2⟩ ⟨t.c1, t.c0, t.c2, t.c3⟩ ⟨st.c1, st.c0, st.c2, st.c3⟩ o e ∧
    m.onCompanion sh comp = .explicit sh.grant3 comp e ∧
    x.slice j n = .lost ∧ x.bcast j n = .lost ∧ x.transpose = .lost ∧ x.reduce j = x ∧ x.reshape sh = .explicit sh.grant3 comp e ∧
    x.onCompanion sh comp = .explicit sh.grant3 comp e ∧
    (∀ y ∈ [CMap.slice .lost j n, CMap.bcast .lost j n, CMap.reduce .lost j, CMap.transpose .lost, CMap.reshape .lost sh,
      CMap.onCompanion .lost sh comp], y = .lost) ∧
    (let good := (∀ k < 4, 1 ≤ e.get k) ∧ e.c0 * e.c1 * e.c2 * e.c3 ≤ 2 ^ 31
     (good → x.check = x) ∧ (¬good → x.check = .lost ∧ m.check = .lost) ∧
     (good → (∀ k < 4, -128 ≤ st.get k ∧ st.get k ≤ 127) → m.check = m) ∧
     ((¬∀ k < 4, -128 ≤ st.get k ∧ st.get k ≤ 127) → m.check = .lost)) ∧
    (∀ feeds : Nat → Bool,
      let on := fun (k : Nat) => feeds k = true ∧ 1 < sh.size k
      let d := fun (k : Nat) => if on k then (k, (1 : Int)) else (7, 0)
      freshMap sh feeds o e =
        CMap.check (.affine sh.grant3 ⟨(d 0).1, (d 1).1, (d 2).1, (d 3).1⟩ ⟨(d 0).2, (d 1).2, (d 2).2, (d 3).2⟩ o e)) ∧
    (0 < sh.slots →
      let p := g.g0 * g.g1 * g.g2
      (p = 0 ∨ sh.slots % p ≠ 0 → m.reshape sh = .lost) ∧
      (p ≠ 0 → sh.slots % p = 0 →
        let olds := [(g.g0, t.c0, st.c0), (g.g1, t.c1, st.c1), (g.g2, t.c2, st.c2), (sh.slots / p, t.c3, st.c3)].filter (·.1 ≠ 1)
        let news := [sh.g.c0, sh.g.c1, sh.g.c2, sh.g.c3]
        (∀ (ds : List (Nat × Int)) (d0 d1 d2 d3 : Nat × Int),
          let all := news.zip [d0, d1, d2, d3]
          Matched olds (news.filter (· ≠ 1)) ds → (all.filter (·.1 ≠ 1)).map Prod.snd = ds → (∀ x ∈ all, x.1 = 1 → x.2 = (7, 0)) →
          m.reshape sh = CMap.check (.affine sh.grant3 ⟨d0.1, d1.1, d2.1, d3.1⟩ ⟨d0.2, d1.2, d2.2, d3.2⟩ o e)) ∧
        ((∀ ds, ¬ Matched olds (news.filter (· ≠ 1)) ds) → m.reshape sh = .lost)))) ∧
  ∀ (m : CMap) (sh : Shape) (w : Worker) (i : Nat), i < sh.slots → m.reshape sh ≠ .lost →
    readCoord w (m.reshape sh) i = readCoord w m i

/-- R84, R140 to R142, R244 to R246: reductions give every active slot the value of the active slots of its line, scans that of
the active slots up to it, or below it; `vrargmax` gives the logical index of the first maximum; `vatmrg` merges triples line by
line and is recorded in the tree-shape record. R245: what merging two triples gives, the same either way round. R84, R140: a
float sum is the exact one, rounded once, with its NaNs, infinities and signed zeros, an integer sum the exact one modulo 2^w; an
empty line gives zero. R140, R141: a maximum or minimum is an element unchanged but for FTZ, −0 below +0, NaN only where every
element is one; the value of an empty line; the element that `vrargmax` takes, of equals the one with the lowest index. -/
def Obligations.ReductionsAndMerges : Prop :=
  (∀ (f : E64) (s t : State) (a : Src) (key : Nat → Nat) (g : CMap → CMap),
    let w := ewWidth f
    let fmt := bits f.c8.toNat 0 5
    let rm := bits f.c8.toNat 5 3
    let j := f.top2
    let vals := fun (l : List Nat) => l.map (a.slot w)
    let sum := fun (i : Nat) (l : List Nat) => sumSlots fmt rm t.view.ftz (key i) (vals l)
    Turn.Move f w g s a t → redOk fmt = true → fmtWidth fmt = w →
    (∀ i, t.active f i → if ftzFmt fmt then stoch t.wk t.view.nkey.c0 a.map rm i = .ok (key i) else key i = 0) →
    (g = (fun m => m.reduce j) →
      exec (.vrsum f) s = .next (t.vOut f w 3 (a.map.reduce j) fun i => sum i (t.line f j i)) ∧
      exec (.vrmax f) s =
        .next (t.vOut f w 3 (a.map.reduce j) fun i => extremeSlots fmt t.view.ftz true (vals (t.line f j i))) ∧
      exec (.vrmin f) s =
        .next (t.vOut f w 3 (a.map.reduce j) fun i => extremeSlots fmt t.view.ftz false (vals (t.line f j i)))) ∧
    (g = id →
      exec (.vscan f) s =
        .next (t.vOut f w 3 a.map fun i => sum i ((t.line f j i).filter fun k => decide (k ≤ i))) ∧
      exec (.vxscan f) s =
        .next (t.vOut f w 3 a.map fun i => sum i ((t.line f j i).filter fun k => decide (k < i))))) ∧
  (∀ (f : E64) (s t : State) (a : Src) (ixl : Nat → Int),
    let w := ewWidth f
    let fmt := bits f.c8.toNat 0 5
    let j := f.top2
    Turn.Move f w (fun m => m.reduce j) s a t → redOk fmt = true → fmtWidth fmt = w → s.view.shape.fits 32 = true →
    (∀ i, t.active f i → ∃ c, readCoord t.wk a.map i = .ok c ∧ c.ixl = ixl i) →
    exec (.vrargmax f) s = .next (t.vOut f 32 3 (a.map.reduce j) fun i =>
      match extreme fmt t.view.ftz true (contenders fmt t.view.ftz ((t.line f j i).map fun k => (a.slot w k, ixl k))) with
      | some x => wrap 32 x.2
      | none => 2 ^ 32 - 1)) ∧
  (∀ (f : E64) (s u t : State) (a b : Src),
    let sh := t.view.shape
    let g := sh.size 0
    let row := fun (x : Src) (r : Nat) => Triple.ofList ((List.range g).map fun i => x.slot 32 (g * r + i))
    Turn.Move f 32 id s a u → readSrc f.b8 (some 32) u = .ok (b, t) →
    let v := t.modWk fun w => { w with treeLog := w.treeLog ++ [[BitVec.ofNat 64 t.st.pc.toNat, BitVec.ofNat 64 f.c8.toNat]] }
    exec (.vatmrg f) s = .next (v.afterE .V f 4 [v.deliver f.d8 v.view.shape.slots 32 ⟨packSlots 32
      ((List.range (sh.slots / g)).flatMap fun r => (Triple.merge t.view.ftz (row a r) (row b r)).toList), 0, none, a.map⟩])) ∧
  (∀ (fmt rm k : Nat) (ftz : Bool) (l : List Nat), fmt ≤ 2 → rm ≤ 5 → k < 2 ^ 32 →
    let xs := l.map (readNum fmt ftz)
    let out := fun (x : XReal) => (convTo fmt rm false ftz k x).bits
    let r := sumSlots fmt rm ftz k l
    (l = [] → r = 0) ∧
    (.nan ∈ xs ∨ .inf false ∈ xs ∧ .inf true ∈ xs → r = out .nan) ∧
    (∀ n, .nan ∉ xs → .inf n ∈ xs → .inf (!n) ∉ xs → r = out (.inf n)) ∧
    (l ≠ [] → (∀ x ∈ xs, x.isFin = true) →
      let v := (xs.map XReal.val).sum
      (v ≠ 0 → ∃ y, y.exact ∧ y.val = v ∧ r = out y) ∧
      (v = 0 → r = out (.fin (rm == 3 || xs.all XReal.sign) 0 0 false)))) ∧
  (∀ c ∈ intRows, ∀ (rm k : Nat) (ftz mx : Bool) (l : List Nat),
    let w := c.2.2
    let num := fun (v : Nat) => if c.2.1 then signed w v else ((v % 2 ^ w : Nat) : Int)
    let e := extremeSlots c.1 ftz mx l
    sumSlots c.1 rm ftz k l = ((l.map num).sum % 2 ^ w).toNat ∧
    (l = [] → (e : Int) = (if c.2.1 then (if mx then 2 ^ (w - 1) else 2 ^ (w - 1) - 1) else if mx then 0 else 2 ^ w - 1)) ∧
    (l ≠ [] → ∃ v ∈ l, e = v % 2 ^ w ∧ ∀ u ∈ l, if mx then num u ≤ num v else num v ≤ num u)) ∧
  (∀ r ∈ floatRows, r.fmt ≤ 2 → ∀ (ftz mx : Bool) (l : List Nat), (∀ v ∈ l, v < 2 ^ (r.mant + r.expo + 1)) →
    let rd := readNum r.fmt ftz
    let e := extremeSlots r.fmt ftz mx l
    (l = [] → e = r.inf + if mx then 2 ^ (r.mant + r.expo) else 0) ∧
    (l ≠ [] → (∀ v ∈ l, rd v = .nan) → e = r.nan) ∧
    ((∃ v ∈ l, rd v ≠ .nan) → ∃ v ∈ l, rd v ≠ .nan ∧ e = r.flush ftz v ∧
      ∀ u ∈ l, rd u ≠ .nan → if mx then ¬ (rd v).Below (rd u) else ¬ (rd u).Below (rd v))) ∧
  (∀ (fmt : Nat) (ftz : Bool) (l : List (Nat × Int)), redOk fmt = true →
    let rd := fun (p : Nat × Int) => readNum fmt ftz p.1
    let best := extreme fmt ftz true (contenders fmt ftz l)
    (l = [] → best = none) ∧
    (l ≠ [] → ∃ p ∈ l, best = some p ∧
      ((∀ q ∈ l, rd q = .nan) → ∀ q ∈ l, p.2 ≤ q.2) ∧
      ((∃ q ∈ l, rd q ≠ .nan) → rd p ≠ .nan ∧
        ∀ q ∈ l, rd q ≠ .nan → ¬ (rd p).Below (rd q) ∧ (¬ (rd q).Below (rd p) → p.2 ≤ q.2)))) ∧
  ∀ (ftz : Bool) (l r : Triple), l.a.length = r.a.length → (∀ x ∈ l.toList ++ r.toList, x < 2 ^ 32) →
    let rd := readNum 0 ftz
    let rnd := fun (x : XReal) => (convTo 0 0 false ftz 0 x).bits
    let bad := ∃ x ∈ [l.m, r.m], rd x = .nan ∨ rd x = .inf false
    let m := minMaxBits 0 ftz true l.m r.m
    let t := Triple.merge ftz l r
    (bad ∨ rd l.s = .nan ∨ rd r.s = .nan → t = ⟨0x7FC00000, 0x7FC00000, l.a.map fun _ => 0x7FC00000⟩) ∧
    (rd l.m = .inf true → rd r.m = .inf true → rd l.s ≠ .nan → rd r.s ≠ .nan → t = ⟨0xFF800000, 0, l.a.map fun _ => 0⟩) ∧
    (¬bad → rd l.s ≠ .nan → rd r.s ≠ .nan → (rd l.m ≠ .inf true ∨ rd r.m ≠ .inf true) →
      let c := fun (x : Nat) => rd (rnd (Trans.exp (XReal.add false (rd x) (rd m).neg)))
      let join := fun (x y : Nat) => rnd (XReal.add false ((rd x).mul (c l.m)) ((rd y).mul (c r.m)))
      t = ⟨m, join l.s r.s, List.zipWith join l.a r.a⟩) ∧
    t = Triple.merge ftz r l

/-- (1) R7, R41, R108, R125, R129, R204: the lane arithmetic of V, `vcrd`, `vnoise` and `vgbias` report the lowest active slot
whose coordinates cannot be read, or for `vgbias` name no expert, with nothing changed; `vnoise.tab` the first one with cause 5
where its bank is empty. R130: `vrot` reports the even slot of a pair, for its coordinates or with cause 5 for a table entry
that is not there. R136, R137, R141: `vperm`, `vcompact` and `vrargmax` report the lowest active slot whose index they cannot
read. R76, R120: `vdq` reports a code outside its bank with cause 5 at the lowest such slot (which fault comes first under rsr:
log 62); R77: `vqnt` the first slot of a block that no entry of its bank can hold. (2) R30: a V instruction that is guarded off
writes nothing, still pops the queues that its sources name and pushes one zero entry with a LOST map to a queue named as
destination, at the shadow of its result (log 6); `vmapq` pushes six zero words and `mcnt` one, `vmap` drops its six. -/
def Obligations.EngineFaultsAndGuardedOff : Prop :=
  (∀ (f : E64) (s t : State) (x : Lane) (n w i cause : Nat),
    let read := fun (k : Nat) => readCoord t.wk x.map k
    let named := ∃ k, x.a = .coord k ∨ x.b = .coord k ∨ x.c = .coord k
    let trap := Host.Outcome.next (s.takeTrap .V s.st.pc ⟨cause, 0, 0, some i⟩)
    Turn.Lane f n w s x t → t.active f i → read i = .error cause →
    (∀ k < i, activeIn (t.maskOf f.lo3) k = true → ∃ c, read k = .ok c) →
    (w = fmtWidth f.top2 → named ∨ f.mid3 = 5 →
      (n = 1 → ∀ o ∈ [Instr.vsqrt f, .vrcp f, .vrsq f, .vexp2 f, .vlog2 f, .vtanh f], exec o s = trap) ∧
      (n = 2 → ∀ o ∈ [Instr.vadd f, .vsub f, .vmul f, .vdiv f], exec o s = trap) ∧
      (n = 3 → ∀ o ∈ [Instr.vfma f, .vfms f, .vfnma f], exec o s = trap)) ∧
    (w = tyWidth f.top2 → named → n = 2 →
      ∀ o ∈ [Instr.viadd f, .visub f, .vimul f, .vimulh f, .viand f, .vior f, .vixor f, .vishl f, .vishr f, .visra f, .vimin f,
        .vimax f], exec o s = trap)) ∧
  (∀ (f : E64) (s t : State) (a : Src) (m : CMap) (i cause : Nat), Turn.Go .V f s →
    peekMap [f.a8] 0 (s.gained .V f) = .ok (m, s.gained .V f) → ownCompanion f.d8 m (s.gained .V f) = .ok ((), s.gained .V f) →
      s.view.shape.fits (ewWidth f) = true →
    readSrc f.a8 none (s.gained .V f) = .ok (a, t) → t.active f i → readCoord t.wk a.map i = .error cause →
    (∀ k < i, activeIn (t.maskOf f.lo3) k = true → ∃ c, readCoord t.wk a.map k = .ok c ∧
      (f.top2 = 2 → (t.wk.front f.b8.toNat).2 ≠ 0)) →
    let trap := Host.Outcome.next (s.takeTrap .V s.st.pc ⟨cause, 0, 0, some i⟩)
    (f.mid3 = 2 ∨ f.mid3 = 3 → exec (.vcrd f) s = trap) ∧ (f.top2 = 2 ∨ f.mid3 = 2 → exec (.vnoise f) s = trap)) ∧
  (∀ (f : E64) (s t : State) (a : Src) (i : Nat) (c : Coord), Turn.Move f 32 id s a t → f.mid3 = 2 → t.active f i →
    readCoord t.wk a.map i = .ok c → (c.get f.top2 < 0 ∨ (t.ln.nexp : Int) ≤ c.get f.top2) →
    (∀ k < i, activeIn (t.maskOf f.lo3) k = true →
      ∃ d, readCoord t.wk a.map k = .ok d ∧ 0 ≤ d.get f.top2 ∧ d.get f.top2 < t.ln.nexp) →
    exec (.vgbias f) s = .next (s.takeTrap .V s.st.pc ⟨4, 0, 0, some i⟩)) ∧
  (∀ (f : E64) (s t : State) (a : Src) (m : CMap) (i : Nat) (c : Coord), Turn.Go .V f s → f.top2 = 2 →
    peekMap [f.a8] 0 (s.gained .V f) = .ok (m, s.gained .V f) → ownCompanion f.d8 m (s.gained .V f) = .ok ((), s.gained .V f) →
    s.view.shape.fits (ewWidth f) = true → readSrc f.a8 none (s.gained .V f) = .ok (a, t) → t.active f i →
    (∀ k < i, activeIn (t.maskOf f.lo3) k = false) → readCoord t.wk a.map i = .ok c → (t.wk.front f.b8.toNat).2 = 0 →
    exec (.vnoise f) s = .next (s.takeTrap .V s.st.pc ⟨5, 0, 0, some i⟩)) ∧
  (∀ (f : E64) (s t : State) (a : Src) (i : Nat),
    let ev := fun (k : Nat) => k - k % 2
    let count : Int := ((t.wk.front f.b8.toNat).2 : Nat)
    let pair := fun (k : Nat) => ∃ c, readCoord t.wk a.map (ev k) = .ok c ∧ 0 ≤ c.get 0 / 2 ∧ c.get 0 / 2 < count
    let key := fun (k : Nat) => stoch t.wk t.view.nkey.c0 a.map f.mid3 k
    let trap := fun (cause k : Nat) => Host.Outcome.next (s.takeTrap .V s.st.pc ⟨cause, 0, 0, some k⟩)
    Turn.Move f (fmtWidth f.top2) id s a t → t.active f i →
    (∀ k < i, activeIn (t.maskOf f.lo3) k = true → pair k ∧ ∃ r, key k = .ok r) →
    (∀ cause, readCoord t.wk a.map (ev i) = .error cause → exec (.vrot f) s = trap cause (ev i)) ∧
    (∀ c, readCoord t.wk a.map (ev i) = .ok c → (c.get 0 / 2 < 0 ∨ count ≤ c.get 0 / 2) → exec (.vrot f) s = trap 5 (ev i)) ∧
    (pair i → ∀ cause, key i = .error cause → exec (.vrot f) s = trap cause i)) ∧
  (∀ (f : E64) (s u t : State) (a ix : Src) (i cause : Nat),
    let w := ewWidth f
    let p := s.gained .V f
    let k := fun (i : Nat) => signed 32 (ix.slot 32 i)
    let hit := fun (i : Nat) => activeIn (t.maskOf f.lo3) i = true ∧ 0 ≤ k i ∧ k i < s.view.shape.size f.top2
    let src := fun (i : Nat) => readCoord t.wk a.map (s.view.shape.moveTo f.top2 i (k i).toNat)
    Turn.Go .V f s → isV f.c8 = true → f.c8 ≠ f.d8 → s.view.shape.fits w = true → s.view.shape.fits 32 = true →
    readSrc f.a8 (some w) p = .ok (a, u) → readSrc f.b8 (some 32) u = .ok (ix, t) → i < s.view.shape.slots → hit i →
    src i = .error cause → (∀ j < i, hit j → ∃ c, src j = .ok c) →
    exec (.vperm f) s = .next (s.takeTrap .V s.st.pc ⟨cause, 0, 0, some i⟩)) ∧
  (∀ (f : E64) (s t : State) (a : Src) (i cause : Nat),
    let w := ewWidth f
    let fmt := bits f.c8.toNat 0 5
    let on := fun (k : Nat) => activeIn (t.maskOf f.lo3) k = true
    let read := readCoord t.wk a.map
    i < s.view.shape.slots → on i → read i = .error cause → (∀ k < i, on k → ∃ c, read k = .ok c) →
    let trap := Host.Outcome.next (s.takeTrap .V s.st.pc ⟨cause, 0, 0, some i⟩)
    (Turn.Go .V f s → isV f.b8 = true → f.b8 ≠ f.d8 → s.view.shape.fits w = true → s.view.shape.fits 32 = true →
      readSrc f.a8 (some w) (s.gained .V f) = .ok (a, t) → exec (.vcompact f) s = trap) ∧
    (Turn.Move f w (fun m => m.reduce f.top2) s a t → redOk fmt = true → fmtWidth fmt = w → s.view.shape.fits 32 = true →
      exec (.vrargmax f) s = trap)) ∧
  (∀ (f : E64) (s u t : State) (m : CMap) (a b : Src) (len j : Nat),
    let p := s.gained .V f
    let df := f.fmt5.toNat
    let sf := dqFmt (bits f.c8.toNat 4 4)
    let n := vecLen sf
    let g := s.view.shape.slots
    let map := if f.ms = 1 then b.map else a.map
    let bank := t.wk.front (bits f.c8.toNat 0 4)
    let key := fun (k : Nat) => stoch t.wk t.view.nkey.c0 map f.lo3 k
    let read := fun (j : Nat) => blockValues sf (slotOf a.scale 8 (j / len)) (a.slot (fmtWidth sf) j) bank
    let trap := fun (cause k : Nat) => Host.Outcome.next (s.takeTrap .V s.st.pc ⟨cause, 0, 0, some k⟩)
    Turn.Go .V f s → (n = 1 → peekMap [f.a8, f.b8, 0] f.ms p = .ok (m, p) ∧ ownCompanion f.d8 m p = .ok ((), p)) →
    ftzFmt df = true → s.view.shape.fits (max (fmtWidth df) (fmtWidth sf)) = true →
      readSrc f.a8 (some (fmtWidth sf)) p = .ok (a, u) →
    (if f.ms = 1 then readSrc f.b8 none u = .ok (b, t) else b = .none ∧ t = u) →
    a.tag = some ⟨sf, len⟩ → len ≠ 0 → g % (n * len) = 0 → j < g / n →
    (∀ k < j, (∃ l, read k = .ok l) ∧ ∀ q < n, ∃ r, key (n * k + q) = .ok r) →
    (isCb sf = true → slotOf a.scale 8 (j / len) ≠ 255 → bank.2 ≤ a.slot (fmtWidth sf) j → exec (.vdq f) s = trap 5 j) ∧
    (∀ l q cause, read j = .ok l → q < n → (∀ k < q, ∃ r, key (n * j + k) = .ok r) → key (n * j + q) = .error cause →
      exec (.vdq f) s = trap cause (n * j + q))) ∧
  (∀ (f : E64) (s t : State) (m : CMap) (a : Src) (b cause : Nat) (y : Nat → XReal × Nat),
    let p := s.gained .V f
    let df := f.fmt5.toNat
    let sf := bits f.c8.toNat 0 5
    let len := 16 * 2 ^ bits f.c8.toNat 5 2
    let n := vecLen df
    let g := s.view.shape.slots
    let bank := t.wk.front f.b8.toNat
    let first := b * len * n
    Turn.Go .V f s → (n = 1 → peekMap [f.a8, 0, 0] 0 p = .ok (m, p) ∧ ownCompanion f.d8 m p = .ok ((), p)) →
    isBlock df = true → ftzFmt sf = true → s.view.shape.fits (max (fmtWidth df) (fmtWidth sf)) = true → g % (n * len) = 0 →
    readSrc f.a8 (some (fmtWidth sf)) p = .ok (a, t) → b < g / (n * len) →
    (∀ k < b, ∃ q, qntBlock f.lo3 sf df len bank t a k = .ok q) →
    (∀ i, first ≤ i → i < first + len * n → qntSlot f.lo3 sf df t a i = .ok (y i)) →
    quantise df f.lo3 bank ((List.range len).map fun c =>
      ((List.range n).map fun k => (y (first + n * c + k)).1, (y (first + n * c)).2)) = .error cause →
    exec (.vqnt f) s = .next (s.takeTrap .V s.st.pc ⟨cause, 0, 0, some first⟩)) ∧
  ∀ (f : E64) (s t : State) (i : Instr) (srcs : List (BitVec 8 × Option Nat)) (w k : Nat), Turn.Ready .V s →
    (∀ q ∈ tokPops .V f.tk, 0 < s.wk.tokensIn q) → s.view.guard f.g = false →
    let zero := fun (w : Nat) =>
      if isQ f.d8 then [Landing.image (f.d8.toNat - 0x80) ⟨t.view.shape.slots, w, 0, 0, none, .lost, []⟩] else []
    let at_ := fun (k : Nat) => if isQ f.d8 then k else 0
    (Off.traffic i = some (f, srcs, w, k) → discard srcs (s.gained .V f) = .ok ((), t) →
      exec i s = .next (t.afterE .V f (at_ k) (zero w))) ∧
    (discard (laneOff f 2 (cmpWidth f)) (s.gained .V f) = .ok ((), t) → exec (.vcmp f) s = .next (t.afterE .V f 0 [])) ∧
    (discard [(f.a8, some (ewWidth f))] (s.gained .V f) = .ok ((), t) →
      exec (.vcadd f) s = .next (t.afterE .V f 0 []) ∧
      (6 ≤ t.wk.q14.length →
        exec (.vmap f) s =
          .next ((t.setWk { t.wk with q14 := t.wk.q14.drop 6 }).afterE .V f (at_ 1) (zero (ewWidth f))))) ∧
    (discard [(f.a8, none)] (s.gained .V f) = .ok ((), t) →
      exec (.vmapq f) s = .next (t.afterE .V f 1 [.words [0, 0, 0, 0, 0, 0]])) ∧
    (∀ o ∈ [Instr.mand f, .mor f, .mxor f, .mnot f, .vpset f, .vatmrg f], exec o s = .next ((s.gained .V f).afterE .V f 0 [])) ∧
    exec (.mcnt f) s = .next ((s.gained .V f).afterE .V f 2 [.words [0]])

/-! ## L, M and W -/

/-- (1) R155 to R167: each load checks and reads the elements of its slots, in slot order; what it loaded is pending with the
tag of a block format and the map of the position it was read at; unless NA is set the furrow then advances. An element
instruction reads each element through the furrow as it stands at it. What a load leaves pending: slot i of a register takes the
value of slot i, an out-of-frame slot 0, an inactive slot keeps the old one; a block's scale byte goes into the sideband the same
way; a queue gets an entry with 0 in the inactive slots, pinned to the lines its parts came from. (2) R165, R166, R188, R202: the
L instructions that load nothing: a prefetch, moving a furrow, and making the back copy of a bank the front. (3) R152, R154: which
furrows an instruction refuses. (4) R155, R157: the advance, with END and the captures; earlier captures
stay (log 51). Addresses under a format override follow log 17, the place of the context check log 57; an advance at END stays
there (log 31); a load for a queue waits for lines as log 47 says. -/
def Obligations.LoadsAndFurrowMoves : Prop :=
  (∀ (f : E64) (o t : State) (x : Loaded) (acts : List Landing), Turn.Go .L f o →
    let s := o.gained .L f
    let u := s.furrow f.a8
    let eff := u.effective f.fmt5.toNat
    let w := fmtWidth eff
    let sh := s.view.shape
    let m := s.maskOf f.lo3
    let v := u.begin s.wk.spad
    let after := fun (na : Bool) (n : Furrow) => if na then t else t.putFurrow f.a8 n
    (u.imageOk eff sh → (isQ f.d8 = false → u.blockOk eff sh = true) →
      (isQ f.d8 = true → isBlock eff = true → sh.slots % u.blockLen = 0) →
      loadElems v eff (v.blocked eff) (v.image sh m) s = .ok (x, t) →
      deliverLoad f.d8 m w (loadTag eff (v.blocked eff)) x
        (freshMap sh (fun _ => true) (v.pos.map (BitVec.ofNat 32)) v.extents) t = .ok (⟨acts, 3, false⟩, t) →
      exec (.ldv f) o = .next ((after (f.modBit 0) (v.advance sh.g s.wk.spad)).afterE .L f 3 acts)) ∧
    (u.legal eff = true → sh.fits w = true → (u.blocked eff = 0 ∨ sh.slots % u.blocked eff = 0) →
      loadElems v eff (u.blocked eff)
        (match lowestActive m sh.slots with
          | some i => if v.inFrame v.pos then [(i, v.pos)] else []
          | none => []) s = .ok (x, t) →
      let val := nth 0 (x.vals.map Prod.snd) 0
      let sb := nth 0 (x.scales.map Prod.snd) 0
      let len := u.blocked eff
      deliverLoad f.d8 m w (loadTag eff len)
        ⟨((List.range sh.slots).filter (activeIn m)).map fun i => (i, val),
          if len = 0 then [] else ((List.range (sh.slots / len)).filter (blockActive m len)).map fun b => (b, sb),
          x.parts.flatMap fun p => ((List.range (if p.scale then sh.slots / len else sh.slots)).filter
            (if p.scale then blockActive m len else activeIn m)).map fun i => { p with slot := i }⟩
        (freshMap sh (fun _ => false) (v.pos.map (BitVec.ofNat 32)) v.extents) t = .ok (⟨acts, 3, false⟩, t) →
      exec (.lbc f) o = .next ((after (f.modBit 0) (v.advance (.all 1) s.wk.spad)).afterE .L f 3 acts)) ∧
    (f.d8 ≠ f.b8 → u.legal eff = true → sh.fits w = true → sh.fits 32 = true → isBlock eff = false → u.indirect = false →
      loadElems u eff 0 (u.indexed (fun i => signed 32 (slotOf (s.vreg f.b8).data.toNat 32 i)) sh.slots m) s = .ok (x, t) →
      deliverLoad f.d8 m w none x (CMap.check (.explicit sh.grant3 (s.phys f.b8) u.extents)) t = .ok (⟨acts, 3, false⟩, t) →
      exec (.lgth f) o = .next (t.afterE .L f 3 acts)) ∧
    (u.legal u.format = true → u.format = 22 → u.indOk sh = true →
      loadElems v 22 0 (v.image sh none) s = .ok (x, t) →
      exec (.lmsk f) o = .next ((after (f.modBit 0) (v.advance sh.g s.wk.spad)).afterE .L f 3
        [.mask f.d8.toNat (BitVec.ofNat 65536 (packSlots 1 (fillSlots (fun _ => 0) 0 sh.slots x.vals)))])) ∧
    (u.legal eff = true → 8 ≤ w → w ≤ 64 →
      (let n := (immOf f.b8).toNat
       let e := u.elements s.wk.spad n
       s.wk.q15.length + n ≤ Config.wordCap →
       loadEach eff e.1 s = .ok (x, t) →
       exec (.ldq f) o = .next ((after (f.modBit 0) e.2).afterE .L f 3
        [.words ((fillSlots (fun _ => 0) 0 n x.vals).map (pushedWord eff))])) ∧
      (let n := f.bc.toNat
       let e := u.elements s.wk.spad n
       loadEach eff e.1 s = .ok (x, t) →
       let r := after (f.modBit 1) e.2
       let b := (r.wk.bank f.d8.toNat).load (f.modBit 0) ((fillSlots (fun _ => 0) 0 n x.vals).map (BitVec.ofNat 64))
       exec (.lcbld f) o =
         .next ((r.setWk { r.wk.setBank f.d8.toNat b with codebookLog := r.wk.codebookLog ++
           [[BitVec.ofNat 64 f.d8.toNat, b.version.zeroExtend 64, BitVec.ofNat 64 n]] }).afterE .L f 0 [])))) ∧
  (∀ (s : State) (d : BitVec 8) (m : Option Nat) (w eff len : Nat) (x : Loaded) (map : CMap),
    let g := s.view.shape.slots
    let tag : Option Tag := if len = 0 then none else some ⟨eff, len⟩
    let pick := fun (n : Nat) (l : Tab Nat) (off : Nat → Nat) => (List.range n).map fun i => (tabFind l i).getD (off i)
    let old := fun (i : Nat) => if isQ d then 0 else slotOf (s.vreg d).data.toNat w i
    let oldSb := fun (b : Nat) => if isQ d then 0 else slotOf (s.vreg d).scale.toNat 8 b
    let data := packSlots w (pick g x.vals fun i => if activeIn m i then 0 else old i)
    let side := if len = 0 then 0 else packSlots 8 (pick (g / len) x.scales fun b =>
      if (List.range len).any (fun i => activeIn m (b * len + i)) then 0 else oldSb b)
    let lines := dedup ((x.parts.filter fun p => decide (p.addr < 2 ^ 52)).map fun p => p.addr / 128)
    (x.vals.map Prod.fst).Pairwise (· < ·) → (∀ e ∈ x.vals, e.1 < g) →
    (x.scales.map Prod.fst).Pairwise (· < ·) → (∀ e ∈ x.scales, e.1 < g / len) →
    loadTag eff len = tag ∧
    (isQ d = false → deliverLoad d m w tag x map s = .ok (⟨[s.deliver d g w ⟨data, side, tag, map⟩], 3, false⟩, s)) ∧
    (isQ d = true →
      (s.wk.pinRoom lines = false → deliverLoad d m w tag x map s = .error .stall) ∧
      (s.wk.pinRoom lines = true →
        ∃ q e, s.deliver d g w ⟨data, side, tag, map⟩ = .image q e ∧
          deliverLoad d m w tag x map s = .ok (⟨[.fetched q { e with pins := lines } x.parts], 3, false⟩, s)))) ∧
  (∀ (f : E64) (o : State), Turn.Go .L f o →
    let s := o.gained .L f
    let u := s.furrow f.a8
    let b := s.wk.bank f.d8.toNat
    (u.legal u.format = true → u.indOk s.view.shape = true →
      (s.view.shape.fits (fmtWidth u.format) = true → exec (.lpre f) o = .next (s.afterE .L f 0 [])) ∧
      exec (.ladv f) o =
        .next ((s.putFurrow f.a8 (u.advanceBy s.view.shape.g s.wk.spad (immOf f.b8).toNat)).afterE .L f 0 [])) ∧
    (u.legal u.format = true → exec (.lrst f) o = .next ((s.putFurrow f.a8 (u.restart s.wk.spad)).afterE .L f 0 [])) ∧
    ∃ c, exec (.lcbsw f) o = .next ((s.setWk (s.wk.setBank f.d8.toNat c)).afterE .L f 0 []) ∧
      c.front = !b.front ∧ c.copy0 = b.copy0 ∧ c.copy1 = b.copy1 ∧ c.count0 = b.count0 ∧ c.count1 = b.count1 ∧
      c.version = b.version ∧ c.clean = b.clean) ∧
  (∀ (u : Furrow) (eff : Nat),
    let v := u.fmt.toNat
    let size := if u.ind.toNat / 4 % 2 = 1 then 8 else 4
    u.legal eff = true ↔
      (∀ k < 4, u.ext.get k ≠ 0 ∧ -2 ^ 47 ≤ (u.st.get k).toInt ∧ (u.st.get k).toInt < 2 ^ 47) ∧
      v / 2 ^ 9 % 2 ^ 7 = 0 ∧ v < 2 ^ 28 ∧ u.ind.toNat < 16 ∧ u.itab.toNat < 2 ^ 19 ∧ v / 2 ^ 5 % 4 ≠ 3 ∧
      (v % 32 = 21 ∨ eff = 21 → -1100 ≤ signed 12 (v / 2 ^ 16) ∧ signed 12 (v / 2 ^ 16) ≤ 1000) ∧
      ¬(u.ind.toNat / 8 % 2 = 1 ∧ u.ind.toNat % 4 = 0) ∧ u.itab.toNat % size = 0 ∧ v % 32 < 23 ∧ eff < 23 ∧
      (eff ∈ [13, 17, 22] → u.st.c0 = 0)) ∧
  ∀ (u : Furrow) (g : Quad Nat) (m : Memory),
    let e := u.extents
    let k := u.indDim
    let here : Furrow := if u.atEnd then { u with pos := .all 0, atEnd := false } else u
    let v := u.begin m
    let p := v.pos
    let over0 := e.c0 ≤ p.c0 + g.c0
    let p1 := p.c1 + if over0 then g.c1 else 0
    let over1 := e.c1 ≤ p1
    let p2 := p.c2 + if over1 then g.c2 else 0
    let over2 := e.c2 ≤ p2
    let p3 := p.c3 + if over2 then g.c3 else 0
    let n : Quad Nat := ⟨if over0 then 0 else p.c0 + g.c0, if over1 then 0 else p1, if over2 then 0 else p2, p3⟩
    let t := u.advance g m
    (u.posLinear = if u.atEnd then e.c0 * e.c1 * e.c2 * e.c3 else u.pos.c0 + e.c0 * (u.pos.c1 + e.c1 * (u.pos.c2 + e.c2 * u.pos.c3))) ∧
    (u.atEnd = false → v = u) ∧ (u.atEnd = true → v = here.recapture m) ∧
    (∃ c, u.recapture m = { u with capt := c } ∧ ∀ j, tabFind c j =
      if u.indirect = true ∧ u.atEnd = false ∧ u.pos.get k ≤ j ∧ j ≤ u.pos.get k + 2 ∧
        j < u.extent k then some (u.entryIn m j) else none) ∧
    (e.c3 ≤ p3 → t = { v with pos := .all 0, atEnd := true }) ∧
    (p3 < e.c3 → ∃ c, t = { v with pos := n, capt := c } ∧ ∀ j, tabFind c j =
      if u.indirect = true ∧ n.get k ≠ p.get k ∧ j = n.get k + 2 ∧ j < u.extent k then some (u.entryIn m j) else tabFind v.capt j)

/-- R176 to R200: clearing, counting and reading tiles; loading the shadow plane, exchanging the planes and multiplying: every
product term of a row of A with the active plane is added exactly to its cell of the tile, block after block, and no other cell
changes; ranking. A clear and the adds are writes of M that others may miss until they are performed; a readout is a load, which
gives what M may see of each cell (R267, R269; log 45). R80, R82, R83: what admitting a term makes of a cell, and what a readout
gives and counts. R332: an uncorrectable error in a cell that is read or added to is a machine check. `mzcnt` waits for what log 6
says: its empty counter update names the tile whose readouts it stays behind. -/
def Obligations.TilesAndTheArray : Prop :=
  (∀ (f : E64) (o : State), Turn.Go .M f o →
    let s := o.gained .M f
    let z := f.d8.toNat
    let tile := s.view.tile z
    let inTile := fun (i : Nat) => tile.base.toNat ≤ i ∧ i < tile.base.toNat + tile.rows.toNat * tile.cols.toNat
    (tile.ok = true → ∃ u : State, exec (.mzclr f) o = .next (u.afterE .M f 0 []) ∧
      (∀ i, u.wk.cell i = if inTile i then 0 else s.wk.cell i) ∧
      u.wk.tileCounts z = .zero ∧ (∀ y ≠ z, u.wk.tileCounts y = s.wk.tileCounts y) ∧
      u.wk = { s.wk with cells := u.wk.cells, counters := u.wk.counters } ∧
      (∃ new, u.writes = new ++ s.writes ∧ (∀ i, inTile i ↔ ∃ x ∈ new, x.line = i) ∧
        ∀ x ∈ new, x.spot = .cell s.curKey ∧ x.edit = .put 0 256 0 ∧ x.who = some ⟨s.curKey, .strand s.curEng⟩ ∧ x.reach = [] ∧
          x.done = false) ∧
      (∀ x, x ∈ u.badLocal ↔ x ∈ s.badLocal ∧ ¬ (x.key = s.curKey ∧ x.cell = true ∧ inTile (x.off / 32)))) ∧
    (tile.ok = true →
      let c := (s.wk.tileCounts z).add (pendingCounts z s.st.pend)
      exec (.mzcnt f) o = .next (s.afterE .M f (waitBehind z s.st.pend)
        [.words ([c.nanc, c.infc, c.ovfc, c.satc, c.inxc].map (BitVec.zeroExtend 64)), .counts z .zero])) ∧
    (tabFind s.planeOwner s.wk.core = none ∨ tabFind s.planeOwner s.wk.core = some s.curKey →
      exec (.mswap f) o =
        .next ((s.setWk { s.wk with active := s.wk.shadow, shadow := { s.wk.active with fixed := false } }).afterE .M f 0 []))) ∧
  (∀ (f : E64) (o : State) (key : Nat → Nat), Turn.Go .M f o →
    let s := o.gained .M f
    let z := f.a8.toNat
    let tile := s.view.tile z
    let fmt := f.fmt5.toNat
    let w := fmtWidth fmt
    let sh := s.view.shape
    let g0 := sh.size 0
    let row := fun (i : Nat) => f.bc.toNat / 2 ^ 5 % 2 ^ 9 + i / g0
    let col := fun (i : Nat) => 16 * (f.bc.toNat % 2 ^ 5) + i % g0
    let origin : Quad (BitVec 32) := ⟨BitVec.ofNat 32 (col 0), BitVec.ofNat 32 (row 0), 0, 0⟩
    let map := freshMap sh (fun j => decide (j < 2)) origin ⟨tile.cols.toNat, tile.rows.toNat, 1, 1⟩
    let inTile := fun (i : Nat) => row i < tile.rows.toNat ∧ col i < tile.cols.toNat
    let cells := ((List.range sh.slots).filter fun i => decide (inTile i)).map fun i => tile.cell (row i) (col i)
    let val := fun (i : Nat) => if inTile i
      then readCell fmt f.lo3 (f.zm || s.view.e4m3sat) s.view.ftz (key i) tile.anch (s.seenCell (tile.cell (row i) (col i)))
      else (0, .zero)
    let vals := (List.range sh.slots).map val
    cvtFmt fmt = true → sh.fits w = true → sh.size 2 = 1 → sh.size 3 = 1 → tile.ok = true →
    (∀ i < sh.slots, row i < tile.rows.toNat → col i < tile.cols.toNat →
      stoch s.wk s.view.nkey.c0 map f.lo3 i = .ok (key i)) →
    (∀ c, s.maySee (.cell s.curKey c 0) 32 (s.seenCell c).toNat) ∧
    (∀ x, s.cellCheck cells = some x → exec (.mrdz f) o = .next (o.machineCheck o.wk 3 2 x o.st.pc)) ∧
    (s.cellCheck cells = none → exec (.mrdz f) o = .next (((s.mendCells cells).loadedCells cells).afterE .M f 3
      [s.deliver f.d8 sh.slots w ⟨packSlots w (vals.map Prod.fst), 0, none, map⟩, .counts z (sumCounts (vals.map Prod.snd))]))) ∧
  (∀ (f : E64) (o t : State) (a : Src) (sf : Nat) (xs : Nat → XReal), Turn.Go .M f o →
    let s := o.gained .M f
    let wb := if f.zm then 16 else 8
    let len := 16 * 2 ^ f.ms
    let sh := s.view.shape
    let p := s.wk.shadow
    ldbFormat f len s = .ok (sf, s) → (f.fmt5 = 0x1F → f.b8 ≠ 0 → sf = 17 ∨ sf = 18) →
    (tabFind s.planeOwner s.wk.core = none ∨ tabFind s.planeOwner s.wk.core = some s.curKey) →
    sh.size 0 ≤ 128 → sh.size 0 % len = 0 → sh.size 2 = 1 → sh.size 3 = 1 → sh.size 1 ≤ (if f.zm then 256 else 512) →
    sh.fits (fmtWidth sf) = true → (p.fixed = true → p.wb = wb ∧ p.lb = len) →
    readSrc f.a8 (some (fmtWidth sf)) s = .ok (a, t) →
    (∀ i < sh.slots, exactSlot sf len s.view.ftz (s.wk.front f.b8.toNat) a i = .ok (xs i)) →
    let cols := (chunks (sh.size 0) (sh.size 1) ((List.range sh.slots).map xs)).map (bandColumn wb f.lo3 len (sh.size 0))
    exec (.mldb f) o =
      .next ((t.setWk { t.wk with shadow := t.wk.shadow.setBand f.d8.toNat wb len cols }).afterE .M f 0
        [.qsat (cols.map Column.sats).sum])) ∧
  (∀ (f : E64) (o t : State) (a : Src) (sf wa : Nat), Turn.Go .M f o →
    let s := o.gained .M f
    let p := s.wk.active
    let sh := s.view.shape
    let tile := s.view.tile f.d8.toNat
    let nb := sh.size 0 / p.lb
    let blk := aBlock sf wa p.lb f.lo3 s.view.ftz a
    mulFormat f p.lb s = .ok ((sf, wa), s) → mulOk sh tile p sf wa = true →
    (tabFind s.planeOwner s.wk.core = none ∨ tabFind s.planeOwner s.wk.core = some s.curKey) →
    readSrc f.a8 (some (fmtWidth sf)) s = .ok (a, t) →
    let cells := (List.range (sh.size 1 * tile.cols.toNat)).map (tile.base.toNat + ·)
    let u := (t.mendCells cells).addTerms tile.anch ((List.range (sh.size 1 * nb)).flatMap fun b =>
      (List.range tile.cols.toNat).map fun n => (tile.cell (b / nb) n, productTerm p wa (b % nb) n (blk b)))
    (∀ x, t.cellCheck cells = some x → exec (.mmul f) o = .next (o.machineCheck o.wk 3 2 x o.st.pc)) ∧
    (t.cellCheck cells = none → exec (.mmul f) o = .next (u.afterE .M f 0
        [.qsat ((List.range (sh.size 1 * nb)).countP fun b => (blk b).sat)]) ∧
      (∀ r < sh.size 1, ∀ n < tile.cols.toNat, u.wk.cell (tile.cell r n) =
        (List.range nb).foldl (fun c j => admitTerm tile.anch (productTerm p wa j n (blk (r * nb + j))) c)
          (t.wk.cell (tile.cell r n))) ∧
      (∀ i, (∀ r < sh.size 1, ∀ n < tile.cols.toNat, i ≠ tile.cell r n) → u.wk.cell i = t.wk.cell i) ∧
      u.wk = { t.wk with cells := u.wk.cells })) ∧
  (∀ (f : E64) (o t : State) (a : Src), Turn.Go .M f o →
    let s := o.gained .M f
    moveChecks f 32 id s = .ok ((), s) → s.view.shape.width = 32 →
    s.view.shape.size 0 ≤ 512 → readSrc f.a8 (some 32) s = .ok (a, t) →
    let x := fun (i : Nat) => readNum 0 false (a.slot 32 i)
    exec (.mrank f) o = .next (t.afterE .M f 3 [t.deliver f.d8 t.view.shape.slots 32
      ⟨t.took f f.d8 32 fun i => (t.line f 0 i).countP fun j => decide (j ≠ i) && ranksBefore (x j) (x i) (decide (j < i)),
        0, none, a.map⟩])) ∧
  (∀ (anchor : Int) (c : BitVec 256),
    let v := c.toNat % 2 ^ 240
    let fl := c.toNat / 2 ^ 240 % 32
    let cell := fun (v fl : Nat) => BitVec.ofNat 256 (v + fl * 2 ^ 240)
    admitTerm anchor .nan c = cell v (fl ||| 1) ∧ admitTerm anchor (.inf false) c = cell v (fl ||| 2) ∧
    admitTerm anchor (.inf true) c = cell v (fl ||| 4) ∧
    ∀ (neg : Bool) (m y : Nat) (e : Int), Rounds 0 neg m e anchor 0 y →
      let inex := if e < anchor ∧ m % 2 ^ (anchor - e).toNat ≠ 0 then fl ||| 16 else fl
      admitTerm anchor (.fin neg m e false) c = if 2 ^ 200 ≤ y then cell v (inex ||| 8)
        else cell (((v : Int) + if neg then -(y : Int) else y) % 2 ^ 240).toNat inex) ∧
  ∀ (fmt rm n : Nat) (sat ftz : Bool) (anchor : Int) (c : BitVec 256), rm ≤ 5 → n < 2 ^ 32 →
    let v := (c.extractLsb' 0 240).toInt
    let flag := fun (k : Nat) => c.getLsbD (240 + k)
    let nan := flag 0 = true ∨ flag 1 = true ∧ flag 2 = true
    let one := fun (p : Prop) [Decidable p] => if p then (1 : BitVec 32) else 0
    let r := readCell fmt rm sat ftz n anchor c
    let gives := fun (x : XReal) => cellValue anchor c = x ∧ r.1 = (convTo fmt rm sat ftz n x).bits
    let fin := ¬nan ∧ flag 1 = false ∧ flag 2 = false
    (nan → gives .nan) ∧ (¬nan → flag 1 = true → gives (.inf false)) ∧ (¬nan → flag 2 = true → gives (.inf true)) ∧
    (fin → gives (.fin (decide (v < 0)) v.natAbs anchor false)) ∧
    r.2.ovfc = one (flag 3 = true) ∧ r.2.inxc = one (flag 4 = true) ∧
    (∀ x ∈ floatRows, x.fmt = fmt →
      r.2.nanc = one (r.1 = x.nan) ∧
      r.2.infc = one (fmt ≠ 3 ∧ (r.1 = x.inf ∨ r.1 = x.inf + 2 ^ (x.mant + x.expo))) ∧
      (nan → r.2.satc = 0) ∧ (¬nan → flag 1 = true ∨ flag 2 = true → r.2.satc = one (fmt = 3 ∧ sat = true)) ∧
      (fin → v = 0 → r.2.satc = 0) ∧
      ∀ y, fin → v ≠ 0 →
        let q : Int := max ((v.natAbs.log2 : Int) + anchor - x.mant) x.low
        Rounds rm (decide (v < 0)) v.natAbs anchor q n y →
        r.2.satc = one (2 < fmt ∧ sat = true ∧ x.top * 2 ^ (x.topExp - x.low).toNat < y * 2 ^ (q - x.low).toNat)) ∧
    ∀ x ∈ intRows, x.1 = fmt →
      let w := x.2.2
      let lo : Int := if x.2.1 then -2 ^ (w - 1) else 0
      let hi : Int := if x.2.1 then 2 ^ (w - 1) - 1 else 2 ^ w - 1
      r.2.infc = 0 ∧ (nan → r.2.nanc = 1 ∧ r.2.satc = 0) ∧ (¬nan → r.2.nanc = 0) ∧
      (¬nan → flag 1 = true ∨ flag 2 = true → r.2.satc = 1) ∧
      ∀ (y : Nat), fin → Rounds rm (decide (v < 0)) v.natAbs anchor 0 n y →
        let i : Int := if v < 0 then -y else y
        r.2.satc = one (i < lo ∨ hi < i)

/-- R212 to R223: inserting keys into a sheaf, merging its closest pair, reading it and clearing it. A `shins` begins with its
checks and its pops, then inserts one key a turn, and issues with the last: a key is absorbed by the nearest entry within the
radius, else opens the lowest free entry, else is refused, absorbed or makes room by a merge, as POLICY says. What one key, or one
merge, changes is one write of M, which others may miss until it is performed, whole; M reads the newest of the cells it searches,
and `shrd` what it may see of them (R212, R224, R269; log 45). Log 18: slots of `shrd` with i2 or i3 above 0 read zero. Log 6: the
results land with shadow 0. Log 22: MERGE with no pair. Log 61: a centroid at COUNT 0. -/
def Obligations.Sheaves : Prop :=
  (∀ (w : Worker) (h : Sheaf) (c : Nat), c ∈ w.bankCells h ↔
    ∃ i, i < h.cap.toNat ∧ (c = h.base.toNat + i * (h.dim.toNat + 1) + h.dim.toNat ∨
      w.Valid h i ∧ ∃ k < h.dim.toNat, c = h.base.toNat + i * (h.dim.toNat + 1) + k)) ∧
  (∀ (f : E64) (s t : State) (b : Src), Turn.Go .M f s → s.wk.nbrValid = true → s.wk.insertion = none →
    let fmt := f.fmt5.toNat
    let w := fmtWidth fmt
    let h := s.view.sheaf f.a8.toNat
    let sh := s.view.shape
    let g0 := sh.size 0
    let rows := sh.slots / g0
    ftzFmt fmt = true → h.ok = true → h.dim.toNat ≤ g0 → sh.fits w = true → sh.fits 32 = true →
    rows * (2 * ((h.cap.toNat * h.dim.toNat + 4095) / 4096) + 1) ≤ 1024 → readSrc f.b8 (some w) s = .ok (b, t) →
    let keys := (List.range rows).map fun r => (List.range h.dim.toNat).map fun i => b.slot w (g0 * r + i)
    let u := t.popped .M f
    exec (.shins f) s = .next ((u.setWk { u.wk with insertion := some ⟨f, h, s.view.ftz, keys, fmt, []⟩ }).gained .M f)) ∧
  (∀ (f : E64) (s : State) (x : Insertion), s.live = true → s.curEng = .M → s.wk.insertion = some x →
    x.done.length < x.keys.length →
    x.sheaf.ok = true → (∀ l ∈ x.keys, l.length = x.sheaf.dim.toNat) →
    let h := x.sheaf
    let w := s.wk
    let n := x.done.length
    let key := fun (k : Nat) => readNum x.fmt x.ftz (nth 0 (nth [] x.keys n) k)
    let term := fun (k : Nat) => readNum x.fmt false (nth 0 (nth [] x.keys n) k)
    let within := fun (i : Nat) => ∃ o, (w.dist h x.ftz key i).cmp (readNum 0 false h.rad2.toNat) = some o ∧
      (o = .eq ∨ o = if h.metric = 0 then .lt else .gt)
    let full := ∀ i, ¬ w.LowestFree h i
    let cells := w.bankCells h
    (∀ y, s.cellCheck cells = some y → exec (.shins f) s = .next (s.machineCheck s.wk 3 2 y s.st.pc)) ∧
    (s.cellCheck cells = none → ∃ (q : State) (r : Int),
      let v := q.wk
      Sheaf.OneWrite s q cells ∧
      (n + 1 < x.keys.length → exec (.shins f) s = .next (q.setWk { v with insertion := some { x with done := r :: x.done } })) ∧
      (n + 1 = x.keys.length →
        let u := q.setWk { v with insertion := none }
        exec (.shins f) s = .next (u.issuedE .M x.word 0 [u.deliver x.word.d8 u.view.shape.slots 32
          ⟨packSlots 32 ((List.range u.view.shape.slots).map fun i => wrap 32 (nth 0 (r :: x.done).reverse i)), 0, none, .lost⟩])) ∧
      ((∃ k < h.dim.toNat, term k = .nan ∨ ∃ b, term k = .inf b) → v = w ∧ r = -1) ∧
      ((∀ k < h.dim.toNat, (term k).exact) →
        ((∀ i, ¬ w.Valid h i) → w.Opened h 0 term v ∧ r = 0) ∧
        ∀ i, w.Nearest h x.ftz key i →
          (within i → w.Absorbed h i term v ∧ r = i) ∧
          (¬within i → ∀ j, w.LowestFree h j → w.Opened h j term v ∧ r = j) ∧
          (¬within i → full → h.policy = 0 → v = w ∧ r = -1) ∧
          (¬within i → full → h.policy = 2 → w.Absorbed h i term v ∧ r = i) ∧
          (¬within i → full → h.policy = 1 → ∀ a b, w.Closest h x.ftz a b →
            ∃ m, w.Merged h a b m ∧ m.Opened h b term v ∧ r = b) ∧
          (¬within i → full → h.policy = 1 → (∀ a b, ¬ w.Closest h x.ftz a b) →
            if Config.loneMerge w.wid s.st.pos n = true then w.Absorbed h i term v ∧ r = i else v = w ∧ r = -1)))) ∧
  (∀ (f : E64) (o : State), Turn.Go .M f o → o.wk.nbrValid = true →
    let s := o.gained .M f
    let h := s.view.sheaf f.d8.toNat
    let cells := s.wk.bankCells h
    let inBank := fun (i : Nat) => h.base.toNat ≤ i ∧ i < h.base.toNat + h.cap.toNat * (h.dim.toNat + 1)
    h.ok = true →
    (∀ y, s.cellCheck cells = some y → exec (.shmrg f) o = .next (o.machineCheck o.wk 3 2 y o.st.pc)) ∧
    (s.cellCheck cells = none → ∃ q : State, exec (.shmrg f) o = .next (q.afterE .M f 0 []) ∧ Sheaf.OneWrite s q cells ∧
      (∀ i j, s.wk.Closest h s.view.ftz i j → s.wk.Merged h i j q.wk) ∧
      ((∀ i j, ¬ s.wk.Closest h s.view.ftz i j) → q = (s.mendCells cells).readCells cells)) ∧
    ∃ q : State, exec (.shclr f) o = .next (q.afterE .M f 0 []) ∧
      (∀ i, q.wk.cell i = if inBank i then 0 else s.wk.cell i) ∧ q.wk = { s.wk with cells := q.wk.cells } ∧
      ∃ new, q.writes = new ++ s.writes ∧ (∀ i, inBank i ↔ ∃ x ∈ new, x.line = i) ∧
        ∀ x ∈ new, x.spot = .cell s.curKey ∧ x.edit = .put 0 256 0 ∧ x.who = some ⟨s.curKey, .strand s.curEng⟩ ∧ x.reach = [] ∧
          x.done = false) ∧
  ∀ (f : E64) (o : State), Turn.Go .M f o → o.wk.nbrValid = true →
    let s := o.gained .M f
    let h := s.view.sheaf f.a8.toNat
    let sh := s.view.shape
    let k := fun (i : Nat) => i % sh.g.c0
    let e := fun (i : Nat) => i / sh.g.c0 % sh.g.c1
    let on := fun (i : Nat) =>
      i / (sh.g.c0 * sh.g.c1) % sh.g.c2 = 0 ∧ i / (sh.g.c0 * sh.g.c1 * sh.g.c2) = 0 ∧ k i < h.dim.toNat ∧ e i < h.cap.toNat
    let countAt := fun (i : Nat) => h.base.toNat + e i * (h.dim.toNat + 1) + h.dim.toNat
    let sumAt := fun (i : Nat) => h.base.toNat + e i * (h.dim.toNat + 1) + k i
    let valid := fun (i : Nat) => (s.seenCell (countAt i)).getLsbD 64
    let slots := (List.range sh.slots).filter fun i => decide (on i)
    let cells := slots.map countAt ++ if f.modBit 0 then [] else (slots.filter valid).map sumAt
    let u := (s.mendCells cells).loadedCells cells
    h.ok = true → sh.width = 32 → sh.fits 32 = true →
    (∀ y, s.cellCheck cells = some y → exec (.shrd f) o = .next (o.machineCheck o.wk 3 2 y o.st.pc)) ∧
    (s.cellCheck cells = none → exec (.shrd f) o = .next (u.afterE .M f 0 [u.deliver f.d8 sh.slots 32
      ⟨packSlots 32 ((List.range sh.slots).map fun i =>
        let n := (s.seenCell (countAt i)).toNat % 2 ^ 64
        let sum := s.seenCell (sumAt i)
        if on i ∧ valid i = true then
          if f.modBit 0 then (if k i = 0 then min n (2 ^ 32 - 1) else 0)
          else if n = 0 ∧ (cellValue h.anch sum).isFin = true then (Config.emptyCentroid sum h.anch).toNat
          else roundF32 s.view.ftz ((cellValue h.anch sum).div (.ofInt (n : Nat)))
        else 0), 0, none, freshMap sh (fun j => decide (j < 2)) (.all 0) ⟨h.dim.toNat, h.cap.toNat, 1, 1⟩⟩]))

/-- R155 to R172: each W instruction through a furrow, its checks passed: it pops its source, checks every element of its active
slots in slot order, stores, adds or updates them, and advances the furrow unless NA is set or an index register names the
elements. `wstq` leaves its knot add for an event, with its scope and place in the text. `wamo` releases first: an add to a knot
at device scope or wider (R148, log 52), any other with `.rel` at its scope. Addresses under a format override follow log 17,
the place of the context check log 57, the advance at END log 31, `wmsk` under a mask log 16, the scale bytes of a store log 58.
-/
def Obligations.StoresThroughFurrows : Prop :=
  ∀ (f : E64) (o p t : State) (a : Src), Turn.Go .W f o →
    let s := o.gained .W f
    let u := s.furrow f.d8
    let eff := u.effective f.fmt5.toNat
    let w := fmtWidth eff
    let sh := s.view.shape
    let m := s.maskOf f.lo3
    let v := u.begin s.wk.spad
    let len := u.blocked eff
    let moved := t.putFurrow f.d8 (v.advance sh.g s.wk.spad)
    let index := fun (i : Nat) => signed 32 (slotOf (s.vreg f.b8).data.toNat 32 i)
    (u.imageOk eff sh → (isBlock eff = true → sh.slots % u.blockLen = 0) → readSrc f.a8 (some w) s = .ok (a, p) →
      (len = 0 ∨ a.tag = some ⟨eff, len⟩) →
      storeElems v eff len (a.slot w) (slotOf a.scale 8) (v.image sh m) p = .ok ((), t) →
      exec (.wst f) o = .next ((if f.modBit 0 then t else moved).afterE .W f 0 []) ∧
      exec (.wstq f) o = .next (({ moved with
        knotAdds := moved.knotAdds ++ [⟨moved.curKey, f.c8.toNat, f.end3, moved.st.pos⟩] } : State).afterE .W f 0 [])) ∧
    (u.legal eff = true → sh.fits w = true → sh.fits 32 = true → isBlock eff = false → u.indirect = false →
      readSrc f.a8 (some w) s = .ok (a, p) →
      storeElems u eff 0 (a.slot w) (fun _ => 0) (u.indexed index sh.slots m) p = .ok ((), t) →
      exec (.wsct f) o = .next (t.afterE .W f 0 [])) ∧
    (u.legal u.format = true → u.format = 22 → u.indOk sh = true →
      storeElems v 22 0 (fun i => (s.wk.mget f.a8.toNat).toNat / 2 ^ i % 2) (fun _ => 0) (v.image sh m) s = .ok ((), t) →
      exec (.wmsk f) o = .next ((if f.modBit 0 then t else moved).afterE .W f 0 [])) ∧
    (∀ (l : List Touch) (q : State),
      let byIndex := f.b8 ≠ 0xFF
      let x := if byIndex then u else v
      let es := if byIndex then u.indexed index sh.slots m else v.image sh m
      (byIndex → sh.fits 32 = true) →
      (u.legal eff = true → eff ∈ [7, 8, 11, 12] → u.indirect = false → sh.fits w = true → readSrc f.a8 (some w) s = .ok (a, p) →
        plan x (amoAccess f.end3) eff 0 none es p = .ok (l, q) →
        let scope := f.c8.toNat % 8
        let r := if l.any (fun y => y.place.isKnot) then q.release (max 3 scope) else if f.c8.getLsbD 4 then q.release scope else q
        M.each (fun y => do
          let _ ← atomicAt scope (y.place.atScope scope) y.size (if f.end3 < 4 then f.end3 else f.end3 + 2) (a.slot w y.slot) 0
          pure ()) l r = .ok ((), t) →
        exec (.wamo f) o = .next ((if byIndex then t else moved).afterE .W f 0 [])) ∧
      (let sf := f.fmt5.toNat
       let ws := fmtWidth sf
       u.legal u.format = true → u.format = 21 → caddFormat sf = true → sh.fits ws = true → (byIndex → u.indirect = false) →
        (¬byIndex → u.indOk sh = true) → readSrc f.a8 (some ws) s = .ok (a, p) →
        plan x cellAccess 21 0 none es p = .ok (l, q) →
        addCells f.end3 x.anchor (fun i => termOf sf (a.slot ws i)) l q = .ok ((), t) →
        exec (.wcadd f) o = .next ((if byIndex then t else moved).afterE .W f 0 []))) ∧
    ∀ (l : List Touch) (q : State), u.legal u.format = true → sh.fits (fmtWidth u.format) = true → u.indOk sh = true →
      flushPlan v (isBlock u.format) (v.image sh none) s = .ok (l, q) →
      let r := if f.modBit 0 || f.modBit 1 then l.foldl (fun z y => z.flushLine y.place) q else q
      exec (.wflush f) o = .next ((r.putFurrow f.d8 (v.advance sh.g s.wk.spad)).afterE .W f 0 [])

/-- R147, R154 to R156, R159, R168: the elements of an access through a furrow. Where element c lies; what the checks, once all
have passed, have found for each element, in order; the fault of the first element, in the order of its checks; that a load
gives each element bytes that R267 lets it see, little-endian, and changes no memory, an element instruction too, whose elements
are each reached with the captures made so far; that after a store each element and scale byte reads as what was stored there
last; and which bytes a flush looks at. The place of the context check is log 57. -/
def Obligations.ElementsThroughFurrows : Prop :=
  (∀ (u : Furrow) (eff : Nat) (c : Quad Nat) (x : Int),
    let part := fun (k : Nat) => if u.indirect = true ∧ k = u.indDim then x else signed 48 (u.st.get k).toNat * (c.get k : Int)
    let base := (u.base.toNat : Int) + part 1 + part 2 + part 3
    let w := fmtWidth eff
    (8 ≤ w → u.addr eff c x = (((base + part 0) % 2 ^ 64).toNat, 0)) ∧
    (w < 8 → u.addr eff c x = (((base + (w * c.c0 / 8 : Nat)) % 2 ^ 64).toNat, w * c.c0 % 8))) ∧
  (∀ (s q : State) (u : Furrow) (k : Access) (eff : Nat) (es : List (Nat × Quad Nat)) (l : List Touch),
    plan u k eff 0 none es s = .ok (l, q) →
    es.length = l.length ∧ (es ≠ [] → s.boundLive u = true) ∧ ∀ e y, (e, y) ∈ es.zip l → y.slot = e.1 ∧ y.block = none ∧
      y.size = max 1 (fmtWidth eff / 8) ∧
      (∃ x, u.term e.2 = some x ∧ (y.addr, y.shift) = u.addr eff e.2 x) ∧ y.addr < 2 ^ 57 ∧ y.addr % y.size = 0 ∧
      (inWindows y.addr = true → windowPlace (s.cxOf s.wk) y.addr = some y.place ∧ k.rights eff y.place = true) ∧
      (inWindows y.addr = false → ∃ p, y.place = .phys p) ∧
      (u.layout ≠ 0xFFFF → ∃ b, u.bound = some b ∧ b.base.toNat ≤ y.addr ∧ y.addr + y.size ≤ b.base.toNat + b.size.toNat) ∧
      (u.layout = 0xFFFF → (s.cxOf s.wk).user = true → ∃ j o, y.place = .spad j o ∨ ∃ b, y.place = .cell j o b)) ∧
  (∀ (s : State) (u : Furrow) (k : Access) (eff : Nat) (e : Nat × Quad Nat) (r : List (Nat × Quad Nat)) (x : Int),
    let a := (u.addr eff e.2 x).1
    let n := max 1 (fmtWidth eff / 8)
    let cx := s.cxOf s.wk
    let traps := fun (cause addr : Nat) => plan u k eff 0 none (e :: r) s = .error (.trap ⟨cause, 0, addr, some e.1⟩)
    let open_ := a < 2 ^ 57 ∧ (inWindows a = true → ∃ p, windowPlace cx a = some p ∧ k.rights eff p = true)
    let bound := ∃ b, u.bound = some b ∧ b.base.toNat ≤ a ∧ a + n ≤ b.base.toNat + b.size.toNat
    let free := cx.user = true → ∃ j o, windowPlace cx a = some (.spad j o) ∨ ∃ b, windowPlace cx a = some (.cell j o b)
    (u.term e.2 = none → traps 8 (0x1F0 * 2 ^ 48 + u.itab.toNat % 2 ^ 19 + u.entrySize * e.2.get u.indDim)) ∧
    (u.term e.2 = some x →
      (2 ^ 57 ≤ a ∨ inWindows a = true ∧ windowPlace cx a = none → traps 8 a) ∧
      (a < 2 ^ 57 → inWindows a = true → (∃ p, windowPlace cx a = some p ∧ k.rights eff p = false) → traps 9 a) ∧
      (open_ → s.boundLive u = false → traps 6 u.layout.toNat) ∧
      (open_ → s.boundLive u = true → u.layout ≠ 0xFFFF → ¬bound → traps 7 a) ∧
      (open_ → u.layout = 0xFFFF → ¬free → traps 9 a) ∧
      (open_ → s.boundLive u = true → (u.layout ≠ 0xFFFF → bound) → (u.layout = 0xFFFF → free) → a % n ≠ 0 → traps 10 a) ∧
      (open_ → s.boundLive u = true → (u.layout ≠ 0xFFFF → bound) → (u.layout = 0xFFFF → free) → a % n = 0 → inWindows a = false →
        ∀ c, s.resolve s.wk.agent cx a k.acc = .error (.fault c) → traps c a))) ∧
  (∀ (s q t : State) (u : Furrow) (eff len : Nat) (es : List (Nat × Quad Nat)) (l : List Touch) (x : Loaded),
    plan u loadAccess eff len none es s = .ok (l, q) → loadElems u eff len es s = .ok (x, t) →
    List.Forall₂ (fun y v => ∃ r, s.maySee y.place y.size r ∧ v = (y.slot, r / 2 ^ y.shift % 2 ^ fmtWidth eff))
      (l.filter fun y => y.block = none) x.vals ∧
    List.Forall₂ (fun y v => ∃ r b, s.maySee y.place y.size r ∧ y.block = some b ∧ v = (b, r))
      (l.filter fun y => y.block ≠ none) x.scales ∧
    t.mem = s.mem ∧ t.poolDirty = s.poolDirty ∧ (∀ k, k ≠ s.curKey → t.worker? k = s.worker? k) ∧
    t.wk = { s.wk with strands := t.wk.strands } ∧ ∀ e, ∃ n, t.wk.strands.get e = { s.wk.strands.get e with soLast := n }) ∧
  (∀ (s t : State) (eff : Nat) (es : List ElemAt) (x : Loaded), loadEach eff es s = .ok (x, t) →
    List.Forall₂ (fun e v => v.1 = e.slot ∧ ∃ k p r, e.furrow.term e.furrow.pos = some k ∧
      let a := e.furrow.addr eff e.furrow.pos k
      (inWindows a.1 = true → windowPlace (s.cxOf s.wk) a.1 = some p) ∧ (inWindows a.1 = false → ∃ y, p = .phys y) ∧
      s.maySee p (max 1 (fmtWidth eff / 8)) r ∧ v.2 = r / 2 ^ a.2 % 2 ^ fmtWidth eff) es x.vals ∧
    t.mem = s.mem ∧ t.poolDirty = s.poolDirty) ∧
  (∀ (s q : State) (u : Furrow) (blocked : Bool) (es : List (Nat × Quad Nat)) (l : List Touch),
    flushPlan u blocked es s = .ok (l, q) →
    let cx := s.cxOf s.wk
    let far := fun (a : Nat) => ∀ j o, windowPlace cx a ≠ some (.spad j o)
    q.workers = s.workers ∧ (∀ a, q.physByte a = s.physByte a) ∧
    (∀ y ∈ l, far y.addr ∧ (inWindows y.addr = false → ∃ p, y.place = .phys p)) ∧
    ∀ e ∈ es, ∃ x, u.term e.2 = some x ∧
      (far (u.addr u.format e.2 x).1 → ∃ y ∈ l, y.slot = e.1 ∧ y.block = none ∧ y.addr = (u.addr u.format e.2 x).1) ∧
      (blocked = true → far (u.scaleAddr e.2) → ∃ y ∈ l, y.slot = e.1 ∧ y.block = some e.1 ∧ y.addr = u.scaleAddr e.2)) ∧
  ∀ (s q t : State) (u : Furrow) (eff len : Nat) (val scale : Nat →
    Nat) (es : List (Nat × Quad Nat)) (l r : List Touch) (y : Touch),
    8 ≤ fmtWidth eff → plan u storeAccess eff len none es s = .ok (l ++ y :: r, q) →
    storeElems u eff len val scale es s = .ok ((), t) → (∀ z ∈ r, y.place.apart y.size z.place z.size) →
    (∀ k o, y.place = .spad k o → s.worker? k ≠ none) →
    t.readPlace y.place y.size = (y.block.elim (val y.slot) scale) % 2 ^ (8 * y.size)

/-- R36, R155, R159, R167 to R172: what W's stores, atomics, cell adds and flushes leave alone in every outcome with a next state,
traps included: every byte of memory and of every scratchpad, every cell and every knot but those of the elements and scale bytes
that the instruction touches (a flush touches none); every scalar, vector and mask register, counter, plane and bank of every
worker; every strand's blocks and configuration but W's own copy of the furrow that the instruction names. `wmsk` under a mask is
log 16's. -/
def Obligations.StoresKeepTheRest : Prop :=
  ∀ (s t : State) (f : E64) (i : Instr) (l : List Touch), tabSorted s.poolDirty = true →
    let u := s.furrow f.d8
    let v := u.begin s.wk.spad
    let eff := u.effective f.fmt5.toNat
    let sh := s.view.shape
    let m := s.maskOf f.lo3
    let p := s.afterRead f.a8 (fmtWidth eff)
    let es := u.indexed (fun i => signed 32 (slotOf (s.vreg f.b8).data.toNat 32 i)) sh.slots m
    let on := fun (q : State) (k : Access) (fmt : Nat) =>
      if f.b8 ≠ 0xFF then q.touched u k fmt 0 es else q.touched v k fmt 0 (v.image sh m)
    ((i = .wst f ∨ i = .wstq f) ∧ l = p.touched v storeAccess eff (u.blocked eff) (v.image sh m) ∨
      i = .wsct f ∧ l = p.touched u storeAccess eff 0 es ∨ i = .wmsk f ∧ l = s.touched v storeAccess 22 0 (v.image sh m) ∨
      i = .wamo f ∧ l = on p (amoAccess f.end3) eff ∨
      i = .wcadd f ∧ l = on (s.afterRead f.a8 (fmtWidth f.fmt5.toNat)) cellAccess 21 ∨ i = .wflush f ∧ l = []) →
    exec i s = .next t →
    (∀ a, (∀ y ∈ l, ∀ x, y.place = .phys x → ¬ (x.addr ≤ a ∧ a < x.addr + y.size)) → t.physByte a = s.physByte a) ∧
    (∀ k a, (∀ y ∈ l, ∀ o, y.place = .spad k o → ¬ (o ≤ a ∧ a < o + y.size)) →
      (t.worker k).spad.read a = (s.worker k).spad.read a) ∧
    ∀ k,
      let w := s.worker k
      let x := t.worker k
      x.sregs = w.sregs ∧ x.vregs = w.vregs ∧ x.masks = w.masks ∧ x.q15 = w.q15 ∧
      (∀ j, (∀ y ∈ l, y.place ≠ .knot k j) → x.knot j = w.knot j) ∧
      (∀ c, (∀ y ∈ l, ∀ b, y.place ≠ .cell k c b) → x.cell c = w.cell c) ∧
      x.counters = w.counters ∧ x.active = w.active ∧ x.shadow = w.shadow ∧ x.banks = w.banks ∧
      ∀ e,
        let a := w.strands.get e
        let b := x.strands.get e
        b.confq = a.confq ∧ b.stack = a.stack ∧ b.view = { a.view with furrows := b.view.furrows } ∧
        ∀ n, (k = s.curKey → e = .W → n ≠ f.d8.toNat) → b.view.furrow n = a.view.furrow n

/-- R209, R228 to R230, R247, R250, R254: `wcpy`, `wcpyx`, `wsend`, `wattd` and `watts` hand their work over at issue and
complete there: the command, requests, job or score pass is in its list as captured, released at its scope (dirty pool bytes are
written back at pool or system scope: log 24), and the strand goes on. R237 to R240: what each transform gives a destination
element and its block's scale byte, where re-block puts them, and the XOR. -/
def Obligations.CopiesSendsAndDecodeJobs : Prop :=
  (∀ (f : E64) (o : State), Turn.Go .W f o →
    let s := o.gained .W f
    let sh := s.view.shape
    let released := fun (q : State) => q.release (f.mod11.toNat / 16 % 8)
    (let xf := f.mod11.toNat / 128 % 16
     let d := s.furrow f.d8
     let a := s.furrow f.a8
     let k := s.view.tile f.a8.toNat
     ∀ r, copyFurrowsOk xf d a k = true → copyRules xf d a k = true → copyContext d s = .ok ((), s) →
      (xf = 6 ∨ copyContext a s = .ok ((), s)) → remoteKnot f s = .ok (r, s) → (s.copiesOf s.curKey).length < 32 →
      let issued := fun (x : Bool) =>
        let q := released s
        ({ q with copies := q.copies ++ [s.copyCmd f x r] } : State).modWk fun w => { w with copySeq := w.copySeq + 1 }
      exec (.wcpy f) o = .next ((issued false).afterE .W f 0 []) ∧ exec (.wcpyx f) o = .next ((issued true).afterE .W f 0 [])) ∧
    (∀ (a : Src) (p : State),
      let fmt := f.fmt5.toNat
      let w := fmtWidth fmt
      let g0 := sh.size 0
      let ix := fun (i : Nat) => signed 32 (slotOf (s.vreg f.b8).data.toNat 32 i)
      let rows := (List.range (sh.slots / g0)).filter fun r => activeIn (s.maskOf f.lo3) r && decide (0 ≤ ix r)
      let far := fun (r : Nat) => s.ln.placeOf (ix r).toNat / 2 ^ 48 % 2 ^ 10 ≠ s.devnum.toNat
      cvtFmt fmt = true → sh.slots ≤ 8192 → sh.fits w = true → readSrc f.a8 (some w) s = .ok (a, p) →
      (∀ r ∈ rows, (ix r).toNat < s.ln.nexp ∧ bit (s.ln.placeOf (ix r).toNat) 63 = true) →
      let q := p.release (if ∃ r ∈ rows, far r then 5 else 3)
      let sent := ({ q with sends := q.sends ++ rows.map (s.sendReq f a w g0) } : State).modWk
        fun w => rows.foldl (fun w r => w.countSent (ix r).toNat) w
      exec (.wsend f) o = .next (sent.afterE .W f 0 [])) ∧
    (let j := s.newJob f
     descOk j.desc j.buf = true → jobFurrowOk j.dst j.desc = true →
      (j.buf = true → ∀ x ∈ s.jobs, x.key = s.curKey → x.buf = true → x.failed = none → descTag x.desc ≠ descTag j.desc) →
      copyContext j.dst s = .ok ((), s) → (s.jobsOf s.curKey).length < 16 →
      let r := (released s).jobStep j j.capture
      exec (.wattd f) o = .next (({ r.1 with jobs := r.1.jobs ++ [r.2] } : State).afterE .W f 0 [])) ∧
    ((s.passesOf s.curKey).length < 16 →
      let q := released s
      let lane := fun (i : Nat) => BitVec.ofNat 32 (slotOf (s.vreg f.a8).data.toNat 32 i)
      let pass : ScorePass :=
        { key := s.curKey, m := lane 0, s := lane 1, tag := f.bc, knot := f.d8.toNat % 32, scope := f.mod11.toNat / 16 % 8
          drop := f.modBit 3, ftz := s.view.ftz, priv := s.wk.sup.priv, pc := s.st.pc, born := s.tick }
      exec (.watts f) o = .next (({ q with passes := q.passes ++ [pass] } : State).afterE .W f 0 []))) ∧
  (∀ (c : CopyCmd) (e : Quad Nat),
    let p := c.dst.pos
    let n := c.src.extents
    let j := (128 * e.c2 + e.c0) / c.src.blockLen
    (c.xf = 0 ∨ c.xf = 4 ∨ c.xf = 5 → c.from e = some e) ∧
    (c.xf = 1 → c.from e = some ⟨e.c1, e.c0, e.c2, e.c3⟩) ∧
    (c.xf = 2 → ∀ x, c.from e = some x ↔ ∀ k < 4, e.get k = p.get k + x.get k ∧ x.get k < n.get k) ∧
    (c.xf = 3 →
      c.from e = (if 128 * e.c2 + e.c0 < n.c0 then some ⟨128 * e.c2 + e.c0, e.c1, 0, 0⟩ else none) ∧
      c.scaleFrom e = (if j * c.src.blockLen < n.c0 then some ⟨j * c.src.blockLen, e.c1, 0, 0⟩ else none)) ∧
    (c.xf ≠ 3 → c.scaleFrom e = some e) ∧
    (c.xf = 6 → ∀ s,
      let q : Place := .cell c.key (c.tile.base.toNat + e.c1 * c.tile.cols.toNat + e.c0) 0
      (c.reader s).acq = .all (if c.ord then s.tick + 1 else c.born + 1) ∧
      (∀ k pa, s.readCheck q 32 = some (.machine k pa) → c.value e s = .error (.machine 4 pa)) ∧
      (s.readCheck q 32 = none → ∃ v t, s.mayFind (c.reader s) q 32 v ∧
        c.value e s = .ok (readCell c.dst.format 0 c.e4m3sat c.ftz 0 c.tile.anchor.toInt (BitVec.ofNat 256 v), t)))) ∧
  (∀ (df sf v : Nat) (sat ftz : Bool),
    (∀ x ∈ intRows, x.1 = sf →
      let i : Int := if x.2.1 then signed x.2.2 v else (v % 2 ^ x.2.2 : Nat)
      (∀ y ∈ intRows, y.1 = df →
        let w := y.2.2
        let lo : Int := if y.2.1 then -2 ^ (w - 1) else 0
        let hi : Int := if y.2.1 then 2 ^ (w - 1) - 1 else 2 ^ w - 1
        convertBits df sf sat ftz v = ((if sat then max lo (min hi i) else i) % 2 ^ w).toNat) ∧
      (df ≤ 4 → convertBits df sf sat ftz v = (convTo df 0 sat ftz 0 (.fin (decide (i < 0)) i.natAbs 0 false)).bits)) ∧
    (sf ≤ 4 → convertBits df sf sat ftz v = (convTo df 0 sat ftz 0 (readNum sf ftz v)).bits)) ∧
  (∀ (d a : Furrow) (k n : Nat), d.format ∈ [13, 14, 15, 16, 17, 18] → d.fmt.toNat / 2 ^ 5 % 4 ≠ 3 → d.indirect = false →
    a.extent 0 ≤ 512 → a.extent 1 ≤ 512 → n < a.extent 1 → k < 128 * ((a.extent 0 + 127) / 128) →
    let w := fmtWidth d.format
    let t := d.banded a
    let e : Quad Nat := ⟨k % 128, n, k / 128, 0⟩
    let run := k / 128 * a.extent 1 + n
    let j := k / d.blockLen
    let per := 128 / d.blockLen
    t.inFrame e = true ∧
    t.addr d.format e 0 = (((d.base.toNat : Int) + (run * (16 * w) + w * (k % 128) / 8 : Nat)).toNat % 2 ^ 64, w * (k % 128) % 8) ∧
    t.scaleAddr e = (d.sbase.toNat + (j * d.blockLen / 128 * a.extent 1 + n) * per + j % per) % 2 ^ 64) ∧
  ∀ (s : State) (a : Author) (w v : Nat) (t : Touch), 8 ≤ w → w % 8 = 0 → t.size = w / 8 → t.shift = 0 → v < 2 ^ w →
    (∃ p, t.place = .phys p) ∨ (∃ k o, t.place = .spad k o ∧ s.worker? k ≠ none) →
    (s.xorItem a w (t, v)).readPlace t.place t.size = s.readPlace t.place t.size ^^^ v

/-! ## Events: landings, agents, launches, the device -/

/-- R23, R25 to R27, R32, R33, R139: a strand's pending results. The one that lands next is the first whose landing point is
passed and whose pushes, if it has any, all have room and come behind no push of an older passed entry to the same queue, the
report of `mzcnt` behind every pending readout of its tile (R200); one that is full keeps nothing else from landing. It lands
whole: registers, mask, knot or entry, a fetched entry with its global bytes as L sees them now, QSAT and the tile counters with
what it adds to them, saturating at 2^32 − 1 (R78, R83); older pending writes to the same registers are discarded; its tokens
follow one by one, each a release at core scope, as is an engine's knot add (R265). A fetch of changed bytes from a marked
sector is a machine check (R332). While nothing can land the three events change nothing. -/
def Obligations.Landings : Prop :=
  ∀ (s : State),
    let w := s.wk
    let e := s.curEng
    let t := s.st
    let answers := fun (i : Instr) (t : State) => exec i s = .next t
    let passed := fun (j : Nat) (x : Pend) => x.count = 0 ∧ (x.last = true → j = 0)
    let pushes := fun (x : Pend) (q : Nat) => ∃ a ∈ x.acts, a.queue? = some q
    let ahead := fun (i : Nat) (P : Pend → Prop) => ∃ j < i, ∃ x, t.pend[j]? = some x ∧ x.count = 0 ∧ P x
    let able := fun (i : Nat) (p : Pend) =>
      passed i p ∧
        (p.now ≠ [] ∧ w.roomFor p.now = true ∧ ¬ahead i (fun x => ∃ q, pushes p q ∧ pushes x q) ∧
            (∀ l z c r, p.acts = .words l :: .counts z c :: r → ∀ j < i, ∀ x, t.pend[j]? = some x → ∀ d, .counts z d ∉ x.acts) ∨
          p.now = [] ∧ ∀ q r, p.acts = .token q :: r → w.tokensIn q < 15 ∧ ¬ahead i (fun x => .token q ∈ x.acts))
    let rest := fun (i : Nat) (p : Pend) (acts : List Landing) => { t with pend := putPend t.pend i { p with acts := acts } }
    let left := fun (i : Nat) (p : Pend) (u : Worker) (acts : List Landing) => s.setWk (u.setStrand e (rest i p acts))
    let landed := fun (i : Nat) (p : Pend) (u : Worker) (d : Nat × Nat) (r : List Landing) =>
      s.setWk (u.setStrand e { t with
        pend := (t.pend.take i).map (Pend.without [d]) ++ (if r = [] then [] else [{ p with acts := r }]) ++ t.pend.drop (i + 1) })
    let sat := fun (a b : BitVec 32) => BitVec.ofNat 32 (min (a.toNat + b.toNat) (2 ^ 32 - 1))
    let plus := fun (z : Nat) (c : Counts) =>
      let a := w.tileCounts z
      (⟨sat a.nanc c.nanc, sat a.infc c.infc, sat a.ovfc c.ovfc, sat a.satc c.satc, sat a.inxc c.inxc⟩ : Counts)
    let qsat := fun (n : Nat) => BitVec.ofNat 32 (min (w.qsat.toNat + n) (2 ^ 32 - 1))
    let regs := fun (l : List (Nat × VReg)) (i : Nat) (p : Pend) (r : List Landing) (u : Worker) =>
      (∀ k, u.vget k = (w.landVregs l).vget k) ∧ u.sregs = w.sregs ∧ u.masks = w.masks ∧ u.spad = w.spad ∧
        (r ≠ [] → (u.strands.get e).pend[i]? = some { p with acts := r })
    (∀ i p, w.due e = some (i, p) ↔ t.pend[i]? = some p ∧ able i p ∧ ∀ j < i, ∀ x, t.pend[j]? = some x → ¬able j x) ∧
    (∀ q x, w.roomFor [.image q x] = true ↔
      (w.image q).length < 4 ∧
        (w.image q = [] ∨
          (w.images.map fun y => ((y.2.drop 1).map fun z => (z.count * z.width + 8191) / 8192 * 1024).sum).sum
            + (x.count * x.width + 8191) / 8192 * 1024 ≤ 65536)) ∧
    (∀ l, w.roomFor [.words l] = true ↔ w.q15.length + l.length ≤ 16) ∧
    (s.live = false ∨ w.due e = none → answers .writeLanding s ∧ answers .queuePush s ∧ answers .tokenPush s) ∧
    (∀ i p, s.live = true → w.due e = some (i, p) →
      (∀ r, (∀ a ∈ r, ∃ q, a = .token q) →
        (∀ d v, p.acts = .sreg d v :: r → answers .writeLanding (landed i p (w.sset d v) (0, d) r)) ∧
        (∀ m v, p.acts = .mask m v :: r → answers .writeLanding (landed i p (w.mset m v) (2, m) r)) ∧
        (∀ l, p.acts = .vregs l :: r → ∃ u, answers .writeLanding (s.setWk u) ∧ regs l i p r u) ∧
        (∀ k n, p.acts = .knotAdd k n :: r →
          answers .writeLanding ((s.setWk ((w.setStrand e (rest i p r)).addKnot k n false)).releaseTo s.curKey e p.pos 1 false)) ∧
        (∀ n, p.acts = .qsat n :: r → answers .writeLanding (left i p { w with qsat := qsat n } r)) ∧
        (∀ z c, p.acts = .counts z c :: r → answers .writeLanding (left i p (w.setCounts z (plus z c)) r)) ∧
        (∀ l n, p.acts = .vregs l :: .qsat n :: r → ∃ u, answers .writeLanding (s.setWk u) ∧ regs l i p r u ∧ u.qsat = qsat n) ∧
        (∀ l z c, p.acts = .vregs l :: .counts z c :: r →
          ∃ u, answers .writeLanding (s.setWk u) ∧ regs l i p r u ∧ u.tileCounts z = plus z c ∧
            ∀ y ≠ z, u.tileCounts y = w.tileCounts y) ∧
        (∀ q x,
          let u := w.setImage q (w.image q ++ [x])
          (p.acts = .image q x :: r → answers .queuePush (left i p u r)) ∧
          (∀ n, p.acts = .image q x :: .qsat n :: r → answers .queuePush (left i p { u with qsat := qsat n } r)) ∧
          ∀ z c, p.acts = .image q x :: .counts z c :: r → answers .queuePush (left i p (u.setCounts z (plus z c)) r)) ∧
        (∀ q x l, p.acts = .fetched q x l :: r →
          (∀ pa, s.badPart s.fetcher x l = some pa → answers .queuePush (s.machineCheck w e.code (checkKind pa) pa t.pc)) ∧
          (s.badPart s.fetcher x l = none → answers .queuePush
            { left i p (w.setImage q (w.image q ++ [s.refetch s.fetcher x l])) r with writes := (s.refetched p).writes })) ∧
        (∀ l,
          let u := { w with q15 := w.q15 ++ l }
          (p.acts = .words l :: r → answers .queuePush (left i p u r)) ∧
          ∀ z c, p.acts = .words l :: .counts z c :: r → answers .queuePush (left i p (u.setCounts z (plus z c)) r)) ∧
        ∀ l q x, p.acts = .vregs l :: .image q x :: r →
          ∃ u, answers .queuePush (s.setWk u) ∧ u.image q = (w.landVregs l).image q ++ [x] ∧ regs l i p r u) ∧
      ∀ q r, p.acts = .token q :: r →
        answers .tokenPush ((left i p (w.setTokens q (w.tokensIn q + 1)) r).releaseTo s.curKey e p.pos 1 false)) ∧
    (∀ (a : Reader) (x : ImgEntry) (l : List Part), s.badPart a x l = none ↔
      ∀ p ∈ l, s.partValue a p ≠ x.partOf p → sectorHit s.badSectors p.addr p.size = none) ∧
    ∀ (a : Reader) (x : ImgEntry) (l : List Part) (n : Nat), 0 < n →
      (∀ p ∈ l, p.scale = false ∧ p.width = n ∧ (p.slot + 1) * n ≤ 262144) → l.Pairwise (fun a b => a.slot ≠ b.slot) →
      let y := s.refetch a x l
      { y with data := x.data } = x ∧
      (∀ p ∈ l, ∃ v, s.mayFind a (.phys (plain p.addr)) (max 1 (n / 8)) v ∧ slotOf y.data.toNat n p.slot = bits v p.shift n) ∧
      ∀ i, (i + 1) * n ≤ 262144 → (∀ p ∈ l, p.slot ≠ i) → slotOf y.data.toNat n i = slotOf x.data.toNat n i

/-- R168, R210, R211, R231 to R235, R239, R249 to R254: the agents of a worker. A copy chunk is the next elements of one 4 KiB
block of destination addresses; a fault in it ends the command, which then leaves its error record. A command, a decode job and
a score pass end with one knot add, behind its writes, which are then performed at its scope, and behind the dirty pool bytes at
pool or system scope (log 24); a failed one's carries the error mark, and no write of it need be seen. `wstq`'s add follows its
image, performed at its scope, and is a release of W. An error met by an engine is a machine check. A request is decided at its
window: stored and counted, or refused with its reason (a peer's by a packet: log 33; a window that is not there as invalid: log
32). The words of a job's record that R235 gives copies alone are free (log 23). -/
def Obligations.AgentEvents : Prop :=
  ∀ (s : State) (key : Nat) (w : Worker), s.worker? key = some w →
    let answers := fun (i : Instr) (t : State) => exec i s = .next t
    let l := s.launch w.lid
    let may := w.status ≠ .saved ∧ l.aborting = false
    let word := fun (n : Nat) => BitVec.ofNat 64 n
    let performed := fun (q : State) (pick : Write → Bool) (scope : Nat) =>
      { q with writes := q.writes.map fun u => if pick u then u.perform ⟨q.tick, scope, (q.worker key).core⟩ else u }
    let shown := fun (q : State) (born scope : Nat) (err : Bool) =>
      let p := if err then q else performed q (fun u => u.who == some ⟨key, .command born⟩) scope
      if 4 ≤ scope then p.flushAllPool else p
    let ended := fun (q : State) (born scope knot : Nat) (err : Bool) =>
      (shown q born scope err).modWorker key fun u => u.addKnot knot 1 err
    (∀ (ag : Agent) (r : List Word),
      let log := w.sup.errlog.toNat
      let cx := { s.cxOf w with user := false }
      (log = 0 → errorRecord w ag r s = .ok ((), s)) ∧
      (∀ x, log ≠ 0 → log % 1024 = 0 → inWindows log = false → s.resolve ag cx log .atomic = .error (.fault x) →
        errorRecord w ag r s = .ok ((), s)) ∧
      ∀ p q, log ≠ 0 → log % 1024 = 0 → inWindows log = false → s.badSectors = [] → s.softSectors = [] →
        s.resolve ag cx log .atomic = .ok (p, q) →
        let n := q.physNat p.addr 4
        let put := fun (v : State) (y : Phys) (b : List Byte) => (v.noteDoneAt (.phys y) b).putBytes y y.addr b
        let u := put q p (toBytes (n + 1) 4)
        (∀ y v, u.resolve ag cx (log + 32 + 32 * (n % 31)) .store = .ok (y, v) →
          errorRecord w ag r s = .ok ((), put v y (r.flatMap fun x => toBytes x.toNat 8))) ∧
        ∀ x, u.resolve ag cx (log + 32 + 32 * (n % 31)) .store = .error (.fault x) → errorRecord w ag r s = .ok ((), s)) ∧
    (∀ born xf knot scope cause addr pc t,
      errorRecord w s.sauUnit
        [addr, word (w.wid * 2 ^ 32 + knot * 2 ^ 24 + 0xFE * 2 ^ 16 + xf * 2 ^ 10 + cause), Config.openWord 0 w.wid pc.toNat,
          word pc.toNat] s = .ok ((), t) →
      s.sauFails key born xf knot scope cause addr pc = ended t born scope knot true) ∧
    (∀ (c : CopyCmd) (before after : List CopyCmd), s.copies = before ++ c :: after → c.key = key →
      (∀ x ∈ before, ¬(x.key = key ∧ x.seq = c.seq)) →
      let at_ := fun (i : Nat) => (c.dst.addr c.dst.format (c.dst.coords i) 0).1
      let stays := fun (i : Nat) =>
        i < c.dst.frame ∧ at_ i / 4096 = at_ c.next / 4096 ∧
          (at_ i + max 1 (fmtWidth c.dst.format / 8) - 1) / 4096 = at_ c.next / 4096
      let turn := may ∧ c.failed = false ∧ c.next < c.dst.frame ∧
        (0 < c.next ∨ c.ecode = 0xFF ∨
          ∀ x ∈ before, x.ecode = 0xFF ∨ x.engine ≠ c.engine ∨ x.failed = true ∨ 0 < x.next ∨ s.agentsMay x.key = false) ∧
        (c.ord = true → ∀ x ∈ s.copies, x.key = key → c.seq ≤ x.seq)
      (∃ n, 0 < n ∧ n ≤ 4096 ∧ c.chunk = (List.range n).map (c.next + ·) ∧ (∀ k, 0 < k → k < n → stays (c.next + k)) ∧
        (n < 4096 → ¬stays (c.next + n))) ∧
      (¬turn → answers (.copyChunk key c.seq) s) ∧
      (turn →
        (∀ r u t, c.elements c.chunk s = .ok (r, u) → c.writes r.1 u = .ok ((), t) →
          answers (.copyChunk key c.seq)
            (t.putCopy { c with next := c.next + c.chunk.length, chunks := c.chunks + 1, counts := c.counts.add r.2 })) ∧
        (∀ kind pa, c.elements c.chunk s = .error (.machine kind pa) →
          answers (.copyChunk key c.seq) (s.machineCheck w 7 kind pa c.pc)) ∧
        ∀ x t, c.elements c.chunk s = .error (.trap x) →
          let q := if x.cause = 0x0B then s.modLaunch w.lid fun l => { l with detOff := true } else s
          let side := if x.slot = some 1 then 1 else 0
          let flags := (if c.xor then 2 ^ 9 else 0) + side * 2 ^ 8 + x.cause
          errorRecord w (.engine c.engine)
            [word x.addr, word (w.wid * 2 ^ 32 + c.kcode.toNat * 2 ^ 24 + c.ecode.toNat * 2 ^ 16 + c.xf * 2 ^ 10 + flags),
              word (c.chunks * 2 ^ 32 + c.seq), word c.pc.toNat] (q.putCopy { c with failed := true }) = .ok ((), t) →
          answers (.copyChunk key c.seq) t) ∧
      (l.aborting = false → c.failed = true ∨ c.dst.frame ≤ c.next →
        let gone := shown { s with copies := s.copies.filter fun x => !(x.key == key && x.seq == c.seq) } c.born c.scope c.failed
        let counted := fun (u : Worker) =>
          if c.xf = 6 ∧ c.failed = false then u.setCounts c.tileNo ((u.tileCounts c.tileNo).add c.counts) else u
        (c.remote = none →
          answers (.copyCommandCompletion key c.seq) (gone.modWorker key fun u => (counted u).addKnot c.knot 1 c.failed)) ∧
        ∀ va k n, c.remote = some va → c.xf ≠ 6 → windowPlace (s.cxOf w) va.toNat = some (.knot k n) →
          answers (.copyCommandCompletion key c.seq) (gone.modWorker k fun u =>
            { u.addKnot n 1 c.failed with farKnots := if n ∈ u.farKnots then u.farKnots else n :: u.farKnots }))) ∧
    (∀ n j, s.jobs[n]? = some j → j.key = key → may → j.complete = false →
      let put := fun (r : State × SauJob) => r.1.putJob n r.2
      (∀ span, j.failed = none →
        (j.entries = [] → answers (.spanFold n span) (put (s.jobStep j j.capture))) ∧
        (j.entries ≠ [] → span < descSpans j.desc → span ∉ j.folded →
          answers (.spanFold n span) (put (s.jobStep j (j.fold span))))) ∧
      (∀ x, j.failed = some x →
        answers (.decodeJobCompletion n) (({ s with jobs := dropNth s.jobs n } : State).sauFails key j.born 8 j.knot j.scope x.1 x.2 j.pc)) ∧
      (j.failed = none → j.entries ≠ [] → j.folded.length = descSpans j.desc →
        answers (.decodeJobCompletion n)
          (ended (if j.buf then s.putJob n { j with complete := true } else { s with jobs := dropNth s.jobs n }) j.born j.scope j.knot
            false))) ∧
    (∀ n p, s.passes[n]? = some p → p.key = key → may →
      let held := s.jobs.find? fun j => j.key == key && j.buf && descTag j.desc == p.tag.toNat
      let closed := fun (q : State) => q.closePass n key p.tag.toNat
      (held = none →
        answers (.scorePassCompletion n)
          ((closed s).sauFails key p.born 9 p.knot p.scope 0x08 (Config.openWord 1 w.wid p.pc.toNat) p.pc)) ∧
      ∀ j, held = some j →
        (j.complete = false → answers (.scorePassCompletion n) s) ∧
        (j.complete = true →
          (p.drop = true → answers (.scorePassCompletion n) (ended (closed s) p.born p.scope p.knot false)) ∧
          (p.drop = false →
            (∀ t, p.add j s = .ok (true, t) → answers (.scorePassCompletion n) (ended (closed t) p.born p.scope p.knot false)) ∧
            ∀ x, p.add j s = .error (.trap x) →
              answers (.scorePassCompletion n) ((closed s).sauFails key p.born 9 p.knot p.scope x.cause (word x.addr) p.pc)))) ∧
    (∀ n k, s.knotAdds[n]? = some k → k.key = key →
      let q := performed s (fun u => u.who == some ⟨key, .strand .W⟩ && u.pos == k.pos) k.scope
      answers (.wstqKnotAdd n)
        ({ q.releaseTo key .W k.pos k.scope false with knotAdds := dropNth s.knotAdds n }.putWorker key (w.addKnot k.knot 1 false))) ∧
    (∀ n q, s.sends[n]? = some q →
      let lc := s.launch q.lid
      let rest : State := { s with sends := dropNth s.sends n }
      let place := lc.placeOf q.expert
      let here := place / 2 ^ 48 % 2 ^ 10 = s.devnum.toNat
      let home := q.peer = true ∨ here
      let placed := q.peer = true → q.expert < lc.nexp ∧ bit place 63 = true ∧ here
      let owner := workerKey q.lid (place / 2 ^ 32 % 2 ^ 16)
      let refuse := fun (reason : Nat) =>
        let entry := word (reason * 2 ^ 60 + q.expert * 2 ^ 32 + q.token.toNat)
        (if q.peer then { rest with replies := rest.replies ++ [toBytes entry.toNat 8 ++ toBytes q.knot 8] }
        else { rest with refusals := rest.refusals ++ [⟨workerKey q.lid q.sender, entry, q.knot⟩] } : State)
      (lc.aborting = true ∨ ¬home → answers (.admitRequest n) rest) ∧
      (lc.aborting = false → home →
        (lc.det = true → answers (.admitRequest n) s) ∧
        (lc.det = false → (¬placed ∨ s.worker? owner = none) → answers (.admitRequest n) (refuse 2)) ∧
        (lc.det = false → placed → key = owner →
          let at_ := place % 2 ^ 19
          let word := fun (i : Nat) => w.spad.nat (at_ + 4 * i) 4
          let good := word 3 ≤ 31 ∧ at_ + 32 + word 0 * (8 + word 2) ≤ 524288
          (¬good → answers (.admitRequest n) (refuse 2)) ∧
          (good → word 2 ≠ q.data.length → answers (.admitRequest n) (refuse 1)) ∧
          (good → word 2 = q.data.length → word 0 ≤ word 1 → answers (.admitRequest n) (refuse 0)) ∧
          (good → word 2 = q.data.length → word 1 < word 0 →
            let fill := toBytes (word 1 + 1) 4
            let row := toBytes q.token.toNat 8 ++ q.data
            let slot := at_ + 32 + word 1 * (8 + word 2)
            let m := (w.spad.writeBytes (at_ + 4) fill).writeBytes slot row
            let noted := (rest.noteDone (.spad key) (at_ + 4) fill).noteDone (.spad key) slot row
            answers (.admitRequest n) (noted.putWorker key ({ w with spad := m }.addKnot (word 3) 1 false)))))) ∧
    (∀ n m, s.refusals[n]? = some m → m.key = key →
      let u := if w.refq.length < 64 then { w with refq := w.refq ++ [m.entry] } else { w with lostref := true }
      answers (.refusalArrival n)
        (({ s with refusals := dropNth s.refusals n } : State).putWorker key ({ u with refcnt := satAdd u.refcnt 1 }.addKnot m.knot 1 false)))

/-- R182, R222, R252, R289, R305, R309, R313, R318 to R322: a pre-emption request reaches the workers of a pre-empted launch; a
worker stops at once, but for one whose `shins` is between two keys; a stopped worker is saved into its core's save area, every
item at its place in R320's table (the control image's bytes and the order among queue entries are the model's: log 54), and its
core freed; its image moves aside for another launch and back; it is restored with cold caches, its decode jobs reissued, with
its notice if PNOTE asks for one, held to its `eret` where TIN is set; planes, neighbour tables and translations come back. A save
finds what the worker has written performed at device scope (R273). An invalidation drops what it names; what was accessed
through it is complete and performed at device scope before the add to its knot: the loads whose entries are still to be pushed,
and every store to memory (log 45). A trap decided before the first instruction is entered. -/
def Obligations.ContextEvents : Prop :=
  ∀ (s : State) (key : Nat) (w : Worker), s.worker? key = some w →
    let answers := fun (i : Instr) (t : State) => exec i s = .next t
    let cold := fun (b : Tab Bank) => b.map fun e => (e.1, { e.2 with clean := true })
    let onS := fun (q : State) => { q with curKey := key, curEng := .S }
    let area := tabFind s.saveArea w.core
    let running := (s.launch w.lid).state = .running
    let items := w.areaItems s.tick
    let far := fun (u : Worker) (k : Nat) =>
      { u.addKnot k 1 false with farKnots := if k ∈ u.farKnots then u.farKnots else k :: u.farKnots }
    (∀ n, w.note = some n → w.status = .running →
      (n.held = true → answers (.trapEntry key) s) ∧
      (n.held = false → w.insertion = none →
        answers (.trapEntry key)
          (State.takeTrap (onS (s.putWorker key { w with note := none })) n.strand n.pc ⟨n.cause, n.sub, n.addr.toNat, n.slot⟩)) ∧
      (w.insertion ≠ none → answers (.trapEntry key) s)) ∧
    (w.status = .running → (s.launch w.lid).state = .preempted →
      answers (.preemptionRequest key) (s.putWorker key { w with preempt := true })) ∧
    (s.curKey = key → w.status = .running → s.frozen = false → w.preempt = true → w.insertion = none →
      s.strandMove = .done (s.putWorker key { w with status := .stopped })) ∧
    (w.status = .stopped →
      answers (.contextSave key)
        { ({ s.putVault w.core items with
            writes := s.writes.map fun u => if u.who.map Who.key = some key then u.perform ⟨s.tick, 3, w.core⟩ else u } :
              State).putWorker key
            { w with status := .saved, preempt := false, imageMoved := false, banks := cold w.banks } with
          jobs := s.jobs.map fun j => if j.key = key then j.saved else j
          saveArea := tabPut s.saveArea w.core key, coreUse := tabErase s.coreUse w.core }) ∧
    ((∀ a < 0x10000, (⟨a, 1, (Config.controlByte s.tick a).toNat⟩ : AreaItem) ∈ items) ∧
      (∀ p < 128,
        (⟨0x010000 + 0x8000 * p, 0x8000, (w.vget p).data.toNat⟩ : AreaItem) ∈ items ∧
        ((w.vget p).tag ≠ none → (⟨0x410000 + 0x1000 * p, 0x1000, (w.vget p).scale.toNat⟩ : AreaItem) ∈ items)) ∧
      (∀ a < 0x80000, (⟨0x490000 + a, 1, (w.spad.read a).toNat⟩ : AreaItem) ∈ items) ∧
      (∀ i < 32768, (⟨0x510000 + 32 * i, 32, (w.cell i).toNat⟩ : AreaItem) ∈ items) ∧
      (∀ q < 14, ∀ e ∈ w.image q, ∃ o, 0x610000 ≤ o ∧ (⟨o, e.size, e.data.toNat⟩ : AreaItem) ∈ items) ∧
      (∀ x ∈ w.q14 ++ w.q15, ∃ o, 0x610000 ≤ o ∧ (⟨o, 8, x.toNat⟩ : AreaItem) ∈ items) ∧
      (∀ m < 8, (⟨0x690000 + 0x2000 * m, 0x2000, (w.mget m).toNat⟩ : AreaItem) ∈ items) ∧
      (∀ b < 16, (w.bank b).clean = false → ∀ i < 256,
        (⟨0x6A0000 + 0x1000 * b + 8 * i, 8, (tabGet 0 (w.bank b).copy0 i).toNat⟩ : AreaItem) ∈ items ∧
        (⟨0x6A0800 + 0x1000 * b + 8 * i, 8, (tabGet 0 (w.bank b).copy1 i).toNat⟩ : AreaItem) ∈ items) ∧
      (∀ e p, p ∈ (w.strands.get e).pend ∨ p ∈ w.trapPend →
        (∀ r v, .sreg r v ∈ p.acts → ∃ o, 0x6B0000 ≤ o ∧ (⟨o, 8, v.toNat⟩ : AreaItem) ∈ items) ∧
        ∀ l y, .vregs l ∈ p.acts → y ∈ l → ∃ o, 0x6B0000 ≤ o ∧ (⟨o, 0x8000, y.2.data.toNat⟩ : AreaItem) ∈ items) ∧
      ∀ (m : Memory) (x : AreaItem) (l : List AreaItem) (a : Nat),
        Memory.putItems m (x :: l) = Memory.putItems (Memory.putItems m [x]) l ∧
        (Memory.putItems m [x]).read a =
          if x.off ≤ a ∧ a < x.off + x.size then BitVec.ofNat 8 (x.val / 256 ^ (a - x.off)) else m.read a) ∧
    (w.status = .saved → running → w.imageMoved = true → area = none →
      answers (.saveImageMove key)
        { s.putWorker key { w with imageMoved := false } with
          vaults := tabSet [] s.vaults w.core (tabGet [] s.movedImages key), movedImages := tabErase s.movedImages key
          saveArea := tabPut s.saveArea w.core key }) ∧
    (∀ lid, w.status = .saved → ¬running → w.imageMoved = false → s.reserved = some lid → lid ≠ w.lid →
      tabFind s.coreUse w.core = none →
      answers (.saveImageMove key)
        { s.putWorker key { w with imageMoved := true } with
          movedImages := tabSet [] s.movedImages key (s.vault w.core), saveArea := tabErase s.saveArea w.core }) ∧
    (w.status = .saved → running → w.imageMoved = false →
      let u := { w with status := .running, nbrValid := false, banks := cold w.banks }
      let back := ({ s.putWorker key u with saveArea := tabErase s.saveArea w.core } : State).coldCaches w.core w.sup.asid.toNat
      let t := back.reissue key
      (∀ ag va, (∀ c, ag = .core c → c = w.core) → (back.tlb ag).find w.sup.asid.toNat va = none ∧
        back.dieFind ag w.sup.asid.toNat va = none) ∧
      ((∀ j ∈ s.jobs, j.key = key → j.complete = true ∨ j.failed ≠ none) → t = back) ∧
      (∀ j, s.jobs = [j] → j.key = key → j.complete = false → j.failed = none →
        t = (back.jobStep j j.capture).1.putJob 0 (back.jobStep j j.capture).2) ∧
      (w.sup.pnote = false → answers (.contextRestore key) t) ∧
      (w.sup.pnote = true → w.sup.tin = true →
        answers (.contextRestore key) (t.putWorker key { t.worker key with note := some ⟨0x11, 0, 0, none, .S, 0, true⟩ })) ∧
      (w.sup.pnote = true → w.sup.tin = false →
        answers (.contextRestore key) (State.takeTrap (onS t) .S w.strands.s.pc ⟨0x11, 0, 0, none⟩))) ∧
    (w.status = .running →
      let owner := fun (q : State) => ({ q with planeOwner := tabPut q.planeOwner w.core key } : State)
      (∀ x ∈ [(w.active, 0x720000), (w.shadow, 0x768000)],
        (∀ i < 2048, (⟨x.2 + 128 * i, 128, (tabGet 0 x.1.mant i).toNat⟩ : AreaItem) ∈ w.planeItems ∧
          (⟨x.2 + 0x40000 + 8 * i, 8, (tabGet 0 x.1.scale i).toNat⟩ : AreaItem) ∈ w.planeItems) ∧
        (⟨x.2 + 0x44000, 1, x.1.wb⟩ : AreaItem) ∈ w.planeItems ∧ (⟨x.2 + 0x44001, 1, x.1.lb⟩ : AreaItem) ∈ w.planeItems ∧
        (⟨x.2 + 0x44002, 1, if x.1.fixed then 1 else 0⟩ : AreaItem) ∈ w.planeItems) ∧
      (tabFind s.planeOwner w.core = none ∨ tabFind s.planeOwner w.core = some key → answers (.planeTransfer key) (owner s)) ∧
      ∀ k x, tabFind s.planeOwner w.core = some k → k ≠ key → s.worker? k = some x →
        (x.imageMoved = false → answers (.planeTransfer key) (owner (s.putVault w.core x.planeItems))) ∧
        (x.imageMoved = true →
          answers (.planeTransfer key)
            (owner { s with movedImages := tabSet [] s.movedImages k (Memory.putItems (tabGet [] s.movedImages k) x.planeItems) }))) ∧
    answers (.neighbourTableRebuild key) (s.putWorker key { w with nbrValid := true }) ∧
    (∀ va,
      (2 ^ 57 ≤ va ∨ inWindows va = true → answers (.pageWalk key va) s) ∧
      (∀ x, s.lookup (.core w.core) (s.cxOf w) va = .error x → answers (.pageWalk key va) s) ∧
      ∀ e l, s.lookup (.core w.core) (s.cxOf w) va = .ok (e, l, true) →
        (leafPhys e.size e.pte.toNat va = none → answers (.pageWalk key va) s) ∧
        (leafPhys e.size e.pte.toNat va ≠ none → va < 2 ^ 57 → inWindows va = false →
          answers (.pageWalk key va) ((s.noteWalk (.core w.core) (s.cxOf w) va l).fill (.core w.core) e l))) ∧
    (∀ pick : Nat → Bool, ∃ v, (s.completeLoads pick).worker? key = some v ∧
      v = { w with strands := { w.strands with l := { w.strands.l with pend := v.strands.l.pend } } } ∧
      List.Forall₂ (fun p q => q = { p with acts := q.acts } ∧ List.Forall₂ (fun a b =>
          (∀ n e l, a = .fetched n e l → b = .fetched n (s.refetch ⟨⟨key, .strand .L⟩, w.core, w.strands.l.acq, 0⟩ e (l.filter fun y => pick y.addr))
            (l.filter fun y => !pick y.addr)) ∧
          ((∀ n e l, a ≠ .fetched n e l) → b = a)) p.acts q.acts) w.strands.l.pend v.strands.l.pend) ∧
    (∀ n x, s.satinvs[n]? = some x → x.key = key →
      let named := fun (y : TlbEntry) =>
        (decide (y.base < x.limit) && decide (x.base < y.base + y.size)) && (x.all || y.global || y.asid == x.asid)
      let drop := fun (c : Tab Tlb) => c.map fun e => (e.1,
        (⟨e.2.leaves.filter fun y => !named y,
          e.2.tables.filter fun y => !(decide (y.base < x.limit) && decide (x.base < y.base + y.size))⟩ : Tlb))
      let used := fun (a : Nat) => (s.coreTlb ++ s.dieTlb ++ s.engTlb ++ s.sauTlb).any fun t => t.2.leaves.any fun y => named y &&
        match leafPhys y.size y.pte.toNat y.base with
        | some p => decide (p.addr ≤ a ∧ a < p.addr + y.size)
        | none => false
      let done := s.completeLoads used
      (x.limit ≤ x.base → answers (.satinvCompletion n) { s.putWorker key (far w x.knot) with satinvs := dropNth s.satinvs n }) ∧
      (x.base < x.limit → answers (.satinvCompletion n)
        { done.putWorker key (far (done.worker key) x.knot) with
          writes := s.writes.map fun u => if u.spot = .mem then u.perform ⟨s.tick, 3, w.core⟩ else u
          coreTlb := drop s.coreTlb, dieTlb := drop s.dieTlb, engTlb := drop s.engTlb, sauTlb := drop s.sauTlb
          satinvs := dropNth s.satinvs n }))

/-- R284, R286 to R289, R325: a record is taken in ring order, HEAD advances in its header behind the dirty pool bytes (log 24),
and it is loaded or refused at once; a decision first promotes the waiting launches whose dependences are met, then keeps,
resumes or starts the launch it decides on, or takes one victim, of the lowest PRIO below the chosen launch's and the most
recently started of those. The decision takes the highest effective level, in it a PREEMPTED launch first, then the first queue
after the last one started, then ring order, and keeps a reservation against equal and lower levels. Aging adds one level. What a
started worker begins with: its strands see what was performed at a scope that holds them before; a bank loaded from an image is
not clean (log 60). -/
def Obligations.RecordsAndDecisions : Prop :=
  ∀ (s : State),
    let answers := fun (i : Instr) (t : State) => exec i s = .next t
    (∀ q,
      let a := s.account q
      let slot := ringSlot a.ring a.size a.head
      let r := (List.range 32).map fun k => BitVec.ofNat 64 (s.physNat (slot + 8 * k) 8)
      let lid := q * 2 ^ 57 + a.head
      let t := (({ s with queues := tabPut s.queues q { a with head := a.head + 1 } } : State).flushAllPool).putPhys (s.header q + 24)
        (toBytes (a.head + 1) 8)
      let loaded := s.loadRecord r a.prio (s.producersOf q a.head r)
      (a.head < a.tail → s.busyOf q < 4 → s.qerr q = false →
        (∀ l, loaded = .ok l → answers (.recordTake q) (t.putLaunch lid l)) ∧
        ∀ st, loaded = .error st →
          answers (.recordTake q) ((t.putLaunch lid { Launch.zero with record := r }).finish lid st none)) ∧
      (a.tail ≤ a.head ∨ 4 ≤ s.busyOf q ∨ s.qerr q = true → answers (.recordTake q) s)) ∧
    (let p : State :=
      { s with
        launches := s.launches.map fun e =>
          (e.1, if e.2.state = .waiting ∧ (e.2.early = true ∨ ∀ d ∈ e.2.producers, s.isComplete d = true) then
            { e.2 with state := .ready, age := 0 } else e.2) }
     let open_ := fun (e : Nat × Launch) => (e.2.state = .ready ∨ e.2.state = .preempted) ∧ e.2.aborting = false
     let level := fun (e : Nat × Launch) => min 3 (e.2.prio + e.2.age)
     let pre := fun (e : Nat × Launch) => e.2.state = .preempted
     let rank := fun (e : Nat × Launch) => (e.1 / 2 ^ 57 + 63 - p.lastQueue) % 64
     let first := fun (a b : Nat × Launch) =>
      level b < level a ∨ level a = level b ∧
        (pre a ∧ ¬pre b ∨ (pre a ↔ pre b) ∧ (rank a < rank b ∨ rank a = rank b ∧ a.1 % 2 ^ 57 < b.1 % 2 ^ 57))
     let best := fun (lid : Nat) => ∃ l, (lid, l) ∈ p.launches ∧ open_ (lid, l) ∧ ∀ e ∈ p.launches, open_ e → ¬first e (lid, l)
     (p.candidate = none ↔ ∀ e ∈ p.launches, ¬open_ e) ∧
     (p.candidate = none → answers .arbiterDecision { p with reserved := none }) ∧
     (p.reserved = none → ∀ lid, p.candidate = some lid → best lid) ∧
     (∀ r l, p.reserved = some r → tabFind p.launches r = some l → open_ (r, l) →
      ((∀ e ∈ p.launches, open_ e → level e ≤ level (r, l)) → p.candidate = some r) ∧
      ∀ e ∈ p.launches, open_ e → level (r, l) < level e → ∀ lid, p.candidate = some lid → best lid) ∧
     ∀ lid, p.candidate = some lid →
      let r : State := { p with reserved := some lid }
      let l := r.launch lid
      let free := (r.freeCores l).take l.workersN
      let room := (r.freeCores l).length + r.coresComing l
      let low := fun (e : Nat × Launch) => e.2.state = .running ∧ e.2.aborting = false ∧ e.2.prio < l.prio
      (l.state = .preempted →
        (r.canResume lid = true ↔ ∀ k ∈ r.keysOf lid, (r.worker k).status ≠ .done →
          (r.worker k).status = .saved ∧ tabFind r.coreUse (r.worker k).core = none ∧
            (tabFind r.saveArea (r.worker k).core = none ∨ tabFind r.saveArea (r.worker k).core = some k)) ∧
        (r.canResume lid = true → answers .arbiterDecision (r.resume lid)) ∧ (r.canResume lid = false →
          answers .arbiterDecision r)) ∧
      (l.state ≠ .preempted →
        (l.workersN ≤ free.length →
          ((∀ c ∈ free, tabFind r.saveArea c = none) → answers .arbiterDecision (r.startOn lid free)) ∧
          ((∃ c ∈ free, tabFind r.saveArea c ≠ none) → answers .arbiterDecision r)) ∧
        (free.length < l.workersN →
          (l.workersN ≤ room ∨ (∀ e ∈ r.launches, ¬low e) → answers .arbiterDecision r) ∧
          (∀ v, r.victim l.prio = some v →
            (∃ x, (v, x) ∈ r.launches ∧ low (v, x) ∧
              ∀ e ∈ r.launches, low e → x.prio < e.2.prio ∨ x.prio = e.2.prio ∧ e.2.order ≤ x.order) ∧
            (l.state = .ready → room < l.workersN →
              let q := r.modLaunch v fun x => { x with state := .preempted, age := 0 }
              answers .arbiterDecision
                { q with
                  coreUse := q.coreUse.filter fun e =>
                    !((q.worker e.2).lid == v && (q.worker e.2).status == .done) }))))) ∧
    (∀ lid c, (s.launch lid).workersN = 1 →
      let l := s.launch lid
      let q := s.putLaunch lid { l.started s.starts with bin := s.placedHash l.record }
      let w := s.newWorker lid 0 c l
      let t := s.startOn lid [c]
      let slip := bits (l.word 2) 16 5
      t.worker? (workerKey lid 0) = some (q.checkEntry w l.entry) ∧ tabFind t.coreUse c = some (workerKey lid 0) ∧
      t.lastQueue = lid / 2 ^ 57 ∧ t.reserved = none ∧ t.starts = s.starts + 1 ∧ (t.launch lid).state = .running ∧
      (q.targetOk w l.entry = true → q.checkEntry w l.entry = w) ∧
      (q.targetOk w l.entry = false →
        q.checkEntry w l.entry = { w with note := some ⟨1, 2, l.entry.zeroExtend 64, none, .S, l.entry, false⟩ }) ∧
      w.status = .running ∧ w.core = c ∧ w.sup.priv = false ∧ w.sup.tin = false ∧
      (∀ e,
        let x := w.strands.get e
        x.pc = BitVec.ofNat 57 (l.word 0) ∧ x.view.slip = (if slip = 0 then 4 else slip) ∧ x.view.preds = 0x8000 ∧
        x.acq = ⟨s.tick + 1, s.tick + 1, s.tick + 1⟩ ∧
        (l.bkt.length = 8 → ∀ k < 8, tabGet 0 x.view.bkt k = nth 0 l.bkt k)) ∧
      (∀ b x, b < 16 → l.books[b]? = some x → x ≠ [] → (w.bank b).clean = false) ∧
      (l.args.length = 30 → ∀ i, w.sget i = if 1 ≤ i ∧ i ≤ 30 then nth 0 l.args (i - 1) else 0)) ∧
    ∀ lid l, tabFind s.launches lid = some l →
      ((l.state = .ready ∨ l.state = .preempted) → l.aborting = false →
        answers (.agingStep lid) (s.putLaunch lid { l with age := l.age + 1 })) ∧
      (l.state ≠ .ready → l.state ≠ .preempted → answers (.agingStep lid) (s.putLaunch lid l))

/-- R17, R205, R206, R211, R257, R287, R292, R294, R299, R339: a worker completes once its strands have exited, all it issued is
done and no end of a phase or close is due, and the last one drains its launch; a drained launch whose producers are COMPLETE
completes with its digest and STATUS 0, an aborted one with STATUS 3; a phase of a deterministic launch ends once its tasks are
committed, its held requests decided in order of token, sender and row, and the next one's tasks are dealt, or none where every
worker is gone; a micro-batch closes once every worker contributed. What a worker has written is performed at device scope as it
completes, what a launch has written at system scope before DONE (R17, R287). -/
def Obligations.CompletionsAndPhases : Prop :=
  ∀ (s : State) (lid : Nat),
    let answers := fun (i : Instr) (t : State) => exec i s = .next t
    let l := s.launch lid
    let ws := (List.range l.workersN).map fun w => s.worker (workerKey lid w)
    let on := (l.state = .running ∨ l.state = .preempted) ∧ l.aborting = false
    let phaseDone := l.det = true ∧ on ∧ l.ended = false ∧
      (l.ntask = 0 → (∃ w ∈ ws, w.gone = false) ∧ ∀ w ∈ ws, w.gone = true ∨ w.committed = true) ∧
      (l.ntask ≠ 0 → l.left = 0 ∧ l.phase < l.phases)
    let batchDone := l.det = false ∧ on ∧
      (∀ w < l.workersN, l.contributions w ≠ [] ∨ ∀ x, s.worker? (workerKey lid w) = some x → x.gone = true) ∧
      ∃ w < l.workersN, l.contributions w ≠ []
    (s.phaseOver lid = true ↔ phaseDone) ∧ (s.batchOver lid = true ↔ batchDone) ∧
    (∀ key w, s.worker? key = some w → w.status = .running → (∀ e, (w.strands.get e).exited = true ∧ (w.strands.get e).pend = []) →
      w.inHandler = false → (∀ n, w.note = some n → n.held = true) → (∀ c ∈ s.copies, c.key ≠ key) → (∀ j ∈ s.jobs, j.key = key →
        j.complete = true) →
      (∀ p ∈ s.passes, p.key ≠ key) → (∀ k ∈ s.knotAdds, k.key ≠ key) → (∀ x ∈ s.satinvs, x.key ≠ key) →
      s.phaseOver w.lid = false → s.batchOver w.lid = false →
      let t : State := { s.putWorker key { w with status := .done } with
        jobs := s.jobs.filter fun j => j.key != key
        writes := s.writes.map fun u => if u.who.map Who.key = some key then u.perform ⟨s.tick, 3, w.core⟩ else u }
      let mine := key / 128
      ((∃ k ∈ t.keysOf mine, (t.worker k).status ≠ .done) →
        ((s.launch mine).state ≠ .preempted → answers (.workerCompletion key) t) ∧
        ((s.launch mine).state = .preempted →
          answers (.workerCompletion key)
            { t with coreUse := t.coreUse.filter fun e => !((t.worker e.2).lid == mine && (t.worker e.2).status == .done) })) ∧
      ((∀ k ∈ t.keysOf mine, (t.worker k).status = .done) →
        answers (.workerCompletion key)
          { t.modLaunch mine fun l => { l with state := .draining } with coreUse := t.coreUse.filter fun e => e.2 / 128 != mine })) ∧
    (∀ st d,
      let t := s.finish lid st d
      (tabFind s.launches lid = some l → (t.launch lid).state = .complete ∧ (t.launch lid).status = st) ∧
      ∀ u ∈ s.writes, (∃ a, u.who = some a ∧ a.key / 128 = lid) → u.perform ⟨s.tick, 5, 0⟩ ∈ t.writes) ∧
    (l.state = .draining → l.aborting = false → (∀ d ∈ l.producers, s.isComplete d = true) →
      (l.det = true ∨ ((∀ q ∈ s.sends, q.lid ≠ lid) ∧ ∀ m ∈ s.refusals, m.key / 128 ≠ lid)) →
      answers (.launchCompletion lid) ((s.finish lid 0 (some (s.digestOf lid))).forget lid)) ∧
    (l.aborting = true → l.state ≠ .complete → (∀ d ∈ l.producers, s.isComplete d = true) →
      answers (.abortedLaunchCompletion lid)
        (((s.finish lid 3 (some (s.digestOf lid))).forget lid).modLaunch lid fun l => { l with aborting := false })) ∧
    (¬phaseDone → answers (.phaseEnd lid) s) ∧
    (phaseDone →
      let u := (s.decideHeld lid).closePhase lid
      let v : State := { u with workers := u.workers.map fun e => (e.1, if e.2.lid = lid then { e.2 with committed := false } else e.2) }
      answers (.phaseEnd lid)
        (v.modLaunch lid fun l =>
          { (if ∀ w ∈ ws, w.gone = true then { l with ended := true } else { l.deal (l.phase + 1) with phase := l.phase + 1 }) with
            sectors := [], detOff := false, phaseBias := l.bias
            phaseGamma := (v.worker (workerKey lid 0)).strands.s.view.gamma, mandig := v.digestOf lid })) ∧
    (∀ q : State,
      ((q.launch lid).smbend = false → q.closePhase lid = q) ∧
      ((q.launch lid).smbend = true →
        (q.closePhase lid).launch lid =
          { (q.launch lid).close ((q.keysOf lid).map fun k => (q.worker k).sent) (q.launch lid).phaseGamma with smbend := false } ∧
        ∀ k x, (q.closePhase lid).worker? k = some x → x.lid = lid → x.sent = [])) ∧
    (∀ r : List SendReq,
      let before := fun (a b : SendReq) =>
        a.token.toNat < b.token.toNat ∨ a.token = b.token ∧ (a.sender < b.sender ∨ a.sender = b.sender ∧ a.row < b.row)
      (sortBy SendReq.before r).Perm r ∧ (sortBy SendReq.before r).Pairwise fun a b => ¬before b a) ∧
    (∀ q i, l.ntask ≠ 0 → i < l.workersN →
      let b := if q = 0 then 0 else nth 0 l.phaseEnds (q - 1)
      let n := nth b l.phaseEnds q - b
      let at_ := fun (j : Nat) => j * n / l.workersN
      (l.deal q).left = n ∧ tabGet [] (l.deal q).deques i = (List.range (at_ (i + 1) - at_ i)).map (b + at_ i + ·)) ∧
    (¬batchDone → answers (.microBatchClose lid) s) ∧
    (batchDone →
      let heads := (List.range l.workersN).flatMap fun w => (l.contributions w).take 1
      let gamma := (l.contributions 0).head?.elim l.exitGamma Prod.snd
      let k := l.close (heads.map Prod.fst) gamma
      answers (.microBatchClose lid) (s.putLaunch lid { k with contrib := k.contrib.map fun e => (e.1, e.2.drop 1) }) ∧
      k.biasGen = l.biasGen + 1 ∧
      ∀ e < l.nexp,
        let c := fun (i : Nat) => ((heads.map Prod.fst).map fun t => tabGet 0 t i).sum
        let total := ((List.range l.nexp).map c).sum
        let sign : Int := if c e * l.nexp < total then 1 else if total < c e * l.nexp then -1 else 0
        nth 0 k.bias e =
          BitVec.ofNat 32
            (roundF32 false (XReal.add false (readF32 false (nth 0 l.bias e).toNat) ((readF32 false gamma.toNat).mul (.ofInt sign)))))

/-- (1) R324, R325, R330: what each master's write to OWNER does, the BAR0 registers the owner writes, doorbells and QERR: after
an inconsistent TAIL no record is left to take until the next good ring. The writes of a master that is not the owner change
nothing, but for a claim and an acceptance. What each register reads as; the stepping in DEVID is the model's (log 3). (2) R278,
R279, R327, R328: pool regions. EN is set only for a region with a size, inside the pool and clear of the others; while it is
set only clearing it counts. A lost link takes each region of the port out of service, drops its dirty bytes and the writes to
it, and records a lost store; a load that has returned keeps what it read (R280); RESUME brings the region back once the port
has its link, as does the link's return after a RESUME (log 36). A back-invalidation writes the line's dirty bytes home first,
and no agent misses a write to the line any more. -/
def Obligations.OwnershipRegistersAndPool : Prop :=
  (∀ (s : State) (m : Nat),
    let owns := m < 1026 ∧ s.own = BitVec.ofNat 16 m
    let busy := ∃ e ∈ s.launches, e.2.state ≠ .complete
    let irq := tabGet 0 s.qirq
    let answers := fun (i : Instr) (t : State) => exec i s = .next t
    (m < 1026 → s.own = 0xFFFF → answers (.claimOwnership m) { s with own := BitVec.ofNat 16 m }) ∧
    (s.own ≠ 0xFFFF → answers (.claimOwnership m) s) ∧
    (m < 1026 → s.offered = BitVec.ofNat 16 m →
      answers (.acceptOwnership m) { s with own := BitVec.ofNat 16 m, offered := 0xFFFF }) ∧
    (s.offered ≠ BitVec.ofNat 16 m → answers (.acceptOwnership m) s) ∧
    answers .offerLapse { s with offered := 0xFFFF } ∧
    (¬owns → answers (.releaseOwnership m) s ∧
      ∀ x v, answers (.offerOwnership m x) s ∧ answers (.registerWrite m x v) s ∧ answers (.doorbell m x) s ∧
        answers (.qerrClear m x) s ∧ answers (.rctlWrite m x v) s ∧ answers (.resume m x) s ∧ answers (.lstoreClear m x) s ∧
        answers (.plostClear m x) s ∧ answers (.freeze m) s) ∧
    (owns →
      answers (.releaseOwnership m) { s with own := 0xFFFF, offered := 0xFFFF } ∧
      (∀ x, x < 0xFFFF → x ≠ m → answers (.offerOwnership m x) { s with offered := BitVec.ofNat 16 x }) ∧
      (∀ v, (busy → answers (.registerWrite m 0x10 v) s ∧ answers (.registerWrite m 0x18 v) s) ∧
        (¬busy → answers (.registerWrite m 0x10 v) { s with qhbase := v &&& 0x000FFFFFFFFFF000 } ∧
          answers (.registerWrite m 0x18 v) { s with ctxtab := v &&& 0x000FFFFFFFFFF000 }) ∧
        answers (.registerWrite m 0x20 v) { s with devnum := v.extractLsb' 0 10 } ∧
        (∀ q < 64, answers (.registerWrite m (0x1400 + 8 * q) v)
          { s with qirq := tabSet 0 s.qirq q ((v &&& 0x107FF) ||| (if v.getLsbD 31 then 0 else irq q &&& 0x80000000)) }) ∧
        ∀ d < 1024, answers (.registerWrite m (0x4000 + 8 * d) v) { s with routes := tabSet 0 s.routes d (v.extractLsb' 0 18) }) ∧
      ∀ q < 64,
        let a := s.readHeader q
        answers (.qerrClear m q) { s with qirq := tabSet 0 s.qirq q (irq q &&& ~~~0x80000000) } ∧
        (a.devq = true ∨ a.enabled = false ∨ (irq q).getLsbD 31 = true → answers (.doorbell m q) s) ∧
        (a.devq = false → a.enabled = true → (irq q).getLsbD 31 = false →
          (a.tail < a.head ∨ a.size < a.tail - a.done →
            let b := s.account q
            answers (.doorbell m q)
              { s with qirq := tabSet 0 s.qirq q (irq q ||| 0x80000000), queues := tabPut s.queues q { b with tail := b.head } }) ∧
          (a.head ≤ a.tail → a.tail - a.done ≤ a.size → answers (.doorbell m q) { s with queues := tabPut s.queues q a }))) ∧
    (let read := fun (off : Nat) => (s.readRegister off).toNat
     bits (read 0x0) 0 16 = 0x0960 ∧ bits (read 0x8) 0 16 = s.own.toNat ∧ bits (read 0x8) 32 16 = s.offered.toNat ∧
     bits (read 0x8) 16 16 = 0 ∧ bits (read 0x8) 48 16 = 0 ∧ read 0x10 = s.qhbase.toNat ∧ read 0x18 = s.ctxtab.toNat ∧
     read 0x20 = s.devnum.toNat ∧ (∀ q < 64, read (0x1400 + 8 * q) = (irq q).toNat ∧ read (0x1000 + 8 * q) = 0) ∧
     (∀ r < 16,
      read (0x2000 + 16 * r) = (s.region r).ctl.toNat ∧
      ((s.region r).state < 4 → read (0x2008 + 16 * r) = (s.region r).state + if (s.region r).lstore then 4 else 0)) ∧
     (∀ p < 18,
      let x := s.port p
      x.lanes < 8 → x.peer < 1024 → x.retry < 65536 →
        read (0x3000 + 8 * p) = (if x.up then 1 else 0) + (if x.plost then 2 else 0) + x.lanes * 2 ^ 8 + x.peer * 2 ^ 16 + x.retry * 2 ^ 32) ∧
     (∀ d < 1024, read (0x4000 + 8 * d) = (tabGet 0 s.routes d).toNat) ∧ ∀ off, (off % 8 ≠ 0 ∨ 0x6000 ≤ off) → read off = 0)) ∧
  (∀ (s : State) (m r p : Nat) (v : Word), m < 1026 → s.own = BitVec.ofNat 16 m →
    let x := s.region r
    let lost := fun (q : State) (k state : Nat) =>
      let z := q.region k
      ({ q.keepLoads z.has with
        poolDirty := q.poolDirty.filter fun e => !z.has e.1
        writes := q.writes.filter fun u => u.spot != .mem || !z.has (32 * u.line) } : State).setRegion k
        { z with state := state, lstore := z.lstore || q.poolDirty.any fun e => z.has e.1 }
    let answers := fun (i : Instr) (t : State) => exec i s = .next t
    (r < 16 →
      let c : Region := { x with ctl := v &&& 0x8C0FFFFFC000FFFF }
      (x.enabled = true → v.getLsbD 63 = true → answers (.rctlWrite m r v) s) ∧
      (x.enabled = true → v.getLsbD 63 = false →
        let q := lost s r 0
        answers (.rctlWrite m r v) (q.setRegion r { q.region r with ctl := c.ctl, asked := false })) ∧
      (x.enabled = false → v.getLsbD 63 = false → answers (.rctlWrite m r v) (s.setRegion r c)) ∧
      (x.enabled = false → v.getLsbD 63 = true →
        let good := 0 < c.size ∧ 0x4000000000000 ≤ c.base ∧ c.base + c.size ≤ 0x8000000000000 ∧
          ∀ e ∈ s.regions, e.1 ≠ r → e.2.enabled = true → c.base + c.size ≤ e.2.base ∨ e.2.base + e.2.size ≤ c.base
        (¬good → answers (.rctlWrite m r v) s) ∧
        (good → answers (.rctlWrite m r v) (s.setRegion r { c with state := if s.poolUp.contains c.port then 1 else 0 })))) ∧
    answers (.lstoreClear m r) (s.setRegion r { x with lstore := false }) ∧
    (x.state = 2 → x.port ∈ s.poolUp → answers (.resume m r) (s.setRegion r { x with state := 3, asked := false })) ∧
    (x.state = 2 → x.port ∉ s.poolUp → answers (.resume m r) (s.setRegion r { x with asked := true })) ∧
    (x.state ≠ 2 → answers (.resume m r) s) ∧
    (x.state = 3 → x.port ∈ s.poolUp → answers (.regionRecoveryComplete r) (s.setRegion r { x with state := 1 })) ∧
    (x.state ≠ 3 ∨ x.port ∉ s.poolUp → answers (.regionRecoveryComplete r) s) ∧
    (let d : State := { s with poolUp := s.poolUp.filter (· ≠ p) }
     answers (.poolLinkLoss p)
      ((s.regionsOf p).foldl (fun q k => if (q.region k).state = 1 ∨ (q.region k).state = 3 then lost q k 2 else q) d)) ∧
    (p < 4 → p ∉ s.poolUp →
      answers (.poolLinkUp p)
        ((s.regionsOf p).foldl
          (fun q k =>
            let z := q.region k
            q.setRegion k
              (if z.state = 0 then { z with state := 1 } else if z.state = 2 ∧
                z.asked = true then { z with state := 3, asked := false } else z))
          { s with poolUp := p :: s.poolUp })) ∧
    (∀ key w, s.worker? key = some w → ∀ pick : Nat → Bool, ∃ u, (s.keepLoads pick).worker? key = some u ∧
      u = { w with strands := { w.strands with l := { w.strands.l with pend := u.strands.l.pend } } } ∧
      List.Forall₂ (fun p q => q = { p with acts := q.acts } ∧ List.Forall₂ (fun a b =>
          (∀ n e l, a = .fetched n e l → b = .fetched n e (l.filter fun y => !pick y.addr)) ∧
          ((∀ n e l, a ≠ .fetched n e l) → b = a)) p.acts q.acts) w.strands.l.pend u.strands.l.pend) ∧
    (∀ line, answers (.backInvalidation line)
      { s.flushPool (128 * line) (128 * line + 128) with
        writes := s.writes.map fun u => if u.spot = .mem ∧ u.line / 4 = line then { u with done := true } else u }))

/-- R210, R240, R276, R323, R329, R332 to R334: Fupel ports, and the requests that other agents make of this device's memory.
With the last port to a peer going down, a store to it that was still in flight may be lost (which is free: log 45): later
writes to its line stand without it, and PLOST is set. Every agent sees what is written from outside; a refusal's reserved bits
read 0 (R4). An access from outside that meets an uncorrectable sector is logged, as no launch of this device's (log 39). A
peer's row waits for its admit unit, a refusal for its sender (log 33). -/
def Obligations.FupelPortsAndOutsideRequests : Prop :=
  ∀ (s : State) (m p d n : Nat),
    let x := s.port p
    let answers := fun (i : Instr) (t : State) => exec i s = .next t
    let linked := ∃ e ∈ s.ports, e.2.up = true ∧ e.2.peer = d
    let inside := fun (pa k : Nat) => physKind pa = some .hbm ∧ physKind (pa + k - 1) = some .hbm
    let logged := fun (kind y : Nat) =>
      s.logCheck [BitVec.ofNat 64 (kind * 2 ^ 8 + 0x0D), BitVec.allOnes 64, BitVec.ofNat 64 (7 * 2 ^ 54 + y % 2 ^ 52), 0]
    let at_ := fun (pa : Nat) (l : List Byte) => [(Place.phys (plain pa), l)]
    (m < 1026 → s.own = BitVec.ofNat 16 m → answers (.plostClear m p) (s.setPort p { x with plost := false })) ∧
    (let q := s.setPort p { x with up := false, lanes := 0 }
     let inFlight := fun (u : Write) =>
      let dev := 32 * u.line / 2 ^ 52 - 1
      u.spot = .mem ∧ 2 ^ 52 ≤ 32 * u.line ∧ u.reach = [] ∧ u.shown = none ∧ u.seenBy = [] ∧ u.done = false ∧
        (tabGet 0 s.routes dev).getLsbD p = true ∧ q.peerUp dev = false
     let lost := fun (u : Write) => Config.storeLost s.tick u.id = true
     let left := fun (u : Write) (v : Nat) (l : List Write) =>
      { q with mem := Memory.writeBytes s.mem (32 * u.line) (toBytes v 32), writes := l }.setPort p
        { x with up := false, lanes := 0, plost := true }
     (x.up = false → answers (.fupelPortDown p) s) ∧
     (x.up = true →
      ((∀ u ∈ s.writes, inFlight u → ¬lost u) → answers (.fupelPortDown p) q) ∧
      ∀ u, inFlight u → lost u →
        (s.writes = [u] → answers (.fupelPortDown p) (left u u.old [])) ∧
        ∀ v, s.writes = [v, u] → v.spot = .mem → v.line = u.line → u.id < v.id → ¬(inFlight v ∧ lost v) →
          answers (.fupelPortDown p) (left u (v.edit.run u.old) [{ v with old := u.old }]))) ∧
    (p < 18 → d < 1024 → 1 ≤ n → n ≤ 4 → answers (.fupelPortUp p d n) (s.setPort p { x with up := true, lanes := n, peer := d })) ∧
    (x.up = true → answers (.flitRetransmission p) (s.setPort p { x with retry := min 0xFFFF (x.retry + 1) })) ∧
    (x.up = false → answers (.flitRetransmission p) s) ∧
    (p < 18 → answers (.fupelLaneSpare p) (s.setPort p { x with spareUsed := true })) ∧
    (x.up = true → x.spareUsed = true → answers (.fupelLaneLoss p) (s.setPort p { x with lanes := 3 })) ∧
    (∀ pa k,
      (¬inside pa k → answers (.hostMemoryRequest (.load pa k)) s) ∧
      (inside pa k → sectorHit s.badSectors pa k = none →
        let t : State := { s.correct pa k with replies := s.replies ++ [toBytes (s.physNat pa k) k] }
        answers (.hostMemoryRequest (.load pa k)) t ∧ (linked → answers (.peerRequest d (.load pa k)) t)) ∧
      ∀ y, inside pa k → sectorHit s.badSectors pa k = some y →
        answers (.hostMemoryRequest (.load pa k)) (logged 3 y) ∧ (linked → answers (.peerRequest d (.load pa k)) (logged 3 y))) ∧
    (∀ pa l,
      (¬inside pa l.length → answers (.hostMemoryRequest (.store pa l)) s) ∧
      (inside pa l.length → s.writeCheck (at_ pa l) = none →
        let t := s.writeDone (at_ pa l)
        answers (.hostMemoryRequest (.store pa l)) t ∧ (linked → answers (.peerRequest d (.store pa l)) t)) ∧
      ∀ kind y, inside pa l.length → s.writeCheck (at_ pa l) = some (.machine kind y) →
        answers (.hostMemoryRequest (.store pa l)) (logged kind y) ∧ (linked →
          answers (.peerRequest d (.store pa l)) (logged kind y))) ∧
    (linked → ∀ pa, (∀ k, inside pa k → sectorHit s.badSectors pa k = none →
      let q := s.correct pa k
      let v := s.physNat pa k
      (∀ op y z, answers (.peerRequest d (.atomic pa k op y z))
        { q.writeDone (at_ pa (toBytes (atomicNew op (8 * k) v y z) k)) with replies := s.replies ++ [toBytes v k] }) ∧
      (∀ l, l.length = k → answers (.peerRequest d (.xor pa l)) (q.writeDone (at_ pa (toBytes (v ^^^ ofBytes l) k)))) ∧
      ∀ anchor t, k = 32 → answers (.peerRequest d (.cellAdd pa anchor t)) (q.addCell ⟨none, 0, [], true⟩ (.phys (plain pa)) anchor (readF32 false t.toNat)))) ∧
    (linked → ∀ lid sender row expert token data knot entry,
      answers (.peerRequest d (.row lid sender row expert token data knot))
        { s with sends := s.sends ++ [⟨lid, sender, row, expert, token, data, knot, (s.launch lid).phase, true⟩] } ∧
      answers (.peerRequest d (.refusal lid sender entry knot))
        { s with refusals := s.refusals ++ [⟨workerKey lid sender, entry &&& 0x300003FFFFFFFFFF, knot⟩] }) ∧
    (¬linked → ∀ rq, answers (.peerRequest d rq) s) ∧
    ∀ rq, fromHost rq = false → answers (.hostMemoryRequest rq) s

/-- R279, R320, R329, R331 to R337: what the management controller does: scrubs and counts, reads its log, brings in spares or
leaves a die on fewer cores (a core whose workers have all completed holds no context: what it holds moves to the spare), steps
the clock, freezes the device and reads a frozen one (the forms of the answers: log 59), resets it, measuring every image that
passes and raising its fuses (images, versions and fuses are free: log 21), and reports. -/
def Obligations.PackageEvents : Prop :=
  ∀ (s : State),
    let answers := fun (i : Instr) (t : State) => exec i s = .next t
    answers .scrub
      { s with
        softSectors := [], corrected := s.softSectors.foldl (fun t x => tabPut t x ((tabFind t x).getD 0 + 1)) s.corrected
        softLocal := [], mended := s.mended ++ s.softLocal.map s.sramOf } ∧
    answers .machineCheckLogRead { s with replies := s.replies ++ [s.mclog.flatMap bytesOf] } ∧
    answers .clockStep { s with clockMHz := max 1250 (s.clockMHz - 125) } ∧
    (let frozen : State :=
      { (s.ports.map Prod.fst).foldl State.portDown ((List.range 4).foldl State.poolLost s) with frozen := true }
     (∀ m < 1026, s.own = BitVec.ofNat 16 m → answers (.freeze m) frozen) ∧
     (∀ d, (d < 4 → s.clockMHz = 1250 → answers (.thermalFreeze d) frozen) ∧ (s.clockMHz ≠ 1250 → answers (.thermalFreeze d) s)) ∧
     ∀ p, (frozen.port p).up = false ∧ (p ∈ s.ports.map Prod.fst → (frozen.port p).lanes = 0)) ∧
    (∀ x,
      (s.frozen = true → answers (.diagnosticRead x) { s with replies := s.replies ++ [s.probe x] }) ∧
      (s.frozen = false → answers (.diagnosticRead x) s)) ∧
    (∀ c, tabFind s.coreUse c = none → tabFind s.saveArea c = none →
      ∀ x ∈ [Probe.scalar c 0, .vector c 0, .mask c 0, .csr c 0, .furrow c 0 0, .tile c 0 0, .sheaf c 0 0, .counters c 0, .knot c 0,
        .scratchpad c 0, .cell c 0], s.probe x = []) ∧
    (∀ c k w, (tabFind s.coreUse c = some k ∨ tabFind s.coreUse c = none ∧ tabFind s.saveArea c = some k) → s.worker? k = some w →
      (∀ p, let x := w.vget p
        s.probe (.vector c p) = toBytes x.data.toNat 32768 ++ toBytes x.scale.toNat 4096 ++ x.map.words.flatMap fun y => toBytes y.toNat 8) ∧
      (∀ e, let t := w.strands.get (engOfCode e)
        s.probe (.preds c e) = toBytes t.view.preds.toNat 2 ∧
        (∀ i b, t.stack[i]? = some b → s.probe (.block c e i) =
          toBytes b.head.toNat 8 ++ toBytes b.fin.toNat 8 ++ toBytes b.left 8 ++ [if b.rot then 1 else 0]) ∧
        (∀ z, let y := t.view.tile z
          s.probe (.tile c e z) = [y.base, y.rows, y.cols, y.anchor].flatMap fun v => toBytes v.toNat 2) ∧
        ∀ n, s.probe (.furrow c e n) = (t.view.furrow n).bytes ∧ s.probe (.sheaf c e n) = (t.view.sheaf n).bytes) ∧
      (∀ z, let y := w.tileCounts z
        s.probe (.counters c z) = [y.nanc, y.infc, y.ovfc, y.satc, y.inxc].flatMap fun v => toBytes v.toNat 4) ∧
      (∀ q, s.probe (.queueSide c q) =
        (w.image q).flatMap fun y => toBytes y.scale.toNat 4096 ++ y.map.words.flatMap fun v => toBytes v.toNat 8) ∧
      (∀ r, s.probe (.scalar c r) = toBytes (w.sget r).toNat 8) ∧ (∀ m, s.probe (.mask c m) = toBytes (w.mget m).toNat 8192) ∧
      (∀ a, s.probe (.scratchpad c a) = toBytes (w.spad.nat (a / 16 * 16) 16) 16) ∧
      (∀ i, s.probe (.cell c i) = toBytes (w.cell i).toNat 32) ∧ ∀ i, s.probe (.knot c i) = toBytes (w.knot i).word 8) ∧
    (∀ pa, s.probe (.sector pa) = toBytes (s.physNat (pa / 16 * 16) 16) 16) ∧
    (∀ off, s.probe (.register off) = toBytes (s.readRegister off).toNat 8) ∧
    s.probe .bootFailure = s.bootFailed.map (BitVec.ofNat 8) ∧
    (∀ core,
      let idle := s.coreEnabled core = true ∧ ∀ e ∈ s.workers, e.2.core = core → e.2.status = .done
      let less : State := { s with retired := core :: s.retired, planeOwner := tabErase s.planeOwner core }
      (¬idle → answers (.coreSpare core) s) ∧
      (idle → s.spareCore (dieOf core) = none → answers (.coreSpare core) less) ∧
      ∀ x, idle → s.spareCore (dieOf core) = some x →
        answers (.coreSpare core)
          { less with
            spareIn := x :: s.spareIn, vaults := tabSet [] s.vaults x (tabGet [] s.vaults core)
            workers := s.workers.map fun e => (e.1, if e.2.core = core then { e.2 with core := x } else e.2)
            coreUse := (tabFind s.coreUse core).elim s.coreUse fun k => tabPut (tabErase s.coreUse core) x k }) ∧
    (∀ core col, let used := tabGet [] s.macroCols core
      (∀ k, tabFind s.planeOwner core = some k → s.worker? k = none) → col / 72 < 32 → col ∉ used →
      (used.filter fun c => c / 72 == col / 72).length < 8 →
      answers (.macroColumnSpare core col) { s with macroCols := tabSet [] s.macroCols core (col :: used) }) ∧
    (∀ n < 8, n ∉ s.pseudoSpares → answers (.pseudoChannelSpare n) { s with pseudoSpares := n :: s.pseudoSpares }) ∧
    (let good := fun (i : Nat) => Config.firmwareSigned s.boots i && decide (tabGet 0 s.fuses i ≤ Config.firmwareVersion s.boots i)
     ∃ t, exec .reset s = .next t ∧ t.workers = [] ∧ t.launches = [] ∧ t.copies = [] ∧ t.jobs = [] ∧ t.own = 0xFFFF ∧
      t.mem = s.abortAll.mem ∧ t.writes = [] ∧ t.mended = s.abortAll.mended ∧ t.mclog = s.mclog ∧ t.spareIn = s.spareIn ∧
        t.retired = s.retired ∧ t.boots = s.boots + 1 ∧
      (t.frozen = true ↔ ∃ i < 6, good i = false) ∧ (∀ i, i ∈ t.bootFailed ↔ i < 6 ∧ good i = false) ∧
      (∀ i < 6, tabGet 0 s.fuses i ≤ tabGet 0 t.fuses i) ∧
      ∀ i, tabGet 0 t.measures i =
        if i < 6 ∧ good i = true then Sha3.hash (Sha3.bytes 0 ++ Sha3.bytes (Config.firmwareDigest s.boots i)) else 0) ∧
    ∀ (nonce : BitVec 256) (lid : Nat), lid < 2 ^ 64 →
      let regs := (List.range 8).map fun i => tabGet 0 s.measures i
      let shown : BitVec 256 × Nat := match tabFind s.launches lid with
        | some l => if (l : Launch).state = .complete ∧ s.recordStands lid = true then (l.digest, l.status) else (0, 0xFF)
        | none => (0, 0xFF)
      let r := Sha3.bytes nonce ++ regs.flatMap Sha3.bytes ++ toBytes lid 8 ++ Sha3.bytes shown.1 ++ toBytes shown.2 1 ++ toBytes 0 7
      answers (.attestationReport nonce lid) { s with replies := s.replies ++ [r ++ Config.signature regs (Sha3.hash r)] }

/-! ## The machine -/

/-- What reset leaves (R324, R325, R327 to R330, R335, R336): no launch, no worker, nothing in progress, no owner, BAR0 at its
reset values, every firmware image passed and measured (log 21); and memory in its canonical form with nothing listed (log 2). -/
def Obligations.ResetState : Prop :=
  let s := State.reset
  s.workers = [] ∧ s.launches = [] ∧ s.copies = [] ∧ s.jobs = [] ∧ s.passes = [] ∧ s.sends = [] ∧ s.writes = [] ∧ s.softLocal = [] ∧
    s.mended = [] ∧ s.own = 0xFFFF ∧
    s.offered = 0xFFFF ∧
    s.qhbase = 0 ∧ s.ctxtab = 0 ∧ s.devnum = 0 ∧ (∀ q, s.irq q = 0) ∧ (∀ d, tabGet 0 s.routes d = 0) ∧
    (∀ r, (s.region r).ctl = 0 ∧ (s.region r).state = 0 ∧ (s.region r).lstore = false) ∧
    (∀ p, (s.port p).up = false ∧ (s.port p).lanes = 0 ∧ (s.port p).peer = 0 ∧ (s.port p).retry = 0 ∧ (s.port p).plost = false) ∧
    (∀ i, tabGet 0 s.measures i = if i < 6 then Sha3.hash (Sha3.bytes 0 ++ Sha3.bytes (Config.firmwareDigest 0 i)) else 0) ∧
    s.bootFailed = [] ∧ s.frozen = false ∧ (∀ a, s.physByte a = 0) ∧ s.Canonical

/-- R15, R16, R19, R22, R23, R25, R27, R59, R224 (the order of turns is log 1): a strand whose turn comes does what is due of
its pending results, or waits for that; else goes on with the `shins` it is in; else ends a repetition; else fetches. At a
reserved combination of ENG and LEN S raises an illegal instruction and the others wait (R47). A word of its own engine (or a
headland) that decodes to an instruction is run by `exec` on the strand's synchronised state, unless it reads a register that an
interlocked write is still to reach, as a source, as a destination that keeps slots or as the companion of the map it reads
coordinates through (R10, R27); an error of its registers that the strand meets is corrected or a machine check (R332); a word
that is illegal or misuses a queue raises what R59 says; a word of another engine is passed over, but for S's control words. A
due event of the device runs by `exec`. -/
def Obligations.StepRunsDecoded : Prop :=
  (∀ (s : State) (key : Nat) (e : Eng),
    s.turn = .strand key e →
    let q0 := s.enter (.strand key e)
    let w := q0.wk
    q0.live = true → q0.frozen = false → w.preempt = false → (∀ n, w.note = some n → n.held = true) → (w.inHandler = true →
      e = .S) →
    q0.phaseOver w.lid = false →
    let q := q0.modSt fun t => t.sync w.spad
    (q.wk.dueKind e = .land → step s = exec .writeLanding q) ∧ (q.wk.dueKind e = .push → step s = exec .queuePush q) ∧
    (q.wk.dueKind e = .token → step s = exec .tokenPush q) ∧
    (q.wk.dueKind e = .none → q.st.held = true → step s = .next q) ∧
    (q.wk.dueKind e = .none → q.st.held = false →
      (∀ x, e = .M → w.insertion = some x → step s = exec (.shins x.word) q) ∧
      ((e = .M → w.insertion = none) → (q.st.exited = true → e = .S ∧ w.inHandler = true) →
        (w.atEnd e = true → step s = exec .repetitionEnd q) ∧
        (∀ x, w.atEnd e = false → w.gated e = false → q.regFault? = some x →
          let p : State := { q with regFaults := q.regFaults.filter (· ≠ x) }
          x ∈ s.regFaults ∧ x.key = key ∧ x.eng = e ∧
          (x.kind = 0 → step s = .next { p with mended := p.mended ++ [(w.core, .regs e)] }) ∧
          (x.kind ≠ 0 → step s = .next (p.machineCheck q.wk e.code x.kind 0 q.st.pc))) ∧
        (∀ (p0 : Parcel) (r : List Parcel) (x : Option (AErr × PAddr)), w.atEnd e = false → w.gated e = false → q.regFault? = none →
          q.fetchFour q.wk q.st.pc 4 = (p0 :: r, x) → formatLegal p0 = false →
          (e = .S → step s = .next (q.takeTrap .S q.st.pc ⟨1, 1, 0, none⟩)) ∧ (e ≠ .S → step s = .next q)) ∧
        ∀ (p0 : Parcel) (r : List Parcel) (n : Nat) (x : Option (AErr × PAddr)), w.atEnd e = false → w.gated e = false →
          q.regFault? = none → q.fetchFour q.wk q.st.pc 4 = (p0 :: r, x) → formatLegal p0 = true → lenOf p0 = some n →
          n ≤ r.length + 1 →
          let p := q.noteFetch n
          let d := decode p0 (nth 0 r 0) (nth 0 r 1) (nth 0 r 2)
          (engine p0 = none ∨ engine p0 = some e →
            (∀ i, d = .instr i → step s = if p.awaits i then .next p else exec i p) ∧
            (∀ z, d = .illegal z →
              (engine p0 = some e ∨ e = .S → step s = .next (p.takeTrap e p.st.pc ⟨1, 1, 0, none⟩)) ∧
              (engine p0 = none → e ≠ .S → step s = .next p)) ∧
            ∀ z, d = .misuse z → step s = .next (p.takeTrap e p.st.pc ⟨0x0E, 0, 0, none⟩)) ∧
          ∀ z, engine p0 = some z → z ≠ e →
            let skipped := p.modSt fun t => { t with pc := t.pc + BitVec.ofNat 57 (2 * n), pos := t.pos + n }
            ∀ i, d = .instr i →
              (e ≠ .S → isControl i = true → step s = exec i p) ∧
              (e ≠ .S → isControl i = false → isConfig i = false → step s = .next skipped) ∧
              (e = .S → isVpset i = false → step s = .next skipped)))) ∧
  (∀ (s : State) (i : Instr),
    let late := fun (k : Nat) => ∃ p ∈ s.st.pend, p.count = 0 ∧ p.lock = true ∧ ∃ l, .vregs l ∈ p.acts ∧ k ∈ l.map Prod.fst
    (s.awaits i = true ↔ ∃ r, i.reads = some r ∧ s.view.guard r.guard = true ∧
      ((∃ x ∈ r.srcs ++ r.dests, isV x = true ∧ late (physReg s.st.rrb x.toNat)) ∨
        ∃ x n g c y, r.coords = some (x, n) ∧ s.mapAt x n = .explicit g c y ∧ late c)) ∧
    ∀ f, (Instr.vnop f).reads = none ∧ (Instr.vsincos f).reads = some ⟨f.g, [f.a8, f.mapField],
      if f.mid3 = 5 ∨ isCoord f.a8 = true then some f.mapSource else none,
      if f.zm = true ∨ f.lo3 = 7 then [] else [f.d8, f.d8 + 1]⟩) ∧
  ∀ (s : State) (i : Instr), s.turn = .event i → encode i = [] → s.frozen = false →
    step s = exec i { s with tick := s.tick + 1, agenda := s.agenda.drop 1 }

/-- R48 to R51, R18: words written out from the spec's worked encodings decode to the instructions they stand for. -/
def Obligations.DecodedWords : Prop :=
  let on : Guard := ⟨false, 15⟩
  decodeParcels [0x080F, 0x14C7] = .instr (.sadd on 5 6 7) ∧
  decodeParcels [0x0ADF, 0x1809] = .instr (.csrr on 6 9) ∧
  decodeParcels [0x0B2F, 0x1800] = .instr (.sqpop on 6) ∧
  decodeParcels [0x10AF, 0x1040, 0x0001, 0x0101] = .instr (.sshape ⟨on, 4, 2, 0, 0x01010001⟩) ∧
  decodeParcels [0x3000, 0x7FF8, 0x0100, 0x0000] = .instr (.ldv ⟨0, on, 0x7F8, 1, 0, 0, 0⟩) ∧
  decodeParcels [0x9028, 0x7FD0, 0x0107, 0x0400] = .instr (.wsct ⟨8, on, 0x7D0, 1, 7, 4, 0⟩) ∧
  decodeParcels [0x9070, 0x7878, 0x060A, 0x0B0C] = .instr (.wsend ⟨0, on, 0x078, 6, 10, 11, 12⟩) ∧
  decodeParcels [0x9061, 0x7830, 0x0201, 0x03FF] = .instr (.wcpyx ⟨1, on, 0x030, 2, 1, 3, 0xFF⟩)

/-- R47 to R58: encoding and decoding agree, both ways. The words of a well-formed instruction, with every operand at every
value the encoding admits, decode to it; and an instruction that parcels decode to has just those parcels as its words, so no
bit is dropped, and is well-formed. -/
def Obligations.DecodeAndEncodeAgree : Prop :=
  (∀ (i : Instr) (p0 : Parcel) (r : List Parcel), i.wellFormed = true → encode i = p0 :: r → decodeParcels (p0 :: r) = .instr i) ∧
  ∀ (p0 p1 p2 p3 : Parcel) (i : Instr) (n : Nat), lenOf p0 = some n → decode p0 p1 p2 p3 = .instr i →
    i.wellFormed = true ∧ encode i = [p0, p1, p2, p3].take n

/-- Every step keeps the canonical form: memory, the dirty pool bytes and every scratchpad list strictly rising addresses and no
byte equal to what an unlisted address reads as, and the worker table is in key order. -/
def Obligations.StepKeepsCanonical : Prop := ∀ s t : State, s.Canonical → step s = .next t → t.Canonical
end

