-- ==== Sys2Proof/Laws/Arms.lean ====
section
/-! SUPPORT. Which meaning each arm of `exec` calls, one lemma per instruction, each true by `rfl`. -/
namespace Sys2Proof.Machine

theorem exec_nop (s : State) : exec .nop s = execNop s := rfl
theorem exec_exit (s : State) : exec .exit s = execExit s := rfl
theorem exec_brk (c : BitVec 6) (s : State) : exec (.brk c) s = execBrk c s := rfl
theorem exec_fence (k : BitVec 3) (sc : BitVec 3) (s : State) : exec (.fence k sc) s = execFence k sc s := rfl
theorem exec_ret (s : State) : exec .ret s = execRet s := rfl
theorem exec_eret (s : State) : exec .eret s = execEret s := rfl
theorem exec_settle (s : State) : exec .settle s = execSettle s := rfl
theorem exec_yield (s : State) : exec .yield s = execYield s := rfl
theorem exec_spin (s : State) : exec .spin s = execSpin s := rfl
theorem exec_sadd (g : Guard) (d : BitVec 5) (a : BitVec 5) (b : BitVec 5) (s : State) :
    exec (.sadd g d a b) s = execSadd g d a b s := rfl
theorem exec_ssub (g : Guard) (d : BitVec 5) (a : BitVec 5) (b : BitVec 5) (s : State) :
    exec (.ssub g d a b) s = execSsub g d a b s := rfl
theorem exec_smul (g : Guard) (d : BitVec 5) (a : BitVec 5) (b : BitVec 5) (s : State) :
    exec (.smul g d a b) s = execSmul g d a b s := rfl
theorem exec_smulh (g : Guard) (d : BitVec 5) (a : BitVec 5) (b : BitVec 5) (s : State) :
    exec (.smulh g d a b) s = execSmulh g d a b s := rfl
theorem exec_smulhn (g : Guard) (d : BitVec 5) (a : BitVec 5) (b : BitVec 5) (s : State) :
    exec (.smulhn g d a b) s = execSmulhn g d a b s := rfl
theorem exec_sdiv (g : Guard) (d : BitVec 5) (a : BitVec 5) (b : BitVec 5) (s : State) :
    exec (.sdiv g d a b) s = execSdiv g d a b s := rfl
theorem exec_sdivn (g : Guard) (d : BitVec 5) (a : BitVec 5) (b : BitVec 5) (s : State) :
    exec (.sdivn g d a b) s = execSdivn g d a b s := rfl
theorem exec_srem (g : Guard) (d : BitVec 5) (a : BitVec 5) (b : BitVec 5) (s : State) :
    exec (.srem g d a b) s = execSrem g d a b s := rfl
theorem exec_sremn (g : Guard) (d : BitVec 5) (a : BitVec 5) (b : BitVec 5) (s : State) :
    exec (.sremn g d a b) s = execSremn g d a b s := rfl
theorem exec_sand (g : Guard) (d : BitVec 5) (a : BitVec 5) (b : BitVec 5) (s : State) :
    exec (.sand g d a b) s = execSand g d a b s := rfl
theorem exec_sor (g : Guard) (d : BitVec 5) (a : BitVec 5) (b : BitVec 5) (s : State) :
    exec (.sor g d a b) s = execSor g d a b s := rfl
theorem exec_sxor (g : Guard) (d : BitVec 5) (a : BitVec 5) (b : BitVec 5) (s : State) :
    exec (.sxor g d a b) s = execSxor g d a b s := rfl
theorem exec_sandn (g : Guard) (d : BitVec 5) (a : BitVec 5) (b : BitVec 5) (s : State) :
    exec (.sandn g d a b) s = execSandn g d a b s := rfl
theorem exec_sshl (g : Guard) (d : BitVec 5) (a : BitVec 5) (b : BitVec 5) (s : State) :
    exec (.sshl g d a b) s = execSshl g d a b s := rfl
theorem exec_sshr (g : Guard) (d : BitVec 5) (a : BitVec 5) (b : BitVec 5) (s : State) :
    exec (.sshr g d a b) s = execSshr g d a b s := rfl
theorem exec_ssra (g : Guard) (d : BitVec 5) (a : BitVec 5) (b : BitVec 5) (s : State) :
    exec (.ssra g d a b) s = execSsra g d a b s := rfl
theorem exec_smin (g : Guard) (d : BitVec 5) (a : BitVec 5) (b : BitVec 5) (s : State) :
    exec (.smin g d a b) s = execSmin g d a b s := rfl
theorem exec_smax (g : Guard) (d : BitVec 5) (a : BitVec 5) (b : BitVec 5) (s : State) :
    exec (.smax g d a b) s = execSmax g d a b s := rfl
theorem exec_sminn (g : Guard) (d : BitVec 5) (a : BitVec 5) (b : BitVec 5) (s : State) :
    exec (.sminn g d a b) s = execSminn g d a b s := rfl
theorem exec_smaxn (g : Guard) (d : BitVec 5) (a : BitVec 5) (b : BitVec 5) (s : State) :
    exec (.smaxn g d a b) s = execSmaxn g d a b s := rfl
theorem exec_seq (g : Guard) (d : BitVec 5) (a : BitVec 5) (b : BitVec 5) (s : State) :
    exec (.seq g d a b) s = execSeq g d a b s := rfl
theorem exec_sne (g : Guard) (d : BitVec 5) (a : BitVec 5) (b : BitVec 5) (s : State) :
    exec (.sne g d a b) s = execSne g d a b s := rfl
theorem exec_slt (g : Guard) (d : BitVec 5) (a : BitVec 5) (b : BitVec 5) (s : State) :
    exec (.slt g d a b) s = execSlt g d a b s := rfl
theorem exec_sltn (g : Guard) (d : BitVec 5) (a : BitVec 5) (b : BitVec 5) (s : State) :
    exec (.sltn g d a b) s = execSltn g d a b s := rfl
theorem exec_sle (g : Guard) (d : BitVec 5) (a : BitVec 5) (b : BitVec 5) (s : State) :
    exec (.sle g d a b) s = execSle g d a b s := rfl
theorem exec_slen (g : Guard) (d : BitVec 5) (a : BitVec 5) (b : BitVec 5) (s : State) :
    exec (.slen g d a b) s = execSlen g d a b s := rfl
theorem exec_pand (g : Guard) (d : BitVec 5) (a : BitVec 5) (b : BitVec 5) (s : State) :
    exec (.pand g d a b) s = execPand g d a b s := rfl
theorem exec_por (g : Guard) (d : BitVec 5) (a : BitVec 5) (b : BitVec 5) (s : State) :
    exec (.por g d a b) s = execPor g d a b s := rfl
theorem exec_pxor (g : Guard) (d : BitVec 5) (a : BitVec 5) (b : BitVec 5) (s : State) :
    exec (.pxor g d a b) s = execPxor g d a b s := rfl
theorem exec_pandn (g : Guard) (d : BitVec 5) (a : BitVec 5) (b : BitVec 5) (s : State) :
    exec (.pandn g d a b) s = execPandn g d a b s := rfl
theorem exec_sclz (g : Guard) (d : BitVec 5) (a : BitVec 5) (s : State) : exec (.sclz g d a) s = execSclz g d a s := rfl
theorem exec_spopc (g : Guard) (d : BitVec 5) (a : BitVec 5) (s : State) : exec (.spopc g d a) s = execSpopc g d a s := rfl
theorem exec_scmov (g : Guard) (d : BitVec 5) (a : BitVec 5) (b : BitVec 5) (s : State) :
    exec (.scmov g d a b) s = execScmov g d a b s := rfl
theorem exec_jmpr (g : Guard) (a : BitVec 5) (s : State) : exec (.jmpr g a) s = execJmpr g a s := rfl
theorem exec_callr (g : Guard) (a : BitVec 5) (s : State) : exec (.callr g a) s = execCallr g a s := rfl
theorem exec_sfadd (g : Guard) (d : BitVec 5) (a : BitVec 5) (b : BitVec 5) (s : State) :
    exec (.sfadd g d a b) s = execSfadd g d a b s := rfl
theorem exec_sfsub (g : Guard) (d : BitVec 5) (a : BitVec 5) (b : BitVec 5) (s : State) :
    exec (.sfsub g d a b) s = execSfsub g d a b s := rfl
theorem exec_sfmul (g : Guard) (d : BitVec 5) (a : BitVec 5) (b : BitVec 5) (s : State) :
    exec (.sfmul g d a b) s = execSfmul g d a b s := rfl
theorem exec_sfmin (g : Guard) (d : BitVec 5) (a : BitVec 5) (b : BitVec 5) (s : State) :
    exec (.sfmin g d a b) s = execSfmin g d a b s := rfl
theorem exec_sfmax (g : Guard) (d : BitVec 5) (a : BitVec 5) (b : BitVec 5) (s : State) :
    exec (.sfmax g d a b) s = execSfmax g d a b s := rfl
theorem exec_sflt (g : Guard) (d : BitVec 5) (a : BitVec 5) (b : BitVec 5) (s : State) :
    exec (.sflt g d a b) s = execSflt g d a b s := rfl
theorem exec_sfeq (g : Guard) (d : BitVec 5) (a : BitVec 5) (b : BitVec 5) (s : State) :
    exec (.sfeq g d a b) s = execSfeq g d a b s := rfl
theorem exec_sfle (g : Guard) (d : BitVec 5) (a : BitVec 5) (b : BitVec 5) (s : State) :
    exec (.sfle g d a b) s = execSfle g d a b s := rfl
theorem exec_scvtif (g : Guard) (d : BitVec 5) (a : BitVec 5) (s : State) :
    exec (.scvtif g d a) s = execScvtif g d a s := rfl
theorem exec_scvtfi (g : Guard) (d : BitVec 5) (a : BitVec 5) (s : State) :
    exec (.scvtfi g d a) s = execScvtfi g d a s := rfl
theorem exec_csrr (g : Guard) (d : BitVec 5) (c : BitVec 10) (s : State) : exec (.csrr g d c) s = execCsrr g d c s := rfl
theorem exec_csrw (g : Guard) (d : BitVec 5) (c : BitVec 10) (s : State) : exec (.csrw g d c) s = execCsrw g d c s := rfl
theorem exec_csrs (g : Guard) (d : BitVec 5) (c : BitVec 10) (s : State) : exec (.csrs g d c) s = execCsrs g d c s := rfl
theorem exec_csrc (g : Guard) (d : BitVec 5) (c : BitVec 10) (s : State) : exec (.csrc g d c) s = execCsrc g d c s := rfl
theorem exec_sqpush (g : Guard) (a : BitVec 5) (s : State) : exec (.sqpush g a) s = execSqpush g a s := rfl
theorem exec_sqpop (g : Guard) (d : BitVec 5) (s : State) : exec (.sqpop g d) s = execSqpop g d s := rfl
theorem exec_sqfree (g : Guard) (d : BitVec 5) (s : State) : exec (.sqfree g d) s = execSqfree g d s := rfl
theorem exec_stok (g : Guard) (s : State) : exec (.stok g) s = execStok g s := rfl
theorem exec_stokw (g : Guard) (s : State) : exec (.stokw g) s = execStokw g s := rfl
theorem exec_kadd (g : Guard) (d : BitVec 5) (a : BitVec 5) (s : State) : exec (.kadd g d a) s = execKadd g d a s := rfl
theorem exec_kwait (g : Guard) (d : BitVec 5) (a : BitVec 5) (s : State) : exec (.kwait g d a) s = execKwait g d a s := rfl
theorem exec_kread (g : Guard) (d : BitVec 5) (a : BitVec 5) (s : State) : exec (.kread g d a) s = execKread g d a s := rfl
theorem exec_kset (g : Guard) (d : BitVec 5) (a : BitVec 5) (s : State) : exec (.kset g d a) s = execKset g d a s := rfl
theorem exec_sgsync (g : Guard) (c : BitVec 10) (s : State) : exec (.sgsync g c) s = execSgsync g c s := rfl
theorem exec_sgarr (g : Guard) (c : BitVec 10) (s : State) : exec (.sgarr g c) s = execSgarr g c s := rfl
theorem exec_stask (g : Guard) (d : BitVec 5) (s : State) : exec (.stask g d) s = execStask g d s := rfl
theorem exec_scommit (g : Guard) (s : State) : exec (.scommit g) s = execScommit g s := rfl
theorem exec_sdtrig (g : Guard) (s : State) : exec (.sdtrig g) s = execSdtrig g s := rfl
theorem exec_sdwait (g : Guard) (s : State) : exec (.sdwait g) s = execSdwait g s := rfl
theorem exec_strap (g : Guard) (c : BitVec 10) (s : State) : exec (.strap g c) s = execStrap g c s := rfl
theorem exec_smbend (g : Guard) (s : State) : exec (.smbend g) s = execSmbend g s := rfl
theorem exec_saddi (g : Guard) (d : BitVec 5) (ic : BitVec 10) (s : State) :
    exec (.saddi g d ic) s = execSaddi g d ic s := rfl
theorem exec_sli (g : Guard) (d : BitVec 5) (ic : BitVec 10) (s : State) : exec (.sli g d ic) s = execSli g d ic s := rfl
theorem exec_slui (g : Guard) (d : BitVec 5) (ic : BitVec 10) (s : State) : exec (.slui g d ic) s = execSlui g d ic s := rfl
theorem exec_sandi (g : Guard) (d : BitVec 5) (ic : BitVec 10) (s : State) :
    exec (.sandi g d ic) s = execSandi g d ic s := rfl
theorem exec_sori (g : Guard) (d : BitVec 5) (ic : BitVec 10) (s : State) : exec (.sori g d ic) s = execSori g d ic s := rfl
theorem exec_sxori (g : Guard) (d : BitVec 5) (ic : BitVec 10) (s : State) :
    exec (.sxori g d ic) s = execSxori g d ic s := rfl
theorem exec_sshli (g : Guard) (d : BitVec 5) (ic : BitVec 10) (s : State) :
    exec (.sshli g d ic) s = execSshli g d ic s := rfl
theorem exec_sshri (g : Guard) (d : BitVec 5) (ic : BitVec 10) (s : State) :
    exec (.sshri g d ic) s = execSshri g d ic s := rfl
theorem exec_ssrai (g : Guard) (d : BitVec 5) (ic : BitVec 10) (s : State) :
    exec (.ssrai g d ic) s = execSsrai g d ic s := rfl
theorem exec_seqi (g : Guard) (d : BitVec 5) (p : BitVec 4) (ic : BitVec 6) (s : State) :
    exec (.seqi g d p ic) s = execSeqi g d p ic s := rfl
theorem exec_slti (g : Guard) (d : BitVec 5) (p : BitVec 4) (ic : BitVec 6) (s : State) :
    exec (.slti g d p ic) s = execSlti g d p ic s := rfl
theorem exec_sltni (g : Guard) (d : BitVec 5) (p : BitVec 4) (ic : BitVec 6) (s : State) :
    exec (.sltni g d p ic) s = execSltni g d p ic s := rfl
theorem exec_kaddi (g : Guard) (d : BitVec 5) (ic : BitVec 10) (s : State) :
    exec (.kaddi g d ic) s = execKaddi g d ic s := rfl
theorem exec_kwaiti (g : Guard) (d : BitVec 5) (ic : BitVec 10) (s : State) :
    exec (.kwaiti g d ic) s = execKwaiti g d ic s := rfl
theorem exec_sld (f : S64) (s : State) : exec (.sld f) s = execSld f s := rfl
theorem exec_sst (f : S64) (s : State) : exec (.sst f) s = execSst f s := rfl
theorem exec_samo (f : S64) (s : State) : exec (.samo f) s = execSamo f s := rfl
theorem exec_br (f : S64) (s : State) : exec (.br f) s = execBr f s := rfl
theorem exec_call (f : S64) (s : State) : exec (.call f) s = execCall f s := rfl
theorem exec_sli32 (f : S64) (s : State) : exec (.sli32 f) s = execSli32 f s := rfl
theorem exec_saddi32 (f : S64) (s : State) : exec (.saddi32 f) s = execSaddi32 f s := rfl
theorem exec_sfset (f : S64) (s : State) : exec (.sfset f) s = execSfset f s := rfl
theorem exec_szset (f : S64) (s : State) : exec (.szset f) s = execSzset f s := rfl
theorem exec_shset (f : S64) (s : State) : exec (.shset f) s = execShset f s := rfl
theorem exec_sshape (f : S64) (s : State) : exec (.sshape f) s = execSshape f s := rfl
theorem exec_sbkj (f : S64) (s : State) : exec (.sbkj f) s = execSbkj f s := rfl
theorem exec_slaunch (f : S64) (s : State) : exec (.slaunch f) s = execSlaunch f s := rfl
theorem exec_slaydef (f : S64) (s : State) : exec (.slaydef f) s = execSlaydef f s := rfl
theorem exec_satinv (f : S64) (s : State) : exec (.satinv f) s = execSatinv f s := rfl
theorem exec_vadd (f : E64) (s : State) : exec (.vadd f) s = execVadd f s := rfl
theorem exec_vsub (f : E64) (s : State) : exec (.vsub f) s = execVsub f s := rfl
theorem exec_vmul (f : E64) (s : State) : exec (.vmul f) s = execVmul f s := rfl
theorem exec_vfma (f : E64) (s : State) : exec (.vfma f) s = execVfma f s := rfl
theorem exec_vfms (f : E64) (s : State) : exec (.vfms f) s = execVfms f s := rfl
theorem exec_vfnma (f : E64) (s : State) : exec (.vfnma f) s = execVfnma f s := rfl
theorem exec_vmin (f : E64) (s : State) : exec (.vmin f) s = execVmin f s := rfl
theorem exec_vmax (f : E64) (s : State) : exec (.vmax f) s = execVmax f s := rfl
theorem exec_vabs (f : E64) (s : State) : exec (.vabs f) s = execVabs f s := rfl
theorem exec_vneg (f : E64) (s : State) : exec (.vneg f) s = execVneg f s := rfl
theorem exec_vdiv (f : E64) (s : State) : exec (.vdiv f) s = execVdiv f s := rfl
theorem exec_vsqrt (f : E64) (s : State) : exec (.vsqrt f) s = execVsqrt f s := rfl
theorem exec_vrcp (f : E64) (s : State) : exec (.vrcp f) s = execVrcp f s := rfl
theorem exec_vrsq (f : E64) (s : State) : exec (.vrsq f) s = execVrsq f s := rfl
theorem exec_vexp2 (f : E64) (s : State) : exec (.vexp2 f) s = execVexp2 f s := rfl
theorem exec_vlog2 (f : E64) (s : State) : exec (.vlog2 f) s = execVlog2 f s := rfl
theorem exec_vtanh (f : E64) (s : State) : exec (.vtanh f) s = execVtanh f s := rfl
theorem exec_vsincos (f : E64) (s : State) : exec (.vsincos f) s = execVsincos f s := rfl
theorem exec_vrot (f : E64) (s : State) : exec (.vrot f) s = execVrot f s := rfl
theorem exec_viadd (f : E64) (s : State) : exec (.viadd f) s = execViadd f s := rfl
theorem exec_visub (f : E64) (s : State) : exec (.visub f) s = execVisub f s := rfl
theorem exec_vimul (f : E64) (s : State) : exec (.vimul f) s = execVimul f s := rfl
theorem exec_vimulh (f : E64) (s : State) : exec (.vimulh f) s = execVimulh f s := rfl
theorem exec_viand (f : E64) (s : State) : exec (.viand f) s = execViand f s := rfl
theorem exec_vior (f : E64) (s : State) : exec (.vior f) s = execVior f s := rfl
theorem exec_vixor (f : E64) (s : State) : exec (.vixor f) s = execVixor f s := rfl
theorem exec_vishl (f : E64) (s : State) : exec (.vishl f) s = execVishl f s := rfl
theorem exec_vishr (f : E64) (s : State) : exec (.vishr f) s = execVishr f s := rfl
theorem exec_visra (f : E64) (s : State) : exec (.visra f) s = execVisra f s := rfl
theorem exec_vimin (f : E64) (s : State) : exec (.vimin f) s = execVimin f s := rfl
theorem exec_vimax (f : E64) (s : State) : exec (.vimax f) s = execVimax f s := rfl
theorem exec_vipopc (f : E64) (s : State) : exec (.vipopc f) s = execVipopc f s := rfl
theorem exec_vcvt (f : E64) (s : State) : exec (.vcvt f) s = execVcvt f s := rfl
theorem exec_vqnt (f : E64) (s : State) : exec (.vqnt f) s = execVqnt f s := rfl
theorem exec_vdq (f : E64) (s : State) : exec (.vdq f) s = execVdq f s := rfl
theorem exec_vcmp (f : E64) (s : State) : exec (.vcmp f) s = execVcmp f s := rfl
theorem exec_vsel (f : E64) (s : State) : exec (.vsel f) s = execVsel f s := rfl
theorem exec_mand (f : E64) (s : State) : exec (.mand f) s = execMand f s := rfl
theorem exec_mor (f : E64) (s : State) : exec (.mor f) s = execMor f s := rfl
theorem exec_mxor (f : E64) (s : State) : exec (.mxor f) s = execMxor f s := rfl
theorem exec_mnot (f : E64) (s : State) : exec (.mnot f) s = execMnot f s := rfl
theorem exec_mcnt (f : E64) (s : State) : exec (.mcnt f) s = execMcnt f s := rfl
theorem exec_vpset (f : E64) (s : State) : exec (.vpset f) s = execVpset f s := rfl
theorem exec_vcrd (f : E64) (s : State) : exec (.vcrd f) s = execVcrd f s := rfl
theorem exec_vmap (f : E64) (s : State) : exec (.vmap f) s = execVmap f s := rfl
theorem exec_vmapq (f : E64) (s : State) : exec (.vmapq f) s = execVmapq f s := rfl
theorem exec_vnoise (f : E64) (s : State) : exec (.vnoise f) s = execVnoise f s := rfl
theorem exec_vgbias (f : E64) (s : State) : exec (.vgbias f) s = execVgbias f s := rfl
theorem exec_vmov (f : E64) (s : State) : exec (.vmov f) s = execVmov f s := rfl
theorem exec_vslice (f : E64) (s : State) : exec (.vslice f) s = execVslice f s := rfl
theorem exec_vtrn (f : E64) (s : State) : exec (.vtrn f) s = execVtrn f s := rfl
theorem exec_vresh (f : E64) (s : State) : exec (.vresh f) s = execVresh f s := rfl
theorem exec_vperm (f : E64) (s : State) : exec (.vperm f) s = execVperm f s := rfl
theorem exec_vcompact (f : E64) (s : State) : exec (.vcompact f) s = execVcompact f s := rfl
theorem exec_vexpand (f : E64) (s : State) : exec (.vexpand f) s = execVexpand f s := rfl
theorem exec_vbcast (f : E64) (s : State) : exec (.vbcast f) s = execVbcast f s := rfl
theorem exec_vshift (f : E64) (s : State) : exec (.vshift f) s = execVshift f s := rfl
theorem exec_vrsum (f : E64) (s : State) : exec (.vrsum f) s = execVrsum f s := rfl
theorem exec_vrmax (f : E64) (s : State) : exec (.vrmax f) s = execVrmax f s := rfl
theorem exec_vrmin (f : E64) (s : State) : exec (.vrmin f) s = execVrmin f s := rfl
theorem exec_vrargmax (f : E64) (s : State) : exec (.vrargmax f) s = execVrargmax f s := rfl
theorem exec_vscan (f : E64) (s : State) : exec (.vscan f) s = execVscan f s := rfl
theorem exec_vxscan (f : E64) (s : State) : exec (.vxscan f) s = execVxscan f s := rfl
theorem exec_vcadd (f : E64) (s : State) : exec (.vcadd f) s = execVcadd f s := rfl
theorem exec_vatmrg (f : E64) (s : State) : exec (.vatmrg f) s = execVatmrg f s := rfl
theorem exec_vkadd (f : E64) (s : State) : exec (.vkadd f) s = execVkadd f s := rfl
theorem exec_vkwait (f : E64) (s : State) : exec (.vkwait f) s = execVkwait f s := rfl
theorem exec_vnop (f : E64) (s : State) : exec (.vnop f) s = execVnop f s := rfl
theorem exec_ldv (f : E64) (s : State) : exec (.ldv f) s = execLdv f s := rfl
theorem exec_ldq (f : E64) (s : State) : exec (.ldq f) s = execLdq f s := rfl
theorem exec_lgth (f : E64) (s : State) : exec (.lgth f) s = execLgth f s := rfl
theorem exec_lbc (f : E64) (s : State) : exec (.lbc f) s = execLbc f s := rfl
theorem exec_lpre (f : E64) (s : State) : exec (.lpre f) s = execLpre f s := rfl
theorem exec_ladv (f : E64) (s : State) : exec (.ladv f) s = execLadv f s := rfl
theorem exec_lrst (f : E64) (s : State) : exec (.lrst f) s = execLrst f s := rfl
theorem exec_lcbld (f : E64) (s : State) : exec (.lcbld f) s = execLcbld f s := rfl
theorem exec_lcbsw (f : E64) (s : State) : exec (.lcbsw f) s = execLcbsw f s := rfl
theorem exec_lmsk (f : E64) (s : State) : exec (.lmsk f) s = execLmsk f s := rfl
theorem exec_lkadd (f : E64) (s : State) : exec (.lkadd f) s = execLkadd f s := rfl
theorem exec_lkwait (f : E64) (s : State) : exec (.lkwait f) s = execLkwait f s := rfl
theorem exec_lnop (f : E64) (s : State) : exec (.lnop f) s = execLnop f s := rfl
theorem exec_mzclr (f : E64) (s : State) : exec (.mzclr f) s = execMzclr f s := rfl
theorem exec_mldb (f : E64) (s : State) : exec (.mldb f) s = execMldb f s := rfl
theorem exec_mswap (f : E64) (s : State) : exec (.mswap f) s = execMswap f s := rfl
theorem exec_mmul (f : E64) (s : State) : exec (.mmul f) s = execMmul f s := rfl
theorem exec_mrank (f : E64) (s : State) : exec (.mrank f) s = execMrank f s := rfl
theorem exec_mrdz (f : E64) (s : State) : exec (.mrdz f) s = execMrdz f s := rfl
theorem exec_mzcnt (f : E64) (s : State) : exec (.mzcnt f) s = execMzcnt f s := rfl
theorem exec_shins (f : E64) (s : State) : exec (.shins f) s = execShins f s := rfl
theorem exec_shmrg (f : E64) (s : State) : exec (.shmrg f) s = execShmrg f s := rfl
theorem exec_shrd (f : E64) (s : State) : exec (.shrd f) s = execShrd f s := rfl
theorem exec_shclr (f : E64) (s : State) : exec (.shclr f) s = execShclr f s := rfl
theorem exec_mkadd (f : E64) (s : State) : exec (.mkadd f) s = execMkadd f s := rfl
theorem exec_mkwait (f : E64) (s : State) : exec (.mkwait f) s = execMkwait f s := rfl
theorem exec_mnop (f : E64) (s : State) : exec (.mnop f) s = execMnop f s := rfl
theorem exec_wst (f : E64) (s : State) : exec (.wst f) s = execWst f s := rfl
theorem exec_wstq (f : E64) (s : State) : exec (.wstq f) s = execWstq f s := rfl
theorem exec_wsct (f : E64) (s : State) : exec (.wsct f) s = execWsct f s := rfl
theorem exec_wamo (f : E64) (s : State) : exec (.wamo f) s = execWamo f s := rfl
theorem exec_wcadd (f : E64) (s : State) : exec (.wcadd f) s = execWcadd f s := rfl
theorem exec_wcpy (f : E64) (s : State) : exec (.wcpy f) s = execWcpy f s := rfl
theorem exec_wcpyx (f : E64) (s : State) : exec (.wcpyx f) s = execWcpyx f s := rfl
theorem exec_wsend (f : E64) (s : State) : exec (.wsend f) s = execWsend f s := rfl
theorem exec_wattd (f : E64) (s : State) : exec (.wattd f) s = execWattd f s := rfl
theorem exec_watts (f : E64) (s : State) : exec (.watts f) s = execWatts f s := rfl
theorem exec_wflush (f : E64) (s : State) : exec (.wflush f) s = execWflush f s := rfl
theorem exec_wmsk (f : E64) (s : State) : exec (.wmsk f) s = execWmsk f s := rfl
theorem exec_wkadd (f : E64) (s : State) : exec (.wkadd f) s = execWkadd f s := rfl
theorem exec_wkwait (f : E64) (s : State) : exec (.wkwait f) s = execWkwait f s := rfl
theorem exec_wnop (f : E64) (s : State) : exec (.wnop f) s = execWnop f s := rfl
theorem exec_headland (b : BitVec 11) (r : Bool) (n : BitVec 14) (s : State) :
    exec (.headland b r n) s = execHeadland b r n s := rfl
theorem exec_headlandCounted (b : BitVec 11) (r : Bool) (c : BitVec 5) (s : State) :
    exec (.headlandCounted b r c) s = execHeadlandCounted b r c s := rfl
theorem exec_repetitionEnd (s : State) : exec .repetitionEnd s = execRepetitionEnd s := rfl
theorem exec_writeLanding (s : State) : exec .writeLanding s = execWriteLanding s := rfl
theorem exec_tokenPush (s : State) : exec .tokenPush s = execTokenPush s := rfl
theorem exec_queuePush (s : State) : exec .queuePush s = execQueuePush s := rfl
theorem exec_workerCompletion (key : Nat) (s : State) : exec (.workerCompletion key) s = execWorkerCompletion key s := rfl
theorem exec_trapEntry (key : Nat) (s : State) : exec (.trapEntry key) s = execTrapEntry key s := rfl
theorem exec_abortedLaunchCompletion (lid : Nat) (s : State) :
    exec (.abortedLaunchCompletion lid) s = execAbortedLaunchCompletion lid s := rfl
theorem exec_scrub (s : State) : exec .scrub s = execScrub s := rfl
theorem exec_preemptionRequest (key : Nat) (s : State) : exec (.preemptionRequest key) s = execPreemptionRequest key s := rfl
theorem exec_contextSave (key : Nat) (s : State) : exec (.contextSave key) s = execContextSave key s := rfl
theorem exec_contextRestore (key : Nat) (s : State) : exec (.contextRestore key) s = execContextRestore key s := rfl
theorem exec_saveImageMove (key : Nat) (s : State) : exec (.saveImageMove key) s = execSaveImageMove key s := rfl
theorem exec_planeTransfer (key : Nat) (s : State) : exec (.planeTransfer key) s = execPlaneTransfer key s := rfl
theorem exec_neighbourTableRebuild (key : Nat) (s : State) :
    exec (.neighbourTableRebuild key) s = execNeighbourTableRebuild key s := rfl
theorem exec_pageWalk (key : Nat) (va : Nat) (s : State) : exec (.pageWalk key va) s = execPageWalk key va s := rfl
theorem exec_satinvCompletion (n : Nat) (s : State) : exec (.satinvCompletion n) s = execSatinvCompletion n s := rfl
theorem exec_copyChunk (key : Nat) (seq : Nat) (s : State) : exec (.copyChunk key seq) s = execCopyChunk key seq s := rfl
theorem exec_copyCommandCompletion (key : Nat) (seq : Nat) (s : State) :
    exec (.copyCommandCompletion key seq) s = execCopyCommandCompletion key seq s := rfl
theorem exec_spanFold (n : Nat) (span : Nat) (s : State) : exec (.spanFold n span) s = execSpanFold n span s := rfl
theorem exec_decodeJobCompletion (n : Nat) (s : State) : exec (.decodeJobCompletion n) s = execDecodeJobCompletion n s := rfl
theorem exec_scorePassCompletion (n : Nat) (s : State) : exec (.scorePassCompletion n) s = execScorePassCompletion n s := rfl
theorem exec_wstqKnotAdd (n : Nat) (s : State) : exec (.wstqKnotAdd n) s = execWstqKnotAdd n s := rfl
theorem exec_admitRequest (n : Nat) (s : State) : exec (.admitRequest n) s = execAdmitRequest n s := rfl
theorem exec_refusalArrival (n : Nat) (s : State) : exec (.refusalArrival n) s = execRefusalArrival n s := rfl
theorem exec_microBatchClose (lid : Nat) (s : State) : exec (.microBatchClose lid) s = execMicroBatchClose lid s := rfl
theorem exec_phaseEnd (lid : Nat) (s : State) : exec (.phaseEnd lid) s = execPhaseEnd lid s := rfl
theorem exec_doorbell (m : Nat) (q : Nat) (s : State) : exec (.doorbell m q) s = execDoorbell m q s := rfl
theorem exec_recordTake (q : Nat) (s : State) : exec (.recordTake q) s = execRecordTake q s := rfl
theorem exec_arbiterDecision (s : State) : exec .arbiterDecision s = execArbiterDecision s := rfl
theorem exec_agingStep (lid : Nat) (s : State) : exec (.agingStep lid) s = execAgingStep lid s := rfl
theorem exec_launchCompletion (lid : Nat) (s : State) : exec (.launchCompletion lid) s = execLaunchCompletion lid s := rfl
theorem exec_qerrClear (m : Nat) (q : Nat) (s : State) : exec (.qerrClear m q) s = execQerrClear m q s := rfl
theorem exec_rctlWrite (m : Nat) (r : Nat) (v : Word) (s : State) : exec (.rctlWrite m r v) s = execRctlWrite m r v s := rfl
theorem exec_resume (m : Nat) (r : Nat) (s : State) : exec (.resume m r) s = execResume m r s := rfl
theorem exec_regionRecoveryComplete (r : Nat) (s : State) :
    exec (.regionRecoveryComplete r) s = execRegionRecoveryComplete r s := rfl
theorem exec_lstoreClear (m : Nat) (r : Nat) (s : State) : exec (.lstoreClear m r) s = execLstoreClear m r s := rfl
theorem exec_plostClear (m : Nat) (p : Nat) (s : State) : exec (.plostClear m p) s = execPlostClear m p s := rfl
theorem exec_claimOwnership (m : Nat) (s : State) : exec (.claimOwnership m) s = execClaimOwnership m s := rfl
theorem exec_offerOwnership (m : Nat) (x : Nat) (s : State) : exec (.offerOwnership m x) s = execOfferOwnership m x s := rfl
theorem exec_releaseOwnership (m : Nat) (s : State) : exec (.releaseOwnership m) s = execReleaseOwnership m s := rfl
theorem exec_acceptOwnership (m : Nat) (s : State) : exec (.acceptOwnership m) s = execAcceptOwnership m s := rfl
theorem exec_offerLapse (s : State) : exec .offerLapse s = execOfferLapse s := rfl
theorem exec_registerWrite (m : Nat) (off : Nat) (v : Word) (s : State) :
    exec (.registerWrite m off v) s = execRegisterWrite m off v s := rfl
theorem exec_hostMemoryRequest (rq : MemRequest) (s : State) :
    exec (.hostMemoryRequest rq) s = execHostMemoryRequest rq s := rfl
theorem exec_peerRequest (d : Nat) (rq : MemRequest) (s : State) : exec (.peerRequest d rq) s = execPeerRequest d rq s := rfl
theorem exec_backInvalidation (line : Nat) (s : State) : exec (.backInvalidation line) s = execBackInvalidation line s := rfl
theorem exec_poolLinkLoss (p : Nat) (s : State) : exec (.poolLinkLoss p) s = execPoolLinkLoss p s := rfl
theorem exec_fupelPortDown (p : Nat) (s : State) : exec (.fupelPortDown p) s = execFupelPortDown p s := rfl
theorem exec_coreSpare (core : Nat) (s : State) : exec (.coreSpare core) s = execCoreSpare core s := rfl
theorem exec_macroColumnSpare (core : Nat) (col : Nat) (s : State) :
    exec (.macroColumnSpare core col) s = execMacroColumnSpare core col s := rfl
theorem exec_pseudoChannelSpare (n : Nat) (s : State) : exec (.pseudoChannelSpare n) s = execPseudoChannelSpare n s := rfl
theorem exec_fupelLaneSpare (p : Nat) (s : State) : exec (.fupelLaneSpare p) s = execFupelLaneSpare p s := rfl
theorem exec_clockStep (s : State) : exec .clockStep s = execClockStep s := rfl
theorem exec_thermalFreeze (d : Nat) (s : State) : exec (.thermalFreeze d) s = execThermalFreeze d s := rfl
theorem exec_freeze (m : Nat) (s : State) : exec (.freeze m) s = execFreeze m s := rfl
theorem exec_diagnosticRead (x : Probe) (s : State) : exec (.diagnosticRead x) s = execDiagnosticRead x s := rfl
theorem exec_reset (s : State) : exec .reset s = execReset s := rfl
theorem exec_attestationReport (nonce : BitVec 256) (lid : Nat) (s : State) :
    exec (.attestationReport nonce lid) s = execAttestationReport nonce lid s := rfl
theorem exec_machineCheckLogRead (s : State) : exec .machineCheckLogRead s = execMachineCheckLogRead s := rfl
theorem exec_poolLinkUp (p : Nat) (s : State) : exec (.poolLinkUp p) s = execPoolLinkUp p s := rfl
theorem exec_fupelPortUp (p : Nat) (d : Nat) (n : Nat) (s : State) :
    exec (.fupelPortUp p d n) s = execFupelPortUp p d n s := rfl
theorem exec_flitRetransmission (p : Nat) (s : State) : exec (.flitRetransmission p) s = execFlitRetransmission p s := rfl
theorem exec_fupelLaneLoss (p : Nat) (s : State) : exec (.fupelLaneLoss p) s = execFupelLaneLoss p s := rfl

end Sys2Proof.Machine
end

