-- ==== Sys2Proof/Laws/State.lean ====
section
/-! SUPPORT. What each update of the state leaves of each part: the strand in turn, the worker in turn, memory, the tables that
hold workers. All by `rfl`, or from the two facts about tables at the head. -/
namespace Sys2Proof.Machine

/-! ## Tables -/

theorem tabFind_insert_self {α : Type} (t : Tab α) (k : Nat) (x : α) (h : ∀ e ∈ t, e.1 ≠ k) :
    tabFind (tabInsert t k x) k = some x := by
  induction t with
  | nil => simp [tabInsert, tabFind]
  | cons e r ih =>
    have h1 := h e (by simp)
    have h2 := ih fun e he => h e (by simp [he])
    unfold tabInsert
    split <;> simp [tabFind, h1, h2]

theorem tabFind_insert_ne {α : Type} (t : Tab α) (k j : Nat) (x : α) (h : j ≠ k) :
    tabFind (tabInsert t k x) j = tabFind t j := by
  induction t with
  | nil => simp [tabInsert, tabFind, Ne.symm h]
  | cons e r ih =>
    unfold tabInsert
    split
    · simp [tabFind, Ne.symm h]
    · by_cases he : e.1 = j <;> simp [tabFind, he, ih]

theorem tabFind_erase_self {α : Type} (t : Tab α) (k : Nat) : tabFind (tabErase t k) k = none := by
  induction t with
  | nil => rfl
  | cons e r ih =>
    by_cases h : e.1 = k
    · simpa [tabErase, h] using ih
    · simp only [tabErase, List.filter_cons, decide_true, ne_eq, h, not_false_eq_true, if_true, tabFind, if_false]
      exact ih

theorem tabFind_erase_ne {α : Type} (t : Tab α) (k j : Nat) (h : j ≠ k) : tabFind (tabErase t k) j = tabFind t j := by
  induction t with
  | nil => rfl
  | cons e r ih =>
    by_cases he : e.1 = k
    · have : e.1 ≠ j := by omega
      simp only [tabErase, List.filter_cons, ne_eq, he, not_true_eq_false, decide_false, Bool.false_eq_true, if_false, tabFind]
      rw [if_neg (by omega)]
      exact ih
    · simp only [tabErase, List.filter_cons, ne_eq, he, not_false_eq_true, decide_true, if_true, tabFind]
      split
      · rfl
      · exact ih

theorem mem_erase_ne {α : Type} (t : Tab α) (k : Nat) : ∀ e ∈ tabErase t k, e.1 ≠ k := by
  intro e he
  simpa [tabErase] using (List.mem_filter.mp he).2

@[simp] theorem tabFind_put_self {α : Type} (t : Tab α) (k : Nat) (x : α) : tabFind (tabPut t k x) k = some x :=
  tabFind_insert_self _ _ _ (mem_erase_ne t k)

theorem tabFind_put_ne {α : Type} (t : Tab α) (k j : Nat) (x : α) (h : j ≠ k) : tabFind (tabPut t k x) j = tabFind t j := by
  rw [tabPut, tabFind_insert_ne _ _ _ _ h, tabFind_erase_ne _ _ _ h]

@[simp] theorem tabGet_set_self {α : Type} [DecidableEq α] (d : α) (t : Tab α) (k : Nat) (x : α) :
    tabGet d (tabSet d t k x) k = x := by
  unfold tabGet tabSet
  split <;> simp_all [tabFind_erase_self]

theorem tabGet_set_ne {α : Type} [DecidableEq α] (d : α) (t : Tab α) (k j : Nat) (x : α) (h : j ≠ k) :
    tabGet d (tabSet d t k x) j = tabGet d t j := by
  unfold tabGet tabSet
  split <;> simp [tabFind_erase_ne _ _ _ h, tabFind_put_ne _ _ _ _ h]

theorem tabInsert_put_comm {α : Type} (t : Tab α) (k : Nat) (x y : α) : tabPut (tabPut t k x) k y = tabPut t k y := by
  have hx : tabErase (tabInsert (tabErase t k) k x) k = tabErase t k := by
    have key : ∀ r : Tab α, (∀ e ∈ r, e.1 ≠ k) → tabErase (tabInsert r k x) k = r := by
      intro r
      induction r with
      | nil => intro _; simp [tabInsert, tabErase]
      | cons e r ih =>
        intro h
        have h1 := h e (by simp)
        have h2 := ih fun e he => h e (by simp [he])
        have h3 : tabErase r k = r := by
          simp only [tabErase, List.filter_eq_self]
          exact fun e he => by simpa using h e (by simp [he])
        unfold tabInsert
        split
        · simp only [tabErase, List.filter_cons, ne_eq, not_true_eq_false, decide_false, Bool.false_eq_true, if_false, h1,
            not_false_eq_true, decide_true, if_true]
          exact congrArg (e :: ·) h3
        · simp only [tabErase, List.filter_cons, ne_eq, h1, not_false_eq_true, decide_true, if_true]
          exact congrArg (e :: ·) h2
    exact key _ (mem_erase_ne t k)
  rw [tabPut, tabPut, hx, tabPut]

/-! ## The worker in turn -/

@[simp] theorem setWk_wk (s : State) (w : Worker) : (s.setWk w).wk = w := by
  simp [State.wk, State.setWk, State.putWorker, State.worker, State.worker?]

@[simp] theorem setWk_setWk (s : State) (w x : Worker) : (s.setWk w).setWk x = s.setWk x := by
  simp [State.setWk, State.putWorker, tabInsert_put_comm]

@[simp] theorem setWk_curKey (s : State) (w : Worker) : (s.setWk w).curKey = s.curKey := rfl
@[simp] theorem setWk_curEng (s : State) (w : Worker) : (s.setWk w).curEng = s.curEng := rfl
@[simp] theorem setWk_tick (s : State) (w : Worker) : (s.setWk w).tick = s.tick := rfl
@[simp] theorem setWk_mem (s : State) (w : Worker) : (s.setWk w).mem = s.mem := rfl
@[simp] theorem setWk_poolDirty (s : State) (w : Worker) : (s.setWk w).poolDirty = s.poolDirty := rfl
@[simp] theorem setWk_launches (s : State) (w : Worker) : (s.setWk w).launches = s.launches := rfl
@[simp] theorem setWk_planeOwner (s : State) (w : Worker) : (s.setWk w).planeOwner = s.planeOwner := rfl
@[simp] theorem setWk_copies (s : State) (w : Worker) : (s.setWk w).copies = s.copies := rfl
@[simp] theorem setWk_sends (s : State) (w : Worker) : (s.setWk w).sends = s.sends := rfl
@[simp] theorem setWk_knotAdds (s : State) (w : Worker) : (s.setWk w).knotAdds = s.knotAdds := rfl
@[simp] theorem setWk_writes (s : State) (w : Worker) : (s.setWk w).writes = s.writes := rfl
@[simp] theorem setWk_softLocal (s : State) (w : Worker) : (s.setWk w).softLocal = s.softLocal := rfl
@[simp] theorem setWk_mended (s : State) (w : Worker) : (s.setWk w).mended = s.mended := rfl
@[simp] theorem setWk_badSectors (s : State) (w : Worker) : (s.setWk w).badSectors = s.badSectors := rfl
@[simp] theorem setWk_badLocal (s : State) (w : Worker) : (s.setWk w).badLocal = s.badLocal := rfl
@[simp] theorem setWk_regFaults (s : State) (w : Worker) : (s.setWk w).regFaults = s.regFaults := rfl
@[simp] theorem setWk_softSectors (s : State) (w : Worker) : (s.setWk w).softSectors = s.softSectors := rfl
@[simp] theorem setWk_corrected (s : State) (w : Worker) : (s.setWk w).corrected = s.corrected := rfl
@[simp] theorem setWk_mclog (s : State) (w : Worker) : (s.setWk w).mclog = s.mclog := rfl
@[simp] theorem setWk_reports (s : State) (w : Worker) : (s.setWk w).reports = s.reports := rfl
@[simp] theorem setWk_vaults (s : State) (w : Worker) : (s.setWk w).vaults = s.vaults := rfl
@[simp] theorem setWk_movedImages (s : State) (w : Worker) : (s.setWk w).movedImages = s.movedImages := rfl
@[simp] theorem setWk_fuses (s : State) (w : Worker) : (s.setWk w).fuses = s.fuses := rfl
@[simp] theorem setWk_bootFailed (s : State) (w : Worker) : (s.setWk w).bootFailed = s.bootFailed := rfl
@[simp] theorem setWk_boots (s : State) (w : Worker) : (s.setWk w).boots = s.boots := rfl
@[simp] theorem setWk_measures (s : State) (w : Worker) : (s.setWk w).measures = s.measures := rfl
@[simp] theorem setWk_physByte (s : State) (w : Worker) (a : Nat) : (s.setWk w).physByte a = s.physByte a := rfl
@[simp] theorem setWk_launch (s : State) (w : Worker) (l : Nat) : (s.setWk w).launch l = s.launch l := rfl

@[simp] theorem setWk_ln (s : State) (w : Worker) : (s.setWk w).ln = s.launch w.lid := by simp [State.ln]
@[simp] theorem setWk_st (s : State) (w : Worker) : (s.setWk w).st = w.strands.get s.curEng := by simp [State.st]
@[simp] theorem setWk_view (s : State) (w : Worker) : (s.setWk w).view = (w.strands.get s.curEng).view := by simp [State.view]
@[simp] theorem setWk_live (s : State) (w : Worker) : (s.setWk w).live = (w.status == .running) := by
  simp [State.live, State.setWk, State.putWorker, State.worker?]

theorem modWk_eq (s : State) (f : Worker → Worker) : s.modWk f = s.setWk (f s.wk) := rfl

/-- A live worker is the one that the state names. -/
theorem worker_of_live (s : State) (h : s.live = true) : s.worker? s.curKey = some s.wk := by
  unfold State.live at h
  unfold State.wk State.worker
  cases hw : s.worker? s.curKey with
  | none => simp [hw] at h
  | some w => rfl

theorem running_of_live (s : State) (h : s.live = true) : s.wk.status = .running := by
  have := worker_of_live s h
  unfold State.live at h
  rw [this] at h
  simpa using h

/-! ## Strands -/

@[simp] theorem get_set_self {α : Type} (f : Five α) (e : Eng) (x : α) : (f.set e x).get e = x := by cases e <;> rfl

theorem get_set_ne {α : Type} (f : Five α) (e d : Eng) (x : α) (h : d ≠ e) : (f.set e x).get d = f.get d := by
  cases e <;> cases d <;> first | rfl | exact absurd rfl h

@[simp] theorem set_get {α : Type} (f : Five α) (e : Eng) : f.set e (f.get e) = f := by cases e <;> rfl

@[simp] theorem set_set {α : Type} (f : Five α) (e : Eng) (x y : α) : (f.set e x).set e y = f.set e y := by cases e <;> rfl

@[simp] theorem setStrand_get (w : Worker) (e : Eng) (t : Strand) : (w.setStrand e t).strands.get e = t := by
  simp [Worker.setStrand]

@[simp] theorem setStrand_sregs (w : Worker) (e : Eng) (t : Strand) : (w.setStrand e t).sregs = w.sregs := rfl
@[simp] theorem setStrand_vregs (w : Worker) (e : Eng) (t : Strand) : (w.setStrand e t).vregs = w.vregs := rfl
@[simp] theorem setStrand_masks (w : Worker) (e : Eng) (t : Strand) : (w.setStrand e t).masks = w.masks := rfl
@[simp] theorem setStrand_sup (w : Worker) (e : Eng) (t : Strand) : (w.setStrand e t).sup = w.sup := rfl
@[simp] theorem setStrand_status (w : Worker) (e : Eng) (t : Strand) : (w.setStrand e t).status = w.status := rfl
@[simp] theorem setStrand_lid (w : Worker) (e : Eng) (t : Strand) : (w.setStrand e t).lid = w.lid := rfl
@[simp] theorem setStrand_setStrand (w : Worker) (e : Eng) (t u : Strand) :
    (w.setStrand e t).setStrand e u = w.setStrand e u := by simp [Worker.setStrand]

/-! ## Scalar registers -/

@[simp] theorem sget_zero (w : Worker) : w.sget 0 = 0 := rfl
@[simp] theorem sset_zero (w : Worker) (v : Word) : w.sset 0 v = w := rfl

theorem sget_sset (w : Worker) (r q : Nat) (v : Word) :
    (w.sset r v).sget q = if q = 0 then 0 else if q = r then v else w.sget q := by
  by_cases hq : q = 0
  · simp [hq]
  by_cases hr : r = 0
  · subst hr
    simp [hq]
  by_cases h : q = r
  · subst h
    simp [Worker.sset, Worker.sget, hq]
  · simp [Worker.sset, Worker.sget, hq, hr, h, tabGet_set_ne _ _ _ _ _ h]

@[simp] theorem sset_strands (w : Worker) (r : Nat) (v : Word) : (w.sset r v).strands = w.strands := by
  unfold Worker.sset; split <;> rfl
@[simp] theorem sset_vregs (w : Worker) (r : Nat) (v : Word) : (w.sset r v).vregs = w.vregs := by
  unfold Worker.sset; split <;> rfl
@[simp] theorem sset_masks (w : Worker) (r : Nat) (v : Word) : (w.sset r v).masks = w.masks := by
  unfold Worker.sset; split <;> rfl
@[simp] theorem sset_knots (w : Worker) (r : Nat) (v : Word) : (w.sset r v).knots = w.knots := by
  unfold Worker.sset; split <;> rfl
@[simp] theorem sset_spad (w : Worker) (r : Nat) (v : Word) : (w.sset r v).spad = w.spad := by
  unfold Worker.sset; split <;> rfl
@[simp] theorem sset_cells (w : Worker) (r : Nat) (v : Word) : (w.sset r v).cells = w.cells := by
  unfold Worker.sset; split <;> rfl
@[simp] theorem sset_sup (w : Worker) (r : Nat) (v : Word) : (w.sset r v).sup = w.sup := by
  unfold Worker.sset; split <;> rfl
@[simp] theorem sset_status (w : Worker) (r : Nat) (v : Word) : (w.sset r v).status = w.status := by
  unfold Worker.sset; split <;> rfl

/-! ## Predicates -/

@[simp] theorem pred_fifteen (v : View) : v.pred 15 = true := rfl
@[simp] theorem setPred_fifteen (v : View) (b : Bool) : v.setPred 15 b = v := rfl

theorem pred_setPred (v : View) (p q : Nat) (b : Bool) (hq : q < 16) :
    (v.setPred p b).pred q = if q = 15 then true else if q = p then b else v.pred q := by
  by_cases h15 : q = 15
  · simp [h15, View.pred]
  by_cases hp : p = 15
  · subst hp
    simp [h15, View.pred]
  by_cases h : q = p
  · subst h
    cases b <;> simp [View.setPred, View.pred, h15, hq]
  · cases b <;> simp [View.setPred, View.pred, h15, hp, h, hq]

end Sys2Proof.Machine
end

