-- ==== Sys2Proof/Laws/Memory.lean ====
section
/-! SUPPORT. Memory: every operation keeps the canonical form (keys strictly rising, no listed byte equal to what an unlisted one
reads as), a byte written is read back, and every other byte stays (R276 to R279). -/
namespace Sys2Proof.Machine

/-! ## Tables keep their form -/

/-- Strictly rising keys, as a relation between every two entries. -/
theorem tabSorted_iff {α : Type} (t : Tab α) : tabSorted t = true ↔ t.Pairwise fun a b => a.1 < b.1 := by
  induction t with
  | nil => simp [tabSorted]
  | cons a r ih =>
    cases r with
    | nil => simp [tabSorted]
    | cons b q =>
      simp only [tabSorted, Bool.and_eq_true, decide_eq_true_eq, ih]
      constructor
      · rintro ⟨h, hs⟩
        refine List.pairwise_cons.mpr ⟨fun c hc => ?_, hs⟩
        rcases List.mem_cons.mp hc with rfl | hc
        · exact h
        · exact Nat.lt_trans h ((List.pairwise_cons.mp hs).1 c hc)
      · intro h
        exact ⟨(List.pairwise_cons.mp h).1 b (by simp), (List.pairwise_cons.mp h).2⟩

theorem tabSorted_filter {α : Type} (t : Tab α) (p : Nat × α → Bool) (h : tabSorted t = true) : tabSorted (t.filter p) = true := by
  rw [tabSorted_iff] at h ⊢
  exact h.filter p

theorem tabSorted_erase {α : Type} (t : Tab α) (k : Nat) (h : tabSorted t = true) : tabSorted (tabErase t k) = true :=
  tabSorted_filter t _ h

theorem mem_insert {α : Type} (t : Tab α) (k : Nat) (x : α) (e : Nat × α) : e ∈ tabInsert t k x ↔ e = (k, x) ∨ e ∈ t := by
  induction t with
  | nil => simp [tabInsert]
  | cons a r ih =>
    unfold tabInsert
    split
    · simp
    · simp only [List.mem_cons, ih]
      exact or_left_comm

theorem tabSorted_insert {α : Type} (t : Tab α) (k : Nat) (x : α) (h : tabSorted t = true) (hk : ∀ e ∈ t, e.1 ≠ k) :
    tabSorted (tabInsert t k x) = true := by
  rw [tabSorted_iff] at h ⊢
  induction t with
  | nil => simp [tabInsert]
  | cons a r ih =>
    have ha := List.pairwise_cons.mp h
    have hak := hk a (by simp)
    unfold tabInsert
    split
    · refine List.pairwise_cons.mpr ⟨fun c hc => ?_, h⟩
      rcases List.mem_cons.mp hc with rfl | hc
      · assumption
      · exact Nat.lt_trans (by assumption) (ha.1 c hc)
    · refine List.pairwise_cons.mpr ⟨fun c hc => ?_, ih ha.2 fun e he => hk e (by simp [he])⟩
      rcases (mem_insert r k x c).mp hc with rfl | hc
      · show a.1 < k
        omega
      · exact ha.1 c hc

theorem tabSorted_put {α : Type} (t : Tab α) (k : Nat) (x : α) (h : tabSorted t = true) : tabSorted (tabPut t k x) = true :=
  tabSorted_insert _ _ _ (tabSorted_erase t k h) (mem_erase_ne t k)

theorem tabSorted_set {α : Type} [DecidableEq α] (d : α) (t : Tab α) (k : Nat) (x : α) (h : tabSorted t = true) :
    tabSorted (tabSet d t k x) = true := by
  unfold tabSet
  split
  · exact tabSorted_erase t k h
  · exact tabSorted_put t k x h

theorem tabSorted_map {α β : Type} (t : Tab α) (f : Nat × α → β) (h : tabSorted t = true) :
    tabSorted (t.map fun e => (e.1, f e)) = true := by
  rw [tabSorted_iff] at h ⊢
  exact List.pairwise_map.mpr h

/-- An entry of a table put or kept. -/
theorem mem_put {α : Type} (t : Tab α) (k : Nat) (x : α) (e : Nat × α) (h : e ∈ tabPut t k x) : e = (k, x) ∨ e ∈ t := by
  rcases (mem_insert _ _ _ _).mp h with h | h
  · exact .inl h
  · exact .inr (List.mem_filter.mp h).1

theorem mem_of_find {α : Type} (t : Tab α) (k : Nat) (x : α) (h : tabFind t k = some x) : (k, x) ∈ t := by
  induction t with
  | nil => simp [tabFind] at h
  | cons a r ih =>
    obtain ⟨j, y⟩ := a
    unfold tabFind at h
    split at h
    · rename_i hj; simp only [Option.some.injEq] at h; subst hj h; simp
    · exact List.mem_cons_of_mem _ (ih h)

/-- In a table with rising keys an entry is what its key finds. -/
theorem find_of_mem {α : Type} (t : Tab α) (e : Nat × α) (hs : tabSorted t = true) (h : e ∈ t) : tabFind t e.1 = some e.2 := by
  rw [tabSorted_iff] at hs
  induction t with
  | nil => simp at h
  | cons a r ih =>
    unfold tabFind
    rcases List.mem_cons.mp h with rfl | h
    · simp
    · have := (List.pairwise_cons.mp hs).1 e h
      rw [if_neg (by omega)]
      exact ih (List.pairwise_cons.mp hs).2 h

theorem tabWf_set {α : Type} [DecidableEq α] (d : α) (t : Tab α) (k : Nat) (x : α) (h : tabWf d t = true) :
    tabWf d (tabSet d t k x) = true := by
  unfold tabWf at h ⊢
  simp only [Bool.and_eq_true, List.all_eq_true, decide_eq_true_eq] at h ⊢
  refine ⟨tabSorted_set d t k x h.1, ?_⟩
  unfold tabSet
  split
  · intro e he; exact h.2 e (List.mem_filter.mp he).1
  · intro e he
    rcases mem_put _ _ _ _ he with rfl | he
    · assumption
    · exact h.2 e he

/-! ## The canonical form of memory -/

theorem Memory.wf_write (m : Memory) (a : Nat) (b : BitVec 8) (h : m.wf = true) : (m.write a b).wf = true :=
  tabWf_set memDefault m a b h

theorem Memory.wf_writeBytes (l : List (BitVec 8)) : ∀ (m : Memory) (a : Nat), m.wf = true → (m.writeBytes a l).wf = true := by
  induction l with
  | nil => intro m a h; exact h
  | cons b r ih => intro m a h; exact ih _ _ (Memory.wf_write m a b h)

theorem Memory.wf_foldl_write (l : List (Nat × BitVec 8)) :
    ∀ m : Memory, m.wf = true → (l.foldl (fun m e => Memory.write m e.1 e.2) m).wf = true := by
  induction l with
  | nil => intro m h; exact h
  | cons e r ih => intro m h; exact ih _ (Memory.wf_write m e.1 e.2 h)

theorem Memory.wf_putItems (l : List AreaItem) : ∀ m : Memory, m.wf = true → (m.putItems l).wf = true := by
  induction l with
  | nil => intro m h; exact h
  | cons x r ih => intro m h; exact ih _ (Memory.wf_writeBytes _ m _ h)

/-- The bytes of a save area keep the canonical form whatever is written there (R320). -/
theorem putVault_wf (s : State) (core : Nat) (l : List AreaItem) (h : (s.vault core).wf = true) :
    ((s.putVault core l).vault core).wf = true := by
  simpa [State.putVault, State.vault] using Memory.wf_putItems l _ h

theorem putByte_wf (s : State) (p : Phys) (a : Nat) (b : BitVec 8) (h : s.mem.wf = true) : (s.putByte p a b).mem.wf = true := by
  unfold State.putByte
  split
  · exact h
  · exact Memory.wf_write _ _ _ h

theorem putBytes_wf (p : Phys) (l : List (BitVec 8)) : ∀ (s : State) (a : Nat), s.mem.wf = true → (s.putBytes p a l).mem.wf = true := by
  induction l with
  | nil => intro s a h; exact h
  | cons b r ih => intro s a h; exact ih _ _ (putByte_wf s p a b h)

theorem putByte_dirty (s : State) (p : Phys) (a : Nat) (b : BitVec 8) (h : tabSorted s.poolDirty = true) :
    tabSorted (s.putByte p a b).poolDirty = true := by
  unfold State.putByte
  split
  · exact tabSorted_put _ _ _ h
  · exact tabSorted_erase _ _ h

theorem putBytes_dirty (p : Phys) (l : List (BitVec 8)) :
    ∀ (s : State) (a : Nat), tabSorted s.poolDirty = true → tabSorted (s.putBytes p a l).poolDirty = true := by
  induction l with
  | nil => intro s a h; exact h
  | cons b r ih => intro s a h; exact ih _ _ (putByte_dirty s p a b h)

theorem flushPool_wf (s : State) (lo hi : Nat) (h : s.mem.wf = true) : (s.flushPool lo hi).mem.wf = true :=
  Memory.wf_foldl_write _ _ h

theorem flushPool_dirty (s : State) (lo hi : Nat) (h : tabSorted s.poolDirty = true) :
    tabSorted (s.flushPool lo hi).poolDirty = true :=
  tabSorted_filter _ _ h

theorem putByte_workers (s : State) (p : Phys) (a : Nat) (b : BitVec 8) : (s.putByte p a b).workers = s.workers := by
  unfold State.putByte
  split <;> rfl

theorem putBytes_workers (p : Phys) (l : List (BitVec 8)) : ∀ (s : State) (a : Nat), (s.putBytes p a l).workers = s.workers := by
  induction l with
  | nil => intro s a; rfl
  | cons b r ih => intro s a; exact (ih _ _).trans (putByte_workers s p a b)

theorem modWorker_mem (s : State) (k : Nat) (f : Worker → Worker) :
    (s.modWorker k f).mem = s.mem ∧ (s.modWorker k f).poolDirty = s.poolDirty := by
  unfold State.modWorker
  split <;> exact ⟨rfl, rfl⟩

/-- A write in any place keeps physical memory in its form. -/
theorem writePlace_wf (s : State) (p : Place) (l : List (BitVec 8)) (h : s.mem.wf = true) : (s.writePlace p l).mem.wf = true := by
  unfold State.writePlace
  split
  · rw [(modWorker_mem _ _ _).1]; exact h
  · rw [(modWorker_mem _ _ _).1]; exact h
  · exact h
  · exact putBytes_wf _ _ _ _ h

/-- A group of writes keeps it. -/
theorem writeAll_wf (s : State) (ws : List (Place × List (BitVec 8))) (h : s.mem.wf = true) : (s.writeAll ws).mem.wf = true := by
  unfold State.writeAll
  have ht : (s.sweep ws).mem.wf = true := h
  generalize s.sweep ws = t at ht ⊢
  clear h
  induction ws generalizing t with
  | nil => exact ht
  | cons w r ih => exact ih _ (writePlace_wf t w.1 w.2 ht)

/-- Nothing listed is in the form. -/
theorem reset_mem_wf : State.reset.mem.wf = true := rfl

/-! ## Read after write -/

theorem Memory.read_write (m : Memory) (a b : Nat) (x : BitVec 8) : (m.write a x).read b = if b = a then x else m.read b := by
  unfold Memory.read Memory.write
  by_cases h : b = a
  · subst h; rw [if_pos rfl]; exact tabGet_set_self _ _ _ _
  · rw [if_neg h]; exact tabGet_set_ne _ _ _ _ _ h

/-- Equal reads of a byte one step into a list of bytes. -/
theorem nth_step (b : BitVec 8) (r : List (BitVec 8)) (o a : Nat) (x : BitVec 8) (f : Nat → BitVec 8)
    (hf : f a = if a = o then b else x) :
    (if o + 1 ≤ a ∧ a < o + 1 + r.length then nth 0 r (a - (o + 1)) else f a) =
      if o ≤ a ∧ a < o + (r.length + 1) then nth 0 (b :: r) (a - o) else x := by
  rw [hf]
  by_cases h1 : a = o
  · subst h1
    rw [if_neg (by omega), if_pos rfl, if_pos (by omega)]
    simp [nth]
  · by_cases h2 : o + 1 ≤ a ∧ a < o + 1 + r.length
    · rw [if_pos h2, if_pos (by omega)]
      obtain ⟨k, hk⟩ : ∃ k, a - o = k + 1 := ⟨a - o - 1, by omega⟩
      rw [hk, show a - (o + 1) = k by omega]
      rfl
    · rw [if_neg h2, if_neg h1, if_neg (by omega)]

theorem Memory.read_writeBytes (l : List (BitVec 8)) : ∀ (m : Memory) (o a : Nat),
    (m.writeBytes o l).read a = if o ≤ a ∧ a < o + l.length then nth 0 l (a - o) else m.read a := by
  induction l with
  | nil => intro m o a; rw [if_neg (by simp only [List.length_nil]; omega)]; rfl
  | cons b r ih =>
    intro m o a
    show (Memory.writeBytes (m.write o b) (o + 1) r).read a = _
    rw [ih]
    exact nth_step b r o a (m.read a) (Memory.read (m.write o b)) (Memory.read_write m o a b)

theorem physByte_putByte (s : State) (p : Phys) (a b : Nat) (x : BitVec 8) :
    (s.putByte p a x).physByte b = if b = a then x else s.physByte b := by
  unfold State.putByte State.physByte
  by_cases h : (p.pool && !p.home) = true
  · rw [if_pos h]
    by_cases hb : b = a
    · subst hb; simp
    · simp [hb, tabFind_put_ne]
  · rw [if_neg h]
    by_cases hb : b = a
    · subst hb; simp [tabFind_erase_self, Memory.read_write]
    · simp [hb, tabFind_erase_ne, Memory.read_write]

theorem physByte_putBytes (p : Phys) (l : List (BitVec 8)) : ∀ (s : State) (o a : Nat),
    (s.putBytes p o l).physByte a = if o ≤ a ∧ a < o + l.length then nth 0 l (a - o) else s.physByte a := by
  induction l with
  | nil => intro s o a; rw [if_neg (by simp only [List.length_nil]; omega)]; rfl
  | cons b r ih =>
    intro s o a
    show (State.putBytes (s.putByte p o b) p (o + 1) r).physByte a = _
    rw [ih]
    exact nth_step b r o a (s.physByte a) (s.putByte p o b).physByte (physByte_putByte s p o a b)

/-- Writing back dirty pool bytes changes where bytes are, not what they read as. -/
theorem physByte_flushPool (s : State) (lo hi a : Nat) (hs : tabSorted s.poolDirty = true) :
    (s.flushPool lo hi).physByte a = s.physByte a := by
  have fold : ∀ (l : List (Nat × BitVec 8)) (m : Memory), tabSorted l = true →
      (l.foldl (fun m e => Memory.write m e.1 e.2) m).read a = (tabFind l a).getD (m.read a) := by
    intro l
    induction l with
    | nil => intro m _; rfl
    | cons e r ih =>
      intro m h
      rw [tabSorted_iff] at h
      have hr : tabSorted r = true := (tabSorted_iff r).mpr (List.pairwise_cons.mp h).2
      have he' : tabFind (e :: r) a = if e.1 = a then some e.2 else tabFind r a := rfl
      rw [List.foldl_cons, ih _ hr, Memory.read_write, he']
      by_cases he : e.1 = a
      · rw [if_pos he, if_pos he.symm]
        have : tabFind r a = none := by
          cases hf : tabFind r a with
          | none => rfl
          | some x =>
            have := (List.pairwise_cons.mp h).1 _ (mem_of_find _ _ _ hf)
            dsimp only at this
            omega
        rw [this]; rfl
      · rw [if_neg he, if_neg (Ne.symm he)]
  have find : ∀ (t : Tab (BitVec 8)) (p : Nat → Bool), tabFind (t.filter fun e => p e.1) a = if p a then tabFind t a else none := by
    intro t p
    induction t with
    | nil => simp [tabFind]
    | cons e r ih =>
      by_cases hp : p e.1 = true
      · simp only [List.filter_cons, hp, if_true, tabFind, ih]
        by_cases he : e.1 = a
        · subst he; simp [hp]
        · simp [he]
      · simp only [List.filter_cons, hp, Bool.false_eq_true, if_false, tabFind, ih]
        by_cases he : e.1 = a
        · subst he; simp [hp]
        · simp [he]
  unfold State.flushPool State.physByte
  dsimp only
  rw [find s.poolDirty fun k => !decide (lo ≤ k ∧ k < hi), fold _ _ (tabSorted_filter _ _ hs),
    find s.poolDirty fun k => decide (lo ≤ k ∧ k < hi)]
  by_cases h : decide (lo ≤ a ∧ a < hi) = true
  · simp only [h, Bool.not_true, Bool.false_eq_true, if_false, if_true]
    cases tabFind s.poolDirty a <;> rfl
  · simp only [Bool.not_eq_true] at h
    simp only [h, Bool.not_false, if_true, Bool.false_eq_true, if_false]
    cases tabFind s.poolDirty a <;> rfl

end Sys2Proof.Machine
end

