-- ==== Sys2Proof/Laws/Run.lean ====
section
/-! SUPPORT. How an instruction of a strand runs, once for all: what an action that goes on, waits or traps makes of the state
(R23, R28, R30, R59). Meanings of instructions are `runOwn`, `runS` or `runE64` of an action. -/
namespace Sys2Proof.Machine

/-! ## Actions -/

@[simp] theorem m_pure {α : Type} (a : α) (s : State) : (pure a : M α) s = .ok (a, s) := rfl

theorem m_bind {α β : Type} (x : M α) (f : α → M β) (s : State) :
    (x >>= f) s = match x s with
      | .ok (a, t) => f a t
      | .error e => .error e := by
  show (StateT.bind x f) s = _
  unfold StateT.bind
  cases x s <;> rfl

theorem m_bind_ok {α β : Type} {x : M α} {f : α → M β} {s t : State} {a : α} (h : x s = .ok (a, t)) :
    (x >>= f) s = f a t := by rw [m_bind, h]

theorem m_bind_error {α β : Type} {x : M α} {f : α → M β} {s : State} {e : Stop} (h : x s = .error e) :
    (x >>= f) s = .error e := by rw [m_bind, h]

@[simp] theorem m_look {α : Type} (f : State → α) (s : State) : M.look f s = .ok (f s, s) := rfl
@[simp] theorem m_change (f : State → State) (s : State) : M.change f s = .ok ((), f s) := rfl
@[simp] theorem m_work (f : Worker → Worker) (s : State) : M.work f s = .ok ((), s.setWk (f s.wk)) := rfl
@[simp] theorem m_trap {α : Type} (c u a : Nat) (n : Option Nat) (s : State) :
    (M.trap c u a n : M α) s = .error (.trap ⟨c, u, a, n⟩) := rfl
@[simp] theorem m_illegal {α : Type} (u : Nat) (s : State) : (M.illegal u : M α) s = .error (.trap ⟨1, u, 0, none⟩) := rfl
@[simp] theorem m_stall {α : Type} (s : State) : (M.stall : M α) s = .error .stall := rfl
@[simp] theorem m_stop {α : Type} (x : Stop) (s : State) : (M.stop x : M α) s = .error x := rfl
@[simp] theorem m_await_true (s : State) : M.await true s = .ok ((), s) := rfl
@[simp] theorem m_await_false (s : State) : M.await false s = .error .stall := rfl
@[simp] theorem m_legal_true (s : State) : M.legal true s = .ok ((), s) := rfl
@[simp] theorem m_legal_false (s : State) : M.legal false s = .error (.trap ⟨1, 3, 0, none⟩) := rfl
@[simp] theorem m_nothing (s : State) : M.nothing s = .ok (Issue.none, s) := rfl

/-! ## An instruction of a strand -/

/-- A live worker's strand in turn always has a next state, whatever its action does. -/
theorem settleStop_next (s : State) (r : Except Stop (Unit × State)) : ∃ t, settleStop s r = .next t := by
  unfold settleStop
  split <;> exact ⟨_, rfl⟩

theorem runOwn_next (e : Eng) (act : M Unit) (s : State) (hl : s.live = true) (he : s.curEng = e) :
    runOwn e act s = settleStop s (act s) := by simp [runOwn, hl, he]

theorem runOwn_ok {e : Eng} {act : M Unit} {s t : State} (hl : s.live = true) (he : s.curEng = e) (h : act s = .ok ((), t)) :
    runOwn e act s = .next t := by rw [runOwn_next e act s hl he, h]; rfl

theorem runOwn_trap {e : Eng} {act : M Unit} {s : State} {x : Trap} (hl : s.live = true) (he : s.curEng = e)
    (h : act s = .error (.trap x)) : runOwn e act s = .next (s.takeTrap s.curEng s.st.pc x) := by
  rw [runOwn_next e act s hl he, h]; rfl

theorem runOwn_stall {e : Eng} {act : M Unit} {s : State} (hl : s.live = true) (he : s.curEng = e)
    (h : act s = .error .stall) : runOwn e act s = .next s := by rw [runOwn_next e act s hl he, h]; rfl

theorem issueS_on {len : Nat} {g : Option Guard} {on off : M Issue} {s t : State} {i : Issue}
    (hroom : s.st.pend.length < 32) (hg : ∀ x, g = some x → s.view.guard x = true) (h : on s = .ok (i, t)) :
    issueS len g on off s = .ok ((), t.setWk (t.wk.setStrand .S (t.wk.strands.s.issued len i []))) := by
  unfold issueS
  have hr : s.st.room = true := decide_eq_true hroom
  cases g with
  | none => simp [m_bind, hr, h]
  | some g =>
    have := hg g rfl
    simp only [State.view] at this
    simp [m_bind, hr, this, h]

theorem issueS_off {len : Nat} {g : Guard} {on off : M Issue} {s t : State} {i : Issue}
    (hroom : s.st.pend.length < 32) (hg : s.view.guard g = false) (h : off s = .ok (i, t)) :
    issueS len (some g) on off s = .ok ((), t.setWk (t.wk.setStrand .S (t.wk.strands.s.issued len i []))) := by
  unfold issueS
  have hr : s.st.room = true := decide_eq_true hroom
  simp only [State.view] at hg
  simp [m_bind, hr, hg, h]

theorem issueS_error {len : Nat} {g : Option Guard} {on off : M Issue} {s : State} {x : Stop}
    (hroom : s.st.pend.length < 32) (hg : ∀ x, g = some x → s.view.guard x = true) (h : on s = .error x) :
    issueS len g on off s = .error x := by
  unfold issueS
  have hr : s.st.room = true := decide_eq_true hroom
  cases g with
  | none => simp [m_bind, hr, h]
  | some g =>
    have := hg g rfl
    simp only [State.view] at this
    simp [m_bind, hr, this, h]

/-- An S instruction whose guard lets it execute and whose effect goes on. -/
theorem runS_on {len : Nat} {g : Option Guard} {on off : M Issue} {s t : State} {i : Issue} (hl : s.live = true)
    (he : s.curEng = .S) (hroom : s.st.pend.length < 32) (hg : ∀ x, g = some x → s.view.guard x = true)
    (h : on s = .ok (i, t)) :
    runS len g on off s = .next (t.setWk (t.wk.setStrand .S (t.wk.strands.s.issued len i []))) :=
  runOwn_ok hl he (issueS_on hroom hg h)

/-- An S instruction that its guard turns off. -/
theorem runS_off {len : Nat} {g : Guard} {on off : M Issue} {s t : State} {i : Issue} (hl : s.live = true)
    (he : s.curEng = .S) (hroom : s.st.pend.length < 32) (hg : s.view.guard g = false) (h : off s = .ok (i, t)) :
    runS len (some g) on off s = .next (t.setWk (t.wk.setStrand .S (t.wk.strands.s.issued len i []))) :=
  runOwn_ok hl he (issueS_off hroom hg h)

/-- An S instruction whose effect traps. -/
theorem runS_trap {len : Nat} {g : Option Guard} {on off : M Issue} {s : State} {x : Trap} (hl : s.live = true)
    (he : s.curEng = .S) (hroom : s.st.pend.length < 32) (hg : ∀ x, g = some x → s.view.guard x = true)
    (h : on s = .error (.trap x)) : runS len g on off s = .next (s.takeTrap .S s.st.pc x) := by
  rw [runS, runOwn_trap hl he (issueS_error hroom hg h), he]

/-- Tokens popped as an E64 instruction issues. -/
def Worker.popTokens (w : Worker) (l : List TokQ) : Worker := l.foldl (fun w q => w.setTokens q (w.tokensIn q - 1)) w

/-- An E64 instruction whose guard lets it execute and whose effect goes on. -/
theorem runE64_on {e : Eng} {f : E64} {on off : M Issue} {s t : State} {i : Issue} (hl : s.live = true) (he : s.curEng = e)
    (hroom : s.st.pend.length < 32) (htok : ∀ q ∈ tokPops e f.tk, 0 < s.wk.tokensIn q) (hg : s.view.guard f.g = true)
    (h : on (s.popAcquire e f.tk) = .ok (i, t)) :
    runE64 e f on off s =
      .next (t.setWk ((t.wk.popTokens (tokPops e f.tk)).setStrand e
        (((t.wk.popTokens (tokPops e f.tk)).strands.get e).issued 4 i (tokPushes e f.tk)))) := by
  refine runOwn_ok hl he ?_
  unfold issueE64
  have hr : s.st.room = true := decide_eq_true hroom
  have ht : ((tokPops e f.tk).all fun q => decide (0 < s.wk.tokensIn q)) = true := by
    simpa [List.all_eq_true] using htok
  simp only [State.view] at hg
  simp only [m_bind, m_look, hr, m_await_true, m_change, ht, hg, if_true, h]
  rfl

/-- An E64 instruction that its guard turns off. -/
theorem runE64_off {e : Eng} {f : E64} {on off : M Issue} {s t : State} {i : Issue} (hl : s.live = true) (he : s.curEng = e)
    (hroom : s.st.pend.length < 32) (htok : ∀ q ∈ tokPops e f.tk, 0 < s.wk.tokensIn q) (hg : s.view.guard f.g = false)
    (h : off (s.popAcquire e f.tk) = .ok (i, t)) :
    runE64 e f on off s =
      .next (t.setWk ((t.wk.popTokens (tokPops e f.tk)).setStrand e
        (((t.wk.popTokens (tokPops e f.tk)).strands.get e).issued 4 i (tokPushes e f.tk)))) := by
  refine runOwn_ok hl he ?_
  unfold issueE64
  have hr : s.st.room = true := decide_eq_true hroom
  have ht : ((tokPops e f.tk).all fun q => decide (0 < s.wk.tokensIn q)) = true := by
    simpa [List.all_eq_true] using htok
  simp only [State.view] at hg
  simp only [m_bind, m_look, hr, m_await_true, ht, hg, m_change, Bool.false_eq_true, if_false, h]
  rfl

/-- An E64 instruction whose effect traps. -/
theorem runE64_trap {e : Eng} {f : E64} {on off : M Issue} {s : State} {x : Trap} (hl : s.live = true) (he : s.curEng = e)
    (hroom : s.st.pend.length < 32) (htok : ∀ q ∈ tokPops e f.tk, 0 < s.wk.tokensIn q) (hg : s.view.guard f.g = true)
    (h : on (s.popAcquire e f.tk) = .error (.trap x)) : runE64 e f on off s = .next (s.takeTrap e s.st.pc x) := by
  have : runE64 e f on off s = .next (s.takeTrap s.curEng s.st.pc x) := by
    refine runOwn_trap hl he ?_
    unfold issueE64
    have hr : s.st.room = true := decide_eq_true hroom
    have ht : ((tokPops e f.tk).all fun q => decide (0 < s.wk.tokensIn q)) = true := by
      simpa [List.all_eq_true] using htok
    simp only [State.view] at hg
    simp only [m_bind, m_look, hr, m_await_true, m_change, ht, hg, if_true, h]
  rw [this, he]

/-- An E64 instruction waits, changed in nothing, while a token it pops is missing. -/
theorem runE64_wait {e : Eng} {f : E64} {on off : M Issue} {s : State} {q : TokQ} (hl : s.live = true) (he : s.curEng = e)
    (hq : q ∈ tokPops e f.tk) (h0 : s.wk.tokensIn q = 0) : runE64 e f on off s = .next s := by
  refine runOwn_stall hl he ?_
  unfold issueE64
  have ht : ((tokPops e f.tk).all fun q => decide (0 < s.wk.tokensIn q)) = false := by
    rw [List.all_eq_false]
    exact ⟨q, hq, by simp [h0]⟩
  by_cases hr : s.st.room = true
  · simp only [m_bind, m_look, hr, m_await_true, ht, m_await_false]
  · simp only [Bool.not_eq_true] at hr
    simp only [m_bind, m_look, hr, m_await_false]

end Sys2Proof.Machine
end

