-- ==== Sys2Proof/Laws/Turn.lean ====
section
/-! SUPPORT. How S and the engines issue, write, wait, transfer and configure, once for all: what `runS`, `runE64`, `runControl`
and the posting of configuration leave (R16 to R30). -/
namespace Sys2Proof.Machine
open Sys2Proof

theorem stepped_eq (t : Strand) (len n : Nat) (l : List Landing) :
    t.issued len ⟨l, n, false⟩ [] = t.stepped len n l := by
  cases l <;> simp [Strand.issued, Strand.stepped, countDown]

/-- An S instruction that writes one scalar at once. -/
theorem runS_wrote {len : Nat} {g : Guard} {d : BitVec 5} {F : Worker → Word} {off : M Issue} {s : State}
    (h : Turn.Ready .S s) (hg : s.view.guard g = true) :
    runS len (some g) (writeS d.toNat F) off s = .next (s.wroteS len d (F s.wk)) := by
  rw [runS_on (i := .none) (t := s.setWk (s.wk.snow d.toNat (F s.wk))) h.live h.turn h.room (by simpa using hg) rfl]
  simp only [State.wroteS, State.afterS, Issue.none, stepped_eq]

theorem confRoom_true {s : State} (h : s.configFree) : s.wk.confRoom = true := by
  simp only [Worker.confRoom, otherEngines, List.all_eq_true]
  intro e he
  exact decide_eq_true (h e he)

theorem configure_posted (s : State) (due : Nat) (c : ConfW) : s.setWk (s.wk.configure due c) = s.posted due c := rfl

theorem writeP_ok {s : State} (h : s.configFree) (p : Nat) (b : Bool) :
    writeP p b s = .ok (.none, if p = 15 then s else s.posted (s.dueAt 2) (.pred p b)) := by
  unfold writeP
  by_cases hp : p = 15
  · simp [hp]
  · simp only [hp, if_false, m_bind, postConfig, m_look, confRoom_true h, m_await_true, m_change]
    rfl

/-- An S instruction that writes a predicate, posted to every strand (R22). -/
theorem runS_pred {g : Guard} {on off : M Issue} {s : State} {p : Nat} {b : Bool}
    (h : Turn.Ready .S s) (hg : s.view.guard g = true) (hc : s.configFree) (hon : on s = writeP p b s) :
    runS 2 (some g) on off s = .next (s.wroteP p b) := by
  rw [runS_on h.live h.turn h.room (by simpa using hg) (hon.trans (writeP_ok hc p b))]
  simp only [State.wroteP, State.afterS, Issue.none, stepped_eq]

theorem snow_sget (w : Worker) (d r : Nat) (v : Word) :
    (w.snow d v).sget r = if r = 0 then 0 else if r = d then v else w.sget r := by
  rw [Worker.snow, sget_sset]; rfl

/-- A guarded-off S instruction only goes on (R30). -/
theorem runS_inert {len : Nat} {g : Guard} {on : M Issue} {s : State} (h : Turn.Ready .S s) (hg : s.view.guard g = false) :
    runS len (some g) on M.nothing s = .next (s.afterS len 0 []) := by
  rw [runS_off (i := .none) (t := s) h.live h.turn h.room hg rfl]
  simp only [State.afterS, Issue.none, stepped_eq]

theorem foldl_min_le (l : List Nat) (a : Nat) : ∀ n, (∀ x ∈ l, n ≤ x) → n ≤ a → n ≤ l.foldl min a := by
  induction l generalizing a with
  | nil => intro n _ h; exact h
  | cons b r ih =>
    intro n h ha
    exact ih (min a b) n (fun x hx => h x (by simp [hx])) (le_min ha (h b (by simp)))

theorem slipOk_of {s : State} {e : Eng} (h : s.slipFree e) : s.wk.slipOk e = true := by
  unfold Worker.slipOk
  rcases h with ⟨rfl, h⟩ | h
  · simp [h]
  · have h' : ∀ d, (s.wk.strands.get e).dbn + 1 ≤ (s.wk.strands.get d).dbn + (s.wk.strands.get e).view.slip :=
      fun d => h d (by cases d <;> simp)
    clear h
    have hx : ∀ x ∈ s.wk.strands.toList.map Strand.dbn, ∃ d, x = (s.wk.strands.get d).dbn := by
      intro x hx
      simp only [Five.toList, List.map_cons, List.map_nil, List.mem_cons, List.not_mem_nil, or_false] at hx
      rcases hx with rfl | rfl | rfl | rfl | rfl
      exacts [⟨.S, rfl⟩, ⟨.L, rfl⟩, ⟨.V, rfl⟩, ⟨.M, rfl⟩, ⟨.W, rfl⟩]
    have h2 : (s.wk.strands.get e).dbn + 1 - (s.wk.strands.get e).view.slip ≤
        (s.wk.strands.toList.map Strand.dbn).foldl min (s.wk.strands.get e).dbn := by
      apply foldl_min_le
      · intro x hm
        obtain ⟨d, rfl⟩ := hx x hm
        have := h' d
        omega
      · have := h' e
        omega
    simp only [Bool.or_eq_true, decide_eq_true_eq]
    right
    omega

theorem outFree_true {w : Worker} (h : ∀ e ∈ [Eng.L, .V, .M, .W], (w.strands.get e).outq.length < 64) :
    (otherEngines.all fun e => decide ((w.strands.get e).outq.length < Config.outcomeCap)) = true := by
  simp only [otherEngines, List.all_eq_true]
  intro e he
  exact decide_eq_true (h e he)

theorem postOutcome_ok {s : State} (h : s.outcomeFree) (o : CtlOut) : postOutcome o s = .ok ((), s.told o) := by
  unfold postOutcome State.told
  by_cases hh : s.wk.inHandler = true
  · simp [m_bind, hh]
  · simp only [m_bind, m_look, hh, Bool.false_eq_true, if_false, outFree_true h, m_await_true, m_work, Five.mapOthers]

@[simp] theorem told_inHandler (s : State) (o : CtlOut) : (s.told o).wk.inHandler = s.wk.inHandler := by
  by_cases h : s.wk.inHandler = true <;> simp [State.told, h]

@[simp] theorem told_tdepth (s : State) (o : CtlOut) : (s.told o).wk.sup = s.wk.sup := by
  by_cases h : s.wk.inHandler = true <;> simp [State.told, h]

@[simp] theorem told_S (s : State) (o : CtlOut) : (s.told o).wk.strands.s = s.wk.strands.s := by
  by_cases h : s.wk.inHandler = true <;> simp [State.told, h]

theorem jumped_eq (t : Strand) (len : Nat) (x : PAddr) (st : List Block) (c : Bool) :
    t.jumped len x st c = t.transferred len x st c := by
  simp [Strand.jumped, Strand.boundary, Strand.transferred, countDown, interlock]

/-- A taken transfer of S (R16, R19). -/
theorem transferS_ok {s : State} (hr : s.st.pend.length < 32) (he : s.curEng = .S) (ho : s.outcomeFree) (hs : s.slipFree .S) (len : Nat) (k : Transfer) (x : PAddr) :
    transferS len k x s = .ok ((), s.jumpedS len x (match k with | .ret d => d | _ => 0) (k.stack s.baseS x s.wk.strands.s.stack)) := by
  unfold transferS
  have hr' : s.wk.strands.s.room = true := by
    have : s.st = s.wk.strands.s := by rw [State.st, he]; rfl
    rw [← this]; exact decide_eq_true hr
  simp only [m_bind, m_look, slipOk_of hs, hr', Bool.and_true, m_await_true, postOutcome_ok ho, m_work]
  simp only [State.jumpedS, jumped_eq, Worker.counting, Worker.base, told_S, told_inHandler, told_tdepth, State.baseS]
  first
    | done
    | (simp; done)
    | (simp; rfl)

theorem runControl_S {s : State} {len : Nat} {k : Nat → Transfer} {act : M Unit} {t : State} (hl : s.live = true) (he : s.curEng = .S)
    (h : act s = .ok ((), t)) : runControl len k act s = .next t := by
  simp [runControl, runAny, hl, he, h, settleStop]

theorem runControl_S_trap {s : State} {len : Nat} {k : Nat → Transfer} {act : M Unit} {x : Trap} (hl : s.live = true) (he : s.curEng = .S)
    (h : act s = .error (.trap x)) : runControl len k act s = .next (s.takeTrap .S s.st.pc x) := by
  simp [runControl, runAny, hl, he, h, settleStop]

theorem upFrom_eq (a n : Nat) : upFrom a n = (List.range n).map (a + ·) := by
  induction n generalizing a with
  | zero => rfl
  | succ n ih => simp [upFrom, ih, List.range_succ_eq_map, Function.comp_def, Nat.add_assoc, Nat.add_comm 1]

theorem runAny_ok {act : M Unit} {s t : State} (hl : s.live = true) (h : act s = .ok ((), t)) : runAny act s = .next t := by
  simp [runAny, hl, h, settleStop]

theorem runAny_trap {act : M Unit} {s : State} {x : Trap} (hl : s.live = true) (h : act s = .error (.trap x)) :
    runAny act s = .next (s.takeTrap s.curEng s.st.pc x) := by
  simp [runAny, hl, h, settleStop]

/-- A headland enters its block (R18). -/
theorem enterBlock_ok {s : State} {b k : Nat} {r : Bool} (hr : s.st.pend.length < 32) (hs : s.slipFree s.curEng) (hk : k ≠ 0)
    (hd : s.curEng = .S → s.st.stack.length < s.baseS + 4) :
    enterBlock b r k s = .ok ((), s.setSt { s.st with
        stack := ⟨s.st.pc, s.st.pc + BitVec.ofNat 57 (4 + 2 * b), k, r⟩ :: s.st.stack, pc := s.st.pc + 4, pos := s.st.pos + 2, dbn := if (!(s.curEng == .S && s.wk.inHandler)) then s.st.dbn + 1 else s.st.dbn
        pend := s.st.pend.map fun p => { p with count := 0, lock := true } }) := by
  unfold enterBlock
  have h1 : ¬ (s.curEng = Eng.S ∧ s.wk.base Eng.S + 4 ≤ s.st.stack.length) := by
    rintro ⟨h, h2⟩
    have := hd h
    simp only [State.baseS] at this
    simp only [Worker.base] at h2
    by_cases hh : s.wk.inHandler = true <;> simp [hh] at this h2 <;> omega
  have hr' : s.st.room = true := decide_eq_true hr
  simp only [m_bind, m_look, id_eq, hk, if_false, h1, slipOk_of hs, hr', m_await_true, m_change]
  rfl

theorem enterBlock_zero {s : State} {b : Nat} {r : Bool} (hr : s.st.pend.length < 32) :
    enterBlock b r 0 s = .ok ((), s.setSt { s.st with pc := s.st.pc + BitVec.ofNat 57 (4 + 2 * b), pos := s.st.pos + 2 }) := by
  unfold enterBlock
  have hr' : s.st.room = true := decide_eq_true hr
  simp only [m_bind, m_look, id_eq, hr', m_await_true, if_true, m_change]
  rfl

theorem gone_iff (w : Worker) : w.gone = true ↔ ∀ e, (w.strands.get e).exited = true := by
  simp only [Worker.gone, Five.toList, List.all_cons, List.all_nil, Bool.and_true, Bool.and_eq_true]
  constructor
  · rintro ⟨h1, h2, h3, h4, h5⟩ e
    cases e <;> assumption
  · intro h
    exact ⟨h .S, h .L, h .V, h .M, h .W⟩

theorem confRoom_t {s : State} (h : s.configFree) : s.wk.confRoom = true := by
  simp only [Worker.confRoom, otherEngines, List.all_eq_true]
  intro e he
  exact decide_eq_true (h e he)

/-- A configuration write is posted once every queue has room (R22). -/
theorem postConfig_ok {s : State} (h : s.configFree) (len : Nat) (c : ConfW) :
    postConfig len c s = .ok ((), s.posted (s.dueAt len) c) := by
  unfold postConfig
  simp only [m_bind, m_look, confRoom_t h, m_await_true, m_change]
  rfl

/-- An S instruction that goes on, in terms of what its action leaves. -/
theorem runS_after {len : Nat} {g : Guard} {on off : M Issue} {s t : State} {i : Issue} (h : Turn.Ready .S s) (hg : s.view.guard g = true)
    (hl : i.last = false) (he : on s = .ok (i, t)) : runS len (some g) on off s = .next (t.afterS len i.shadow i.acts) := by
  rw [runS_on h.live h.turn h.room (by simpa using hg) he]
  obtain ⟨a, n, l⟩ := i
  simp only at hl; subst hl
  simp only [State.afterS, stepped_eq]

theorem runS_after0 {len : Nat} {g : Guard} {on off : M Issue} {s t : State} (h : Turn.Ready .S s) (hg : s.view.guard g = true)
    (he : on s = .ok (.none, t)) : runS len (some g) on off s = .next (t.afterS len 0 []) := runS_after h hg rfl he

theorem runS_wroteT {len : Nat} {g : Guard} {on off : M Issue} {s t : State} {d : BitVec 5} {v : Word} (h : Turn.Ready .S s) (hg : s.view.guard g = true)
    (he : on s = .ok (.none, t.setWk (t.wk.snow d.toNat v))) : runS len (some g) on off s = .next (t.wroteS len d v) := by
  rw [runS_after0 h hg he]; rfl

theorem runS_trap0 {len : Nat} {g : Guard} {on off : M Issue} {s : State} {x : Trap} (h : Turn.Ready .S s) (hg : s.view.guard g = true)
    (he : on s = .error (.trap x)) : runS len (some g) on off s = .next (s.takeTrap .S s.st.pc x) :=
  runS_trap h.live h.turn h.room (by simpa using hg) he

theorem runS_stall0 {len : Nat} {g : Guard} {on off : M Issue} {s : State} (h : Turn.Ready .S s) (hg : s.view.guard g = true)
    (he : on s = .error .stall) : runS len (some g) on off s = .next s :=
  runOwn_stall h.live h.turn (issueS_error h.room (by simpa using hg) he)

theorem runS_off0 {len : Nat} {g : Guard} {on off : M Issue} {s t : State} (h : Turn.Ready .S s) (hg : s.view.guard g = false)
    (he : off s = .ok (.none, t)) : runS len (some g) on off s = .next (t.afterS len 0 []) := by
  rw [runS_off h.live h.turn h.room hg he]
  simp only [State.afterS, Issue.none, stepped_eq]

theorem runS_offstall {len : Nat} {g : Guard} {on off : M Issue} {s : State} (h : Turn.Ready .S s) (hg : s.view.guard g = false)
    (he : off s = .error .stall) : runS len (some g) on off s = .next s := by
  refine runOwn_stall h.live h.turn ?_
  unfold issueS
  have hr : s.st.room = true := decide_eq_true h.room
  simp only [State.view] at hg
  simp [m_bind, hr, hg, he]

theorem runS_noneOk {len : Nat} {on off : M Issue} {s t : State} (h : Turn.Ready .S s)
    (he : on s = .ok (.none, t)) : runS len none on off s = .next (t.afterS len 0 []) := by
  rw [runS_on h.live h.turn h.room (by simp) he]
  simp only [State.afterS, Issue.none, stepped_eq]

theorem runS_noneStall {len : Nat} {on off : M Issue} {s : State} (h : Turn.Ready .S s)
    (he : on s = .error .stall) : runS len none on off s = .next s := 
  runOwn_stall h.live h.turn (issueS_error h.room (by simp) he)

theorem knot_setKnot (w : Worker) (k j : Nat) (x : Knot) : (w.setKnot k x).knot j = if j = k then x else w.knot j := by
  unfold Worker.setKnot Worker.knot
  by_cases h : j = k
  · subst h; rw [if_pos rfl]; exact tabGet_set_self _ _ _ _
  · rw [if_neg h]; exact tabGet_set_ne _ _ _ _ _ h

theorem issuedE_eq (s : State) (e : Eng) (f : E64) (acts : List Landing) (n : Nat) :
    s.setWk (s.wk.setStrand e ((s.wk.strands.get e).issued 4 ⟨acts, n, false⟩ (tokPushes e f.tk))) = s.issuedE e f n acts := by
  unfold State.issuedE
  have : ∀ t : Strand, t.issued 4 ⟨acts, n, false⟩ (tokPushes e f.tk) = t.stepped 4 n (acts ++ (tokPushes e f.tk).map .token) := by
    intro t
    unfold Strand.issued Strand.stepped
    simp only [countDown]
    cases acts ++ (tokPushes e f.tk).map Landing.token <;> simp
  rw [this]

/-- Popping tokens, when they are there. -/
theorem popTokens_eq (s : State) (e : Eng) (f : E64) : s.setWk (s.wk.popTokens (tokPops e f.tk)) = s.popped e f := rfl

theorem popped_wk (s : State) (e : Eng) (f : E64) : (s.popped e f).wk = s.wk.popTokens (tokPops e f.tk) := by
  rw [← popTokens_eq, setWk_wk]

theorem popTokens_fields (l : List TokQ) (w : Worker) :
    ∃ x, w.popTokens l = { w with tokens := x } := by
  induction l generalizing w with
  | nil => exact ⟨w.tokens, rfl⟩
  | cons q r ih =>
    obtain ⟨x, hx⟩ := ih (w.setTokens q (w.tokensIn q - 1))
    exact ⟨x, by show Worker.popTokens _ r = _; rw [hx]; rfl⟩

theorem popTokens_strands (l : List TokQ) (w : Worker) : (w.popTokens l).strands = w.strands := by
  obtain ⟨x, hx⟩ := popTokens_fields l w; rw [hx]

/-- An engine instruction that executes (R23, R30). -/
theorem runE64_afterE {e : Eng} {f : E64} {on off : M Issue} {s t : State} {i : Issue} (h : Turn.Ready e s)
    (htok : ∀ q ∈ tokPops e f.tk, 0 < s.wk.tokensIn q) (hg : s.view.guard f.g = true) (hl : i.last = false) (ho : on (s.gained e f) = .ok (i, t)) :
    runE64 e f on off s = .next (t.afterE e f i.shadow i.acts) := by
  rw [runE64_on h.live h.turn h.room htok hg ho]
  obtain ⟨a, n, l⟩ := i
  simp only at hl; subst hl
  have := issuedE_eq (t.popped e f) e f a n
  rw [popped_wk] at this
  unfold State.afterE
  rw [← this, ← popTokens_eq, setWk_setWk]

/-- An engine instruction that is guarded off (R30). -/
theorem runE64_afterOff {e : Eng} {f : E64} {on off : M Issue} {s t : State} {i : Issue} (h : Turn.Ready e s)
    (htok : ∀ q ∈ tokPops e f.tk, 0 < s.wk.tokensIn q) (hg : s.view.guard f.g = false) (hl : i.last = false) (ho : off (s.gained e f) = .ok (i, t)) :
    runE64 e f on off s = .next (t.afterE e f i.shadow i.acts) := by
  rw [runE64_off h.live h.turn h.room htok hg ho]
  obtain ⟨a, n, l⟩ := i
  simp only at hl; subst hl
  have := issuedE_eq (t.popped e f) e f a n
  rw [popped_wk] at this
  unfold State.afterE
  rw [← this, ← popTokens_eq, setWk_setWk]

theorem memberOnly_yes {s : State} {g : Nat} (h : (nth 0 s.ln.groups g).testBit s.wk.wid = true) : memberOnly g s = .ok ((), s) := by
  unfold memberOnly
  have : (s.ln.members g).testBit s.wk.wid = true := h
  simp [m_bind, this]

theorem memberOnly_no {s : State} {g : Nat} (h : (nth 0 s.ln.groups g).testBit s.wk.wid = false) : memberOnly g s = .error (.trap ⟨0x0E, 0, 3, none⟩) := by
  unfold memberOnly
  have : (s.ln.members g).testBit s.wk.wid = false := h
  simp [m_bind, this]

theorem wait_issue {s u : State} {g : Guard} {on : M (Option Issue)} (h : Turn.Ready .S s) (hg : s.view.guard g = true)
    (hu : u.curEng = .S) (ho : on s = .ok (some .none, u)) :
    runOwn .S (issueWait 2 g on) s = .next ((u.setSt { u.st with wait := none }).afterS 2 0 []) := by
  refine runOwn_ok h.live h.turn ?_
  unfold issueWait
  have hr : s.st.room = true := decide_eq_true h.room
  have hg' : s.st.view.guard g = true := hg
  simp only [m_bind, m_look, hr, m_await_true, hg', if_true, ho, m_change]
  congr 2
  unfold State.afterS State.setSt State.modSt State.setSt
  simp only [setWk_wk, setWk_setWk, hu, Issue.none, stepped_eq, State.st]
  simp [Worker.setStrand, Five.get, Five.set]

theorem wait_stay {s u : State} {g : Guard} {on : M (Option Issue)} (h : Turn.Ready .S s) (hg : s.view.guard g = true)
    (ho : on s = .ok (none, u)) : runOwn .S (issueWait 2 g on) s = .next u := by
  refine runOwn_ok h.live h.turn ?_
  unfold issueWait
  have hr : s.st.room = true := decide_eq_true h.room
  have hg' : s.st.view.guard g = true := hg
  simp only [m_bind, m_look, hr, m_await_true, hg', if_true, ho]
  rfl

theorem wait_trap {s : State} {g : Guard} {on : M (Option Issue)} {x : Trap} (h : Turn.Ready .S s) (hg : s.view.guard g = true)
    (ho : on s = .error (.trap x)) : runOwn .S (issueWait 2 g on) s = .next (s.takeTrap .S s.st.pc x) := by
  rw [runOwn_trap h.live h.turn (x := x), h.turn]
  unfold issueWait
  have hr : s.st.room = true := decide_eq_true h.room
  have hg' : s.st.view.guard g = true := hg
  simp only [m_bind, m_look, hr, m_await_true, hg', if_true, ho]

/-- Everything that an S instruction can do: go on after its action or its off form, wait, trap or report a machine check. -/
theorem runS_cases {len : Nat} {g : Guard} {on : M Issue} {s t : State} (h : runS len (some g) on M.nothing s = .next t) :
    t = s ∨ s.live = true ∧ s.curEng = .S ∧ (t = s.afterS len 0 [] ∨ 
      (∃ i u, on s = .ok (i, u) ∧ t = u.setWk (u.wk.setStrand .S (u.wk.strands.s.issued len i []))) ∨
      ∃ x, on s = .error x ∧ x ≠ .stall) := by
  by_cases hl : s.live = true
  swap
  · simp [runS, runOwn, hl] at h
  by_cases he : s.curEng = .S
  swap
  · simp [runS, runOwn, hl, he] at h
  by_cases hr : s.st.pend.length < 32
  swap
  · left
    have : s.st.room = false := decide_eq_false hr
    simp only [runS, runOwn, hl, he, if_true, issueS, m_bind, m_look, this, m_await_false, settleStop] at h
    injection h with h; exact h.symm
  by_cases hg : s.view.guard g = true
  · cases ho : on s with
    | ok r =>
      obtain ⟨i, u⟩ := r
      rw [runS_on hl he hr (by simpa using hg) ho] at h
      injection h with h
      exact .inr ⟨hl, he, .inr (.inl ⟨i, u, rfl, h.symm⟩)⟩
    | error x =>
      by_cases hx : x = .stall
      · subst hx
        left
        rw [runS, runOwn_stall hl he (issueS_error hr (by simpa using hg) ho)] at h
        injection h with h; exact h.symm
      · exact .inr ⟨hl, he, .inr (.inr ⟨x, rfl, hx⟩)⟩
  · simp only [Bool.not_eq_true] at hg
    rw [runS_inert ⟨hl, he, hr⟩ hg] at h
    injection h with h
    exact .inr ⟨hl, he, .inl h.symm⟩

theorem worker?_setWk_ne (s : State) (w : Worker) (k : Nat) (h : k ≠ s.curKey) : (s.setWk w).worker? k = s.worker? k := by
  unfold State.setWk State.putWorker State.worker?
  exact tabFind_put_ne _ _ _ _ h

theorem same_of {s : State} {w : Worker} (h : w = { s.wk with sregs := w.sregs, strands := w.strands }) :
    Same.Outside s (s.setWk w) :=
  ⟨rfl, fun k hk => worker?_setWk_ne s w k hk, by rw [setWk_wk]; exact h⟩

theorem same_refl (s : State) : Same.Outside s s := ⟨rfl, fun _ _ => rfl, rfl⟩

theorem afterS_eq (s : State) (len : Nat) : s.afterS len 0 [] = s.setWk (s.wk.setStrand .S (s.wk.strands.s.stepped len 0 [])) := rfl

end Sys2Proof.Machine
end

