-- ==== Sys2Proof/Laws/Order.lean ====
section
/-! SUPPORT. The order of accesses: what a look, a mark, an acquire and a release can do (R260 to R268). Each changes the one part
named here and nothing else. -/
namespace Sys2Proof.Machine

/-! ## Looking -/

/-- With no record of its line, a place reads as memory holds it. -/
theorem look_clear {s : State} (r : Reader) (p : Place) (n : Nat) (h : s.writes = []) : s.look r p n = s.readPlace p n := by
  unfold State.look
  split
  · rfl
  · simp [State.lineLog, h]

/-- Records that an agent sees all count. -/
theorem counted_all {f : Write → Bool} (b : Bool) (l : List Write) (h : ∀ u ∈ l, f u = true) : counted f b l = l := by
  induction l generalizing b with
  | nil => rfl
  | cons u r ih => simp [counted, h u (by simp), ih _ fun v hv => h v (by simp [hv])]

/-- What counts was recorded. -/
theorem mem_counted {f : Write → Bool} (b : Bool) (l : List Write) : ∀ u ∈ counted f b l, u ∈ l := by
  induction l generalizing b with
  | nil => simp [counted]
  | cons u r ih =>
    intro v hv
    unfold counted at hv
    split at hv
    · rcases List.mem_cons.1 hv with rfl | hv
      · simp
      · exact List.mem_cons_of_mem _ (ih _ v hv)
    · exact List.mem_cons_of_mem _ (ih _ v hv)

/-- The records that count, as the statements name them. -/
theorem counted_kept {f : Write → Bool} (b : Bool) (l : List Write) : Kept f b l (counted f b l) := by
  induction l generalizing b with
  | nil => exact .none b
  | cons u r ih =>
    unfold counted
    have e : ∀ u : Write, ((f u || (b && !u.edit.isAdd)) = true) ↔ (f u = true ∨ b = true ∧ u.edit.isAdd = false) := by
      intro u; simp
    split <;> rename_i h
    · exact .keep b u ((e u).1 h) (ih _)
    · exact .miss b u (fun g => h ((e u).2 g)) (ih _)

/-- What a reader finds is something that it may find. -/
theorem look_mayFind (s : State) (a : Reader) (p : Place) (n : Nat) : s.mayFind a p n (s.look a p n) := by
  unfold State.mayFind State.look
  cases hp : p.line? with
  | none => rfl
  | some y =>
    obtain ⟨x, l, b⟩ := y
    simp only
    cases hl : (s.lineLog x l).getLast? with
    | none =>
      have : s.lineLog x l = [] := by simpa using hl
      simp [this]
    | some u0 =>
      have : (s.lineLog x l).isEmpty = false := by
        cases h : s.lineLog x l with
        | nil => simp [h] at hl
        | cons => rfl
      simp only [this, Bool.false_eq_true, if_false]
      refine ⟨s.sees a, _, ?_, counted_kept _ _, ?_⟩
      · intro u _ hu; simp [State.sees, hu]
      · simp only [State.lineSeen, hl, bits, Nat.shiftRight_eq_div_pow]

/-- What the strand in turn loads is something that it may see. -/
theorem loads_maySee (s : State) (p : Place) (n : Nat) : s.maySee p n (s.loads p n) := look_mayFind s _ p n

/-! ## Marks -/

theorem markSeen_same (s : State) (w : Who) (l : List Nat) : s.markSeen w l = { s with writes := (s.markSeen w l).writes } := by
  unfold State.markSeen; split <;> rfl

theorem looked_same (s : State) (r : Reader) (p : Place) (n : Nat) :
    s.looked r p n = { s with writes := (s.looked r p n).writes } := by
  unfold State.looked; split
  · rfl
  · exact markSeen_same _ _ _

theorem lookedNewest_same (s : State) (w : Who) (p : Place) (n : Nat) :
    s.lookedNewest w p n = { s with writes := (s.lookedNewest w p n).writes } := by
  unfold State.lookedNewest; split
  · rfl
  · exact markSeen_same _ _ _

theorem recordAt_same (s : State) (a : Author) (p : Place) (e : Nat → Edit) :
    s.recordAt a p e = { s with writes := (s.recordAt a p e).writes } := by
  unfold State.recordAt; split <;> rfl

theorem noteWrites_same (a : Author) (ws : List (Place × List (BitVec 8))) : ∀ s : State,
    s.noteWrites a ws = { s with writes := (s.noteWrites a ws).writes } := by
  induction ws with
  | nil => intro s; rfl
  | cons w r ih =>
    intro s
    have : s.noteWrites a (w :: r) = (s.recordAt a w.1 (putBytesEdit w.2)).noteWrites a r := rfl
    rw [this, ih, recordAt_same]

theorem noteCells_same (l : List (Nat × Edit)) : ∀ s : State, s.noteCells l = { s with writes := (s.noteCells l).writes } := by
  induction l with
  | nil => intro s; rfl
  | cons e r ih =>
    intro s
    have : s.noteCells (e :: r) = (s.record s.strandAuthor .rc (.cell s.curKey) e.1 e.2).noteCells r := rfl
    rw [this, ih]; rfl

theorem noteDone_same (s : State) (x : Spot) (a : Nat) (l : List (BitVec 8)) :
    s.noteDone x a l = { s with writes := (s.noteDone x a l).writes } := by
  unfold State.noteDone
  split
  · rfl
  · generalize lineParts a l = ps
    clear * - ps
    induction ps generalizing s with
    | nil => rfl
    | cons p r ih =>
      simp only [List.foldl_cons]
      split
      · exact ih s
      · rw [ih]; rfl

/-! ## Releases and acquires -/

theorem releaseTo_same (s : State) (key : Nat) (e : Eng) (pos scope : Nat) (un : Bool) :
    s.releaseTo key e pos scope un = { s with writes := (s.releaseTo key e pos scope un).writes } := by
  unfold State.releaseTo; split <;> rfl

/-- A release with no write to carry changes nothing. -/
theorem releaseTo_clear {s : State} (key : Nat) (e : Eng) (pos scope : Nat) (un : Bool) (h : s.writes = []) :
    s.releaseTo key e pos scope un = s := by
  unfold State.releaseTo
  split
  · rfl
  · cases s; simp_all

@[simp] theorem acquire_tick (s : State) (n : Nat) : (s.acquire n).tick = s.tick := rfl
@[simp] theorem acquire_curKey (s : State) (n : Nat) : (s.acquire n).curKey = s.curKey := rfl
@[simp] theorem acquire_curEng (s : State) (n : Nat) : (s.acquire n).curEng = s.curEng := rfl
@[simp] theorem acquire_launch (s : State) (n l : Nat) : (s.acquire n).launch l = s.launch l := rfl
@[simp] theorem acquire_wk (s : State) (n : Nat) :
    (s.acquire n).wk = s.wk.setStrand s.curEng { s.st with acq := s.st.acq.take n s.tick } := by
  simp [State.acquire, State.modSt, State.setSt]
@[simp] theorem acquire_st (s : State) (n : Nat) : (s.acquire n).st = { s.st with acq := s.st.acq.take n s.tick } := by
  simp [State.acquire, State.modSt, State.setSt]
@[simp] theorem acquire_view (s : State) (n : Nat) : (s.acquire n).view = s.view := by
  simp only [State.view, acquire_st]

/-! ## Popping tokens (R24) -/

theorem gained_none {s : State} {e : Eng} {f : E64} (h : tokPops e f.tk = []) : s.gained e f = s := by
  simp [State.gained, h]

@[simp] theorem gained_tick (s : State) (e : Eng) (f : E64) : (s.gained e f).tick = s.tick := by unfold State.gained; split <;> rfl
@[simp] theorem gained_curKey (s : State) (e : Eng) (f : E64) : (s.gained e f).curKey = s.curKey := by
  unfold State.gained; split <;> rfl
@[simp] theorem gained_curEng (s : State) (e : Eng) (f : E64) : (s.gained e f).curEng = s.curEng := by
  unfold State.gained; split <;> rfl
@[simp] theorem gained_launch (s : State) (e : Eng) (f : E64) (l : Nat) : (s.gained e f).launch l = s.launch l := by
  unfold State.gained; split <;> rfl
@[simp] theorem gained_view (s : State) (e : Eng) (f : E64) : (s.gained e f).view = s.view := by unfold State.gained; split <;> simp
@[simp] theorem gained_sregs (s : State) (e : Eng) (f : E64) : (s.gained e f).wk.sregs = s.wk.sregs := by
  unfold State.gained; split <;> simp
@[simp] theorem gained_vregs (s : State) (e : Eng) (f : E64) : (s.gained e f).wk.vregs = s.wk.vregs := by
  unfold State.gained; split <;> simp
@[simp] theorem gained_masks (s : State) (e : Eng) (f : E64) : (s.gained e f).wk.masks = s.wk.masks := by
  unfold State.gained; split <;> simp

theorem gained_mget (s : State) (e : Eng) (f : E64) (m : Nat) : (s.gained e f).wk.mget m = s.wk.mget m := by
  unfold Worker.mget; rw [gained_masks]

end Sys2Proof.Machine
end

