-- ==== Sys2Proof/Laws/Access.lean ====
section
/-! SUPPORT. Accesses: where an address lies, when it is refused, what a read finds and a write leaves (R59 step 8, R97). -/
namespace Sys2Proof.Machine
open Sys2Proof

theorem spad_window (s : State) (off n : Nat) (h : off + n ≤ 0x80000) (hn : 0 < n) :
    inWindows (0x1F0 * 2 ^ 48 + off) = true ∧
    windowPlace (s.cxOf s.wk) (0x1F0 * 2 ^ 48 + off) = some (.spad (workerKey s.wk.lid s.wk.wid) off) := by
  have h1 : (0x1F0 * 2 ^ 48 + off) >>> 48 = 0x1F0 := by rw [Nat.shiftRight_eq_div_pow]; omega
  have h2 : (0x1F0 * 2 ^ 48 + off) % 2 ^ 48 = off := by omega
  constructor
  · simp only [inWindows, h1]; decide
  · unfold windowPlace
    rw [h1, h2]
    simp only
    rw [if_pos (by omega)]
    rfl

theorem ok_access {α : Type} (addr : Nat) (slot : Option Nat) (a : α) (s : State) : (M.access addr slot (.ok a) : M α) s = .ok (a, s) := rfl

theorem fault_access {α : Type} (addr c : Nat) (slot : Option Nat) (s : State) : (M.access addr slot (.error (.fault c)) : M α) s = .error (.trap ⟨c, 0, addr, slot⟩) := rfl

/-- An access that lies in a window. -/
theorem placeOf_window {s : State} {va size : Nat} {acc : Acc} {slot : Option Nat} {rights : Place → Bool} {p : Place} {ag : Agent}
    (h1 : inWindows va = true) (h2 : windowPlace (s.cxOf s.wk) va = some p) (h3 : rights p = true) (h4 : va % size = 0) :
    placeOf ag va size acc slot rights (.ok ()) s = .ok (p, s) := by
  have h5 : ¬ 2 ^ 57 ≤ va := by
    intro h
    unfold inWindows at h1
    rw [Nat.shiftRight_eq_div_pow] at h1
    simp only [Bool.and_eq_true, decide_eq_true_eq] at h1
    omega
  unfold placeOf placeIn
  simp only [m_bind, m_look, id_eq, windowOf, h5, if_false, h1, if_true, h2, h3, ok_access, aligned, h4, m_pure]

/-- An access that is translated. -/
theorem placeOf_phys {s u : State} {va size : Nat} {acc : Acc} {slot : Option Nat} {rights : Place → Bool} {p : Phys} {ag : Agent}
    (h0 : va < 2 ^ 57) (h1 : inWindows va = false) (h4 : va % size = 0) (h5 : s.resolve ag (s.cxOf s.wk) va acc = .ok (p, u)) :
    placeOf ag va size acc slot rights (.ok ()) s = .ok (.phys p, u) := by
  unfold placeOf placeIn
  simp only [m_bind, m_look, id_eq, windowOf, not_le.2 h0, if_false, h1, Bool.false_eq_true, ok_access, aligned, h4, if_true, m_pure, h5, m_change]

theorem detect_window {s : State} {va n : Nat} {slot : Option Nat} {st : Bool} {p : Place} (hp : ∀ q, p ≠ .phys q) :
    detectAt va slot st p n s = .ok ((), s) := by
  unfold detectAt detectIn
  have : sectorsOf p n = [] := by cases p <;> first | rfl | exact absurd rfl (hp _)
  simp only [m_bind, m_look, id_eq, this, List.isEmpty_nil, Bool.or_true, if_true, m_pure]

theorem detect_nondet {s : State} {va n : Nat} {slot : Option Nat} {st : Bool} {p : Place} (hp : s.ln.det = false) :
    detectAt va slot st p n s = .ok ((), s) := by
  unfold detectAt detectIn
  have : (s.launch s.wk.lid).det = false := hp
  simp only [m_bind, m_look, id_eq, this, Bool.not_false, Bool.true_or, if_true, m_pure]

/-- A load whose bytes hold no uncorrectable error (R267, R332). -/
theorem readAt_ok {s : State} {p : Place} {n : Nat} (h : s.readCheck p n = none) :
    readAt p n s = .ok (s.loads p n, (s.loaded p n).noteRead p n) := by
  unfold readAt
  simp only [m_bind, m_look, id_eq, h, m_change, m_pure]

/-- A read of the newest bytes (R261). -/
theorem readNewest_ok {s : State} {p : Place} {n : Nat} (h : s.readCheck p n = none) :
    readNewest p n s =
      .ok (s.readPlace p n, ((s.lookedNewest (strandWho s.curKey s.curEng) p n).accessed p).noteRead p n) := by
  unfold readNewest
  simp only [m_bind, m_look, id_eq, h, m_change, m_pure]

/-- A write that meets no error (R267, R332). -/
theorem writeAs_ok {s : State} {a : Author} {ws : List (Place × List (BitVec 8))} (h : s.writeCheck ws = none) :
    writeAs a ws s = .ok ((), (s.noteWrites a ws).writeAll ws) := by
  unfold writeAs
  simp only [m_bind, m_look, id_eq, h, m_change]

/-- A strand's store that meets no error. -/
theorem storeAllM_ok {s : State} {ws : List (Place × List (BitVec 8))} (h : s.writeCheck ws = none) :
    storeAllM ws s =
      .ok ((), ws.foldl (fun s w => s.accessed w.1) ((s.noteWrites s.strandAuthor ws).writeAll ws)) := by
  unfold storeAllM
  simp only [m_bind, m_look, id_eq, writeAs_ok h, m_change]

theorem flushAll_workers (s : State) : s.flushAllPool.workers = s.workers := rfl

theorem fill_workers (s : State) (ag : Agent) (e : TlbEntry) (l : List WalkEntry) : (s.fill ag e l).workers = s.workers ∧ (s.fill ag e l).launches = s.launches ∧
    (s.fill ag e l).curKey = s.curKey ∧ (s.fill ag e l).mem = s.mem ∧ (s.fill ag e l).poolDirty = s.poolDirty := by
  cases ag <;> exact ⟨rfl, rfl, rfl, rfl, rfl⟩

theorem noteWalk_same (s : State) (ag : Agent) (cx : Cx) (va : Nat) (l : List WalkEntry) :
    (s.noteWalk ag cx va l).workers = s.workers ∧ (s.noteWalk ag cx va l).launches = s.launches ∧
    (s.noteWalk ag cx va l).curKey = s.curKey ∧ (s.noteWalk ag cx va l).mem = s.mem ∧ (s.noteWalk ag cx va l).poolDirty = s.poolDirty := by
  have key : ∀ (r : List Nat) (s : State),
      (r.foldl (fun s a => s.correct a 8) s).workers = s.workers ∧ (r.foldl (fun s a => s.correct a 8) s).launches = s.launches ∧
      (r.foldl (fun s a => s.correct a 8) s).curKey = s.curKey ∧ (r.foldl (fun s a => s.correct a 8) s).mem = s.mem ∧
      (r.foldl (fun s a => s.correct a 8) s).poolDirty = s.poolDirty := by
    intro r
    induction r with
    | nil => intro s; exact ⟨rfl, rfl, rfl, rfl, rfl⟩
    | cons a r ih => intro s; exact ih (s.correct a 8)
  exact key _ s

theorem resolve_same {s u : State} {ag : Agent} {cx : Cx} {va : Nat} {acc : Acc} {p : Phys} (h : s.resolve ag cx va acc = .ok (p, u)) :
    u.workers = s.workers ∧ u.launches = s.launches ∧ u.curKey = s.curKey ∧ u.mem = s.mem ∧ u.poolDirty = s.poolDirty := by
  unfold State.resolve at h
  split at h
  · exact absurd h (by simp)
  · simp only [Except.ok.injEq, Prod.mk.injEq] at h
    obtain ⟨_, rfl⟩ := h
    split
    · rename_i l _ _ _ _
      obtain ⟨h1, h2, h3, h4, h5⟩ := noteWalk_same s ag cx va l
      obtain ⟨k1, k2, k3, k4, k5⟩ := fill_workers (s.noteWalk ag cx va l) ag _ l
      exact ⟨k1.trans h1, k2.trans h2, k3.trans h3, k4.trans h4, k5.trans h5⟩
    · exact ⟨rfl, rfl, rfl, rfl, rfl⟩

/-- An engine's write that meets no error. -/
theorem writeAllM_ok {s : State} {ws : List (Place × List (BitVec 8))} (h : s.writeCheck ws = none) : writeAllM ws s = .ok ((), s.writeDone ws) := by
  unfold writeAllM
  simp only [m_bind, m_look, id_eq, h, m_change]

/-- An access that names nothing. -/
theorem placeOf_fault {s : State} {va size : Nat} {acc : Acc} {slot : Option Nat} {rights : Place → Bool} {ag : Agent} {c : Nat}
    (h : windowOf (s.cxOf s.wk) rights va = .error (.fault c)) :
    placeOf ag va size acc slot rights (.ok ()) s = .error (.trap ⟨c, 0, va, slot⟩) := by
  unfold placeOf placeIn
  simp only [m_bind, m_look, id_eq, h, fault_access]

theorem placeOf_unaligned {s : State} {va size : Nat} {acc : Acc} {slot : Option Nat} {rights : Place → Bool} {ag : Agent} {o : Option Place}
    (h : windowOf (s.cxOf s.wk) rights va = .ok o) (ha : va % size ≠ 0) :
    placeOf ag va size acc slot rights (.ok ()) s = .error (.trap ⟨0x0A, 0, va, slot⟩) := by
  unfold placeOf placeIn
  simp only [m_bind, m_look, id_eq, h, ok_access, aligned, ha, if_false, fault_access]

theorem placeOf_tlbfault {s : State} {va size : Nat} {acc : Acc} {slot : Option Nat} {rights : Place → Bool} {ag : Agent} {c : Nat}
    (h : windowOf (s.cxOf s.wk) rights va = .ok none) (ha : va % size = 0) (hr : s.resolve ag (s.cxOf s.wk) va acc = .error (.fault c)) :
    placeOf ag va size acc slot rights (.ok ()) s = .error (.trap ⟨c, 0, va, slot⟩) := by
  unfold placeOf placeIn
  simp only [m_bind, m_look, id_eq, h, ok_access, aligned, ha, if_true, hr, fault_access]

theorem tabFind_map (f : Nat × Worker → Worker) (t : Tab Worker) (k : Nat) :
    tabFind (t.map fun e => (e.1, f e)) k = (tabFind t k).map fun w => f (k, w) := by
  induction t with
  | nil => rfl
  | cons a r ih =>
    obtain ⟨j, w⟩ := a
    simp only [List.map_cons, tabFind]
    by_cases h : j = k
    · subst h; simp
    · simp only [h, if_false, ih]

end Sys2Proof.Machine
end

