-- ==== Sys2Proof/Laws/Canonical.lean ====
section
/-! SUPPORT. The operations that every meaning is built from keep the canonical form of the state (`State.Canonical`): one lemma
for each update of a worker, a launch or memory, and one for each way to build an action. -/
namespace Sys2Proof.Machine

/-- A result whose next state, if it has one, is canonical. -/
structure ResultKeeps {α : Type} (r : Except Stop (α × State)) : Prop where
  keeps : ∀ a t, r = .ok (a, t) → t.Canonical
/-- The canonical form of the three parts of a state that carry it. -/
structure PartsCanonical (m d : Memory) (w : Tab Worker) : Prop where
  mem : m.wf = true
  dirty : tabSorted d = true
  workers : tabSorted w = true
  spads : ∀ e ∈ w, e.2.spad.wf = true
theorem PartsCanonical.of {s : State} (h : PartsCanonical s.mem s.poolDirty s.workers) : s.Canonical := ⟨h.1, h.2, h.3, h.4⟩
theorem PartsCanonical.to {s : State} (h : s.Canonical) : PartsCanonical s.mem s.poolDirty s.workers := ⟨h.1, h.2, h.3, h.4⟩

theorem State.Canonical.same {s t : State} (h : s.Canonical) (h1 : t.mem = s.mem) (h2 : t.poolDirty = s.poolDirty) (h3 : t.workers = s.workers) :
    t.Canonical := ⟨h1 ▸ h.mem, h2 ▸ h.dirty, h3 ▸ h.workers, h3 ▸ h.spads⟩

theorem State.Canonical.worker? {s : State} (h : s.Canonical) {k : Nat} {w : Worker} (hw : s.worker? k = some w) : w.spad.wf = true :=
  h.spads _ (mem_of_find _ _ _ hw)

theorem State.Canonical.worker {s : State} (h : s.Canonical) (k : Nat) : (s.worker k).spad.wf = true := by
  unfold State.worker
  cases hw : s.worker? k with
  | none => rfl
  | some w => exact h.worker? hw

theorem State.Canonical.wk {s : State} (h : s.Canonical) : s.wk.spad.wf = true := h.worker _

theorem State.Canonical.put {s : State} (h : s.Canonical) (k : Nat) {w : Worker} (hw : w.spad.wf = true) : (s.putWorker k w).Canonical := by
  refine ⟨h.mem, h.dirty, tabSorted_put _ _ _ h.workers, ?_⟩
  intro e he
  rcases mem_put _ _ _ _ he with rfl | he
  · exact hw
  · exact h.spads e he

theorem State.Canonical.setWk {s : State} (h : s.Canonical) {w : Worker} (hw : w.spad.wf = true) : (s.setWk w).Canonical := h.put _ hw
theorem State.Canonical.modWk {s : State} (h : s.Canonical) {f : Worker → Worker} (hf : (f s.wk).spad.wf = true) : (s.modWk f).Canonical := h.put _ hf
theorem State.Canonical.setSt {s : State} (h : s.Canonical) {t : Strand} : (s.setSt t).Canonical := h.put _ h.wk
theorem State.Canonical.modSt {s : State} (h : s.Canonical) {f : Strand → Strand} : (s.modSt f).Canonical := h.put _ h.wk
theorem State.Canonical.modWorker {s : State} (h : s.Canonical) {k : Nat} {f : Worker → Worker} (hf : ∀ w : Worker, w.spad.wf = true → (f w).spad.wf = true) :
    (s.modWorker k f).Canonical := by
  unfold State.modWorker
  split
  · rename_i w hw; exact h.put _ (hf _ (h.worker? hw))
  · exact h
theorem State.Canonical.putLaunch {s : State} (h : s.Canonical) {k : Nat} {l : Launch} : (s.putLaunch k l).Canonical := h.same rfl rfl rfl
theorem State.Canonical.modLaunch {s : State} (h : s.Canonical) {k : Nat} {f : Launch → Launch} : (s.modLaunch k f).Canonical := by
  unfold State.modLaunch; split
  · exact h.putLaunch
  · exact h

theorem State.Canonical.foldl {β : Type} {s : State} (h : s.Canonical) {l : List β} {f : State → β → State} (hf : ∀ t b, t.Canonical → (f t b).Canonical) :
    (l.foldl f s).Canonical := by
  induction l generalizing s with
  | nil => exact h
  | cons b r ih => exact ih (hf _ _ h)

theorem spad_foldl {β : Type} {w : Worker} (h : w.spad.wf = true) {l : List β} {f : Worker → β → Worker}
    (hf : ∀ t b, t.spad.wf = true → (f t b).spad.wf = true) : (l.foldl f w).spad.wf = true := by
  induction l generalizing w with
  | nil => exact h
  | cons b r ih => exact ih (hf _ _ h)

theorem State.Canonical.correct {s : State} (h : s.Canonical) (a n : Nat) : (s.correct a n).Canonical := by
  exact h.same rfl rfl rfl

theorem State.Canonical.putByte {s : State} (h : s.Canonical) (p : Phys) (a : Nat) (b : BitVec 8) : (s.putByte p a b).Canonical :=
  ⟨putByte_wf s p a b h.mem, putByte_dirty s p a b h.dirty, by rw [putByte_workers]; exact h.workers, by rw [putByte_workers]; exact h.spads⟩

theorem State.Canonical.putBytes {p : Phys} : ∀ {l : List (BitVec 8)} {s : State} {a : Nat}, s.Canonical → (s.putBytes p a l).Canonical
  | [], _, _, h => h
  | b :: r, _, a, h => State.Canonical.putBytes (l := r) (h.putByte p a b)

theorem State.Canonical.fill {s : State} (h : s.Canonical) {ag : Agent} {e : TlbEntry} {l : List WalkEntry} : (s.fill ag e l).Canonical := by
  unfold State.fill; cases ag <;> exact h.same rfl rfl rfl

theorem State.Canonical.noteRead {s : State} (h : s.Canonical) {p : Place} {n : Nat} : (s.noteRead p n).Canonical := by
  unfold State.noteRead; split
  · exact h.correct _ _
  · exact h.same rfl rfl rfl

theorem State.Canonical.writePlace {s : State} (h : s.Canonical) {p : Place} {l : List (BitVec 8)} : (s.writePlace p l).Canonical := by
  unfold State.writePlace; split
  · exact h.modWorker fun w hw => Memory.wf_writeBytes _ _ _ hw
  · exact h.modWorker fun w hw => hw
  · exact h
  · exact h.putBytes

theorem State.Canonical.writeAll {s : State} (h : s.Canonical) {ws : List (Place × List (BitVec 8))} : (s.writeAll ws).Canonical := by
  unfold State.writeAll
  refine State.Canonical.foldl ?_ fun t b ht => ht.writePlace
  exact h.same rfl rfl rfl

theorem State.Canonical.flushPool {s : State} (h : s.Canonical) {lo hi : Nat} : (s.flushPool lo hi).Canonical :=
  ⟨flushPool_wf s lo hi h.mem, flushPool_dirty s lo hi h.dirty, h.workers, h.spads⟩

theorem State.Canonical.noteWalk {s : State} (h : s.Canonical) {ag : Agent} {cx : Cx} {va : Nat} {l : List WalkEntry} :
    (s.noteWalk ag cx va l).Canonical := State.Canonical.foldl h fun _ _ ht => ht.correct _ _

/-- Records of writes are no part of the form. -/
theorem State.Canonical.writes {s t : State} (h : s.Canonical) (e : t = { s with writes := t.writes }) : t.Canonical := by
  rw [e]; exact h.same rfl rfl rfl

theorem State.Canonical.looked {s : State} (h : s.Canonical) {r : Reader} {p : Place} {n : Nat} : (s.looked r p n).Canonical :=
  h.writes (looked_same s r p n)

theorem State.Canonical.lookedNewest {s : State} (h : s.Canonical) {w : Who} {p : Place} {n : Nat} : (s.lookedNewest w p n).Canonical :=
  h.writes (lookedNewest_same s w p n)

theorem State.Canonical.markSeen {s : State} (h : s.Canonical) {w : Who} {l : List Nat} : (s.markSeen w l).Canonical :=
  h.writes (markSeen_same s w l)

theorem State.Canonical.accessed {s : State} (h : s.Canonical) {p : Place} : (s.accessed p).Canonical := by
  unfold State.accessed; split
  · exact h.modSt
  · exact h

theorem State.Canonical.loaded {s : State} (h : s.Canonical) {p : Place} {n : Nat} : (s.loaded p n).Canonical := h.looked.accessed

theorem State.Canonical.noteWrites {s : State} (h : s.Canonical) {a : Author} {ws : List (Place × List (BitVec 8))} :
    (s.noteWrites a ws).Canonical := h.writes (noteWrites_same a ws s)

theorem State.Canonical.noteCells {s : State} (h : s.Canonical) {l : List (Nat × Edit)} : (s.noteCells l).Canonical :=
  h.writes (noteCells_same l s)

theorem State.Canonical.noteEvent {s : State} (h : s.Canonical) {l : List (Nat × Edit)} : (s.noteEvent l).Canonical :=
  State.Canonical.foldl h fun _ _ ht => ht.same rfl rfl rfl

theorem State.Canonical.noteDone {s : State} (h : s.Canonical) {x : Spot} {a : Nat} {l : List (BitVec 8)} : (s.noteDone x a l).Canonical :=
  h.writes (noteDone_same s x a l)

theorem State.Canonical.noteDoneAt {s : State} (h : s.Canonical) {p : Place} {l : List (BitVec 8)} : (s.noteDoneAt p l).Canonical := by
  unfold State.noteDoneAt; split
  · exact h
  · exact h.noteDone

theorem State.Canonical.writeDone {s : State} (h : s.Canonical) {ws : List (Place × List (BitVec 8))} : (s.writeDone ws).Canonical :=
  (State.Canonical.foldl h fun _ _ ht => ht.noteDoneAt).writeAll

theorem State.Canonical.putPhys {s : State} (h : s.Canonical) {a : Nat} {l : List (BitVec 8)} : (s.putPhys a l).Canonical :=
  h.noteDone.putBytes

theorem State.Canonical.sweep {s : State} (h : s.Canonical) {ws : List (Place × List (BitVec 8))} : (s.sweep ws).Canonical :=
  h.same rfl rfl rfl

theorem State.Canonical.mend {s : State} (h : s.Canonical) {f g : LocalSector → Bool} : (s.mend f g).Canonical := h.same rfl rfl rfl

theorem State.Canonical.flushAllPool {s : State} (h : s.Canonical) : s.flushAllPool.Canonical := h.flushPool

theorem State.Canonical.releaseTo {s : State} (h : s.Canonical) {k : Nat} {e : Eng} {n scope : Nat} {un : Bool} :
    (s.releaseTo k e n scope un).Canonical := h.writes (releaseTo_same s k e n scope un)

theorem State.Canonical.releaseAs {s : State} (h : s.Canonical) {scope : Nat} {un : Bool} : (s.releaseAs scope un).Canonical := by
  unfold State.releaseAs; split
  · exact h.releaseTo.flushAllPool
  · exact h.releaseTo

theorem State.Canonical.release {s : State} (h : s.Canonical) {scope : Nat} : (s.release scope).Canonical := h.releaseAs

theorem State.Canonical.acquire {s : State} (h : s.Canonical) {scope : Nat} : (s.acquire scope).Canonical := h.modSt

theorem State.Canonical.performAll {s : State} (h : s.Canonical) {pick : Write → Bool} {scope core : Nat} :
    (s.performAll pick scope core).Canonical := h.same rfl rfl rfl

theorem State.Canonical.performWorker {s : State} (h : s.Canonical) {k scope : Nat} : (s.performWorker k scope).Canonical := h.performAll

theorem State.Canonical.popAcquire {s : State} (h : s.Canonical) {e : Eng} {tk : BitVec 4} : (s.popAcquire e tk).Canonical := by
  unfold State.popAcquire; split
  · exact h
  · exact h.acquire

/-! ## Actions of an instruction -/

/-- An action that from this state can only end in a canonical state. -/
structure Keeps {α : Type} (s : State) (act : M α) : Prop where
  keeps : ∀ a t, act s = .ok (a, t) → t.Canonical

theorem resultKeeps_ok {α : Type} {a : α} {s : State} (h : s.Canonical) : ResultKeeps (.ok (a, s)) := by constructor; intro b t e; cases e; exact h
theorem resultKeeps_error {α : Type} {x : Stop} : ResultKeeps (.error x : Except Stop (α × State)) := by constructor; intro b t e; cases e
theorem keeps_of_result {α : Type} {f : State → Except Stop (α × State)} {s : State} (h : ResultKeeps (f s)) : Keeps s (f : M α) := ⟨h.keeps⟩
theorem keeps_pure {α : Type} {a : α} {s : State} (h : s.Canonical) : Keeps s (pure a : M α) := ⟨(resultKeeps_ok h).keeps⟩
theorem keeps_look_bind {α β : Type} {F : State → α} {f : α → M β} {s : State} (h : Keeps s (f (F s))) : Keeps s (M.look F >>= f) := ⟨h.keeps⟩
theorem keeps_look {α : Type} {F : State → α} {s : State} (h : s.Canonical) : Keeps s (M.look F) := ⟨(resultKeeps_ok h).keeps⟩
theorem keeps_change_bind {β : Type} {F : State → State} {f : Unit → M β} {s : State} (h : Keeps (F s) (f ())) : Keeps s (M.change F >>= f) := ⟨h.keeps⟩
theorem keeps_work_bind {β : Type} {F : Worker → Worker} {f : Unit → M β} {s : State} (h : Keeps (s.modWk F) (f ())) : Keeps s (M.work F >>= f) := ⟨h.keeps⟩
theorem keeps_change {F : State → State} {s : State} (h : (F s).Canonical) : Keeps s (M.change F) := ⟨(resultKeeps_ok h).keeps⟩
theorem keeps_work {F : Worker → Worker} {s : State} (h : (s.modWk F).Canonical) : Keeps s (M.work F) := ⟨(resultKeeps_ok h).keeps⟩
theorem keeps_bind {α β : Type} {x : M α} {f : α → M β} {s : State} (hx : Keeps s x) (hf : ∀ a t, t.Canonical → Keeps t (f a)) : Keeps s (x >>= f) := by
  constructor; intro b t h
  rw [m_bind] at h
  split at h
  · rename_i a u e; exact (hf a u (hx.keeps _ _ e)).keeps _ _ h
  · cases h
theorem keeps_pure_bind {α β : Type} {a : α} {f : α → M β} {s : State} (h : Keeps s (f a)) : Keeps s ((pure a : M α) >>= f) := ⟨h.keeps⟩
theorem keeps_stop {α : Type} {x : Stop} {s : State} : Keeps s (M.stop x : M α) := ⟨resultKeeps_error.keeps⟩
theorem keeps_trap {α : Type} {a b c : Nat} {d : Option Nat} {s : State} : Keeps s (M.trap a b c d : M α) := ⟨resultKeeps_error.keeps⟩
theorem keeps_illegal {α : Type} {a : Nat} {s : State} : Keeps s (M.illegal a : M α) := ⟨resultKeeps_error.keeps⟩
theorem keeps_stall {α : Type} {s : State} : Keeps s (M.stall : M α) := ⟨resultKeeps_error.keeps⟩
theorem keeps_lift {α : Type} {r : Except Stop α} {s : State} (h : s.Canonical) : Keeps s (M.lift r) := by
  refine keeps_of_result ?_; unfold M.lift; split
  · exact resultKeeps_ok h
  · exact resultKeeps_error
theorem keeps_legal {b : Bool} {s : State} (h : s.Canonical) : Keeps s (M.legal b) := by
  cases b
  · exact ⟨resultKeeps_error.keeps⟩
  · exact ⟨(resultKeeps_ok h).keeps⟩
theorem keeps_await {b : Bool} {s : State} (h : s.Canonical) : Keeps s (M.await b) := by
  cases b
  · exact ⟨resultKeeps_error.keeps⟩
  · exact ⟨(resultKeeps_ok h).keeps⟩
theorem keeps_access {α : Type} {n : Nat} {o : Option Nat} {r : Except AErr α} {s : State} (h : s.Canonical) : Keeps s (M.access n o r) := by
  refine keeps_of_result ?_; unfold M.access; repeat' split
  all_goals first | exact resultKeeps_ok h | exact resultKeeps_error
theorem keeps_each {α : Type} {f : α → M Unit} (hf : ∀ a s, s.Canonical → Keeps s (f a)) : ∀ {l : List α} {s : State}, s.Canonical → Keeps s (M.each f l)
  | [], _, h => keeps_pure h
  | a :: r, s, h => keeps_bind (hf a s h) fun _ _ ht => keeps_each hf (l := r) ht
theorem keeps_gather {α β : Type} {f : α → M β} (hf : ∀ a s, s.Canonical → Keeps s (f a)) : ∀ {l : List α} {s : State}, s.Canonical → Keeps s (M.gather f l)
  | [], _, h => keeps_pure h
  | a :: r, s, h => keeps_bind (hf a s h) fun _ _ ht => keeps_bind (keeps_gather hf (l := r) ht) fun _ _ hu => keeps_pure hu

theorem partsCanonical_map {s : State} (h : s.Canonical) {m d : Memory} (hm : m = s.mem) (hd : d = s.poolDirty) {F : Nat × Worker → Worker}
    (hF : ∀ e : Nat × Worker, e.2.spad.wf = true → (F e).spad.wf = true) : PartsCanonical m d (s.workers.map fun e => (e.1, F e)) := by
  subst hm; subst hd
  refine ⟨h.mem, h.dirty, tabSorted_map _ _ h.workers, ?_⟩
  intro e he
  obtain ⟨x, hx, rfl⟩ := List.mem_map.mp he
  exact hF x (h.spads _ hx)

theorem canonical_of_resolve {s : State} (h : s.Canonical) {ag : Agent} {cx : Cx} {va : Nat} {acc : Acc} {p : Phys} {t : State}
    (e : s.resolve ag cx va acc = .ok (p, t)) : t.Canonical := by
  unfold State.resolve at e
  split at e
  · cases e
  · cases e; split
    · exact h.noteWalk.fill
    · exact h

theorem keeps_bind_resolve {β : Type} {s u : State} (h : s.Canonical) {n : Nat} {o : Option Nat} {ag : Agent} {cx : Cx} {va : Nat} {acc : Acc}
    {f : Phys × State → M β} (hf : ∀ r : Phys × State, r.2.Canonical → Keeps u (f r)) :
    Keeps u (M.access n o (s.resolve ag cx va acc) >>= f) := by
  constructor; intro b t e
  rw [m_bind] at e
  unfold M.access at e
  cases hr : s.resolve ag cx va acc with
  | error x => rw [hr] at e; cases x <;> cases e
  | ok r => rw [hr] at e; exact (hf r (canonical_of_resolve h (p := r.1) (t := r.2) hr)).keeps _ _ e

end Sys2Proof.Machine
end

