-- ==== Sys2Proof/Laws/Encoding.lean ====
section
/-! SUPPORT. Fields of encoded words: what the decoder reads of a word that the encoder wrote, and a word from its fields (R47
to R54). -/
namespace Sys2Proof
open Sys2Proof.Machine

/-- The fields of a concatenation. -/
theorem cat4_fields {w1 w2 w3 w4 : Nat} (a : BitVec w1) (b : BitVec w2) (c : BitVec w3) (d : BitVec w4) :
    (a ++ b ++ c ++ d).extractLsb' (w2 + w3 + w4) w1 = a ∧ (a ++ b ++ c ++ d).extractLsb' (w3 + w4) w2 = b ∧
    (a ++ b ++ c ++ d).extractLsb' w4 w3 = c ∧ (a ++ b ++ c ++ d).extractLsb' 0 w4 = d := by
  refine ⟨?_, ?_, ?_, ?_⟩
  all_goals
    apply BitVec.eq_of_getLsbD_eq
    intro i hi
    simp only [BitVec.getLsbD_extractLsb', BitVec.getLsbD_append, hi, decide_true, Bool.true_and]
  · rw [if_neg (by omega), if_neg (by omega), if_neg (by omega)]; congr 1; omega
  · rw [if_neg (by omega), if_neg (by omega), if_pos (by omega)]; congr 1; omega
  · rw [if_neg (by omega), if_pos (by omega)]; congr 1; omega
  · rw [if_pos (by omega)]; congr 1; omega

theorem cat3_fields {w1 w2 w3 : Nat} (a : BitVec w1) (b : BitVec w2) (c : BitVec w3) :
    (a ++ b ++ c).extractLsb' (w2 + w3) w1 = a ∧ (a ++ b ++ c).extractLsb' w3 w2 = b ∧
    (a ++ b ++ c).extractLsb' 0 w3 = c := by
  refine ⟨?_, ?_, ?_⟩
  all_goals
    apply BitVec.eq_of_getLsbD_eq
    intro i hi
    simp only [BitVec.getLsbD_extractLsb', BitVec.getLsbD_append, hi, decide_true, Bool.true_and]
  · rw [if_neg (by omega), if_neg (by omega)]; congr 1; omega
  · rw [if_neg (by omega), if_pos (by omega)]; congr 1; omega
  · rw [if_pos (by omega)]; congr 1; omega

theorem cat2_fields {w1 w2 : Nat} (a : BitVec w1) (b : BitVec w2) :
    (a ++ b).extractLsb' w2 w1 = a ∧ (a ++ b).extractLsb' 0 w2 = b := by
  refine ⟨?_, ?_⟩
  all_goals
    apply BitVec.eq_of_getLsbD_eq
    intro i hi
    simp only [BitVec.getLsbD_extractLsb', BitVec.getLsbD_append, hi, decide_true, Bool.true_and]
  · rw [if_neg (by omega)]; congr 1; omega
  · rw [if_pos (by omega)]; congr 1; omega

theorem cat_msb {w : Nat} (g : Bool) (x : BitVec w) : (BitVec.ofBool g ++ x).getLsbD w = g := by
  rw [BitVec.getLsbD_append, if_neg (by omega)]
  cases g <;> simp

/-- The fields of an E64 word are those it was built from (R53). -/
theorem e64Fields_e64 (eng op : Nat) (f : E64) : e64Fields (nth 0 (e64 eng op f) 0) (nth 0 (e64 eng op f) 1) (nth 0 (e64 eng op f) 2) (nth 0 (e64 eng op f) 3) = f := by
  obtain ⟨tk, ⟨gn, gp⟩, m, d, a, b, c⟩ := f
  have h1 := cat4_fields (BitVec.ofNat 3 eng) 0b10#2 (BitVec.ofNat 7 op) tk
  have h2 := cat3_fields (BitVec.ofBool gn) gp m
  have h3 := cat2_fields d a
  have h4 := cat2_fields b c
  show e64Fields (BitVec.ofNat 3 eng ++ 0b10#2 ++ BitVec.ofNat 7 op ++ tk) (BitVec.ofBool gn ++ gp ++ m) (d ++ a) (b ++ c) = _
  unfold e64Fields
  rw [h1.2.2.2, h2.2.1, h2.2.2, h3.1, h3.2, h4.1, h4.2]
  have : (BitVec.ofBool gn ++ gp ++ m).getLsbD 15 = gn := by
    have := cat_msb gn (gp ++ m)
    rw [← this]
    simp only [BitVec.getLsbD_append]
    cases gn <;> simp
  rw [this]

/-- The fields of an S64 word are those it was built from (R50). -/
theorem s64Fields_s64 (op : Nat) (f : S64) : s64Fields (nth 0 (s64 op f) 0) (nth 0 (s64 op f) 1) (nth 0 (s64 op f) 2) (nth 0 (s64 op f) 3) = f := by
  obtain ⟨⟨gn, gp⟩, d, a, m, imm⟩ := f
  have h1 := cat3_fields 0b00010#5 (BitVec.ofNat 7 op) gp
  have h2 := cat4_fields (BitVec.ofBool gn) d a m
  show s64Fields (0b00010#5 ++ BitVec.ofNat 7 op ++ gp) (BitVec.ofBool gn ++ d ++ a ++ m) (imm.extractLsb' 0 16) (imm.extractLsb' 16 16) = _
  unfold s64Fields sGuard
  rw [h1.2.2, h2.2.1, h2.2.2.1, h2.2.2.2]
  have h5 : (BitVec.ofBool gn ++ d ++ a ++ m).getLsbD 15 = gn := by
    simp only [BitVec.getLsbD_append]
    cases gn <;> simp
  have h6 : imm.extractLsb' 16 16 ++ imm.extractLsb' 0 16 = imm := by
    apply BitVec.eq_of_getLsbD_eq
    intro i hi
    simp only [BitVec.getLsbD_extractLsb', BitVec.getLsbD_append]
    by_cases h : i < 16
    · rw [if_pos h]; simp [h]
    · rw [if_neg h]
      have : i - 16 < 16 := by omega
      simp only [this, decide_true, Bool.true_and]; congr 1; omega
  rw [h5, h6]

theorem op7 (n : Nat) (h : n < 128) : (BitVec.ofNat 7 n).toNat = n := by
  rw [BitVec.toNat_ofNat]; omega

theorem e64_p0 (eng op : Nat) (f : E64) (h1 : eng < 8) (h2 : op < 128) :
    engOf (nth 0 (e64 eng op f) 0) = eng ∧ lenOf (nth 0 (e64 eng op f) 0) = some 4 ∧ ((nth 0 (e64 eng op f) 0).extractLsb' 4 7).toNat = op := by
  have h := cat4_fields (BitVec.ofNat 3 eng) 0b10#2 (BitVec.ofNat 7 op) f.tk
  refine ⟨?_, ?_, ?_⟩
  · show ((_ : BitVec _).extractLsb' (2 + 7 + 4) 3).toNat = eng
    rw [show nth 0 (e64 eng op f) 0 = BitVec.ofNat 3 eng ++ 0b10#2 ++ BitVec.ofNat 7 op ++ f.tk from rfl, h.1, BitVec.toNat_ofNat]; omega
  · unfold lenOf
    rw [show nth 0 (e64 eng op f) 0 = BitVec.ofNat 3 eng ++ 0b10#2 ++ BitVec.ofNat 7 op ++ f.tk from rfl,
      show (BitVec.ofNat 3 eng ++ 0b10#2 ++ BitVec.ofNat 7 op ++ f.tk).extractLsb' 11 2 = 0b10#2 from h.2.1]
    rfl
  · rw [show nth 0 (e64 eng op f) 0 = BitVec.ofNat 3 eng ++ 0b10#2 ++ BitVec.ofNat 7 op ++ f.tk from rfl,
      show (BitVec.ofNat 3 eng ++ 0b10#2 ++ BitVec.ofNat 7 op ++ f.tk).extractLsb' 4 7 = BitVec.ofNat 7 op from h.2.2.1]
    exact op7 op h2

/-- ENG of an engine. -/
def engNo : Eng → Nat
  | .S => 0 | .L => 1 | .V => 2 | .M => 3 | .W => 4

theorem judge_ok {e : Eng} {i : Instr} (hw : i.wellFormed = true) : judge e i = .instr i := by
  unfold judge
  unfold Instr.wellFormed at hw
  rw [beq_iff_eq] at hw
  rw [hw]

/-- A well-formed instruction of the E64 format decodes. -/
theorem decode_e64 (e : Eng) (op : Nat) (f : E64) (i : Instr) (he : e ≠ .S)
    (h2 : op < 128) (hi : e64Instr e op f = some i) (hw : i.wellFormed = true) : decodeParcels (e64 (engNo e) op f) = .instr i := by
  obtain ⟨a1, a2, a3⟩ := e64_p0 (engNo e) op f (by cases e <;> decide) h2
  have hf := e64Fields_e64 (engNo e) op f
  show decode (nth 0 (e64 (engNo e) op f) 0) (nth 0 (e64 (engNo e) op f) 1) (nth 0 (e64 (engNo e) op f) 2) (nth 0 (e64 (engNo e) op f) 3) = _
  generalize nth 0 (e64 (engNo e) op f) 0 = p0 at *
  generalize nth 0 (e64 (engNo e) op f) 1 = p1 at *
  generalize nth 0 (e64 (engNo e) op f) 2 = p2 at *
  generalize nth 0 (e64 (engNo e) op f) 3 = p3 at *
  have hE : engine p0 = some e := by
    unfold engine; rw [a1]
    cases e <;> rfl
  have hL : formatLegal p0 = true := by
    unfold formatLegal; rw [a1, a2]
    cases e <;> rfl
  have hr : rawInstr p0 p1 p2 p3 = some i := by
    unfold rawInstr
    dsimp only
    rw [hE, hf, a3]
    cases e <;> first | exact hi | exact absurd rfl he
  unfold decode
  rw [if_pos hL, hr]
  exact judge_ok hw

theorem s64_p0 (op : Nat) (f : S64) (h2 : op < 128) :
    engOf (nth 0 (s64 op f) 0) = 0 ∧ lenOf (nth 0 (s64 op f) 0) = some 4 ∧ ((nth 0 (s64 op f) 0).extractLsb' 4 7).toNat = op := by
  have h := cat4_fields 0b000#3 0b10#2 (BitVec.ofNat 7 op) f.g.gp
  have h0 : nth 0 (s64 op f) 0 = 0b000#3 ++ 0b10#2 ++ BitVec.ofNat 7 op ++ f.g.gp := rfl
  rw [h0]
  refine ⟨?_, ?_, ?_⟩
  · show ((_ : BitVec _).extractLsb' (2 + 7 + 4) 3).toNat = 0
    rw [h.1]; rfl
  · unfold lenOf
    rw [show (0b000#3 ++ 0b10#2 ++ BitVec.ofNat 7 op ++ f.g.gp).extractLsb' 11 2 = 0b10#2 from h.2.1]
    rfl
  · rw [show (0b000#3 ++ 0b10#2 ++ BitVec.ofNat 7 op ++ f.g.gp).extractLsb' 4 7 = BitVec.ofNat 7 op from h.2.2.1]
    exact op7 op h2

/-- A well-formed instruction of the S64 format decodes. -/
theorem decode_s64 (op : Nat) (f : S64) (i : Instr) (h2 : op < 128) (hi : s64Instr op f = some i) (hw : i.wellFormed = true) :
    decodeParcels (s64 op f) = .instr i := by
  obtain ⟨a1, a2, a3⟩ := s64_p0 op f h2
  have hf := s64Fields_s64 op f
  show decode (nth 0 (s64 op f) 0) (nth 0 (s64 op f) 1) (nth 0 (s64 op f) 2) (nth 0 (s64 op f) 3) = _
  generalize nth 0 (s64 op f) 0 = p0 at *
  generalize nth 0 (s64 op f) 1 = p1 at *
  generalize nth 0 (s64 op f) 2 = p2 at *
  generalize nth 0 (s64 op f) 3 = p3 at *
  have hE : engine p0 = some .S := by unfold engine; rw [a1]; rfl
  have hL : formatLegal p0 = true := by unfold formatLegal; rw [a1, a2]; rfl
  have hr : rawInstr p0 p1 p2 p3 = some i := by
    unfold rawInstr
    dsimp only
    rw [hE, hf, a3, a2]
    exact hi
  unfold decode
  rw [if_pos hL, hr]
  exact judge_ok hw

theorem s32_p0 (op : Nat) (gp : BitVec 4) (h2 : op < 128) :
    let p0 : Parcel := 0b00001#5 ++ BitVec.ofNat 7 op ++ gp
    engOf p0 = 0 ∧ lenOf p0 = some 2 ∧ (p0.extractLsb' 4 7).toNat = op ∧ p0.extractLsb' 0 4 = gp := by
  have h := cat4_fields 0b000#3 0b01#2 (BitVec.ofNat 7 op) gp
  have h0 : (0b00001#5 ++ BitVec.ofNat 7 op ++ gp : Parcel) = 0b000#3 ++ 0b01#2 ++ BitVec.ofNat 7 op ++ gp := rfl
  dsimp only
  rw [h0]
  refine ⟨?_, ?_, ?_, h.2.2.2⟩
  · show ((_ : BitVec _).extractLsb' (2 + 7 + 4) 3).toNat = 0
    rw [h.1]; rfl
  · unfold lenOf
    rw [show (0b000#3 ++ 0b01#2 ++ BitVec.ofNat 7 op ++ gp).extractLsb' 11 2 = 0b01#2 from h.2.1]
    rfl
  · rw [show (0b000#3 ++ 0b01#2 ++ BitVec.ofNat 7 op ++ gp).extractLsb' 4 7 = BitVec.ofNat 7 op from h.2.2.1]
    exact op7 op h2

/-- A well-formed instruction of the S32 format decodes. -/
theorem decode_s32w (op : Nat) (g : Guard) (p1 : Parcel) (i : Instr) (h2 : op < 128) (hg : p1.getLsbD 15 = g.gn)
    (hi : s32Instr op g p1 = some i) (hw : i.wellFormed = true) :
    decodeParcels [0b00001#5 ++ BitVec.ofNat 7 op ++ g.gp, p1] = .instr i := by
  obtain ⟨a1, a2, a3, a4⟩ := s32_p0 op g.gp h2
  show decode (0b00001#5 ++ BitVec.ofNat 7 op ++ g.gp) p1 0 0 = _
  generalize (0b00001#5 ++ BitVec.ofNat 7 op ++ g.gp : Parcel) = p0 at *
  have hE : engine p0 = some .S := by unfold engine; rw [a1]; rfl
  have hL : formatLegal p0 = true := by unfold formatLegal; rw [a1, a2]; rfl
  have hG : sGuard p0 p1 = g := by unfold sGuard; rw [hg, a4]
  have hr : rawInstr p0 p1 0 0 = some i := by
    unfold rawInstr
    dsimp only
    rw [hE, a3, a2, hG]
    exact hi
  unfold decode
  rw [if_pos hL, hr]
  exact judge_ok hw

theorem p1_fields (gn : Bool) (d a b : BitVec 5) :
    let p1 : Parcel := BitVec.ofBool gn ++ d ++ a ++ b
    p1.getLsbD 15 = gn ∧ p1.extractLsb' 10 5 = d ∧ p1.extractLsb' 5 5 = a ∧ p1.extractLsb' 0 5 = b := by
  have h := cat4_fields (BitVec.ofBool gn) d a b
  refine ⟨?_, h.2.1, h.2.2.1, h.2.2.2⟩
  show (BitVec.ofBool gn ++ d ++ a ++ b).getLsbD 15 = gn
  simp only [BitVec.getLsbD_append]
  cases gn <;> simp

theorem p1i_fields (gn : Bool) (d : BitVec 5) (i : BitVec 10) :
    let p1 : Parcel := BitVec.ofBool gn ++ d ++ i
    p1.getLsbD 15 = gn ∧ p1.extractLsb' 10 5 = d ∧ p1.extractLsb' 0 10 = i := by
  have h := cat3_fields (BitVec.ofBool gn) d i
  refine ⟨?_, h.2.1, h.2.2⟩
  show (BitVec.ofBool gn ++ d ++ i).getLsbD 15 = gn
  simp only [BitVec.getLsbD_append]
  cases gn <;> simp

theorem sub_fields (gn : Bool) (d : BitVec 5) (p : BitVec 4) (i : BitVec 6) :
    let p1 : Parcel := BitVec.ofBool gn ++ d ++ (p ++ i)
    p1.getLsbD 15 = gn ∧ p1.extractLsb' 10 5 = d ∧ p1.extractLsb' 6 4 = p ∧ p1.extractLsb' 0 6 = i := by
  have h := cat4_fields (BitVec.ofBool gn) d p i
  have h0 : (BitVec.ofBool gn ++ d ++ (p ++ i) : Parcel) = BitVec.ofBool gn ++ d ++ p ++ i := by
    apply BitVec.eq_of_getLsbD_eq
    intro k hk
    simp only [BitVec.getLsbD_append]
    by_cases h1 : k < 6
    · simp [h1, show k < 10 by omega]
    · by_cases h2 : k < 10
      · simp [h1, h2, show k - 6 < 4 by omega]
      · simp [h1, h2, show ¬ k - 6 < 4 by omega, show k - 6 - 4 = k - 10 by omega]
  dsimp only
  rw [h0]
  refine ⟨?_, h.2.1, h.2.2.1, h.2.2.2⟩
  simp only [BitVec.getLsbD_append]
  cases gn <;> simp

/-- A well-formed instruction of the C16 format decodes. -/
theorem decode_c16 (op : Nat) (arg : BitVec 6) (i : Instr) (h2 : op < 32) (hi : c16Instr op arg = some i) (hw : i.wellFormed = true) :
    decodeParcels [c16 op arg] = .instr i := by
  have h := cat4_fields 0b000#3 0b00#2 (BitVec.ofNat 5 op) arg
  have h0 : c16 op arg = 0b000#3 ++ 0b00#2 ++ BitVec.ofNat 5 op ++ arg := rfl
  show decode (c16 op arg) 0 0 0 = _
  rw [h0]
  obtain ⟨a1, a2, a3, a4⟩ := h
  have a1' : engOf (0b000#3 ++ 0b00#2 ++ BitVec.ofNat 5 op ++ arg) = 0 := by
    show ((_ : BitVec _).extractLsb' (2 + 5 + 6) 3).toNat = 0
    rw [a1]; rfl
  have a2' : lenOf (0b000#3 ++ 0b00#2 ++ BitVec.ofNat 5 op ++ arg) = some 1 := by
    unfold lenOf
    rw [show (0b000#3 ++ 0b00#2 ++ BitVec.ofNat 5 op ++ arg).extractLsb' 11 2 = 0b00#2 from a2]
    rfl
  have a3' : ((0b000#3 ++ 0b00#2 ++ BitVec.ofNat 5 op ++ arg).extractLsb' 6 5).toNat = op := by
    rw [a3, BitVec.toNat_ofNat]; omega
  generalize (0b000#3 ++ 0b00#2 ++ BitVec.ofNat 5 op ++ arg : Parcel) = p0 at *
  have hE : engine p0 = some .S := by unfold engine; rw [a1']; rfl
  have hL : formatLegal p0 = true := by unfold formatLegal; rw [a1', a2']; rfl
  have hr : rawInstr p0 0 0 0 = some i := by
    unfold rawInstr
    dsimp only
    rw [hE, a2']
    dsimp only
    rw [a3', a4]
    exact hi
  unfold decode
  rw [if_pos hL, hr]
  exact judge_ok hw

theorem c16_fence (k s : BitVec 3) : c16Instr 3 (k ++ s) = some (.fence k s) := by
  have h := cat2_fields k s
  show some (Instr.fence ((k ++ s).extractLsb' 3 3) ((k ++ s).extractLsb' 0 3)) = _
  rw [h.1, h.2]

theorem head_p0 (b : BitVec 11) :
    engOf (0b10101#5 ++ b) = 5 ∧ lenOf (0b10101#5 ++ b) = some 2 ∧ (0b10101#5 ++ b).extractLsb' 0 11 = b := by
  have h := cat3_fields 0b101#3 0b01#2 b
  have h0 : (0b10101#5 ++ b : Parcel) = 0b101#3 ++ 0b01#2 ++ b := rfl
  rw [h0]
  refine ⟨?_, ?_, h.2.2⟩
  · show ((_ : BitVec _).extractLsb' (2 + 11) 3).toNat = 5
    rw [h.1]; rfl
  · unfold lenOf
    rw [show (0b101#3 ++ 0b01#2 ++ b).extractLsb' 11 2 = 0b01#2 from h.2.1]
    rfl

/-- A well-formed headland decodes. -/
theorem decode_headw (b : BitVec 11) (p1 : Parcel) (i : Instr) (hi : headlandInstr (0b10101#5 ++ b) p1 = some i) (hw : i.wellFormed = true) :
    decodeParcels [0b10101#5 ++ b, p1] = .instr i := by
  obtain ⟨a1, a2, a3⟩ := head_p0 b
  show decode (0b10101#5 ++ b) p1 0 0 = _
  generalize (0b10101#5 ++ b : Parcel) = p0 at *
  have hE : engine p0 = none := by unfold engine; rw [a1]; rfl
  have hL : formatLegal p0 = true := by unfold formatLegal; rw [a1, a2]; rfl
  have hr : rawInstr p0 p1 0 0 = some i := by
    unfold rawInstr
    dsimp only
    rw [hE]
    exact hi
  unfold decode
  rw [if_pos hL, hr]
  exact judge_ok hw

theorem ofBool_get (p : Parcel) : BitVec.ofBool (p.getLsbD 15) = p.extractLsb' 15 1 := by
  apply BitVec.eq_of_getLsbD_eq
  intro i hi
  have : i = 0 := by omega
  subst this
  simp

theorem split2 (p : Parcel) (a b : Nat) (h : a + b = 16) : (p.extractLsb' b a ++ p.extractLsb' 0 b).cast h = p := by
  apply BitVec.eq_of_getLsbD_eq
  intro i hi
  simp only [BitVec.getLsbD_cast, BitVec.getLsbD_append, BitVec.getLsbD_extractLsb']
  by_cases h1 : i < b
  · simp [h1]
  · simp only [if_neg h1, show i - b < a by omega, decide_true, Bool.true_and]; congr 1; omega

theorem split4 (p : Parcel) (a b c d : Nat) (h : a + b + c + d = 16) :
    (p.extractLsb' (b + c + d) a ++ p.extractLsb' (c + d) b ++ p.extractLsb' d c ++ p.extractLsb' 0 d).cast h = p := by
  apply BitVec.eq_of_getLsbD_eq
  intro i hi
  simp only [BitVec.getLsbD_cast, BitVec.getLsbD_append, BitVec.getLsbD_extractLsb']
  by_cases h1 : i < d
  · simp [h1]
  · by_cases h2 : i - d < c
    · simp only [if_neg h1, h2, if_true, decide_true, Bool.true_and]; congr 1; omega
    · by_cases h3 : i - d - c < b
      · simp only [if_neg h1, if_neg h2, h3, if_true, decide_true, Bool.true_and]; congr 1; omega
      · simp only [if_neg h1, if_neg h2, if_neg h3, show i - d - c - b < a by omega, decide_true, Bool.true_and]; congr 1; omega

/-- The second parcel of an S32R word is rebuilt from its fields. -/
theorem p1_split (p : Parcel) : (BitVec.ofBool (p.getLsbD 15) ++ p.extractLsb' 10 5 ++ p.extractLsb' 5 5 ++ p.extractLsb' 0 5 : Parcel) = p := by
  rw [ofBool_get]; exact split4 p 1 5 5 5 rfl

theorem low10 (p : Parcel) : (p.extractLsb' 0 10) = p.extractLsb' 5 5 ++ p.extractLsb' 0 5 := by
  apply BitVec.eq_of_getLsbD_eq
  intro i hi
  simp only [BitVec.getLsbD_append, BitVec.getLsbD_extractLsb']
  by_cases h1 : i < 5
  · simp [h1, show i < 10 by omega]
  · simp only [if_neg h1, show i - 5 < 5 by omega, show i < 10 by omega, decide_true, Bool.true_and]; congr 1; omega

/-- The second parcel of an S32I word is rebuilt from its fields. -/
theorem p1i_split (p : Parcel) : (BitVec.ofBool (p.getLsbD 15) ++ p.extractLsb' 10 5 ++ p.extractLsb' 0 10 : Parcel) = p := by
  rw [ofBool_get]
  apply BitVec.eq_of_getLsbD_eq
  intro i hi
  simp only [BitVec.getLsbD_append, BitVec.getLsbD_extractLsb']
  by_cases h1 : i < 10
  · simp [h1]
  · by_cases h2 : i - 10 < 5
    · simp only [if_neg h1, h2, if_true, decide_true, Bool.true_and]; congr 1; omega
    · simp only [if_neg h1, if_neg h2, show i - 10 - 5 < 1 by omega, decide_true, Bool.true_and]; congr 1; omega

theorem sub_split (p : Parcel) : (BitVec.ofBool (p.getLsbD 15) ++ p.extractLsb' 10 5 ++ (p.extractLsb' 6 4 ++ p.extractLsb' 0 6) : Parcel) = p := by
  have : (p.extractLsb' 6 4 ++ p.extractLsb' 0 6 : BitVec 10) = p.extractLsb' 0 10 := by
    apply BitVec.eq_of_getLsbD_eq
    intro i hi
    simp only [BitVec.getLsbD_append, BitVec.getLsbD_extractLsb']
    by_cases h1 : i < 6
    · simp [h1, show i < 10 by omega]
    · simp only [if_neg h1, show i - 6 < 4 by omega, show i < 10 by omega, decide_true, Bool.true_and]; congr 1; omega
  rw [this]; exact p1i_split p

theorem ofNat_toNat7 (x : BitVec 7) : BitVec.ofNat 7 x.toNat = x := by simp

/-- A first parcel is rebuilt from its fields. -/
theorem p0_split (p : Parcel) : (p.extractLsb' 13 3 ++ p.extractLsb' 11 2 ++ p.extractLsb' 4 7 ++ p.extractLsb' 0 4 : Parcel) = p := split4 p 3 2 7 4 rfl

/-- ENG and LEN of a first parcel. -/
theorem eng_len (p : Parcel) (e : Nat) (l : Nat) (he : engOf p = e) (hl : lenOf p = some l) :
    p.extractLsb' 13 3 = BitVec.ofNat 3 e ∧ p.extractLsb' 11 2 = (if l = 1 then 0b00#2 else if l = 2 then 0b01#2 else 0b10#2) := by
  refine ⟨?_, ?_⟩
  · apply BitVec.eq_of_toNat_eq
    have : (p.extractLsb' 13 3).toNat = e := he
    rw [BitVec.toNat_ofNat, this]
    have := (p.extractLsb' 13 3).isLt
    omega
  · unfold lenOf at hl
    have h4 := (p.extractLsb' 11 2).isLt
    generalize hx : p.extractLsb' 11 2 = x at *
    have : x = 0 ∨ x = 1 ∨ x = 2 ∨ x = 3 := by
      rcases (by omega : x.toNat = 0 ∨ x.toNat = 1 ∨ x.toNat = 2 ∨ x.toNat = 3) with h | h | h | h
      · left; exact BitVec.eq_of_toNat_eq h
      · right; left; exact BitVec.eq_of_toNat_eq h
      · right; right; left; exact BitVec.eq_of_toNat_eq h
      · right; right; right; exact BitVec.eq_of_toNat_eq h
    rcases this with h | h | h | h <;> subst h <;> simp at hl <;> subst hl <;> rfl

/-- An E64 word is rebuilt from its fields. -/
theorem e64_back {eng op : Nat} {p0 p1 p2 p3 : Parcel} (he : engOf p0 = eng) (hl : lenOf p0 = some 4) (ho : (p0.extractLsb' 4 7).toNat = op) :
    e64 eng op (e64Fields p0 p1 p2 p3) = [p0, p1, p2, p3] := by
  obtain ⟨h1, h2⟩ := eng_len p0 eng 4 he hl
  have h0 := p0_split p0
  rw [h1, h2] at h0
  have hop : BitVec.ofNat 7 op = p0.extractLsb' 4 7 := by rw [← ho]; exact ofNat_toNat7 _
  have hp1 : (BitVec.ofBool (p1.getLsbD 15) ++ p1.extractLsb' 11 4 ++ p1.extractLsb' 0 11 : Parcel) = p1 := by
    rw [ofBool_get]
    apply BitVec.eq_of_getLsbD_eq
    intro i hi
    simp only [BitVec.getLsbD_append, BitVec.getLsbD_extractLsb']
    by_cases h1 : i < 11
    · simp [h1]
    · by_cases h2 : i - 11 < 4
      · simp only [if_neg h1, h2, if_true, decide_true, Bool.true_and]; congr 1; omega
      · simp only [if_neg h1, if_neg h2, show i - 11 - 4 < 1 by omega, decide_true, Bool.true_and]; congr 1; omega
  unfold e64 e64Fields
  dsimp only
  rw [hop, hp1]
  have h2' : (p2.extractLsb' 8 8 ++ p2.extractLsb' 0 8 : Parcel) = p2 := split2 p2 8 8 rfl
  have h3' : (p3.extractLsb' 8 8 ++ p3.extractLsb' 0 8 : Parcel) = p3 := split2 p3 8 8 rfl
  rw [h2', h3']
  have h0' : (BitVec.ofNat 3 eng ++ 2#2 ++ p0.extractLsb' 4 7 ++ p0.extractLsb' 0 4 : Parcel) = p0 := h0
  rw [h0']

/-- An S64 word is rebuilt from its fields. -/
theorem s64_back {op : Nat} {p0 p1 p2 p3 : Parcel} (he : engOf p0 = 0) (hl : lenOf p0 = some 4) (ho : (p0.extractLsb' 4 7).toNat = op) :
    s64 op (s64Fields p0 p1 p2 p3) = [p0, p1, p2, p3] := by
  obtain ⟨h1, h2⟩ := eng_len p0 0 4 he hl
  have h0 := p0_split p0
  rw [h1, h2] at h0
  have hop : BitVec.ofNat 7 op = p0.extractLsb' 4 7 := by rw [← ho]; exact ofNat_toNat7 _
  unfold s64 s64Fields sGuard
  dsimp only
  rw [hop, p1_split]
  have h2' := cat2_fields p3 p2
  rw [h2'.1, h2'.2]
  have h0' : (0b00010#5 ++ p0.extractLsb' 4 7 ++ p0.extractLsb' 0 4 : Parcel) = p0 := h0
  rw [h0']

theorem s32_back0 {op : Nat} {p0 : Parcel} (he : engOf p0 = 0) (hl : lenOf p0 = some 2) (ho : (p0.extractLsb' 4 7).toNat = op) :
    (0b00001#5 ++ BitVec.ofNat 7 op ++ p0.extractLsb' 0 4 : Parcel) = p0 := by
  obtain ⟨h1, h2⟩ := eng_len p0 0 2 he hl
  have h0 := p0_split p0
  rw [h1, h2] at h0
  have hop : BitVec.ofNat 7 op = p0.extractLsb' 4 7 := by rw [← ho]; exact ofNat_toNat7 _
  rw [hop]; exact h0

theorem judge_inv {e : Eng} {i j : Instr} (h : judge e i = .instr j) : i = j ∧ i.wellFormed = true := by
  unfold judge at h
  unfold Instr.wellFormed
  split at h
  · rename_i hv
    cases h
    exact ⟨rfl, by rw [hv]; rfl⟩
  · cases h
  · cases h

theorem len_cases {p0 : Parcel} {n : Nat} (hl : lenOf p0 = some n) : n = 1 ∨ n = 2 ∨ n = 4 := by
  unfold lenOf at hl
  split at hl <;> cases hl <;> simp

end Sys2Proof
end

