-- ==== Sys2Proof/Laws/Lanes.lean ====
section
/-! SUPPORT. V: what the slot loops, sources and destinations of lane, mask, movement and reduction instructions answer (R109,
R122, R141). -/
namespace Sys2Proof.Machine
open Sys2Proof

/-- A loop over slots answers what each active slot answers. -/
theorem eachSlot_ok {n : Nat} {m : Option Nat} {g : Nat → Except Stop Nat} {off v : Nat → Nat} (s : State)
    (h : ∀ i, i < n → activeIn m i = true → g i = .ok (v i)) :
    eachSlot n m g off s = .ok ((List.range n).map (fun i => if activeIn m i then v i else off i), s) := by
  have key : ∀ k a, a + k ≤ n → listM (fun i => if activeIn m i then g i else .ok (off i)) (upFrom a k) =
      .ok ((upFrom a k).map (fun i => if activeIn m i then v i else off i)) := by
    intro k
    induction k with
    | zero => intro a _; rfl
    | succ k ih =>
      intro a ha
      have h1 : (if activeIn m a then g a else .ok (off a)) = .ok (if activeIn m a then v a else off a) := by
        by_cases hm : activeIn m a = true
        · simp [hm, h a (by omega) hm]
        · simp only [Bool.not_eq_true] at hm; simp [hm]
      simp only [upFrom, listM, h1, ih (a + 1) (by omega), List.map_cons]
  have hk := key n 0 (by omega)
  unfold eachSlot M.lift
  rw [hk]
  simp only [upFrom_eq, Nat.zero_add, List.map_map]
  rfl

theorem took_pack (t : State) (f : E64) (d : BitVec 8) (w : Nat) (v : Nat → Nat) :
    packSlots w ((List.range t.view.shape.slots).map fun i => if activeIn (t.maskOf f.lo3) i then v i else t.inactive d f.zm w i) =
      t.took f d w v := by rfl

theorem laneSlots_ok {f : E64} {d : BitVec 8} {w : Nat} {slot : State → Nat → Except Nat Nat} {t : State} {v : Nat → Nat}
    (h : ∀ i, t.active f i → slot t i = .ok (v i)) : laneSlots f d w slot t = .ok (t.took f d w v, t) := by
  unfold laneSlots
  simp only [m_bind, m_look, id]
  rw [eachSlot_ok (v := v) t]
  · simp only [m_pure, took_pack]
  · intro i hi hm
    rw [h i ⟨hi, hm⟩]; rfl

theorem deliverShape_ok (d : BitVec 8) (w n : Nat) (r : Result) (t : State) :
    deliverShape d w n r t = .ok (.after n [t.deliver d t.view.shape.slots w r], t) := rfl

/-- A lane instruction, in terms of one function of a slot (R109). -/
theorem laneRun_ok {f : E64} {n w shadow : Nat} {slot : State → Lane → Nat → Except Nat Nat} {s t : State} {x : Lane} {v : Nat → Nat}
    (h : Turn.Lane f n w s x t) (hv : ∀ i, t.active f i → slot t x i = .ok (v i)) :
    laneRun f n w shadow slot s = .next (t.vOut f w shadow x.map v) := by
  have hg := h.go
  unfold laneRun
  rw [runE64_afterE (t := t) (i := .after shadow [t.deliver f.d8 t.view.shape.slots w ⟨t.took f f.d8 w v, 0, none, x.map⟩]) ⟨hg.live, hg.turn, hg.room⟩ hg.tokens hg.guard rfl]
  · rfl
  · rw [m_bind_ok h.checks, m_bind_ok h.reads, m_bind_ok (laneSlots_ok hv)]
    rfl

theorem ex_bind_ok {ε α β : Type} (a : α) (f : α → Except ε β) : ((Except.ok a : Except ε α) >>= f) = f a := rfl

theorem floatRun_ok {f : E64} {n shadow : Nat} {op : XReal → XReal → XReal → XReal} {s t : State} {x : Lane} {key : Nat → Nat} {a b c r : Nat → XReal}
    (h : Turn.Lane f n (fmtWidth f.top2) s x t)
    (hv : ∀ i, t.active f i → stoch t.wk t.view.nkey.c0 x.map f.mid3 i = .ok (key i) ∧
      floatOf t.wk x.a x.map f.top2 f.mid3 t.view.ftz (key i) i = .ok (a i) ∧ floatOf t.wk x.b x.map f.top2 f.mid3 t.view.ftz (key i) i = .ok (b i) ∧
      floatOf t.wk x.c x.map f.top2 f.mid3 t.view.ftz (key i) i = .ok (c i)) (hr : ∀ i, op (a i) (b i) (c i) = r i) :
    floatRun f n shadow op s = .next (t.vOut f (fmtWidth f.top2) shadow x.map fun i => (convTo f.top2 f.mid3 false t.view.ftz (key i) (r i)).bits) := by
  unfold floatRun tyFmt
  apply laneRun_ok h
  intro i hi
  obtain ⟨h1, h2, h3, h4⟩ := hv i hi
  simp only [h1, ex_bind_ok, h2, h3, h4, hr]
  rfl

theorem deliver_vregs (t : State) (d : BitVec 8) (n w : Nat) (r : Result) (h : isQ d = false) : ∃ u, t.deliver d n w r = .vregs [u] := by
  unfold State.deliver
  simp only [h, Bool.false_eq_true, if_false]
  exact ⟨_, rfl⟩

theorem bitsRun_ok {f : E64} {n : Nat} {op : Bool → Nat → Nat → Nat} {s t : State} {x : Lane} {a b r : Nat → Nat}
    (h : Turn.Lane f n (fmtWidth f.top2) s x t)
    (hv : ∀ i, t.active f i → floatBits t.wk x.a x.map t.view.nkey.c0 f.top2 f.mid3 i = .ok (a i) ∧
      floatBits t.wk x.b x.map t.view.nkey.c0 f.top2 f.mid3 i = .ok (b i)) (hr : ∀ i, op t.view.ftz (a i) (b i) = r i) :
    bitsRun f n op s = .next (t.vOut f (fmtWidth f.top2) 2 x.map r) := by
  unfold bitsRun tyFmt
  apply laneRun_ok h
  intro i hi
  obtain ⟨h1, h2⟩ := hv i hi
  simp only [h1, ex_bind_ok, h2, ← hr]
  rfl

theorem intRun_ok {f : E64} {n w : Nat} {op : Nat → Int → Int → Int} {s t : State} {x : Lane} {a b : Nat → Nat} {r : Nat → Int} (hw : w = tyWidth f.top2)
    (h : Turn.Lane f n w s x t)
    (hv : ∀ i, t.active f i → intOf t.wk x.a x.map (!f.modBit 8) (f.modBit 7) w i = .ok (a i) ∧ intOf t.wk x.b x.map (!f.modBit 8) (f.modBit 7) w i = .ok (b i))
    (hr : ∀ i, op w (readInt (!f.modBit 8) w (a i)) (readInt (!f.modBit 8) w (b i)) = r i) :
    intRun f n op s = .next (t.vOut f w 2 x.map fun i => wrap w (if f.modBit 7 then max (if (!f.modBit 8) = true then (-2 ^ (w - 1) : Int) else 0) (min (if (!f.modBit 8) = true then 2 ^ (w - 1) - 1 else 2 ^ w - 1) (r i)) else r i)) := by
  subst hw
  unfold intRun
  apply laneRun_ok h
  intro i hi
  obtain ⟨h1, h2⟩ := hv i hi
  simp only [h1, ex_bind_ok, h2, hr]
  have : ∀ (x : Int), clampInt (intRange (!f.modBit 8) (tyWidth f.top2)).1 (intRange (!f.modBit 8) (tyWidth f.top2)).2 x =
      max (if (!f.modBit 8) = true then (-2 ^ (tyWidth f.top2 - 1) : Int) else 0) (min (if (!f.modBit 8) = true then 2 ^ (tyWidth f.top2 - 1) - 1 else 2 ^ tyWidth f.top2 - 1) x) := by
    intro x
    unfold intRange clampInt
    have hp : (0:Int) < 2 ^ (tyWidth f.top2 - 1) := by positivity
    have hp' : (0:Int) < 2 ^ (tyWidth f.top2) := by positivity
    split <;> push_cast <;> (split_ifs <;> omega)
  rw [this]
  rfl

theorem nth_range (g i : Nat) (p : Nat → Nat) : nth 0 ((List.range g).map p) i = if i < g then p i else 0 := by
  unfold nth
  rw [List.getD_eq_getElem?_getD]
  by_cases h : i < g <;> simp [h]

theorem go_run {e : Eng} {f : E64} {on off : M Issue} {s t : State} {n : Nat} {acts : List Landing} (h : Turn.Go e f s)
    (ho : on (s.gained e f) = .ok (.after n acts, t)) : runE64 e f on off s = .next (t.afterE e f n acts) :=
  runE64_afterE (i := .after n acts) ⟨h.live, h.turn, h.room⟩ h.tokens h.guard rfl ho

theorem go_none {e : Eng} {f : E64} {on off : M Issue} {s t : State} (h : Turn.Go e f s)
    (ho : on (s.gained e f) = .ok (.none, t)) : runE64 e f on off s = .next (t.afterE e f 0 []) :=
  runE64_afterE (i := .none) ⟨h.live, h.turn, h.room⟩ h.tokens h.guard rfl ho

theorem maskRun_ok {f : E64} {op : Nat → Nat → Nat} {s : State} (h : Turn.Go .V f s) :
    maskRun f op s = .next ((s.gained .V f).afterE .V f 2 [.mask f.d8.toNat (maskValue s.view.shape.slots (op (s.wk.mget f.a8.toNat).toNat (s.wk.mget f.b8.toNat).toNat))]) := by
  rw [← gained_view s .V f, ← gained_mget s .V f f.a8.toNat, ← gained_mget s .V f f.b8.toNat]
  unfold maskRun
  exact go_run h rfl

theorem lift_ok {α : Type} (a : α) (s : State) : (M.lift (.ok a) : M α) s = .ok (a, s) := rfl

theorem moveSlots_ok {f : E64} {w : Nat} {slot : State → Nat → Except Stop Nat} {t : State} {v : Nat → Nat}
    (h : ∀ i, t.active f i → slot t i = .ok (v i)) : moveSlots f w slot t = .ok (t.took f f.d8 w v, t) := by
  unfold moveSlots
  simp only [m_bind, m_look, id]
  rw [eachSlot_ok (v := v) t]
  · simp only [m_pure, took_pack]
  · intro i hi hm
    exact h i ⟨hi, hm⟩

theorem fromMap_ok {f : E64} {w shadow : Nat} {legal : Bool} {slot : State → CMap → Nat → Except Stop Nat} {s t : State} {m : CMap} {a : Src} {v : Nat → Nat}
    (hg : Turn.Go .V f s) (hp : peekMap [f.a8] 0 (s.gained .V f) = .ok (m, s.gained .V f))
    (ho : ownCompanion f.d8 m (s.gained .V f) = .ok ((), s.gained .V f)) (hl : legal = true)
    (hfit : s.view.shape.fits w = true) (hr : readSrc f.a8 none (s.gained .V f) = .ok (a, t)) (hv : ∀ i, t.active f i → slot t a.map i = .ok (v i)) :
    fromMap f w shadow legal slot s = .next (t.vOut f w shadow a.map v) := by
  unfold fromMap
  refine go_run hg ?_
  rw [m_bind_ok hp, m_bind_ok ho]
  have hfit' : (legal && (s.gained .V f).view.shape.fits w) = true := by rw [hl, gained_view, hfit]; rfl
  simp only [m_bind, m_look, hfit', m_legal_true, hr]
  rw [moveSlots_ok (v := v) hv]
  rfl

/-- A movement instruction that reads A alone (R122). -/
theorem move_ok {f : E64} {w : Nat} {g : CMap → CMap} {s t : State} {a : Src} (h : Turn.Move f w g s a t) {k : Src → M Issue} {n : Nat} {l : List Landing}
    (hk : k a t = .ok (.after n l, t)) {off : M Issue} : runE64 .V f (do moveChecks f w g; let a ← readSrc f.a8 (some w); k a) off s = .next (t.afterE .V f n l) := by
  refine go_run h.go ?_
  rw [m_bind_ok h.checks, m_bind_ok h.reads, hk]

theorem cell_setCell (w : Worker) (i j : Nat) (c : BitVec 256) : (w.setCell i c).cell j = if j = i then c else w.cell j := by
  unfold Worker.setCell Worker.cell
  by_cases h : j = i
  · subst h; simp
  · simp only [h, if_false]; exact tabGet_set_ne _ _ _ _ _ h

theorem addTerms_cell (anch : Int) (l : List (Nat × XReal)) : ∀ (w : Worker) (k : Nat), (w.addTerms anch l).cell k =
    (l.filter fun e => e.1 == k).foldl (fun c e => admitTerm anch e.2 c) (w.cell k) := by
  induction l with
  | nil => intro w k; rfl
  | cons e r ih =>
    intro w k
    have : w.addTerms anch (e :: r) = (w.addTerm anch e.1 e.2).addTerms anch r := rfl
    rw [this, ih]
    unfold Worker.addTerm
    rw [cell_setCell]
    by_cases h : e.1 = k
    · subst h; simp
    · have h' : (e.1 == k) = false := by simpa using h
      simp [h', Ne.symm h]

theorem addTerms_shape (anch : Int) (l : List (Nat × XReal)) : ∀ (w : Worker), w.addTerms anch l = { w with cells := (w.addTerms anch l).cells } := by
  induction l with
  | nil => intro w; rfl
  | cons e r ih =>
    intro w
    have : w.addTerms anch (e :: r) = (w.addTerm anch e.1 e.2).addTerms anch r := rfl
    rw [this, ih]
    rfl

theorem setWk_view2 (s : State) (w : Worker) (h : w.strands = s.wk.strands) : (s.setWk w).view = s.view := by
  rw [setWk_view, h]; rfl

theorem popWord_view {s t : State} {v : Word} (h : popWord s = .ok (v, t)) : t.view = s.view := by
  unfold popWord at h
  simp only [m_bind, m_look] at h
  cases hq : s.wk.q14 with
  | nil => rw [hq] at h; cases h
  | cons x r =>
    rw [hq] at h
    simp only [m_bind, m_change, m_pure, Except.ok.injEq, Prod.mk.injEq] at h
    rw [← h.2]
    exact setWk_view2 _ _ rfl

theorem popImage_view {q : Nat} {w : Option Nat} {s t : State} {a : Src} (h : popImage q w s = .ok (a, t)) : t.view = s.view := by
  unfold popImage peekImage at h
  simp only [m_bind, m_look] at h
  cases hi : (s.wk.image q)[0]? with
  | none => rw [hi] at h; cases h
  | some e =>
    rw [hi] at h
    simp only [m_pure] at h
    cases hc : compareEntry e w s with
    | error x => rw [hc] at h; cases h
    | ok p =>
      obtain ⟨⟨⟩, u⟩ := p
      have hu : u = s := by
        unfold compareEntry at hc
        simp only [m_bind, m_look] at hc
        generalize (e.count == s.view.shape.slots && _) = b at hc
        cases b
        · cases hc
        · simp only [if_true, m_pure, Except.ok.injEq, Prod.mk.injEq] at hc; exact hc.2.symm
      subst hu
      rw [hc] at h
      simp only [m_change, Except.ok.injEq, Prod.mk.injEq] at h
      rw [← h.2]
      exact setWk_view2 _ _ rfl

/-- Reading a source changes neither the configuration nor the registers. -/
theorem readSrc_view {x : BitVec 8} {w : Option Nat} {s t : State} {a : Src} (h : readSrc x w s = .ok (a, t)) : t.view = s.view := by
  unfold readSrc at h
  split at h
  · simp only [m_bind, m_look, m_pure, Except.ok.injEq, Prod.mk.injEq] at h; rw [h.2]
  · split at h
    · split at h
      · rw [m_bind] at h
        cases hp : popWord s with
        | error e => rw [hp] at h; cases h
        | ok p =>
          rw [hp] at h
          simp only [m_pure, Except.ok.injEq, Prod.mk.injEq] at h
          rw [← h.2]
          exact popWord_view hp
      · exact popImage_view h
    · split at h <;> (simp only [m_pure, Except.ok.injEq, Prod.mk.injEq] at h; rw [h.2])

theorem deliverPair_ok (t : State) (d c : BitVec 8) (w : Nat) (data comp : List Nat) (m : CMap) :
    deliverPair d c w data comp m t = .ok (.after 1 (t.pairActs d c w data comp m), t) := by
  unfold deliverPair State.pairActs hasComp
  simp only [m_bind, m_look, id]
  by_cases h : isV c = true
  · simp only [h, if_true]
    split <;> rename_i h1 <;> (first | rw [h1] | skip) <;> simp_all [m_pure]
  · simp only [h]; rfl

/-- A reduction, line by line (R141). -/
theorem reduceRun_ok {f : E64} {g : CMap → CMap} {pick : Shape → Option Nat → Nat → List Nat} {val : Bool → Nat → List Nat → Nat} {rounds : Bool} {s t : State} {a : Src}
    {key v : Nat → Nat} (h : Turn.Move f (ewWidth f) g s a t) (hr : redOk (bits f.c8.toNat 0 5) = true) (hw : fmtWidth (bits f.c8.toNat 0 5) = ewWidth f)
    (hk : ∀ i, t.active f i → if ftzFmt (bits f.c8.toNat 0 5) then stoch t.wk t.view.nkey.c0 a.map (bits f.c8.toNat 5 3) i = .ok (key i) else key i = 0)
    (hv : ∀ i k, (rounds = true → k = key i) → val t.view.ftz k ((pick t.view.shape (t.maskOf f.lo3) i).map (a.slot (ewWidth f))) = v i) :
    reduceRun f g pick val rounds s = .next (t.vOut f (ewWidth f) 3 (g a.map) v) := by
  unfold reduceRun
  refine go_run h.go ?_
  dsimp only
  have hl : (redOk (redFmt f) && fmtWidth (redFmt f) == ewWidth f) = true := by
    unfold redFmt; simp [hr, hw]
  rw [m_bind_ok h.checks]
  simp only [hl]
  rw [m_bind_ok (m_legal_true _), m_bind_ok h.reads, m_bind_ok (moveSlots_ok (v := v) ?_)]
  · exact deliverShape_ok _ _ _ _ _
  · intro i hi
    have := hk i hi
    by_cases hc : (rounds && ftzFmt (redFmt f)) = true
    · simp only [Bool.and_eq_true] at hc
      unfold redFmt at hc
      rw [if_pos hc.2] at this
      simp only [redFmt, redRm, hc.1, hc.2, Bool.and_self, if_true, this, slotTrap, ex_bind_ok]
      rw [← hv i (key i) (fun _ => rfl)]
      rfl
    · rw [if_neg hc]
      rw [← hv i 0 ?_]
      · rfl
      · intro h1
        simp only [Bool.and_eq_true, not_and, Bool.not_eq_true] at hc
        have := hc h1
        unfold redFmt at this
        rename_i h2
        rw [this] at h2
        simpa using h2.symm

theorem packSlots_testBit (w : Nat) (hw : 0 < w) (l : List Nat) : ∀ k, (packSlots w l).testBit k = (nth 0 l (k / w)).testBit (k % w) := by
  induction l with
  | nil => intro k; simp [packSlots, nth]
  | cons a r ih =>
    intro k
    unfold packSlots
    rw [Nat.shiftLeft_eq, Nat.add_comm, Nat.mul_comm]
    have hlt : a % 2 ^ w < 2 ^ w := Nat.mod_lt _ (by positivity)
    rw [Nat.testBit_two_pow_mul_add _ hlt]
    by_cases hk : k < w
    · rw [if_pos hk, Nat.testBit_mod_two_pow]
      have h0 : k / w = 0 := Nat.div_eq_of_lt hk
      have h1 : k % w = k := Nat.mod_eq_of_lt hk
      simp [h0, h1, nth, hk]
    · rw [if_neg hk, ih]
      have h1 : k / w = (k - w) / w + 1 := by
        rw [← Nat.add_div_right _ hw]; congr 1; omega
      have h2 : k % w = (k - w) % w := by
        rw [← Nat.add_mod_right (k - w) w]; congr 1; omega
      rw [h1, h2]
      simp [nth]

theorem slotOf_testBit (D w i b : Nat) : (slotOf D w i).testBit b = (decide (b < w) && D.testBit (w * i + b)) := by
  unfold slotOf
  rw [Nat.testBit_mod_two_pow, Nat.testBit_shiftRight]

theorem slot_pack {w g i : Nat} {v : Nat → Nat} (hw : 0 < w) (hi : i < g) (D : Nat) (hD : ∀ b, b < g * w → D.testBit b = (packSlots w ((List.range g).map v)).testBit b) :
    slotOf D w i = v i % 2 ^ w := by
  apply Nat.eq_of_testBit_eq
  intro b
  rw [slotOf_testBit, Nat.testBit_mod_two_pow]
  by_cases hb : b < w
  · have h1 : w * i + b < g * w := by
      have : w * i + w ≤ g * w := by rw [Nat.mul_comm g w, ← Nat.mul_succ]; exact Nat.mul_le_mul_left _ hi
      omega
    rw [hD _ h1, packSlots_testBit w hw]
    have h2 : (w * i + b) / w = i := by rw [Nat.mul_add_div hw, Nat.div_eq_of_lt hb]; omega
    have h3 : (w * i + b) % w = b := by rw [Nat.mul_add_mod, Nat.mod_eq_of_lt hb]
    rw [h2, h3, nth_range, if_pos hi]
  · simp [hb]

/-- The register that lands. -/
theorem vget_landVregs_self (w : Worker) (p : Nat) (x : VReg) : (w.landVregs [(p, x)]).vget p = x := by
  unfold Worker.landVregs Worker.vget Worker.vset
  simp

theorem tabGet_map {α : Type} (d : α) (h : α → α) (hd : h d = d) (t : Tab α) (k : Nat) : tabGet d (t.map fun e => (e.1, h e.2)) k = h (tabGet d t k) := by
  have : ∀ t : Tab α, tabFind (t.map fun e => (e.1, h e.2)) k = (tabFind t k).map h := by
    intro t
    induction t with
    | nil => rfl
    | cons e r ih =>
      obtain ⟨j, y⟩ := e
      simp only [List.map_cons, tabFind]
      split
      · rfl
      · exact ih
  unfold tabGet
  rw [this]
  cases tabFind t k <;> simp [hd]

/-- The registers that do not. -/
theorem vget_landVregs_ne (w : Worker) (p q : Nat) (x : VReg) (h : q ≠ p) : (w.landVregs [(p, x)]).vget q = (w.vget q).kill [p] := by
  unfold Worker.landVregs Worker.vget Worker.vset Worker.killMaps
  simp only [List.map_cons, List.map_nil, List.foldl_cons, List.foldl_nil]
  rw [tabGet_set_ne _ _ _ _ _ h]
  exact tabGet_map .zero (VReg.kill [p]) rfl _ _

theorem listM_error {ε β : Type} {g : Nat → Except ε β} {v : Nat → β} {x : ε} {i : Nat} : ∀ (k a : Nat), a ≤ i → i < a + k → (∀ j, a ≤ j → j < i → g j = .ok (v j)) → g i = .error x →
    listM g (upFrom a k) = .error x := by
  intro k
  induction k with
  | zero => intro a h1 h2; omega
  | succ k ih =>
    intro a h1 h2 hv hx
    by_cases h : a = i
    · subst h; simp only [upFrom, listM, hx]
    · have := ih (a + 1) (by omega) (by omega) (fun j h3 h4 => hv j (by omega) h4) hx
      simp only [upFrom, listM, hv a (by omega) (by omega), this]

theorem eachSlot_error {n : Nat} {m : Option Nat} {g : Nat → Except Stop Nat} {off v : Nat → Nat} {x : Stop} {i : Nat} (s : State) (hi : i < n) (hm : activeIn m i = true)
    (h : ∀ k, k < i → activeIn m k = true → g k = .ok (v k)) (hx : g i = .error x) : eachSlot n m g off s = .error x := by
  unfold eachSlot M.lift
  rw [listM_error (v := fun k => if activeIn m k then v k else off k) (i := i) n 0 (by omega) (by omega)]
  · intro j _ hj
    by_cases hc : activeIn m j = true
    · simp only [hc, if_true, h j hj hc]
    · simp only [Bool.not_eq_true] at hc; simp [hc]
  · simp only [hm, if_true, hx]

theorem runE64_trap0 {e : Eng} {f : E64} {on off : M Issue} {s : State} {x : Trap} (h : Turn.Go e f s) (ho : on (s.gained e f) = .error (.trap x)) :
    runE64 e f on off s = .next (s.takeTrap e s.st.pc x) := by
  have := runE64_trap (e := e) (f := f) (on := on) (off := off) (s := s) (x := x) h.live h.turn h.room h.tokens
  exact this h.guard ho

end Sys2Proof.Machine
end

