-- ==== Sys2Proof/Laws/Units.lean ====
section
/-! SUPPORT. Furrows, tiles, copies, landings, launches and the owner: one lemma for each shared operation. -/
namespace Sys2Proof.Machine
open Sys2Proof

theorem putFurrow_ok (x : BitVec 8) (u : Furrow) (s : State) : putFurrow x u s = .ok ((), s.putFurrow x u) := rfl

theorem tabFind_filter {α : Type} (q : Nat → Bool) (t : Tab α) (i : Nat) :
    tabFind (t.filter fun e => q e.1) i = if q i then tabFind t i else none := by
  induction t with
  | nil => simp [tabFind]
  | cons e r ih =>
    obtain ⟨j, x⟩ := e
    by_cases hq : q j = true
    · simp only [List.filter_cons, hq, if_true, tabFind]
      by_cases hj : j = i
      · subst hj; simp [hq]
      · simp only [hj, if_false, ih]
    · simp only [Bool.not_eq_true] at hq
      simp only [List.filter_cons, hq, Bool.false_eq_true, if_false, tabFind, ih]
      by_cases hj : j = i
      · subst hj; simp [hq]
      · simp [hj]

theorem clearCells_cell (w : Worker) (lo n i : Nat) : (w.clearCells lo n).cell i = if lo ≤ i ∧ i < lo + n then 0 else w.cell i := by
  unfold Worker.clearCells Worker.cell tabGet
  have := tabFind_filter (fun i => !decide (lo ≤ i ∧ i < lo + n)) w.cells i
  simp only at this ⊢
  rw [this]
  by_cases h : lo ≤ i ∧ i < lo + n <;> simp [h]

theorem awaitPlanes_ok {s : State} (h : tabFind s.planeOwner s.wk.core = none ∨ tabFind s.planeOwner s.wk.core = some s.curKey) :
    awaitPlanes s = .ok ((), s) := by
  unfold awaitPlanes
  simp only [m_bind, m_look, id]
  rcases h with h | h <;> simp [h]

/-- A copy command that passes its checks is issued (R224). -/
theorem issueCopy_ok {f : E64} {s : State} {x : Bool} {r : Option Word}
    (h1 : copyFurrowsOk (copyXf f) (s.furrow f.d8) (s.furrow f.a8) (s.view.tile f.a8.toNat) = true)
    (h2 : copyRules (copyXf f) (s.furrow f.d8) (s.furrow f.a8) (s.view.tile f.a8.toNat) = true)
    (h3 : copyContext (s.furrow f.d8) s = .ok ((), s)) (h4 : copyXf f = 6 ∨ copyContext (s.furrow f.a8) s = .ok ((), s))
    (h5 : remoteKnot f s = .ok (r, s)) (h6 : (s.copiesOf s.curKey).length < 32) :
    let q := s.release (engineScope f)
    issueCopy f x s = .ok (.none, ({ q with copies := q.copies ++ [s.copyCmd f x r] } : State).modWk fun w => { w with copySeq := w.copySeq + 1 }) := by
  intro q
  unfold issueCopy
  have hl : (copyFurrowsOk (copyXf f) (s.furrow f.d8) (s.furrow f.a8) (s.view.tile f.a8.toNat) && copyRules (copyXf f) (s.furrow f.d8) (s.furrow f.a8) (s.view.tile f.a8.toNat)) = true := by rw [h1, h2]; rfl
  rw [m_bind_ok (m_look id s)]
  dsimp only [id]
  rw [hl, m_bind_ok (m_legal_true s), m_bind_ok h3]
  have tail : (remoteKnot f >>= fun r => do
      M.await (decide ((s.copiesOf s.curKey).length < 32))
      M.change fun t => t.release (engineScope f)
      M.change fun t => { t with copies := t.copies ++ [s.copyCmd f x r] }
      M.work fun w => { w with copySeq := w.copySeq + 1 }
      pure Issue.none : M Issue) s = .ok (.none, ({ q with copies := q.copies ++ [s.copyCmd f x r] } : State).modWk fun w => { w with copySeq := w.copySeq + 1 }) := by
    rw [m_bind_ok h5, decide_eq_true h6, m_bind_ok (m_await_true s)]
    simp only [m_bind, m_change, m_work, m_pure, q]; rfl
  by_cases h : copyXf f = 6
  · rw [if_pos h]; exact tail
  · rw [if_neg h, m_bind_ok (h4.resolve_left h)]; exact tail

theorem owner_iff (s : State) (m : Nat) : s.owner m = true ↔ m < 1026 ∧ s.own = BitVec.ofNat 16 m := by
  simp [State.owner, isMaster]

theorem ifOwner_yes {s : State} {m : Nat} {f : State → State} (h : m < 1026 ∧ s.own = BitVec.ofNat 16 m) : s.ifOwner m f = f s := by
  unfold State.ifOwner; rw [if_pos ((owner_iff s m).2 h)]

theorem ifOwner_no {s : State} {m : Nat} {f : State → State} (h : ¬ (m < 1026 ∧ s.own = BitVec.ofNat 16 m)) : s.ifOwner m f = s := by
  unfold State.ifOwner; rw [if_neg (fun x => h ((owner_iff s m).1 x))]

theorem modLaunch_some {s : State} {lid : Nat} {l : Launch} (h : tabFind s.launches lid = some l) (f : Launch → Launch) :
    s.modLaunch lid f = s.putLaunch lid (f l) := by unfold State.modLaunch; rw [h]

theorem all_iff (l : List Nat) (p : Nat → Bool) : l.all p = true ↔ ∀ d ∈ l, p d = true := by simp

theorem producersDone_iff (s : State) (l : Launch) : s.producersDone l = true ↔ ∀ d ∈ l.producers, s.isComplete d = true := all_iff _ _

theorem strands_all {α : Type} (x : Five α) (p : α → Bool) (h : ∀ e, p (x.get e) = true) : x.toList.all p = true := by
  have h1 := h .S; have h2 := h .L; have h3 := h .V; have h4 := h .M; have h5 := h .W
  simp [Five.toList]
  exact ⟨h1, h2, h3, h4, h5⟩

/-- What the search for a ready entry finds: the first one that is ready behind the entries before it (R25, R27). -/
theorem readyFrom_some (w : Worker) : ∀ (l a : List Pend) (i : Nat) (p : Pend), w.readyFrom a l = some (i, p) →
    ∃ j, i = a.length + j ∧ l[j]? = some p ∧ w.ready (a ++ l.take j) p = true ∧
      ∀ k < j, ∀ q, l[k]? = some q → w.ready (a ++ l.take k) q = false
  | [], a, i, p, h => by cases h
  | q :: r, a, i, p, h => by
    unfold Worker.readyFrom at h
    by_cases hq : w.ready a q = true
    · rw [if_pos hq] at h
      cases h
      exact ⟨0, rfl, rfl, by simpa using hq, by intro k hk; omega⟩
    · rw [if_neg hq] at h
      obtain ⟨j, hj, hp, hr, hk⟩ := readyFrom_some w r (a ++ [q]) i p h
      refine ⟨j + 1, by simp at hj; omega, by simpa using hp, by simpa using hr, ?_⟩
      intro k hk' x hx
      cases k with
      | zero => simp only [List.getElem?_cons_zero, Option.some.injEq] at hx; subst hx; simpa using hq
      | succ k => simpa using hk k (by omega) x (by simpa using hx)

/-- The entry that a strand lands next (R25, R27). -/
theorem due_some {w : Worker} {e : Eng} {i : Nat} {p : Pend} (h : w.due e = some (i, p)) :
    (w.strands.get e).pend[i]? = some p ∧ w.ready ((w.strands.get e).pend.take i) p = true ∧
      ∀ j < i, ∀ q, (w.strands.get e).pend[j]? = some q → w.ready ((w.strands.get e).pend.take j) q = false := by
  obtain ⟨j, hj, h1, h2, h3⟩ := readyFrom_some w _ _ _ _ h
  simp only [List.length_nil, Nat.zero_add] at hj
  subst hj
  exact ⟨h1, by simpa using h2, fun k hk q hq => by simpa using h3 k hk q hq⟩

/-- A ready entry's landing point is passed: its count is 0, and one that waits for all earlier ones is first (R25, R100). -/
theorem ready_due {w : Worker} {l : List Pend} {p : Pend} (h : w.ready l p = true) :
    p.count = 0 ∧ (p.last = true → l = []) := by
  unfold Worker.ready Pend.due at h
  simp only [Bool.and_eq_true, beq_iff_eq, Bool.or_eq_true, Bool.not_eq_true', List.isEmpty_iff] at h
  refine ⟨h.1.1, fun hl => h.1.2.resolve_left fun x => ?_⟩
  rw [hl] at x; cases x

theorem modWorker_some {s : State} {key : Nat} {w : Worker} (h : s.worker? key = some w) (f : Worker → Worker) :
    s.modWorker key f = s.putWorker key (f w) := by unfold State.modWorker; rw [h]

theorem worker?_put (s : State) (key : Nat) (w : Worker) : (s.putWorker key w).worker? key = some w := by
  unfold State.worker? State.putWorker; simp

theorem worker_some {s : State} {key : Nat} {w : Worker} (h : s.worker? key = some w) : s.worker key = w := by
  unfold State.worker; rw [h]; rfl

end Sys2Proof.Machine
end

