-- ==== Sys2Proof/Laws/Frames.lean ====
section
/-! SUPPORT. What shared operations leave alone: a frame that composes over actions, and the places that a plan of elements
names (R159). -/
namespace Sys2Proof.Machine
open Sys2Proof

section
variable {A : Nat → Prop} {P : Nat → Worker → Worker → Prop}

/-- `t` is `s` but for memory at the addresses of `A` and for workers, each related to what it was by `P`. -/
structure Frame (A : Nat → Prop) (P : Nat → Worker → Worker → Prop) (s t : State) : Prop where
  mem : tabSorted s.poolDirty = true → ∀ a, ¬ A a → t.physByte a = s.physByte a
  wk : ∀ k, P k (s.worker k) (t.worker k)
  dirty : tabSorted s.poolDirty = true → tabSorted t.poolDirty = true
  key : t.curKey = s.curKey
  eng : t.curEng = s.curEng

/-- A relation on workers that a frame can use: it composes, and traps, completion and issue keep it. -/
structure FrameRel (P : Nat → Worker → Worker → Prop) : Prop where
  refl : ∀ k w, P k w w
  trans : ∀ k w x y, P k w x → P k x y → P k w y
  trapped : ∀ k w e pc x, P k w (w.trapped e pc x)
  done : ∀ k w, P k w { w with status := .done }
  issued : ∀ k w e len i toks, P k w (w.setStrand e ((w.strands.get e).issued len i toks))
  acted : ∀ k w e a n, P k w (w.setStrand e { w.strands.get e with acq := a, soLast := n })

theorem Frame.refl (hp : FrameRel P) (s : State) : Frame A P s s := ⟨fun _ _ _ => rfl, fun _ => hp.refl _ _, id, rfl, rfl⟩

theorem Frame.trans (hp : FrameRel P) {s t u : State} (h : Frame A P s t) (g : Frame A P t u) : Frame A P s u :=
  ⟨fun hs a ha => (g.mem (h.dirty hs) a ha).trans (h.mem hs a ha), fun k => hp.trans _ _ _ _ (h.wk k) (g.wk k), fun x => g.dirty (h.dirty x), g.key.trans h.key, g.eng.trans h.eng⟩

theorem Frame.same (hp : FrameRel P) {s t : State} (h1 : t.mem = s.mem) (h2 : t.poolDirty = s.poolDirty) (h3 : t.workers = s.workers)
    (h4 : t.curKey = s.curKey) (h5 : t.curEng = s.curEng) : Frame A P s t := by
  refine ⟨fun _ a _ => ?_, fun k => ?_, fun h => h2 ▸ h, h4, h5⟩
  · unfold State.physByte; rw [h1, h2]
  · have : t.worker k = s.worker k := by unfold State.worker State.worker?; rw [h3]
    rw [this]; exact hp.refl _ _

theorem worker_setWk (s : State) (w : Worker) (k : Nat) : (s.setWk w).worker k = if k = s.curKey then w else s.worker k := by
  unfold State.worker State.setWk State.putWorker State.worker?
  by_cases h : k = s.curKey
  · subst h; simp
  · simp only [tabFind_put_ne _ _ _ _ h, h, if_false]

theorem Frame.setWk (hp : FrameRel P) {s : State} {w : Worker} (h : P s.curKey s.wk w) : Frame A P s (s.setWk w) := by
  refine ⟨fun _ _ _ => rfl, fun k => ?_, id, rfl, rfl⟩
  rw [worker_setWk]
  by_cases hk : k = s.curKey
  · rw [if_pos hk]; subst hk; exact h
  · rw [if_neg hk]; exact hp.refl _ _

theorem Frame.modWorker (hp : FrameRel P) {s : State} {k : Nat} {f : Worker → Worker} (h : ∀ w, P k w (f w)) : Frame A P s (s.modWorker k f) := by
  unfold State.modWorker
  cases hw : s.worker? k with
  | none => exact Frame.refl hp s
  | some w =>
    refine ⟨fun _ _ _ => rfl, fun j => ?_, id, rfl, rfl⟩
    by_cases hj : j = k
    · subst hj
      have : (s.putWorker j (f w)).worker j = f w := by unfold State.putWorker State.worker State.worker?; simp
      rw [this]
      have : s.worker j = w := by unfold State.worker; rw [hw]; rfl
      rw [this]; exact h w
    · have : (s.putWorker k (f w)).worker j = s.worker j := by
        unfold State.putWorker State.worker State.worker?; rw [tabFind_put_ne _ _ _ _ hj]
      rw [this]; exact hp.refl _ _

theorem modLaunch_fields (s : State) (l : Nat) (f : Launch → Launch) :
    (s.modLaunch l f).mem = s.mem ∧ (s.modLaunch l f).poolDirty = s.poolDirty ∧ (s.modLaunch l f).workers = s.workers ∧
    (s.modLaunch l f).curKey = s.curKey ∧ (s.modLaunch l f).curEng = s.curEng := by
  unfold State.modLaunch; split <;> exact ⟨rfl, rfl, rfl, rfl, rfl⟩

theorem Frame.modLaunch (hp : FrameRel P) (s : State) (l : Nat) (f : Launch → Launch) : Frame A P s (s.modLaunch l f) := by
  obtain ⟨h1, h2, h3, h4, h5⟩ := modLaunch_fields s l f
  exact Frame.same hp h1 h2 h3 h4 h5

theorem Frame.abort (hp : FrameRel P) (s : State) (l : Nat) : Frame A P s (s.abortLaunch l) := by
  unfold State.abortLaunch
  refine Frame.trans hp (Frame.modLaunch hp s l fun l => { l with aborting := true, status := 3 }) ?_
  obtain ⟨h1, h2, h3, h4, h5⟩ := modLaunch_fields s l fun l => { l with aborting := true, status := 3 }
  generalize s.modLaunch l (fun l => { l with aborting := true, status := 3 }) = r at *
  refine ⟨fun _ _ _ => rfl, fun k => ?_, id, rfl, rfl⟩
  rw [← h3]
  have hf : ({ r with workers := r.workers.map fun e => (e.1, if e.2.lid = l then { e.2 with status := .done } else e.2) } : State).worker k
      = ((tabFind r.workers k).map fun w => if w.lid = l then { w with status := .done } else w).getD .zero := by
    show (tabFind (r.workers.map fun e => (e.1, if e.2.lid = l then { e.2 with status := .done } else e.2)) k).getD Worker.zero = _
    exact congrArg (fun o => Option.getD o Worker.zero) (tabFind_map (fun e => if e.2.lid = l then { e.2 with status := .done } else e.2) _ k)
  rw [hf]
  show P k ((tabFind r.workers k).getD .zero) _
  cases tabFind r.workers k with
  | none => exact hp.refl _ _
  | some w =>
    simp only [Option.map_some, Option.getD_some]
    split
    · exact hp.done _ _
    · exact hp.refl _ _

theorem Frame.trap (hp : FrameRel P) (s : State) (e : Eng) (pc : PAddr) (x : Trap) : Frame A P s (s.takeTrap e pc x) := by
  unfold State.takeTrap
  split
  · exact Frame.refl hp _
  have h0 : Frame A P s (if x.cause = 0x0B then s.modLaunch s.wk.lid fun l => { l with detOff := true } else s) := by
    split
    · exact Frame.modLaunch hp _ _ _
    · exact Frame.refl hp _
  refine Frame.trans hp h0 ?_
  generalize hr : (if x.cause = 0x0B then s.modLaunch s.wk.lid fun l => { l with detOff := true } else s) = r
  dsimp only
  have h0 : Frame A P r (r.performWorker r.curKey 1) := Frame.same hp rfl rfl rfl rfl rfl
  have h1 : Frame A P r ((r.performWorker r.curKey 1).setWk (r.wk.trapped e pc x)) :=
    Frame.trans hp h0 (Frame.setWk hp (hp.trapped _ _ _ _ _))
  have h2 : Frame A P r ((r.performWorker r.curKey 1).setWk (r.wk.trapped e pc x)).acquireS :=
    Frame.trans hp h1 (Frame.setWk hp (hp.acted _ _ .S _ _))
  split
  · exact Frame.trans hp h2 (Frame.trans hp
      (t := ((r.performWorker r.curKey 1).setWk (r.wk.trapped e pc x)).acquireS.reportTrap (r.wk.trapped e pc x))
      (Frame.same hp rfl rfl rfl rfl rfl) (Frame.abort hp _ _))
  · exact h2

theorem Frame.log0 (hp : FrameRel P) (s : State) (l : List (List Word)) : Frame A P s { s with mclog := l } := Frame.same hp rfl rfl rfl rfl rfl

theorem Frame.log (hp : FrameRel P) (s : State) (r : List Word) : Frame A P s (s.logCheck r) := Frame.log0 hp s _

theorem Frame.check (hp : FrameRel P) (s : State) (w : Worker) (u k pa : Nat) (pc : PAddr) : Frame A P s (s.machineCheck w u k pa pc) := by
  unfold State.machineCheck
  exact Frame.trans hp (Frame.log hp s _) (Frame.abort hp _ _)

/-- Every answer of an action keeps the frame. -/
def Framed (A : Nat → Prop) (P : Nat → Worker → Worker → Prop) {α : Type} (act : M α) : Prop := ∀ s a t, act s = .ok (a, t) → Frame A P s t

theorem framed_pure (hp : FrameRel P) {α : Type} (a : α) : Framed A P (pure a) := by
  intro s b t h; injection h with h; injection h with h1 h2; subst h2; exact Frame.refl hp _

/-- Frames compose over actions. -/
theorem framed_bind (hp : FrameRel P) {α β : Type} {x : M α} {f : α → M β} (hx : Framed A P x) (hf : ∀ a, Framed A P (f a)) : Framed A P (x >>= f) := by
  intro s b t h
  rw [m_bind] at h
  cases hxs : x s with
  | error e => rw [hxs] at h; cases h
  | ok r =>
    obtain ⟨a, u⟩ := r
    rw [hxs] at h
    exact Frame.trans hp (hx s a u hxs) (hf a u b t h)

theorem framed_look (hp : FrameRel P) {α : Type} (f : State → α) : Framed A P (M.look f) := by
  intro s b t h; injection h with h; injection h with h1 h2; subst h2; exact Frame.refl hp _

theorem framed_change {f : State → State} (hf : ∀ s, Frame A P s (f s)) : Framed A P (M.change f) := by
  intro s b t h; injection h with h; injection h with h1 h2; subst h2; exact hf s

theorem framed_stop {α : Type} (x : Stop) : Framed A P (M.stop x : M α) := by intro s b t h; cases h

theorem framed_access (hp : FrameRel P) {α : Type} (a : Nat) (n : Option Nat) (r : Except AErr α) : Framed A P (M.access a n r) := by
  unfold M.access; split; exacts [framed_pure hp _, framed_stop _, framed_stop _]

theorem framed_each (hp : FrameRel P) {α : Type} {f : α → M Unit} (l : List α) (hf : ∀ a ∈ l, Framed A P (f a)) : Framed A P (M.each f l) := by
  induction l with
  | nil => exact framed_pure hp _
  | cons a r ih => exact framed_bind hp (hf a (by simp)) fun _ => ih fun b hb => hf b (by simp [hb])

theorem fill_fields (s : State) (ag : Agent) (e : TlbEntry) (l : List WalkEntry) :
    (s.fill ag e l).mem = s.mem ∧ (s.fill ag e l).poolDirty = s.poolDirty ∧ (s.fill ag e l).workers = s.workers ∧
    (s.fill ag e l).curKey = s.curKey ∧ (s.fill ag e l).curEng = s.curEng := by
  unfold State.fill; cases ag <;> exact ⟨rfl, rfl, rfl, rfl, rfl⟩

theorem correct_fields (s : State) (a n : Nat) : (s.correct a n).mem = s.mem ∧ (s.correct a n).poolDirty = s.poolDirty ∧
   (s.correct a n).workers = s.workers ∧ (s.correct a n).curKey = s.curKey ∧ (s.correct a n).curEng = s.curEng :=
  ⟨rfl, rfl, rfl, rfl, rfl⟩

theorem Frame.foldl (hp : FrameRel P) {α : Type} (f : State → α → State) (l : List α) (h : ∀ a ∈ l, ∀ s, Frame A P s (f s a)) (s : State) : Frame A P s (l.foldl f s) := by
  induction l generalizing s with
  | nil => exact Frame.refl hp _
  | cons a r ih => exact Frame.trans hp (h a (by simp) s) (ih (fun b hb => h b (by simp [hb])) _)

theorem Frame.noteWalk (hp : FrameRel P) (s : State) (ag : Agent) (cx : Cx) (va : Nat) (l : List WalkEntry) : Frame A P s (s.noteWalk ag cx va l) :=
  Frame.foldl hp (fun s a => s.correct a 8) _ (fun _ _ _ => Frame.same hp rfl rfl rfl rfl rfl) s

theorem resolve_fr (hp : FrameRel P) {s : State} {ag : Agent} {cx : Cx} {va : Nat} {acc : Acc} {p : Phys} {t : State}
    (h : s.resolve ag cx va acc = .ok (p, t)) : Frame A P s t := by
  unfold State.resolve at h
  split at h
  · cases h
  · injection h with h; injection h with h1 h2
    subst h2
    split
    · rename_i e l _ _ _
      obtain ⟨h1, h2, h3, h4, h5⟩ := fill_fields (s.noteWalk ag cx va l) ag e l
      exact Frame.trans hp (Frame.noteWalk hp s ag cx va l) (Frame.same hp h1 h2 h3 h4 h5)
    · exact Frame.refl hp _

theorem framed_placeIn (hp : FrameRel P) (cx ag va size acc slot rights bounds) : Framed A P (placeIn cx ag va size acc slot rights bounds) := by
  intro s b t h
  unfold placeIn at h
  simp only [m_bind, m_look, id_eq] at h
  cases h1 : windowOf cx rights va with
  | error e => rw [h1] at h; cases e <;> simp [M.access] at h
  | ok win =>
    rw [h1] at h
    cases h2 : bounds with
    | error e => rw [h2] at h; cases e <;> simp [M.access] at h
    | ok u =>
      rw [h2] at h
      cases h3 : aligned va size with
      | error e => rw [h3] at h; cases e <;> simp [M.access] at h
      | ok u =>
        rw [h3] at h
        simp only [M.access, m_pure] at h
        cases win with
        | some p => simp only [m_pure] at h; injection h with h; injection h with h1 h2; subst h2; exact Frame.refl hp _
        | none =>
          simp only [m_bind] at h
          cases h4 : s.resolve ag cx va acc with
          | error e => rw [h4] at h; cases e <;> simp at h
          | ok r =>
            obtain ⟨p, u⟩ := r
            rw [h4] at h
            simp only [m_pure, m_change] at h
            injection h with h; injection h with h1 h2; subst h2
            exact resolve_fr hp h4

theorem framed_placeOf (hp : FrameRel P) (ag va size acc slot rights bounds) : Framed A P (placeOf ag va size acc slot rights bounds) := by
  unfold placeOf
  exact framed_bind hp (framed_look hp _) fun s => framed_placeIn hp _ _ _ _ _ _ _ _

theorem framed_detect (hp : FrameRel P) (va slot store p size) : Framed A P (detectAt va slot store p size) := by
  unfold detectAt detectIn
  refine framed_bind hp (framed_look hp _) fun s => framed_bind hp (framed_look hp _) fun s => ?_
  dsimp only
  split
  · exact framed_pure hp _
  · split
    · exact framed_stop _
    · exact framed_change fun s => Frame.same hp rfl rfl rfl rfl rfl

theorem framed_detectAll (hp : FrameRel P) (st l) : Framed A P (detectAll st l) := framed_each hp _ fun _ _ => framed_detect hp _ _ _ _ _

/-- Records of writes are outside every frame. -/
theorem Frame.writes (hp : FrameRel P) {s t : State} (h : t = { s with writes := t.writes }) : Frame A P s t := by
  rw [h]; exact Frame.same hp rfl rfl rfl rfl rfl

theorem Frame.accessed (hp : FrameRel P) (s : State) (p : Place) : Frame A P s (s.accessed p) := by
  unfold State.accessed; split
  · exact Frame.setWk hp (hp.acted _ _ _ s.st.acq _)
  · exact Frame.refl hp _

theorem Frame.loaded (hp : FrameRel P) (s : State) (p : Place) (n : Nat) : Frame A P s (s.loaded p n) :=
  Frame.trans hp (Frame.writes hp (looked_same _ _ _ _)) (Frame.accessed hp _ _)

theorem Frame.acquire (hp : FrameRel P) (s : State) (n : Nat) : Frame A P s (s.acquire n) :=
  Frame.setWk hp (hp.acted _ _ _ _ s.st.soLast)

theorem Frame.popAcquire (hp : FrameRel P) (s : State) (e : Eng) (tk : BitVec 4) : Frame A P s (s.popAcquire e tk) := by
  unfold State.popAcquire; split
  · exact Frame.refl hp _
  · exact Frame.acquire hp _ _

theorem Frame.noteRead (hp : FrameRel P) (s : State) (p : Place) (n : Nat) : Frame A P s (s.noteRead p n) := by
  unfold State.noteRead; split
  · exact Frame.same hp rfl rfl rfl rfl rfl
  · exact Frame.same hp rfl rfl rfl rfl rfl

theorem Frame.releaseTo (hp : FrameRel P) (s : State) (k : Nat) (e : Eng) (n scope : Nat) (un : Bool) :
    Frame A P s (s.releaseTo k e n scope un) := Frame.writes hp (releaseTo_same _ _ _ _ _ _)

theorem framed_readNewest (hp : FrameRel P) (p n) : Framed A P (readNewest p n) := by
  unfold readNewest
  refine framed_bind hp (framed_look hp _) fun s => ?_
  split
  · exact framed_access hp _ _ _
  · exact framed_bind hp (framed_change fun s => Frame.trans hp (Frame.trans hp
      (Frame.writes hp (lookedNewest_same _ _ _ _)) (Frame.accessed hp _ _)) (Frame.noteRead hp _ _ _)) fun _ => framed_pure hp _

theorem framed_readAt (hp : FrameRel P) (p n) : Framed A P (readAt p n) := by
  unfold readAt
  refine framed_bind hp (framed_look hp _) fun s => ?_
  split
  · exact framed_access hp _ _ _
  · exact framed_bind hp (framed_change fun s => Frame.trans hp (Frame.loaded hp s _ _) (Frame.noteRead hp _ _ _)) fun _ => framed_pure hp _

theorem Frame.putBytes (hp : FrameRel P) (p : Phys) (l : List Byte) (s : State) (o : Nat) (h : ∀ a, o ≤ a → a < o + l.length → A a) :
    Frame A P s (s.putBytes p o l) := by
  have hk : ∀ (l : List Byte) (s : State) (o : Nat), (s.putBytes p o l).curKey = s.curKey ∧ (s.putBytes p o l).curEng = s.curEng := by
    intro l
    induction l with
    | nil => intro s o; exact ⟨rfl, rfl⟩
    | cons b r ih =>
      intro s o
      have h1 := ih (s.putByte p o b) (o + 1)
      have h2 : (s.putByte p o b).curKey = s.curKey ∧ (s.putByte p o b).curEng = s.curEng := by
        unfold State.putByte; split <;> exact ⟨rfl, rfl⟩
      exact ⟨h1.1.trans h2.1, h1.2.trans h2.2⟩
  refine ⟨fun _ a ha => ?_, fun k => ?_, putBytes_dirty p l s o, (hk l s o).1, (hk l s o).2⟩
  · rw [physByte_putBytes, if_neg]
    rintro ⟨h1, h2⟩; exact ha (h a h1 h2)
  · have : (s.putBytes p o l).worker k = s.worker k := by
      unfold State.worker State.worker?; rw [putBytes_workers]
    rw [this]; exact hp.refl _ _

/-- what may be written at a place of n bytes -/
def Allowed (A : Nat → Prop) (P : Nat → Worker → Worker → Prop) (p : Place) (n : Nat) : Prop :=
  match p with
  | .phys x => ∀ a, x.addr ≤ a → a < x.addr + n → A a
  | .spad k o => ∀ (l : List Byte) w, l.length ≤ n → P k w { w with spad := w.spad.writeBytes o l }
  | .cell _ _ _ => False
  | .knot _ _ => True

theorem Frame.writePlace (hp : FrameRel P) (s : State) (p : Place) (l : List Byte) (n : Nat) (hl : l.length ≤ n) (h : Allowed A P p n) :
    Frame A P s (s.writePlace p l) := by
  unfold State.writePlace
  cases p with
  | spad k o => exact Frame.modWorker hp fun w => h l w hl
  | cell k i b => exact h.elim
  | knot k j => exact Frame.refl hp _
  | phys x => exact Frame.putBytes hp x l s x.addr fun a h1 h2 => h a h1 (by omega)

theorem Frame.writeAll (hp : FrameRel P) (s : State) (ws : List (Place × List Byte)) (h : ∀ w ∈ ws, Allowed A P w.1 w.2.length) :
    Frame A P s (s.writeAll ws) := by
  unfold State.writeAll
  exact Frame.trans hp (t := s.sweep ws) (Frame.same hp rfl rfl rfl rfl rfl)
    (Frame.foldl hp _ ws (fun w hw s => Frame.writePlace hp s w.1 w.2 _ (le_refl _) (h w hw)) _)

theorem Frame.writeDone (hp : FrameRel P) (s : State) (ws : List (Place × List Byte)) (h : ∀ w ∈ ws, Allowed A P w.1 w.2.length) :
    Frame A P s (s.writeDone ws) := by
  refine Frame.trans hp (Frame.foldl hp _ ws (fun w _ s => ?_) s) (Frame.writeAll hp _ ws h)
  unfold State.noteDoneAt; split
  · exact Frame.refl hp _
  · exact Frame.writes hp (noteDone_same _ _ _ _)

theorem framed_writeAll (hp : FrameRel P) (ws : List (Place × List Byte)) (h : ∀ w ∈ ws, Allowed A P w.1 w.2.length) : Framed A P (writeAllM ws) := by
  unfold writeAllM
  refine framed_bind hp (framed_look hp _) fun s => ?_
  split
  · exact framed_access hp _ _ _
  · exact framed_change fun s => Frame.writeDone hp s ws h

theorem framed_writeAs (hp : FrameRel P) (a : Author) (ws : List (Place × List Byte)) (h : ∀ w ∈ ws, Allowed A P w.1 w.2.length) :
    Framed A P (writeAs a ws) := by
  unfold writeAs
  refine framed_bind hp (framed_look hp _) fun s => ?_
  split
  · exact framed_access hp _ _ _
  · exact framed_change fun s => Frame.trans hp (t := s.noteWrites a ws) (Frame.writes hp (noteWrites_same _ _ _)) (Frame.writeAll hp _ ws h)

theorem framed_storeAll (hp : FrameRel P) (ws : List (Place × List Byte)) (h : ∀ w ∈ ws, Allowed A P w.1 w.2.length) : Framed A P (storeAllM ws) := by
  unfold storeAllM
  refine framed_bind hp (framed_look hp _) fun s => framed_bind hp (framed_writeAs hp _ ws h) fun _ => ?_
  exact framed_change fun s => Frame.foldl hp _ ws (fun w _ s => Frame.accessed hp s w.1) s

theorem Frame.issued (hp : FrameRel P) (s : State) (e : Eng) (len i toks) : Frame A P s (s.setWk (s.wk.setStrand e ((s.wk.strands.get e).issued len i toks))) :=
  Frame.setWk hp (hp.issued _ _ _ _ _ _)

/-- The same from one state. -/
def FramedAt (A : Nat → Prop) (P : Nat → Worker → Worker → Prop) {α : Type} (s : State) (act : M α) : Prop := ∀ a t, act s = .ok (a, t) → Frame A P s t

theorem framedAt_of {α : Type} {s : State} {act : M α} (h : Framed A P act) : FramedAt A P s act := fun a t => h s a t

theorem framedAt_look {α β : Type} {s : State} {F : State → α} {f : α → M β} (h : FramedAt A P s (f (F s))) : FramedAt A P s (M.look F >>= f) := h

theorem framedAt_await {β : Type} {s : State} {b : Bool} {f : Unit → M β} (h : FramedAt A P s (f ())) : FramedAt A P s (M.await b >>= f) := by
  cases b
  · intro a t hh; cases hh
  · exact h

theorem framedAt_bind (hp : FrameRel P) {α β : Type} {s : State} {x : M α} {f : α → M β} (hx : ∀ a t, x s = .ok (a, t) → Frame A P s t ∧ FramedAt A P t (f a)) : FramedAt A P s (x >>= f) := by
  intro b t h
  rw [m_bind] at h
  cases hxs : x s with
  | error e => rw [hxs] at h; cases h
  | ok r =>
    obtain ⟨a, u⟩ := r
    rw [hxs] at h
    obtain ⟨h1, h2⟩ := hx a u hxs
    exact Frame.trans hp h1 (h2 b t h)

theorem framedAt_bind1 (hp : FrameRel P) {α β : Type} {s : State} {x : M α} {f : α → M β} (hx : FramedAt A P s x) (hf : ∀ a, Framed A P (f a)) : FramedAt A P s (x >>= f) :=
  framedAt_bind hp fun a t h => ⟨hx a t h, framedAt_of (hf a)⟩

theorem framedAt_ite {c : Prop} [Decidable c] {α : Type} {s : State} {x y : M α} (hx : FramedAt A P s x) (hy : FramedAt A P s y) : FramedAt A P s (if c then x else y) := by
  split; exacts [hx, hy]

theorem fr_settle (hp : FrameRel P) {e : Eng} {act : M Unit} {s t : State} (hm : FramedAt A P s act) (h : runOwn e act s = .next t) : Frame A P s t := by
  unfold runOwn at h
  split at h
  · split at h
    · unfold settleStop at h
      split at h
      · injection h with h; subst h; exact hm _ _ (by assumption)
      · injection h with h; subst h; exact Frame.refl hp _
      · injection h with h; subst h; exact Frame.trap hp _ _ _ _
      · injection h with h; subst h; exact Frame.check hp _ _ _ _ _ _
    · cases h
  · cases h

/-- An S instruction keeps the frame that its actions keep. -/
theorem fr_runS (hp : FrameRel P) {len : Nat} {g : Option Guard} {on : M Issue} {s t : State} (hon : FramedAt A P s on)
    (h : runS len g on M.nothing s = .next t) : Frame A P s t := by
  refine fr_settle hp ?_ h
  unfold issueS
  refine framedAt_look (framedAt_await ?_)
  exact framedAt_ite (framedAt_bind1 hp hon fun i => framed_change fun s => Frame.issued hp s .S len i [])
      (framedAt_bind1 hp (framedAt_of (framed_pure hp _)) fun i => framed_change fun s => Frame.issued hp s .S len i [])

/-- An engine instruction keeps the frame that its actions keep. -/
theorem fr_runE64 (hp : FrameRel P) (htok : ∀ k w q n, P k w (Worker.setTokens w q n)) {e : Eng} {f : E64} {on off : M Issue} {s t : State} (hon : FramedAt A P (s.popAcquire e f.tk) on) (hoff : FramedAt A P (s.popAcquire e f.tk) off)
    (h : runE64 e f on off s = .next t) : Frame A P s t := by
  refine fr_settle hp ?_ h
  unfold issueE64
  refine framedAt_look (framedAt_await (framedAt_look (framedAt_await ?_)))
  have hfin : ∀ i : Issue, Framed A P (M.change fun s => s.setWk ((List.foldl (fun w q => w.setTokens q (w.tokensIn q - 1)) s.wk (tokPops e f.tk)).setStrand e (((List.foldl (fun w q => w.setTokens q (w.tokensIn q - 1)) s.wk (tokPops e f.tk)).strands.get e).issued 4 i (tokPushes e f.tk)))) := by
    intro i
    refine framed_change fun s => ?_
    have h1 : ∀ (l : List TokQ) (w : Worker), P s.curKey w (l.foldl (fun w q => w.setTokens q (w.tokensIn q - 1)) w) := by
      intro l
      induction l with
      | nil => intro w; exact hp.refl _ _
      | cons q r ih => intro w; exact hp.trans _ _ _ _ (htok _ _ _ _) (ih _)
    exact Frame.setWk hp (hp.trans _ _ _ _ (h1 _ _) (hp.issued _ _ _ _ _ _))
  refine framedAt_bind hp fun a t h => ?_
  injection h with h; injection h with _ h; subst h
  refine ⟨Frame.popAcquire hp _ _ _, ?_⟩
  exact framedAt_ite (framedAt_bind1 hp hon hfin) (framedAt_bind1 hp hoff hfin)

/-- Everything that a found place says of its address. -/
theorem placeIn_ok {cx : Cx} {ag : Agent} {va size : Nat} {acc : Acc} {slot : Option Nat} {rights : Place → Bool} {bounds : Except AErr Unit} {s t : State} {p : Place}
    (h : placeIn cx ag va size acc slot rights bounds s = .ok (p, t)) :
    (inWindows va = true ∧ windowPlace cx va = some p ∧ rights p = true ∧ t = s) ∨
    (inWindows va = false ∧ ∃ x, s.resolve ag cx va acc = .ok (x, t) ∧ p = .phys x) := by
  unfold placeIn at h
  simp only [m_bind, m_look, id_eq] at h
  cases h1 : windowOf cx rights va with
  | error e => rw [h1] at h; cases e <;> simp [M.access] at h
  | ok win =>
    rw [h1] at h
    cases h2 : bounds with
    | error e => rw [h2] at h; cases e <;> simp [M.access] at h
    | ok u =>
      rw [h2] at h
      cases h3 : aligned va size with
      | error e => rw [h3] at h; cases e <;> simp [M.access] at h
      | ok u =>
        rw [h3] at h
        simp only [M.access, m_pure] at h
        unfold windowOf at h1
        cases win with
        | some q =>
          simp only [m_pure] at h; injection h with h; injection h with e1 e2; subst e1 e2
          left
          split at h1
          · cases h1
          · split at h1
            · split at h1
              · cases h1
              · split at h1
                · injection h1 with h1; injection h1 with h1; subst h1
                  exact ⟨by assumption, by assumption, by assumption, rfl⟩
                · cases h1
            · cases h1
        | none =>
          right
          simp only [m_bind] at h
          have hw : inWindows va = false := by
            split at h1
            · cases h1
            · split at h1
              · split at h1
                · cases h1
                · split at h1
                  · cases h1
                  · cases h1
              · rename_i h5; simpa using h5
          cases h4 : s.resolve ag cx va acc with
          | error e => rw [h4] at h; cases e <;> simp at h
          | ok r =>
            obtain ⟨x, u⟩ := r
            rw [h4] at h
            simp only [m_pure, m_change] at h
            injection h with h; injection h with e1 e2; subst e1 e2
            exact ⟨hw, x, rfl, rfl⟩

end

section
variable {A : Nat → Prop} {B : Nat → Nat → Prop} {F : Nat → Eng → Nat → Prop}

/-- A touch of a store is of bytes, of the element's size, in memory or a scratchpad. -/
def GoodTouch (w : Nat) (y : Touch) : Prop :=
  y.size = (if y.block.isSome then 1 else max 1 (w / 8)) ∧ ((∃ k o, y.place = .spad k o) ∨ ∃ x, y.place = .phys x)

/-- A touched place: its furrow may be used, and the place has passed its checks (R158, R159). -/
theorem touchAt_ok {f : Furrow} {k : Access} {fmt slot va shift n : Nat} {block : Option Nat} {s t : State} {y : Touch}
    (h : touchAt f k fmt slot va shift n block s = .ok (y, t)) :
    s.boundLive f = true ∧ ∃ p, placeIn (s.cxOf s.wk) s.wk.agent va n k.acc (some slot) (k.rights fmt) (f.within (s.cxOf s.wk) va n) s =
      .ok (p, t) ∧ y = ⟨slot, va, p, shift, n, block⟩ := by
  unfold touchAt touchIn contextCheck at h
  simp only [m_bind, m_look, id_eq] at h
  cases h1 : windowOf (s.cxOf s.wk) (k.rights fmt) va with
  | error e => rw [h1] at h; cases e <;> simp [M.access] at h
  | ok win =>
    rw [h1] at h
    simp only [M.access, m_pure] at h
    by_cases hb : s.boundLive f = true
    · rw [if_pos hb] at h
      simp only [m_pure] at h
      split at h
      · rename_i p u hpl
        injection h with h; injection h with h1 h2; subst h1 h2
        exact ⟨hb, p, hpl, rfl⟩
      · cases h
    · rw [if_neg hb] at h; cases h

theorem touch_good {f : Furrow} {fmt slot va shift n : Nat} {block : Option Nat} {s t : State} {y : Touch}
    (h : touchAt f storeAccess fmt slot va shift n block s = .ok (y, t)) : y.size = n ∧ y.block = block ∧ ((∃ k o, y.place = .spad k o) ∨ ∃ x, y.place = .phys x) := by
  obtain ⟨_, p, hpl, rfl⟩ := touchAt_ok h
  refine ⟨rfl, rfl, ?_⟩
  rcases placeIn_ok hpl with ⟨h1, h2, h3, h4⟩ | ⟨h1, x, h2, h3⟩
  · cases p with
    | spad k o => exact .inl ⟨k, o, rfl⟩
    | cell => cases h3
    | knot => cases h3
    | phys x => exact .inr ⟨x, rfl⟩
  · subst h3; exact .inr ⟨x, rfl⟩

/-- Every touch of a store's plan is good. -/
theorem plan_good {f : Furrow} {eff len : Nat} (es : List (Nat × Quad Nat)) : ∀ {prev : Option Nat} {s t : State} {l : List Touch},
    plan f storeAccess eff len prev es s = .ok (l, t) → ∀ y ∈ l, GoodTouch (fmtWidth eff) y := by
  induction es with
  | nil => intro prev s t l h; injection h with h; injection h with h1 h2; subst h1; simp
  | cons e r ih =>
    intro prev s t l h
    unfold plan at h
    rw [m_bind] at h
    split at h
    · rename_i y u hy
      have hgood : GoodTouch (fmtWidth eff) y := by
        unfold touchElem at hy
        cases hterm : f.term e.2 with
        | none => rw [hterm] at hy; cases hy
        | some tm =>
          rw [hterm] at hy
          obtain ⟨h1, h2, h3⟩ := touch_good hy
          exact ⟨by rw [h1, h2]; simp, h3⟩
      dsimp only at h
      split at h
      · rw [m_bind] at h
        split at h
        · rename_i z u2 hz
          obtain ⟨z1, z2, z3⟩ := touch_good hz
          rw [m_bind_ok (m_pure _ _)] at h
          have hz' : GoodTouch (fmtWidth eff) z := ⟨by rw [z1, z2]; simp, z3⟩
          rw [m_bind] at h
          split at h
          · rename_i l2 u3 hl
            rw [m_pure] at h
            injection h with h; injection h with h1 h2; subst h1
            intro x hx
            simp only [List.mem_cons, List.mem_append, List.not_mem_nil, or_false] at hx
            rcases hx with rfl | rfl | hx
            · exact hgood
            · exact hz'
            · exact ih hl x hx
          · cases h
        · cases h
      · rw [m_bind_ok (m_pure _ _), m_bind] at h
        split at h
        · rename_i l2 u3 hl
          rw [m_pure] at h
          injection h with h; injection h with h1 h2; subst h1
          intro x hx
          simp only [List.nil_append, List.mem_cons] at hx
          rcases hx with rfl | hx
          · exact hgood
          · exact ih hl x hx
        · cases h
    · cases h

end

/-- same workers and memory -/
structure SameBase (s t : State) : Prop where
  w : t.workers = s.workers
  m : t.mem = s.mem
  d : t.poolDirty = s.poolDirty
  k : t.curKey = s.curKey
  l : ∀ i, (t.launch i).workersN = (s.launch i).workersN

theorem SameBase.refl (s : State) : SameBase s s := ⟨rfl, rfl, rfl, rfl, fun _ => rfl⟩

theorem SameBase.trans {s t u : State} (h : SameBase s t) (g : SameBase t u) : SameBase s u := ⟨g.w.trans h.w, g.m.trans h.m, g.d.trans h.d, g.k.trans h.k, fun i => (g.l i).trans (h.l i)⟩

/-- Every answer of an action keeps them. -/
def KeepsBase {α : Type} (act : M α) : Prop := ∀ s a t, act s = .ok (a, t) → SameBase s t

theorem base_pure {α : Type} (a : α) : KeepsBase (pure a : M α) := by
  intro s b t h; injection h with h; injection h with h1 h2; subst h2; exact .refl _

theorem base_bind {α β : Type} {x : M α} {f : α → M β} (hx : KeepsBase x) (hf : ∀ a, KeepsBase (f a)) : KeepsBase (x >>= f) := by
  intro s b t h
  rw [m_bind] at h
  cases hxs : x s with
  | error e => rw [hxs] at h; cases h
  | ok r =>
    obtain ⟨a, u⟩ := r
    rw [hxs] at h
    exact (hx s a u hxs).trans (hf a u b t h)

theorem base_look {α : Type} (f : State → α) : KeepsBase (M.look f) := by
  intro s b t h; injection h with h; injection h with h1 h2; subst h2; exact .refl _

theorem base_stop {α : Type} (x : Stop) : KeepsBase (M.stop x : M α) := by intro s b t h; cases h

theorem same_fill (s : State) (ag e l) : SameBase s (s.fill ag e l) := by
  unfold State.fill; cases ag <;> exact ⟨rfl, rfl, rfl, rfl, fun _ => rfl⟩

theorem same_noteWalk (s : State) (ag cx va l) : SameBase s (s.noteWalk ag cx va l) := by
  have key : ∀ (r : List Nat) (s : State), SameBase s (r.foldl (fun s a => s.correct a 8) s) := by
    intro r
    induction r with
    | nil => intro s; exact .refl s
    | cons a r ih => intro s; exact SameBase.trans (t := s.correct a 8) ⟨rfl, rfl, rfl, rfl, fun _ => rfl⟩ (ih _)
  exact key _ s

theorem base_placeIn (cx ag va size acc slot rights bounds) : KeepsBase (placeIn cx ag va size acc slot rights bounds) := by
  intro s p t h
  rcases placeIn_ok h with ⟨_, _, _, rfl⟩ | ⟨_, x, h2, _⟩
  · exact .refl _
  · unfold State.resolve at h2
    split at h2
    · cases h2
    · injection h2 with h2; injection h2 with h1 h2
      subst h2
      split
      · exact (same_noteWalk _ _ _ _ _).trans (same_fill _ _ _ _)
      · exact .refl _

theorem base_touch (f k fmt slot va shift n block) : KeepsBase (touchAt f k fmt slot va shift n block) := by
  intro s y t h
  obtain ⟨_, p, hpl, _⟩ := touchAt_ok h
  exact base_placeIn _ _ _ _ _ _ _ _ s p t hpl

theorem base_touchElem (f k eff e) : KeepsBase (touchElem f k eff e) := by
  unfold touchElem; split; exacts [base_stop _, base_touch _ _ _ _ _ _ _ _]

theorem wk_of_SW {s t : State} (h : SameBase s t) : t.wk = s.wk := by
  unfold State.wk State.worker State.worker?; rw [h.w, h.k]

theorem cx_of_SW {s t : State} (h : SameBase s t) : t.cxOf t.wk = s.cxOf s.wk := by
  rw [wk_of_SW h]; unfold State.cxOf; rw [h.l]

theorem placeIn_checks {cx : Cx} {ag : Agent} {va size : Nat} {acc : Acc} {slot : Option Nat} {rights : Place → Bool} {bounds : Except AErr Unit} {s t : State} {p : Place}
    (h : placeIn cx ag va size acc slot rights bounds s = .ok (p, t)) : va < 2 ^ 57 ∧ va % size = 0 := by
  unfold placeIn at h
  simp only [m_bind, m_look, id_eq] at h
  cases h1 : windowOf cx rights va with
  | error e => rw [h1] at h; cases e <;> simp [M.access] at h
  | ok win =>
    rw [h1] at h
    cases h2 : bounds with
    | error e => rw [h2] at h; cases e <;> simp [M.access] at h
    | ok u =>
      rw [h2] at h
      cases h3 : aligned va size with
      | error e => rw [h3] at h; cases e <;> simp [M.access] at h
      | ok u =>
        refine ⟨?_, ?_⟩
        · unfold windowOf at h1
          split at h1
          · cases h1
          · omega
        · unfold aligned at h3
          split at h3
          · assumption
          · cases h3

/-- What a checked touch says of its element: slot, size, address, alignment and place (R155, R159). -/
def FoundTouch (s : State) (u : Furrow) (k : Access) (eff : Nat) (e : Nat × Quad Nat) (y : Touch) : Prop :=
  y.slot = e.1 ∧ y.block = none ∧ y.size = max 1 (fmtWidth eff / 8) ∧
      (∃ x, u.term e.2 = some x ∧ (y.addr, y.shift) = u.addr eff e.2 x) ∧ y.addr < 2 ^ 57 ∧ y.addr % y.size = 0 ∧
      (inWindows y.addr = true → windowPlace (s.cxOf s.wk) y.addr = some y.place ∧ k.rights eff y.place = true) ∧
      (inWindows y.addr = false → ∃ p, y.place = .phys p)

theorem touchElem_found {s t : State} {u : Furrow} {k : Access} {eff : Nat} {e : Nat × Quad Nat} {y : Touch}
    (h : touchElem u k eff e s = .ok (y, t)) : FoundTouch s u k eff e y := by
  unfold touchElem at h
  cases hterm : u.term e.2 with
  | none => rw [hterm] at h; cases h
  | some x =>
    rw [hterm] at h
    dsimp only at h
    obtain ⟨_, p, hpl, rfl⟩ := touchAt_ok h
    obtain ⟨h57, hal⟩ := placeIn_checks hpl
    refine ⟨rfl, rfl, rfl, ⟨x, hterm, rfl⟩, h57, hal, ?_, ?_⟩
    · intro hw
      rcases placeIn_ok hpl with ⟨h1, h2, h3, h4⟩ | ⟨h1, x, h2, h3⟩
      · exact ⟨h2, h3⟩
      · simp only at hw; rw [hw] at h1; cases h1
    · intro hw
      rcases placeIn_ok hpl with ⟨h1, h2, h3, h4⟩ | ⟨h1, x, h2, h3⟩
      · simp only at hw; rw [hw] at h1; cases h1
      · exact ⟨x, h3⟩

/-- Every touch of an element plan says where its element lies. -/
theorem plan_found (u : Furrow) (k : Access) (eff : Nat) (s0 : State) (es : List (Nat × Quad Nat)) : ∀ (prev : Option Nat) (s t : State) (l : List Touch), SameBase s0 s →
    plan u k eff 0 prev es s = .ok (l, t) → List.Forall₂ (FoundTouch s0 u k eff) es l := by
  induction es with
  | nil => intro prev s t l _ h; injection h with h; injection h with h1 h2; subst h1; exact .nil
  | cons e r ih =>
    intro prev s t l hs h
    unfold plan at h
    rw [m_bind] at h
    split at h
    · rename_i y v hy
      dsimp only at h
      rw [if_neg (by simp)] at h
      rw [m_bind_ok (m_pure _ _), m_bind] at h
      split at h
      · rename_i l2 u3 hl
        rw [m_pure] at h
        injection h with h; injection h with h1 h2; subst h1
        refine .cons ?_ (ih _ _ _ _ (hs.trans (base_touchElem _ _ _ _ s y v hy)) hl)
        have := touchElem_found hy
        unfold FoundTouch at this ⊢
        rw [cx_of_SW hs] at this
        exact this
      · cases h
    · cases h

end Sys2Proof.Machine
end

