-- ==== Sys2Proof/Tests/Slice0.lean ====
section
/-! SUPPORT. Tests: a word of every instruction decodes to it; what `WellFormed` refuses; states that meet the hypotheses of the
statements (`test_hyp_<statement>`, one theorem or more for each, clause by clause); and single instructions on values worked
out by hand from the spec. -/
open Sys2Proof Sys2Proof.Machine
namespace Sys2Proof

set_option Elab.async false

/-! ## States of the tests -/

/-- The device of `State.placed` with its worker's strand of engine `e` in turn, parcels at the text address, and the worker and
its launch changed. Its page tables map the text page with every right. -/
def Tests.dev (e : Eng) (l : List Parcel) (f : Worker → Worker) (g : Launch → Launch) : State :=
  let s := State.reset.placed
  let t : State := { s with curEng := e, mem := s.mem.writeBytes 0x40000000 (l.flatMap fun (p : Parcel) => toBytes p.toNat 2) }
  (t.modWorker 0 f).modLaunch 0 g

/-- The same with nothing changed. -/
def Tests.plain (e : Eng) : State := Tests.dev e [] id id

/-- The same with scalars set. -/
def Tests.regs (l : Tab Word) : State := Tests.dev .S [] (fun w => { w with sregs := l }) id

/-- Always on; on while p0, which is false at launch; off while p0. -/
def Tests.on : Guard := ⟨false, 15⟩
/-- See `Tests.on`. -/
def Tests.off : Guard := ⟨false, 0⟩
/-- See `Tests.on`. -/
def Tests.notP0 : Guard := ⟨true, 0⟩

theorem Tests.ready (e : Eng) (s : State) (h : (s.live && s.curEng == e && decide (s.st.pend.length < 32)) = true) :
    Turn.Ready e s := by
  simp only [Bool.and_eq_true, beq_iff_eq, decide_eq_true_eq] at h
  exact ⟨h.1.1, h.1.2, h.2⟩

theorem Tests.go (e : Eng) (f : E64) (s : State)
    (h : (s.live && s.curEng == e && decide (s.st.pend.length < 32) && (tokPops e f.tk).all (fun q => decide (0 < s.wk.tokensIn q)) &&
      s.view.guard f.g) = true) : Turn.Go e f s := by
  simp only [Bool.and_eq_true, beq_iff_eq, decide_eq_true_eq, List.all_eq_true] at h
  exact ⟨h.1.1.1.1, h.1.1.1.2, h.1.1.2, h.1.2, h.2⟩

/-- Whether an outcome is a next state. -/
def Tests.next : Host.Outcome State Fault Refusal → Bool
  | .next _ => true
  | _ => false

theorem Tests.next_iff (o : Host.Outcome State Fault Refusal) (h : Tests.next o = true) : ∃ t, o = .next t := by
  cases o <;> first | exact ⟨_, rfl⟩ | cases h

theorem test_hyp_DivisionNeverFaults :
    let s := Tests.regs [(5, 0x8000000000000000), (6, 0xFFFFFFFFFFFFFFFF)]
    Turn.Ready .S s ∧ s.view.guard Tests.on = true ∧ s.wk.sget (7 : BitVec 5).toNat = 0 ∧
      (s.wk.sget (5 : BitVec 5).toNat).toInt = -2 ^ 63 ∧ (s.wk.sget (6 : BitVec 5).toNat).toInt = -1 :=
  ⟨Tests.ready _ _ (by decide), by decide, by decide, by decide, by decide⟩

/-- Also for the unary, float and hint statements, and the accesses of S. -/
theorem test_hyp_ScalarIntegerResults : Turn.Ready .S (Tests.plain .S) ∧ (Tests.plain .S).view.guard Tests.notP0 = true :=
  ⟨Tests.ready _ _ (by decide), by decide⟩

theorem test_hyp_ScalarUnaryAndImmediateResults :
    Turn.Ready .S (Tests.plain .S) ∧ (Tests.plain .S).view.guard Tests.on = true ∧
      (⟨Tests.on, 5, 6, 0, 0x80000000⟩ : S64).g = Tests.on ∧ (63 : BitVec 10).toNat < 64 :=
  ⟨Tests.ready _ _ (by decide), by decide, by decide, by decide⟩

theorem test_hyp_ComparesWritePredicates :
    Turn.Ready .S (Tests.plain .S) ∧ (Tests.plain .S).view.guard Tests.on = true ∧ (Tests.plain .S).configFree :=
  ⟨Tests.ready _ _ (by decide), by decide, by unfold State.configFree; decide⟩

/-! ## Decoding -/

/-- Whether each list of parcels decodes to its instruction. -/
def Tests.decodes (l : List (List Parcel × Instr)) : Bool := l.all fun x => decodeParcels x.1 == .instr x.2

/-- The encodings that the spec prints beside their assembly text, the fields as its notes there say (R30, R48 to R54). -/
theorem test_decode_printed_1 : Tests.decodes [
    ([0x00D3], .fence 2 3),
    ([0x00CB], .fence 1 3),
    ([0x0140], .eret),
    ([0xA80C, 0x8003], .headland 12 true 3),
    ([0xA80C, 0x4003], .headlandCounted 12 false 3),
    ([0x0BDF, 0x0000], .scommit Tests.on),
    ([0x0BCF, 0x1C00], .stask Tests.on 7),
    ([0x0BB2, 0x00C8], .sgarr ⟨false, 2⟩ 200),
    ([0x0C0F, 0x0001], .strap Tests.on 1),
    ([0x108F, 0x0003, 0xFFF0, 0xFFFF], .szset ⟨Tests.on, 0, 0, 3, 0xFFFFFFF0⟩),
    ([0x108F, 0x0062, 0x0000, 0x0000], .szset ⟨Tests.on, 0, 3, 2, 0⟩),
    ([0x109F, 0x0003, 0x0000, 0x3F80], .shset ⟨Tests.on, 0, 0, 3, 0x3F800000⟩),
    ([0x109F, 0x0041, 0x0000, 0x0000], .shset ⟨Tests.on, 0, 2, 1, 0⟩),
    ([0x0D5F, 0x1001], .kwaiti Tests.on 4 1),
    ([0x105F, 0x1400, 0x5678, 0x1234], .sli32 ⟨Tests.on, 5, 0, 0, 0x12345678⟩),
    ([0x5300, 0x7938, 0x0002, 0xE000], .vcmp ⟨0, Tests.on, 0x138, 0x00, 0x02, 0xE0, 0x00⟩),
    ([0x53B8, 0x7C8C, 0x0503, 0x0100], .vnoise ⟨8, Tests.on, 0x48C, 0x05, 0x03, 0x01, 0x00⟩),
    ([0x9028, 0x7FD0, 0x0107, 0x0400], .wsct ⟨8, Tests.on, 0x7D0, 0x01, 0x07, 0x04, 0x00⟩),
    ([0x5001, 0x9838, 0x0580, 0x0600], .vadd ⟨1, ⟨true, 3⟩, 0x038, 0x05, 0x80, 0x06, 0x00⟩),
    ([0x080F, 0x14C7], .sadd Tests.on 5 6 7),
    ([0x0ADF, 0x1809], .csrr Tests.on 6 9),
    ([0x0B2F, 0x1800], .sqpop Tests.on 6),
    ([0x0B4F, 0x0000], .stok Tests.on),
    ([0x10AF, 0x1040, 0x0001, 0x0101], .sshape ⟨Tests.on, 4, 2, 0, 0x1010001⟩),
    ([0x5780, 0x7800, 0x0300, 0x0002], .vkadd ⟨0, Tests.on, 0x000, 0x03, 0x00, 0x00, 0x02⟩),
    ([0x5030, 0x7A78, 0x0A0B, 0x0C0D], .vfma ⟨0, Tests.on, 0x278, 0x0A, 0x0B, 0x0C, 0x0D⟩),
    ([0x5181, 0x7D94, 0x0405, 0x8100], .viadd ⟨1, Tests.on, 0x594, 0x04, 0x05, 0x81, 0x00⟩),
    ([0x5300, 0x79BC, 0x0502, 0x0300], .vcmp ⟨0, Tests.on, 0x1BC, 0x05, 0x02, 0x03, 0x00⟩),
    ([0x5280, 0x78C4, 0x0607, 0x0000], .vcvt ⟨0, Tests.on, 0x0C4, 0x06, 0x07, 0x00, 0x00⟩),
    ([0x5290, 0x7B80, 0x1415, 0x0021], .vqnt ⟨0, Tests.on, 0x380, 0x14, 0x15, 0x00, 0x21⟩),
    ([0x52A0, 0x7800, 0x1E1F, 0x0036], .vdq ⟨0, Tests.on, 0x000, 0x1E, 0x1F, 0x00, 0x36⟩),
    ([0x5320, 0x7800, 0x0301, 0x0200], .mand ⟨0, Tests.on, 0x000, 0x03, 0x01, 0x02, 0x00⟩),
    ([0x5360, 0x7800, 0x0004, 0x0000], .mcnt ⟨0, Tests.on, 0x000, 0x00, 0x04, 0x00, 0x00⟩),
    ([0x5450, 0x7880, 0x0302, 0x0400], .vcompact ⟨0, Tests.on, 0x080, 0x03, 0x02, 0x04, 0x00⟩),
    ([0x5440, 0x78B8, 0x0605, 0x0407], .vperm ⟨0, Tests.on, 0x0B8, 0x06, 0x05, 0x04, 0x07⟩),
    ([0x5440, 0x78B8, 0x0605, 0x04FF], .vperm ⟨0, Tests.on, 0x0B8, 0x06, 0x05, 0x04, 0xFF⟩),
    ([0x5410, 0x78B8, 0x0302, 0xE400], .vslice ⟨0, Tests.on, 0x0B8, 0x03, 0x02, 0xE4, 0x00⟩),
    ([0x5500, 0x7A78, 0x0908, 0x0021], .vrsum ⟨0, Tests.on, 0x278, 0x09, 0x08, 0x00, 0x21⟩),
    ([0x53B0, 0x7AB8, 0x0503, 0x0200], .vnoise ⟨0, Tests.on, 0x2B8, 0x05, 0x03, 0x02, 0x00⟩)] = true := by decide

/-- The others. -/
theorem test_decode_printed_2 : Tests.decodes [
    ([0x5120, 0x7838, 0x1415, 0x0391], .vrot ⟨0, Tests.on, 0x038, 0x14, 0x15, 0x03, 0x91⟩),
    ([0x5560, 0x78B8, 0x0206, 0x0000], .vcadd ⟨0, Tests.on, 0x0B8, 0x02, 0x06, 0x00, 0x00⟩),
    ([0x5370, 0x7A00, 0x0302, 0x0000], .vpset ⟨0, Tests.on, 0x200, 0x03, 0x02, 0x00, 0x00⟩),
    ([0x3000, 0x7FF8, 0x0100, 0x0000], .ldv ⟨0, Tests.on, 0x7F8, 0x01, 0x00, 0x00, 0x00⟩),
    ([0x3020, 0x7FF8, 0x8001, 0x0100], .lgth ⟨0, Tests.on, 0x7F8, 0x80, 0x01, 0x01, 0x00⟩),
    ([0x9008, 0x7FF8, 0x0405, 0x0000], .wst ⟨8, Tests.on, 0x7F8, 0x04, 0x05, 0x00, 0x00⟩),
    ([0x9030, 0x7AF8, 0x0203, 0x0403], .wamo ⟨0, Tests.on, 0x2F8, 0x02, 0x03, 0x04, 0x03⟩),
    ([0x7000, 0x7800, 0x0000, 0x0000], .mzclr ⟨0, Tests.on, 0x000, 0x00, 0x00, 0x00, 0x00⟩),
    ([0x7010, 0x7FC1, 0x0084, 0x0000], .mldb ⟨0, Tests.on, 0x7C1, 0x00, 0x84, 0x00, 0x00⟩),
    ([0x7020, 0x7800, 0x0000, 0x0000], .mswap ⟨0, Tests.on, 0x000, 0x00, 0x00, 0x00, 0x00⟩),
    ([0x7034, 0x7FC0, 0x0002, 0x0000], .mmul ⟨4, Tests.on, 0x7C0, 0x00, 0x02, 0x00, 0x00⟩),
    ([0x7046, 0x7838, 0x0504, 0x0000], .mrank ⟨6, Tests.on, 0x038, 0x05, 0x04, 0x00, 0x00⟩),
    ([0x7052, 0x7800, 0x0300, 0x0000], .mrdz ⟨2, Tests.on, 0x000, 0x03, 0x00, 0x00, 0x00⟩),
    ([0x7060, 0x7800, 0x0000, 0x0000], .mzcnt ⟨0, Tests.on, 0x000, 0x00, 0x00, 0x00, 0x00⟩),
    ([0x3070, 0x7FF8, 0x0103, 0x0020], .lcbld ⟨0, Tests.on, 0x7F8, 0x01, 0x03, 0x00, 0x20⟩),
    ([0x3082, 0x7800, 0x0100, 0x0000], .lcbsw ⟨2, Tests.on, 0x000, 0x01, 0x00, 0x00, 0x00⟩),
    ([0x53C6, 0x78B8, 0x0403, 0x0000], .vgbias ⟨6, Tests.on, 0x0B8, 0x04, 0x03, 0x00, 0x00⟩),
    ([0x9070, 0x7878, 0x060A, 0x0B0C], .wsend ⟨0, Tests.on, 0x078, 0x06, 0x0A, 0x0B, 0x0C⟩),
    ([0x10BF, 0x00C0, 0x0000, 0x0000], .sbkj ⟨Tests.on, 0, 6, 0, 0x0⟩),
    ([0x0C1F, 0x0000], .smbend Tests.on),
    ([0x7100, 0x7840, 0x8D00, 0x8400], .shins ⟨0, Tests.on, 0x040, 0x8D, 0x00, 0x84, 0x00⟩),
    ([0x7110, 0x7800, 0x0000, 0x0000], .shmrg ⟨0, Tests.on, 0x000, 0x00, 0x00, 0x00, 0x00⟩),
    ([0x7120, 0x7801, 0x8D00, 0x0000], .shrd ⟨0, Tests.on, 0x001, 0x8D, 0x00, 0x00, 0x00⟩),
    ([0x7130, 0x7800, 0x0000, 0x0000], .shclr ⟨0, Tests.on, 0x000, 0x00, 0x00, 0x00, 0x00⟩),
    ([0x9050, 0x7AB0, 0x0603, 0x05FF], .wcpy ⟨0, Tests.on, 0x2B0, 0x06, 0x03, 0x05, 0xFF⟩),
    ([0x9050, 0x7830, 0x0807, 0x06FF], .wcpy ⟨0, Tests.on, 0x030, 0x08, 0x07, 0x06, 0xFF⟩),
    ([0x5316, 0x7811, 0x0708, 0x0600], .vsel ⟨6, Tests.on, 0x011, 0x07, 0x08, 0x06, 0x00⟩),
    ([0x5304, 0x78BC, 0x0409, 0x8E00], .vcmp ⟨4, Tests.on, 0x0BC, 0x04, 0x09, 0x8E, 0x00⟩),
    ([0x9061, 0x7830, 0x0201, 0x03FF], .wcpyx ⟨1, Tests.on, 0x030, 0x02, 0x01, 0x03, 0xFF⟩),
    ([0x9050, 0x7B30, 0x0601, 0x05FF], .wcpy ⟨0, Tests.on, 0x330, 0x06, 0x01, 0x05, 0xFF⟩),
    ([0x9050, 0x783C, 0x0605, 0x1403], .wcpy ⟨0, Tests.on, 0x03C, 0x06, 0x05, 0x14, 0x03⟩),
    ([0x3006, 0x7FF8, 0x0101, 0x0000], .ldv ⟨6, Tests.on, 0x7F8, 0x01, 0x01, 0x00, 0x00⟩),
    ([0x5300, 0x783C, 0x0306, 0x8E00], .vcmp ⟨0, Tests.on, 0x03C, 0x03, 0x06, 0x8E, 0x00⟩),
    ([0x51F0, 0x7839, 0x0BE1, 0x0B00], .vishl ⟨0, Tests.on, 0x039, 0x0B, 0xE1, 0x0B, 0x00⟩),
    ([0x5181, 0x7808, 0x010C, 0xDF00], .viadd ⟨1, Tests.on, 0x008, 0x01, 0x0C, 0xDF, 0x00⟩),
    ([0x9009, 0x7FD8, 0x0201, 0x0000], .wst ⟨9, Tests.on, 0x7D8, 0x02, 0x01, 0x00, 0x00⟩),
    ([0x10CF, 0x14C0, 0x0000, 0x0000], .slaunch ⟨Tests.on, 5, 6, 0, 0x0⟩),
    ([0x9051, 0x7830, 0x0201, 0x0503], .wcpy ⟨1, Tests.on, 0x030, 0x02, 0x01, 0x05, 0x03⟩),
    ([0x1014, 0x02A3, 0x0000, 0x0000], .sst ⟨⟨false, 4⟩, 0, 21, 3, 0x0⟩),
    ([0x10E4, 0x5EC4, 0x0042, 0x0000], .satinv ⟨⟨false, 4⟩, 23, 22, 4, 0x42⟩)] = true := by decide

/-- Decoding of one-parcel words and headlands (R18, R48, R56). -/
theorem test_decode_c16h : Tests.decodes [
    ([0x0000], .nop),
    ([0x0040], .exit),
    ([0x0095], .brk 21),
    ([0x00D5], .fence 2 5),
    ([0x0100], .ret),
    ([0x0140], .eret),
    ([0x0180], .settle),
    ([0x01C0], .yield),
    ([0x0200], .spin),
    ([0xA80C, 0x8003], .headland 12 true 3),
    ([0xA80C, 0x4003], .headlandCounted 12 false 3)] = true := by decide

/-- Decoding of two-parcel S words (R49, R56). -/
theorem test_decode_s32_1 : Tests.decodes [
    ([0x0805, 0x94C7], .sadd ⟨true, 5⟩ 5 6 7),
    ([0x0815, 0x94C7], .ssub ⟨true, 5⟩ 5 6 7),
    ([0x0825, 0x94C7], .smul ⟨true, 5⟩ 5 6 7),
    ([0x0835, 0x94C7], .smulh ⟨true, 5⟩ 5 6 7),
    ([0x0845, 0x94C7], .smulhn ⟨true, 5⟩ 5 6 7),
    ([0x0855, 0x94C7], .sdiv ⟨true, 5⟩ 5 6 7),
    ([0x0865, 0x94C7], .sdivn ⟨true, 5⟩ 5 6 7),
    ([0x0875, 0x94C7], .srem ⟨true, 5⟩ 5 6 7),
    ([0x0885, 0x94C7], .sremn ⟨true, 5⟩ 5 6 7),
    ([0x0895, 0x94C7], .sand ⟨true, 5⟩ 5 6 7),
    ([0x08A5, 0x94C7], .sor ⟨true, 5⟩ 5 6 7),
    ([0x08B5, 0x94C7], .sxor ⟨true, 5⟩ 5 6 7),
    ([0x08C5, 0x94C7], .sandn ⟨true, 5⟩ 5 6 7),
    ([0x08D5, 0x94C7], .sshl ⟨true, 5⟩ 5 6 7),
    ([0x08E5, 0x94C7], .sshr ⟨true, 5⟩ 5 6 7),
    ([0x08F5, 0x94C7], .ssra ⟨true, 5⟩ 5 6 7),
    ([0x0905, 0x94C7], .smin ⟨true, 5⟩ 5 6 7),
    ([0x0915, 0x94C7], .smax ⟨true, 5⟩ 5 6 7)] = true := by decide

/-- Decoding of two-parcel S words (R49, R56). -/
theorem test_decode_s32_2 : Tests.decodes [
    ([0x0925, 0x94C7], .sminn ⟨true, 5⟩ 5 6 7),
    ([0x0935, 0x94C7], .smaxn ⟨true, 5⟩ 5 6 7),
    ([0x0945, 0x94C7], .seq ⟨true, 5⟩ 5 6 7),
    ([0x0955, 0x94C7], .sne ⟨true, 5⟩ 5 6 7),
    ([0x0965, 0x94C7], .slt ⟨true, 5⟩ 5 6 7),
    ([0x0975, 0x94C7], .sltn ⟨true, 5⟩ 5 6 7),
    ([0x0985, 0x94C7], .sle ⟨true, 5⟩ 5 6 7),
    ([0x0995, 0x94C7], .slen ⟨true, 5⟩ 5 6 7),
    ([0x09A5, 0x94C7], .pand ⟨true, 5⟩ 5 6 7),
    ([0x09B5, 0x94C7], .por ⟨true, 5⟩ 5 6 7),
    ([0x09C5, 0x94C7], .pxor ⟨true, 5⟩ 5 6 7),
    ([0x09D5, 0x94C7], .pandn ⟨true, 5⟩ 5 6 7),
    ([0x09E5, 0x94C0], .sclz ⟨true, 5⟩ 5 6),
    ([0x09F5, 0x94C0], .spopc ⟨true, 5⟩ 5 6),
    ([0x0A05, 0x94C7], .scmov ⟨true, 5⟩ 5 6 7),
    ([0x0A15, 0x80C0], .jmpr ⟨true, 5⟩ 6),
    ([0x0A25, 0x80C0], .callr ⟨true, 5⟩ 6),
    ([0x0A35, 0x94C7], .sfadd ⟨true, 5⟩ 5 6 7)] = true := by decide

/-- Decoding of two-parcel S words (R49, R56). -/
theorem test_decode_s32_3 : Tests.decodes [
    ([0x0A45, 0x94C7], .sfsub ⟨true, 5⟩ 5 6 7),
    ([0x0A55, 0x94C7], .sfmul ⟨true, 5⟩ 5 6 7),
    ([0x0A65, 0x94C7], .sfmin ⟨true, 5⟩ 5 6 7),
    ([0x0A75, 0x94C7], .sfmax ⟨true, 5⟩ 5 6 7),
    ([0x0A85, 0x94C7], .sflt ⟨true, 5⟩ 5 6 7),
    ([0x0A95, 0x94C7], .sfeq ⟨true, 5⟩ 5 6 7),
    ([0x0AA5, 0x94C7], .sfle ⟨true, 5⟩ 5 6 7),
    ([0x0AB5, 0x94C0], .scvtif ⟨true, 5⟩ 5 6),
    ([0x0AC5, 0x94C0], .scvtfi ⟨true, 5⟩ 5 6),
    ([0x0AD5, 0x950C], .csrr ⟨true, 5⟩ 5 0x10C),
    ([0x0AE5, 0x950C], .csrw ⟨true, 5⟩ 5 0x10C),
    ([0x0AF5, 0x950C], .csrs ⟨true, 5⟩ 5 0x10C),
    ([0x0B05, 0x950C], .csrc ⟨true, 5⟩ 5 0x10C),
    ([0x0B15, 0x80C0], .sqpush ⟨true, 5⟩ 6),
    ([0x0B25, 0x9400], .sqpop ⟨true, 5⟩ 5),
    ([0x0B35, 0x9400], .sqfree ⟨true, 5⟩ 5),
    ([0x0B45, 0x8000], .stok ⟨true, 5⟩),
    ([0x0B55, 0x8000], .stokw ⟨true, 5⟩)] = true := by decide

/-- Decoding of two-parcel S words (R49, R56). -/
theorem test_decode_s32_4 : Tests.decodes [
    ([0x0B65, 0x94C0], .kadd ⟨true, 5⟩ 5 6),
    ([0x0B75, 0x94C0], .kwait ⟨true, 5⟩ 5 6),
    ([0x0B85, 0x94C0], .kread ⟨true, 5⟩ 5 6),
    ([0x0B95, 0x94C0], .kset ⟨true, 5⟩ 5 6),
    ([0x0BA5, 0x80A6], .sgsync ⟨true, 5⟩ 0xA6),
    ([0x0BB5, 0x80A6], .sgarr ⟨true, 5⟩ 0xA6),
    ([0x0BC5, 0x9400], .stask ⟨true, 5⟩ 5),
    ([0x0BD5, 0x8000], .scommit ⟨true, 5⟩),
    ([0x0BE5, 0x8000], .sdtrig ⟨true, 5⟩),
    ([0x0BF5, 0x8000], .sdwait ⟨true, 5⟩),
    ([0x0C05, 0x82A6], .strap ⟨true, 5⟩ 0x2A6),
    ([0x0C15, 0x8000], .smbend ⟨true, 5⟩),
    ([0x0C85, 0x96A6], .saddi ⟨true, 5⟩ 5 0x2A6),
    ([0x0C95, 0x96A6], .sli ⟨true, 5⟩ 5 0x2A6),
    ([0x0CA5, 0x96A6], .slui ⟨true, 5⟩ 5 0x2A6),
    ([0x0CB5, 0x96A6], .sandi ⟨true, 5⟩ 5 0x2A6),
    ([0x0CC5, 0x96A6], .sori ⟨true, 5⟩ 5 0x2A6),
    ([0x0CD5, 0x96A6], .sxori ⟨true, 5⟩ 5 0x2A6)] = true := by decide

/-- Decoding of two-parcel S words (R49, R56). -/
theorem test_decode_s32_5 : Tests.decodes [
    ([0x0CE5, 0x942C], .sshli ⟨true, 5⟩ 5 0x2C),
    ([0x0CF5, 0x942C], .sshri ⟨true, 5⟩ 5 0x2C),
    ([0x0D05, 0x942C], .ssrai ⟨true, 5⟩ 5 0x2C),
    ([0x0D15, 0x966C], .seqi ⟨true, 5⟩ 5 9 0x2C),
    ([0x0D25, 0x966C], .slti ⟨true, 5⟩ 5 9 0x2C),
    ([0x0D35, 0x966C], .sltni ⟨true, 5⟩ 5 9 0x2C),
    ([0x0D45, 0x96A6], .kaddi ⟨true, 5⟩ 5 0x2A6),
    ([0x0D55, 0x95A6], .kwaiti ⟨true, 5⟩ 5 0x1A6)] = true := by decide

/-- Decoding of four-parcel S words (R50, R56). -/
theorem test_decode_s64 : Tests.decodes [
    ([0x1005, 0x94C5, 0xCDEF, 0x89AB], .sld ⟨⟨true, 5⟩, 5, 6, 5, 0x89ABCDEF⟩),
    ([0x1055, 0x9400, 0xCDEF, 0x89AB], .sli32 ⟨⟨true, 5⟩, 5, 0, 0, 0x89ABCDEF⟩),
    ([0x10A5, 0x94C3, 0xCDEF, 0x89AB], .sshape ⟨⟨true, 5⟩, 5, 6, 3, 0x89ABCDEF⟩),
    ([0x1015, 0x94C2, 0xCDEF, 0x89AB], .sst ⟨⟨true, 5⟩, 5, 6, 2, 0x89ABCDEF⟩),
    ([0x1065, 0x94C0, 0xCDEF, 0x89AB], .saddi32 ⟨⟨true, 5⟩, 5, 6, 0, 0x89ABCDEF⟩),
    ([0x10B5, 0x80C0, 0x0000, 0x0000], .sbkj ⟨⟨true, 5⟩, 0, 6, 0, 0x00000000⟩),
    ([0x1025, 0x94D3, 0xCDEF, 0x89AB], .samo ⟨⟨true, 5⟩, 5, 6, 19, 0x89ABCDEF⟩),
    ([0x1075, 0x94D0, 0xCDEF, 0x89AB], .sfset ⟨⟨true, 5⟩, 5, 6, 16, 0x89ABCDEF⟩),
    ([0x10C5, 0x94C0, 0xCDEF, 0x89AB], .slaunch ⟨⟨true, 5⟩, 5, 6, 0, 0x89ABCDEF⟩),
    ([0x1035, 0x8000, 0xCDEF, 0x89AB], .br ⟨⟨true, 5⟩, 0, 0, 0, 0x89ABCDEF⟩),
    ([0x1085, 0xA4C4, 0xCDEF, 0x89AB], .szset ⟨⟨true, 5⟩, 9, 6, 4, 0x89ABCDEF⟩),
    ([0x10D5, 0x94C0, 0x89AB, 0x0000], .slaydef ⟨⟨true, 5⟩, 5, 6, 0, 0x000089AB⟩),
    ([0x1045, 0x8000, 0xCDEF, 0x89AB], .call ⟨⟨true, 5⟩, 0, 0, 0, 0x89ABCDEF⟩),
    ([0x1095, 0x8CC7, 0xCDEF, 0x89AB], .shset ⟨⟨true, 5⟩, 3, 6, 7, 0x89ABCDEF⟩),
    ([0x10E5, 0x94D5, 0x0000, 0x0001], .satinv ⟨⟨true, 5⟩, 5, 6, 21, 0x00010000⟩)] = true := by decide

/-- Decoding of V words (R51, R54, R57). -/
theorem test_decode_v_1 : Tests.decodes [
    ([0x500A, 0xAA5D, 0x2546, 0x8300], .vadd ⟨10, ⟨true, 5⟩, 0x25D, 0x25, 0x46, 0x83, 0x00⟩),
    ([0x501A, 0xAA5D, 0x2546, 0x8300], .vsub ⟨10, ⟨true, 5⟩, 0x25D, 0x25, 0x46, 0x83, 0x00⟩),
    ([0x502A, 0xAA5D, 0x2546, 0x8300], .vmul ⟨10, ⟨true, 5⟩, 0x25D, 0x25, 0x46, 0x83, 0x00⟩),
    ([0x503A, 0xAA5E, 0x2546, 0x8351], .vfma ⟨10, ⟨true, 5⟩, 0x25E, 0x25, 0x46, 0x83, 0x51⟩),
    ([0x504A, 0xAA5E, 0x2546, 0x8351], .vfms ⟨10, ⟨true, 5⟩, 0x25E, 0x25, 0x46, 0x83, 0x51⟩),
    ([0x505A, 0xAA5E, 0x2546, 0x8351], .vfnma ⟨10, ⟨true, 5⟩, 0x25E, 0x25, 0x46, 0x83, 0x51⟩),
    ([0x506A, 0xAA5D, 0x2546, 0x8300], .vmin ⟨10, ⟨true, 5⟩, 0x25D, 0x25, 0x46, 0x83, 0x00⟩),
    ([0x507A, 0xAA5D, 0x2546, 0x8300], .vmax ⟨10, ⟨true, 5⟩, 0x25D, 0x25, 0x46, 0x83, 0x00⟩),
    ([0x508A, 0xAA5C, 0x2546, 0x0000], .vabs ⟨10, ⟨true, 5⟩, 0x25C, 0x25, 0x46, 0x00, 0x00⟩),
    ([0x509A, 0xAA5C, 0x2546, 0x0000], .vneg ⟨10, ⟨true, 5⟩, 0x25C, 0x25, 0x46, 0x00, 0x00⟩),
    ([0x50AA, 0xAA5D, 0x2546, 0x8300], .vdiv ⟨10, ⟨true, 5⟩, 0x25D, 0x25, 0x46, 0x83, 0x00⟩),
    ([0x50BA, 0xAA5C, 0x2546, 0x0000], .vsqrt ⟨10, ⟨true, 5⟩, 0x25C, 0x25, 0x46, 0x00, 0x00⟩),
    ([0x50CA, 0xAA5C, 0x2546, 0x0000], .vrcp ⟨10, ⟨true, 5⟩, 0x25C, 0x25, 0x46, 0x00, 0x00⟩),
    ([0x50DA, 0xAA5C, 0x2546, 0x0000], .vrsq ⟨10, ⟨true, 5⟩, 0x25C, 0x25, 0x46, 0x00, 0x00⟩),
    ([0x50EA, 0xAA5C, 0x2546, 0x0000], .vexp2 ⟨10, ⟨true, 5⟩, 0x25C, 0x25, 0x46, 0x00, 0x00⟩),
    ([0x50FA, 0xAA5C, 0x2546, 0x0000], .vlog2 ⟨10, ⟨true, 5⟩, 0x25C, 0x25, 0x46, 0x00, 0x00⟩),
    ([0x510A, 0xAA5C, 0x2546, 0x0000], .vtanh ⟨10, ⟨true, 5⟩, 0x25C, 0x25, 0x46, 0x00, 0x00⟩),
    ([0x511A, 0xAA5C, 0x2546, 0x0000], .vsincos ⟨10, ⟨true, 5⟩, 0x25C, 0x25, 0x46, 0x00, 0x00⟩)] = true := by decide

/-- Decoding of V words (R51, R54, R57). -/
theorem test_decode_v_2 : Tests.decodes [
    ([0x512A, 0xAA5C, 0x2546, 0x0992], .vrot ⟨10, ⟨true, 5⟩, 0x25C, 0x25, 0x46, 0x09, 0x92⟩),
    ([0x518A, 0xAF9D, 0x2546, 0x8300], .viadd ⟨10, ⟨true, 5⟩, 0x79D, 0x25, 0x46, 0x83, 0x00⟩),
    ([0x519A, 0xAF9D, 0x2546, 0x8300], .visub ⟨10, ⟨true, 5⟩, 0x79D, 0x25, 0x46, 0x83, 0x00⟩),
    ([0x51AA, 0xAF9D, 0x2546, 0x8300], .vimul ⟨10, ⟨true, 5⟩, 0x79D, 0x25, 0x46, 0x83, 0x00⟩),
    ([0x51BA, 0xAF1D, 0x2546, 0x8300], .vimulh ⟨10, ⟨true, 5⟩, 0x71D, 0x25, 0x46, 0x83, 0x00⟩),
    ([0x51CA, 0xAE1D, 0x2546, 0x8300], .viand ⟨10, ⟨true, 5⟩, 0x61D, 0x25, 0x46, 0x83, 0x00⟩),
    ([0x51DA, 0xAE1D, 0x2546, 0x8300], .vior ⟨10, ⟨true, 5⟩, 0x61D, 0x25, 0x46, 0x83, 0x00⟩),
    ([0x51EA, 0xAE1D, 0x2546, 0x8300], .vixor ⟨10, ⟨true, 5⟩, 0x61D, 0x25, 0x46, 0x83, 0x00⟩),
    ([0x51FA, 0xAE1D, 0x2546, 0x8300], .vishl ⟨10, ⟨true, 5⟩, 0x61D, 0x25, 0x46, 0x83, 0x00⟩),
    ([0x520A, 0xAE1D, 0x2546, 0x8300], .vishr ⟨10, ⟨true, 5⟩, 0x61D, 0x25, 0x46, 0x83, 0x00⟩),
    ([0x521A, 0xAE1D, 0x2546, 0x8300], .visra ⟨10, ⟨true, 5⟩, 0x61D, 0x25, 0x46, 0x83, 0x00⟩),
    ([0x522A, 0xAF1D, 0x2546, 0x8300], .vimin ⟨10, ⟨true, 5⟩, 0x71D, 0x25, 0x46, 0x83, 0x00⟩),
    ([0x523A, 0xAF1D, 0x2546, 0x8300], .vimax ⟨10, ⟨true, 5⟩, 0x71D, 0x25, 0x46, 0x83, 0x00⟩),
    ([0x524A, 0xAC1C, 0x2546, 0x0000], .vipopc ⟨10, ⟨true, 5⟩, 0x41C, 0x25, 0x46, 0x00, 0x00⟩),
    ([0x528A, 0xA89C, 0x2546, 0x0007], .vcvt ⟨10, ⟨true, 5⟩, 0x09C, 0x25, 0x46, 0x00, 0x07⟩),
    ([0x529A, 0xAB48, 0x2546, 0x0020], .vqnt ⟨10, ⟨true, 5⟩, 0x348, 0x25, 0x46, 0x00, 0x20⟩),
    ([0x52AA, 0xA80C, 0x2546, 0x0025], .vdq ⟨10, ⟨true, 5⟩, 0x00C, 0x25, 0x46, 0x00, 0x25⟩),
    ([0x530A, 0xA89D, 0x0546, 0x8300], .vcmp ⟨10, ⟨true, 5⟩, 0x09D, 0x05, 0x46, 0x83, 0x00⟩)] = true := by decide

/-- Decoding of V words (R51, R54, R57). -/
theorem test_decode_v_3 : Tests.decodes [
    ([0x531A, 0xAA1C, 0x2546, 0x8300], .vsel ⟨10, ⟨true, 5⟩, 0x21C, 0x25, 0x46, 0x83, 0x00⟩),
    ([0x532A, 0xA800, 0x0506, 0x0700], .mand ⟨10, ⟨true, 5⟩, 0x000, 0x05, 0x06, 0x07, 0x00⟩),
    ([0x533A, 0xA800, 0x0506, 0x0700], .mor ⟨10, ⟨true, 5⟩, 0x000, 0x05, 0x06, 0x07, 0x00⟩),
    ([0x534A, 0xA800, 0x0506, 0x0700], .mxor ⟨10, ⟨true, 5⟩, 0x000, 0x05, 0x06, 0x07, 0x00⟩),
    ([0x535A, 0xA800, 0x0506, 0x0000], .mnot ⟨10, ⟨true, 5⟩, 0x000, 0x05, 0x06, 0x00, 0x00⟩),
    ([0x536A, 0xA800, 0x0006, 0x0000], .mcnt ⟨10, ⟨true, 5⟩, 0x000, 0x00, 0x06, 0x00, 0x00⟩),
    ([0x537A, 0xAC00, 0x0906, 0x0000], .vpset ⟨10, ⟨true, 5⟩, 0x400, 0x09, 0x06, 0x00, 0x00⟩),
    ([0x538A, 0xAC9C, 0x2546, 0x0000], .vcrd ⟨10, ⟨true, 5⟩, 0x49C, 0x25, 0x46, 0x00, 0x00⟩),
    ([0x539A, 0xA8B8, 0x2546, 0x8E00], .vmap ⟨10, ⟨true, 5⟩, 0x0B8, 0x25, 0x46, 0x8E, 0x00⟩),
    ([0x53AA, 0xA8B8, 0x0046, 0x0000], .vmapq ⟨10, ⟨true, 5⟩, 0x0B8, 0x00, 0x46, 0x00, 0x00⟩),
    ([0x53BA, 0xAA9C, 0x2546, 0x0300], .vnoise ⟨10, ⟨true, 5⟩, 0x29C, 0x25, 0x46, 0x03, 0x00⟩),
    ([0x53CA, 0xAC9C, 0x2546, 0x0000], .vgbias ⟨10, ⟨true, 5⟩, 0x49C, 0x25, 0x46, 0x00, 0x00⟩),
    ([0x540A, 0xAA9C, 0x2546, 0x0000], .vmov ⟨10, ⟨true, 5⟩, 0x29C, 0x25, 0x46, 0x00, 0x00⟩),
    ([0x541A, 0xAA9C, 0x2546, 0xE500], .vslice ⟨10, ⟨true, 5⟩, 0x29C, 0x25, 0x46, 0xE5, 0x00⟩),
    ([0x542A, 0xA89C, 0x2546, 0x0000], .vtrn ⟨10, ⟨true, 5⟩, 0x09C, 0x25, 0x46, 0x00, 0x00⟩),
    ([0x543A, 0xA8B8, 0x2546, 0x0000], .vresh ⟨10, ⟨true, 5⟩, 0x0B8, 0x25, 0x46, 0x00, 0x00⟩),
    ([0x544A, 0xAA9C, 0x2546, 0x4750], .vperm ⟨10, ⟨true, 5⟩, 0x29C, 0x25, 0x46, 0x47, 0x50⟩),
    ([0x545A, 0xAA98, 0x2546, 0x5000], .vcompact ⟨10, ⟨true, 5⟩, 0x298, 0x25, 0x46, 0x50, 0x00⟩)] = true := by decide

/-- Decoding of V words (R51, R54, R57). -/
theorem test_decode_v_4 : Tests.decodes [
    ([0x546A, 0xAA9D, 0x2546, 0x4700], .vexpand ⟨10, ⟨true, 5⟩, 0x29D, 0x25, 0x46, 0x47, 0x00⟩),
    ([0x547A, 0xAA9C, 0x2546, 0xE500], .vbcast ⟨10, ⟨true, 5⟩, 0x29C, 0x25, 0x46, 0xE5, 0x00⟩),
    ([0x548A, 0xAA9C, 0x2546, 0xDB00], .vshift ⟨10, ⟨true, 5⟩, 0x29C, 0x25, 0x46, 0xDB, 0x00⟩),
    ([0x550A, 0xAA9C, 0x2546, 0x0041], .vrsum ⟨10, ⟨true, 5⟩, 0x29C, 0x25, 0x46, 0x00, 0x41⟩),
    ([0x551A, 0xAA9C, 0x2546, 0x0041], .vrmax ⟨10, ⟨true, 5⟩, 0x29C, 0x25, 0x46, 0x00, 0x41⟩),
    ([0x552A, 0xAA9C, 0x2546, 0x0041], .vrmin ⟨10, ⟨true, 5⟩, 0x29C, 0x25, 0x46, 0x00, 0x41⟩),
    ([0x553A, 0xAA9C, 0x2546, 0x0041], .vrargmax ⟨10, ⟨true, 5⟩, 0x29C, 0x25, 0x46, 0x00, 0x41⟩),
    ([0x554A, 0xAA9C, 0x2546, 0x0041], .vscan ⟨10, ⟨true, 5⟩, 0x29C, 0x25, 0x46, 0x00, 0x41⟩),
    ([0x555A, 0xAA9C, 0x2546, 0x0041], .vxscan ⟨10, ⟨true, 5⟩, 0x29C, 0x25, 0x46, 0x00, 0x41⟩),
    ([0x556A, 0xA898, 0x0946, 0x0007], .vcadd ⟨10, ⟨true, 5⟩, 0x098, 0x09, 0x46, 0x00, 0x07⟩),
    ([0x557A, 0xA8B8, 0x2546, 0x47C8], .vatmrg ⟨10, ⟨true, 5⟩, 0x0B8, 0x25, 0x46, 0x47, 0xC8⟩),
    ([0x578A, 0xA800, 0x1100, 0x1234], .vkadd ⟨10, ⟨true, 5⟩, 0x000, 0x11, 0x00, 0x12, 0x34⟩),
    ([0x579A, 0xA800, 0x1100, 0x1234], .vkwait ⟨10, ⟨true, 5⟩, 0x000, 0x11, 0x00, 0x12, 0x34⟩),
    ([0x57FA, 0xA800, 0x0000, 0x0000], .vnop ⟨10, ⟨true, 5⟩, 0x000, 0x00, 0x00, 0x00, 0x00⟩)] = true := by decide

/-- Decoding of L words (R51, R58, R160). -/
theorem test_decode_l : Tests.decodes [
    ([0x300A, 0xAFD5, 0x8511, 0x0000], .ldv ⟨10, ⟨true, 5⟩, 0x7D5, 0x85, 0x11, 0x00, 0x00⟩),
    ([0x301A, 0xAFF9, 0x8F11, 0xE900], .ldq ⟨10, ⟨true, 5⟩, 0x7F9, 0x8F, 0x11, 0xE9, 0x00⟩),
    ([0x302A, 0xA852, 0x8511, 0x4700], .lgth ⟨10, ⟨true, 5⟩, 0x052, 0x85, 0x11, 0x47, 0x00⟩),
    ([0x303A, 0xAFD5, 0x8511, 0x0000], .lbc ⟨10, ⟨true, 5⟩, 0x7D5, 0x85, 0x11, 0x00, 0x00⟩),
    ([0x304A, 0xAFF9, 0x0011, 0xE300], .lpre ⟨10, ⟨true, 5⟩, 0x7F9, 0x00, 0x11, 0xE3, 0x00⟩),
    ([0x305A, 0xAFF8, 0x0011, 0xE300], .ladv ⟨10, ⟨true, 5⟩, 0x7F8, 0x00, 0x11, 0xE3, 0x00⟩),
    ([0x306A, 0xAFF8, 0x0011, 0x0000], .lrst ⟨10, ⟨true, 5⟩, 0x7F8, 0x00, 0x11, 0x00, 0x00⟩),
    ([0x307A, 0xA87B, 0x0911, 0x0100], .lcbld ⟨10, ⟨true, 5⟩, 0x07B, 0x09, 0x11, 0x01, 0x00⟩),
    ([0x308A, 0xA800, 0x0900, 0x0000], .lcbsw ⟨10, ⟨true, 5⟩, 0x000, 0x09, 0x00, 0x00, 0x00⟩),
    ([0x309A, 0xAFFB, 0x0511, 0x0000], .lmsk ⟨10, ⟨true, 5⟩, 0x7FB, 0x05, 0x11, 0x00, 0x00⟩),
    ([0x378A, 0xA800, 0x1100, 0x1234], .lkadd ⟨10, ⟨true, 5⟩, 0x000, 0x11, 0x00, 0x12, 0x34⟩),
    ([0x379A, 0xA800, 0x1100, 0x1234], .lkwait ⟨10, ⟨true, 5⟩, 0x000, 0x11, 0x00, 0x12, 0x34⟩),
    ([0x37FA, 0xA800, 0x0000, 0x0000], .lnop ⟨10, ⟨true, 5⟩, 0x000, 0x00, 0x00, 0x00, 0x00⟩)] = true := by decide

/-- Decoding of M words (R51, R58). -/
theorem test_decode_m : Tests.decodes [
    ([0x700A, 0xA800, 0x0900, 0x0000], .mzclr ⟨10, ⟨true, 5⟩, 0x000, 0x09, 0x00, 0x00, 0x00⟩),
    ([0x701A, 0xAFDD, 0x0386, 0x0900], .mldb ⟨10, ⟨true, 5⟩, 0x7DD, 0x03, 0x86, 0x09, 0x00⟩),
    ([0x702A, 0xA800, 0x0000, 0x0000], .mswap ⟨10, ⟨true, 5⟩, 0x000, 0x00, 0x00, 0x00, 0x00⟩),
    ([0x703A, 0xAB95, 0x0986, 0x0000], .mmul ⟨10, ⟨true, 5⟩, 0x395, 0x09, 0x86, 0x00, 0x00⟩),
    ([0x704A, 0xA81C, 0x8B86, 0x0000], .mrank ⟨10, ⟨true, 5⟩, 0x01C, 0x8B, 0x86, 0x00, 0x00⟩),
    ([0x705A, 0xA854, 0x8A09, 0x1234], .mrdz ⟨10, ⟨true, 5⟩, 0x054, 0x8A, 0x09, 0x12, 0x34⟩),
    ([0x706A, 0xA800, 0x0900, 0x0000], .mzcnt ⟨10, ⟨true, 5⟩, 0x000, 0x09, 0x00, 0x00, 0x00⟩),
    ([0x710A, 0xA840, 0x8B02, 0x8400], .shins ⟨10, ⟨true, 5⟩, 0x040, 0x8B, 0x02, 0x84, 0x00⟩),
    ([0x711A, 0xA800, 0x0200, 0x0000], .shmrg ⟨10, ⟨true, 5⟩, 0x000, 0x02, 0x00, 0x00, 0x00⟩),
    ([0x712A, 0xA801, 0x8D02, 0x0000], .shrd ⟨10, ⟨true, 5⟩, 0x001, 0x8D, 0x02, 0x00, 0x00⟩),
    ([0x713A, 0xA800, 0x0200, 0x0000], .shclr ⟨10, ⟨true, 5⟩, 0x000, 0x02, 0x00, 0x00, 0x00⟩),
    ([0x778A, 0xA800, 0x1100, 0x1234], .mkadd ⟨10, ⟨true, 5⟩, 0x000, 0x11, 0x00, 0x12, 0x34⟩),
    ([0x779A, 0xA800, 0x1100, 0x1234], .mkwait ⟨10, ⟨true, 5⟩, 0x000, 0x11, 0x00, 0x12, 0x34⟩),
    ([0x77FA, 0xA800, 0x0000, 0x0000], .mnop ⟨10, ⟨true, 5⟩, 0x000, 0x00, 0x00, 0x00, 0x00⟩)] = true := by decide

/-- Decoding of W words (R51, R58, R160). -/
theorem test_decode_w : Tests.decodes [
    ([0x900A, 0xAFD3, 0x118C, 0x0000], .wst ⟨10, ⟨true, 5⟩, 0x7D3, 0x11, 0x8C, 0x00, 0x00⟩),
    ([0x901A, 0xAFD3, 0x118C, 0x0015], .wstq ⟨10, ⟨true, 5⟩, 0x7D3, 0x11, 0x8C, 0x00, 0x15⟩),
    ([0x902A, 0xAFD2, 0x118C, 0x4700], .wsct ⟨10, ⟨true, 5⟩, 0x7D2, 0x11, 0x8C, 0x47, 0x00⟩),
    ([0x903A, 0xA9D5, 0x118C, 0xFF15], .wamo ⟨10, ⟨true, 5⟩, 0x1D5, 0x11, 0x8C, 0xFF, 0x15⟩),
    ([0x904A, 0xA8D4, 0x118C, 0x4700], .wcadd ⟨10, ⟨true, 5⟩, 0x0D4, 0x11, 0x8C, 0x47, 0x00⟩),
    ([0x905A, 0xAA3C, 0x1112, 0x47FF], .wcpy ⟨10, ⟨true, 5⟩, 0x23C, 0x11, 0x12, 0x47, 0xFF⟩),
    ([0x906A, 0xAABC, 0x1112, 0x47FF], .wcpyx ⟨10, ⟨true, 5⟩, 0x2BC, 0x11, 0x12, 0x47, 0xFF⟩),
    ([0x907A, 0xA8D0, 0x118D, 0x4748], .wsend ⟨10, ⟨true, 5⟩, 0x0D0, 0x11, 0x8D, 0x47, 0x48⟩),
    ([0x908A, 0xA828, 0x1146, 0x4715], .wattd ⟨10, ⟨true, 5⟩, 0x028, 0x11, 0x46, 0x47, 0x15⟩),
    ([0x909A, 0xA828, 0x1146, 0x1234], .watts ⟨10, ⟨true, 5⟩, 0x028, 0x11, 0x46, 0x12, 0x34⟩),
    ([0x90AA, 0xAFFB, 0x1100, 0x0000], .wflush ⟨10, ⟨true, 5⟩, 0x7FB, 0x11, 0x00, 0x00, 0x00⟩),
    ([0x90BA, 0xAFD3, 0x1105, 0x0000], .wmsk ⟨10, ⟨true, 5⟩, 0x7D3, 0x11, 0x05, 0x00, 0x00⟩),
    ([0x978A, 0xA800, 0x1100, 0x1234], .wkadd ⟨10, ⟨true, 5⟩, 0x000, 0x11, 0x00, 0x12, 0x34⟩),
    ([0x979A, 0xA800, 0x1100, 0x1234], .wkwait ⟨10, ⟨true, 5⟩, 0x000, 0x11, 0x00, 0x12, 0x34⟩),
    ([0x97FA, 0xA800, 0x0000, 0x0000], .wnop ⟨10, ⟨true, 5⟩, 0x000, 0x00, 0x00, 0x00, 0x00⟩)] = true := by decide

/-! ## WellFormed -/

/-- Whether `WellFormed` refuses each term. -/
def Tests.refuses (l : List Instr) : Bool := l.all fun i => !i.wellFormed

/-- Each check on an S instruction refuses a term (R30, R48 to R50 and the instructions' own lists). -/
theorem test_illFormed_s_1 : Tests.refuses [
    .sadd ⟨true, 15⟩ 5 6 7,
    .fence 5 0,
    .fence 0 6,
    .csrr ⟨true, 5⟩ 5 0x00E,
    .csrw ⟨true, 5⟩ 5 0x00E,
    .csrs ⟨true, 5⟩ 5 0x00E,
    .csrc ⟨true, 5⟩ 5 0x00E,
    .csrr ⟨true, 5⟩ 5 0x024,
    .csrr ⟨true, 5⟩ 5 0x10D,
    .sgsync ⟨true, 5⟩ 0x100,
    .sgarr ⟨true, 5⟩ 0x100,
    .seq ⟨true, 5⟩ 16 6 7,
    .sne ⟨true, 5⟩ 16 6 7,
    .slt ⟨true, 5⟩ 16 6 7,
    .sltn ⟨true, 5⟩ 16 6 7,
    .sle ⟨true, 5⟩ 16 6 7,
    .slen ⟨true, 5⟩ 16 6 7,
    .sflt ⟨true, 5⟩ 16 6 7,
    .sfeq ⟨true, 5⟩ 16 6 7,
    .sfle ⟨true, 5⟩ 16 6 7,
    .pand ⟨true, 5⟩ 16 6 7,
    .pand ⟨true, 5⟩ 5 16 7,
    .pand ⟨true, 5⟩ 5 6 16,
    .por ⟨true, 5⟩ 16 6 7,
    .por ⟨true, 5⟩ 5 16 7,
    .por ⟨true, 5⟩ 5 6 16,
    .pxor ⟨true, 5⟩ 16 6 7,
    .pxor ⟨true, 5⟩ 5 16 7,
    .pxor ⟨true, 5⟩ 5 6 16,
    .pandn ⟨true, 5⟩ 16 6 7,
    .pandn ⟨true, 5⟩ 5 16 7,
    .pandn ⟨true, 5⟩ 5 6 16,
    .sshli ⟨true, 5⟩ 5 64,
    .sshri ⟨true, 5⟩ 5 64,
    .ssrai ⟨true, 5⟩ 5 64,
    .kwaiti ⟨true, 5⟩ 5 0x200,
    .sld ⟨⟨true, 5⟩, 5, 6, 16, 0x00000000⟩,
    .sld ⟨⟨true, 5⟩, 5, 6, 7, 0x00000000⟩,
    .sst ⟨⟨true, 5⟩, 5, 6, 8, 0x00000000⟩,
    .sst ⟨⟨true, 5⟩, 5, 6, 4, 0x00000000⟩] = true := by decide

/-- Each check on an S instruction refuses a term (R30, R48 to R50 and the instructions' own lists). -/
theorem test_illFormed_s_2 : Tests.refuses [
    .samo ⟨⟨true, 0⟩, 5, 6, 0, 0x00000000⟩,
    .samo ⟨⟨true, 6⟩, 5, 6, 0, 0x00000000⟩,
    .samo ⟨⟨true, 5⟩, 5, 6, 10, 0x00000000⟩,
    .samo ⟨⟨true, 5⟩, 0, 6, 5, 0x00000000⟩,
    .samo ⟨⟨true, 5⟩, 31, 6, 5, 0x00000000⟩,
    .br ⟨⟨true, 5⟩, 5, 0, 0, 0x00000000⟩,
    .br ⟨⟨true, 5⟩, 0, 6, 0, 0x00000000⟩,
    .br ⟨⟨true, 5⟩, 0, 0, 1, 0x00000000⟩,
    .call ⟨⟨true, 5⟩, 5, 0, 0, 0x00000000⟩,
    .call ⟨⟨true, 5⟩, 0, 6, 0, 0x00000000⟩,
    .call ⟨⟨true, 5⟩, 0, 0, 1, 0x00000000⟩,
    .sli32 ⟨⟨true, 5⟩, 5, 6, 0, 0x00000000⟩,
    .sli32 ⟨⟨true, 5⟩, 5, 0, 1, 0x00000000⟩,
    .saddi32 ⟨⟨true, 5⟩, 5, 6, 1, 0x00000000⟩,
    .sfset ⟨⟨true, 5⟩, 5, 6, 17, 0x00000000⟩,
    .szset ⟨⟨true, 5⟩, 16, 6, 0, 0x00000000⟩,
    .szset ⟨⟨true, 5⟩, 5, 6, 5, 0x00000000⟩,
    .shset ⟨⟨true, 5⟩, 4, 6, 0, 0x00000000⟩,
    .shset ⟨⟨true, 5⟩, 3, 6, 8, 0x00000000⟩,
    .sshape ⟨⟨true, 5⟩, 5, 6, 23, 0x00000000⟩,
    .sbkj ⟨⟨true, 5⟩, 5, 6, 0, 0x00000000⟩,
    .sbkj ⟨⟨true, 5⟩, 0, 6, 1, 0x00000000⟩,
    .sbkj ⟨⟨true, 5⟩, 0, 6, 0, 0x00000001⟩,
    .slaunch ⟨⟨true, 5⟩, 5, 6, 1, 0x00000000⟩,
    .slaydef ⟨⟨true, 5⟩, 5, 6, 1, 0x00000000⟩,
    .slaydef ⟨⟨true, 5⟩, 5, 6, 0, 0x00010000⟩,
    .satinv ⟨⟨true, 5⟩, 5, 6, 0, 0x00020000⟩,
    .satinv ⟨⟨true, 5⟩, 5, 6, 0, 0x00010001⟩] = true := by decide

/-- Each check on a V instruction refuses a term (R52 to R54 and the instructions' own lists). -/
theorem test_illFormed_v_1 : Tests.refuses [
    .vadd ⟨10, ⟨true, 15⟩, 0x25D, 0x25, 0x46, 0x83, 0x00⟩,
    .vadd ⟨10, ⟨true, 5⟩, 0x65D, 0x25, 0x46, 0x83, 0x00⟩,
    .vadd ⟨10, ⟨true, 5⟩, 0x39D, 0x25, 0x46, 0x83, 0x00⟩,
    .vadd ⟨10, ⟨true, 5⟩, 0x27D, 0x25, 0x46, 0x83, 0x00⟩,
    .vadd ⟨10, ⟨true, 5⟩, 0x25F, 0x25, 0x46, 0x83, 0x00⟩,
    .vadd ⟨10, ⟨true, 5⟩, 0x25D, 0xC0, 0x46, 0x83, 0x00⟩,
    .vadd ⟨10, ⟨true, 5⟩, 0x25D, 0x25, 0xA0, 0x83, 0x00⟩,
    .vadd ⟨10, ⟨true, 5⟩, 0x25D, 0x25, 0x46, 0xA0, 0x00⟩,
    .vadd ⟨10, ⟨true, 5⟩, 0x25D, 0x25, 0x46, 0x83, 0x01⟩,
    .vfma ⟨10, ⟨true, 5⟩, 0x65D, 0x25, 0x46, 0x83, 0x51⟩,
    .vfma ⟨10, ⟨true, 5⟩, 0x39D, 0x25, 0x46, 0x83, 0x51⟩,
    .vfma ⟨10, ⟨true, 5⟩, 0x27D, 0x25, 0x46, 0x83, 0x51⟩,
    .vfma ⟨10, ⟨true, 5⟩, 0x25F, 0x25, 0x46, 0x83, 0x51⟩,
    .vfma ⟨10, ⟨true, 5⟩, 0x25E, 0xC0, 0x46, 0x83, 0x51⟩,
    .vfma ⟨10, ⟨true, 5⟩, 0x25E, 0x25, 0xA0, 0x83, 0x51⟩,
    .vfma ⟨10, ⟨true, 5⟩, 0x25E, 0x25, 0x46, 0xA0, 0x51⟩,
    .vmin ⟨10, ⟨true, 5⟩, 0x65D, 0x25, 0x46, 0x83, 0x00⟩,
    .vmin ⟨10, ⟨true, 5⟩, 0x39D, 0x25, 0x46, 0x83, 0x00⟩,
    .vmin ⟨10, ⟨true, 5⟩, 0x27D, 0x25, 0x46, 0x83, 0x00⟩,
    .vmin ⟨10, ⟨true, 5⟩, 0x25F, 0x25, 0x46, 0x83, 0x00⟩,
    .vmin ⟨10, ⟨true, 5⟩, 0x25D, 0xC0, 0x46, 0x83, 0x00⟩,
    .vmin ⟨10, ⟨true, 5⟩, 0x25D, 0x25, 0xA0, 0x83, 0x00⟩,
    .vmin ⟨10, ⟨true, 5⟩, 0x25D, 0x25, 0x46, 0xA0, 0x00⟩,
    .vmin ⟨10, ⟨true, 5⟩, 0x25D, 0x25, 0x46, 0x83, 0x01⟩,
    .vabs ⟨10, ⟨true, 5⟩, 0x65C, 0x25, 0x46, 0x00, 0x00⟩,
    .vabs ⟨10, ⟨true, 5⟩, 0x39C, 0x25, 0x46, 0x00, 0x00⟩,
    .vabs ⟨10, ⟨true, 5⟩, 0x27C, 0x25, 0x46, 0x00, 0x00⟩,
    .vabs ⟨10, ⟨true, 5⟩, 0x25F, 0x25, 0x46, 0x00, 0x00⟩,
    .vabs ⟨10, ⟨true, 5⟩, 0x25C, 0xC0, 0x46, 0x00, 0x00⟩,
    .vabs ⟨10, ⟨true, 5⟩, 0x25C, 0x25, 0xA0, 0x00, 0x00⟩,
    .vabs ⟨10, ⟨true, 5⟩, 0x25C, 0x25, 0x46, 0x01, 0x00⟩,
    .vabs ⟨10, ⟨true, 5⟩, 0x25C, 0x25, 0x46, 0x00, 0x01⟩,
    .vsqrt ⟨10, ⟨true, 5⟩, 0x65C, 0x25, 0x46, 0x00, 0x00⟩,
    .vsqrt ⟨10, ⟨true, 5⟩, 0x39C, 0x25, 0x46, 0x00, 0x00⟩,
    .vsqrt ⟨10, ⟨true, 5⟩, 0x27C, 0x25, 0x46, 0x00, 0x00⟩,
    .vsqrt ⟨10, ⟨true, 5⟩, 0x25F, 0x25, 0x46, 0x00, 0x00⟩,
    .vsqrt ⟨10, ⟨true, 5⟩, 0x25C, 0xC0, 0x46, 0x00, 0x00⟩,
    .vsqrt ⟨10, ⟨true, 5⟩, 0x25C, 0x25, 0xA0, 0x00, 0x00⟩,
    .vsqrt ⟨10, ⟨true, 5⟩, 0x25C, 0x25, 0x46, 0x01, 0x00⟩,
    .vsqrt ⟨10, ⟨true, 5⟩, 0x25C, 0x25, 0x46, 0x00, 0x01⟩] = true := by decide

/-- Each check on a V instruction refuses a term (R52 to R54 and the instructions' own lists). -/
theorem test_illFormed_v_2 : Tests.refuses [
    .vadd ⟨10, ⟨true, 5⟩, 0x25D, 0x8F, 0x46, 0x83, 0x00⟩,
    .vadd ⟨10, ⟨true, 5⟩, 0x25D, 0x25, 0x84, 0x83, 0x00⟩,
    .vsincos ⟨10, ⟨true, 5⟩, 0x25C, 0x7F, 0x46, 0x00, 0x00⟩,
    .vsincos ⟨10, ⟨true, 5⟩, 0x25C, 0x88, 0x46, 0x00, 0x00⟩,
    .vadd ⟨10, ⟨true, 5⟩, 0x25D, 0x25, 0x46, 0x90, 0x00⟩,
    .vadd ⟨10, ⟨true, 5⟩, 0x35D, 0x25, 0x46, 0xE0, 0x00⟩,
    .vrot ⟨10, ⟨true, 5⟩, 0x25D, 0x25, 0x46, 0x09, 0x92⟩,
    .vrot ⟨10, ⟨true, 5⟩, 0x25C, 0x25, 0x46, 0x10, 0x92⟩,
    .vrot ⟨10, ⟨true, 5⟩, 0x25C, 0x25, 0x46, 0x09, 0x95⟩,
    .vrot ⟨10, ⟨true, 5⟩, 0x25C, 0x25, 0x90, 0x09, 0x92⟩,
    .viadd ⟨10, ⟨true, 5⟩, 0x7DD, 0x25, 0x46, 0x83, 0x00⟩,
    .vimulh ⟨10, ⟨true, 5⟩, 0x79D, 0x25, 0x46, 0x83, 0x00⟩,
    .viand ⟨10, ⟨true, 5⟩, 0x71D, 0x25, 0x46, 0x83, 0x00⟩,
    .viand ⟨10, ⟨true, 5⟩, 0x69D, 0x25, 0x46, 0x83, 0x00⟩,
    .vipopc ⟨10, ⟨true, 5⟩, 0x45C, 0x25, 0x46, 0x00, 0x00⟩,
    .viadd ⟨10, ⟨true, 5⟩, 0x7BD, 0x25, 0x46, 0x83, 0x00⟩,
    .vcvt ⟨10, ⟨true, 5⟩, 0x5DC, 0x25, 0x46, 0x00, 0x07⟩,
    .vcvt ⟨10, ⟨true, 5⟩, 0x0B4, 0x25, 0x46, 0x00, 0x07⟩,
    .vcvt ⟨10, ⟨true, 5⟩, 0x09E, 0x25, 0x46, 0x00, 0x07⟩,
    .vcvt ⟨10, ⟨true, 5⟩, 0x09C, 0x25, 0x46, 0x00, 0x27⟩,
    .vcvt ⟨10, ⟨true, 5⟩, 0x09C, 0x25, 0x46, 0x00, 0x17⟩,
    .vcvt ⟨10, ⟨true, 5⟩, 0x09C, 0x25, 0xE0, 0x00, 0x03⟩,
    .vcvt ⟨10, ⟨true, 5⟩, 0x09C, 0x25, 0x46, 0x01, 0x07⟩,
    .vqnt ⟨10, ⟨true, 5⟩, 0x5C8, 0x25, 0x46, 0x00, 0x20⟩,
    .vqnt ⟨10, ⟨true, 5⟩, 0x370, 0x25, 0x46, 0x00, 0x20⟩,
    .vqnt ⟨10, ⟨true, 5⟩, 0x349, 0x25, 0x46, 0x00, 0x20⟩,
    .vqnt ⟨10, ⟨true, 5⟩, 0x34C, 0x25, 0x46, 0x00, 0x20⟩,
    .vqnt ⟨10, ⟨true, 5⟩, 0x348, 0x25, 0x46, 0x00, 0xA0⟩,
    .vqnt ⟨10, ⟨true, 5⟩, 0x348, 0x25, 0x46, 0x00, 0x60⟩,
    .vqnt ⟨10, ⟨true, 5⟩, 0x348, 0x25, 0x46, 0x00, 0x37⟩,
    .vqnt ⟨10, ⟨true, 5⟩, 0x348, 0x25, 0x46, 0x01, 0x20⟩,
    .vqnt ⟨10, ⟨true, 5⟩, 0x448, 0x25, 0x46, 0x10, 0x20⟩,
    .vdq ⟨10, ⟨true, 5⟩, 0x5CC, 0x25, 0x46, 0x00, 0x25⟩,
    .vdq ⟨10, ⟨true, 5⟩, 0x034, 0x25, 0x46, 0x00, 0x25⟩,
    .vdq ⟨10, ⟨true, 5⟩, 0x00E, 0x25, 0x46, 0x00, 0x25⟩,
    .vdq ⟨10, ⟨true, 5⟩, 0x00C, 0x25, 0x46, 0x00, 0x85⟩,
    .vdq ⟨10, ⟨true, 5⟩, 0x00C, 0x25, 0x46, 0x00, 0x45⟩,
    .vdq ⟨10, ⟨true, 5⟩, 0x00C, 0x25, 0xE0, 0x00, 0x25⟩,
    .vcmp ⟨10, ⟨true, 5⟩, 0x699, 0x05, 0x46, 0x83, 0x00⟩,
    .vcmp ⟨10, ⟨true, 5⟩, 0x09D, 0x08, 0x46, 0x83, 0x00⟩] = true := by decide

/-- Each check on a V instruction refuses a term (R52 to R54 and the instructions' own lists). -/
theorem test_illFormed_v_3 : Tests.refuses [
    .vcmp ⟨10, ⟨true, 5⟩, 0x09F, 0x05, 0x46, 0x83, 0x00⟩,
    .vsel ⟨10, ⟨true, 5⟩, 0x61C, 0x25, 0x46, 0x83, 0x00⟩,
    .vsel ⟨10, ⟨true, 5⟩, 0x39C, 0x25, 0x46, 0x83, 0x00⟩,
    .vsel ⟨10, ⟨true, 5⟩, 0x23C, 0x25, 0x46, 0x83, 0x00⟩,
    .vsel ⟨10, ⟨true, 5⟩, 0x21F, 0x25, 0x46, 0x83, 0x00⟩,
    .vsel ⟨10, ⟨true, 5⟩, 0x238, 0x25, 0x46, 0x83, 0x00⟩,
    .vsel ⟨10, ⟨true, 5⟩, 0x21C, 0x25, 0x46, 0x83, 0x01⟩,
    .mand ⟨10, ⟨true, 5⟩, 0x001, 0x05, 0x06, 0x07, 0x00⟩,
    .mand ⟨10, ⟨true, 5⟩, 0x000, 0x08, 0x06, 0x07, 0x00⟩,
    .mand ⟨10, ⟨true, 5⟩, 0x000, 0x05, 0x08, 0x07, 0x00⟩,
    .mand ⟨10, ⟨true, 5⟩, 0x000, 0x05, 0x06, 0x08, 0x00⟩,
    .mand ⟨10, ⟨true, 5⟩, 0x000, 0x05, 0x06, 0x07, 0x01⟩,
    .mnot ⟨10, ⟨true, 5⟩, 0x000, 0x05, 0x06, 0x07, 0x00⟩,
    .mcnt ⟨10, ⟨true, 5⟩, 0x000, 0x05, 0x06, 0x00, 0x00⟩,
    .vpset ⟨10, ⟨true, 5⟩, 0x600, 0x09, 0x06, 0x00, 0x00⟩,
    .vpset ⟨10, ⟨true, 5⟩, 0x401, 0x09, 0x06, 0x00, 0x00⟩,
    .vpset ⟨10, ⟨true, 5⟩, 0x400, 0x10, 0x06, 0x00, 0x00⟩,
    .vpset ⟨10, ⟨true, 5⟩, 0x400, 0x09, 0x08, 0x00, 0x00⟩,
    .vpset ⟨10, ⟨true, 5⟩, 0x400, 0x09, 0x06, 0x01, 0x00⟩,
    .vpset ⟨10, ⟨true, 5⟩, 0x400, 0x09, 0x06, 0x00, 0x01⟩,
    .vcrd ⟨10, ⟨true, 5⟩, 0x158, 0x25, 0x46, 0x00, 0x00⟩,
    .vcrd ⟨10, ⟨true, 5⟩, 0x0BC, 0x25, 0x46, 0x00, 0x00⟩,
    .vcrd ⟨10, ⟨true, 5⟩, 0x49D, 0x25, 0x46, 0x00, 0x00⟩,
    .vcrd ⟨10, ⟨true, 5⟩, 0x49C, 0x25, 0xE0, 0x00, 0x00⟩,
    .vcrd ⟨10, ⟨true, 5⟩, 0x49C, 0x25, 0x46, 0x01, 0x00⟩,
    .vcrd ⟨10, ⟨true, 5⟩, 0x49C, 0x25, 0x46, 0x00, 0x01⟩,
    .vgbias ⟨10, ⟨true, 5⟩, 0x158, 0x25, 0x46, 0x00, 0x00⟩,
    .vgbias ⟨10, ⟨true, 5⟩, 0x0BC, 0x25, 0x46, 0x00, 0x00⟩,
    .vgbias ⟨10, ⟨true, 5⟩, 0x49D, 0x25, 0x46, 0x00, 0x00⟩,
    .vgbias ⟨10, ⟨true, 5⟩, 0x49C, 0x25, 0xE0, 0x00, 0x00⟩,
    .vgbias ⟨10, ⟨true, 5⟩, 0x49C, 0x25, 0x46, 0x01, 0x00⟩,
    .vgbias ⟨10, ⟨true, 5⟩, 0x49C, 0x25, 0x46, 0x00, 0x01⟩,
    .vmap ⟨10, ⟨true, 5⟩, 0x2B8, 0x25, 0x46, 0x8E, 0x00⟩,
    .vmap ⟨10, ⟨true, 5⟩, 0x098, 0x25, 0x46, 0x8E, 0x00⟩,
    .vmap ⟨10, ⟨true, 5⟩, 0x0B8, 0x25, 0x46, 0x80, 0x00⟩,
    .vmap ⟨10, ⟨true, 5⟩, 0x0B8, 0x25, 0x46, 0x47, 0x00⟩,
    .vmap ⟨10, ⟨true, 5⟩, 0x0B8, 0x25, 0x46, 0x8E, 0x01⟩,
    .vmapq ⟨10, ⟨true, 5⟩, 0x0B8, 0x01, 0x46, 0x00, 0x00⟩,
    .vmapq ⟨10, ⟨true, 5⟩, 0x2B8, 0x00, 0x46, 0x00, 0x00⟩,
    .vmapq ⟨10, ⟨true, 5⟩, 0x098, 0x00, 0x46, 0x00, 0x00⟩] = true := by decide

/-- Each check on a V instruction refuses a term (R52 to R54 and the instructions' own lists). -/
theorem test_illFormed_v_4 : Tests.refuses [
    .vnoise ⟨10, ⟨true, 5⟩, 0x69C, 0x25, 0x46, 0x03, 0x00⟩,
    .vnoise ⟨10, ⟨true, 5⟩, 0x29C, 0x25, 0x46, 0x04, 0x00⟩,
    .vnoise ⟨10, ⟨true, 5⟩, 0x498, 0x25, 0x46, 0x10, 0x00⟩,
    .vmov ⟨10, ⟨true, 5⟩, 0x69C, 0x25, 0x46, 0x00, 0x00⟩,
    .vmov ⟨10, ⟨true, 5⟩, 0x29C, 0x25, 0x46, 0x01, 0x00⟩,
    .vslice ⟨10, ⟨true, 5⟩, 0x29C, 0x25, 0x46, 0xDB, 0x00⟩,
    .vbcast ⟨10, ⟨true, 5⟩, 0x29C, 0x25, 0x46, 0xDB, 0x00⟩,
    .vslice ⟨10, ⟨true, 5⟩, 0x29C, 0x25, 0x46, 0x80, 0x00⟩,
    .vshift ⟨10, ⟨true, 5⟩, 0x29C, 0x25, 0x46, 0x47, 0x00⟩,
    .vtrn ⟨10, ⟨true, 5⟩, 0x29C, 0x25, 0x46, 0x00, 0x00⟩,
    .vresh ⟨10, ⟨true, 5⟩, 0x2B8, 0x25, 0x46, 0x00, 0x00⟩,
    .vresh ⟨10, ⟨true, 5⟩, 0x098, 0x25, 0x46, 0x00, 0x00⟩,
    .vperm ⟨10, ⟨true, 5⟩, 0x29C, 0x25, 0x46, 0x47, 0x80⟩,
    .vcompact ⟨10, ⟨true, 5⟩, 0x29C, 0x25, 0x46, 0x50, 0x00⟩,
    .vcompact ⟨10, ⟨true, 5⟩, 0x298, 0x25, 0x46, 0x80, 0x00⟩,
    .vexpand ⟨10, ⟨true, 5⟩, 0x29F, 0x25, 0x46, 0x47, 0x00⟩,
    .vexpand ⟨10, ⟨true, 5⟩, 0x29D, 0x25, 0x46, 0x47, 0x01⟩,
    .vrsum ⟨10, ⟨true, 5⟩, 0x29C, 0x25, 0x46, 0x00, 0xC1⟩,
    .vrargmax ⟨10, ⟨true, 5⟩, 0x29C, 0x25, 0x46, 0x00, 0xC1⟩,
    .vrsum ⟨10, ⟨true, 5⟩, 0x29C, 0x25, 0x46, 0x00, 0x57⟩,
    .vscan ⟨10, ⟨true, 5⟩, 0x29C, 0x25, 0x46, 0x01, 0x41⟩,
    .vcadd ⟨10, ⟨true, 5⟩, 0x298, 0x09, 0x46, 0x00, 0x07⟩,
    .vcadd ⟨10, ⟨true, 5⟩, 0x09C, 0x09, 0x46, 0x00, 0x07⟩,
    .vcadd ⟨10, ⟨true, 5⟩, 0x098, 0x10, 0x46, 0x00, 0x07⟩,
    .vcadd ⟨10, ⟨true, 5⟩, 0x098, 0x09, 0x46, 0x00, 0x27⟩,
    .vcadd ⟨10, ⟨true, 5⟩, 0x098, 0x09, 0x46, 0x00, 0x17⟩,
    .vatmrg ⟨10, ⟨true, 5⟩, 0x0F8, 0x25, 0x46, 0x47, 0xC8⟩,
    .vatmrg ⟨10, ⟨true, 5⟩, 0x098, 0x25, 0x46, 0x47, 0xC8⟩,
    .vatmrg ⟨10, ⟨true, 5⟩, 0x0B8, 0x88, 0x46, 0x47, 0xC8⟩,
    .vatmrg ⟨10, ⟨true, 5⟩, 0x0B8, 0x25, 0x80, 0x47, 0xC8⟩,
    .vatmrg ⟨10, ⟨true, 5⟩, 0x0B8, 0x25, 0x46, 0x80, 0xC8⟩,
    .vkadd ⟨10, ⟨true, 5⟩, 0x001, 0x11, 0x00, 0x12, 0x34⟩,
    .vkwait ⟨10, ⟨true, 5⟩, 0x001, 0x11, 0x00, 0x12, 0x34⟩,
    .vkadd ⟨10, ⟨true, 5⟩, 0x000, 0x20, 0x00, 0x12, 0x34⟩,
    .vkwait ⟨10, ⟨true, 5⟩, 0x000, 0x11, 0x01, 0x12, 0x34⟩,
    .vnop ⟨10, ⟨true, 5⟩, 0x001, 0x00, 0x00, 0x00, 0x00⟩,
    .vnop ⟨10, ⟨true, 5⟩, 0x000, 0x00, 0x00, 0x00, 0x01⟩] = true := by decide

/-- Each check on an L instruction refuses a term (R52 to R54 and the instructions' own lists). -/
theorem test_illFormed_l_1 : Tests.refuses [
    .ldv ⟨10, ⟨true, 15⟩, 0x7D5, 0x85, 0x11, 0x00, 0x00⟩,
    .lkadd ⟨10, ⟨true, 5⟩, 0x001, 0x11, 0x00, 0x12, 0x34⟩,
    .lkwait ⟨10, ⟨true, 5⟩, 0x001, 0x11, 0x00, 0x12, 0x34⟩,
    .lkadd ⟨10, ⟨true, 5⟩, 0x000, 0x20, 0x00, 0x12, 0x34⟩,
    .lkwait ⟨10, ⟨true, 5⟩, 0x000, 0x11, 0x01, 0x12, 0x34⟩,
    .lnop ⟨10, ⟨true, 5⟩, 0x001, 0x00, 0x00, 0x00, 0x00⟩,
    .lnop ⟨10, ⟨true, 5⟩, 0x000, 0x00, 0x00, 0x00, 0x01⟩,
    .ldv ⟨10, ⟨true, 5⟩, 0x5D0, 0x85, 0x11, 0x00, 0x00⟩,
    .lbc ⟨10, ⟨true, 5⟩, 0x5D0, 0x85, 0x11, 0x00, 0x00⟩,
    .ldv ⟨10, ⟨true, 5⟩, 0x7D6, 0x85, 0x11, 0x00, 0x00⟩,
    .lbc ⟨10, ⟨true, 5⟩, 0x7D6, 0x85, 0x11, 0x00, 0x00⟩,
    .ldv ⟨10, ⟨true, 5⟩, 0x7D5, 0x88, 0x11, 0x00, 0x00⟩,
    .lbc ⟨10, ⟨true, 5⟩, 0x7D5, 0x85, 0x20, 0x00, 0x00⟩,
    .ldv ⟨10, ⟨true, 5⟩, 0x7D5, 0x85, 0x11, 0x01, 0x00⟩,
    .lbc ⟨10, ⟨true, 5⟩, 0x7D5, 0x85, 0x11, 0x00, 0x01⟩,
    .ldq ⟨10, ⟨true, 5⟩, 0x5F8, 0x8F, 0x11, 0xE9, 0x00⟩,
    .ldq ⟨10, ⟨true, 5⟩, 0x7D0, 0x8F, 0x11, 0xE9, 0x00⟩,
    .ldq ⟨10, ⟨true, 5⟩, 0x7FB, 0x8F, 0x11, 0xE9, 0x00⟩,
    .ldq ⟨10, ⟨true, 5⟩, 0x7F9, 0x83, 0x11, 0xE9, 0x00⟩,
    .ldq ⟨10, ⟨true, 5⟩, 0x7F9, 0x05, 0x11, 0xE9, 0x00⟩,
    .ldq ⟨10, ⟨true, 5⟩, 0x7F9, 0x8F, 0x11, 0xE0, 0x00⟩,
    .ldq ⟨10, ⟨true, 5⟩, 0x7F9, 0x8F, 0x11, 0xF1, 0x00⟩,
    .ldq ⟨10, ⟨true, 5⟩, 0x7F9, 0x8F, 0x20, 0xE9, 0x00⟩,
    .lgth ⟨10, ⟨true, 5⟩, 0x053, 0x85, 0x11, 0x47, 0x00⟩,
    .lgth ⟨10, ⟨true, 5⟩, 0x052, 0x85, 0x11, 0x80, 0x00⟩,
    .lgth ⟨10, ⟨true, 5⟩, 0x056, 0x85, 0x11, 0x47, 0x00⟩,
    .lpre ⟨10, ⟨true, 5⟩, 0x078, 0x00, 0x11, 0xE3, 0x00⟩,
    .lpre ⟨10, ⟨true, 5⟩, 0x7D0, 0x00, 0x11, 0xE3, 0x00⟩,
    .lpre ⟨10, ⟨true, 5⟩, 0x7FB, 0x00, 0x11, 0xE3, 0x00⟩,
    .lpre ⟨10, ⟨true, 5⟩, 0x7F9, 0x01, 0x11, 0xE3, 0x00⟩,
    .lpre ⟨10, ⟨true, 5⟩, 0x7F9, 0x00, 0x11, 0xDF, 0x00⟩,
    .ladv ⟨10, ⟨true, 5⟩, 0x7F9, 0x00, 0x11, 0xE3, 0x00⟩,
    .ladv ⟨10, ⟨true, 5⟩, 0x7F8, 0x00, 0x11, 0xDF, 0x00⟩,
    .lrst ⟨10, ⟨true, 5⟩, 0x7F9, 0x00, 0x11, 0x00, 0x00⟩,
    .lrst ⟨10, ⟨true, 5⟩, 0x7F8, 0x00, 0x11, 0x01, 0x00⟩,
    .lcbld ⟨10, ⟨true, 5⟩, 0x07F, 0x09, 0x11, 0x01, 0x00⟩,
    .lcbld ⟨10, ⟨true, 5⟩, 0x07B, 0x10, 0x11, 0x01, 0x00⟩,
    .lcbld ⟨10, ⟨true, 5⟩, 0x07B, 0x09, 0x11, 0x00, 0x00⟩,
    .lcbld ⟨10, ⟨true, 5⟩, 0x07B, 0x09, 0x11, 0x01, 0x01⟩,
    .lcbsw ⟨10, ⟨true, 5⟩, 0x001, 0x09, 0x00, 0x00, 0x00⟩] = true := by decide

/-- Each check on an L instruction refuses a term (R52 to R54 and the instructions' own lists). -/
theorem test_illFormed_l_2 : Tests.refuses [
    .lcbsw ⟨10, ⟨true, 5⟩, 0x000, 0x10, 0x00, 0x00, 0x00⟩,
    .lmsk ⟨10, ⟨true, 5⟩, 0x078, 0x05, 0x11, 0x00, 0x00⟩,
    .lmsk ⟨10, ⟨true, 5⟩, 0x7D0, 0x05, 0x11, 0x00, 0x00⟩,
    .lmsk ⟨10, ⟨true, 5⟩, 0x7FB, 0x08, 0x11, 0x00, 0x00⟩] = true := by decide

/-- Each check on an M instruction refuses a term (R52 to R54 and the instructions' own lists). -/
theorem test_illFormed_m_1 : Tests.refuses [
    .mldb ⟨10, ⟨true, 15⟩, 0x7DD, 0x03, 0x86, 0x09, 0x00⟩,
    .mkadd ⟨10, ⟨true, 5⟩, 0x001, 0x11, 0x00, 0x12, 0x34⟩,
    .mkwait ⟨10, ⟨true, 5⟩, 0x001, 0x11, 0x00, 0x12, 0x34⟩,
    .mkadd ⟨10, ⟨true, 5⟩, 0x000, 0x20, 0x00, 0x12, 0x34⟩,
    .mkwait ⟨10, ⟨true, 5⟩, 0x000, 0x11, 0x01, 0x12, 0x34⟩,
    .mnop ⟨10, ⟨true, 5⟩, 0x001, 0x00, 0x00, 0x00, 0x00⟩,
    .mnop ⟨10, ⟨true, 5⟩, 0x000, 0x00, 0x00, 0x00, 0x01⟩,
    .mzclr ⟨10, ⟨true, 5⟩, 0x001, 0x09, 0x00, 0x00, 0x00⟩,
    .mzcnt ⟨10, ⟨true, 5⟩, 0x001, 0x09, 0x00, 0x00, 0x00⟩,
    .mzclr ⟨10, ⟨true, 5⟩, 0x000, 0x10, 0x00, 0x00, 0x00⟩,
    .mzcnt ⟨10, ⟨true, 5⟩, 0x000, 0x09, 0x01, 0x00, 0x00⟩,
    .mldb ⟨10, ⟨true, 5⟩, 0x7E8, 0x03, 0x86, 0x09, 0x00⟩,
    .mldb ⟨10, ⟨true, 5⟩, 0x7DF, 0x03, 0x86, 0x09, 0x00⟩,
    .mldb ⟨10, ⟨true, 5⟩, 0x7DD, 0x04, 0x86, 0x09, 0x00⟩,
    .mldb ⟨10, ⟨true, 5⟩, 0x7DD, 0x03, 0x86, 0x10, 0x00⟩,
    .mldb ⟨10, ⟨true, 5⟩, 0x398, 0x03, 0x86, 0x09, 0x00⟩,
    .mldb ⟨10, ⟨true, 5⟩, 0x7DD, 0x03, 0x80, 0x09, 0x00⟩,
    .mswap ⟨10, ⟨true, 5⟩, 0x001, 0x00, 0x00, 0x00, 0x00⟩,
    .mswap ⟨10, ⟨true, 5⟩, 0x000, 0x01, 0x00, 0x00, 0x00⟩,
    .mmul ⟨10, ⟨true, 5⟩, 0x7D1, 0x09, 0x86, 0x00, 0x00⟩,
    .mmul ⟨10, ⟨true, 5⟩, 0x3A8, 0x09, 0x86, 0x00, 0x00⟩,
    .mmul ⟨10, ⟨true, 5⟩, 0x395, 0x10, 0x86, 0x00, 0x00⟩,
    .mmul ⟨10, ⟨true, 5⟩, 0x395, 0x09, 0x86, 0x01, 0x00⟩,
    .mrank ⟨10, ⟨true, 5⟩, 0x05C, 0x8B, 0x86, 0x00, 0x00⟩,
    .mrank ⟨10, ⟨true, 5⟩, 0x01D, 0x8B, 0x86, 0x00, 0x00⟩,
    .mrank ⟨10, ⟨true, 5⟩, 0x03C, 0x8B, 0x86, 0x00, 0x00⟩,
    .mrank ⟨10, ⟨true, 5⟩, 0x01C, 0x88, 0x86, 0x00, 0x00⟩,
    .mrdz ⟨10, ⟨true, 5⟩, 0x071, 0x8A, 0x09, 0x12, 0x34⟩,
    .mrdz ⟨10, ⟨true, 5⟩, 0x070, 0x8A, 0x09, 0x12, 0x34⟩,
    .mrdz ⟨10, ⟨true, 5⟩, 0x055, 0x8A, 0x09, 0x12, 0x34⟩,
    .mrdz ⟨10, ⟨true, 5⟩, 0x054, 0x8A, 0x10, 0x12, 0x34⟩,
    .mrdz ⟨10, ⟨true, 5⟩, 0x054, 0x8A, 0x09, 0x40, 0x34⟩,
    .shins ⟨10, ⟨true, 5⟩, 0x041, 0x8B, 0x02, 0x84, 0x00⟩,
    .shins ⟨10, ⟨true, 5⟩, 0x040, 0x25, 0x02, 0x84, 0x00⟩,
    .shins ⟨10, ⟨true, 5⟩, 0x040, 0x8B, 0x04, 0x84, 0x00⟩,
    .shins ⟨10, ⟨true, 5⟩, 0x040, 0x8B, 0x02, 0xE0, 0x00⟩,
    .shmrg ⟨10, ⟨true, 5⟩, 0x000, 0x04, 0x00, 0x00, 0x00⟩,
    .shclr ⟨10, ⟨true, 5⟩, 0x000, 0x04, 0x00, 0x00, 0x00⟩,
    .shmrg ⟨10, ⟨true, 5⟩, 0x000, 0x02, 0x01, 0x00, 0x00⟩,
    .shrd ⟨10, ⟨true, 5⟩, 0x003, 0x8D, 0x02, 0x00, 0x00⟩] = true := by decide

/-- Each check on an M instruction refuses a term (R52 to R54 and the instructions' own lists). -/
theorem test_illFormed_m_2 : Tests.refuses [
    .shrd ⟨10, ⟨true, 5⟩, 0x001, 0x25, 0x02, 0x00, 0x00⟩,
    .shrd ⟨10, ⟨true, 5⟩, 0x001, 0x8D, 0x04, 0x00, 0x00⟩] = true := by decide

/-- Each check on a W instruction refuses a term (R52 to R54 and the instructions' own lists). -/
theorem test_illFormed_w_1 : Tests.refuses [
    .wst ⟨10, ⟨true, 15⟩, 0x7D3, 0x11, 0x8C, 0x00, 0x00⟩,
    .wkadd ⟨10, ⟨true, 5⟩, 0x001, 0x11, 0x00, 0x12, 0x34⟩,
    .wkwait ⟨10, ⟨true, 5⟩, 0x001, 0x11, 0x00, 0x12, 0x34⟩,
    .wkadd ⟨10, ⟨true, 5⟩, 0x000, 0x20, 0x00, 0x12, 0x34⟩,
    .wkwait ⟨10, ⟨true, 5⟩, 0x000, 0x11, 0x01, 0x12, 0x34⟩,
    .wnop ⟨10, ⟨true, 5⟩, 0x001, 0x00, 0x00, 0x00, 0x00⟩,
    .wnop ⟨10, ⟨true, 5⟩, 0x000, 0x00, 0x00, 0x00, 0x01⟩,
    .wst ⟨10, ⟨true, 5⟩, 0x5D0, 0x11, 0x8C, 0x00, 0x00⟩,
    .wst ⟨10, ⟨true, 5⟩, 0x7D6, 0x11, 0x8C, 0x00, 0x00⟩,
    .wst ⟨10, ⟨true, 5⟩, 0x7D3, 0x20, 0x8C, 0x00, 0x00⟩,
    .wst ⟨10, ⟨true, 5⟩, 0x7D3, 0x11, 0x80, 0x00, 0x00⟩,
    .wst ⟨10, ⟨true, 5⟩, 0x7D3, 0x11, 0x8C, 0x01, 0x00⟩,
    .wst ⟨10, ⟨true, 5⟩, 0x7D3, 0x11, 0x8C, 0x00, 0x01⟩,
    .wstq ⟨10, ⟨true, 5⟩, 0x7D0, 0x11, 0x8C, 0x00, 0x15⟩,
    .wstq ⟨10, ⟨true, 5⟩, 0x7D4, 0x11, 0x8C, 0x00, 0x15⟩,
    .wstq ⟨10, ⟨true, 5⟩, 0x7D3, 0x11, 0x8C, 0x00, 0x20⟩,
    .wsct ⟨10, ⟨true, 5⟩, 0x7D3, 0x11, 0x8C, 0x47, 0x00⟩,
    .wsct ⟨10, ⟨true, 5⟩, 0x7D2, 0x11, 0x8C, 0xFF, 0x00⟩,
    .wamo ⟨10, ⟨true, 5⟩, 0x1D5, 0x11, 0x8C, 0xFF, 0x10⟩,
    .wamo ⟨10, ⟨true, 5⟩, 0x1D5, 0x11, 0x8C, 0xFF, 0x16⟩,
    .wamo ⟨10, ⟨true, 5⟩, 0x1D5, 0x11, 0x8C, 0xFF, 0x1D⟩,
    .wamo ⟨10, ⟨true, 5⟩, 0x1D5, 0x11, 0x8C, 0xFF, 0x35⟩,
    .wamo ⟨10, ⟨true, 5⟩, 0x1D5, 0x11, 0x8C, 0x80, 0x15⟩,
    .wcadd ⟨10, ⟨true, 5⟩, 0x0D0, 0x11, 0x8C, 0x47, 0x00⟩,
    .wcadd ⟨10, ⟨true, 5⟩, 0x7D4, 0x11, 0x8C, 0x47, 0x00⟩,
    .wcadd ⟨10, ⟨true, 5⟩, 0x0D4, 0x11, 0x8C, 0x47, 0x01⟩,
    .wcpy ⟨10, ⟨true, 5⟩, 0x3B0, 0x11, 0x12, 0x47, 0xFF⟩,
    .wcpy ⟨10, ⟨true, 5⟩, 0x200, 0x11, 0x12, 0x47, 0xFF⟩,
    .wcpy ⟨10, ⟨true, 5⟩, 0x224, 0x11, 0x12, 0x47, 0xFF⟩,
    .wcpy ⟨10, ⟨true, 5⟩, 0x23D, 0x11, 0x12, 0x47, 0xFF⟩,
    .wcpy ⟨10, ⟨true, 5⟩, 0x23C, 0x11, 0x20, 0x47, 0xFF⟩,
    .wcpy ⟨10, ⟨true, 5⟩, 0x23C, 0x11, 0x12, 0x80, 0xFF⟩,
    .wcpy ⟨10, ⟨true, 5⟩, 0x23C, 0x11, 0x12, 0x47, 0x10⟩,
    .wcpy ⟨10, ⟨true, 5⟩, 0x330, 0x11, 0x10, 0x05, 0xFF⟩,
    .wcpy ⟨10, ⟨true, 5⟩, 0x230, 0x11, 0x12, 0x20, 0xFF⟩,
    .wcpyx ⟨10, ⟨true, 5⟩, 0x230, 0x11, 0x12, 0x05, 0xFF⟩,
    .wsend ⟨10, ⟨true, 5⟩, 0x0D1, 0x11, 0x8D, 0x47, 0x48⟩,
    .wsend ⟨10, ⟨true, 5⟩, 0x7D0, 0x11, 0x8D, 0x47, 0x48⟩,
    .wsend ⟨10, ⟨true, 5⟩, 0x0D0, 0x20, 0x8D, 0x47, 0x48⟩,
    .wsend ⟨10, ⟨true, 5⟩, 0x0D0, 0x11, 0x8D, 0x80, 0x48⟩] = true := by decide

/-- Each check on a W instruction refuses a term (R52 to R54 and the instructions' own lists). -/
theorem test_illFormed_w_2 : Tests.refuses [
    .wsend ⟨10, ⟨true, 5⟩, 0x0D0, 0x11, 0x8D, 0x47, 0x80⟩,
    .wattd ⟨10, ⟨true, 5⟩, 0x0A8, 0x11, 0x46, 0x47, 0x15⟩,
    .watts ⟨10, ⟨true, 5⟩, 0x0A8, 0x11, 0x46, 0x12, 0x34⟩,
    .wattd ⟨10, ⟨true, 5⟩, 0x000, 0x11, 0x46, 0x47, 0x15⟩,
    .watts ⟨10, ⟨true, 5⟩, 0x000, 0x11, 0x46, 0x12, 0x34⟩,
    .wattd ⟨10, ⟨true, 5⟩, 0x029, 0x11, 0x46, 0x47, 0x15⟩,
    .watts ⟨10, ⟨true, 5⟩, 0x029, 0x11, 0x46, 0x12, 0x34⟩,
    .wattd ⟨10, ⟨true, 5⟩, 0x028, 0x11, 0x80, 0x47, 0x15⟩,
    .wattd ⟨10, ⟨true, 5⟩, 0x028, 0x11, 0x46, 0x47, 0x20⟩,
    .watts ⟨10, ⟨true, 5⟩, 0x028, 0x20, 0x46, 0x12, 0x34⟩,
    .watts ⟨10, ⟨true, 5⟩, 0x028, 0x11, 0x80, 0x12, 0x34⟩,
    .wflush ⟨10, ⟨true, 5⟩, 0x7FF, 0x11, 0x00, 0x00, 0x00⟩,
    .wflush ⟨10, ⟨true, 5⟩, 0x7D0, 0x11, 0x00, 0x00, 0x00⟩,
    .wflush ⟨10, ⟨true, 5⟩, 0x7FB, 0x11, 0x01, 0x00, 0x00⟩,
    .wmsk ⟨10, ⟨true, 5⟩, 0x050, 0x11, 0x05, 0x00, 0x00⟩,
    .wmsk ⟨10, ⟨true, 5⟩, 0x7D6, 0x11, 0x05, 0x00, 0x00⟩,
    .wmsk ⟨10, ⟨true, 5⟩, 0x7D3, 0x11, 0x08, 0x00, 0x00⟩] = true := by decide

/-! ## Hypotheses of the statements -/

/-- Whether a computation answers something of which `p` holds. -/
def Tests.gives {ε α : Type} (x : Except ε α) (p : α → Bool) : Bool :=
  match x with
  | .ok a => p a
  | .error _ => false

theorem Tests.gives_iff {ε α : Type} (x : Except ε α) (p : α → Bool) (h : Tests.gives x p = true) : ∃ a, x = .ok a ∧ p a = true := by
  cases x <;> first | exact ⟨_, rfl, h⟩ | cases h

/-- The first headland of a text: a block of `n` parcels, three times. -/
def Tests.block (n : Nat) : List Parcel := [BitVec.ofNat 16 (0xA800 + n), 0x0003]

theorem test_hyp_WritesReadBack : 15 < 16 ∧ Eng.L ≠ .S := by decide

theorem test_hyp_GuardedOffIsInert :
    Terms.inertOff (.sld ⟨Tests.off, 5, 6, 3, 0⟩) = some (Tests.off, 4) ∧ Terms.inertOff (.kwaiti Tests.off 31 1) = some (Tests.off, 2) ∧
      Turn.Ready .S (Tests.plain .S) ∧ (Tests.plain .S).view.guard Tests.off = false :=
  ⟨by decide, by decide, Tests.ready _ _ (by decide), by decide⟩

/-- In the second state the instruction waits: 32 writes are in flight. -/
theorem test_hyp_ScalarFrames :
    let full := Tests.dev .S [] (fun w => w.setStrand .S { w.strands.s with pend := List.replicate 32 ⟨[], 1, false, 0, false⟩ }) id
    Terms.scalarDest (.sadd Tests.on 5 6 7) = some 5 ∧ (∃ t, exec (.sadd Tests.on 5 6 7) (Tests.plain .S) = .next t) ∧
      (∃ t, exec (.sadd Tests.on 5 6 7) full = .next t) ∧
      Terms.predDest (.seqi Tests.on 5 15 1) = some 15 ∧ ∃ t, exec (.seqi Tests.on 5 15 1) (Tests.plain .S) = .next t :=
  ⟨by decide, Tests.next_iff _ (by decide), Tests.next_iff _ (by decide), by decide, Tests.next_iff _ (by decide)⟩

theorem test_hyp_TakenTransfers :
    let s := Tests.dev .S (Tests.block 12) (fun w => { w with sregs := [(6, 0x1000000000)] }) id
    s.live = true ∧ s.curEng = .S ∧ s.view.guard Tests.on = true ∧ s.outcomeFree ∧ s.slipFree .S ∧
      s.headlandAt s.wk (s.st.pc + BitVec.ofInt 57 (2 * (0 : BitVec 32).toInt)) = true ∧
      s.headlandAt s.wk ((s.wk.sget (6 : BitVec 5).toNat).extractLsb' 0 57) = true ∧ s.headlandAt s.wk (bucketTarget 6 s) = true ∧
      ∀ i < 8, ¬ (bits (tabGet 0 s.view.bkt i).toNat 0 16 ≠ 0 ∧
        (s.wk.sget (6 : BitVec 5).toNat).toNat ≤ bits (tabGet 0 s.view.bkt i).toNat 0 16) := by
  simp only [State.outcomeFree, State.slipFree]; decide

/-- The second state has a bucket that sA fits exactly. -/
theorem test_hyp_TakenTransfers_bucket :
    let s := Tests.dev .S [] (fun w => { (w.setStrand .S { w.strands.s with view := { w.strands.s.view with bkt := [(3, 0xFFFF)] } }) with
      sregs := [(6, 0xFFFF)] }) id
    bits (tabGet 0 s.view.bkt 3).toNat 0 16 ≠ 0 ∧ (s.wk.sget (6 : BitVec 5).toNat).toNat = bits (tabGet 0 s.view.bkt 3).toNat 0 16 := by
  decide

/-- The text holds no headland: `near` is a word that is none, `far` is odd. -/
theorem test_hyp_TransfersNotTakenOrIllegal :
    let s := Tests.regs [(6, 1)]
    s.live = true ∧ s.curEng = .S ∧ s.view.guard Tests.off = false ∧ s.view.guard Tests.on = true ∧ s.outcomeFree ∧
      (∃ p, s.fetchParcel s.wk (s.st.pc + BitVec.ofInt 57 (2 * (0 : BitVec 32).toInt)) = .ok p ∧ (!isHeadland p) = true) ∧
      ((s.wk.sget (6 : BitVec 5).toNat).extractLsb' 0 57).getLsbD 0 = true := by
  simp only [State.outcomeFree]
  exact ⟨by decide, by decide, by decide, by decide, by decide, Tests.gives_iff _ _ (by decide), by decide⟩

/-- A link of depth 0 on an empty stack; a link of depth 7; an odd link. -/
theorem test_hyp_RetReturns :
    let s := fun (x : Word) => Tests.regs [(31, x)]
    (s 0x1000000000).live = true ∧ (s 0x1000000000).curEng = .S ∧ (s 0x1000000000).outcomeFree ∧ (s 0x1000000000).slipFree .S ∧
      (s 0x1000000000).st.pend.length < 32 ∧
      ((s 0x1000000000).wk.sget 31).toNat / 2 ^ 57 % 8 ≤ (s 0x1000000000).st.stack.length ∧
      ((s 0x1000000000).wk.sget 31).toNat % 2 = 0 ∧
      (s 0x0E00001000000000).st.stack.length < ((s 0x0E00001000000000).wk.sget 31).toNat / 2 ^ 57 % 8 ∧
      ((s 1).wk.sget 31).toNat % 2 = 1 := by
  simp only [State.outcomeFree, State.slipFree]; decide

theorem test_hyp_OtherStrandsFollow :
    ∀ e ∈ [Eng.L, .V, .M, .W],
      let s := Tests.plain e
      let t := Tests.dev e [] (fun w => w.setStrand e { w.strands.get e with outq := [⟨true, 0x1000000000, 0, 0⟩] }) id
      s.live = true ∧ s.curEng ≠ .S ∧ s.slipFree s.curEng ∧ s.st.outq = [] ∧ t.live = true ∧ t.slipFree t.curEng ∧ t.st.outq ≠ [] ∧
        s.st.pend.length < 32 ∧ t.st.pend.length < 32 := by
  simp only [State.slipFree]; decide

/-- A block of one parcel; an empty one; a full stack. -/
theorem test_hyp_Headlands :
    let s := Tests.dev .S (Tests.block 1) id id
    let full := Tests.dev .S (Tests.block 1) (fun w => w.setStrand .S
      { w.strands.s with stack := List.replicate 4 ⟨0x1000000000, 0x1000002000, 1, false⟩ }) id
    let v := Tests.dev .V (Tests.block 1) (fun w => w.setStrand .V { w.strands.v with outq := [⟨true, 0, 5, 0⟩] }) id
    s.live = true ∧ s.slipFree s.curEng ∧ s.curEng = .S ∧ s.headOk (1 : BitVec 11).toNat = true ∧ s.st.stack.length < s.baseS + 4 ∧
      (0x3FFF : BitVec 14).toNat ≠ 0 ∧ s.outcomeFree ∧ s.headOk (0 : BitVec 11).toNat = false ∧ full.live = true ∧
      full.baseS + 4 ≤ full.st.stack.length ∧ v.live = true ∧ v.slipFree v.curEng ∧ v.curEng ≠ .S ∧ v.st.outq = [⟨true, 0, 5, 0⟩] ∧
      ∀ x ∈ [s, full, v], x.st.pend.length < 32 := by
  simp only [State.slipFree, State.outcomeFree]; decide

/-- A strand at the end of its block, outside a handler and in one. -/
theorem test_hyp_RepetitionsAndExits :
    let b : Block := ⟨0x1000000000, 0x1000000000, 2, true⟩
    let s := Tests.dev .S [] (fun w => w.setStrand .S { w.strands.s with stack := [b] }) id
    let h := Tests.dev .S [] (fun w => { w.setStrand .S { w.strands.s with stack := [b] } with inHandler := true }) id
    s.live = true ∧ s.st.stack = [b] ∧ b.fin = s.st.pc ∧ s.slipFree s.curEng ∧ s.wk.inHandler = false ∧
      h.live = true ∧ h.slipFree h.curEng ∧ h.wk.inHandler = true ∧ h.wk.sup.tdepth < h.st.stack.length := by
  simp only [State.slipFree]; decide

/-- Others still run; the last strand of worker 1, without and with a task. -/
theorem test_hyp_RepetitionsAndExits_exit :
    let done := fun (t : Strand) => { t with exited := true }
    let last := fun (n : Option Nat) => Tests.dev .S [] (fun w =>
      { w with wid := 1, openTask := n, strands := ⟨w.strands.s, done w.strands.l, done w.strands.v, done w.strands.m, done w.strands.w⟩ }) id
    let after := fun (s : State) => s.setSt
      { s.st with exited := true, pend := s.st.pend.map (fun p => { p with count := 0 }), pc := s.st.pc + 2, pos := s.st.pos + 1 }
    (Tests.plain .S).live = true ∧ (Tests.plain .S).wk.inHandler = false ∧
      ((after (Tests.plain .S)).wk.strands.get .W).exited = false ∧
      (∀ n ∈ [none, some 3], (last n).live = true ∧ (last n).wk.inHandler = false ∧
        (∀ e ∈ [Eng.S, .L, .V, .M, .W], ((after (last n)).wk.strands.get e).exited = true) ∧ (after (last n)).wk.openTask = n ∧
        (after (last n)).wk.wid ≠ 0 ∧ (tabFind (after (last n)).launches (after (last n)).wk.lid).isSome = true) := by
  decide

theorem test_hyp_ConfigurationWrites :
    let s := Tests.plain .S
    Turn.Ready .S s ∧ s.view.guard Tests.on = true ∧ s.configFree ∧ (0x14 : BitVec 5).toNat < 0x15 ∧ 32 ∈ [4, 8, 16, 32, 64] ∧
      (∀ k, 1 ≤ (⟨8192, 1, 1, 1⟩ : Quad Nat).get k) ∧ 16 ∣ 8192 ∧ 8192 * 1 * 1 * 1 * 32 ≤ 262144 := by
  refine ⟨Tests.ready _ _ (by decide), by decide, by unfold State.configFree; decide, by decide, by decide, ?_, by decide, by decide⟩
  intro k; unfold Quad.get; split <;> decide

/-- One write is due, the next is not. -/
theorem test_hyp_ConfigurationWrites_order :
    let t : Strand := { Strand.zero with pos := 4, confq := [⟨4, .pred 0 true⟩, ⟨5, .pred 0 false⟩] }
    t.confq = [⟨4, .pred 0 true⟩] ++ [⟨5, .pred 0 false⟩] ∧ (∀ c ∈ [(⟨4, .pred 0 true⟩ : ConfEntry)], c.due ≤ t.pos) ∧
      ∀ c ∈ [(⟨5, .pred 0 false⟩ : ConfEntry)], t.pos < c.due := by
  decide

/-- In user and in supervisor mode. -/
theorem test_hyp_CsrAccesses :
    let u := Tests.plain .S
    let p := Tests.dev .S [] (fun w => { w with sup := { w.sup with priv := true } }) id
    Turn.Ready .S u ∧ u.view.guard Tests.on = true ∧ u.configFree ∧ u.wk.sup.priv = false ∧ 0x100 ≤ (0x100 : BitVec 10).toNat ∧
      Turn.Ready .S p ∧ p.view.guard Tests.on = true ∧ p.wk.sup.priv = true := by
  refine ⟨Tests.ready _ _ (by decide), by decide, by unfold State.configFree; decide, by decide, by decide,
    Tests.ready _ _ (by decide), by decide, by decide⟩

/-- L waits for a knot. -/
theorem test_hyp_KnotAdds :
    let s := Tests.dev .S [] (fun w => w.setStrand .L { w.strands.l with wait := some (.knot 31 5) }) id
    Turn.Ready .S s ∧ s.view.guard Tests.on = true ∧ (s.wk.strands.get .L).wait = some (.knot (31 : BitVec 5).toNat 5) :=
  ⟨Tests.ready _ _ (by decide), by decide, by decide⟩

/-- The engines' forms, with every token that they pop there; also for the knot waits of the engines. -/
theorem test_hyp_KnotAdds_engines :
    ∀ e ∈ [Eng.L, .V, .M, .W],
      let s := Tests.dev e [] (fun w => { w with tokens := (List.range 9).map fun i => (i, 1) }) id
      (s.live && s.curEng == e && decide (s.st.pend.length < 32)) = true ∧ (∀ q ∈ tokPops e 0xF, 0 < s.wk.tokensIn q) ∧
        s.view.guard Tests.off = false ∧ s.view.guard Tests.on = true ∧ s.st.wait = none := by
  decide

theorem test_hyp_Hints :
    Turn.Ready .S (Tests.plain .S) ∧ (Tests.plain .S).wk.preempt = false ∧
      Turn.Ready .S (Tests.dev .S [] (fun w => { w with preempt := true }) id) ∧
      (Tests.dev .S [] (fun w => { w with preempt := true }) id).wk.preempt = true :=
  ⟨Tests.ready _ _ (by decide), by decide, Tests.ready _ _ (by decide), by decide⟩

/-- Nothing outstanding; L one parcel behind. -/
theorem test_hyp_FencesAndEarlyStart :
    let s := Tests.plain .S
    let b := Tests.dev .S [] (fun w => w.setStrand .S { w.strands.s with pos := 1 }) id
    Turn.Ready .S s ∧ s.view.guard Tests.on = true ∧
      (∀ e ∈ [Eng.L, .V, .M, .W], 0 ≤ (s.wk.strands.get e).pos ∧ (s.wk.strands.get e).pend = []) ∧ Turn.Ready .S b ∧
      (b.wk.strands.get .L).exited = false ∧ (b.wk.strands.get .L).pos < b.wk.strands.s.pos :=
  ⟨Tests.ready _ _ (by decide), by decide, by decide, Tests.ready _ _ (by decide), by decide, by decide⟩

/-- Not a member; a member; a member that waits. -/
theorem test_hyp_GroupsAndTasks_groups :
    let s := Tests.plain .S
    let m := Tests.dev .S [] id (fun l => { l with groups := [1] })
    let x := Tests.dev .S [] (fun w => w.setStrand .S { w.strands.s with wait := some .met }) (fun l => { l with groups := [1] })
    Turn.Ready .S s ∧ s.view.guard Tests.on = true ∧ (nth 0 s.ln.groups (0 : BitVec 10).toNat).testBit s.wk.wid = false ∧
      s.st.wait = none ∧ Turn.Ready .S m ∧ (nth 0 m.ln.groups (0 : BitVec 10).toNat).testBit m.wk.wid = true ∧ m.st.wait = none ∧
      Turn.Ready .S x ∧ x.view.guard Tests.on = true ∧ x.st.wait = some .met :=
  ⟨Tests.ready _ _ (by decide), by decide, by decide, by decide, Tests.ready _ _ (by decide), by decide, by decide,
    Tests.ready _ _ (by decide), by decide, by decide⟩

/-- A launch of three workers: an own task; a task of the worker before it in the ring; none; a second take in a deterministic
launch. -/
theorem test_hyp_GroupsAndTasks_tasks :
    let s := fun (l : Tab (List Nat)) => Tests.dev .S [] id (fun x => { x with record := [0x1000000000, 3], deques := l })
    let d := Tests.dev .S [] (fun w => { w with openTask := some 1 }) (fun x => { x with record := [0x1000000000, 3, 1] })
    Turn.Ready .S (s [(0, [7])]) ∧ (s [(0, [7])]).view.guard Tests.on = true ∧ (s [(0, [7])]).ln.det = false ∧
      tabGet [] (s [(0, [7])]).ln.deques (s [(0, [7])]).wk.wid = [7] ∧
      (2 < (s [(2, [8, 9])]).ln.workersN ∧ tabGet [] (s [(2, [8, 9])]).ln.deques 0 = [] ∧
        tabGet [] (s [(2, [8, 9])]).ln.deques ((0 + 1) % 3) = [] ∧ tabGet [] (s [(2, [8, 9])]).ln.deques ((0 + 2) % 3) = [8] ++ [9]) ∧
      (∀ m < 3, tabGet [] (s []).ln.deques m = []) ∧ Turn.Ready .S d ∧ d.ln.det = true ∧ d.wk.openTask ≠ none :=
  ⟨Tests.ready _ _ (by decide), by decide, by decide, by decide, by decide, by decide, Tests.ready _ _ (by decide), by decide, by decide⟩

/-- Commits: not deterministic; deterministic without tasks; with tasks, none open and one open. -/
theorem test_hyp_GroupsAndTasks_commits :
    let s := fun (r : List Word) (n : Option Nat) => Tests.dev .S [] (fun w => { w with openTask := n }) (fun x => { x with record := r })
    Turn.Ready .S (s [0x1000000000, 1] none) ∧ (s [0x1000000000, 1] none).view.guard Tests.on = true ∧
      (s [0x1000000000, 1] none).ln.det = false ∧ (s [0x1000000000, 1, 1] none).ln.det = true ∧
      (s [0x1000000000, 1, 1] none).ln.ntask = 0 ∧ (s [0x1000000000, 0x200000001, 1] none).ln.ntask ≠ 0 ∧
      (s [0x1000000000, 0x200000001, 1] none).wk.openTask = none ∧ (s [0x1000000000, 0x200000001, 1] (some 0)).wk.openTask ≠ none :=
  ⟨Tests.ready _ _ (by decide), by decide, by decide, by decide, by decide, by decide, by decide, by decide⟩

/-- The last eight bytes of the scratchpad, the last knot and the last cell of the worker's own windows. -/
theorem test_hyp_ScalarAccessesThroughWindows :
    let s := Tests.regs [(6, 0x01F000000007FFF8), (7, 0x01F40000000000F8), (8, 0x01F20000000FFFF8)]
    let ea := fun (a : BitVec 5) => (s.wk.sget a.toNat + (0 : BitVec 32).signExtend 64).toNat
    Turn.Ready .S s ∧ s.view.guard Tests.on = true ∧ ea 6 = 0x1F0 * 2 ^ 48 + 0x7FFF8 ∧ 0x7FFF8 + 8 ≤ 0x80000 ∧ 0x7FFF8 % 8 = 0 ∧
      8 = 2 ^ ((3 : BitVec 5).toNat % 4) ∧ 8 = (if (16 : BitVec 5).getLsbD 4 then 8 else 4) ∧
      s.wk.wid < s.ln.workersN ∧ ea 7 = 0x1F4 * 2 ^ 48 + s.wk.wid * 2 ^ 12 + 8 * 31 ∧ (0 : BitVec 5).toNat = 0 ∧
      ((1 : BitVec 4).getLsbD 3 = false) ∧ (3 : BitVec 5).toNat = 3 ∧ 32 * 32767 + 8 * 3 < 0x100000 ∧
      ea 8 = 0x1F2 * 2 ^ 48 + 32 * 32767 + 8 * 3 :=
  ⟨Tests.ready _ _ (by decide), by decide, by decide, by decide, by decide, by decide, by decide, by decide, by decide, by decide,
    by decide, by decide, by decide, by decide⟩

/-- The text page allows every access, and none of its sectors is marked. -/
theorem test_hyp_ScalarAccessesTranslated :
    let s := Tests.regs [(6, 0x1000000100)]
    let ea := (s.wk.sget (6 : BitVec 5).toNat + (0 : BitVec 32).signExtend 64).toNat
    let r := fun (a : Acc) => s.resolve (.core s.wk.core) (s.cxOf s.wk) ea a
    Turn.Ready .S s ∧ s.ln.det = false ∧ ea < 2 ^ 57 ∧ inWindows ea = false ∧ ea % 8 = 0 ∧
      (∃ x, r .load = .ok x ∧ (x.2.readCheck (.phys x.1) 8).isNone = true) ∧
      (∃ x, r .store = .ok x ∧ (x.2.writeCheck [(.phys x.1, toBytes 0 8)]).isNone = true) ∧
      ∃ x, r .atomic = .ok x ∧ ((x.2.readCheck (.phys x.1) 8).isNone &&
        ((x.2.correct x.1.addr 8).writeCheck [(.phys x.1, toBytes 0 8)]).isNone) = true :=
  ⟨Tests.ready _ _ (by decide), by decide, by decide, by decide, by decide, Tests.gives_iff _ _ (by decide),
    Tests.gives_iff _ _ (by decide), Tests.gives_iff _ _ (by decide)⟩

/-- Beyond the address space; a window that leads nowhere; the cell window; a misaligned address; an unmapped page. -/
theorem test_hyp_ScalarAccessFaults :
    let s := Tests.regs [(1, 0x0200000000000000), (2, 0x01FF000000000000), (3, 0x01F2000000000000), (4, 0x1000000101), (5, 0x2000000000)]
    let ea := fun (a : BitVec 5) => (s.wk.sget a.toNat + (0 : BitVec 32).signExtend 64).toNat
    let fails := fun (a : Acc) => match s.resolve (.core s.wk.core) (s.cxOf s.wk) (ea 5) a with
      | .error (.fault c) => c == 8
      | _ => false
    Turn.Ready .S s ∧ s.view.guard Tests.on = true ∧ 2 ^ 57 ≤ ea 1 ∧ inWindows (ea 2) = true ∧ windowPlace (s.cxOf s.wk) (ea 2) = none ∧
      ea 3 / 2 ^ 48 = 0x1F2 ∧ ea 3 % 2 ^ 48 < 0x100000 ∧ 2 ^ ((2 : BitVec 5).toNat % 4) ≠ 8 ∧
      ea 4 < 2 ^ 57 ∧ inWindows (ea 4) = false ∧ ea 4 % 2 ^ ((1 : BitVec 5).toNat % 4) ≠ 0 ∧
      ea 5 < 2 ^ 57 ∧ inWindows (ea 5) = false ∧ ea 5 % 8 = 0 ∧ fails .load = true ∧ fails .store = true :=
  ⟨Tests.ready _ _ (by decide), by decide, by decide, by decide, by decide, by decide, by decide, by decide, by decide, by decide,
    by decide, by decide, by decide, by decide, by decide, by decide⟩

theorem test_hyp_ScalarAccessFrame :
    let s := Tests.regs [(6, 0x1000000100)]
    tabSorted s.poolDirty = true ∧ ∀ i ∈ [Instr.sld ⟨Tests.on, 5, 6, 3, 0⟩, .sst ⟨Tests.on, 5, 6, 3, 0⟩, .samo ⟨Tests.on, 5, 6, 16, 0⟩],
      ∃ t, exec i s = .next t := by
  refine ⟨by decide, fun i hi => Tests.next_iff _ ?_⟩
  simp only [List.mem_cons, List.not_mem_nil, or_false] at hi
  rcases hi with rfl | rfl | rfl <;> decide

/-- A record and an image in the text page, in supervisor mode. -/
theorem test_hyp_SupervisorInstructions :
    let s := Tests.dev .S [] (fun w => { w with sregs := [(6, 0x1000000000)], sup := { w.sup with priv := true } }) id
    let a := s.wk.sget (6 : BitVec 5).toNat
    let ea := (a + (0 : BitVec 32).signExtend 64).toNat
    Turn.Ready .S s ∧ s.view.guard Tests.on = true ∧ s.wk.sup.priv = true ∧ ea % 256 = 0 ∧
      (∃ x, M.gather (fun i => loadS (ea + 8 * i) 8) (upFrom 0 32) s = .ok x ∧ true = true) ∧ a.toNat % 64 = 0 ∧
      (∃ x, M.gather (fun i => loadS (a.toNat + 8 * i) 8) (upFrom 0 8) s = .ok x ∧ true = true) ∧
      (s.satinvs.filter fun x => x.key == s.curKey).length < 4 :=
  ⟨Tests.ready _ _ (by decide), by decide, by decide, by decide, Tests.gives_iff _ (fun _ => true) (by decide +kernel), by decide,
    Tests.gives_iff _ (fun _ => true) (by decide +kernel), by decide⟩

theorem test_hyp_ProgramTraps :
    Turn.Ready .S (Tests.plain .S) ∧ (Tests.plain .S).wk.sup.priv = false ∧ (Tests.plain .S).view.guard Tests.on = true :=
  ⟨Tests.ready _ _ (by decide), by decide, by decide⟩

/-- TVEC at a headland; the same with TIN set; TVEC at no headland. -/
theorem test_hyp_TrapEntry :
    let x : Trap := ⟨4, 0, 9, some 2⟩
    let s := fun (tin : Bool) (l : List Parcel) =>
      Tests.dev .V l (fun w => { w with sup := { w.sup with tin := tin, tvec := 0x1000000000 } }) id
    let a := s false (Tests.block 1)
    a.wk.sup.tin = false ∧ a.headlandAt (a.wk.trapped .V a.st.pc x) a.wk.sup.tvec = true ∧ x.cause ≠ 0x0B ∧
      (s true []).live = true ∧ (s true []).wk.sup.tin = true ∧ (tabFind (s true []).launches (s true []).wk.lid).isSome = true ∧
      (s false []).live = true ∧ (s false []).headlandAt ((s false []).wk.trapped .V (s false []).st.pc x) (s false []).wk.sup.tvec = false := by
  decide

/-- Too few blocks; an odd TPC; handler writes still in flight; and a return that goes through. -/
theorem test_hyp_ReturnFromTrap :
    let s := fun (depth : Nat) (tpc : PAddr) (p : List Pend) =>
      Tests.dev .S [] (fun w => { w.setStrand .S { w.strands.s with pend := p } with
        sup := { w.sup with priv := true, tin := true, tdepth := depth, tpc := tpc, tstrand := 2 }, inHandler := true }) id
    let a := s 0 0x1000000000 []
    let b := s 0 0x1000000000 [⟨[.sreg 5 1], 2, false, 0, false⟩]
    (∀ x ∈ [s 1 0 [], s 0 1 [], a, b], x.live = true ∧ x.curEng = .S ∧ x.wk.sup.priv = true) ∧
      (s 1 0 []).wk.strands.s.stack.length < (s 1 0 []).wk.sup.tdepth ∧ (s 0 1 []).wk.sup.tpc.getLsbD 0 = true ∧
      b.wk.sup.tdepth ≤ b.wk.strands.s.stack.length ∧ b.wk.sup.tpc.getLsbD 0 = false ∧ b.wk.strands.s.pend ≠ [] ∧
      a.wk.sup.tdepth ≤ a.wk.strands.s.stack.length ∧ a.wk.sup.tpc.getLsbD 0 = false ∧ a.wk.strands.s.pend = [] ∧ a.wk.inHandler = true ∧
      a.wk.note = none := by
  decide

/-- A state whose strands see a shape, and whose worker is changed by `f`. -/
def Tests.vec (e : Eng) (g : Quad Nat) (width : Nat) (f : Worker → Worker) : State :=
  let look := fun (t : Strand) => { t with view := { t.view with shape := ⟨g, width, 0⟩ } }
  Tests.dev e [] (fun w => f { w with strands := ⟨look w.strands.s, look w.strands.l, look w.strands.v, look w.strands.m, look w.strands.w⟩ }) id

/-- Two slots of 32 bits for V. -/
def Tests.v2 : State := Tests.vec .V ⟨2, 1, 1, 1⟩ 32 id

/-- A lane instruction on the small immediates 2, -1 and 3, unmasked, in f32 or i32. -/
def Tests.lane : E64 := ⟨0, Tests.on, 0x038, 5, 0xE2, 0xDF, 0xE3⟩

theorem test_hyp_SourcesAndLandedResults :
    let x : ImgEntry := ⟨2, 32, 0, 0, none, .lost, []⟩
    let s := Tests.vec .V ⟨2, 1, 1, 1⟩ 32 (fun w => { w with q14 := [7], images := [(3, [x])] })
    (0x7F : BitVec 8).toNat < 0x80 ∧ Tests.v2.wk.q14 = [] ∧ s.wk.q14 = 7 :: [] ∧ Tests.v2.wk.image 3 = [] ∧
      s.wk.image ((0x83 : BitVec 8).toNat - 0x80) = x :: [] ∧ x.count = s.view.shape.slots ∧ (∀ n, some 32 = some n → x.width = n) ∧
      (∃ n, some 16 = some n ∧ x.width ≠ n) ∧ 4 ≤ 4 ∧ (-32 : Int) ≤ -32 ∧ (31 : Int) ≤ 31 ∧
      0 < 32 ∧ (Tests.plain .V).view.shape.slots * 32 ≤ 262144 ∧ isV 0x7F = true ∧ isQ 0x88 = true :=
  ⟨by decide, by decide, by decide, by decide, rfl, by decide, fun n h => Option.some.inj h, ⟨16, rfl, by decide⟩, by decide,
    by decide, by decide, by decide, by decide, by decide, by decide⟩

/-- One, two and three operands; both destinations of `vsincos`. -/
theorem test_hyp_LaneFloatResults :
    let f := Tests.lane
    let s := Tests.v2
    Turn.Lane f 1 (fmtWidth f.top2) s ⟨.imm 2, .imm 0, .imm 0, .lost⟩ s ∧ Turn.Lane f 2 (fmtWidth f.top2) s ⟨.imm 2, .imm (-1), .imm 0, .lost⟩ s ∧
      Turn.Lane f 3 (fmtWidth f.top2) s ⟨.imm 2, .imm (-1), .imm 3, .lost⟩ s ∧
      (∀ i, s.active f i → stoch s.wk s.view.nkey.c0 .lost f.mid3 i = .ok 0 ∧
        ∀ n, floatOf s.wk (.imm n) .lost f.top2 f.mid3 s.view.ftz 0 i = .ok (.ofInt n)) ∧
      Turn.Go .V f s ∧ isV f.d8 = true ∧ isV (f.d8 + 1) = true ∧ laneChecks f [f.d8, f.d8 + 1] (fmtWidth f.top2) s = .ok ((), s) :=
  ⟨⟨Tests.go _ _ _ (by decide), rfl, rfl⟩, ⟨Tests.go _ _ _ (by decide), rfl, rfl⟩, ⟨Tests.go _ _ _ (by decide), rfl, rfl⟩,
    fun _ _ => ⟨rfl, fun _ => rfl⟩, Tests.go _ _ _ (by decide), by decide, by decide, rfl⟩

theorem test_hyp_LaneIntegerResults :
    let f := Tests.lane
    let s := Tests.v2
    32 = (match f.top2 with
      | 0 => 32
      | 1 => 16
      | 2 => 8
      | _ => 64) ∧
    Turn.Lane f 1 32 s ⟨.imm 2, .imm 0, .imm 0, .lost⟩ s ∧ Turn.Lane f 2 32 s ⟨.imm 2, .imm (-1), .imm 0, .lost⟩ s ∧
      ∀ i, s.active f i → ∀ n, intOf s.wk (.imm n) .lost true false 32 i = .ok (Src.slot (.imm n) 32 i) ∧
        floatBits s.wk (.imm n) .lost s.view.nkey.c0 f.top2 f.mid3 i = .ok (convTo f.top2 0 false false 0 (.ofInt n)).bits :=
  ⟨by decide, ⟨Tests.go _ _ _ (by decide), rfl, rfl⟩, ⟨Tests.go _ _ _ (by decide), rfl, rfl⟩, fun _ _ _ => ⟨rfl, rfl⟩⟩

/-- A float compare, a select by all slots, the mask instructions, and `vpset` on its three paths in S. -/
theorem test_hyp_ComparesSelectsAndMasks :
    let f := Tests.lane
    let s := Tests.v2
    Turn.Go .V f s ∧ laneChecks f [] (cmpWidth f) s = .ok ((), s) ∧
      readLane f 2 (cmpWidth f) s = .ok (⟨.imm 2, .imm (-1), .imm 0, .lost⟩, s) ∧ f.modBit 2 = false ∧
      (∀ i, s.active f i → ∀ n, floatOf s.wk (.imm n) .lost f.top2 0 s.view.ftz 0 i = .ok (.ofInt n)) ∧
      Turn.Lane f (if f.lo3 = 7 then 1 else 2) (fmtWidth f.top2) s ⟨.imm 2, .imm 0, .imm 0, .lost⟩ s ∧
      (∀ i < 2, activeIn (s.maskOf f.lo3) i = true ∧
        floatBits s.wk (.imm 2) .lost 0 f.top2 0 i = .ok (convTo f.top2 0 false false 0 (.ofInt 2)).bits) ∧
      (Tests.plain .S).live = true ∧ (Tests.plain .S).curEng = .S ∧ (Tests.plain .S).view.guard Tests.off = false ∧
      (Tests.plain .S).view.guard Tests.on = true ∧ tabFind (Tests.plain .S).wk.vpres (Tests.plain .S).st.pos = none ∧
      (let p := Tests.dev .S [] (fun w => { w with vpres := [(0, true)] }) id
       p.live = true ∧ p.view.guard Tests.on = true ∧ tabFind p.wk.vpres p.st.pos = some true ∧ p.configFree) :=
  ⟨Tests.go _ _ _ (by decide), rfl, rfl, by decide, fun _ _ _ => rfl, ⟨Tests.go _ _ _ (by decide), rfl, rfl⟩,
    fun _ _ => ⟨rfl, rfl⟩, by decide, by decide, by decide, by decide, by decide, by decide, by decide, by decide,
    by unfold State.configFree; decide⟩

/-- `vcvt` from i32 to f32. -/
theorem test_hyp_Conversions_vcvt :
    let f : E64 := ⟨0, Tests.on, 0, 5, 0xE2, 0, 7⟩
    let s := Tests.v2
    Turn.Go .V f s ∧ peekMap [f.a8, f.b8, 0] f.ms s = .ok (.lost, s) ∧ ownCompanion f.d8 .lost s = .ok ((), s) ∧
      cvtFmt f.fmt5.toNat = true ∧ cvtFmt (bits f.c8.toNat 0 5) = true ∧
      s.view.shape.fits (max (fmtWidth f.fmt5.toNat) (fmtWidth (bits f.c8.toNat 0 5))) = true ∧ isCoord f.a8 = false ∧
      readSrc f.a8 (some (fmtWidth (bits f.c8.toNat 0 5))) s = .ok (.imm 2, s) ∧ f.ms = 0 ∧
      intFmt (bits f.c8.toNat 0 5) = some (true, 32) ∧ intFmt f.fmt5.toNat = none ∧
      ∀ i, intOf s.wk (.imm 2) .lost true false 32 i = .ok (Src.slot (.imm 2) 32 i) ∧ stoch s.wk s.view.nkey.c0 .lost f.lo3 i = .ok 0 :=
  ⟨Tests.go _ _ _ (by decide), rfl, rfl, by decide, by decide, by decide, by decide, rfl, by decide, by decide, by decide,
    fun _ => ⟨rfl, rfl⟩⟩

/-- `vqnt` of one block of 16 into kb4. -/
theorem test_hyp_Conversions_vqnt :
    let f : E64 := ⟨0, Tests.on, 0x0D <<< 6, 5, 0xE2, 0, 0⟩
    let s := Tests.vec .V ⟨16, 1, 1, 1⟩ 32 id
    Turn.Go .V f s ∧ peekMap [f.a8, 0, 0] 0 s = .ok (.lost, s) ∧ ownCompanion f.d8 .lost s = .ok ((), s) ∧
      isBlock f.fmt5.toNat = true ∧ ftzFmt (bits f.c8.toNat 0 5) = true ∧ vecLen f.fmt5.toNat = 1 ∧
      s.view.shape.fits (max (fmtWidth f.fmt5.toNat) 32) = true ∧ s.view.shape.slots % (1 * 16) = 0 ∧
      readSrc f.a8 (some 32) s = .ok (.imm 2, s) ∧
      ∃ q, qntBlock f.lo3 0 f.fmt5.toNat 16 (s.wk.front f.b8.toNat) s (.imm 2) 0 = .ok q ∧ true = true :=
  ⟨Tests.go _ _ _ (by decide), rfl, rfl, by decide, by decide, by decide, by decide, by decide, rfl,
    Tests.gives_iff _ (fun _ => true) (by decide)⟩

/-- `vdq` of one block of 16 from kb4. -/
theorem test_hyp_Conversions_vdq :
    let f : E64 := ⟨0, Tests.on, 0, 5, 6, 0, 0x40⟩
    let s := Tests.vec .V ⟨16, 1, 1, 1⟩ 32 (fun w => { w with vregs := [(6, ⟨0, 0, some ⟨dqFmt 4, 16⟩, .lost⟩)] })
    let w := fmtWidth (dqFmt 4)
    Turn.Go .V f s ∧ ftzFmt f.fmt5.toNat = true ∧ s.view.shape.fits (max 32 w) = true ∧ f.ms = 0 ∧ vecLen (dqFmt 4) = 1 ∧
      ownCompanion f.d8 .lost s = .ok ((), s) ∧ s.view.shape.slots % (1 * 16) = 0 ∧
      ∃ y, readSrc f.a8 (some w) s = .ok y ∧ (y.1.tag == some ⟨dqFmt 4, 16⟩ && (List.range 16).all fun j =>
        Tests.gives (blockValues (dqFmt 4) (slotOf y.1.scale 8 (j / 16)) (y.1.slot w j) (y.2.wk.front (bits f.c8.toNat 0 4)))
          fun l => l.length == 1) = true :=
  ⟨Tests.go _ _ _ (by decide), by decide, by decide, by decide, by decide, rfl, by decide, Tests.gives_iff _ _ (by decide +kernel)⟩

/-- Register v6 with an affine map over two slots, in the 32-bit layouts of V. -/
def Tests.mapped (f : Worker → Worker) : State :=
  Tests.vec .V ⟨2, 1, 1, 1⟩ 32 (fun w => f { w with vregs := [(6, ⟨0, 0, none, .affine ⟨2, 1, 1⟩ ⟨0, 7, 7, 7⟩ ⟨1, 0, 0, 0⟩ ⟨0, 0, 0, 0⟩ ⟨2, 1, 1, 1⟩⟩)] })

/-- The map of `Tests.mapped`. -/
def Tests.map : CMap := .affine ⟨2, 1, 1⟩ ⟨0, 7, 7, 7⟩ ⟨1, 0, 0, 0⟩ ⟨0, 0, 0, 0⟩ ⟨2, 1, 1, 1⟩

/-- `Tests.mapped` with four entries in bank 0, experts 0 and 1, and six words in q14. -/
def Tests.coords : State :=
  let s := Tests.mapped fun w => { w with banks := [(0, { Bank.reset with count0 := 4 })], q14 := Tests.map.words }
  s.modLaunch 0 fun l => { l with record := [0x1000000000, 1, 0, 0, 0, 0, 0, 0, 0, 0, 0, 2] }

/-- A movement word on 32 bits, unmasked: v5 from v6. -/
def Tests.move (top b c : Nat) : E64 := ⟨0, Tests.on, BitVec.ofNat 11 (top * 512 + 0xB8), 5, 6, BitVec.ofNat 8 b, BitVec.ofNat 8 c⟩

/-- `vcrd`, the three kinds of `vnoise`, `vmapq`. -/
theorem test_hyp_CoordinateInstructions :
    let s := Tests.coords
    ∀ top ∈ [0, 1, 2],
      let f := Tests.move top 0 0
      Turn.Go .V f s ∧ peekMap [f.a8] 0 s = .ok (Tests.map, s) ∧ ownCompanion f.d8 Tests.map s = .ok ((), s) ∧
        s.view.shape.fits 32 = true ∧ 32 = ewWidth f ∧ f.mid3 = 2 ∧ f.top2 = top ∧
        ∃ y, readSrc f.a8 none s = .ok y ∧ ((y.2.wk.front f.b8.toNat).2 ≠ 0 && (List.range 2).all fun i =>
          Tests.gives (readCoord y.2.wk y.1.map i) fun _ => true) = true := by
  intro s top h
  simp only [List.mem_cons, List.not_mem_nil, or_false] at h
  rcases h with rfl | rfl | rfl <;>
    exact ⟨Tests.go _ _ _ (by decide), rfl, rfl, by decide, by decide, by decide, by decide, Tests.gives_iff _ _ (by decide +kernel)⟩

/-- `vrot` by axis 0 and `vgbias` with the last expert. -/
theorem test_hyp_CoordinateInstructions_tables :
    let s := Tests.coords
    let f : E64 := ⟨0, Tests.on, 0x038, 5, 6, 0, 0x90⟩
    let g := Tests.move 0 0 0
    Turn.Go .V f s ∧ moveChecks f 32 id s = .ok ((), s) ∧ Turn.Go .V g s ∧ moveChecks g 32 id s = .ok ((), s) ∧ g.mid3 = 2 ∧
      ∃ y, readSrc f.a8 (some 32) s = .ok y ∧ ((List.range 2).all fun i =>
        Tests.gives (stoch y.2.wk y.2.view.nkey.c0 y.1.map f.mid3 i) (fun _ => true) &&
        Tests.gives (readCoord y.2.wk y.1.map (i - i % 2)) (fun c =>
          decide (0 ≤ c.get 0 / 2) && decide (c.get 0 / 2 < ((y.2.wk.front f.b8.toNat).2 : Int))) &&
        Tests.gives (readCoord y.2.wk y.1.map i) fun c => decide (c.get g.top2 = (i : Int)) && decide (i < y.2.ln.nexp)) = true :=
  ⟨Tests.go _ _ _ (by decide), rfl, Tests.go _ _ _ (by decide), rfl, by decide, Tests.gives_iff _ _ (by decide +kernel)⟩

/-- `vmap`, `vmapq` and `vcadd` into a tile of two cells. -/
theorem test_hyp_CoordinateInstructions_queues :
    let s := Tests.coords
    let f := Tests.move 0 0x8E 0
    let z := Tests.vec .V ⟨2, 1, 1, 1⟩ 32 (fun w => w.setStrand .V
      { w.strands.v with view := { w.strands.v.view with tiles := [(5, ⟨0, 1, 2, 0⟩)] } })
    Turn.Go .V f s ∧ s.view.shape.fits 32 = true ∧ 32 = ewWidth f ∧
      (∃ y, readSrc f.a8 (some 32) s = .ok y ∧ (decide (6 ≤ y.2.wk.q14.length) &&
        (mapOfWords s.view.shape.grant3 (y.2.wk.q14.take 6)).isSome) = true) ∧
      (∃ y, readSrc f.a8 none s = .ok y ∧ true = true) ∧
      (let k := Tests.move 0 0 7
       Turn.Go .V k z ∧ caddFormat (bits k.c8.toNat 0 5) = true ∧ fmtWidth (bits k.c8.toNat 0 5) = ewWidth k ∧
        (z.view.tile k.d8.toNat).ok = true ∧ z.view.shape.slots ≤ (z.view.tile k.d8.toNat).rows.toNat * (z.view.tile k.d8.toNat).cols.toNat ∧
        ∃ y, readSrc k.a8 (some 32) z = .ok y ∧ true = true) :=
  ⟨Tests.go _ _ _ (by decide), by decide, by decide, Tests.gives_iff _ _ (by decide +kernel),
    Tests.gives_iff _ (fun _ => true) (by decide +kernel), Tests.go _ _ _ (by decide), by decide, by decide, by decide, by decide,
    Tests.gives_iff _ (fun _ => true) (by decide +kernel)⟩

/-- `vmov` plain and raw; `vslice`, `vshift`, `vbcast` by 1; `vtrn` and `vresh`. -/
theorem test_hyp_Movements :
    let s := Tests.coords
    ∀ g ∈ [id, fun _ => CMap.lost, CMap.transpose], ∀ f ∈ [Tests.move 0 0xE1 0, Tests.move 1 0xE1 0],
      Turn.Go .V f s ∧ moveChecks f (ewWidth f) g s = .ok ((), s) ∧
        ∃ y, readSrc f.a8 (some (ewWidth f)) s = .ok y ∧ (Tests.gives (readSrc f.b8 (some 64) y.2) fun b => b.1 == Src.imm 1) = true := by
  intro s g hg f hf
  simp only [List.mem_cons, List.not_mem_nil, or_false] at hg hf
  rcases hf with rfl | rfl <;>
    refine ⟨Tests.go _ _ _ (by decide), ?_, Tests.gives_iff _ _ (by decide +kernel)⟩ <;>
    rcases hg with rfl | rfl | rfl <;> rfl

/-- `vresh` into q8. -/
theorem test_hyp_Movements_vresh :
    let s := Tests.coords
    let f : E64 := ⟨0, Tests.on, 0x0B8, 0x88, 6, 0, 0⟩
    Turn.Go .V f s ∧ moveChecks f (ewWidth f) (fun m => m.reshape s.view.shape) s = .ok ((), s) ∧
      ∃ y, readSrc f.a8 (some (ewWidth f)) s = .ok y ∧ true = true :=
  ⟨Tests.go _ _ _ (by decide), rfl, Tests.gives_iff _ (fun _ => true) (by decide +kernel)⟩

/-- `vperm` with index v7 and companion v8, `vcompact` with companion v7, `vexpand`. -/
theorem test_hyp_Movements_companions :
    let s := Tests.coords
    let f := Tests.move 0 7 8
    Turn.Go .V f s ∧ isV f.c8 = true ∧ f.c8 ≠ f.d8 ∧ s.view.shape.fits (ewWidth f) = true ∧ s.view.shape.fits 32 = true ∧
      (∃ y, readSrc f.a8 (some (ewWidth f)) s = .ok y ∧ (Tests.gives (readSrc f.b8 (some 32) y.2) fun x =>
        (List.range 2).all fun i => signed 32 (x.1.slot 32 i) == 0 && Tests.gives (readCoord x.2.wk y.1.map i) fun _ => true) = true) ∧
      isV f.b8 = true ∧ f.b8 ≠ f.d8 ∧
      (let e : E64 := ⟨0, Tests.on, 0x0B8, 5, 0xE2, 0, 0⟩
       Turn.Go .V e s ∧ moveChecks e 32 (fun m => if e.ms = 0 then .lost else m) s = .ok ((), s)) :=
  ⟨Tests.go _ _ _ (by decide), by decide, by decide, by decide, by decide, Tests.gives_iff _ _ (by decide +kernel), by decide, by decide,
    Tests.go _ _ _ (by decide), rfl⟩

/-- Reductions and scans in i32 along axis 0, `vrargmax`, and `vatmrg` of v6 and v7. -/
theorem test_hyp_ReductionsAndMerges :
    let s := Tests.coords
    let f := Tests.move 0 7 7
    Turn.Go .V f s ∧ moveChecks f (ewWidth f) (fun m => m.reduce f.top2) s = .ok ((), s) ∧ moveChecks f (ewWidth f) id s = .ok ((), s) ∧
      redOk (bits f.c8.toNat 0 5) = true ∧ fmtWidth (bits f.c8.toNat 0 5) = ewWidth f ∧ s.view.shape.fits 32 = true ∧
      ftzFmt (bits f.c8.toNat 0 5) = false ∧
      ∃ y, readSrc f.a8 (some 32) s = .ok y ∧ (((List.range 2).all fun i => Tests.gives (readCoord y.2.wk y.1.map i) fun _ => true) &&
        Tests.gives (readSrc f.b8 (some 32) y.2) fun _ => true) = true :=
  ⟨Tests.go _ _ _ (by decide), rfl, rfl, by decide, by decide, by decide, by decide, Tests.gives_iff _ _ (by decide +kernel)⟩

/-- A coordinate that is lost at slot 0; and words guarded off. -/
theorem test_hyp_EngineFaultsAndGuardedOff :
    let s := Tests.v2
    let f := Tests.move 0 0 0
    let o : E64 := ⟨0, Tests.off, 0x038, 5, 0xE2, 0xDF, 0xE3⟩
    Turn.Go .V f s ∧ peekMap [f.a8] 0 s = .ok (.lost, s) ∧ ownCompanion f.d8 .lost s = .ok ((), s) ∧ s.view.shape.fits (ewWidth f) = true ∧
      f.mid3 = 2 ∧
      (∃ y, readSrc f.a8 none s = .ok y ∧ (decide (0 < y.2.view.shape.slots) && activeIn (y.2.maskOf f.lo3) 0 &&
        match readCoord y.2.wk y.1.map 0 with
        | .error c => c == 3
        | .ok _ => false) = true) ∧
      Turn.Ready .V s ∧ (∀ q ∈ tokPops .V o.tk, 0 < s.wk.tokensIn q) ∧ s.view.guard o.g = false ∧
      discard (laneOff o 2 (fmtWidth o.top2)) s = .ok ((), s) ∧ discard (laneOff o 2 (tyWidth o.top2)) s = .ok ((), s) :=
  ⟨Tests.go _ _ _ (by decide), rfl, rfl, by decide, by decide, Tests.gives_iff _ _ (by decide +kernel), Tests.ready _ _ (by decide),
    by decide, by decide, rfl, rfl⟩

/-- A furrow of two f32 elements in the own scratchpad. -/
def Tests.fur : Furrow := { Furrow.reset with base := 0x01F0000000000100, ext := ⟨2, 1, 1, 1⟩, st := ⟨4, 0, 0, 0⟩ }

/-- A furrow of sixteen mask bits there. -/
def Tests.bits : Furrow := { Furrow.reset with base := 0x01F0000000000100, fmt := 22, ext := ⟨16, 1, 1, 1⟩ }

/-- A furrow of two cells in the own cell window. -/
def Tests.cells : Furrow := { Furrow.reset with base := 0x01F2000000000000, fmt := 21, ext := ⟨2, 1, 1, 1⟩, st := ⟨32, 0, 0, 0⟩ }

/-- `Tests.vec` on two 32-bit slots with those furrows as f1, f2 and f3. -/
def Tests.furs (e : Eng) (f : Worker → Worker) : State :=
  Tests.vec e ⟨2, 1, 1, 1⟩ 32 fun w => f (w.setStrand e
    { w.strands.get e with view := { (w.strands.get e).view with furrows := [(1, Tests.fur), (2, Tests.bits), (3, Tests.cells)] } })

/-- `ldv` and `lbc` into v5 through f1; `lgth` with index v7. -/
theorem test_hyp_LoadsAndFurrowMoves :
    let f : E64 := ⟨0, Tests.on, 0x7F8, 5, 1, 7, 0⟩
    let s := Tests.furs .L id
    let u := s.furrow f.a8
    let eff := u.effective f.fmt5.toNat
    let sh := s.view.shape
    let v := u.begin s.wk.spad
    Turn.Go .L f s ∧ u.imageOk eff sh ∧ isV f.d8 = true ∧ u.blockOk eff sh = true ∧
      (∃ y, loadElems v eff (v.blocked eff) (v.image sh none) s = .ok y ∧ y.1.vals.length == 2 ∧ true = true) ∧
      (lowestActive none sh.slots = some 0 ∧ v.inFrame v.pos = true) ∧
      (∃ y, loadElems v eff (u.blocked eff) [(0, v.pos)] s = .ok y ∧ true = true) ∧
      f.d8 ≠ f.b8 ∧ sh.fits 32 = true ∧ isBlock eff = false ∧ u.indirect = false ∧
      ∃ y, loadElems u eff 0 (u.indexed (fun i => signed 32 (slotOf (s.vreg f.b8).data.toNat 32 i)) sh.slots none) s = .ok y ∧ true = true := by
  refine ⟨Tests.go _ _ _ (by decide), by unfold Furrow.imageOk; decide, by decide, by decide, ?_, by decide, ?_, by decide, by decide,
    by decide, by decide, ?_⟩
  · obtain ⟨y, h, k⟩ := Tests.gives_iff (loadElems (((Tests.furs .L id).furrow 1).begin (Tests.furs .L id).wk.spad) 0 0
      ((((Tests.furs .L id).furrow 1).begin (Tests.furs .L id).wk.spad).image (Tests.furs .L id).view.shape none) (Tests.furs .L id))
      (fun y => y.1.vals.length == 2) (by decide +kernel)
    exact ⟨y, h, k, rfl⟩
  · exact Tests.gives_iff _ (fun _ => true) (by decide +kernel)
  · exact Tests.gives_iff _ (fun _ => true) (by decide +kernel)

/-- `lmsk` through f2, `ldq` of two words and `lcbld` of two entries through f1; the moves of a furrow. -/
theorem test_hyp_LoadsAndFurrowMoves_words :
    let f : E64 := ⟨0, Tests.on, 0x7F8, 0x8F, 1, 0xE2, 0⟩
    let m : E64 := ⟨0, Tests.on, 0x7F8, 5, 2, 0, 0⟩
    let c : E64 := ⟨0, Tests.on, 0x7F8, 5, 1, 0, 2⟩
    let s := Tests.furs .L id
    let u := s.furrow f.a8
    let b := s.furrow m.a8
    Turn.Go .L f s ∧ u.legal (u.effective f.fmt5.toNat) = true ∧ wordFmt (u.effective f.fmt5.toNat) = true ∧
      s.wk.q15.length + 2 ≤ Config.wordCap ∧ (immOf f.b8).toNat = 2 ∧ s.view.shape.fits (fmtWidth u.format) = true ∧
      (∃ y, loadEach 0 (u.elements s.wk.spad (immOf f.b8).toNat).1 s = .ok y ∧ true = true) ∧
      (∃ y, loadEach 0 (u.elements s.wk.spad c.bc.toNat).1 s = .ok y ∧ true = true) ∧
      Turn.Go .L m s ∧ b.legal b.format = true ∧ b.format = 22 ∧ b.indOk s.view.shape = true ∧
      (∃ y, loadElems (b.begin s.wk.spad) 22 0 ((b.begin s.wk.spad).image s.view.shape none) s = .ok y ∧ true = true) ∧
      u.legal u.format = true ∧ u.indOk s.view.shape = true :=
  ⟨Tests.go _ _ _ (by decide), by decide, by decide, by decide, by decide, by decide, Tests.gives_iff _ (fun _ => true) (by decide +kernel),
    Tests.gives_iff _ (fun _ => true) (by decide +kernel), Tests.go _ _ _ (by decide), by decide, by decide, by decide,
    Tests.gives_iff _ (fun _ => true) (by decide +kernel), by decide, by decide⟩

/-- `mzclr`, `mzcnt`, `mswap` on tile 5; `mrdz` of tile 5, whose one cell is in frame. -/
theorem test_hyp_TilesAndTheArray :
    let f : E64 := ⟨0, Tests.on, 0, 5, 0, 0, 0⟩
    let r : E64 := ⟨0, Tests.on, 0, 5, 5, 0, 0⟩
    let s := Tests.vec .M ⟨1, 1, 1, 1⟩ 32 id
    Turn.Go .M f s ∧ (s.view.tile f.d8.toNat).ok = true ∧ tabFind s.planeOwner s.wk.core = none ∧ Turn.Go .M r s ∧
      cvtFmt r.fmt5.toNat = true ∧ s.view.shape.fits 32 = true ∧ s.view.shape.size 2 = 1 ∧ s.view.shape.size 3 = 1 ∧
      0 < (s.view.tile r.a8.toNat).rows.toNat ∧ 0 < (s.view.tile r.a8.toNat).cols.toNat ∧
      ∀ m i, stoch s.wk s.view.nkey.c0 m r.lo3 i = .ok 0 :=
  ⟨Tests.go _ _ _ (by decide), by decide, by decide, Tests.go _ _ _ (by decide), by decide, by decide, by decide, by decide, by decide,
    by decide, fun _ _ => rfl⟩

/-- `mldb` of one column of 16 f32, `mmul` with a plane of blocks of 16, and `mrank`. -/
theorem test_hyp_TilesAndTheArray_planes :
    let f : E64 := ⟨0, Tests.on, 0, 0, 6, 0, 0⟩
    let s := Tests.vec .M ⟨16, 1, 1, 1⟩ 32 (fun w => { w with active := { Plane.reset with lb := 16 } })
    Turn.Go .M f s ∧ ldbFormat f 16 s = .ok (0, s) ∧ 16 = 16 * 2 ^ f.ms ∧ tabFind s.planeOwner s.wk.core = none ∧
      s.view.shape.size 0 ≤ 128 ∧ s.view.shape.size 0 % 16 = 0 ∧ s.view.shape.size 2 = 1 ∧ s.view.shape.size 3 = 1 ∧
      s.view.shape.size 1 ≤ 512 ∧ s.view.shape.fits 32 = true ∧ s.wk.shadow.fixed = false ∧
      mulFormat f s.wk.active.lb s = .ok ((0, 2), s) ∧ mulOk s.view.shape (s.view.tile f.d8.toNat) s.wk.active 0 2 = true ∧
      moveChecks f 32 id s = .ok ((), s) ∧ s.view.shape.width = 32 ∧ s.view.shape.size 0 ≤ 512 ∧
      ∃ y, readSrc f.a8 (some 32) s = .ok y ∧ ((List.range 16).all fun i =>
        Tests.gives (exactSlot 0 16 s.view.ftz (s.wk.front f.b8.toNat) y.1 i) fun _ => true) = true :=
  ⟨Tests.go _ _ _ (by decide), rfl, by decide, by decide, by decide, by decide, by decide, by decide, by decide, by decide, by decide,
    rfl, by decide, rfl, by decide, by decide, Tests.gives_iff _ _ (by decide +kernel)⟩

/-- One key of one dimension in f32, and a sheaf of one entry. -/
theorem test_hyp_Sheaves :
    let f : E64 := ⟨0, Tests.on, 0, 0, 0, 6, 0⟩
    let s := Tests.vec .M ⟨1, 1, 1, 1⟩ 32 id
    let h := s.view.sheaf f.a8.toNat
    Turn.Go .M f s ∧ s.wk.nbrValid = true ∧ ftzFmt f.fmt5.toNat = true ∧ h.ok = true ∧ h.dim.toNat ≤ s.view.shape.size 0 ∧
      s.view.shape.fits 32 = true ∧ s.view.shape.width = 32 ∧
      s.view.shape.slots / s.view.shape.size 0 * (2 * ((h.cap.toNat * h.dim.toNat + 4095) / 4096) + 1) ≤ 1024 ∧
      ∃ y, readSrc f.b8 (some 32) s = .ok y ∧ true = true :=
  ⟨Tests.go _ _ _ (by decide), by decide, by decide, by decide, by decide, by decide, by decide, by decide,
    Tests.gives_iff _ (fun _ => true) (by decide +kernel)⟩

/-- `wst`, `wstq` and `wsct` of v6 through f1, `wmsk` of m5 through f2. -/
theorem test_hyp_StoresThroughFurrows :
    let f : E64 := ⟨0, Tests.on, 0x7F8, 1, 6, 7, 0⟩
    let m : E64 := ⟨0, Tests.on, 0x7F8, 2, 5, 0, 0⟩
    let s := Tests.furs .W id
    let u := s.furrow f.d8
    let b := s.furrow m.d8
    let sh := s.view.shape
    let v := u.begin s.wk.spad
    let ix := u.indexed (fun i => signed 32 (slotOf (s.vreg f.b8).data.toNat 32 i)) sh.slots none
    Turn.Go .W f s ∧ u.imageOk 0 sh ∧ u.effective f.fmt5.toNat = 0 ∧ u.blocked 0 = 0 ∧
      (∃ y, readSrc f.a8 (some 32) s = .ok y ∧ (Tests.gives (storeElems v 0 0 (y.1.slot 32) (slotOf y.1.scale 8) (v.image sh none) y.2) (fun _ => true) &&
        Tests.gives (storeElems u 0 0 (y.1.slot 32) (fun _ => 0) ix y.2) fun _ => true) = true) ∧
      sh.fits 32 = true ∧ isBlock 0 = false ∧ u.indirect = false ∧
      Turn.Go .W m s ∧ b.legal b.format = true ∧ b.format = 22 ∧ b.indOk sh = true ∧
      ∃ y, storeElems (b.begin s.wk.spad) 22 0 (fun i => (s.wk.mget m.a8.toNat).toNat / 2 ^ i % 2) (fun _ => 0)
        ((b.begin s.wk.spad).image sh none) s = .ok y ∧ true = true :=
  ⟨Tests.go _ _ _ (by decide), by unfold Furrow.imageOk; decide, by decide, by decide, Tests.gives_iff _ _ (by decide +kernel),
    by decide, by decide, by decide, Tests.go _ _ _ (by decide), by decide, by decide, by decide,
    Tests.gives_iff _ (fun _ => true) (by decide +kernel)⟩

/-- `wamo` in i32 and `wcadd` of i32 into f3, by position and by index v7. -/
theorem test_hyp_StoresThroughFurrows_atomics :
    let s := Tests.furs .W id
    let sh := s.view.shape
    ∀ b ∈ [(0xFF : BitVec 8), 7],
      let f : E64 := ⟨0, Tests.on, 7 <<< 6 ||| 0x38, 1, 6, b, 1⟩
      let g : E64 := ⟨0, Tests.on, 7 <<< 6 ||| 0x39, 3, 6, b, 0⟩
      let u := s.furrow f.d8
      let c := s.furrow g.d8
      let es := fun (u : Furrow) => if b = 0xFF then (u.begin s.wk.spad).image sh none
        else u.indexed (fun i => signed 32 (slotOf (s.vreg b).data.toNat 32 i)) sh.slots none
      Turn.Go .W f s ∧ u.legal 7 = true ∧ u.effective f.fmt5.toNat = 7 ∧ 7 ∈ [7, 8, 11, 12] ∧ sh.fits 32 = true ∧ u.indirect = false ∧
        u.indOk sh = true ∧
        (∃ y, readSrc f.a8 (some 32) s = .ok y ∧ (Tests.gives (plan u (amoAccess f.end3) 7 0 none (es u) y.2) fun z =>
          z.1.length == 2 && Tests.gives (M.each (fun t => do
            let _ ← atomicAt 1 (t.place.atScope 1) t.size (if f.end3 < 4 then f.end3 else f.end3 + 2) (y.1.slot 32 t.slot) 0
            pure ()) z.1 z.2) fun _ => true) = true) ∧
        Turn.Go .W g s ∧ c.legal c.format = true ∧ c.format = 21 ∧ caddFormat g.fmt5.toNat = true ∧
        ∃ y, readSrc g.a8 (some 32) s = .ok y ∧ (Tests.gives (plan c cellAccess 21 0 none (es c) y.2) fun z =>
          z.1.length == 2 && Tests.gives (addCells g.end3 c.anchor (fun i => termOf 7 (y.1.slot 32 i)) z.1 z.2) fun _ => true) = true := by
  intro s sh b h
  simp only [List.mem_cons, List.not_mem_nil, or_false] at h
  rcases h with rfl | rfl <;>
    exact ⟨Tests.go _ _ _ (by decide), by decide, by decide, by decide, by decide, by decide, by decide,
      Tests.gives_iff _ _ (by decide +kernel), Tests.go _ _ _ (by decide), by decide, by decide, by decide,
      Tests.gives_iff _ _ (by decide +kernel)⟩

/-- `wflush` of lines in the scratchpad: none is far. -/
theorem test_hyp_StoresThroughFurrows_flush :
    let f : E64 := ⟨0, Tests.on, 0x7F8, 1, 0, 0, 0⟩
    let s := Tests.furs .W id
    let u := s.furrow f.d8
    Turn.Go .W f s ∧ u.legal u.format = true ∧ s.view.shape.fits (fmtWidth u.format) = true ∧ u.indOk s.view.shape = true ∧
      ∃ y, flushPlan (u.begin s.wk.spad) (isBlock u.format) ((u.begin s.wk.spad).image s.view.shape none) s = .ok y ∧ true = true :=
  ⟨Tests.go _ _ _ (by decide), by decide, by decide, by decide, Tests.gives_iff _ (fun _ => true) (by decide +kernel)⟩

/-- Two f32 elements that a load and a store find, the second behind the first. -/
theorem test_hyp_ElementsThroughFurrows :
    let s := Tests.furs .W id
    let u := s.furrow 1
    let es := u.image s.view.shape none
    8 ≤ fmtWidth 0 ∧
      (∃ y, plan u loadAccess 0 0 none es s = .ok y ∧ (Tests.gives (loadElems u 0 0 es s) fun _ => true) = true) ∧
      ∃ y, plan u storeAccess 0 0 none es s = .ok y ∧
        (y.1.map (fun t => (t.place, t.size)) == [(.spad 0 0x100, 4), (.spad 0 0x104, 4)] && (s.worker? 0).isSome &&
          Tests.gives (storeElems u 0 0 id id es s) fun _ => true) = true :=
  ⟨by decide, Tests.gives_iff _ _ (by decide +kernel), Tests.gives_iff _ _ (by decide +kernel)⟩

/-- The places of those two share no byte. -/
theorem test_hyp_ElementsThroughFurrows_apart : (Place.spad 0 0x100).apart 4 (.spad 0 0x104) 4 := by unfold Place.apart; decide

theorem test_hyp_StoresKeepTheRest :
    let f : E64 := ⟨0, Tests.on, 0x7F8, 1, 6, 7, 0⟩
    let m : E64 := ⟨0, Tests.on, 0x7F8, 2, 5, 0, 0⟩
    let s := Tests.furs .W id
    tabSorted s.poolDirty = true ∧ (∃ t, exec (.wst f) s = .next t) ∧ (∃ t, exec (.wstq f) s = .next t) ∧
      (∃ t, exec (.wsct f) s = .next t) ∧ ∃ t, exec (.wmsk m) s = .next t :=
  ⟨by decide, Tests.next_iff _ (by decide +kernel), Tests.next_iff _ (by decide +kernel), Tests.next_iff _ (by decide +kernel),
    Tests.next_iff _ (by decide +kernel)⟩

/-- `wcpy` and `wcpyx` of f1 onto itself at device scope. -/
theorem test_hyp_CopiesSendsAndDecodeJobs :
    let f : E64 := ⟨0, Tests.on, 0x30, 1, 1, 5, 0⟩
    let s := Tests.furs .W id
    let u := s.furrow f.d8
    Turn.Go .W f s ∧ copyFurrowsOk 0 u u (s.view.tile 1) = true ∧ copyRules 0 u u (s.view.tile 1) = true ∧
      copyContext u s = .ok ((), s) ∧ remoteKnot f s = .ok (none, s) ∧ (s.copiesOf s.curKey).length < 32 ∧
      (s.passesOf s.curKey).length < 16 :=
  ⟨Tests.go _ _ _ (by decide), by decide, by decide, rfl, rfl, by decide, by decide⟩

/-- `wsend` of one row to expert 0, the only one, which is enabled on this device. -/
theorem test_hyp_CopiesSendsAndDecodeJobs_wsend :
    let f : E64 := ⟨0, Tests.on, 0x38, 5, 6, 7, 8⟩
    let s := (Tests.furs .W id).modLaunch 0 fun l =>
      { l with record := [0x1000000000, 1, 0, 0, 0, 0, 0, 0, 0, 0, 0, 1], place := [0x8000000000000000] }
    let ix := fun (i : Nat) => signed 32 (slotOf (s.vreg f.b8).data.toNat 32 i)
    Turn.Go .W f s ∧ cvtFmt f.fmt5.toNat = true ∧ s.view.shape.slots ≤ 8192 ∧ s.view.shape.fits (fmtWidth f.fmt5.toNat) = true ∧
      (∃ y, readSrc f.a8 (some (fmtWidth f.fmt5.toNat)) s = .ok y ∧ true = true) ∧
      s.view.shape.slots / s.view.shape.size 0 = 1 ∧ ix 0 = 0 ∧ (ix 0).toNat < s.ln.nexp ∧ bit (s.ln.placeOf (ix 0).toNat) 63 = true :=
  ⟨Tests.go _ _ _ (by decide), by decide, by decide, by decide, Tests.gives_iff _ (fun _ => true) (by decide +kernel), by decide,
    by decide +kernel, by decide +kernel, by decide +kernel⟩

/-- `wattd` of one token with eight dimensions, kept in the buffer. -/
theorem test_hyp_CopiesSendsAndDecodeJobs_wattd :
    let f : E64 := ⟨0, Tests.on, 0x38, 1, 6, 7, 5⟩
    let s := Tests.vec .W ⟨2, 1, 1, 1⟩ 32 fun w =>
      { w.setStrand .W { w.strands.w with view := { w.strands.w.view with furrows := [(1, { Tests.fur with ext := ⟨10, 1, 1, 1⟩ })] } } with
        vregs := [(7, ⟨BitVec.ofNat 262144 (2 ^ 96 + 8 * 2 ^ 160), 0, none, .lost⟩)] }
    let j := s.newJob f
    Turn.Go .W f s ∧ descOk j.desc j.buf = true ∧ j.buf = true ∧ jobFurrowOk j.dst j.desc = true ∧ s.jobs = [] ∧
      copyContext j.dst s = .ok ((), s) ∧ (s.jobsOf s.curKey).length < 16 :=
  ⟨Tests.go _ _ _ (by decide), by decide +kernel, by decide, by decide +kernel, rfl, rfl, by decide⟩

/-- The state after an instruction. -/
def Tests.after (i : Instr) (s : State) : State :=
  match exec i s with
  | .next t => t
  | _ => s

/-- One entry of each kind: ready with room; without room nothing is ready, and a younger register write lands meanwhile. -/
theorem test_hyp_Landings :
    let x : ImgEntry := ⟨2, 32, 0, 0, none, .lost, []⟩
    let full := fun (w : Worker) => { w with
      tokens := (List.range 9).map fun i => (i, 15), q15 := List.replicate 16 0, images := [(3, List.replicate 4 x)] }
    let s := fun (l : List (List Landing)) (f : Worker → Worker) =>
      Tests.dev .V [] (fun w => f (w.setStrand .V { w.strands.v with pend := l.map fun a => ⟨a, 0, false, 0, false⟩ })) id
    let due := fun (l : List (List Landing)) (f : Worker → Worker) => ((s l f).wk.due .V).map Prod.fst
    let y : Part := ⟨false, 1, 32, 0x100, 0⟩
    (s [] id).live = true ∧ (s [] id).curEng = .V ∧
      (∀ a ∈ [[Landing.sreg 5 7], [.mask 5 7], [.vregs [(5, .zero)]], [.knotAdd 5 1], [.image 3 x, .token .VW], [.fetched 3 x [y]], [.words [7]],
        [.vregs [(5, .zero)], .image 3 x], [.token .VW]], due [a] id = some 0) ∧
      (∀ a ∈ [[Landing.image 3 x], [.words [7]], [.token .VW]], due [a] full = none ∧ due [a, [.sreg 5 7]] full = some 1) ∧
      0 < 32 ∧ (1 + 1) * 32 ≤ 262144 ∧ sectorHit (s [] id).badSectors y.addr 4 = none := by
  simp only []
  decide +kernel

/-- A copy issued by `wcpy`, and the same at its end, and with its furrow on an unmapped page. -/
theorem test_hyp_AgentEvents_copies :
    let f : E64 := ⟨0, Tests.on, 0x30, 1, 1, 5, 0⟩
    let s := Tests.after (.wcpy f) (Tests.furs .W id)
    let c := (Tests.furs .W id).copyCmd f false none
    let x := { c with src := { c.src with base := 0x2000000000 } }
    let e := { c with next := c.dst.frame }
    (s.worker? 0).isSome = true ∧ s.copies = [] ++ c :: [] ∧ c.key = 0 ∧ (s.worker 0).status ≠ .saved ∧ (s.launch 0).aborting = false ∧
      c.failed = false ∧ c.next < c.dst.frame ∧ c.ord = false ∧ c.remote = none ∧ c.xf ≠ 6 ∧
      (∃ y, c.elements c.chunk s = .ok y ∧ (Tests.gives (c.writes y.1.1 y.2) fun _ => true) = true) ∧
      (match x.elements x.chunk s with
        | .error (.trap _) => true
        | _ => false) = true ∧ e.dst.frame ≤ e.next :=
  ⟨by decide, by decide +kernel, by decide, by decide, by decide, by decide, by decide, by decide, by decide, by decide,
    Tests.gives_iff _ _ (by decide +kernel), by decide +kernel, by decide⟩

/-- A job of one token kept in the buffer: not captured, captured, failed, done. -/
def Tests.job : SauJob :=
  { key := 0, desc := BitVec.ofNat 512 (2 ^ 96 + 8 * 2 ^ 160 + 0x01F2000000000000 * 2 ^ 192), query := List.replicate 8 0
    dst := { Tests.fur with ext := ⟨10, 1, 1, 1⟩ }, knot := 5, scope := 3, buf := true, ftz := false, priv := false, pc := 0
    gen := none, entries := [], folded := [], failed := none, complete := false, logits := [(0, 0)], born := 0, acq := 0 }

/-- A score pass on it. -/
def Tests.pass (drop : Bool) : ScorePass :=
  { key := 0, m := 0, s := 0x3F800000, tag := 0, knot := 5, scope := 3, drop := drop, ftz := false, priv := false, pc := 0, born := 0 }

theorem test_hyp_AgentEvents_attention :
    let s : State := { Tests.plain .W with
      jobs := [Tests.job, { Tests.job with entries := [1] }, { Tests.job with failed := some (8, 0) },
        { Tests.job with entries := [1], folded := [0] }]
      passes := [Tests.pass true] }
    let d : State := { Tests.plain .W with
      jobs := [{ Tests.job with entries := [1], folded := [0], complete := true }], passes := [Tests.pass true, Tests.pass false] }
    (s.worker? 0).isSome = true ∧ (s.worker 0).status ≠ .saved ∧ (s.launch 0).aborting = false ∧ (∀ n < 4, (s.jobs[n]?).isSome = true) ∧
      Tests.job.complete = false ∧ Tests.job.failed = none ∧ 0 < descSpans Tests.job.desc ∧ descSpans Tests.job.desc = [0].length ∧
      (s.passes[0]?).isSome = true ∧ (Tests.plain .W).jobs = [] ∧
      (d.jobs.find? fun j => j.key == 0 && j.buf && descTag j.desc == (Tests.pass true).tag.toNat).isSome = true ∧
      (Tests.pass true).drop = true ∧ (Tests.pass false).drop = false ∧
      ∃ y : Bool × State, (Tests.pass false).add { Tests.job with entries := [1], folded := [0], complete := true } d = .ok y ∧ y.1 = true :=
  ⟨by decide, by decide, by decide, by decide, by decide, by decide, by decide +kernel, by decide +kernel, by decide, by decide,
    by decide +kernel, by decide, by decide, Tests.gives_iff _ (fun (y : Bool × State) => y.1) (by decide +kernel)⟩

/-- A `wstq` knot add, a refusal, and requests to a window that is closed, of the wrong row length, full, and open. -/
theorem test_hyp_AgentEvents_requests :
    let q : SendReq := ⟨0, 0, 0, 0, 0, [1, 2], 5, 0, false⟩
    let win := fun (cap used len : Nat) => (((Memory.writeBytes [] 0 (toBytes cap 4)).writeBytes 4 (toBytes used 4)).writeBytes 8
      (toBytes len 4)).writeBytes 12 (toBytes 31 4)
    let s := fun (m : Memory) => { (Tests.dev .W [] (fun w => { w with spad := m }) fun l => { l with place := [0x8000000000000000] }) with
      sends := [q], knotAdds := [⟨0, 5, 3, 0⟩], refusals := [⟨0, 0, 5⟩] }
    let word := fun (m : Memory) (i : Nat) => m.nat (4 * i) 4
    let good := fun (m : Memory) => decide (word m 3 ≤ 31) && decide (32 + word m 0 * (8 + word m 2) ≤ 524288)
    ((s []).worker? 0).isSome = true ∧ (s []).sends[0]? = some q ∧ (s []).knotAdds[0]? = some ⟨0, 5, 3, 0⟩ ∧
      (s []).refusals[0]? = some ⟨0, 0, 5⟩ ∧ ((s []).launch 0).aborting = false ∧ (s []).farExpert ((s []).launch 0) 0 = false ∧
      ((s []).launch 0).det = false ∧ 0 = workerKey 0 (((s []).launch 0).placeOf 0 / 2 ^ 32 % 2 ^ 16) ∧
      good (win 0x10000 0 2) = false ∧ good (win 4 0 3) = true ∧ word (win 4 0 3) 2 ≠ q.data.length ∧ good (win 4 4 2) = true ∧
      word (win 4 4 2) 2 = q.data.length ∧ word (win 4 4 2) 0 ≤ word (win 4 4 2) 1 ∧ good (win 4 3 2) = true ∧
      word (win 4 3 2) 1 < word (win 4 3 2) 0 := by
  simp only []
  decide +kernel

/-- A queue with one record at physical 0x5000_0000: a good one if `w` is 1, one that asks for no worker if `w` is 0. -/
def Tests.ring (w : Nat) (a : QueueSt) : State :=
  let s := Tests.plain .S
  let put := fun (m : Memory) (i x : Nat) => m.writeBytes (0x50000000 + 8 * i) (toBytes x 8)
  { s with mem := put (put (put (put s.mem 0 0x1000000000) 1 w) 5 0x1000000000) 16 0x200000, queues := [(0, a)] }

/-- A record to take, good and bad; none to take; a queue with an error. -/
theorem test_hyp_RecordsAndDecisions :
    let a : QueueSt := ⟨0x50000000, 16, 0, true, false, 0, 0, 1, []⟩
    let r := fun (s : State) => (List.range 32).map fun k => BitVec.ofNat 64 (s.physNat (ringSlot 0x50000000 16 0 + 8 * k) 8)
    let s := Tests.ring 1 a
    let b := Tests.ring 0 a
    (s.account 0).head < (s.account 0).tail ∧ s.busyOf 0 < 4 ∧ s.qerr 0 = false ∧
      (∃ l, s.loadRecord (r s) 0 (s.producersOf 0 0 (r s)) = .ok l ∧ true = true) ∧
      (match b.loadRecord (r b) 0 (b.producersOf 0 0 (r b)) with
        | .error x => x == 1
        | .ok _ => false) = true ∧
      ((Tests.ring 1 { a with head := 1 }).account 0).tail ≤ ((Tests.ring 1 { a with head := 1 }).account 0).head ∧
      { s with qirq := [(0, 0x80000000)] }.qerr 0 = true :=
  ⟨by decide +kernel, by decide +kernel, by decide +kernel, Tests.gives_iff _ (fun _ => true) (by decide +kernel), by decide +kernel,
    by decide +kernel, by decide +kernel⟩

/-- Launch 0 runs on core 0 at PRIO 0; launch 1 stands in a state at PRIO p and wants w workers. -/
def Tests.two (x y : LaunchState) (p w : Nat) (f : State → State) : State :=
  let s := Tests.dev .S [] id (fun l => { l with state := x })
  f { s with
    launches := tabPut s.launches 1 { Launch.zero with record := [0x1000000000, BitVec.ofNat 64 w], state := y, prio := p }
    coreUse := [(0, 0)] }

/-- No candidate; one, which is reserved for no other; a pre-empted one that can resume and one that cannot. -/
theorem test_hyp_RecordsAndDecisions_choice :
    let none_ := Tests.two .running .running 5 1 id
    let s := Tests.two .running .ready 5 1 id
    let p := Tests.two .running .preempted 5 1 id
    let q := Tests.two .preempted .running 5 1 id
    none_.candidate = none ∧ s.reserved = none ∧ s.candidate = some 1 ∧ p.candidate = some 1 ∧ (p.launch 1).state = .preempted ∧
      p.canResume 1 = true ∧ q.candidate = some 0 ∧ (q.launch 0).state = .preempted ∧ q.canResume 0 = false := by
  simp only []
  decide +kernel

/-- Free cores enough, with and without a save area in the way; cores coming; a victim, and none. -/
theorem test_hyp_RecordsAndDecisions_room :
    let s := Tests.two .running .ready 5 1 id
    let h := Tests.two .running .ready 5 1 (fun s => { s with saveArea := [(1, 7)] })
    let c := Tests.two .preempted .ready 5 96 id
    let v := Tests.two .running .ready 5 96 id
    let n := Tests.two .running .ready 0 96 id
    let free := fun (s : State) => (s.freeCores (s.launch 1)).take (s.launch 1).workersN
    (s.candidate = some 1 ∧ (s.launch 1).state ≠ .preempted ∧ (s.launch 1).workersN ≤ (free s).length ∧
        ∀ c ∈ free s, tabFind s.saveArea c = none) ∧
      (h.candidate = some 1 ∧ (h.launch 1).workersN ≤ (free h).length ∧ ∃ c ∈ free h, tabFind h.saveArea c ≠ none) ∧
      (c.candidate = some 1 ∧ (free c).length < (c.launch 1).workersN ∧
        (c.launch 1).workersN ≤ (c.freeCores (c.launch 1)).length + c.coresComing (c.launch 1)) ∧
      (v.candidate = some 1 ∧ (v.launch 1).state = .ready ∧ (free v).length < (v.launch 1).workersN ∧
        (v.freeCores (v.launch 1)).length + v.coresComing (v.launch 1) < (v.launch 1).workersN ∧ v.victim (v.launch 1).prio = some 0) ∧
      (n.candidate = some 1 ∧ (free n).length < (n.launch 1).workersN ∧ n.victim (n.launch 1).prio = none) := by
  simp only []
  decide +kernel

/-- Aging of a launch that waits for cores, and of one that runs. -/
theorem test_hyp_RecordsAndDecisions_aging :
    let s := Tests.two .running .ready 5 1 id
    (tabFind s.launches 1).isSome = true ∧ (s.launch 1).state = .ready ∧ (s.launch 1).aborting = false ∧
      (tabFind s.launches 0).isSome = true ∧ (s.launch 0).state ≠ .ready ∧ (s.launch 0).state ≠ .preempted := by
  decide

/-- A worker that is the last of its launch to end, one that is not, a launch to complete, an aborted one. -/
theorem test_hyp_CompletionsAndPhases :
    let done := fun (w : Worker) =>
      let x := fun (t : Strand) => { t with exited := true }
      { w with strands := ⟨x w.strands.s, x w.strands.l, x w.strands.v, x w.strands.m, x w.strands.w⟩ }
    let s := Tests.dev .S [] done id
    let o := { s with workers := tabPut s.workers 1 { Worker.zero with wid := 1 } }
    let t := fun (s : State) => s.putWorker 0 { s.worker 0 with status := .done }
    let d := Tests.dev .S [] id (fun l => { l with state := .draining })
    let a := Tests.dev .S [] id (fun l => { l with aborting := true, state := .running })
    ((s.worker? 0).isSome = true ∧ (s.worker 0).status = .running ∧
        (∀ e ∈ [Eng.S, .L, .V, .M, .W], ((s.worker 0).strands.get e).exited = true ∧ ((s.worker 0).strands.get e).pend = []) ∧
        (s.worker 0).inHandler = false ∧ (s.worker 0).note = none ∧ s.copies = [] ∧ s.jobs = [] ∧ s.passes = [] ∧ s.knotAdds = [] ∧
        s.satinvs = []) ∧
      (∀ k ∈ (t s).keysOf (0 / 128), ((t s).worker k).status = .done) ∧ (∃ k ∈ (t o).keysOf (0 / 128), ((t o).worker k).status ≠ .done) ∧
      ((d.launch 0).state = .draining ∧ (d.launch 0).aborting = false ∧ (d.launch 0).producers = [] ∧ d.sends = [] ∧ d.refusals = []) ∧
      ((a.launch 0).aborting = true ∧ (a.launch 0).state ≠ .complete ∧ (a.launch 0).producers = []) := by
  simp only []
  decide +kernel

/-- The end of a phase without tasks and with them; a close once the one worker has contributed. -/
theorem test_hyp_CompletionsAndPhases_phases :
    let s := Tests.dev .S [] (fun w => { w with committed := true }) (fun l => { l with record := [0x1000000000, 1, 1] })
    let t := Tests.dev .S [] id (fun l => { l with record := [0x1000000000, 0x200000001, 1], phaseEnds := [2] })
    let c := Tests.dev .S [] id (fun l => { l with contrib := [(0, [([(0, 3)], 0)])] })
    ((s.launch 0).det = true ∧ (s.launch 0).state = .running ∧ (s.launch 0).aborting = false ∧ (s.launch 0).ntask = 0 ∧
        (s.launch 0).workersN = 1 ∧ (s.worker (workerKey 0 0)).gone = false ∧ (s.worker (workerKey 0 0)).committed = true) ∧
      ((t.launch 0).det = true ∧ (t.launch 0).state = .running ∧ (t.launch 0).ntask ≠ 0 ∧ (t.launch 0).left = 0 ∧
        (t.launch 0).phase < (t.launch 0).phases ∧ (t.worker (workerKey 0 0)).gone = false) ∧
      ((c.launch 0).state = .running ∧ (c.launch 0).det = false ∧ (c.launch 0).aborting = false ∧ (c.launch 0).workersN = 1 ∧
        (c.launch 0).contributions 0 ≠ []) := by
  simp only []
  decide +kernel

/-- A worker in each state of a save and a restore; a walk that ends in a page and one that does not; an invalidation. -/
theorem test_hyp_ContextEvents :
    let at_ := fun (x : WorkerStatus) (y : LaunchState) (f : Worker → Worker) => Tests.dev .S [] (fun w => f { w with status := x }) (fun l => { l with state := y })
    let sup := fun (p t : Bool) (w : Worker) => { w with sup := { w.sup with pnote := p, tin := t } }
    let n := fun (h : Bool) => at_ .running .running fun w => { w with note := some ⟨3, 1, 0, none, .S, 0, h⟩ }
    let p := at_ .running .preempted id
    let v := fun (f : Worker → Worker) => at_ .saved .running f
    let o := Tests.two .preempted .ready 5 1 fun s => { s.putWorker 0 { s.worker 0 with status := .saved } with coreUse := [], reserved := some 1 }
    let i := { Tests.plain .S with satinvs := [⟨0, 0, 0x1000, 0, true, 5⟩] }
    (∀ h, ((n h).worker 0).note = some ⟨3, 1, 0, none, .S, 0, h⟩ ∧ ((n h).worker 0).status = .running ∧
        ((n h).worker 0).insertion = none) ∧
      ((p.worker 0).status = .running ∧ (p.launch (p.worker 0).lid).state = .preempted) ∧
      (at_ .stopped .preempted id |>.worker 0).status = .stopped ∧
      (let m := v fun w => { w with imageMoved := true }
       (m.worker 0).status = .saved ∧ (m.launch (m.worker 0).lid).state = .running ∧ (m.worker 0).imageMoved = true ∧
         tabFind m.saveArea (m.worker 0).core = none) ∧
      ((o.worker 0).status = .saved ∧ (o.launch (o.worker 0).lid).state ≠ .running ∧ (o.worker 0).imageMoved = false ∧
        o.reserved = some 1 ∧ (o.worker 0).lid = 0 ∧ tabFind o.coreUse (o.worker 0).core = none) ∧
      (∀ x ∈ [(false, false), (true, true), (true, false)],
        let r := v (sup x.1 x.2)
        (r.worker 0).status = .saved ∧ (r.launch (r.worker 0).lid).state = .running ∧ (r.worker 0).imageMoved = false ∧
          (r.worker 0).sup.pnote = x.1 ∧ (r.worker 0).sup.tin = x.2) ∧
      (match i.lookup (.core 0) (i.cxOf (i.worker 0)) 0x1000000000 with
        | .ok (_, _, b) => b
        | .error _ => false) = true ∧
      (match i.lookup (.core 0) (i.cxOf (i.worker 0)) 0x2000000000 with
        | .ok _ => false
        | .error _ => true) = true ∧
      i.satinvs[0]? = some ⟨0, 0, 0x1000, 0, true, 5⟩ ∧ (i.worker? 0).isSome = true := by
  simp only []
  decide +kernel

/-- A master that owns the device, one that does not, one that is offered it; a busy device and an idle one; a queue of the
host, a device-filled one, one in error, one with a tail out of place. -/
theorem test_hyp_OwnershipRegistersAndPool :
    let s : State := { State.reset with own := 7, offered := 9 }
    let b : State := { Tests.plain .S with own := 7 }
    let h := fun (flags tail : Nat) (s : State) => { s with qhbase := 0x60000000, mem :=
      ((s.mem.writeBytes 0x60000000 (toBytes 0x50000000 8)).writeBytes 0x60000008 (toBytes (16 + flags) 8)).writeBytes 0x60000010 (toBytes tail 8) }
    let busy := fun (s : State) => s.launches.any fun e => e.2.state != .complete
    State.reset.own = 0xFFFF ∧ s.own ≠ 0xFFFF ∧ s.offered = BitVec.ofNat 16 9 ∧ s.offered ≠ BitVec.ofNat 16 10 ∧
      s.own ≠ BitVec.ofNat 16 8 ∧ (7 < 1026 ∧ s.own = BitVec.ofNat 16 7) ∧ busy s = false ∧ busy b = true ∧
      (((h 0x40000 5 s).readHeader 0).devq = false ∧ ((h 0x40000 5 s).readHeader 0).enabled = true ∧
        ((h 0x40000 5 s).readHeader 0).head ≤ ((h 0x40000 5 s).readHeader 0).tail ∧
        ((h 0x40000 5 s).readHeader 0).tail - ((h 0x40000 5 s).readHeader 0).done ≤ ((h 0x40000 5 s).readHeader 0).size ∧
        (tabGet 0 s.qirq 0).getLsbD 31 = false) ∧
      ((h 0xC0000 5 s).readHeader 0).devq = true ∧ ((h 0 5 s).readHeader 0).enabled = false ∧
      (let z := (h 0x40000 17 s).readHeader 0
       z.devq = false ∧ z.enabled = true ∧ z.size < z.tail - z.done) ∧
      (tabGet 0 { s with qirq := [(0, 0x80000000)] }.qirq 0).getLsbD 31 = true := by
  simp only []
  decide +kernel

/-- A region in service, one that is not, good and bad controls, the states of its recovery, a port up and down. -/
theorem test_hyp_OwnershipRegistersAndPool_regions :
    let on : Word := 0x8004000000000001
    let s : State := { State.reset with own := 7, regions := [(1, ⟨on, 1, false, false⟩), (2, ⟨0, 2, false, false⟩), (3, ⟨0, 3, true, false⟩)], poolUp := [0] }
    let good := fun (c : Region) => decide (0 < c.size ∧ 0x4000000000000 ≤ c.base ∧ c.base + c.size ≤ 0x8000000000000) &&
      s.regions.all fun e => !e.2.enabled || decide (c.base + c.size ≤ e.2.base ∨ e.2.base + e.2.size ≤ c.base)
    (s.region 1).enabled = true ∧ (s.region 0).enabled = false ∧ on.getLsbD 63 = true ∧ (0 : Word).getLsbD 63 = false ∧
      good { (s.region 0) with ctl := (on + 2 ^ 30) &&& 0x8C0FFFFFC000FFFF } = true ∧ good { (s.region 0) with ctl := on &&& 0x8C0FFFFFC000FFFF } = false ∧
      (s.region 2).state = 2 ∧ (s.region 1).state ≠ 2 ∧ (s.region 3).state = 3 ∧ (s.region 3).port ∈ s.poolUp ∧
      1 < 4 ∧ 1 ∉ s.poolUp := by
  simp only []
  decide +kernel

/-- A port up and one down; a request inside the memory from a device at the other end of a port, and from none. -/
theorem test_hyp_FupelPortsAndOutsideRequests :
    let s : State := { State.reset with own := 7, ports := [(2, ⟨true, 4, 5, 0, false, true⟩)] }
    (7 < 1026 ∧ s.own = BitVec.ofNat 16 7) ∧ (3 < 18 ∧ 5 < 1024) ∧ ((s.port 2).up = true ∧ (s.port 2).spareUsed = true) ∧
      (s.port 3).up = false ∧ physKind 0x100 = some .hbm ∧ physKind (0x100 + 8 - 1) = some .hbm ∧
      sectorHit s.badSectors 0x100 8 = none ∧ s.writeCheck [(.phys (plain 0x100), [1, 2])] = none ∧
      (∃ e ∈ s.ports, e.2.up = true ∧ e.2.peer = 5) ∧ ∀ e ∈ s.ports, e.2.up = true → e.2.peer ≠ 6 := by
  simp only []
  decide +kernel

/-- An owner; a device frozen and not, at the floor clock and above; a core, a column and a pseudo-channel to replace, and a die
without a spare. -/
theorem test_hyp_PackageEvents :
    let s : State := { State.reset with own := 7 }
    let f : State := { s with frozen := true, clockMHz := 1250 }
    let none_ : State := { s with spareIn := List.range 4096 }
    (7 < 1026 ∧ s.own = BitVec.ofNat 16 7) ∧ (3 < 4 ∧ f.clockMHz = 1250) ∧ s.clockMHz ≠ 1250 ∧ f.frozen = true ∧ s.frozen = false ∧
      (s.coreEnabled 5 = true ∧ tabFind s.coreUse 5 = none ∧ (∀ e ∈ s.workers, e.2.core ≠ 5) ∧ (s.spareCore (dieOf 5)).isSome = true) ∧
      none_.spareCore (dieOf 5) = none ∧
      (tabFind s.planeOwner 5 = none ∧ 100 / 72 < 32 ∧ 100 ∉ tabGet [] s.macroCols 5 ∧
        ((tabGet [] s.macroCols 5).filter fun c => c / 72 == 100 / 72).length < 8) ∧
      ((3 < 8) ∧ 3 ∉ s.pseudoSpares) ∧ 1 < 2 ^ 64 := by
  simp only []
  decide +kernel

/-- The conditions of a strand that fetches, with what it fetches. -/
def Tests.fetches (s : State) (key : Nat) (e : Eng) (p0 : Parcel) (r : List Parcel) (n : Nat) : Prop :=
  let q0 := s.enter (.strand key e)
  let w := q0.wk
  let q := q0.modSt fun t => t.sync w.spad
  s.turn = .strand key e ∧ q0.live = true ∧ q0.frozen = false ∧ w.preempt = false ∧ (∀ n ∈ w.note, n.held = true) ∧ (w.inHandler = true → e = .S) ∧
    q0.phaseOver w.lid = false ∧ q.wk.dueKind e = .none ∧ q.st.held = false ∧ (e = .M → w.insertion = none) ∧ q.regFault? = none ∧
    (match decode p0 (nth 0 r 0) (nth 0 r 1) (nth 0 r 2) with
      | .instr i => (q.noteFetch n).awaits i
      | _ => false) = false ∧ (q.st.exited = true → e = .S ∧ w.inHandler = true) ∧ w.atEnd e = false ∧ w.gated e = false ∧
    q.fetchFour q.wk q.st.pc 4 = (p0 :: r, none) ∧ formatLegal p0 = true ∧ lenOf p0 = some n ∧ n ≤ r.length + 1

/-- A word of its own engine, an illegal one, one that misuses a queue, one of another engine that is passed over and one that
runs; a step of the device. -/
theorem test_hyp_StepRunsDecoded :
    let at_ := fun (e : Eng) (l : List Parcel) => { Tests.dev e l id id with agenda := [.strand 0 e] }
    let ev : State := { Tests.plain .S with agenda := [.event .scrub] }
    (Tests.fetches (at_ .S [0x0805, 0x94C7]) 0 .S 0x0805 [0x94C7, 0, 0] 2 ∧ engine 0x0805 = some .S ∧
        decode 0x0805 0x94C7 0 0 = .instr (.sadd ⟨true, 5⟩ 5 6 7)) ∧
      (Tests.fetches (at_ .S [0x080F, 0x94C7]) 0 .S 0x080F [0x94C7, 0, 0] 2 ∧ decode 0x080F 0x94C7 0 0 = .illegal .S) ∧
      (Tests.fetches (at_ .V [0x500A, 0xAA5D, 0x2584, 0x8300]) 0 .V 0x500A [0xAA5D, 0x2584, 0x8300] 4 ∧
        decode 0x500A 0xAA5D 0x2584 0x8300 = .misuse .V) ∧
      (Tests.fetches (at_ .V [0x0805, 0x94C7]) 0 .V 0x0805 [0x94C7, 0, 0] 2 ∧ isControl (.sadd ⟨true, 5⟩ 5 6 7) = false ∧
        isConfig (.sadd ⟨true, 5⟩ 5 6 7) = false) ∧
      (Tests.fetches (at_ .V [0x1035, 0x8000, 0xCDEF, 0x89AB]) 0 .V 0x1035 [0x8000, 0xCDEF, 0x89AB] 4 ∧ engine 0x1035 = some .S ∧
        ∃ f, decode 0x1035 0x8000 0xCDEF 0x89AB = .instr (.br f) ∧ isControl (.br f) = true) ∧
      (Tests.fetches (at_ .S [0x500A, 0xAA5D, 0x2546, 0x8300]) 0 .S 0x500A [0xAA5D, 0x2546, 0x8300] 4 ∧ engine 0x500A = some .V ∧
        ∃ f, decode 0x500A 0xAA5D 0x2546 0x8300 = .instr (.vadd f) ∧ isVpset (.vadd f) = false) ∧
      ev.turn = .event .scrub ∧ encode .scrub = [] ∧ ev.frozen = false := by
  refine ⟨by unfold Tests.fetches; decide +kernel, by unfold Tests.fetches; decide +kernel, by unfold Tests.fetches; decide +kernel,
    by unfold Tests.fetches; decide +kernel, ⟨by unfold Tests.fetches; decide +kernel, by decide, _, rfl, rfl⟩,
    ⟨by unfold Tests.fetches; decide +kernel, by decide, _, rfl, rfl⟩, by decide +kernel⟩

/-- A well-formed instruction with its words, and the parcels of one. -/
theorem test_hyp_DecodeAndEncodeAgree :
    (Instr.sadd ⟨true, 5⟩ 5 6 7).wellFormed = true ∧ encode (.sadd ⟨true, 5⟩ 5 6 7) = [0x0805, 0x94C7] ∧ lenOf 0x0805 = some 2 ∧
      decode 0x0805 0x94C7 0 0 = .instr (.sadd ⟨true, 5⟩ 5 6 7) := by decide

/-- A canonical state that answers a next state. -/
theorem test_hyp_StepKeepsCanonical : State.reset.Canonical ∧ ∃ t, step State.reset = .next t :=
  ⟨⟨rfl, rfl, rfl, by decide⟩, Tests.next_iff _ (by decide +kernel)⟩

theorem test_hyp_ScalarFloatResults : Turn.Ready .S (Tests.plain .S) ∧ (Tests.plain .S).view.guard Tests.on = true :=
  ⟨Tests.ready _ _ (by decide), by decide⟩

/-- Queues full and empty, tokens there and not. -/
theorem test_hyp_ScalarQueues :
    let s := Tests.plain .S
    let t := Tests.dev .S [] (fun w => { w with q14 := List.replicate 16 0, q15 := [7], tokens := (List.range 9).map fun i => (i, 15) }) id
    Turn.Ready .S s ∧ Turn.Ready .S t ∧ s.view.guard Tests.on = true ∧ s.wk.q15 = [] ∧ s.wk.q14.length < 16 ∧ ¬ t.wk.q14.length < 16 ∧
      t.wk.q15 = 7 :: [] ∧ s.wk.tokensIn .SL < 15 ∧ ¬ 0 < s.wk.tokensIn .WS ∧ ¬ t.wk.tokensIn .SL < 15 ∧ 0 < t.wk.tokensIn .WS :=
  ⟨Tests.ready _ _ (by decide), Tests.ready _ _ (by decide), by decide, by decide, by decide, by decide, by decide, by decide, by decide,
    by decide, by decide⟩

/-- A knot at the value and below it; a wait that another strand has met. The engines' forms: `test_hyp_KnotAdds_engines`. -/
theorem test_hyp_KnotWaits :
    let s := Tests.dev .S [] (fun w => w.setKnot 31 ⟨5, false⟩) id
    let m := Tests.dev .S [] (fun w => w.setStrand .S { w.strands.s with wait := some .met }) id
    Turn.Ready .S s ∧ Turn.Ready .S m ∧ s.view.guard Tests.on = true ∧ (5 : BitVec 32).toNat ≤ (s.wk.knot (31 : BitVec 5).toNat).val.toNat ∧
      ¬ (6 : BitVec 32).toNat ≤ (s.wk.knot (31 : BitVec 5).toNat).val.toNat ∧ m.st.wait = some .met :=
  ⟨Tests.ready _ _ (by decide), Tests.ready _ _ (by decide), by decide, by decide, by decide, by decide⟩

/-! ### More premises, clause by clause -/

/-- The schedule of `sbkj` is no headland: every BKT is 0, and the text holds none. -/
theorem test_hyp_TransfersNotTakenOrIllegal_bucket :
    ∃ p, (Tests.regs [(6, 1)]).fetchParcel (Tests.regs [(6, 1)]).wk (bucketTarget 6 (Tests.regs [(6, 1)])) = .ok p ∧ (!isHeadland p) = true :=
  Tests.gives_iff _ _ (by decide)

/-- A worker whose other strands have exited, without and with an open task, as worker 0 and 1. -/
theorem test_hyp_RepetitionsAndExits_last :
    let done := fun (t : Strand) => { t with exited := true }
    let last := fun (i : Nat) (n : Option Nat) => Tests.dev .S [] (fun w =>
      { w with wid := i, openTask := n, strands := ⟨w.strands.s, done w.strands.l, done w.strands.v, done w.strands.m, done w.strands.w⟩ }) id
    let h := Tests.dev .S [] (fun w => { w with inHandler := true }) id
    (Tests.plain .S).live = true ∧ (Tests.plain .S).wk.inHandler = false ∧ ((Tests.plain .S).wk.strands.get .W).exited = false ∧
      (∀ i ∈ [0, 1], ∀ n ∈ [none, some 3], (last i n).live = true ∧ (last i n).wk.inHandler = false ∧
        (∀ e ∈ [Eng.L, .V, .M, .W], ((last i n).wk.strands.get e).exited = true) ∧ (last i n).wk.openTask = n ∧ (last i n).wk.wid = i ∧
        (last i n).st.pend.length < 32 ∧ (tabFind (last i n).launches (last i n).wk.lid).isSome = true) ∧
      (Tests.plain .S).st.pend.length < 32 ∧ h.live = true ∧ h.curEng = .S ∧ h.wk.inHandler = true := by
  decide

/-- S's own waits under two handlers. -/
theorem test_hyp_KnotAdds_stopped :
    let s := Tests.dev .S [] (fun w => { w with stopWaits := [none, some (.knot 31 5)] }) id
    s.wk.stopWaits[1]? = some (some (.knot (31 : BitVec 5).toNat 5)) := by decide

theorem test_hyp_Hints_insertion : (Tests.dev .S [] (fun w => { w with preempt := true }) id).wk.insertion = none := by decide

/-- Windows: no sector is marked, and no write has a record. -/
theorem test_hyp_ScalarAccessesThroughWindows_checks :
    let s := Tests.regs []
    (s.readCheck (.spad 0 0x7FFF8) 8).isNone = true ∧ (∀ v < 2, (s.writeCheck [(.spad 0 0x7FFF8, toBytes v 8)]).isNone = true) ∧
      (s.readCheck (.cell 0 32767 24) 8).isNone = true ∧ s.lineLog (.cell 0) 32767 = [] := by decide

/-- A device whose core's translation cache holds one leaf of 4 KiB at 0x1000000000. -/
def Tests.leaf (pte : Word) : State :=
  { Tests.plain .S with coreTlb := [(0, ⟨[⟨0, true, 0x1000000000, 0x1000, pte⟩], []⟩)] }

/-- What a leaf with a target off the map, without a right, in no pool region, and with every right answers. -/
theorem test_hyp_ScalarAccessesTranslated_leaves :
    let cx := fun (s : State) => s.cxOf s.wk
    let gone := 0x2000000000
    (match (Tests.plain .S).lookup (.core 0) (cx (Tests.plain .S)) gone with
      | .error _ => true
      | .ok _ => false) = true ∧
      ([0x0000009000000015, 0x40000001, 0x000400000000021D, 0x4000001D].all fun pte =>
        Tests.gives ((Tests.leaf pte).lookup (.core 0) (cx (Tests.leaf pte)) 0x1000000FF8) fun x => x.1.pte == pte && x.1.size == 0x1000) = true ∧
      leafPhys 0x1000 0x0000009000000015 0x1000000FF8 = none ∧ leafPhys 0x1000 0x40000001 0x1000000FF8 = some ⟨0x40000FF8, false, false, .rc⟩ ∧
      (0x40000001 : Nat).testBit 4 = false ∧ leafPhys 0x1000 0x000400000000021D 0x1000000FF8 = some ⟨0x4000000000FF8, true, false, .rc⟩ ∧
      (Tests.leaf 0).placeFault ⟨0x4000000000FF8, true, false, .rc⟩ = some 8 ∧ (Tests.leaf 0).placeFault ⟨0x40000FF8, false, false, .rc⟩ = none ∧
      ∀ k ∈ [2, 3, 4], (0x4000001D : Nat).testBit k = true := by
  decide +kernel

/-- Walks for address 0: each entry of a level, and the one below it, a table, a leaf and neither. -/
theorem test_hyp_ScalarAccessesTranslated_walks :
    let at_ := fun (l : List Nat) => l.zip [0x10000, 0x20000, 0x30000, 0x40000]
    let put := fun (m : Memory) (e : Nat × Nat) => m.writeBytes e.2 (toBytes e.1 8)
    let s := fun (l : List Nat) => ({ Tests.plain .S with mem := (at_ l).foldl put [] } : State)
    let reads := fun (l : List Nat) => (at_ l).all fun e => Tests.gives ((s l).readEntry e.2) fun x => x == e.1
    let table := fun (x : Nat) => x % 4 = 3 ∧ tableOk x = true
    let leaf := fun (x level : Nat) => x % 4 = 1 ∧ leafOk level x = true
    (∀ l ∈ [[0], [0x20003, 0x4000001D], [0x20003, 0], [0x20003, 0x30003, 0x4000001D], [0x20003, 0x30003, 0],
        [0x20003, 0x30003, 0x40003, 0x4000001D], [0x20003, 0x30003, 0x40003, 0x4000081D], [0x20003, 0x30003, 0x40003, 3]], reads l = true) ∧
      ¬ table 0 ∧ (∀ x ∈ [0x20003, 0x30003, 0x40003], table x) ∧ ¬ table 0x4000001D ∧ (∀ k < 3, leaf 0x4000001D k ∧ ¬ leaf 0 k) ∧
      leaf 0x4000081D 0 ∧ ¬ leaf 3 0 := by
  decide +kernel

/-- The cause of a fault. -/
def Tests.faults {α : Type} (x : Except AErr α) (c : Nat) : Bool :=
  match x with
  | .error (.fault d) => d == c
  | _ => false

/-- The knot window; misaligned accesses of the own scratchpad; an atomic on an unmapped page; a conflict with worker 1. -/
theorem test_hyp_ScalarAccessFaults_more :
    let s := Tests.regs [(1, 0x01F4000000000000), (2, 0x01F0000000000101), (3, 0x2000000000), (4, 0x1000000100)]
    let d := s.modLaunch 0 fun l => { l with record := [0x1000000000, 2, 1], sectors := [(0x4000010, .write (.worker 1))] }
    let ea := fun (a : BitVec 5) => (s.wk.sget a.toNat + (0 : BitVec 32).signExtend 64).toNat
    let hits := fun (store : Bool) => Tests.gives (d.resolve (.core d.wk.core) (d.cxOf d.wk) (ea 4) (if store then .store else .load)) fun x =>
      (d.ln.detect d.wk.task store (.phys x.1) 8).isNone
    ea 1 / 2 ^ 48 = 0x1F4 ∧ windowPlace (s.cxOf s.wk) (ea 1) ≠ none ∧ ea 2 / 2 ^ 48 = 0x1F0 ∧ ea 2 % 2 ^ 48 < 0x80000 ∧
      ea 2 % 2 ^ ((1 : BitVec 5).toNat % 4) ≠ 0 ∧ ea 2 % (if (0 : BitVec 5).getLsbD 4 then 8 else 4) ≠ 0 ∧ ea 3 % 4 = 0 ∧
      Tests.faults (s.resolve (.core s.wk.core) (s.cxOf s.wk) (ea 3) .atomic) 8 = true ∧ d.ln.det = true ∧ d.ln.detOff = false ∧
      ea 4 < 2 ^ 57 ∧ inWindows (ea 4) = false ∧ hits false = true ∧ hits true = true := by
  decide +kernel

/-- A marked sector of the scratchpad, read and written in part. -/
theorem test_hyp_ScalarAccessFaults_sectors :
    let s := { Tests.regs [(1, 0x01F0000000000100)] with badLocal := [⟨0, false, 0x100⟩] }
    Turn.Ready .S s ∧ s.view.guard Tests.on = true ∧
      (s.wk.sget (1 : BitVec 5).toNat + (0 : BitVec 32).signExtend 64).toNat = 0x1F0 * 2 ^ 48 + 0x100 ∧
      s.readCheck (.spad (workerKey s.wk.lid s.wk.wid) 0x100) 8 = some (.machine 2 0x100) ∧
      s.writeCheck [(.spad (workerKey s.wk.lid s.wk.wid) 0x100, toBytes (s.wk.sget (0 : BitVec 5).toNat).toNat 8)] = some (.machine 5 0x100) :=
  ⟨Tests.ready _ _ (by decide), by decide, by decide, by decide +kernel, by decide +kernel⟩

/-- A write of V to the scratchpad that S has seen, that S looks at; a knot, which has no line; an SO page and another. -/
theorem test_hyp_StoresReadBackAndKeepTheRest :
    let u : Write := ⟨0, .spad 0, 8, 0, .put 0 32 7, some ⟨0, .strand .V⟩, 0, .rc, [], none, [⟨0, .strand .S⟩], false⟩
    let s := { Tests.plain .S with writes := [u] }
    let p : Place := .spad 0 0x100
    let r := s.reader p
    (s.worker? 0).isSome = true ∧ (Tests.plain .S).writes = [] ∧ p.line? = some (u.spot, u.line, 0) ∧
      Kept (s.sees r) false (s.lineLog u.spot u.line) [u] ∧ u.edit.meets 0 4 = true ∧ r.who.owns u = false ∧
      (Place.knot 0 5).line? = none ∧ (Place.phys ⟨0x40, false, true, .so⟩).line? = some (.mem, 2, 0) ∧
      (Place.phys ⟨0x40, false, true, .so⟩).kind = .so ∧ p.kind ≠ .so := by
  refine ⟨by decide, by decide, by decide, ?_, by decide, by decide, by decide, by decide, by decide, by decide⟩
  exact .keep false _ (.inl (by decide)) (.none _)

/-- A record and a layout image in the text page, in supervisor mode; its queue 0 has its header at 0x50000000. -/
def Tests.sup (record header : List Nat) (f : Worker → Worker) : State :=
  let s := Tests.dev .S [] (fun w => f { w with sregs := [(6, 0x1000000000)], sup := { w.sup with priv := true } }) id
  let put := fun (m : Memory) (a : Nat) (l : List Nat) => m.writeBytes a (l.flatMap fun x => toBytes x 8)
  { s with mem := put (put s.mem 0x50000000 header) 0x40000000 record, qhbase := 0x50000000 }

/-- `slaunch` into a queue that is not open to it, full, and open, of 16 slots. -/
theorem test_hyp_SupervisorInstructions_slaunch :
    let s := fun (header : List Nat) => Tests.sup [0x1000000000, 1] header id
    let reads := fun (s : State) (p : State → Bool) => Tests.gives (M.gather (fun i => loadS (0x1000000000 + 8 * i) 8) (upFrom 0 32) s) fun x =>
      bits (nth 0 x.1 2) 8 6 == 0 && p (x.2.release 3)
    let h := fun (v : State) (i : Nat) => v.physNat (v.qhbase.toNat + 8 * i) 8
    let opened := fun (v : State) => (h v 1).testBit 18 && (h v 1).testBit 19
    reads (s [0x60000000, 0x40010, 0, 0, 0]) (fun v => !opened v) = true ∧
      reads (s [0x60000000, 0xC0010, 16, 0, 0]) (fun v => opened v && decide (h v 1 % 2 ^ 16 ≤ h v 2 - h v 4)) = true ∧
      reads (s [0x60000000, 0xC0010, 15, 0, 0]) (fun v => opened v && decide (h v 2 - h v 4 < h v 1 % 2 ^ 16)) = true ∧
      Turn.Ready .S (s []) ∧ (s []).view.guard Tests.on = true ∧ (s []).wk.sup.priv = true :=
  ⟨by decide +kernel, by decide +kernel, by decide +kernel, Tests.ready _ _ (by decide +kernel), by decide +kernel, by decide +kernel⟩

/-- `slaydef`: no table; VALID 0; a reserved bit; beyond the top; elements outside the range; a good image. -/
theorem test_hyp_SupervisorInstructions_slaydef :
    let s := fun (image : List Nat) => Tests.sup image [] fun w => { w with sup := { w.sup with laytab := 0x60000000 } }
    let read := fun (l : List Nat) => Tests.gives (M.gather (fun i => loadS (0x1000000000 + 8 * i) 8) (upFrom 0 8) (s l)) fun x =>
      x.1 == l ++ List.replicate (8 - l.length) 0
    let v := 0x80000000
    let frame := fun (l : List Nat) => layoutFurrow ((l ++ List.replicate (8 - l.length) 0).map (BitVec.ofNat 64))
    let ok := fun (l : List Nat) => (frame l).fieldsOk (frame l).format && decide ((frame l).base.toNat % 4 = 0)
    let last := fun (l : List Nat) => (frame l).stride 0 * ((frame l).extent 0 - 1) + 4 - 1
    (Tests.sup [] [] id).wk.sup.laytab = 0 ∧ (s []).wk.sup.laytab ≠ 0 ∧
      ([[], [2 ^ 57, 4, v, 1], [0x01EFFFFFFFFFFFFC, 5, v, 0x1000100010001], [0x1000, 4, v, 0x1000100010002, 4],
        [0x1000, 8, v, 0x1000100010002, 4]].all read) = true ∧
      2 ^ 57 / 2 ^ 57 ≠ 0 ∧ ok [0x01EFFFFFFFFFFFFC, 5, v, 0x1000100010001] = true ∧ 0x01F0000000000000 < 0x01EFFFFFFFFFFFFC + 5 ∧
      ok [0x1000, 4, v, 0x1000100010002, 4] = true ∧ (4 : Int) ≤ last [0x1000, 4, v, 0x1000100010002, 4] ∧
      ok [0x1000, 8, v, 0x1000100010002, 4] = true ∧ last [0x1000, 8, v, 0x1000100010002, 4] < (8 : Int) ∧
      isBlock (frame [0x1000, 8, v, 0x1000100010002, 4]).format = false := by
  decide +kernel

/-- Addresses out of line, and an unmapped one; four `satinv` in flight. -/
theorem test_hyp_SupervisorInstructions_traps :
    let s := Tests.dev .S [] (fun w => { w with sregs := [(1, 0x1000000020), (2, 0x2000000000)], sup := { w.sup with priv := true } }) id
    let f := { s with satinvs := List.replicate 4 ⟨0, 0, 0, 0, false, 0⟩ }
    let fails := fun (n : Nat) => match M.gather (fun i => loadS (0x2000000000 + 8 * i) 8) (upFrom 0 n) s with
      | .error (.trap _) => true
      | _ => false
    0x1000000020 < 2 ^ 57 ∧ 0x1000000020 % 256 ≠ 0 ∧ 0x1000000020 % 64 ≠ 0 ∧ 0x2000000000 % 256 = 0 ∧ fails 32 = true ∧ fails 8 = true ∧
      ¬ (f.satinvs.filter fun x => x.key == f.curKey).length < 4 := by
  decide +kernel

/-- A `shins` of the worker is between two keys, and none is. -/
theorem test_hyp_TrapEntry_insertion :
    let x : Insertion := ⟨⟨0, Tests.on, 0, 0, 0, 6, 0⟩, .reset, false, [[0]], 0, []⟩
    (Tests.plain .V).wk.insertion = none ∧ (Tests.dev .V [] (fun w => { w with insertion := some x }) id).wk.insertion ≠ none := by decide

/-- Rounding to f32: 1, the least subnormal, 2^128; and to an integer. -/
theorem test_hyp_Conversions_rounding :
    (⟨0, 23, 8, -149, 2 ^ 24 - 1, 104, 0x7F7FFFFF, 0x7F800000, 0x7FC00000⟩ : FloatRow) ∈ floatRows ∧ (7, true, 32) ∈ intRows ∧
      max (((1 : Nat).log2 : Int) + 0 - 23) (-149) = -23 ∧ Rounds 0 false 1 0 (-23) 0 (2 ^ 23) ∧
      max (((1 : Nat).log2 : Int) + (-149) - 23) (-149) = -149 ∧ Rounds 0 false 1 (-149) (-149) 0 1 ∧
      max (((1 : Nat).log2 : Int) + 128 - 23) (-149) = 105 ∧ Rounds 0 false 1 128 105 0 (2 ^ 23) ∧
      2 ^ 23 * 2 ^ ((-23 : Int) - -149).toNat ≤ (2 ^ 24 - 1) * 2 ^ ((104 : Int) - -149).toNat ∧ 1 * 2 ^ ((-149 : Int) - -149).toNat < 2 ^ 23 ∧
      (2 ^ 24 - 1) * 2 ^ ((104 : Int) - -149).toNat < 2 ^ 23 * 2 ^ ((105 : Int) - -149).toNat ∧ Rounds 0 true 3 (-1) 0 0 2 := by
  have h : Nat.log2 1 = 0 := by decide +kernel
  refine ⟨by decide, by decide, by simp [h], by simp [Rounds], by simp [h], by simp [Rounds], by simp [h], by simp [Rounds], ?_, ?_, ?_, by simp [Rounds]⟩ <;>
    decide +kernel

/-- The number 1 as an exact value, and the greatest of f32, which no code at the greatest exponent holds. -/
theorem test_hyp_Conversions_kb :
    let code := fun (e : Int) (x : XReal) (k : Int) => ∃ neg m ex y, x = .fin neg m ex false ∧
      Rounds 0 neg m (ex - e + 4 - 2) 0 0 y ∧ k = if neg then -(y : Int) else y
    let fits := fun (x : XReal) (e : Int) => ∀ k, code e x k → -2 ^ (4 - 1) ≤ k ∧ k < 2 ^ (4 - 1)
    let one : XReal := .fin false 1 0 false
    let top : XReal := .fin false (2 ^ 24 - 1) 104 false
    isKb 13 = true ∧ kbBits 13 = 4 ∧ one.exact ∧ |one.val| = 1 ∧ max (Int.log 2 (1 : ℚ)) (-127) = 0 ∧ code 0 one 4 ∧ Fits (fits one) 0 0 ∧
      top.exact ∧ |top.val| = (2 ^ 24 - 1) * 2 ^ 104 ∧ max (Int.log 2 (((2 ^ 24 - 1) * 2 ^ 104 : ℚ))) (-127) = 127 ∧ code 127 top 8 ∧
      (∀ k, ¬ Fits (fits top) 127 k) ∧ (127 : Int) = min 127 (127 + 3) := by
  have log : Int.log 2 (((2 ^ 24 - 1) * 2 ^ 104 : ℚ)) = 127 := by
    apply le_antisymm
    · refine Int.lt_add_one_iff.mp ((Int.lt_zpow_iff_log_lt (by decide) (by norm_num)).mp ?_)
      norm_num
    · refine (Int.zpow_le_iff_le_log (by decide) (by norm_num)).mp ?_
      norm_num
  refine ⟨by decide, by decide, ⟨_, _, _, rfl⟩, by simp [XReal.val], by simp, ⟨_, _, _, 4, rfl, by simp [Rounds], rfl⟩, ?_, ⟨_, _, _, rfl⟩,
    by simp only [XReal.val]; norm_num [abs_of_pos], by rw [log]; decide, ⟨_, _, _, 8, rfl, by simp [Rounds], rfl⟩, ?_, by decide⟩
  · refine ⟨le_refl _, by decide, ?_, fun j h k => absurd h (not_le.mpr k)⟩
    rintro k ⟨neg, m, ex, y, h, r, rfl⟩
    cases h
    simp [Rounds] at r
    subst r
    decide
  · rintro k ⟨h, l, f, -⟩
    obtain rfl : k = 127 := by omega
    have := (f 8 ⟨_, _, _, 8, rfl, by simp [Rounds], rfl⟩).2
    omega

/-- A codebook of 0 and 1 in cb4: the number 1 goes to code 1, the vector of zeros to code 0; at the greatest exponent the
greatest f32 does not fit; and a codebook of one zero. -/
theorem test_hyp_Conversions_cb :
    let bank : Tab Word × Nat := ([(1, 0x3F80)], 2)
    let elems := fun (c : Nat) => (List.range (vecLen 17)).map fun k => readNum 1 false ((tabGet 0 bank.1 c).toNat / 2 ^ (16 * k) % 2 ^ 16)
    let usable := fun (c : Nat) => c < 2 ∧ c < 2 ^ fmtWidth 17 ∧ ∀ x ∈ elems c, x.exact
    let far := fun (e : Int) (y : List XReal) (c : Nat) =>
      ((List.range (vecLen 17)).map fun k => ((nth .nan y k).val / 2 ^ e - (nth .nan (elems c) k).val) ^ 2).sum
    let near := fun (e : Int) (y : List XReal) (c : Nat) => usable c ∧
      ∀ d, usable d → far e y c < far e y d ∨ far e y c = far e y d ∧ c ≤ d
    let one : XReal := .fin false 1 0 false
    let top : XReal := .fin false (2 ^ 24 - 1) 104 false
    isCb 17 = true ∧ [one].length = vecLen 17 ∧ one.exact ∧ top.exact ∧ |one.val| = 1 ∧ |top.val| = (2 ^ 24 - 1) * 2 ^ 104 ∧
      (usable 1 ∧ ∃ x ∈ elems 1, |x.val| = 1) ∧ (∀ c, usable c → ∀ x ∈ elems c, |x.val| ≤ 1) ∧
      near 0 (List.replicate (vecLen 17) (.fin false 0 0 false)) 0 ∧ near 0 [one] 1 ∧ near 127 [top] 1 ∧
      max (Int.log 2 (1 : ℚ) - Int.log 2 (1 : ℚ)) (-127) = 0 ∧ Fits (fun e => |one.val| / 2 ^ e ≤ 1) 0 0 ∧
      ∀ k, ¬ Fits (fun e => |top.val| / 2 ^ e ≤ 1) 127 k := by
  intro bank elems usable far near one top
  have e0 : elems 0 = [.fin false 0 (-133) false] := by decide +kernel
  have e1 : elems 1 = [.fin false 128 (-7) false] := by decide +kernel
  have w0 : (XReal.fin false 0 (-133) false).val = 0 := by simp [XReal.val]
  have w1 : (XReal.fin false 128 (-7) false).val = 1 := by norm_num [XReal.val]
  have two : ∀ c, usable c → c = 0 ∨ c = 1 := fun c h => by have := h.1; omega
  have u0 : usable 0 := ⟨by decide, by decide, fun x h => by rw [e0] at h; simp at h; exact ⟨_, _, _, h⟩⟩
  have u1 : usable 1 := ⟨by decide, by decide, fun x h => by rw [e1] at h; simp at h; exact ⟨_, _, _, h⟩⟩
  have f0 : ∀ e y, far e [y] 0 = (y.val / 2 ^ e) ^ 2 := fun e y => by
    show ((List.range 1).map fun k => ((nth .nan [y] k).val / 2 ^ e - (nth .nan (elems 0) k).val) ^ 2).sum = _
    simp [e0, nth, w0, List.range_succ]
  have f1 : ∀ e y, far e [y] 1 = (y.val / 2 ^ e - 1) ^ 2 := fun e y => by
    show ((List.range 1).map fun k => ((nth .nan [y] k).val / 2 ^ e - (nth .nan (elems 1) k).val) ^ 2).sum = _
    simp [e1, nth, w1, List.range_succ]
  have val1 : one.val = 1 := by simp [one, XReal.val]
  have valt : top.val = (2 ^ 24 - 1) * 2 ^ 104 := by simp only [top, XReal.val]; norm_num
  have z : List.replicate (vecLen 17) (XReal.fin false 0 0 false) = [.fin false 0 0 false] := rfl
  refine ⟨by decide, rfl, ⟨_, _, _, rfl⟩, ⟨_, _, _, rfl⟩, by rw [val1]; norm_num, by rw [valt]; norm_num [abs_of_pos],
    ⟨u1, _, by rw [e1]; exact List.mem_singleton_self _, by rw [w1]; norm_num⟩, ?_, ⟨u0, ?_⟩, ⟨u1, ?_⟩, ⟨u1, ?_⟩, by simp,
    ⟨le_refl _, by decide, by rw [val1]; norm_num, fun j h k => absurd h (not_le.mpr k)⟩, ?_⟩
  · intro c h x m
    rcases two c h with rfl | rfl
    · rw [e0] at m; simp at m; rw [m, w0]; norm_num
    · rw [e1] at m; simp at m; rw [m, w1]; norm_num
  · intro d h
    rw [z, f0]
    rcases two d h with rfl | rfl
    · rw [f0]; simp
    · rw [f1]; simp [XReal.val]
  · intro d h
    rw [f1, val1]
    rcases two d h with rfl | rfl
    · rw [f0, val1]; norm_num
    · rw [f1, val1]; simp
  · intro d h
    rw [f1, valt]
    rcases two d h with rfl | rfl
    · rw [f0, valt]; norm_num
    · rw [f1, valt]; simp
  · rintro k ⟨h, l, f, -⟩
    obtain rfl : k = 127 := by omega
    rw [valt] at f
    norm_num at f

/-- Slots 8191 and 8192 of an EXPLICIT map, whose companion holds −1, a number in range and one beyond. -/
theorem test_hyp_CoordinateInstructions_explicit :
    let l := fun (n : Nat) => BitVec.toInt (BitVec.ofNat 32 (((Worker.zero.vset 7 ⟨BitVec.ofNat 262144 (n * 2 ^ (32 * 3)), 0, none, .lost⟩).vget 7).data.toNat / 2 ^ (32 * 3)))
    8192 ≤ 8192 ∧ 8191 < 8192 ∧ l 0xFFFFFFFF < 0 ∧ 0 ≤ l 5 ∧ l 5 < (2 * 3 * 1 * 1 : Nat) ∧ (2 * 3 * 1 * 1 : Nat) ≤ l 6 := by
  decide +kernel

/-- Old axes that turn into new ones, and some that do not; extents and steps in range and out of it. -/
theorem test_hyp_Movements_maps :
    let good := fun (e : Quad Nat) => (∀ k < 4, 1 ≤ e.get k) ∧ e.c0 * e.c1 * e.c2 * e.c3 ≤ 2 ^ 31
    let small := fun (s : Quad Int) => ∀ k < 4, -128 ≤ s.get k ∧ s.get k ≤ 127
    (∀ k, (⟨0, 7, 7, 7⟩ : Quad Nat).get k < 4 ∨ (⟨0, 7, 7, 7⟩ : Quad Nat).get k = 7) ∧ good ⟨2 ^ 31, 1, 1, 1⟩ ∧ ¬good ⟨2 ^ 31, 2, 1, 1⟩ ∧
      small ⟨-128, 127, 0, 0⟩ ∧ ¬small ⟨128, 0, 0, 0⟩ ∧ (0 < (⟨⟨4, 6, 1, 1⟩, 32, 0⟩ : Shape).slots ∧ 24 % (4 * 2 * 3) = 0 ∧ 24 % 7 ≠ 0) ∧
      Matched [(8, 0, 1), (3, 1, 1)] [2, 4, 3] [(0, 1), (0, 2), (1, 1)] ∧ ∀ ds, ¬ Matched [(4, 0, 1), (6, 1, 1)] [6, 4] ds := by
  refine ⟨fun k => by unfold Quad.get; split <;> decide, by decide, by decide, by decide, by decide, by decide, ?_, ?_⟩
  · exact .split 0 1 [2, 4] (by decide) (.keep 3 1 1 .none)
  · intro ds h
    generalize ho : [(4, 0, (1 : Int)), (6, 1, 1)] = o, hn : [6, 4] = n at h
    cases h with
    | none => cases ho
    | keep => cases ho; cases hn
    | split t σ hs hl =>
      match hs, hl with
      | a :: b :: r, _ =>
        simp only [List.cons_append, List.cons.injEq, Prod.mk.injEq, List.prod_cons] at ho hn
        obtain ⟨rfl, rfl, hn⟩ := hn
        omega
    | merge g t σ as ha =>
      match as, ha with
      | a :: r, _ =>
        simp only [List.cons_append, List.cons.injEq, Prod.mk.injEq, List.map_cons, List.prod_cons] at ho hn
        obtain ⟨⟨rfl, -⟩, rfl, -⟩ := ho
        omega

/-- Triples: one with +∞ or a NaN, two of no terms, and two of one term. -/
theorem test_hyp_ReductionsAndMerges_triples :
    let rd := readNum 0 false
    let bad := fun (x : Nat) => rd x = .nan ∨ rd x = .inf false
    (∀ x ∈ (⟨0x7F800000, 0x7FC00000, [0]⟩ : Triple).toList, x < 2 ^ 32) ∧ [0].length = [1].length ∧ bad 0x7F800000 ∧ rd 0x7FC00000 = .nan ∧
      rd 0xFF800000 = .inf true ∧ ¬ bad 0xFF800000 ∧ ¬ bad 0x3F800000 ∧ rd 0 ≠ .nan ∧ rd 0x3F800000 ≠ .nan ∧ rd 0x3F800000 ≠ .inf true := by
  decide +kernel

/-- A lane instruction on a coordinate of a map that is lost, in the modes of the float and the integer layout. -/
theorem test_hyp_EngineFaultsAndGuardedOff_lanes :
    let f : E64 := ⟨0, Tests.on, 0x178, 5, 0x90, 0xDF, 0xE3⟩
    let s := Tests.v2
    let x := fun (b c : Src) => (⟨.coord 0, b, c, .lost⟩ : Lane)
    f.mid3 = 5 ∧ fmtWidth f.top2 = 32 ∧ tyWidth f.top2 = 32 ∧ Turn.Lane f 1 32 s (x (.imm 0) (.imm 0)) s ∧
      Turn.Lane f 2 32 s (x (.imm (-1)) (.imm 0)) s ∧ Turn.Lane f 3 32 s (x (.imm (-1)) (.imm 3)) s ∧ s.active f 0 ∧
      readCoord s.wk .lost 0 = .error 3 :=
  ⟨by decide, by decide, by decide, ⟨Tests.go _ _ _ (by decide), rfl, rfl⟩, ⟨Tests.go _ _ _ (by decide), rfl, rfl⟩,
    ⟨Tests.go _ _ _ (by decide), rfl, rfl⟩, ⟨by decide, by decide⟩, rfl⟩

/-- `vgbias` of a coordinate that names no expert; every form of a guarded-off word, with its queues full enough. -/
theorem test_hyp_EngineFaultsAndGuardedOff_rest :
    let s := Tests.coords.modLaunch 0 fun l => { l with record := [0x1000000000, 1, 0, 0, 0, 0, 0, 0, 0, 0, 0, 1] }
    let g := Tests.move 0 0 0
    let o : E64 := ⟨0, Tests.off, 0x0B8, 0x88, 6, 0xE1, 7⟩
    (Turn.Go .V g s ∧ moveChecks g 32 id s = .ok ((), s) ∧ g.mid3 = 2 ∧
      ∃ y, readSrc g.a8 (some 32) s = .ok y ∧ (Tests.gives (readCoord y.2.wk y.1.map 0) (fun c => decide (0 ≤ c.get g.top2) && decide (c.get g.top2 < y.2.ln.nexp)) &&
        Tests.gives (readCoord y.2.wk y.1.map 1) fun c => decide ((y.2.ln.nexp : Int) ≤ c.get g.top2)) = true) ∧
      Turn.Ready .V s ∧ s.view.guard o.g = false ∧ 6 ≤ s.wk.q14.length ∧
      ([Instr.vadd o, .vfma o, .vabs o, .vdiv o, .vsqrt o, .viadd o, .vipopc o, .vsel o, .vcvt o, .vqnt o, .vdq o, .vcrd o, .vnoise o, .vrot o,
        .vgbias o, .vmov o, .vslice o, .vperm o, .vexpand o, .vrsum o, .vrargmax o].all fun i => (Off.traffic i).any fun x =>
          Tests.gives (discard x.2.1 s) fun _ => true) = true ∧
      Tests.gives (discard (laneOff o 2 (cmpWidth o)) s) (fun _ => true) = true ∧
      Tests.gives (discard [(o.a8, some (ewWidth o))] s) (fun _ => true) = true ∧ Tests.gives (discard [(o.a8, none)] s) (fun _ => true) = true :=
  ⟨⟨Tests.go _ _ _ (by decide), rfl, by decide, Tests.gives_iff _ _ (by decide +kernel)⟩, Tests.ready _ _ (by decide), by decide, by decide,
    by decide +kernel, by decide +kernel, by decide +kernel, by decide +kernel⟩

/-- Furrows at END and not, whose advance reaches END, stays in the frame, and moves the indirect position. -/
theorem test_hyp_LoadsAndFurrowMoves_advance :
    let u : Furrow := { Tests.fur with ext := ⟨2, 3, 1, 1⟩, ind := 9 }
    let e := { u with atEnd := true }
    u.atEnd = false ∧ e.atEnd = true ∧ u.indirect = true ∧ u.indDim = 1 ∧ (u.extents.c0 ≤ u.pos.c0 + 2) ∧ ¬ u.extents.c1 ≤ u.pos.c1 + 1 ∧
      ¬ u.extents.c3 ≤ u.pos.c3 ∧ (Tests.fur.extents.c3 ≤ Tests.fur.pos.c3 + 1 ∧ Tests.fur.extents.c0 ≤ Tests.fur.pos.c0 + 2) := by decide

/-- A term that a cell can take and one that it cannot; a cell of NaN, of an infinity, of 0 and of 1. -/
theorem test_hyp_TilesAndTheArray_cells :
    let flag := fun (c : BitVec 256) (k : Nat) => c.getLsbD (240 + k)
    Rounds 0 false 3 (-1) 0 0 2 ∧ Rounds 0 true 1 200 0 0 (2 ^ 200) ∧ (flag (2 ^ 240) 0 = true) ∧ (flag (6 * 2 ^ 240) 1 = true ∧ flag (6 * 2 ^ 240) 2 = true) ∧
      (flag (2 * 2 ^ 240) 0 = false ∧ flag (2 * 2 ^ 240) 1 = true ∧ flag (2 * 2 ^ 240) 2 = false) ∧
      (∀ k < 5, flag 1 k = false) ∧ ((1 : BitVec 256).extractLsb' 0 240).toInt = 1 ∧
      max (((1 : Nat).log2 : Int) + 0 - 23) (-149) = -23 ∧ Rounds 0 (decide ((1 : Int) < 0)) 1 0 (-23) 0 (2 ^ 23) ∧
      Rounds 0 (decide ((1 : Int) < 0)) 1 0 0 0 1 := by
  have h : Nat.log2 1 = 0 := by decide +kernel
  refine ⟨by simp [Rounds], by simp [Rounds], by decide +kernel, by decide +kernel, by decide +kernel, by decide +kernel, by decide +kernel, by simp [h], by simp [Rounds], by simp [Rounds]⟩

/-- A `shins` with one key of dimension 1 to go, f32 1.0, in a sheaf of two entries; `n` of them hold one key, 1.0 first. -/
def Tests.inserting (policy : BitVec 16) (n : Nat) (key : Nat) : State :=
  let h : Sheaf := { Sheaf.reset with cap := 2, policy := policy }
  Tests.dev .M [] (fun w => { w with
    insertion := some ⟨⟨0, Tests.on, 0, 0, 0, 6, 0⟩, h, false, [[key]], 0, []⟩
    cells := ([(0, (1 : BitVec 256)), (1, BitVec.ofNat 256 (2 ^ 64 + 1)), (2, 5), (3, BitVec.ofNat 256 (2 ^ 64 + 1))]).take (2 * n) }) id

/-- Keys within the radius of the nearest entry and not, a key that is no number; no entry, one and a free one, and all full. -/
theorem test_hyp_Sheaves_keys :
    let w := fun (n : Nat) => (Tests.inserting 0 n 0).wk
    let h : Sheaf := { Sheaf.reset with cap := 2 }
    let one : Sheaf := { Sheaf.reset with cap := 1 }
    let x := fun (v : Nat) (_ : Nat) => readNum 0 false v
    let far := fun (v : Nat) => ((w 1).dist h false (x v) 0).cmp (readNum 0 false h.rad2.toNat)
    ((Tests.inserting 0 2 0).live = true ∧ (Tests.inserting 0 2 0).curEng = .M ∧ h.ok = true ∧ h.dim.toNat = 1) ∧
      (x 0x3F800000 0).exact ∧ (x 0x40000000 0).exact ∧ x 0x7FC00000 0 = .nan ∧ x 0x7F800000 0 = .inf false ∧ (∀ i, ¬ (w 0).Valid h i) ∧
      (∀ v ∈ [0x3F800000, 0x40000000], (w 1).Nearest h false (x v) 0 ∧ (w 2).Nearest h false (x v) 0) ∧ far 0x3F800000 = some .eq ∧
      far 0x40000000 = some .gt ∧ (w 1).LowestFree h 1 ∧ (∀ i, ¬ (w 2).LowestFree h i) ∧ (w 2).Closest h false 0 1 ∧
      (w 1).Nearest one false (x 0x40000000) 0 ∧ (∀ i, ¬ (w 1).LowestFree one i) ∧ ∀ a b, ¬ (w 1).Closest one false a b := by
  intro w h one x far
  have lt : ∀ n i, (w n).Valid h i → i < 2 := fun _ _ k => k.1
  have v0 : ∀ i, ¬ (w 0).Valid h i := fun i k => by
    have := lt _ _ k
    interval_cases i <;> revert k <;> unfold Worker.Valid <;> decide +kernel
  have v10 : (w 1).Valid h 0 := by unfold Worker.Valid; decide +kernel
  have v11 : ¬ (w 1).Valid h 1 := by unfold Worker.Valid; decide +kernel
  have v20 : (w 2).Valid h 0 := by unfold Worker.Valid; decide +kernel
  have v21 : (w 2).Valid h 1 := by unfold Worker.Valid; decide +kernel
  have only : ∀ i, (w 1).Valid one i → i = 0 := fun i k => by have : i < 1 := k.1; omega
  have o0 : (w 1).Valid one 0 := by unfold Worker.Valid; decide +kernel
  refine ⟨by decide, ⟨false, 2 ^ 23, -23, by decide +kernel⟩, ⟨false, 2 ^ 23, -22, by decide +kernel⟩, by decide +kernel, by decide +kernel, v0, ?_, by decide +kernel,
    by decide +kernel, ⟨by decide, v11, fun j k => by interval_cases j; exact v10⟩, ?_, ⟨v20, v21, by decide, ?_⟩, ⟨o0, ?_⟩, ?_, ?_⟩
  · intro v hv
    refine ⟨⟨v10, fun j k => ?_⟩, ⟨v20, fun j k => ?_⟩⟩
    · have := lt _ _ k
      interval_cases j
      · exact ⟨fun h => absurd h (by decide), fun h => absurd h (by decide)⟩
      · exact absurd k v11
    · have := lt _ _ k
      interval_cases j
      · exact ⟨fun h => absurd h (by decide), fun h => absurd h (by decide)⟩
      · refine ⟨fun h => absurd h (by decide), fun _ => ?_⟩
        unfold Sheaf.Nearer
        simp only [List.mem_cons, List.not_mem_nil, or_false] at hv
        rcases hv with rfl | rfl <;> decide +kernel
  · rintro i ⟨k, f, -⟩
    have : i < 2 := k
    interval_cases i
    · exact f v20
    · exact f v21
  · intro a b ha hb hab
    have := lt _ _ ha
    have := lt _ _ hb
    constructor <;> intro h <;> omega
  · intro j k
    obtain rfl := only _ k
    exact ⟨fun h => absurd h (by decide), fun h => absurd h (by decide)⟩
  · rintro i ⟨k, f, -⟩
    have : i < 1 := k
    obtain rfl : i = 0 := by omega
    exact f o0
  · rintro a b ⟨ha, hb, hab, -⟩
    have := only _ ha
    have := only _ hb
    omega

/-- A first element that fails each check of R159 in turn; the layout record 0 lies at 0x60000000. -/
theorem test_hyp_ElementsThroughFurrows_faults :
    let s := fun (priv : Bool) =>
      let t := Tests.furs .W fun w => { w with sup := { w.sup with priv := priv, laytab := 0x60000000 } }
      ({ t with mem := t.mem.writeBytes 0x60000010 (toBytes 0x80000000 8) } : State)
    let at_ := fun (b : Word) => { Tests.fur with base := b }
    let bound := fun (u : Furrow) (n : BitVec 48) => { u with layout := 0, bound := some ⟨0, u.base, n⟩ }
    let place := fun (u : Furrow) => windowPlace ((s true).cxOf (s true).wk) (u.addr 0 (.all 0) 0).1
    let ok := fun (a : Nat) (b : Furrow) => decide (b.base.toNat ≤ a ∧ a + 4 ≤ b.base.toNat + ((b.bound.map Bound.size).getD 0).toNat)
    ({ Tests.fur with ind := 9 } : Furrow).term (.all 0) = none ∧ Tests.fur.term (.all 0) = some 0 ∧
      2 ^ 57 ≤ ((at_ 0x0200000000000000).addr 0 (.all 0) 0).1 ∧ place (at_ 0x01FF000000000000) = none ∧
      place (at_ 0x01F2000000000000) = some (.cell 0 0 0) ∧ storeAccess.rights 0 (.cell 0 0 0) = false ∧
      (s true).boundLive { at_ 0x1000000000 with layout := 1 } = false ∧
      ((s true).boundLive (bound (at_ 0x1000000000) 3) = true ∧ ok 0x1000000000 (bound (at_ 0x1000000000) 3) = false ∧
        ok 0x1000000000 (bound (at_ 0x1000000000) 4) = true) ∧
      ((s false).cxOf (s false).wk).user = true ∧ place (at_ 0x1000000000) = none ∧ ((s true).cxOf (s true).wk).user = false ∧
      ((at_ 0x1000000002).addr 0 (.all 0) 0).1 % 4 ≠ 0 ∧ ((at_ 0x2000000000).addr 0 (.all 0) 0).1 % 4 = 0 ∧
      inWindows ((at_ 0x2000000000).addr 0 (.all 0) 0).1 = false ∧
      (match (s true).resolve (s true).wk.agent ((s true).cxOf (s true).wk) 0x2000000000 .store with
        | .error (.fault c) => c == 8
        | _ => false) = true := by
  decide +kernel

/-- A flush of a block furrow in the text page, its scale bytes there too. -/
theorem test_hyp_ElementsThroughFurrows_flush :
    let s := Tests.furs .W fun w => { w with sup := { w.sup with priv := true } }
    let u : Furrow := { Furrow.reset with base := 0x1000000000, fmt := 14, st := ⟨1, 0, 0, 0⟩, sbase := 0x1000000100 }
    isBlock u.format = true ∧ (u.term (.all 0)).isSome = true ∧ windowPlace (s.cxOf s.wk) (u.scaleAddr (.all 0)) = none ∧
      Tests.gives (flushPlan u true [(0, .all 0)] s) (fun y => y.1.length == 2) = true := by
  decide +kernel

/-- `wamo` and `wcadd` by position and by index, and `wflush`, go on. -/
theorem test_hyp_StoresKeepTheRest_more :
    let s := Tests.furs .W id
    let f := fun (b : BitVec 8) => (⟨0, Tests.on, 7 <<< 6 ||| 0x38, 1, 6, b, 1⟩ : E64)
    let g := fun (b : BitVec 8) => (⟨0, Tests.on, 7 <<< 6 ||| 0x39, 3, 6, b, 0⟩ : E64)
    ([Instr.wamo (f 0xFF), .wamo (f 7), .wcadd (g 0xFF), .wcadd (g 7), .wflush ⟨0, Tests.on, 0x7F8, 1, 0, 0, 0⟩].all
      fun i => Tests.next (exec i s)) = true := by
  decide +kernel

/-- A re-block of 129 by 3 into kb4 blocks of 32, and an XOR of four bytes in memory and in a scratchpad. -/
theorem test_hyp_CopiesSendsAndDecodeJobs_layout :
    let d : Furrow := { Furrow.reset with fmt := 13 + 32 }
    let a : Furrow := { Furrow.reset with ext := ⟨129, 3, 1, 1⟩ }
    let t := fun (p : Place) => (⟨0, 0, p, 0, 4, none⟩ : Touch)
    d.format = 13 ∧ d.fmt.toNat / 2 ^ 5 % 4 ≠ 3 ∧ d.indirect = false ∧ a.extent 0 ≤ 512 ∧ a.extent 1 ≤ 512 ∧ 2 < a.extent 1 ∧
      255 < 128 * ((a.extent 0 + 127) / 128) ∧ (t (.spad 0 0)).size = 32 / 8 ∧ ((Tests.plain .W).worker? 0).isSome = true ∧
      0xFFFFFFFF < 2 ^ 32 ∧ (0 : Nat) ∈ [0, 4, 5] := by
  decide

/-- No error log, one on an unmapped page, and one that takes its record. -/
theorem test_hyp_AgentEvents_log :
    let s := fun (a : PAddr) => Tests.dev .W [] (fun w => { w with sup := { w.sup with errlog := a } }) id
    let r : List Word := [1, 2, 3, 4]
    let cx := fun (s : State) => { s.cxOf (s.worker 0) with user := false }
    (Tests.plain .W).wk.sup.errlog = 0 ∧ 0x2000000000 % 1024 = 0 ∧ inWindows 0x2000000000 = false ∧ (Tests.plain .W).badSectors = [] ∧
      (Tests.plain .W).softSectors = [] ∧
      (match (s 0x2000000000).resolve (.engine 0) (cx (s 0x2000000000)) 0x2000000000 .atomic with
        | .error (.fault _) => true
        | _ => false) = true ∧
      Tests.gives ((s 0x1000000000).resolve (.engine 0) (cx (s 0x1000000000)) 0x1000000000 .atomic) (fun x =>
        let n := x.2.physNat x.1.addr 4
        Tests.gives ((x.2.putBytes x.1 x.1.addr (toBytes (n + 1) 4)).resolve (.engine 0) (cx (s 0x1000000000)) (0x1000000000 + 32 + 32 * (n % 31)) .store)
          fun _ => true) = true ∧
      Tests.gives (errorRecord ((s 0x1000000000).worker 0) (.engine 0) r (s 0x1000000000)) (fun _ => true) = true := by
  decide +kernel

/-- Copies: a saved worker's; one whose element fails; one at its end that adds to a remote knot. -/
theorem test_hyp_AgentEvents_ends :
    let c := (Tests.furs .W id).copyCmd ⟨0, Tests.on, 0x30, 1, 1, 5, 0⟩ false (some 0x01F4000000000000)
    let s := { Tests.furs .W (fun w => { w with status := .saved }) with copies := [c] }
    let x := { c with src := { c.src with base := 0x2000000000 } }
    let t := { Tests.furs .W id with copies := [x] }
    (s.worker 0).status = .saved ∧ c.xf ≠ 6 ∧ c.remote = some 0x01F4000000000000 ∧
      windowPlace (t.cxOf (t.worker 0)) 0x01F4000000000000 = some (.knot 0 0) ∧
      (match x.elements x.chunk t with
        | .error (.trap y) => Tests.gives (errorRecord (t.worker 0) (.engine x.engine) [BitVec.ofNat 64 y.addr, 0, 0, 0] (t.putCopy { x with failed := true })) fun _ => true
        | _ => false) = true ∧ { x with failed := true }.failed = true := by
  decide +kernel

/-- A score pass without its job, and one whose add meets an unmapped address. -/
theorem test_hyp_AgentEvents_passes :
    let s : State := { Tests.plain .W with passes := [Tests.pass false] }
    let j := { Tests.job with entries := [1], folded := [0], complete := true, desc := BitVec.ofNat 512 (2 ^ 96 + 8 * 2 ^ 160 + 0x2000000000 * 2 ^ 192) }
    (s.jobs.find? fun j => j.key == 0 && j.buf && descTag j.desc == (Tests.pass false).tag.toNat).isNone = true ∧
      (match (Tests.pass false).add j s with
        | .error (.trap _) => true
        | _ => false) = true := by
  decide +kernel

/-- Rows for an aborted launch, a deterministic one, an expert of another device, no worker's window, and a peer's row for an
expert that is not there. -/
theorem test_hyp_AgentEvents_rows :
    let q := fun (peer : Bool) => (⟨0, 0, 0, 0, 0, [1, 2], 5, 0, peer⟩ : SendReq)
    let s := fun (place : Word) (f : Launch → Launch) (peer : Bool) =>
      { Tests.dev .W [] id (fun l => f { l with place := [place] }) with sends := [q peer] }
    let dev := fun (s : State) => (s.launch 0).placeOf 0 / 2 ^ 48 % 2 ^ 10
    ((s 0 (fun l => { l with aborting := true }) false).launch 0).aborting = true ∧ ((s 0 (fun l => { l with record := [0, 1, 1] }) false).launch 0).det = true ∧
      dev (s 0x0001000000000000 id false) ≠ (s 0 id false).devnum.toNat ∧ dev (s 0x8000000000000000 id false) = (s 0 id false).devnum.toNat ∧
      (s 0x8000000100000000 id false).worker? (workerKey 0 (((s 0x8000000100000000 id false).launch 0).placeOf 0 / 2 ^ 32 % 2 ^ 16)) = none ∧
      (q true).peer = true ∧ ¬ (q true).expert < ((s 0 id true).launch 0).nexp := by
  decide +kernel

/-- A note under a `shins`; a stop for a pre-emption; another worker's planes, at hand and moved aside; a job to reissue; walks
that change nothing. -/
theorem test_hyp_ContextEvents_more :
    let x : Insertion := ⟨⟨0, Tests.on, 0, 0, 0, 6, 0⟩, .reset, false, [[0]], 0, []⟩
    let n := Tests.dev .S [] (fun w => { w with note := some ⟨3, 1, 0, none, .S, 0, false⟩, insertion := some x }) id
    let p := Tests.dev .S [] (fun w => { w with preempt := true }) id
    let o := fun (b : Bool) => ({ Tests.plain .S with planeOwner := [(0, 7)] } : State).putWorker 7 { Worker.zero with imageMoved := b }
    let j := { Tests.plain .W with jobs := [Tests.job] }
    let f := Tests.leaf 0x0000009000000015
    (n.worker 0).insertion ≠ none ∧
      (p.curKey = 0 ∧ (p.worker 0).status = .running ∧ p.frozen = false ∧ (p.worker 0).preempt = true ∧ (p.worker 0).insertion = none) ∧
      tabFind (Tests.plain .S).planeOwner 0 = none ∧
      (∀ b, tabFind (o b).planeOwner ((o b).worker 0).core = some 7 ∧ 7 ≠ 0 ∧ ((o b).worker? 7).isSome = true ∧ ((o b).worker 7).imageMoved = b) ∧
      (j.jobs = [Tests.job] ∧ Tests.job.key = 0 ∧ Tests.job.complete = false ∧ Tests.job.failed = none) ∧
      2 ^ 57 ≤ 2 ^ 57 ∧ inWindows 0x01F0000000000000 = true ∧
      Tests.gives (f.lookup (.core 0) (f.cxOf (f.worker 0)) 0x1000000000) (fun y => (leafPhys y.1.size y.1.pte.toNat 0x1000000000).isNone) = true := by
  simp only []
  decide +kernel

/-- What a save area holds: entries of every kind. -/
theorem test_hyp_ContextEvents_area :
    let e : ImgEntry := ⟨2, 32, 0, 0, none, .lost, []⟩
    let p := fun (a : Landing) => (⟨[a], 1, false, 0, false⟩ : Pend)
    let w : Worker := { Worker.zero with
      vregs := [(5, ⟨1, 2, some ⟨13, 16⟩, .lost⟩)], images := [(3, [e])], q14 := [7], q15 := [8], banks := [(0, { Bank.reset with clean := false })]
      trapPend := [p (.sreg 5 1), p (.vregs [(5, .zero)])] }
    (w.vget 5).tag ≠ none ∧ e ∈ w.image 3 ∧ 7 ∈ w.q14 ++ w.q15 ∧ 8 ∈ w.q14 ++ w.q15 ∧ (w.bank 0).clean = false ∧
      p (.sreg 5 1) ∈ w.trapPend ∧ p (.vregs [(5, .zero)]) ∈ w.trapPend := by
  decide +kernel

/-- Reservations that stay and that give way; the victim among two; a launch of one worker, its entry a headland and not. -/
theorem test_hyp_RecordsAndDecisions_order :
    let a := Tests.two .ready .ready 5 1 fun s => { s with reserved := some 1 }
    let b := Tests.two .ready .ready 5 1 fun s => { s with reserved := some 0 }
    let v := Tests.two .running .ready 5 96 fun s => s.putLaunch 2 { Launch.zero with record := [0, 1], state := .running, order := 1 }
    let level := fun (e : Nat × Launch) => min 3 (e.2.prio + e.2.age)
    let record : List Word := [0x1000000000, 1] ++ List.replicate 14 0 ++ [0x200000]
    let s := fun (l : List Parcel) => Tests.dev .S l id fun x => { x with record := record, args := List.replicate 30 1, bkt := List.replicate 8 2 }
    let q := fun (l : List Parcel) => (s l).putLaunch 0 { ((s l).launch 0).started 0 with bin := (s l).placedHash ((s l).launch 0).record }
    let good := fun (l : List Parcel) => (q l).targetOk ((s l).newWorker 0 0 3 ((s l).launch 0)) ((s l).launch 0).entry
    (a.reserved = some 1 ∧ (tabFind a.launches 1).isSome = true ∧ (∀ e ∈ a.launches, level e ≤ level (1, a.launch 1)) ∧ a.candidate = some 1) ∧
      (b.reserved = some 0 ∧ (∃ e ∈ b.launches, level (0, b.launch 0) < level e) ∧ b.candidate = some 1) ∧
      (v.candidate = some 1 ∧ v.victim (v.launch 1).prio = some 2) ∧
      ((s []).launch 0).workersN = 1 ∧ ((s []).launch 0).args.length = 30 ∧ ((s []).launch 0).bkt.length = 8 ∧ good (Tests.block 1) = true ∧
      good [] = false := by
  simp only []
  decide +kernel

/-- Phases that are over and not; a worker that ends in a pre-empted launch; a close with `smbend`; a micro-batch that is over and
one that is not. -/
theorem test_hyp_CompletionsAndPhases_more :
    let s := Tests.dev .S [] (fun w => { w with committed := true }) (fun l => { l with record := [0x1000000000, 1, 1] })
    let t := Tests.dev .S [] id (fun l => { l with record := [0x1000000000, 0x200000001, 1], phaseEnds := [2] })
    let c := Tests.dev .S [] id (fun l => { l with contrib := [(0, [([(0, 3)], 0)])] })
    let p := (Tests.dev .S [] id (fun l => { l with state := .preempted })).putWorker 1 { Worker.zero with wid := 1 }
    s.phaseOver 0 = true ∧ t.phaseOver 0 = true ∧ (Tests.plain .S).phaseOver 0 = false ∧ c.batchOver 0 = true ∧ (Tests.plain .S).batchOver 0 = false ∧
      (p.launch (0 / 128)).state = .preempted ∧ (∃ k ∈ p.keysOf 0, (p.worker k).status ≠ .done) ∧ (Launch.zero.smbend = false) ∧
      (t.launch 0).ntask ≠ 0 ∧ 0 < (t.launch 0).workersN := by
  simp only []
  decide +kernel

/-- A tail behind HEAD; regions that ask for a link that is up and one that is down; what a region and a port register can show.
-/
theorem test_hyp_OwnershipRegistersAndPool_more :
    let s : State := { State.reset with
      own := 7, qhbase := 0x60000000, queues := [(0, { QueueSt.zero with head := 5 })]
      mem := (Memory.writeBytes [] 0x60000008 (toBytes 0x40010 8)).writeBytes 0x60000010 (toBytes 4 8)
      regions := [(1, ⟨0, 2, false, false⟩), (2, ⟨0x0400000000000000, 2, false, true⟩), (3, ⟨0, 3, false, false⟩)], poolUp := [0]
      ports := [(2, ⟨true, 4, 5, 0xFFFF, false, true⟩)] }
    let a := s.readHeader 0
    (a.devq = false ∧ a.enabled = true ∧ (tabGet 0 s.qirq 0).getLsbD 31 = false ∧ a.tail < a.head) ∧
      ((s.region 1).state = 2 ∧ (s.region 1).port ∈ s.poolUp) ∧ ((s.region 2).state = 2 ∧ (s.region 2).port ∉ s.poolUp) ∧
      (s.region 0).state ≠ 2 ∧ ((s.region 3).state = 3 ∧ (s.region 3).port ∈ s.poolUp) ∧ (s.region 0).state ≠ 3 ∧
      ((s.port 2).lanes < 8 ∧ (s.port 2).peer < 1024 ∧ (s.port 2).retry < 65536) ∧ 1 % 8 ≠ 0 ∧ 0x6000 ≤ 0x6000 := by
  simp only []
  decide +kernel

/-- A peer store in flight on the last port, which goes down, alone and below a write that every agent sees: it is lost, or not
(which is free); a port that is down; a bad sector read and written in part; requests that only a peer makes. -/
theorem test_hyp_FupelPortsAndOutsideRequests_more :
    let u : Write := ⟨0, .mem, 6 * 2 ^ 47, 0, .put 0 64 1, some ⟨0, .strand .V⟩, 0, .rc, [], none, [], false⟩
    let v : Write := ⟨1, .mem, 6 * 2 ^ 47, 1, .put 0 64 2, none, 0, .rc, [], none, [], true⟩
    let s := fun (l : List Write) => ({ State.reset with
      ports := [(2, ⟨true, 4, 5, 0, false, true⟩)], routes := [(5, 4)], writes := l, badSectors := [0x100] } : State)
    let q := (s []).setPort 2 { (s []).port 2 with up := false, lanes := 0 }
    let inFlight := fun (u : Write) =>
      let dev := 32 * u.line / 2 ^ 52 - 1
      u.spot = .mem ∧ 2 ^ 52 ≤ 32 * u.line ∧ u.reach = [] ∧ u.shown = none ∧ u.seenBy = [] ∧ u.done = false ∧
        (tabGet 0 (s []).routes dev).getLsbD 2 = true ∧ q.peerUp dev = false
    let lost := fun (u : Write) => Config.storeLost (s []).tick u.id = true
    (((s []).port 2).up = true ∧ inFlight u ∧ ((∀ x ∈ (s [u]).writes, inFlight x → ¬ lost x) ∨ lost u ∧ (s [u]).writes = [u]) ∧
        (s [v, u]).writes = [v, u] ∧ v.spot = .mem ∧ v.line = u.line ∧ u.id < v.id ∧ ¬ (inFlight v ∧ lost v)) ∧
      ((s []).port 3).up = false ∧
      sectorHit (s []).badSectors 0x104 8 = some 0x100 ∧ physKind 0x104 = some .hbm ∧ physKind (0x104 + 8 - 1) = some .hbm ∧
      (s []).writeCheck [(.phys (plain 0x104), [1, 2])] = some (.machine 5 0x100) ∧ physKind 0x8000000000 = none ∧
      fromHost (.atomic 0x100 8 0 0 0) = false ∧ sectorHit (s []).badSectors 0x200 32 = none := by
  intro u v s q inFlight lost
  have f : inFlight u := by decide +kernel
  refine ⟨⟨by decide, f, ?_, rfl, rfl, rfl, by decide, fun h => absurd h.1 (by decide +kernel)⟩, by decide +kernel⟩
  rcases Bool.eq_false_or_eq_true (Config.storeLost (s []).tick u.id) with h | h
  · exact .inr ⟨h, rfl⟩
  · refine .inl fun x m _ k => ?_
    obtain rfl : x = u := List.mem_singleton.mp m
    exact Bool.noConfusion (h.symm.trans k)

/-- A core with a worker; one that is in use, and one whose only worker is done; planes whose worker is gone. -/
theorem test_hyp_PackageEvents_more :
    let s := { Tests.plain .S with coreUse := [(0, 0)], planeOwner := [(5, 7)] }
    let d := Tests.dev .S [] (fun w => { w with status := .done }) id
    (tabFind s.coreUse 0 = some 0 ∧ (s.worker? 0).isSome = true) ∧
      (d.coreEnabled 0 = true ∧ tabFind d.coreUse 0 = none ∧ ∀ e ∈ d.workers, e.2.core = 0 → e.2.status = .done) ∧
      (tabFind s.planeOwner 5 = some 7 ∧ (s.worker? 7).isNone = true) := by
  decide +kernel

/-- A strand with an entry that lands, pushes or hands on a token; one that waits; one in a `shins`; one at the end of its
block. -/
theorem test_hyp_StepRunsDecoded_due :
    let x : Insertion := ⟨⟨0, Tests.on, 0, 0, 0, 6, 0⟩, .reset, false, [[0]], 0, []⟩
    let s := fun (e : Eng) (f : Worker → Worker) => { Tests.dev e [] f id with agenda := [.strand 0 e] }
    let pend := fun (a : Landing) (w : Worker) => w.setStrand .V { w.strands.v with pend := [⟨[a], 0, false, 0, false⟩] }
    let q := fun (s : State) (e : Eng) => (s.enter (.strand 0 e)).modSt fun t => t.sync (s.enter (.strand 0 e)).wk.spad
    let kind := fun (e : Eng) (f : Worker → Worker) => (q (s e f) e).wk.dueKind e
    let full := fun (w : Worker) => { w with q15 := List.replicate 16 0 }
    (s .V id).turn = .strand 0 .V ∧ kind .V (pend (.mask 0 0)) = .land ∧ kind .V (pend (.words [1])) = .push ∧ kind .V (pend (.token .VW)) = .token ∧
      (kind .V (full ∘ pend (.words [1])) = .none ∧ (q (s .V (full ∘ pend (.words [1]))) .V).st.held = true) ∧
      (let m := s .M (fun w => { w with insertion := some x })
       kind .M (fun w => { w with insertion := some x }) = .none ∧ (q m .M).st.held = false ∧ (m.enter (.strand 0 .M)).wk.insertion = some x) ∧
      (let b := s .V (fun w => w.setStrand .V { w.strands.v with stack := [⟨0x1000000000, 0x1000000000, 2, true⟩] })
       (b.enter (.strand 0 .V)).wk.atEnd .V = true ∧ (q b .V).wk.dueKind .V = .none ∧ (q b .V).st.held = false ∧ (q b .V).st.exited = false) := by
  decide +kernel

/-- A reserved combination; an illegal headland; a word whose register waits for room in a queue to be written. -/
theorem test_hyp_StepRunsDecoded_words :
    let x : ImgEntry := ⟨2, 32, 0, 0, none, .lost, []⟩
    let t := fun (l : List Parcel) => { Tests.dev .V l (fun w => { w.setStrand .V { w.strands.v with
      pend := [⟨[.vregs [(0x46, .zero)], .image 8 x], 0, true, 0, false⟩] } with images := [(8, List.replicate 4 x)] }) id with agenda := [.strand 0 .V] }
    let s := t [0x500A, 0xAA5D, 0x2546, 0x8300]
    formatLegal 0xC000 = false ∧ (formatLegal 0xA800 = true ∧ engine 0xA800 = none ∧ decode 0xA800 0x4020 0 0 = .illegal .S) ∧
      (s.enter (.strand 0 .V)).wk.dueKind .V = .none ∧ (s.enter (.strand 0 .V)).st.held = false ∧
      (match decode 0x500A 0xAA5D 0x2546 0x8300 with
        | .instr i => ((s.enter (.strand 0 .V)).noteFetch 4).awaits i
        | _ => false) = true := by
  decide +kernel

/-- An instruction that pops no token works with the state as it is. -/
theorem Tests.gained (e : Eng) (f : E64) (s : State) (h : (tokPops e f.tk).isEmpty = true) : s.gained e f = s := if_pos h

/-- NaN, a number and the zeros of f32, bf16 and f16; two numbers, and the infinities. -/
theorem test_hyp_ScalarFloatResults_values :
    let rd := fun (f : Nat) => readNum f false
    (∀ r ∈ floatRows.take 3, r ∈ floatRows ∧ r.fmt < 3 ∧ r.nan < 2 ^ (r.mant + r.expo + 1) ∧
      2 ^ (r.mant + r.expo) < 2 ^ (r.mant + r.expo + 1) ∧ rd r.fmt r.nan = .nan ∧ rd r.fmt 1 ≠ .nan ∧ rd r.fmt r.inf = .inf false ∧
      (rd r.fmt (2 ^ (r.mant + r.expo))).Below (rd r.fmt 0)) ∧
      (rd 0 0x3F800000).Below (rd 0 0x40000000) ∧ (rd 0 0x3F800000).isFin = true ∧ rd 0 0x3F800000 ≠ .nan := by
  unfold XReal.Below
  decide +kernel

/-- A full in-flight write queue before each transfer, a headland and `exit`, in S and in L. -/
theorem test_hyp_TransfersNotTakenOrIllegal_full :
    let full := fun (e : Eng) (l : List Parcel) => Tests.dev e l (fun w =>
      { w.setStrand e { w.strands.get e with pend := List.replicate 32 ⟨[], 1, false, 0, false⟩ } with
        sregs := [(6, 0x1000000000), (31, 0x1000000000)] }) id
    let s := full .S (Tests.block 12)
    s.live = true ∧ 32 ≤ s.st.pend.length ∧ s.curEng = .S ∧ s.view.guard Tests.on = true ∧
      s.headlandAt s.wk (s.st.pc + BitVec.ofInt 57 (2 * (0 : BitVec 32).toInt)) = true ∧
      s.headlandAt s.wk ((s.wk.sget (6 : BitVec 5).toNat).extractLsb' 0 57) = true ∧ s.headlandAt s.wk (bucketTarget 6 s) = true ∧
      ((s.wk.sget 31).toNat / 2 ^ 57 % 8 ≤ s.st.stack.length ∧ (s.wk.sget 31).toNat % 2 = 0) ∧ s.headOk (12 : BitVec 11).toNat = true ∧
      (full .L []).live = true ∧ 32 ≤ (full .L []).st.pend.length ∧ (full .L []).curEng ≠ .S := by
  decide

/-- The last eight bytes of the scratchpad as a release and an atomic leave them: still no sector is marked. -/
theorem test_hyp_ScalarAccessesThroughWindows_after :
    let s := Tests.regs []
    let p : Place := .spad 0 0x7FFF8
    let r := ((s.release 3).lookedNewest ⟨s.curKey, .strand .S⟩ p 8).noteRead p 8
    (r.writeCheck [(p, toBytes 0 8)]).isNone = true ∧ (s.readCheck p 8).isNone = true := by
  decide +kernel

/-- The text page after a release, and after an atomic's read. -/
theorem test_hyp_ScalarAccessesTranslated_after :
    let s := Tests.regs [(6, 0x1000000100)]
    let ea := (s.wk.sget (6 : BitVec 5).toNat + (0 : BitVec 32).signExtend 64).toNat
    (∃ x, (s.release 3).resolve (.core s.wk.core) (s.cxOf s.wk) ea .store = .ok x ∧
      (x.2.writeCheck [(.phys x.1, toBytes 0 8)]).isNone = true) ∧
      ∃ x, s.resolve (.core s.wk.core) (s.cxOf s.wk) ea .atomic = .ok x ∧
        (let q : Place := .phys { x.1 with home := x.1.home || decide (4 ≤ 5) }
         let t := x.2.release 5
         let r := ((t.lookedNewest ⟨s.curKey, .strand .S⟩ q 8).accessed q).correct x.1.addr 8
         (t.readCheck q 8).isNone && (r.writeCheck [(q, toBytes 0 8)]).isNone) = true :=
  ⟨Tests.gives_iff _ _ (by decide +kernel), Tests.gives_iff _ _ (by decide +kernel)⟩

/-- Numbers that a long magnitude gives, marked values at the edge of what each format rounds alike, and the special operands. -/
theorem test_hyp_LaneFloatResults_values :
    let one : XReal := .fin false 1 0 false
    let zero : XReal := .fin true 0 0 false
    let low : XReal := .fin true 1 0 false
    (one.exact ∧ zero.exact ∧ low.exact) ∧ one.val ≠ 0 ∧ 0 < one.val ∧ zero.val = 0 ∧ low.val < 0 ∧
      (∀ r ∈ floatRows, (0 : Int) + 32 ≤ max ((Nat.log2 (2 ^ (32 + r.mant)) : Int) + 0 - r.mant) r.low) ∧ (-32 : Int) + 32 ≤ 0 ∧
      5 ≤ 5 ∧ 0 < 1 ∧ 1 < 2 ^ 1 := by
  refine ⟨⟨⟨_, _, _, rfl⟩, ⟨_, _, _, rfl⟩, ⟨_, _, _, rfl⟩⟩, by simp [XReal.val], by simp [XReal.val], by simp [XReal.val],
    by simp [XReal.val], ?_, by decide, by decide, by decide, by decide⟩
  decide +kernel

/-- A tile whose cells have an error mark, and one whose cells have none. -/
theorem test_hyp_CoordinateInstructions_checks :
    let z := fun (off : Nat) => ({ Tests.plain .V with badLocal := [⟨0, true, off⟩] } : State)
    (z 48).cellCheck [0, 1] = some 48 ∧ (z 64).cellCheck [0, 1] = none ∧ (Tests.plain .V).cellCheck [0, 1] = none := by
  decide

/-- Lines of f32 patterns: empty, with a NaN, with both infinities, with one, with a sum that is 1 and one that is −0; integers.
-/
theorem test_hyp_ReductionsAndMerges_sums :
    let xs := fun (l : List Nat) => l.map (readNum 0 false)
    (2 ≤ 2 ∧ 5 ≤ 5 ∧ 2 ^ 32 - 1 < 2 ^ 32) ∧ .nan ∈ xs [0x3F800000, 0x7FC00000] ∧
      (.inf false ∈ xs [0x7F800000, 0xFF800000] ∧ .inf true ∈ xs [0x7F800000, 0xFF800000]) ∧
      (.nan ∉ xs [0x7F800000, 0] ∧ .inf false ∈ xs [0x7F800000, 0] ∧ .inf (!false) ∉ xs [0x7F800000, 0]) ∧
      ((∀ x ∈ xs [0x3F800000], x.isFin = true) ∧ ((xs [0x3F800000]).map XReal.val).sum ≠ 0) ∧
      ((∀ x ∈ xs [0x80000000, 0x80000000], x.isFin = true) ∧ ((xs [0x80000000, 0x80000000]).map XReal.val).sum = 0) ∧
      (8, true, 64) ∈ intRows := by
  have a : readNum 0 false 0x3F800000 = .fin false (2 ^ 23) (-23) false := by decide +kernel
  have b : readNum 0 false 0x80000000 = .fin true 0 (-149) false := by decide +kernel
  refine ⟨by decide, by decide +kernel, by decide +kernel, by decide +kernel, ⟨by decide +kernel, ?_⟩, ⟨by decide +kernel, ?_⟩, by decide⟩
  · simp [a, XReal.val]
  · simp [b, XReal.val]

/-- Extremes: of NaNs alone, of a NaN and a number, at the greatest pattern; contenders, none and two of one value. -/
theorem test_hyp_ReductionsAndMerges_extremes :
    (∀ r ∈ floatRows.take 3, r ∈ floatRows ∧ r.fmt ≤ 2 ∧
      (∀ v ∈ [r.nan, 2 ^ (r.mant + r.expo + 1) - 1], v < 2 ^ (r.mant + r.expo + 1) ∧ readNum r.fmt false v = .nan) ∧
      ∃ v ∈ [r.nan, 1], readNum r.fmt false v ≠ .nan) ∧
      redOk 0 = true ∧ redOk 8 = true ∧ (∃ q ∈ [((0x3F800000 : Nat), (5 : Int)), (0x3F800000, 3)], readNum 0 false q.1 ≠ .nan) := by
  decide +kernel

/-- The cause of a coordinate or codebook fault. -/
def Tests.cause {α : Type} (x : Except Nat α) (c : Nat) : Bool :=
  match x with
  | .error d => d == c
  | .ok _ => false

theorem Tests.cause_iff {α : Type} (x : Except Nat α) (c : Nat) (h : Tests.cause x c = true) : x = .error c := by
  cases x with
  | error d => exact congrArg _ (beq_iff_eq.mp h)
  | ok => cases h

/-- Reading a register pops nothing. -/
theorem Tests.readReg (x : BitVec 8) (w : Option Nat) (s : State) (a : Src) (hx : isV x = true)
    (h : Src.slots (s.vreg x).data.toNat (s.vreg x).scale.toNat (s.vreg x).tag (s.vreg x).map = a) : readSrc x w s = .ok (a, s) := by
  subst h
  unfold readSrc
  rw [if_pos hx]
  rfl

/-- `vnoise.tab` on an empty bank; `vrot` on an empty bank, on a map that is lost and, with rsr, on a slot of a pair whose even
slot can be read. -/
theorem test_hyp_EngineFaultsAndGuardedOff_tables :
    let s := Tests.mapped id
    let f := Tests.move 2 0 0
    let g : E64 := ⟨0, Tests.on, 0x038, 5, 6, 0, 0x90⟩
    let h : E64 := ⟨0, Tests.on, 0x178, 5, 6, 0, 0x90⟩
    let x := Tests.coords.setWk { Tests.coords.wk with
      vregs := [(6, ⟨0, 0, none, .explicit ⟨2, 1, 1⟩ 7 ⟨2, 1, 1, 1⟩⟩), (7, ⟨0xFFFFFFFF00000000, 0, none, .lost⟩)] }
    let a := fun (m : CMap) => Src.slots 0 0 none m
    let e : CMap := .explicit ⟨2, 1, 1⟩ 7 ⟨2, 1, 1, 1⟩
    (Turn.Go .V f s ∧ f.top2 = 2 ∧ peekMap [f.a8] 0 s = .ok (Tests.map, s) ∧ ownCompanion f.d8 Tests.map s = .ok ((), s) ∧
        s.view.shape.fits (ewWidth f) = true ∧ readSrc f.a8 none s = .ok (a Tests.map, s) ∧ s.active f 0 ∧
        Tests.gives (readCoord s.wk Tests.map 0) (fun _ => true) = true ∧ (s.wk.front f.b8.toNat).2 = 0) ∧
      (Turn.Move g (fmtWidth g.top2) id s (a Tests.map) s ∧ s.active g 0 ∧
        Tests.gives (readCoord s.wk Tests.map 0) (fun c => decide ((0 : Int) ≤ c.get 0 / 2)) = true ∧ (s.wk.front g.b8.toNat).2 = 0) ∧
      (Turn.Move g (fmtWidth g.top2) id Tests.v2 (a .lost) Tests.v2 ∧ Tests.v2.active g 0 ∧ readCoord Tests.v2.wk .lost 0 = .error 3) ∧
      (Turn.Move h (fmtWidth h.top2) id x (a e) x ∧ x.active h 1 ∧
        Tests.gives (readCoord x.wk e (1 - 1 % 2)) (fun c => decide (c.get 0 / 2 < ((x.wk.front h.b8.toNat).2 : Int))) = true ∧
        Tests.gives (stoch x.wk x.view.nkey.c0 e h.mid3 0) (fun _ => true) = true ∧
        stoch x.wk x.view.nkey.c0 e h.mid3 1 = .error 4) :=
  ⟨⟨Tests.go _ _ _ (by decide), by decide, rfl, rfl, by decide,
      Tests.readReg _ _ _ _ (by decide) (by decide +kernel), ⟨by decide, by decide⟩, by decide +kernel, by decide⟩,
    ⟨⟨Tests.go _ _ _ (by decide), rfl, Tests.readReg _ _ _ _ (by decide) (by decide +kernel)⟩, ⟨by decide, by decide⟩,
      by decide +kernel, by decide⟩,
    ⟨⟨Tests.go _ _ _ (by decide), rfl, Tests.readReg _ _ _ _ (by decide) (by decide +kernel)⟩, ⟨by decide, by decide⟩, rfl⟩,
    ⟨⟨Tests.go _ _ _ (by decide +kernel), rfl, Tests.readReg _ _ _ _ (by decide) (by decide +kernel)⟩,
      ⟨by decide +kernel, by decide +kernel⟩, by decide +kernel, by decide +kernel,
      Tests.cause_iff _ _ (by decide +kernel)⟩⟩

/-- `vperm`, `vcompact` and `vrargmax` of a register whose map is lost, the companion another register than the destination. -/
theorem test_hyp_EngineFaultsAndGuardedOff_moves :
    let s := Tests.v2
    let p := Tests.move 0 8 9
    let c := Tests.move 0 9 7
    let a := Src.slots 0 0 none .lost
    (Turn.Go .V p s ∧ isV p.c8 = true ∧ p.c8 ≠ p.d8 ∧ s.view.shape.fits (ewWidth p) = true ∧ s.view.shape.fits 32 = true ∧
        readSrc p.a8 (some (ewWidth p)) s = .ok (a, s) ∧ readSrc p.b8 (some 32) s = .ok (a, s) ∧ 0 < s.view.shape.slots ∧
        activeIn (s.maskOf p.lo3) 0 = true ∧ (0 : Int) ≤ signed 32 (a.slot 32 0) ∧ signed 32 (a.slot 32 0) < s.view.shape.size p.top2 ∧
        readCoord s.wk .lost (s.view.shape.moveTo p.top2 0 (signed 32 (a.slot 32 0)).toNat) = .error 3) ∧
      (Turn.Go .V c s ∧ isV c.b8 = true ∧ c.b8 ≠ c.d8 ∧ readSrc c.a8 (some (ewWidth c)) s = .ok (a, s) ∧
        Turn.Move c (ewWidth c) (fun m => m.reduce c.top2) s a s ∧ redOk (bits c.c8.toNat 0 5) = true ∧
        fmtWidth (bits c.c8.toNat 0 5) = ewWidth c ∧ activeIn (s.maskOf c.lo3) 0 = true ∧ readCoord s.wk .lost 0 = .error 3) :=
  ⟨⟨Tests.go _ _ _ (by decide), by decide, by decide, by decide, by decide,
      Tests.readReg _ _ _ _ (by decide) (by decide +kernel), Tests.readReg _ _ _ _ (by decide) (by decide +kernel),
      by decide, by decide, by decide +kernel, by decide +kernel, rfl⟩,
    Tests.go _ _ _ (by decide), by decide, by decide, Tests.readReg _ _ _ _ (by decide) (by decide +kernel),
      ⟨Tests.go _ _ _ (by decide), rfl, Tests.readReg _ _ _ _ (by decide) (by decide +kernel)⟩, by decide, by decide, by decide, rfl⟩

/-- `vdq` of cb4 from an empty bank, and of kb4 under rsr with a map that is lost; `vqnt` of 2 into cb4 with an empty bank. -/
theorem test_hyp_EngineFaultsAndGuardedOff_codes :
    let s := fun (t : Nat) => Tests.vec .V ⟨16, 1, 1, 1⟩ 32 (fun w => { w with vregs := [(6, ⟨0, 0, some ⟨t, 16⟩, .lost⟩)] })
    let f : E64 := ⟨0, Tests.on, 0, 5, 6, 0, 0x80⟩
    let k : E64 := ⟨0, Tests.on, 0x28, 5, 6, 0, 0x40⟩
    let q : E64 := ⟨0, Tests.on, 17 <<< 6, 5, 0xE2, 0, 0⟩
    let a := fun (t : Nat) => Src.slots 0 0 (some ⟨t, 16⟩) .lost
    (Turn.Go .V f (s 17) ∧ dqFmt (bits f.c8.toNat 4 4) = 17 ∧ vecLen 17 = 1 ∧ peekMap [f.a8, f.b8, 0] f.ms (s 17) = .ok (.lost, s 17) ∧
        ownCompanion f.d8 .lost (s 17) = .ok ((), s 17) ∧ ftzFmt f.fmt5.toNat = true ∧ (s 17).view.shape.fits 32 = true ∧
        readSrc f.a8 (some (fmtWidth 17)) (s 17) = .ok (a 17, s 17) ∧ f.ms = 0 ∧ (s 17).view.shape.slots % (1 * 16) = 0 ∧ isCb 17 = true ∧
        slotOf (a 17).scale 8 0 ≠ 255 ∧ ((s 17).wk.front 0).2 ≤ (a 17).slot (fmtWidth 17) 0) ∧
      (Turn.Go .V k (s 13) ∧ dqFmt (bits k.c8.toNat 4 4) = 13 ∧ k.lo3 = 5 ∧ readSrc k.a8 (some (fmtWidth 13)) (s 13) = .ok (a 13, s 13) ∧
        Tests.gives (blockValues 13 (slotOf (a 13).scale 8 0) ((a 13).slot (fmtWidth 13) 0) ((s 13).wk.front 0)) (fun _ => true) = true ∧
        stoch (s 13).wk (s 13).view.nkey.c0 .lost k.lo3 0 = .error 3) ∧
      (Turn.Go .V q (s 0) ∧ q.fmt5.toNat = 17 ∧ isBlock 17 = true ∧ ftzFmt (bits q.c8.toNat 0 5) = true ∧
        readSrc q.a8 (some 32) (s 0) = .ok (.imm 2, s 0) ∧ 0 < (s 0).view.shape.slots / (1 * 16) ∧
        ∀ i, ∃ y, qntSlot q.lo3 0 17 (s 0) (.imm 2) i = .ok y ∧
          quantise 17 q.lo3 ((s 0).wk.front 0) ((List.range 16).map fun _ => ([y.1], y.2)) = .error 5) :=
  ⟨⟨Tests.go _ _ _ (by decide), by decide, by decide, rfl, rfl, by decide, by decide,
      Tests.readReg _ _ _ _ (by decide) (by decide +kernel), by decide, by decide, by decide, by decide, by decide⟩,
    ⟨Tests.go _ _ _ (by decide), by decide, by decide, Tests.readReg _ _ _ _ (by decide) (by decide +kernel),
      by decide +kernel, rfl⟩,
    Tests.go _ _ _ (by decide), by decide, by decide, by decide, rfl, by decide, fun _ => ⟨_, rfl, Tests.cause_iff _ _ (by decide +kernel)⟩⟩

/-- What a load leaves for a register never waits. Sixteen slots of one block, for a register and for a queue; a load whose line
is the last that may be pinned, and one that would pin a line too many. -/
theorem test_hyp_LoadsAndFurrowMoves_lands :
    let s := Tests.vec .L ⟨16, 1, 1, 1⟩ 32 id
    let x : Loaded := ⟨(List.range 16).map fun i => (i, i), [(0, 7)], [⟨false, 0, 32, 0x40000000, 0⟩]⟩
    let u : Furrow := { Tests.fur with fmt := 14 }
    let e : ImgEntry := ⟨16, 32, 0, 0, none, .lost, []⟩
    let full := fun (n : Nat) => { Worker.zero with images := [(8, [{ e with pins := List.range n }])] }
    (∀ m w tag y map t, ∃ acts, deliverLoad 5 m w tag y map t = .ok (⟨acts, 3, false⟩, t)) ∧
      (x.vals.map Prod.fst).Pairwise (· < ·) ∧ (∀ v ∈ x.vals, v.1 < s.view.shape.slots) ∧ (x.scales.map Prod.fst).Pairwise (· < ·) ∧
      (∀ v ∈ x.scales, v.1 < s.view.shape.slots / 16) ∧ isQ 5 = false ∧ isQ 0x88 = true ∧
      (isBlock 14 = true ∧ u.blockOk 14 s.view.shape = true ∧ s.view.shape.slots % u.blockLen = 0) ∧
      s.wk.pinRoom [0x800000] = true ∧ (full 511).pinRoom [0x800000] = true ∧ (full 512).pinRoom [0x800000] = false :=
  ⟨fun _ _ _ _ _ _ => ⟨_, rfl⟩, by decide, by decide, by decide, by decide, by decide, by decide, by decide, by decide +kernel,
    by decide +kernel, by decide +kernel⟩

/-- `mldb` of cb4 with a bank; cells of the tile or the sheaf with an error mark, and without. -/
theorem test_hyp_TilesAndTheArray_checks :
    let s := Tests.vec .M ⟨16, 1, 1, 1⟩ 32 (fun w => { w with vregs := [(6, ⟨0, 0, some ⟨17, 16⟩, .lost⟩)] })
    let f : E64 := ⟨0, Tests.on, 0x1F <<< 6, 0, 6, 3, 0⟩
    let z := fun (off : Nat) => ({ Tests.plain .M with badLocal := [⟨0, true, off⟩] } : State)
    (ldbFormat f 16 s = .ok (17, s) ∧ f.fmt5 = 0x1F ∧ f.b8 ≠ 0) ∧ (z 16).cellCheck [0] = some 16 ∧ (z 32).cellCheck [0] = none ∧
      (Tests.plain .M).cellCheck [0, 1] = none :=
  ⟨⟨rfl, by decide, by decide⟩, by decide, by decide, by decide⟩

/-- No `shins` runs; a `shins` with its only key to go, and its bank with an error mark in the count of entry 1, and without. -/
theorem test_hyp_Sheaves_checks :
    let s := Tests.inserting 0 1 0
    let z := { s with badLocal := [⟨0, true, 32 * 3 + 16⟩] }
    let h : Sheaf := { Sheaf.reset with cap := 2 }
    (Tests.plain .M).wk.insertion = none ∧
      (s.wk.insertion.map fun x => decide (x.done.length < x.keys.length) && x.sheaf.ok && x.keys.all fun l => l.length == x.sheaf.dim.toNat)
        = some true ∧
      z.cellCheck (z.wk.bankCells h) = some (32 * 3 + 16) ∧ s.cellCheck (s.wk.bankCells h) = none ∧
      h.base.toNat ≤ 0 ∧ 0 < h.base.toNat + h.cap.toNat * (h.dim.toNat + 1) := by
  decide +kernel

/-- Elements reached through the furrow as it stands at each. -/
theorem test_hyp_ElementsThroughFurrows_each :
    let s := Tests.furs .L id
    ∃ y, loadEach 0 ((s.furrow 1).elements s.wk.spad 2).1 s = .ok y ∧ (y.1.vals.length == 2) = true :=
  Tests.gives_iff _ _ (by decide +kernel)

/-- A block register stored in whole blocks. -/
theorem test_hyp_StoresThroughFurrows_blocks :
    let b : Furrow := { Tests.fur with fmt := 14, ext := ⟨16, 1, 1, 1⟩, st := ⟨1, 0, 0, 0⟩, sbase := 0x01F0000000001000 }
    let s := Tests.vec .W ⟨16, 1, 1, 1⟩ 32 fun w =>
      let t := w.strands.w
      { w.setStrand .W { t with view := { t.view with furrows := [(1, b)] } } with vregs := [(6, ⟨0, 0, some ⟨14, 16⟩, .lost⟩)] }
    let f : E64 := ⟨0, Tests.on, 0x7F8, 1, 6, 0, 0⟩
    let u := s.furrow f.d8
    Turn.Go .W f s ∧ u.effective f.fmt5.toNat = 14 ∧ u.imageOk 14 s.view.shape ∧ s.view.shape.slots % u.blockLen = 0 ∧ u.blocked 14 = 16 ∧
      ∃ y, readSrc f.a8 (some 8) s = .ok y ∧ (y.1.tag == some ⟨14, 16⟩ &&
        Tests.gives (storeElems (u.begin s.wk.spad) 14 16 (y.1.slot 8) (slotOf y.1.scale 8) ((u.begin s.wk.spad).image s.view.shape none) y.2)
          fun _ => true) = true :=
  ⟨Tests.go _ _ _ (by decide), by decide, by unfold Furrow.imageOk; decide, by decide, by decide, Tests.gives_iff _ _ (by decide +kernel)⟩

/-- `wamo` with a knot among its places, and with none. -/
theorem test_hyp_StoresThroughFurrows_knots :
    let t := fun (p : Place) => (⟨0, 0, p, 0, 4, none⟩ : Touch)
    [t (.knot 0 5)].any (fun y => y.place.isKnot) = true ∧ [t (.spad 0 0)].any (fun y => y.place.isKnot) = false := by
  decide

/-- A cell readout by a copy: its cell with an error mark, and without; marked ORD and not. -/
theorem test_hyp_CopiesSendsAndDecodeJobs_cells :
    let c := { (Tests.furs .W id).copyCmd ⟨0, Tests.on, 0x30, 1, 1, 5, 0⟩ false none with xf := 6 }
    let q : Place := .cell c.key (c.tile.base.toNat + 0 * c.tile.cols.toNat + 0) 0
    let s := { Tests.furs .W id with badLocal := [⟨0, true, 16⟩] }
    c.xf = 6 ∧ c.ord = false ∧ s.readCheck q 32 = some (.machine 2 16) ∧ (Tests.furs .W id).readCheck q 32 = none := by
  decide +kernel

/-- Every form in which results land, its tokens behind it; the report of `mzcnt` behind a readout of its tile that has not
landed; a fetched entry that has changed in a marked sector, and one in a sector that is not marked. -/
theorem test_hyp_Landings_tails :
    let x : ImgEntry := ⟨2, 32, 0, 0, none, .lost, []⟩
    let y : Part := ⟨false, 1, 32, 0x100, 0⟩
    let c : Counts := ⟨1, 2, 3, 4, 5⟩
    let r := [Landing.token .VW, .token .VM]
    let v := [((5 : Nat), VReg.zero)]
    let s := fun (l : List (List Landing)) (f : Worker → Worker) =>
      Tests.dev .V [] (fun w => f (w.setStrand .V { w.strands.v with pend := l.map fun a => ⟨a, 0, false, 0, false⟩ })) id
    let due := fun (l : List (List Landing)) => ((s l id).wk.due .V).map Prod.fst
    let full := fun (w : Worker) => { w with images := [(3, List.replicate 4 x)] }
    let e : ImgEntry := { x with data := BitVec.ofNat 262144 (2 ^ 32) }
    let bad : State := { s [] id with badSectors := [0x100] }
    (∀ a ∈ [[Landing.sreg 5 7], [.mask 5 7], [.vregs v], [.knotAdd 5 1], [.qsat 3], [.counts 7 c], [.vregs v, .qsat 3], [.vregs v, .counts 7 c],
        [.image 3 x], [.image 3 x, .qsat 3], [.image 3 x, .counts 7 c], [.fetched 3 x [y]], [.words [7]], [.words [7], .counts 7 c],
        [.vregs v, .image 3 x]], due [a ++ r] = some 0 ∧ ∀ b ∈ r, ∃ q, b = .token q) ∧
      ((s [[.image 3 x, .counts 7 c], [.words [7], .counts 7 .zero]] full).wk.due .V).isNone = true ∧
      (((s [[.image 3 x, .counts 6 c], [.words [7], .counts 7 .zero]] full).wk.due .V).map Prod.fst) = some 1 ∧
      bad.badPart bad.fetcher e [y] = some 0x100 ∧ bad.badPart bad.fetcher x [y] = none ∧ (s [] id).badPart (s [] id).fetcher e [y] = none := by
  refine ⟨?_, by decide +kernel, by decide +kernel, by decide +kernel, by decide +kernel, by decide +kernel⟩
  intro a h
  refine ⟨?_, fun b m => ?_⟩
  · revert a h
    decide +kernel
  · simp only [List.mem_cons, List.not_mem_nil, or_false] at m
    rcases m with rfl | rfl <;> exact ⟨_, rfl⟩

/-- A copy whose source lies in a marked sector; one whose knot is another worker's; a job's error record where there is no log.
-/
theorem test_hyp_AgentEvents_checks :
    let c := (Tests.furs .W id).copyCmd ⟨0, Tests.on, 0x30, 1, 1, 5, 0⟩ false none
    let s : State := { Tests.furs .W id with copies := [c], badLocal := [⟨0, false, 0x100⟩] }
    (match c.elements c.chunk s with
        | .error (.machine k a) => k == 4 && a == 0x100
        | _ => false) = true ∧
      (s.copies = [] ++ c :: [] ∧ c.failed = false ∧ c.next < c.dst.frame) ∧
      ∀ r, errorRecord ((Tests.plain .W).worker 0) (Tests.plain .W).sauUnit r (Tests.plain .W) = .ok ((), Tests.plain .W) :=
  ⟨by decide +kernel, ⟨rfl, by decide, by decide⟩, fun _ => rfl⟩

/-- An invalidation of an empty range; strands with every kind of pending result to save. -/
theorem test_hyp_ContextEvents_ranges :
    let i := { Tests.plain .S with satinvs := [⟨0, 0x1000, 0x1000, 0, true, 5⟩] }
    (i.satinvs[0]? = some ⟨0, 0x1000, 0x1000, 0, true, 5⟩ ∧ 0x1000 ≤ 0x1000 ∧ 0 < 0x1000) ∧ (i.worker? 0).isSome = true := by
  decide +kernel

/-- A launch with an image for its last bank, and none for the others. -/
theorem test_hyp_RecordsAndDecisions_books :
    let l : Launch := { Launch.zero with books := List.replicate 15 [] ++ [[7]] }
    15 < 16 ∧ l.books[15]? = some [7] ∧ ([7] : List Word) ≠ [] := by
  decide

/-- A worker with a notice that is held; a write of a launch that is about to complete. -/
theorem test_hyp_CompletionsAndPhases_writes :
    let w := fun (h : Bool) => Tests.dev .S [] (fun w => { w with note := some ⟨0x11, 0, 0, none, .S, 0, h⟩ }) id
    let u : Write := ⟨0, .spad 5, 8, 0, .put 0 32 7, some ⟨5, .strand .V⟩, 0, .rc, [], none, [], false⟩
    let s := { Tests.plain .S with writes := [u] }
    (∀ n ∈ ((w true).worker 0).note, n.held = true) ∧ (tabFind s.launches 0).isSome = true ∧ u ∈ s.writes ∧
      u.who.map Who.key = some 5 ∧ 5 / 128 = 0 := by
  decide +kernel

/-- A core with a running worker, one with a saved one, one with neither; a block of a strand; a core whose one worker is done
while its launch goes on. -/
theorem test_hyp_PackageEvents_probes :
    let s : State := { Tests.plain .S with coreUse := [(0, 0)] }
    let a : State := { Tests.plain .S with saveArea := [(3, 0)] }
    let d := { Tests.dev .S [] (fun w => { w with status := .done }) id with coreUse := [(0, 0)] }
    let b : Block := ⟨0x1000000000, 0x1000000010, 2, true⟩
    let t := Tests.dev .V [] (fun w => w.setStrand .V { w.strands.v with stack := [b] }) id
    (tabFind s.coreUse 0 = some 0 ∧ (s.worker? 0).isSome = true) ∧
      (tabFind a.coreUse 3 = none ∧ tabFind a.saveArea 3 = some 0 ∧ (a.worker? 0).isSome = true) ∧
      (tabFind s.coreUse 3 = none ∧ tabFind s.saveArea 3 = none) ∧ (t.wk.strands.get (engOfCode 2)).stack[0]? = some b ∧
      (d.coreEnabled 0 = true ∧ (∀ e ∈ d.workers, e.2.core = 0 → e.2.status = .done) ∧ tabFind d.coreUse 0 = some 0 ∧
        (d.spareCore (dieOf 0)).isSome = true) := by
  decide +kernel

/-- A strand that meets a single-bit error of its registers, and one that meets an uncorrectable one; a held notice. -/
theorem test_hyp_StepRunsDecoded_faults :
    let s := fun (k : Nat) => { Tests.dev .V [] (fun w => { w with note := some ⟨0x11, 0, 0, none, .S, 0, true⟩ }) id with
      agenda := [.strand 0 .V], regFaults := [⟨0, .V, k⟩] }
    let q := fun (k : Nat) => ((s k).enter (.strand 0 .V)).modSt fun t => t.sync ((s k).enter (.strand 0 .V)).wk.spad
    ∀ k ∈ [0, 1, 2], (s k).turn = .strand 0 .V ∧ ((s k).enter (.strand 0 .V)).live = true ∧
      (∀ n ∈ ((s k).enter (.strand 0 .V)).wk.note, n.held = true) ∧ (q k).wk.dueKind .V = .none ∧ (q k).st.held = false ∧
      ((s k).enter (.strand 0 .V)).wk.atEnd .V = false ∧ ((s k).enter (.strand 0 .V)).wk.gated .V = false ∧
      (q k).regFault? = some ⟨0, .V, k⟩ := by
  decide +kernel

/-! ## One instruction on values worked out by hand from the spec -/

/-- Scalar `r` after an instruction of S. -/
def Tests.scalar (i : Instr) (l : Tab Word) (r : Nat) : Word := (Tests.after i (Tests.regs l)).wk.sget r

/-- Wraps modulo 2^64, with a source that is the destination (R87). -/
theorem test_sadd_wraps : Tests.scalar (.sadd Tests.on 6 6 7) [(6, 0xFFFFFFFFFFFFFFFF), (7, 3)] 6 = 2 := by decide

/-- The low half of the table of R88, and −7 / 2 rounded toward zero. -/
theorem test_sdiv_corners :
    Tests.scalar (.sdiv Tests.on 5 6 7) [(6, 9), (7, 0)] 5 = 0xFFFFFFFFFFFFFFFF ∧
      Tests.scalar (.sdiv Tests.on 5 6 7) [(6, 0x8000000000000000), (7, 0xFFFFFFFFFFFFFFFF)] 5 = 0x8000000000000000 ∧
      Tests.scalar (.sdiv Tests.on 5 6 7) [(6, 0xFFFFFFFFFFFFFFF9), (7, 2)] 5 = 0xFFFFFFFFFFFFFFFD := by decide

/-- −7 rem 2 has the sign of sA; a divisor of 0 leaves sA (R88). -/
theorem test_srem_corners :
    Tests.scalar (.srem Tests.on 5 6 7) [(6, 0xFFFFFFFFFFFFFFF9), (7, 2)] 5 = 0xFFFFFFFFFFFFFFFF ∧
      Tests.scalar (.srem Tests.on 5 6 7) [(6, 0xFFFFFFFFFFFFFFF9), (7, 0)] 5 = 0xFFFFFFFFFFFFFFF9 := by decide

/-- High half of (−1)·(−1) signed, and of (2^64 − 1)² unsigned (R87). -/
theorem test_smulh_signs :
    Tests.scalar (.smulh Tests.on 5 6 6) [(6, 0xFFFFFFFFFFFFFFFF)] 5 = 0 ∧
      Tests.scalar (.smulhn Tests.on 5 6 6) [(6, 0xFFFFFFFFFFFFFFFF)] 5 = 0xFFFFFFFFFFFFFFFE := by decide

/-- Shifts count by six bits: 65 shifts by 1 (R87). -/
theorem test_ssra_counts_six_bits :
    Tests.scalar (.ssra Tests.on 5 6 7) [(6, 0x8000000000000000), (7, 65)] 5 = 0xC000000000000000 := by decide

/-- No write where sB is 0 (R87). -/
theorem test_scmov_keeps : Tests.scalar (.scmov Tests.on 5 6 7) [(5, 1), (6, 2), (7, 0)] 5 = 1 := by decide

/-- Guarded off: nothing is written, and the strand goes on (R30). -/
theorem test_sadd_guarded_off :
    Tests.scalar (.sadd Tests.off 5 6 7) [(5, 1), (6, 2), (7, 4)] 5 = 1 ∧
      (Tests.after (.sadd Tests.off 5 6 7) (Tests.regs [])).st.pc = 0x1000000004 := by decide

/-- −1 < 1 signed, not unsigned (R87). -/
theorem test_slt_signed :
    ((Tests.after (.slt Tests.on 3 6 7) (Tests.regs [(6, 0xFFFFFFFFFFFFFFFF), (7, 1)])).view.preds.getLsbD 3) = true ∧
      ((Tests.after (.sltn Tests.on 3 6 7) (Tests.regs [(6, 0xFFFFFFFFFFFFFFFF), (7, 1)])).view.preds.getLsbD 3) = false := by decide

/-- 1.0 + 2^−24 is a tie and goes to the even 1.0; 1.0 + 2^−23 + 2^−24 goes up to even (R90, R69). -/
theorem test_sfadd_ties :
    Tests.scalar (.sfadd Tests.on 5 6 7) [(6, 0x3F800000), (7, 0x33800000)] 5 = 0x3F800000 ∧
      Tests.scalar (.sfadd Tests.on 5 6 7) [(6, 0x3F800001), (7, 0x33800000)] 5 = 0x3F800002 := by decide +kernel

/-- −1.5 truncates to −1; a NaN gives 0; +∞ the largest (R90). -/
theorem test_scvtfi :
    Tests.scalar (.scvtfi Tests.on 5 6) [(6, 0xBFC00000)] 5 = 0xFFFFFFFFFFFFFFFF ∧
      Tests.scalar (.scvtfi Tests.on 5 6) [(6, 0x7FC00000)] 5 = 0 ∧
      Tests.scalar (.scvtfi Tests.on 5 6) [(6, 0x7F800000)] 5 = 0x7FFFFFFFFFFFFFFF := by decide +kernel

/-- A guarded-off push pushes zero (R30, R98). -/
theorem test_sqpush_guarded_off :
    (Tests.after (.sqpush Tests.off 6) (Tests.regs [(6, 7)])).wk.q14 = [0] ∧
      (Tests.after (.sqpush Tests.on 6) (Tests.regs [(6, 7)])).wk.q14 = [7] := by decide

/-- A byte store and a sign-extending byte load of the own scratchpad; the next byte stays (R95). -/
theorem test_sst_sld_bytes :
    let s := Tests.regs [(6, 0x01F0000000000100), (7, 0x1FE)]
    let t := Tests.after (.sst ⟨Tests.on, 7, 6, 0, 0xFFFFFFFF⟩) s
    t.wk.spad.read 0xFF = 0xFE ∧ t.wk.spad.read 0x100 = 0 := by decide +kernel

/-- The registers that the strand in turn has pending. -/
def Tests.pending (s : State) : List (Nat × VReg) :=
  s.st.pend.flatMap fun p => p.acts.flatMap fun a =>
    match a with
    | .vregs l => l
    | _ => []

/-- The example of R109: `viadd.i32.m0 v9, v2, 0` leaves 20 pending for slots 0 to 7 and v9's old 5 for the others. -/
theorem test_viadd_merges :
    let fill := fun (n : Nat) => (⟨BitVec.ofNat 262144 (packSlots 32 (List.replicate 16 n)), 0, none, .lost⟩ : VReg)
    let s := Tests.vec .V ⟨16, 1, 1, 1⟩ 32 (fun w => { w with vregs := [(2, fill 20), (9, fill 5)], masks := [(0, 0x00FF)] })
    let l := Tests.pending (Tests.after (.viadd ⟨0, Tests.on, 0x000, 9, 2, 0xE0, 0⟩) s)
    l.map Prod.fst = [9] ∧
      (l.map fun e => (List.range 16).map (slotOf e.2.data.toNat 32)) = [List.replicate 8 20 ++ List.replicate 8 5] := by decide +kernel

/-- The second line of the example of R155: slot 19 reads BASE + 0x9C, slot 4 is out of frame, the map is the one printed there,
and POS stands at END, 40. -/
theorem test_ldv_example :
    let f : Furrow := { Furrow.reset with base := 0x01F0000000000400, ext := ⟨20, 2, 1, 1⟩, st := ⟨4, 80, 0, 0⟩, pos := ⟨16, 0, 0, 0⟩ }
    let s := Tests.vec .L ⟨16, 2, 1, 1⟩ 32 fun w =>
      { (w.setStrand .L { w.strands.l with view := { w.strands.l.view with furrows := [(2, f)] } }) with
        spad := (w.spad.writeBytes 0x49C [0xAB]).writeBytes 0x450 [0xCD] }
    let t := Tests.after (.ldv ⟨0, Tests.on, 0x7F8, 2, 2, 0, 0⟩) s
    let l := Tests.pending t
    l.map Prod.fst = [2] ∧ (l.map fun e => slotOf e.2.data.toNat 32 19) = [0xAB] ∧ (l.map fun e => slotOf e.2.data.toNat 32 4) = [0] ∧
      (l.map fun e => e.2.map.words) =
        [[0x0001000200100001, 0x0700070001010001, 0x10, 0, 0x0000000200000014, 0x0000000100000001]] ∧
      (t.view.furrow 2).atEnd = true := by decide +kernel

end Sys2Proof
end

section
/-! PROOFS. Chapter 07: scalar division (R88) and the hints of S (R94). -/
namespace Sys2Proof.Machine

/-! ## Scalar division (R88) -/

/-- An S32 operation of two scalars whose guard lets it execute writes its result at once; it neither waits nor traps. -/
theorem alu2_wroteS {g : Guard} {d a b : BitVec 5} {f : Word → Word → Word} {s : State} (h : Turn.Ready .S s)
    (hg : s.view.guard g = true) :
    alu2 g d a b f s = .next (s.wroteS 2 d (f (s.wk.sget a.toNat) (s.wk.sget b.toNat))) :=
  runS_wrote h hg

@[simp] theorem sdivOf_zero (x : Word) : sdivOf x 0 = BitVec.ofInt 64 (-1) := if_pos rfl
@[simp] theorem sdivnOf_zero (x : Word) : sdivnOf x 0 = BitVec.ofNat 64 (2 ^ 64 - 1) := if_pos rfl
@[simp] theorem sremOf_zero (x : Word) : sremOf x 0 = x := if_pos rfl
@[simp] theorem sremnOf_zero (x : Word) : sremnOf x 0 = x := if_pos rfl

theorem ne_zero_of_toInt_eq_neg_one {y : Word} (hy : y.toInt = -1) : y ≠ 0 := by
  rintro rfl
  exact absurd hy (by decide)

/-- The one quotient that does not fit, 2^63, wraps to −2^63. -/
theorem sdivOf_overflow {x y : Word} (hx : x.toInt = -2 ^ 63) (hy : y.toInt = -1) : sdivOf x y = BitVec.ofInt 64 (-2 ^ 63) := by
  rw [sdivOf, if_neg (ne_zero_of_toInt_eq_neg_one hy), hx, hy]
  decide

theorem sremOf_overflow {x y : Word} (hx : x.toInt = -2 ^ 63) (hy : y.toInt = -1) : sremOf x y = 0 := by
  rw [sremOf, if_neg (ne_zero_of_toInt_eq_neg_one hy), hx, hy]
  decide

/-- Settles O1: each division is an S32 operation, which always writes; its function's values in the corners are R88's. -/
theorem divisionNeverFaults : Obligations.DivisionNeverFaults := by
  unfold Obligations.DivisionNeverFaults
  intro s g d a b hready hguard x y gives
  have hdiv : gives (.sdiv g d a b) (sdivOf x y) := alu2_wroteS hready hguard
  have hdivn : gives (.sdivn g d a b) (sdivnOf x y) := alu2_wroteS hready hguard
  have hrem : gives (.srem g d a b) (sremOf x y) := alu2_wroteS hready hguard
  have hremn : gives (.sremn g d a b) (sremnOf x y) := alu2_wroteS hready hguard
  refine ⟨fun hy => ?byZero, fun hx hy => ?overflow, fun i hi => ?completes⟩
  case byZero =>
    rw [hy] at hdiv hdivn hrem hremn
    exact ⟨sdivOf_zero x ▸ hdiv, sdivnOf_zero x ▸ hdivn, sremOf_zero x ▸ hrem, sremnOf_zero x ▸ hremn⟩
  case overflow => exact ⟨sdivOf_overflow hx hy ▸ hdiv, sremOf_overflow hx hy ▸ hrem⟩
  case completes =>
    simp only [List.mem_cons, List.not_mem_nil, or_false] at hi
    obtain rfl | rfl | rfl | rfl := hi
    · exact ⟨_, hdiv⟩
    · exact ⟨_, hdivn⟩
    · exact ⟨_, hrem⟩
    · exact ⟨_, hremn⟩

/-! ## Hints (R94) -/

/-- `nop` and `spin` are this: an S word of one parcel that only steps on. -/
theorem runS_nothing {s : State} (h : Turn.Ready .S s) : runS 1 none M.nothing M.nothing s = .next (s.afterS 1 0 []) :=
  runS_noneOk h (m_nothing s)

/-- `yield` waits only while the insertion of keys delays a request; else it steps on and, with a request pending, the worker
stops at its boundary (R318, log 44). -/
theorem execYield_boundary {s : State} (h : Turn.Ready .S s) (ha : (!s.wk.preempt || s.wk.insertion.isNone) = true) :
    execYield s = .next ((s.setWk (if s.wk.preempt then { s.wk with status := .stopped } else s.wk)).afterS 1 0 []) :=
  runS_noneOk h (by simp only [m_bind, ha, m_await_true, m_work, m_pure])

theorem execYield_idle {s : State} (h : Turn.Ready .S s) (hp : s.wk.preempt = false) :
    execYield s = .next (s.afterS 1 0 []) := by
  have hkeep : (s.setWk s.wk).afterS 1 0 [] = s.afterS 1 0 [] := by simp [State.afterS]
  simpa [hp, hkeep] using execYield_boundary h (by simp [hp])

theorem execYield_preempt {s : State} (h : Turn.Ready .S s) (hp : s.wk.preempt = true) (hi : s.wk.insertion = none) :
    execYield s = .next ((s.setWk { s.wk with status := .stopped }).afterS 1 0 []) := by
  simpa only [hp, if_true] using execYield_boundary h (by simp [hi])

/-- What an S word that leaves nothing pending does to S's strand: it counts toward the shadows and stands at the next word. -/
theorem afterS_nil_strand (s : State) (len : Nat) :
    (s.afterS len 0 []).wk.strands.s =
      { s.wk.strands.s with
        pend := s.wk.strands.s.pend.map fun p => { p with count := p.count - 1 }
        pc := s.wk.strands.s.pc + BitVec.ofNat 57 (2 * len)
        pos := s.wk.strands.s.pos + len } := by
  rw [State.afterS, setWk_wk]
  exact (setStrand_get _ .S _).trans (by simp [Strand.stepped])

/-- Settles O20: the hints are S words of one parcel without a guard. That `yield` stops the worker, with no trap of its own, is
log 44's reading of R94, R312 and R318. -/
theorem hints : Obligations.Hints := by
  unfold Obligations.Hints
  intro s hready
  exact ⟨runS_nothing hready, runS_nothing hready, execYield_idle hready, execYield_preempt hready, afterS_nil_strand s 1⟩

end Sys2Proof.Machine
end

section
/-! PROOF. Decoding and encoding agree: each instruction with words is what the table of its format reads from its fields, and
what a table reads from a word's fields encodes to that word (R47 to R58). -/
namespace Sys2Proof
open Sys2Proof.Machine

/-! ## Every instruction has its place in the table of a format -/

theorem headlandInstr_plain (b : BitVec 11) (r : Bool) (n : BitVec 14) :
    headlandInstr (0b10101#5 ++ b) (BitVec.ofBool r ++ 0#1 ++ n) = some (.headland b r n) := by
  obtain ⟨-, -, hn⟩ := cat3_fields (BitVec.ofBool r) 0#1 n
  have h14 : (BitVec.ofBool r ++ 0#1 ++ n : Parcel).getLsbD 14 = false := by simp only [BitVec.getLsbD_append]; simp
  have h15 : (BitVec.ofBool r ++ 0#1 ++ n : Parcel).getLsbD 15 = r := by simp only [BitVec.getLsbD_append]; simp
  simp only [headlandInstr, h14, h15, Bool.false_eq_true, if_false, (head_p0 b).2.2, hn]

theorem headlandInstr_counted (b : BitVec 11) (r : Bool) (c : BitVec 5) :
    headlandInstr (0b10101#5 ++ b) (BitVec.ofBool r ++ 1#1 ++ 0#9 ++ c) = some (.headlandCounted b r c) := by
  obtain ⟨-, -, hz, hc⟩ := cat4_fields (BitVec.ofBool r) 1#1 0#9 c
  have h14 : (BitVec.ofBool r ++ 1#1 ++ 0#9 ++ c : Parcel).getLsbD 14 = true := by simp only [BitVec.getLsbD_append]; simp
  have h15 : (BitVec.ofBool r ++ 1#1 ++ 0#9 ++ c : Parcel).getLsbD 15 = r := by simp only [BitVec.getLsbD_append]; simp
  simp only [headlandInstr, h14, h15, if_true, (head_p0 b).2.2, hz, hc]
  rfl

/-- The formats (R48 to R51, R18): the table of a format reads the instruction from the fields of a word. -/
inductive InFormat : Instr → Prop
  | step {i} (h : encode i = []) : InFormat i
  | c16 {i op arg} (he : encode i = [c16 op arg]) (hop : op < 32) (h : c16Instr op arg = some i) : InFormat i
  | s32 {i op g d a b} (he : encode i = s32 op g d a b) (hop : op < 128)
      (h : ∀ p : Parcel, p.extractLsb' 10 5 = d → p.extractLsb' 5 5 = a → p.extractLsb' 0 5 = b →
        s32Instr op g p = some i) : InFormat i
  | s32i {i op g d x} (he : encode i = s32i op g d x) (hop : op < 128)
      (h : ∀ p : Parcel, p.extractLsb' 10 5 = d → p.extractLsb' 0 10 = x → s32Instr op g p = some i) : InFormat i
  | s32p {i op g d q x} (he : encode i = s32i op g d (q ++ x)) (hop : op < 128)
      (h : ∀ p : Parcel, p.extractLsb' 10 5 = d → p.extractLsb' 6 4 = q → p.extractLsb' 0 6 = x →
        s32Instr op g p = some i) : InFormat i
  | s64 {i op f} (he : encode i = s64 op f) (hop : op < 128) (h : s64Instr op f = some i) : InFormat i
  | e64 {i e op f} (he : encode i = e64 (engNo e) op f) (hop : op < 128) (h : e64Instr e op f = some i) : InFormat i
  | headland {i} {b : BitVec 11} {p} (h : headlandInstr (0b10101#5 ++ b) p = some i) : InFormat i

theorem inFormat (i : Instr) : InFormat i := by
  cases i with
  | nop | exit | ret | eret | settle | yield | spin =>
    exact .c16 rfl (by decide) rfl
  | brk c => exact .c16 rfl (by decide) rfl
  | fence k s => exact .c16 rfl (by decide) (c16_fence k s)
  | sadd g d a b | ssub g d a b | smul g d a b | smulh g d a b | smulhn g d a b | sdiv g d a b | sdivn g d a b | srem g d a b
    | sremn g d a b | sand g d a b | sor g d a b | sxor g d a b | sandn g d a b | sshl g d a b | sshr g d a b | ssra g d a b
    | smin g d a b | smax g d a b | sminn g d a b | smaxn g d a b | seq g d a b | sne g d a b | slt g d a b | sltn g d a b
    | sle g d a b | slen g d a b | pand g d a b | por g d a b | pxor g d a b | pandn g d a b | scmov g d a b | sfadd g d a b
    | sfsub g d a b | sfmul g d a b | sfmin g d a b | sfmax g d a b | sflt g d a b | sfeq g d a b | sfle g d a b =>
    exact .s32 rfl (by decide) fun p hd ha hb => hd ▸ ha ▸ hb ▸ rfl
  | sclz g d a | spopc g d a | scvtif g d a | scvtfi g d a | kadd g d a | kwait g d a | kread g d a | kset g d a =>
    exact .s32 rfl (by decide) fun p hd ha hb => hd ▸ ha ▸ if_pos (by simp [hb])
  | jmpr g a | callr g a | sqpush g a =>
    exact .s32 rfl (by decide) fun p hd ha hb => ha ▸ if_pos (by simp [hd, hb])
  | sqpop g d | sqfree g d | stask g d =>
    exact .s32 rfl (by decide) fun p hd ha hb => hd ▸ if_pos (by simp [ha, hb])
  | stok g | stokw g | scommit g | sdtrig g | sdwait g | smbend g =>
    exact .s32 rfl (by decide) fun p hd ha hb => if_pos (by simp [hd, ha, hb])
  | csrr g d c | csrw g d c | csrs g d c | csrc g d c | saddi g d i | sli g d i | slui g d i | sandi g d i | sori g d i
    | sxori g d i | sshli g d i | sshri g d i | ssrai g d i | kaddi g d i | kwaiti g d i =>
    exact .s32i rfl (by decide) fun p hd hx => hd ▸ hx ▸ rfl
  | sgsync g c | sgarr g c | strap g c =>
    exact .s32i rfl (by decide) fun p hd hx => hx ▸ if_pos (by simp [hd])
  | seqi g d p i | slti g d p i | sltni g d p i =>
    exact .s32p rfl (by decide) fun q hd hp hx => hd ▸ hp ▸ hx ▸ rfl
  | sld f | sst f | samo f | br f | call f | sli32 f | saddi32 f | sfset f | szset f | shset f | sshape f | sbkj f
    | slaunch f | slaydef f | satinv f =>
    exact .s64 rfl (by decide) rfl
  | ldv f | ldq f | lgth f | lbc f | lpre f | ladv f | lrst f | lcbld f | lcbsw f | lmsk f | lkadd f | lkwait f | lnop f =>
    exact .e64 (e := .L) rfl (by decide) rfl
  | vadd f | vsub f | vmul f | vfma f | vfms f | vfnma f | vmin f | vmax f | vabs f | vneg f | vdiv f | vsqrt f | vrcp f
    | vrsq f | vexp2 f | vlog2 f | vtanh f | vsincos f | vrot f | viadd f | visub f | vimul f | vimulh f | viand f | vior f
    | vixor f | vishl f | vishr f | visra f | vimin f | vimax f | vipopc f | vcvt f | vqnt f | vdq f | vcmp f | vsel f
    | mand f | mor f | mxor f | mnot f | mcnt f | vpset f | vcrd f | vmap f | vmapq f | vnoise f | vgbias f | vmov f
    | vslice f | vtrn f | vresh f | vperm f | vcompact f | vexpand f | vbcast f | vshift f | vrsum f | vrmax f | vrmin f
    | vrargmax f | vscan f | vxscan f | vcadd f | vatmrg f | vkadd f | vkwait f | vnop f =>
    exact .e64 (e := .V) rfl (by decide) rfl
  | mzclr f | mldb f | mswap f | mmul f | mrank f | mrdz f | mzcnt f | shins f | shmrg f | shrd f | shclr f | mkadd f
    | mkwait f | mnop f =>
    exact .e64 (e := .M) rfl (by decide) rfl
  | wst f | wstq f | wsct f | wamo f | wcadd f | wcpy f | wcpyx f | wsend f | wattd f | watts f | wflush f | wmsk f | wkadd f
    | wkwait f | wnop f =>
    exact .e64 (e := .W) rfl (by decide) rfl
  | headland b r n => exact .headland (headlandInstr_plain b r n)
  | headlandCounted b r c => exact .headland (headlandInstr_counted b r c)
  | _ => exact .step rfl

/-! ## What a table reads from a word encodes to that word -/

theorem split3 (p : Parcel) (a b c : Nat) (h : a + b + c = 16) :
    (p.extractLsb' (b + c) a ++ p.extractLsb' c b ++ p.extractLsb' 0 c).cast h = p := by
  apply BitVec.eq_of_getLsbD_eq
  intro i hi
  simp only [BitVec.getLsbD_cast, BitVec.getLsbD_append, BitVec.getLsbD_extractLsb']
  by_cases h1 : i < c
  · simp [h1]
  · by_cases h2 : i - c < b
    · simp only [if_neg h1, h2, if_true, decide_true, Bool.true_and]
      congr 1
      omega
    · simp only [if_neg h1, if_neg h2, show i - c - b < a by omega, decide_true, Bool.true_and]
      congr 1
      omega

theorem of_ite_some {α : Type} {c : Bool} {x y : α} (h : (if c then some x else none) = some y) : c = true ∧ x = y := by
  cases c with
  | false => cases h
  | true => exact ⟨rfl, Option.some.inj h⟩

theorem encode_of_e64Instr {e : Eng} {op : Nat} {f : E64} {i : Instr} (h : e64Instr e op f = some i) :
    encode i = e64 (engNo e) op f := by
  unfold e64Instr at h
  split at h
  · cases h
  all_goals (split at h <;> cases h <;> rfl)

theorem encode_of_s64Instr {op : Nat} {f : S64} {i : Instr} (h : s64Instr op f = some i) : encode i = s64 op f := by
  unfold s64Instr at h
  split at h <;> cases h <;> rfl

theorem split6 (x : BitVec 6) : (x.extractLsb' 3 3 ++ x.extractLsb' 0 3) = x := by
  apply BitVec.eq_of_getLsbD_eq
  intro i hi
  simp only [BitVec.getLsbD_append, BitVec.getLsbD_extractLsb']
  by_cases h1 : i < 3
  · simp [h1]
  · simp only [if_neg h1, show i - 3 < 3 by omega, decide_true, Bool.true_and]
    congr 1
    omega

theorem encode_of_c16Instr {op : Nat} {arg : BitVec 6} {i : Instr} (h : c16Instr op arg = some i) :
    encode i = [c16 op arg] := by
  unfold c16Instr at h
  split at h
  case h_1 => exact Option.some.inj h ▸ rfl
  case h_2 => exact Option.some.inj h ▸ congrArg (fun a => [c16 3 a]) (split6 arg)
  case h_10 => cases h
  all_goals
    obtain ⟨hz, rfl⟩ := of_ite_some h
    obtain rfl := beq_iff_eq.mp hz
    rfl

section
variable {op : Nat} {g : Guard} {p : Parcel}

theorem s32_word {d a b : BitVec 5} (hg : p.getLsbD 15 = g.gn) (hd : p.extractLsb' 10 5 = d) (ha : p.extractLsb' 5 5 = a)
    (hb : p.extractLsb' 0 5 = b) : s32 op g d a b = [0b00001#5 ++ BitVec.ofNat 7 op ++ g.gp, p] := by
  rw [s32, ← hg, ← hd, ← ha, ← hb, p1_split]

theorem s32i_word {d : BitVec 5} {x : BitVec 10} (hg : p.getLsbD 15 = g.gn) (hd : p.extractLsb' 10 5 = d)
    (hx : p.extractLsb' 0 10 = x) : s32i op g d x = [0b00001#5 ++ BitVec.ofNat 7 op ++ g.gp, p] := by
  rw [s32i, ← hg, ← hd, ← hx, p1i_split]

theorem low10_pred (p : Parcel) : p.extractLsb' 0 10 = p.extractLsb' 6 4 ++ p.extractLsb' 0 6 := by
  apply BitVec.eq_of_getLsbD_eq
  intro i hi
  simp only [BitVec.getLsbD_append, BitVec.getLsbD_extractLsb']
  by_cases h1 : i < 6
  · simp [h1, hi]
  · simp only [if_neg h1, show i - 6 < 4 by omega, hi, decide_true, Bool.true_and]
    congr 1
    omega

/-- The second parcel is rebuilt from the fields that the opcode uses, the others being zero. -/
theorem encode_of_s32Instr {i : Instr} (hg : p.getLsbD 15 = g.gn) (h : s32Instr op g p = some i) :
    encode i = [0b00001#5 ++ BitVec.ofNat 7 op ++ g.gp, p] := by
  unfold s32Instr at h
  split at h
  case h_1 | h_2 | h_3 | h_4 | h_5 | h_6 | h_7 | h_8 | h_9 | h_10 | h_11 | h_12 | h_13 | h_14 | h_15 | h_16 | h_17 | h_18
      | h_19 | h_20 | h_21 | h_22 | h_23 | h_24 | h_25 | h_26 | h_27 | h_28 | h_29 | h_30 | h_33 | h_36 | h_37 | h_38
      | h_39 | h_40 | h_41 | h_42 | h_43 =>
    exact Option.some.inj h ▸ s32_word hg rfl rfl rfl
  case h_31 | h_32 | h_44 | h_45 | h_55 | h_56 | h_57 | h_58 =>
    obtain ⟨hz, rfl⟩ := of_ite_some h
    exact s32_word hg rfl rfl (beq_iff_eq.mp hz)
  case h_34 | h_35 | h_50 =>
    obtain ⟨hz, rfl⟩ := of_ite_some h
    simp only [Bool.and_eq_true, beq_iff_eq] at hz
    exact s32_word hg hz.1 rfl hz.2
  case h_51 | h_52 | h_61 =>
    obtain ⟨hz, rfl⟩ := of_ite_some h
    simp only [Bool.and_eq_true, beq_iff_eq] at hz
    exact s32_word hg rfl hz.1 hz.2
  case h_53 | h_54 | h_62 | h_63 | h_64 | h_66 =>
    obtain ⟨hz, rfl⟩ := of_ite_some h
    simp only [Bool.and_eq_true, beq_iff_eq] at hz
    exact s32_word hg hz.1.1 hz.1.2 hz.2
  case h_46 | h_47 | h_48 | h_49 | h_67 | h_68 | h_69 | h_70 | h_71 | h_72 | h_73 | h_74 | h_75 | h_79 | h_80 =>
    exact Option.some.inj h ▸ s32i_word hg rfl rfl
  case h_59 | h_60 | h_65 =>
    obtain ⟨hz, rfl⟩ := of_ite_some h
    exact s32i_word hg (beq_iff_eq.mp hz) rfl
  case h_76 | h_77 | h_78 =>
    exact Option.some.inj h ▸ s32i_word hg rfl (low10_pred p)
  case h_81 => cases h

end

/-- A C16 word is rebuilt from its fields. -/
theorem c16_back {p0 : Parcel} (he : engOf p0 = 0) (hl : lenOf p0 = some 1) :
    c16 (p0.extractLsb' 6 5).toNat (p0.extractLsb' 0 6) = p0 := by
  obtain ⟨h13, h11⟩ := eng_len p0 0 1 he hl
  have hp : (p0.extractLsb' 13 3 ++ p0.extractLsb' 11 2 ++ p0.extractLsb' 6 5 ++ p0.extractLsb' 0 6 : Parcel) = p0 :=
    split4 p0 3 2 5 6 rfl
  rw [h13, h11] at hp
  rw [c16, BitVec.ofNat_toNat, BitVec.setWidth_eq]
  exact hp

/-- The first parcel of a headland is rebuilt from its body length. -/
theorem headland_back {p0 : Parcel} (he : engOf p0 = 5) (hl : lenOf p0 = some 2) : 0b10101#5 ++ p0.extractLsb' 0 11 = p0 := by
  obtain ⟨h13, h11⟩ := eng_len p0 5 2 he hl
  have hp : (p0.extractLsb' 13 3 ++ p0.extractLsb' 11 2 ++ p0.extractLsb' 0 11 : Parcel) = p0 :=
    split3 p0 3 2 11 rfl
  rw [h13, h11] at hp
  exact hp

theorem ofBool_get14 (p : Parcel) : BitVec.ofBool (p.getLsbD 14) = p.extractLsb' 14 1 := by
  apply BitVec.eq_of_getLsbD_eq
  intro i hi
  obtain rfl : i = 0 := by omega
  simp

theorem encode_of_headlandInstr {p0 p1 : Parcel} {i : Instr} (he : engOf p0 = 5) (hl : lenOf p0 = some 2)
    (h : headlandInstr p0 p1 = some i) : encode i = [p0, p1] := by
  have hp0 := headland_back he hl
  have hcnt := ofBool_get14 p1
  unfold headlandInstr at h
  dsimp only at h
  split at h
  case isTrue h14 =>
    obtain ⟨hz, rfl⟩ := of_ite_some h
    have hp1 : (p1.extractLsb' 15 1 ++ p1.extractLsb' 14 1 ++ p1.extractLsb' 5 9 ++ p1.extractLsb' 0 5 : Parcel) = p1 :=
    split4 p1 1 1 9 5 rfl
    rw [← ofBool_get, ← hcnt, h14, beq_iff_eq.mp hz] at hp1
    exact congrArg₂ (fun a b => [a, b]) hp0 hp1
  case isFalse h14 =>
    obtain rfl := Option.some.inj h
    have hp1 : (p1.extractLsb' 15 1 ++ p1.extractLsb' 14 1 ++ p1.extractLsb' 0 14 : Parcel) = p1 :=
    split3 p1 1 1 14 rfl
    rw [← ofBool_get, ← hcnt, Bool.eq_false_iff.mpr h14] at hp1
    exact congrArg₂ (fun a b => [a, b]) hp0 hp1

/-! ## Both directions -/

/-- The words of a well-formed instruction decode to it, format by format. -/
theorem decodeParcels_encode {i : Instr} (hw : i.wellFormed = true) (hne : encode i ≠ []) :
    decodeParcels (encode i) = .instr i := by
  cases inFormat i with
  | step h => exact absurd h hne
  | c16 he hop h => exact he ▸ decode_c16 _ _ i hop h hw
  | @s32 op g d a b he hop h =>
    obtain ⟨hgn, hd, ha, hb⟩ := p1_fields g.gn d a b
    exact he ▸ decode_s32w op g _ i hop hgn (h _ hd ha hb) hw
  | @s32i op g d x he hop h =>
    obtain ⟨hgn, hd, hx⟩ := p1i_fields g.gn d x
    exact he ▸ decode_s32w op g _ i hop hgn (h _ hd hx) hw
  | @s32p op g d q x he hop h =>
    obtain ⟨hgn, hd, hq, hx⟩ := sub_fields g.gn d q x
    exact he ▸ decode_s32w op g _ i hop hgn (h _ hd hq hx) hw
  | s64 he hop h => exact he ▸ decode_s64 _ _ i hop h hw
  | @e64 e op f he hop h =>
    have hS : e ≠ .S := by rintro rfl; cases h
    exact he ▸ decode_e64 e op f i hS hop h hw
  | @headland b p h => exact encode_of_headlandInstr (head_p0 b).1 (head_p0 b).2.1 h ▸ decode_headw b p i h hw

/-- What R47 allows: S with any length, another engine with four parcels, a headland with two. -/
theorem formatLegal_cases {p0 : Parcel} {n : Nat} (hf : formatLegal p0 = true) (hl : lenOf p0 = some n) :
    engOf p0 = 0 ∨ (∃ e, e ≠ .S ∧ engOf p0 = engNo e ∧ n = 4) ∨ engOf p0 = 5 ∧ n = 2 := by
  unfold formatLegal at hf
  rw [hl] at hf
  split at hf
  case h_1 he _ => exact .inl he
  case h_2 he hn => exact .inr (.inl ⟨.L, by decide, he, Option.some.inj hn⟩)
  case h_3 he hn => exact .inr (.inl ⟨.V, by decide, he, Option.some.inj hn⟩)
  case h_4 he hn => exact .inr (.inl ⟨.M, by decide, he, Option.some.inj hn⟩)
  case h_5 he hn => exact .inr (.inl ⟨.W, by decide, he, Option.some.inj hn⟩)
  case h_6 he hn => exact .inr (.inr ⟨he, Option.some.inj hn⟩)
  case h_7 => cases hf

theorem engine_of_engNo {p0 : Parcel} {e : Eng} (h : engOf p0 = engNo e) : engine p0 = some e := by
  unfold engine
  rw [h]
  cases e <;> rfl

/-- The parcels that an instruction was read from are its words. -/
theorem encode_of_rawInstr {p0 p1 p2 p3 : Parcel} {i : Instr} {n : Nat} (hf : formatLegal p0 = true) (hl : lenOf p0 = some n)
    (h : rawInstr p0 p1 p2 p3 = some i) : encode i = [p0, p1, p2, p3].take n := by
  unfold rawInstr at h
  dsimp only at h
  obtain he | ⟨e, hS, he, rfl⟩ | ⟨he, rfl⟩ := formatLegal_cases hf hl
  · rw [engine_of_engNo (e := .S) he, hl] at h
    obtain rfl | rfl | rfl := len_cases hl
    · exact (encode_of_c16Instr h).trans (congrArg (fun p => [p]) (c16_back he hl))
    · exact (encode_of_s32Instr rfl h).trans (congrArg (fun p => [p, p1]) (s32_back0 he hl rfl))
    · exact (encode_of_s64Instr h).trans (s64_back he hl rfl)
  · rw [engine_of_engNo he] at h
    have h' : e64Instr e (p0.extractLsb' 4 7).toNat (e64Fields p0 p1 p2 p3) = some i := by
      cases e <;> first | exact h | exact absurd rfl hS
    exact (encode_of_e64Instr h').trans (e64_back he hl rfl)
  · have hx : engine p0 = none := by unfold engine; rw [he]; rfl
    rw [hx] at h
    exact encode_of_headlandInstr he hl h

/-- Settles O59: forward, each format's table reads the instruction from its words; back, the words are rebuilt from the fields
that the table reads. -/
theorem decodeAndEncodeAgree : Obligations.DecodeAndEncodeAgree := by
  unfold Obligations.DecodeAndEncodeAgree
  refine ⟨fun i p0 r hw he => ?_, fun p0 p1 p2 p3 i n hl hd => ?_⟩
  · rw [← he]
    exact decodeParcels_encode hw (by rw [he]; exact List.cons_ne_nil _ _)
  · unfold decode at hd
    split at hd
    case isFalse => cases hd
    case isTrue hf =>
      split at hd
      case h_1 j hj =>
        obtain ⟨rfl, hw⟩ := judge_inv hd
        exact ⟨hw, encode_of_rawInstr hf hl hj⟩
      case h_2 => cases hd

end Sys2Proof
end

section
/-! PROOF. The integer, immediate and compare instructions of S: each is one of the shared operations of chapter 07 with the
function that R87 to R89 state (O2, O3, O5). -/
namespace Sys2Proof.Machine
open Sys2Proof

/-! ## The functions of R87 to R89 as arithmetic on the numbers behind the words -/

section
variable (x y : Word)

theorem add_eq_ofNat : x + y = BitVec.ofNat 64 (x.toNat + y.toNat) :=
  BitVec.eq_of_toNat_eq (by simp only [BitVec.toNat_add, BitVec.toNat_ofNat])

theorem sub_eq_ofInt : x - y = BitVec.ofInt 64 (x.toInt - y.toInt) :=
  BitVec.eq_of_toInt_eq (by simp only [BitVec.toInt_sub, BitVec.toInt_ofInt])

theorem mul_eq_ofNat : x * y = BitVec.ofNat 64 (x.toNat * y.toNat) :=
  BitVec.eq_of_toNat_eq (by simp only [BitVec.toNat_mul, BitVec.toNat_ofNat])

theorem ofInt_neg_one_eq_allOnes : BitVec.ofInt 64 (-1) = BitVec.allOnes 64 := by decide

theorem shAmt_eq : shAmt y = y.toNat % 64 := by simp [shAmt, bits]

theorem shiftLeft_eq_ofNat (n : Nat) : x <<< n = BitVec.ofNat 64 (x.toNat * 2 ^ n) :=
  BitVec.eq_of_toNat_eq (by simp only [BitVec.toNat_shiftLeft, BitVec.toNat_ofNat, Nat.shiftLeft_eq])

theorem ushiftRight_eq_ofNat (n : Nat) : x >>> n = BitVec.ofNat 64 (x.toNat / 2 ^ n) := by
  refine BitVec.eq_of_toNat_eq ?_
  have : x.toNat / 2 ^ n < 2 ^ 64 := (Nat.div_le_self _ _).trans_lt x.isLt
  rw [BitVec.toNat_ushiftRight, BitVec.toNat_ofNat, Nat.shiftRight_eq_div_pow, Nat.mod_eq_of_lt this]

theorem sshiftRight_eq_ofInt (n : Nat) : x.sshiftRight n = BitVec.ofInt 64 (x.toInt / 2 ^ n) := by
  rw [← BitVec.ofInt_toInt (x := x.sshiftRight n), BitVec.toInt_sshiftRight, Int.shiftRight_eq_div_pow]
  norm_cast

theorem pick_slt_min : (if x.slt y then x else y) = BitVec.ofInt 64 (min x.toInt y.toInt) := by
  simp only [BitVec.slt_iff_toInt_lt]
  split
  · rw [min_eq_left (by omega), BitVec.ofInt_toInt]
  · rw [min_eq_right (by omega), BitVec.ofInt_toInt]

theorem pick_slt_max : (if x.slt y then y else x) = BitVec.ofInt 64 (max x.toInt y.toInt) := by
  simp only [BitVec.slt_iff_toInt_lt]
  split
  · rw [max_eq_right (by omega), BitVec.ofInt_toInt]
  · rw [max_eq_left (by omega), BitVec.ofInt_toInt]

theorem pick_ult_min : (if x < y then x else y) = BitVec.ofNat 64 (min x.toNat y.toNat) := by
  simp only [BitVec.lt_def]
  split
  · rw [min_eq_left (by omega), BitVec.ofNat_toNat, BitVec.setWidth_eq]
  · rw [min_eq_right (by omega), BitVec.ofNat_toNat, BitVec.setWidth_eq]

theorem pick_ult_max : (if x < y then y else x) = BitVec.ofNat 64 (max x.toNat y.toNat) := by
  simp only [BitVec.lt_def]
  split
  · rw [max_eq_right (by omega), BitVec.ofNat_toNat, BitVec.setWidth_eq]
  · rw [max_eq_left (by omega), BitVec.ofNat_toNat, BitVec.setWidth_eq]

theorem leadingZeros_eq : BitVec.ofNat 64 (64 - bitLen x.toNat) = if x = 0 then 64 else BitVec.ofNat 64 (63 - Nat.log2 x.toNat) := by
  unfold bitLen
  by_cases h : x = 0
  · simp [h]
  · have hx : x.toNat ≠ 0 := fun e => h (BitVec.eq_of_toNat_eq (by simpa using e))
    rw [if_neg hx, if_neg h]
    congr 1
    omega

theorem popcount_eq_countP (n v : Nat) : popcount n v = (List.range n).countP v.testBit := by
  induction n with
  | zero => rfl
  | succ n ih =>
    rw [popcount, ih, List.range_succ, List.countP_append]
    cases h : v.testBit n <;> simp [ofBool, h, Nat.add_comm]

theorem shiftIn_eq_ofNat (i : BitVec 10) : x <<< 10 ||| i.zeroExtend 64 = BitVec.ofNat 64 (x.toNat * 2 ^ 10 + i.toNat) := by
  have hi : i.toNat < 2 ^ 10 := i.isLt
  refine BitVec.eq_of_toNat_eq ?_
  have hz : (i.zeroExtend 64).toNat = i.toNat := by
    rw [BitVec.toNat_setWidth, Nat.mod_eq_of_lt (by omega)]
  rw [BitVec.toNat_or, hz, BitVec.toNat_shiftLeft, BitVec.toNat_ofNat, Nat.shiftLeft_eq]
  have hm : x.toNat * 2 ^ 10 % 2 ^ 64 = (x.toNat % 2 ^ 54) * 2 ^ 10 := by omega
  rw [hm, Nat.mul_comm, ← Nat.two_pow_add_eq_or_of_lt hi]
  omega

end

/-! ## The integer and immediate instructions -/

section
variable {s : State} {g : Guard} {d a b : BitVec 5}

theorem alu1_wroteS {f : Word → Word} (h : Turn.Ready .S s) (hg : s.view.guard g = true) :
    alu1 g d a f s = .next (s.wroteS 2 d (f (s.wk.sget a.toNat))) := runS_wrote h hg

theorem aluI_wroteS {f : Word → Word} (h : Turn.Ready .S s) (hg : s.view.guard g = true) :
    aluI g d f s = .next (s.wroteS 2 d (f (s.wk.sget d.toNat))) := runS_wrote h hg

/-- An operation of two scalars, with its function's value written out. -/
theorem alu2_gives {f : Word → Word → Word} {v : Word} (h : Turn.Ready .S s) (hg : s.view.guard g = true)
    (hv : f (s.wk.sget a.toNat) (s.wk.sget b.toNat) = v) : alu2 g d a b f s = .next (s.wroteS 2 d v) :=
  hv ▸ alu2_wroteS h hg

theorem alu1_gives {f : Word → Word} {v : Word} (h : Turn.Ready .S s) (hg : s.view.guard g = true)
    (hv : f (s.wk.sget a.toNat) = v) : alu1 g d a f s = .next (s.wroteS 2 d v) := hv ▸ alu1_wroteS h hg

theorem aluI_gives {f : Word → Word} {v : Word} (h : Turn.Ready .S s) (hg : s.view.guard g = true)
    (hv : f (s.wk.sget d.toNat) = v) : aluI g d f s = .next (s.wroteS 2 d v) := hv ▸ aluI_wroteS h hg

/-- A conditional move writes where sB is not 0 (R87). -/
theorem execScmov_eq (h : Turn.Ready .S s) (hg : s.view.guard g = true) :
    execScmov g d a b s =
      .next (if s.wk.sget b.toNat = 0 then s.afterS 2 0 [] else s.wroteS 2 d (s.wk.sget a.toNat)) := by
  by_cases hb : s.wk.sget b.toNat = 0
  · rw [if_pos hb]
    exact runS_after0 h hg (by simp [m_bind, hb])
  · rw [if_neg hb]
    exact runS_wroteT h hg (by simp only [m_bind, m_look, hb, if_false, writeS, m_work, m_pure])

end

/-- Settles O2: every instruction is the operation of two scalars, with its function written as arithmetic. -/
theorem scalarIntegerResults : Obligations.ScalarIntegerResults := by
  unfold Obligations.ScalarIntegerResults
  intro s g d a b h hg x y n
  have hdiv : sdivOf x y = if y = 0 then BitVec.allOnes 64 else BitVec.ofInt 64 (x.toInt.tdiv y.toInt) := by
    rw [sdivOf, ofInt_neg_one_eq_allOnes]
  have hdivn : sdivnOf x y = if y = 0 then BitVec.allOnes 64 else BitVec.ofNat 64 (x.toNat / y.toNat) := by
    rw [sdivnOf, ofInt_neg_one_eq_allOnes]
  have hshl : x <<< shAmt y = BitVec.ofNat 64 (x.toNat * 2 ^ n) := by rw [shAmt_eq, shiftLeft_eq_ofNat]
  have hshr : x >>> shAmt y = BitVec.ofNat 64 (x.toNat / 2 ^ n) := by rw [shAmt_eq, ushiftRight_eq_ofNat]
  have hsra : x.sshiftRight (shAmt y) = BitVec.ofInt 64 (x.toInt / 2 ^ n) := by rw [shAmt_eq, sshiftRight_eq_ofInt]
  have hmulh : BitVec.ofInt 64 (x.toInt * y.toInt / (2 ^ 64 : Nat)) = BitVec.ofInt 64 (x.toInt * y.toInt / 2 ^ 64) := by
    norm_cast
  exact ⟨(exec_sadd ..).trans (alu2_gives h hg (add_eq_ofNat x y)),
    (exec_ssub ..).trans (alu2_gives h hg (sub_eq_ofInt x y)),
    (exec_smul ..).trans (alu2_gives h hg (mul_eq_ofNat x y)),
    (exec_smulh ..).trans (alu2_gives h hg hmulh),
    (exec_smulhn ..).trans (alu2_gives h hg rfl),
    (exec_sdiv ..).trans (alu2_gives h hg hdiv),
    (exec_sdivn ..).trans (alu2_gives h hg hdivn),
    (exec_srem ..).trans (alu2_gives h hg rfl),
    (exec_sremn ..).trans (alu2_gives h hg rfl),
    (exec_sand ..).trans (alu2_gives h hg rfl),
    (exec_sor ..).trans (alu2_gives h hg rfl),
    (exec_sxor ..).trans (alu2_gives h hg rfl),
    (exec_sandn ..).trans (alu2_gives h hg rfl),
    (exec_sshl ..).trans (alu2_gives h hg hshl),
    (exec_sshr ..).trans (alu2_gives h hg hshr),
    (exec_ssra ..).trans (alu2_gives h hg hsra),
    (exec_smin ..).trans (alu2_gives h hg (pick_slt_min x y)),
    (exec_smax ..).trans (alu2_gives h hg (pick_slt_max x y)),
    (exec_sminn ..).trans (alu2_gives h hg (pick_ult_min x y)),
    (exec_smaxn ..).trans (alu2_gives h hg (pick_ult_max x y))⟩

/-- Settles O3: as for two operands, with one scalar or an immediate; `scmov` has its own two cases. -/
theorem scalarUnaryAndImmediateResults : Obligations.ScalarUnaryAndImmediateResults := by
  unfold Obligations.ScalarUnaryAndImmediateResults
  intro s g d a b i f h hg hf x o k
  have hf' : s.view.guard f.g = true := hf ▸ hg
  have hpop : BitVec.ofNat 64 (popcount 64 x.toNat) = BitVec.ofNat 64 ((List.range 64).countP x.getLsbD) := by
    rw [popcount_eq_countP]
    rfl
  exact ⟨(exec_sclz ..).trans (alu1_gives h hg (leadingZeros_eq x)), (exec_spopc ..).trans (alu1_gives h hg hpop), execScmov_eq h hg,
    (exec_saddi ..).trans (aluI_gives h hg rfl), (exec_sli ..).trans (aluI_gives h hg rfl),
    (exec_slui ..).trans (aluI_gives h hg (shiftIn_eq_ofNat o i)), (exec_sandi ..).trans (aluI_gives h hg rfl),
    (exec_sori ..).trans (aluI_gives h hg rfl), (exec_sxori ..).trans (aluI_gives h hg rfl),
    fun _ => ⟨(exec_sshli ..).trans (aluI_gives h hg (shiftLeft_eq_ofNat o _)),
      (exec_sshri ..).trans (aluI_gives h hg (ushiftRight_eq_ofNat o _)),
      (exec_ssrai ..).trans (aluI_gives h hg (sshiftRight_eq_ofInt o _))⟩,
    (exec_sli32 ..).trans (runS_wrote h hf'), (exec_saddi32 ..).trans (runS_wrote h hf')⟩

/-! ## Compares and predicate logic -/

section
variable {s : State} {g : Guard} {d a b : BitVec 5} {v : Bool}

theorem compareS_gives {f : Word → Word → Bool} (h : Turn.Ready .S s) (hg : s.view.guard g = true) (hc : s.configFree)
    (hv : f (s.wk.sget a.toNat) (s.wk.sget b.toNat) = v) : compareS g d a b f s = .next (s.wroteP d.toNat v) :=
  hv ▸ runS_pred h hg hc rfl

theorem compareI_gives {f : Word → Bool} {p : BitVec 4} (h : Turn.Ready .S s) (hg : s.view.guard g = true) (hc : s.configFree)
    (hv : f (s.wk.sget d.toNat) = v) : compareI g d p f s = .next (s.wroteP p.toNat v) :=
  hv ▸ runS_pred h hg hc rfl

theorem logicP_gives {f : Bool → Bool → Bool} (h : Turn.Ready .S s) (hg : s.view.guard g = true) (hc : s.configFree)
    (hv : f (s.view.pred a.toNat) (s.view.pred b.toNat) = v) : logicP g d a b f s = .next (s.wroteP d.toNat v) :=
  hv ▸ runS_pred h hg hc rfl

/-- An f32 compare is a test on the order of the two values; NaN has none (R90). -/
theorem compareF_gives {f : Ordering → Bool} (test : Option Ordering → Bool) (h : Turn.Ready .S s) (hg : s.view.guard g = true)
    (hc : s.configFree) (hnone : test none = false) (hsome : ∀ o, f o = test (some o)) :
    compareF g d a b f s = .next (s.wroteP d.toNat
      (test ((f32Of s.view.ftz (s.wk.sget a.toNat)).cmp (f32Of s.view.ftz (s.wk.sget b.toNat))))) := by
  refine compareS_gives h hg hc ?_
  cases (f32Of s.view.ftz (s.wk.sget a.toNat)).cmp (f32Of s.view.ftz (s.wk.sget b.toNat)) with
  | some o => exact hsome o
  | none => exact hnone.symm

end

/-- Settles O5: each is a predicate write, posted to every strand. -/
theorem comparesWritePredicates : Obligations.ComparesWritePredicates := by
  unfold Obligations.ComparesWritePredicates
  intro s g d a b p i h hg hc x y o c q
  have heq : ∀ u v : Word, (u == v) = decide (u = v) := fun u v => rfl
  have hne : (x != y) = decide (x ≠ y) := by simp [bne, heq]
  have hslt : ∀ u v : Word, u.slt v = decide (u.toInt < v.toInt) := fun _ _ => rfl
  have hsle : ∀ u v : Word, u.sle v = decide (u.toInt ≤ v.toInt) := fun _ _ => rfl
  have hult : ∀ u v : Word, u.ult v = decide (u.toNat < v.toNat) := fun _ _ => rfl
  have hule : ∀ u v : Word, u.ule v = decide (u.toNat ≤ v.toNat) := fun _ _ => rfl
  have hi : (i.signExtend 64).toInt = i.toInt := BitVec.toInt_signExtend_of_le (by decide)
  have hz : (i.zeroExtend 64).toNat = i.toNat := by
    rw [BitVec.toNat_setWidth, Nat.mod_eq_of_lt (by have := i.isLt; omega)]
  have hseqi : (o == i.signExtend 64) = decide (o.toInt = i.toInt) := by rw [heq, ← hi]; simp only [BitVec.toInt_inj]
  exact ⟨(exec_seq ..).trans (compareS_gives h hg hc (heq x y)), (exec_sne ..).trans (compareS_gives h hg hc hne),
    (exec_slt ..).trans (compareS_gives h hg hc (hslt x y)), (exec_sltn ..).trans (compareS_gives h hg hc (hult x y)),
    (exec_sle ..).trans (compareS_gives h hg hc (hsle x y)), (exec_slen ..).trans (compareS_gives h hg hc (hule x y)),
    (exec_seqi ..).trans (compareI_gives h hg hc hseqi),
    (exec_slti ..).trans (compareI_gives h hg hc (by rw [hslt, hi])),
    (exec_sltni ..).trans (compareI_gives h hg hc (by rw [hult, hz])),
    (exec_sflt ..).trans (compareF_gives (fun r => decide (r = some .lt)) h hg hc rfl (by decide)),
    (exec_sfeq ..).trans (compareF_gives (fun r => decide (r = some .eq)) h hg hc rfl (by decide)),
    (exec_sfle ..).trans (compareF_gives (fun r => decide (r = some .lt ∨ r = some .eq)) h hg hc rfl (by decide)),
    (exec_pand ..).trans (logicP_gives h hg hc rfl), (exec_por ..).trans (logicP_gives h hg hc rfl),
    (exec_pxor ..).trans (logicP_gives h hg hc rfl), (exec_pandn ..).trans (logicP_gives h hg hc rfl)⟩

end Sys2Proof.Machine
end

section
/-! PROOF. Actions that keep the canonical form from whatever canonical state they start in (O60): the rules by which such actions
are put together. -/
namespace Sys2Proof.Machine

/-- An action that keeps the canonical form, wherever it starts. -/
def Tame {α : Type} (act : M α) : Prop := ∀ s : State, s.Canonical → Keeps s act

/-- An outcome whose next state, if it has one, is canonical. -/
structure OutcomeKeeps (o : Host.Outcome State Fault Refusal) : Prop where
  next : ∀ t, o = .next t → t.Canonical

section
variable {α β : Type}

theorem tame_pure {a : α} : Tame (pure a : M α) := fun _ h => keeps_pure h
theorem tame_look {F : State → α} : Tame (M.look F) := fun _ h => keeps_look h
theorem tame_stop {x : Stop} : Tame (M.stop x : M α) := fun _ _ => keeps_stop
theorem tame_trap {a b c : Nat} {d : Option Nat} : Tame (M.trap a b c d : M α) := fun _ _ => keeps_trap
theorem tame_illegal {a : Nat} : Tame (M.illegal a : M α) := fun _ _ => keeps_illegal
theorem tame_stall : Tame (M.stall : M α) := fun _ _ => keeps_stall
theorem tame_nothing : Tame M.nothing := tame_pure
theorem tame_lift {r : Except Stop α} : Tame (M.lift r) := fun _ h => keeps_lift h
theorem tame_legal {b : Bool} : Tame (M.legal b) := fun _ h => keeps_legal h
theorem tame_await {b : Bool} : Tame (M.await b) := fun _ h => keeps_await h
theorem tame_access {n : Nat} {o : Option Nat} {r : Except AErr α} : Tame (M.access n o r) := fun _ h => keeps_access h

theorem tame_change {F : State → State} (hF : ∀ s : State, s.Canonical → (F s).Canonical) : Tame (M.change F) :=
  fun s h => keeps_change (hF s h)

theorem tame_work {F : Worker → Worker} (hF : ∀ w : Worker, w.spad.wf = true → (F w).spad.wf = true) : Tame (M.work F) :=
  fun _ h => keeps_work (h.modWk (hF _ h.wk))

theorem tame_bind {x : M α} {f : α → M β} (hx : Tame x) (hf : ∀ a, Tame (f a)) : Tame (x >>= f) :=
  fun s h => keeps_bind (hx s h) fun a t ht => hf a t ht

/-- What is read of the state comes from a canonical one. -/
theorem tame_look_bind {F : State → α} {f : α → M β} (hf : ∀ s : State, s.Canonical → Tame (f (F s))) : Tame (M.look F >>= f) :=
  fun s h => keeps_look_bind (hf s h s h)

theorem tame_map {x : M α} {f : α → β} (hx : Tame x) : Tame (f <$> x) := tame_bind hx fun _ => tame_pure

theorem tame_ite {c : Prop} [Decidable c] {x y : M α} (hx : Tame x) (hy : Tame y) : Tame (if c then x else y) := by
  split
  · exact hx
  · exact hy

theorem tame_dite {c : Prop} [Decidable c] {x : c → M α} {y : ¬c → M α} (hx : ∀ h, Tame (x h)) (hy : ∀ h, Tame (y h)) :
    Tame (if h : c then x h else y h) := by
  split
  · exact hx _
  · exact hy _

theorem tame_each {f : α → M Unit} {l : List α} (hf : ∀ a, Tame (f a)) : Tame (M.each f l) := fun _ h => keeps_each (fun a => hf a) h
theorem tame_gather {f : α → M β} {l : List α} (hf : ∀ a, Tame (f a)) : Tame (M.gather f l) := fun _ h => keeps_gather (fun a => hf a) h

end

theorem canonical_ite {c : Prop} [Decidable c] {s t : State} (hs : s.Canonical) (ht : t.Canonical) : (if c then s else t).Canonical := by
  split
  · exact hs
  · exact ht

theorem spad_ite {c : Prop} [Decidable c] {w x : Worker} (hw : w.spad.wf = true) (hx : x.spad.wf = true) :
    (if c then w else x).spad.wf = true := by
  split
  · exact hw
  · exact hx

/-! ## How an instruction runs -/

theorem outcome_next {s : State} (h : s.Canonical) : OutcomeKeeps (.next s) := ⟨fun _ e => by cases e; exact h⟩
theorem outcome_fault {x : Fault} : OutcomeKeeps (.fault x) := ⟨fun _ e => by cases e⟩
theorem outcome_refused {x : Refusal} : OutcomeKeeps (.refused x) := ⟨fun _ e => by cases e⟩

theorem outcome_ite {c : Prop} [Decidable c] {x y : Host.Outcome State Fault Refusal} (hx : OutcomeKeeps x) (hy : OutcomeKeeps y) :
    OutcomeKeeps (if c then x else y) := by
  split
  · exact hx
  · exact hy

/-- A launch aborts: its workers only change their status. -/
theorem State.Canonical.abortLaunch {s : State} (h : s.Canonical) {lid : Nat} : (s.abortLaunch lid).Canonical := by
  have h1 : (s.modLaunch lid fun l => { l with aborting := true, status := 3 }).Canonical := h.modLaunch
  obtain ⟨hm, hd, hw, -, -⟩ := modLaunch_fields s lid fun l => { l with aborting := true, status := 3 }
  exact PartsCanonical.of (partsCanonical_map h hm hd fun e he => spad_ite he he)

theorem canonical_mclog {s : State} (h : s.Canonical) (l : List (List Word)) : { s with mclog := l }.Canonical := h.same rfl rfl rfl

theorem State.Canonical.logCheck {s : State} (h : s.Canonical) {r : List Word} : (s.logCheck r).Canonical :=
  canonical_mclog h _

theorem State.Canonical.machineCheck {s : State} (h : s.Canonical) {w : Worker} {u k pa : Nat} {pc : PAddr} :
    (s.machineCheck w u k pa pc).Canonical := h.logCheck.abortLaunch

theorem State.Canonical.acquireS {s : State} (h : s.Canonical) : s.acquireS.Canonical := h.modWk h.wk

theorem State.Canonical.reportTrap {s : State} (h : s.Canonical) {w : Worker} : (s.reportTrap w).Canonical := h.same rfl rfl rfl

theorem State.Canonical.takeTrap {s : State} (h : s.Canonical) {e : Eng} {pc : PAddr} {x : Trap} : (s.takeTrap e pc x).Canonical := by
  unfold State.takeTrap
  refine canonical_ite h ?_
  have h0 : (if x.cause = 0x0B then s.modLaunch s.wk.lid fun l => { l with detOff := true } else s).Canonical :=
    canonical_ite h.modLaunch h
  have h1 := h0.performWorker (k := s.curKey) (scope := 1)
  generalize (if x.cause = 0x0B then s.modLaunch s.wk.lid fun l => { l with detOff := true } else s) = r at *
  have h2 : ((r.performWorker r.curKey 1).setWk (r.wk.trapped e pc x)).acquireS.Canonical :=
    (h0.performWorker.setWk (w := r.wk.trapped e pc x) h0.wk).acquireS
  exact canonical_ite h2.reportTrap.abortLaunch h2

theorem State.Canonical.settleStop {s : State} (h : s.Canonical) {r : Except Stop (Unit × State)} (hr : ResultKeeps r) :
    OutcomeKeeps (settleStop s r) := by
  unfold Machine.settleStop
  split
  · exact outcome_next (hr.keeps _ _ rfl)
  · exact outcome_next h
  · exact outcome_next h.takeTrap
  · exact outcome_next h.machineCheck

section
variable {s : State} {act : M Unit} {on off : M Issue} {f : E64} {g : Option Guard} {e : Eng} {n : Nat}

theorem outcome_runOwn (ha : Tame act) (h : s.Canonical) : OutcomeKeeps (runOwn e act s) := by
  unfold runOwn
  split
  · split
    · exact h.settleStop ⟨(ha s h).keeps⟩
    · exact outcome_fault
  · exact outcome_fault

theorem tame_issueS (hon : Tame on) (hoff : Tame off) : Tame (issueS n g on off) := by
  unfold issueS
  have hrest : ∀ i, Tame (M.change fun s => s.setWk (s.wk.setStrand .S (s.wk.strands.s.issued n i []))) :=
    fun i => tame_change fun s h => h.setWk h.wk
  exact tame_bind tame_look fun t => tame_bind tame_await fun _ => tame_ite (tame_bind hon hrest) (tame_bind hoff hrest)

theorem spad_popTokens (e : Eng) (tk : BitVec 4) (w : Worker) :
    ((tokPops e tk).foldl (fun w q => w.setTokens q (w.tokensIn q - 1)) w).spad = w.spad := by
  induction tokPops e tk generalizing w with
  | nil => rfl
  | cons q r ih => exact ih _

theorem tame_issueE64 (hon : Tame on) (hoff : Tame off) : Tame (issueE64 e f on off) := by
  unfold issueE64
  have hrest : ∀ i, Tame (M.change fun s =>
      let w := (tokPops e f.tk).foldl (fun w q => w.setTokens q (w.tokensIn q - 1)) s.wk
      s.setWk (w.setStrand e ((w.strands.get e).issued 4 i (tokPushes e f.tk)))) :=
    fun i => tame_change fun s h => h.setWk ((congrArg Memory.wf (spad_popTokens e f.tk s.wk)).trans h.wk)
  exact tame_bind tame_look fun t => tame_bind tame_await fun _ => tame_bind tame_look fun w => tame_bind tame_await fun _ =>
    tame_bind (tame_change fun s h => h.popAcquire) fun _ => tame_ite (tame_bind hon hrest) (tame_bind hoff hrest)

theorem outcome_runS (hon : Tame on) (hoff : Tame off) (h : s.Canonical) : OutcomeKeeps (runS n g on off s) :=
  outcome_runOwn (tame_issueS hon hoff) h

theorem outcome_runE64 (hon : Tame on) (hoff : Tame off) (h : s.Canonical) : OutcomeKeeps (runE64 e f on off s) :=
  outcome_runOwn (tame_issueE64 hon hoff) h

end

/-! ## Workers: what does not touch the scratchpad -/

section
variable {w : Worker} (h : w.spad.wf = true)
include h

theorem spad_sset {r : Nat} {v : Word} : (w.sset r v).spad.wf = true := by rw [sset_spad]; exact h

theorem spad_snow {r : Nat} {v : Word} : (w.snow r v).spad.wf = true := by
  unfold Worker.snow
  rw [sset_spad]
  exact h

theorem spad_landVregs {l : List (Nat × VReg)} : (w.landVregs l).spad.wf = true :=
  spad_foldl (w := w.killMaps _) h fun _ _ ht => ht

theorem spad_landAct {a : Landing} : (w.landAct a).spad.wf = true := by
  cases a with
  | sreg => exact spad_sset h
  | vregs => exact spad_landVregs h
  | mask | knotAdd | counts | qsat | image | fetched | words | token => exact h

theorem spad_landDue {e : Eng} {i : Nat} {p : Pend} : (w.landDue e i p).spad.wf = true :=
  spad_foldl (w := w.setStrand e _) h fun _ _ ht => spad_landAct ht

theorem spad_returned : w.returned.spad.wf = true := by
  unfold Worker.returned
  exact spad_ite h h

end

end Sys2Proof.Machine
end

section
/-! PROOF. What the canonical form (O60) survives, function by function in the model's order: the shared operations: memory, order of writes, landings, operands, turns. -/
namespace Sys2Proof.Machine

/-! ## Access -/

theorem spad_addKnot {w : Worker} {k : Nat} {n : BitVec 32} {err : Bool} (h : w.spad.wf = true) : (Worker.addKnot w k n
    err).spad.wf = true := by
  unfold Worker.addKnot
  exact h

/-! ## Order -/

theorem State.Canonical.recordAs {s : State} {n : Nat} {a : Author} {kind : PageKind} {x : Spot} {l : Nat} {e : Edit} (h :
    s.Canonical) : (State.recordAs s n a kind x l e).Canonical := by
  unfold State.recordAs
  exact h.same rfl rfl rfl

theorem State.Canonical.record {s : State} {a : Author} {kind : PageKind} {x : Spot} {l : Nat} {e : Edit} (h : s.Canonical) :
    (State.record s a kind x l e).Canonical := by
  unfold State.record
  exact h.recordAs

theorem State.Canonical.recordAt {s : State} {a : Author} {p : Place} {e : Nat → Edit} (h : s.Canonical) : (State.recordAt s a p
    e).Canonical := by
  unfold State.recordAt
  split
  · exact h
  · exact h.record

theorem State.Canonical.loadedCells {s : State} {l : List Nat} (h : s.Canonical) : (State.loadedCells s l).Canonical := by
  unfold State.loadedCells
  exact h.markSeen

theorem State.Canonical.readCells {s : State} {l : List Nat} (h : s.Canonical) : (State.readCells s l).Canonical := by
  unfold State.readCells
  exact h.markSeen

theorem State.Canonical.mendCells {s : State} {l : List Nat} (h : s.Canonical) : (State.mendCells s l).Canonical := by
  unfold State.mendCells
  exact h.mend

theorem State.Canonical.wipeCells {s : State} {l : List Nat} (h : s.Canonical) : (State.wipeCells s l).Canonical :=
  State.Canonical.same (s := s.mend (fun x => x.among s.curKey l) fun _ => false) h.mend rfl rfl rfl

theorem State.Canonical.performCommand {s : State} {key born scope : Nat} (h : s.Canonical) : (State.performCommand s key born
    scope).Canonical := by
  unfold State.performCommand
  exact h.performAll

/-! ## Ops -/

theorem spad_setImage {w : Worker} {q : Nat} {l : List ImgEntry} (h : w.spad.wf = true) : (Worker.setImage w q l).spad.wf = true
    := by
  unfold Worker.setImage
  exact h

theorem State.Canonical.refetched {s : State} {p : Pend} (h : s.Canonical) : (State.refetched s p).Canonical := by
  unfold State.refetched
  exact h.foldl fun _ _ h1 => h1.looked

theorem State.Canonical.landed {s : State} {p : Pend} (h : s.Canonical) : (State.landed s p).Canonical := by
  unfold State.landed
  exact canonical_ite h.releaseTo h

theorem canonical_landReady {k : DueKind} {s : State} (h : s.Canonical) : (landReady k s).Canonical := by
  unfold landReady
  split
  · exact canonical_ite ((h.refetched.modWk (spad_landDue h.refetched.wk)).landed) h
  · exact h

theorem canonical_landWrite {s : State} (h : s.Canonical) : (landWrite s).Canonical := by
  unfold landWrite
  exact canonical_landReady h

theorem canonical_pushToken {s : State} (h : s.Canonical) : (pushToken s).Canonical := by
  have hw := h.wk
  unfold pushToken
  split
  · split
    · exact State.Canonical.releaseTo (h.setWk (by exact hw))
    · exact h
  · exact h

theorem spad_configure {w : Worker} {due : Nat} {c : ConfW} (h : w.spad.wf = true) : (Worker.configure w due c).spad.wf = true
    := by
  unfold Worker.configure
  exact h

theorem canonical_pushQueue {s : State} (h : s.Canonical) : (pushQueue s).Canonical := by
  unfold pushQueue
  split
  · exact h.machineCheck
  · exact canonical_landReady h

theorem tame_postConfig {len : Nat} {c : ConfW} : Tame (postConfig len c) := by
  unfold postConfig
  exact tame_bind tame_look fun _ => tame_bind tame_await fun _ => tame_change fun _ h1 => h1.setWk (spad_configure h1.wk)

/-! ## Operands -/

theorem tame_peekImage {q n : Nat} : Tame (peekImage q n) := by
  unfold peekImage
  refine tame_bind tame_look fun _ => ?_
  split
  · exact tame_pure
  · exact tame_stall

theorem tame_compareEntry {e : ImgEntry} {width : Option Nat} : Tame (compareEntry e width) := by
  unfold compareEntry
  exact tame_bind tame_look fun _ => tame_ite tame_pure tame_trap

theorem tame_popImage {q : Nat} {width : Option Nat} : Tame (popImage q width) := by
  unfold popImage
  exact tame_bind tame_peekImage fun _ => tame_bind tame_compareEntry fun _ => tame_bind (tame_change fun _ h1 => h1.modWk
    (spad_setImage h1.wk)) fun _ => tame_pure

theorem tame_popWord : Tame popWord := by
  unfold popWord
  refine tame_bind tame_look fun _ => ?_
  split
  · exact tame_stall
  · exact tame_bind (tame_change fun _ h1 => h1.modWk h1.wk) fun _ => tame_pure

theorem tame_readSrc {x : BitVec 8} {width : Option Nat} : Tame (readSrc x width) := by
  unfold readSrc
  exact tame_ite (tame_bind tame_look fun _ => tame_pure) (tame_ite (tame_ite (tame_bind tame_popWord fun _ => tame_pure)
    tame_popImage) (tame_ite tame_pure tame_pure))

theorem tame_peekMap {fields : List (BitVec 8)} {i : Nat} : Tame (peekMap fields i) := by
  unfold peekMap
  exact tame_ite tame_look (tame_ite (tame_bind tame_peekImage fun _ => tame_pure) tame_pure)

theorem tame_ownCompanion {d : BitVec 8} {m : CMap} : Tame (ownCompanion d m) := by
  unfold ownCompanion
  exact tame_bind tame_look fun _ => tame_ite tame_illegal tame_pure

theorem tame_deliverShape {d : BitVec 8} {w shadow : Nat} {r : Result} : Tame (deliverShape d w shadow r) := by
  unfold deliverShape
  exact tame_bind tame_look fun _ => tame_pure

theorem tame_zeroPush {d : BitVec 8} {w shadow : Nat} : Tame (zeroPush d w shadow) := by
  unfold zeroPush
  exact tame_bind tame_look fun _ => tame_ite tame_pure tame_pure

theorem tame_discard : ∀ {l : List (BitVec 8 × Option Nat)}, Tame (discard l)
  | [] => tame_pure
  | (_, _) :: _ => tame_ite (tame_bind tame_readSrc fun _ => tame_discard) tame_discard

theorem tame_offQueues {srcs : List (BitVec 8 × Option Nat)} {d : BitVec 8} {w shadow : Nat} : Tame (offQueues srcs d w shadow)
    := by
  unfold offQueues
  exact tame_bind tame_discard fun _ => tame_zeroPush

theorem tame_awaitWords {n : Nat} : Tame (awaitWords n) := by
  unfold awaitWords
  exact tame_bind tame_look fun _ => tame_await

theorem tame_eachSlot {n : Nat} {mask : Option Nat} {f : Nat → Except Stop Nat} {off : Nat → Nat} : Tame (eachSlot n mask f off)
    := by
  unfold eachSlot
  exact tame_lift

/-! ## Lane -/

theorem tame_laneSrc {n ms w i : Nat} {x : BitVec 8} : Tame (laneSrc n ms w i x) := by
  unfold laneSrc
  exact tame_ite tame_readSrc (tame_ite tame_readSrc tame_pure)

theorem tame_readLane {f : E64} {n w : Nat} : Tame (readLane f n w) := by
  unfold readLane
  exact tame_bind tame_laneSrc fun _ => tame_bind tame_laneSrc fun _ => tame_bind tame_laneSrc fun _ => tame_pure

theorem tame_laneChecks {f : E64} {dests : List (BitVec 8)} {w : Nat} : Tame (laneChecks f dests w) := by
  unfold laneChecks
  exact tame_bind tame_peekMap fun _ => tame_bind (tame_each fun _ => tame_ownCompanion) fun _ => tame_bind tame_look fun _ =>
    tame_legal

theorem tame_laneSlots {f : E64} {d : BitVec 8} {w : Nat} {slot : State → Nat → Except Nat Nat} : Tame (laneSlots f d w slot) :=
    by
  unfold laneSlots
  exact tame_bind tame_look fun _ => tame_bind tame_eachSlot fun _ => tame_pure

theorem outcome_laneRun {f : E64} {n w shadow : Nat} {slot : State → Lane → Nat → Except Nat Nat} {s : State} (h : s.Canonical)
    : OutcomeKeeps (laneRun f n w shadow slot s) := by
  unfold laneRun
  exact outcome_runE64 (tame_bind tame_laneChecks fun _ => tame_bind tame_readLane fun _ => tame_bind tame_laneSlots fun _ =>
    tame_deliverShape) tame_offQueues h

theorem outcome_floatRun {f : E64} {n shadow : Nat} {op : XReal → XReal → XReal → XReal} {s : State} (h : s.Canonical) :
    OutcomeKeeps (floatRun f n shadow op s) := by
  unfold floatRun
  exact outcome_laneRun h

theorem outcome_bitsRun {f : E64} {n : Nat} {op : Bool → Nat → Nat → Nat} {s : State} (h : s.Canonical) : OutcomeKeeps (bitsRun
    f n op s) := by
  unfold bitsRun
  exact outcome_laneRun h

theorem outcome_execVsincos {f : E64} {s : State} (h : s.Canonical) : OutcomeKeeps (execVsincos f s) := by
  unfold execVsincos
  exact outcome_runE64 (tame_bind tame_laneChecks fun _ => tame_bind tame_readLane fun _ => tame_bind tame_laneSlots fun _ =>
    tame_bind tame_laneSlots fun _ => tame_bind tame_deliverShape fun _ => tame_bind tame_deliverShape fun _ => tame_pure)
    tame_offQueues h

theorem outcome_intRun {f : E64} {n : Nat} {op : Nat → Int → Int → Int} {s : State} (h : s.Canonical) : OutcomeKeeps (intRun f n
    op s) := by
  unfold intRun
  exact outcome_laneRun h

/-! ## Convert -/

theorem outcome_execVcvt {f : E64} {s : State} (h : s.Canonical) : OutcomeKeeps (execVcvt f s) := by
  unfold execVcvt
  exact outcome_runE64 (tame_bind tame_peekMap fun _ => tame_bind tame_ownCompanion fun _ => tame_bind tame_look fun _ =>
    tame_bind tame_legal fun _ => tame_bind tame_readSrc fun _ => tame_ite (tame_bind tame_readSrc fun _ => tame_bind tame_look
    fun _ => tame_bind tame_eachSlot fun _ => tame_deliverShape) (tame_bind tame_pure fun _ => tame_bind tame_look fun _ =>
    tame_bind tame_eachSlot fun _ => tame_deliverShape)) tame_offQueues h

theorem outcome_execVqnt {f : E64} {s : State} (h : s.Canonical) : OutcomeKeeps (execVqnt f s) := by
  unfold execVqnt
  exact outcome_runE64 (tame_bind tame_look fun _ => tame_ite (tame_bind tame_peekMap fun _ => tame_bind tame_ownCompanion fun _
    => tame_bind tame_legal fun _ => tame_bind tame_readSrc fun _ => tame_bind tame_look fun _ => tame_bind tame_lift fun _ =>
    tame_pure) (tame_bind tame_legal fun _ => tame_bind tame_readSrc fun _ => tame_bind tame_look fun _ => tame_bind tame_lift fun
    _ => tame_pure)) tame_offQueues h

theorem outcome_execVdq {f : E64} {s : State} (h : s.Canonical) : OutcomeKeeps (execVdq f s) := by
  unfold execVdq
  exact outcome_runE64 (tame_ite (tame_bind tame_peekMap fun _ => tame_bind tame_ownCompanion fun _ => tame_bind tame_look fun _
    => tame_bind tame_legal fun _ => tame_bind tame_readSrc fun _ => tame_ite (tame_bind tame_readSrc fun _ => tame_bind
    tame_legal fun _ => tame_bind tame_look fun _ => tame_bind tame_lift fun _ => tame_deliverShape) (tame_bind tame_pure fun _ =>
    tame_bind tame_legal fun _ => tame_bind tame_look fun _ => tame_bind tame_lift fun _ => tame_deliverShape)) (tame_bind
    tame_look fun _ => tame_bind tame_legal fun _ => tame_bind tame_readSrc fun _ => tame_ite (tame_bind tame_readSrc fun _ =>
    tame_bind tame_legal fun _ => tame_bind tame_look fun _ => tame_bind tame_lift fun _ => tame_deliverShape) (tame_bind
    tame_pure fun _ => tame_bind tame_legal fun _ => tame_bind tame_look fun _ => tame_bind tame_lift fun _ =>
    tame_deliverShape))) tame_offQueues h

/-! ## Flags -/

theorem spad_addTerms {w : Worker} {anchor : Int} {l : List (Nat × XReal)} (h : w.spad.wf = true) : (Worker.addTerms w anchor
    l).spad.wf = true := by
  unfold Worker.addTerms
  exact spad_foldl h fun _ _ h1 => h1

theorem State.Canonical.addTerms {s : State} {anchor : Int} {l : List (Nat × XReal)} (h : s.Canonical) : (State.addTerms s
    anchor l).Canonical := by
  unfold State.addTerms
  exact h.noteCells.modWk (spad_addTerms h.noteCells.wk)

theorem tame_meetCells {l : List Nat} : Tame (meetCells l) := by
  unfold meetCells
  refine tame_bind tame_look fun _ => ?_
  split
  · exact tame_stop
  · exact tame_change fun _ h1 => h1.mendCells

theorem spad_clearCells {w : Worker} {lo n : Nat} (h : w.spad.wf = true) : (Worker.clearCells w lo n).spad.wf = true := by
  unfold Worker.clearCells
  exact h

theorem State.Canonical.clearCells {s : State} {lo n : Nat} (h : s.Canonical) : (State.clearCells s lo n).Canonical := by
  unfold State.clearCells
  exact h.noteCells.wipeCells.modWk (spad_clearCells h.noteCells.wipeCells.wk)

/-! ## Fetch -/

theorem State.Canonical.skipWord {s : State} {len : Nat} (h : s.Canonical) : (State.skipWord s len).Canonical := by
  unfold State.skipWord
  exact h.modSt

theorem State.Canonical.raise {s : State} {cause sub addr : Nat} (h : s.Canonical) : (State.raise s cause sub addr).Canonical :=
    by
  unfold State.raise
  exact h.takeTrap

theorem canonical_fetchFails {s : State} (h : s.Canonical) {x : Option (AErr × PAddr)} : (s.fetchFails x).state.Canonical := by
  unfold State.fetchFails
  split
  · split
    · exact h.raise
    · exact h.machineCheck
    · exact h
  · exact h

theorem canonical_foreign {s : State} (h : s.Canonical) {len : Nat} {i : Option Instr} : (s.foreign len i).state.Canonical := by
  unfold State.foreign
  repeat' split
  · exact h.skipWord
  · exact h
  · exact h.skipWord
  · exact h
  · exact h
  · exact h.skipWord

theorem State.Canonical.noteFetch {s : State} {len : Nat} (h : s.Canonical) : (State.noteFetch s len).Canonical := by
  unfold State.noteFetch
  refine canonical_ite h ?_
  split
  · exact h.correct _ _
  · exact h

theorem canonical_atWord {s : State} (h : s.Canonical) {len : Nat} {p0 p1 p2 p3 : Parcel} : (s.atWord len p0 p1 p2 p3).state.Canonical := by
  unfold State.atWord
  split
  · split
    · split <;> exact h
    · exact h
    · split
      · exact h
      · exact h.raise
    · exact h.raise
  · exact canonical_foreign h

theorem canonical_fetchMove {s : State} (h : s.Canonical) : s.fetchMove.state.Canonical := by
  unfold State.fetchMove
  dsimp only
  split
  · exact canonical_fetchFails h
  · split
    · split
      · exact canonical_fetchFails h
      · exact canonical_atWord h.noteFetch
    · split
      · exact h.raise
      · exact h

theorem State.Canonical.meetRegFault {s : State} {x : RegFault} (h : s.Canonical) : (s.meetRegFault x).Canonical := by
  have ht : { s with regFaults := s.regFaults.filter (· ≠ x) }.Canonical := h.same rfl rfl rfl
  exact canonical_ite (ht.same rfl rfl rfl) ht.machineCheck

theorem canonical_strandMove {s : State} (h : s.Canonical) : s.strandMove.state.Canonical := by
  have hs : (s.modSt fun t => t.sync s.wk.spad).Canonical := h.modSt
  unfold State.strandMove
  dsimp only
  repeat' split
  any_goals exact h
  any_goals exact hs
  · exact h.setWk h.wk
  · exact hs.meetRegFault
  · exact canonical_fetchMove hs

theorem State.Canonical.enter {s : State} {t : Turn} (h : s.Canonical) : (s.enter t).Canonical := by
  cases t with
  | event i => exact h.same rfl rfl rfl
  | strand key e =>
    have h1 : { s with tick := s.tick + 1, agenda := s.agenda.drop 1, curKey := key, curEng := e }.Canonical := h.same rfl rfl rfl
    exact canonical_ite h1 (h1.modWorker fun _ hw => hw)

theorem canonical_move {s : State} (h : s.Canonical) : s.move.state.Canonical := by
  have he : (s.enter s.turn).Canonical := h.enter
  unfold State.move
  dsimp only
  split
  · exact canonical_strandMove he
  · split
    · split
      · split <;> exact he
      · exact he
    · exact he

end Sys2Proof.Machine
end

section
/-! PROOF. What the canonical form (O60) survives, function by function in the model's order: the instructions of S, and loads and stores. -/
namespace Sys2Proof.Machine

/-! ## Scalar -/

theorem tame_writeS {d : Nat} {f : Worker → Word} : Tame (writeS d f) := by
  unfold writeS
  exact tame_bind (tame_work fun _ h1 => spad_snow h1) fun _ => tame_pure

theorem outcome_alu2 {g : Guard} {d a b : BitVec 5} {f : Word → Word → Word} {s : State} (h : s.Canonical) : OutcomeKeeps (alu2
    g d a b f s) := by
  unfold alu2
  exact outcome_runS tame_writeS tame_nothing h

theorem outcome_alu1 {g : Guard} {d a : BitVec 5} {f : Word → Word} {s : State} (h : s.Canonical) : OutcomeKeeps (alu1 g d a f
    s) := by
  unfold alu1
  exact outcome_runS tame_writeS tame_nothing h

theorem outcome_aluI {g : Guard} {d : BitVec 5} {f : Word → Word} {s : State} (h : s.Canonical) : OutcomeKeeps (aluI g d f s) :=
    by
  unfold aluI
  exact outcome_runS tame_writeS tame_nothing h

theorem tame_writeP {p : Nat} {b : Bool} : Tame (writeP p b) := by
  unfold writeP
  exact tame_ite tame_pure (tame_bind tame_postConfig fun _ => tame_pure)

theorem outcome_compareS {g : Guard} {d a b : BitVec 5} {f : Word → Word → Bool} {s : State} (h : s.Canonical) : OutcomeKeeps
    (compareS g d a b f s) := by
  unfold compareS
  exact outcome_runS (tame_bind tame_look fun _ => tame_writeP) tame_nothing h

theorem outcome_compareI {g : Guard} {d : BitVec 5} {p : BitVec 4} {f : Word → Bool} {s : State} (h : s.Canonical) :
    OutcomeKeeps (compareI g d p f s) := by
  unfold compareI
  exact outcome_runS (tame_bind tame_look fun _ => tame_writeP) tame_nothing h

theorem outcome_logicP {g : Guard} {d a b : BitVec 5} {f : Bool → Bool → Bool} {s : State} (h : s.Canonical) : OutcomeKeeps
    (logicP g d a b f s) := by
  unfold logicP
  exact outcome_runS (tame_bind tame_look fun _ => tame_writeP) tame_nothing h

theorem outcome_floatS {g : Guard} {d a b : BitVec 5} {f : XReal → XReal → XReal} {s : State} (h : s.Canonical) : OutcomeKeeps
    (floatS g d a b f s) := by
  unfold floatS
  exact outcome_alu2 h

theorem outcome_pickS {g : Guard} {d a b : BitVec 5} {wantMax : Bool} {s : State} (h : s.Canonical) : OutcomeKeeps (pickS g d a
    b wantMax s) := by
  unfold pickS
  exact outcome_alu2 h

theorem outcome_compareF {g : Guard} {d a b : BitVec 5} {f : Ordering → Bool} {s : State} (h : s.Canonical) : OutcomeKeeps
    (compareF g d a b f s) := by
  unfold compareF
  exact outcome_compareS h

theorem outcome_execScmov {g : Guard} {d a b : BitVec 5} {s : State} (h : s.Canonical) : OutcomeKeeps (execScmov g d a b s) := by
  unfold execScmov
  exact outcome_runS (tame_bind tame_look fun _ => tame_ite tame_pure tame_writeS) tame_nothing h

/-! ## Csr -/

theorem spad_csrReadEffect {w : Worker} {c : Nat} (h : w.spad.wf = true) : (Worker.csrReadEffect w c).spad.wf = true := by
  unfold Worker.csrReadEffect
  exact spad_ite h h

theorem spad_csrWriteNow {w : Worker} {c : Nat} {x : Word} (h : w.spad.wf = true) : (Worker.csrWriteNow w c x).spad.wf = true :=
    by
  unfold Worker.csrWriteNow
  exact spad_ite h h

theorem spad_csrLog {w : Worker} {det : Bool} {c : Nat} {x : Word} (h : w.spad.wf = true) : (Worker.csrLog w det c x).spad.wf =
    true := by
  unfold Worker.csrLog
  exact spad_ite h (spad_ite h h)

theorem tame_writeCsrM {c : Nat} {f : Word → Word} : Tame (writeCsrM c f) := by
  unfold writeCsrM
  exact tame_bind tame_look fun _ => tame_ite tame_trap (tame_ite (tame_ite tame_pure tame_trap) (tame_ite (tame_bind
    tame_postConfig fun _ => tame_bind (tame_work fun _ h1 => spad_csrLog h1) fun _ => tame_pure) (tame_bind (tame_work fun _ h1
    => spad_csrWriteNow h1) fun _ => tame_pure)))

theorem outcome_execCsrr {g : Guard} {d : BitVec 5} {c : BitVec 10} {s : State} (h : s.Canonical) : OutcomeKeeps (execCsrr g d c
    s) := by
  unfold execCsrr
  exact outcome_runS (tame_ite tame_trap (tame_bind (tame_work fun _ h1 => spad_snow (spad_csrReadEffect h1)) fun _ => tame_pure))
    tame_nothing h

theorem outcome_execSfset {f : S64} {s : State} (h : s.Canonical) : OutcomeKeeps (execSfset f s) := by
  unfold execSfset
  exact outcome_runS (tame_bind tame_postConfig fun _ => tame_pure) tame_nothing h

theorem outcome_execSzset {f : S64} {s : State} (h : s.Canonical) : OutcomeKeeps (execSzset f s) := by
  unfold execSzset
  exact outcome_runS (tame_bind tame_postConfig fun _ => tame_pure) tame_nothing h

theorem outcome_execShset {f : S64} {s : State} (h : s.Canonical) : OutcomeKeeps (execShset f s) := by
  unfold execShset
  exact outcome_runS (tame_bind tame_postConfig fun _ => tame_pure) tame_nothing h

theorem outcome_execSshape {f : S64} {s : State} (h : s.Canonical) : OutcomeKeeps (execSshape f s) := by
  unfold execSshape
  exact outcome_runS (tame_bind tame_legal fun _ => tame_bind tame_postConfig fun _ => tame_writeS) tame_nothing h

/-! ## Elem -/

/-- A place found by translation leaves the state that the translation answers with. -/
theorem tame_placeIn {cx : Cx} {ag : Agent} {va size : Nat} {acc : Acc} {slot : Option Nat} {rights : Place → Bool}
    {bounds : Except AErr Unit} : Tame (placeIn cx ag va size acc slot rights bounds) := by
  unfold placeIn
  refine tame_look_bind fun s h => tame_bind tame_access fun _ => tame_bind tame_access fun _ => tame_bind tame_access fun _ => ?_
  split
  · exact tame_pure
  · exact fun _ _ => keeps_bind_resolve h fun _ hr => keeps_bind (keeps_change hr) fun _ _ ht => keeps_pure ht

theorem tame_placeOf {ag : Agent} {va size : Nat} {acc : Acc} {slot : Option Nat} {rights : Place → Bool} {bounds : Except AErr
    Unit} : Tame (placeOf ag va size acc slot rights bounds) := by
  unfold placeOf
  exact tame_bind tame_look fun _ => tame_placeIn

theorem tame_detectIn {lid : Nat} {t : TaskId} {va : Nat} {slot : Option Nat} {store : Bool} {p : Place} {size : Nat} : Tame
    (detectIn lid t va slot store p size) := by
  unfold detectIn
  refine tame_bind tame_look fun _ => ?_
  refine tame_ite tame_pure ?_
  split
  · exact tame_trap
  · exact tame_change fun _ h1 => h1.putLaunch

theorem tame_detectAt {va : Nat} {slot : Option Nat} {store : Bool} {p : Place} {size : Nat} : Tame (detectAt va slot store p
    size) := by
  unfold detectAt
  exact tame_bind tame_look fun _ => tame_detectIn

theorem tame_readNewest {p : Place} {size : Nat} : Tame (readNewest p size) := by
  unfold readNewest
  refine tame_bind tame_look fun _ => ?_
  split
  · exact tame_access
  · exact tame_bind (tame_change fun _ h1 => h1.lookedNewest.accessed.noteRead) fun _ => tame_pure

theorem tame_readAt {p : Place} {size : Nat} : Tame (readAt p size) := by
  unfold readAt
  refine tame_bind tame_look fun _ => ?_
  split
  · exact tame_access
  · exact tame_bind (tame_change fun _ h1 => h1.loaded.noteRead) fun _ => tame_pure

theorem tame_writeAs {a : Author} {ws : List (Place × List (BitVec 8))} : Tame (writeAs a ws) := by
  unfold writeAs
  refine tame_bind tame_look fun _ => ?_
  split
  · exact tame_access
  · exact tame_change fun _ h1 => h1.noteWrites.writeAll

theorem tame_storeAllM {ws : List (Place × List (BitVec 8))} : Tame (storeAllM ws) := by
  unfold storeAllM
  exact tame_bind tame_look fun _ => tame_bind tame_writeAs fun _ => tame_change fun _ h1 => h1.foldl fun _ _ h2 => h2.accessed

theorem tame_writeAllM {ws : List (Place × List (BitVec 8))} : Tame (writeAllM ws) := by
  unfold writeAllM
  refine tame_bind tame_look fun _ => ?_
  split
  · exact tame_access
  · exact tame_change fun _ h1 => h1.writeDone

/-! ## Memory -/

theorem tame_loadS {va n : Nat} : Tame (loadS va n) := by
  unfold loadS
  exact tame_bind tame_look fun _ => tame_bind tame_placeOf fun _ => tame_bind tame_detectAt fun _ => tame_readAt

theorem tame_storeS {va : Nat} {l : List (BitVec 8)} : Tame (storeS va l) := by
  unfold storeS
  exact tame_bind tame_look fun _ => tame_bind tame_placeOf fun _ => tame_bind tame_detectAt fun _ => tame_storeAllM

theorem tame_privileged : Tame privileged := by
  unfold privileged
  exact tame_bind tame_look fun _ => tame_ite tame_pure tame_trap

theorem outcome_execSld {f : S64} {s : State} (h : s.Canonical) : OutcomeKeeps (execSld f s) := by
  unfold execSld
  exact outcome_runS (tame_bind tame_loadS fun _ => tame_ite (tame_bind (tame_change fun _ h1 => h1.acquire) fun _ => tame_pure)
    tame_pure) tame_nothing h

theorem outcome_execSst {f : S64} {s : State} (h : s.Canonical) : OutcomeKeeps (execSst f s) := by
  unfold execSst
  exact outcome_runS (tame_ite (tame_bind (tame_change fun _ h1 => h1.release) fun _ => tame_bind tame_storeS fun _ => tame_pure)
    (tame_bind tame_storeS fun _ => tame_pure)) tame_nothing h

theorem State.Canonical.addFarKnot {s : State} {key k : Nat} {n : BitVec 32} {err : Bool} (h : s.Canonical) :
    (s.addFarKnot key k n err).Canonical := h.modWorker fun _ hw => hw

theorem tame_atomicAt {scope : Nat} {p : Place} {n op x y : Nat} : Tame (atomicAt scope p n op x y) := by
  unfold atomicAt
  split
  · exact tame_bind tame_look fun _ => tame_bind (tame_change fun _ h1 => h1.addFarKnot) fun _ => tame_pure
  · exact tame_bind tame_readNewest fun _ => tame_bind tame_look fun _ => tame_bind tame_writeAs fun _ => tame_pure

theorem outcome_execSamo {f : S64} {s : State} (h : s.Canonical) : OutcomeKeeps (execSamo f s) := by
  unfold execSamo
  exact outcome_runS (tame_bind tame_placeOf fun _ => tame_ite (tame_bind (tame_change fun _ h1 => h1.release) fun _ => tame_bind
    tame_atomicAt fun _ => tame_ite (tame_bind (tame_change fun _ h1 => h1.acquire) fun _ => tame_pure) tame_pure) (tame_ite
    (tame_bind (tame_change fun _ h1 => h1.release) fun _ => tame_bind tame_atomicAt fun _ => tame_ite (tame_bind (tame_change fun
    _ h1 => h1.acquire) fun _ => tame_pure) tame_pure) (tame_bind tame_atomicAt fun _ => tame_ite (tame_bind (tame_change fun _ h1
    => h1.acquire) fun _ => tame_pure) tame_pure))) tame_nothing h

theorem canonical_queues {s : State} (h : s.Canonical) {q : Tab QueueSt} : { s with queues := q }.Canonical := h.same rfl rfl rfl

theorem canonical_launchRecord {s : State} (h : s.Canonical) {r : List (BitVec 64)} : (s.launchRecord r).1.Canonical := by
  unfold State.launchRecord
  dsimp only
  split
  · exact h
  · split
    · exact h
    · exact canonical_queues h.putPhys.putPhys

theorem outcome_execSlaunch {f : S64} {s : State} (h : s.Canonical) : OutcomeKeeps (execSlaunch f s) := by
  unfold execSlaunch
  refine outcome_runS (tame_bind tame_privileged fun _ => tame_ite tame_trap ?_) tame_nothing h
  refine tame_bind (tame_gather fun _ => tame_loadS) fun _ => tame_look_bind fun t ht => ?_
  exact tame_bind (tame_change fun _ _ => canonical_launchRecord ht.release) fun _ => tame_pure

theorem outcome_execSlaydef {f : S64} {s : State} (h : s.Canonical) : OutcomeKeeps (execSlaydef f s) := by
  unfold execSlaydef
  exact outcome_runS (tame_bind tame_privileged fun _ => tame_ite tame_trap (tame_bind (tame_gather fun _ => tame_loadS) fun _ =>
    tame_ite (tame_bind (tame_change fun _ h1 => h1.putPhys) fun _ => tame_bind (tame_work fun _ h1 => h1) fun _ => tame_pure)
    tame_pure)) tame_nothing h

theorem outcome_execSatinv {f : S64} {s : State} (h : s.Canonical) : OutcomeKeeps (execSatinv f s) := by
  unfold execSatinv
  exact outcome_runS (tame_bind tame_privileged fun _ => tame_bind tame_await fun _ => tame_bind (tame_change fun _ h1 =>
    h1.release.same rfl rfl rfl) fun _ => tame_pure) tame_nothing h

/-! ## Image -/

theorem tame_putFurrow {x : BitVec 8} {f : Furrow} : Tame (putFurrow x f) := by
  unfold putFurrow
  exact tame_change fun _ h1 => h1.modSt

theorem tame_contextCheck {f : Furrow} {slot : Nat} : Tame (contextCheck f slot) := by
  unfold contextCheck
  exact tame_bind tame_look fun _ => tame_ite tame_pure tame_trap

theorem tame_touchIn {cx : Cx} {ag : Agent} {f : Furrow} {k : Access} {fmt slot va shift n : Nat} {block : Option Nat} : Tame
    (touchIn cx ag f k fmt slot va shift n block) := by
  unfold touchIn
  exact tame_bind tame_placeIn fun _ => tame_pure

theorem tame_touchAt {f : Furrow} {k : Access} {fmt slot va shift n : Nat} {block : Option Nat} : Tame (touchAt f k fmt slot va
    shift n block) := by
  unfold touchAt
  exact tame_bind tame_look fun _ => tame_bind tame_access fun _ => tame_bind tame_contextCheck fun _ => tame_touchIn

theorem tame_touchElem {f : Furrow} {k : Access} {eff : Nat} {e : Nat × Quad Nat} : Tame (touchElem f k eff e) := by
  unfold touchElem
  split
  · exact tame_trap
  · exact tame_touchAt

theorem tame_plan {f : Furrow} {k : Access} {eff len : Nat} {l : List (Nat × Quad Nat)} {prev : Option Nat} : Tame (plan f k eff len prev l) := by
  induction l generalizing prev with
  | nil => exact tame_pure
  | cons e r ih =>
    have rest : ∀ {t : Touch} {sc : List Touch} {prev : Option Nat}, Tame (do
        let l ← plan f k eff len prev r
        pure (t :: (sc ++ l))) := tame_bind ih fun _ => tame_pure
    exact tame_bind tame_touchElem fun _ => tame_ite (tame_bind tame_touchAt fun _ => tame_bind tame_pure fun _ => rest)
      (tame_bind tame_pure fun _ => rest)

theorem tame_detectAll {store : Bool} {l : List Touch} : Tame (detectAll store l) := by
  unfold detectAll
  exact tame_each fun _ => tame_detectAt

theorem tame_readTouches {w : Nat} {l : List Touch} : Tame (readTouches w l) := by
  unfold readTouches
  exact tame_bind (tame_gather fun _ => tame_bind tame_readAt fun _ => tame_pure) fun _ => tame_pure

theorem tame_loadEach {eff : Nat} {es : List ElemAt} : Tame (loadEach eff es) := by
  unfold loadEach
  exact tame_bind (tame_gather fun _ => tame_touchElem) fun _ => tame_bind tame_detectAll fun _ => tame_readTouches

theorem tame_loadElems {f : Furrow} {eff len : Nat} {es : List (Nat × Quad Nat)} : Tame (loadElems f eff len es) := by
  unfold loadElems
  exact tame_bind tame_plan fun _ => tame_bind tame_detectAll fun _ => tame_readTouches

theorem tame_deliverLoad {d : BitVec 8} {m : Option Nat} {w : Nat} {tag : Option Tag} {x : Loaded} {map : CMap} : Tame
    (deliverLoad d m w tag x map) := by
  unfold deliverLoad
  exact tame_bind tame_look fun _ => tame_bind tame_await fun _ => tame_pure

theorem State.Canonical.putItem {s : State} {w : Nat} {x : Touch × Nat} (h : s.Canonical) : (State.putItem s w x).Canonical := by
  unfold State.putItem
  exact canonical_ite h.writePlace h.writePlace

theorem State.Canonical.putItems {s : State} {w : Nat} {l : List (Touch × Nat)} (h : s.Canonical) : (State.putItems s w
    l).Canonical := by
  unfold State.putItems
  exact h.foldl fun _ _ h1 => h1.putItem

theorem State.Canonical.noteItems {s : State} {a : Author} {w : Nat} {l : List (Touch × Nat)} (h : s.Canonical) :
    (State.noteItems s a w l).Canonical := by
  unfold State.noteItems
  exact h.foldl fun _ _ h1 => h1.recordAt

theorem tame_writeItems {a : Author} {w : Nat} {l : List (Touch × Nat)} : Tame (writeItems a w l) := by
  unfold writeItems
  refine tame_bind tame_look fun _ => ?_
  split
  · exact tame_access
  · exact tame_change fun _ h1 => h1.noteItems.sweep.putItems

theorem tame_storeItems {w : Nat} {l : List (Touch × Nat)} : Tame (storeItems w l) := by
  unfold storeItems
  exact tame_bind tame_look fun _ => tame_bind tame_writeItems fun _ => tame_change fun _ h1 => h1.foldl fun _ _ h2 => h2.accessed

theorem tame_storeElems {f : Furrow} {eff len : Nat} {val scale : Nat → Nat} {es : List (Nat × Quad Nat)} : Tame (storeElems f
    eff len val scale es) := by
  unfold storeElems
  exact tame_bind tame_plan fun _ => tame_bind tame_detectAll fun _ => tame_storeItems

theorem tame_offImage {x : BitVec 8} {na : Bool} {g : State → Quad Nat} : Tame (offImage x na g) := by
  unfold offImage
  exact tame_bind tame_look fun _ => tame_ite tame_pure tame_putFurrow

/-! ## LoadL -/

theorem outcome_execLdv {f : E64} {s : State} (h : s.Canonical) : OutcomeKeeps (execLdv f s) := by
  unfold execLdv
  exact outcome_runE64 (tame_bind tame_look fun _ => tame_bind tame_legal fun _ => tame_bind tame_loadElems fun _ => tame_bind
    tame_deliverLoad fun _ => tame_ite tame_pure (tame_bind tame_putFurrow fun _ => tame_pure)) (tame_bind tame_offImage fun _ =>
    tame_zeroPush) h

theorem outcome_execLdq {f : E64} {s : State} (h : s.Canonical) : OutcomeKeeps (execLdq f s) := by
  unfold execLdq
  exact outcome_runE64 (tame_bind tame_look fun _ => tame_bind tame_legal fun _ => tame_bind tame_awaitWords fun _ => tame_bind
    tame_loadEach fun _ => tame_ite tame_pure (tame_bind tame_putFurrow fun _ => tame_pure)) (tame_bind tame_look fun _ =>
    tame_bind tame_awaitWords fun _ => tame_ite tame_pure (tame_bind tame_putFurrow fun _ => tame_pure)) h

theorem outcome_execLgth {f : E64} {s : State} (h : s.Canonical) : OutcomeKeeps (execLgth f s) := by
  unfold execLgth
  exact outcome_runE64 (tame_bind tame_look fun _ => tame_ite (tame_bind tame_illegal fun _ => tame_bind tame_legal fun _ =>
    tame_bind tame_loadElems fun _ => tame_deliverLoad) (tame_bind tame_legal fun _ => tame_bind tame_loadElems fun _ =>
    tame_deliverLoad)) tame_zeroPush h

theorem outcome_execLbc {f : E64} {s : State} (h : s.Canonical) : OutcomeKeeps (execLbc f s) := by
  unfold execLbc
  exact outcome_runE64 (tame_bind tame_look fun _ => tame_bind tame_legal fun _ => tame_bind tame_loadElems fun _ => tame_bind
    tame_deliverLoad fun _ => tame_ite tame_pure (tame_bind tame_putFurrow fun _ => tame_pure)) (tame_bind tame_offImage fun _ =>
    tame_zeroPush) h

theorem outcome_execLpre {f : E64} {s : State} (h : s.Canonical) : OutcomeKeeps (execLpre f s) := by
  unfold execLpre
  exact outcome_runE64 (tame_bind tame_look fun _ => tame_bind tame_legal fun _ => tame_pure) tame_nothing h

theorem outcome_execLadv {f : E64} {s : State} (h : s.Canonical) : OutcomeKeeps (execLadv f s) := by
  unfold execLadv
  exact outcome_runE64 (tame_bind tame_look fun _ => tame_bind tame_legal fun _ => tame_bind tame_putFurrow fun _ => tame_pure)
    tame_nothing h

theorem outcome_execLrst {f : E64} {s : State} (h : s.Canonical) : OutcomeKeeps (execLrst f s) := by
  unfold execLrst
  exact outcome_runE64 (tame_bind tame_look fun _ => tame_bind tame_legal fun _ => tame_bind tame_putFurrow fun _ => tame_pure)
    tame_nothing h

theorem outcome_execLmsk {f : E64} {s : State} (h : s.Canonical) : OutcomeKeeps (execLmsk f s) := by
  unfold execLmsk
  exact outcome_runE64 (tame_bind tame_look fun _ => tame_bind tame_legal fun _ => tame_bind tame_loadElems fun _ => tame_ite
    tame_pure (tame_bind tame_putFurrow fun _ => tame_pure)) (tame_bind tame_offImage fun _ => tame_pure) h

theorem outcome_execLcbld {f : E64} {s : State} (h : s.Canonical) : OutcomeKeeps (execLcbld f s) := by
  unfold execLcbld
  exact outcome_runE64 (tame_bind tame_look fun _ => tame_bind tame_legal fun _ => tame_bind tame_loadEach fun _ => tame_ite
    (tame_bind (tame_work fun _ h1 => h1) fun _ => tame_pure) (tame_bind tame_putFurrow fun _ => tame_bind (tame_work fun _ h1 =>
    h1) fun _ => tame_pure)) (tame_bind tame_look fun _ => tame_ite tame_pure (tame_bind tame_putFurrow fun _ => tame_pure)) h

theorem outcome_execLcbsw {f : E64} {s : State} (h : s.Canonical) : OutcomeKeeps (execLcbsw f s) := by
  unfold execLcbsw
  exact outcome_runE64 (tame_bind (tame_work fun _ h1 => h1) fun _ => tame_pure) tame_nothing h

/-! ## StoreW -/

theorem tame_storeImage {f : E64} {na : Bool} : Tame (storeImage f na) := by
  unfold storeImage
  exact tame_bind tame_look fun _ => tame_bind tame_legal fun _ => tame_bind tame_readSrc fun _ => tame_bind tame_legal fun _ =>
    tame_bind tame_storeElems fun _ => tame_ite tame_pure tame_putFurrow

theorem tame_offStore {f : E64} {w : Nat} {na : Bool} : Tame (offStore f w na) := by
  unfold offStore
  exact tame_bind tame_discard fun _ => tame_bind tame_offImage fun _ => tame_pure

theorem outcome_execWst {f : E64} {s : State} (h : s.Canonical) : OutcomeKeeps (execWst f s) := by
  unfold execWst
  exact outcome_runE64 (tame_bind tame_storeImage fun _ => tame_pure) tame_offStore h

theorem outcome_execWstq {f : E64} {s : State} (h : s.Canonical) : OutcomeKeeps (execWstq f s) := by
  unfold execWstq
  exact outcome_runE64 (tame_bind tame_storeImage fun _ => tame_bind (tame_change fun _ h1 => h1.same rfl rfl rfl) fun _ =>
    tame_pure) tame_offStore h

theorem outcome_execWsct {f : E64} {s : State} (h : s.Canonical) : OutcomeKeeps (execWsct f s) := by
  unfold execWsct
  exact outcome_runE64 (tame_bind tame_look fun _ => tame_bind tame_legal fun _ => tame_bind tame_readSrc fun _ => tame_bind
    tame_storeElems fun _ => tame_pure) (tame_bind tame_discard fun _ => tame_pure) h

theorem outcome_execWamo {f : E64} {s : State} (h : s.Canonical) : OutcomeKeeps (execWamo f s) := by
  unfold execWamo
  exact outcome_runE64 (tame_bind tame_look fun _ => tame_bind tame_legal fun _ => tame_bind tame_readSrc fun _ => tame_bind
    tame_plan fun _ => tame_ite (tame_bind (tame_change fun _ h1 => h1.release) fun _ => tame_bind (tame_each fun _ => tame_bind
    tame_atomicAt fun _ => tame_pure) fun _ => tame_ite tame_pure (tame_bind tame_putFurrow fun _ => tame_pure)) (tame_ite
    (tame_bind (tame_change fun _ h1 => h1.release) fun _ => tame_bind (tame_each fun _ => tame_bind tame_atomicAt fun _ =>
    tame_pure) fun _ => tame_ite tame_pure (tame_bind tame_putFurrow fun _ => tame_pure)) (tame_bind (tame_each fun _ => tame_bind
    tame_atomicAt fun _ => tame_pure) fun _ => tame_ite tame_pure (tame_bind tame_putFurrow fun _ => tame_pure)))) (tame_ite
    (tame_bind tame_discard fun _ => tame_pure) tame_offStore) h

theorem State.Canonical.addCell {s : State} {a : Author} {p : Place} {anchor : Int} {t : XReal} (h : s.Canonical) :
    (State.addCell s a p anchor t).Canonical := by
  unfold State.addCell
  exact h.recordAt.writePlace

theorem tame_addCells {scope : Nat} {anchor : Int} {val : Nat → XReal} {l : List Touch} : Tame (addCells scope anchor val l) := by
  unfold addCells
  refine tame_each fun _ => ?_
  refine tame_bind tame_look fun _ => ?_
  split
  · exact tame_access
  · exact tame_change fun _ h1 => h1.noteRead.addCell.accessed

theorem outcome_execWcadd {f : E64} {s : State} (h : s.Canonical) : OutcomeKeeps (execWcadd f s) := by
  unfold execWcadd
  exact outcome_runE64 (tame_bind tame_look fun _ => tame_bind tame_legal fun _ => tame_bind tame_readSrc fun _ => tame_bind
    tame_plan fun _ => tame_bind tame_addCells fun _ => tame_ite tame_pure (tame_bind tame_putFurrow fun _ => tame_pure))
    (tame_ite (tame_bind tame_discard fun _ => tame_pure) tame_offStore) h

theorem State.Canonical.flushLine {s : State} {p : Place} (h : s.Canonical) : (State.flushLine s p).Canonical := by
  unfold State.flushLine
  split
  · exact canonical_ite h.flushPool h
  · exact h

theorem tame_flushPlan {u : Furrow} {blocked : Bool} {l : List (Nat × Quad Nat)} : Tame (flushPlan u blocked l) := by
  induction l with
  | nil => exact tame_pure
  | cons e r ih =>
    have rest : ∀ {x y : List Touch}, Tame (do
        let l ← flushPlan u blocked r
        pure (x ++ (y ++ l))) := tame_bind ih fun _ => tame_pure
    show Tame (match u.term e.2 with
      | none => _
      | some t => _)
    split
    · exact tame_trap
    · refine tame_bind tame_look fun _ => tame_bind (tame_ite tame_pure (tame_bind tame_touchAt fun _ => tame_pure)) fun _ => ?_
      exact tame_ite (tame_bind (tame_ite tame_pure (tame_bind tame_touchAt fun _ => tame_pure)) fun _ => rest) (tame_bind tame_pure fun _ => rest)

theorem outcome_execWflush {f : E64} {s : State} (h : s.Canonical) : OutcomeKeeps (execWflush f s) := by
  unfold execWflush
  exact outcome_runE64 (tame_bind tame_look fun _ => tame_bind tame_legal fun _ => tame_bind tame_flushPlan fun _ => tame_ite
    (tame_bind (tame_change fun _ h1 => h1.foldl fun _ _ h2 => h2.flushLine) fun _ => tame_bind tame_putFurrow fun _ => tame_pure)
    (tame_bind tame_putFurrow fun _ => tame_pure)) (tame_bind tame_offImage fun _ => tame_pure) h

theorem outcome_execWmsk {f : E64} {s : State} (h : s.Canonical) : OutcomeKeeps (execWmsk f s) := by
  unfold execWmsk
  exact outcome_runE64 (tame_bind tame_look fun _ => tame_bind tame_legal fun _ => tame_bind tame_storeElems fun _ => tame_ite
    tame_pure (tame_bind tame_putFurrow fun _ => tame_pure)) (tame_bind tame_offImage fun _ => tame_pure) h

end Sys2Proof.Machine
end

section
/-! PROOF. What the canonical form (O60) survives, function by function in the model's order: copies, control, synchronisation, routing and the lanes of V. -/
namespace Sys2Proof.Machine

/-! ## Copy -/

theorem tame_remoteKnot {f : E64} : Tame (remoteKnot f) := by
  unfold remoteKnot
  refine tame_bind tame_look fun _ => ?_
  refine tame_ite ?_ tame_pure
  dsimp only
  split
  · exact tame_pure
  · exact tame_trap

theorem tame_copyContext {f : Furrow} : Tame (copyContext f) := by
  unfold copyContext
  exact tame_bind tame_look fun _ => tame_ite tame_pure tame_trap

theorem tame_issueCopy {f : E64} {xor : Bool} : Tame (issueCopy f xor) := by
  unfold issueCopy
  exact tame_bind tame_look fun _ => tame_bind tame_legal fun _ => tame_bind tame_copyContext fun _ => tame_ite (tame_bind
    tame_remoteKnot fun _ => tame_bind tame_await fun _ => tame_bind (tame_change fun _ h1 => h1.release) fun _ => tame_bind
    (tame_change fun _ h1 => h1.same rfl rfl rfl) fun _ => tame_bind (tame_work fun _ h1 => h1) fun _ => tame_pure) (tame_bind
    tame_copyContext fun _ => tame_bind tame_remoteKnot fun _ => tame_bind tame_await fun _ => tame_bind (tame_change fun _ h1 =>
    h1.release) fun _ => tame_bind (tame_change fun _ h1 => h1.same rfl rfl rfl) fun _ => tame_bind (tame_work fun _ h1 => h1) fun
    _ => tame_pure)

theorem tame_engineCheck {p : Place} {n : Nat} : Tame (engineCheck p n) := by
  unfold engineCheck
  refine tame_bind tame_look fun _ => ?_
  split
  · exact tame_stop
  · exact tame_trap
  · exact tame_change fun _ h1 => h1.noteRead

theorem tame_engineRead {r : Reader} {p : Place} {n : Nat} : Tame (engineRead r p n) := by
  unfold engineRead
  exact tame_bind tame_engineCheck fun _ => tame_bind tame_look fun _ => tame_bind (tame_change fun _ h1 => h1.looked) fun _ =>
    tame_pure

theorem tame_engineNewest {w : Who} {p : Place} {n : Nat} : Tame (engineNewest w p n) := by
  unfold engineNewest
  exact tame_bind tame_engineCheck fun _ => tame_bind (tame_change fun _ h1 => h1.lookedNewest) fun _ => tame_look

theorem tame_touch {c : CopyCmd} {side : Nat} {f : Furrow} {k : Access} {fmt va shift n : Nat} {block : Option Nat} : Tame
    (CopyCmd.touch c side f k fmt va shift n block) := by
  unfold CopyCmd.touch
  exact tame_bind tame_look fun _ => tame_bind tame_touchIn fun _ => tame_bind tame_detectIn fun _ => tame_pure

theorem tame_term {c : CopyCmd} {e : Quad Nat} : Tame (CopyCmd.term c e) := by
  unfold CopyCmd.term
  exact tame_bind tame_look fun _ => tame_ite (tame_ite (tame_bind tame_engineRead fun _ => tame_pure) tame_trap) tame_pure

theorem tame_value {c : CopyCmd} {e : Quad Nat} : Tame (CopyCmd.value c e) := by
  unfold CopyCmd.value
  refine tame_bind tame_look fun _ => ?_
  refine tame_ite (tame_bind tame_engineRead fun _ => tame_pure) ?_
  split
  · exact tame_pure
  · exact tame_bind tame_term fun _ => tame_bind tame_touch fun _ => tame_bind tame_engineRead fun _ => tame_pure

theorem tame_scale {c : CopyCmd} {e : Quad Nat} : Tame (CopyCmd.scale c e) := by
  unfold CopyCmd.scale
  split
  · exact tame_pure
  · exact tame_bind tame_touch fun _ => tame_bind tame_look fun _ => tame_engineRead

theorem tame_element {c : CopyCmd} {i : Nat} : Tame (CopyCmd.element c i) := by
  unfold CopyCmd.element
  exact tame_bind tame_value fun _ => tame_ite (tame_bind tame_scale fun _ => tame_bind tame_touch fun _ => tame_ite (tame_bind
    tame_touch fun _ => tame_pure) tame_pure) (tame_bind tame_pure fun _ => tame_bind tame_touch fun _ => tame_ite (tame_bind
    tame_touch fun _ => tame_pure) tame_pure)

theorem tame_elements {c : CopyCmd} : ∀ {l : List Nat}, Tame (c.elements l)
  | [] => tame_pure
  | _ :: _ => tame_bind tame_element fun _ => tame_bind tame_elements fun _ => tame_pure

theorem State.Canonical.xorItem {s : State} {a : Author} {w : Nat} {x : Touch × Nat} (h : s.Canonical) : (State.xorItem s a w
    x).Canonical := by
  unfold State.xorItem
  exact h.recordAt.putItem

theorem tame_writes {c : CopyCmd} {l : List (Touch × Nat)} : Tame (CopyCmd.writes c l) := by
  unfold CopyCmd.writes
  exact tame_ite (tame_bind (tame_each fun _ => tame_bind tame_engineNewest fun _ => tame_pure) fun _ => tame_change fun _ h1 =>
    h1.foldl fun _ _ h2 => h2.xorItem) tame_writeItems

theorem State.Canonical.putCopy {s : State} {c : CopyCmd} (h : s.Canonical) : (State.putCopy s c).Canonical := by
  unfold State.putCopy
  exact h.same rfl rfl rfl

theorem tame_runChunk {c : CopyCmd} : Tame (CopyCmd.runChunk c) := by
  unfold CopyCmd.runChunk
  exact tame_bind tame_elements fun _ => tame_bind tame_writes fun _ => tame_change fun _ h1 => h1.putCopy

theorem tame_errorRecord {w : Worker} {ag : Agent} {r : List Word} : Tame (errorRecord w ag r) := by
  have hw : ∀ (s : State) (cx : Cx) (log : Nat), s.Canonical → Keeps s (do
      let p ← placeIn cx ag log 4 .atomic none (fun _ => false) (.ok ())
      engineCheck p 4
      let n ← M.look fun s => s.readPlace p 4
      writeAllM [(p, toBytes (n + 1) 4)]
      let q ← placeIn cx ag (log + 32 + 32 * (n % 31)) 8 .store none (fun _ => false) (.ok ())
      writeAllM [(q, bytesOf r)]) := fun s cx log h =>
    tame_bind tame_placeIn (fun _ => tame_bind tame_engineCheck fun _ => tame_bind tame_look fun _ => tame_bind tame_writeAllM fun _ =>
      tame_bind tame_placeIn fun _ => tame_writeAllM) s h
  refine fun s h => keeps_of_result ?_
  unfold errorRecord
  dsimp only
  split
  · exact resultKeeps_ok h
  · split
    · exact resultKeeps_ok h
    · exact ⟨(hw s _ _ h).keeps⟩

theorem State.Canonical.engineSettle {s : State} (h : s.Canonical) {key : Nat} {pc : PAddr} {r : Except Stop (Unit × State)}
    (hr : ResultKeeps r) : (engineSettle key pc s r).Canonical := by
  unfold Machine.engineSettle
  split
  · exact hr.keeps _ _ rfl
  · exact h.machineCheck
  · exact h

theorem canonical_fail {c : CopyCmd} {t : Trap} {s : State} (h : s.Canonical) : (c.fail t s).Canonical := by
  have h0 : (if t.cause = 0x0B then s.modLaunch (s.worker c.key).lid fun l => { l with detOff := true } else s).Canonical :=
    canonical_ite h.modLaunch h
  exact h0.putCopy.engineSettle ⟨(tame_errorRecord _ h0.putCopy).keeps⟩

theorem State.Canonical.copyChunk {s : State} {key seq : Nat} (h : s.Canonical) : (s.copyChunk key seq).Canonical := by
  unfold State.copyChunk
  split
  · exact h
  · refine canonical_ite ?_ h
    split
    · exact canonical_fail h
    · exact h.engineSettle ⟨(tame_runChunk s h).keeps⟩

theorem State.Canonical.completeKnot {s : State} {key knot : Nat} {remote : Option Word} {err : Bool} (h : s.Canonical) :
    (State.completeKnot s key knot remote err).Canonical := by
  unfold State.completeKnot
  split
  · exact h.modWorker fun _ h1 => h1
  · split
    · exact h.addFarKnot
    · exact h

theorem State.Canonical.visibleAt {s : State} {key born scope : Nat} {failed : Bool} (h : s.Canonical) : (State.visibleAt s key
    born scope failed).Canonical := by
  unfold State.visibleAt
  exact canonical_ite ((canonical_ite h h.performCommand).flushAllPool) (canonical_ite h h.performCommand)

theorem State.Canonical.copyDone {s : State} {key seq : Nat} (h : s.Canonical) : (s.copyDone key seq).Canonical := by
  unfold State.copyDone
  split
  · exact h
  · have h1 : { s with copies := s.copies.filter fun x => !(x.key == key && x.seq == seq) }.Canonical := h.same rfl rfl rfl
    exact canonical_ite (State.Canonical.completeKnot (canonical_ite (h1.visibleAt.modWorker fun _ hw => hw) h1.visibleAt)) h

/-! ## Control -/

theorem tame_postOutcome {o : CtlOut} : Tame (postOutcome o) := by
  unfold postOutcome
  exact tame_bind tame_look fun _ => tame_ite tame_pure (tame_bind tame_await fun _ => tame_work fun _ h1 => h1)

theorem tame_transferS {len : Nat} {k : Transfer} {target : PAddr} : Tame (transferS len k target) := by
  unfold transferS
  exact tame_bind tame_look fun _ => tame_bind tame_await fun _ => tame_bind tame_postOutcome fun _ => tame_work fun _ h1 => h1

theorem tame_fallS {len : Nat} : Tame (fallS len) := by
  unfold fallS
  exact tame_bind tame_look fun _ => tame_bind tame_await fun _ => tame_bind tame_postOutcome fun _ => tame_work fun _ h1 => h1

theorem tame_guardedTransfer {len : Nat} {g : Guard} {k : Transfer} {target : State → PAddr} : Tame (guardedTransfer len g k
    target) := by
  unfold guardedTransfer
  exact tame_bind tame_look fun _ => tame_ite (tame_ite (tame_ite (tame_bind (tame_work fun _ h1 => h1) fun _ => tame_transferS)
    tame_transferS) tame_trap) tame_fallS

theorem tame_follow {len : Nat} {kind : Nat → Transfer} : Tame (follow len kind) := by
  unfold follow
  refine tame_bind tame_look fun _ => ?_
  refine tame_bind tame_await fun _ => ?_
  split
  · exact tame_stall
  · exact tame_ite (tame_bind tame_await fun _ => tame_change fun _ h1 => h1.modSt) (tame_change fun _ h1 => h1.modSt)

theorem outcome_runAny {act : M Unit} {s : State} (ha : Tame act) (h : s.Canonical) : OutcomeKeeps (runAny act s) := by
  unfold runAny
  split
  · exact h.settleStop ⟨(ha s h).keeps⟩
  · exact outcome_fault

theorem outcome_runControl {len : Nat} {kind : Nat → Transfer} {own : M Unit} {s : State} (ho : Tame own) (h : s.Canonical) :
    OutcomeKeeps (runControl len kind own s) := outcome_runAny (tame_ite ho tame_follow) h

theorem outcome_execRet {s : State} (h : s.Canonical) : OutcomeKeeps (execRet s) := by
  unfold execRet
  exact outcome_runControl (tame_bind tame_look fun _ => tame_ite tame_illegal tame_transferS) h

theorem State.Canonical.commitTask {s : State} (h : s.Canonical) : (State.commitTask s).Canonical := by
  unfold State.commitTask
  exact canonical_ite ((h.modWk h.wk).modLaunch) h

theorem State.Canonical.lastExit {s : State} (h : s.Canonical) : (State.lastExit s).Canonical := by
  unfold State.lastExit
  exact canonical_ite (canonical_ite h.commitTask.modLaunch h.commitTask) h

theorem outcome_execExit {s : State} (h : s.Canonical) : OutcomeKeeps (execExit s) := by
  unfold execExit
  exact outcome_runAny (tame_bind tame_await fun _ => tame_change fun _ h1 => h1.release.modSt.lastExit) h

theorem tame_enterBlock {blen : Nat} {rot : Bool} {count : Nat} : Tame (enterBlock blen rot count) := by
  unfold enterBlock
  exact tame_bind tame_look fun _ => tame_bind tame_await fun _ => tame_ite (tame_change fun _ h1 => h1.modSt) (tame_ite
    tame_illegal (tame_bind tame_await fun _ => tame_change fun _ h1 => h1.modSt))

theorem outcome_execHeadland {b : BitVec 11} {r : Bool} {n : BitVec 14} {s : State} (h : s.Canonical) : OutcomeKeeps
    (execHeadland b r n s) := by
  unfold execHeadland
  exact outcome_runAny (tame_ite (tame_ite tame_enterBlock tame_illegal) tame_enterBlock) h

theorem outcome_execHeadlandCounted {b : BitVec 11} {r : Bool} {c : BitVec 5} {s : State} (h : s.Canonical) : OutcomeKeeps
    (execHeadlandCounted b r c s) := by
  unfold execHeadlandCounted
  refine outcome_runAny ?_ h
  refine tame_ite (tame_ite (tame_bind tame_enterBlock fun _ => tame_postOutcome) tame_illegal) ?_
  split
  · exact tame_stall
  · exact tame_bind tame_enterBlock fun _ => tame_change fun _ h1 => h1.modSt

theorem canonical_repetitionEnds {s : State} (h : s.Canonical) : (repetitionEnds s).Canonical := by
  unfold repetitionEnds
  dsimp only
  split
  · exact h
  · exact canonical_ite h.setSt h

theorem outcome_execYield {s : State} (h : s.Canonical) : OutcomeKeeps (execYield s) := by
  unfold execYield
  exact outcome_runS (tame_bind tame_await fun _ => tame_bind (tame_work fun _ h1 => spad_ite h1 h1) fun _ => tame_pure)
    tame_nothing h

theorem outcome_execStrap {g : Guard} {c : BitVec 10} {s : State} (h : s.Canonical) : OutcomeKeeps (execStrap g c s) := by
  unfold execStrap
  exact outcome_runOwn (tame_bind tame_await fun _ => tame_bind (tame_issueS tame_nothing tame_nothing) fun _ => tame_change fun _
    h1 => canonical_ite h1.takeTrap h1) h

theorem spad_acquireAll {w : Worker} {tick : Nat} (h : w.spad.wf = true) : (Worker.acquireAll w tick).spad.wf = true := by
  unfold Worker.acquireAll
  exact h

theorem State.Canonical.returned {s : State} (h : s.Canonical) : (s.returned).Canonical := by
  have hw : (if s.wk.inHandler then s.wk else { s.wk with stopPc := s.st.pc + 2, stopPos := s.st.pos + 1 }).spad.wf = true :=
    spad_ite h.wk h.wk
  have h1 : ∀ w : Worker, w.spad.wf = true → ((s.releaseAs 3 true).setWk (w.returned.acquireAll s.tick)).Canonical :=
    fun _ hw => h.releaseAs.setWk (spad_acquireAll (spad_returned hw))
  have hnote : ∀ t : State, t.Canonical → (t.setWk { t.wk with note := none }).Canonical := fun _ ht => ht.setWk ht.wk
  unfold State.returned
  dsimp only
  split
  · exact h1 _ hw
  · exact (hnote _ (h1 _ hw)).takeTrap

theorem outcome_execEret {s : State} (h : s.Canonical) : OutcomeKeeps (execEret s) := by
  unfold execEret
  exact outcome_runOwn (tame_ite tame_trap (tame_ite tame_illegal (tame_ite (tame_change fun _ h1 => h1.returned) (tame_change fun
    _ h1 => h1.modSt)))) h

/-! ## Sync -/

theorem tame_issueWait {len : Nat} {g : Guard} {on : M (Option Issue)} (hon : Tame on) : Tame (issueWait len g on) := by
  unfold issueWait
  refine tame_bind tame_look fun _ => tame_bind tame_await fun _ => tame_ite (tame_bind hon fun i => ?_) (tame_change fun _ h => h.modSt)
  split
  · exact tame_pure
  · exact tame_change fun _ h => h.modSt

theorem tame_knotWait {k : Nat} {n : BitVec 32} : Tame (knotWait k n) := by
  unfold knotWait
  exact tame_bind tame_look fun _ => tame_ite (tame_bind (tame_change fun _ h1 => h1.acquire) fun _ => tame_pure) (tame_bind
    (tame_change fun _ h1 => h1.modSt) fun _ => tame_pure)

theorem outcome_execFence {k sc : BitVec 3} {s : State} (h : s.Canonical) : OutcomeKeeps (execFence k sc s) := by
  unfold execFence
  exact outcome_runS (tame_ite (tame_bind (tame_change fun _ h1 => h1.releaseAs) fun _ => tame_ite (tame_bind (tame_change fun _
    h1 => h1.acquire) fun _ => tame_pure) tame_pure) (tame_ite (tame_bind (tame_change fun _ h1 => h1.acquire) fun _ => tame_pure)
    tame_pure)) tame_nothing h

theorem outcome_execSettle {s : State} (h : s.Canonical) : OutcomeKeeps (execSettle s) := by
  unfold execSettle
  exact outcome_runS (tame_bind tame_await fun _ => tame_bind (tame_change fun _ h1 => h1.performAll.acquire) fun _ => tame_pure)
    tame_nothing h

theorem tame_pushQ14 {x : Word} : Tame (pushQ14 x) := by
  unfold pushQ14
  exact tame_bind tame_look fun _ => tame_bind tame_await fun _ => tame_bind (tame_work fun _ h1 => h1) fun _ => tame_pure

theorem tame_popQ15 : Tame popQ15 := by
  unfold popQ15
  refine tame_bind tame_look fun _ => ?_
  split
  · exact tame_stall
  · exact tame_bind (tame_work fun _ h1 => h1) fun _ => tame_pure

theorem outcome_execSqpop {g : Guard} {d : BitVec 5} {s : State} (h : s.Canonical) : OutcomeKeeps (execSqpop g d s) := by
  unfold execSqpop
  exact outcome_runS (tame_bind tame_popQ15 fun _ => tame_writeS) (tame_bind tame_popQ15 fun _ => tame_pure) h

theorem tame_pushSL : Tame pushSL := by
  unfold pushSL
  exact tame_bind tame_look fun _ => tame_bind tame_await fun _ => tame_bind (tame_work fun _ h1 => h1) fun _ => tame_bind
    (tame_change fun _ h1 => h1.release) fun _ => tame_pure

theorem tame_popWS : Tame popWS := by
  unfold popWS
  exact tame_bind tame_look fun _ => tame_bind tame_await fun _ => tame_bind (tame_work fun _ h1 => h1) fun _ => tame_bind
    (tame_change fun _ h1 => h1.acquire) fun _ => tame_pure

theorem outcome_execKadd {g : Guard} {d a : BitVec 5} {s : State} (h : s.Canonical) : OutcomeKeeps (execKadd g d a s) := by
  unfold execKadd
  exact outcome_runS (tame_bind (tame_work fun _ h1 => h1) fun _ => tame_bind (tame_change fun _ h1 => h1.release) fun _ =>
    tame_pure) tame_nothing h

theorem outcome_execKaddi {g : Guard} {d : BitVec 5} {i : BitVec 10} {s : State} (h : s.Canonical) : OutcomeKeeps (execKaddi g d
    i s) := by
  unfold execKaddi
  exact outcome_runS (tame_bind (tame_work fun _ h1 => h1) fun _ => tame_bind (tame_change fun _ h1 => h1.release) fun _ =>
    tame_pure) tame_nothing h

theorem outcome_execKset {g : Guard} {d a : BitVec 5} {s : State} (h : s.Canonical) : OutcomeKeeps (execKset g d a s) := by
  unfold execKset
  exact outcome_runS (tame_bind (tame_work fun _ h1 => h1) fun _ => tame_bind (tame_change fun _ h1 => h1.release) fun _ =>
    tame_pure) tame_nothing h

theorem outcome_execKread {g : Guard} {d a : BitVec 5} {s : State} (h : s.Canonical) : OutcomeKeeps (execKread g d a s) := by
  unfold execKread
  exact outcome_runS (tame_bind (tame_change fun _ h1 => h1.acquire) fun _ => tame_writeS) tame_nothing h

theorem outcome_engineKadd {e : Eng} {f : E64} {s : State} (h : s.Canonical) : OutcomeKeeps (engineKadd e f s) := by
  unfold engineKadd
  exact outcome_runE64 tame_pure tame_nothing h

theorem outcome_engineKwait {e : Eng} {f : E64} {s : State} (h : s.Canonical) : OutcomeKeeps (engineKwait e f s) := by
  have rest : ∀ go : Option Issue, Tame (match go with
      | none => pure ()
      | some i => M.change fun s => s.modSt fun t => { t with wait := none }.issued 4 i (tokPushes e f.tk)) := fun go => by
    cases go with
    | none => exact tame_pure
    | some i => exact tame_change fun _ ht => ht.modSt
  have pops : ∀ t : State, t.Canonical → ((t.modWk fun w =>
      (tokPops e f.tk).foldl (fun w q => w.setTokens q (w.tokensIn q - 1)) w).popAcquire e f.tk).Canonical := fun t ht =>
    State.Canonical.popAcquire (ht.modWk ((congrArg Memory.wf (spad_popTokens e f.tk t.wk)).trans ht.wk))
  unfold engineKwait
  dsimp only
  refine outcome_runOwn (tame_bind tame_await fun _ => tame_bind tame_await fun _ => ?_) h
  exact tame_ite (tame_ite (tame_bind tame_knotWait rest) (tame_bind tame_pure rest))
    (tame_bind (tame_change pops) fun _ => tame_ite (tame_bind tame_knotWait rest) (tame_bind tame_pure rest))

theorem outcome_engineNop {e : Eng} {f : E64} {s : State} (h : s.Canonical) : OutcomeKeeps (engineNop e f s) := by
  unfold engineNop
  exact outcome_runE64 tame_nothing tame_nothing h

theorem tame_memberOnly {g : Nat} : Tame (memberOnly g) := by
  unfold memberOnly
  exact tame_bind tame_look fun _ => tame_ite tame_pure tame_trap

theorem tame_arrive {g : Nat} : Tame (arrive g) := by
  unfold arrive
  exact tame_bind (tame_work fun _ h1 => h1) fun _ => tame_change fun _ h1 => h1.release

theorem outcome_execSgarr {g : Guard} {c : BitVec 10} {s : State} (h : s.Canonical) : OutcomeKeeps (execSgarr g c s) := by
  unfold execSgarr
  exact outcome_runS (tame_bind tame_memberOnly fun _ => tame_bind tame_await fun _ => tame_bind tame_arrive fun _ => tame_pure)
    tame_nothing h

theorem tame_groupReturn : Tame groupReturn := by
  unfold groupReturn
  exact tame_bind (tame_change fun _ h1 => h1.acquire) fun _ => tame_pure

theorem outcome_execSgsync {g : Guard} {c : BitVec 10} {s : State} (h : s.Canonical) : OutcomeKeeps (execSgsync g c s) := by
  unfold execSgsync
  refine outcome_runOwn ?_ h
  refine tame_issueWait ?_
  split
  · exact tame_ite tame_groupReturn tame_pure
  · exact tame_bind tame_memberOnly fun _ => tame_bind tame_arrive fun _ => tame_bind tame_look fun _ => tame_ite tame_groupReturn
      (tame_bind (tame_change fun _ h1 => h1.modSt) fun _ => tame_pure)

theorem outcome_execStask {g : Guard} {d : BitVec 5} {s : State} (h : s.Canonical) : OutcomeKeeps (execStask g d s) := by
  unfold execStask
  refine outcome_runS ?_ tame_nothing h
  refine tame_ite tame_trap ?_
  split
  · exact tame_bind (tame_change fun _ h1 => h1.putLaunch) fun _ => tame_bind (tame_work fun _ h1 => spad_ite h1 h1) fun _ =>
      tame_bind (tame_change fun _ h1 => h1.acquire) fun _ => tame_pure
  · exact tame_bind tame_await fun _ => tame_bind (tame_change fun _ h1 => h1.acquire) fun _ => tame_pure

theorem outcome_execScommit {g : Guard} {s : State} (h : s.Canonical) : OutcomeKeeps (execScommit g s) := by
  unfold execScommit
  exact outcome_runS (tame_ite (tame_bind (tame_change fun _ h1 => h1.release) fun _ => tame_pure) (tame_ite (tame_ite tame_trap
    (tame_bind (tame_work fun _ h1 => h1) fun _ => tame_bind (tame_change fun _ h1 => h1.release) fun _ => tame_pure)) (tame_ite
    (tame_bind (tame_change fun _ h1 => h1.commitTask.release) fun _ => tame_pure) tame_trap))) tame_nothing h

theorem outcome_execSdtrig {g : Guard} {s : State} (h : s.Canonical) : OutcomeKeeps (execSdtrig g s) := by
  unfold execSdtrig
  exact outcome_runS (tame_bind (tame_change fun _ h1 => canonical_ite h1 ((h1.modWk h1.wk).release)) fun _ => tame_pure)
    tame_nothing h

theorem outcome_execSdwait {g : Guard} {s : State} (h : s.Canonical) : OutcomeKeeps (execSdwait g s) := by
  unfold execSdwait
  exact outcome_runS (tame_bind tame_await fun _ => tame_bind (tame_change fun _ h1 => h1.acquire) fun _ => tame_pure)
    tame_nothing h

theorem outcome_execSmbend {g : Guard} {s : State} (h : s.Canonical) : OutcomeKeeps (execSmbend g s) := by
  unfold execSmbend
  exact outcome_runS (tame_ite (tame_bind (tame_change fun _ h1 => h1.modLaunch) fun _ => tame_pure) (tame_bind tame_await fun _
    => tame_bind (tame_change fun _ h1 => h1.modLaunch) fun _ => tame_bind (tame_work fun _ h1 => h1) fun _ => tame_pure))
    tame_nothing h

/-! ## Routing -/

theorem tame_checkExperts {l : Launch} {ix : Nat → Int} : ∀ {rows : List Nat}, Tame (checkExperts l ix rows)
  | [] => tame_pure
  | _ :: _ => tame_ite tame_checkExperts tame_trap

theorem outcome_execWsend {f : E64} {s : State} (h : s.Canonical) : OutcomeKeeps (execWsend f s) := by
  unfold execWsend
  exact outcome_runE64 (tame_bind tame_look fun _ => tame_bind tame_legal fun _ => tame_bind tame_readSrc fun _ => tame_bind
    tame_checkExperts fun _ => tame_bind (tame_change fun _ h1 => h1.release) fun _ => tame_bind (tame_change fun _ h1 => h1.same
    rfl rfl rfl) fun _ => tame_bind (tame_work fun _ h1 => spad_foldl h1 fun _ _ h2 => h2) fun _ => tame_pure) (tame_bind
    tame_discard fun _ => tame_pure) h

theorem wf_foldl_writeBytes {m : Memory} (h : m.wf = true) {l : List (Nat × List Byte)} :
    (l.foldl (fun (m : Memory) x => m.writeBytes x.1 x.2) m).wf = true := by
  induction l generalizing m with
  | nil => exact h
  | cons _ _ ih => exact ih (Memory.wf_writeBytes _ _ _ h)

theorem spad_takeRow {w x : Worker} {woff : Nat} {q : SendReq} (h : w.spad.wf = true) (hx : w.takeRow woff q = .ok x) : x.spad.wf = true := by
  unfold Worker.takeRow at hx
  dsimp only at hx
  split at hx
  · cases hx
  · split at hx
    · cases hx
    · split at hx
      · cases hx
      · rw [← Except.ok.inj hx]
        refine spad_addKnot ?_
        dsimp only
        exact wf_foldl_writeBytes h

theorem canonical_decideRequest {s : State} (h : s.Canonical) {q : SendReq} : (s.decideRequest q).1.Canonical := by
  unfold State.decideRequest
  dsimp only
  split
  · exact h
  · next w hw =>
    have hwf : w.spad.wf = true := by
      split at hw
      · exact h.worker? hw
      · cases hw
    split
    · next w' hw' =>
      
      refine State.Canonical.put (State.Canonical.foldl h fun _ _ ht => ht.noteDone) _ ?_
      exact spad_takeRow hwf hw'
    · exact h

theorem spad_refused {w : Worker} {m : RefusalMsg} (h : w.spad.wf = true) : (Worker.refused w m).spad.wf = true := by
  unfold Worker.refused
  exact spad_addKnot (spad_ite h h)

theorem State.Canonical.sendRefusal {s : State} {q : SendReq} {m : RefusalMsg} (h : s.Canonical) : (State.sendRefusal s q
    m).Canonical := by
  unfold State.sendRefusal
  exact canonical_ite (h.same rfl rfl rfl) (h.same rfl rfl rfl)

theorem State.Canonical.admitRequest {s : State} {n : Nat} (h : s.Canonical) : (s.admitRequest n).Canonical := by
  unfold State.admitRequest
  split
  · exact h
  · have hr : { s with sends := dropNth s.sends n }.Canonical := h.same rfl rfl rfl
    dsimp only
    split
    · exact hr
    · split
      · exact h
      · split
        · exact canonical_decideRequest hr
        · exact (canonical_decideRequest hr).sendRefusal

theorem State.Canonical.refusalArrival {s : State} {n : Nat} (h : s.Canonical) : (s.refusalArrival n).Canonical := by
  have h1 : { s with refusals := dropNth s.refusals n }.Canonical := h.same rfl rfl rfl
  unfold State.refusalArrival
  split
  · exact h
  · exact h1.modWorker fun _ hw => spad_refused hw

theorem canonical_foldl_fst {α β : Type} {x : State × α} {l : List β} {f : State × α → β → State × α} (h : x.1.Canonical)
    (hf : ∀ x b, x.1.Canonical → (f x b).1.Canonical) : (l.foldl f x).1.Canonical := by
  induction l generalizing x with
  | nil => exact h
  | cons b r ih => exact ih (hf _ _ h)

theorem State.Canonical.decideHeld {s : State} {lid : Nat} (h : s.Canonical) : (s.decideHeld lid).Canonical := by
  unfold State.decideHeld
  refine State.Canonical.foldl (canonical_foldl_fst (h.same rfl rfl rfl) fun x q hx => ?_) fun _ _ ht => ht.modWorker fun _ hw => spad_refused hw
  dsimp only
  split
  · exact hx
  · split
    · exact canonical_decideRequest hx
    · split
      · exact (canonical_decideRequest hx).sendRefusal
      · exact canonical_decideRequest hx

theorem State.Canonical.closeBatch {s : State} {lid : Nat} (h : s.Canonical) : (State.closeBatch s lid).Canonical := by
  unfold State.closeBatch
  exact canonical_ite h.putLaunch h

/-- Every worker is changed in place, its scratchpad canonical. -/
theorem canonical_mapWorkers {s : State} (h : s.Canonical) (F : Nat × Worker → Worker)
    (hF : ∀ e : Nat × Worker, e.2.spad.wf = true → (F e).spad.wf = true) :
    { s with workers := s.workers.map fun e : Nat × Worker => (e.1, F e) }.Canonical :=
  PartsCanonical.of (partsCanonical_map h rfl rfl hF)

theorem State.Canonical.closePhase {s : State} {lid : Nat} (h : s.Canonical) : (s.closePhase lid).Canonical :=
  canonical_ite (canonical_mapWorkers h (fun e => if e.2.lid = lid then { e.2 with sent := [] } else e.2) fun _ he => spad_ite he he).putLaunch h

/-! ## Coords -/

theorem tame_moveChecks {f : E64} {w : Nat} {g : CMap → CMap} : Tame (moveChecks f w g) := by
  unfold moveChecks
  exact tame_bind tame_peekMap fun _ => tame_bind tame_ownCompanion fun _ => tame_bind tame_look fun _ => tame_legal

theorem tame_moveSlots {f : E64} {w : Nat} {slot : State → Nat → Except Stop Nat} : Tame (moveSlots f w slot) := by
  unfold moveSlots
  exact tame_bind tame_look fun _ => tame_bind tame_eachSlot fun _ => tame_pure

theorem outcome_fromMap {f : E64} {w shadow : Nat} {legal : Bool} {slot : State → CMap → Nat → Except Stop Nat} {s : State} (h :
    s.Canonical) : OutcomeKeeps (fromMap f w shadow legal slot s) := by
  unfold fromMap
  exact outcome_runE64 (tame_bind tame_peekMap fun _ => tame_bind tame_ownCompanion fun _ => tame_bind tame_look fun _ =>
    tame_bind tame_legal fun _ => tame_bind tame_readSrc fun _ => tame_bind tame_moveSlots fun _ => tame_deliverShape)
    tame_offQueues h

theorem tame_peekSix : Tame peekSix := by
  unfold peekSix
  exact tame_bind tame_look fun _ => tame_bind tame_await fun _ => tame_pure

theorem tame_dropSix : Tame dropSix := by
  unfold dropSix
  exact tame_work fun _ h1 => h1

theorem outcome_execVmap {f : E64} {s : State} (h : s.Canonical) : OutcomeKeeps (execVmap f s) := by
  unfold execVmap
  refine outcome_runE64 ?_ (tame_bind tame_discard fun _ => tame_bind tame_peekSix fun _ => tame_bind tame_dropSix fun _ =>
    tame_zeroPush) h
  refine tame_bind tame_look fun _ => ?_
  refine tame_bind tame_legal fun _ => ?_
  refine tame_bind tame_readSrc fun _ => ?_
  refine tame_bind tame_peekSix fun _ => ?_
  split
  · exact tame_illegal
  · exact tame_bind tame_dropSix fun _ => tame_deliverShape

theorem outcome_execVmapq {f : E64} {s : State} (h : s.Canonical) : OutcomeKeeps (execVmapq f s) := by
  unfold execVmapq
  exact outcome_runE64 (tame_bind tame_readSrc fun _ => tame_pure) (tame_bind tame_discard fun _ => tame_pure) h

theorem outcome_execVrot {f : E64} {s : State} (h : s.Canonical) : OutcomeKeeps (execVrot f s) := by
  unfold execVrot
  exact outcome_runE64 (tame_bind tame_moveChecks fun _ => tame_bind tame_readSrc fun _ => tame_bind tame_moveSlots fun _ =>
    tame_deliverShape) tame_offQueues h

theorem outcome_execVgbias {f : E64} {s : State} (h : s.Canonical) : OutcomeKeeps (execVgbias f s) := by
  unfold execVgbias
  exact outcome_runE64 (tame_bind tame_moveChecks fun _ => tame_bind tame_legal fun _ => tame_bind tame_readSrc fun _ => tame_bind
    tame_moveSlots fun _ => tame_deliverShape) tame_offQueues h

theorem outcome_execVcadd {f : E64} {s : State} (h : s.Canonical) : OutcomeKeeps (execVcadd f s) := by
  unfold execVcadd
  exact outcome_runE64 (tame_bind tame_look fun _ => tame_bind tame_legal fun _ => tame_bind tame_readSrc fun _ => tame_bind
    tame_look fun _ => tame_bind tame_meetCells fun _ => tame_bind (tame_change fun _ h1 => h1.addTerms) fun _ => tame_pure)
    (tame_bind tame_discard fun _ => tame_pure) h

/-! ## Move -/

theorem outcome_moveRun {f : E64} {g : CMap → CMap} {from_ : Shape → Nat → Option Nat} {s : State} (h : s.Canonical) :
    OutcomeKeeps (moveRun f g from_ s) := by
  unfold moveRun
  exact outcome_runE64 (tame_bind tame_moveChecks fun _ => tame_bind tame_readSrc fun _ => tame_bind tame_moveSlots fun _ =>
    tame_deliverShape) tame_offQueues h

theorem outcome_execVmov {f : E64} {s : State} (h : s.Canonical) : OutcomeKeeps (execVmov f s) := by
  unfold execVmov
  exact outcome_runE64 (tame_bind tame_moveChecks fun _ => tame_bind tame_readSrc fun _ => tame_bind tame_moveSlots fun _ =>
    tame_deliverShape) tame_offQueues h

theorem outcome_offsetRun {f : E64} {g : Nat → Int → CMap → CMap} {from_ : Int → Int → Option Int} {s : State} (h : s.Canonical)
    : OutcomeKeeps (offsetRun f g from_ s) := by
  unfold offsetRun
  exact outcome_runE64 (tame_bind tame_moveChecks fun _ => tame_bind tame_readSrc fun _ => tame_bind tame_readSrc fun _ =>
    tame_bind tame_moveSlots fun _ => tame_deliverShape) tame_offQueues h

theorem tame_notOwn {d c : BitVec 8} : Tame (notOwn d c) := by
  unfold notOwn
  exact tame_ite tame_illegal tame_pure

theorem tame_deliverPair {d c : BitVec 8} {w : Nat} {data comp : List Nat} {m : CMap} : Tame (deliverPair d c w data comp m) := by
  unfold deliverPair
  refine tame_bind tame_look fun _ => ?_
  refine tame_ite ?_ tame_pure
  dsimp only
  split
  · exact tame_pure
  · exact tame_pure

theorem outcome_execVperm {f : E64} {s : State} (h : s.Canonical) : OutcomeKeeps (execVperm f s) := by
  unfold execVperm
  exact outcome_runE64 (tame_bind tame_notOwn fun _ => tame_bind tame_look fun _ => tame_bind tame_legal fun _ => tame_bind
    tame_readSrc fun _ => tame_bind tame_readSrc fun _ => tame_bind tame_look fun _ => tame_bind tame_eachSlot fun _ =>
    tame_deliverPair) tame_offQueues h

theorem outcome_execVcompact {f : E64} {s : State} (h : s.Canonical) : OutcomeKeeps (execVcompact f s) := by
  unfold execVcompact
  exact outcome_runE64 (tame_bind tame_notOwn fun _ => tame_bind tame_look fun _ => tame_bind tame_legal fun _ => tame_bind
    tame_readSrc fun _ => tame_bind tame_look fun _ => tame_bind tame_eachSlot fun _ => tame_deliverPair) tame_offQueues h

theorem outcome_execVexpand {f : E64} {s : State} (h : s.Canonical) : OutcomeKeeps (execVexpand f s) := by
  unfold execVexpand
  exact outcome_runE64 (tame_bind tame_moveChecks fun _ => tame_bind tame_readLane fun _ => tame_bind tame_moveSlots fun _ =>
    tame_deliverShape) tame_offQueues h

/-! ## Reduce -/

theorem outcome_reduceRun {f : E64} {g : CMap → CMap} {pick : Shape → Option Nat → Nat → List Nat} {val : Bool → Nat → List Nat
    → Nat} {rounds : Bool} {s : State} (h : s.Canonical) : OutcomeKeeps (reduceRun f g pick val rounds s) := by
  unfold reduceRun
  exact outcome_runE64 (tame_bind tame_moveChecks fun _ => tame_bind tame_legal fun _ => tame_bind tame_readSrc fun _ => tame_bind
    tame_moveSlots fun _ => tame_deliverShape) tame_offQueues h

theorem outcome_execVrargmax {f : E64} {s : State} (h : s.Canonical) : OutcomeKeeps (execVrargmax f s) := by
  unfold execVrargmax
  exact outcome_runE64 (tame_bind tame_moveChecks fun _ => tame_bind tame_look fun _ => tame_bind tame_legal fun _ => tame_bind
    tame_readSrc fun _ => tame_bind tame_look fun _ => tame_bind tame_eachSlot fun _ => tame_bind tame_moveSlots fun _ =>
    tame_deliverShape) tame_offQueues h

theorem outcome_execVatmrg {f : E64} {s : State} (h : s.Canonical) : OutcomeKeeps (execVatmrg f s) := by
  unfold execVatmrg
  exact outcome_runE64 (tame_bind tame_moveChecks fun _ => tame_bind tame_readSrc fun _ => tame_bind tame_readSrc fun _ =>
    tame_bind tame_look fun _ => tame_bind (tame_work fun _ h1 => h1) fun _ => tame_deliverShape) tame_nothing h

end Sys2Proof.Machine
end

section
/-! PROOF. What the canonical form (O60) survives, function by function in the model's order: decode jobs, launches, contexts, the host port, M and the package. -/
namespace Sys2Proof.Machine

/-! ## Sau -/

theorem tame_sauPlace {key : Nat} {priv : Bool} {va n : Nat} {acc : Acc} : Tame (sauPlace key priv va n acc) := by
  unfold sauPlace
  exact tame_bind tame_look fun _ => tame_placeIn

theorem tame_sauRead {g : SauAgent} {va n : Nat} : Tame (sauRead g va n) := by
  unfold sauRead
  exact tame_bind tame_sauPlace fun _ => tame_bind tame_look fun _ => tame_engineRead

theorem tame_captureTable {g : SauAgent} {d : BitVec 512} {gen : Option Word} : Tame (captureTable g d gen) := by
  unfold captureTable
  refine tame_bind tame_look fun _ => ?_
  refine tame_bind tame_sauRead fun _ => ?_
  refine tame_ite ?_ ?_
  · refine tame_bind tame_trap fun _ => ?_
    refine tame_bind (tame_gather fun _ => tame_sauRead) fun _ => ?_
    refine tame_ite tame_pure ?_
    split
    · exact tame_trap
    · exact tame_pure
  · refine tame_bind (tame_gather fun _ => tame_sauRead) fun _ => ?_
    refine tame_ite tame_pure ?_
    split
    · exact tame_trap
    · exact tame_pure

theorem tame_tokenKeys {g : SauAgent} {d : BitVec 512} {entries : List Word} {t : Nat} : Tame (tokenKeys g d entries t) := by
  unfold tokenKeys
  exact tame_gather fun _ => tame_sauRead

theorem tame_tokenValues {g : SauAgent} {d : BitVec 512} {entries : List Word} {t : Nat} : Tame (tokenValues g d entries t) := by
  unfold tokenValues
  exact tame_gather fun _ => tame_bind tame_sauRead fun _ => tame_pure

theorem State.Canonical.putJob {s : State} {n : Nat} {j : SauJob} (h : s.Canonical) : (State.putJob s n j).Canonical := by
  unfold State.putJob
  exact h.same rfl rfl rfl

theorem tame_capture {j : SauJob} : Tame (SauJob.capture j) := by
  unfold SauJob.capture
  refine tame_bind tame_captureTable fun _ => ?_
  refine tame_bind tame_look fun _ => ?_
  split
  · exact tame_pure
  · exact tame_pure

theorem canonical_jobStep {s : State} (h : s.Canonical) {j : SauJob} {act : M SauJob} (ha : Tame act) : (s.jobStep j act).1.Canonical := by
  unfold State.jobStep
  split
  · exact (ha s h).keeps _ _ ‹_›
  · exact h
  · exact h.machineCheck
  · exact h

theorem outcome_execWattd {f : E64} {s : State} (h : s.Canonical) : OutcomeKeeps (execWattd f s) := by
  unfold execWattd
  refine outcome_runE64 (tame_bind tame_look fun s => tame_bind tame_legal fun _ => tame_bind tame_copyContext fun _ =>
    tame_bind tame_await fun _ => tame_bind (tame_change fun _ ht => ht.release) fun _ => tame_bind (tame_change fun t ht => ?_) fun _ =>
    tame_pure) tame_nothing h
  exact (canonical_jobStep ht tame_capture).same rfl rfl rfl

theorem tame_fold {j : SauJob} {span : Nat} : Tame (SauJob.fold j span) := by
  unfold SauJob.fold
  refine tame_bind (tame_gather fun _ => tame_bind tame_tokenKeys fun _ => tame_bind tame_tokenValues fun _ => tame_pure) fun _ =>
    ?_
  refine tame_bind tame_look fun _ => ?_
  refine tame_bind ?_ fun _ => tame_bind tame_writeItems fun _ => tame_pure
  refine tame_gather fun _ => ?_
  dsimp only
  split
  · exact tame_trap
  · exact tame_bind tame_touchIn fun _ => tame_pure

theorem State.Canonical.spanFold {s : State} {n span : Nat} (h : s.Canonical) : (s.spanFold n span).Canonical := by
  unfold State.spanFold
  split
  · exact h
  · exact canonical_ite (canonical_jobStep h (tame_ite tame_capture (tame_ite tame_fold tame_pure))).putJob h

theorem State.Canonical.sauFails {s : State} {key born xf knot scope cause : Nat} {addr : Word} {pc : PAddr} (h : s.Canonical) :
    (s.sauFails key born xf knot scope cause addr pc).Canonical := by
  unfold State.sauFails
  exact State.Canonical.completeKnot (State.Canonical.visibleAt (h.engineSettle ⟨(tame_errorRecord s h).keeps⟩))

theorem canonical_jobs {s : State} (h : s.Canonical) {l : List SauJob} : { s with jobs := l }.Canonical := h.same rfl rfl rfl

theorem State.Canonical.jobDone {s : State} {n : Nat} (h : s.Canonical) : (s.jobDone n).Canonical := by
  unfold State.jobDone
  split
  · exact h
  · refine canonical_ite h ?_
    split
    · exact (canonical_jobs h).sauFails
    · exact canonical_ite (State.Canonical.completeKnot (State.Canonical.visibleAt (canonical_ite h.putJob (canonical_jobs h)))) h

theorem outcome_execWatts {f : E64} {s : State} (h : s.Canonical) : OutcomeKeeps (execWatts f s) := by
  unfold execWatts
  exact outcome_runE64 (tame_bind tame_look fun _ => tame_bind tame_await fun _ => tame_bind (tame_change fun _ h1 => h1.release)
    fun _ => tame_bind (tame_change fun _ h1 => h1.same rfl rfl rfl) fun _ => tame_pure) tame_nothing h

theorem tame_scores {j : SauJob} {g : SauAgent} : Tame (SauJob.scores j g) := by
  unfold SauJob.scores
  refine tame_ite tame_pure ?_
  refine tame_bind tame_captureTable fun _ => ?_
  refine tame_bind tame_look fun _ => ?_
  split
  · exact tame_pure
  · exact tame_bind (tame_gather fun _ => tame_bind tame_tokenKeys fun _ => tame_pure) fun _ => tame_pure

theorem tame_add {p : ScorePass} {j : SauJob} : Tame (ScorePass.add p j) := by
  unfold ScorePass.add
  refine tame_bind tame_scores fun _ => ?_
  split
  · exact tame_pure
  · exact tame_bind (tame_gather fun _ => tame_bind tame_sauPlace fun _ => tame_bind tame_engineCheck fun _ => tame_pure) fun _ =>
      tame_bind (tame_change fun _ h1 => h1.foldl fun _ _ h2 => h2.addCell) fun _ => tame_pure

theorem State.Canonical.closePass {s : State} {n key tag : Nat} (h : s.Canonical) : (State.closePass s n key tag).Canonical := by
  unfold State.closePass
  exact h.same rfl rfl rfl

theorem State.Canonical.passDone {s : State} {n : Nat} (h : s.Canonical) : (s.passDone n).Canonical := by
  unfold State.passDone
  split
  · exact h
  · refine canonical_ite h ?_
    dsimp only
    split
    · exact h.closePass.sauFails
    · refine canonical_ite h (canonical_ite h.closePass.visibleAt.completeKnot ?_)
      split
      · next t ht => exact ((tame_add s h).keeps _ _ ht).closePass.visibleAt.completeKnot
      · exact h
      · exact h.closePass.sauFails
      · exact h.machineCheck
      · exact h

/-! ## Launches -/

theorem canonical_queuesTold {s : State} (h : s.Canonical) {q : Tab QueueSt} {l : List Nat} :
    { s with queues := q, messages := l }.Canonical := h.same rfl rfl rfl

theorem State.Canonical.advanceQueue {s : State} {q : Nat} (h : s.Canonical) : (s.advanceQueue q).Canonical := by
  unfold State.advanceQueue
  refine canonical_ite h ?_
  dsimp only
  split
  · exact canonical_queuesTold h.flushAllPool.putPhys
  · exact canonical_queues h.flushAllPool.putPhys

theorem State.Canonical.finish {s : State} {lid status : Nat} {digest : Option (BitVec 256)} (h : s.Canonical) :
    (s.finish lid status digest).Canonical := by
  unfold State.finish
  dsimp only
  refine State.Canonical.advanceQueue (canonical_queues (State.Canonical.modLaunch (State.Canonical.putPhys ?_)))
  split
  · exact h.performAll.putPhys
  · exact h.performAll

theorem State.Canonical.recordCheck {s : State} {lid pa : Nat} (h : s.Canonical) : (State.recordCheck s lid pa).Canonical := by
  unfold State.recordCheck
  exact h.logCheck

theorem State.Canonical.takeRecord {s : State} {q : Nat} (h : s.Canonical) : (s.takeRecord q).Canonical := by
  unfold State.takeRecord
  refine canonical_ite ?_ h
  have h0 : ∀ {a : Nat} {t : Tab QueueSt}, { s.correct a 256 with queues := t }.Canonical := canonical_queues (h.correct _ _)
  dsimp only
  split
  · exact h0.flushAllPool.putPhys.recordCheck.putLaunch.finish
  · exact h0.flushAllPool.putPhys.putLaunch
  · exact h0.flushAllPool.putPhys.putLaunch.finish

theorem State.Canonical.promote {s : State} (h : s.Canonical) : (State.promote s).Canonical := by
  unfold State.promote
  exact h.same rfl rfl rfl

theorem spad_newWorker {s : State} {lid wid core : Nat} {l : Launch} : (s.newWorker lid wid core l).spad.wf = true := rfl

theorem spad_checkEntry {s : State} {w : Worker} {entry : PAddr} (h : w.spad.wf = true) : (s.checkEntry w entry).spad.wf = true := by
  unfold State.checkEntry
  exact spad_ite h h

theorem canonical_started {s : State} (h : s.Canonical) {n q : Nat} {r : Option Nat} :
    { s with starts := n, lastQueue := q, reserved := r }.Canonical := h.same rfl rfl rfl
theorem canonical_coreUse {s : State} (h : s.Canonical) {t u : Tab Nat} : { s with coreUse := t, planeOwner := u }.Canonical := h.same rfl rfl rfl

theorem State.Canonical.startOn {s : State} {lid : Nat} {cores : List Nat} (h : s.Canonical) : (s.startOn lid cores).Canonical := by
  unfold State.startOn
  refine canonical_started (h.putLaunch.foldl fun t x ht => ?_)
  exact canonical_coreUse (ht.put _ (spad_checkEntry spad_newWorker))

theorem State.Canonical.resume {s : State} {lid : Nat} (h : s.Canonical) : (s.resume lid).Canonical := by
  unfold State.resume
  exact canonical_started (h.modLaunch.foldl fun _ _ ht => canonical_coreUse ht)

theorem State.Canonical.freeDone {s : State} {lid : Nat} (h : s.Canonical) : (State.freeDone s lid).Canonical := by
  unfold State.freeDone
  exact h.same rfl rfl rfl

theorem State.Canonical.makeRoom {s : State} {l : Launch} (h : s.Canonical) : (State.makeRoom s l).Canonical := by
  unfold State.makeRoom
  refine canonical_ite ?_ h
  split
  · exact h.modLaunch.freeDone
  · exact h

theorem State.Canonical.arbitrate {s : State} (h : s.Canonical) : (State.arbitrate s).Canonical := by
  unfold State.arbitrate
  dsimp only
  split
  · exact h.promote.same rfl rfl rfl
  · exact canonical_ite (canonical_ite (State.Canonical.resume (h.promote.same rfl rfl rfl)) (h.promote.same rfl rfl rfl))
      (canonical_ite (State.Canonical.makeRoom (h.promote.same rfl rfl rfl)) (canonical_ite (State.Canonical.startOn
      (h.promote.same rfl rfl rfl)) (h.promote.same rfl rfl rfl)))

theorem State.Canonical.endPhase {s : State} {lid : Nat} (h : s.Canonical) : (s.endPhase lid).Canonical :=
  canonical_ite (canonical_mapWorkers h.decideHeld.closePhase
    (fun e => if e.2.lid = lid then { e.2 with committed := false } else e.2) fun _ he => spad_ite he he).modLaunch h

theorem State.Canonical.freeLaunch {s : State} {lid : Nat} (h : s.Canonical) : (State.freeLaunch s lid).Canonical := by
  unfold State.freeLaunch
  exact h.same rfl rfl rfl

theorem State.Canonical.completeWorker {s : State} {key : Nat} (h : s.Canonical) : (s.completeWorker key).Canonical := by
  have h1 : ((s.performWorker key 3).modWorker key fun w => { w with status := .done }).Canonical := h.performWorker.modWorker fun _ hw => hw
  unfold State.completeWorker
  refine canonical_ite ?_ h
  dsimp only
  split
  · exact (canonical_jobs h1).modLaunch.freeLaunch
  · split
    · exact (canonical_jobs h1).freeDone
    · exact canonical_jobs h1

theorem State.Canonical.forget {s : State} {lid : Nat} (h : s.Canonical) : (s.forget lid).Canonical :=
  ⟨h.mem, h.dirty, tabSorted_filter _ _ h.workers, fun e he => h.spads e (List.mem_of_mem_filter he)⟩

theorem State.Canonical.completeLaunch {s : State} {lid : Nat} (h : s.Canonical) : (State.completeLaunch s lid).Canonical := by
  unfold State.completeLaunch
  exact canonical_ite h.finish.forget h

theorem State.Canonical.completeAborted {s : State} {lid : Nat} (h : s.Canonical) : (State.completeAborted s lid).Canonical := by
  unfold State.completeAborted
  exact canonical_ite h.finish.forget.modLaunch h

/-! ## Context -/

theorem State.Canonical.asS {s : State} {key : Nat} (h : s.Canonical) : (State.asS s key).Canonical := by
  unfold State.asS
  exact h.same rfl rfl rfl

theorem State.Canonical.enterTrap {s : State} {key : Nat} (h : s.Canonical) : (s.enterTrap key).Canonical := by
  unfold State.enterTrap
  split
  · exact h
  · next w hw =>
    have h1 : (s.putWorker key { w with note := none }).Canonical := h.put key (by have hwf := h.worker? hw; exact hwf)
    split
    · exact h
    · exact canonical_ite h1.asS.takeTrap h

theorem State.Canonical.requestPreemption {s : State} {key : Nat} (h : s.Canonical) : (State.requestPreemption s key).Canonical
    := by
  unfold State.requestPreemption
  exact h.modWorker fun _ h1 => spad_ite h1 h1

theorem State.Canonical.putVault {s : State} {core : Nat} {l : List AreaItem} (h : s.Canonical) : (State.putVault s core
    l).Canonical := by
  unfold State.putVault
  exact h.same rfl rfl rfl

theorem canonical_saved {s : State} (h : s.Canonical) {l : List SauJob} {t u : Tab Nat} :
    { s with jobs := l, saveArea := t, coreUse := u }.Canonical := h.same rfl rfl rfl

theorem State.Canonical.save {s : State} {key : Nat} (h : s.Canonical) : (s.save key).Canonical := by
  unfold State.save
  split
  · exact h
  · next w hw =>
    refine canonical_ite (canonical_saved (State.Canonical.put h.putVault.performWorker _ ?_)) h
    have hwf := h.worker? hw
    exact hwf

theorem State.Canonical.imageOut {s : State} {key core : Nat} (h : s.Canonical) : (State.imageOut s key core).Canonical := by
  unfold State.imageOut
  exact h.same rfl rfl rfl

theorem State.Canonical.imageBack {s : State} {key core : Nat} (h : s.Canonical) : (State.imageBack s key core).Canonical := by
  unfold State.imageBack
  exact h.same rfl rfl rfl

theorem State.Canonical.moveImage {s : State} {key : Nat} (h : s.Canonical) : (s.moveImage key).Canonical := by
  unfold State.moveImage
  split
  · exact h
  · next w hw =>
    have h1 : ∀ b, (s.putWorker key { w with imageMoved := b }).Canonical := fun b => h.put key (by have hwf := h.worker? hw; exact hwf)
    exact canonical_ite (canonical_ite (canonical_ite (h1 _).imageBack h) (canonical_ite (h1 _).imageOut h)) h

theorem State.Canonical.notify {s : State} {key : Nat} (h : s.Canonical) : (State.notify s key).Canonical := by
  unfold State.notify
  exact canonical_ite h (canonical_ite (h.put _ (h.worker _)) h.asS.takeTrap)

theorem State.Canonical.coldCaches {s : State} {core asid : Nat} (h : s.Canonical) : (State.coldCaches s core asid).Canonical :=
    by
  unfold State.coldCaches
  exact h.same rfl rfl rfl

theorem State.Canonical.reissue {s : State} {key : Nat} (h : s.Canonical) : (s.reissue key).Canonical := by
  refine h.foldl fun t n ht => ?_
  split
  · exact ht
  · exact canonical_ite (canonical_jobStep ht tame_capture).putJob ht

theorem canonical_saveArea {s : State} (h : s.Canonical) {t : Tab Nat} : { s with saveArea := t }.Canonical := h.same rfl rfl rfl

theorem State.Canonical.restore {s : State} {key : Nat} (h : s.Canonical) : (s.restore key).Canonical := by
  unfold State.restore
  split
  · exact h
  · next w hw =>
    refine canonical_ite (State.Canonical.notify (State.Canonical.reissue (State.Canonical.coldCaches (canonical_saveArea (h.put key ?_))))) h
    have hwf := h.worker? hw
    exact hwf

theorem State.Canonical.planesOut {s : State} {core key : Nat} (h : s.Canonical) : (State.planesOut s core key).Canonical := by
  unfold State.planesOut
  split
  · exact h
  · split
    · exact h
    · exact canonical_ite h (canonical_ite (h.same rfl rfl rfl) h.putVault)

theorem State.Canonical.transferPlanes {s : State} {key : Nat} (h : s.Canonical) : (State.transferPlanes s key).Canonical := by
  unfold State.transferPlanes
  split
  · exact h
  · exact canonical_ite (h.planesOut.same rfl rfl rfl) h

theorem State.Canonical.pageWalk {s : State} {key va : Nat} (h : s.Canonical) : (State.pageWalk s key va).Canonical := by
  unfold State.pageWalk
  split
  · exact h
  · refine canonical_ite ?_ h
    split
    · exact canonical_ite h.noteWalk.fill h
    · exact h

theorem State.Canonical.completeLoads {s : State} {pick : Nat → Bool} (h : s.Canonical) : (s.completeLoads pick).Canonical :=
  canonical_mapWorkers h _ fun _ he => he

theorem canonical_tlbs {s : State} (h : s.Canonical) {t u v w : Tab Tlb} :
    { s with coreTlb := t, dieTlb := u, engTlb := v, sauTlb := w }.Canonical := h.same rfl rfl rfl
theorem canonical_satinvs {s : State} (h : s.Canonical) {l : List Satinv} : { s with satinvs := l }.Canonical := h.same rfl rfl rfl

theorem State.Canonical.finishSatinv {s : State} {n : Nat} (h : s.Canonical) : (s.finishSatinv n).Canonical := by
  unfold State.finishSatinv
  split
  · exact h
  · exact State.Canonical.addFarKnot (canonical_satinvs (canonical_ite (canonical_tlbs h.completeLoads.performAll) h))

theorem canonical_knotAdds {s : State} (h : s.Canonical) {l : List KnotAdd} : { s with knotAdds := l }.Canonical := h.same rfl rfl rfl

theorem State.Canonical.wstqAdd {s : State} {n : Nat} (h : s.Canonical) : (s.wstqAdd n).Canonical := by
  unfold State.wstqAdd
  split
  · exact h
  · dsimp only
    exact State.Canonical.modWorker (canonical_knotAdds h.performAll.releaseTo) fun _ hw => hw

/-! ## HostPort -/

theorem State.Canonical.ifOwner {s : State} {m : Nat} {f : State → State} (h : s.Canonical) (hf : (f s).Canonical) : (s.ifOwner m f).Canonical :=
  canonical_ite hf h

theorem State.Canonical.setIrq {s : State} {q : Nat} {v : Word} (h : s.Canonical) : (State.setIrq s q v).Canonical := by
  unfold State.setIrq
  exact h.same rfl rfl rfl

theorem State.Canonical.writeRegister {s : State} {off : Nat} {v : Word} (h : s.Canonical) : (State.writeRegister s off
    v).Canonical := by
  unfold State.writeRegister
  exact canonical_ite (canonical_ite h (h.same rfl rfl rfl)) (canonical_ite (canonical_ite h (h.same rfl rfl rfl)) (canonical_ite
    (h.same rfl rfl rfl) (canonical_ite h.setIrq (canonical_ite (h.same rfl rfl rfl) h))))

theorem State.Canonical.ring {s : State} {q : Nat} (h : s.Canonical) : (s.ring q).Canonical := by
  unfold State.ring
  exact canonical_ite h (canonical_ite (canonical_queues h.setIrq) (canonical_queues h))

theorem State.Canonical.setRegion {s : State} {r : Nat} {x : Region} (h : s.Canonical) : (State.setRegion s r x).Canonical := by
  unfold State.setRegion
  exact h.same rfl rfl rfl

theorem State.Canonical.keepLoads {s : State} {pick : Nat → Bool} (h : s.Canonical) : (s.keepLoads pick).Canonical :=
  canonical_mapWorkers h _ fun _ he => he

theorem State.Canonical.loseRegion {s : State} {r state : Nat} (h : s.Canonical) : (s.loseRegion r state).Canonical := by
  have hk : (s.keepLoads (s.region r).has).Canonical := h.keepLoads
  exact State.Canonical.setRegion ⟨hk.mem, tabSorted_filter _ _ h.dirty, hk.workers, hk.spads⟩

theorem State.Canonical.writeRegion {s : State} {r : Nat} {v : Word} (h : s.Canonical) : (State.writeRegion s r v).Canonical := by
  unfold State.writeRegion
  exact canonical_ite h (canonical_ite (canonical_ite h h.loseRegion.setRegion) (canonical_ite (canonical_ite h.setRegion h)
    h.setRegion))

theorem canonical_poolUp {s : State} (h : s.Canonical) {l : List Nat} : { s with poolUp := l }.Canonical := h.same rfl rfl rfl

theorem State.Canonical.poolLost {s : State} {p : Nat} (h : s.Canonical) : (s.poolLost p).Canonical := by
  unfold State.poolLost
  refine (canonical_poolUp h).foldl fun _ _ ht => ?_
  exact canonical_ite ht.loseRegion ht

theorem State.Canonical.poolBack {s : State} {p : Nat} (h : s.Canonical) : (s.poolBack p).Canonical := by
  unfold State.poolBack
  refine canonical_ite ((canonical_poolUp h).foldl fun _ _ ht => ?_) h
  exact ht.setRegion

theorem State.Canonical.setPort {s : State} {p : Nat} {x : Port} (h : s.Canonical) : (State.setPort s p x).Canonical := by
  unfold State.setPort
  exact h.same rfl rfl rfl

theorem wf_foldl_writes {m : Memory} (h : m.wf = true) {l : List Write} {a : Write → Nat} {b : Write → List Byte} :
    (l.foldl (fun (m : Memory) u => m.writeBytes (a u) (b u)) m).wf = true := by
  induction l generalizing m with
  | nil => exact h
  | cons _ _ ih => exact ih (Memory.wf_writeBytes _ _ _ h)

theorem State.Canonical.undo {s : State} {gone : Write → Bool} (h : s.Canonical) : (s.undo gone).Canonical :=
  ⟨wf_foldl_writes h.mem, h.dirty, h.workers, h.spads⟩

theorem State.Canonical.loseStores {s : State} {p : Nat} (h : s.Canonical) : (State.loseStores s p).Canonical := by
  unfold State.loseStores
  exact canonical_ite h.undo.setPort h

theorem State.Canonical.portDown {s : State} {p : Nat} (h : s.Canonical) : (State.portDown s p).Canonical := by
  unfold State.portDown
  exact canonical_ite h.setPort.loseStores h

theorem State.Canonical.outsideCheck {s : State} {kind pa : Nat} (h : s.Canonical) : (State.outsideCheck s kind pa).Canonical :=
    by
  unfold State.outsideCheck
  exact h.logCheck

theorem State.Canonical.outsideRead {s : State} {pa n : Nat} {go : State → Nat → State} (h : s.Canonical)
    (hgo : ∀ t v, t.Canonical → (go t v).Canonical) : (s.outsideRead pa n go).Canonical := by
  unfold State.outsideRead
  refine canonical_ite ?_ h
  split
  · exact h.outsideCheck
  · exact hgo _ _ (h.correct _ _)

theorem State.Canonical.outsideWrite {s : State} {pa : Nat} {l : List Byte} (h : s.Canonical) : (State.outsideWrite s pa
    l).Canonical := by
  unfold State.outsideWrite
  refine canonical_ite ?_ h
  split
  · exact h.outsideCheck
  · exact h.writeDone

theorem State.Canonical.serve {s : State} {l144 : MemRequest} (h : s.Canonical) : (State.serve s l144).Canonical := by
  unfold State.serve
  split
  · exact h.outsideRead fun _ _ h1 => h1.same rfl rfl rfl
  · exact h.outsideWrite
  · exact h.outsideRead fun _ _ h1 => h1.outsideWrite.same rfl rfl rfl
  · exact h.outsideRead fun _ _ h1 => h1.outsideWrite
  · exact h.outsideRead fun _ _ h1 => h1.addCell
  · exact h.same rfl rfl rfl
  · exact h.same rfl rfl rfl

/-! ## Mask -/

theorem outcome_execVcmp {f : E64} {s : State} (h : s.Canonical) : OutcomeKeeps (execVcmp f s) := by
  unfold execVcmp
  exact outcome_runE64 (tame_bind tame_laneChecks fun _ => tame_bind tame_readLane fun _ => tame_bind tame_look fun _ => tame_bind
    tame_eachSlot fun _ => tame_pure) (tame_bind tame_discard fun _ => tame_pure) h

theorem outcome_execVsel {f : E64} {s : State} (h : s.Canonical) : OutcomeKeeps (execVsel f s) := by
  unfold execVsel
  exact outcome_runE64 (tame_bind tame_laneChecks fun _ => tame_bind tame_readLane fun _ => tame_bind tame_look fun _ => tame_bind
    tame_eachSlot fun _ => tame_deliverShape) tame_offQueues h

theorem outcome_maskRun {f : E64} {op : Nat → Nat → Nat} {s : State} (h : s.Canonical) : OutcomeKeeps (maskRun f op s) := by
  unfold maskRun
  exact outcome_runE64 (tame_bind tame_look fun _ => tame_pure) tame_nothing h

theorem outcome_execMcnt {f : E64} {s : State} (h : s.Canonical) : OutcomeKeeps (execMcnt f s) := by
  unfold execMcnt
  exact outcome_runE64 (tame_bind tame_look fun _ => tame_pure) tame_pure h

theorem tame_takeVpset {f : E64} : Tame (takeVpset f) := by
  unfold takeVpset
  refine tame_bind tame_look fun _ => ?_
  refine tame_ite ?_ (tame_change fun _ h1 => h1.modSt)
  split
  · exact tame_bind tame_stall fun _ => tame_change fun _ h1 => h1.modSt
  · exact tame_bind tame_postConfig fun _ => tame_bind (tame_work fun _ h1 => h1) fun _ => tame_change fun _ h1 => h1.modSt

theorem outcome_execVpset {f : E64} {s : State} (h : s.Canonical) : OutcomeKeeps (execVpset f s) := by
  unfold execVpset
  exact outcome_ite (outcome_runOwn tame_takeVpset h) (outcome_runE64 (tame_bind tame_look fun _ => tame_bind (tame_work fun _ h1
    => h1) fun _ => tame_bind (tame_change fun _ h1 => h1.modSt) fun _ => tame_pure) tame_nothing h)

/-! ## Matrix -/

theorem outcome_execMzclr {f : E64} {s : State} (h : s.Canonical) : OutcomeKeeps (execMzclr f s) := by
  unfold execMzclr
  exact outcome_runE64 (tame_bind tame_look fun _ => tame_bind tame_legal fun _ => tame_bind (tame_change fun _ h1 =>
    h1.clearCells) fun _ => tame_bind (tame_work fun _ h1 => h1) fun _ => tame_pure) tame_nothing h

theorem outcome_execMrdz {f : E64} {s : State} (h : s.Canonical) : OutcomeKeeps (execMrdz f s) := by
  unfold execMrdz
  exact outcome_runE64 (tame_bind tame_look fun _ => tame_bind tame_legal fun _ => tame_bind tame_meetCells fun _ => tame_bind
    tame_lift fun _ => tame_bind (tame_change fun _ h1 => h1.loadedCells) fun _ => tame_pure) tame_zeroPush h

theorem outcome_execMzcnt {f : E64} {s : State} (h : s.Canonical) : OutcomeKeeps (execMzcnt f s) := by
  unfold execMzcnt
  exact outcome_runE64 (tame_bind tame_look fun _ => tame_bind tame_legal fun _ => tame_pure) (tame_bind tame_look fun _ =>
    tame_pure) h

theorem tame_peekTag {x : BitVec 8} : Tame (peekTag x) := by
  unfold peekTag
  exact tame_ite (tame_bind tame_peekImage fun _ => tame_pure) tame_look

theorem tame_offArray {f : E64} : Tame (offArray f) := by
  unfold offArray
  exact tame_ite (tame_bind tame_peekTag fun _ => tame_bind tame_discard fun _ => tame_pure) tame_pure

theorem tame_awaitPlanes : Tame awaitPlanes := by
  unfold awaitPlanes
  exact tame_bind tame_look fun _ => tame_await

theorem tame_ldbBank {f : E64} : Tame (ldbBank f) := by
  unfold ldbBank
  refine tame_ite ?_ tame_pure
  refine tame_bind tame_peekTag fun _ => ?_
  split
  · exact tame_ite tame_pure tame_illegal
  · exact tame_illegal

theorem tame_ldbFormat {f : E64} {len : Nat} : Tame (ldbFormat f len) := by
  unfold ldbFormat
  refine tame_ite ?_ (tame_ite tame_pure tame_illegal)
  refine tame_bind tame_peekTag fun _ => ?_
  split
  · exact tame_illegal
  · exact tame_ite tame_pure tame_illegal

theorem outcome_execMldb {f : E64} {s : State} (h : s.Canonical) : OutcomeKeeps (execMldb f s) := by
  unfold execMldb
  exact outcome_runE64 (tame_bind tame_ldbBank fun _ => tame_bind tame_ldbFormat fun _ => tame_bind tame_awaitPlanes fun _ =>
    tame_bind tame_look fun _ => tame_bind tame_legal fun _ => tame_bind tame_readSrc fun _ => tame_bind tame_lift fun _ =>
    tame_bind (tame_work fun _ h1 => h1) fun _ => tame_pure) (tame_bind tame_ldbBank fun _ => tame_offArray) h

theorem outcome_execMswap {f : E64} {s : State} (h : s.Canonical) : OutcomeKeeps (execMswap f s) := by
  unfold execMswap
  exact outcome_runE64 (tame_bind tame_awaitPlanes fun _ => tame_bind (tame_work fun _ h1 => h1) fun _ => tame_pure) tame_nothing
    h

theorem tame_mulFormat {f : E64} {len : Nat} : Tame (mulFormat f len) := by
  unfold mulFormat
  refine tame_ite ?_ (tame_ite tame_pure tame_illegal)
  refine tame_bind tame_peekTag fun _ => ?_
  split
  · exact tame_illegal
  · exact tame_ite tame_pure tame_illegal

theorem outcome_execMmul {f : E64} {s : State} (h : s.Canonical) : OutcomeKeeps (execMmul f s) := by
  unfold execMmul
  refine outcome_runE64 ?_ tame_offArray h
  refine tame_bind tame_look fun _ => ?_
  refine tame_bind tame_mulFormat fun _ => ?_
  split
  · exact tame_bind tame_legal fun _ => tame_bind tame_awaitPlanes fun _ => tame_bind tame_readSrc fun _ => tame_bind
      tame_meetCells fun _ => tame_bind (tame_change fun _ h1 => h1.addTerms) fun _ => tame_pure

theorem outcome_execMrank {f : E64} {s : State} (h : s.Canonical) : OutcomeKeeps (execMrank f s) := by
  unfold execMrank
  exact outcome_runE64 (tame_bind tame_moveChecks fun _ => tame_bind tame_look fun _ => tame_bind tame_legal fun _ => tame_bind
    tame_readSrc fun _ => tame_bind tame_moveSlots fun _ => tame_deliverShape) tame_offQueues h

/-! ## Package -/

theorem outcome_execScrub {s : State} (h : s.Canonical) : OutcomeKeeps (execScrub s) :=
  outcome_next (State.Canonical.same (s := s.mend (fun _ => true) fun _ => true) h.mend rfl rfl rfl)

theorem State.Canonical.moveCore {s : State} {core x : Nat} (h : s.Canonical) : (s.moveCore core x).Canonical := by
  have hw : (s.workers.map fun e => if e.2.core = core then (e.1, { e.2 with core := x }) else e) =
      s.workers.map fun e => (e.1, if e.2.core = core then { e.2 with core := x } else e.2) := by
    refine List.map_congr_left fun e _ => ?_
    split <;> rfl
  have hm := canonical_mapWorkers h (fun e => if e.2.core = core then { e.2 with core := x } else e.2) fun _ he => spad_ite he he
  exact hm.same rfl rfl hw

theorem State.Canonical.spareCoreIn {s : State} {core : Nat} (h : s.Canonical) : (State.spareCoreIn s core).Canonical := by
  unfold State.spareCoreIn
  dsimp only
  split
  · exact h.same rfl rfl rfl
  · exact (State.Canonical.moveCore (h.same rfl rfl rfl)).same rfl rfl rfl

theorem State.Canonical.freeze {s : State} (h : s.Canonical) : (State.freeze s).Canonical := by
  unfold State.freeze
  exact ((h.foldl fun _ _ h1 => h1.poolLost).foldl fun _ _ h1 => h1.portDown).same rfl rfl rfl

theorem State.Canonical.abortAll {s : State} (h : s.Canonical) : (State.abortAll s).Canonical := by
  unfold State.abortAll
  refine State.Canonical.foldl h fun _ _ h1 => ?_
  split
  · exact h1.finish
  · exact h1.finish
  · exact h1.finish
  · exact h1

theorem outcome_execReset {s : State} (h : s.Canonical) : OutcomeKeeps (execReset s) :=
  outcome_next ⟨h.abortAll.mem, rfl, rfl, fun _ he => absurd he List.not_mem_nil⟩

/-! ## Sheaves -/

theorem spad_edited {w : Worker} {l : List (Nat × Edit)} (h : w.spad.wf = true) : (Worker.edited w l).spad.wf = true := by
  unfold Worker.edited
  exact spad_foldl h fun _ _ h1 => h1

theorem State.Canonical.editBank {s : State} {l : List (Nat × Edit)} (h : s.Canonical) : (State.editBank s l).Canonical := by
  unfold State.editBank
  exact h.noteEvent.wipeCells.modWk (spad_edited h.noteEvent.wipeCells.wk)

theorem tame_searchBank {h : Sheaf} : Tame (searchBank h) := by
  unfold searchBank
  exact tame_bind tame_look fun _ => tame_bind tame_meetCells fun _ => tame_change fun _ h1 => h1.readCells

theorem tame_awaitTable : Tame awaitTable := by
  unfold awaitTable
  exact tame_bind tame_look fun _ => tame_await

theorem tame_beginInsertion {f : E64} : Tame (beginInsertion f) := by
  unfold beginInsertion
  exact tame_bind tame_look fun _ => tame_bind tame_await fun _ => tame_bind tame_await fun _ => tame_bind tame_legal fun _ =>
    tame_bind tame_awaitTable fun _ => tame_bind tame_readSrc fun _ => tame_bind (tame_work fun _ h1 => spad_foldl h1 fun _ _ h2
    => h2) fun _ => tame_change fun _ h1 => h1.popAcquire

theorem tame_insertionTurn {x : Insertion} : Tame (insertionTurn x) := by
  unfold insertionTurn
  exact tame_bind tame_searchBank fun _ => tame_bind tame_look fun _ => tame_bind (tame_change fun _ h1 => h1.editBank) fun _ =>
    tame_ite (tame_work fun _ h1 => h1) (tame_bind (tame_work fun _ h1 => h1) fun _ => tame_bind tame_deliverShape fun _ =>
    tame_work fun _ h1 => h1)

theorem outcome_execShins {f : E64} {s : State} (h : s.Canonical) : OutcomeKeeps (execShins f s) := by
  unfold execShins
  split
  · exact outcome_runOwn tame_insertionTurn h
  · exact outcome_ite (outcome_runOwn tame_beginInsertion h) (outcome_runE64 tame_nothing (tame_bind tame_discard fun _ =>
      tame_zeroPush) h)

theorem outcome_execShmrg {f : E64} {s : State} (h : s.Canonical) : OutcomeKeeps (execShmrg f s) := by
  unfold execShmrg
  refine outcome_runE64 ?_ tame_nothing h
  refine tame_bind tame_look fun _ => ?_
  refine tame_bind tame_legal fun _ => ?_
  refine tame_bind tame_awaitTable fun _ => ?_
  refine tame_bind tame_searchBank fun _ => ?_
  refine tame_bind ?_ fun _ => tame_pure
  refine tame_change fun _ h1 => ?_
  split
  · exact h1.editBank
  · exact h1

theorem outcome_execShrd {f : E64} {s : State} (h : s.Canonical) : OutcomeKeeps (execShrd f s) := by
  unfold execShrd
  exact outcome_runE64 (tame_bind tame_look fun _ => tame_bind tame_legal fun _ => tame_bind tame_awaitTable fun _ => tame_bind
    tame_meetCells fun _ => tame_bind (tame_change fun _ h1 => h1.loadedCells) fun _ => tame_deliverShape) tame_zeroPush h

theorem outcome_execShclr {f : E64} {s : State} (h : s.Canonical) : OutcomeKeeps (execShclr f s) := by
  unfold execShclr
  exact outcome_runE64 (tame_bind tame_look fun _ => tame_bind tame_legal fun _ => tame_bind tame_awaitTable fun _ => tame_bind
    (tame_change fun _ h1 => h1.clearCells) fun _ => tame_pure) tame_nothing h

end Sys2Proof.Machine
end

section
/-! PROOF. Every instruction, and every step, keeps the canonical form (O60). -/
namespace Sys2Proof.Machine

theorem outcome_exec {i : Instr} {s : State} (h : s.Canonical) : OutcomeKeeps (exec i s) := by
  cases i with
  | nop | spin => exact outcome_runS tame_nothing tame_nothing h
  | exit => exact outcome_execExit h
  | brk => exact outcome_runOwn tame_trap h
  | fence => exact outcome_execFence h
  | ret => exact outcome_execRet h
  | eret => exact outcome_execEret h
  | settle => exact outcome_execSettle h
  | yield => exact outcome_execYield h
  | scmov => exact outcome_execScmov h
  | jmpr | callr | br | call | sbkj => exact outcome_runControl tame_guardedTransfer h
  | csrr => exact outcome_execCsrr h
  | csrw | csrs | csrc => exact outcome_runS tame_writeCsrM tame_nothing h
  | sqpush => exact outcome_runS tame_pushQ14 tame_pushQ14 h
  | sqpop => exact outcome_execSqpop h
  | sqfree | sli32 | saddi32 => exact outcome_runS tame_writeS tame_nothing h
  | stok => exact outcome_runS tame_pushSL tame_pushSL h
  | stokw => exact outcome_runS tame_popWS tame_popWS h
  | kadd => exact outcome_execKadd h
  | kwait | kwaiti => exact outcome_runOwn (tame_issueWait tame_knotWait) h
  | kread => exact outcome_execKread h
  | kset => exact outcome_execKset h
  | sgsync => exact outcome_execSgsync h
  | sgarr => exact outcome_execSgarr h
  | stask => exact outcome_execStask h
  | scommit => exact outcome_execScommit h
  | sdtrig => exact outcome_execSdtrig h
  | sdwait => exact outcome_execSdwait h
  | strap => exact outcome_execStrap h
  | smbend => exact outcome_execSmbend h
  | kaddi => exact outcome_execKaddi h
  | sld => exact outcome_execSld h
  | sst => exact outcome_execSst h
  | samo => exact outcome_execSamo h
  | sfset => exact outcome_execSfset h
  | szset => exact outcome_execSzset h
  | shset => exact outcome_execShset h
  | sshape => exact outcome_execSshape h
  | slaunch => exact outcome_execSlaunch h
  | slaydef => exact outcome_execSlaydef h
  | satinv => exact outcome_execSatinv h
  | vsincos => exact outcome_execVsincos h
  | vrot => exact outcome_execVrot h
  | vcvt => exact outcome_execVcvt h
  | vqnt => exact outcome_execVqnt h
  | vdq => exact outcome_execVdq h
  | vcmp => exact outcome_execVcmp h
  | vsel => exact outcome_execVsel h
  | mcnt => exact outcome_execMcnt h
  | vpset => exact outcome_execVpset h
  | vmap => exact outcome_execVmap h
  | vmapq => exact outcome_execVmapq h
  | vgbias => exact outcome_execVgbias h
  | vmov => exact outcome_execVmov h
  | vperm => exact outcome_execVperm h
  | vcompact => exact outcome_execVcompact h
  | vexpand => exact outcome_execVexpand h
  | vrargmax => exact outcome_execVrargmax h
  | vcadd => exact outcome_execVcadd h
  | vatmrg => exact outcome_execVatmrg h
  | vkadd | lkadd | mkadd | wkadd => exact outcome_engineKadd h
  | vkwait | lkwait | mkwait | wkwait => exact outcome_engineKwait h
  | vnop | lnop | mnop | wnop => exact outcome_engineNop h
  | ldv => exact outcome_execLdv h
  | ldq => exact outcome_execLdq h
  | lgth => exact outcome_execLgth h
  | lbc => exact outcome_execLbc h
  | lpre => exact outcome_execLpre h
  | ladv => exact outcome_execLadv h
  | lrst => exact outcome_execLrst h
  | lcbld => exact outcome_execLcbld h
  | lcbsw => exact outcome_execLcbsw h
  | lmsk => exact outcome_execLmsk h
  | mzclr => exact outcome_execMzclr h
  | mldb => exact outcome_execMldb h
  | mswap => exact outcome_execMswap h
  | mmul => exact outcome_execMmul h
  | mrank => exact outcome_execMrank h
  | mrdz => exact outcome_execMrdz h
  | mzcnt => exact outcome_execMzcnt h
  | shins => exact outcome_execShins h
  | shmrg => exact outcome_execShmrg h
  | shrd => exact outcome_execShrd h
  | shclr => exact outcome_execShclr h
  | wst => exact outcome_execWst h
  | wstq => exact outcome_execWstq h
  | wsct => exact outcome_execWsct h
  | wamo => exact outcome_execWamo h
  | wcadd => exact outcome_execWcadd h
  | wcpy | wcpyx => exact outcome_runE64 tame_issueCopy tame_nothing h
  | wsend => exact outcome_execWsend h
  | wattd => exact outcome_execWattd h
  | watts => exact outcome_execWatts h
  | wflush => exact outcome_execWflush h
  | wmsk => exact outcome_execWmsk h
  | headland => exact outcome_execHeadland h
  | headlandCounted => exact outcome_execHeadlandCounted h
  | repetitionEnd => exact outcome_next (canonical_repetitionEnds h)
  | writeLanding => exact outcome_next (canonical_ite (canonical_landWrite h) h)
  | tokenPush => exact outcome_next (canonical_ite (canonical_pushToken h) h)
  | queuePush => exact outcome_next (canonical_ite (canonical_pushQueue h) h)
  | workerCompletion => exact outcome_next h.completeWorker
  | trapEntry => exact outcome_next h.enterTrap
  | abortedLaunchCompletion => exact outcome_next h.completeAborted
  | scrub => exact outcome_execScrub h
  | preemptionRequest => exact outcome_next h.requestPreemption
  | contextSave => exact outcome_next h.save
  | contextRestore => exact outcome_next h.restore
  | saveImageMove => exact outcome_next h.moveImage
  | planeTransfer => exact outcome_next h.transferPlanes
  | neighbourTableRebuild => exact outcome_next (h.modWorker fun _ h1 => h1)
  | pageWalk => exact outcome_next h.pageWalk
  | satinvCompletion => exact outcome_next h.finishSatinv
  | copyChunk => exact outcome_next h.copyChunk
  | copyCommandCompletion => exact outcome_next h.copyDone
  | spanFold => exact outcome_next h.spanFold
  | decodeJobCompletion => exact outcome_next h.jobDone
  | scorePassCompletion => exact outcome_next h.passDone
  | wstqKnotAdd => exact outcome_next h.wstqAdd
  | admitRequest => exact outcome_next h.admitRequest
  | refusalArrival => exact outcome_next h.refusalArrival
  | microBatchClose => exact outcome_next h.closeBatch
  | phaseEnd => exact outcome_next h.endPhase
  | doorbell => exact outcome_next (h.ifOwner h.ring)
  | recordTake => exact outcome_next h.takeRecord
  | arbiterDecision => exact outcome_next h.arbitrate
  | agingStep => exact outcome_next h.modLaunch
  | launchCompletion => exact outcome_next h.completeLaunch
  | qerrClear => exact outcome_next (h.ifOwner h.setIrq)
  | rctlWrite => exact outcome_next (h.ifOwner h.writeRegion)
  | resume | lstoreClear => exact outcome_next (h.ifOwner h.setRegion)
  | regionRecoveryComplete => exact outcome_next (canonical_ite h.setRegion h)
  | plostClear => exact outcome_next (h.ifOwner h.setPort)
  | claimOwnership | acceptOwnership | macroColumnSpare | pseudoChannelSpare | diagnosticRead =>
    exact outcome_next (canonical_ite (h.same rfl rfl rfl) h)
  | offerOwnership => exact outcome_next (h.ifOwner (canonical_ite (h.same rfl rfl rfl) h))
  | releaseOwnership => exact outcome_next (h.ifOwner (h.same rfl rfl rfl))
  | offerLapse | clockStep | attestationReport | machineCheckLogRead => exact outcome_next (h.same rfl rfl rfl)
  | registerWrite => exact outcome_next (h.ifOwner h.writeRegister)
  | hostMemoryRequest | peerRequest => exact outcome_next (canonical_ite h.serve h)
  | backInvalidation => exact outcome_next (h.flushPool.same rfl rfl rfl)
  | poolLinkLoss => exact outcome_next h.poolLost
  | fupelPortDown => exact outcome_next h.portDown
  | coreSpare => exact outcome_next (canonical_ite h.spareCoreIn h)
  | fupelLaneSpare | fupelPortUp | flitRetransmission | fupelLaneLoss => exact outcome_next (canonical_ite h.setPort h)
  | thermalFreeze => exact outcome_next (canonical_ite h.freeze h)
  | freeze => exact outcome_next (h.ifOwner h.freeze)
  | reset => exact outcome_execReset h
  | poolLinkUp => exact outcome_next h.poolBack
  | sadd | ssub | smul | smulh | smulhn | sdiv | sdivn | srem | sremn | sand | sor | sxor | sandn | sshl | sshr | ssra
  | smin | smax | sminn | smaxn =>
    simp only [exec_sadd, exec_ssub, exec_smul, exec_smulh, exec_smulhn, exec_sdiv, exec_sdivn, exec_srem, exec_sremn,
      exec_sand, exec_sor, exec_sxor, exec_sandn, exec_sshl, exec_sshr, exec_ssra, exec_smin, exec_smax, exec_sminn,
      exec_smaxn, execSadd, execSsub, execSmul, execSmulh, execSmulhn, execSdiv, execSdivn, execSrem, execSremn,
      execSand, execSor, execSxor, execSandn, execSshl, execSshr, execSsra, execSmin, execSmax, execSminn, execSmaxn]
    exact outcome_alu2 h
  | seq | sne | slt | sltn | sle | slen =>
    simp only [exec_seq, exec_sne, exec_slt, exec_sltn, exec_sle, exec_slen, execSeq, execSne, execSlt, execSltn,
      execSle, execSlen]
    exact outcome_compareS h
  | pand | por | pxor | pandn =>
    simp only [exec_pand, exec_por, exec_pxor, exec_pandn, execPand, execPor, execPxor, execPandn]
    exact outcome_logicP h
  | sclz | spopc | scvtif | scvtfi =>
    simp only [exec_sclz, exec_spopc, exec_scvtif, exec_scvtfi, execSclz, execSpopc, execScvtif, execScvtfi]
    exact outcome_alu1 h
  | sfadd | sfsub | sfmul =>
    simp only [exec_sfadd, exec_sfsub, exec_sfmul, execSfadd, execSfsub, execSfmul]
    exact outcome_floatS h
  | sfmin | sfmax =>
    simp only [exec_sfmin, exec_sfmax, execSfmin, execSfmax]
    exact outcome_pickS h
  | sflt | sfeq | sfle =>
    simp only [exec_sflt, exec_sfeq, exec_sfle, execSflt, execSfeq, execSfle]
    exact outcome_compareF h
  | saddi | sli | slui | sandi | sori | sxori | sshli | sshri | ssrai =>
    simp only [exec_saddi, exec_sli, exec_slui, exec_sandi, exec_sori, exec_sxori, exec_sshli, exec_sshri, exec_ssrai,
      execSaddi, execSli, execSlui, execSandi, execSori, execSxori, execSshli, execSshri, execSsrai]
    exact outcome_aluI h
  | seqi | slti | sltni =>
    simp only [exec_seqi, exec_slti, exec_sltni, execSeqi, execSlti, execSltni]
    exact outcome_compareI h
  | vadd | vsub | vmul | vfma | vfms | vfnma | vdiv | vsqrt | vrcp | vrsq | vexp2 | vlog2 | vtanh =>
    simp only [exec_vadd, exec_vsub, exec_vmul, exec_vfma, exec_vfms, exec_vfnma, exec_vdiv, exec_vsqrt, exec_vrcp,
      exec_vrsq, exec_vexp2, exec_vlog2, exec_vtanh, execVadd, execVsub, execVmul, execVfma, execVfms, execVfnma,
      execVdiv, execVsqrt, execVrcp, execVrsq, execVexp2, execVlog2, execVtanh]
    exact outcome_floatRun h
  | vmin | vmax | vabs | vneg =>
    simp only [exec_vmin, exec_vmax, exec_vabs, exec_vneg, execVmin, execVmax, execVabs, execVneg]
    exact outcome_bitsRun h
  | viadd | visub | vimul | vimulh | viand | vior | vixor | vishl | vishr | visra | vimin | vimax | vipopc =>
    simp only [exec_viadd, exec_visub, exec_vimul, exec_vimulh, exec_viand, exec_vior, exec_vixor, exec_vishl,
      exec_vishr, exec_visra, exec_vimin, exec_vimax, exec_vipopc, execViadd, execVisub, execVimul, execVimulh,
      execViand, execVior, execVixor, execVishl, execVishr, execVisra, execVimin, execVimax, execVipopc]
    exact outcome_intRun h
  | mand | mor | mxor | mnot =>
    simp only [exec_mand, exec_mor, exec_mxor, exec_mnot, execMand, execMor, execMxor, execMnot]
    exact outcome_maskRun h
  | vcrd | vnoise =>
    simp only [exec_vcrd, exec_vnoise, execVcrd, execVnoise]
    exact outcome_fromMap h
  | vslice | vbcast | vshift =>
    simp only [exec_vslice, exec_vbcast, exec_vshift, execVslice, execVbcast, execVshift]
    exact outcome_offsetRun h
  | vtrn | vresh =>
    simp only [exec_vtrn, exec_vresh, execVtrn, execVresh]
    exact outcome_moveRun h
  | vrsum | vrmax | vrmin | vscan | vxscan =>
    simp only [exec_vrsum, exec_vrmax, exec_vrmin, exec_vscan, exec_vxscan, execVrsum, execVrmax, execVrmin,
      execVscan, execVxscan]
    exact outcome_reduceRun h

/-- Settles O60: the turn leaves a canonical state, in which every instruction keeps the form. -/
theorem stepKeepsCanonical : Obligations.StepKeepsCanonical := by
  unfold Obligations.StepKeepsCanonical step
  intro s t h ht
  have hm := canonical_move h
  split at ht
  · exact (outcome_exec hm).next t ht
  · exact (outcome_next hm).next t ht

end Sys2Proof.Machine
end

section
/-! PROOF. The f32 instructions of S, the minimum and maximum of two patterns, and the order of values (O4). -/
namespace Sys2Proof.Machine
open Sys2Proof

theorem f32Word_eq (n : Nat) : f32Word n = (BitVec.ofNat 32 n).zeroExtend 64 := by
  apply BitVec.eq_of_toNat_eq
  simp [f32Word]

/-! ## Patterns -/

/-- A row of R66's table and the format of the model agree. -/
structure FloatRow.Describes (r : FloatRow) (f : FloatFmt) : Prop where
  fmt : floatFmt r.fmt = some f
  mant : f.mant = r.mant
  expo : f.expo = r.expo
  nan : f.nanBits = r.nan

theorem floatRow_describes : ∀ r ∈ floatRows, ∃ f, r.Describes f := by
  simp only [floatRows, List.forall_mem_cons]
  refine ⟨⟨_, rfl, rfl, rfl, rfl⟩, ⟨_, rfl, rfl, rfl, rfl⟩, ⟨_, rfl, rfl, rfl, rfl⟩, ⟨_, rfl, rfl, rfl, rfl⟩,
    ⟨_, rfl, rfl, rfl, rfl⟩, by simp⟩

theorem bits_eq (v lo n : Nat) : bits v lo n = v / 2 ^ lo % 2 ^ n := by
  simp [bits, Nat.shiftRight_eq_div_pow]

theorem signBits_bit (f : FloatFmt) (v : Nat) (h : v < 2 ^ (f.mant + f.expo + 1)) :
    f.signBits (bit v (f.expo + f.mant)) = v / 2 ^ (f.mant + f.expo) * 2 ^ (f.mant + f.expo) := by
  have hlt : v / 2 ^ (f.mant + f.expo) < 2 := by
    rw [Nat.div_lt_iff_lt_mul (by positivity), Nat.mul_comm]; exact pow_succ 2 _ ▸ h
  rw [FloatFmt.signBits, Nat.add_comm f.expo]
  have hb : bit v (f.mant + f.expo) = decide (v / 2 ^ (f.mant + f.expo) = 1) := by
    simp [bit, Nat.testBit_eq_decide_div_mod_eq, Nat.mod_eq_of_lt hlt]
  generalize v / 2 ^ (f.mant + f.expo) = t at hlt hb
  rcases (by omega : t = 0 ∨ t = 1) with h0 | h0 <;> simp [hb, h0]

/-- A pattern whose exponent field is zero flushes to its sign, whether it was a subnormal or already a zero. -/
theorem flush_eq {r : FloatRow} {f : FloatFmt} (h : r.Describes f) (z : Bool) {v : Nat} (hv : v < 2 ^ (r.mant + r.expo + 1)) :
    (if z then f.flush v else v) = r.flush z v := by
  have hm := h.mant
  have he := h.expo
  rw [← hm, ← he] at hv
  cases z
  · simp [FloatRow.flush]
  · simp only [FloatRow.flush, if_true, true_and, FloatFmt.flush, FloatFmt.subnormal, signBits_bit f v hv, ← hm, ← he, bits_eq,
      pow_zero, Nat.div_one]
    by_cases hx : v / 2 ^ f.mant % 2 ^ f.expo = 0
    · by_cases h0 : v % 2 ^ f.mant = 0
      · have h1 : v / 2 ^ (f.mant + f.expo) * 2 ^ f.expo = v / 2 ^ f.mant := by
          rw [pow_add, ← Nat.div_div_eq_div_mul]
          exact Nat.div_mul_cancel (Nat.dvd_of_mod_eq_zero hx)
        have h2 : v / 2 ^ (f.mant + f.expo) * 2 ^ (f.mant + f.expo) = v := by
          calc v / 2 ^ (f.mant + f.expo) * 2 ^ (f.mant + f.expo)
              = v / 2 ^ (f.mant + f.expo) * 2 ^ f.expo * 2 ^ f.mant := by rw [Nat.mul_assoc, ← pow_add, Nat.add_comm f.expo]
            _ = v / 2 ^ f.mant * 2 ^ f.mant := by rw [h1]
            _ = v := Nat.div_mul_cancel (Nat.dvd_of_mod_eq_zero h0)
        simp [hx, h0, h2]
      · simp [hx, h0]
    · simp [hx]

/-! ## The order of values -/

theorem isNan_iff (x : XReal) : x.isNan = true ↔ x = .nan := by cases x <;> simp [XReal.isNan]

theorem cmp_swap (x y : XReal) : y.cmp x = (x.cmp y).map Ordering.swap := by
  cases x with
  | nan => cases y <;> rfl
  | inf a =>
    cases y with
    | nan => rfl
    | inf b => cases a <;> cases b <;> rfl
    | fin => cases a <;> rfl
  | fin na ma ea la =>
    cases y with
    | nan => rfl
    | inf b => cases b <;> rfl
    | fin nb mb eb lb =>
      simp only [XReal.cmp, Option.map_some, min_comm eb ea]
      generalize atExp na ma ea _ = a
      generalize atExp nb mb eb _ = b
      rcases lt_trichotomy a b with h | h | h
      · simp [h, h.not_gt, h.ne']
      · simp [h]
      · simp [h, h.not_gt, h.ne']

theorem keepsFirst_below {x y : XReal} (mx : Bool) (h : x.Below y) : keepsFirst mx x y = !mx := by
  rcases h with h | ⟨h, hx, hy⟩
  · simp [keepsFirst, h]
  · cases mx <;> simp [keepsFirst, h, hx, hy]

theorem keepsFirst_above {x y : XReal} (mx : Bool) (h : y.Below x) : keepsFirst mx x y = mx := by
  have hs := cmp_swap y x
  rcases h with h | ⟨h, hy, hx⟩
  · rw [h] at hs; simp [keepsFirst, hs]
  · rw [h] at hs; cases mx <;> simp [keepsFirst, hs, hx, hy]

/-- The integer of a finite value in units of 2^q, as a multiple of that unit. -/
theorem atExp_val (n : Bool) (m : Nat) (e q : Int) (l : Bool) (h : q ≤ e) :
    (XReal.fin n m e l).val = (atExp n m e q : ℚ) * 2 ^ q := by
  have h2 : (2 : ℚ) ^ e = 2 ^ (e - q).toNat * 2 ^ q := by
    rw [← zpow_natCast, Int.toNat_of_nonneg (by omega), ← zpow_add₀ (by norm_num)]; congr 1; omega
  simp only [XReal.val, atExp, h2]
  cases n <;> simp [Nat.shiftLeft_eq] <;> ring

theorem cmp_fin {x y : XReal} (hx : x.isFin = true) (hy : y.isFin = true) :
    x.cmp y = some (if x.val < y.val then .lt else if x.val = y.val then .eq else .gt) := by
  cases x with
  | fin na ma ea la =>
    cases y with
    | fin nb mb eb lb =>
      rw [atExp_val na ma ea _ la (min_le_left ea eb), atExp_val nb mb eb _ lb (min_le_right ea eb)]
      have hp : (0 : ℚ) < 2 ^ (min ea eb) := by positivity
      simp only [XReal.cmp, mul_lt_mul_iff_left₀ hp, mul_left_inj' hp.ne', Int.cast_lt, Int.cast_inj]
    | nan | inf => simp [XReal.isFin] at hy
  | nan | inf => simp [XReal.isFin] at hx

theorem cmp_nan {x y : XReal} (h : x = .nan ∨ y = .nan) : x.cmp y = none := by
  rcases h with rfl | rfl
  · cases y <;> rfl
  · cases x <;> rfl

theorem cmp_inf_left (n : Bool) {y : XReal} (h : y ≠ .nan) :
    (XReal.inf n).cmp y = some (if y = .inf n then .eq else if n then .lt else .gt) := by
  cases y with
  | nan => exact absurd rfl h
  | inf b => cases n <;> cases b <;> rfl
  | fin => simp [XReal.cmp]

theorem cmp_inf_right (n : Bool) {y : XReal} (h : y ≠ .nan) :
    y.cmp (.inf n) = some (if y = .inf n then .eq else if n then .gt else .lt) := by
  rw [cmp_swap, cmp_inf_left n h]
  by_cases hy : y = .inf n
  · simp [hy]
  · cases n <;> simp [hy]

/-! ## Minimum and maximum -/

/-- Minimum and maximum in the terms of R66's table. -/
theorem minMaxBits_eq {r : FloatRow} {f : FloatFmt} (h : r.Describes f) (hr : r.fmt < 3) (z mx : Bool) {a b : Nat}
    (ha : a < 2 ^ (r.mant + r.expo + 1)) (hb : b < 2 ^ (r.mant + r.expo + 1)) :
    minMaxBits r.fmt z mx a b =
      if readNum r.fmt z a = .nan then (if readNum r.fmt z b = .nan then r.nan else r.flush z b)
      else if readNum r.fmt z b = .nan then r.flush z a
      else if keepsFirst mx (readNum r.fmt z a) (readNum r.fmt z b) then r.flush z a else r.flush z b := by
  have hf : ftzFmt r.fmt = true := by simp [ftzFmt]; omega
  have hread : ∀ v, v < 2 ^ (r.mant + r.expo + 1) → readNum r.fmt z v = f.read (r.flush z v) := by
    intro v hv
    simp [readNum, h.fmt, hf, flush_eq h z hv]
  simp only [minMaxBits, h.fmt, hf, Bool.and_true, flush_eq h z ha, flush_eq h z hb, hread a ha, hread b hb, h.nan,
    Bool.and_eq_true, isNan_iff]
  by_cases hx : f.read (r.flush z a) = .nan <;> by_cases hy : f.read (r.flush z b) = .nan <;> simp [hx, hy]

section
variable {s : State} {g : Guard} {d a b : BitVec 5}

theorem floatS_gives {f : XReal → XReal → XReal} (h : Turn.Ready .S s) (hg : s.view.guard g = true) :
    floatS g d a b f s = .next (s.wroteS 2 d ((BitVec.ofNat 32 (roundF32 s.view.ftz
      (f (f32Of s.view.ftz (s.wk.sget a.toNat)) (f32Of s.view.ftz (s.wk.sget b.toNat))))).zeroExtend 64)) := by
  unfold floatS
  exact alu2_gives h hg (f32Word_eq _)

theorem pickS_gives {mx : Bool} (h : Turn.Ready .S s) (hg : s.view.guard g = true) :
    pickS g d a b mx s = .next (s.wroteS 2 d ((BitVec.ofNat 32 (minMaxBits 0 s.view.ftz mx
      ((s.wk.sget a.toNat).toNat % 2 ^ 32) ((s.wk.sget b.toNat).toNat % 2 ^ 32))).zeroExtend 64)) := by
  unfold pickS
  exact alu2_gives h hg (f32Word_eq _)

end

/-- Settles O4: each instruction is the operation of one or two scalars; the minimum is read off its three cases of NaN and
`keepsFirst`; values compare as the rational numbers behind them. -/
theorem scalarFloatResults : Obligations.ScalarFloatResults := by
  unfold Obligations.ScalarFloatResults
  refine ⟨?_, ?_, ?_⟩
  · intro s g d a b h hg
    dsimp only
    refine ⟨?_, ?_, ?_, ?_, ?_, ?_, ?_⟩
    · exact (exec_sfadd ..).trans (floatS_gives h hg)
    · exact (exec_sfsub ..).trans (floatS_gives h hg)
    · exact (exec_sfmul ..).trans (floatS_gives h hg)
    · exact (exec_sfmin ..).trans (pickS_gives h hg)
    · exact (exec_sfmax ..).trans (pickS_gives h hg)
    · rw [exec_scvtif, execScvtif]
      exact alu1_gives h hg (f32Word_eq _)
    · rw [exec_scvtfi, execScvtfi]
      exact alu1_gives h hg rfl
  · intro r hr hr3 z mx a b ha hb
    obtain ⟨f, hf⟩ := floatRow_describes r hr
    dsimp only
    rw [minMaxBits_eq hf hr3 z mx ha hb]
    refine ⟨fun hx hy => by simp [hx, hy], fun hx hy => by simp [hx, hy], fun hx hy => by simp [hx, hy], fun hx hy => ?_⟩
    simp only [hx, hy, if_false]
    refine ⟨?_, fun hlt => ?_, fun hgt => ?_⟩
    · split <;> simp
    · rw [keepsFirst_below mx hlt]; cases mx <;> rfl
    · rw [keepsFirst_above mx hgt]
  · intro x y
    exact ⟨cmp_nan, cmp_fin, fun n hy => ⟨cmp_inf_left n hy, cmp_inf_right n hy⟩⟩

end Sys2Proof.Machine
end

section
/-! PROOF. What scalar and predicate writes read back as, guarded-off instructions of S, and what arithmetic leaves alone
(O6, O7, O8). -/
namespace Sys2Proof.Machine
open Sys2Proof

/-! ## Read back -/

@[simp] theorem afterS_wk (s : State) (len n : Nat) (l : List Landing) :
    (s.afterS len n l).wk = s.wk.setStrand .S (s.wk.strands.s.stepped len n l) := by simp [State.afterS]

@[simp] theorem setStrand_sget (w : Worker) (e : Eng) (t : Strand) (r : Nat) : (w.setStrand e t).sget r = w.sget r := rfl

@[simp] theorem setStrand_S_s (w : Worker) (t : Strand) : (w.setStrand .S t).strands.s = t := rfl

theorem setStrand_S_other (w : Worker) (t : Strand) {e : Eng} (he : e ≠ .S) :
    (w.setStrand .S t).strands.get e = w.strands.get e := get_set_ne _ _ _ _ he

theorem wroteS_wk (s : State) (len : Nat) (d : BitVec 5) (v : Word) :
    (s.wroteS len d v).wk =
      (s.wk.snow d.toNat v).setStrand .S ((s.wk.snow d.toNat v).strands.s.stepped len 0 []) := by
  simp [State.wroteS]

/-- An act from which the write to a scalar has been taken does not write it. -/
theorem without_ne_sreg (r : Nat) (x : Word) (a : Landing) : a.without [(0, r)] ≠ .sreg r x := by
  cases a with
  | sreg q v =>
    by_cases h : q = r
    · simp [Landing.without, h]
    · simp [Landing.without, h]
  | mask m v => simp [Landing.without]
  | vregs | image | fetched | words | token | knotAdd | counts | qsat => simp [Landing.without]

theorem stepped_nil_pend (t : Strand) (len n : Nat) :
    (t.stepped len n []).pend = t.pend.map fun p => { p with count := p.count - 1 } := by simp [Strand.stepped]

theorem snow_pend (w : Worker) (r : Nat) (v : Word) :
    (w.snow r v).strands.s.pend = w.strands.s.pend.map (Pend.without [(0, r)]) := by simp [Worker.snow]

@[simp] theorem posted_wk (s : State) (due : Nat) (c : ConfW) :
    (s.posted due c).wk.strands.s.view = s.wk.strands.s.view.apply s.wk.spad c := by simp [State.posted]

theorem posted_other_view (s : State) (due : Nat) (c : ConfW) {e : Eng} (he : e ≠ .S) :
    ((s.posted due c).wk.strands.get e).view = (s.wk.strands.get e).view := by
  simp only [State.posted, setWk_wk]
  cases e with
  | S => exact absurd rfl he
  | L | V | M | W => rfl

/-- Settles O6: a write at shadow 0 takes every older pending write to its register away; p15 is discarded before the post. -/
theorem writesReadBack : Obligations.WritesReadBack := by
  unfold Obligations.WritesReadBack
  refine ⟨fun s len d v r => ⟨?_, ?_, ?_⟩, fun s p q b e hq => ⟨?_, ?_⟩⟩
  · rw [wroteS_wk, setStrand_sget, snow_sget]
  · intro p hp x hx
    rw [wroteS_wk, setStrand_S_s, stepped_nil_pend, snow_pend] at hp
    simp only [List.map_map, List.mem_map] at hp
    obtain ⟨p0, _, rfl⟩ := hp
    simp only [Function.comp_apply, Pend.without, List.mem_map] at hx
    obtain ⟨a, _, ha⟩ := hx
    exact without_ne_sreg _ _ _ ha
  · rw [wroteS_wk, setStrand_S_s, stepped_nil_pend, snow_pend]
    simp
  · by_cases hp : p = 15
    · subst hp
      simp only [State.wroteP, if_true, afterS_wk, setStrand_S_s, Strand.stepped]
      by_cases h : q = 15 <;> simp [h]
    · simp only [State.wroteP, hp, if_false, afterS_wk, setStrand_S_s, Strand.stepped, posted_wk, View.apply]
      exact pred_setPred _ _ _ _ hq
  · intro he
    by_cases hp : p = 15
    · simp only [State.wroteP, hp, if_true, afterS_wk, setStrand_S_other _ _ he]
    · simp only [State.wroteP, hp, if_false, afterS_wk, setStrand_S_other _ _ he, posted_other_view _ _ _ he]

/-! ## Guarded off -/

/-- Every instruction that R30 makes inert is issued with an off action that does nothing, or as a wait. -/
theorem issue_of_inertOff {i : Instr} {g : Guard} {len : Nat} (s : State) (hi : Terms.inertOff i = some (g, len)) :
    (∃ on, exec i s = runS len (some g) on M.nothing s) ∨ ∃ on, len = 2 ∧ exec i s = runOwn .S (issueWait 2 g on) s := by
  cases i with
  | kwait | kwaiti | sgsync => cases hi; exact .inr ⟨_, rfl, rfl⟩
  | sadd | ssub | smul | smulh | smulhn | sdiv | sdivn | srem | sremn | sand | sor | sxor | sandn | sshl | sshr | ssra
  | smin | smax | sminn | smaxn | scmov | seq | sne | slt | sltn | sle | slen | pand | por | pxor | pandn | sfadd | sfsub
  | sfmul | sfmin | sfmax | sflt | sfeq | sfle | seqi | slti | sltni | sclz | spopc | scvtif | scvtfi | csrr | csrw | csrs
  | csrc | kadd | kread | kset | saddi | sli | slui | sandi | sori | sxori | sshli | sshri | ssrai | kaddi | sqfree
  | sgarr | stask | scommit | sdtrig | sdwait | smbend | sld | sst | sli32 | saddi32 | sfset | szset | shset | sshape
  | slaunch | slaydef | satinv => cases hi; exact .inl ⟨_, rfl⟩
  | _ => cases hi

theorem wait_inert {s : State} {g : Guard} {on : M (Option Issue)} (h : Turn.Ready .S s) (hg : s.view.guard g = false) :
    runOwn .S (issueWait 2 g on) s = .next (s.afterS 2 0 []) := by
  refine runOwn_ok h.live h.turn ?_
  have hr : s.st.room = true := decide_eq_true h.room
  have hg' : s.st.view.guard g = false := hg
  simp only [issueWait, m_bind, m_look, hr, m_await_true, hg', Bool.false_eq_true, if_false, m_change]
  simp only [State.modSt, State.setSt, State.st, h.turn, Issue.none, stepped_eq]
  rfl

/-- Settles O7: the off action of each of these instructions does nothing, and neither does a wait that is held back. -/
theorem guardedOffIsInert : Obligations.GuardedOffIsInert := by
  unfold Obligations.GuardedOffIsInert
  intro i g len s hi h hg
  rcases issue_of_inertOff s hi with ⟨on, he⟩ | ⟨on, rfl, he⟩
  · rw [he, runS_inert h hg]
  · rw [he, wait_inert h hg]

/-! ## Frames of arithmetic, compares and predicate logic -/

/-- Every instruction with a destination scalar writes it, or nothing (a conditional move). -/
theorem issue_of_scalarDest {i : Instr} {d : BitVec 5} (s : State) (hi : Terms.scalarDest i = some d) :
    ∃ len g on, exec i s = runS len (some g) on M.nothing s ∧
      (on s = .ok (.none, s) ∨ ∃ v, on s = .ok (.none, s.setWk (s.wk.snow d.toNat v))) := by
  cases i with
  | scmov g d a b =>
    cases hi
    refine ⟨2, g, _, rfl, ?_⟩
    by_cases hb : s.wk.sget b.toNat = 0
    · exact .inl (by simp only [m_bind, m_look, hb, if_true, m_pure])
    · exact .inr ⟨_, by simp only [m_bind, m_look, hb, if_false]; rfl⟩
  | sadd | ssub | smul | smulh | smulhn | sdiv | sdivn | srem | sremn | sand | sor | sxor | sandn | sshl | sshr | ssra
  | smin | smax | sminn | smaxn | sfadd | sfsub | sfmul | sfmin | sfmax | sclz | spopc | scvtif | scvtfi | saddi | sli
  | slui | sandi | sori | sxori | sshli | sshri | ssrai | sli32 | saddi32 => cases hi; exact ⟨_, _, _, rfl, .inr ⟨_, rfl⟩⟩
  | _ => cases hi

/-- Every compare and every predicate instruction is a predicate write. -/
theorem issue_of_predDest {i : Instr} {p : Nat} (s : State) (hi : Terms.predDest i = some p) :
    ∃ len g on b, exec i s = runS len (some g) on M.nothing s ∧ on s = writeP p b s := by
  cases i with
  | seq | sne | slt | sltn | sle | slen | pand | por | pxor | pandn | sflt | sfeq | sfle | seqi | slti | sltni => cases hi; exact ⟨_, _, _, _, rfl, rfl⟩
  | _ => cases hi

theorem snow_only (w : Worker) (r : Nat) (v : Word) :
    w.snow r v = { w with sregs := (w.snow r v).sregs, strands := (w.snow r v).strands } := by
  unfold Worker.snow Worker.sset
  split <;> rfl

theorem snow_strands (w : Worker) (r : Nat) (v : Word) : (w.snow r v).strands =
    { w.strands with s := { w.strands.s with pend := w.strands.s.pend.map (Pend.without [(0, r)]) } } := by
  simp [Worker.snow]

/-- The outcomes of an instruction with a destination scalar: it waits, goes on, or goes on with its write made. -/
theorem scalar_outcomes {i : Instr} {d : BitVec 5} {s t : State} (hi : Terms.scalarDest i = some d) (h : exec i s = .next t) :
    t = s ∨ ∃ len, t = s.afterS len 0 [] ∨ ∃ v, t = s.wroteS len d v := by
  obtain ⟨len, g, on, he, hon⟩ := issue_of_scalarDest s hi
  rw [he] at h
  rcases runS_cases h with rfl | ⟨_, _, rfl | ⟨j, u, hu, rfl⟩ | ⟨x, hx, _⟩⟩
  · exact .inl rfl
  · exact .inr ⟨len, .inl rfl⟩
  · rcases hon with hon | ⟨v, hon⟩
    · rw [hon] at hu; cases hu
      exact .inr ⟨len, .inl (by simp only [State.afterS, Issue.none, stepped_eq])⟩
    · rw [hon] at hu; cases hu
      exact .inr ⟨len, .inr ⟨v, by simp only [State.wroteS, State.afterS, Issue.none, stepped_eq]⟩⟩
  · rcases hon with hon | ⟨v, hon⟩ <;> rw [hon] at hx <;> cases hx

/-- The outcomes of a predicate write: it waits for room, goes on, or goes on with its write posted. -/
theorem pred_outcomes {i : Instr} {p : Nat} {s t : State} (hi : Terms.predDest i = some p) (h : exec i s = .next t) :
    t = s ∨ ∃ len, t = s.afterS len 0 [] ∨ ∃ b, p ≠ 15 ∧ t = (s.posted (s.dueAt 2) (.pred p b)).afterS len 0 [] := by
  obtain ⟨len, g, on, b, he, hon⟩ := issue_of_predDest s hi
  rw [he] at h
  rcases runS_cases h with rfl | ⟨_, _, rfl | ⟨j, u, hu, rfl⟩ | ⟨x, hx, hne⟩⟩
  · exact .inl rfl
  · exact .inr ⟨len, .inl rfl⟩
  · rw [hon] at hu
    by_cases hp : p = 15
    · simp only [writeP, hp, if_true, m_pure] at hu
      cases hu
      exact .inr ⟨len, .inl (by simp only [State.afterS, Issue.none, stepped_eq])⟩
    · cases hc : s.wk.confRoom with
      | true =>
        simp only [writeP, hp, if_false, m_bind, postConfig, m_look, hc, m_await_true, m_change, m_pure] at hu
        cases hu
        exact .inr ⟨len, .inr ⟨b, hp, by simp only [State.afterS, Issue.none, stepped_eq]; rfl⟩⟩
      | false => simp only [writeP, hp, if_false, m_bind, postConfig, m_look, hc, m_await_false] at hu; cases hu
  · rw [hon] at hx
    by_cases hp : p = 15
    · simp only [writeP, hp, if_true, m_pure] at hx; cases hx
    · cases hc : s.wk.confRoom with
      | true =>
        simp only [writeP, hp, if_false, m_bind, postConfig, m_look, hc, m_await_true, m_change, m_pure] at hx; cases hx
      | false =>
        simp only [writeP, hp, if_false, m_bind, postConfig, m_look, hc, m_await_false] at hx
        cases hx; exact absurd rfl hne

/-- Going on to the next word changes S's strand alone. -/
theorem afterS_outside (s : State) (len n : Nat) (l : List Landing) : Same.Outside s (s.afterS len n l) := same_of rfl

theorem wroteS_outside (s : State) (len : Nat) (d : BitVec 5) (v : Word) : Same.Outside s (s.wroteS len d v) := by
  simp only [State.wroteS, State.afterS, setWk_setWk, setWk_wk]
  apply same_of
  rw [Worker.setStrand, snow_only]

theorem posted_after_outside (s : State) (due len : Nat) (c : ConfW) : Same.Outside s ((s.posted due c).afterS len 0 []) := by
  simp only [State.posted, State.afterS, setWk_setWk, setWk_wk]
  exact same_of rfl

/-- Memory reads as before where only the worker's scalars and strands have changed. -/
theorem Same.Outside.memory {s t : State} (h : Same.Outside s t) : Same.memory s t := by
  refine ⟨fun a => ?_, fun a => ?_⟩
  · rw [h.device]; rfl
  · rw [h.worker]

/-- Settles O8: the only outcomes with a next state are the wait, the step to the next word and the write itself. -/
theorem scalarFrames : Obligations.ScalarFrames := by
  unfold Obligations.ScalarFrames
  refine ⟨fun i d s t hi h => ?_, fun i p s t hi h => ?_⟩
  · rcases scalar_outcomes hi h with rfl | ⟨len, rfl | ⟨v, rfl⟩⟩
    · exact ⟨same_refl _, (same_refl _).memory, fun _ _ => rfl, fun _ => ⟨rfl, rfl, rfl⟩⟩
    · refine ⟨afterS_outside _ _ _ _, (afterS_outside _ _ _ _).memory, fun r _ => by simp, fun e => ?_⟩
      rw [afterS_wk]
      cases e <;> exact ⟨rfl, rfl, rfl⟩
    · refine ⟨wroteS_outside _ _ _ _, (wroteS_outside _ _ _ _).memory, fun r hr => ?_, fun e => ?_⟩
      · rw [wroteS_wk, setStrand_sget, snow_sget]
        by_cases h0 : r = 0 <;> simp [h0, hr]
      · rw [wroteS_wk, Worker.setStrand, snow_strands]
        cases e <;> exact ⟨rfl, rfl, rfl⟩
  · rcases pred_outcomes hi h with rfl | ⟨len, rfl | ⟨b, hp, rfl⟩⟩
    · exact ⟨same_refl _, (same_refl _).memory, fun _ => rfl, fun _ _ _ => rfl, rfl, fun _ _ => rfl⟩
    · refine ⟨afterS_outside _ _ _ _, (afterS_outside _ _ _ _).memory, fun r => by simp, fun q _ _ => ?_, ?_, fun e he => ?_⟩
      · simp [Strand.stepped]
      · simp [Strand.stepped]
      · rw [afterS_wk, setStrand_S_other _ _ he]
    · refine ⟨posted_after_outside _ _ _ _, (posted_after_outside _ _ _ _).memory, fun r => ?_, fun q hq hne => ?_, ?_, fun e he => ?_⟩
      · simp [State.posted, Worker.sget]
      · simp only [afterS_wk, setStrand_S_s, Strand.stepped, posted_wk, View.apply, pred_setPred _ _ _ _ hq, hne, if_false]
        by_cases h15 : q = 15 <;> simp [h15]
      · simp only [afterS_wk, setStrand_S_s, Strand.stepped, posted_wk, View.apply, View.setPred, hp, if_false]
      · rw [afterS_wk, setStrand_S_other _ _ he, posted_other_view _ _ _ he]

end Sys2Proof.Machine
end

section
/-! PROOF. Transfers of S and of the strands that follow (O9 to O12). -/
namespace Sys2Proof.Machine
open Sys2Proof

/-! ## What a target is -/

theorem targetOk_of_headland {s : State} {w : Worker} {x : PAddr} (h : s.headlandAt w x = true) : s.targetOk w x = true := by
  unfold State.headlandAt at h
  unfold State.targetOk
  cases hf : s.fetchParcel w x with
  | ok p => rw [hf] at h; exact h
  | error e => rw [hf] at h; simp at h

theorem targetOk_bad {s : State} {w : Worker} {x : PAddr}
    (h : x.getLsbD 0 = true ∨ ∃ p, s.fetchParcel w x = .ok p ∧ isHeadland p = false) : s.targetOk w x = false := by
  unfold State.targetOk
  rcases h with h | ⟨p, hf, hp⟩
  · simp [h]
  · simp [hf, hp]

theorem scalarTarget_eq (a : BitVec 5) (s : State) : scalarTarget a s = (s.wk.sget a.toNat).extractLsb' 0 57 := by
  apply BitVec.eq_of_toNat_eq
  simp [scalarTarget]

theorem st_of_S {s : State} (he : s.curEng = .S) : s.st = s.wk.strands.s := by rw [State.st, he]; rfl

/-! ## The bucket of `sbkj` -/

/-- Whether a bucket is large enough (R207). -/
def fitsBucket (v : View) (n i : Nat) : Bool :=
  bits (tabGet 0 v.bkt i).toNat 0 16 != 0 && decide (n ≤ bits (tabGet 0 v.bkt i).toNat 0 16)

theorem bucketOf_eq {v : View} {n i : Nat} (hi : i < 8) (h : fitsBucket v n i = true ∨ i = 7)
    (hj : ∀ j, j < i → fitsBucket v n j = false) : bucketOf v n = tabGet 0 v.bkt i := by
  have hb : bucketOf v n = match (List.range 8).find? (fitsBucket v n) with
      | some i => tabGet 0 v.bkt i
      | none => tabGet 0 v.bkt 7 := rfl
  rw [hb]
  by_cases hf : fitsBucket v n i = true
  · have : (List.range 8).find? (fitsBucket v n) = some i := by
      rw [List.find?_range_eq_some]
      exact ⟨hf, List.mem_range.mpr hi, fun j h => by simp [hj j h]⟩
    rw [this]
  · obtain rfl : i = 7 := h.resolve_left hf
    have : (List.range 8).find? (fitsBucket v n) = none := by
      rw [List.find?_range_eq_none]
      intro j h8
      by_cases h7 : j = 7
      · simpa [h7] using hf
      · simp [hj j (by omega)]
    rw [this]

/-! ## The blocks that a jump pops -/

theorem popBlocks_append (x : PAddr) (own rest : List Block) :
    popBlocks rest.length x (own ++ rest) =
      own.filter (fun b => decide (b.head.toNat + 4 ≤ x.toNat ∧ x.toNat < b.fin.toNat)) ++ rest := by
  unfold popBlocks Block.contains
  rw [List.length_append, Nat.add_sub_cancel, List.take_left, List.drop_left]

/-! ## What a guarded transfer does -/

section
variable {s : State} {len : Nat} {g : Guard} {k : Transfer} {x : State → PAddr}

theorem guardedTransfer_off (h : Turn.Ready .S s) (hg : s.view.guard g = false) (ho : s.outcomeFree) :
    guardedTransfer len g k x s = .ok ((), (s.told ⟨false, 0, 0, 0⟩).afterS len 0 []) := by
  have hr : s.st.room = true := decide_eq_true h.room
  simp only [guardedTransfer, fallS, m_bind, m_look, id_eq, hg, Bool.false_eq_true, if_false, hr, m_await_true,
    postOutcome_ok ho, m_work, State.afterS, Issue.none, stepped_eq]

theorem guardedTransfer_bad (hg : s.view.guard g = true) (hx : s.targetOk s.wk (x s) = false) :
    guardedTransfer len g k x s = .error (.trap ⟨1, 2, (x s).toNat, none⟩) := by
  simp only [guardedTransfer, m_bind, m_look, id_eq, hg, if_true, hx, Bool.false_eq_true, if_false, m_trap]

theorem guardedTransfer_jump (h : Turn.Ready .S s) (hg : s.view.guard g = true) (hx : s.headlandAt s.wk (x s) = true)
    (ho : s.outcomeFree) (hs : s.slipFree .S) :
    guardedTransfer len g .jump x s = .ok ((), s.jumpedS len (x s) 0 (popBlocks s.baseS (x s) s.st.stack)) := by
  simp only [guardedTransfer, m_bind, m_look, id_eq, hg, if_true, targetOk_of_headland hx, reduceCtorEq, if_false]
  rw [transferS_ok h.room h.turn ho hs, st_of_S h.turn]
  rfl

/-- The link of a call is written before S transfers; it changes neither queues, boundaries nor blocks. -/
theorem guardedTransfer_call (h : Turn.Ready .S s) (hg : s.view.guard g = true) (hx : s.headlandAt s.wk (x s) = true)
    (ho : s.outcomeFree) (hs : s.slipFree .S) :
    guardedTransfer len g .call x s =
      .ok ((), (s.setWk (s.wk.snow 31 (s.link len))).jumpedS len (x s) 0 s.st.stack) := by
  have hl : BitVec.ofNat 64 ((s.wk.strands.s.pc + BitVec.ofNat 57 (2 * len)).toNat +
      (s.wk.strands.s.stack.length % 8) <<< 57) = s.link len := by
    rw [State.link, st_of_S h.turn, Nat.shiftLeft_eq]
  simp only [guardedTransfer, m_bind, m_look, id_eq, hg, if_true, targetOk_of_headland hx, m_work, hl]
  have hw : (s.setWk (s.wk.snow 31 (s.link len))).wk.strands =
      { s.wk.strands with s := { s.wk.strands.s with pend := s.wk.strands.s.pend.map (Pend.without [(0, 31)]) } } := by
    rw [setWk_wk, snow_strands]
  generalize hu : s.setWk (s.wk.snow 31 (s.link len)) = u at hw ⊢
  have hut : u.curEng = .S := by rw [← hu]; exact h.turn
  have hroom : u.st.pend.length < 32 := by
    have := h.room
    rw [st_of_S h.turn] at this
    rw [st_of_S hut, hw]; simpa using this
  have huo : u.outcomeFree := by
    intro e he
    have := ho e he
    rw [hw]
    cases e with
    | S => simp at he
    | L | V | M | W => exact this
  have hus : u.slipFree .S := by
    rcases hs with ⟨_, hh⟩ | hd
    · refine .inl ⟨rfl, ?_⟩
      rw [← hu, setWk_wk, Worker.inHandler, snow_only]; exact hh
    · refine .inr fun d hm => ?_
      have := hd d hm
      rw [hw]
      cases d <;> exact this
  rw [transferS_ok hroom hut huo hus, st_of_S h.turn, hw]
  rfl

theorem room_false {t : Strand} (hr : 32 ≤ t.pend.length) : t.room = false :=
  decide_eq_false (by simpa [Config.pendCap] using hr)

theorem transferS_full {t : State} {y : PAddr} (hr : 32 ≤ t.wk.strands.s.pend.length) :
    transferS len k y t = .error .stall := by
  simp only [transferS, m_bind, m_look, room_false hr, Bool.false_and, m_await_false]

/-- With its queue full S neither transfers nor falls through. -/
theorem guardedTransfer_full (he : s.curEng = .S) (hr : 32 ≤ s.st.pend.length)
    (hx : s.view.guard g = true → s.headlandAt s.wk (x s) = true) : guardedTransfer len g k x s = .error .stall := by
  have hS : 32 ≤ s.wk.strands.s.pend.length := st_of_S he ▸ hr
  cases hg : s.view.guard g with
  | false =>
    simp only [guardedTransfer, fallS, m_bind, m_look, id_eq, hg, Bool.false_eq_true, if_false, room_false hr, m_await_false]
  | true =>
    simp only [guardedTransfer, m_bind, m_look, id_eq, hg, if_true, targetOk_of_headland (hx hg)]
    by_cases hk : k = .call
    · simp only [hk, if_true]
      refine transferS_full (k := .call) ?_
      simpa [modWk_eq, snow_strands] using hS
    · simp only [hk, if_false]
      exact transferS_full (t := s) hS

end

theorem runAny_stall {act : M Unit} {s : State} (hl : s.live = true) (h : act s = .error .stall) : runAny act s = .next s := by
  simp [runAny, hl, h, settleStop]

/-! ## Following an outcome -/

section
variable {s : State} {len : Nat} {kind : Nat → Transfer}

theorem follow_full (hr : 32 ≤ s.st.pend.length) : follow len kind s = .error .stall := by
  simp only [follow, m_bind, m_look, id_eq, room_false hr, m_await_false]

theorem follow_empty (hr : s.st.pend.length < 32) (hq : s.st.outq = []) : follow len kind s = .error .stall := by
  have hf : s.st.room = true := decide_eq_true hr
  simp only [follow, m_bind, m_look, id_eq, hf, m_await_true, hq, m_stall]

theorem follow_head {o : CtlOut} {r : List CtlOut} (hr : s.st.pend.length < 32) (hs : s.slipFree s.curEng) (hq : s.st.outq = o :: r) :
    follow len kind s = .ok ((), s.setSt (if o.taken
      then { s.st with outq := r }.transferred len o.target ((kind o.depth).stack 0 o.target s.st.stack) true
      else { s.st with outq := r }.stepped len 0 [])) := by
  have hf : s.st.room = true := decide_eq_true hr
  cases ht : o.taken <;>
    simp only [follow, m_bind, m_look, id_eq, hf, m_await_true, hq, ht, Bool.false_eq_true, if_true, if_false, slipOk_of hs,
      m_change, State.modSt, jumped_eq, Issue.none, stepped_eq]

/-- A strand other than S at a control word, in terms of its outcome queue. -/
theorem runControl_follow {own : M Unit} (hl : s.live = true) (he : s.curEng ≠ .S) (hr : s.st.pend.length < 32)
    (hs : s.slipFree s.curEng) :
    runControl len kind own s = match s.st.outq with
      | [] => .next s
      | o :: r => .next (s.setSt (if o.taken
          then { s.st with outq := r }.transferred len o.target ((kind o.depth).stack 0 o.target s.st.stack) true
          else { s.st with outq := r }.stepped len 0 [])) := by
  unfold runControl
  rw [if_neg he]
  cases hq : s.st.outq with
  | nil => exact runAny_stall hl (follow_empty hr hq)
  | cons o r => exact runAny_ok hl (follow_head hr hs hq)

/-- A control word waits while the queue is full, whoever stands at it. -/
theorem runControl_full {own : M Unit} (hl : s.live = true) (hr : 32 ≤ s.st.pend.length)
    (ho : s.curEng = .S → own s = .error .stall) : runControl len kind own s = .next s := by
  unfold runControl
  by_cases he : s.curEng = .S
  · rw [if_pos he]; exact runAny_stall hl (ho he)
  · rw [if_neg he]; exact runAny_stall hl (follow_full hr)

end

/-! ## Return -/

/-- What S does at a `ret` (R19). -/
def retAct : M Unit := do
  let w ← M.look State.wk
  let link := (w.sget 31).toNat
  let depth := bits link 57 3
  if w.strands.s.stack.length < depth ∨ bit link 0 then M.illegal 1
  else transferS 1 (.ret depth) (BitVec.ofNat 57 link)

theorem exec_ret_eq (s : State) : exec .ret s = runControl 1 .ret retAct s := rfl

theorem retAct_eq {s : State} (he : s.curEng = .S) :
    retAct s = if s.st.stack.length < (s.wk.sget 31).toNat / 2 ^ 57 % 8 ∨ (s.wk.sget 31).toNat % 2 = 1
      then .error (.trap ⟨1, 1, 0, none⟩)
      else transferS 1 (.ret ((s.wk.sget 31).toNat / 2 ^ 57 % 8)) (BitVec.ofNat 57 (s.wk.sget 31).toNat) s := by
  have hb : ∀ n, (bit n 0 = true) = (n % 2 = 1) := by intro n; simp [bit, Nat.testBit_zero]
  simp only [retAct, m_bind, m_look, bits_eq, hb, st_of_S he]
  norm_num only
  split <;> rfl

/-! ## Headlands and exits while the queue is full -/

section
variable {s : State}

theorem enterBlock_full {b k : Nat} {r : Bool} (hr : 32 ≤ s.st.pend.length) : enterBlock b r k s = .error .stall := by
  simp only [enterBlock, m_bind, m_look, id_eq, room_false hr, m_await_false]

/-- What a strand does at a headland with an immediate count (R18). -/
def headlandAct (b : BitVec 11) (r : Bool) (n : BitVec 14) (s : State) : M Unit :=
  if s.curEng = .S then if s.headOk b.toNat && n != 0 then enterBlock b.toNat r n.toNat else M.illegal 1
  else enterBlock b.toNat r n.toNat

/-- What a strand does at a counted headland (R16, R18). -/
def countedAct (b : BitVec 11) (r : Bool) (c : BitVec 5) (s : State) : M Unit :=
  if s.curEng = .S then
    if s.headOk b.toNat then do
      enterBlock b.toNat r (s.wk.sget c.toNat).toNat
      postOutcome ⟨true, 0, (s.wk.sget c.toNat).toNat, 0⟩
    else M.illegal 1
  else match s.st.outq with
    | [] => M.stall
    | o :: q => do
      enterBlock b.toNat r o.count
      M.change fun s => s.modSt fun t => { t with outq := q }

/-- What a strand does at an exit (R17). -/
def exitAct : M Unit := do
  let s ← M.look id
  M.await (!(s.curEng == .S && s.wk.inHandler) && s.st.room)
  M.change fun s => ((s.release 3).modSt fun t =>
    { t with exited := true, pend := interlock t.pend, pc := t.pc + 2, pos := t.pos + 1 }).lastExit

theorem exec_headland_eq (b : BitVec 11) (r : Bool) (n : BitVec 14) (s : State) :
    exec (.headland b r n) s = runAny (headlandAct b r n s) s := rfl

theorem exec_counted_eq (b : BitVec 11) (r : Bool) (c : BitVec 5) (s : State) :
    exec (.headlandCounted b r c) s = runAny (countedAct b r c s) s := by
  unfold countedAct
  show execHeadlandCounted b r c s = _
  cases hq : s.st.outq <;> unfold execHeadlandCounted <;> rw [hq]

theorem exec_exit_eq (s : State) : exec .exit s = runAny exitAct s := rfl

theorem headlandAct_full {b : BitVec 11} {r : Bool} {n : BitVec 14} (hr : 32 ≤ s.st.pend.length)
    (hx : s.curEng = .S → s.headOk b.toNat = true ∧ n ≠ 0) : headlandAct b r n s s = .error .stall := by
  unfold headlandAct
  by_cases he : s.curEng = .S
  · obtain ⟨hh, hn⟩ := hx he
    simp only [he, if_true, hh, Bool.true_and, bne_iff_ne, ne_eq, hn, not_false_eq_true, enterBlock_full hr]
  · rw [if_neg he, enterBlock_full hr]

theorem countedAct_full {b : BitVec 11} {r : Bool} {c : BitVec 5} (hr : 32 ≤ s.st.pend.length)
    (hx : s.curEng = .S → s.headOk b.toNat = true) : countedAct b r c s s = .error .stall := by
  unfold countedAct
  by_cases he : s.curEng = .S
  · simp only [he, if_true, hx he, m_bind, enterBlock_full hr]
  · simp only [he, if_false]
    cases hq : s.st.outq with
    | nil => rfl
    | cons o q => simp only [m_bind, enterBlock_full hr]

theorem exitAct_full (hr : 32 ≤ s.st.pend.length) : exitAct s = .error .stall := by
  simp only [exitAct, m_bind, m_look, id_eq, room_false hr, Bool.and_false, m_await_false]

end

/-! ## The obligations -/

/-- Settles O9: each transfer is a guarded transfer, which jumps or calls. -/
theorem takenTransfers : Obligations.TakenTransfers := by
  unfold Obligations.TakenTransfers
  refine ⟨fun s g a f h hg hf ho hs => ?_, fun s a i hi => ?_, fun x own rest => popBlocks_append x own rest⟩
  · subst hf
    dsimp only
    refine ⟨fun hx => ⟨?_, ?_⟩, fun hx => ?_, fun hx => ?_⟩
    · exact runControl_S h.live h.turn (guardedTransfer_jump h hg hx ho hs)
    · exact runControl_S h.live h.turn (guardedTransfer_call h hg hx ho hs)
    · rw [← scalarTarget_eq] at hx ⊢
      exact ⟨runControl_S h.live h.turn (guardedTransfer_jump h hg hx ho hs),
        runControl_S h.live h.turn (guardedTransfer_call h hg hx ho hs)⟩
    · exact runControl_S h.live h.turn (guardedTransfer_jump h hg hx ho hs)
  · intro b fits hfit hj
    have hiff : ∀ n, fitsBucket s.view (s.wk.sget a.toNat).toNat n = true ↔ fits n := fun n => by
      simp [fitsBucket, fits, b]
    rw [← hiff] at hfit
    rw [bucketTarget, bucketOf_eq hi hfit fun j h => Bool.eq_false_iff.mpr fun hh => hj j h ((hiff j).mp hh)]
    rw [Nat.shiftRight_eq_div_pow]
    rfl

/-- Settles O10: a held-back transfer falls through; a bad target traps before anything is written; a full queue stalls S at its
transfer and the others at theirs. -/
theorem transfersNotTakenOrIllegal : Obligations.TransfersNotTakenOrIllegal := by
  unfold Obligations.TransfersNotTakenOrIllegal
  refine ⟨fun s g a f h hg hf ho => ?_, fun s g a f hl he hg hf => ?_, ?_⟩
  · subst hf
    have on : ∀ {len kind k x}, runControl len kind (guardedTransfer len f.g k x) s =
        .next ((s.told ⟨false, 0, 0, 0⟩).afterS len 0 []) :=
      runControl_S h.live h.turn (guardedTransfer_off h hg ho)
    exact ⟨on, on, on, on, on⟩
  · subst hf
    have bad : ∀ {len kind k} {x : State → PAddr} {y : PAddr}, x s = y →
        (y.getLsbD 0 = true ∨ ∃ p, s.fetchParcel s.wk y = .ok p ∧ isHeadland p = false) →
        runControl len kind (guardedTransfer len f.g k x) s = .next (s.takeTrap .S s.st.pc ⟨1, 2, y.toNat, none⟩) := by
      rintro len kind k x y rfl hb
      exact runControl_S_trap hl he (guardedTransfer_bad hg (targetOk_bad hb))
    exact ⟨fun hb => ⟨bad rfl hb, bad rfl hb⟩,
      fun hb => ⟨bad (scalarTarget_eq a s) hb, bad (scalarTarget_eq a s) hb⟩, fun hb => bad rfl hb⟩
  · intro s g a c f b r n hl hr hf
    subst hf
    dsimp only
    have full : ∀ {len kind k} {x : State → PAddr} {y : PAddr}, x s = y →
        (s.curEng = .S → s.view.guard f.g = true → s.headlandAt s.wk y = true) →
        runControl len kind (guardedTransfer len f.g k x) s = .next s := by
      rintro len kind k x y rfl hx
      exact runControl_full hl hr fun he => guardedTransfer_full he hr (hx he)
    refine ⟨fun hx => ⟨full rfl hx, full rfl hx⟩, fun hx => ?_, fun hx => full rfl hx, fun hx => ?_, fun hx => ?_, ?_⟩
    · exact ⟨full (scalarTarget_eq a s) hx, full (scalarTarget_eq a s) hx⟩
    · rw [exec_ret_eq]
      refine runControl_full hl hr fun he => ?_
      obtain ⟨hd, h0⟩ := hx he
      rw [retAct_eq he, if_neg (by omega)]
      exact transferS_full (st_of_S he ▸ hr)
    · exact ⟨runAny_stall hl (headlandAct_full hr hx), runAny_stall hl (countedAct_full hr fun he => (hx he).1)⟩
    · exact runAny_stall hl (exitAct_full hr)

/-- Settles O11: S returns to the link, or traps on it. -/
theorem retReturns : Obligations.RetReturns := by
  unfold Obligations.RetReturns
  intro s hl he ho hs
  dsimp only
  rw [exec_ret_eq]
  refine ⟨fun hr hd hx => ?_, fun hb => ?_⟩
  · apply runControl_S hl he
    rw [retAct_eq he, if_neg (by omega), transferS_ok hr he ho hs, st_of_S he]
    rfl
  · apply runControl_S_trap hl he
    rw [retAct_eq he, if_pos hb]

/-- Settles O12: every transfer word is a control word with its own way of popping blocks. -/
theorem otherStrandsFollow : Obligations.OtherStrandsFollow := by
  unfold Obligations.OtherStrandsFollow
  intro s i len g a f hl he hr hs hi
  have follows : ∀ (len : Nat) (kind : Nat → Transfer) (own : M Unit), match s.st.outq with
      | [] => runControl len kind own s = .next s
      | o :: r =>
        runControl len kind own s = .next (s.setSt (if o.taken
          then { s.st with outq := r }.transferred len o.target ((kind o.depth).stack 0 o.target s.st.stack) true
          else { s.st with outq := r }.stepped len 0 [])) := by
    intro len kind own
    have := runControl_follow (len := len) (kind := kind) (own := own) hl he hr hs
    cases hq : s.st.outq <;> rw [hq] at this <;> exact this
  rcases hi with ⟨rfl, rfl⟩ | ⟨rfl, rfl⟩ | ⟨rfl, rfl⟩ | ⟨rfl, rfl⟩ | ⟨rfl, rfl⟩ | ⟨rfl, rfl⟩
  · exact follows 4 (fun _ => .jump) _
  · exact follows 4 (fun _ => .jump) _
  · exact follows 2 (fun _ => .jump) _
  · exact follows 4 (fun _ => .call) _
  · exact follows 2 (fun _ => .call) _
  · exact follows 1 .ret _

end Sys2Proof.Machine
end

section
/-! PROOF. Headlands, the end of a repetition, and exit (O13, O14). -/
namespace Sys2Proof.Machine
open Sys2Proof

/-! ## Headlands -/

section
variable {s : State} {b : BitVec 11} {r : Bool} {n : BitVec 14} {c : BitVec 5}

/-- A strand that has entered the block whose headland it stands at, to run it `k` times. -/
def Strand.entered (t : Strand) (b : BitVec 11) (r : Bool) (k : Nat) (counts : Bool) : Strand :=
  { t with
    stack := ⟨t.pc, t.pc + BitVec.ofNat 57 (4 + 2 * b.toNat), k, r⟩ :: t.stack, pc := t.pc + 4, pos := t.pos + 2
    dbn := if counts then t.dbn + 1 else t.dbn
    pend := t.pend.map fun p => { p with count := 0, lock := true } }

/-- A strand that has passed by the block whose headland it stands at. -/
def Strand.passedBy (t : Strand) (b : BitVec 11) : Strand :=
  { t with pc := t.pc + BitVec.ofNat 57 (4 + 2 * b.toNat), pos := t.pos + 2 }

theorem enterBlock_S {k : Nat} (hr : s.st.pend.length < 32) (hs : s.slipFree s.curEng) (he : s.curEng = .S) (hk : k ≠ 0)
    (hd : s.st.stack.length < s.baseS + 4) :
    enterBlock b.toNat r k s = .ok ((), s.setSt (s.st.entered b r k (!s.wk.inHandler))) := by
  rw [enterBlock_ok hr hs hk fun _ => hd]
  simp only [he]
  rfl

theorem enterBlock_other {k : Nat} (hr : s.st.pend.length < 32) (hs : s.slipFree s.curEng) (he : s.curEng ≠ .S) (hk : k ≠ 0) :
    enterBlock b.toNat r k s = .ok ((), s.setSt (s.st.entered b r k true)) := by
  rw [enterBlock_ok hr hs hk fun h => absurd h he]
  have : (s.curEng == .S) = false := by simpa using he
  simp only [this]
  rfl

theorem enterBlock_past (hr : s.st.pend.length < 32) :
    enterBlock b.toNat r 0 s = .ok ((), s.setSt (s.st.passedBy b)) := enterBlock_zero hr

theorem enterBlock_fifth {k : Nat} (he : s.curEng = .S) (hf : s.baseS + 4 ≤ s.st.stack.length) (hr : s.st.pend.length < 32)
    (hk : k ≠ 0) : enterBlock b.toNat r k s = .error (.trap ⟨1, 1, 0, none⟩) := by
  have hroom : s.st.room = true := decide_eq_true hr
  have hb : s.wk.base .S + 4 ≤ s.st.stack.length := by simpa [Worker.base, State.baseS] using hf
  simp only [enterBlock, m_bind, m_look, id_eq, hroom, m_await_true, hk, if_false, he, hb, and_self, if_true, m_illegal]

/-- Entering a block leaves the outcome queues of the other strands and what makes a handler as they are. -/
theorem told_room {t : Strand} (he : s.curEng = .S) (ho : s.outcomeFree) : (s.setSt t).outcomeFree := by
  intro e hm
  have := ho e hm
  rw [State.setSt, setWk_wk, he]
  cases e with
  | S => simp at hm
  | L | V | M | W => exact this

end

/-- Settles O13: S checks a headland and enters its block, or traps; the others enter it with the count they read. -/
theorem headlands : Obligations.Headlands := by
  unfold Obligations.Headlands
  refine ⟨fun s b r n c hl hr hs => ?_, fun s b r n c hl he => ?_⟩
  · dsimp only
    refine ⟨fun he hh hd => ⟨fun hn => ?_, fun ho => ?_⟩, fun he => ⟨fun hn => ?_, fun o q hq => ?_⟩⟩
    · have hn' : (n != 0) = true := by simpa using fun h : n = 0 => hn (by simp [h])
      rw [exec_headland_eq, headlandAct, if_pos he, hh, hn']
      exact runAny_ok hl (enterBlock_S hr hs he hn hd)
    · rw [exec_counted_eq, countedAct, if_pos he, if_pos hh]
      by_cases hk : (s.wk.sget c.toNat).toNat = 0
      · rw [hk, if_pos rfl]
        exact runAny_ok hl ((m_bind_ok (enterBlock_past hr)).trans (postOutcome_ok (told_room he ho) _))
      · rw [if_neg hk]
        exact runAny_ok hl ((m_bind_ok (enterBlock_S hr hs he hk hd)).trans (postOutcome_ok (told_room he ho) _))
    · rw [exec_headland_eq, headlandAct, if_neg he]
      exact runAny_ok hl (enterBlock_other hr hs he hn)
    · rw [exec_counted_eq, countedAct, if_neg he]
      simp only [hq]
      apply runAny_ok hl
      by_cases hk : o.count = 0
      · rw [if_pos hk, hk, m_bind_ok (enterBlock_past hr), m_change]
        simp only [State.modSt, State.setSt, setWk_wk, setWk_setWk, setWk_curEng, setWk_st, setStrand_get, setStrand_setStrand]
        rfl
      · rw [if_neg hk, m_bind_ok (enterBlock_other hr hs he hk), m_change]
        simp only [State.modSt, State.setSt, setWk_wk, setWk_setWk, setWk_curEng, setWk_st, setStrand_get, setStrand_setStrand]
        rfl
  · dsimp only
    rw [exec_headland_eq, exec_counted_eq, headlandAct, countedAct, if_pos he, if_pos he]
    have trap : ∀ {act : M Unit}, act s = .error (.trap ⟨1, 1, 0, none⟩) →
        runAny act s = .next (s.takeTrap .S s.st.pc ⟨1, 1, 0, none⟩) := fun h => by rw [runAny_trap hl h, he]
    refine ⟨fun h => ?_, fun h => ?_⟩
    · apply trap
      by_cases hc : (s.headOk b.toNat && n != 0) = true
      · rw [if_pos hc]
        simp only [Bool.and_eq_true, bne_iff_ne, ne_eq] at hc
        obtain ⟨hh, hn⟩ := hc
        rcases h with h | h | ⟨hf, hr⟩
        · rw [h] at hh; cases hh
        · exact absurd h hn
        · exact enterBlock_fifth he hf hr fun h0 => hn (BitVec.eq_of_toNat_eq (by simpa using h0))
      · rw [if_neg hc]; rfl
    · apply trap
      by_cases hh : s.headOk b.toNat = true
      · rw [if_pos hh]
        rcases h with h | ⟨⟨hf, hr⟩, hk⟩
        · rw [h] at hh; cases hh
        · exact m_bind_error (enterBlock_fifth he hf hr hk)
      · rw [if_neg hh]; rfl

/-! ## The end of a repetition -/

theorem atEnd_of {s : State} {b : Block} {r : List Block} (h : s.st.stack = b :: r) (hf : b.fin = s.st.pc)
    (ht : s.curEng = .S → s.wk.inHandler = true → s.wk.sup.tdepth < s.st.stack.length) : s.wk.atEnd s.curEng = true := by
  have h' : (s.wk.strands.get s.curEng).stack = b :: r := h
  have hf' : b.fin = (s.wk.strands.get s.curEng).pc := hf
  simp only [Worker.atEnd, h', hf', beq_self_eq_true, Bool.true_and, Bool.or_eq_true, Bool.not_eq_true', Bool.and_eq_false_iff,
    beq_eq_false_iff_ne, ne_eq, decide_eq_true_eq]
  rw [h] at ht
  by_cases he : s.curEng = .S
  · by_cases hh : s.wk.inHandler = true
    · exact .inr (ht he hh)
    · exact .inl (.inr (by simpa using hh))
  · exact .inl (.inl he)

/-! ## Exit -/

@[simp] theorem release_three_wk (s : State) : (s.release 3).wk = s.wk := by
  rw [State.release, State.releaseAs, releaseTo_same]; rfl

@[simp] theorem release_three_curEng (s : State) : (s.release 3).curEng = s.curEng := by
  rw [State.release, State.releaseAs, releaseTo_same]; rfl

@[simp] theorem release_three_launches (s : State) : (s.release 3).launches = s.launches := by
  rw [State.release, State.releaseAs, releaseTo_same]; rfl

/-- The strand in turn has exited, behind its release; what the last exit of a worker does is still to come. -/
def State.leftStrand (s : State) : State :=
  (s.release 3).setSt { s.st with
    exited := true, pend := s.st.pend.map (fun p => { p with count := 0, lock := true }), pc := s.st.pc + 2, pos := s.st.pos + 1 }

theorem exitAct_ok {s : State} (hr : s.st.pend.length < 32) (hh : s.curEng = .S → s.wk.inHandler = false) :
    exitAct s = .ok ((), s.leftStrand.lastExit) := by
  have hroom : s.st.room = true := decide_eq_true hr
  have hc : (!(s.curEng == .S && s.wk.inHandler)) = true := by
    by_cases he : s.curEng = .S
    · simp [he, hh he]
    · simp [he]
  simp only [exitAct, m_bind, m_look, id_eq, hc, hroom, Bool.and_true, m_await_true, m_change]
  congr 3

theorem leftStrand_wk (s : State) : s.leftStrand.wk = s.wk.setStrand s.curEng { s.st with
    exited := true, pend := s.st.pend.map (fun p => { p with count := 0, lock := true }), pc := s.st.pc + 2
    pos := s.st.pos + 1 } := by
  simp [State.leftStrand, State.setSt]

theorem leftStrand_gone (s : State) :
    s.leftStrand.wk.gone = true ↔ ∀ e, e ≠ s.curEng → (s.wk.strands.get e).exited = true := by
  rw [gone_iff, leftStrand_wk, Worker.setStrand]
  refine ⟨fun h e he => ?_, fun h e => ?_⟩
  · have := h e
    rwa [get_set_ne _ _ _ _ he] at this
  · by_cases he : e = s.curEng
    · rw [he, get_set_self]
    · rw [get_set_ne _ _ _ _ he]; exact h e he

theorem leftStrand_gamma (s : State) : s.leftStrand.wk.strands.s.view.gamma = s.wk.strands.s.view.gamma := by
  rw [leftStrand_wk, Worker.setStrand, State.st]
  cases s.curEng <;> rfl

theorem leftStrand_fields (s : State) : s.leftStrand.wk.openTask = s.wk.openTask ∧ s.leftStrand.wk.wid = s.wk.wid ∧
    s.leftStrand.wk.lid = s.wk.lid ∧ s.leftStrand.launches = s.launches := by
  refine ⟨?_, ?_, ?_, ?_⟩
  · rw [leftStrand_wk]; rfl
  · rw [leftStrand_wk]; rfl
  · rw [leftStrand_wk]; rfl
  · rw [State.leftStrand, State.setSt, setWk_launches, release_three_launches]

theorem modLaunch_put {s : State} {i : Nat} {l : Launch} (f : Launch → Launch) (h : tabFind s.launches i = some l) :
    s.modLaunch i f = s.putLaunch i (f l) := by simp [State.modLaunch, h]

theorem putLaunch_twice {s : State} (i : Nat) (l m : Launch) : (s.putLaunch i l).putLaunch i m = s.putLaunch i m := by
  simp [State.putLaunch, tabInsert_put_comm]

/-- What the last exit does where a task is open: it is committed, and worker 0 leaves its BSTEP value. -/
theorem lastExit_task {s : State} {l : Launch} {n : Nat} (hg : s.wk.gone = true) (ho : s.wk.openTask = some n)
    (hl : tabFind s.launches s.wk.lid = some l) :
    s.lastExit = (s.setWk { s.wk with openTask := none }).putLaunch s.wk.lid
      { l with left := l.left - 1, exitGamma := if s.wk.wid = 0 then s.wk.strands.s.view.gamma else l.exitGamma } := by
  have hc : s.commitTask = (s.setWk { s.wk with openTask := none }).putLaunch s.wk.lid { l with left := l.left - 1 } := by
    rw [State.commitTask, ho, Option.isSome_some, if_pos rfl, modWk_eq, modLaunch_put _ (by rw [setWk_launches]; exact hl)]
  have hw : s.commitTask.wk = { s.wk with openTask := none } := by rw [hc]; exact setWk_wk s _
  rw [State.lastExit, if_pos hg]
  dsimp only
  rw [hw]
  by_cases h0 : s.wk.wid = 0
  · rw [if_pos h0, modLaunch_put (l := { l with left := l.left - 1 }), hc, putLaunch_twice, if_pos h0]
    rw [hc]
    exact tabFind_put_self _ _ _
  · rw [if_neg h0, hc, if_neg h0]

theorem lastExit_not {s : State} (hg : s.wk.gone = false) : s.lastExit = s := by simp [State.lastExit, hg]

theorem lastExit_idle {s : State} (hg : s.wk.gone = true) (ho : s.wk.openTask = none) :
    s.lastExit = if s.wk.wid = 0 then s.modLaunch s.wk.lid fun l => { l with exitGamma := s.wk.strands.s.view.gamma } else s := by
  have hc : s.commitTask = s := by simp [State.commitTask, ho]
  simp [State.lastExit, hg, hc]

/-- Settles O14: a repetition that ends, and the exit of one strand followed by what the last exit of a worker does. -/
theorem repetitionsAndExits : Obligations.RepetitionsAndExits := by
  unfold Obligations.RepetitionsAndExits
  refine ⟨fun s b r hl hst hf hs ht => ?_, fun s hl hr hh => ?_, fun s hl he hh => ?_⟩
  · have hgo : (s.live && s.wk.atEnd s.curEng && s.wk.slipOk s.curEng) = true := by
      rw [hl, atEnd_of hst hf ht, slipOk_of hs]; rfl
    have hcount : s.wk.counting s.curEng = !decide (s.curEng = .S ∧ s.wk.inHandler = true) := by
      simp [Worker.counting, Bool.beq_eq_decide_eq]
    show Host.Outcome.next (repetitionEnds s) = _
    simp only [repetitionEnds, hst, hgo, if_true, hcount, Strand.boundary]
    congr 2
    by_cases h1 : 1 < b.left <;> by_cases h2 : s.curEng = .S ∧ s.wk.inHandler = true <;> simp [h1, h2, interlock]
  · obtain ⟨ho, hw, hlid, hla⟩ := leftStrand_fields s
    have hex : exec .exit s = .next s.leftStrand.lastExit := by
      rw [exec_exit_eq]; exact runAny_ok hl (exitAct_ok hr hh)
    rw [hex]
    dsimp only
    refine ⟨fun hn => ?_, fun hlast ht hne => ?_, fun l hfind => ⟨fun hlast ht h0 => ?_, fun n hlast ht => ?_⟩⟩
    · rw [lastExit_not (Bool.eq_false_iff.mpr fun h => hn ((leftStrand_gone s).mp h))]; rfl
    · rw [lastExit_idle ((leftStrand_gone s).mpr hlast) (ho.trans ht), if_neg (hw ▸ hne)]; rfl
    · rw [lastExit_idle ((leftStrand_gone s).mpr hlast) (ho.trans ht), if_pos (hw.trans h0), hlid,
        modLaunch_put _ (by rw [hla]; exact hfind), leftStrand_gamma]
      rfl
    · rw [lastExit_task ((leftStrand_gone s).mpr hlast) (ho.trans ht) (by rw [hla, hlid]; exact hfind), hlid, hw, leftStrand_gamma]
      rfl
  · rw [exec_exit_eq]
    apply runAny_stall hl
    simp only [exitAct, m_bind, m_look, id_eq, he, hh, beq_self_eq_true, Bool.and_self, Bool.not_true, Bool.false_and, m_await_false]

end Sys2Proof.Machine
end

section
/-! PROOF. Configuration instructions, the grant of a shape, and the order in which a strand takes posted writes (O15). -/
namespace Sys2Proof.Machine
open Sys2Proof

/-! ## The grant (R38) -/

/-- The number of slots that a request or grant stands for. -/
def slotsOf (d : Quad Nat) : Nat := d.c0 * d.c1 * d.c2 * d.c3

/-- Every dimension has at least one slot. -/
def Positive (d : Quad Nat) : Prop := 1 ≤ d.c0 ∧ 1 ≤ d.c1 ∧ 1 ≤ d.c2 ∧ 1 ≤ d.c3

theorem positive_iff (d : Quad Nat) : (∀ k, 1 ≤ d.get k) ↔ Positive d := by
  refine ⟨fun h => ⟨h 0, h 1, h 2, h 3⟩, fun ⟨h0, h1, h2, h3⟩ k => ?_⟩
  match k with
  | 0 => exact h0
  | 1 => exact h1
  | 2 => exact h2
  | _ + 3 => exact h3

theorem shrinkDim_fits {cap a : Nat} {d : Quad Nat} (h : slotsOf d ≤ cap) : shrinkDim cap d a = d := by
  have : ¬ cap < d.c0 * d.c1 * d.c2 * d.c3 := Nat.not_lt.mpr h
  simp [shrinkDim, this]

/-- One dimension of `x` slots beside `q` others, shrunk to a capacity: it keeps a slot, and either all fit or one is left. -/
theorem shrink_num (cap x q : Nat) (hx : 1 ≤ x) :
    let y := max 1 (cap / (x * q / x))
    1 ≤ y ∧ (y * q ≤ cap ∨ y = 1) := by
  have hq : x * q / x = q := Nat.mul_div_cancel_left q hx
  simp only [hq]
  refine ⟨le_max_left _ _, ?_⟩
  rcases Nat.lt_or_ge (cap / q) 1 with h | h
  · exact .inr (by omega)
  · exact .inl (by rw [max_eq_right h]; exact Nat.div_mul_le_self cap q)

/-- What shrinking one of the last three dimensions does where not all slots fit. -/
theorem shrinkDim_three (cap : Nat) {d : Quad Nat} (h : Positive d) : ∃ y, 1 ≤ y ∧ shrinkDim cap d 3 = { d with c3 := y } ∧
    (slotsOf { d with c3 := y } ≤ cap ∨ y = 1) := by
  obtain ⟨h0, h1, h2, h3⟩ := h
  by_cases hp : slotsOf d ≤ cap
  · exact ⟨d.c3, h3, shrinkDim_fits hp, .inl hp⟩
  · have hp' : cap < d.c0 * d.c1 * d.c2 * d.c3 := Nat.not_le.mp hp
    obtain ⟨hy, hor⟩ := shrink_num cap d.c3 (d.c0 * d.c1 * d.c2) h3
    rw [Nat.mul_comm d.c3] at hy hor
    refine ⟨_, hy, by simp only [shrinkDim, hp', if_true, Quad.get, Quad.set], ?_⟩
    rcases hor with hle | h1
    · exact .inl (by rw [Nat.mul_comm] at hle; exact hle)
    · exact .inr h1

theorem shrinkDim_two (cap : Nat) {d : Quad Nat} (h : Positive d) : ∃ y, 1 ≤ y ∧ shrinkDim cap d 2 = { d with c2 := y } ∧
    (slotsOf { d with c2 := y } ≤ cap ∨ y = 1) := by
  obtain ⟨h0, h1, h2, h3⟩ := h
  by_cases hp : slotsOf d ≤ cap
  · exact ⟨d.c2, h2, shrinkDim_fits hp, .inl hp⟩
  · have hp' : cap < d.c0 * d.c1 * d.c2 * d.c3 := Nat.not_le.mp hp
    have hc : d.c2 * (d.c0 * d.c1 * d.c3) = d.c0 * d.c1 * d.c2 * d.c3 := by ring
    obtain ⟨hy, hor⟩ := shrink_num cap d.c2 (d.c0 * d.c1 * d.c3) h2
    rw [hc] at hy hor
    refine ⟨_, hy, by simp only [shrinkDim, hp', if_true, Quad.get, Quad.set], ?_⟩
    rcases hor with hle | h1
    · exact .inl (by simp only [slotsOf]; calc _ = _ := by ring
                                          _ ≤ _ := hle)
    · exact .inr h1

theorem shrinkDim_one (cap : Nat) {d : Quad Nat} (h : Positive d) : ∃ y, 1 ≤ y ∧ shrinkDim cap d 1 = { d with c1 := y } ∧
    (slotsOf { d with c1 := y } ≤ cap ∨ y = 1) := by
  obtain ⟨h0, h1, h2, h3⟩ := h
  by_cases hp : slotsOf d ≤ cap
  · exact ⟨d.c1, h1, shrinkDim_fits hp, .inl hp⟩
  · have hp' : cap < d.c0 * d.c1 * d.c2 * d.c3 := Nat.not_le.mp hp
    have hc : d.c1 * (d.c0 * d.c2 * d.c3) = d.c0 * d.c1 * d.c2 * d.c3 := by ring
    obtain ⟨hy, hor⟩ := shrink_num cap d.c1 (d.c0 * d.c2 * d.c3) h1
    rw [hc] at hy hor
    refine ⟨_, hy, by simp only [shrinkDim, hp', if_true, Quad.get, Quad.set], ?_⟩
    rcases hor with hle | h1
    · exact .inl (by simp only [slotsOf]; calc _ = _ := by ring
                                          _ ≤ _ := hle)
    · exact .inr h1

/-- Three dimensions shrunk in turn: each is one slot before the next loses any, and the first fits alone. -/
theorem shrunk_fits {cap : Nat} {d : Quad Nat} (h : Positive d) (hc : d.c0 ≤ cap) :
    Positive (shrinkDim cap (shrinkDim cap (shrinkDim cap d 3) 2) 1) ∧
      slotsOf (shrinkDim cap (shrinkDim cap (shrinkDim cap d 3) 2) 1) ≤ cap := by
  obtain ⟨h0, h1, h2, h3⟩ := h
  obtain ⟨e, he, e3, ho3⟩ := shrinkDim_three cap (d := d) ⟨h0, h1, h2, h3⟩
  rw [e3]
  obtain ⟨c, hc1, e2, ho2⟩ := shrinkDim_two cap (d := { d with c3 := e }) ⟨h0, h1, h2, he⟩
  rw [e2]
  obtain ⟨b, hb, e1, ho1⟩ := shrinkDim_one cap (d := { d with c3 := e, c2 := c }) ⟨h0, h1, hc1, he⟩
  rw [e1]
  refine ⟨⟨h0, hb, hc1, he⟩, ?_⟩
  rcases ho1 with hle | rfl
  · exact hle
  · simp only [slotsOf, Nat.mul_one] at ho2 ho3 ⊢
    rcases ho2 with hle | rfl
    · exact (Nat.mul_le_mul_right _ (Nat.mul_le_mul_right _ (Nat.le_mul_of_pos_right _ h1))).trans hle
    · rcases ho3 with hle | rfl
      · calc d.c0 * 1 * e ≤ d.c0 * d.c1 * d.c2 * e :=
            Nat.mul_le_mul_right _ (by rw [Nat.mul_one, Nat.mul_assoc]; exact Nat.le_mul_of_pos_right _ (Nat.mul_pos h1 h2))
          _ ≤ cap := hle
      · simpa using hc

/-- What the grant shrinks: the request with at least one slot in each dimension and d0 rounded up to 16, none above the
capacity. -/
def roundedReq (req : Quad Nat) (cap : Nat) : Quad Nat :=
  let d := req.map fun x => min (max x 1) cap
  d.set 0 (min (16 * ceilDiv d.c0 16) cap)

theorem grantOf_eq (req : Quad Nat) (w : Nat) : grantOf req w =
    shrinkDim (262144 / w) (shrinkDim (262144 / w) (shrinkDim (262144 / w) (roundedReq req (262144 / w)) 3) 2) 1 := rfl

theorem roundedReq_positive (req : Quad Nat) {cap : Nat} (h : 16 ≤ cap) :
    Positive (roundedReq req cap) ∧ (roundedReq req cap).c0 ≤ cap := by
  simp only [roundedReq, Positive, Quad.map, Quad.set, ceilDiv]
  omega

theorem roundedReq_fits {req : Quad Nat} {cap : Nat} (h : Positive req) (h16 : 16 ∣ req.c0) (hp : slotsOf req ≤ cap) :
    roundedReq req cap = req := by
  obtain ⟨h0, h1, h2, h3⟩ := h
  obtain ⟨a, b, c, e⟩ := req
  simp only [slotsOf] at h0 h1 h2 h3 h16 hp
  have hab : 0 < a * b := Nat.mul_pos h0 h1
  have habc : 0 < a * b * c := Nat.mul_pos hab h2
  have h5 : a * b * c ≤ cap := (Nat.le_mul_of_pos_right _ h3).trans hp
  have he : e ≤ cap := (Nat.le_mul_of_pos_left _ habc).trans hp
  have h4 : a * b ≤ cap := (Nat.le_mul_of_pos_right _ h2).trans h5
  have hc : c ≤ cap := (Nat.le_mul_of_pos_left _ hab).trans h5
  have ha : a ≤ cap := (Nat.le_mul_of_pos_right _ h1).trans h4
  have hb : b ≤ cap := (Nat.le_mul_of_pos_left _ h0).trans h4
  simp only [roundedReq, Quad.map, Quad.set, ceilDiv]
  congr 1 <;> omega

/-! ## Posted writes -/

theorem applyDue_split (spad : Memory) (pos : Nat) (late : List ConfEntry) (hl : ∀ c, late.head? = some c → pos < c.due) :
    ∀ (early : List ConfEntry) (v : View), (∀ c ∈ early, c.due ≤ pos) →
      applyDue spad pos (early ++ late) v = (early.foldl (fun v c => v.apply spad c.w) v, late) := by
  intro early
  induction early with
  | nil =>
    intro v _
    cases late with
    | nil => rfl
    | cons c r =>
      have : ¬ c.due ≤ pos := Nat.not_le.mpr (hl c rfl)
      simp [applyDue, this]
  | cons c r ih =>
    intro v he
    have hc : c.due ≤ pos := he c (by simp)
    rw [List.cons_append, applyDue, if_pos hc, ih _ fun x hx => he x (by simp [hx])]
    rfl

/-- Settles O15: every configuration instruction posts one write; the grant shrinks the last three dimensions in turn; a strand
applies the posted writes up to the first one it has not reached. -/
theorem configurationWrites : Obligations.ConfigurationWrites := by
  unfold Obligations.ConfigurationWrites
  refine ⟨fun s f h hg hc => ?_, fun req w hw => ?_, fun t spad early late hq he hl => ?_⟩
  · dsimp only
    refine ⟨?_, ?_, ?_, fun hm => ?_, fun hm => ?_⟩
    · exact (exec_sfset ..).trans (runS_after0 h hg (m_bind_ok (postConfig_ok hc 4 _)))
    · exact (exec_szset ..).trans (runS_after0 h hg (m_bind_ok (postConfig_ok hc 4 _)))
    · exact (exec_shset ..).trans (runS_after0 h hg (m_bind_ok (postConfig_ok hc 4 _)))
    · have hr : requested f s.wk = ⟨grantOf ⟨(s.wk.sget f.a.toNat).toNat, f.imm.toNat % 2 ^ 16, f.imm.toNat / 2 ^ 16 % 2 ^ 8,
          f.imm.toNat / 2 ^ 24 % 2 ^ 8⟩ (fmtWidth f.mod5.toNat), fmtWidth f.mod5.toNat, f.mod5.toNat⟩ := by
        simp only [requested, bits_eq, pow_zero, Nat.div_one]
      have hl : decide (f.mod5.toNat < 0x15) = true := decide_eq_true hm
      rw [exec_sshape, execSshape]
      apply runS_wroteT h hg
      simp only [hl]
      rw [m_bind_ok (m_legal_true s), m_bind_ok (postConfig_ok hc 4 _), hr]
      simp only [writeS, Shape.word0, Nat.shiftLeft_eq]
      rfl
    · have hl : decide (f.mod5.toNat < 0x15) = false := decide_eq_false (by omega)
      rw [exec_sshape, execSshape]
      apply runS_trap0 h hg
      simp only [hl]
      exact m_bind_error (m_legal_false s)
  · dsimp only
    have hw0 : 0 < w := by simp only [List.mem_cons, List.not_mem_nil, or_false] at hw; omega
    have hcap : 16 ≤ 262144 / w := by
      simp only [List.mem_cons, List.not_mem_nil, or_false] at hw
      rcases hw with rfl | rfl | rfl | rfl | rfl <;> decide
    obtain ⟨hp, hc0⟩ := roundedReq_positive req hcap
    obtain ⟨hpos, hfit⟩ := shrunk_fits hp hc0
    rw [grantOf_eq]
    refine ⟨(positive_iff _).mpr hpos, ?_, fun hreq h16 hle => ?_⟩
    · exact (Nat.mul_le_mul_right w hfit).trans (Nat.div_mul_le_self 262144 w)
    · have hsl : slotsOf req ≤ 262144 / w := (Nat.le_div_iff_mul_le hw0).mpr hle
      rw [roundedReq_fits ((positive_iff req).mp hreq) h16 hsl, shrinkDim_fits hsl, shrinkDim_fits hsl, shrinkDim_fits hsl]
  · rw [Strand.sync, hq, applyDue_split spad t.pos late hl early t.view he]

end Sys2Proof.Machine
end

section
/-! PROOF. Reading and writing CSRs (O16). -/
namespace Sys2Proof.Machine
open Sys2Proof

/-! ## Reading -/

theorem ofBool_shift (x : Bool) (n : Nat) : ofBool x <<< n = if x then 2 ^ n else 0 := by
  cases x <;> simp [ofBool, Nat.shiftLeft_eq]

theorem five_bytes (a b c d e : Nat) :
    a + b <<< 8 + c <<< 16 + d <<< 24 + e <<< 32 = a + b * 2 ^ 8 + c * 2 ^ 16 + d * 2 ^ 24 + e * 2 ^ 32 := by
  simp only [Nat.shiftLeft_eq]

theorem rrbs_eq (w : Worker) : w.rrbs = w.strands.s.rrb + w.strands.l.rrb * 2 ^ 8 + w.strands.v.rrb * 2 ^ 16 +
    w.strands.m.rrb * 2 ^ 24 + w.strands.w.rrb * 2 ^ 32 := five_bytes ..

theorem mode_eq (a b c : Bool) : ofBool a + ofBool b <<< 1 + ofBool c <<< 8 =
    (if a then 2 ^ 0 else 0) + (if b then 2 ^ 1 else 0) + if c then 2 ^ 8 else 0 := by
  cases a <;> cases b <;> cases c <;> decide

theorem status_eq (p : Sup) : p.status = (if p.priv then 2 ^ 0 else 0) + (if p.ppriv then 2 ^ 1 else 0) +
    (if p.tin then 2 ^ 2 else 0) + (if p.pnote then 2 ^ 3 else 0) + p.tdepth % 8 * 2 ^ 8 := by
  norm_num [Sup.status, ofBool_shift, Nat.shiftLeft_eq, ofBool]

section
variable {s : State} {g : Guard} {d : BitVec 5} {c : BitVec 10}

theorem csrr_ok (h : Turn.Ready .S s) (hg : s.view.guard g = true) (hp : 0x100 ≤ c.toNat → s.wk.sup.priv = true) :
    exec (.csrr g d c) s =
      .next ((s.setWk ((s.wk.csrReadEffect c.toNat).snow d.toNat (s.csrRead c.toNat))).afterS 2 0 []) := by
  have hc : ¬ (0x100 ≤ c.toNat ∧ (!s.wk.sup.priv) = true) := by
    rintro ⟨h1, h2⟩
    rw [hp h1] at h2; cases h2
  rw [exec_csrr, execCsrr]
  apply runS_after0 h hg
  rw [if_neg hc]
  rfl

theorem csrr_gives {x : Word} (h : Turn.Ready .S s) (hg : s.view.guard g = true) (hp : 0x100 ≤ c.toNat → s.wk.sup.priv = true)
    (hc : c.toNat ≠ 0x018) (hx : s.csrRead c.toNat = x) : exec (.csrr g d c) s = .next (s.wroteS 2 d x) := by
  rw [csrr_ok h hg hp, Worker.csrReadEffect, if_neg hc, hx]
  rfl

theorem csrr_user (h : Turn.Ready .S s) (hg : s.view.guard g = true) (hp : s.wk.sup.priv = false) (hc : 0x100 ≤ c.toNat) :
    exec (.csrr g d c) s = .next (s.takeTrap .S s.st.pc ⟨2, 0, 0, none⟩) := by
  rw [exec_csrr, execCsrr]
  apply runS_trap0 h hg
  rw [if_pos ⟨hc, by rw [hp]; rfl⟩]
  rfl

/-- A read of REFQ takes its head and clears LOSTREF (R210). -/
theorem csrr_refq (h : Turn.Ready .S s) (hg : s.view.guard g = true) : exec (.csrr g d 0x018) s =
    .next ((s.setWk { s.wk with refq := s.wk.refq.drop 1, lostref := false }).wroteS 2 d
      (BitVec.ofNat 64 (if s.wk.lostref then 2 ^ 62 else 0) ||| (match s.wk.refq with
        | [] => 0
        | x :: _ => BitVec.ofNat 64 (2 ^ 63) ||| x))) := by
  have hx : s.csrRead 0x018 = BitVec.ofNat 64 (if s.wk.lostref then 2 ^ 62 else 0) ||| (match s.wk.refq with
      | [] => 0
      | x :: _ => BitVec.ofNat 64 (2 ^ 63) ||| x) := by
    show BitVec.ofNat 64 s.wk.refqWord = _
    rw [Worker.refqWord, ofBool_shift]
    cases s.wk.refq with
    | nil => simp
    | cons x r =>
      have hor : ∀ m n, BitVec.ofNat 64 (m ||| n) = BitVec.ofNat 64 m ||| BitVec.ofNat 64 n := fun m n => by
        apply BitVec.eq_of_toNat_eq
        simp
      simp only [hor, BitVec.ofNat_toNat, BitVec.setWidth_eq]
      rw [BitVec.or_comm (BitVec.ofNat 64 (2 ^ 63)), BitVec.or_assoc]
  rw [csrr_ok h hg fun hh => absurd hh (by decide)]
  simp only [State.wroteS, setWk_wk, setWk_setWk]
  rw [← hx]
  rfl

/-! ## Writing -/

/-- The writes of a CSR, with the value each makes of the old one. -/
theorem csr_write_eq {i : Instr} {x : Word}
    (hi : i = .csrw g d c ∧ x = s.wk.sget d.toNat ∨ i = .csrs g d c ∧ x = s.csrRead c.toNat ||| s.wk.sget d.toNat ∨
      i = .csrc g d c ∧ x = s.csrRead c.toNat &&& ~~~s.wk.sget d.toNat) :
    ∃ f : Word → Word, f (s.csrRead c.toNat) = x ∧ exec i s = runS 2 (some g) (writeCsrM c.toNat f) M.nothing s := by
  rcases hi with ⟨rfl, rfl⟩ | ⟨rfl, rfl⟩ | ⟨rfl, rfl⟩
  · exact ⟨fun _ => s.wk.sget d.toNat, rfl, rfl⟩
  · exact ⟨fun x => x ||| s.wk.sget d.toNat, rfl, rfl⟩
  · exact ⟨fun x => x &&& ~~~s.wk.sget d.toNat, rfl, rfl⟩

variable {n : Nat} {f : Word → Word} {x : Word}

theorem writeCsrM_ordered (hc : s.configFree) (hn : n < 0x100) (hr : csrReadOnly n = false) (ho : csrOrdered n = true)
    (hx : f (s.csrRead n) = x) :
    writeCsrM n f s = .ok (.none, (s.posted (s.dueAt 2) (.csr n x)).setWk
      ((s.posted (s.dueAt 2) (.csr n x)).wk.csrLog s.ln.det n x)) := by
  have h1 : ¬ (0x100 ≤ n ∧ (!s.wk.sup.priv) = true) := fun h => by omega
  simp only [writeCsrM, m_bind, m_look, id_eq, h1, if_false, hr, Bool.false_eq_true, ho, if_true, hx, postConfig_ok hc, m_work,
    m_pure]

theorem writeCsrM_now (hp : 0x100 ≤ n → s.wk.sup.priv = true) (hr : csrReadOnly n = false) (ho : csrOrdered n = false)
    (hx : f (s.csrRead n) = x) : writeCsrM n f s = .ok (.none, s.setWk (s.wk.csrWriteNow n x)) := by
  have h1 : ¬ (0x100 ≤ n ∧ (!s.wk.sup.priv) = true) := by
    rintro ⟨h1, h2⟩
    rw [hp h1] at h2; cases h2
  simp only [writeCsrM, m_bind, m_look, id_eq, h1, if_false, hr, Bool.false_eq_true, ho, hx, m_work, m_pure]

theorem writeCsrM_user (hp : s.wk.sup.priv = false) (hn : 0x100 ≤ n ∨ csrReadOnly n = true) :
    writeCsrM n f s = .error (.trap ⟨2, 0, 0, none⟩) := by
  by_cases h1 : 0x100 ≤ n
  · simp only [writeCsrM, m_bind, m_look, id_eq, h1, hp, Bool.not_false, and_self, if_true, m_trap]
  · simp only [writeCsrM, m_bind, m_look, id_eq, h1, false_and, if_false, hn.resolve_left h1, if_true, hp, Bool.false_eq_true,
      m_trap]

theorem writeCsrM_ignored (hp : s.wk.sup.priv = true) (hr : csrReadOnly n = true) : writeCsrM n f s = .ok (.none, s) := by
  simp only [writeCsrM, m_bind, m_look, id_eq, hp, Bool.not_true, Bool.false_eq_true, and_false, if_false, hr, if_true, m_pure]

end

/-- Settles O16: every read is of `csrRead`, with REFQ's effect; every write is `writeCsrM`, whose branch the number chooses. -/
theorem csrAccesses : Obligations.CsrAccesses := by
  unfold Obligations.CsrAccesses
  refine ⟨fun s g d c h hg => ?_, fun s g d c i x h hg => ?_⟩
  · intro w v p b word gives
    have user : ∀ (n : BitVec 10) (x : Word), n.toNat < 0x100 → n.toNat ≠ 0x018 → s.csrRead n.toNat = x → gives n x := by
      rintro n x hn h18 hx rfl
      exact csrr_gives h hg (by omega) h18 hx
    refine ⟨user _ _ (by decide) (by decide) rfl, user _ _ (by decide) (by decide) rfl, user _ _ (by decide) (by decide) rfl,
      user _ _ (by decide) (by decide) rfl, user _ _ (by decide) (by decide) rfl, user _ _ (by decide) (by decide) ?_,
      user _ _ (by decide) (by decide) rfl, user _ _ (by decide) (by decide) rfl, user _ _ (by decide) (by decide) ?_,
      user _ _ (by decide) (by decide) rfl, user _ _ (by decide) (by decide) rfl, user _ _ (by decide) (by decide) rfl,
      user _ _ (by decide) (by decide) rfl, user _ _ (by decide) (by decide) rfl, ?_, user _ _ (by decide) (by decide) rfl,
      user _ _ (by decide) (by decide) rfl, user _ _ (by decide) (by decide) rfl, ?_, ?_, fun hp => ?_, fun hp hc => ?_⟩
    · exact congrArg (BitVec.ofNat 64) (rrbs_eq s.wk)
    · exact congrArg (BitVec.ofNat 64) (mode_eq v.ftz v.e4m3sat s.ln.det)
    · intro i hi
      interval_cases i <;> exact user _ _ (by decide) (by decide) rfl
    · intro i hi
      interval_cases i <;> exact user _ _ (by decide) (by decide) rfl
    · rintro rfl
      exact csrr_refq h hg
    · have sup : ∀ (n : BitVec 10) (x : Word), n.toNat ≠ 0x018 → s.csrRead n.toNat = x → gives n x := by
        rintro n x h18 hx rfl
        exact csrr_gives h hg (fun _ => hp) h18 hx
      refine ⟨sup _ _ (by decide) ?_, sup _ _ (by decide) rfl, sup _ _ (by decide) ?_, sup _ _ (by decide) rfl,
        sup _ _ (by decide) rfl, sup _ _ (by decide) rfl, sup _ _ (by decide) rfl, sup _ _ (by decide) rfl,
        sup _ _ (by decide) rfl, sup _ _ (by decide) rfl, sup _ _ (by decide) rfl, sup _ _ (by decide) rfl,
        sup _ _ (by decide) rfl⟩
      · exact congrArg (BitVec.ofNat 64) (status_eq s.wk.sup)
      · show BitVec.ofNat 64 (s.wk.sup.cause.toNat + s.wk.sup.sub.toNat <<< 8) = _
        rw [Nat.shiftLeft_eq]
    · exact csrr_user h hg hp hc
  · intro w old o n hi note
    obtain ⟨f, hx, he⟩ := csr_write_eq hi
    rw [he]
    refine ⟨fun hn hc => ?_, fun hn => ?_, fun hn hp => ?_, fun hn hp => ?_, fun hn hp => ?_⟩
    · have hlt : ∀ m ∈ [0x004, 0x008, 0x00A, 0x00B, 0x00C, 0x00D, 0x010, 0x011, 0x012, 0x013, 0x014, 0x015, 0x016, 0x017, 0x01B],
          m < 0x100 ∧ csrReadOnly m = false ∧ csrOrdered m = true := by decide
      obtain ⟨h1, h2, h3⟩ := hlt n hn
      rw [runS_after0 h hg (writeCsrM_ordered hc h1 h2 h3 hx)]
      congr 3
      simp only [note, Worker.csrLog, ofBool]
      by_cases hd : s.ln.det = true <;> simp [hd]
    · have hn' : c.toNat = 0x009 := hn
      exact runS_after0 h hg ((writeCsrM_now (by omega) (by rw [hn']; decide) (by rw [hn']; decide) hx).trans
        (by rw [Worker.csrWriteNow, if_pos hn']))
    · have hlt : ∀ m ∈ [0x100, 0x101, 0x102, 0x103, 0x104, 0x107], m ≠ 0x009 ∧ csrReadOnly m = false ∧ csrOrdered m = false := by
        decide
      obtain ⟨h1, h2, h3⟩ := hlt n hn
      exact runS_after0 h hg ((writeCsrM_now (fun _ => hp) h2 h3 hx).trans (by rw [Worker.csrWriteNow, if_neg h1]))
    · have hro : ∀ m ∈ [0x000, 0x001, 0x002, 0x003, 0x005, 0x006, 0x007, 0x018, 0x019, 0x01A, 0x020, 0x021, 0x022, 0x023],
          csrReadOnly m = true := by decide
      exact runS_trap0 h hg (writeCsrM_user hp (hn.symm.imp_right (hro n)))
    · have hro : ∀ m ∈ [0x000, 0x001, 0x002, 0x003, 0x005, 0x006, 0x007, 0x018, 0x019, 0x01A, 0x020, 0x021, 0x022, 0x023, 0x105,
          0x106, 0x108, 0x109, 0x10A, 0x10B, 0x10C], csrReadOnly m = true := by decide
      exact runS_after0 h hg (writeCsrM_ignored hp (hro n hn))

end Sys2Proof.Machine
end

section
/-! PROOF. Scalar queues, tokens, knots, waits, fences and early start (O17 to O19, O21). -/
namespace Sys2Proof.Machine
open Sys2Proof

/-! ## Issue with either action -/

section
variable {s t : State} {g : Guard} {on off : M Issue} {len : Nat}

/-- An S instruction whose two actions both go on, or both wait. -/
theorem runS_both (h : Turn.Ready .S s) (hon : s.view.guard g = true → on s = .ok (.none, t))
    (hoff : s.view.guard g = false → off s = .ok (.none, t)) : runS len (some g) on off s = .next (t.afterS len 0 []) := by
  cases hg : s.view.guard g with
  | true => exact runS_after0 h hg (hon hg)
  | false => exact runS_off0 h hg (hoff hg)

theorem runS_bothStall (h : Turn.Ready .S s) (hon : on s = .error .stall) (hoff : off s = .error .stall) :
    runS len (some g) on off s = .next s := by
  cases hg : s.view.guard g with
  | true => exact runS_stall0 h hg hon
  | false => exact runS_offstall h hg hoff

end

/-! ## Queues and tokens -/

section
variable {s : State}

theorem pushQ14_ok (x : Word) (h : s.wk.q14.length < 16) :
    pushQ14 x s = .ok (.none, s.setWk { s.wk with q14 := s.wk.q14 ++ [x] }) := by
  have : decide (s.wk.q14.length < Config.wordCap) = true := decide_eq_true h
  simp only [pushQ14, m_bind, m_look, this, m_await_true, m_work, m_pure]

theorem pushQ14_full (x : Word) (h : ¬ s.wk.q14.length < 16) : pushQ14 x s = .error .stall := by
  have : decide (s.wk.q14.length < Config.wordCap) = false := decide_eq_false h
  simp only [pushQ14, m_bind, m_look, this, m_await_false]

theorem popQ15_head {x : Word} {r : List Word} (h : s.wk.q15 = x :: r) : popQ15 s = .ok (x, s.setWk { s.wk with q15 := r }) := by
  simp only [popQ15, m_bind, m_look, h, m_work, m_pure]

theorem popQ15_empty (h : s.wk.q15 = []) : popQ15 s = .error .stall := by
  simp only [popQ15, m_bind, m_look, h, m_stall]

theorem pushSL_eq : pushSL s = if s.wk.tokensIn .SL < 15
    then .ok (.none, (s.setWk (s.wk.setTokens .SL (s.wk.tokensIn .SL + 1))).release 1) else .error .stall := by
  by_cases h : s.wk.tokensIn .SL < 15
  · have : decide (s.wk.tokensIn .SL < Config.tokenCap) = true := decide_eq_true h
    simp only [pushSL, m_bind, m_look, this, m_await_true, m_work, m_change, m_pure, h, if_true]
  · have : decide (s.wk.tokensIn .SL < Config.tokenCap) = false := decide_eq_false h
    simp only [pushSL, m_bind, m_look, this, m_await_false, h, if_false]

theorem popWS_eq : popWS s = if 0 < s.wk.tokensIn .WS
    then .ok (.none, (s.setWk (s.wk.setTokens .WS (s.wk.tokensIn .WS - 1))).acquire 1) else .error .stall := by
  by_cases h : 0 < s.wk.tokensIn .WS
  · simp only [popWS, m_bind, m_look, h, decide_true, m_await_true, m_work, m_change, m_pure, if_true]
  · simp only [popWS, m_bind, m_look, h, decide_false, m_await_false, if_false]

end

/-- Settles O17: each of the five is an S instruction whose off action moves the entry or token as well. -/
theorem scalarQueues : Obligations.ScalarQueues := by
  unfold Obligations.ScalarQueues
  intro s g d a h
  dsimp only
  refine ⟨?_, ?_, fun hg => ?_, ?_, ?_⟩
  · rw [exec_sqpush, execSqpush]
    by_cases hq : s.wk.q14.length < 16
    · rw [if_pos hq]
      exact runS_both h (fun hg => by rw [hg, if_pos rfl]; exact pushQ14_ok _ hq)
        (fun hg => by rw [hg]; exact pushQ14_ok _ hq)
    · rw [if_neg hq]
      exact runS_bothStall h (pushQ14_full _ hq) (pushQ14_full _ hq)
  · rw [exec_sqpop, execSqpop]
    cases hq : s.wk.q15 with
    | nil => exact runS_bothStall h (m_bind_error (popQ15_empty hq)) (m_bind_error (popQ15_empty hq))
    | cons x r =>
      cases hg : s.view.guard g with
      | true => exact runS_wroteT h hg (m_bind_ok (popQ15_head hq))
      | false => exact runS_off0 h hg (m_bind_ok (popQ15_head hq))
  · rw [exec_sqfree, execSqfree, runS_wrote h hg, Nat.shiftLeft_eq]
    rfl
  · rw [exec_stok, execStok]
    have hp := pushSL_eq (s := s)
    by_cases ht : s.wk.tokensIn .SL < 15
    · rw [if_pos ht] at hp ⊢
      exact runS_both h (fun _ => hp) (fun _ => hp)
    · rw [if_neg ht] at hp ⊢
      exact runS_bothStall h hp hp
  · rw [exec_stokw, execStokw]
    have hp := popWS_eq (s := s)
    by_cases ht : 0 < s.wk.tokensIn .WS
    · rw [if_pos ht] at hp ⊢
      exact runS_both h (fun _ => hp) (fun _ => hp)
    · rw [if_neg ht] at hp ⊢
      exact runS_bothStall h hp hp

/-! ## Knots -/

theorem knotScope_eq (w : Worker) (k : Nat) : w.knotScope k = if k ∈ w.farKnots then 3 else 1 := by
  simp [Worker.knotScope]

theorem knot_word (k : Knot) : k.word = k.val.toNat + if k.err then 2 ^ 32 else 0 :=
  congrArg (k.val.toNat + ·) (ofBool_shift k.err 32)

theorem addKnot_false (w : Worker) (k : Nat) (n : BitVec 32) :
    w.addKnot k n false = w.setKnot k ⟨(w.knot k).val + n, (w.knot k).err⟩ := by simp [Worker.addKnot]

theorem toldWait_knot (k : Nat) (x : Knot) (m : BitVec 32) : toldWait k x (some (.knot k m)) =
    if x.err = true ∨ m.toNat ≤ x.val.toNat then some .met else some (.knot k m) := by
  simp [toldWait, Knot.reaches]

theorem setKnot_wait (w : Worker) (k : Nat) (x : Knot) (e : Eng) :
    ((w.setKnot k x).strands.get e).wait = toldWait k x (w.strands.get e).wait := by cases e <;> rfl

theorem setKnot_stopWait (w : Worker) (k : Nat) (x : Knot) (n : Nat) :
    (w.setKnot k x).stopWaits[n]? = w.stopWaits[n]?.map (toldWait k x) := List.getElem?_map ..

/-- An engine's knot add is left pending behind everything earlier (R100). -/
theorem engineKadd_on {s : State} {e : Eng} {f : E64} (h : Turn.Ready e s) (ht : ∀ q ∈ tokPops e f.tk, 0 < s.wk.tokensIn q)
    (hg : s.view.guard f.g = true) :
    let t := (s.gained e f).popped e f
    let u := t.wk.strands.get e
    engineKadd e f s = .next (t.setWk (t.wk.setStrand e
      { u with
        pend := u.pend.map (fun p => { p with count := p.count - 1 }) ++
          [⟨.knotAdd f.d8.toNat (f.bc.zeroExtend 32) :: (tokPushes e f.tk).map .token, 0, false, u.pos, true⟩]
        pc := u.pc + 8, pos := u.pos + 4 })) := by
  intro t u
  unfold engineKadd
  rw [runE64_on h.live h.turn h.room ht hg rfl]
  have hp : (s.popAcquire e f.tk).setWk (((s.popAcquire e f.tk).wk).popTokens (tokPops e f.tk)) = t := rfl
  have hw : t.wk = ((s.popAcquire e f.tk).wk).popTokens (tokPops e f.tk) := popped_wk _ _ _
  rw [← hw, ← hp, setWk_setWk]
  rfl

/-- Settles O18: S's forms change the knot at once, and every wait with it; the engines' add is one entry of the strand. -/
theorem knotAdds : Obligations.KnotAdds := by
  unfold Obligations.KnotAdds
  refine ⟨fun s g d a n h hg => ?_, fun s f e add hint hi h ht => ?_⟩
  · dsimp only
    refine ⟨?_, ?_, ?_, ?_, fun k => ⟨?_, fun j hj => ?_, fun m => ⟨fun e hw => ?_, fun n hn => ?_⟩⟩⟩
    · rw [exec_kadd, ← addKnot_false]
      exact runS_after0 h hg rfl
    · rw [exec_kaddi, ← addKnot_false]
      exact runS_after0 h hg rfl
    · rw [exec_kset]
      exact runS_after0 h hg rfl
    · rw [exec_kread, execKread]
      have hk : (s.acquire (s.wk.knotScope a.toNat)).wk.knot a.toNat = s.wk.knot a.toNat := by rw [acquire_wk]; rfl
      rw [← knotScope_eq, ← knot_word]
      exact runS_wroteT h hg (by rw [← hk]; rfl)
    · rw [knot_setKnot, if_pos rfl]
    · rw [knot_setKnot, if_neg hj]
    · rw [setKnot_wait, hw, toldWait_knot]
    · rw [setKnot_stopWait, hn, Option.map_some, toldWait_knot]
  · have on := fun hg => engineKadd_on h ht hg
    have off : s.view.guard f.g = false → engineKadd e f s = .next ((s.gained e f).afterE e f 0 []) := fun hg =>
      runE64_afterOff (i := .none) h ht hg rfl rfl
    have nop : engineNop e f s = .next ((s.gained e f).afterE e f 0 []) := by
      cases hg : s.view.guard f.g with
      | true => exact runE64_afterE (i := .none) h ht hg rfl rfl
      | false => exact runE64_afterOff (i := .none) h ht hg rfl rfl
    rcases hi with hi | hi | hi | hi <;> cases hi <;> exact ⟨nop, off, on⟩

/-! ## Waits -/

theorem knotWait_met {s : State} {k : Nat} {n : BitVec 32}
    (h : (s.st.wait == some .met || (s.wk.knot k).err || decide (n.toNat ≤ (s.wk.knot k).val.toNat)) = true) :
    knotWait k n s = .ok (some .none, s.acquire (if k ∈ s.wk.farKnots then 3 else 1)) := by
  have : s.st.wait = some .met ∨ (s.wk.knot k).reaches n = true := by
    simpa [Knot.reaches, or_assoc] using h
  simp only [knotWait, m_bind, m_look, id_eq, this, if_true, m_change, m_pure, knotScope_eq]

theorem knotWait_stays {s : State} {k : Nat} {n : BitVec 32}
    (h : (s.st.wait == some .met || (s.wk.knot k).err || decide (n.toNat ≤ (s.wk.knot k).val.toNat)) = false) :
    knotWait k n s = .ok (none, s.setSt { s.st with wait := some (.knot k n) }) := by
  have : ¬ (s.st.wait = some .met ∨ (s.wk.knot k).reaches n = true) := by
    simpa [Knot.reaches, and_assoc] using h
  simp only [knotWait, m_bind, m_look, id_eq, this, if_false, m_change, m_pure]
  rfl

/-- S's knot wait, for either form of the value. -/
theorem knotWait_S {s : State} {g : Guard} {k : Nat} {m : BitVec 32} (h : Turn.Ready .S s) (hg : s.view.guard g = true) :
    runOwn .S (issueWait 2 g (knotWait k m)) s = .next
      (if s.st.wait == some .met || (s.wk.knot k).err || decide (m.toNat ≤ (s.wk.knot k).val.toNat) then
        let t := s.acquire (if k ∈ s.wk.farKnots then 3 else 1)
        (t.setSt { t.st with wait := none }).afterS 2 0 []
      else s.setSt { s.st with wait := some (.knot k m) }) := by
  cases hc : (s.st.wait == some .met || (s.wk.knot k).err || decide (m.toNat ≤ (s.wk.knot k).val.toNat)) with
  | true => rw [wait_issue h hg (by exact h.turn) (knotWait_met hc)]; rfl
  | false => rw [wait_stay h hg (knotWait_stays hc)]; rfl

/-- The state in which an engine's wait looks at its knot: its tokens popped, if it begins (R23). -/
def State.begunWait (s : State) (e : Eng) (f : E64) : State :=
  if s.st.wait = none then (s.popped e f).gained e f else s

theorem begunWait_same (s : State) (e : Eng) (f : E64) (he : s.curEng = e) : (s.begunWait e f).st.wait = s.st.wait ∧
    (s.begunWait e f).wk.farKnots = s.wk.farKnots ∧ (∀ k, (s.begunWait e f).wk.knot k = s.wk.knot k) ∧
    (s.begunWait e f).curEng = e := by
  unfold State.begunWait
  split
  · obtain ⟨x, hx⟩ := popTokens_fields (tokPops e f.tk) s.wk
    have hw : (s.popped e f).wk = { s.wk with tokens := x } := (popped_wk s e f).trans hx
    have hs : (s.popped e f).st = s.st := by
      rw [State.st, hw]; rfl
    have hc : (s.popped e f).curEng = e := he
    unfold State.gained
    split
    · exact ⟨by rw [hs], by rw [hw], fun k => by rw [hw]; rfl, hc⟩
    · refine ⟨by rw [acquire_st, hs], by rw [acquire_wk, hw]; rfl, fun k => by rw [acquire_wk, hw]; rfl, hc⟩
  · exact ⟨rfl, rfl, fun _ => rfl, he⟩

/-- An engine's knot wait, once its tokens are there. -/
theorem engineKwait_eq {s : State} {e : Eng} {f : E64} (h : Turn.Ready e s)
    (ht : s.st.wait = none → ∀ q ∈ tokPops e f.tk, 0 < s.wk.tokensIn q) :
    engineKwait e f s = .next
      (let t := s.begunWait e f
      if !s.view.guard f.g || s.st.wait == some .met || (s.wk.knot f.d8.toNat).err ||
          decide ((f.bc.zeroExtend 32).toNat ≤ (s.wk.knot f.d8.toNat).val.toNat) then
        let u := if s.view.guard f.g then t.acquire (if f.d8.toNat ∈ s.wk.farKnots then 3 else 1) else t
        (u.setSt { u.st with wait := none }).issuedE e f 0 []
      else t.setSt { t.st with wait := some (.knot f.d8.toNat (f.bc.zeroExtend 32)) }) := by
  obtain ⟨hwait, hfar, hknot, heng⟩ := begunWait_same s e f h.turn
  have hr : s.st.room = true := decide_eq_true h.room
  have htok : (s.st.wait.isSome || (tokPops e f.tk).all fun q => decide (0 < s.wk.tokensIn q)) = true := by
    cases hw : s.st.wait with
    | some x => rfl
    | none => simpa [List.all_eq_true] using ht hw
  have hbeg : ∀ rest : M Unit, (if s.st.wait.isSome then rest else do
      M.change fun s => (s.modWk fun w => (tokPops e f.tk).foldl (fun w q => w.setTokens q (w.tokensIn q - 1)) w).popAcquire e f.tk
      rest) s = rest (s.begunWait e f) := by
    intro rest
    unfold State.begunWait
    cases hw : s.st.wait <;> rfl
  have hdone : ∀ u : State, u.curEng = e → (u.modSt fun t => { t with wait := none }.issued 4 .none (tokPushes e f.tk)) =
      (u.setSt { u.st with wait := none }).issuedE e f 0 [] := by
    intro u hu
    rw [← issuedE_eq]
    simp only [State.modSt, State.setSt, setWk_wk, setWk_setWk, hu, setStrand_get, setStrand_setStrand, Issue.none]
  apply runOwn_ok h.live h.turn
  simp only [m_bind, hr, m_await_true, htok, hbeg]
  cases hg : s.view.guard f.g with
  | false =>
    have hg' : s.st.view.guard f.g = false := hg
    simp only [hg', Bool.false_eq_true, if_false, Bool.not_false, Bool.true_or, if_true]
    rw [m_bind_ok (m_pure (some Issue.none) _)]
    simp only [m_change, hdone _ heng]
  | true =>
    have hg' : s.st.view.guard f.g = true := hg
    simp only [hg', if_true, Bool.not_true, Bool.false_or]
    cases hc : (s.st.wait == some .met || (s.wk.knot f.d8.toNat).err ||
        decide ((f.bc.zeroExtend 32).toNat ≤ (s.wk.knot f.d8.toNat).val.toNat)) with
    | true =>
      rw [m_bind_ok (knotWait_met (by rw [hwait, hknot]; exact hc)), hfar]
      simp only [m_change, if_true]
      rw [hdone _ (by exact heng)]
    | false =>
      rw [m_bind_ok (knotWait_stays (by rw [hwait, hknot]; exact hc))]
      rfl

/-- Settles O19: both forms of S's wait and all four engines' are one action each. -/
theorem knotWaits : Obligations.KnotWaits := by
  unfold Obligations.KnotWaits
  refine ⟨fun s g d a n h hg => ⟨knotWait_S h hg, knotWait_S h hg⟩, fun s f e i hi h ht => ?_⟩
  have := engineKwait_eq h ht
  rcases hi with hi | hi | hi | hi <;> cases hi <;> exact this

/-! ## Fences and early start -/

theorem releaseTo_strand (s : State) (key : Nat) (e : Eng) (pos : Nat) (un : Bool) : s.releaseTo key e pos 0 un = s := by
  simp [State.releaseTo]

theorem releaseAs_zero (s : State) (un : Bool) : s.releaseAs 0 un = s := by simp [State.releaseAs, releaseTo_strand]

/-- A fence of any kind: its release, then its acquire. At strand scope the release changes nothing (R263). -/
theorem execFence_eq {s : State} (h : Turn.Ready .S s) (k sc : BitVec 3) :
    exec (.fence k sc) s = .next
      (let out := if k = 1 then s else s.releaseAs sc.toNat (k == 0 || k == 4)
       (if k = 0 ∨ k = 1 then out.acquire sc.toNat else out).afterS 1 0 []) := by
  rw [exec_fence, execFence]
  apply runS_noneOk h
  have hrel : (if k ≠ 1 ∧ sc ≠ 0 then s.releaseAs sc.toNat (k == 0 || k == 4) else s) =
      if k = 1 then s else s.releaseAs sc.toNat (k == 0 || k == 4) := by
    by_cases h1 : k = 1
    · simp [h1]
    · by_cases h0 : sc = 0
      · simp [h0, releaseAs_zero]
      · rw [if_pos ⟨h1, h0⟩, if_neg h1]
  rw [← hrel]
  by_cases h1 : k ≠ 1 ∧ sc ≠ 0 <;> by_cases h2 : k = 0 ∨ k = 1
  · simp only [if_pos h1, if_pos h2, m_bind, m_change, m_pure]
  · simp only [if_pos h1, if_neg h2, m_bind, m_change, m_pure]
  · simp only [if_neg h1, if_pos h2, m_bind, m_change, m_pure]
  · simp only [if_neg h1, if_neg h2, m_pure]

/-- What `settle` waits for in another strand (R93). -/
theorem settled_iff (t : Strand) (pos : Nat) :
    t.settled pos = true ↔ (t.exited = true ∨ pos ≤ t.pos) ∧ ∀ p ∈ t.pend, pos ≤ p.pos := by
  simp [Strand.settled]

/-- A text position of S, or in a handler the trap point (R314). -/
def Worker.textPos (w : Worker) : Nat := if w.inHandler then w.stopPos else w.strands.s.pos

theorem allSettled_iff (w : Worker) (pos : Nat) : (otherEngines.all fun e => (w.strands.get e).settled pos) = true ↔
    ∀ e, e ≠ .S → (w.strands.get e).settled pos = true := by
  rw [List.all_eq_true]
  refine ⟨fun h e he => h e ?_, fun h e he => h e ?_⟩
  · cases e <;> simp_all [otherEngines]
  · rintro rfl; simp [otherEngines] at he

theorem execSettle_ok {s : State} (h : Turn.Ready .S s) (hs : ∀ e, e ≠ .S → (s.wk.strands.get e).settled s.wk.textPos = true) :
    exec .settle s =
      .next (((s.performAll (·.settledBy s.curKey s.wk.textPos) 1 s.wk.core).acquire 1).afterS 1 0 []) := by
  rw [exec_settle, execSettle]
  apply runS_noneOk h
  exact m_bind_ok ((congrArg (fun b => M.await b s) ((allSettled_iff _ _).mpr hs)).trans (m_await_true s))

theorem execSettle_wait {s : State} (h : Turn.Ready .S s) (hs : ∃ e, e ≠ .S ∧ (s.wk.strands.get e).settled s.wk.textPos ≠ true) :
    exec .settle s = .next s := by
  rw [exec_settle, execSettle]
  apply runS_noneStall h
  obtain ⟨e, he, hn⟩ := hs
  have hf : (otherEngines.all fun e => (s.wk.strands.get e).settled s.wk.textPos) = false :=
    Bool.eq_false_iff.mpr fun h => hn ((allSettled_iff _ _).mp h e he)
  exact m_bind_error ((congrArg (fun b => M.await b s) hf).trans (m_await_false s))

theorem execSdwait_eq {s : State} {g : Guard} (h : Turn.Ready .S s) (hg : s.view.guard g = true) :
    exec (.sdwait g) s = .next (if s.ln.producers.all s.launchTriggered then (s.acquire 3).afterS 2 0 [] else s) := by
  rw [exec_sdwait, execSdwait]
  cases hp : s.ln.producers.all s.launchTriggered with
  | true => exact runS_after0 h hg (m_bind_ok (m_await_true s))
  | false => exact runS_stall0 h hg (m_bind_error (m_await_false s))

/-- Settles O21: a fence is a release and an acquire; `settle` performs what it waited for; the rest is by definition. -/
theorem fencesAndEarlyStart : Obligations.FencesAndEarlyStart := by
  unfold Obligations.FencesAndEarlyStart
  refine ⟨fun s g k sc h => ?_, fun s key e pos scope un => ?_, fun s scope => rfl⟩
  · intro pos settled theirs all out
    refine ⟨execFence_eq h k sc, fun hs => ?_, fun ⟨e, he, hn⟩ => ?_, fun hg => ⟨?_, execSdwait_eq h hg⟩⟩
    · exact execSettle_ok h fun e he => (settled_iff _ _).mpr (hs e he)
    · exact execSettle_wait h ⟨e, he, fun hh => hn ((settled_iff _ _).mp hh)⟩
    · rw [exec_sdtrig, execSdtrig]
      exact runS_after0 h hg rfl
  · refine ⟨releaseTo_strand s key e pos un, fun hs => ?_, rfl, rfl, fun u v => rfl⟩
    rw [State.releaseTo, if_neg (by omega)]
    rfl

end Sys2Proof.Machine
end

section
/-! PROOF. Groups, tasks, commits and closes (O22). -/
namespace Sys2Proof.Machine
open Sys2Proof

/-! ## Groups -/

section
variable {s : State} {g : Guard}

/-- The state after an arrival at the next generation of a group. -/
def State.arrivedAt (s : State) (c : Nat) : State :=
  (s.setWk { s.wk with arrivals := tabSet 0 s.wk.arrivals c (s.wk.arrived c + 1) }).release 3

theorem arrive_ok (c : Nat) : arrive c s = .ok ((), s.arrivedAt c) := rfl

theorem release_three_st (s : State) : (s.release 3).st = s.st := by
  rw [State.st, release_three_wk, release_three_curEng]; rfl

/-- The return of a group wait that is over. -/
theorem groupReturn_ok : groupReturn s = .ok (some .none, s.acquire 3) := rfl

theorem execSgarr_eq {c : BitVec 10} (h : Turn.Ready .S s) (hg : s.view.guard g = true)
    (hm : (nth 0 s.ln.groups c.toNat).testBit s.wk.wid = true) : exec (.sgarr g c) s =
      .next (if s.openGenerations s.wk.lid c.toNat (s.wk.arrived c.toNat) < 16 then (s.arrivedAt c.toNat).afterS 2 0 [] else s) := by
  rw [exec_sgarr, execSgarr]
  by_cases ho : s.openGenerations s.wk.lid c.toNat (s.wk.arrived c.toNat) < 16
  · rw [if_pos ho]
    apply runS_after0 h hg
    rw [m_bind_ok (memberOnly_yes hm)]
    exact m_bind_ok ((congrArg (fun b => M.await b s) (decide_eq_true ho)).trans (m_await_true s))
  · rw [if_neg ho]
    apply runS_stall0 h hg
    rw [m_bind_ok (memberOnly_yes hm)]
    exact m_bind_error ((congrArg (fun b => M.await b s) (decide_eq_false ho)).trans (m_await_false s))

/-- What `sgsync` does (R257, R296). -/
def syncAct (s : State) (c : Nat) : M (Option Issue) :=
  match s.st.wait with
  | some w => if s.waitOver s.wk.lid w then groupReturn else pure none
  | none => do
    memberOnly c
    let k := s.wk.arrived c + 1
    let ph := if s.ln.det && s.ln.ntask == 0 && s.ln.everyone c && s.wk.committed then some s.ln.phase else none
    arrive c
    let t ← M.look id
    if t.waitOver s.wk.lid (.group c k ph) then groupReturn
    else
      M.change fun s => s.modSt fun t => { t with wait := some (.group c k ph) }
      pure none

theorem exec_sgsync_eq (g : Guard) (c : BitVec 10) (s : State) :
    exec (.sgsync g c) s = runOwn .S (issueWait 2 g (syncAct s c.toNat)) s := by
  rw [exec_sgsync]
  unfold execSgsync syncAct
  cases s.st.wait <;> rfl

end

/-! ## Tasks -/

theorem takeLast_append (x : Nat) (r : List Nat) : takeLast (r ++ [x]) = some (x, r) := by simp [takeLast]

section
variable {l : Launch} {w : Nat}

theorem findTask_own {x : Nat} {r : List Nat} (h : tabGet [] l.deques w = x :: r) :
    l.findTask w = some (x, { l with deques := tabSet [] l.deques w r }) := by
  have h' : l.deque w = x :: r := h
  simp only [Launch.findTask, h']

/-- The victims of a worker, in the order of the ring (R293). -/
theorem ring_eq (w n : Nat) :
    (upFrom (w + 1) (n - 1)).map (fun i => i % n) = (List.range (n - 1)).map fun k => (w + (k + 1)) % n := by
  rw [upFrom_eq, List.map_map]
  congr 1
  funext k
  simp only [Function.comp_apply]
  congr 1
  omega

theorem findTask_victim {n x : Nat} {r : List Nat} (h0 : tabGet [] l.deques w = []) (h1 : 1 ≤ n) (hn : n < l.workersN)
    (hm : ∀ m, 1 ≤ m → m < n → tabGet [] l.deques ((w + m) % l.workersN) = [])
    (hx : tabGet [] l.deques ((w + n) % l.workersN) = r ++ [x]) :
    l.findTask w = some (x, { l with deques := tabSet [] l.deques ((w + n) % l.workersN) r }) := by
  have h0' : l.deque w = [] := h0
  have hfind : ((upFrom (w + 1) (l.workersN - 1)).map (fun i => i % l.workersN)).find? (fun v => !(l.deque v).isEmpty) =
      some ((w + n) % l.workersN) := by
    have : (List.range (l.workersN - 1)).find? ((fun v => !(l.deque v).isEmpty) ∘ fun k => (w + (k + 1)) % l.workersN) =
        some (n - 1) := by
      rw [List.find?_range_eq_some]
      refine ⟨?_, List.mem_range.mpr (by omega), fun j hj => ?_⟩
      · simp only [Function.comp_apply, Nat.sub_add_cancel h1, Launch.deque, hx]
        simp
      · simp only [Function.comp_apply, Launch.deque, hm (j + 1) (by omega) (by omega)]
        rfl
    rw [ring_eq, List.find?_map, this, Option.map_some, Nat.sub_add_cancel h1]
  have hx' : l.deque ((w + n) % l.workersN) = r ++ [x] := hx
  simp only [Launch.findTask, h0', hfind, hx', takeLast_append]

theorem findTask_none (h0 : tabGet [] l.deques w = [])
    (hm : ∀ m, 1 ≤ m → m < l.workersN → tabGet [] l.deques ((w + m) % l.workersN) = []) : l.findTask w = none := by
  have h0' : l.deque w = [] := h0
  have hfind : ((upFrom (w + 1) (l.workersN - 1)).map (fun i => i % l.workersN)).find? (fun v => !(l.deque v).isEmpty) = none := by
    rw [ring_eq, List.find?_eq_none]
    intro v hv
    obtain ⟨k, hk, rfl⟩ := List.mem_map.mp hv
    have := List.mem_range.mp hk
    simp [Launch.deque, hm (k + 1) (by omega) (by omega)]
  simp only [Launch.findTask, h0', hfind]

end

section
variable {s : State} {g : Guard} {d : BitVec 5}

theorem execStask_holds (h : Turn.Ready .S s) (hg : s.view.guard g = true) (hd : s.ln.det = true) (ho : s.wk.openTask ≠ none) :
    exec (.stask g d) s = .next (s.takeTrap .S s.st.pc ⟨0x0E, 0, 1, none⟩) := by
  rw [exec_stask, execStask]
  apply runS_trap0 h hg
  have : s.ln.det = true ∧ s.wk.openTask.isSome = true := ⟨hd, Option.isSome_iff_ne_none.mpr ho⟩
  simp only [this, and_self, if_true, m_trap]

theorem stask_free (hd : s.ln.det = false ∨ s.wk.openTask = none) : ¬ (s.ln.det = true ∧ s.wk.openTask.isSome = true) := by
  rintro ⟨h1, h2⟩
  rcases hd with hd | hd
  · rw [hd] at h1; cases h1
  · rw [hd] at h2; cases h2

theorem execStask_takes {x : Nat} {l' : Launch} (h : Turn.Ready .S s) (hg : s.view.guard g = true)
    (hd : s.ln.det = false ∨ s.wk.openTask = none) (hf : s.ln.findTask s.wk.wid = some (x, l')) : exec (.stask g d) s =
      .next ((((s.putLaunch s.wk.lid l').setWk (if s.ln.det then { s.wk with openTask := some x } else s.wk)).acquire 3).afterS 2 2
        [.sreg d.toNat (BitVec.ofNat 64 x)]) := by
  rw [exec_stask, execStask]
  apply runS_after (i := .after 2 [.sreg d.toNat (BitVec.ofNat 64 x)]) h hg rfl
  rw [if_neg (stask_free hd)]
  simp only [hf]
  rfl

theorem execStask_none (h : Turn.Ready .S s) (hg : s.view.guard g = true)
    (hd : s.ln.det = false ∨ s.wk.openTask = none) (hf : s.ln.findTask s.wk.wid = none) : exec (.stask g d) s =
      .next (if s.ln.lastPhase then (s.acquire 3).afterS 2 2 [.sreg d.toNat (BitVec.allOnes 64)] else s) := by
  rw [exec_stask, execStask]
  cases hl : s.ln.lastPhase with
  | true =>
    apply runS_after (i := .after 2 [.sreg d.toNat (BitVec.allOnes 64)]) h hg rfl
    rw [if_neg (stask_free hd)]
    simp only [hf]
    exact m_bind_ok ((congrArg (fun b => M.await b s) hl).trans (m_await_true s))
  | false =>
    apply runS_stall0 h hg
    rw [if_neg (stask_free hd)]
    simp only [hf]
    exact m_bind_error ((congrArg (fun b => M.await b s) hl).trans (m_await_false s))

/-! ## Commits and closes -/

@[simp] theorem modLaunch_wk (s : State) (i : Nat) (f : Launch → Launch) : (s.modLaunch i f).wk = s.wk := by
  unfold State.modLaunch; split <;> rfl

theorem execScommit_plain (h : Turn.Ready .S s) (hg : s.view.guard g = true) (hd : s.ln.det = false) :
    exec (.scommit g) s = .next ((s.release 3).afterS 2 0 []) := by
  rw [exec_scommit, execScommit]
  apply runS_after0 h hg
  simp only [hd, Bool.not_false, if_true, m_bind, m_change, m_pure]

theorem execScommit_noTasks (h : Turn.Ready .S s) (hg : s.view.guard g = true) (hd : s.ln.det = true) (hn : s.ln.ntask = 0) :
    exec (.scommit g) s = .next (if s.wk.committed then s.takeTrap .S s.st.pc ⟨0x0E, 0, 2, none⟩
      else ((s.setWk { s.wk with committed := true }).release 3).afterS 2 0 []) := by
  rw [exec_scommit, execScommit]
  cases hc : s.wk.committed with
  | true =>
    apply runS_trap0 h hg
    simp only [hd, Bool.not_true, Bool.false_eq_true, if_false, hn, if_true, hc, m_trap]
  | false =>
    apply runS_after0 h hg
    simp only [hd, Bool.not_true, Bool.false_eq_true, if_false, hn, if_true, hc, m_bind, m_work, m_change, m_pure]

theorem execScommit_idle (h : Turn.Ready .S s) (hg : s.view.guard g = true) (hd : s.ln.det = true) (hn : s.ln.ntask ≠ 0)
    (ho : s.wk.openTask = none) : exec (.scommit g) s = .next (s.takeTrap .S s.st.pc ⟨0x0E, 0, 2, none⟩) := by
  rw [exec_scommit, execScommit]
  apply runS_trap0 h hg
  simp only [hd, Bool.not_true, Bool.false_eq_true, if_false, hn, ho, Option.isSome_none, m_trap]

theorem execScommit_task (h : Turn.Ready .S s) (hg : s.view.guard g = true) (hd : s.ln.det = true) (hn : s.ln.ntask ≠ 0)
    (ho : s.wk.openTask ≠ none) : exec (.scommit g) s =
      .next ((((s.setWk { s.wk with openTask := none }).modLaunch s.wk.lid fun l => { l with left := l.left - 1 }).release 3).afterS
        2 0 []) := by
  have hs : s.wk.openTask.isSome = true := Option.isSome_iff_ne_none.mpr ho
  rw [exec_scommit, execScommit]
  apply runS_after0 h hg
  simp only [hd, Bool.not_true, Bool.false_eq_true, if_false, hn, hs, if_true, m_bind, m_change, m_pure, State.commitTask]
  rfl

theorem execSmbend_det (h : Turn.Ready .S s) (hg : s.view.guard g = true) (hd : s.ln.det = true) :
    exec (.smbend g) s = .next ((s.modLaunch s.wk.lid fun l => { l with smbend := true }).afterS 2 0 []) := by
  rw [exec_smbend, execSmbend]
  apply runS_after0 h hg
  simp only [hd, if_true, m_bind, m_change, m_pure]

theorem execSmbend_counts (h : Turn.Ready .S s) (hg : s.view.guard g = true) (hd : s.ln.det = false) : exec (.smbend g) s =
    .next (if s.wk.strands.w.exited || decide (s.wk.textPos ≤ s.wk.strands.w.pos) then
      ((s.modLaunch s.wk.lid fun x =>
        { x with contrib := tabPut x.contrib s.wk.wid (tabGet [] s.ln.contrib s.wk.wid ++ [(s.wk.sent, s.view.gamma)]) }).setWk
        { s.wk with sent := [] }).afterS 2 0 []
      else s) := by
  rw [exec_smbend, execSmbend]
  cases hw : s.wk.strands.w.exited || decide (s.wk.textPos ≤ s.wk.strands.w.pos) with
  | true =>
    apply runS_after0 h hg
    simp only [hd, Bool.false_eq_true, if_false]
    refine (m_bind_ok ((congrArg (fun b => M.await b s) hw).trans (m_await_true s))).trans ?_
    simp only [m_bind, m_change, m_work, m_pure, modLaunch_wk]
  | false =>
    apply runS_stall0 h hg
    simp only [hd, Bool.false_eq_true, if_false]
    exact m_bind_error ((congrArg (fun b => M.await b s) hw).trans (m_await_false s))

end

/-- Settles O22: groups by the wait that S is in, tasks by what `findTask` finds, commits by the kind of launch. -/
theorem groupsAndTasks : Obligations.GroupsAndTasks := by
  unfold Obligations.GroupsAndTasks
  refine ⟨fun s g c h hg => ?_, fun s g d h hg => ?_, fun s g h hg => ?_⟩
  · intro w n arrived back member trap
    refine ⟨fun hm => ⟨?_, fun hw => ?_⟩, fun hm => execSgarr_eq h hg hm, fun hm hw => ?_, fun x hw => ?_⟩
    · rw [exec_sgarr, execSgarr]
      exact runS_trap0 h hg (m_bind_error (memberOnly_no hm))
    · rw [exec_sgsync_eq, syncAct]
      simp only [hw]
      exact wait_trap h hg (m_bind_error (memberOnly_no hm))
    · intro everyone phase
      have he : s.ln.everyone c.toNat = everyone := rfl
      rw [exec_sgsync_eq, syncAct]
      simp only [hw, he]
      cases ho : arrived.waitOver w.lid (.group c.toNat (n + 1) phase) with
      | true =>
        refine wait_issue h hg (u := arrived.acquire 3) ?_ ?_
        · show (s.arrivedAt c.toNat).curEng = .S
          rw [State.arrivedAt, release_three_curEng]; exact h.turn
        · rw [m_bind_ok (memberOnly_yes hm), m_bind_ok (arrive_ok _)]
          exact (congrArg (fun b : Bool => (if b then groupReturn else _) arrived) ho).trans rfl
      | false =>
        refine wait_stay h hg ?_
        rw [m_bind_ok (memberOnly_yes hm), m_bind_ok (arrive_ok _)]
        exact (congrArg (fun b : Bool => (if b then groupReturn else _) arrived) ho).trans rfl
    · rw [exec_sgsync_eq, syncAct]
      simp only [hw]
      cases ho : s.waitOver w.lid x with
      | true => exact wait_issue h hg h.turn groupReturn_ok
      | false => exact wait_stay h hg rfl
  · intro w l deque took
    refine ⟨execStask_holds h hg, fun hd => ⟨fun x r hx => ?_, fun n x r h0 h1 hn hm hx => ?_, fun h0 hm => ?_⟩⟩
    · exact execStask_takes h hg hd (findTask_own hx)
    · exact execStask_takes h hg hd (findTask_victim h0 h1 hn hm hx)
    · exact execStask_none h hg hd (findTask_none h0 hm)
  · exact ⟨execScommit_plain h hg, execScommit_noTasks h hg, execScommit_idle h hg, execScommit_task h hg, execSmbend_det h hg,
      execSmbend_counts h hg⟩

end Sys2Proof.Machine
end

section
/-! PROOF. S's accesses through the windows and at translated addresses (O23, O24). -/
namespace Sys2Proof.Machine
open Sys2Proof

/-! ## The three instructions, in terms of their accesses -/

section
variable {s u t : State} {f : S64}

theorem effective_eq (f : S64) (w : Worker) : effective f w = (w.sget f.a.toNat + f.imm.signExtend 64).toNat := rfl

/-- The word that a load of `n` bytes delivers (R95). -/
theorem extended_eq (sx : Bool) (n v : Nat) :
    extended sx n v = if sx then BitVec.ofInt 64 (signed (8 * n) v) else BitVec.ofNat 64 v := rfl

theorem sld_ok {v : Nat} (h : Turn.Ready .S s) (hg : s.view.guard f.g = true)
    (hv : loadS (effective f s.wk) (widthBytes f.mod5.toNat) s = .ok (v, u)) : exec (.sld f) s =
      .next ((if f.mod5.getLsbD 3 then u.acquire 3 else u).afterS 4 2
        [.sreg f.d.toNat (extended (f.mod5.getLsbD 2) (widthBytes f.mod5.toNat) v)]) := by
  rw [exec_sld, execSld]
  apply runS_after (i := .after 2 [.sreg f.d.toNat (extended (f.mod5.getLsbD 2) (widthBytes f.mod5.toNat) v)]) h hg rfl
  rw [m_bind_ok hv]
  cases f.mod5.getLsbD 3 <;> rfl

theorem sst_ok (h : Turn.Ready .S s) (hg : s.view.guard f.g = true)
    (hv : storeS (effective f s.wk) (toBytes (s.wk.sget f.d.toNat).toNat (widthBytes f.mod5.toNat))
      (if f.mod5.getLsbD 4 then s.release 3 else s) = .ok ((), u)) : exec (.sst f) s = .next (u.afterS 4 0 []) := by
  rw [exec_sst, execSst]
  apply runS_after0 h hg
  cases hb : f.mod5.getLsbD 4 with
  | true => rw [hb] at hv; exact (m_bind_ok (m_change _ s)).trans (m_bind_ok hv)
  | false => rw [hb] at hv; exact m_bind_ok hv

/-- The bytes of a `samo` (R96). -/
def amoBytes (f : S64) : Nat := if f.mod5.getLsbD 4 then 8 else 4

/-- The scope of a `samo` (R96). -/
def amoScope (f : S64) : Nat := f.g.gp.toNat % 8

/-- The state in which a `samo` makes its access, its place known: after the release that its place or its order asks for. -/
def State.amoReady (u : State) (f : S64) (p : Place) : State :=
  if p.isKnot then u.release (max 3 (amoScope f)) else if f.g.gp.getLsbD 3 then u.release (amoScope f) else u

theorem samo_ok {p : Place} {old : Nat} (h : Turn.Ready .S s)
    (hp : placeOf s.wk.agent (effective f s.wk) (amoBytes f) .atomic none (samoRights (f.mod5.toNat % 16) (amoBytes f)) (.ok ()) s =
      .ok (p, u))
    (ha : atomicAt (amoScope f) (p.atScope (amoScope f)) (amoBytes f) (f.mod5.toNat % 16)
      ((s.wk.sget f.d.toNat).toNat % 2 ^ (8 * amoBytes f)) ((s.wk.sget (f.d.toNat + 1)).toNat % 2 ^ (8 * amoBytes f))
      (u.amoReady f p) = .ok (old, t)) : exec (.samo f) s =
      .next ((if f.g.gn then t.acquire (amoScope f) else t).afterS 4 2 [.sreg f.d.toNat (BitVec.ofNat 64 old)]) := by
  have hop : bits f.mod5.toNat 0 4 = f.mod5.toNat % 16 := by simp [bits_eq]
  have hsc : bits f.g.gp.toNat 0 3 = amoScope f := by simp [bits_eq, amoScope]
  rw [exec_samo, execSamo, runS_on (i := .after 2 [.sreg f.d.toNat (BitVec.ofNat 64 old)])
    (t := if f.g.gn then t.acquire (amoScope f) else t) h.live h.turn h.room (by simp)]
  · simp only [State.afterS, Issue.after, stepped_eq]
  · simp only [hop, hsc]
    have last : (if f.g.gn then do
        M.change fun s => s.acquire (amoScope f)
        pure (Issue.after 2 [.sreg f.d.toNat (BitVec.ofNat 64 old)])
      else pure (Issue.after 2 [.sreg f.d.toNat (BitVec.ofNat 64 old)]) : M Issue) t =
        .ok (.after 2 [.sreg f.d.toNat (BitVec.ofNat 64 old)], if f.g.gn then t.acquire (amoScope f) else t) := by
      cases f.g.gn <;> rfl
    refine (m_bind_ok hp).trans ?_
    unfold State.amoReady at ha
    by_cases hk : p.isKnot = true
    · rw [if_pos hk] at ha ⊢
      exact (m_bind_ok (m_change _ u)).trans ((m_bind_ok ha).trans last)
    · rw [if_neg hk] at ha ⊢
      by_cases hr : f.g.gp.getLsbD 3 = true
      · rw [if_pos hr] at ha ⊢
        exact (m_bind_ok (m_change _ u)).trans ((m_bind_ok ha).trans last)
      · rw [if_neg hr] at ha ⊢
        exact (m_bind_ok ha).trans last

end

/-! ## Accesses through the windows -/

section
variable {s u : State} {va n : Nat} {p : Place}

theorem toBytes_length (v n : Nat) : (toBytes v n).length = n := by
  induction n generalizing v with
  | zero => rfl
  | succ n ih => simp [toBytes, ih]

theorem loadS_window (h1 : inWindows va = true) (h2 : windowPlace (s.cxOf s.wk) va = some p) (h3 : sldRights n p = true)
    (h4 : va % n = 0) (hp : ∀ q, p ≠ .phys q) (hc : s.readCheck p n = none) :
    loadS va n s = .ok (s.loads p n, (s.loaded p n).noteRead p n) := by
  unfold loadS
  rw [m_bind_ok (m_look _ s), m_bind_ok (placeOf_window h1 h2 h3 h4), m_bind_ok (detect_window hp)]
  exact readAt_ok hc

theorem accessed_rc (h : p.kind = .rc) (s : State) : s.accessed p = s := by simp [State.accessed, h]

theorem storeS_window {l : List (BitVec 8)} (h1 : inWindows va = true) (h2 : windowPlace (s.cxOf s.wk) va = some p)
    (h3 : sstRights p = true) (h4 : va % l.length = 0) (hp : ∀ q, p ≠ .phys q) (hk : p.kind = .rc)
    (hc : s.writeCheck [(p, l)] = none) :
    storeS va l s = .ok ((), (s.noteWrites s.strandAuthor [(p, l)]).writeAll [(p, l)]) := by
  unfold storeS
  rw [m_bind_ok (m_look _ s), m_bind_ok (placeOf_window h1 h2 h3 h4), m_bind_ok (detect_window hp), storeAllM_ok hc]
  simp only [List.foldl_cons, List.foldl_nil, accessed_rc hk]

/-- An atomic at a place of the scratchpad: it reads the newest bytes there. -/
theorem atomicAt_spad {k off scope op x y : Nat} (hr : s.readCheck (.spad k off) n = none)
    (hw : ((s.lookedNewest (strandWho s.curKey s.curEng) (.spad k off) n).noteRead (.spad k off) n).writeCheck
      [(.spad k off, toBytes (atomicNew op (8 * n) ((s.worker k).spad.nat off n) x y) n)] = none) :
    let r := (s.lookedNewest (strandWho s.curKey s.curEng) (.spad k off) n).noteRead (.spad k off) n
    let z := [(Place.spad k off, toBytes (atomicNew op (8 * n) ((s.worker k).spad.nat off n) x y) n)]
    atomicAt scope (.spad k off) n op x y s =
      .ok ((s.worker k).spad.nat off n, (r.noteWrites r.strandAuthor z).writeAll z) := by
  intro r z
  unfold atomicAt
  dsimp only
  have hread := readNewest_ok (n := n) hr
  rw [accessed_rc rfl] at hread
  refine (m_bind_ok hread).trans ?_
  refine (m_bind_ok (m_look _ r)).trans ?_
  exact (m_bind_ok (writeAs_ok (a := r.strandAuthor) hw)).trans rfl

/-- An add to a knot through its window. -/
theorem atomicAt_knot (k j scope n op x y : Nat) (s : State) : atomicAt scope (.knot k j) n op x y s =
    .ok (((s.worker k).knot j).val.toNat, s.addFarKnot k j (BitVec.ofNat 32 x) false) := rfl

end

/-! ## What a release leaves as it is -/

theorem releaseAs_fields (s : State) (n : Nat) (un : Bool) : (s.releaseAs n un).workers = s.workers ∧
    (s.releaseAs n un).curKey = s.curKey ∧ (s.releaseAs n un).curEng = s.curEng ∧ (s.releaseAs n un).tick = s.tick ∧
    (s.releaseAs n un).launches = s.launches ∧ (s.releaseAs n un).badLocal = s.badLocal := by
  unfold State.releaseAs
  rw [releaseTo_same]
  dsimp only
  split <;> exact ⟨rfl, rfl, rfl, rfl, rfl, rfl⟩

theorem worker_of_workers {s t : State} (h : t.workers = s.workers) (k : Nat) : t.worker k = s.worker k := by
  unfold State.worker State.worker?
  rw [h]

theorem release_worker (s : State) (n k : Nat) : (s.release n).worker k = s.worker k :=
  worker_of_workers (releaseAs_fields s n false).1 k

theorem release_wk (s : State) (n : Nat) : (s.release n).wk = s.wk := by
  obtain ⟨hw, hk, _⟩ := releaseAs_fields s n false
  show (s.releaseAs n false).worker (s.releaseAs n false).curKey = s.worker s.curKey
  rw [worker_of_workers hw, hk]

theorem release_cx (s : State) (n : Nat) : (s.release n).cxOf (s.release n).wk = s.cxOf s.wk := by
  obtain ⟨_, _, _, _, hl, _⟩ := releaseAs_fields s n false
  rw [release_wk]
  unfold State.cxOf State.launch
  rw [State.release, hl]

theorem release_curKey (s : State) (n : Nat) : (s.release n).curKey = s.curKey := (releaseAs_fields s n false).2.1
theorem release_curEng (s : State) (n : Nat) : (s.release n).curEng = s.curEng := (releaseAs_fields s n false).2.2.1
theorem release_badLocal (s : State) (n : Nat) : (s.release n).badLocal = s.badLocal := (releaseAs_fields s n false).2.2.2.2.2

theorem release_three_badSectors (s : State) : (s.release 3).badSectors = s.badSectors := by
  rw [State.release, State.releaseAs, releaseTo_same]; rfl

/-- Whether a group of writes meets an error turns on the sectors with one alone. -/
theorem writeCheck_same {s t : State} (h1 : t.badSectors = s.badSectors) (h2 : t.badLocal = s.badLocal)
    (ws : List (Place × List (BitVec 8))) : t.writeCheck ws = s.writeCheck ws := by
  unfold State.writeCheck
  rw [h1, h2]

/-! ## Addresses of the windows -/

theorem widthBytes_cases (c : Nat) : widthBytes c = 1 ∨ widthBytes c = 2 ∨ widthBytes c = 4 ∨ widthBytes c = 8 := by
  unfold widthBytes
  have : c % 4 < 4 := Nat.mod_lt _ (by decide)
  interval_cases c % 4 <;> simp

theorem amoBytes_cases (f : S64) : amoBytes f = 4 ∨ amoBytes f = 8 := by
  unfold amoBytes
  split <;> simp

/-- An address of the scratchpad window is aligned as its offset is. -/
theorem spadAddr_aligned {n off : Nat} (hn : n = 1 ∨ n = 2 ∨ n = 4 ∨ n = 8) (h : off % n = 0) : (0x1F0 * 2 ^ 48 + off) % n = 0 := by
  rcases hn with rfl | rfl | rfl | rfl <;> omega

/-- An address of a knot of a worker (R97, R147). -/
theorem knot_window {s : State} {k : Nat} (hk : k < 32) (hw : s.wk.wid < s.ln.workersN) :
    inWindows (0x1F4 * 2 ^ 48 + s.wk.wid * 2 ^ 12 + 8 * k) = true ∧
    windowPlace (s.cxOf s.wk) (0x1F4 * 2 ^ 48 + s.wk.wid * 2 ^ 12 + 8 * k) = some (.knot (workerKey s.wk.lid s.wk.wid) k) := by
  have hmax : s.ln.workersN < 2 ^ 16 := by
    unfold Launch.workersN
    rw [bits_eq]
    exact Nat.mod_lt _ (by positivity)
  have h1 : (0x1F4 * 2 ^ 48 + s.wk.wid * 2 ^ 12 + 8 * k) >>> 48 = 0x1F4 := by rw [Nat.shiftRight_eq_div_pow]; omega
  have h2 : (0x1F4 * 2 ^ 48 + s.wk.wid * 2 ^ 12 + 8 * k) % 2 ^ 48 = s.wk.wid * 2 ^ 12 + 8 * k := by omega
  have h3 : (s.wk.wid * 2 ^ 12 + 8 * k) >>> 12 = s.wk.wid := by rw [Nat.shiftRight_eq_div_pow]; omega
  have h4 : (s.wk.wid * 2 ^ 12 + 8 * k) % 4096 = 8 * k := by clear h1 h2 h3; omega
  constructor
  · simp only [inWindows, h1]; decide
  · unfold windowPlace
    rw [h1, h2]
    simp only [h3, h4]
    have hc : s.wk.wid < (s.cxOf s.wk).wcnt ∧ 8 * k < 256 ∧ 8 * k % 8 = 0 := ⟨hw, by omega, by omega⟩
    rw [if_pos hc, Nat.mul_div_cancel_left k (by decide)]
    rfl

/-- An address of a cell (R97, R147). -/
theorem cell_window {s : State} {k b : Nat} (hb : b < 4) (h : 32 * k + 8 * b < 0x100000) :
    inWindows (0x1F2 * 2 ^ 48 + 32 * k + 8 * b) = true ∧
    windowPlace (s.cxOf s.wk) (0x1F2 * 2 ^ 48 + 32 * k + 8 * b) = some (.cell (workerKey s.wk.lid s.wk.wid) k (8 * b)) := by
  have h1 : (0x1F2 * 2 ^ 48 + 32 * k + 8 * b) >>> 48 = 0x1F2 := by rw [Nat.shiftRight_eq_div_pow]; omega
  have h2 : (0x1F2 * 2 ^ 48 + 32 * k + 8 * b) % 2 ^ 48 = 32 * k + 8 * b := by omega
  have h3 : (32 * k + 8 * b) / 32 = k := by omega
  have h4 : (32 * k + 8 * b) % 32 = 8 * b := by omega
  constructor
  · simp only [inWindows, h1]; decide
  · unfold windowPlace
    rw [h1, h2]
    simp only [h3, h4]
    rw [if_pos h]
    rfl

/-! ## Knots and cells, read through their windows -/

theorem readCheck_knot (s : State) (k j n : Nat) : s.readCheck (.knot k j) n = none := by
  have : (fun x : LocalSector => x.hit (.knot k j) n) = fun _ => false := rfl
  simp only [State.readCheck, this]
  rw [List.find?_eq_none.mpr (by simp)]
  rfl

theorem noteRead_knot (s : State) (k j n : Nat) : s.noteRead (.knot k j) n = s := by
  have : (fun x : LocalSector => !x.hit (.knot k j) n) = fun _ => true := rfl
  have h : s.softLocal.filter (fun x => !x.hit (.knot k j) n) = s.softLocal := by rw [this]; simp
  have h' : s.softLocal.filter (fun x => x.hit (.knot k j) n) = [] := List.filter_eq_nil_iff.mpr fun x _ => Bool.false_ne_true
  simp only [State.noteRead, State.mend, h, h', List.map_nil, List.append_nil]

/-- A word of a cell with no record, as its bits (R97). -/
theorem loads_cell {s : State} {key k b : Nat} (h : s.lineLog (.cell key) k = []) :
    BitVec.ofNat 64 (s.loads (.cell key k (8 * b)) 8) = ((s.worker key).cell k).extractLsb' (64 * b) 64 := by
  have : s.loads (.cell key k (8 * b)) 8 = ((s.worker key).cell k).toNat >>> (8 * (8 * b)) % 2 ^ (8 * 8) := by
    simp only [State.loads, State.look, Place.line?, h, List.isEmpty_nil, if_true]
    rfl
  rw [this]
  apply BitVec.eq_of_toNat_eq
  simp [← Nat.mul_assoc]

/-- Settles O23: each access is of one place, which the address names; what is read there and written follows the place. -/
theorem scalarAccessesThroughWindows : Obligations.ScalarAccessesThroughWindows := by
  unfold Obligations.ScalarAccessesThroughWindows
  refine ⟨fun s f n off h => ?_, fun s f k h => ?_⟩
  · intro home p ea d hea hin hal hc
    refine ⟨fun hg hn => ?_, fun hn => ?_⟩
    · have hn' : n = widthBytes f.mod5.toNat := hn
      have hcases := widthBytes_cases f.mod5.toNat
      rw [← hn'] at hcases
      obtain ⟨hwin, hplace⟩ := spad_window s off n hin (by omega)
      have hmod : (0x1F0 * 2 ^ 48 + off) % n = 0 := spadAddr_aligned hcases hal
      rw [← hea] at hwin hplace hmod
      intro v r t x
      refine ⟨?_, fun hw => ?_⟩
      · rw [sld_ok h hg (u := r) (v := v) (by rw [← hn']; exact loadS_window hwin hplace rfl hmod (by simp) hc), ← hn']
        rfl
      · apply sst_ok h hg
        have hcx : t.cxOf t.wk = s.cxOf s.wk := by
          simp only [t]; split
          · exact release_cx s 3
          · rfl
        have hwt : t.writeCheck x = none := by
          rw [← hw]
          simp only [t]; split
          · exact writeCheck_same (release_three_badSectors s) (release_badLocal s 3) x
          · rfl
        rw [← hn']
        exact storeS_window hwin (hcx ▸ hplace) rfl (by rw [toBytes_length]; exact hmod) (by simp) rfl hwt
    · have hn' : n = amoBytes f := hn
      have hcases := amoBytes_cases f
      rw [← hn'] at hcases
      obtain ⟨hwin, hplace⟩ := spad_window s off n hin (by omega)
      have hmod : (0x1F0 * 2 ^ 48 + off) % n = 0 := spadAddr_aligned (by omega) hal
      rw [← hea] at hwin hplace hmod
      intro x y old scope t r z o hw
      have ht : s.amoReady f p = t := rfl
      have hworker : t.worker home = s.worker home := by
        simp only [t]; split
        · exact release_worker s _ home
        · rfl
      have hrc : t.readCheck p n = none := by
        rw [← hc]
        have : t.badLocal = s.badLocal := by
          simp only [t]; split
          · exact release_badLocal s _
          · rfl
        simp only [State.readCheck, p, this]
      have hwho : strandWho t.curKey t.curEng = ⟨s.curKey, .strand .S⟩ := by
        have hk : t.curKey = s.curKey := by
          simp only [t]; split
          · exact release_curKey s _
          · rfl
        have he : t.curEng = .S := by
          simp only [t]; split
          · exact (release_curEng s _).trans h.turn
          · exact h.turn
        rw [hk, he]; rfl
      have ha := atomicAt_spad (s := t) (scope := scope) (op := f.mod5.toNat % 16) (x := x) (y := y) hrc
        (by rw [hwho, hworker]; exact hw)
      simp only [hwho, hworker] at ha
      refine samo_ok (u := s) (p := p) h ?_ ?_
      · rw [← hn']; exact placeOf_window hwin hplace rfl hmod
      · rw [← hn', ht]; exact ha
  · intro home ea
    refine ⟨fun hk hw hea => ?_, fun b hb hin hea hm hg => ?_⟩
    · obtain ⟨hwin, hplace⟩ := knot_window hk hw
      rw [← hea] at hwin hplace
      have hal : effective f s.wk % 4 = 0 ∧ effective f s.wk % 8 = 0 := by
        have he : effective f s.wk = 0x1F4 * 2 ^ 48 + s.wk.wid * 2 ^ 12 + 8 * k := hea
        omega
      intro old
      refine ⟨fun hm => ?_, fun hm hg => ?_⟩
      · intro scope t
        have hn : amoBytes f = 4 := by
          have : f.mod5 = 0 := BitVec.eq_of_toNat_eq (by simpa using hm)
          simp [amoBytes, this]
        have hright : samoRights (f.mod5.toNat % 16) (amoBytes f) (.knot home k) = true := by rw [hm, hn]; rfl
        have hx : ∀ v : Nat, BitVec.ofNat 32 (v % 2 ^ (8 * 4)) = BitVec.ofNat 32 v := fun v => by
          apply BitVec.eq_of_toNat_eq; simp
        have ha := atomicAt_knot home k scope (amoBytes f) (f.mod5.toNat % 16) ((s.wk.sget f.d.toNat).toNat % 2 ^ (8 * amoBytes f))
          ((s.wk.sget (f.d.toNat + 1)).toNat % 2 ^ (8 * amoBytes f)) (s.release (max 3 scope))
        rw [release_worker, hn, hx] at ha
        rw [samo_ok (u := s) (p := .knot home k) h (placeOf_window hwin hplace hright (by rw [hn]; exact hal.1)) (by rw [hn]; exact ha)]
        congr 4
        apply BitVec.eq_of_toNat_eq
        simp [old]
      · have h8 : widthBytes f.mod5.toNat = 8 := by
          have : f.mod5.toNat % 4 = 3 := by omega
          simp [widthBytes, this]
        have hsx : f.mod5.getLsbD 2 = false := by
          simp [BitVec.getLsbD, Nat.testBit_eq_decide_div_mod_eq]; omega
        have hl := loadS_window (n := 8) hwin hplace rfl hal.2 (by simp) (readCheck_knot s home k 8)
        rw [State.loaded, accessed_rc rfl] at hl
        have hnr : (s.looked (s.reader (.knot home k)) (.knot home k) 8).noteRead (.knot home k) 8 = s := noteRead_knot s home k 8
        rw [hnr] at hl
        rw [sld_ok h hg (by rw [h8]; exact hl), hsx, extended_eq]
        have : s.loads (.knot home k) 8 = old.val.toNat + if old.err then 2 ^ 32 else 0 := knot_word old
        rw [this]
        rfl
    · obtain ⟨hwin, hplace⟩ := cell_window (s := s) hb hin
      rw [← hea] at hwin hplace
      intro p r hc
      have h8 : widthBytes f.mod5.toNat = 8 := by
        have : f.mod5.toNat % 4 = 3 := by omega
        simp [widthBytes, this]
      have hsx : f.mod5.getLsbD 2 = false := by
        simp [BitVec.getLsbD, Nat.testBit_eq_decide_div_mod_eq]; omega
      refine ⟨?_, loads_cell⟩
      have hl := loadS_window (n := 8) hwin hplace rfl (by omega) (by simp) hc
      rw [sld_ok h hg (by rw [h8]; exact hl), hsx, extended_eq]
      rfl

end Sys2Proof.Machine
end

section
/-! PROOF. S's accesses at translated addresses, what a translation answers, and the walk (O24). -/
namespace Sys2Proof.Machine
open Sys2Proof

/-! ## Walks -/

theorem tableEntry_iff {x : Nat} : x % 4 = 3 ↔ bit x 0 = true ∧ bit x 1 = true := by
  simp only [bit, Nat.testBit_eq_decide_div_mod_eq, decide_eq_true_eq]; omega

theorem leafBits_iff {x : Nat} : x % 4 = 1 ↔ bit x 0 = true ∧ bit x 1 = false := by
  simp only [bit, Nat.testBit_eq_decide_div_mod_eq, decide_eq_true_eq, decide_eq_false_iff_not]; omega

theorem pteAddr_eq (x : Nat) : pteAddr x = x / 2 ^ 12 % 2 ^ 40 * 2 ^ 12 := by
  unfold pteAddr
  rw [bits_eq, Nat.shiftLeft_eq]

theorem tableIndex_root (va : Nat) : tableIndex 3 va = va / 2 ^ 39 % 2 ^ 18 := by
  simp only [tableIndex, if_true, Nat.shiftRight_eq_div_pow]

theorem tableIndex_below {level : Nat} (h : level ≠ 3) (va : Nat) : tableIndex level va = va / 2 ^ (12 + 9 * level) % 512 := by
  simp only [tableIndex, if_neg h, Nat.shiftRight_eq_div_pow]

section
variable {s : State} {asid va level table x : Nat}

/-- A walk goes on through a table entry, and answers what the next table answers. -/
theorem walkFrom_table (hr : s.readEntry (table + 8 * tableIndex (level + 1) va) = .ok x) (h : x % 4 = 3 ∧ tableOk x = true) :
    (∀ c, s.walkFrom asid va level (pteAddr x) = .error c → s.walkFrom asid va (level + 1) table = .error c) ∧
    ∀ e, (∃ l, s.walkFrom asid va level (pteAddr x) = .ok (e, l)) → ∃ l, s.walkFrom asid va (level + 1) table = .ok (e, l) := by
  obtain ⟨h3, hok⟩ := h
  obtain ⟨h0, h1⟩ := tableEntry_iff.mp h3
  refine ⟨fun c hc => ?_, fun e ⟨l, hl⟩ => ?_⟩
  · simp only [State.walkFrom, hr, h0, h1, hok, hc, Bool.not_true, Bool.false_eq_true, if_false, if_true]
  · simp only [State.walkFrom, hr, h0, h1, hok, hl, Bool.not_true, Bool.false_eq_true, if_false, if_true]
    exact ⟨_, rfl⟩

/-- A walk ends at a well-formed leaf below the root. -/
theorem walkFrom_leaf (hlevel : level ≠ 3) (hr : s.readEntry (table + 8 * tableIndex level va) = .ok x)
    (h : x % 4 = 1 ∧ leafOk level x = true) : ∃ l, s.walkFrom asid va level table =
      .ok (⟨asid, x.testBit 5, va / leafSize level x * leafSize level x, leafSize level x, BitVec.ofNat 64 x⟩, l) := by
  obtain ⟨h1, hok⟩ := h
  obtain ⟨hv, ht⟩ := leafBits_iff.mp h1
  cases level with
  | zero =>
    simp only [State.walkFrom, hr, hv, ht, leafEntry, hok, Bool.not_true, Bool.or_self, Bool.false_eq_true, if_false, if_true]
    exact ⟨_, rfl⟩
  | succ level =>
    simp only [State.walkFrom, hr, hv, ht, leafEntry, hok, if_neg hlevel, Bool.not_true, Bool.false_eq_true, if_false, if_true]
    exact ⟨_, rfl⟩

/-- Any other entry is `not present`; a leaf at the root is no leaf, a table at the last level no table. -/
theorem walkFrom_bad (hr : s.readEntry (table + 8 * tableIndex level va) = .ok x)
    (ht : level ≠ 0 → ¬ (x % 4 = 3 ∧ tableOk x = true)) (hl : level ≠ 3 → ¬ (x % 4 = 1 ∧ leafOk level x = true)) :
    s.walkFrom asid va level table = .error (.fault 8) := by
  cases hv : bit x 0 with
  | false => cases level <;> simp only [State.walkFrom, hr, hv, Bool.not_false, Bool.true_or, if_true]
  | true =>
    cases h1 : bit x 1 with
    | true =>
      cases level with
      | zero => simp only [State.walkFrom, hr, hv, h1, Bool.or_true, if_true]
      | succ level =>
        have hok : tableOk x = false := Bool.eq_false_iff.mpr fun hok =>
          ht (Nat.succ_ne_zero level) ⟨tableEntry_iff.mpr ⟨hv, h1⟩, hok⟩
        simp only [State.walkFrom, hr, hv, h1, hok, Bool.not_true, Bool.false_eq_true, if_false, if_true]
    | false =>
      by_cases h3 : level = 3
      · subst h3
        simp only [State.walkFrom, hr, hv, h1, Bool.not_true, Bool.false_eq_true, if_false, if_true]
      · have hok : leafOk level x = false := Bool.eq_false_iff.mpr fun hok => hl h3 ⟨leafBits_iff.mpr ⟨hv, h1⟩, hok⟩
        cases level with
        | zero => simp only [State.walkFrom, hr, hv, h1, leafEntry, hok, Bool.not_true, Bool.or_self, Bool.false_eq_true, if_false]
        | succ level =>
          simp only [State.walkFrom, hr, hv, h1, leafEntry, hok, if_neg h3, Bool.not_true, Bool.false_eq_true, if_false]

end

/-! ## Translations -/

section
variable {s : State} {ag : Agent} {cx : Cx} {va : Nat} {acc : Acc} {e : TlbEntry} {l : List WalkEntry} {new : Bool}

theorem permitted_iff (user : Bool) (acc : Acc) (pte : Nat) : permitted user acc pte = true ↔
    (user = true → pte.testBit 4 = true) ∧ (acc ∈ [.load, .atomic, .fetch] → pte.testBit 2 = true) ∧
      (acc ∈ [.store, .atomic, .cellAdd] → pte.testBit 3 = true ∧ pte.testBit 10 = false) := by
  unfold permitted bit
  cases user <;> cases acc <;> simp [and_assoc, and_comm, and_left_comm]

theorem resolve_lookupError {x : AErr} (hva : va < 2 ^ 57) (h : s.lookup ag cx va = .error x) : s.resolve ag cx va acc = .error x := by
  simp only [State.resolve, State.translate, if_neg (Nat.not_le.mpr hva), h]

theorem resolve_noPlace (hva : va < 2 ^ 57) (h : s.lookup ag cx va = .ok (e, l, new)) (hp : leafPhys e.size e.pte.toNat va = none) :
    s.resolve ag cx va acc = .error (.fault 8) := by
  simp only [State.resolve, State.translate, if_neg (Nat.not_le.mpr hva), h, hp]

theorem resolve_denied {p : Phys} (hva : va < 2 ^ 57) (h : s.lookup ag cx va = .ok (e, l, new))
    (hp : leafPhys e.size e.pte.toNat va = some p) (hn : permitted cx.user acc e.pte.toNat = false) :
    s.resolve ag cx va acc = .error (.fault 9) := by
  simp only [State.resolve, State.translate, if_neg (Nat.not_le.mpr hva), h, hp, hn, Bool.false_eq_true, if_false]

theorem resolve_placeFault {p : Phys} {c : Nat} (hva : va < 2 ^ 57) (h : s.lookup ag cx va = .ok (e, l, new))
    (hp : leafPhys e.size e.pte.toNat va = some p) (hn : permitted cx.user acc e.pte.toNat = true) (hf : s.placeFault p = some c) :
    s.resolve ag cx va acc = .error (.fault c) := by
  simp only [State.resolve, State.translate, if_neg (Nat.not_le.mpr hva), h, hp, hn, hf, if_true]

theorem resolve_ok {p : Phys} (hva : va < 2 ^ 57) (h : s.lookup ag cx va = .ok (e, l, new))
    (hp : leafPhys e.size e.pte.toNat va = some p) (hn : permitted cx.user acc e.pte.toNat = true) (hf : s.placeFault p = none) :
    s.resolve ag cx va acc = .ok (p, if new then (s.noteWalk ag cx va l).fill ag e l else s) := by
  simp only [State.resolve, State.translate, if_neg (Nat.not_le.mpr hva), h, hp, hn, hf, if_true]

end

/-! ## Who has the turn, through an access -/

/-- The same strand has the turn, at the same place in the text and in the same step. -/
structure SameTurn (s t : State) : Prop where
  key : t.curKey = s.curKey
  eng : t.curEng = s.curEng
  tick : t.tick = s.tick
  core : t.wk.core = s.wk.core
  pos : t.st.pos = s.st.pos

namespace SameTurn

theorem refl (s : State) : SameTurn s s := ⟨rfl, rfl, rfl, rfl, rfl⟩

theorem trans {s t u : State} (h : SameTurn s t) (k : SameTurn t u) : SameTurn s u :=
  ⟨k.key.trans h.key, k.eng.trans h.eng, k.tick.trans h.tick, k.core.trans h.core, k.pos.trans h.pos⟩

theorem of_workers {s t : State} (hw : t.workers = s.workers) (hk : t.curKey = s.curKey) (he : t.curEng = s.curEng)
    (ht : t.tick = s.tick) : SameTurn s t := by
  have hwk : t.wk = s.wk := by unfold State.wk; rw [worker_of_workers hw, hk]
  exact ⟨hk, he, ht, by rw [hwk], by rw [State.st, hwk, he]; rfl⟩

theorem release (s : State) (n : Nat) : SameTurn s (s.release n) := by
  obtain ⟨hw, hk, he, ht, _⟩ := releaseAs_fields s n false
  exact of_workers hw hk he ht

theorem correct (s : State) (a n : Nat) : SameTurn s (s.correct a n) := of_workers rfl rfl rfl rfl

theorem foldCorrect (l : List Nat) (s : State) : SameTurn s (l.foldl (fun s a => s.correct a 8) s) := by
  induction l generalizing s with
  | nil => exact refl s
  | cons a l ih => exact (correct s a 8).trans (ih _)

theorem fill (s : State) (ag : Agent) (e : TlbEntry) (l : List WalkEntry) : SameTurn s (s.fill ag e l) := by
  cases ag <;> exact of_workers rfl rfl rfl rfl

theorem resolve {s u : State} {ag : Agent} {cx : Cx} {va : Nat} {acc : Acc} {p : Phys} (h : s.resolve ag cx va acc = .ok (p, u)) :
    SameTurn s u := by
  unfold State.resolve at h
  split at h
  · cases h
  · simp only [Except.ok.injEq, Prod.mk.injEq] at h
    obtain ⟨_, rfl⟩ := h
    split
    · exact (foldCorrect _ s).trans (fill _ _ _ _)
    · exact refl s

theorem lookedNewest (s : State) (w : Who) (p : Place) (n : Nat) : SameTurn s (s.lookedNewest w p n) := by
  rw [lookedNewest_same]; exact of_workers rfl rfl rfl rfl

theorem accessed (s : State) (p : Place) : SameTurn s (s.accessed p) := by
  unfold State.accessed
  split
  · exact ⟨rfl, rfl, rfl, by simp [State.modSt, State.setSt, Worker.setStrand], by simp [State.modSt, State.setSt]⟩
  · exact refl s

end SameTurn

/-! ## Accesses at translated addresses -/

section
variable {s u : State} {va n : Nat} {p : Phys}

/-- The detector has nothing to say. -/
def Launch.Undetected (l : Launch) : Prop := l.det = false ∨ l.detOff = true

theorem detect_off {slot : Option Nat} {st : Bool} {q : Place} (h : s.ln.Undetected) : detectAt va slot st q n s = .ok ((), s) := by
  rcases h with h | h
  · exact detect_nondet h
  · unfold detectAt detectIn
    have : (s.launch s.wk.lid).detOff = true := h
    simp only [m_bind, m_look, id_eq, this, Bool.or_true, Bool.true_or, if_true, m_pure]

theorem resolve_ln {cx : Cx} {ag : Agent} {acc : Acc} (h : s.resolve ag cx va acc = .ok (p, u)) : u.ln = s.ln := by
  obtain ⟨hw, hl, hk, _⟩ := resolve_same h
  unfold State.ln State.launch State.wk
  rw [worker_of_workers hw, hl, hk]

theorem loadS_phys (h1 : va < 2 ^ 57) (h2 : inWindows va = false) (h3 : va % n = 0) (hd : s.ln.Undetected)
    (hr : s.resolve s.wk.agent (s.cxOf s.wk) va .load = .ok (p, u)) (hc : u.readCheck (.phys p) n = none) :
    loadS va n s = .ok (u.loads (.phys p) n, (u.loaded (.phys p) n).correct p.addr n) := by
  unfold loadS
  rw [m_bind_ok (m_look _ s), m_bind_ok (placeOf_phys h1 h2 h3 hr), m_bind_ok (detect_off (resolve_ln hr ▸ hd))]
  exact readAt_ok hc

theorem storeS_phys {l : List (BitVec 8)} (h1 : va < 2 ^ 57) (h2 : inWindows va = false) (h3 : va % l.length = 0)
    (hd : s.ln.Undetected) (hr : s.resolve s.wk.agent (s.cxOf s.wk) va .store = .ok (p, u))
    (hc : u.writeCheck [(.phys p, l)] = none) :
    storeS va l s = .ok ((), ((u.noteWrites u.strandAuthor [(.phys p, l)]).writeAll [(.phys p, l)]).accessed (.phys p)) := by
  unfold storeS
  rw [m_bind_ok (m_look _ s), m_bind_ok (placeOf_phys h1 h2 h3 hr), m_bind_ok (detect_off (resolve_ln hr ▸ hd)), storeAllM_ok hc]
  rfl

/-- An atomic in memory: it reads the newest bytes, and what it writes reaches as far as its scope asks for. -/
theorem atomicAt_phys {scope op x y : Nat} (hr : s.readCheck (.phys p) n = none)
    (hw : (((s.lookedNewest (strandWho s.curKey s.curEng) (.phys p) n).accessed (.phys p)).correct p.addr n).writeCheck
      [(.phys p, toBytes (atomicNew op (8 * n) (s.physNat p.addr n) x y) n)] = none) :
    let r := ((s.lookedNewest (strandWho s.curKey s.curEng) (.phys p) n).accessed (.phys p)).correct p.addr n
    let z := [(Place.phys p, toBytes (atomicNew op (8 * n) (s.physNat p.addr n) x y) n)]
    let reach := if 2 ^ 52 ≤ p.addr then [⟨s.tick, 5, s.wk.core⟩]
      else if p.pool = true ∧ 4 ≤ scope then [⟨s.tick, scope, s.wk.core⟩] else []
    atomicAt scope (.phys p) n op x y s = .ok (s.physNat p.addr n,
      (r.noteWrites ⟨some (strandWho s.curKey s.curEng), s.st.pos, reach, false⟩ z).writeAll z) := by
  intro r z reach
  have hturn : SameTurn s r :=
    (SameTurn.lookedNewest s _ _ n).trans ((SameTurn.accessed _ _).trans (SameTurn.correct _ _ _))
  have hauthor : ({ r.strandAuthor with reach := r.atomicReach (.phys p) scope } : Author) =
      ⟨some (strandWho s.curKey s.curEng), s.st.pos, reach, false⟩ := by
    simp only [State.strandAuthor, State.atomicReach, hturn.key, hturn.eng, hturn.tick, hturn.core, hturn.pos, reach]
  unfold atomicAt
  dsimp only
  refine (m_bind_ok (readNewest_ok hr)).trans ?_
  refine (m_bind_ok (m_look _ r)).trans ?_
  rw [← hauthor]
  exact (m_bind_ok (writeAs_ok hw)).trans rfl

end

/-- Settles O24: an access goes through its translation; the translation and the walk answer by the cases of R305 and R306. -/
theorem scalarAccessesTranslated : Obligations.ScalarAccessesTranslated := by
  unfold Obligations.ScalarAccessesTranslated
  refine ⟨fun s u f n p h hdet => ?_, fun s ag cx va acc hva => ?_, fun s asid va root a b c d => ?_⟩
  · intro ea d h57 hwin hal
    have hl : s.ln.Undetected := hdet
    refine ⟨fun hg hn => ?_, fun hn hr => ?_⟩
    · have hn' : n = widthBytes f.mod5.toNat := hn
      refine ⟨fun hr hc => ?_, ?_⟩
      · intro v r
        rw [sld_ok h hg (by rw [← hn']; exact loadS_phys h57 hwin hal hl hr hc), ← hn']
        rfl
      · intro t x hr hc
        have ht : t.wk = s.wk ∧ t.cxOf t.wk = s.cxOf s.wk ∧ t.ln = s.ln := by
          simp only [t]
          split
          · refine ⟨release_wk s 3, release_cx s 3, ?_⟩
            rw [State.ln, release_wk, State.launch, State.release, (releaseAs_fields s 3 false).2.2.2.2.1]; rfl
          · exact ⟨rfl, rfl, rfl⟩
        obtain ⟨hwk, hcx, hln⟩ := ht
        apply sst_ok h hg
        rw [← hn']
        refine storeS_phys h57 hwin (by rw [toBytes_length]; exact hal) (hln ▸ hl) ?_ hc
        rw [hcx, hwk]
        exact hr
    · have hn' : n = amoBytes f := hn
      intro x y scope t q old z r reach o hrc hwc
      have hturn : SameTurn s t := by
        refine (SameTurn.resolve hr).trans ?_
        simp only [t]
        split
        · exact SameTurn.release u _
        · exact SameTurn.refl u
      have hwho : strandWho t.curKey t.curEng = ⟨s.curKey, .strand .S⟩ := by
        rw [hturn.key, hturn.eng, h.turn]; rfl
      have ha := atomicAt_phys (s := t) (p := { p with home := p.home || decide (4 ≤ scope) }) (n := n) (scope := scope)
        (op := f.mod5.toNat % 16) (x := x) (y := y) hrc (by rw [hwho]; exact hwc)
      simp only [hwho, hturn.tick, hturn.core, hturn.pos] at ha
      exact samo_ok (p := .phys p) h (placeOf_phys h57 hwin (by rw [← hn']; exact hal) hr) (by rw [← hn']; exact ha)
  · refine ⟨fun x hx => resolve_lookupError hva hx, fun e l new hlook => ?_⟩
    intro pte allowed
    have hiff : permitted cx.user acc pte = true ↔ allowed := permitted_iff _ _ _
    refine ⟨resolve_noPlace hva hlook, fun p hp => ⟨fun hn => ?_, fun hn c hc => ?_, fun hn hc => ?_⟩⟩
    · exact resolve_denied hva hlook hp (Bool.eq_false_iff.mpr fun hb => hn (hiff.mp hb))
    · exact resolve_placeFault hva hlook hp (hiff.mpr hn) hc
    · exact resolve_ok hva hlook hp (hiff.mpr hn) hc
  · intro read frame table leaf entry walks found hra
    have hframe : ∀ x, frame x = pteAddr x := fun x => (pteAddr_eq x).symm
    have ha : s.readEntry (root + 8 * tableIndex 3 va) = .ok a := by rw [tableIndex_root]; exact hra
    refine ⟨fun hn => walkFrom_bad ha (fun _ => hn) (fun h => absurd rfl h), fun hta hrb => ?_⟩
    obtain ⟨herr3, hok3⟩ := walkFrom_table (asid := asid) ha hta
    have hb : s.readEntry (pteAddr a + 8 * tableIndex 2 va) = .ok b := by
      rw [tableIndex_below (by decide), ← hframe]; exact hrb
    refine ⟨fun hl => hok3 _ (walkFrom_leaf (by decide) hb hl),
      fun h1 h2 => herr3 _ (walkFrom_bad hb (fun _ => h1) (fun _ => h2)), fun htb hrc => ?_⟩
    obtain ⟨herr2, hok2⟩ := walkFrom_table (asid := asid) hb htb
    have hc : s.readEntry (pteAddr b + 8 * tableIndex 1 va) = .ok c := by
      rw [tableIndex_below (by decide), ← hframe]; exact hrc
    refine ⟨fun hl => hok3 _ (hok2 _ (walkFrom_leaf (by decide) hc hl)),
      fun h1 h2 => herr3 _ (herr2 _ (walkFrom_bad hc (fun _ => h1) (fun _ => h2))), fun htc hrd => ?_⟩
    obtain ⟨herr1, hok1⟩ := walkFrom_table (asid := asid) hc htc
    have hd : s.readEntry (pteAddr c + 8 * tableIndex 0 va) = .ok d := by
      rw [tableIndex_below (by decide), ← hframe]; exact hrd
    exact ⟨fun hl => hok3 _ (hok2 _ (hok1 _ (walkFrom_leaf (by decide) hd hl))),
      fun h1 => herr3 _ (herr2 _ (herr1 _ (walkFrom_bad hd (fun h => absurd rfl h) (fun _ => h1))))⟩

end Sys2Proof.Machine
end

section
/-! PROOF. Where S's accesses trap or meet an uncorrectable error (O25). -/
namespace Sys2Proof.Machine
open Sys2Proof

/-! ## The three instructions when their access stops -/

section
variable {s : State} {f : S64} {x : Stop}

theorem runS_stop {len : Nat} {g : Option Guard} {on off : M Issue} (h : Turn.Ready .S s)
    (hg : ∀ y, g = some y → s.view.guard y = true) (he : on s = .error x) : runS len g on off s = settleStop s (.error x) := by
  rw [runS, runOwn_next .S _ s h.live h.turn, issueS_error h.room hg he]

theorem settleStop_trap (h : s.curEng = .S) (y : Trap) : settleStop s (.error (.trap y)) = .next (s.takeTrap .S s.st.pc y) := by
  rw [← h]; rfl

theorem settleStop_machine (h : s.curEng = .S) (kind pa : Nat) :
    settleStop s (.error (.machine kind pa)) = .next (s.machineCheck s.wk 0 kind pa s.st.pc) := by
  have : s.curEng.code = 0 := by rw [h]; rfl
  rw [← this]; rfl

/-- The state in which an `sst` makes its access. -/
def State.sstReady (s : State) (f : S64) : State := if f.mod5.getLsbD 4 then s.release 3 else s

theorem sstReady_wk : (s.sstReady f).wk = s.wk := by
  unfold State.sstReady; split
  · exact release_wk s 3
  · rfl

theorem sstReady_cx : (s.sstReady f).cxOf (s.sstReady f).wk = s.cxOf s.wk := by
  unfold State.sstReady; split
  · exact release_cx s 3
  · rfl

theorem release_ln (n : Nat) : (s.release n).ln = s.ln := by
  rw [State.ln, release_wk, State.launch, State.release, (releaseAs_fields s n false).2.2.2.2.1]; rfl

theorem sstReady_ln : (s.sstReady f).ln = s.ln := by
  unfold State.sstReady; split
  · exact release_ln 3
  · rfl

theorem sstReady_writeCheck (ws : List (Place × List (BitVec 8))) : (s.sstReady f).writeCheck ws = s.writeCheck ws := by
  unfold State.sstReady; split
  · exact writeCheck_same (release_three_badSectors s) (release_badLocal s 3) ws
  · rfl

theorem sld_stop (h : Turn.Ready .S s) (hg : s.view.guard f.g = true)
    (hx : loadS (effective f s.wk) (widthBytes f.mod5.toNat) s = .error x) : exec (.sld f) s = settleStop s (.error x) := by
  rw [exec_sld, execSld]
  exact runS_stop h (by simpa using hg) (m_bind_error hx)

theorem sst_stop (h : Turn.Ready .S s) (hg : s.view.guard f.g = true)
    (hx : storeS (effective f s.wk) (toBytes (s.wk.sget f.d.toNat).toNat (widthBytes f.mod5.toNat)) (s.sstReady f) = .error x) :
    exec (.sst f) s = settleStop s (.error x) := by
  rw [exec_sst, execSst]
  apply runS_stop h (by simpa using hg)
  unfold State.sstReady at hx
  cases hb : f.mod5.getLsbD 4 with
  | true => rw [hb] at hx; exact (m_bind_ok (m_change _ s)).trans (m_bind_error hx)
  | false => rw [hb] at hx; exact m_bind_error hx

theorem samo_stop (h : Turn.Ready .S s)
    (hx : placeOf s.wk.agent (effective f s.wk) (amoBytes f) .atomic none (samoRights (f.mod5.toNat % 16) (amoBytes f)) (.ok ()) s =
      .error x) : exec (.samo f) s = settleStop s (.error x) := by
  have hop : bits f.mod5.toNat 0 4 = f.mod5.toNat % 16 := by simp [bits_eq]
  rw [exec_samo, execSamo]
  apply runS_stop h (by simp)
  simp only [hop]
  exact m_bind_error hx

end

/-! ## Where an access stops -/

section
variable {s : State} {va n : Nat} {x : Stop}

theorem loadS_place (h : placeOf s.wk.agent va n .load none (sldRights n) (.ok ()) s = .error x) : loadS va n s = .error x := by
  unfold loadS
  rw [m_bind_ok (m_look _ s), m_bind_error h]

theorem storeS_place {l : List (BitVec 8)} (h : placeOf s.wk.agent va l.length .store none sstRights (.ok ()) s = .error x) :
    storeS va l s = .error x := by
  unfold storeS
  rw [m_bind_ok (m_look _ s), m_bind_error h]

/-- An address that leads nowhere (R95, R147). -/
theorem windowOf_lost {cx : Cx} (rights : Place → Bool) (h : 2 ^ 57 ≤ va ∨ inWindows va = true ∧ windowPlace cx va = none) :
    windowOf cx rights va = .error (.fault 8) := by
  unfold windowOf
  rcases h with h | ⟨h1, h2⟩
  · rw [if_pos h]
  · split
    · rfl
    · simp only [h2]

/-- A window that does not allow the access. -/
theorem windowOf_denied {cx : Cx} {rights : Place → Bool} {p : Place} (h57 : va < 2 ^ 57) (h1 : inWindows va = true)
    (h2 : windowPlace cx va = some p) (h3 : rights p = false) : windowOf cx rights va = .error (.fault 9) := by
  unfold windowOf
  rw [if_neg (Nat.not_le.mpr h57), if_pos h1, h2]
  simp only [h3, Bool.false_eq_true, if_false]

theorem windowOf_translated {cx : Cx} (rights : Place → Bool) (h57 : va < 2 ^ 57) (h1 : inWindows va = false) :
    windowOf cx rights va = .ok none := by
  unfold windowOf
  rw [if_neg (Nat.not_le.mpr h57), h1]; rfl

theorem windowOf_allowed {cx : Cx} {rights : Place → Bool} {p : Place} (h57 : va < 2 ^ 57) (h1 : inWindows va = true)
    (h2 : windowPlace cx va = some p) (h3 : rights p = true) : windowOf cx rights va = .ok (some p) := by
  unfold windowOf
  rw [if_neg (Nat.not_le.mpr h57), if_pos h1, h2]
  simp only [h3, if_true]

/-- The addresses of a window (R147). -/
theorem window_range {k : Nat} (h1 : 0x1F0 ≤ k) (h2 : k ≤ 0x1FF) (h : va / 2 ^ 48 = k) : va < 2 ^ 57 ∧ inWindows va = true := by
  subst h
  refine ⟨by omega, ?_⟩
  simp only [inWindows, Nat.shiftRight_eq_div_pow, Bool.and_eq_true, decide_eq_true_eq]
  exact ⟨h1, h2⟩

theorem windowPlace_cell {cx : Cx} (h : va / 2 ^ 48 = 0x1F2) (ho : va % 2 ^ 48 < 0x100000) :
    windowPlace cx va = some (.cell (workerKey cx.lid cx.wid) (va % 2 ^ 48 / 32) (va % 2 ^ 48 % 32)) := by
  unfold windowPlace
  rw [Nat.shiftRight_eq_div_pow, h]
  simp only [if_pos ho]

theorem windowPlace_knot {cx : Cx} (h : va / 2 ^ 48 = 0x1F4) (hp : windowPlace cx va ≠ none) :
    ∃ key k, windowPlace cx va = some (.knot key k) := by
  unfold windowPlace at hp ⊢
  rw [Nat.shiftRight_eq_div_pow, h] at hp ⊢
  simp only at hp ⊢
  split at hp
  · rename_i hc
    rw [if_pos hc]
    exact ⟨_, _, rfl⟩
  · exact absurd rfl hp

theorem windowPlace_spad {cx : Cx} (h : va / 2 ^ 48 = 0x1F0) (ho : va % 2 ^ 48 < 0x80000) :
    windowPlace cx va = some (.spad (workerKey cx.lid cx.wid) (va % 2 ^ 48)) := by
  unfold windowPlace
  rw [Nat.shiftRight_eq_div_pow, h]
  simp only [if_pos ho]

/-- A conflict that the detector finds (R258, R297). -/
theorem detect_conflict {p : Place} {slot : Option Nat} {st : Bool} (h1 : s.ln.det = true) (h2 : s.ln.detOff = false)
    (h : s.ln.detect s.wk.task st p n = none) : detectAt va slot st p n s = .error (.trap ⟨0x0B, 0, va, slot⟩) := by
  have hsec : (sectorsOf p n).isEmpty = false := by
    cases hs : sectorsOf p n with
    | nil =>
      unfold Launch.detect at h
      rw [h1, h2, hs] at h
      cases h
    | cons a r => rfl
  have h1' : (s.launch s.wk.lid).det = true := h1
  have h2' : (s.launch s.wk.lid).detOff = false := h2
  have h' : (s.launch s.wk.lid).detect s.wk.task st p n = none := h
  unfold detectAt detectIn
  simp only [m_bind, m_look, id_eq, h1', h2', hsec, Bool.not_true, Bool.or_self, Bool.false_eq_true, if_false, h', m_trap]

theorem resolve_task {cx : Cx} {ag : Agent} {acc : Acc} {p : Phys} {u : State} (h : s.resolve ag cx va acc = .ok (p, u)) :
    u.wk.task = s.wk.task := by
  obtain ⟨hw, hl, hk, _⟩ := resolve_same h
  unfold State.wk
  rw [worker_of_workers hw, hk]

theorem loadS_conflict {p : Phys} {u : State} (h1 : va < 2 ^ 57) (h2 : inWindows va = false) (h3 : va % n = 0)
    (hd : s.ln.det = true) (ho : s.ln.detOff = false) (hr : s.resolve s.wk.agent (s.cxOf s.wk) va .load = .ok (p, u))
    (hc : s.ln.detect s.wk.task false (.phys p) n = none) : loadS va n s = .error (.trap ⟨0x0B, 0, va, none⟩) := by
  have hln := resolve_ln hr
  unfold loadS
  rw [m_bind_ok (m_look _ s), m_bind_ok (placeOf_phys h1 h2 h3 hr)]
  exact m_bind_error (detect_conflict (hln ▸ hd) (hln ▸ ho) (by rw [hln, resolve_task hr]; exact hc))

theorem storeS_conflict {l : List (BitVec 8)} {p : Phys} {u : State} (h1 : va < 2 ^ 57) (h2 : inWindows va = false)
    (h3 : va % l.length = 0) (hd : s.ln.det = true) (ho : s.ln.detOff = false)
    (hr : s.resolve s.wk.agent (s.cxOf s.wk) va .store = .ok (p, u))
    (hc : s.ln.detect s.wk.task true (.phys p) l.length = none) : storeS va l s = .error (.trap ⟨0x0B, 0, va, none⟩) := by
  have hln := resolve_ln hr
  unfold storeS
  rw [m_bind_ok (m_look _ s), m_bind_ok (placeOf_phys h1 h2 h3 hr)]
  exact m_bind_error (detect_conflict (hln ▸ hd) (hln ▸ ho) (by rw [hln, resolve_task hr]; exact hc))

theorem loadS_machine {p : Place} {kind pa : Nat} (h1 : inWindows va = true) (h2 : windowPlace (s.cxOf s.wk) va = some p)
    (h3 : sldRights n p = true) (h4 : va % n = 0) (hp : ∀ q, p ≠ .phys q) (hc : s.readCheck p n = some (.machine kind pa)) :
    loadS va n s = .error (.machine kind pa) := by
  unfold loadS
  rw [m_bind_ok (m_look _ s), m_bind_ok (placeOf_window h1 h2 h3 h4), m_bind_ok (detect_window hp)]
  unfold readAt
  rw [m_bind_ok (m_look _ s), id_eq, hc]
  rfl

theorem storeS_machine {l : List (BitVec 8)} {p : Place} {kind pa : Nat} (h1 : inWindows va = true)
    (h2 : windowPlace (s.cxOf s.wk) va = some p) (h3 : sstRights p = true) (h4 : va % l.length = 0) (hp : ∀ q, p ≠ .phys q)
    (hc : s.writeCheck [(p, l)] = some (.machine kind pa)) : storeS va l s = .error (.machine kind pa) := by
  unfold storeS
  rw [m_bind_ok (m_look _ s), m_bind_ok (placeOf_window h1 h2 h3 h4), m_bind_ok (detect_window hp)]
  unfold storeAllM
  rw [m_bind_ok (m_look _ s), id_eq]
  refine m_bind_error ?_
  unfold writeAs
  rw [m_bind_ok (m_look _ s), id_eq, hc]
  rfl

end

/-! ## The traps of an access -/

section
variable {s : State} {f : S64} {c : Nat}

/-- The trap of an access at its address. -/
def State.accessTrap (s : State) (f : S64) (c : Nat) : Host.Outcome State Fault Refusal :=
  .next (s.takeTrap .S s.st.pc ⟨c, 0, effective f s.wk, none⟩)

theorem sld_window (h : Turn.Ready .S s) (hg : s.view.guard f.g = true)
    (hw : windowOf (s.cxOf s.wk) (sldRights (widthBytes f.mod5.toNat)) (effective f s.wk) = .error (.fault c)) :
    exec (.sld f) s = s.accessTrap f c := by
  rw [sld_stop h hg (loadS_place (placeOf_fault hw)), settleStop_trap h.turn]; rfl

theorem sst_window (h : Turn.Ready .S s) (hg : s.view.guard f.g = true)
    (hw : windowOf (s.cxOf s.wk) sstRights (effective f s.wk) = .error (.fault c)) : exec (.sst f) s = s.accessTrap f c := by
  rw [sst_stop h hg (storeS_place (placeOf_fault (by rw [sstReady_cx]; exact hw))), settleStop_trap h.turn]; rfl

theorem samo_window (h : Turn.Ready .S s)
    (hw : windowOf (s.cxOf s.wk) (samoRights (f.mod5.toNat % 16) (amoBytes f)) (effective f s.wk) = .error (.fault c)) :
    exec (.samo f) s = s.accessTrap f c := by
  rw [samo_stop h (placeOf_fault hw), settleStop_trap h.turn]; rfl

theorem sld_unaligned {o : Option Place} (h : Turn.Ready .S s) (hg : s.view.guard f.g = true)
    (hw : windowOf (s.cxOf s.wk) (sldRights (widthBytes f.mod5.toNat)) (effective f s.wk) = .ok o)
    (ha : effective f s.wk % widthBytes f.mod5.toNat ≠ 0) : exec (.sld f) s = s.accessTrap f 0x0A := by
  rw [sld_stop h hg (loadS_place (placeOf_unaligned hw ha)), settleStop_trap h.turn]; rfl

theorem sst_unaligned {o : Option Place} (h : Turn.Ready .S s) (hg : s.view.guard f.g = true)
    (hw : windowOf (s.cxOf s.wk) sstRights (effective f s.wk) = .ok o)
    (ha : effective f s.wk % widthBytes f.mod5.toNat ≠ 0) : exec (.sst f) s = s.accessTrap f 0x0A := by
  rw [sst_stop h hg (storeS_place (placeOf_unaligned (by rw [sstReady_cx]; exact hw) (by rw [toBytes_length]; exact ha))),
    settleStop_trap h.turn]
  rfl

theorem samo_unaligned {o : Option Place} (h : Turn.Ready .S s)
    (hw : windowOf (s.cxOf s.wk) (samoRights (f.mod5.toNat % 16) (amoBytes f)) (effective f s.wk) = .ok o)
    (ha : effective f s.wk % amoBytes f ≠ 0) : exec (.samo f) s = s.accessTrap f 0x0A := by
  rw [samo_stop h (placeOf_unaligned hw ha), settleStop_trap h.turn]; rfl

/-- The own scratchpad and every translated address allow every access of S. -/
theorem windowOf_open {cx : Cx} {rights : Place → Bool} {va : Nat} (hr : ∀ key k, rights (.spad key k) = true)
    (h : va < 2 ^ 57 ∧ inWindows va = false ∨ va / 2 ^ 48 = 0x1F0 ∧ va % 2 ^ 48 < 0x80000) : ∃ o, windowOf cx rights va = .ok o := by
  rcases h with ⟨h57, hw⟩ | ⟨h1, h2⟩
  · exact ⟨none, windowOf_translated rights h57 hw⟩
  · obtain ⟨h57, hw⟩ := window_range (by decide) (by decide) h1
    exact ⟨_, windowOf_allowed h57 hw (windowPlace_spad h1 h2) (hr _ _)⟩

/-- A knot takes no `samo` but the 32-bit add (R97). -/
theorem samoRights_knot {key k : Nat} (h : f.mod5 ≠ 0) : samoRights (f.mod5.toNat % 16) (amoBytes f) (.knot key k) = false := by
  have hne : f.mod5.toNat ≠ 0 := fun h0 => h (BitVec.eq_of_toNat_eq (by simpa using h0))
  simp only [samoRights, amoBytes, BitVec.getLsbD, Nat.testBit_eq_decide_div_mod_eq, Bool.and_eq_false_iff, beq_eq_false_iff_ne]
  by_cases h16 : f.mod5.toNat % 16 = 0
  · have hb : f.mod5.toNat / 2 ^ 4 % 2 = 1 := by have := f.mod5.isLt; omega
    norm_num at hb; simp [hb]
  · exact Or.inl h16

end

/-- Settles O25: each check of R159 has its own trap; an uncorrectable sector is a machine check. -/
theorem scalarAccessFaults : Obligations.ScalarAccessFaults := by
  unfold Obligations.ScalarAccessFaults
  refine ⟨fun s f h hg => ?_, fun s f off kind pa h hg => ?_⟩
  · intro ea n m trap
    refine ⟨fun hl => ?_, fun h2 ho => ?_, fun h4 hp => ?_, fun ho => ?_, fun h57 hw => ?_⟩
    · exact ⟨sld_window h hg (windowOf_lost _ hl), sst_window h hg (windowOf_lost _ hl), samo_window h (windowOf_lost _ hl)⟩
    · obtain ⟨h57, hw⟩ := window_range (by decide) (by decide) h2
      have hp := windowPlace_cell (cx := s.cxOf s.wk) h2 ho
      exact ⟨sst_window h hg (windowOf_denied h57 hw hp rfl), samo_window h (windowOf_denied h57 hw hp rfl),
        fun hn => sld_window h hg (windowOf_denied h57 hw hp (beq_eq_false_iff_ne.mpr hn))⟩
    · obtain ⟨h57, hw⟩ := window_range (by decide) (by decide) h4
      obtain ⟨key, k, hp⟩ := windowPlace_knot h4 hp
      exact ⟨sst_window h hg (windowOf_denied h57 hw hp rfl),
        fun hn => sld_window h hg (windowOf_denied h57 hw hp (beq_eq_false_iff_ne.mpr hn)),
        fun hn => samo_window h (windowOf_denied h57 hw hp (samoRights_knot hn))⟩
    · refine ⟨fun ha => ?_, fun ha => ?_⟩
      · obtain ⟨o, hl⟩ := windowOf_open (cx := s.cxOf s.wk) (rights := sldRights (widthBytes f.mod5.toNat)) (fun _ _ => rfl) ho
        obtain ⟨q, hs⟩ := windowOf_open (cx := s.cxOf s.wk) (rights := sstRights) (fun _ _ => rfl) ho
        exact ⟨sld_unaligned h hg hl ha, sst_unaligned h hg hs ha⟩
      · obtain ⟨o, hl⟩ := windowOf_open (cx := s.cxOf s.wk) (rights := samoRights (f.mod5.toNat % 16) (amoBytes f)) (fun _ _ => rfl) ho
        exact samo_unaligned h hl ha
    · intro t
      have ht : t = s.sstReady f := rfl
      have hlen : ∀ v, (toBytes v (widthBytes f.mod5.toNat)).length = widthBytes f.mod5.toNat := fun v => toBytes_length v _
      have hopen : ∀ cx rights, windowOf cx rights (effective f s.wk) = .ok none := fun cx rights => windowOf_translated rights h57 hw
      have hstore : ∀ r, t.resolve (.core s.wk.core) (s.cxOf s.wk) ea .store = r →
          (s.sstReady f).resolve (s.sstReady f).wk.agent ((s.sstReady f).cxOf (s.sstReady f).wk) (effective f s.wk) .store = r := by
        intro r hr
        rw [sstReady_cx, sstReady_wk, ← ht]; exact hr
      refine ⟨fun c => ⟨fun ha hr => ?_, fun ha hr => ?_, fun ha hr => ?_⟩, fun p u hd hoff => ⟨fun ha hr hc => ?_, fun ha hr hc => ?_⟩⟩
      · exact (sld_stop h hg (loadS_place (placeOf_tlbfault (hopen _ _) ha hr))).trans (settleStop_trap h.turn _)
      · exact (sst_stop h hg (storeS_place (placeOf_tlbfault (hopen _ _) (by rw [hlen]; exact ha) (hstore _ hr)))).trans
          (settleStop_trap h.turn _)
      · exact (samo_stop h (placeOf_tlbfault (hopen _ _) ha hr)).trans (settleStop_trap h.turn _)
      · exact (sld_stop h hg (loadS_conflict h57 hw ha hd hoff hr hc)).trans (settleStop_trap h.turn _)
      · refine (sst_stop h hg (storeS_conflict h57 hw (by rw [hlen]; exact ha) (by rw [sstReady_ln]; exact hd)
          (by rw [sstReady_ln]; exact hoff)
          (hstore _ hr) ?_)).trans (settleStop_trap h.turn _)
        rw [sstReady_ln, sstReady_wk, hlen]
        exact hc
  · intro n p hea hin hal
    have hcases := widthBytes_cases f.mod5.toNat
    obtain ⟨hwin, hplace⟩ := spad_window s off n hin (Nat.pow_pos (by decide))
    have hmod : (0x1F0 * 2 ^ 48 + off) % n = 0 := spadAddr_aligned hcases hal
    rw [← hea] at hwin hplace hmod
    refine ⟨fun hc => ?_, fun hc => ?_⟩
    · exact (sld_stop h hg (loadS_machine hwin hplace rfl hmod (by simp) hc)).trans (settleStop_machine h.turn kind pa)
    · refine (sst_stop h hg (storeS_machine hwin (by rw [sstReady_cx]; exact hplace) rfl (by rw [toBytes_length]; exact hmod)
        (by simp) ?_)).trans (settleStop_machine h.turn kind pa)
      rw [sstReady_writeCheck]
      exact hc

end Sys2Proof.Machine
end

section
/-! PROOF. Stores read back, what a load sees, and the records of writes (O26). -/
namespace Sys2Proof.Machine
open Sys2Proof

/-! ## Stores -/

theorem worker?_modWorker {s : State} {k : Nat} {w : Worker} (f : Worker → Worker) (h : s.worker? k = some w) :
    (s.modWorker k f).worker? k = some (f w) ∧ ∀ j, j ≠ k → (s.modWorker k f).worker? j = s.worker? j := by
  unfold State.modWorker
  rw [h]
  exact ⟨tabFind_put_self _ _ _, fun j hj => tabFind_put_ne _ _ _ _ hj⟩

theorem writeAll_phys (s : State) (p : Phys) (l : List Byte) :
    s.writeAll [(.phys p, l)] = (s.sweep [(.phys p, l)]).putBytes p p.addr l := rfl

theorem writeAll_spad (s : State) (k off : Nat) (l : List Byte) : s.writeAll [(.spad k off, l)] =
    (s.sweep [(.spad k off, l)]).modWorker k fun w => { w with spad := w.spad.writeBytes off l } := rfl

theorem physByte_writeAll_spad (s : State) (k off a : Nat) (l : List Byte) :
    (s.writeAll [(.spad k off, l)]).physByte a = s.physByte a := by
  obtain ⟨h1, h2⟩ := modWorker_mem (s.sweep [(.spad k off, l)]) k fun w => { w with spad := w.spad.writeBytes off l }
  rw [writeAll_spad]
  unfold State.physByte
  rw [h1, h2]
  rfl

/-! ## Edits of a line -/

/-- A line with `w` bits from bit `sh` put anew, as its three parts. -/
theorem putEdit_parts (sh w x v : Nat) :
    (Edit.put sh w x).run v = 2 ^ sh * (2 ^ w * (v / 2 ^ (sh + w)) + x % 2 ^ w) + v % 2 ^ sh := by
  have hv : v = 2 ^ sh * (2 ^ w * (v / 2 ^ (sh + w)) + v / 2 ^ sh % 2 ^ w) + v % 2 ^ sh := by
    have h1 : v / 2 ^ (sh + w) = v / 2 ^ sh / 2 ^ w := by rw [pow_add, Nat.div_div_eq_div_mul]
    rw [h1, Nat.div_add_mod, Nat.div_add_mod]
  have hsub : v - 2 ^ sh * (v / 2 ^ sh % 2 ^ w) = 2 ^ sh * (2 ^ w * (v / 2 ^ (sh + w))) + v % 2 ^ sh := by
    rw [Nat.mul_add (2 ^ sh)] at hv
    omega
  show v - bits v sh w <<< sh + (x % 2 ^ w) <<< sh = _
  rw [Nat.shiftLeft_eq, Nat.shiftLeft_eq, bits_eq, Nat.mul_comm _ (2 ^ sh), Nat.mul_comm (x % 2 ^ w), hsub]
  ring

theorem testBit_putEdit (sh w x v k : Nat) :
    ((Edit.put sh w x).run v).testBit k = if sh ≤ k ∧ k < sh + w then x.testBit (k - sh) else v.testBit k := by
  rw [putEdit_parts, Nat.testBit_two_pow_mul_add _ (Nat.mod_lt _ (by positivity))]
  by_cases h1 : k < sh
  · rw [if_pos h1, if_neg (by omega), Nat.testBit_mod_two_pow]
    simp [h1]
  · rw [if_neg h1, Nat.testBit_two_pow_mul_add _ (Nat.mod_lt _ (by positivity))]
    by_cases h2 : k - sh < w
    · rw [if_pos h2, if_pos (by omega), Nat.testBit_mod_two_pow]
      simp [h2]
    · rw [if_neg h2, if_neg (by omega), Nat.testBit_div_two_pow]
      congr 1
      omega

/-! ## Sums of cells -/

theorem cellV_cellOf (v fl : Nat) : cellV (cellOf v fl) = v % 2 ^ 240 := by
  simp only [cellV, cellOf, BitVec.toNat_ofNat, Nat.shiftLeft_eq]
  omega

theorem cellFlags_cellOf (v fl : Nat) : cellFlags (cellOf v fl) = fl % 32 := by
  simp only [cellFlags, cellOf, BitVec.toNat_ofNat, Nat.shiftLeft_eq, bits_eq]
  omega

theorem cellOf_mod (v fl : Nat) : cellOf (v % 2 ^ 240) fl = cellOf v fl := by
  simp only [cellOf, Nat.mod_mod]

theorem addCellPair_cellOf (c : BitVec 256) (v fl : Nat) (h : fl < 32) :
    addCellPair c (cellOf v fl) = cellOf (cellV c + v) (cellFlags c ||| fl) := by
  unfold addCellPair
  rw [cellV_cellOf, cellFlags_cellOf, Nat.mod_eq_of_lt h, ← cellOf_mod, Nat.add_mod_mod, cellOf_mod]

theorem cellV_zero : cellV 0 = 0 := by simp [cellV]
theorem cellFlags_zero : cellFlags 0 = 0 := by simp [cellFlags, bits]

/-- Admitting a term adds the cell that the term alone makes (R80, R81). -/
theorem addCellPair_admitTerm (anchor : Int) (x : XReal) (c : BitVec 256) :
    addCellPair c (admitTerm anchor x 0) = admitTerm anchor x c := by
  unfold admitTerm
  simp only [cellV_zero, cellFlags_zero, Nat.zero_or, Nat.zero_add]
  cases x with
  | nan => exact (addCellPair_cellOf c 0 1 (by decide)).trans rfl
  | inf neg => cases neg <;> exact (addCellPair_cellOf c 0 _ (by decide)).trans rfl
  | fin neg m e st =>
    dsimp only
    by_cases h0 : (cutAt m e anchor).2.1 = 0
    · simp only [if_pos h0]
      split
      · rw [addCellPair_cellOf _ _ _ (by decide)]; rfl
      · rw [addCellPair_cellOf _ _ _ (by decide), Nat.or_zero]
    · simp only [if_neg h0]
      split
      · rw [addCellPair_cellOf _ _ _ (by decide), Nat.or_assoc]; rfl
      · rw [addCellPair_cellOf _ _ _ (by decide)]

theorem addEdit_run (anchor : Int) (x : XReal) (c : BitVec 256) :
    (Edit.add (admitTerm anchor x 0)).run c.toNat = (admitTerm anchor x c).toNat := by
  show (addCellPair (BitVec.ofNat 256 c.toNat) (admitTerm anchor x 0)).toNat = _
  rw [BitVec.ofNat_toNat, BitVec.setWidth_eq, addCellPair_admitTerm]

/-! ## What an agent cannot miss -/

theorem reach_orders (v : Reach) (core : Nat) (a : Acquired) : v.orders core a = true ↔
    if v.core = core then 1 ≤ v.scope ∧ v.time < a.core
    else if dieOf v.core = dieOf core then 2 ≤ v.scope ∧ v.time < a.die else 3 ≤ v.scope ∧ v.time < a.dev := by
  unfold Reach.orders span Acquired.atLeast
  split
  · simp
  · split <;> simp

theorem write_before (u : Write) (core : Nat) (a : Acquired) : u.before core a = true ↔
    u.done = true ∨ (∃ t, u.shown = some t ∧ t < a.core) ∨
      ∃ v ∈ u.reach,
        if v.core = core then 1 ≤ v.scope ∧ v.time < a.core
        else if dieOf v.core = dieOf core then 2 ≤ v.scope ∧ v.time < a.die else 3 ≤ v.scope ∧ v.time < a.dev := by
  simp only [Write.before, Bool.or_eq_true, List.any_eq_true, reach_orders, Option.any_eq_true, decide_eq_true_eq, or_assoc]
  exact or_congr_right or_comm

theorem who_owns (w : Who) (u : Write) : w.owns u = true ↔ (∃ e, w.doer = .strand e) ∧ u.who = some w := by
  unfold Who.owns Who.isStrand
  cases w.doer <;> simp

theorem reader_must (r : Reader) (u : Write) : r.must u = true ↔
    ((∃ e, r.who.doer = .strand e) ∧ u.who = some r.who) ∨ r.who ∈ u.seenBy ∨
      u.before r.core (if u.kind = .so then ⟨max r.so r.acq.core, max r.so r.acq.die, max r.so r.acq.dev⟩ else r.acq) = true := by
  simp only [Reader.must, Bool.or_eq_true, who_owns, List.contains_iff_mem, or_assoc]
  rfl

/-! ## Looks -/

/-- What is left of a log is one list. -/
theorem kept_counted {f : Write → Bool} {b : Bool} {l k : List Write} (h : Kept f b l k) : k = counted f b l := by
  induction h with
  | none sum => rfl
  | keep sum u hu _ ih =>
    have : (f u || sum && !u.edit.isAdd) = true := by simpa using hu
    rw [counted, if_pos this, ih]
  | miss sum u hu _ ih =>
    have : ¬ (f u || sum && !u.edit.isAdd) = true := by simpa using hu
    rw [counted, if_neg this, ih]

theorem mem_lineLog {s : State} {x : Spot} {l : Nat} {u : Write} (h : u ∈ s.lineLog x l) : u ∈ s.writes :=
  (List.mem_filter.mp h).1

/-- A record that an access has seen is marked. -/
theorem looked_marks {s : State} {r : Reader} {p : Place} {n l b : Nat} {x : Spot} {u : Write} (hp : p.line? = some (x, l, b))
    (hu : u ∈ counted (s.sees r) false (s.lineLog x l)) (hm : u.edit.meets b n = true) (ho : r.who.owns u = false) :
    u.seen r.who s.tick ∈ (s.looked r p n).writes := by
  have hid : u.id ∈ seenIds r.who b n (counted (s.sees r) false (s.lineLog x l)) :=
    List.mem_map.mpr ⟨u, List.mem_filter.mpr ⟨hu, by simp [hm, ho]⟩, rfl⟩
  have hw : u ∈ s.writes := mem_lineLog (mem_counted _ _ u hu)
  simp only [State.looked, hp, State.markSeen]
  rw [if_neg (by intro he; rw [List.isEmpty_iff.mp he] at hid; cases hid)]
  exact List.mem_map.mpr ⟨u, hw, if_pos (List.contains_iff_mem.mpr hid)⟩

theorem seen_seenBy (u : Write) (w : Who) (tick : Nat) : w ∈ (u.seen w tick).seenBy ∧ ∀ y ∈ u.seenBy, y ∈ (u.seen w tick).seenBy := by
  unfold Write.seen
  dsimp only
  split
  · rename_i h
    exact ⟨List.contains_iff_mem.mp h, fun y hy => hy⟩
  · exact ⟨List.mem_cons_self, fun y hy => List.mem_cons_of_mem _ hy⟩

/-! ## Records -/

theorem noteDone_mem (s : State) (o : Nat) (spot : Spot) (l : List Byte) :
    ∀ u ∈ (s.noteDone spot o l).writes, u ∈ s.writes ∨ u.done = true := by
  unfold State.noteDone
  split
  · exact fun u hu => .inl hu
  · generalize lineParts o l = parts
    suffices h : ∀ (t : State), (∀ u ∈ t.writes, u ∈ s.writes ∨ u.done = true) →
        ∀ u ∈ (parts.foldl (fun s p => if (s.lineLog spot p.1).isEmpty then s
          else s.record ⟨none, 0, [], true⟩ .rc spot p.1 (putBytesEdit p.2.2 p.2.1)) t).writes, u ∈ s.writes ∨ u.done = true from
      h s fun u hu => .inl hu
    induction parts with
    | nil => exact fun t ht => ht
    | cons p r ih =>
      intro t ht
      refine ih _ ?_
      dsimp only
      split
      · exact ht
      · intro u hu
        rcases List.mem_cons.mp hu with rfl | hu
        · exact .inr rfl
        · exact ht u hu

/-- Settles O26: each part is a fact about one operation of memory, of a line, or of the record of writes. -/
theorem storesReadBackAndKeepTheRest : Obligations.StoresReadBackAndKeepTheRest := by
  unfold Obligations.StoresReadBackAndKeepTheRest
  refine ⟨fun s p l => ?_, fun s p n => ?_, fun r u core a => ?_, fun s r p n l b x k hp hk u hu hm ho => ?_, fun s a p l => ?_⟩
  · refine ⟨fun a => ?_, putBytes_workers p l _ _, fun m o a => Memory.read_writeBytes l m o a, fun k off w hw => ?_⟩
    · exact physByte_putBytes p l _ _ a
    · obtain ⟨h1, h2⟩ := worker?_modWorker (s := s.sweep [(.spad k off, l)]) (fun w => { w with spad := w.spad.writeBytes off l }) hw
      exact ⟨h1, h2, fun a => physByte_writeAll_spad s k off a l⟩
  · exact ⟨fun r => look_mayFind s r p n, rfl, fun r h => look_clear r p n h, fun sh w x v k => testBit_putEdit sh w x v k,
      addEdit_run⟩
  · exact ⟨reader_must r u, write_before u core a⟩
  · obtain ⟨h1, h2⟩ := seen_seenBy u r.who s.tick
    exact ⟨looked_marks hp (kept_counted hk ▸ hu) hm ho, h1, h2, rfl, rfl⟩
  · refine ⟨fun hp => ?_, fun x k b hp => ?_, fun o spot => noteDone_mem s o spot l⟩
    · simp only [State.noteWrites, List.foldl_cons, List.foldl_nil, State.recordAt, hp]
    · simp only [State.noteWrites, List.foldl_cons, List.foldl_nil, State.recordAt, hp]
      by_cases hk : p.kind = .so
      · simp only [if_pos hk]
        exact ⟨_, rfl, rfl, rfl, rfl, rfl, rfl, rfl, rfl, rfl, rfl, rfl, fun h => absurd hk h, fun _ => ⟨_, rfl⟩⟩
      · simp only [if_neg hk]
        exact ⟨_, rfl, rfl, rfl, rfl, rfl, rfl, rfl, rfl, rfl, rfl, rfl, fun _ => rfl, fun h => absurd h hk⟩

end Sys2Proof.Machine
end

section
/-! PROOF. What S's accesses leave unchanged (O27). -/
namespace Sys2Proof.Machine
open Sys2Proof

/-! ## A translation does not turn on the record of writes -/

section
variable (s : State) (l : List Write)

theorem readEntry_writes (a : Nat) : ({ s with writes := l } : State).readEntry a = s.readEntry a := rfl

theorem walkFrom_writes (asid va level table : Nat) :
    ({ s with writes := l } : State).walkFrom asid va level table = s.walkFrom asid va level table := by
  induction level generalizing table with
  | zero => rfl
  | succ level ih => simp only [State.walkFrom, readEntry_writes, ih]

theorem lookup_writes (ag : Agent) (cx : Cx) (va : Nat) : ({ s with writes := l } : State).lookup ag cx va = s.lookup ag cx va := by
  have hw : ∀ t, ({ s with writes := l } : State).walk t cx va = s.walk t cx va := fun t => by
    unfold State.walk
    cases t.table cx.asid va <;> exact walkFrom_writes s l _ _ _ _
  have ht : ({ s with writes := l } : State).tlb ag = s.tlb ag := by cases ag <;> rfl
  have hd : ({ s with writes := l } : State).dieFind ag cx.asid va = s.dieFind ag cx.asid va := by cases ag <;> rfl
  simp only [State.lookup, hw, ht, hd]

theorem translate_writes (ag : Agent) (cx : Cx) (va : Nat) (acc : Acc) :
    ({ s with writes := l } : State).translate ag cx va acc = s.translate ag cx va acc := by
  have hf : ∀ p, ({ s with writes := l } : State).placeFault p = s.placeFault p := fun p => rfl
  simp only [State.translate, lookup_writes, hf]

end

/-- The place of an access is the same after a release that writes back nothing. -/
theorem resolve_release {s : State} {ag : Agent} {cx : Cx} {va : Nat} {acc : Acc} {p : Phys} {u : State}
    (h : (s.release 3).resolve ag cx va acc = .ok (p, u)) : ∃ v, s.resolve ag cx va acc = .ok (p, v) := by
  have hr : s.release 3 = { s with writes := (s.releaseTo s.curKey s.curEng s.st.pos 3 false).writes } := by
    rw [State.release, State.releaseAs, ← releaseTo_same]; rfl
  unfold State.resolve at h ⊢
  rw [hr, translate_writes] at h
  cases ht : s.translate ag cx va acc with
  | error x => rw [ht] at h; cases h
  | ok r =>
    rw [ht] at h
    simp only [Except.ok.injEq, Prod.mk.injEq] at h
    exact ⟨_, by rw [← h.1]⟩

/-! ## The place of an access -/

/-- Where an access of S goes: through a window, or to the place that its translation gives. -/
def State.Reaches (s : State) (va : Nat) (acc : Acc) (p : Place) : Prop :=
  (inWindows va = true ∧ windowPlace (s.cxOf s.wk) va = some p) ∨
    inWindows va = false ∧ ∃ q u, p = .phys q ∧ s.resolve s.wk.agent (s.cxOf s.wk) va acc = .ok (q, u)

theorem placeOf_reaches {s t : State} {va size : Nat} {acc : Acc} {rights : Place → Bool} {p : Place}
    (h : placeOf s.wk.agent va size acc none rights (.ok ()) s = .ok (p, t)) :
    s.Reaches va acc p ∧ (rights p = true ∨ ∃ q, p = .phys q) := by
  unfold placeOf placeIn at h
  simp only [m_bind, m_look, id_eq] at h
  cases hw : windowOf (s.cxOf s.wk) rights va with
  | error e => rw [hw] at h; cases e <;> simp [M.access] at h
  | ok win =>
    rw [hw] at h
    cases ha : aligned va size with
    | error e => rw [ha] at h; cases e <;> simp [M.access] at h
    | ok _ =>
      rw [ha] at h
      simp only [M.access, m_pure] at h
      unfold windowOf at hw
      split at hw
      · cases hw
      · split at hw
        · rename_i hin
          cases hp : windowPlace (s.cxOf s.wk) va with
          | none => rw [hp] at hw; cases hw
          | some q =>
            rw [hp] at hw
            simp only at hw
            split at hw
            · rename_i hr
              cases hw
              simp only [m_pure, Except.ok.injEq, Prod.mk.injEq] at h
              obtain ⟨rfl, _⟩ := h
              exact ⟨.inl ⟨hin, hp⟩, .inl hr⟩
            · cases hw
        · rename_i hin
          cases hw
          simp only [m_bind] at h
          cases hr : s.resolve s.wk.agent (s.cxOf s.wk) va acc with
          | error e => rw [hr] at h; cases e <;> simp at h
          | ok r =>
            rw [hr] at h
            simp only [m_pure, m_change, Except.ok.injEq, Prod.mk.injEq] at h
            obtain ⟨rfl, _⟩ := h
            exact ⟨.inr ⟨by simpa using hin, r.1, r.2, rfl, hr⟩, .inr ⟨_, rfl⟩⟩

/-! ## What a worker keeps -/

/-- `x` is `w` but for the scratchpad bytes of `S`, the knots of `K`, and how its strands stand in the text. -/
structure AccessKept (S K : Nat → Nat → Prop) (k : Nat) (w x : Worker) : Prop where
  spad : ∀ a, ¬ S k a → x.spad.read a = w.spad.read a
  knot : ∀ j, ¬ K k j → x.knot j = w.knot j
  held : x.sregs = w.sregs ∧ x.vregs = w.vregs ∧ x.masks = w.masks ∧ x.images = w.images ∧ x.q14 = w.q14 ∧ x.q15 = w.q15 ∧
    x.tokens = w.tokens ∧ x.cells = w.cells ∧ x.counters = w.counters ∧ x.active = w.active ∧ x.shadow = w.shadow ∧
    x.banks = w.banks
  strand : ∀ e, (x.strands.get e).view = (w.strands.get e).view ∧ (x.strands.get e).confq = (w.strands.get e).confq ∧
    (x.strands.get e).stack = (w.strands.get e).stack

section
variable {S K : Nat → Nat → Prop} {k : Nat} {w x : Worker}

theorem AccessKept.of_strands (hs : ∀ e, (x.strands.get e).view = (w.strands.get e).view ∧
    (x.strands.get e).confq = (w.strands.get e).confq ∧ (x.strands.get e).stack = (w.strands.get e).stack)
    (h1 : x.spad = w.spad) (h2 : x.knots = w.knots)
    (h : x.sregs = w.sregs ∧ x.vregs = w.vregs ∧ x.masks = w.masks ∧ x.images = w.images ∧ x.q14 = w.q14 ∧ x.q15 = w.q15 ∧
      x.tokens = w.tokens ∧ x.cells = w.cells ∧ x.counters = w.counters ∧ x.active = w.active ∧ x.shadow = w.shadow ∧
      x.banks = w.banks) : AccessKept S K k w x :=
  ⟨fun _ _ => by rw [h1], fun _ _ => by rw [Worker.knot, h2]; rfl, h, hs⟩

/-- A strand put anew with its view, its configuration writes and its blocks. -/
theorem AccessKept.setStrand {e : Eng} {t : Strand} (h : t.view = (w.strands.get e).view ∧ t.confq = (w.strands.get e).confq ∧
    t.stack = (w.strands.get e).stack) : AccessKept S K k w (w.setStrand e t) := by
  refine .of_strands (fun d => ?_) rfl rfl ⟨rfl, rfl, rfl, rfl, rfl, rfl, rfl, rfl, rfl, rfl, rfl, rfl⟩
  by_cases hd : d = e
  · subst hd
    rw [setStrand_get]
    exact h
  · have : (w.setStrand e t).strands.get d = w.strands.get d := get_set_ne _ _ _ _ hd
    rw [this]
    exact ⟨rfl, rfl, rfl⟩

theorem accessKept_rel (S K : Nat → Nat → Prop) : FrameRel (AccessKept S K) where
  refl _ _ := .of_strands (fun _ => ⟨rfl, rfl, rfl⟩) rfl rfl ⟨rfl, rfl, rfl, rfl, rfl, rfl, rfl, rfl, rfl, rfl, rfl, rfl⟩
  trans _ _ _ _ h g := by
    obtain ⟨a1, a2, a3, a4, a5, a6, a7, a8, a9, a10, a11, a12⟩ := h.held
    obtain ⟨b1, b2, b3, b4, b5, b6, b7, b8, b9, b10, b11, b12⟩ := g.held
    exact ⟨fun a ha => (g.spad a ha).trans (h.spad a ha), fun j hj => (g.knot j hj).trans (h.knot j hj),
      ⟨b1.trans a1, b2.trans a2, b3.trans a3, b4.trans a4, b5.trans a5, b6.trans a6, b7.trans a7, b8.trans a8, b9.trans a9,
        b10.trans a10, b11.trans a11, b12.trans a12⟩,
      fun e => ⟨(g.strand e).1.trans (h.strand e).1, (g.strand e).2.1.trans (h.strand e).2.1, (g.strand e).2.2.trans (h.strand e).2.2⟩⟩
  trapped _ _ _ _ _ := .of_strands (fun e => by cases e <;> exact ⟨rfl, rfl, rfl⟩) rfl rfl
    ⟨rfl, rfl, rfl, rfl, rfl, rfl, rfl, rfl, rfl, rfl, rfl, rfl⟩
  done _ _ := .of_strands (fun _ => ⟨rfl, rfl, rfl⟩) rfl rfl ⟨rfl, rfl, rfl, rfl, rfl, rfl, rfl, rfl, rfl, rfl, rfl, rfl⟩
  issued _ _ _ _ _ _ := .setStrand ⟨rfl, rfl, rfl⟩
  acted _ _ _ _ _ := .setStrand ⟨rfl, rfl, rfl⟩

/-- Bytes written to a scratchpad. -/
theorem AccessKept.writeSpad {o : Nat} {l : List Byte} (h : ∀ a, o ≤ a → a < o + l.length → S k a) :
    AccessKept S K k w { w with spad := w.spad.writeBytes o l } :=
  ⟨fun a ha => by rw [Memory.read_writeBytes, if_neg (fun hb => ha (h a hb.1 hb.2))], fun _ _ => rfl,
    ⟨rfl, rfl, rfl, rfl, rfl, rfl, rfl, rfl, rfl, rfl, rfl, rfl⟩, fun _ => ⟨rfl, rfl, rfl⟩⟩

/-- An add to a knot through its window. -/
theorem AccessKept.addKnot {j : Nat} {n : BitVec 32} {err : Bool} {far : List Nat} (h : K k j) :
    AccessKept S K k w { w.addKnot j n err with farKnots := far } := by
  refine ⟨fun _ _ => rfl, fun i hi => ?_, ⟨rfl, rfl, rfl, rfl, rfl, rfl, rfl, rfl, rfl, rfl, rfl, rfl⟩, fun e => ?_⟩
  · have : i ≠ j := fun hij => hi (hij ▸ h)
    exact (knot_setKnot w j i _).trans (if_neg this)
  · cases e <;> exact ⟨rfl, rfl, rfl⟩

end

/-! ## The actions of the three instructions -/

section
variable {A : Nat → Prop} {P : Nat → Worker → Worker → Prop}

/-- Dirty bytes that go home change no byte that is read. -/
theorem Frame.flushAllPool (hp : FrameRel P) (s : State) : Frame A P s s.flushAllPool :=
  ⟨fun hs a _ => physByte_flushPool s _ _ a hs, fun _ => hp.refl _ _, fun hs => flushPool_dirty s _ _ hs, rfl, rfl⟩

theorem Frame.releaseAs (hp : FrameRel P) (s : State) (n : Nat) (un : Bool) : Frame A P s (s.releaseAs n un) := by
  unfold State.releaseAs
  dsimp only
  split
  · exact Frame.trans hp (Frame.releaseTo hp s _ _ _ _ _) (Frame.flushAllPool hp _)
  · exact Frame.releaseTo hp s _ _ _ _ _

theorem Frame.release (hp : FrameRel P) (s : State) (n : Nat) : Frame A P s (s.release n) := Frame.releaseAs hp s n false

theorem framed_loadS (hp : FrameRel P) (va n : Nat) : Framed A P (loadS va n) :=
  framed_bind hp (framed_look hp _) fun _ => framed_bind hp (framed_placeOf hp _ _ _ _ _ _ _) fun _ =>
    framed_bind hp (framed_detect hp _ _ _ _ _) fun _ => framed_readAt hp _ _

/-- A store goes to the place of its address alone. -/
theorem framedAt_storeS (hp : FrameRel P) {s : State} {va : Nat} {l : List Byte}
    (h : ∀ p, s.Reaches va .store p → sstRights p = true ∨ (∃ q, p = .phys q) → Allowed A P p l.length) :
    FramedAt A P s (storeS va l) := by
  refine framedAt_look (framedAt_bind hp fun p t hpt => ?_)
  obtain ⟨hr, hs⟩ := placeOf_reaches hpt
  refine ⟨framed_placeOf hp _ _ _ _ _ _ _ s p t hpt, framedAt_of (framed_bind hp (framed_detect hp _ _ _ _ _) fun _ => ?_)⟩
  exact framed_storeAll hp _ fun w hw => by
    obtain rfl := List.mem_singleton.mp hw
    exact h p hr hs

theorem framed_atomicAt (hp : FrameRel P) {scope n op x y : Nat} {p : Place} (hk : ∀ key k, p = .knot key k → ∀ w,
    P key w { w.addKnot k (BitVec.ofNat 32 x) false with
      farKnots := if w.farKnots.contains k then w.farKnots else k :: w.farKnots })
    (h : Allowed A P p n) : Framed A P (atomicAt scope p n op x y) := by
  have rest : Framed A P (do
      let old ← readNewest p n
      let s ← M.look id
      writeAs { s.strandAuthor with reach := s.atomicReach p scope } [(p, toBytes (atomicNew op (8 * n) old x y) n)]
      pure old) := by
    refine framed_bind hp (framed_readNewest hp _ _) fun old => framed_bind hp (framed_look hp _) fun s => ?_
    refine framed_bind hp (framed_writeAs hp _ _ fun w hw => ?_) fun _ => framed_pure hp _
    obtain rfl := List.mem_singleton.mp hw
    rw [toBytes_length]
    exact h
  cases p with
  | knot key k =>
    exact framed_bind hp (framed_look hp _) fun s => framed_bind hp
      (framed_change fun s => Frame.modWorker hp fun w => hk key k rfl w) fun _ => framed_pure hp _
  | spad key off => exact rest
  | cell key i b => exact rest
  | phys q => exact rest

end

/-! ## The bytes and knots that an access may change -/

/-- The bytes of memory behind an access of `n` bytes. -/
def State.atBytes (s : State) (ea : Nat) (acc : Acc) (n a : Nat) : Prop :=
  ∃ p u, inWindows ea = false ∧ s.resolve (.core s.wk.core) (s.cxOf s.wk) ea acc = .ok (p, u) ∧ p.addr ≤ a ∧ a < p.addr + n

/-- The bytes of a scratchpad behind it. -/
def State.atSpad (s : State) (ea n k a : Nat) : Prop :=
  ∃ off, inWindows ea = true ∧ windowPlace (s.cxOf s.wk) ea = some (.spad k off) ∧ off ≤ a ∧ a < off + n

/-- The knot behind it. -/
def State.atKnot (s : State) (ea k j : Nat) : Prop := inWindows ea = true ∧ windowPlace (s.cxOf s.wk) ea = some (.knot k j)

section
variable {s t : State} {f : S64} {ea n : Nat} {acc : Acc} {p : Place} {K : Nat → Nat → Prop}

/-- What an access reaches it may write, but for a cell. -/
theorem allowed_reached (h : s.Reaches ea acc p) (hc : ∀ k i b, p ≠ .cell k i b) :
    Allowed (s.atBytes ea acc n) (AccessKept (s.atSpad ea n) K) p n := by
  rcases h with ⟨hin, hp⟩ | ⟨hin, q, u, rfl, hr⟩
  · cases p with
    | spad k o => exact fun l w hl => .writeSpad fun a h1 h2 => ⟨o, hin, hp, h1, by omega⟩
    | cell k i b => exact hc k i b rfl
    | knot k j => trivial
    | phys q =>
      unfold windowPlace at hp
      dsimp only at hp
      split at hp <;> first | cases hp | (split at hp <;> cases hp)
  · exact fun a h1 h2 => ⟨q, u, hin, hr, h1, h2⟩

theorem sld_frame (h : exec (.sld f) s = .next t) :
    Frame (s.atBytes ea acc n) (AccessKept (s.atSpad ea n) K) s t := by
  have hp := accessKept_rel (s.atSpad ea n) K
  rw [exec_sld, execSld] at h
  refine fr_runS hp (framedAt_of (framed_bind hp (framed_loadS hp _ _) fun v => ?_)) h
  split
  · exact framed_bind hp (framed_change fun s => Frame.acquire hp s 3) fun _ => framed_pure hp _
  · exact framed_pure hp _

/-- The places of a store are the same after its release. -/
theorem reaches_sstReady (h : (s.sstReady f).Reaches ea .store p) : s.Reaches ea .store p := by
  unfold State.Reaches at h ⊢
  rw [sstReady_cx, sstReady_wk] at h
  rcases h with h | ⟨hin, q, u, hq, hr⟩
  · exact .inl h
  · unfold State.sstReady at hr
    split at hr
    · obtain ⟨v, hv⟩ := resolve_release hr
      exact .inr ⟨hin, q, v, hq, hv⟩
    · exact .inr ⟨hin, q, u, hq, hr⟩

theorem sst_frame (hn : n = widthBytes f.mod5.toNat) (h : exec (.sst f) s = .next t) :
    Frame (s.atBytes (effective f s.wk) .store n) (AccessKept (s.atSpad (effective f s.wk) n) K) s t := by
  have hp := accessKept_rel (s.atSpad (effective f s.wk) n) K
  have hstore : FramedAt (s.atBytes (effective f s.wk) .store n) (AccessKept (s.atSpad (effective f s.wk) n) K) (s.sstReady f)
      (storeS (effective f s.wk) (toBytes (s.wk.sget f.d.toNat).toNat (widthBytes f.mod5.toNat))) := by
    refine framedAt_storeS hp fun p hr hs => ?_
    rw [toBytes_length, ← hn]
    refine allowed_reached (reaches_sstReady hr) fun k i b hb => ?_
    subst hb
    rcases hs with hs | ⟨q, hq⟩
    · cases hs
    · cases hq
  rw [exec_sst, execSst] at h
  refine fr_runS hp ?_ h
  unfold State.sstReady at hstore
  cases hb : f.mod5.getLsbD 4 with
  | true =>
    rw [hb] at hstore
    refine framedAt_bind hp fun a t ht => ?_
    obtain rfl : s.release 3 = t := congrArg Prod.snd (Except.ok.inj ht)
    exact ⟨Frame.release hp s 3, framedAt_bind1 hp hstore fun _ => framed_pure hp _⟩
  | false =>
    rw [hb] at hstore
    exact framedAt_bind1 hp hstore fun _ => framed_pure hp _

theorem samo_frame (hn : n = amoBytes f) (h : exec (.samo f) s = .next t) : Frame (s.atBytes (effective f s.wk) .atomic n)
      (AccessKept (s.atSpad (effective f s.wk) n) (s.atKnot (effective f s.wk))) s t := by
  subst hn
  have hp := accessKept_rel (s.atSpad (effective f s.wk) (amoBytes f)) (s.atKnot (effective f s.wk))
  rw [exec_samo, execSamo] at h
  refine fr_runS hp (framedAt_bind hp fun p u hpu => ⟨framed_placeOf hp _ _ _ _ _ _ _ s p u hpu, framedAt_of ?_⟩) h
  obtain ⟨hr, hs⟩ := placeOf_reaches hpu
  have hcell : ∀ k i b, p ≠ .cell k i b := by
    intro k i b hb
    subst hb
    rcases hs with hs | ⟨q, hq⟩
    · cases hs
    · cases hq
  have hallow : Allowed (s.atBytes (effective f s.wk) .atomic (amoBytes f))
      (AccessKept (s.atSpad (effective f s.wk) (amoBytes f)) (s.atKnot (effective f s.wk))) (p.atScope (bits f.g.gp.toNat 0 3)) (amoBytes f) := by
    have := allowed_reached (n := amoBytes f) (K := s.atKnot (effective f s.wk)) hr hcell
    cases p with
    | phys q => exact this
    | spad k o => exact this
    | cell k i b => exact this
    | knot k j => exact this
  have hknot : ∀ key k, p.atScope (bits f.g.gp.toNat 0 3) = .knot key k → s.atKnot (effective f s.wk) key k := by
    intro key k hk
    cases p with
    | knot a b =>
      cases hk
      rcases hr with hr | ⟨_, q, _, hq, _⟩
      · exact hr
      · cases hq
    | phys q => cases hk
    | spad a b => cases hk
    | cell a b c => cases hk
  have hat := framed_atomicAt (scope := bits f.g.gp.toNat 0 3) (op := bits f.mod5.toNat 0 4)
    (x := (s.wk.sget f.d.toNat).toNat % 2 ^ (8 * amoBytes f)) (y := (s.wk.sget (f.d.toNat + 1)).toNat % 2 ^ (8 * amoBytes f))
    hp (fun key k hk w => .addKnot (hknot key k hk)) hallow
  have rest := framed_bind hp hat (f := fun old => do
    if f.g.gn then M.change fun s => s.acquire (bits f.g.gp.toNat 0 3) else pure ()
    pure (Issue.after 2 [.sreg f.d.toNat (BitVec.ofNat 64 old)])) fun old => by
      split
      · exact framed_bind hp (framed_change fun s => Frame.acquire hp s _) fun _ => framed_pure hp _
      · exact framed_pure hp _
  dsimp only
  by_cases hk : p.isKnot = true
  · rw [if_pos hk]
    exact framed_bind hp (framed_change fun s => Frame.release hp s _) fun _ => rest
  · rw [if_neg hk]
    by_cases hrel : f.g.gp.getLsbD 3 = true
    · rw [if_pos hrel]
      exact framed_bind hp (framed_change fun s => Frame.release hp s _) fun _ => rest
    · rw [if_neg hrel]
      exact rest

end

/-- Settles O27: every answer of an access keeps a frame that leaves out only the bytes and the knot behind its address. -/
theorem scalarAccessFrame : Obligations.ScalarAccessFrame := by
  unfold Obligations.ScalarAccessFrame
  intro s t f i acc n hdirty hi hex ea
  have hframe : Frame (s.atBytes ea acc n) (AccessKept (s.atSpad ea n) fun k j => i = .samo f ∧ s.atKnot ea k j) s t := by
    rcases hi with ⟨rfl, rfl, hn⟩ | ⟨rfl, rfl, hn⟩ | ⟨rfl, rfl, hn⟩
    · exact sld_frame hex
    · exact sst_frame hn hex
    · have hk : (fun k j => (Instr.samo f = .samo f) ∧ s.atKnot ea k j) = s.atKnot ea := by funext k j; simp
      rw [hk]
      exact samo_frame hn hex
  refine ⟨fun a ha => hframe.mem hdirty a fun ⟨p, u, h1, h2, h3⟩ => ha p u h1 h2 h3, fun k a ha => ?_, fun k j hk => ?_, fun k => ?_⟩
  · exact (hframe.wk k).spad a fun ⟨off, h1, h2, h3⟩ => ha off h1 h2 h3
  · exact (hframe.wk k).knot j fun ⟨h1, h2, h3⟩ => hk h1 h2 h3
  · obtain ⟨h1, h2, h3, h4, h5, h6, h7, h8, h9, h10, h11, h12⟩ := (hframe.wk k).held
    exact ⟨h1, h2, h3, h4, h5, h6, h7, h8, h9, h10, h11, h12, (hframe.wk k).strand⟩

end Sys2Proof.Machine
end

section
/-! PROOF. Traps that the program raises, and taking a trap (O29, O30). -/
namespace Sys2Proof.Machine
open Sys2Proof

section
variable {s : State} {g : Guard}

/-! ## brk, strap and privilege -/

theorem runOwn_trapS {act : M Unit} {x : Trap} (hl : s.live = true) (he : s.curEng = .S) (h : act s = .error (.trap x)) :
    runOwn .S act s = .next (s.takeTrap .S s.st.pc x) := by rw [runOwn_trap hl he h, he]

/-- An S instruction with no effect of its own has issued. -/
theorem issueS_nothing (len : Nat) (h : Turn.Ready .S s) : issueS len (some g) M.nothing M.nothing s = .ok ((), s.afterS len 0 []) := by
  have : issueS len (some g) M.nothing M.nothing s = .ok ((), s.setWk (s.wk.setStrand .S (s.wk.strands.s.issued len .none []))) := by
    cases hg : s.view.guard g with
    | true => exact issueS_on h.room (fun _ hx => by cases hx; exact hg) rfl
    | false => exact issueS_off h.room hg rfl
  rw [this]
  simp only [State.afterS, Issue.none, stepped_eq]

theorem afterS_pc (h : s.curEng = .S) : (s.afterS 2 0 []).st.pc = s.st.pc + 4 := by
  have hk : (s.afterS 2 0 []).curEng = .S := h
  rw [State.st, afterS_wk, hk, setStrand_get, State.st, h]
  rfl

theorem execStrap_eq (c : BitVec 10) (h : Turn.Ready .S s) : exec (.strap g c) s =
    .next (if s.view.guard g = false then s.afterS 2 0 []
      else if s.wk.insertion = none then (s.afterS 2 0 []).takeTrap .S (s.st.pc + 4) ⟨0x10, 0, c.toNat, none⟩
      else s) := by
  rw [exec_strap, execStrap]
  cases hg : s.view.guard g with
  | false =>
    rw [if_pos rfl]
    exact runOwn_ok h.live h.turn ((m_bind_ok (m_await_true s)).trans ((m_bind_ok (issueS_nothing 2 h)).trans rfl))
  | true =>
    rw [if_neg (by decide)]
    cases hi : s.wk.insertion with
    | none =>
      rw [if_pos rfl, ← afterS_pc h.turn]
      exact runOwn_ok h.live h.turn ((m_bind_ok (m_await_true s)).trans ((m_bind_ok (issueS_nothing 2 h)).trans rfl))
    | some x =>
      rw [if_neg (by simp)]
      exact runOwn_stall h.live h.turn (m_bind_error (m_await_false s))

theorem privileged_user (h : s.wk.sup.priv = false) : privileged s = .error (.trap ⟨2, 0, 0, none⟩) := by
  unfold privileged
  rw [m_bind_ok (m_look _ s), h]
  rfl

theorem privileged_sup (h : s.wk.sup.priv = true) : privileged s = .ok ((), s) := by
  unfold privileged
  rw [m_bind_ok (m_look _ s), h]
  rfl

end

/-- Settles O29: `brk` and `strap` raise their traps, and a privileged instruction in user mode its own. -/
theorem programTraps : Obligations.ProgramTraps := by
  unfold Obligations.ProgramTraps
  refine ⟨fun s g n c h => ⟨?_, execStrap_eq c h⟩, fun s f h hp => ?_⟩
  · rw [exec_brk, execBrk]
    exact runOwn_trapS h.live h.turn (m_trap _ _ _ _ _)
  · refine ⟨?_, fun hg => ⟨?_, ?_, ?_⟩⟩
    · rw [exec_eret, execEret]
      refine runOwn_trapS h.live h.turn ?_
      rw [hp]
      rfl
    · rw [exec_slaunch, execSlaunch]
      exact runS_trap0 h hg (m_bind_error (privileged_user hp))
    · rw [exec_slaydef, execSlaydef]
      exact runS_trap0 h hg (m_bind_error (privileged_user hp))
    · rw [exec_satinv, execSatinv]
      exact runS_trap0 h hg (m_bind_error (privileged_user hp))

/-! ## Taking a trap -/

section
variable {s : State} {e : Eng} {pc : PAddr} {x : Trap}

/-- The device as a trap finds it: a conflict turns the detector off (R297). -/
def State.detectorOff (s : State) (x : Trap) : State :=
  if x.cause = 0x0B then s.modLaunch s.wk.lid (fun l => { l with detOff := true }) else s

/-- The device once a trap is entered. -/
def State.trapEntered (s : State) (e : Eng) (pc : PAddr) (x : Trap) : State :=
  ((s.performWorker s.curKey 1).setWk (s.wk.trapped e pc x)).acquireS

theorem takeTrap_held (h : s.wk.insertion ≠ none) : s.takeTrap e pc x = s := by
  unfold State.takeTrap
  rw [if_pos (Option.isSome_iff_ne_none.mpr h)]

theorem detectorOff_wk : (s.detectorOff x).wk = s.wk := by
  unfold State.detectorOff; split
  · exact modLaunch_wk s _ _
  · rfl

theorem takeTrap_eq (h : s.wk.insertion = none) : s.takeTrap e pc x =
    if s.wk.sup.tin = true ∨ (s.detectorOff x).headlandAt (s.wk.trapped e pc x) s.wk.sup.tvec = false then
      (((s.detectorOff x).trapEntered e pc x).reportTrap (s.wk.trapped e pc x)).abortLaunch s.wk.lid
    else (s.detectorOff x).trapEntered e pc x := by
  unfold State.takeTrap
  rw [if_neg (by simp [h])]
  rw [show (if x.cause = 0x0B then s.modLaunch s.wk.lid (fun l => { l with detOff := true }) else s) = s.detectorOff x from rfl]
  unfold State.trapEntered
  simp only [detectorOff_wk, Bool.or_eq_true, Bool.not_eq_true']
  rfl

theorem detectorOff_fields : (s.detectorOff x).mem = s.mem ∧ (s.detectorOff x).poolDirty = s.poolDirty ∧
    (s.detectorOff x).workers = s.workers ∧ (s.detectorOff x).curKey = s.curKey ∧ (s.detectorOff x).tick = s.tick ∧
    (s.detectorOff x).writes = s.writes ∧ (s.detectorOff x).reports = s.reports := by
  unfold State.detectorOff State.modLaunch
  split
  · split <;> exact ⟨rfl, rfl, rfl, rfl, rfl, rfl, rfl⟩
  · exact ⟨rfl, rfl, rfl, rfl, rfl, rfl, rfl⟩

/-- S as a trap leaves it. -/
def Worker.atTrap (w : Worker) (e : Eng) (pc : PAddr) (x : Trap) (tick : Nat) : Worker :=
  (w.trapped e pc x).setStrand .S
    { (w.trapped e pc x).strands.s with acq := { w.strands.s.acq with core := tick + 1 } }

/-- The device once a trap is reported that no handler takes. -/
def State.trapReported (s : State) (e : Eng) (pc : PAddr) (x : Trap) : State :=
  State.reportTrap { (s.detectorOff x).setWk (s.wk.atTrap e pc x s.tick) with
    writes := s.writes.map fun u => if u.ofWorker s.curKey then u.perform ⟨s.tick, 1, s.wk.core⟩ else u } (s.wk.trapped e pc x)

theorem trapReported_worker (k : Nat) : (s.trapReported e pc x).worker? k =
    if k = s.curKey then some (s.wk.atTrap e pc x s.tick) else s.worker? k := by
  obtain ⟨_, _, hwks, hkey, _⟩ := detectorOff_fields (s := s) (x := x)
  show tabFind (tabPut (s.detectorOff x).workers (s.detectorOff x).curKey _) k = _
  rw [hwks, hkey]
  by_cases hk : k = s.curKey
  · rw [if_pos hk, hk, tabFind_put_self]
  · rw [if_neg hk, tabFind_put_ne _ _ _ _ hk]; rfl

theorem trapEntered_eq : s.trapEntered e pc x = { s.setWk (s.wk.atTrap e pc x s.tick) with
    writes := s.writes.map fun u => if u.ofWorker s.curKey then u.perform ⟨s.tick, 1, s.wk.core⟩ else u } := by
  unfold State.trapEntered State.acquireS
  rw [modWk_eq, setWk_setWk, setWk_wk]
  rfl

end

/-- The number of a strand in TSTRAND. -/
theorem tstrand_code (e : Eng) : BitVec.ofNat 3 e.code = (match e with
    | .S => 0
    | .L => 1
    | .V => 2
    | .M => 3
    | .W => 4) := by cases e <;> rfl

section
variable {s : State} {lid : Nat}

theorem abortLaunch_worker (k : Nat) : (s.abortLaunch lid).worker? k =
    (s.worker? k).map fun w => if w.lid = lid then { w with status := .done } else w :=
  tabFind_map (fun e => if e.2.lid = lid then { e.2 with status := .done } else e.2) s.workers k

theorem tabFind_modLaunch {l : Launch} (f : Launch → Launch) (h : tabFind s.launches lid = some l) :
    tabFind (s.modLaunch lid f).launches lid = some (f l) := by
  unfold State.modLaunch
  rw [h]
  exact tabFind_put_self _ _ _

theorem abortLaunch_launch {l : Launch} (h : tabFind s.launches lid = some l) :
    tabFind (s.abortLaunch lid).launches lid = some { l with aborting := true, status := 3 } := tabFind_modLaunch _ h

theorem abortLaunch_fields : (s.abortLaunch lid).mem = s.mem ∧ (s.abortLaunch lid).poolDirty = s.poolDirty ∧
    (s.abortLaunch lid).reports = s.reports := by
  unfold State.abortLaunch State.modLaunch
  split <;> exact ⟨rfl, rfl, rfl⟩

end

theorem detectorOff_launch {s : State} {x : Trap} {l : Launch} (h : tabFind s.launches s.wk.lid = some l) :
    tabFind (s.detectorOff x).launches s.wk.lid = some { l with detOff := l.detOff || decide (x.cause = 0x0B) } := by
  unfold State.detectorOff
  by_cases hc : x.cause = 0x0B
  · rw [if_pos hc, tabFind_modLaunch _ h, decide_eq_true hc, Bool.or_true]
  · rw [if_neg hc, decide_eq_false hc, Bool.or_false]
    exact h

theorem cause_word (n : Nat) : (BitVec.ofNat 8 n).zeroExtend 64 = BitVec.ofNat 64 (n % 256) := by
  apply BitVec.eq_of_toNat_eq
  simp

theorem strand_word (e : Eng) : (BitVec.ofNat 3 e.code).zeroExtend 64 = BitVec.ofNat 64 e.code := by cases e <;> rfl

/-- Settles O30: a trap is entered, or aborts the launch, or waits for a `shins`. -/
theorem trapEntry : Obligations.TrapEntry := by
  unfold Obligations.TrapEntry
  refine ⟨fun s e pc x hi => ?_, fun s e pc x hi => takeTrap_held hi⟩
  intro s0 w
  have hs0 : s0 = s.detectorOff x := rfl
  obtain ⟨hmem, hdirty, _, hkey, htick, hwrites, hreports⟩ := detectorOff_fields (s := s) (x := x)
  refine ⟨fun htin hhead => ?_, fun l hl habort hfind => ?_⟩
  · rw [takeTrap_eq hi, if_neg (by rw [← hs0]; simp [htin, hhead, w]), trapEntered_eq, detectorOff_wk, hkey, htick, hwrites, ← hs0]
    cases e <;> rfl
  · have habort' : s.wk.sup.tin = true ∨ (s.detectorOff x).headlandAt (s.wk.trapped e pc x) s.wk.sup.tvec = false := habort
    rw [takeTrap_eq hi, if_pos habort', trapEntered_eq, detectorOff_wk, hkey, htick, hwrites]
    have hwk := worker_of_live s hl
    intro t
    have ht : t = (s.trapReported e pc x).abortLaunch s.wk.lid := rfl
    obtain ⟨hm, hd, hr⟩ := abortLaunch_fields (lid := s.wk.lid) (s := s.trapReported e pc x)
    rw [ht]
    refine ⟨abortLaunch_launch (s := s.trapReported e pc x) (detectorOff_launch hfind), fun k v hv hlid => ?_, fun k v hv hlid => ?_, ?_, hm.trans hmem, hd.trans hdirty⟩
    · rw [abortLaunch_worker] at hv
      obtain ⟨y, _, rfl⟩ := Option.map_eq_some_iff.mp hv
      split
      · rfl
      · rename_i hne
        rw [if_neg hne] at hlid
        exact absurd hlid hne
    · rw [abortLaunch_worker, trapReported_worker, if_neg]
      · rw [hv]
        exact congrArg some (if_neg hlid)
      · intro hk
        subst hk
        rw [hwk] at hv
        cases hv
        exact hlid rfl
    · refine hr.trans ?_
      show (s.detectorOff x).reports ++ _ = _
      rw [hreports]
      simp only [Worker.trapped, cause_word, strand_word]
      rfl

end Sys2Proof.Machine
end

section
/-! PROOF. The return from a trap handler (O31). -/
namespace Sys2Proof.Machine
open Sys2Proof

section
variable {s : State}

/-- The action of `eret`. -/
theorem execEret_run (hp : s.wk.sup.priv = true) :
    exec .eret s = runOwn .S (if s.wk.strands.s.stack.length < s.wk.sup.tdepth ∨ s.wk.sup.tpc.getLsbD 0 = true then M.illegal 1
      else if s.wk.strands.s.pend.isEmpty then M.change State.returned
      else M.change fun s => s.modSt fun t => { t with pend := interlock t.pend }) s := by
  rw [exec_eret, execEret]
  simp only [hp, Bool.not_true, Bool.false_eq_true, if_false]

/-- The worker that R317's return starts from: where S is in no handler it goes on behind the `eret`. -/
def State.leaving (s : State) : Worker :=
  if s.wk.inHandler then s.wk else { s.wk with stopPc := s.st.pc + 2, stopPos := s.st.pos + 1 }

/-- The worker after the return, with no notice. -/
def State.back (s : State) : Worker := { s.leaving.returned.acquireAll s.tick with note := none }

/-- The state after the return, a held notice apart. -/
def State.backed (s : State) : State := (s.releaseAs 3 true).setWk s.back

theorem note_none {w : Worker} (h : w.note = none) : { w with note := none } = w := by
  cases w; cases h; rfl

theorem leaving_fields (s : State) : s.leaving.note = s.wk.note ∧ s.leaving.sup = s.wk.sup ∧ s.leaving.strands = s.wk.strands ∧
    s.leaving.sregs = s.wk.sregs ∧ s.leaving.trapPend = s.wk.trapPend ∧ s.leaving.stopWaits = s.wk.stopWaits := by
  unfold State.leaving; split <;> exact ⟨rfl, rfl, rfl, rfl, rfl, rfl⟩

theorem returned_note (w : Worker) : w.returned.note = w.note := by
  unfold Worker.returned; dsimp only; split <;> rfl

/-- A held notice is taken behind the return (R322). -/
def State.noticed (s : State) (o : Option TrapNote) : State :=
  match o with
  | none => s
  | some _ =>
    let s := s.setWk { s.wk with note := none }
    s.takeTrap .S s.wk.strands.s.pc ⟨0x11, 0, 0, none⟩

theorem returned_noticed (s : State) :
    s.returned = ((s.releaseAs 3 true).setWk (s.leaving.returned.acquireAll s.tick)).noticed s.leaving.note := rfl

theorem returned_eq (s : State) :
    s.returned = if s.wk.note = none then s.backed else s.backed.takeTrap .S s.backed.wk.strands.s.pc ⟨0x11, 0, 0, none⟩ := by
  have hnote : (s.leaving.returned.acquireAll s.tick).note = s.leaving.note := returned_note s.leaving
  rw [returned_noticed, ← (leaving_fields s).1]
  cases hn : s.leaving.note with
  | none =>
    rw [if_pos rfl, State.backed, State.back, note_none (hnote.trans hn)]
    rfl
  | some x =>
    have hback : ((s.releaseAs 3 true).setWk (s.leaving.returned.acquireAll s.tick)).setWk
        { ((s.releaseAs 3 true).setWk (s.leaving.returned.acquireAll s.tick)).wk with note := none } = s.backed := by
      rw [setWk_wk, setWk_setWk]; rfl
    rw [← hback]
    exact (if_neg (c := some x = none) (by simp)).symm

/-! ## The worker after the return -/

theorem engOfCode_S {n : Nat} (h : engOfCode n = .S) : n = 0 := by
  unfold engOfCode at h
  split at h <;> first | rfl | cases h

/-- Every field of the worker that the return does not name stays. -/
theorem returned_same (w : Worker) : w.returned.sup = { w.sup with priv := w.sup.ppriv, tin := false } ∧
    w.returned.inHandler = false ∧ w.returned.sregs = w.sregs ∧ w.returned.stopWaits = w.stopWaits.drop 1 := by
  unfold Worker.returned; dsimp only; split <;> exact ⟨rfl, rfl, rfl, rfl⟩

/-- S after the return (R317). -/
theorem returned_S (w : Worker) : w.returned.strands.s =
    { w.strands.s with
      stack := w.strands.s.stack.drop (w.strands.s.stack.length - w.sup.tdepth), pend := w.trapPend
      wait := w.stopWaits.headD none
      pc := if w.sup.tstrand = 0 then w.sup.tpc else w.stopPc
      pos := if w.sup.tstrand = 0 then movedPos w.stopPos w.stopPc w.sup.tpc else w.stopPos } := by
  unfold Worker.returned
  dsimp only
  by_cases h : w.sup.tstrand = 0
  · simp only [h, beq_self_eq_true, if_true]
  · have hb : (w.sup.tstrand == 0) = false := beq_eq_false_iff_ne.mpr h
    have hne : Eng.S ≠ engOfCode w.sup.tstrand.toNat := fun he =>
      h (BitVec.eq_of_toNat_eq (by simpa using engOfCode_S he.symm))
    simp only [hb, Bool.false_eq_true, if_false, if_neg h]
    exact get_set_ne _ (engOfCode w.sup.tstrand.toNat) .S _ hne

/-- Another strand after the return: at TPC where TSTRAND names it. -/
theorem returned_other (w : Worker) {e : Eng} (he : e ≠ .S) : w.returned.strands.get e = { w.strands.get e with
    pc := if engOfCode w.sup.tstrand.toNat = e then w.sup.tpc else (w.strands.get e).pc
    pos := (w.returned.strands.get e).pos } := by
  have hget : ∀ t, (({ w.strands with s := t } : Five Strand).get e) = w.strands.get e := fun t => by cases e <;> first | rfl | exact absurd rfl he
  unfold Worker.returned
  dsimp only
  by_cases h : w.sup.tstrand = 0
  · have h0 : engOfCode w.sup.tstrand.toNat = .S := by rw [h]; rfl
    simp only [h, beq_self_eq_true, if_true, hget]
    rw [← h, h0, if_neg he.symm]
  · have hb : (w.sup.tstrand == 0) = false := beq_eq_false_iff_ne.mpr h
    simp only [hb, Bool.false_eq_true, if_false]
    by_cases hn : engOfCode w.sup.tstrand.toNat = e
    · rw [hn, if_pos rfl, setStrand_get, hget]
    · have key : ∀ (v : Worker) (t : Strand), (v.setStrand (engOfCode w.sup.tstrand.toNat) t).strands.get e = v.strands.get e :=
        fun v t => get_set_ne v.strands _ _ t (Ne.symm hn)
      rw [if_neg hn, key, hget]

theorem acquireAll_get (w : Worker) (tick : Nat) (e : Eng) : (w.acquireAll tick).strands.get e =
    { w.strands.get e with acq := (w.strands.get e).acq.take 1 tick } := by cases e <;> rfl

theorem acquireAll_S (w : Worker) (tick : Nat) :
    (w.acquireAll tick).strands.s = { w.strands.s with acq := w.strands.s.acq.take 1 tick } := rfl

end

/-- Settles O31: the return is R317's, on the state released and acquired; a held notice is the trap that follows. -/
theorem returnFromTrap : Obligations.ReturnFromTrap := by
  unfold Obligations.ReturnFromTrap
  intro s hl he hp w S
  have hrun := execEret_run hp
  refine ⟨fun hc => ?_, fun hd hodd hpend => ?_, fun hd hodd hpend => ?_⟩
  · have hc' : s.wk.strands.s.stack.length < s.wk.sup.tdepth ∨ s.wk.sup.tpc.getLsbD 0 = true := hc
    rw [hrun, if_pos hc']
    exact runOwn_trapS hl he (m_illegal 1 s)
  · have hc : ¬ (s.wk.strands.s.stack.length < s.wk.sup.tdepth ∨ s.wk.sup.tpc.getLsbD 0 = true) := by
      rintro (h | h)
      · exact absurd h (Nat.not_lt.mpr hd)
      · exact absurd (hodd.symm.trans h) (by decide)
    have hst : s.st = S := by rw [State.st, he]; rfl
    rw [hrun, if_neg hc, if_neg (by rw [List.isEmpty_iff]; exact hpend)]
    refine (runOwn_ok hl he (m_change _ s)).trans ?_
    rw [State.modSt, hst]
    rfl
  · have hc : ¬ (s.wk.strands.s.stack.length < s.wk.sup.tdepth ∨ s.wk.sup.tpc.getLsbD 0 = true) := by
      rintro (h | h)
      · exact absurd h (Nat.not_lt.mpr hd)
      · exact absurd (hodd.symm.trans h) (by decide)
    obtain ⟨hn, hsup, hstrands, hsregs, htrap, hwaits⟩ := leaving_fields s
    obtain ⟨rsup, rin, rsregs, rwaits⟩ := returned_same s.leaving
    have hwk : s.backed.wk = s.back := setWk_wk _ _
    have hS : s.back.strands.s = { s.leaving.returned.strands.s with acq := s.leaving.returned.strands.s.acq.take 1 s.tick } := rfl
    have hget : ∀ e, s.back.strands.get e =
        { s.leaving.returned.strands.get e with acq := (s.leaving.returned.strands.get e).acq.take 1 s.tick } :=
      fun e => acquireAll_get s.leaving.returned s.tick e
    refine ⟨s.backed, ?_, ?_⟩
    · rw [hrun, if_neg hc, if_pos (by rw [List.isEmpty_iff]; exact hpend)]
      exact (runOwn_ok hl he (m_change _ s)).trans (congrArg _ (returned_eq s))
    rw [hwk]
    refine ⟨rsup.trans (by rw [hsup]), rin, rfl, rsregs.trans hsregs, ?_, ?_, ?_, rwaits.trans (by rw [hwaits]), ?_, ?_, ?_, ?_, rfl, ?_⟩
    · rw [hS, returned_S, hstrands, hsup]
    · rw [hS, returned_S, htrap]
    · rw [hS, returned_S, hwaits]
    · rw [hS, returned_S, hstrands]
    · rw [hS, returned_S, hsup]
      unfold State.leaving
      have hst : s.st = S := by rw [State.st, he]; rfl
      rw [hst]
      cases hin : s.wk.inHandler <;> simp only [hin, w, if_true, if_false, Bool.false_eq_true]
    · intro e hne
      rw [hget, returned_other _ hne, hsup, hstrands]
    · intro e hne
      rw [hget, returned_other _ hne, hstrands]
      exact ⟨rfl, rfl⟩
    · intro e
      rw [hget]
      have hacq : (s.leaving.returned.strands.get e).acq = (w.strands.get e).acq := by
        cases e with
        | S => exact (congrArg Strand.acq (returned_S s.leaving)).trans (by rw [hstrands]; rfl)
        | L => rw [returned_other _ (by decide), hstrands]
        | V => rw [returned_other _ (by decide), hstrands]
        | M => rw [returned_other _ (by decide), hstrands]
        | W => rw [returned_other _ (by decide), hstrands]
      rw [hacq]
      rfl

end Sys2Proof.Machine
end

section
/-! PROOF. The privileged instructions that act on memory, in supervisor mode (O28). -/
namespace Sys2Proof.Machine
open Sys2Proof

/-! ## slaunch -/

section
variable {s u : State} {f : S64} {l : List Nat}

theorem execSlaunch_reads (h : Turn.Ready .S s) (hg : s.view.guard f.g = true) (hp : s.wk.sup.priv = true)
    (ha : effective f s.wk % 256 = 0)
    (hr : M.gather (fun i => loadS (effective f s.wk + 8 * i) 8) (upFrom 0 32) s = .ok (l, u)) :
    exec (.slaunch f) s = .next (((u.release 3).launchRecord (l.map (BitVec.ofNat 64))).1.afterS 4 2
      [.sreg f.d.toNat ((u.release 3).launchRecord (l.map (BitVec.ofNat 64))).2]) := by
  rw [exec_slaunch, execSlaunch]
  refine runS_after (i := .after 2 [.sreg f.d.toNat ((u.release 3).launchRecord (l.map (BitVec.ofNat 64))).2]) h hg rfl ?_
  refine (m_bind_ok (privileged_sup hp)).trans ?_
  dsimp only
  rw [if_neg (by rw [ha]; simp)]
  exact (m_bind_ok hr).trans rfl

theorem execSlaunch_faults {x : Trap} (h : Turn.Ready .S s) (hg : s.view.guard f.g = true) (hp : s.wk.sup.priv = true)
    (ha : effective f s.wk % 256 = 0)
    (hr : M.gather (fun i => loadS (effective f s.wk + 8 * i) 8) (upFrom 0 32) s = .error (.trap x)) :
    exec (.slaunch f) s = .next (s.takeTrap .S s.st.pc x) := by
  rw [exec_slaunch, execSlaunch]
  refine runS_trap0 h hg ((m_bind_ok (privileged_sup hp)).trans ?_)
  dsimp only
  rw [if_neg (by rw [ha]; simp)]
  exact m_bind_error hr

theorem execSlaunch_unaligned (h : Turn.Ready .S s) (hg : s.view.guard f.g = true) (hp : s.wk.sup.priv = true)
    (h57 : effective f s.wk < 2 ^ 57) (ha : effective f s.wk % 256 ≠ 0) :
    exec (.slaunch f) s = .next (s.takeTrap .S s.st.pc ⟨0x0A, 0, effective f s.wk, none⟩) := by
  rw [exec_slaunch, execSlaunch]
  refine runS_trap0 h hg ((m_bind_ok (privileged_sup hp)).trans ?_)
  dsimp only
  rw [if_pos ⟨h57, ha⟩]
  rfl

end

section
variable {v : State} {rec : List (BitVec 64)} {q : Nat}

theorem launchRecord_closed (hq : (nth 0 rec 2).toNat / 2 ^ 8 % 64 = q)
    (h : ¬ ((v.headerWord q 1).testBit 18 = true ∧ (v.headerWord q 1).testBit 19 = true)) :
    v.launchRecord rec = (v, BitVec.ofInt 64 (-2)) := by
  have hq' : bits (nth 0 rec 2).toNat 8 6 = q := by rw [bits_eq]; exact hq
  unfold State.launchRecord
  simp only [hq', bit]
  rw [if_pos (by rw [Bool.not_eq_true', ← Bool.not_eq_true, Bool.and_eq_true]; exact h)]

theorem launchRecord_full (hq : (nth 0 rec 2).toNat / 2 ^ 8 % 64 = q)
    (h : (v.headerWord q 1).testBit 18 = true ∧ (v.headerWord q 1).testBit 19 = true)
    (hs : v.headerWord q 1 % 2 ^ 16 ≤ v.headerWord q 2 - v.headerWord q 4) :
    v.launchRecord rec = (v, BitVec.ofInt 64 (-1)) := by
  have hq' : bits (nth 0 rec 2).toNat 8 6 = q := by rw [bits_eq]; exact hq
  have hsize : bits (v.headerWord q 1) 0 16 = v.headerWord q 1 % 2 ^ 16 := by rw [bits_eq, pow_zero, Nat.div_one]
  unfold State.launchRecord
  simp only [hq', bit, hsize]
  rw [if_neg (by simpa using h), if_pos hs]

theorem launchRecord_takes (hq : (nth 0 rec 2).toNat / 2 ^ 8 % 64 = q)
    (h : (v.headerWord q 1).testBit 18 = true ∧ (v.headerWord q 1).testBit 19 = true)
    (hs : v.headerWord q 2 - v.headerWord q 4 < v.headerWord q 1 % 2 ^ 16) :
    v.launchRecord rec =
      (let t := (v.putPhys (v.headerWord q 0 % 2 ^ 57 + 256 * (v.headerWord q 2 % (v.headerWord q 1 % 2 ^ 16))) (bytesOf rec)).putPhys
        (v.header q + 16) (toBytes (v.headerWord q 2 + 1) 8)
      ({ t with queues := tabPut t.queues q (t.readHeader q) }, BitVec.ofNat 64 (q * 2 ^ 57 + v.headerWord q 2))) := by
  have hq' : bits (nth 0 rec 2).toNat 8 6 = q := by rw [bits_eq]; exact hq
  have hsize : bits (v.headerWord q 1) 0 16 = v.headerWord q 1 % 2 ^ 16 := by rw [bits_eq, pow_zero, Nat.div_one]
  have hring : bits (v.headerWord q 0) 0 57 = v.headerWord q 0 % 2 ^ 57 := by rw [bits_eq, pow_zero, Nat.div_one]
  unfold State.launchRecord
  simp only [hq', bit, hsize, hring, Nat.shiftLeft_eq]
  rw [if_neg (by simpa using h), if_neg (Nat.not_le.mpr hs)]
  rfl

end

/-! ## slaydef -/

/-- The record that a `slaydef` writes (R242). -/
def layoutOut (r : List Word) (ctxid : Nat) : List Word := r.set 2 (BitVec.ofNat 64 ((nth 0 r 2).toNat % 2 ^ 32 + ctxid * 2 ^ 32))

/-- The device with the record written and noted for the manifest (R298). -/
def State.layoutWritten (u : State) (at' h : Nat) (out : List Word) : State :=
  let t := u.putPhys at' (bytesOf out)
  t.setWk { t.wk with layoutLog := t.wk.layoutLog ++ [BitVec.ofNat 64 h :: out] }

section
variable {s u : State} {f : S64} {l : List Nat}

theorem execSlaydef_faults {x : Trap} (h : Turn.Ready .S s) (hg : s.view.guard f.g = true) (hp : s.wk.sup.priv = true)
    (ha : (s.wk.sget f.a.toNat).toNat % 64 = 0)
    (hr : M.gather (fun i => loadS ((s.wk.sget f.a.toNat).toNat + 8 * i) 8) (upFrom 0 8) s = .error (.trap x)) :
    exec (.slaydef f) s = .next (s.takeTrap .S s.st.pc x) := by
  rw [exec_slaydef, execSlaydef]
  refine runS_trap0 h hg ((m_bind_ok (privileged_sup hp)).trans ?_)
  dsimp only
  rw [if_neg (by rw [ha]; simp)]
  exact m_bind_error hr

theorem execSlaydef_unaligned (h : Turn.Ready .S s) (hg : s.view.guard f.g = true) (hp : s.wk.sup.priv = true)
    (h57 : (s.wk.sget f.a.toNat).toNat < 2 ^ 57) (ha : (s.wk.sget f.a.toNat).toNat % 64 ≠ 0) :
    exec (.slaydef f) s = .next (s.takeTrap .S s.st.pc ⟨0x0A, 0, (s.wk.sget f.a.toNat).toNat, none⟩) := by
  rw [exec_slaydef, execSlaydef]
  refine runS_trap0 h hg ((m_bind_ok (privileged_sup hp)).trans ?_)
  dsimp only
  rw [if_pos ⟨h57, ha⟩]
  rfl

theorem execSlaydef_reads (h : Turn.Ready .S s) (hg : s.view.guard f.g = true) (hp : s.wk.sup.priv = true)
    (ha : (s.wk.sget f.a.toNat).toNat % 64 = 0)
    (hr : M.gather (fun i => loadS ((s.wk.sget f.a.toNat).toNat + 8 * i) 8) (upFrom 0 8) s = .ok (l, u)) {st : Nat}
    (hst : layoutStatus (s.wk.sup.laytab == 0) (f.imm.toNat % 2 ^ 16) (l.map (BitVec.ofNat 64)) = st) :
    exec (.slaydef f) s = .next ((if st = 0 then u.layoutWritten (s.wk.sup.laytab.toNat + 64 * (f.imm.toNat % 2 ^ 16))
        (f.imm.toNat % 2 ^ 16) (layoutOut (l.map (BitVec.ofNat 64)) s.wk.sup.ctxid.toNat) else u).afterS 4 2
      [.sreg f.d.toNat (BitVec.ofNat 64 st)]) := by
  have himm : bits f.imm.toNat 0 16 = f.imm.toNat % 2 ^ 16 := by rw [bits_eq, pow_zero, Nat.div_one]
  have hw2 : ∀ n, bits n 0 32 = n % 2 ^ 32 := fun n => by rw [bits_eq, pow_zero, Nat.div_one]
  rw [exec_slaydef, execSlaydef]
  refine runS_after (i := .after 2 [.sreg f.d.toNat (BitVec.ofNat 64 st)]) h hg rfl ?_
  refine (m_bind_ok (privileged_sup hp)).trans ?_
  simp only [himm, hw2, Nat.shiftLeft_eq]
  rw [if_neg (by rw [ha]; simp)]
  refine (m_bind_ok hr).trans ?_
  rw [hst]
  by_cases h0 : st = 0
  · rw [if_pos h0, if_pos h0]; rfl
  · rw [if_neg h0, if_neg h0]; rfl

end

section
variable {r : List Word}

/-- Check 1 of R242 fails. -/
theorem layoutFieldsOk_iff : layoutFieldsOk r = false ↔
    (nth 0 r 0).toNat / 2 ^ 57 ≠ 0 ∨ (nth 0 r 1).toNat / 2 ^ 48 ≠ 0 ∨ (nth 0 r 2).toNat / 2 ^ 28 % 8 ≠ 0 ∨
      (nth 0 r 2).toNat / 2 ^ 9 % 2 ^ 7 ≠ 0 ∨ (layoutFurrow r).fieldsOk (layoutFurrow r).format = false ∨
      (layoutFurrow r).base.toNat % max 1 (fmtWidth (layoutFurrow r).format / 8) ≠ 0 := by
  have h0 : bits (nth 0 r 0).toNat 57 7 = (nth 0 r 0).toNat / 2 ^ 57 := by
    rw [bits_eq]; have := (nth 0 r 0).isLt; omega
  have h1 : bits (nth 0 r 1).toNat 48 16 = (nth 0 r 1).toNat / 2 ^ 48 := by
    rw [bits_eq]; have := (nth 0 r 1).isLt; omega
  unfold layoutFieldsOk
  simp only [h0, h1, bits_eq, Bool.and_eq_false_iff, beq_eq_false_iff_ne, or_assoc]
  rfl

/-- Check 2 of R242 fails. -/
theorem layoutInside_iff : layoutInside r = false ↔
    (layoutFurrow r).span.1 < 0 ∨ (((nth 0 r 1).toNat % 2 ^ 48 : Nat) : Int) ≤ (layoutFurrow r).span.2 ∨
      isBlock (layoutFurrow r).format = true ∧
        ((((nth 0 r 7).toNat % 2 ^ 40 : Nat) : Int) + min 0 ((layoutFurrow r).sstride.toInt * (((layoutFurrow r).blocks : Int) - 1)) < 0 ∨
          (((nth 0 r 1).toNat % 2 ^ 48 : Nat) : Int) ≤
            (((nth 0 r 7).toNat % 2 ^ 40 : Nat) : Int) +
              max 0 ((layoutFurrow r).sstride.toInt * (((layoutFurrow r).blocks : Int) - 1))) := by
  have h0 : ∀ v n, bits v 0 n = v % 2 ^ n := fun v n => by rw [bits_eq, pow_zero, Nat.div_one]
  unfold layoutInside
  simp only [h0, Bool.and_eq_false_iff, Bool.or_eq_false_iff, decide_eq_false_iff_not, Int.not_le, Int.not_lt, Bool.not_eq_false',
    or_assoc]

/-- The last byte of the elements of a furrow, its last element's bytes counted (R242). -/
theorem span_last (f : Furrow) : f.span.2 =
    max 0 (f.stride 0 * ((f.extent 0 : Int) - 1)) + max 0 (f.stride 1 * ((f.extent 1 : Int) - 1)) +
      max 0 (f.stride 2 * ((f.extent 2 : Int) - 1)) + max 0 (f.stride 3 * ((f.extent 3 : Int) - 1)) +
      Int.ofNat (if fmtWidth f.format < 8 then (f.extent 0 * fmtWidth f.format + 7) / 8 else fmtWidth f.format / 8) - 1 := by
  unfold Furrow.span ceilDiv
  by_cases h : fmtWidth f.format < 8
  · simp only [if_pos h]; rfl
  · simp only [if_neg h]; rfl

/-- The judgement of an image, check by check. -/
theorem layoutStatus_eq (b : Bool) (h : Nat) : layoutStatus b h r =
    if b = true then 5 else if h = 0xFFFF then 4 else if (nth 0 r 2).toNat.testBit 31 = false then 0
    else if layoutFieldsOk r = false then 1
    else if 2 ^ 57 < (nth 0 r 0).toNat % 2 ^ 57 + (nth 0 r 1).toNat % 2 ^ 48 ∨
      0x01F0000000000000 < (nth 0 r 0).toNat % 2 ^ 57 + (nth 0 r 1).toNat % 2 ^ 48 then 3
    else if layoutInside r = false then 2 else 0 := by
  have h0 : ∀ v n, bits v 0 n = v % 2 ^ n := fun v n => by rw [bits_eq, pow_zero, Nat.div_one]
  unfold layoutStatus
  simp only [h0, bit, Bool.not_eq_true']

end

/-! ## satinv -/

theorem satinvRange_eq (base size : Nat) : satinvRange base size =
    (base / 4096 * 4096, if size = 0 then base / 4096 * 4096 else min (2 ^ 57) ((base + size + 4095) / 4096 * 4096)) := by
  unfold satinvRange ceilDiv
  dsimp only
  split <;> rfl

theorem execSatinv_eq {s : State} {f : S64} (h : Turn.Ready .S s) (hg : s.view.guard f.g = true) (hp : s.wk.sup.priv = true) :
    exec (.satinv f) s = .next (if (s.satinvs.filter fun x => x.key == s.curKey).length < 4 then
      ({ s.release 3 with satinvs := s.satinvs ++
          [⟨s.curKey, (satinvRange (s.wk.sget f.a.toNat).toNat (s.wk.sget f.d.toNat).toNat).1,
            (satinvRange (s.wk.sget f.a.toNat).toNat (s.wk.sget f.d.toNat).toNat).2, f.imm.toNat % 2 ^ 16, f.imm.getLsbD 16,
            f.mod5.toNat⟩] } : State).afterS 4 0 []
      else s) := by
  have himm : bits f.imm.toNat 0 16 = f.imm.toNat % 2 ^ 16 := by rw [bits_eq, pow_zero, Nat.div_one]
  rw [exec_satinv, execSatinv]
  simp only [himm]
  split
  · rename_i hc
    refine runS_after0 h hg ((m_bind_ok (privileged_sup hp)).trans ?_)
    exact (m_bind_ok ((congrArg (fun b => M.await b s) (decide_eq_true hc)).trans (m_await_true s))).trans rfl
  · rename_i hc
    refine runS_stall0 h hg ((m_bind_ok (privileged_sup hp)).trans ?_)
    exact m_bind_error ((congrArg (fun b => M.await b s) (decide_eq_false hc)).trans (m_await_false s))

/-- Settles O28: each instruction reads its image, judges it, and does what the judgement says. -/
theorem supervisorInstructions : Obligations.SupervisorInstructions := by
  unfold Obligations.SupervisorInstructions
  intro s u f l h hg hp a ea reads gives trap put words w
  have hea : ea = effective f s.wk := rfl
  refine ⟨fun hal hr => ?_, fun hal hr => ?_, fun h57 hal => execSlaunch_unaligned h hg hp h57 hal,
    fun h57 hal => execSlaydef_unaligned h hg hp h57 hal,
    fun x => ⟨fun hal hr => execSlaunch_faults h hg hp hal hr, fun hal hr => execSlaydef_faults h hg hp hal hr⟩, ?_⟩
  · intro v q head hw size opened t
    have hrun := execSlaunch_reads h hg hp hal hr
    have hq : (nth 0 (l.map (BitVec.ofNat 64)) 2).toNat / 2 ^ 8 % 64 = q := rfl
    refine ⟨fun ho => ?_, fun ho hs => ?_, fun ho hs => ?_⟩
    · exact hrun.trans (by rw [launchRecord_closed hq ho])
    · exact hrun.trans (by rw [launchRecord_full hq ho hs])
    · exact hrun.trans (by rw [launchRecord_takes hq ho hs]; rfl)
  · intro hh r base size width reach sum last scales off noTable valid bad high outside out t wrote
    have hrun : ∀ {st : Nat}, layoutStatus (s.wk.sup.laytab == 0) hh words = st →
        gives (.slaydef f) (if st = 0 then wrote else u) (BitVec.ofNat 64 st) := fun hst => execSlaydef_reads h hg hp hal hr hst
    have hbad : layoutFieldsOk words = false ↔ bad := layoutFieldsOk_iff
    have hout : layoutInside words = false ↔ outside := layoutInside_iff.trans (by rw [span_last]; rfl)
    have hstatus := layoutStatus_eq (r := words) (s.wk.sup.laytab == 0) hh
    have hno : (s.wk.sup.laytab == 0) = true ↔ noTable := beq_iff_eq
    refine ⟨fun hn => ?_, fun hn hf => ?_, fun hn hf hv => ?_, fun hn hf hv => ⟨fun hb => ?_, fun hb hhi => ?_, fun hb hhi ho => ?_,
      fun hb hhi ho => ?_⟩⟩
    · rw [if_pos (hno.mpr hn)] at hstatus
      exact hrun hstatus
    all_goals rw [if_neg (fun hc => hn (hno.mp hc))] at hstatus
    · rw [if_pos hf] at hstatus
      exact hrun hstatus
    all_goals rw [if_neg hf] at hstatus
    · rw [if_pos (Bool.eq_false_iff.mpr hv)] at hstatus
      exact hrun hstatus
    all_goals rw [if_neg (by rw [Bool.eq_false_iff, not_not]; exact hv)] at hstatus
    · rw [if_pos (hbad.mpr hb)] at hstatus
      exact hrun hstatus
    all_goals rw [if_neg (fun hc => hb (hbad.mp hc))] at hstatus
    · rw [if_pos hhi] at hstatus
      exact hrun hstatus
    all_goals rw [if_neg hhi] at hstatus
    · rw [if_pos (hout.mpr ho)] at hstatus
      exact hrun hstatus
    · rw [if_neg (fun hc => ho (hout.mp hc))] at hstatus
      exact hrun hstatus
  · have hrun := execSatinv_eq h hg hp
    rw [satinvRange_eq] at hrun
    exact hrun

end Sys2Proof.Machine
end

section
/-! PROOF. What a source field gives, and how a landed result reads back (O32). -/
namespace Sys2Proof.Machine
open Sys2Proof

/-! ## Sources -/

section
variable {s : State} {x : BitVec 8} {w : Option Nat}

theorem isV_iff (x : BitVec 8) : isV x = true ↔ x.toNat < 0x80 := decide_eq_true_iff

theorem isQ_iff (x : BitVec 8) : isQ x = true ↔ 0x80 ≤ x.toNat ∧ x.toNat ≤ 0x8F := by
  simp only [isQ, Bool.and_eq_true, decide_eq_true_eq]

theorem isCoord_iff (x : BitVec 8) : isCoord x = true ↔ 0x90 ≤ x.toNat ∧ x.toNat ≤ 0x94 := by
  simp only [isCoord, Bool.and_eq_true, decide_eq_true_eq]

theorem isQ_of_isV (h : isV x = true) : isQ x = false := by
  rw [isV_iff] at h
  rw [Bool.eq_false_iff, ne_eq, isQ_iff]
  omega

theorem readSrc_register (h : isV x = true) :
    readSrc x w s = .ok (.slots (s.vreg x).data.toNat (s.vreg x).scale.toNat (s.vreg x).tag (s.vreg x).map, s) := by
  unfold readSrc
  rw [if_pos h]
  rfl

theorem readSrc_word (h : x = 0x8E) : readSrc x w s = (popWord >>= fun v => pure (.bcast v.toNat)) s := by
  subst h
  unfold readSrc
  rw [if_neg (by decide), if_pos (by decide), if_pos (by decide)]

theorem readSrc_image (h : isQ x = true) (h14 : x ≠ 0x8E) : readSrc x w s = popImage (qNum x) w s := by
  have hv : ¬ isV x = true := by rw [isQ_iff] at h; rw [isV_iff]; omega
  have hq : ¬ qNum x = 14 := fun hq => h14 (BitVec.eq_of_toNat_eq (by
    rw [isQ_iff] at h
    unfold qNum at hq
    have h8 : (0x8E : BitVec 8).toNat = 142 := rfl
    omega))
  unfold readSrc
  rw [if_neg hv, if_pos h, if_neg hq]

theorem readSrc_coord (h : isCoord x = true) : readSrc x w s = .ok (.coord (x.toNat - 0x90), s) := by
  have hc := (isCoord_iff x).mp h
  have hv : ¬ isV x = true := by rw [isV_iff]; omega
  have hq : ¬ isQ x = true := by rw [isQ_iff]; omega
  unfold readSrc
  rw [if_neg hv, if_neg hq, if_pos h]
  rfl

theorem readSrc_imm (h : 0x95 ≤ x.toNat) : readSrc x w s = .ok (.imm (immOf x), s) := by
  have hv : ¬ isV x = true := by rw [isV_iff]; omega
  have hq : ¬ isQ x = true := by rw [isQ_iff]; omega
  have hc : ¬ isCoord x = true := by rw [isCoord_iff]; omega
  unfold readSrc
  rw [if_neg hv, if_neg hq, if_neg hc]
  rfl

theorem popWord_empty (h : s.wk.q14 = []) : popWord s = .error .stall := by
  unfold popWord
  rw [m_bind_ok (m_look _ s), h]
  rfl

theorem popWord_head {v : Word} {l : List Word} (h : s.wk.q14 = v :: l) :
    popWord s = .ok (v, s.setWk { s.wk with q14 := l }) := by
  unfold popWord
  rw [m_bind_ok (m_look _ s), h]
  rfl

theorem peekImage_empty {q : Nat} (h : s.wk.image q = []) : peekImage q 0 s = .error .stall := by
  unfold peekImage
  rw [m_bind_ok (m_look _ s), h]
  rfl

theorem peekImage_head {q : Nat} {e : ImgEntry} {l : List ImgEntry} (h : s.wk.image q = e :: l) :
    peekImage q 0 s = .ok (e, s) := by
  unfold peekImage
  rw [m_bind_ok (m_look _ s), h]
  rfl

/-- Whether an entry has the slots of the shape and the width that is read (R32). -/
def entryFits (e : ImgEntry) (s : State) (w : Option Nat) : Bool :=
  e.count == s.view.shape.slots && (match w with
    | some n => e.width == n
    | none => true)

theorem entryFits_iff (e : ImgEntry) (s : State) (w : Option Nat) :
    entryFits e s w = true ↔ e.count = s.view.shape.slots ∧ ∀ n, w = some n → e.width = n := by
  unfold entryFits
  cases w <;> simp

theorem compareEntry_eq (e : ImgEntry) :
    compareEntry e w s = if entryFits e s w = true then .ok ((), s) else .error (.trap ⟨0x0E, 0, 4, none⟩) := by
  unfold compareEntry entryFits
  rw [m_bind_ok (m_look _ s)]
  cases w <;> (dsimp only; split <;> rfl)

theorem popImage_empty {q : Nat} (h : s.wk.image q = []) : popImage q w s = .error .stall := by
  unfold popImage
  exact m_bind_error (peekImage_empty h)

theorem popImage_fits {q : Nat} {e : ImgEntry} {l : List ImgEntry} (h : s.wk.image q = e :: l) (hf : entryFits e s w = true) :
    popImage q w s = .ok (.slots e.data.toNat e.scale.toNat e.tag e.map, s.setWk (s.wk.setImage q l)) := by
  unfold popImage
  rw [m_bind_ok (peekImage_head h), m_bind_ok ((compareEntry_eq e).trans (if_pos hf)), m_bind_ok (m_change _ s), modWk_eq, h]
  rfl

theorem popImage_misfit {q : Nat} {e : ImgEntry} {l : List ImgEntry} (h : s.wk.image q = e :: l) (hf : ¬ entryFits e s w = true) :
    popImage q w s = .error (.trap ⟨0x0E, 0, 4, none⟩) := by
  unfold popImage
  rw [m_bind_ok (peekImage_head h), m_bind_error ((compareEntry_eq e).trans (if_neg hf))]

end

/-! ## Landed results -/

theorem testBit_overLow (n old new b : Nat) : (overLow n old new).testBit b = if b < n then new.testBit b else old.testBit b := by
  unfold overLow
  rw [Nat.shiftLeft_eq, Nat.mul_comm, Nat.testBit_two_pow_mul_add _ (Nat.mod_lt _ (by positivity))]
  split
  · rename_i h
    rw [Nat.testBit_mod_two_pow]
    simp [h]
  · rename_i h
    rw [Nat.testBit_shiftRight]
    congr 1
    omega

/-- The slot values of a result that keeps the inactive slots of its destination. -/
def State.slotValue (t : State) (f : E64) (d : BitVec 8) (w : Nat) (val : Nat → Nat) (i : Nat) : Nat :=
  if activeIn (t.maskOf f.lo3) i then val i % 2 ^ w
  else if f.zm || isQ d then 0
  else slotOf (t.vreg d).data.toNat w i

theorem slotOf_lt (D w i : Nat) : slotOf D w i < 2 ^ w := Nat.mod_lt _ (by positivity)

section
variable {t : State} {f : E64} {d : BitVec 8} {w g : Nat} {val : Nat → Nat}

/-- Data whose low bits are a packed result reads as its slots. -/
theorem slotOf_took (hw : 0 < w) {D i : Nat} (hi : i < t.view.shape.slots)
    (hD : ∀ b, b < t.view.shape.slots * w → D.testBit b = (t.took f d w val).testBit b) :
    slotOf D w i = t.slotValue f d w val i := by
  rw [slot_pack hw hi D hD]
  unfold State.slotValue
  split
  · rfl
  · split
    · exact Nat.zero_mod _
    · exact Nat.mod_eq_of_lt (slotOf_lt _ _ _)

theorem deliver_register {n sc : Nat} {tag : Option Tag} {m : CMap} (h : isQ d = false) (slots : Nat) :
    t.deliver d n w ⟨slots, sc, tag, m⟩ =
      .vregs [(t.phys d, ⟨BitVec.ofNat 262144 (overLow (n * w) (t.wk.vget (t.phys d)).data.toNat slots), BitVec.ofNat 32768 sc, tag, m⟩)] := by
  unfold State.deliver
  rw [h]
  rfl

theorem deliver_queue {n sc : Nat} {tag : Option Tag} {m : CMap} (h : isQ d = true) (slots : Nat) :
    t.deliver d n w ⟨slots, sc, tag, m⟩ =
      .image (qNum d) ⟨n, w, BitVec.ofNat 262144 (slots % 2 ^ (n * w)), BitVec.ofNat 32768 sc, tag, m, []⟩ := by
  unfold State.deliver
  rw [if_pos h]

/-- A register that a write kills nothing of but a map that named the written one (R43). -/
theorem kill_fields (r : VReg) (p : Nat) : (r.kill [p]).data = r.data ∧ (r.kill [p]).scale = r.scale ∧ (r.kill [p]).tag = r.tag ∧
    (r.kill [p]).map = if r.map.companion = some p then .lost else r.map := by
  refine ⟨rfl, rfl, rfl, ?_⟩
  show r.map.kill [p] = _
  cases r.map with
  | explicit n c k =>
    by_cases hc : c = p
    · simp [CMap.kill, CMap.companion, hc]
    · simp [CMap.kill, CMap.companion, hc]
  | _ => simp [CMap.kill, CMap.companion]

end

/-- Settles O32: each form of a source field is read by its rule, and a landing is read back slot by slot. -/
theorem sourcesAndLandedResults : Obligations.SourcesAndLandedResults := by
  unfold Obligations.SourcesAndLandedResults
  refine ⟨fun s x w => ⟨fun hx => ?_, fun hx => ?_, fun h1 h2 h14 => ?_, fun k hk hx => ?_, fun i h1 h2 hx => ?_⟩,
    fun t f d w sc val tag m hw hfit => ?_⟩
  · exact readSrc_register ((isV_iff x).mpr hx)
  · rw [readSrc_word hx]
    exact ⟨fun h => m_bind_error (popWord_empty h), fun v l h => m_bind_ok (popWord_head h)⟩
  · have hq : isQ x = true := (isQ_iff x).mpr ⟨h1, by omega⟩
    rw [readSrc_image hq h14]
    intro q
    refine ⟨fun h => popImage_empty h, fun e l h => ⟨fun hc hn => ?_, fun hc => ?_⟩⟩
    · exact popImage_fits h ((entryFits_iff e s w).mpr ⟨hc, hn⟩)
    · refine popImage_misfit h fun hf => ?_
      obtain ⟨h3, h4⟩ := (entryFits_iff e s w).mp hf
      rcases hc with hc | ⟨n, hn, hne⟩
      · exact hc h3
      · exact hne (h4 n hn)
  · have hn : x.toNat = 0x90 + k := by rw [hx, BitVec.toNat_ofNat]; omega
    rw [readSrc_coord ((isCoord_iff x).mpr ⟨by omega, by omega⟩), hn, Nat.add_sub_cancel_left]
  · have hn : (x.toNat : Int) = 0xE0 + i := by
      rw [hx, BitVec.toNat_ofInt]
      omega
    rw [readSrc_imm (by omega)]
    unfold immOf
    rw [hn]
    congr 3
    omega
  · intro g act slotVal
    refine ⟨fun hv => ?_, fun hq => ?_⟩
    · intro p u
      have hact : act = _ := deliver_register (isQ_of_isV hv) _
      have hself : u.vget p =
          ⟨BitVec.ofNat 262144 (overLow (g * w) (t.wk.vget p).data.toNat (t.took f d w val)), BitVec.ofNat 32768 sc, tag, m⟩ := by
        show (t.wk.landAct act).vget p = _
        rw [hact]
        exact vget_landVregs_self _ _ _
      have hbit : ∀ b, (BitVec.ofNat 262144 (overLow (g * w) (t.wk.vget p).data.toNat (t.took f d w val))).toNat.testBit b =
          (decide (b < 262144) && if b < g * w then (t.took f d w val).testBit b else (t.wk.vget p).data.toNat.testBit b) := by
        intro b
        rw [BitVec.toNat_ofNat, Nat.testBit_mod_two_pow, testBit_overLow]
      refine ⟨fun i hi => ?_, fun b hb => ?_, congrArg VReg.map hself, congrArg VReg.tag hself, fun q hne => ?_⟩
      · rw [congrArg VReg.data hself]
        refine slotOf_took hw hi fun b hb => ?_
        rw [hbit, if_pos hb, decide_eq_true (lt_of_lt_of_le hb hfit), Bool.true_and]
      · rw [congrArg VReg.data hself]
        by_cases hlt : b < 262144
        · refine (hbit b).trans ?_
          rw [if_neg (Nat.not_lt.mpr hb), decide_eq_true hlt, Bool.true_and]
          rfl
        · rw [BitVec.getLsbD_of_ge _ _ (Nat.not_lt.mp hlt), BitVec.getLsbD_of_ge _ _ (Nat.not_lt.mp hlt)]
      · have hq : u.vget q = (t.wk.vget q).kill [p] := by
          show (t.wk.landAct act).vget q = _
          rw [hact]
          exact vget_landVregs_ne _ _ _ _ hne
        rw [hq]
        exact kill_fields _ p
    · have hact : act = _ := deliver_queue hq _
      refine ⟨_, hact, rfl, rfl, rfl, rfl, fun i hi => ?_⟩
      refine slotOf_took hw hi fun b hb => ?_
      rw [BitVec.toNat_ofNat, Nat.testBit_mod_two_pow, Nat.testBit_mod_two_pow, decide_eq_true (lt_of_lt_of_le hb hfit), Bool.true_and,
        decide_eq_true hb, Bool.true_and]

end Sys2Proof.Machine
end

section
/-! PROOF. Quotients and roots to their last place, and how a marked value rounds (O33). -/
namespace Sys2Proof.Machine
open Sys2Proof

/-! ## Integer square roots -/

theorem isqrtFrom_spec (n k : Nat) : ∀ acc, acc * acc ≤ n → n < (acc + 2 ^ k) * (acc + 2 ^ k) →
    isqrtFrom n k acc * isqrtFrom n k acc ≤ n ∧ n < (isqrtFrom n k acc + 1) * (isqrtFrom n k acc + 1) := by
  induction k with
  | zero => exact fun acc h1 h2 => ⟨h1, h2⟩
  | succ k ih =>
    intro acc h1 h2
    unfold isqrtFrom
    dsimp only
    split
    · rename_i h
      refine ih _ h ?_
      rwa [Nat.add_assoc, ← Nat.two_mul, ← Nat.pow_succ']
    · rename_i h
      exact ih _ h1 (Nat.not_le.mp h)

theorem lt_two_pow_bitLen (n : Nat) : n < 2 ^ bitLen n := by
  unfold bitLen
  split
  · omega
  · exact Nat.lt_log2_self

theorem isqrt_spec (n : Nat) : isqrt n * isqrt n ≤ n ∧ n < (isqrt n + 1) * (isqrt n + 1) := by
  refine isqrtFrom_spec n _ 0 (by omega) ?_
  rw [Nat.zero_add, ← pow_add]
  exact lt_of_lt_of_le (lt_two_pow_bitLen n) (Nat.pow_le_pow_right (by decide) (by omega))

theorem le_isqrt {n b : Nat} (h : b * b ≤ n) : b ≤ isqrt n := by
  by_contra hb
  have h1 := (isqrt_spec n).2
  have h2 : (isqrt n + 1) * (isqrt n + 1) ≤ b * b := Nat.mul_le_mul (by omega) (by omega)
  omega

/-! ## Values -/

/-- A value marked as the statement says: exact, or above the magnitude by less than its last place. -/
def Near (z : XReal) (neg : Bool) (within : ℚ → ℚ → Prop) : Prop := ∃ m e low, z = .fin neg m e low ∧ 2 ^ 90 ≤ m ∧
  (low = false → within (m * 2 ^ e) (m * 2 ^ e)) ∧ (low = true → within (m * 2 ^ e) ((m + 1) * 2 ^ e))

/-- `f` takes the value `v` between two ends, or at their common point. -/
def Holds (f : ℚ → ℚ) (v a b : ℚ) : Prop := if a = b then f a = v else f a < v ∧ v < f b

theorem two_zpow_pos (e : Int) : (0 : ℚ) < 2 ^ e := zpow_pos (by norm_num) e

theorem holds_point {f : ℚ → ℚ} {v a : ℚ} (h : f a = v) : Holds f v a a := by
  unfold Holds; rw [if_pos rfl]; exact h

theorem holds_between {f : ℚ → ℚ} {v : ℚ} {m : Nat} {e : Int} (h1 : f (m * 2 ^ e) < v) (h2 : v < f ((m + 1) * 2 ^ e)) :
    Holds f v (m * 2 ^ e) ((m + 1) * 2 ^ e) := by
  unfold Holds
  have hp := two_zpow_pos e
  rw [if_neg (by intro h; nlinarith)]
  exact ⟨h1, h2⟩

theorem val_fin (neg : Bool) (m : Nat) (e : Int) (low : Bool) :
    (XReal.fin neg m e low).val = (if neg then -1 else 1) * m * 2 ^ e := rfl

theorem val_eq_zero (neg : Bool) (m : Nat) (e : Int) (low : Bool) : (XReal.fin neg m e low).val = 0 ↔ m = 0 := by
  rw [val_fin]
  have := (two_zpow_pos e).ne'
  cases neg <;> simp [this]

theorem val_abs (neg : Bool) (m : Nat) (e : Int) (low : Bool) : |(XReal.fin neg m e low).val| = m * 2 ^ e := by
  have h : (0 : ℚ) ≤ m * 2 ^ e := mul_nonneg (Nat.cast_nonneg m) (two_zpow_pos e).le
  rw [val_fin]
  cases neg
  · simp only [Bool.false_eq_true, if_false, one_mul]; exact abs_of_nonneg h
  · simp only [if_true, neg_mul, one_mul, abs_neg]; exact abs_of_nonneg h

theorem val_pos (neg : Bool) (m : Nat) (e : Int) (low : Bool) : 0 < (XReal.fin neg m e low).val ↔ neg = false ∧ m ≠ 0 := by
  have hp := two_zpow_pos e
  rw [val_fin]
  cases neg
  · simp only [Bool.false_eq_true, if_false, one_mul, true_and]
    rw [mul_pos_iff_of_pos_right hp, Nat.cast_pos, Nat.pos_iff_ne_zero]
  · simp only [if_true, Bool.true_eq_false, false_and, iff_false, not_lt]
    have := mul_nonneg (Nat.cast_nonneg (α := ℚ) m) hp.le
    nlinarith

theorem val_neg (neg : Bool) (m : Nat) (e : Int) (low : Bool) : (XReal.fin neg m e low).val < 0 ↔ neg = true ∧ m ≠ 0 := by
  have hp := two_zpow_pos e
  rw [val_fin]
  cases neg
  · simp only [Bool.false_eq_true, if_false, one_mul, false_and, iff_false, not_lt]
    exact mul_nonneg (Nat.cast_nonneg m) hp.le
  · simp only [if_true, true_and, neg_mul, one_mul, neg_lt_zero]
    rw [mul_pos_iff_of_pos_right hp, Nat.cast_pos, Nat.pos_iff_ne_zero]

/-! ## Quotients and roots -/

theorem two_zpow_nat (k : Nat) : (2 : ℚ) ^ (k : Int) = ((2 ^ k : Nat) : ℚ) := by rw [zpow_natCast]; push_cast; rfl

/-- R110: the quotient of two nonzero finite values. -/
theorem near_div (na nb : Bool) {ma mb : Nat} (ea eb : Int) (ha : ma ≠ 0) (hb : mb ≠ 0) :
    Near ((XReal.fin na ma ea false).div (.fin nb mb eb false)) (na != nb)
      (Holds id ((ma * 2 ^ ea : ℚ) / (mb * 2 ^ eb))) := by
  have hbl := lt_two_pow_bitLen mb
  have hmb : (0 : ℚ) < mb := by exact_mod_cast Nat.pos_of_ne_zero hb
  let k := 96 + bitLen mb
  let n := ma * 2 ^ k
  have hdiv : (XReal.fin na ma ea false).div (.fin nb mb eb false) =
      .fin (na != nb) (n / mb) (ea - eb - (k : Nat)) (n % mb != 0) := by
    simp only [XReal.div, if_neg hb, Bool.false_or, Nat.shiftLeft_eq]
    rfl
  -- the quotient in units of the last place
  have hq : (ma * 2 ^ ea : ℚ) / (mb * 2 ^ eb) = ((n : ℚ) / mb) * 2 ^ (ea - eb - (k : Nat)) := by
    have h2 : (2 : ℚ) ≠ 0 := by norm_num
    rw [zpow_sub₀ h2, zpow_sub₀ h2, two_zpow_nat]
    push_cast [n]
    field_simp
  have hdm : ((n / mb : Nat) : ℚ) * mb + ((n % mb : Nat) : ℚ) = n := by exact_mod_cast Nat.div_add_mod' n mb
  have hlt : ((n % mb : Nat) : ℚ) < mb := by exact_mod_cast Nat.mod_lt n (Nat.pos_of_ne_zero hb)
  have hp := two_zpow_pos (ea - eb - (k : Nat))
  refine ⟨_, _, _, hdiv, ?_, fun hlow => ?_, fun hlow => ?_⟩
  · rw [Nat.le_div_iff_mul_le (Nat.pos_of_ne_zero hb)]
    calc 2 ^ 90 * mb ≤ 2 ^ 96 * 2 ^ bitLen mb := Nat.mul_le_mul (by norm_num) hbl.le
      _ = 2 ^ k := (pow_add 2 96 _).symm
      _ ≤ n := Nat.le_mul_of_pos_left _ (Nat.pos_of_ne_zero ha)
  · have h0 : n % mb = 0 := by simpa using hlow
    rw [h0, Nat.cast_zero, add_zero] at hdm
    refine holds_point ?_
    rw [hq, id, ← hdm]
    field_simp
  · have h0 : n % mb ≠ 0 := by simpa using hlow
    have hpos : (0 : ℚ) < ((n % mb : Nat) : ℚ) := by exact_mod_cast Nat.pos_of_ne_zero h0
    rw [hq]
    refine holds_between ?_ ?_
    · refine mul_lt_mul_of_pos_right ?_ hp
      rw [lt_div_iff₀ hmb]; linarith
    · refine mul_lt_mul_of_pos_right ?_ hp
      rw [div_lt_iff₀ hmb]; linarith

/-- A root in units of its last place. -/
theorem near_root {r : Nat} {E : Int} {V : ℚ} {low : Bool} (h90 : 2 ^ 90 ≤ r) (h1 : low = false → (r : ℚ) ^ 2 = V)
    (h2 : low = true → (r : ℚ) ^ 2 < V ∧ V < ((r : ℚ) + 1) ^ 2) :
    Near (.fin false r E low) false (Holds (· ^ 2) (V * 2 ^ (2 * E))) := by
  have hsq : ∀ a : ℚ, (a * 2 ^ E) ^ 2 = a ^ 2 * 2 ^ (2 * E) := fun a => by
    rw [mul_pow, ← zpow_natCast (2 ^ E : ℚ), ← zpow_mul, Int.mul_comm E]; rfl
  have hp := two_zpow_pos (2 * E)
  refine ⟨r, E, low, rfl, h90, fun hl => holds_point ?_, fun hl => holds_between ?_ ?_⟩
  · rw [hsq, h1 hl]
  · rw [hsq]
    exact mul_lt_mul_of_pos_right (h2 hl).1 hp
  · rw [hsq]
    exact mul_lt_mul_of_pos_right (h2 hl).2 hp

/-- R110: the square root of a positive value. -/
theorem near_sqrt {m : Nat} (e : Int) (low : Bool) (hm : m ≠ 0) :
    Near (XReal.fin false m e low).sqrt false (Holds (· ^ 2) (m * 2 ^ e)) := by
  let k := 200 + (if e % 2 = 0 then 0 else 1)
  let x := m * 2 ^ k
  have hk : 2 * ((e - (k : Nat)) / 2) = e - (k : Nat) := by
    simp only [k]; split <;> omega
  have hsqrt : (XReal.fin false m e low).sqrt = .fin false (isqrt x) ((e - (k : Nat)) / 2) (isqrt x * isqrt x != x) := by
    simp only [XReal.sqrt, if_neg hm, Bool.false_eq_true, if_false, Nat.shiftLeft_eq]
    rfl
  have hv : (m * 2 ^ e : ℚ) = (x : ℚ) * 2 ^ (2 * ((e - (k : Nat)) / 2)) := by
    rw [hk, zpow_sub₀ (by norm_num : (2 : ℚ) ≠ 0), two_zpow_nat]
    push_cast [x]
    field_simp
  obtain ⟨hle, hlt⟩ := isqrt_spec x
  rw [hsqrt, hv]
  refine near_root (le_isqrt ?_) (fun hl => ?_) (fun hl => ⟨?_, ?_⟩)
  · calc 2 ^ 90 * 2 ^ 90 ≤ 2 ^ k := by
          rw [← pow_add]; exact Nat.pow_le_pow_right (by decide) (by simp only [k]; omega)
      _ ≤ x := Nat.le_mul_of_pos_left _ (Nat.pos_of_ne_zero hm)
  · have h0 : isqrt x * isqrt x = x := by simpa using hl
    rw [sq]; exact_mod_cast h0
  · have h0 : isqrt x * isqrt x ≠ x := by simpa using hl
    rw [sq]; exact_mod_cast lt_of_le_of_ne hle h0
  · rw [sq]; exact_mod_cast hlt

/-- R110: the reciprocal of the square root of a positive value. -/
theorem near_rsqrt {m : Nat} (e : Int) (low : Bool) (hm : m ≠ 0) :
    Near (XReal.fin false m e low).rsqrt false (Holds (· ^ 2) (1 / (m * 2 ^ e))) := by
  have hbl := lt_two_pow_bitLen m
  have hmq : (0 : ℚ) < m := by exact_mod_cast Nat.pos_of_ne_zero hm
  let k := 200 + 2 * bitLen m + (if e % 2 = 0 then 0 else 1)
  let x := 2 ^ k / m
  have hk : 2 * -((e + (k : Nat)) / 2) = -e - (k : Nat) := by
    simp only [k]; split <;> omega
  have hrsqrt : (XReal.fin false m e low).rsqrt =
      .fin false (isqrt x) (-((e + (k : Nat)) / 2)) (isqrt x * isqrt x * m != 2 ^ k) := by
    simp only [XReal.rsqrt, if_neg hm, Bool.false_eq_true, if_false]
    rfl
  have hv : (1 / (m * 2 ^ e) : ℚ) = (((2 ^ k : Nat) : ℚ) / m) * 2 ^ (2 * -((e + (k : Nat)) / 2)) := by
    rw [hk, zpow_sub₀ (by norm_num : (2 : ℚ) ≠ 0), zpow_neg, two_zpow_nat]
    have : ((2 ^ k : Nat) : ℚ) ≠ 0 := by positivity
    have h2e := (two_zpow_pos e).ne'
    field_simp
  obtain ⟨hle, hlt⟩ := isqrt_spec x
  have hmul : isqrt x * isqrt x * m ≤ 2 ^ k := (Nat.le_div_iff_mul_le (Nat.pos_of_ne_zero hm)).mp hle
  have hmul' : 2 ^ k < (isqrt x + 1) * (isqrt x + 1) * m := (Nat.div_lt_iff_lt_mul (Nat.pos_of_ne_zero hm)).mp hlt
  rw [hrsqrt, hv]
  refine near_root (le_isqrt ?_) (fun hl => ?_) (fun hl => ⟨?_, ?_⟩)
  · rw [Nat.le_div_iff_mul_le (Nat.pos_of_ne_zero hm)]
    calc 2 ^ 90 * 2 ^ 90 * m ≤ 2 ^ 200 * 2 ^ bitLen m := Nat.mul_le_mul (by norm_num) hbl.le
      _ = 2 ^ (200 + bitLen m) := (pow_add 2 _ _).symm
      _ ≤ 2 ^ k := Nat.pow_le_pow_right (by decide) (by simp only [k]; omega)
  · have h0 : isqrt x * isqrt x * m = 2 ^ k := by simpa using hl
    rw [eq_div_iff hmq.ne', sq]; exact_mod_cast h0
  · have h0 : isqrt x * isqrt x * m ≠ 2 ^ k := by simpa using hl
    rw [lt_div_iff₀ hmq, sq]; exact_mod_cast lt_of_le_of_ne hmul h0
  · rw [div_lt_iff₀ hmq, sq]; exact_mod_cast hmul'

/-! ## How a marked value rounds -/

section
variable {m j k : Nat} {e q : Int}

/-- A value with more digits below, cut at the same place. -/
theorem cutAt_more (hj : j < 2 ^ k) (h : e < q) : cutAt (m * 2 ^ k + j) (e - k) q =
    ((cutAt m e q).1, (cutAt m e q).2.1 * 2 ^ k + j, (cutAt m e q).2.2 + k) := by
  have hsh : (q - (e - k)).toNat = (q - e).toNat + k := by omega
  unfold cutAt
  rw [if_neg (by omega), if_neg (by omega)]
  simp only [hsh, Nat.shiftRight_eq_div_pow]
  have hdiv : (m * 2 ^ k + j) / 2 ^ ((q - e).toNat + k) = m / 2 ^ (q - e).toNat := by
    rw [Nat.add_comm (q - e).toNat, pow_add, ← Nat.div_div_eq_div_mul, Nat.add_comm, Nat.add_mul_div_right _ _ (by positivity),
      Nat.div_eq_of_lt hj, Nat.zero_add]
  have hmod : (m * 2 ^ k + j) % 2 ^ ((q - e).toNat + k) = m % 2 ^ (q - e).toNat * 2 ^ k + j := by
    rw [Nat.add_comm (q - e).toNat, pow_add, Nat.mod_mul, Nat.mul_add_mod_self_right, Nat.mod_eq_of_lt hj, Nat.add_comm (m * 2 ^ k),
      Nat.add_mul_div_right _ _ (by positivity), Nat.div_eq_of_lt hj, Nat.zero_add]
    ring
  rw [hdiv, hmod]

/-- A remainder of at least 32 bits with a mark below it rounds as one with more digits. -/
theorem roundsUp_more {rm n sh r : Nat} {neg odd : Bool} (hj : 0 < j) (hjk : j < 2 ^ k) (hsh : 32 ≤ sh) :
    roundsUp rm neg odd true r sh n = roundsUp rm neg odd false (r * 2 ^ k + j) (sh + k) n := by
  have hk : 0 < 2 ^ k := by positivity
  have hhalf : 2 ^ sh = 2 * 2 ^ (sh - 1) := by rw [← pow_succ']; congr 1; omega
  have hpow : 2 ^ (sh + k) = 2 * (2 ^ (sh - 1) * 2 ^ k) := by rw [pow_add, hhalf, Nat.mul_assoc]
  have hle : 2 ^ sh ≤ 2 * r ↔ 2 ^ (sh + k) < 2 * (r * 2 ^ k + j) := by
    rw [hpow, hhalf]
    constructor
    · intro h
      have := Nat.mul_le_mul_right (2 ^ k) (Nat.le_of_mul_le_mul_left h (by decide : 0 < 2))
      omega
    · intro h
      by_contra hc
      have : (r + 1) * 2 ^ k ≤ 2 ^ (sh - 1) * 2 ^ k := Nat.mul_le_mul_right _ (by omega)
      rw [Nat.add_mul, Nat.one_mul] at this
      omega
  have hne : 2 * (r * 2 ^ k + j) ≠ 2 ^ (sh + k) := by
    rw [hpow]
    intro h
    have h' : r * 2 ^ k + j = 2 ^ (sh - 1) * 2 ^ k := by omega
    have hmod := congrArg (· % 2 ^ k) h'
    simp only [Nat.mul_add_mod_self_right, Nat.mul_mod_left, Nat.mod_eq_of_lt hjk] at hmod
    omega
  unfold roundsUp
  rw [if_neg (by simp), if_neg (by omega)]
  match rm with
  | 0 =>
    have h1 : (decide (2 ^ sh < 2 * r) || (decide (2 * r = 2 ^ sh) && (true || odd))) = decide (2 ^ sh ≤ 2 * r) := by
      rw [Bool.true_or, Bool.and_true, ← Bool.decide_or, decide_eq_decide]; omega
    have h2 : (decide (2 ^ (sh + k) < 2 * (r * 2 ^ k + j)) || (decide (2 * (r * 2 ^ k + j) = 2 ^ (sh + k)) && (false || odd))) =
        decide (2 ^ (sh + k) < 2 * (r * 2 ^ k + j)) := by
      rw [decide_eq_false hne, Bool.false_and, Bool.or_false]
    exact h1.trans ((decide_eq_decide.mpr hle).trans h2.symm)
  | 1 => rfl
  | 2 => rfl
  | 3 => rfl
  | 4 =>
    exact decide_eq_decide.mpr (by rw [hle]; omega : 2 ^ sh ≤ 2 * r ↔ 2 ^ (sh + k) ≤ 2 * (r * 2 ^ k + j))
  | _ + 5 =>
    have hcut : (r <<< 32) >>> sh = ((r * 2 ^ k + j) <<< 32) >>> (sh + k) := by
      have h32 : ∀ a b : Nat, 32 ≤ b → (a <<< 32) >>> b = a / 2 ^ (b - 32) := fun a b hb => by
        rw [Nat.shiftLeft_eq, Nat.shiftRight_eq_div_pow]
        conv_lhs => rw [← Nat.sub_add_cancel hb, pow_add]
        exact Nat.mul_div_mul_right _ _ (by positivity)
      rw [h32 _ _ hsh, h32 _ _ (by omega), show sh + k - 32 = k + (sh - 32) by omega, pow_add, ← Nat.div_div_eq_div_mul,
        Nat.add_comm, Nat.add_mul_div_right _ _ hk, Nat.div_eq_of_lt hjk, Nat.zero_add]
    exact congrArg (fun x => decide (2 ^ 32 ≤ x + n)) hcut

theorem roundMag_more {rm n : Nat} {neg : Bool} (hj : 0 < j) (hjk : j < 2 ^ k) (h : e + 32 ≤ q) :
    roundMag rm neg true m e q n = roundMag rm neg false (m * 2 ^ k + j) (e - k) q n := by
  have hsh : 32 ≤ (cutAt m e q).2.2 := by
    unfold cutAt
    rw [if_neg (by omega)]
    dsimp only
    omega
  unfold roundMag
  rw [cutAt_more hjk (by omega)]
  dsimp only
  rw [roundsUp_more hj hjk hsh]

theorem bitLen_more (hm : 0 < m) (hjk : j < 2 ^ k) : bitLen (m * 2 ^ k + j) = bitLen m + k := by
  have hne : m * 2 ^ k + j ≠ 0 := by have : 0 < m * 2 ^ k := by positivity
                                     omega
  unfold bitLen
  rw [if_neg hne, if_neg hm.ne']
  have : (m * 2 ^ k + j).log2 = m.log2 + k := by
    rw [Nat.log2_eq_iff hne]
    have h1 := Nat.log2_self_le hm.ne'
    have h2 := Nat.lt_log2_self (n := m)
    constructor
    · rw [pow_add]
      exact (Nat.mul_le_mul_right _ h1).trans (Nat.le_add_right _ _)
    · rw [show m.log2 + k + 1 = m.log2 + 1 + k by omega, pow_add]
      calc m * 2 ^ k + j < (m + 1) * 2 ^ k := by rw [Nat.add_mul]; omega
        _ ≤ 2 ^ (m.log2 + 1) * 2 ^ k := Nat.mul_le_mul_right _ h2
  omega

/-- Into a float format. -/
theorem round_more {f : FloatFmt} {fp8 sat ftz neg : Bool} {rm n : Nat} (hm : 0 < m) (hj : 0 < j) (hjk : j < 2 ^ k)
    (h : e + 32 ≤ max ((m.log2 : Int) + e - f.mant) f.lowExp) :
    f.round fp8 sat ftz rm n (.fin neg m e true) = f.round fp8 sat ftz rm n (.fin neg (m * 2 ^ k + j) (e - k) false) := by
  have hb := bitLen_more hm hjk
  have hlen : bitLen m = m.log2 + 1 := by unfold bitLen; rw [if_neg hm.ne']
  have htop : ((bitLen (m * 2 ^ k + j) : Nat) : Int) - 1 + (e - k) = (bitLen m : Int) - 1 + e := by rw [hb]; push_cast; ring
  have hq : max ((bitLen m : Int) - 1 + e - f.mant) f.lowExp = max ((m.log2 : Int) + e - f.mant) f.lowExp := by
    rw [hlen]; push_cast; congr 2; ring
  have h1 : ¬ (m = 0 ∧ true = false) := by simp
  have h2 : ¬ (m * 2 ^ k + j = 0 ∧ false = false) := by omega
  unfold FloatFmt.round
  dsimp only
  rw [if_neg h1, if_neg h2, htop, hq, roundMag_more hj hjk h]

/-- Into an integer. -/
theorem roundInt_more {sgn neg : Bool} {w rm n : Nat} (hj : 0 < j) (hjk : j < 2 ^ k) (h : e + 32 ≤ 0) :
    roundInt sgn w rm n (.fin neg m e true) = roundInt sgn w rm n (.fin neg (m * 2 ^ k + j) (e - k) false) := by
  simp only [roundInt]
  rw [roundMag_more hj hjk h]

end

end Sys2Proof.Machine
end

section
/-! PROOF. The float instructions of V and the special cases (O33). -/
namespace Sys2Proof.Machine
open Sys2Proof

/-! ## Special cases (R110) -/

/-- A zero of a sign, known exactly. -/
def XReal.IsZero (z : XReal) (neg : Bool) : Prop := z.exact ∧ z.val = 0 ∧ z.sign = neg

theorem isZero_fin (neg : Bool) (e : Int) : (XReal.fin neg 0 e false).IsZero neg :=
  ⟨⟨neg, 0, e, rfl⟩, (val_eq_zero _ _ _ _).mpr rfl, rfl⟩

theorem isValue_fin (neg : Bool) (m : Nat) : (XReal.fin neg m 0 false).exact ∧
    (XReal.fin neg m 0 false).val = if neg then -(m : ℚ) else m := by
  refine ⟨⟨neg, m, 0, rfl⟩, ?_⟩
  rw [val_fin]
  cases neg <;> simp

section
variable {x : XReal}

theorem exact_cases (h : x.exact) : ∃ neg m e, x = .fin neg m e false := h

theorem nan_ops (rdn : Bool) (z : XReal) : XReal.add rdn z .nan = .nan ∧ XReal.add rdn .nan z = .nan ∧ z.mul .nan = .nan ∧
    XReal.mul .nan z = .nan ∧ z.div .nan = .nan ∧ XReal.div .nan z = .nan := by
  cases z <;> exact ⟨rfl, rfl, rfl, rfl, rfl, rfl⟩

theorem nan_unary : ∀ g ∈ [XReal.sqrt, XReal.rsqrt, XReal.neg, XReal.abs, Trans.exp2, Trans.log2, Trans.tanh, Trans.sin, Trans.cos],
    g .nan = .nan := by
  simp only [List.forall_mem_cons]
  exact ⟨rfl, rfl, rfl, rfl, rfl, rfl, rfl, rfl, rfl, by simp⟩

end

section
variable {neg : Bool} {m : Nat} {e : Int}

theorem exp2_zero : Trans.exp2 (.fin neg 0 e false) = .fin false 1 0 false := rfl
theorem log2_zero : Trans.log2 (.fin neg 0 e false) = .inf true := rfl
theorem tanh_zero : Trans.tanh (.fin neg 0 e false) = .fin neg 0 0 false := rfl
theorem sin_zero : Trans.sin (.fin neg 0 e false) = .fin neg 0 0 false := rfl
theorem cos_zero : Trans.cos (.fin neg 0 e false) = .fin false 1 0 false := rfl

theorem roots_negative (hm : m ≠ 0) : (XReal.fin true m e false).sqrt = .nan ∧ (XReal.fin true m e false).rsqrt = .nan ∧
    Trans.log2 (.fin true m e false) = .nan := by
  refine ⟨?_, ?_, ?_⟩
  · simp only [XReal.sqrt, if_neg hm, if_true]
  · simp only [XReal.rsqrt, if_neg hm, if_true]
  · simp only [Trans.log2, if_neg hm, if_true]

theorem roots_zero : (XReal.fin neg 0 e false).sqrt = .fin neg 0 0 false ∧ (XReal.fin neg 0 e false).rsqrt = .inf neg := ⟨rfl, rfl⟩

theorem div_zero_of {na nb : Bool} {ma : Nat} {ea eb : Int} : (XReal.fin na ma ea false).div (.fin nb 0 eb false) =
    if ma = 0 then .nan else .inf (na != nb) := by
  simp only [XReal.div, if_true]

theorem zero_div_of {na nb : Bool} {mb : Nat} {ea eb : Int} (h : mb ≠ 0) :
    ((XReal.fin na 0 ea false).div (.fin nb mb eb false)).IsZero (na != nb) := by
  have : (XReal.fin na 0 ea false).div (.fin nb mb eb false) = .fin (na != nb) 0 (ea - eb - ((96 + bitLen mb : Nat) : Int)) false := by
    simp only [XReal.div, if_neg h, Nat.zero_shiftLeft, Nat.zero_div, Nat.zero_mod]
    rfl
  rw [this]
  exact isZero_fin _ _

theorem neg_val : (XReal.fin neg m e false).neg.val = -(XReal.fin neg m e false).val := by
  show (XReal.fin (!neg) m e false).val = _
  rw [val_fin, val_fin]
  cases neg <;> simp

theorem abs_val : (XReal.fin neg m e false).abs.val = |(XReal.fin neg m e false).val| := by
  rw [val_abs]
  show (XReal.fin false m e false).val = _
  rw [val_fin]
  simp

end

/-! ## Formats -/

theorem floatRow_low : ∀ r ∈ floatRows, ∃ f, floatFmt r.fmt = some f ∧ f.mant = r.mant ∧ f.lowExp = r.low := by
  simp only [floatRows, List.forall_mem_cons]
  exact ⟨⟨_, rfl, rfl, rfl⟩, ⟨_, rfl, rfl, rfl⟩, ⟨_, rfl, rfl, rfl⟩, ⟨_, rfl, rfl, rfl⟩, ⟨_, rfl, rfl, rfl⟩, by simp⟩

theorem intRow_fmt : ∀ r ∈ intRows, floatFmt r.1 = none ∧ intFmt r.1 = some r.2 := by
  decide

/-! ## vsincos -/

theorem two_vregs {a b : Landing} {u v : Nat × VReg} (ha : a = .vregs [u]) (hb : b = .vregs [v]) :
    ((Issue.after 4 [a]).acts ++ (Issue.after 4 [b]).acts).flatMap (fun a => match a with
      | .vregs l => l
      | _ => []) = [u, v] := by subst ha hb; rfl

theorem execVsincos_eq {f : E64} {s t : State} {x : Lane} {key : Nat → Nat} {a : Nat → XReal} {u v : Nat × VReg} (hgo : Turn.Go .V f s)
    (hchecks : laneChecks f [f.d8, f.d8 + 1] (fmtWidth f.top2) (s.gained .V f) = .ok ((), s.gained .V f))
    (hreads : readLane f 1 (fmtWidth f.top2) (s.gained .V f) = .ok (x, t))
    (hval : ∀ i, t.active f i → stoch t.wk t.view.nkey.c0 x.map f.mid3 i = .ok (key i) ∧
      floatOf t.wk x.a x.map f.top2 f.mid3 t.view.ftz (key i) i = .ok (a i))
    (hu : t.deliver f.d8 t.view.shape.slots (fmtWidth f.top2) ⟨t.took f f.d8 (fmtWidth f.top2) fun i =>
      (convTo f.top2 f.mid3 false t.view.ftz (key i) (Trans.sin (a i))).bits, 0, none, x.map⟩ = .vregs [u])
    (hv : t.deliver (f.d8 + 1) t.view.shape.slots (fmtWidth f.top2) ⟨t.took f (f.d8 + 1) (fmtWidth f.top2) fun i =>
      (convTo f.top2 f.mid3 false t.view.ftz (key i) (Trans.cos (a i))).bits, 0, none, x.map⟩ = .vregs [v]) :
    exec (.vsincos f) s = .next (t.afterE .V f 4 [.vregs [u, v]]) := by
  have half : ∀ (d : BitVec 8) (op : XReal → XReal), laneSlots f d (fmtWidth f.top2) (fun s i => do
      let k ← stoch s.wk s.view.nkey.c0 x.map f.mid3 i
      let a ← floatOf s.wk x.a x.map f.top2 f.mid3 s.view.ftz k i
      pure (convTo f.top2 f.mid3 false s.view.ftz k (op a)).bits) t =
      .ok (t.took f d (fmtWidth f.top2) fun i => (convTo f.top2 f.mid3 false t.view.ftz (key i) (op (a i))).bits, t) := by
    intro d op
    refine laneSlots_ok fun i hi => ?_
    obtain ⟨h1, h2⟩ := hval i hi
    simp only [h1, h2, ex_bind_ok]
    rfl
  rw [exec_vsincos, execVsincos]
  refine go_run hgo ?_
  refine (m_bind_ok hchecks).trans ((m_bind_ok hreads).trans ((m_bind_ok (half _ _)).trans ((m_bind_ok (half _ _)).trans ?_)))
  refine (m_bind_ok (deliverShape_ok _ _ _ _ t)).trans ((m_bind_ok (deliverShape_ok _ _ _ _ t)).trans ?_)
  rw [m_pure]
  congr 3
  exact congrArg (fun l => [Landing.vregs l]) (two_vregs hu hv)

/-- Settles O33: each instruction is its one operation slot by slot; roots and quotients lie within their last place; a marked
value rounds as any value above it. -/
theorem laneFloatResults : Obligations.LaneFloatResults := by
  unfold Obligations.LaneFloatResults
  refine ⟨fun f s t x n key a b c => ?_, fun f s t x key a => ?_, fun x y hx hy => ?_, fun rm n m j k e sat ftz neg _ hm hj hjk => ?_,
    fun x y a b rdn hx hy => ?_⟩
  · intro fmt rm ftz rdn hl hv out
    refine ⟨fun hn => ?_, fun hn => ?_, fun hn => ?_⟩
    · subst hn
      exact ⟨floatRun_ok hl hv fun _ => rfl, floatRun_ok hl hv fun _ => rfl, floatRun_ok hl hv fun _ => rfl,
        floatRun_ok hl hv fun _ => rfl, floatRun_ok hl hv fun _ => rfl, floatRun_ok hl hv fun _ => rfl⟩
    · subst hn
      exact ⟨floatRun_ok hl hv fun _ => rfl, floatRun_ok hl hv fun _ => rfl, floatRun_ok hl hv fun _ => rfl,
        floatRun_ok hl hv fun _ => rfl⟩
    · subst hn
      exact ⟨floatRun_ok hl hv fun _ => rfl, floatRun_ok hl hv fun _ => rfl, floatRun_ok hl hv fun _ => rfl⟩
  · intro fmt w g val hgo h1 h2 hchecks hreads hval
    obtain ⟨u, hu⟩ := deliver_vregs t f.d8 g w ⟨t.took f f.d8 w (val fun i => Trans.sin (a i)), 0, none, x.map⟩ (isQ_of_isV h1)
    obtain ⟨v, hv⟩ := deliver_vregs t (f.d8 + 1) g w ⟨t.took f (f.d8 + 1) w (val fun i => Trans.cos (a i)), 0, none, x.map⟩
      (isQ_of_isV h2)
    exact ⟨u, v, hu, hv, execVsincos_eq hgo hchecks hreads hval hu hv⟩
  · obtain ⟨na, ma, ea, rfl⟩ := hx
    obtain ⟨nb, mb, eb, rfl⟩ := hy
    intro near holds
    refine ⟨fun h1 h2 => ?_, fun h => ?_⟩
    · rw [val_abs, val_abs]
      exact near_div na nb ea eb (fun h => h1 ((val_eq_zero _ _ _ _).mpr h)) (fun h => h2 ((val_eq_zero _ _ _ _).mpr h))
    · obtain ⟨rfl, hm⟩ := (val_pos _ _ _ _).mp h
      have hv : (XReal.fin false ma ea false).val = ma * 2 ^ ea := by rw [val_fin]; simp
      rw [hv]
      exact ⟨near_sqrt ea false hm, near_rsqrt ea false hm⟩
  · intro c
    refine ⟨fun r hr h => ?_, fun r hr h => ?_⟩
    · obtain ⟨fmt, hf, hmant, hlow⟩ := floatRow_low r hr
      simp only [c, convTo, hf]
      exact congrArg Conv.bits (round_more hm hj hjk (by rw [hmant, hlow]; exact h))
    · obtain ⟨hf, hi⟩ := intRow_fmt r hr
      simp only [c, convTo, hf, hi]
      exact congrArg Conv.bits (roundInt_more hj hjk h)
  · obtain ⟨na, ma, ea, rfl⟩ := hx
    obtain ⟨nb, mb, eb, rfl⟩ := hy
    intro inf zero one
    have hz : ∀ n m e, (XReal.fin n m e false).val = 0 ↔ m = 0 := fun n m e => val_eq_zero n m e false
    refine ⟨fun z _ => nan_ops rdn z, nan_unary, rfl, rfl, rfl, rfl, ?_, ?_, rfl, rfl, isZero_fin _ _, fun h => ?_, fun h1 h2 => ?_, ?_,
      fun h => ?_, fun h => ?_, rfl, isZero_fin _ _, neg_val, rfl, rfl, abs_val, rfl, rfl, isZero_fin _ _, rfl, fun h => ?_,
      fun h => ?_, rfl, rfl, ?_, fun h => ?_, rfl, rfl, fun h => ?_⟩
    · simp only [XReal.mul, hz]; rfl
    · simp only [XReal.mul, hz]; rfl
    · obtain rfl := (hz _ _ _).mp h
      rw [div_zero_of]
      simp only [hz]; rfl
    · obtain rfl := (hz _ _ _).mp h1
      exact zero_div_of fun h => h2 ((hz _ _ _).mpr h)
    · cases a <;> rfl
    · obtain rfl := (hz _ _ _).mp h
      exact ⟨isZero_fin _ _, rfl⟩
    · obtain ⟨rfl, hm⟩ := (val_neg _ _ _ _).mp h
      exact roots_negative hm
    · obtain rfl := (hz _ _ _).mp h
      exact isValue_fin false 1
    · obtain rfl := (hz _ _ _).mp h
      exact log2_zero
    · obtain ⟨h1, h2⟩ := isValue_fin a 1
      exact ⟨h1, h2.trans (by rw [Nat.cast_one])⟩
    · obtain rfl := (hz _ _ _).mp h
      exact isZero_fin _ _
    · obtain rfl := (hz _ _ _).mp h
      exact ⟨isZero_fin _ _, isValue_fin false 1⟩

end Sys2Proof.Machine
end

section
/-! PROOF. The sign, order and integer instructions of V (O34). -/
namespace Sys2Proof.Machine
open Sys2Proof

/-- Cutting an integer read from a container to its width gives the container back. -/
theorem wrap_readInt (sgn : Bool) (w v : Nat) : wrap w (readInt sgn w v) = v % 2 ^ w := by
  have hlt : v % 2 ^ w < 2 ^ w := Nat.mod_lt _ (by positivity)
  have hcast : ((v % 2 ^ w : Nat) : Int) % ((2 ^ w : Nat) : Int) = ((v % 2 ^ w : Nat) : Int) :=
    Int.emod_eq_of_lt (by omega) (by exact_mod_cast hlt)
  unfold wrap readInt signed
  cases sgn with
  | false => simp only [Bool.false_eq_true, if_false]; rw [hcast]; exact Int.toNat_natCast _
  | true =>
    simp only [if_true]
    split
    · rw [hcast]; exact Int.toNat_natCast _
    · have : ((v % 2 ^ w : Nat) : Int) - ((2 ^ w : Nat) : Int) = ((v % 2 ^ w : Nat) : Int) + (-1) * ((2 ^ w : Nat) : Int) := by ring
      rw [this, Int.add_mul_emod_self_right, hcast]
      exact Int.toNat_natCast _

theorem onBits_readInt (g : Nat → Nat → Nat) (sgn : Bool) (w a b : Nat) :
    onBits g w (readInt sgn w a) (readInt sgn w b) = ((g (a % 2 ^ w) (b % 2 ^ w) : Nat) : Int) := by
  unfold onBits
  rw [wrap_readInt, wrap_readInt]

/-- Settles O34: each instruction is its one operation slot by slot, on exact integers or on the patterns. -/
theorem laneIntegerResults : Obligations.LaneIntegerResults := by
  unfold Obligations.LaneIntegerResults
  refine ⟨fun f s t x n a b => ?_, fun f s t x n w a b hw => ?_⟩
  · intro fmt ftz sign hl hv out
    refine ⟨fun hn => ?_, fun hn => ?_⟩
    · subst hn
      refine ⟨?_, ?_⟩
      · rw [exec_vabs, execVabs]; exact bitsRun_ok hl hv fun _ => rfl
      · rw [exec_vneg, execVneg]; exact bitsRun_ok hl hv fun _ => rfl
    · subst hn
      refine ⟨?_, ?_⟩
      · rw [exec_vmin, execVmin]; exact bitsRun_ok hl hv fun _ => rfl
      · rw [exec_vmax, execVmax]; exact bitsRun_ok hl hv fun _ => rfl
  · intro sgn sat lo hi num hl hv out nat
    have hw' : w = tyWidth f.top2 := by rw [hw]; unfold tyWidth; rfl
    have hpow : ∀ k : Nat, ((2 ^ k : Nat) : Int) = 2 ^ k := fun k => Int.natCast_pow 2 k
    have bits : ∀ (g : Nat → Nat → Nat) (i : Nat), onBits g w (readInt sgn w (a i)) (readInt sgn w (b i)) = nat g i :=
      fun g i => onBits_readInt g sgn w (a i) (b i)
    refine ⟨fun hn => ?_, fun hn => ?_⟩
    · subst hn
      rw [exec_vipopc, execVipopc]
      refine intRun_ok hw' hl hv fun i => ?_
      rw [wrap_readInt, popcount_eq_countP]
    · subst hn
      refine ⟨?_, ?_, ?_, ?_, ?_, ?_, ?_, ?_, ?_, ?_, ?_, ?_⟩
      · rw [exec_viadd, execViadd]; exact intRun_ok hw' hl hv fun _ => rfl
      · rw [exec_visub, execVisub]; exact intRun_ok hw' hl hv fun _ => rfl
      · rw [exec_vimul, execVimul]; exact intRun_ok hw' hl hv fun _ => rfl
      · rw [exec_vimulh, execVimulh]
        refine intRun_ok hw' hl hv fun i => ?_
        rw [hpow]
        rfl
      · rw [exec_viand, execViand]; exact intRun_ok hw' hl hv fun i => bits _ i
      · rw [exec_vior, execVior]; exact intRun_ok hw' hl hv fun i => bits _ i
      · rw [exec_vixor, execVixor]; exact intRun_ok hw' hl hv fun i => bits _ i
      · rw [exec_vishl, execVishl]
        refine intRun_ok hw' hl hv fun i => (bits _ i).trans ?_
        simp only [nat, Nat.shiftLeft_eq]
      · rw [exec_vishr, execVishr]
        refine intRun_ok hw' hl hv fun i => (bits _ i).trans ?_
        simp only [nat, Nat.shiftRight_eq_div_pow]
      · rw [exec_visra, execVisra]
        refine intRun_ok hw' hl hv fun i => ?_
        rw [wrap_readInt, hpow]
        rfl
      · rw [exec_vimin, execVimin]; exact intRun_ok hw' hl hv fun _ => rfl
      · rw [exec_vimax, execVimax]; exact intRun_ok hw' hl hv fun _ => rfl

end Sys2Proof.Machine
end

section
/-! PROOF. Compares, selects, mask logic and predicates from masks (O35). -/
namespace Sys2Proof.Machine
open Sys2Proof

/-- A bit of a written mask: the bits from G up are clear. -/
theorem maskValue_getLsbD (g v i : Nat) (hi : i < 65536) : (maskValue g v).getLsbD i = (decide (i < g) && v.testBit i) := by
  unfold maskValue
  rw [BitVec.getLsbD_ofNat, Nat.testBit_mod_two_pow]
  simp [hi]

theorem ofBool_testBit (b : Bool) : (ofBool b).testBit 0 = b := by cases b <;> rfl

/-- A mask packed from one bit per active slot. -/
theorem packedMask_getLsbD (g i : Nat) (m : Option Nat) (hit : Nat → Bool) (hi : i < 65536) :
    (maskValue g (packSlots 1 ((List.range g).map fun i => if activeIn m i then ofBool (hit i) else 0))).getLsbD i =
      (decide (i < g) && activeIn m i && hit i) := by
  rw [maskValue_getLsbD _ _ _ hi, packSlots_testBit 1 (by omega), Nat.div_one, Nat.mod_one, nth_range]
  by_cases hg : i < g
  · cases activeIn m i with
    | false => simp [hg]
    | true => rw [if_pos hg, if_pos rfl, ofBool_testBit]; simp [hg]
  · simp [hg]

theorem compareInt_eq (cc : Nat) (hcc : cc < 8) (w a b : Nat) :
    compareInt cc w a b = [decide (signed w a = signed w b), decide (signed w a ≠ signed w b), decide (signed w a < signed w b),
      decide (signed w a ≤ signed w b), decide (signed w b < signed w a), decide (signed w b ≤ signed w a),
      decide (a % 2 ^ w < b % 2 ^ w), decide (b % 2 ^ w ≤ a % 2 ^ w)].getD cc false := by
  unfold compareInt
  interval_cases cc <;> simp [bne, beq_eq_decide]

theorem compareFloat_eq (cc : Nat) (hcc : cc < 8) (o : Option Ordering) :
    compareFloat cc o = [decide (o = some .eq), decide (o ≠ some .eq), decide (o = some .lt), decide (o = some .lt ∨ o = some .eq),
      decide (o = some .gt), decide (o = some .gt ∨ o = some .eq), decide (o = none), decide (o ≠ none)].getD cc false := by
  unfold compareFloat
  rcases o with _ | _ | _ | _ <;> interval_cases cc <;> rfl

theorem mid3_lt (f : E64) : f.mid3 < 8 := by
  unfold E64.mid3
  omega

/-- A slot of `vcmp` answers as its code says of the two operands read. -/
theorem cmpSlot_int {f : E64} {t : State} {x : Lane} {i a b : Nat} (hm : f.modBit 2 = true)
    (ha : intOf t.wk x.a x.map true false (cmpWidth f) i = .ok a) (hb : intOf t.wk x.b x.map true false (cmpWidth f) i = .ok b) :
    cmpSlot f t x i = .ok (ofBool (compareInt f.mid3 (cmpWidth f) a b)) := by
  simp only [cmpSlot, hm, if_true, ha, hb]
  rfl

theorem cmpSlot_float {f : E64} {t : State} {x : Lane} {i : Nat} {a b : XReal} (hm : ¬ f.modBit 2 = true)
    (ha : floatOf t.wk x.a x.map f.top2 0 t.view.ftz 0 i = .ok a) (hb : floatOf t.wk x.b x.map f.top2 0 t.view.ftz 0 i = .ok b) :
    cmpSlot f t x i = .ok (ofBool (compareFloat f.mid3 (a.cmp b))) := by
  simp only [cmpSlot, hm, ha, hb]
  rfl

theorem popcount_pos (g v : Nat) : 0 < popcount g v ↔ ∃ i < g, v.testBit i = true := by
  rw [popcount_eq_countP, List.countP_pos_iff]
  simp

theorem popcount_all (g v : Nat) : popcount g v = g ↔ ∀ i < g, v.testBit i = true := by
  have h := List.countP_eq_length (p := v.testBit) (l := List.range g)
  rw [List.length_range] at h
  rw [popcount_eq_countP, h]
  simp

theorem popcount_zero (g v : Nat) : popcount g v = 0 ↔ ∀ i < g, v.testBit i = false := by
  rw [popcount_eq_countP, List.countP_eq_zero]
  simp

/-- What SEL makes of a mask: any, all or none of the G low bits. -/
theorem maskBit_iff (sel g v : Nat) : maskBit sel g v = true ↔ match sel with
    | 0 => ∃ i < g, v.testBit i = true
    | 1 => ∀ i < g, v.testBit i = true
    | _ => ∀ i < g, v.testBit i = false := by
  rcases sel with _ | _ | n
  · exact decide_eq_true_iff.trans (popcount_pos g v)
  · exact beq_iff_eq.trans (popcount_all g v)
  · exact beq_iff_eq.trans (popcount_zero g v)

theorem vcmp_ok (f : E64) (s t : State) (x : Lane) (hit : Nat → Bool) (h : Turn.Go .V f s)
    (hc : laneChecks f [] (cmpWidth f) (s.gained .V f) = .ok ((), s.gained .V f)) (hx : readLane f 2 (cmpWidth f) (s.gained .V f) = .ok (x, t))
    (hh : ∀ i, t.active f i → cmpSlot f t x i = .ok (ofBool (hit i))) :
    exec (.vcmp f) s = .next (t.afterE .V f 2 [.mask f.d8.toNat (maskValue t.view.shape.slots (packSlots 1
      ((List.range t.view.shape.slots).map fun i => if activeIn (t.maskOf f.lo3) i then ofBool (hit i) else 0)))]) := by
  rw [exec_vcmp, execVcmp]
  refine go_run h ?_
  rw [m_bind_ok hc, m_bind_ok hx]
  simp only [m_bind, m_look, id]
  rw [eachSlot_ok (v := fun i => ofBool (hit i)) t fun i hi hm => by rw [hh i ⟨hi, hm⟩]; rfl]
  rfl

theorem vsel_ok (f : E64) (s t : State) (x : Lane) (v : Nat → Nat) (h : Turn.Lane f (selOperands f) (fmtWidth f.top2) s x t)
    (hv : ∀ i < t.view.shape.slots, if activeIn (t.maskOf f.lo3) i then floatBits t.wk x.a x.map 0 f.top2 0 i = .ok (v i)
      else if f.zm then v i = 0 else floatBits t.wk x.b x.map 0 f.top2 0 i = .ok (v i)) :
    exec (.vsel f) s = .next (t.afterE .V f 2
      [t.deliver f.d8 t.view.shape.slots (fmtWidth f.top2) ⟨packSlots (fmtWidth f.top2) ((List.range t.view.shape.slots).map v), 0, none, x.map⟩]) := by
  rw [exec_vsel, execVsel]
  refine go_run h.go ?_
  dsimp only [tyFmt]
  rw [m_bind_ok h.checks, m_bind_ok h.reads]
  simp only [m_bind, m_look, id]
  rw [eachSlot_ok (v := v) t]
  · simp only [activeIn, if_true]
    rfl
  · intro i hi _
    have hvi := hv i hi
    by_cases ha : activeIn (t.maskOf f.lo3) i = true
    · rw [if_pos ha] at hvi ⊢
      rw [hvi]; rfl
    · rw [if_neg ha] at hvi ⊢
      by_cases hz : f.zm = true
      · rw [if_pos hz] at hvi ⊢
        rw [hvi]
      · rw [if_neg hz] at hvi ⊢
        rw [hvi]; rfl

/-- A mask instruction, bit by bit. -/
theorem maskRun_bits {f : E64} {op : Nat → Nat → Nat} {s : State} {p : Nat → Bool} (h : Turn.Go .V f s)
    (hp : ∀ i < 65536, (op (s.wk.mget f.a8.toNat).toNat (s.wk.mget f.b8.toNat).toNat).testBit i = p i) :
    ∃ m, maskRun f op s = .next ((s.gained .V f).afterE .V f 2 [.mask f.d8.toNat m]) ∧
      ∀ i < 65536, m.getLsbD i = (decide (i < s.view.shape.slots) && p i) :=
  ⟨_, maskRun_ok h, fun i hi => by rw [maskValue_getLsbD _ _ _ hi, hp i hi]⟩

theorem gained_pos (s : State) (e : Eng) (f : E64) : (s.gained e f).st.pos = s.st.pos := by
  unfold State.gained
  split
  · rfl
  · rw [acquire_st]

theorem vpset_V {f : E64} {s : State} (h : Turn.Go .V f s) :
    exec (.vpset f) s = .next ((((s.gained .V f).modWk fun w => { w with vpres := w.vpres ++
      [(s.st.pos, maskBit f.top2 s.view.shape.slots (s.wk.mget f.a8.toNat).toNat)] }).modSt
        fun t => { t with gate := some t.pos }).afterE .V f 0 []) := by
  rw [exec_vpset, execVpset, if_neg (by rw [h.turn]; decide)]
  refine go_none h ?_
  simp only [m_bind, m_look, m_work, m_change, m_pure, id, gained_view, gained_mget, gained_pos]
  rfl

/-- S passes a `vpset` that is guarded off; else it waits for V's value, and with it makes the configuration write. -/
theorem vpset_S (f : E64) (s : State) (hl : s.live = true) (he : s.curEng = .S) :
    let skip := fun (s : State) => s.modSt fun t => { t with pc := t.pc + 8, pos := t.pos + 4 }
    (s.view.guard f.g = false → exec (.vpset f) s = .next (skip s)) ∧
    (s.view.guard f.g = true → tabFind s.wk.vpres s.st.pos = none → exec (.vpset f) s = .next s) ∧
    ∀ v, s.view.guard f.g = true → tabFind s.wk.vpres s.st.pos = some v → s.configFree →
      exec (.vpset f) s =
        .next (skip ((s.posted (s.dueAt 4) (.pred f.d8.toNat v)).modWk fun w =>
          { w with vpres := w.vpres.filter fun e => e.1 != s.st.pos })) := by
  intro skip
  have hx : exec (.vpset f) s = runOwn .S (takeVpset f) s := by rw [exec_vpset, execVpset, if_pos he]
  rw [hx]
  have hv : ∀ b, s.view.guard f.g = b → s.st.view.guard f.g = b := fun _ h => h
  refine ⟨fun hg => runOwn_ok hl he ?_, fun hg hn => runOwn_stall hl he ?_, fun v hg hs hc => runOwn_ok hl he ?_⟩
  · simp only [takeVpset, m_bind, m_look, id, hv _ hg]
    rfl
  · simp only [takeVpset, m_bind, m_look, id, hv _ hg, hn]
    rfl
  · simp only [takeVpset, m_bind, m_look, id, hv _ hg, hs, if_true, postConfig_ok hc]
    rfl

/-- Settles O35: the compares slot by slot, the mask logic bit by bit, and `vpset` in V and in S. -/
theorem comparesSelectsAndMasks : Obligations.ComparesSelectsAndMasks := by
  unfold Obligations.ComparesSelectsAndMasks
  refine ⟨?_, fun f s t x v => vsel_ok f s t x v, ?_, vpset_S⟩
  · intro f s t x hit w h hc hx hh
    refine ⟨_, vcmp_ok f s t x hit h hc hx fun i hi => ?_, fun i hi => packedMask_getLsbD _ _ _ _ hi⟩
    have hhi := hh i hi
    by_cases hm : f.modBit 2 = true
    · rw [if_pos hm] at hhi
      obtain ⟨a, b, ha, hb, he⟩ := hhi
      rw [cmpSlot_int hm ha hb, compareInt_eq _ (mid3_lt f), he]
    · rw [if_neg hm] at hhi
      obtain ⟨a, b, ha, hb, he⟩ := hhi
      rw [cmpSlot_float hm ha hb, compareFloat_eq _ (mid3_lt f), he]
  · intro f s h g a b holds
    refine ⟨?_, ?_, ?_, ?_, ?_, ?_⟩
    · show ∃ m, exec (.mand f) s = _ ∧ _
      rw [exec_mand, execMand]
      exact maskRun_bits h fun i _ => Nat.testBit_and _ _ i
    · show ∃ m, exec (.mor f) s = _ ∧ _
      rw [exec_mor, execMor]
      exact maskRun_bits h fun i _ => Nat.testBit_or _ _ i
    · show ∃ m, exec (.mxor f) s = _ ∧ _
      rw [exec_mxor, execMxor]
      exact maskRun_bits h fun i _ => Nat.testBit_xor _ _ i
    · show ∃ m, exec (.mnot f) s = _ ∧ _
      rw [exec_mnot, execMnot]
      refine maskRun_bits h fun i hi => ?_
      rw [Nat.testBit_xor, Nat.testBit_two_pow_sub_one, decide_eq_true hi, Bool.xor_true]
      rfl
    · rw [exec_mcnt, execMcnt]
      refine go_run h ?_
      simp only [m_bind, m_look, m_pure, id, gained_view, gained_mget, popcount_eq_countP]
      rfl
    · exact ⟨_, maskBit_iff _ _ _, vpset_V h⟩

end Sys2Proof.Machine
end

section
/-! PROOF. The reset state (O56) and the decoder on worked encodings (O58). -/
namespace Sys2Proof.Machine
open Sys2Proof

/-- A table that lists a value for each key of a list. -/
theorem tabFind_keys {α : Type} (l : List Nat) (g : Nat → α) (i : Nat) :
    tabFind (l.map fun k => (k, g k)) i = if i ∈ l then some (g i) else none := by
  induction l with
  | nil => rfl
  | cons k r ih =>
    rw [List.map_cons, tabFind]
    by_cases h : k = i
    · subst h; simp
    · have h' : ¬ i = k := fun x => h x.symm
      simp [h, h', ih]

/-- What a measurement register reads after a boot. -/
theorem measured_get (n : Nat) (good : Nat → Bool) (i : Nat) : tabGet 0 (measured n good) i =
    if i < 6 ∧ good i = true then Sha3.hash (Sha3.bytes 0 ++ Sha3.bytes (Config.firmwareDigest n i)) else 0 := by
  unfold tabGet measured
  rw [tabFind_keys]
  have hmem : i ∈ [0, 1, 2, 3, 4, 5].filter good ↔ i < 6 ∧ good i = true := by
    rw [List.mem_filter]
    refine and_congr_left fun _ => ?_
    simp only [List.mem_cons, List.not_mem_nil, or_false]
    omega
  by_cases h : i < 6 ∧ good i = true
  · rw [if_pos (hmem.mpr h), if_pos h]; rfl
  · rw [if_neg (fun x => h (hmem.mp x)), if_neg h]; rfl

/-- Settles O58, by running the decoder on each word. -/
theorem decodedWords : Obligations.DecodedWords := by
  unfold Obligations.DecodedWords
  exact ⟨rfl, rfl, rfl, rfl, rfl, rfl, rfl, rfl⟩

/-- Settles O56: the reset state's fields, and the canonical form of the empty lists. -/
theorem resetState : Obligations.ResetState := by
  unfold Obligations.ResetState
  have hm : ∀ i, tabGet 0 State.reset.measures i =
      if i < 6 then Sha3.hash (Sha3.bytes 0 ++ Sha3.bytes (Config.firmwareDigest 0 i)) else 0 := fun i => by
    refine (measured_get 0 (fun _ => true) i).trans ?_
    simp only [and_true]
  have hc : State.reset.Canonical := ⟨rfl, rfl, rfl, fun e he => absurd he List.not_mem_nil⟩
  exact ⟨rfl, rfl, rfl, rfl, rfl, rfl, rfl, rfl, rfl, rfl, rfl, rfl, rfl, rfl, fun _ => rfl, fun _ => rfl,
    fun _ => ⟨rfl, rfl, rfl⟩, fun _ => ⟨rfl, rfl, rfl, rfl, rfl⟩, hm, rfl, rfl, fun _ => rfl, hc⟩

end Sys2Proof.Machine
end

section
/-! PROOF. How patterns read, how values are rounded into the formats, and that sums and products are exact (O36). -/
namespace Sys2Proof.Machine
open Sys2Proof

/-! ## Rounding to an integral magnitude (R69, R71) -/

/-- R69, R71: whether a cut magnitude `y0` with remainder `r` of `k` bits moves up. -/
def GoesUp (rm : Nat) (neg : Bool) (y0 r k n : Nat) : Prop :=
  r ≠ 0 ∧
    match rm with
    | 0 => 2 ^ k < 2 * r ∨ 2 * r = 2 ^ k ∧ y0 % 2 = 1
    | 1 => False
    | 2 => neg = false
    | 3 => neg = true
    | 4 => 2 ^ k ≤ 2 * r
    | _ => 2 ^ 32 ≤ r * 2 ^ 32 / 2 ^ k + n

theorem roundsUp_iff (rm : Nat) (neg : Bool) (y0 r k n : Nat) :
    roundsUp rm neg (y0 % 2 == 1) false r k n = true ↔ GoesUp rm neg y0 r k n := by
  unfold roundsUp GoesUp
  by_cases hr : r = 0
  · simp [hr]
  · rw [if_neg fun x => hr x.1]
    rcases rm with _ | _ | _ | _ | _ | rm
    · simp [hr]
    · simp
    · simp [hr]
    · simp [hr]
    · simp [hr]
    · simp [hr, Nat.shiftLeft_eq, Nat.shiftRight_eq_div_pow]

/-- The part cut off and the remainder, as the statements write them. -/
theorem cutAt_eq (m : Nat) (e q : Int) : (cutAt m e q).1 = (if q ≤ e then m * 2 ^ (e - q).toNat else m / 2 ^ (q - e).toNat) ∧
    (cutAt m e q).2.1 = (if q ≤ e then 0 else m % 2 ^ (q - e).toNat) ∧ (cutAt m e q).2.2 = (q - e).toNat := by
  unfold cutAt
  by_cases hq : q ≤ e
  · simp only [if_pos hq, Nat.shiftLeft_eq, true_and]
    omega
  · simp only [if_neg hq, Nat.shiftRight_eq_div_pow, and_self]

/-- What `Rounds` says is what the model rounds to. -/
theorem rounds_iff {rm m n y : Nat} {neg : Bool} {e q : Int} : Rounds rm neg m e q n y ↔ roundMag rm neg false m e q n = y := by
  obtain ⟨h1, h2, h3⟩ := cutAt_eq m e q
  have hR : Rounds rm neg m e q n y ↔ (GoesUp rm neg (cutAt m e q).1 (cutAt m e q).2.1 (cutAt m e q).2.2 n → y = (cutAt m e q).1 + 1) ∧
      (¬ GoesUp rm neg (cutAt m e q).1 (cutAt m e q).2.1 (cutAt m e q).2.2 n → y = (cutAt m e q).1) := by
    rw [h1, h2, h3]
    exact Iff.rfl
  have hu := roundsUp_iff rm neg (cutAt m e q).1 (cutAt m e q).2.1 (cutAt m e q).2.2 n
  rw [hR, ← hu]
  show _ ↔ (cutAt m e q).1 + ofBool (roundsUp rm neg ((cutAt m e q).1 % 2 == 1) false (cutAt m e q).2.1 (cutAt m e q).2.2 n) = y
  cases roundsUp rm neg ((cutAt m e q).1 % 2 == 1) false (cutAt m e q).2.1 (cutAt m e q).2.2 n <;> simp [ofBool, eq_comm]

/-- A rounded magnitude lies at most one above the part cut off. -/
theorem roundMag_between (rm m n : Nat) (neg low : Bool) (e q : Int) :
    (cutAt m e q).1 ≤ roundMag rm neg low m e q n ∧ roundMag rm neg low m e q n ≤ (cutAt m e q).1 + 1 := by
  have hb : ∀ b, ofBool b ≤ 1 := by decide
  unfold roundMag
  exact ⟨Nat.le_add_right _ _, Nat.add_le_add_left (hb _) _⟩

/-- In units of the last place that a format gives it, a magnitude has as many bits as the format has; fewer only where that
place is a subnormal's. -/
theorem cutAt_bounds {m p : Nat} {e low : Int} (hm : 0 < m) :
    let q := max ((m.log2 : Int) + e - p) low
    (cutAt m e q).1 < 2 ^ (p + 1) ∧ (low < q → 2 ^ p ≤ (cutAt m e q).1) := by
  intro q
  have hlo := Nat.log2_self_le hm.ne'
  have hhi := Nat.lt_log2_self (n := m)
  rw [(cutAt_eq m e q).1]
  by_cases hq : q ≤ e
  · rw [if_pos hq]
    have hk : m.log2 + (e - q).toNat ≤ p := by omega
    refine ⟨?_, fun h => ?_⟩
    · calc m * 2 ^ (e - q).toNat < 2 ^ (m.log2 + 1) * 2 ^ (e - q).toNat := Nat.mul_lt_mul_of_pos_right hhi (by positivity)
        _ = 2 ^ (m.log2 + 1 + (e - q).toNat) := (pow_add ..).symm
        _ ≤ 2 ^ (p + 1) := Nat.pow_le_pow_right (by decide) (by omega)
    · calc 2 ^ p = 2 ^ (m.log2 + (e - q).toNat) := by congr 1; omega
        _ = 2 ^ m.log2 * 2 ^ (e - q).toNat := pow_add ..
        _ ≤ m * 2 ^ (e - q).toNat := Nat.mul_le_mul_right _ hlo
  · rw [if_neg hq]
    refine ⟨?_, fun h => ?_⟩
    · rw [Nat.div_lt_iff_lt_mul (by positivity), ← pow_add]
      exact hhi.trans_le (Nat.pow_le_pow_right (by decide) (by omega))
    · rw [Nat.le_div_iff_mul_le (by positivity), ← pow_add]
      exact (Nat.pow_le_pow_right (by decide) (by omega)).trans hlo

/-! ## Magnitudes of a float format (R66) -/

/-- The magnitude behind a pattern without sign, in units of a subnormal's last place, for `p` mantissa bits. -/
def magnitude (p b : Nat) : Nat := if b / 2 ^ p = 0 then b else (b % 2 ^ p + 2 ^ p) * 2 ^ (b / 2 ^ p - 1)

theorem magnitude_split (p x f : Nat) (hf : f < 2 ^ p) :
    magnitude p (x * 2 ^ p + f) = if x = 0 then f else (f + 2 ^ p) * 2 ^ (x - 1) := by
  have hp : 0 < 2 ^ p := by positivity
  have hdiv : (x * 2 ^ p + f) / 2 ^ p = x := by rw [Nat.add_comm, Nat.add_mul_div_right _ _ hp, Nat.div_eq_of_lt hf, Nat.zero_add]
  have hmod : (x * 2 ^ p + f) % 2 ^ p = f := by rw [Nat.add_comm, Nat.add_mul_mod_self_right, Nat.mod_eq_of_lt hf]
  unfold magnitude
  rw [hdiv, hmod]
  by_cases hx : x = 0
  · subst hx; simp
  · rw [if_neg hx, if_neg hx]

/-- A rounded mantissa added to its exponent field reads as that mantissa there, the carry included. -/
theorem magnitude_add {p k y : Nat} (hy : y ≤ 2 ^ (p + 1)) (hk : 0 < k → 2 ^ p ≤ y) : magnitude p (k * 2 ^ p + y) = y * 2 ^ k := by
  have hp : 0 < 2 ^ p := by positivity
  have h2 : 2 ^ (p + 1) = 2 * 2 ^ p := pow_succ' ..
  rcases Nat.lt_or_ge y (2 ^ p) with h | h
  · have : k = 0 := by by_contra hne; exact absurd (hk (Nat.pos_of_ne_zero hne)) (by omega)
    subst this
    rw [magnitude_split p 0 y h, if_pos rfl, pow_zero, Nat.mul_one]
  · rcases Nat.lt_or_ge y (2 ^ (p + 1)) with h' | h'
    · have hs : k * 2 ^ p + y = (k + 1) * 2 ^ p + (y - 2 ^ p) := by rw [Nat.add_mul]; omega
      rw [hs, magnitude_split p (k + 1) _ (by omega), if_neg (by omega), Nat.sub_add_cancel h, Nat.add_sub_cancel]
    · have hy2 : y = 2 ^ p + 2 ^ p := by omega
      have hs : k * 2 ^ p + y = (k + 2) * 2 ^ p + 0 := by rw [hy2]; ring
      rw [hs, magnitude_split p (k + 2) 0 hp, if_neg (by omega), hy2, show k + 2 - 1 = k + 1 by omega, pow_succ]
      ring

theorem magnitude_strictMono (p : Nat) : StrictMono (magnitude p) := by
  refine strictMono_nat_of_lt_succ fun b => ?_
  have hp : 0 < 2 ^ p := by positivity
  have hb : b = b / 2 ^ p * 2 ^ p + b % 2 ^ p := (Nat.div_add_mod' b _).symm
  have hf := Nat.mod_lt b hp
  generalize b / 2 ^ p = x at hb
  generalize b % 2 ^ p = f at hb hf
  subst hb
  rw [magnitude_split p x f hf]
  rcases Nat.lt_or_ge (f + 1) (2 ^ p) with h | h
  · rw [Nat.add_assoc, magnitude_split p x (f + 1) h]
    by_cases hx : x = 0
    · simp [hx]
    · rw [if_neg hx, if_neg hx]
      exact Nat.mul_lt_mul_of_pos_right (by omega) (by positivity)
  · have hs : x * 2 ^ p + f + 1 = (x + 1) * 2 ^ p + 0 := by rw [Nat.add_mul x 1]; omega
    rw [hs, magnitude_split p (x + 1) 0 hp, if_neg (Nat.succ_ne_zero x), Nat.add_sub_cancel, Nat.zero_add]
    by_cases hx : x = 0
    · rw [if_pos hx, hx, pow_zero, Nat.mul_one]; exact hf
    · obtain ⟨z, rfl⟩ := Nat.exists_eq_succ_of_ne_zero hx
      rw [if_neg hx, Nat.succ_sub_one, Nat.succ_eq_add_one, pow_succ 2 z, show 2 ^ p * (2 ^ z * 2) = (2 ^ p + 2 ^ p) * 2 ^ z by ring]
      exact Nat.mul_lt_mul_of_pos_right (by omega) (by positivity)

/-- A row of R66's table and the format of the model agree in all that rounding uses. -/
structure FloatRow.Fully (r : FloatRow) (f : FloatFmt) : Prop extends r.Describes f where
  low : f.lowExp = r.low
  noInf : f.noInf = decide (r.fmt = 3)
  fp8 : ftzFmt r.fmt = decide (r.fmt ≤ 2)
  maxBits : f.maxBits = r.max
  inf : r.fmt ≠ 3 → f.infBits = r.inf
  big : magnitude r.mant r.max = r.top * 2 ^ (r.topExp - r.low).toNat
  three : r.fmt = 3 → r.mant = 3 ∧ r.expo = 4
  maxInf : r.fmt ≠ 3 → r.max < (2 ^ r.expo - 1) * 2 ^ r.mant
  maxNan : r.max < 2 ^ (r.expo + r.mant) - 1
  sub : 2 ^ r.mant ≤ r.max

theorem floatRow_fully : ∀ r ∈ floatRows, ∃ f, r.Fully f := by
  simp only [floatRows, List.forall_mem_cons]
  refine ⟨⟨_, ⟨rfl, rfl, rfl, rfl⟩, rfl, rfl, rfl, rfl, fun _ => rfl, ?_, ?_, ?_, ?_, ?_⟩, ⟨_, ⟨rfl, rfl, rfl, rfl⟩, rfl, rfl, rfl, rfl, fun _ => rfl, ?_, ?_, ?_, ?_, ?_⟩,
    ⟨_, ⟨rfl, rfl, rfl, rfl⟩, rfl, rfl, rfl, rfl, fun _ => rfl, ?_, ?_, ?_, ?_, ?_⟩, ⟨_, ⟨rfl, rfl, rfl, rfl⟩, rfl, rfl, rfl, rfl, fun h => absurd rfl h, ?_, ?_, ?_, ?_, ?_⟩,
    ⟨_, ⟨rfl, rfl, rfl, rfl⟩, rfl, rfl, rfl, rfl, fun _ => rfl, ?_, ?_, ?_, ?_, ?_⟩, by simp⟩ <;> decide

/-! ## Reading a pattern -/

section
variable {r : FloatRow} {f : FloatFmt} (h : r.Fully f)
include h

/-- R66: how a pattern reads, by its exponent field and its mantissa field. -/
theorem fully_read (v : Nat) : readNum r.fmt false v =
    if v / 2 ^ r.mant % 2 ^ r.expo = 0 then .fin (v.testBit (r.mant + r.expo)) (v % 2 ^ r.mant) r.low false
    else if r.fmt = 3 then (if v % 2 ^ 7 = 0x7F then .nan
      else .fin (v.testBit (r.mant + r.expo)) (v % 2 ^ r.mant + 2 ^ r.mant) (r.low + (v / 2 ^ r.mant % 2 ^ r.expo - 1 : Nat)) false)
    else if v / 2 ^ r.mant % 2 ^ r.expo = 2 ^ r.expo - 1 then
      (if v % 2 ^ r.mant = 0 then .inf (v.testBit (r.mant + r.expo)) else .nan)
    else .fin (v.testBit (r.mant + r.expo)) (v % 2 ^ r.mant + 2 ^ r.mant) (r.low + (v / 2 ^ r.mant % 2 ^ r.expo - 1 : Nat)) false := by
  have hread : readNum r.fmt false v = f.read v := by simp [readNum, h.fmt]
  rw [hread, FloatFmt.read]
  simp only [h.mant, h.expo, h.low, h.noInf, bits_eq, bit, pow_zero, Nat.div_one, Nat.add_comm r.expo r.mant]
  by_cases h3 : r.fmt = 3
  · obtain ⟨hm, he⟩ := h.three h3
    simp only [h3, hm, he, decide_true, Bool.true_and, Bool.not_true, Bool.false_and, Bool.false_eq_true, if_true, if_false]
    have hiff : ((v / 2 ^ 3 % 2 ^ 4 == 2 ^ 4 - 1 && v % 2 ^ 3 == 2 ^ 3 - 1) = true) ↔ v % 2 ^ 7 = 0x7F := by
      rw [Bool.and_eq_true, beq_iff_eq, beq_iff_eq]; omega
    simp only [hiff]
    by_cases hx : v / 2 ^ 3 % 2 ^ 4 = 0
    · rw [if_neg (by omega), if_pos hx, if_pos hx]
    · rw [if_neg hx, if_neg hx]
  · simp only [h3, decide_false, Bool.false_and, Bool.not_false, Bool.true_and, beq_iff_eq, if_false, Bool.false_eq_true]
    have hpos : 2 ^ r.expo - 1 ≠ 0 := by
      intro h0
      have := h.maxInf h3
      rw [h0] at this
      omega
    by_cases hx : v / 2 ^ r.mant % 2 ^ r.expo = 0
    · rw [if_pos hx, if_neg (by rw [hx]; exact hpos.symm), if_pos hx]
    · rw [if_neg hx, if_neg hx]

/-- R72: under FTZ a subnormal of f32, bf16 or f16 reads as a zero of its sign. -/
theorem fully_read_ftz {v : Nat} (hv : v < 2 ^ (r.mant + r.expo + 1)) : readNum r.fmt true v =
    if r.fmt ≤ 2 ∧ v / 2 ^ r.mant % 2 ^ r.expo = 0 then .fin (v.testBit (r.mant + r.expo)) 0 r.low false else readNum r.fmt false v := by
  have hread : ∀ z v, readNum r.fmt z v = readNum r.fmt false (if z && decide (r.fmt ≤ 2) then f.flush v else v) := by
    intro z v; simp [readNum, h.fmt, h.fp8]
  rw [hread true v, Bool.true_and]
  by_cases h2 : r.fmt ≤ 2
  · have hfl := flush_eq h.toDescribes true hv
    rw [if_pos rfl] at hfl
    simp only [h2, decide_true, if_true, true_and, hfl, FloatRow.flush]
    by_cases hx : v / 2 ^ r.mant % 2 ^ r.expo = 0
    · rw [if_pos hx, if_pos hx, fully_read h]
      have e1 : v / 2 ^ (r.mant + r.expo) * 2 ^ (r.mant + r.expo) / 2 ^ r.mant % 2 ^ r.expo = 0 := by
        rw [pow_add, Nat.mul_comm (2 ^ r.mant), ← Nat.mul_assoc, Nat.mul_div_cancel _ (by positivity), Nat.mul_mod_left]
      have e2 : v / 2 ^ (r.mant + r.expo) * 2 ^ (r.mant + r.expo) % 2 ^ r.mant = 0 := by
        rw [pow_add, Nat.mul_comm (2 ^ r.mant), ← Nat.mul_assoc, Nat.mul_mod_left]
      have e3 : (v / 2 ^ (r.mant + r.expo) * 2 ^ (r.mant + r.expo)).testBit (r.mant + r.expo) = v.testBit (r.mant + r.expo) := by
        rw [Nat.mul_comm, Nat.testBit_two_pow_mul, Nat.testBit_eq_decide_div_mod_eq (x := v)]
        simp
      rw [if_pos e1, e2, e3]
    · rw [if_neg hx, if_neg hx]
  · simp [h2]

/-- A pattern without sign, with a sign put in front. -/
theorem fully_read_signed {b : Nat} (neg : Bool) (hb : b ≤ r.max) :
    let p := (if neg then 2 ^ (r.mant + r.expo) else 0) + b
    p < 2 ^ (r.mant + r.expo + 1) ∧
      ∃ k z, readNum r.fmt false p = .fin neg k z false ∧ k * 2 ^ (z - r.low).toNat = magnitude r.mant b := by
  intro p
  have hlt : b < 2 ^ (r.mant + r.expo) := by have := h.maxNan; rw [Nat.add_comm r.expo] at this; omega
  have hp : p = ofBool neg * 2 ^ (r.mant + r.expo) + b := by
    show (if neg then 2 ^ (r.mant + r.expo) else 0) + b = _
    cases neg <;> simp [ofBool]
  have hlim : p < 2 ^ (r.mant + r.expo + 1) := by
    rw [hp, pow_succ]
    cases neg <;> simp only [ofBool, if_true, if_false, Bool.false_eq_true] <;> omega
  have hbit : p.testBit (r.mant + r.expo) = neg := by
    rw [hp, Nat.mul_comm, Nat.testBit_two_pow_mul_add _ hlt]
    cases neg <;> simp [ofBool]
  have hx : p / 2 ^ r.mant % 2 ^ r.expo = b / 2 ^ r.mant := by
    rw [hp, pow_add, Nat.mul_comm (2 ^ r.mant), ← Nat.mul_assoc, Nat.add_comm, Nat.add_mul_div_right _ _ (by positivity),
      Nat.add_mul_mod_self_right]
    refine Nat.mod_eq_of_lt ?_
    rwa [Nat.div_lt_iff_lt_mul (by positivity), ← pow_add, Nat.add_comm]
  have hm : p % 2 ^ r.mant = b % 2 ^ r.mant := by
    rw [hp, pow_add, Nat.mul_comm (2 ^ r.mant), ← Nat.mul_assoc, Nat.add_comm, Nat.add_mul_mod_self_right]
  refine ⟨hlim, ?_⟩
  rw [fully_read h, hbit, hx, hm, magnitude]
  by_cases h0 : b / 2 ^ r.mant = 0
  · rw [if_pos h0, if_pos h0]
    refine ⟨_, _, rfl, ?_⟩
    rw [Int.sub_self, Int.toNat_zero, pow_zero, Nat.mul_one]
    exact Nat.mod_eq_of_lt ((Nat.div_eq_zero_iff_lt (by positivity)).mp h0)
  · rw [if_neg h0, if_neg h0]
    have hz : ((r.low + ((b / 2 ^ r.mant - 1 : Nat) : Int)) - r.low).toNat = b / 2 ^ r.mant - 1 := by omega
    by_cases h3 : r.fmt = 3
    · obtain ⟨hm3, he4⟩ := h.three h3
      have hmax := h.maxNan
      rw [if_pos h3, if_neg]
      · exact ⟨_, _, rfl, by rw [hz]⟩
      · intro h7
        rw [hm3, he4] at hlt hp
        rw [hm3, he4] at hmax
        cases neg <;> simp only [ofBool, if_true, if_false, Bool.false_eq_true] at hp <;> omega
    · rw [if_neg h3, if_neg]
      · exact ⟨_, _, rfl, by rw [hz]⟩
      · intro he
        have := (Nat.div_lt_iff_lt_mul (k := 2 ^ r.mant) (by positivity)).mpr (hb.trans_lt (h.maxInf h3))
        omega

/-! ## Rounding into a float format (R69 to R73) -/

/-- The sign of a pattern in place. -/
def FloatRow.sign (r : FloatRow) (neg : Bool) : Nat := if neg then 2 ^ (r.mant + r.expo) else 0

theorem fully_signBits (neg : Bool) : f.signBits neg = r.sign neg := by
  unfold FloatFmt.signBits FloatRow.sign
  rw [h.mant, h.expo, Nat.add_comm]

theorem fully_conv (rm n : Nat) (sat ftz : Bool) (x : XReal) :
    convTo r.fmt rm sat ftz n x = f.round (!decide (r.fmt ≤ 2)) sat ftz rm n x := by
  unfold convTo
  rw [h.fmt, h.fp8]

theorem fully_round_nan (rm n : Nat) (sat ftz : Bool) : (convTo r.fmt rm sat ftz n .nan).bits = r.nan := by
  rw [fully_conv h]
  exact h.nan

theorem fully_round_inf (rm n : Nat) (sat ftz neg : Bool) : (convTo r.fmt rm sat ftz n (.inf neg)).bits =
    if r.fmt = 3 then (if sat then r.sign neg + r.max else r.nan) else r.sign neg + r.inf := by
  rw [fully_conv h]
  simp only [FloatFmt.round, h.noInf, fully_signBits h, h.maxBits, h.nan, decide_eq_true_eq]
  by_cases h3 : r.fmt = 3
  · rw [if_pos h3, if_pos h3]
    cases sat <;> rfl
  · rw [if_neg h3, if_neg h3, h.inf h3]

theorem fully_round_zero (rm n : Nat) (sat ftz neg : Bool) (e : Int) :
    (convTo r.fmt rm sat ftz n (.fin neg 0 e false)).bits = r.sign neg := by
  rw [fully_conv h]
  simp [FloatFmt.round, fully_signBits h]

/-- R70: what an overflow gives. -/
theorem fully_overflow (rm : Nat) (sat neg : Bool) : (f.overflow (!decide (r.fmt ≤ 2)) sat rm neg).bits =
    if 2 < r.fmt ∧ sat = true then r.sign neg + r.max else if r.fmt = 3 then r.nan
      else if rm = 1 ∨ rm = 2 ∧ neg = true ∨ rm = 3 ∧ neg = false then r.sign neg + r.max else r.sign neg + r.inf := by
  unfold FloatFmt.overflow
  simp only [h.noInf, fully_signBits h, h.maxBits, h.nan, Bool.and_eq_true, Bool.not_eq_true', decide_eq_false_iff_not, decide_eq_true_eq, not_le]
  by_cases hs : 2 < r.fmt ∧ sat = true
  · rw [if_pos hs, if_pos hs]
  · rw [if_neg hs, if_neg hs]
    by_cases h3 : r.fmt = 3
    · rw [if_pos h3, if_pos h3]
    · rw [if_neg h3, if_neg h3, h.inf h3]
      rcases rm with _ | _ | _ | _ | rm
      · simp
      · simp
      · cases neg <;> simp
      · cases neg <;> simp
      · simp

/-- A nonzero magnitude rounded: the pattern without sign has the rounded size, and past the greatest finite one it overflows. -/
theorem fully_round_fin {rm m n y : Nat} {sat ftz neg : Bool} {e : Int} (hm : 0 < m)
    (hR : Rounds rm neg m e (max ((m.log2 : Int) + e - r.mant) r.low) n y) :
    ∃ b, magnitude r.mant b = y * 2 ^ (max ((m.log2 : Int) + e - r.mant) r.low - r.low).toNat ∧
      (convTo r.fmt rm sat ftz n (.fin neg m e false)).bits =
        if r.max < b then (f.overflow (!decide (r.fmt ≤ 2)) sat rm neg).bits
        else if ftz = true ∧ r.fmt ≤ 2 ∧ b < 2 ^ r.mant then r.sign neg else r.sign neg + b := by
  have hy := rounds_iff.mp hR
  have hlen : ((bitLen m : Nat) : Int) - 1 + e = (m.log2 : Int) + e := by
    unfold bitLen; rw [if_neg hm.ne']; push_cast; ring
  obtain ⟨hlt, hge⟩ := cutAt_bounds (p := r.mant) (e := e) (low := r.low) hm
  obtain ⟨hlo, hhi⟩ := roundMag_between rm m n neg false e (max ((m.log2 : Int) + e - r.mant) r.low)
  rw [hy] at hlo hhi
  have hrd : f.round (!decide (r.fmt ≤ 2)) sat ftz rm n (.fin neg m e false) =
      if r.max < (max ((m.log2 : Int) + e - r.mant) r.low - r.low).toNat <<< r.mant + y then
        f.overflow (!decide (r.fmt ≤ 2)) sat rm neg
      else if ftz && !(!decide (r.fmt ≤ 2)) && (max ((m.log2 : Int) + e - r.mant) r.low - r.low).toNat <<< r.mant + y < 2 ^ r.mant then
        ⟨r.sign neg, .plain⟩
      else ⟨r.sign neg + ((max ((m.log2 : Int) + e - r.mant) r.low - r.low).toNat <<< r.mant + y), .plain⟩ := by
    unfold FloatFmt.round
    dsimp only
    rw [if_neg fun x => hm.ne' x.1, hlen, h.mant, h.low, h.maxBits, hy, fully_signBits h]
  generalize max ((m.log2 : Int) + e - r.mant) r.low = q at *
  refine ⟨(q - r.low).toNat * 2 ^ r.mant + y, magnitude_add (by omega) fun hk => (hge (by omega)).trans hlo, ?_⟩
  rw [fully_conv h, hrd, Nat.shiftLeft_eq]
  simp only [Bool.not_not, Bool.and_eq_true, decide_eq_true_eq, and_assoc]
  split
  · rfl
  · split <;> rfl

/-- Clause by clause what R66 and R69 to R73 say of a rounded magnitude. -/
theorem fully_rounded {rm m n y : Nat} {sat ftz neg : Bool} {e : Int} (hm : 0 < m)
    (hR : Rounds rm neg m e (max ((m.log2 : Int) + e - r.mant) r.low) n y) :
    let size := y * 2 ^ (max ((m.log2 : Int) + e - r.mant) r.low - r.low).toNat
    let big := r.top * 2 ^ (r.topExp - r.low).toNat
    let p := (convTo r.fmt rm sat ftz n (.fin neg m e false)).bits
    (big < size → p = (if 2 < r.fmt ∧ sat = true then r.sign neg + r.max else if r.fmt = 3 then r.nan
      else if rm = 1 ∨ rm = 2 ∧ neg = true ∨ rm = 3 ∧ neg = false then r.sign neg + r.max else r.sign neg + r.inf)) ∧
    (size ≤ big → ftz = true ∧ r.fmt ≤ 2 ∧ size < 2 ^ r.mant → p = r.sign neg) ∧
    (size ≤ big → ¬(ftz = true ∧ r.fmt ≤ 2 ∧ size < 2 ^ r.mant) →
      p < 2 ^ (r.mant + r.expo + 1) ∧ ∃ k z, readNum r.fmt false p = .fin neg k z false ∧ k * 2 ^ (z - r.low).toNat = size) := by
  intro size big p
  obtain ⟨b, hb, hp⟩ := fully_round_fin h (sat := sat) (ftz := ftz) hm hR
  have hmono := magnitude_strictMono r.mant
  have hover : r.max < b ↔ big < size := by
    rw [← hmono.lt_iff_lt, h.big, hb]
  have hpow : magnitude r.mant (2 ^ r.mant) = 2 ^ r.mant := by
    have := magnitude_split r.mant 1 0 (by positivity)
    simpa using this
  have hsub : b < 2 ^ r.mant ↔ size < 2 ^ r.mant := by
    rw [← hmono.lt_iff_lt, hpow, hb]
  have hp' : p = if r.max < b then (f.overflow (!decide (r.fmt ≤ 2)) sat rm neg).bits
        else if ftz = true ∧ r.fmt ≤ 2 ∧ size < 2 ^ r.mant then r.sign neg else r.sign neg + b := by
    simp only [← hsub]; exact hp
  rw [hp']
  refine ⟨fun hbig => ?_, fun hle hz => ?_, fun hle hz => ?_⟩
  · rw [if_pos (hover.mpr hbig), fully_overflow h]
  · rw [if_neg fun x => absurd (hover.mp x) (Nat.not_lt.mpr hle), if_pos hz]
  · have hbm : ¬ r.max < b := fun x => absurd (hover.mp x) (Nat.not_lt.mpr hle)
    rw [if_neg hbm, if_neg hz]
    obtain ⟨hlim, k, z, hk, hkz⟩ := fully_read_signed h neg (Nat.not_lt.mp hbm)
    exact ⟨hlim, k, z, hk, hkz.trans hb⟩

end

/-! ## Integers (R68) -/

theorem clampInt_eq {lo hi : Int} (h : lo ≤ hi) (i : Int) : clampInt lo hi i = max lo (min hi i) := by
  unfold clampInt
  split
  · omega
  · split <;> omega

theorem intRange_le (sgn : Bool) (w : Nat) : (intRange sgn w).1 ≤ (intRange sgn w).2 := by
  have h1 : 0 < 2 ^ w := by positivity
  have h2 : 0 < 2 ^ (w - 1) := by positivity
  unfold intRange
  cases sgn
  · simp only [Bool.false_eq_true, if_false]; omega
  · simp only [if_true]; omega

theorem wrap_eq (w : Nat) (i : Int) : wrap w i = (i % 2 ^ w).toNat := by
  unfold wrap
  push_cast
  rfl

/-- A container read as an integer of two's complement. -/
theorem readInt_of_lt (sgn : Bool) {w v : Nat} (hw : 0 < w) (hv : v < 2 ^ w) :
    readInt sgn w v = if sgn = true ∧ 2 ^ (w - 1) ≤ v then (v : Int) - 2 ^ w else v := by
  have h2 : 2 ^ w = 2 * 2 ^ (w - 1) := by rw [← pow_succ']; congr 1; omega
  unfold readInt signed
  cases sgn
  · simp [Nat.mod_eq_of_lt hv]
  · simp only [if_true, true_and, Nat.mod_eq_of_lt hv]
    by_cases hh : 2 ^ (w - 1) ≤ v
    · rw [if_neg (by omega), if_pos hh]; push_cast; rfl
    · rw [if_pos (by omega), if_neg hh]

theorem intRow_width : ∀ r ∈ intRows, 0 < r.2.2 := by decide

/-- What an integer format takes a value to: NaN gives 0, the infinities the ends of the range, other values are rounded and
clamped. -/
theorem roundInt_fin {rm m n y : Nat} {neg : Bool} {e : Int} (sgn : Bool) (w : Nat) (hR : Rounds rm neg m e 0 n y) :
    (roundInt sgn w rm n (.fin neg m e false)).bits =
      wrap w (max (intRange sgn w).1 (min (intRange sgn w).2 (if neg then -(y : Int) else y))) := by
  rw [← clampInt_eq (intRange_le sgn w), ← rounds_iff.mp hR]
  rfl

theorem roundInt_inf (rm n : Nat) (sgn neg : Bool) (w : Nat) : (roundInt sgn w rm n (.inf neg)).bits =
    wrap w (max (intRange sgn w).1 (min (intRange sgn w).2 (if neg then (intRange sgn w).1 else (intRange sgn w).2))) := by
  have h := intRange_le sgn w
  have hx : max (intRange sgn w).1 (min (intRange sgn w).2 (if neg then (intRange sgn w).1 else (intRange sgn w).2)) =
      if neg then (intRange sgn w).1 else (intRange sgn w).2 := by
    cases neg <;> simp only [if_true, if_false, Bool.false_eq_true] <;> omega
  rw [hx]
  rfl

/-! ## Sums and products (R69) -/

theorem atExp_add_val (na nb : Bool) (ma mb : Nat) (ea eb : Int) :
    (XReal.fin na ma ea false).val + (XReal.fin nb mb eb false).val =
      ((atExp na ma ea (min ea eb) + atExp nb mb eb (min ea eb) : Int) : ℚ) * 2 ^ min ea eb := by
  rw [atExp_val na ma ea _ false (min_le_left ea eb), atExp_val nb mb eb _ false (min_le_right ea eb)]
  push_cast
  ring

theorem val_signed (i q : Int) (l : Bool) : (XReal.fin (decide (i < 0)) i.natAbs q l).val = (i : ℚ) * 2 ^ q := by
  rw [val_fin]
  by_cases h : i < 0
  · have : ((i.natAbs : Nat) : ℚ) = -(i : ℚ) := by rw [Nat.cast_natAbs, abs_of_neg h]; push_cast; rfl
    rw [decide_eq_true h, if_pos rfl, this]; ring
  · have : ((i.natAbs : Nat) : ℚ) = (i : ℚ) := by rw [Nat.cast_natAbs, abs_of_nonneg (not_lt.mp h)]
    rw [decide_eq_false h, if_neg Bool.false_ne_true, this]; ring

/-- A sum of exact values is exact; a zero sum takes its sign as R69 says. -/
theorem add_exact (rdn na nb : Bool) (ma mb : Nat) (ea eb : Int) :
    let a : XReal := .fin na ma ea false
    let b : XReal := .fin nb mb eb false
    (XReal.add rdn a b).exact ∧ (XReal.add rdn a b).val = a.val + b.val ∧
      (a.val + b.val = 0 → (XReal.add rdn a b).sign = if na = nb then na else rdn) := by
  intro a b
  have hv : a.val + b.val = _ := atExp_add_val na nb ma mb ea eb
  have hp := (two_zpow_pos (min ea eb)).ne'
  have hadd : XReal.add rdn a b = if atExp na ma ea (min ea eb) + atExp nb mb eb (min ea eb) = 0 then
      .fin (if na = nb then na else rdn) 0 (min ea eb) false
    else .fin (decide (atExp na ma ea (min ea eb) + atExp nb mb eb (min ea eb) < 0))
      (atExp na ma ea (min ea eb) + atExp nb mb eb (min ea eb)).natAbs (min ea eb) false := rfl
  rw [hadd, hv]
  generalize atExp na ma ea (min ea eb) + atExp nb mb eb (min ea eb) = i
  by_cases hi : i = 0
  · rw [if_pos hi]
    exact ⟨⟨_, _, _, rfl⟩, by rw [hi, (val_eq_zero _ _ _ _).mpr rfl]; simp, fun _ => rfl⟩
  · rw [if_neg hi]
    refine ⟨⟨_, _, _, rfl⟩, val_signed i _ _, fun h0 => absurd h0 ?_⟩
    exact mul_ne_zero (by exact_mod_cast hi) hp

theorem mul_exact (na nb : Bool) (ma mb : Nat) (ea eb : Int) :
    let a : XReal := .fin na ma ea false
    let b : XReal := .fin nb mb eb false
    (a.mul b).exact ∧ (a.mul b).val = a.val * b.val ∧ (a.mul b).sign = (na != nb) := by
  intro a b
  refine ⟨⟨_, _, _, rfl⟩, ?_, rfl⟩
  show (XReal.fin (na != nb) (ma * mb) (ea + eb) false).val = _
  rw [val_fin, val_fin, val_fin, zpow_add₀ (by norm_num)]
  cases na <;> cases nb <;> push_cast <;> simp <;> ring

end Sys2Proof.Machine
end

section
/-! PROOF. What the quantiser of R77 answers for a block (O36). -/
namespace Sys2Proof.Machine
open Sys2Proof

/-! ## Exact values and their greatest magnitude -/

theorem exact_isFin {x : XReal} (h : x.exact) : x.isFin = true := by
  obtain ⟨neg, m, e, rfl⟩ := h
  rfl

theorem exact_scale {x : XReal} (h : x.exact) (k : Int) : (x.scale k).exact ∧ (x.scale k).val = x.val * 2 ^ k := by
  obtain ⟨neg, m, e, rfl⟩ := h
  refine ⟨⟨_, _, _, rfl⟩, ?_⟩
  show (XReal.fin neg m (e + k) false).val = _
  rw [val_fin, val_fin, zpow_add₀ (by norm_num)]
  ring

theorem exact_abs {x : XReal} (h : x.exact) : x.abs.exact ∧ x.abs.val = |x.val| := by
  obtain ⟨neg, m, e, rfl⟩ := h
  exact ⟨⟨_, _, _, rfl⟩, abs_val⟩

theorem exact_neg {x : XReal} (h : x.exact) : x.neg.exact ∧ x.neg.val = -x.val := by
  obtain ⟨neg, m, e, rfl⟩ := h
  exact ⟨⟨_, _, _, rfl⟩, neg_val⟩

theorem exact_add {x y : XReal} (hx : x.exact) (hy : y.exact) (rdn : Bool) :
    (XReal.add rdn x y).exact ∧ (XReal.add rdn x y).val = x.val + y.val := by
  obtain ⟨na, ma, ea, rfl⟩ := hx
  obtain ⟨nb, mb, eb, rfl⟩ := hy
  obtain ⟨h1, h2, _⟩ := add_exact rdn na nb ma mb ea eb
  exact ⟨h1, h2⟩

theorem exact_mul {x y : XReal} (hx : x.exact) (hy : y.exact) : (x.mul y).exact ∧ (x.mul y).val = x.val * y.val := by
  obtain ⟨na, ma, ea, rfl⟩ := hx
  obtain ⟨nb, mb, eb, rfl⟩ := hy
  obtain ⟨h1, h2, _⟩ := mul_exact na nb ma mb ea eb
  exact ⟨h1, h2⟩

theorem exact_isZero {x : XReal} (h : x.exact) : x.isZero = true ↔ x.val = 0 := by
  obtain ⟨neg, m, e, rfl⟩ := h
  rw [val_eq_zero]
  exact beq_iff_eq

/-- The exponent of a value's leading bit. -/
theorem floorLog2_eq {x : XReal} (h : x.exact) (h0 : x.val ≠ 0) : floorLog2 x = Int.log 2 |x.val| := by
  obtain ⟨neg, m, e, rfl⟩ := h
  rw [Ne, val_eq_zero] at h0
  rw [val_abs]
  have hp := two_zpow_pos e
  have hpos : (0 : ℚ) < m * 2 ^ e := mul_pos (by exact_mod_cast Nat.pos_of_ne_zero h0) hp
  have hfl : floorLog2 (.fin neg m e false) = (m.log2 : Int) + e := by
    show ((bitLen m : Nat) : Int) - 1 + e = _
    unfold bitLen
    rw [if_neg h0]
    push_cast
    ring
  have hz : (2 : ℚ) ^ ((m.log2 : Int) + e) = ((2 ^ m.log2 : Nat) : ℚ) * 2 ^ e := by
    rw [zpow_add₀ (by norm_num), two_zpow_nat]
  have hz1 : (2 : ℚ) ^ ((m.log2 : Int) + e + 1) = ((2 ^ (m.log2 + 1) : Nat) : ℚ) * 2 ^ e := by
    rw [show (m.log2 : Int) + e + 1 = ((m.log2 + 1 : Nat) : Int) + e by push_cast; ring, zpow_add₀ (by norm_num), two_zpow_nat]
  rw [hfl]
  refine le_antisymm ?_ ?_
  · rw [← Int.zpow_le_iff_le_log (by decide) hpos]
    push_cast
    rw [hz]
    exact mul_le_mul_of_nonneg_right (by exact_mod_cast Nat.log2_self_le h0) hp.le
  · refine Int.lt_add_one_iff.mp ((Int.lt_zpow_iff_log_lt (by decide) hpos).mp ?_)
    push_cast
    rw [hz1]
    exact mul_lt_mul_of_pos_right (by exact_mod_cast Nat.lt_log2_self) hp

theorem maxMag_val {a b : XReal} (ha : a.exact) (hb : b.exact) : (maxMag a b).exact ∧ (maxMag a b).val = max |a.val| |b.val| := by
  obtain ⟨ea, va⟩ := exact_abs ha
  obtain ⟨eb, vb⟩ := exact_abs hb
  unfold maxMag
  rw [cmp_fin (exact_isFin ea) (exact_isFin eb), va, vb]
  by_cases h : |a.val| < |b.val|
  · rw [if_pos h, if_pos rfl, max_eq_right h.le]; exact ⟨eb, vb⟩
  · rw [if_neg h, if_neg (by split <;> simp), max_eq_left (not_lt.mp h)]; exact ⟨ea, va⟩

/-- The greatest magnitude of a list of exact values, at least that of a start value. -/
theorem foldl_maxMag (l : List XReal) : ∀ a : XReal, a.exact → 0 ≤ a.val → (∀ x ∈ l, x.exact) →
    (l.foldl maxMag a).exact ∧ a.val ≤ (l.foldl maxMag a).val ∧ (∀ x ∈ l, |x.val| ≤ (l.foldl maxMag a).val) ∧
      ((l.foldl maxMag a).val = a.val ∨ ∃ x ∈ l, |x.val| = (l.foldl maxMag a).val) := by
  induction l with
  | nil => exact fun a ha h0 _ => ⟨ha, le_refl _, fun x hx => absurd hx List.not_mem_nil, Or.inl rfl⟩
  | cons b r ih =>
    intro a ha h0 hl
    obtain ⟨hb, hr⟩ := List.forall_mem_cons.mp hl
    obtain ⟨em, vm⟩ := maxMag_val ha hb
    rw [abs_of_nonneg h0] at vm
    obtain ⟨h1, h2, h3, h4⟩ := ih (maxMag a b) em (by rw [vm]; exact le_max_of_le_left h0) hr
    rw [vm] at h2 h4
    rw [List.foldl_cons]
    refine ⟨h1, (le_max_left _ _).trans h2, ?_, ?_⟩
    · exact List.forall_mem_cons.mpr ⟨(le_max_right _ _).trans h2, h3⟩
    · rcases h4 with h4 | ⟨x, hx, h4⟩
      · rcases max_choice a.val |b.val| with hm | hm
        · exact Or.inl (h4.trans hm)
        · exact Or.inr ⟨b, List.mem_cons_self, hm.symm.trans h4.symm⟩
      · exact Or.inr ⟨x, List.mem_cons_of_mem _ hx, h4⟩

theorem maxMags_zero {l : List XReal} (h : ∀ x ∈ l, x.exact) (hz : ∀ x ∈ l, x.val = 0) :
    (maxMags l).exact ∧ (maxMags l).val = 0 := by
  obtain ⟨h1, -, -, h4⟩ := foldl_maxMag l _ (isZero_fin false 0).1 (isZero_fin false 0).2.1.ge h
  refine ⟨h1, ?_⟩
  rcases h4 with h4 | ⟨x, hx, h4⟩
  · exact h4.trans (isZero_fin false 0).2.1
  · unfold maxMags; rw [← h4, hz x hx, abs_zero]

theorem maxMags_val {l : List XReal} {v : ℚ} (h : ∀ x ∈ l, x.exact) (hle : ∀ x ∈ l, |x.val| ≤ v) (hex : ∃ x ∈ l, |x.val| = v) :
    (maxMags l).exact ∧ (maxMags l).val = v := by
  obtain ⟨h1, -, h3, h4⟩ := foldl_maxMag l _ (isZero_fin false 0).1 (isZero_fin false 0).2.1.ge h
  obtain ⟨x, hx, hv⟩ := hex
  refine ⟨h1, le_antisymm ?_ (hv ▸ h3 x hx)⟩
  rcases h4 with h4 | ⟨z, hz, h4⟩
  · unfold maxMags; rw [h4, (isZero_fin false 0).2.1, ← hv]; exact abs_nonneg _
  · unfold maxMags; rw [← h4]; exact hle z hz

/-! ## The loop over the exponents -/

/-- R77's loop: the first exponent of a few that does is taken, else the last one of them, none above 127. -/
def climb {β : Type} (ok : Int → Bool) (hit miss : Int → β) : Nat → Int → β
  | fuel, e =>
    if 127 < e then miss 127
    else if ok e then hit e
    else
      match fuel with
      | 0 => miss e
      | k + 1 => climb ok hit miss k (e + 1)

section
variable {β : Type} {ok : Int → Bool} {hit miss : Int → β}

theorem climb_hit {k : Int} (fuel : Nat) : ∀ e : Int, e ≤ k → k ≤ min 127 (e + fuel) → ok k = true → (∀ j, e ≤ j → j < k → ok j = false) →
    climb ok hit miss fuel e = hit k := by
  induction fuel with
  | zero =>
    intro e h1 h2 h3 h4
    have : e = k := by omega
    subst this
    rw [climb, if_neg (by omega), if_pos h3]
  | succ n ih =>
    intro e h1 h2 h3 h4
    rw [climb, if_neg (by omega)]
    by_cases he : e = k
    · subst he; rw [if_pos h3]
    · rw [if_neg (by rw [h4 e (le_refl _) (by omega)]; decide)]
      exact ih (e + 1) (by omega) (by push_cast at h2; omega) h3 fun j hj => h4 j (by omega)

theorem climb_miss (fuel : Nat) : ∀ e : Int, (∀ j, e ≤ j → j ≤ min 127 (e + fuel) → ok j = false) →
    climb ok hit miss fuel e = miss (min 127 (e + fuel)) := by
  induction fuel with
  | zero =>
    intro e h
    rw [climb]
    by_cases he : 127 < e
    · rw [if_pos he]; congr 1; omega
    · rw [if_neg he, if_neg (by rw [h e (le_refl _) (by omega)]; decide)]
      show miss e = _
      congr 1
      omega
  | succ n ih =>
    intro e h
    rw [climb]
    by_cases he : 127 < e
    · rw [if_pos he]; congr 1; omega
    · rw [if_neg he, if_neg (by rw [h e (le_refl _) (by omega)]; decide)]
      refine (ih (e + 1) fun j h1 h2 => h j (by omega) (by push_cast; omega)).trans ?_
      congr 1
      push_cast
      omega

theorem no_fit {p : Int → Prop} {e : Int} (h : ∀ k, ¬ Fits p e k) (n : Nat) : e + n ≤ min 127 (e + 3) → ¬ p (e + n) := by
  induction n using Nat.strong_induction_on with
  | _ n ih =>
    intro hn hp
    refine h (e + n) ⟨by omega, hn, hp, fun j h1 h2 => ?_⟩
    have hj : j = e + ((j - e).toNat : Nat) := by omega
    rw [hj]
    exact ih _ (by omega) (by omega)

/-- The loop of three retries in the statement's terms. -/
theorem climb_fits {p : Int → Prop} (hp : ∀ e, ok e = true ↔ p e) (e0 e : Int) :
    (Fits p e0 e → climb ok hit miss 3 e0 = hit e) ∧
    ((∀ k, ¬ Fits p e0 k) → e = min 127 (e0 + 3) → climb ok hit miss 3 e0 = miss e) := by
  have hno : ∀ e, ¬ p e → ok e = false := fun e he => Bool.eq_false_iff.mpr fun x => he ((hp e).mp x)
  refine ⟨fun ⟨h1, h2, h3, h4⟩ => climb_hit 3 e0 h1 h2 ((hp e).mpr h3) fun j hj hjk => hno j (h4 j hj hjk), fun h he => ?_⟩
  rw [he]
  refine climb_miss 3 e0 fun j h1 h2 => hno j ?_
  have hj : j = e0 + ((j - e0).toNat : Nat) := by omega
  rw [hj]
  exact no_fit h _ (by push_cast at h2; omega)

end

/-! ## A kb block -/

theorem kbLoop_climb (w rm : Nat) (xs : List (XReal × Nat)) (fuel : Nat) : ∀ e, kbLoop w rm xs fuel e =
    climb (fun e => (xs.map fun x => kbEncode w rm x.2 (x.1.scale (-e))).all fun m => decide ((intRange true w).1 ≤ m ∧ m ≤ (intRange true w).2))
      (fun e => ⟨(e + 127).toNat, xs.map fun x => kbEncode w rm x.2 (x.1.scale (-e)), false⟩)
      (fun e => ⟨(e + 127).toNat, (xs.map fun x => kbEncode w rm x.2 (x.1.scale (-e))).map (clampInt (intRange true w).1 (intRange true w).2), true⟩)
      fuel e := by
  induction fuel with
  | zero => intro e; rw [kbLoop, climb]
  | succ n ih => intro e; rw [kbLoop, climb, ← ih]

/-- The mantissa of an exact element at exponent `e`. -/
theorem kbEncode_iff {x : XReal × Nat} (hx : x.1.exact) (w rm : Nat) (e k : Int) :
    (∃ neg m ex y, x.1 = .fin neg m ex false ∧ Rounds rm neg m (ex - e + w - 2) 0 x.2 y ∧ k = if neg then -(y : Int) else y) ↔
      kbEncode w rm x.2 (x.1.scale (-e)) = k := by
  obtain ⟨neg, m, ex, hfin⟩ := hx
  have henc : kbEncode w rm x.2 (x.1.scale (-e)) =
      if neg then -(roundMag rm neg false m (ex - e + w - 2) 0 x.2 : Int) else roundMag rm neg false m (ex - e + w - 2) 0 x.2 := by
    rw [hfin]
    show (if neg then -(roundMag rm neg false m (ex + -e + ((w : Int) - 2)) 0 x.2 : Int) else
      roundMag rm neg false m (ex + -e + ((w : Int) - 2)) 0 x.2) = _
    rw [show ex + -e + ((w : Int) - 2) = ex - e + w - 2 by ring]
  rw [henc]
  constructor
  · rintro ⟨neg', m', ex', y, h, hR, hk⟩
    rw [hfin] at h
    cases h
    rw [rounds_iff.mp hR, hk]
  · intro hk
    exact ⟨neg, m, ex, _, hfin, rounds_iff.mpr rfl, hk.symm⟩

theorem forall₂_map_eq {α β : Type} {R : α → β → Prop} {g : α → β} {l : List α} {r : List β} (hR : ∀ a ∈ l, ∀ b, R a b → g a = b)
    (h : List.Forall₂ R l r) : r = l.map g := by
  induction h with
  | nil => rfl
  | cons hab _ ih =>
    rw [List.map_cons, hR _ List.mem_cons_self _ hab, ← ih fun a ha => hR a (List.mem_cons_of_mem _ ha)]

theorem wrap_zero (w : Nat) : wrap w 0 = 0 := by
  unfold wrap
  rw [Int.zero_emod]
  rfl

theorem quantise_kb {fmt : Nat} (h : isKb fmt = true) (rm : Nat) (bank : Tab Word × Nat) (xs : List (XReal × Nat)) :
    quantise fmt rm bank (xs.map fun x => ([x.1], x.2)) =
      .ok ⟨(kbQuantise (kbBits fmt) rm xs).sb, (kbQuantise (kbBits fmt) rm xs).mants.map (wrap (fmtWidth fmt)),
        (kbQuantise (kbBits fmt) rm xs).sat⟩ := by
  have hx : (xs.map fun x => ([x.1], x.2)).map (fun x => (nth XReal.nan x.1 0, x.2)) = xs := by
    rw [List.map_map]
    exact List.map_id _
  unfold quantise
  simp only [h, if_true, hx]

theorem any_nan {α : Type} (l : List α) (g : α → XReal) : (l.any fun x => (g x).isNan) = true ↔ ∃ x ∈ l, g x = .nan := by
  rw [List.any_eq_true]
  simp only [isNan_iff]

theorem any_notFin {α : Type} (l : List α) (g : α → XReal) : (l.any fun x => !(g x).isFin) = true ↔
    ∃ x ∈ l, g x = .nan ∨ ∃ n, g x = .inf n := by
  rw [List.any_eq_true]
  refine exists_congr fun x => and_congr_right fun _ => ?_
  cases g x <;> simp [XReal.isFin]

theorem kbQuantise_nan {w rm : Nat} {xs : List (XReal × Nat)} (h : ∃ x ∈ xs, x.1 = .nan) :
    kbQuantise w rm xs = ⟨255, xs.map fun _ => 0, false⟩ := by
  unfold kbQuantise
  rw [if_pos ((any_nan xs Prod.fst).mpr h)]

theorem kbQuantise_inf {w rm : Nat} {xs : List (XReal × Nat)} (h : ∀ x ∈ xs, x.1 ≠ .nan) (hi : ∃ x ∈ xs, ∃ n, x.1 = .inf n) :
    kbQuantise w rm xs = ⟨255, xs.map fun _ => 0, true⟩ := by
  have h1 : ¬ (xs.any fun x => x.1.isNan) = true := fun hx => by
    obtain ⟨x, hx, hn⟩ := (any_nan xs Prod.fst).mp hx
    exact h x hx hn
  have h2 : (xs.any fun x => !x.1.isFin) = true := by
    obtain ⟨x, hx, hn⟩ := hi
    exact (any_notFin xs Prod.fst).mpr ⟨x, hx, Or.inr hn⟩
  unfold kbQuantise
  rw [if_neg h1, if_pos h2]

theorem kbQuantise_exact {w rm : Nat} {xs : List (XReal × Nat)} (h : ∀ x ∈ xs, x.1.exact) :
    kbQuantise w rm xs = if (maxMags (xs.map Prod.fst)).isZero then ⟨0, xs.map fun _ => 0, false⟩
      else kbLoop w rm xs 3 (max (floorLog2 (maxMags (xs.map Prod.fst))) (-127)) := by
  have hno : ∀ x ∈ xs, ¬ (x.1 = .nan ∨ ∃ n, x.1 = .inf n) := fun x hx => by
    obtain ⟨neg, m, e, he⟩ := h x hx
    rw [he]
    simp
  have h1 : ¬ (xs.any fun x => x.1.isNan) = true := fun hx => by
    obtain ⟨x, hx, hn⟩ := (any_nan xs Prod.fst).mp hx
    exact hno x hx (Or.inl hn)
  have h2 : ¬ (xs.any fun x => !x.1.isFin) = true := fun hx => by
    obtain ⟨x, hx, hn⟩ := (any_notFin xs Prod.fst).mp hx
    exact hno x hx hn
  unfold kbQuantise
  rw [if_neg h1, if_neg h2]

/-- R77, for a kb block. -/
theorem quantise_kb_spec (fmt rm : Nat) (bank : Tab Word × Nat) (xs : List (XReal × Nat)) (amax : ℚ) (hkb : isKb fmt = true) :
    let w := kbBits fmt
    let r := quantise fmt rm bank (xs.map fun x => ([x.1], x.2))
    let all := fun (sb : Nat) (sat : Bool) => Except.ok (⟨sb, xs.map fun _ => 0, sat⟩ : QBlock)
    ((∃ x ∈ xs, x.1 = .nan) → r = all 255 false) ∧
    ((∀ x ∈ xs, x.1 ≠ .nan) → (∃ x ∈ xs, ∃ n, x.1 = .inf n) → r = all 255 true) ∧
    ((∀ x ∈ xs, x.1.exact ∧ x.1.val = 0) → r = all 0 false) ∧
    ((∀ x ∈ xs, x.1.exact ∧ |x.1.val| ≤ amax) → (∃ x ∈ xs, |x.1.val| = amax) → 0 < amax →
      let e0 := max (Int.log 2 amax) (-127)
      let code := fun (e : Int) (x : XReal × Nat) (k : Int) => ∃ neg m ex y, x.1 = .fin neg m ex false ∧
        Rounds rm neg m (ex - e + w - 2) 0 x.2 y ∧ k = if neg then -(y : Int) else y
      let fits := fun (e : Int) => ∀ x ∈ xs, ∀ k, code e x k → -2 ^ (w - 1) ≤ k ∧ k < 2 ^ (w - 1)
      ∀ (e : Int) (ks : List Int), List.Forall₂ (code e) xs ks →
        (Fits fits e0 e → r = .ok ⟨(e + 127).toNat, ks.map (wrap (fmtWidth fmt)), false⟩) ∧
        ((∀ k, ¬ Fits fits e0 k) → e = min 127 (e0 + 3) →
          r = .ok ⟨(e + 127).toNat, ks.map fun k => wrap (fmtWidth fmt) (max (-2 ^ (w - 1)) (min (2 ^ (w - 1) - 1) k)), true⟩)) := by
  intro w r all
  have hr : r = .ok ⟨(kbQuantise w rm xs).sb, (kbQuantise w rm xs).mants.map (wrap (fmtWidth fmt)), (kbQuantise w rm xs).sat⟩ :=
    quantise_kb hkb rm bank xs
  have hz : (xs.map fun _ => (0 : Int)).map (wrap (fmtWidth fmt)) = xs.map fun _ => 0 := by
    rw [List.map_map]
    exact List.map_congr_left fun _ _ => wrap_zero _
  rw [hr]
  refine ⟨fun h => ?_, fun h hi => ?_, fun h => ?_, fun h hex hpos => ?_⟩
  · rw [kbQuantise_nan h]; exact congrArg (fun l => Except.ok (⟨255, l, false⟩ : QBlock)) hz
  · rw [kbQuantise_inf h hi]; exact congrArg (fun l => Except.ok (⟨255, l, true⟩ : QBlock)) hz
  · have hm := maxMags_zero (l := xs.map Prod.fst) (List.forall_mem_map.mpr fun x hx => (h x hx).1)
      (List.forall_mem_map.mpr fun x hx => (h x hx).2)
    rw [kbQuantise_exact fun x hx => (h x hx).1, if_pos ((exact_isZero hm.1).mpr hm.2)]
    exact congrArg (fun l => Except.ok (⟨0, l, false⟩ : QBlock)) hz
  · intro e0 code fits e ks hks
    have hex' : ∃ z ∈ xs.map Prod.fst, |z.val| = amax := by
      obtain ⟨x, hx, hv⟩ := hex
      exact ⟨x.1, List.mem_map_of_mem hx, hv⟩
    obtain ⟨hmE, hmV⟩ := maxMags_val (l := xs.map Prod.fst) (List.forall_mem_map.mpr fun x hx => (h x hx).1)
      (List.forall_mem_map.mpr fun x hx => (h x hx).2) hex'
    have hne : (maxMags (xs.map Prod.fst)).val ≠ 0 := by rw [hmV]; exact hpos.ne'
    have hcode : ∀ e, ∀ x ∈ xs, ∀ k, code e x k ↔ kbEncode w rm x.2 (x.1.scale (-e)) = k :=
      fun e x hx k => kbEncode_iff (h x hx).1 w rm e k
    have hks' : ks = xs.map fun x => kbEncode w rm x.2 (x.1.scale (-e)) :=
      forall₂_map_eq (fun x hx k hk => (hcode e x hx k).mp hk) hks
    have hrange : (intRange true w).1 = -2 ^ (w - 1) ∧ (intRange true w).2 = 2 ^ (w - 1) - 1 := by
      unfold intRange
      simp only [if_true]
      push_cast
      exact ⟨rfl, rfl⟩
    have hp : ∀ e, ((xs.map fun x => kbEncode w rm x.2 (x.1.scale (-e))).all
        fun m => decide ((intRange true w).1 ≤ m ∧ m ≤ (intRange true w).2)) = true ↔ fits e := by
      intro e
      rw [List.all_eq_true, List.forall_mem_map, hrange.1, hrange.2]
      refine forall_congr' fun x => forall_congr' fun hx => ?_
      rw [decide_eq_true_iff, Int.le_sub_one_iff]
      constructor
      · intro hle k hk
        rw [← (hcode e x hx k).mp hk]; exact hle
      · intro hle
        exact hle _ ((hcode e x hx _).mpr rfl)
    have hq : kbQuantise w rm xs = _ := (kbQuantise_exact fun x hx => (h x hx).1).trans
      (by rw [if_neg fun x => hne ((exact_isZero hmE).mp x), floorLog2_eq hmE hne, hmV, abs_of_pos hpos, kbLoop_climb])
    obtain ⟨hhit, hmiss⟩ := climb_fits hp e0 e
    rw [hq]
    refine ⟨fun hf => ?_, fun hf he => ?_⟩
    · rw [hhit hf, hks']
    · rw [hmiss hf he, hks']
      refine congrArg (fun l => Except.ok (⟨(e + 127).toNat, l, true⟩ : QBlock)) (List.map_map.trans (List.map_congr_left fun k _ => ?_))
      rw [Function.comp_apply, clampInt_eq (intRange_le true w), hrange.1, hrange.2]

end Sys2Proof.Machine
end

section
/-! PROOF. What the quantiser of R77 answers for a block of codebook codes (O36). -/
namespace Sys2Proof.Machine
open Sys2Proof

/-! ## Distances and the nearest entry -/

/-- The squared distance of two vectors of `n` exact elements. -/
theorem dist2_val (n : Nat) : ∀ y c : List XReal, y.length = n → c.length = n → (∀ x ∈ y, x.exact) → (∀ x ∈ c, x.exact) →
    (dist2 y c).exact ∧ (dist2 y c).val = ((List.range n).map fun k => ((nth .nan y k).val - (nth .nan c k).val) ^ 2).sum := by
  induction n with
  | zero =>
    intro y c hy hc _ _
    rw [List.length_eq_zero_iff.mp hy, List.length_eq_zero_iff.mp hc]
    exact ⟨(isZero_fin false 0).1, (isZero_fin false 0).2.1⟩
  | succ n ih =>
    intro y c hy hc hey hec
    match y, c, hy, hc with
    | a :: y, b :: c, hy, hc =>
      obtain ⟨ea, ey⟩ := List.forall_mem_cons.mp hey
      obtain ⟨eb, ec⟩ := List.forall_mem_cons.mp hec
      obtain ⟨e1, v1⟩ := exact_neg eb
      obtain ⟨e2, v2⟩ := exact_add ea e1 false
      obtain ⟨e3, v3⟩ := exact_mul e2 e2
      obtain ⟨e4, v4⟩ := ih y c (Nat.succ.inj hy) (Nat.succ.inj hc) ey ec
      obtain ⟨e5, v5⟩ := exact_add e3 e4 false
      refine ⟨e5, ?_⟩
      rw [List.range_succ_eq_map, List.map_cons, List.map_map, List.sum_cons]
      have hd : (dist2 (a :: y) (b :: c)).val = _ := v5
      rw [hd, v3, v2, v1, v4]
      refine congrArg₂ (· + ·) ?_ rfl
      show (a.val + -b.val) * (a.val + -b.val) = (a.val - b.val) ^ 2
      ring

/-- The entries that a vector can be compared with. -/
structure Comparable (n : Nat) (y : List XReal) (ent : List (Nat × List XReal)) : Prop where
  sorted : ent.Pairwise fun a b => a.1 < b.1
  length : ∀ e ∈ ent, e.2.length = n
  exact : ∀ e ∈ ent, ∀ x ∈ e.2, x.exact
  vecLength : y.length = n
  vecExact : ∀ x ∈ y, x.exact

theorem Comparable.tail {n : Nat} {y : List XReal} {e : Nat × List XReal} {r : List (Nat × List XReal)} (h : Comparable n y (e :: r)) :
    Comparable n y r :=
  ⟨(List.pairwise_cons.mp h.sorted).2, fun x hx => h.length x (List.mem_cons_of_mem _ hx), fun x hx => h.exact x (List.mem_cons_of_mem _ hx),
    h.vecLength, h.vecExact⟩

theorem nearest_mem (y : List XReal) (ent : List (Nat × List XReal)) : ∀ c d, nearest y ent = some (c, d) →
    ∃ e ∈ ent, e.1 = c ∧ dist2 y e.2 = d := by
  induction ent with
  | nil => intro c d h; cases h
  | cons e r ih =>
    intro c d h
    rw [nearest] at h
    split at h
    · cases h; exact ⟨e, List.mem_cons_self, rfl, rfl⟩
    · rename_i c' d' hr
      split at h
      · cases h
        obtain ⟨x, hx, h1, h2⟩ := ih _ _ hr
        exact ⟨x, List.mem_cons_of_mem _ hx, h1, h2⟩
      · cases h; exact ⟨e, List.mem_cons_self, rfl, rfl⟩

/-- R77: the entry of least distance is taken, of equals the one with the lowest code. -/
theorem nearest_eq {n : Nat} {y : List XReal} : ∀ {ent : List (Nat × List XReal)}, Comparable n y ent → ∀ e ∈ ent,
    (∀ d ∈ ent, (dist2 y e.2).val < (dist2 y d.2).val ∨ (dist2 y e.2).val = (dist2 y d.2).val ∧ e.1 ≤ d.1) →
      nearest y ent = some (e.1, dist2 y e.2) := by
  intro ent
  induction ent with
  | nil => intro _ e he; exact absurd he List.not_mem_nil
  | cons a r ih =>
    intro h e he hmin
    have hex : ∀ d ∈ a :: r, (dist2 y d.2).isFin = true := fun d hd =>
      exact_isFin (dist2_val n y d.2 h.vecLength (h.length d hd) h.vecExact (h.exact d hd)).1
    rw [nearest]
    rcases List.mem_cons.mp he with rfl | hr
    · -- the head is nearest: nothing behind it is strictly nearer
      split
      · rfl
      · rename_i c d hn
        obtain ⟨x, hx, rfl, rfl⟩ := nearest_mem y r c d hn
        have hx' := List.mem_cons_of_mem e hx
        rw [cmp_fin (hex x hx') (hex e he), if_neg]
        rcases hmin x hx' with hlt | ⟨heq, _⟩
        · rw [if_neg (not_lt.mpr hlt.le)]; split <;> simp
        · rw [if_neg (not_lt.mpr heq.le)]; split <;> simp
    · rw [ih h.tail e hr fun d hd => hmin d (List.mem_cons_of_mem _ hd)]
      dsimp only
      rw [if_pos]
      rw [cmp_fin (hex e he) (hex a List.mem_cons_self), if_pos]
      rcases hmin a List.mem_cons_self with hlt | ⟨_, hle⟩
      · exact hlt
      · exact absurd ((List.pairwise_cons.mp h.sorted).1 e hr) (Nat.not_lt.mpr hle)

/-! ## The usable entries of a bank -/

/-- A finite element of a bank entry is exact. -/
theorem readNum_isFin (v : Nat) : (readNum 1 false v).isFin = true ↔ (readNum 1 false v).exact := by
  refine ⟨fun h => ?_, exact_isFin⟩
  obtain ⟨f, hf⟩ := floatRow_fully ⟨1, 7, 8, -133, 255, 120, 0x7F7F, 0x7F80, 0x7FC0⟩ (by decide)
  have hr := fully_read hf v
  dsimp only at hr
  rw [hr] at h ⊢
  split at h <;> rename_i h1
  · rw [if_pos h1]; exact ⟨_, _, _, rfl⟩
  · rw [if_neg h1]
    rw [if_neg (by decide)] at h ⊢
    split at h <;> rename_i h2
    · rw [if_pos h2]
      split at h <;> cases h
    · rw [if_neg h2]; exact ⟨_, _, _, rfl⟩

/-- The elements of a bank entry, as the statements write them. -/
def bankElems (fmt : Nat) (bank : Tab Word × Nat) (c : Nat) : List XReal :=
  (List.range (vecLen fmt)).map fun k => readNum 1 false ((tabGet 0 bank.1 c).toNat / 2 ^ (16 * k) % 2 ^ 16)

theorem entryElems_eq (fmt : Nat) (bank : Tab Word × Nat) (c : Nat) : entryElems fmt (tabGet 0 bank.1 c) = bankElems fmt bank c := by
  unfold entryElems bankElems
  rw [upFrom_eq, List.map_map]
  refine List.map_congr_left fun k _ => ?_
  simp only [Function.comp_apply, Nat.zero_add, bits_eq]

theorem bankElems_length (fmt : Nat) (bank : Tab Word × Nat) (c : Nat) : (bankElems fmt bank c).length = vecLen fmt := by
  simp [bankElems]

/-- R77: an entry is usable where it is below the count and the codes, and all its elements are finite. -/
def Usable (fmt : Nat) (bank : Tab Word × Nat) (c : Nat) : Prop :=
  c < bank.2 ∧ c < 2 ^ fmtWidth fmt ∧ ∀ x ∈ bankElems fmt bank c, x.exact

theorem mem_usable {fmt : Nat} {bank : Tab Word × Nat} {e : Nat × List XReal} :
    e ∈ usable fmt bank ↔ Usable fmt bank e.1 ∧ e.2 = bankElems fmt bank e.1 := by
  have hall : ∀ c, ((bankElems fmt bank c).all XReal.isFin = true ↔ ∀ x ∈ bankElems fmt bank c, x.exact) := by
    intro c
    rw [List.all_eq_true]
    unfold bankElems
    rw [List.forall_mem_map, List.forall_mem_map]
    exact forall_congr' fun k => forall_congr' fun _ => readNum_isFin _
  unfold usable
  rw [List.mem_filter, List.mem_map, upFrom_eq]
  constructor
  · rintro ⟨⟨c, hc, rfl⟩, hfin⟩
    rw [List.mem_map] at hc
    obtain ⟨j, hj, rfl⟩ := hc
    rw [List.mem_range] at hj
    rw [entryElems_eq] at hfin ⊢
    exact ⟨⟨by omega, by omega, (hall _).mp hfin⟩, rfl⟩
  · rintro ⟨⟨h1, h2, h3⟩, h4⟩
    refine ⟨⟨e.1, ?_, ?_⟩, ?_⟩
    · rw [List.mem_map]
      exact ⟨e.1, List.mem_range.mpr (by omega), Nat.zero_add _⟩
    · rw [entryElems_eq, ← h4]
    · rw [h4]; exact (hall _).mpr h3

theorem usable_sorted (fmt : Nat) (bank : Tab Word × Nat) : (usable fmt bank).Pairwise fun a b => a.1 < b.1 := by
  unfold usable
  refine List.Pairwise.filter _ ?_
  rw [upFrom_eq, List.map_map, List.pairwise_map]
  refine List.pairwise_lt_range.imp fun hab => ?_
  simpa using hab

theorem usable_comparable {fmt : Nat} {bank : Tab Word × Nat} {y : List XReal} (hl : y.length = vecLen fmt) (he : ∀ x ∈ y, x.exact) :
    Comparable (vecLen fmt) y (usable fmt bank) where
  sorted := usable_sorted fmt bank
  length := fun e h => by rw [(mem_usable.mp h).2]; exact bankElems_length _ _ _
  exact := fun e h => by obtain ⟨hu, hb⟩ := mem_usable.mp h; rw [hb]; exact hu.2.2
  vecLength := hl
  vecExact := he

/-- The distance of a vector at exponent `e` from an entry, as the statement writes it. -/
def far (fmt : Nat) (bank : Tab Word × Nat) (e : Int) (y : List XReal) (c : Nat) : ℚ :=
  ((List.range (vecLen fmt)).map fun k => ((nth .nan y k).val / 2 ^ e - (nth .nan (bankElems fmt bank c) k).val) ^ 2).sum

theorem far_eq {fmt : Nat} {bank : Tab Word × Nat} {y : List XReal} (e : Int) {c : Nat} (hl : y.length = vecLen fmt) (he : ∀ x ∈ y, x.exact)
    (hu : Usable fmt bank c) : (dist2 (y.map (XReal.scale (-e))) (bankElems fmt bank c)).val = far fmt bank e y c := by
  rw [(dist2_val (vecLen fmt) _ _ (by rw [List.length_map, hl]) (bankElems_length _ _ _)
    (List.forall_mem_map.mpr fun x hx => (exact_scale (he x hx) _).1) hu.2.2).2]
  refine congrArg List.sum (List.map_congr_left fun k hk => ?_)
  have hk' : k < y.length := by rw [hl]; exact List.mem_range.mp hk
  have hn : nth .nan (y.map (XReal.scale (-e))) k = (nth .nan y k).scale (-e) := by
    unfold nth
    rw [List.getD_eq_getElem?_getD, List.getD_eq_getElem?_getD, List.getElem?_map, List.getElem?_eq_getElem hk']
    rfl
  have hx : (nth .nan y k).exact := by
    unfold nth
    rw [List.getD_eq_getElem?_getD, List.getElem?_eq_getElem hk']
    exact he _ (List.getElem_mem hk')
  rw [hn, (exact_scale hx _).2, zpow_neg, div_eq_mul_inv]

/-- The code of a vector at exponent `e`. -/
def Nearest (fmt : Nat) (bank : Tab Word × Nat) (e : Int) (y : List XReal) (c : Nat) : Prop :=
  Usable fmt bank c ∧ ∀ d, Usable fmt bank d → far fmt bank e y c < far fmt bank e y d ∨ far fmt bank e y c = far fmt bank e y d ∧ c ≤ d

theorem nearest_code {fmt : Nat} {bank : Tab Word × Nat} {y : List XReal} {e : Int} {c : Nat} (hl : y.length = vecLen fmt)
    (he : ∀ x ∈ y, x.exact) (h : Nearest fmt bank e y c) :
    ∃ d, nearest (y.map (XReal.scale (-e))) (usable fmt bank) = some (c, d) := by
  obtain ⟨hu, hmin⟩ := h
  refine ⟨_, nearest_eq (e := (c, bankElems fmt bank c)) (usable_comparable (by rw [List.length_map, hl])
    (List.forall_mem_map.mpr fun x hx => (exact_scale (he x hx) _).1)) (mem_usable.mpr ⟨hu, rfl⟩) fun d hd => ?_⟩
  obtain ⟨hud, hdb⟩ := mem_usable.mp hd
  rw [hdb, far_eq e hl he hu, far_eq e hl he hud]
  exact hmin d.1 hud

/-! ## A codebook block -/

/-- The code that the loop gives a vector at an exponent. -/
def cbCode (ent : List (Nat × List XReal)) (e : Int) (y : List XReal) : Nat :=
  match nearest (y.map (XReal.scale (-e))) ent with
  | some (c, _) => c
  | none => 0

theorem cbLoop_climb (ent : List (Nat × List XReal)) (emax : XReal) (xs : List (List XReal)) (fuel : Nat) : ∀ e,
    cbLoop ent emax xs fuel e =
      climb (fun e => xs.all fun y => y.all fun x => (x.scale (-e)).abs.cmp emax != some .gt)
        (fun e => ⟨(e + 127).toNat, xs.map (cbCode ent e), false⟩) (fun e => ⟨(e + 127).toNat, xs.map (cbCode ent e), true⟩) fuel e := by
  induction fuel with
  | zero => intro e; rw [cbLoop, climb]; rfl
  | succ n ih => intro e; rw [cbLoop, climb, ← ih]; rfl

theorem isCb_not_isKb {fmt : Nat} (h : isCb fmt = true) : isKb fmt = false := by
  simp only [isCb, isKb, Bool.and_eq_true, decide_eq_true_eq] at *
  rw [Bool.eq_false_iff]
  simp
  omega

section
variable {fmt rm : Nat} {bank : Tab Word × Nat} {xs : List (List XReal × Nat)} (hcb : isCb fmt = true)
include hcb

theorem quantise_cb_nan (h : ∃ x ∈ xs.flatMap Prod.fst, x = .nan) : quantise fmt rm bank xs = .ok ⟨255, xs.map fun _ => 0, false⟩ := by
  have h1 : ((xs.flatMap Prod.fst).any XReal.isNan) = true := (any_nan _ id).mpr h
  unfold quantise
  simp only [isCb_not_isKb hcb, Bool.false_eq_true, if_false]
  rw [if_pos h1]

theorem quantise_cb_inf (h : ∀ x ∈ xs.flatMap Prod.fst, x ≠ .nan) (hi : ∃ x ∈ xs.flatMap Prod.fst, ∃ n, x = .inf n) :
    quantise fmt rm bank xs = .ok ⟨255, xs.map fun _ => 0, true⟩ := by
  have h1 : ¬ ((xs.flatMap Prod.fst).any XReal.isNan) = true := fun hx => by
    obtain ⟨x, hx, hn⟩ := (any_nan _ id).mp hx
    exact h x hx hn
  have h2 : ((xs.flatMap Prod.fst).any fun x => !x.isFin) = true := by
    obtain ⟨x, hx, hn⟩ := hi
    exact (any_notFin _ id).mpr ⟨x, hx, Or.inr hn⟩
  unfold quantise
  simp only [isCb_not_isKb hcb, Bool.false_eq_true, if_false]
  rw [if_neg h1, if_pos h2]

theorem quantise_cb_exact (h : ∀ x ∈ xs.flatMap Prod.fst, x.exact) : quantise fmt rm bank xs =
    if (maxMags ((usable fmt bank).flatMap Prod.snd)).isZero then .error 0x05
    else if (maxMags (xs.flatMap Prod.fst)).isZero then
      .ok ⟨0, xs.map fun _ => cbCode (usable fmt bank) 0 (List.replicate (vecLen fmt) (.fin false 0 0 false)), false⟩
    else .ok (cbLoop (usable fmt bank) (maxMags ((usable fmt bank).flatMap Prod.snd)) (xs.map Prod.fst) 3
      (max (floorLog2 (maxMags (xs.flatMap Prod.fst)) - floorLog2 (maxMags ((usable fmt bank).flatMap Prod.snd))) (-127))) := by
  have h1 : ¬ ((xs.flatMap Prod.fst).any XReal.isNan) = true := fun hx => by
    obtain ⟨x, hx, hn⟩ := (any_nan _ id).mp hx
    obtain ⟨neg, m, e, he⟩ := h x hx
    exact XReal.noConfusion (he.symm.trans hn)
  have h2 : ¬ ((xs.flatMap Prod.fst).any fun x => !x.isFin) = true := fun hx => by
    obtain ⟨x, hx, hn⟩ := List.any_eq_true.mp hx
    rw [exact_isFin (h x hx)] at hn
    exact Bool.false_ne_true hn
  have hz : ((upFrom 0 (vecLen fmt)).map fun _ => XReal.fin false 0 0 false) =
      (List.replicate (vecLen fmt) (XReal.fin false 0 0 false)).map (XReal.scale (-0)) := by
    rw [List.map_replicate, List.map_const', upFrom_eq, List.length_map, List.length_range]
    rfl
  unfold quantise
  simp only [isCb_not_isKb hcb, Bool.false_eq_true, if_false]
  rw [if_neg h1, if_neg h2, hz]
  rfl

end

theorem within_iff {xs : List (List XReal × Nat)} {p : XReal → Prop} : (∀ y ∈ xs, ∀ x ∈ y.1, p x) ↔ ∀ x ∈ xs.flatMap Prod.fst, p x := by
  simp only [List.mem_flatMap]
  exact ⟨fun h x ⟨y, hy, hx⟩ => h y hy x hx, fun h y hy x hx => h x ⟨y, hy, hx⟩⟩

theorem not_within {xs : List (List XReal × Nat)} {p : XReal → Prop} :
    (¬ ∀ y ∈ xs, ∀ x ∈ y.1, p x) ↔ ∃ x ∈ xs.flatMap Prod.fst, ¬ p x := by
  rw [within_iff]
  push Not
  rfl

/-- R77, for a block of codebook codes. -/
theorem quantise_cb_spec (fmt rm : Nat) (bank : Tab Word × Nat) (xs : List (List XReal × Nat)) (amax emax : ℚ) (hcb : isCb fmt = true)
    (hlen : ∀ y ∈ xs, y.1.length = vecLen fmt) :
    let r := quantise fmt rm bank xs
    let within := fun (p : XReal → Prop) => ∀ y ∈ xs, ∀ x ∈ y.1, p x
    let all := fun (sb : Nat) (sat : Bool) => Except.ok (⟨sb, xs.map fun _ => 0, sat⟩ : QBlock)
    let near := fun (e : Int) (y : List XReal × Nat) (c : Nat) => Nearest fmt bank e y.1 c
    (¬within (· ≠ .nan) → r = all 255 false) ∧
    (within (· ≠ .nan) → (¬within fun x => ∀ n, x ≠ .inf n) → r = all 255 true) ∧
    (within XReal.exact →
      ((∀ c, Usable fmt bank c → ∀ x ∈ bankElems fmt bank c, x.val = 0) → r = .error 5) ∧
      ((∃ c, Usable fmt bank c ∧ ∃ x ∈ bankElems fmt bank c, |x.val| = emax) →
        (∀ c, Usable fmt bank c → ∀ x ∈ bankElems fmt bank c, |x.val| ≤ emax) → 0 < emax →
        (∀ c, (within fun x => x.val = 0) → near 0 (List.replicate (vecLen fmt) (.fin false 0 0 false), 0) c →
          r = .ok ⟨0, xs.map fun _ => c, false⟩) ∧
        ((within fun x => |x.val| ≤ amax) → (¬within fun x => |x.val| ≠ amax) → 0 < amax →
          let e0 := max (Int.log 2 amax - Int.log 2 emax) (-127)
          let fits := fun (e : Int) => within fun x => |x.val| / 2 ^ e ≤ emax
          ∀ (e : Int) (cs : List Nat), List.Forall₂ (near e) xs cs →
            (Fits fits e0 e → r = .ok ⟨(e + 127).toNat, cs, false⟩) ∧
            ((∀ k, ¬ Fits fits e0 k) → e = min 127 (e0 + 3) → r = .ok ⟨(e + 127).toNat, cs, true⟩)))) := by
  intro r within all near
  refine ⟨fun h => ?_, fun h hi => ?_, fun hex => ?_⟩
  · obtain ⟨x, hx, hn⟩ := not_within.mp h
    exact quantise_cb_nan hcb ⟨x, hx, not_not.mp hn⟩
  · obtain ⟨x, hx, hn⟩ := not_within.mp hi
    push Not at hn
    exact quantise_cb_inf hcb (within_iff.mp h) ⟨x, hx, hn⟩
  have hexact := within_iff.mp hex
  have hr : r = _ := quantise_cb_exact (rm := rm) (bank := bank) hcb hexact
  have hentE : ∀ x ∈ (usable fmt bank).flatMap Prod.snd, x.exact := fun x hx => by
    obtain ⟨e, he, hxe⟩ := List.mem_flatMap.mp hx
    obtain ⟨hu, hb⟩ := mem_usable.mp he
    exact hu.2.2 x (hb ▸ hxe)
  have hent : ∀ {p : XReal → Prop}, (∀ c, Usable fmt bank c → ∀ x ∈ bankElems fmt bank c, p x) →
      ∀ x ∈ (usable fmt bank).flatMap Prod.snd, p x := fun hp x hx => by
    obtain ⟨e, he, hxe⟩ := List.mem_flatMap.mp hx
    obtain ⟨hu, hb⟩ := mem_usable.mp he
    exact hp e.1 hu x (hb ▸ hxe)
  refine ⟨fun hz => ?_, fun hem hle hpos => ?_⟩
  · obtain ⟨e1, v1⟩ := maxMags_zero hentE (hent hz)
    rw [hr, if_pos ((exact_isZero e1).mpr v1)]
  have hem' : ∃ x ∈ (usable fmt bank).flatMap Prod.snd, |x.val| = emax := by
    obtain ⟨c, hu, x, hx, hv⟩ := hem
    exact ⟨x, List.mem_flatMap.mpr ⟨(c, bankElems fmt bank c), mem_usable.mpr ⟨hu, rfl⟩, hx⟩, hv⟩
  obtain ⟨e1, v1⟩ := maxMags_val hentE (hent hle) hem'
  have hne : ¬ (maxMags ((usable fmt bank).flatMap Prod.snd)).val = 0 := by rw [v1]; exact hpos.ne'
  rw [if_neg fun x => hne ((exact_isZero e1).mp x)] at hr
  refine ⟨fun c hz hn => ?_, fun hla hxa hapos => ?_⟩
  · obtain ⟨e2, v2⟩ := maxMags_zero hexact (within_iff.mp hz)
    obtain ⟨d, hd⟩ := nearest_code (List.length_replicate) (fun x hx => by
      rw [(List.mem_replicate.mp hx).2]; exact (isZero_fin false 0).1) hn
    rw [hr, if_pos ((exact_isZero e2).mpr v2)]
    unfold cbCode
    rw [hd]
  · intro e0 fits e cs hcs
    obtain ⟨x, hx, hxv⟩ := not_within.mp hxa
    obtain ⟨e2, v2⟩ := maxMags_val hexact (within_iff.mp hla) ⟨x, hx, not_not.mp hxv⟩
    have hne2 : ¬ (maxMags (xs.flatMap Prod.fst)).val = 0 := by rw [v2]; exact hapos.ne'
    rw [if_neg fun x => hne2 ((exact_isZero e2).mp x), floorLog2_eq e1 hne, floorLog2_eq e2 hne2, v1, v2, abs_of_pos hpos,
      abs_of_pos hapos, cbLoop_climb] at hr
    have hcs' : cs = (xs.map Prod.fst).map (cbCode (usable fmt bank) e) := by
      rw [List.map_map]
      refine forall₂_map_eq (fun y hy c hc => ?_) hcs
      obtain ⟨d, hd⟩ := nearest_code (hlen y hy) (hex y hy) hc
      rw [Function.comp_apply, cbCode, hd]
    have hp : ∀ e, ((xs.map Prod.fst).all fun y => y.all fun x =>
        (x.scale (-e)).abs.cmp (maxMags ((usable fmt bank).flatMap Prod.snd)) != some .gt) = true ↔ fits e := by
      intro e
      rw [List.all_eq_true, List.forall_mem_map]
      refine forall_congr' fun y => forall_congr' fun hy => ?_
      rw [List.all_eq_true]
      refine forall_congr' fun x => forall_congr' fun hx => ?_
      obtain ⟨es, vs⟩ := exact_scale (hex y hy x hx) (-e)
      obtain ⟨ea, va⟩ := exact_abs es
      rw [cmp_fin (exact_isFin ea) (exact_isFin e1), va, vs, v1, abs_mul, abs_of_pos (two_zpow_pos (-e)), zpow_neg, ← div_eq_mul_inv]
      rcases lt_trichotomy (|x.val| / 2 ^ e) emax with h | h | h
      · simp [h, h.le]
      · simp [h]
      · simp [h.not_gt, h.ne', h]
    obtain ⟨hhit, hmiss⟩ := climb_fits hp e0 e
    rw [hr, hcs']
    exact ⟨fun hf => congrArg Except.ok (hhit hf), fun hf he => congrArg Except.ok (hmiss hf he)⟩

end Sys2Proof.Machine
end

section
/-! PROOF. The conversions of V (O36). -/
namespace Sys2Proof.Machine
open Sys2Proof

theorem listM_ok {ε β : Type} {g : Nat → Except ε β} {v : Nat → β} (k : Nat) : ∀ a, (∀ i, a ≤ i → i < a + k → g i = .ok (v i)) →
    listM g (upFrom a k) = .ok ((List.range k).map fun i => v (a + i)) := by
  induction k with
  | zero => exact fun a _ => rfl
  | succ k ih =>
    intro a h
    rw [upFrom, listM, h a (le_refl _) (by omega), ih (a + 1) fun i h1 h2 => h i (by omega) (by omega)]
    dsimp only
    rw [List.range_succ_eq_map, List.map_cons, List.map_map]
    refine congrArg (fun l => Except.ok (_ :: l)) (List.map_congr_left fun i _ => ?_)
    rw [Function.comp_apply, Nat.succ_eq_add_one, Nat.add_assoc, Nat.add_comm 1 i]

/-- A list of functions' values, entry by entry. -/
theorem range_map_nth {α : Type} (d : α) (l : List α) : (List.range l.length).map (nth d l) = l := by
  refine List.ext_getElem (by simp) fun i h1 h2 => ?_
  rw [List.getElem_map, List.getElem_range]
  unfold nth
  rw [List.getD_eq_getElem?_getD, List.getElem?_eq_getElem h2]
  rfl

theorem legal_ok {b : Bool} (h : b = true) (s : State) : M.legal b s = .ok ((), s) := by subst h; rfl

/-- Every slot converted, and the result delivered. -/
theorem cvtSlots_ok {f : E64} {t : State} {x : Lane} {w : Nat} {v : Nat → Nat} (hv : ∀ i < t.view.shape.slots, cvtSlot f t x i = .ok (v i)) :
    (do let s ← M.look id
        let l ← eachSlot s.view.shape.slots none (fun i => slotTrap i (cvtSlot f s x i)) (fun _ => 0)
        deliverShape f.d8 w 2 ⟨packSlots w l, 0, none, x.map⟩ : M Issue) t =
      .ok (.after 2 [t.deliver f.d8 t.view.shape.slots w ⟨packSlots w ((List.range t.view.shape.slots).map v), 0, none, x.map⟩], t) := by
  simp only [m_bind, m_look, id]
  rw [eachSlot_ok (v := v) t fun i hi _ => by rw [hv i hi]; rfl]
  rfl

theorem vcvt_ok (f : E64) (s u t : State) (m : CMap) (a b : Src) (v : Nat → Nat)
    (h : Turn.Go .V f s) (hp : peekMap [f.a8, f.b8, 0] f.ms (s.gained .V f) = .ok (m, s.gained .V f))
    (ho : ownCompanion f.d8 m (s.gained .V f) = .ok ((), s.gained .V f)) (hd : cvtFmt f.fmt5.toNat = true)
    (hs : cvtFmt (bits f.c8.toNat 0 5) = true)
    (hf : s.view.shape.fits (max (fmtWidth f.fmt5.toNat) (fmtWidth (bits f.c8.toNat 0 5))) = true)
    (hc : isCoord f.a8 = true → bits f.c8.toNat 0 5 = 7)
    (ha : readSrc f.a8 (some (fmtWidth (bits f.c8.toNat 0 5))) (s.gained .V f) = .ok (a, u))
    (hb : if f.ms = 1 then readSrc f.b8 none u = .ok (b, t) else b = .none ∧ t = u)
    (hv : ∀ i < t.view.shape.slots, cvtSlot f t ⟨a, b, .none, if f.ms = 1 then b.map else a.map⟩ i = .ok (v i)) :
    exec (.vcvt f) s = .next (t.afterE .V f 2 [t.deliver f.d8 t.view.shape.slots (fmtWidth f.fmt5.toNat)
      ⟨packSlots (fmtWidth f.fmt5.toNat) ((List.range t.view.shape.slots).map v), 0, none, if f.ms = 1 then b.map else a.map⟩]) := by
  have hcoord : (!isCoord f.a8 || bits f.c8.toNat 0 5 == 7) = true := by
    cases hi : isCoord f.a8 with
    | false => rfl
    | true => rw [hc hi]; rfl
  rw [exec_vcvt, execVcvt]
  refine go_run h ?_
  rw [m_bind_ok hp, m_bind_ok ho]
  dsimp only
  rw [m_bind_ok (m_look State.view _), gained_view,
    m_bind_ok (legal_ok (by simp only [hd, hs, hf, hcoord, Bool.and_self]) _), m_bind_ok ha]
  by_cases hm : f.ms = 1
  · rw [if_pos hm] at hb
    rw [if_pos hm, m_bind_ok hb]
    exact cvtSlots_ok hv
  · rw [if_neg hm] at hb
    rw [if_neg hm, ← hb.2, hb.1]
    rw [hb.1] at hv
    exact cvtSlots_ok hv

/-- A slot of `vcvt`, as the statement describes it. -/
theorem cvtSlot_ok {f : E64} {t : State} {x : Lane} {i v : Nat}
    (h : match intFmt (bits f.c8.toNat 0 5), intFmt f.fmt5.toNat with
      | some (sgn, w), some (dsgn, dw) => ∃ n, intOf t.wk x.a x.map sgn false w i = .ok n ∧
        v = wrap dw (if f.zm then max (intRange dsgn dw).1 (min (intRange dsgn dw).2 (readInt sgn w n)) else readInt sgn w n)
      | some (sgn, w), none => ∃ n k, intOf t.wk x.a x.map sgn false w i = .ok n ∧ stoch t.wk t.view.nkey.c0 x.map f.lo3 i = .ok k ∧
        v = (convTo f.fmt5.toNat f.lo3 (f.zm || t.view.e4m3sat) t.view.ftz k (.ofInt (readInt sgn w n))).bits
      | none, _ => ∃ k y, stoch t.wk t.view.nkey.c0 x.map f.lo3 i = .ok k ∧
        floatOf t.wk x.a x.map (bits f.c8.toNat 0 5) f.lo3 t.view.ftz k i = .ok y ∧
        v = (convTo f.fmt5.toNat f.lo3 (f.zm || t.view.e4m3sat) t.view.ftz k y).bits) :
    cvtSlot f t x i = .ok v := by
  unfold cvtSlot
  cases hs : intFmt (bits f.c8.toNat 0 5) with
  | none =>
    rw [hs] at h
    obtain ⟨k, y, hk, hy, rfl⟩ := h
    simp only [hs, hk, hy, ex_bind_ok]
    rfl
  | some p =>
    cases hd : intFmt f.fmt5.toNat with
    | none =>
      rw [hs, hd] at h
      obtain ⟨n, k, hn, hk, rfl⟩ := h
      simp only [hs, hd, hn, hk, ex_bind_ok]
      rfl
    | some q =>
      rw [hs, hd] at h
      obtain ⟨n, hn, rfl⟩ := h
      simp only [hs, hd, hn, ex_bind_ok, clampInt_eq (intRange_le _ _)]
      rfl

/-- The blocks of `vqnt` quantised and delivered. -/
theorem qntBlocks_ok {f : E64} {s t : State} {a : Src} {df sf len g : Nat} {q : Nat → QBlock} (ok : Bool) (hok : ok = true)
    (ha : readSrc f.a8 (some (fmtWidth sf)) s = .ok (a, t))
    (hq : ∀ b < g / (vecLen df * len), qntBlock f.lo3 sf df len (t.wk.front f.b8.toNat) t a b = .ok (q b)) :
    (do M.legal ok
        let a ← readSrc f.a8 (some (fmtWidth sf))
        let s ← M.look id
        let blocks ← M.lift (listM (qntBlock f.lo3 sf df len (s.wk.front f.b8.toNat) s a) (upFrom 0 (g / (vecLen df * len))))
        pure (.after 3 [s.deliver f.d8 (if isQ f.d8 then g else g / vecLen df) (fmtWidth df)
          ⟨packSlots (fmtWidth df) (blocks.flatMap QBlock.codes), packSlots 8 (blocks.map QBlock.sb), some ⟨df, len⟩,
            if vecLen df = 1 then a.map else .lost⟩, .qsat (blocks.filter QBlock.sat).length]) : M Issue) s =
      .ok (.after 3 [t.deliver f.d8 (if isQ f.d8 then g else g / vecLen df) (fmtWidth df)
        ⟨packSlots (fmtWidth df) (((List.range (g / (vecLen df * len))).map q).flatMap QBlock.codes),
          packSlots 8 (((List.range (g / (vecLen df * len))).map q).map QBlock.sb), some ⟨df, len⟩,
          if vecLen df = 1 then a.map else .lost⟩, .qsat (((List.range (g / (vecLen df * len))).map q).countP QBlock.sat)], t) := by
  have hl := listM_ok (g := qntBlock f.lo3 sf df len (t.wk.front f.b8.toNat) t a) (v := q) (g / (vecLen df * len)) 0
    fun i _ hi => hq i (by omega)
  simp only [Nat.zero_add] at hl
  rw [m_bind_ok (legal_ok hok s), m_bind_ok ha]
  simp only [m_bind, m_look, id]
  rw [hl, lift_ok, List.countP_eq_length_filter]
  rfl

theorem vqnt_ok (f : E64) (s t : State) (m : CMap) (a : Src) (q : Nat → QBlock) (h : Turn.Go .V f s)
    (hm : vecLen f.fmt5.toNat = 1 → peekMap [f.a8, 0, 0] 0 (s.gained .V f) = .ok (m, s.gained .V f) ∧
      ownCompanion f.d8 m (s.gained .V f) = .ok ((), s.gained .V f))
    (hdf : isBlock f.fmt5.toNat = true) (hsf : ftzFmt (bits f.c8.toNat 0 5) = true)
    (hf : s.view.shape.fits (max (fmtWidth f.fmt5.toNat) (fmtWidth (bits f.c8.toNat 0 5))) = true)
    (hg : s.view.shape.slots % (vecLen f.fmt5.toNat * lbLen (bits f.c8.toNat 5 2)) = 0)
    (ha : readSrc f.a8 (some (fmtWidth (bits f.c8.toNat 0 5))) (s.gained .V f) = .ok (a, t))
    (hq : ∀ b < s.view.shape.slots / (vecLen f.fmt5.toNat * lbLen (bits f.c8.toNat 5 2)),
      qntBlock f.lo3 (bits f.c8.toNat 0 5) f.fmt5.toNat (lbLen (bits f.c8.toNat 5 2)) (t.wk.front f.b8.toNat) t a b = .ok (q b)) :
    let blocks := (List.range (s.view.shape.slots / (vecLen f.fmt5.toNat * lbLen (bits f.c8.toNat 5 2)))).map q
    exec (.vqnt f) s = .next (t.afterE .V f 3
      [t.deliver f.d8 (if isQ f.d8 then s.view.shape.slots else s.view.shape.slots / vecLen f.fmt5.toNat) (fmtWidth f.fmt5.toNat)
        ⟨packSlots (fmtWidth f.fmt5.toNat) (blocks.flatMap QBlock.codes), packSlots 8 (blocks.map QBlock.sb),
          some ⟨f.fmt5.toNat, lbLen (bits f.c8.toNat 5 2)⟩, if vecLen f.fmt5.toNat = 1 then a.map else .lost⟩,
       .qsat (blocks.countP QBlock.sat)]) := by
  intro blocks
  have hok : (isBlock f.fmt5.toNat && ftzFmt (bits f.c8.toNat 0 5) &&
      s.view.shape.fits (max (fmtWidth f.fmt5.toNat) (fmtWidth (bits f.c8.toNat 0 5))) &&
      s.view.shape.slots % (vecLen f.fmt5.toNat * lbLen (bits f.c8.toNat 5 2)) == 0) = true := by
    simp only [hdf, hsf, hf, hg, beq_self_eq_true, Bool.and_self]
  rw [exec_vqnt, execVqnt]
  refine go_run h ?_
  dsimp only
  rw [m_bind_ok (m_look State.view _), gained_view]
  by_cases hn : vecLen f.fmt5.toNat = 1
  · rw [if_pos hn, m_bind_ok (hm hn).1, m_bind_ok (hm hn).2]
    exact qntBlocks_ok _ hok ha hq
  · rw [if_neg hn]
    exact qntBlocks_ok _ hok ha hq

/-- A code of `vdq` decoded and its elements rounded, one for each slot. -/
theorem dqSlot_ok {f : E64} {sf len : Nat} {bank : Tab Word × Nat} {t : State} {a : Src} {m : CMap} {j : Nat} {v : List Nat}
    (h : ∃ l, blockValues sf (slotOf a.scale 8 (j / len)) (a.slot (fmtWidth sf) j) bank = .ok l ∧
      v.length = vecLen sf ∧ ∀ k < vecLen sf, ∃ r, stoch t.wk t.view.nkey.c0 m f.lo3 (vecLen sf * j + k) = .ok r ∧
        nth 0 v k = (convTo f.fmt5.toNat f.lo3 (f.zm || t.view.e4m3sat) t.view.ftz r (nth .nan l k)).bits) :
    dqSlot f sf len bank t a m j = .ok v := by
  obtain ⟨l, hl, hlen, hv⟩ := h
  unfold dqSlot
  simp only [hl, slotTrap, ex_bind_ok]
  rw [listM_ok (v := nth 0 v)]
  · simp only [Nat.zero_add]
    rw [← hlen, range_map_nth]
  · intro k _ hk
    obtain ⟨r, hr, hvk⟩ := hv k (by omega)
    rw [hr, hvk]
    rfl

/-- The codes of `vdq` decoded and delivered. -/
theorem dqCodes_ok {f : E64} {t : State} {m : CMap} {a : Src} {sf len df g : Nat} {v : Nat → List Nat} (ok : Bool) (hok : ok = true)
    (hv : ∀ j < g / vecLen sf, dqSlot f sf len (t.wk.front (bits f.c8.toNat 0 4)) t a m j = .ok (v j)) :
    (do M.legal ok
        let s ← M.look id
        let l ← M.lift (listM (dqSlot f sf len (s.wk.front (bits f.c8.toNat 0 4)) s a m) (upFrom 0 (g / vecLen sf)))
        deliverShape f.d8 (fmtWidth df) 2 ⟨packSlots (fmtWidth df) l.flatten, 0, none, if vecLen sf = 1 then m else .lost⟩ : M Issue) t =
      .ok (.after 2 [t.deliver f.d8 t.view.shape.slots (fmtWidth df) ⟨packSlots (fmtWidth df)
        ((List.range (g / vecLen sf)).map v).flatten, 0, none, if vecLen sf = 1 then m else .lost⟩], t) := by
  have hl := listM_ok (g := dqSlot f sf len (t.wk.front (bits f.c8.toNat 0 4)) t a m) (v := v) (g / vecLen sf) 0
    fun i _ hi => hv i (by omega)
  simp only [Nat.zero_add] at hl
  rw [m_bind_ok (legal_ok hok t)]
  simp only [m_bind, m_look, id]
  rw [hl, lift_ok]
  rfl

/-- `vdq` behind the check of its map. -/
theorem dqRest_ok {f : E64} {s u t : State} {a b : Src} {df sf len : Nat} {v : Nat → List Nat} (hdf : ftzFmt df = true)
    (hf : s.view.shape.fits (max (fmtWidth df) (fmtWidth sf)) = true)
    (ha : readSrc f.a8 (some (fmtWidth sf)) s = .ok (a, u))
    (hb : if f.ms = 1 then readSrc f.b8 none u = .ok (b, t) else b = .none ∧ t = u)
    (htag : a.tag = some ⟨sf, len⟩) (hlen : len ≠ 0) (hg : s.view.shape.slots % (vecLen sf * len) = 0)
    (hv : ∀ j < s.view.shape.slots / vecLen sf,
      dqSlot f sf len (t.wk.front (bits f.c8.toNat 0 4)) t a (if f.ms = 1 then b.map else a.map) j = .ok (v j)) :
    (do let v ← M.look State.view
        let g := v.shape.slots
        M.legal (ftzFmt df && v.shape.fits (max (fmtWidth df) (fmtWidth sf)))
        let a ← readSrc f.a8 (some (fmtWidth sf))
        let b ← if f.ms = 1 then readSrc f.b8 none else pure .none
        let len := match a.tag with
          | some t => t.len
          | none => 0
        M.legal (a.tag == some ⟨sf, len⟩ && len != 0 && g % (vecLen sf * len) == 0)
        let m := if f.ms = 1 then b.map else a.map
        let s ← M.look id
        let l ← M.lift (listM (dqSlot f sf len (s.wk.front (bits f.c8.toNat 0 4)) s a m) (upFrom 0 (g / vecLen sf)))
        deliverShape f.d8 (fmtWidth df) 2 ⟨packSlots (fmtWidth df) l.flatten, 0, none, if vecLen sf = 1 then m else .lost⟩ : M Issue) s =
      .ok (.after 2 [t.deliver f.d8 t.view.shape.slots (fmtWidth df) ⟨packSlots (fmtWidth df)
        ((List.range (s.view.shape.slots / vecLen sf)).map v).flatten, 0, none,
        if vecLen sf = 1 then (if f.ms = 1 then b.map else a.map) else .lost⟩], t) := by
  have hok : (a.tag == some ⟨sf, len⟩ && len != 0 && s.view.shape.slots % (vecLen sf * len) == 0) = true := by
    rw [htag, hg]
    simp [hlen]
  rw [m_bind_ok (m_look State.view s)]
  dsimp only
  rw [m_bind_ok (legal_ok (by simp only [hdf, hf, Bool.and_self]) s), m_bind_ok ha]
  have htag' : (match a.tag with
          | some t => t.len
          | none => 0) = len := by rw [htag]
  by_cases hm : f.ms = 1
  · rw [if_pos hm] at hb
    rw [if_pos hm, m_bind_ok hb, htag']
    exact dqCodes_ok _ hok hv
  · rw [if_neg hm] at hb
    obtain ⟨rfl, rfl⟩ := hb
    rw [if_neg hm, m_bind_ok (m_pure _ _), htag']
    exact dqCodes_ok _ hok hv

theorem vdq_ok (f : E64) (s u t : State) (m : CMap) (a b : Src) (len : Nat) (v : Nat → List Nat) (h : Turn.Go .V f s)
    (hp : vecLen (dqFmt (bits f.c8.toNat 4 4)) = 1 → peekMap [f.a8, f.b8, 0] f.ms (s.gained .V f) = .ok (m, s.gained .V f) ∧
      ownCompanion f.d8 m (s.gained .V f) = .ok ((), s.gained .V f)) (hdf : ftzFmt f.fmt5.toNat = true)
    (hf : s.view.shape.fits (max (fmtWidth f.fmt5.toNat) (fmtWidth (dqFmt (bits f.c8.toNat 4 4)))) = true)
    (ha : readSrc f.a8 (some (fmtWidth (dqFmt (bits f.c8.toNat 4 4)))) (s.gained .V f) = .ok (a, u))
    (hb : if f.ms = 1 then readSrc f.b8 none u = .ok (b, t) else b = .none ∧ t = u)
    (htag : a.tag = some ⟨dqFmt (bits f.c8.toNat 4 4), len⟩) (hlen : len ≠ 0)
    (hg : s.view.shape.slots % (vecLen (dqFmt (bits f.c8.toNat 4 4)) * len) = 0)
    (hv : ∀ j < s.view.shape.slots / vecLen (dqFmt (bits f.c8.toNat 4 4)), dqSlot f (dqFmt (bits f.c8.toNat 4 4)) len
      (t.wk.front (bits f.c8.toNat 0 4)) t a (if f.ms = 1 then b.map else a.map) j = .ok (v j)) :
    exec (.vdq f) s = .next (t.afterE .V f 2 [t.deliver f.d8 t.view.shape.slots (fmtWidth f.fmt5.toNat)
      ⟨packSlots (fmtWidth f.fmt5.toNat) ((List.range (s.view.shape.slots / vecLen (dqFmt (bits f.c8.toNat 4 4)))).map v).flatten, 0, none,
        if vecLen (dqFmt (bits f.c8.toNat 4 4)) = 1 then (if f.ms = 1 then b.map else a.map) else .lost⟩]) := by
  rw [← gained_view s .V f] at hf hg hv ⊢
  rw [exec_vdq, execVdq]
  refine go_run h ?_
  dsimp only
  by_cases hn : vecLen (dqFmt (bits f.c8.toNat 4 4)) = 1
  · rw [if_pos hn, m_bind_ok (hp hn).1, m_bind_ok (hp hn).2]
    exact dqRest_ok hdf hf ha hb htag hlen hg hv
  · rw [if_neg hn]
    exact dqRest_ok hdf hf ha hb htag hlen hg hv

theorem lbLen_eq (c : Nat) : lbLen c = 16 * 2 ^ c := Nat.shiftLeft_eq ..

/-- Settles O36: the three instructions run through their steps; patterns and rounding through the magnitudes that they stand for;
the quantiser through its loop over exponents, with the nearest entry of a bank found by its distance. -/
theorem conversions : Obligations.Conversions := by
  unfold Obligations.Conversions
  refine ⟨?_, ?_, ?_, fun r hr => ?_, fun r hr => ?_, ?_, ?_, ?_⟩
  · intro f s u t m a b v df sf rm g map sat h hp ho hd hs hf hc ha hb hv
    exact vcvt_ok f s u t m a b v h hp ho hd hs hf hc ha hb fun i hi => cvtSlot_ok (hv i hi)
  · intro f s t m a q df sf len n w g blocks h hm hdf hsf hf hg ha hq
    have hlen : len = lbLen (bits f.c8.toNat 5 2) := (lbLen_eq _).symm
    have hblocks : blocks = (List.range (s.view.shape.slots / (vecLen f.fmt5.toNat * len))).map q := rfl
    rw [hblocks]
    rw [hlen] at hg hq ⊢
    exact vqnt_ok f s t m a q h hm hdf hsf hf hg ha hq
  · intro f s u t m a b len v df sf n w g map h hp hdf hf ha hb htag hlen hg hv
    exact vdq_ok f s u t m a b len v h hp hdf hf ha hb htag hlen hg fun j hj => dqSlot_ok (hv j hj)
  · obtain ⟨f, hf⟩ := floatRow_fully r hr
    refine ⟨fun v hv => ⟨fully_read hf v, fully_read_ftz hf hv⟩, fun rm n sat ftz neg _ _ => ⟨fully_round_nan hf rm n sat ftz,
      fully_round_inf hf rm n sat ftz neg, fun e => fully_round_zero hf rm n sat ftz neg e, fun m y e hm hR => fully_rounded hf hm hR⟩⟩
  · obtain ⟨hfl, hint⟩ := intRow_fmt r hr
    have hw := intRow_width r hr
    obtain ⟨fmt, sgn, w⟩ := r
    have hread : ∀ ftz v, readNum fmt ftz v = .fin (decide (readInt sgn w v < 0)) (readInt sgn w v).natAbs 0 false := fun ftz v => by
      unfold readNum; rw [hfl, hint]
    have hconv : ∀ rm n sat ftz x, convTo fmt rm sat ftz n x = roundInt sgn w rm n x := fun rm n sat ftz x => by
      unfold convTo; rw [hfl, hint]
    have hlo : (intRange sgn w).1 = if sgn then -2 ^ (w - 1) else 0 := by
      unfold intRange; cases sgn <;> simp
    have hhi : (intRange sgn w).2 = if sgn then 2 ^ (w - 1) - 1 else 2 ^ w - 1 := by
      unfold intRange; cases sgn <;> simp
    refine ⟨fun ftz v hv => ?_, fun rm n sat ftz neg _ _ => ⟨?_, ?_, fun m y e hR => ?_⟩⟩
    · rw [hread, readInt_of_lt sgn hw hv]
    · show (convTo fmt rm sat ftz n .nan).bits = 0
      rw [hconv]; rfl
    · show (convTo fmt rm sat ftz n (.inf neg)).bits = _
      rw [hconv, roundInt_inf, wrap_eq, hlo, hhi]
    · show (convTo fmt rm sat ftz n (.fin neg m e false)).bits = _
      rw [hconv, roundInt_fin sgn w hR, wrap_eq, hlo, hhi]
  · intro rdn na nb ma mb ea eb a b
    obtain ⟨h1, h2, h3⟩ := add_exact rdn na nb ma mb ea eb
    obtain ⟨h4, h5, h6⟩ := mul_exact na nb ma mb ea eb
    exact ⟨h1, h2, h4, h5, h3, h6⟩
  · exact fun fmt rm bank xs amax hkb _ _ => quantise_kb_spec fmt rm bank xs amax hkb
  · exact fun fmt rm bank xs amax emax hcb hlen => quantise_cb_spec fmt rm bank xs amax emax hcb hlen

end Sys2Proof.Machine
end

section
/-! PROOF. V's instructions on coordinates, the reading of coordinates and the noise function (O37). -/
namespace Sys2Proof.Machine
open Sys2Proof

/-- An E64 instruction whose effect stops leaves what the stop says. -/
theorem go_stop {e : Eng} {f : E64} {on off : M Issue} {s : State} {x : Stop} (h : Turn.Go e f s)
    (ho : on (s.gained e f) = .error x) : runE64 e f on off s = settleStop s (.error x) := by
  have ht : ((tokPops e f.tk).all fun q => decide (0 < s.wk.tokensIn q)) = true := by
    simpa [List.all_eq_true] using h.tokens
  have hr : s.st.room = true := decide_eq_true h.room
  have hg : s.st.view.guard f.g = true := h.guard
  have ho' : on (s.popAcquire e f.tk) = .error x := ho
  unfold runE64
  rw [runOwn_next e _ s h.live h.turn]
  unfold issueE64
  simp only [m_bind, m_look, hr, m_await_true, m_change, ht, hg, if_true, ho']

theorem go_machine {f : E64} {on off : M Issue} {s : State} {kind pa : Nat} (e : Eng) (h : Turn.Go e f s)
    (ho : on (s.gained e f) = .error (.machine kind pa)) :
    runE64 e f on off s = .next (s.machineCheck s.wk e.code kind pa s.st.pc) := by
  rw [go_stop h ho, ← h.turn]
  rfl

/-! ## Materialising a coordinate, noise -/

theorem coordAt_ok {s : State} {m : CMap} {i : Nat} {c : Coord} (h : readCoord s.wk m i = .ok c) : coordAt s m i = .ok c := by
  unfold coordAt
  rw [h]
  rfl

section
variable {f : E64} {s : State} {m : CMap} {i : Nat} {c : Coord}

theorem noiseSlot_raw {w : Nat} (h : readCoord s.wk m i = .ok c) (ht : f.top2 = 0) :
    noiseSlot f w s m i = .ok (mix (s.view.nkey.get f.b8.toNat) c.ixl) := by
  simp only [noiseSlot, coordAt_ok h, ex_bind_ok, ht]
  rfl

theorem noiseSlot_unit {w : Nat} (h : readCoord s.wk m i = .ok c) (ht : f.top2 = 1) : noiseSlot f w s m i =
    .ok (convTo 0 0 false false 0 (.fin false (mix (s.view.nkey.get f.b8.toNat) c.ixl / 2 ^ 8) (-24) false)).bits := by
  simp only [noiseSlot, coordAt_ok h, ex_bind_ok, ht, Nat.shiftRight_eq_div_pow]
  rfl

theorem noiseSlot_table {w : Nat} (h : readCoord s.wk m i = .ok c) (ht : f.top2 = 2) (hb : (s.wk.front f.b8.toNat).2 ≠ 0) :
    noiseSlot f w s m i = .ok ((tabGet 0 (s.wk.front f.b8.toNat).1 (c.ixl % ((s.wk.front f.b8.toNat).2 : Int)).toNat).toNat % 2 ^ w) := by
  simp only [noiseSlot, coordAt_ok h, ex_bind_ok, ht, if_neg hb]
  rfl

end

/-! ## Rotation and bias -/

section
variable {f : E64} {t : State} {a : Src} {i : Nat} {c : Coord}

theorem rotSlot_ok {key : Nat} (hc : readCoord t.wk a.map (i - i % 2) = .ok c) (hk : stoch t.wk t.view.nkey.c0 a.map f.mid3 i = .ok key)
    (h0 : 0 ≤ c.get 0 / 2) (h1 : c.get 0 / 2 < ((t.wk.front f.b8.toNat).2 : Int)) :
    rotSlot f t a i =
      let x := fun (n : Nat) => readNum f.top2 t.view.ftz (a.slot (fmtWidth f.top2) n)
      let freq := readNum 0 false (tabGet 0 (t.wk.front f.b8.toNat).1 (c.get 0 / 2).toNat).toNat
      let r := rotate (f.mid3 == 3) (c.get (f.c8.toNat - 0x90)) freq (x (i - i % 2)) (x (i - i % 2 + 1))
      .ok (convTo f.top2 f.mid3 false t.view.ftz key (if i % 2 = 0 then r.1 else r.2)).bits := by
  simp only [rotSlot, coordAt_ok hc, ex_bind_ok, hk, slotTrap]
  rw [if_neg (by omega)]
  rfl

theorem biasSlot_ok {e : Nat} (hc : readCoord t.wk a.map i = .ok c) (he : c.get f.top2 = (e : Int)) (hn : e < t.ln.nexp) :
    biasSlot f t a i = .ok (roundF32 t.view.ftz (XReal.add false (readF32 t.view.ftz (a.slot 32 i))
      (readF32 t.view.ftz (nth 0 (if t.ln.det then t.ln.phaseBias else t.ln.bias) e).toNat))) := by
  simp only [biasSlot, coordAt_ok hc, ex_bind_ok, he, Int.toNat_natCast]
  rw [if_neg (by omega)]
  rfl

end

/-! ## Cell adds -/

theorem upFrom_zero (n : Nat) : upFrom 0 n = List.range n := by
  rw [upFrom_eq]
  simp

theorem noteCells_wk (s : State) (l : List (Nat × Edit)) : (s.noteCells l).wk = s.wk := by
  rw [noteCells_same]
  rfl

theorem mendCells_wk (s : State) (l : List Nat) : (s.mendCells l).wk = s.wk := rfl

theorem addTerms_wk (s : State) (anchor : Int) (l : List (Nat × XReal)) : (s.addTerms anchor l).wk = s.wk.addTerms anchor l := by
  unfold State.addTerms
  rw [modWk_eq, setWk_wk, noteCells_wk]

/-- Of the terms of the active slots, the one that goes to a given cell. -/
theorem filter_term (g base c : Nat) (act : Nat → Bool) (term : Nat → XReal) :
    ((((List.range g).filter act).map fun i => (base + i, term i)).filter fun e => e.1 == c) =
      if base ≤ c ∧ c < base + g ∧ act (c - base) = true then [(c, term (c - base))] else [] := by
  have hrange : ∀ k, (List.range g).filter (fun i => i == k && act i) = if k < g ∧ act k = true then [k] else [] := by
    intro k
    induction g with
    | zero => simp
    | succ n ih =>
      rw [List.range_succ, List.filter_append, ih]
      by_cases hk : n = k
      · subst hk
        cases h : act n <;> simp [h]
      · have : ¬ (n == k) = true := by simpa using hk
        by_cases hlt : k < n
        · simp [hlt, hk, Nat.lt_succ_of_lt hlt]
        · simp [hlt, hk, show ¬ k < n + 1 by omega]
  rw [List.filter_map, List.filter_filter]
  by_cases hb : base ≤ c
  · have hf : (List.range g).filter (fun a => ((fun e : Nat × XReal => e.1 == c) ∘ fun i => (base + i, term i)) a && act a) =
        (List.range g).filter (fun i => i == (c - base) && act i) := by
      refine List.filter_congr fun i _ => ?_
      have : (base + i == c) = (i == (c - base)) := by
        rw [Bool.eq_iff_iff, beq_iff_eq, beq_iff_eq]; omega
      simp only [Function.comp_apply, this]
    rw [hf, hrange]
    by_cases ha : c - base < g ∧ act (c - base) = true
    · rw [if_pos ha, if_pos ⟨hb, by omega, ha.2⟩]
      simp [Nat.add_sub_cancel' hb]
    · rw [if_neg ha, if_neg fun h => ha ⟨by omega, h.2.2⟩]
      rfl
  · have hf : (List.range g).filter (fun a => ((fun e : Nat × XReal => e.1 == c) ∘ fun i => (base + i, term i)) a && act a) = [] := by
      refine List.filter_eq_nil_iff.mpr fun i _ => ?_
      have : ¬ base + i = c := by omega
      simp [this]
    rw [hf, if_neg fun h => hb h.1]
    rfl

theorem vcadd_cell (w : Worker) (anchor : Int) (g base c : Nat) (act : Nat → Bool) (term : Nat → XReal) :
    (w.addTerms anchor (((List.range g).filter act).map fun i => (base + i, term i))).cell c =
      if base ≤ c ∧ c < base + g ∧ act (c - base) = true then admitTerm anchor (term (c - base)) (w.cell c) else w.cell c := by
  rw [addTerms_cell, filter_term]
  split <;> rfl

theorem vcadd_ok (f : E64) (s t : State) (a : Src) (h : Turn.Go .V f s) (hfmt : caddFormat (bits f.c8.toNat 0 5) = true)
    (hw : fmtWidth (bits f.c8.toNat 0 5) = ewWidth f) (hfit : s.view.shape.fits (ewWidth f) = true)
    (hok : (s.view.tile f.d8.toNat).ok = true)
    (hg : s.view.shape.slots ≤ (s.view.tile f.d8.toNat).rows.toNat * (s.view.tile f.d8.toNat).cols.toNat)
    (ha : readSrc f.a8 (some (ewWidth f)) (s.gained .V f) = .ok (a, t)) :
    let z := s.view.tile f.d8.toNat
    let l := ((List.range s.view.shape.slots).filter (activeIn (t.maskOf f.lo3))).map fun i =>
      (z.base.toNat + i, termOf (bits f.c8.toNat 0 5) (a.slot (ewWidth f) i))
    (∀ x, t.cellCheck (l.map Prod.fst) = some x → exec (.vcadd f) s = .next (s.machineCheck s.wk 2 2 x s.st.pc)) ∧
    (t.cellCheck (l.map Prod.fst) = none →
      exec (.vcadd f) s = .next (((t.mendCells (l.map Prod.fst)).addTerms z.anch l).afterE .V f 0 [])) := by
  intro z l
  have hlegal : (caddFormat (bits f.c8.toNat 0 5) && fmtWidth (bits f.c8.toNat 0 5) == ewWidth f && s.view.shape.fits (ewWidth f) &&
      (s.view.tile f.d8.toNat).ok && decide (s.view.shape.slots ≤ (s.view.tile f.d8.toNat).rows.toNat * (s.view.tile f.d8.toNat).cols.toNat)) = true := by
    simp only [hfmt, hw, hfit, hok, hg, beq_self_eq_true, decide_true, Bool.and_self]
  rw [exec_vcadd, execVcadd]
  refine ⟨fun x hx => go_machine .V h ?_, fun hx => go_none h ?_⟩
  · dsimp only
    rw [m_bind_ok (m_look State.view _), gained_view, m_bind_ok (legal_ok hlegal _), m_bind_ok ha, m_bind_ok (m_look _ _), upFrom_zero]
    refine m_bind_error ?_
    unfold meetCells
    rw [m_bind_ok (m_look id t)]
    dsimp only [id]
    rw [hx]
    rfl
  · dsimp only
    rw [m_bind_ok (m_look State.view _), gained_view, m_bind_ok (legal_ok hlegal _), m_bind_ok ha, m_bind_ok (m_look _ _), upFrom_zero]
    have hm : meetCells (l.map Prod.fst) t = .ok ((), t.mendCells (l.map Prod.fst)) := by
      unfold meetCells
      rw [m_bind_ok (m_look id t)]
      dsimp only [id]
      rw [hx]
      rfl
    rw [m_bind_ok hm]
    rfl

/-- Each add stands in the record as a write of its own. -/
theorem addTerms_writes (s : State) (anchor : Int) (l : List (Nat × XReal)) :
    ∃ new, (s.addTerms anchor l).writes = new.reverse ++ s.writes ∧
      List.Forall₂ (fun (e : (Nat × XReal) × Nat) (u : Write) => u.spot = .cell s.curKey ∧ u.line = e.1.1 ∧
        u.edit = .add (admitTerm anchor e.1.2 0) ∧ u.who = some ⟨s.curKey, .strand s.curEng⟩ ∧ u.pos = s.st.pos ∧ u.reach = [] ∧
        u.id = s.nextWrite + e.2 ∧ u.done = false) l.zipIdx new := by
  have key : ∀ (l : List (Nat × XReal)) (k : Nat) (t : State), t.curKey = s.curKey → t.curEng = s.curEng → t.st.pos = s.st.pos →
      t.nextWrite = s.nextWrite + k → ∃ new, (t.noteCells (termEdits anchor l)).writes = new.reverse ++ t.writes ∧
      List.Forall₂ (fun (e : (Nat × XReal) × Nat) (u : Write) => u.spot = .cell s.curKey ∧ u.line = e.1.1 ∧
        u.edit = .add (admitTerm anchor e.1.2 0) ∧ u.who = some ⟨s.curKey, .strand s.curEng⟩ ∧ u.pos = s.st.pos ∧ u.reach = [] ∧
        u.id = s.nextWrite + e.2 ∧ u.done = false) (l.zipIdx k) new := by
    intro l
    induction l with
    | nil => exact fun k t _ _ _ _ => ⟨[], rfl, List.Forall₂.nil⟩
    | cons e r ih =>
      intro k t hk he hp hn
      have hstep : t.noteCells (termEdits anchor (e :: r)) =
          (t.record t.strandAuthor .rc (.cell t.curKey) e.1 (.add (admitTerm anchor e.2 0))).noteCells (termEdits anchor r) := rfl
      obtain ⟨new, hnew, hall⟩ := ih (k + 1) (t.record t.strandAuthor .rc (.cell t.curKey) e.1 (.add (admitTerm anchor e.2 0)))
        hk he hp (show t.nextWrite + 1 = _ by rw [hn]; omega)
      refine ⟨⟨t.nextWrite, .cell t.curKey, e.1, t.lineNow (.cell t.curKey) e.1, .add (admitTerm anchor e.2 0), t.strandAuthor.who,
          t.strandAuthor.pos, .rc, t.strandAuthor.reach, none, [], t.strandAuthor.done⟩ :: new, ?_,
        List.Forall₂.cons ⟨?_, ?_, ?_, ?_, ?_, ?_, ?_, ?_⟩ hall⟩
      · rw [hstep, hnew, List.reverse_cons, List.append_assoc]
        rfl
      · exact congrArg Spot.cell hk
      · rfl
      · rfl
      · show some (strandWho t.curKey t.curEng) = _
        rw [hk, he]
        rfl
      · exact hp
      · rfl
      · exact hn
      · rfl
  obtain ⟨new, h1, h2⟩ := key l 0 s rfl rfl rfl rfl
  exact ⟨new, h1, h2⟩

/-! ## Reading coordinates (R41) -/

theorem signed_ofNat (v : Nat) : signed 32 v = (BitVec.ofNat 32 v).toInt := by
  unfold signed
  rw [BitVec.toInt_eq_toNat_cond, BitVec.toNat_ofNat]

theorem wrap_ofInt (i : Int) : wrap 32 i = (BitVec.ofInt 32 i).toNat := by
  rw [BitVec.toNat_ofInt]
  rfl

/-- An axis of an AFFINE map, as a 32-bit word. -/
theorem affineAxis_word (t : Quad Nat) (st : Quad Int) (o : Quad (BitVec 32)) (i : Quad Nat) (a : Nat) :
    BitVec.ofNat 32 (affineAxis t st o i a) = o.get a + BitVec.ofInt 32 ((if t.get 0 = a then st.get 0 * (i.get 0 : Int) else 0) +
      (if t.get 1 = a then st.get 1 * (i.get 1 : Int) else 0) + (if t.get 2 = a then st.get 2 * (i.get 2 : Int) else 0) +
      (if t.get 3 = a then st.get 3 * (i.get 3 : Int) else 0)) := by
  unfold affineAxis
  dsimp only
  rw [wrap_ofInt, BitVec.ofNat_toNat, BitVec.setWidth_eq]
  simp only [Int.add_assoc]
  rw [BitVec.ofInt_add]
  congr 1
  exact BitVec.ofInt_natCast ..|>.trans (by rw [BitVec.ofNat_toNat, BitVec.setWidth_eq])

theorem readCoord_affine (w : Worker) (g : Grant3) (t : Quad Nat) (st : Quad Int) (o : Quad (BitVec 32)) (e : Quad Nat) (i : Nat) :
    let c := fun a => BitVec.ofNat 32 (affineAxis t st o (slotIndex g i) a)
    readCoord w (.affine g t st o e) i = .ok ⟨⟨(c 0).toInt, (c 1).toInt, (c 2).toInt, (c 3).toInt⟩,
      (c 0 + BitVec.ofNat 32 e.c0 * (c 1 + BitVec.ofNat 32 e.c1 * (c 2 + BitVec.ofNat 32 e.c2 * c 3))).toInt⟩ := by
  intro c
  have hl : signed 32 (wrap 32 (linearIn e ⟨affineAxis t st o (slotIndex g i) 0, affineAxis t st o (slotIndex g i) 1,
      affineAxis t st o (slotIndex g i) 2, affineAxis t st o (slotIndex g i) 3⟩ : Nat)) =
      (c 0 + BitVec.ofNat 32 e.c0 * (c 1 + BitVec.ofNat 32 e.c1 * (c 2 + BitVec.ofNat 32 e.c2 * c 3))).toInt := by
    rw [wrap_ofInt, signed_ofNat, BitVec.ofNat_toNat, BitVec.setWidth_eq, BitVec.ofInt_natCast]
    simp only [linearIn, BitVec.ofNat_add, BitVec.ofNat_mul, c]
  simp only [readCoord, hl, signed_ofNat, c]

theorem readCoord_explicit (w : Worker) (g : Grant3) (comp : Nat) (e : Quad Nat) {i : Nat} (hi : i < 8192) :
    let l := BitVec.toInt (BitVec.ofNat 32 ((w.vget comp).data.toNat / 2 ^ (32 * i)))
    (l < 0 ∨ (e.c0 * e.c1 * e.c2 * e.c3 : Nat) ≤ l → readCoord w (.explicit g comp e) i = .error 4) ∧
    (0 ≤ l → l < (e.c0 * e.c1 * e.c2 * e.c3 : Nat) → readCoord w (.explicit g comp e) i =
      .ok ⟨⟨l % e.c0, l / e.c0 % e.c1, l / (e.c0 * e.c1) % e.c2, l / (e.c0 * e.c1 * e.c2)⟩, l⟩) := by
  intro l
  have hl : signed 32 (slotOf (w.vget comp).data.toNat 32 i) = l := by
    rw [signed_ofNat]
    simp only [slotOf, Nat.shiftRight_eq_div_pow, l]
    congr 1
    exact BitVec.eq_of_toNat_eq (by simp)
  simp only [readCoord, if_neg (Nat.not_le.mpr hi), hl]
  refine ⟨fun h => by rw [if_pos h], fun h0 h1 => ?_⟩
  rw [if_neg (by omega)]
  obtain ⟨n, hn⟩ := Int.eq_ofNat_of_zero_le h0
  rw [hn, Int.toNat_natCast]
  push_cast
  rfl

/-! ## The noise function (R128) -/

/-- One round of the noise function. -/
def noiseRound (p : BitVec 32 × BitVec 32) : BitVec 32 × BitVec 32 :=
  let a := p.1 + p.2
  let b := (a ^^^ a >>> 16) * 0x6C8E9CF5
  (b ^^^ b >>> 15, p.2 * 0x2C1B3C6D + 0x9E3779B9)

/-- The recursion of the noise function; its own equation is too costly for the kernel. -/
theorem mixRounds_succ (n x y : Nat) : mixRounds (n + 1) x y = mixRounds n
    (((((x + y) % 2 ^ 32) ^^^ (((x + y) % 2 ^ 32) >>> 16)) * 0x6C8E9CF5 % 2 ^ 32) ^^^
      (((((x + y) % 2 ^ 32) ^^^ (((x + y) % 2 ^ 32) >>> 16)) * 0x6C8E9CF5 % 2 ^ 32) >>> 15)) ((y * 0x2C1B3C6D + 0x9E3779B9) % 2 ^ 32) := by
  delta mixRounds
  rfl

theorem mixRounds_round (n : Nat) (p : BitVec 32 × BitVec 32) :
    mixRounds (n + 1) p.1.toNat p.2.toNat = mixRounds n (noiseRound p).1.toNat (noiseRound p).2.toNat := by
  have e3 : (0x6C8E9CF5 : BitVec 32).toNat = 0x6C8E9CF5 := rfl
  have hx : ∀ (v : BitVec 32) (k : Nat), v.toNat ^^^ (v.toNat >>> k) = (v ^^^ v >>> k).toNat := fun v k => by
    rw [BitVec.toNat_xor, BitVec.toNat_ushiftRight]
  have hy : (p.2.toNat * 0x2C1B3C6D + 0x9E3779B9) % 2 ^ 32 = (noiseRound p).2.toNat := by
    have e1 : (0x2C1B3C6D : BitVec 32).toNat = 0x2C1B3C6D := rfl
    have e2 : (0x9E3779B9 : BitVec 32).toNat = 0x9E3779B9 := rfl
    show _ = (p.2 * 0x2C1B3C6D + 0x9E3779B9).toNat
    rw [BitVec.toNat_add, BitVec.toNat_mul, e1, e2, Nat.mod_add_mod]
  have ha : (p.1.toNat + p.2.toNat) % 2 ^ 32 = (p.1 + p.2).toNat := (BitVec.toNat_add ..).symm
  have hm : ∀ v : BitVec 32, v.toNat * 0x6C8E9CF5 % 2 ^ 32 = (v * 0x6C8E9CF5).toNat := fun v => by
    rw [BitVec.toNat_mul, e3]
  rw [mixRounds_succ, hy, ha, hx, hm, hx]
  rfl

theorem mix_eq (key : Word) (idx : Int) : mix key idx = (noiseRound (noiseRound (noiseRound (noiseRound
    (BitVec.ofInt 32 idx ^^^ key.extractLsb' 0 32, key.extractLsb' 32 32))))).1.toNat := by
  have hb : ∀ lo, bits key.toNat lo 32 = (key.extractLsb' lo 32).toNat := fun lo => by
    rw [BitVec.extractLsb'_toNat]
    rfl
  unfold mix
  rw [hb, hb, wrap_ofInt, ← BitVec.toNat_xor]
  rw [mixRounds_round 3 (_, _), mixRounds_round 2, mixRounds_round 1, mixRounds_round 0]
  rfl

/-- Settles O37: each instruction slot by slot; the adds of `vcadd` cell by cell and as writes in the record; the coordinates of a
map and the noise function as 32-bit words. -/
theorem coordinateInstructions : Obligations.CoordinateInstructions := by
  unfold Obligations.CoordinateInstructions
  refine ⟨?_, ?_, ?_, ?_, ?_, ?_, ?_, ?_, mix_eq⟩
  · intro f s t a m w c h hp ho hf hw hr hc
    subst hw
    refine ⟨fun hm => ?_, fun hm ht => ?_, fun hm ht => ?_, fun ht hb => ?_⟩
    · have hl : (f.mid3 == 2 || f.mid3 == 3) = true := by simpa using hm
      rw [exec_vcrd, execVcrd]
      exact fromMap_ok h hp ho hl hf hr fun i hi => by rw [coordAt_ok (hc i hi)]; rfl
    · have hl : (f.top2 == 2 || f.mid3 == 2) = true := by simp [hm]
      rw [exec_vnoise, execVnoise]
      exact fromMap_ok h hp ho hl hf hr fun i hi => noiseSlot_raw (hc i hi) ht
    · have hl : (f.top2 == 2 || f.mid3 == 2) = true := by simp [hm]
      rw [exec_vnoise, execVnoise]
      exact fromMap_ok h hp ho hl hf hr fun i hi => noiseSlot_unit (hc i hi) ht
    · have hl : (f.top2 == 2 || f.mid3 == 2) = true := by simp [ht]
      rw [exec_vnoise, execVnoise]
      exact fromMap_ok h hp ho hl hf hr fun i hi => noiseSlot_table (hc i hi) ht hb
  · intro f s t a c key fmt w table ev h hv
    rw [exec_vrot, execVrot]
    refine move_ok h ?_
    rw [m_bind_ok (moveSlots_ok fun i hi => by
      obtain ⟨h1, h2, h3, h4⟩ := hv i hi
      exact rotSlot_ok h1 h2 h3 h4)]
    rfl
  · intro f s t a e h hm hv
    rw [exec_vgbias, execVgbias]
    refine go_run h.go ?_
    rw [m_bind_ok h.checks, m_bind_ok (legal_ok (by rw [hm]; rfl) _), m_bind_ok h.reads, m_bind_ok (moveSlots_ok fun i hi => by
      obtain ⟨c, h1, h2, h3⟩ := hv i hi
      exact biasSlot_ok h1 h2 h3)]
    rfl
  · intro f s t a m w h hf hr hq hm u
    rw [exec_vmap, execVmap]
    refine go_run h ?_
    dsimp only
    have h6 : peekSix t = .ok (t.wk.q14.take 6, t) := by
      unfold peekSix
      rw [m_bind_ok (m_look _ _), decide_eq_true hq, m_bind_ok (m_await_true _)]
      rfl
    rw [m_bind_ok (m_look State.view _), gained_view, m_bind_ok (legal_ok hf _), m_bind_ok hr, m_bind_ok h6, hm, upFrom_zero]
    rfl
  · intro f s t a h hr
    rw [exec_vmapq, execVmapq]
    refine go_run h ?_
    rw [m_bind_ok hr]
    rfl
  · intro f s t a fmt w z g h hfmt hw hf hok hg hr l u
    obtain ⟨h1, h2⟩ := vcadd_ok f s t a h hfmt hw hf hok hg hr
    have hu : u.wk = t.wk.addTerms z.anch l := by
      show ((t.mendCells (l.map Prod.fst)).addTerms z.anch l).wk = _
      rw [addTerms_wk, mendCells_wk]
    refine ⟨h1, fun hc => ⟨h2 hc, ?_, fun c => ?_⟩⟩
    · rw [hu]; exact addTerms_shape _ _ _
    · rw [hu]; exact vcadd_cell _ _ _ _ _ _ fun i => termOf fmt (a.slot w i)
  · intro s anchor l ids
    obtain ⟨new, h1, h2⟩ := addTerms_writes s anchor l
    refine ⟨new, h1, h2.imp fun e u ⟨a1, a2, a3, a4, a5, a6, a7, a8⟩ => ⟨a1, a2, a3, a4, a5, a6, a7.trans ?_, a8⟩⟩
    show s.nextWrite + e.2 = match s.writes with
      | u :: _ => u.id + 1 + e.2
      | [] => e.2
    unfold State.nextWrite
    cases s.writes with
    | nil => exact Nat.zero_add _
    | cons => rfl
  · intro w g t st o e comp i at_ part c x l
    refine ⟨rfl, ?_, fun h => ?_, fun h => (readCoord_explicit w g comp e h).1, fun h => (readCoord_explicit w g comp e h).2⟩
    · rw [readCoord_affine]
      simp only [affineAxis_word]
      rfl
    · simp only [readCoord, if_pos h]

end Sys2Proof.Machine
end

section
/-! PROOF. Matching old slot axes with new sizes (R44, O38). -/
namespace Sys2Proof.Machine
open Sys2Proof

/-- An old slot axis: its size, its target and its step. -/
abbrev Axis := Nat × Nat × Int

/-- Two neighbouring axes that merge: both feed no axis, or the second goes on where the first ends. -/
def Links (a b : Axis) : Prop := a.2.1 = 7 ∧ b.2.1 = 7 ∨ a.2.1 ≠ 7 ∧ b.2.1 = a.2.1 ∧ b.2.2 = a.2.2 * (a.1 : Int)

/-- The step of a split or merged axis. -/
def stepOf (t : Nat) (σ : Int) : Int := if t = 7 then 0 else σ

/-- The descriptors of the pieces of a split axis. -/
def pieces (t : Nat) (σ : Int) (hs : List Nat) : List (Nat × Int) :=
  (List.range hs.length).map fun k => (t, if t = 7 then 0 else σ * ((hs.take k).prod : Nat))

/-- The rest of a split axis, `g` left of it, takes the next new sizes. -/
def SplitRest (g t : Nat) (σ : Int) (os : List Axis) (ns : List Nat) (ds : List (Nat × Int)) : Prop :=
  ∃ hs ns' ds', ns = hs ++ ns' ∧ hs ≠ [] ∧ hs.prod = g ∧ ds = pieces t σ hs ++ ds' ∧ Matched os ns' ds'

/-- A merged axis, of size `g` so far, takes further old axes until it has the next new size. -/
def MergeRest (g t : Nat) (σ : Int) (os : List Axis) (ns : List Nat) (ds : List (Nat × Int)) : Prop :=
  ∃ as os' ns' ds', os = as ++ os' ∧ ns = (g * (as.map Prod.fst).prod) :: ns' ∧ ds = (t, σ) :: ds' ∧
    List.IsChain Links ((g, t, σ) :: as) ∧ Matched os' ns' ds'

theorem pieces_cons (t : Nat) (σ : Int) (h : Nat) (hs : List Nat) (hz : t = 7 → σ = 0) :
    pieces t σ (h :: hs) = (t, σ) :: pieces t (σ * (h : Int)) hs := by
  unfold pieces
  rw [List.length_cons, List.range_succ_eq_map, List.map_cons, List.map_map]
  congr 1
  · by_cases h7 : t = 7
    · simp [h7, hz h7]
    · simp [h7]
  · refine List.map_congr_left fun k _ => ?_
    by_cases h7 : t = 7
    · simp [h7]
    · simp only [Function.comp_apply, if_neg h7, Nat.succ_eq_add_one, List.take_succ_cons, List.prod_cons]
      push_cast
      rw [Int.mul_assoc]

theorem pieces_step (t : Nat) (σ : Int) (hs : List Nat) : pieces t (stepOf t σ) hs = pieces t σ hs := by
  unfold pieces stepOf
  refine List.map_congr_left fun k _ => ?_
  by_cases h7 : t = 7 <;> simp [h7]

theorem prod_ge_two {l : List Nat} (h : ∀ x ∈ l, 2 ≤ x) (hl : l ≠ []) : 2 ≤ l.prod := by
  induction l with
  | nil => exact absurd rfl hl
  | cons a r ih =>
    obtain ⟨ha, hr⟩ := List.forall_mem_cons.mp h
    rw [List.prod_cons]
    by_cases hr0 : r = []
    · subst hr0; simpa using ha
    · exact ha.trans (Nat.le_mul_of_pos_right _ (by have := ih hr hr0; omega))

section
variable {g t h : Nat} {σ : Int} {os : List Axis} {ns : List Nat} {ds : List (Nat × Int)}

/-! ### What is left of a split axis -/

theorem splitRest_nil : ¬ SplitRest g t σ os [] ds := by
  rintro ⟨hs, ns', ds', h1, h2, -⟩
  exact h2 (List.append_eq_nil_iff.mp h1.symm).1

/-- The first new size is the first piece. -/
theorem splitRest_cons (hz : t = 7 → σ = 0) : SplitRest g t σ os (h :: ns) ds ↔
    ∃ hs ns' ds', ns = hs ++ ns' ∧ h * hs.prod = g ∧ ds = (t, σ) :: (pieces t (σ * (h : Int)) hs ++ ds') ∧ Matched os ns' ds' := by
  constructor
  · rintro ⟨hs, ns', ds', h1, h2, h3, h4, h5⟩
    cases hs with
    | nil => exact absurd rfl h2
    | cons x hs =>
      rw [List.cons_append, List.cons.injEq] at h1
      obtain ⟨rfl, h1⟩ := h1
      rw [pieces_cons t σ h hs hz] at h4
      exact ⟨hs, ns', ds', h1, by rw [← List.prod_cons]; exact h3, h4, h5⟩
  · rintro ⟨hs, ns', ds', h1, h2, h3, h4⟩
    refine ⟨h :: hs, ns', ds', by rw [h1]; rfl, by simp, by rw [List.prod_cons]; exact h2, ?_, h4⟩
    rw [pieces_cons t σ h hs hz, h3]
    rfl

theorem prod_one_nil {l : List Nat} (hl : ∀ x ∈ l, 2 ≤ x) (h : l.prod = 1) : l = [] := by
  by_contra hne
  have := prod_ge_two hl hne
  omega

theorem splitRest_eq (hz : t = 7 → σ = 0) (hh : 2 ≤ h) (hns : ∀ x ∈ ns, 2 ≤ x) :
    SplitRest h t σ os (h :: ns) ds ↔ ∃ ds', ds = (t, σ) :: ds' ∧ Matched os ns ds' := by
  rw [splitRest_cons hz]
  constructor
  · rintro ⟨hs, ns', ds', h1, h2, h3, h4⟩
    have hp : hs.prod = 1 := Nat.eq_of_mul_eq_mul_left (show 0 < h by omega) (h2.trans (Nat.mul_one h).symm)
    have hnil := prod_one_nil (fun x hx => hns x (h1 ▸ List.mem_append_left _ hx)) hp
    subst hnil
    rw [h1]
    exact ⟨ds', h3, h4⟩
  · rintro ⟨ds', h1, h2⟩
    exact ⟨[], ns, ds', rfl, by simp, h1, h2⟩

theorem splitRest_lt (hz : t = 7 → σ = 0) (hh : 2 ≤ h) (hlt : h < g) :
    SplitRest g t σ os (h :: ns) ds ↔ g % h = 0 ∧ ∃ ds', ds = (t, σ) :: ds' ∧ SplitRest (g / h) t (σ * (h : Int)) os ns ds' := by
  rw [splitRest_cons hz]
  constructor
  · rintro ⟨hs, ns', ds', h1, h2, h3, h4⟩
    have hne : hs ≠ [] := fun h0 => by rw [h0] at h2; simp at h2; omega
    refine ⟨Nat.mod_eq_zero_of_dvd ⟨_, h2.symm⟩, _, h3, hs, ns', ds', h1, hne, ?_, rfl, h4⟩
    rw [← h2, Nat.mul_div_cancel_left _ (by omega)]
  · rintro ⟨hd, ds', h1, hs, ns', ds'', h2, h3, h4, h5, h6⟩
    refine ⟨hs, ns', ds'', h2, ?_, by rw [h1, h5], h6⟩
    rw [h4, Nat.mul_div_cancel' (Nat.dvd_of_mod_eq_zero hd)]

theorem splitRest_gt (hz : t = 7 → σ = 0) (hns : ∀ x ∈ ns, 2 ≤ x) (hgt : g < h) : ¬ SplitRest g t σ os (h :: ns) ds := by
  rw [splitRest_cons hz]
  rintro ⟨hs, ns', ds', h1, h2, -, -⟩
  have hp : 0 < hs.prod := by
    by_cases h0 : hs = []
    · subst h0; simp
    · have := prod_ge_two (fun x hx => hns x (h1 ▸ List.mem_append_left _ hx)) h0
      omega
  have := Nat.le_mul_of_pos_right h hp
  omega

/-! ### A merged axis -/

theorem mergeRest_nil : ¬ MergeRest g t σ os [] ds := by
  rintro ⟨as, os', ns', ds', -, h, -⟩
  cases h

theorem links_through {b c : Axis} (hl : Links (g, t, σ) b) : Links b c ↔ Links (g * b.1, t, stepOf t σ) c := by
  obtain ⟨h1, h2⟩ | ⟨h1, h2, h3⟩ := hl
  · have h1 : t = 7 := h1
    subst h1
    simp [Links, h2]
  · have h1 : t ≠ 7 := h1
    dsimp only at h2 h3
    simp only [Links, h2, h3, stepOf, if_neg h1]
    push_cast
    rw [Int.mul_assoc]

theorem chain_through {b : Axis} (hl : Links (g, t, σ) b) (as : List Axis) :
    List.IsChain Links (b :: as) ↔ List.IsChain Links ((g * b.1, t, stepOf t σ) :: as) := by
  cases as with
  | nil => simp
  | cons c r => rw [List.isChain_cons_cons, List.isChain_cons_cons, links_through hl]

theorem mergeRest_eq (hh : 2 ≤ h) (hos : ∀ x ∈ os, 2 ≤ x.1) :
    MergeRest h t σ os (h :: ns) ds ↔ ∃ ds', ds = (t, σ) :: ds' ∧ Matched os ns ds' := by
  constructor
  · rintro ⟨as, os', ns', ds', h1, h2, h3, h4, h5⟩
    rw [List.cons.injEq] at h2
    obtain ⟨hp, rfl⟩ := h2
    have hp1 : (as.map Prod.fst).prod = 1 := Nat.eq_of_mul_eq_mul_left (show 0 < h by omega) (hp.symm.trans (Nat.mul_one h).symm)
    have hnil := prod_one_nil (List.forall_mem_map.mpr fun x hx => hos x (h1 ▸ List.mem_append_left _ hx)) hp1
    have has : as = [] := List.map_eq_nil_iff.mp hnil
    subst has
    rw [h1]
    exact ⟨ds', h3, h5⟩
  · rintro ⟨ds', h1, h2⟩
    exact ⟨[], os, ns, ds', rfl, by simp, h1, by simp, h2⟩

theorem mergeRest_lt (hos : ∀ x ∈ os, 2 ≤ x.1) (hlt : h < g) : ¬ MergeRest g t σ os (h :: ns) ds := by
  rintro ⟨as, os', ns', ds', h1, h2, -⟩
  rw [List.cons.injEq] at h2
  have hp : 0 < (as.map Prod.fst).prod := by
    by_cases h0 : as.map Prod.fst = []
    · rw [h0]; simp
    · have := prod_ge_two (List.forall_mem_map.mpr fun x hx => hos x (h1 ▸ List.mem_append_left _ hx)) h0
      omega
  have := Nat.le_mul_of_pos_right g hp
  omega

/-- A merged axis that is still short takes the next old one. -/
theorem mergeRest_gt (hgt : g < h) :
    MergeRest g t (stepOf t σ) os (h :: ns) ds ↔
      ∃ b os', os = b :: os' ∧ Links (g, t, stepOf t σ) b ∧ MergeRest (g * b.1) t (stepOf t σ) os' (h :: ns) ds := by
  have hss : stepOf t (stepOf t σ) = stepOf t σ := by unfold stepOf; split <;> rfl
  constructor
  · rintro ⟨as, os', ns', ds', h1, h2, h3, h4, h5⟩
    cases as with
    | nil =>
      rw [List.cons.injEq] at h2
      simp at h2
      omega
    | cons b as =>
      obtain ⟨hb, hc⟩ := List.isChain_cons_cons.mp h4
      rw [chain_through hb, hss] at hc
      refine ⟨b, as ++ os', h1, hb, as, os', ns', ds', rfl, ?_, h3, hc, h5⟩
      rw [h2, List.map_cons, List.prod_cons, Nat.mul_assoc]
  · rintro ⟨b, os', h1, h2, as, os'', ns', ds', h3, h4, h5, h6, h7⟩
    refine ⟨b :: as, os'', ns', ds', by rw [h1, h3]; rfl, ?_, h5, ?_, h7⟩
    · rw [h4, List.map_cons, List.prod_cons, Nat.mul_assoc]
    · rw [List.isChain_cons_cons, chain_through h2, hss]
      exact ⟨h2, h6⟩

/-! ### An old axis untouched so far -/

theorem matched_nil_left : Matched [] ns ds ↔ ns = [] ∧ ds = [] := by
  constructor
  · intro h
    cases h
    exact ⟨rfl, rfl⟩
  · rintro ⟨rfl, rfl⟩
    exact .none

theorem matched_cons : Matched ((g, t, σ) :: os) ns ds ↔
    (∃ ns' ds', ns = g :: ns' ∧ ds = (t, σ) :: ds' ∧ Matched os ns' ds') ∨
    (∃ hs ns' ds', 2 ≤ hs.length ∧ hs.prod = g ∧ ns = hs ++ ns' ∧ ds = pieces t σ hs ++ ds' ∧ Matched os ns' ds') ∨
    ∃ as os' ns' ds', 1 ≤ as.length ∧ os = as ++ os' ∧ ns = (g * (as.map Prod.fst).prod) :: ns' ∧ ds = (t, stepOf t σ) :: ds' ∧
      List.IsChain Links ((g, t, σ) :: as) ∧ Matched os' ns' ds' := by
  constructor
  · intro h
    cases h with
    | keep _ _ _ h => exact Or.inl ⟨_, _, rfl, rfl, h⟩
    | split _ _ hs hl h => exact Or.inr (Or.inl ⟨hs, _, _, hl, rfl, rfl, rfl, h⟩)
    | merge _ _ _ as hl hc h => exact Or.inr (Or.inr ⟨as, _, _, _, hl, rfl, rfl, rfl, hc, h⟩)
  · rintro (⟨ns', ds', rfl, rfl, h⟩ | ⟨hs, ns', ds', hl, rfl, rfl, rfl, h⟩ | ⟨as, os', ns', ds', hl, rfl, rfl, rfl, hc, h⟩)
    · exact .keep g t σ h
    · exact .split t σ hs hl h
    · exact .merge g t σ as hl hc h

theorem matched_cons_nil : ¬ Matched ((g, t, σ) :: os) [] ds := by
  rw [matched_cons]
  rintro (⟨ns', ds', h, -⟩ | ⟨hs, ns', ds', hl, -, h, -⟩ | ⟨as, os', ns', ds', hl, -, h, -⟩)
  · cases h
  · rw [(List.append_eq_nil_iff.mp h.symm).1] at hl
    simp at hl
  · cases h

/-- A matching begins as the split, the kept or the merged axis that the first sizes ask for. -/
theorem matched_split_iff (hh : 2 ≤ h) (hns : ∀ x ∈ ns, 2 ≤ x) (hos : ∀ x ∈ os, 2 ≤ x.1) :
    (h = g → (Matched ((g, t, σ) :: os) (h :: ns) ds ↔ ∃ ds', ds = (t, σ) :: ds' ∧ Matched os ns ds')) ∧
    (h < g → (Matched ((g, t, σ) :: os) (h :: ns) ds ↔ SplitRest g t (stepOf t σ) os (h :: ns) ds)) ∧
    (g < h → (Matched ((g, t, σ) :: os) (h :: ns) ds ↔ ∃ b os', os = b :: os' ∧ Links (g, t, σ) b ∧
      MergeRest (g * b.1) t (stepOf t σ) os' (h :: ns) ds)) := by
  -- a split's first piece is smaller than the axis, a merged axis larger
  have hsplit : ∀ {hs ns' : List Nat}, 2 ≤ hs.length → hs.prod = g → h :: ns = hs ++ ns' → h < g := by
    intro hs ns' hl hp he
    match hs, hl with
    | x :: y :: r, _ =>
      rw [List.cons_append, List.cons.injEq] at he
      obtain ⟨rfl, he⟩ := he
      have h2 := prod_ge_two (l := y :: r) (fun z hz => hns z (he ▸ List.mem_append_left _ hz)) (by simp)
      rw [List.prod_cons] at hp
      have := Nat.mul_le_mul_left h h2
      omega
  have hmerge : ∀ {as os' : List Axis}, 1 ≤ as.length → os = as ++ os' → h = g * (as.map Prod.fst).prod → g < h := by
    intro as os' hl he hp
    have h2 := prod_ge_two (l := as.map Prod.fst) (List.forall_mem_map.mpr fun x hx => hos x (he ▸ List.mem_append_left _ hx))
      (fun h0 => by rw [List.map_eq_nil_iff.mp h0] at hl; simp at hl)
    have := Nat.mul_le_mul_left g h2
    omega
  rw [matched_cons]
  refine ⟨fun heq => ?_, fun hlt => ?_, fun hgt => ?_⟩
  · constructor
    · rintro (⟨ns', ds', h1, h2, h3⟩ | ⟨hs, ns', ds', hl, h1, h2, -⟩ | ⟨as, os', ns', ds', hl, h1, h2, -⟩)
      · cases h1
        exact ⟨ds', h2, h3⟩
      · exact absurd (hsplit hl h1 h2) (by omega)
      · exact absurd (hmerge hl h1 (List.cons.inj h2).1) (by omega)
    · rintro ⟨ds', h1, h2⟩
      exact Or.inl ⟨ns, ds', by rw [heq], h1, h2⟩
  · constructor
    · rintro (⟨ns', ds', h1, -⟩ | ⟨hs, ns', ds', hl, h1, h2, h3, h4⟩ | ⟨as, os', ns', ds', hl, h1, h2, -⟩)
      · cases h1; omega
      · exact ⟨hs, ns', ds', h2, fun h0 => by rw [h0] at hl; simp at hl, h1, by rw [pieces_step]; exact h3, h4⟩
      · exact absurd (hmerge hl h1 (List.cons.inj h2).1) (by omega)
    · rintro ⟨hs, ns', ds', h1, h2, h3, h4, h5⟩
      refine Or.inr (Or.inl ⟨hs, ns', ds', ?_, h3, h1, by rw [h4, pieces_step], h5⟩)
      match hs with
      | [] => exact absurd rfl h2
      | [x] =>
        rw [List.cons_append, List.cons.injEq] at h1
        simp at h3
        omega
      | _ :: _ :: _ => simp
  · constructor
    · rintro (⟨ns', ds', h1, -⟩ | ⟨hs, ns', ds', hl, h1, h2, -⟩ | ⟨as, os', ns', ds', hl, h1, h2, h3, h4, h5⟩)
      · cases h1; omega
      · exact absurd (hsplit hl h1 h2) (by omega)
      · match as, hl with
        | b :: as, _ =>
          obtain ⟨hb, hc⟩ := List.isChain_cons_cons.mp h4
          rw [chain_through hb] at hc
          refine ⟨b, as ++ os', h1, hb, as, os', ns', ds', rfl, ?_, h3, hc, h5⟩
          rw [h2, List.map_cons, List.prod_cons, Nat.mul_assoc]
    · rintro ⟨b, os', h1, h2, as, os'', ns', ds', h3, h4, h5, h6, h7⟩
      refine Or.inr (Or.inr ⟨b :: as, os'', ns', ds', by simp, by rw [h1, h3]; rfl, ?_, h5, ?_, h7⟩)
      · rw [h4, List.map_cons, List.prod_cons, Nat.mul_assoc]
      · rw [List.isChain_cons_cons, chain_through h2]
        exact ⟨h2, h6⟩

end

/-! ### The model's matching -/

/-- An old axis of the model as a triple. -/
def OldAxis.axis (a : OldAxis) : Axis := (a.size, a.tgt, a.step)

/-- What remains to be matched from an axis on: of a split, of a merged or of an untouched one. -/
def Follows (a : OldAxis) (os : List OldAxis) (ns : List Nat) (ds : List (Nat × Int)) : Prop :=
  if a.part then SplitRest a.size a.tgt a.step (os.map OldAxis.axis) ns ds
  else if a.merged then MergeRest a.size a.tgt a.step (os.map OldAxis.axis) ns ds
  else Matched (a.axis :: os.map OldAxis.axis) ns ds

/-- An axis as the matching meets it. -/
structure OldAxis.Sound (a : OldAxis) : Prop where
  size : 2 ≤ a.size
  apart : ¬ (a.part = true ∧ a.merged = true)
  still : a.part = true ∨ a.merged = true → a.tgt = 7 → a.step = 0

/-- An axis not yet split or merged. -/
structure OldAxis.Fresh (a : OldAxis) : Prop where
  size : 2 ≤ a.size
  part : a.part = false
  merged : a.merged = false

theorem OldAxis.Fresh.sound {a : OldAxis} (h : a.Fresh) : a.Sound :=
  ⟨h.size, fun x => by rw [h.part] at x; exact Bool.false_ne_true x.1, fun x => by rw [h.part, h.merged] at x; simp at x⟩

section
variable {a : OldAxis} {os : List OldAxis} {h : Nat} {ns : List Nat} {ds : List (Nat × Int)}

theorem follows_fresh (ha : a.Fresh) : Follows a os ns ds ↔ Matched (a.axis :: os.map OldAxis.axis) ns ds := by
  unfold Follows
  rw [ha.part, ha.merged]
  rfl

theorem fresh_sizes (hos : ∀ x ∈ os, x.Fresh) : ∀ x ∈ os.map OldAxis.axis, 2 ≤ x.1 :=
  List.forall_mem_map.mpr fun x hx => (hos x hx).size

theorem follows_nil : ¬ Follows a os [] ds := by
  unfold Follows
  split
  · exact splitRest_nil
  · split
    · exact mergeRest_nil
    · exact matched_cons_nil

theorem follows_eq (ha : a.Sound) (hos : ∀ x ∈ os, x.Fresh) (hns : ∀ x ∈ ns, 2 ≤ x) :
    Follows a os (a.size :: ns) ds ↔ ∃ ds', ds = (a.tgt, a.step) :: ds' ∧ Matched (os.map OldAxis.axis) ns ds' := by
  unfold Follows
  split
  · rename_i hp
    exact splitRest_eq (ha.still (Or.inl hp)) ha.size hns
  · split
    · exact mergeRest_eq ha.size (fresh_sizes hos)
    · exact (matched_split_iff ha.size hns (fresh_sizes hos)).1 rfl

theorem follows_lt (ha : a.Sound) (hos : ∀ x ∈ os, x.Fresh) (hh : 2 ≤ h) (hns : ∀ x ∈ ns, 2 ≤ x) (hlt : h < a.size) :
    Follows a os (h :: ns) ds ↔ ¬ (a.merged || a.size % h != 0) = true ∧ ∃ ds', ds = (a.tgt, stepOf a.tgt a.step) :: ds' ∧
      Follows ⟨a.size / h, a.tgt, stepOf a.tgt a.step * (h : Int), true, false⟩ os ns ds' := by
  have hcond : ¬ (a.merged || a.size % h != 0) = true ↔ a.merged = false ∧ a.size % h = 0 := by
    cases a.merged <;> simp
  have hz : a.tgt = 7 → stepOf a.tgt a.step = 0 := fun h7 => if_pos h7
  have hpart : ∀ ds', Follows ⟨a.size / h, a.tgt, stepOf a.tgt a.step * (h : Int), true, false⟩ os ns ds' ↔
      SplitRest (a.size / h) a.tgt (stepOf a.tgt a.step * (h : Int)) (os.map OldAxis.axis) ns ds' := fun ds' => Iff.rfl
  rw [hcond]
  simp only [hpart]
  unfold Follows
  cases hp : a.part with
  | true =>
    have hm : a.merged = false := Bool.eq_false_iff.mpr fun x => ha.apart ⟨hp, x⟩
    have hs : a.step = stepOf a.tgt a.step := by
      unfold stepOf
      split
      · rename_i h7; exact ha.still (Or.inl hp) h7
      · rfl
    rw [if_pos rfl, hm, ← hs, splitRest_lt (fun h7 => hs.trans (hz h7)) hh hlt, and_iff_right rfl]
  | false =>
    rw [if_neg Bool.false_ne_true]
    cases hm : a.merged with
    | true =>
      rw [if_pos rfl]
      exact iff_of_false (mergeRest_lt (fresh_sizes hos) hlt) fun x => Bool.false_ne_true x.1.1.symm
    | false =>
      rw [if_neg Bool.false_ne_true]
      exact ((matched_split_iff hh hns (fresh_sizes hos)).2.1 hlt).trans ((splitRest_lt hz hh hlt).trans (by simp))

/-- The two tests of the model for neighbours that merge. -/
theorem links_iff (a b : OldAxis) : Links a.axis b.axis ↔
    (decide (a.tgt = 7) && b.tgt == 7) = true ∨ ¬ (decide (a.tgt = 7) && b.tgt == 7) = true ∧ (a.tgt == b.tgt && b.step == a.step * (a.size : Int)) = true := by
  simp only [Links, OldAxis.axis, Bool.and_eq_true, decide_eq_true_eq, beq_iff_eq]
  by_cases h7 : a.tgt = 7
  · simp only [h7, ne_eq, not_true, false_and, or_false, true_and, eq_comm (a := 7)]
    constructor
    · exact Or.inl
    · rintro (h | ⟨h, h', -⟩)
      · exact h
      · exact absurd h' h
  · simp [h7, eq_comm]

theorem follows_gt (ha : a.Sound) (hos : ∀ x ∈ os, x.Fresh) (hh : 2 ≤ h) (hns : ∀ x ∈ ns, 2 ≤ x) (hgt : a.size < h) :
    Follows a os (h :: ns) ds ↔ a.part = false ∧ ∃ b os', os = b :: os' ∧ Links a.axis b.axis ∧
      Follows ⟨a.size * b.size, a.tgt, stepOf a.tgt a.step, false, true⟩ os' (h :: ns) ds := by
  have hback : (∃ b os', os.map OldAxis.axis = b :: os' ∧ Links a.axis b ∧
      MergeRest (a.size * b.1) a.tgt (stepOf a.tgt a.step) os' (h :: ns) ds) ↔ ∃ b os', os = b :: os' ∧ Links a.axis b.axis ∧
      Follows ⟨a.size * b.size, a.tgt, stepOf a.tgt a.step, false, true⟩ os' (h :: ns) ds := by
    constructor
    · rintro ⟨b, os', h1, h2, h3⟩
      cases os with
      | nil => cases h1
      | cons x r =>
        rw [List.map_cons, List.cons.injEq] at h1
        obtain ⟨rfl, rfl⟩ := h1
        exact ⟨x, r, rfl, h2, h3⟩
    · rintro ⟨b, os', rfl, h2, h3⟩
      exact ⟨b.axis, os'.map OldAxis.axis, rfl, h2, h3⟩
  rw [← hback]
  cases hp : a.part with
  | true =>
    refine iff_of_false ?_ fun x => Bool.false_ne_true x.1.symm
    unfold Follows
    rw [if_pos hp]
    exact splitRest_gt (ha.still (Or.inl hp)) hns hgt
  | false =>
    rw [and_iff_right rfl]
    unfold Follows
    rw [if_neg (by rw [hp]; exact Bool.false_ne_true)]
    cases hm : a.merged with
    | true =>
      have hs : a.step = stepOf a.tgt a.step := by
        unfold stepOf
        split
        · rename_i h7; exact ha.still (Or.inr hm) h7
        · rfl
      rw [if_pos rfl]
      have := mergeRest_gt (g := a.size) (t := a.tgt) (σ := a.step) (os := os.map OldAxis.axis) (ns := ns) (ds := ds) hgt
      rw [← hs] at this ⊢
      exact this
    | false =>
      rw [if_neg Bool.false_ne_true]
      exact (matched_split_iff hh hns (fresh_sizes hos)).2.2 hgt

end

theorem matchAxes_nil (k : Nat) (ns : List Nat) (ds : List (Nat × Int)) : matchAxes (k + 1) [] ns = some ds ↔ Matched [] ns ds := by
  rw [matched_nil_left]
  cases ns with
  | nil => simp [matchAxes, eq_comm]
  | cons => simp [matchAxes]

/-- One step of the model's matching. -/
theorem matchAxes_cons (k : Nat) (a : OldAxis) (os : List OldAxis) (h : Nat) (ns : List Nat) :
    matchAxes (k + 1) (a :: os) (h :: ns) =
      if h = a.size then (matchAxes k os ns).map fun l => (a.tgt, a.step) :: l
      else if h < a.size then
        if a.merged || a.size % h != 0 then none
        else (matchAxes k (⟨a.size / h, a.tgt, stepOf a.tgt a.step * (h : Int), true, false⟩ :: os) ns).map
          fun l => (a.tgt, stepOf a.tgt a.step) :: l
      else
        match os with
        | [] => none
        | b :: os' =>
          if a.part then none
          else if a.tgt = 7 && b.tgt == 7 then matchAxes k (⟨a.size * b.size, 7, 0, false, true⟩ :: os') (h :: ns)
          else if a.tgt == b.tgt && b.step == a.step * (a.size : Int) then
            matchAxes k (⟨a.size * b.size, a.tgt, a.step, false, true⟩ :: os') (h :: ns)
          else none := by
  cases os <;> rfl

/-- The model's matching finds the descriptors of R44, and nothing where there are none. -/
theorem matchAxes_follows (k : Nat) : ∀ (a : OldAxis) (os : List OldAxis) (ns : List Nat) (ds : List (Nat × Int)),
    os.length + ns.length + 1 < k → a.Sound → (∀ x ∈ os, x.Fresh) → (∀ x ∈ ns, 2 ≤ x) →
      (matchAxes k (a :: os) ns = some ds ↔ Follows a os ns ds) := by
  induction k with
  | zero => intro a os ns ds hk; omega
  | succ k ih =>
    intro a os ns ds hk ha hos hns
    cases ns with
    | nil =>
      rw [matchAxes]
      exact iff_of_false (fun h => by cases h) follows_nil
    | cons h ns =>
      obtain ⟨hh, hns'⟩ := List.forall_mem_cons.mp hns
      rw [List.length_cons] at hk
      rw [matchAxes_cons]
      by_cases heq : h = a.size
      · rw [if_pos heq, Option.map_eq_some_iff, heq, follows_eq ha hos hns']
        refine exists_congr fun l => ?_
        rw [and_comm, eq_comm (a := ds)]
        refine and_congr_right fun _ => ?_
        cases os with
        | nil =>
          obtain ⟨k', rfl⟩ : ∃ k', k = k' + 1 := ⟨k - 1, by omega⟩
          exact matchAxes_nil k' ns l
        | cons b r =>
          obtain ⟨hb, hr⟩ := List.forall_mem_cons.mp hos
          rw [List.length_cons] at hk
          rw [ih b r ns l (by omega) hb.sound hr hns', follows_fresh hb]
          rfl
      · rw [if_neg heq]
        by_cases hlt : h < a.size
        · rw [if_pos hlt, follows_lt ha hos hh hns' hlt]
          by_cases hbad : (a.merged || a.size % h != 0) = true
          · rw [if_pos hbad]
            exact iff_of_false (fun x => by cases x) fun x => x.1 hbad
          · rw [if_neg hbad, Option.map_eq_some_iff, and_iff_right hbad]
            refine exists_congr fun l => ?_
            rw [and_comm, eq_comm (a := ds)]
            refine and_congr_right fun _ => ?_
            have hmod : a.size % h = 0 := by
              cases hm : a.merged <;> simp [hm] at hbad
              exact hbad
            have hdiv := Nat.div_add_mod a.size h
            rw [hmod, Nat.add_zero] at hdiv
            have hsize : 2 ≤ a.size / h := by
              by_contra hc
              have : a.size / h ≤ 1 := by omega
              have := Nat.mul_le_mul_left h this
              omega
            refine ih _ os ns l (by omega) ⟨hsize, fun x => Bool.false_ne_true x.2, fun _ h7 => ?_⟩ hos hns'
            show stepOf a.tgt a.step * (h : Int) = 0
            rw [stepOf, if_pos h7, Int.zero_mul]
        · rw [if_neg hlt, follows_gt ha hos hh hns' (by omega)]
          cases os with
          | nil => exact iff_of_false (fun x => by cases x) fun ⟨_, b, os', h1, _⟩ => by cases h1
          | cons b r =>
            obtain ⟨hb, hr⟩ := List.forall_mem_cons.mp hos
            rw [List.length_cons] at hk
            have hex : (∃ b' os', b :: r = b' :: os' ∧ Links a.axis b'.axis ∧
                Follows ⟨a.size * b'.size, a.tgt, stepOf a.tgt a.step, false, true⟩ os' (h :: ns) ds) ↔
                Links a.axis b.axis ∧ Follows ⟨a.size * b.size, a.tgt, stepOf a.tgt a.step, false, true⟩ r (h :: ns) ds :=
              ⟨fun ⟨b', os', h1, h2⟩ => by cases h1; exact h2, fun h2 => ⟨b, r, rfl, h2⟩⟩
            have hnext : ∀ ds, (matchAxes k (⟨a.size * b.size, a.tgt, stepOf a.tgt a.step, false, true⟩ :: r) (h :: ns) = some ds ↔
                Follows ⟨a.size * b.size, a.tgt, stepOf a.tgt a.step, false, true⟩ r (h :: ns) ds) := fun ds =>
              ih _ r (h :: ns) ds (by rw [List.length_cons]; omega) ⟨ha.size.trans (Nat.le_mul_of_pos_right _ (by have := hb.size; omega)),
                fun x => Bool.false_ne_true x.1, fun _ h7 => if_pos h7⟩ hr hns
            rw [hex, links_iff]
            dsimp only
            cases hp : a.part with
            | true => exact iff_of_false (fun x => by cases x) fun x => Bool.false_ne_true x.1.symm
            | false =>
              rw [if_neg Bool.false_ne_true, and_iff_right rfl]
              by_cases h7 : (decide (a.tgt = 7) && b.tgt == 7) = true
              · rw [if_pos h7, and_iff_right (Or.inl h7)]
                have ht : a.tgt = 7 := by simp at h7; exact h7.1
                have h0 := hnext ds
                rw [stepOf, if_pos ht, ht] at h0
                rw [stepOf, if_pos ht, ht]
                exact h0
              · rw [if_neg h7]
                by_cases hl : (a.tgt == b.tgt && b.step == a.step * (a.size : Int)) = true
                · rw [if_pos hl, and_iff_right (Or.inr ⟨h7, hl⟩)]
                  have ht : a.tgt ≠ 7 := by
                    intro ht
                    simp [ht] at h7 hl
                    exact h7 hl.1.symm
                  have h0 := hnext ds
                  rw [stepOf, if_neg ht] at h0 ⊢
                  exact h0
                · rw [if_neg hl]
                  exact iff_of_false (fun x => by cases x) fun x => x.1.elim h7 fun y => hl y.2

end Sys2Proof.Machine
end

section
/-! PROOF. What each map becomes under a movement, and that reshaping keeps coordinates (O38). -/
namespace Sys2Proof.Machine
open Sys2Proof

/-! ## The steps of a slot's coordinates -/

/-- What the axes of a map add to coordinate `a` at the index `i` in them. -/
def reachOf (a : Nat) : List Axis → Nat → Int
  | [], _ => 0
  | x :: r, i => (if x.2.1 = a then x.2.2 * ((i % x.1 : Nat) : Int) else 0) + reachOf a r (i / x.1)

theorem reachOf_append (a : Nat) (l r : List Axis) (i : Nat) :
    reachOf a (l ++ r) i = reachOf a l i + reachOf a r (i / (l.map Prod.fst).prod) := by
  induction l generalizing i with
  | nil => simp [reachOf]
  | cons x l ih =>
    rw [List.cons_append, reachOf, reachOf, ih, List.map_cons, List.prod_cons, Nat.div_div_eq_div_mul]
    ring

/-- The pieces of a split axis, with their sizes. -/
theorem reachOf_pieces {a t : Nat} (ha : a < 4) (σ : Int) : ∀ (hs : List Nat) (i : Nat),
    reachOf a (hs.zip (pieces t σ hs)) i = if t = a then σ * ((i % hs.prod : Nat) : Int) else 0 := by
  by_cases h7 : t = 7
  · -- it feeds no coordinate
    have hne : t ≠ a := by omega
    intro hs
    have hz : ∀ (l : List Axis) (i : Nat), (∀ x ∈ l, x.2.1 ≠ a) → reachOf a l i = 0 := by
      intro l
      induction l with
      | nil => exact fun _ _ => rfl
      | cons x l ih =>
        intro i hl
        obtain ⟨hx, hl⟩ := List.forall_mem_cons.mp hl
        rw [reachOf, if_neg hx, ih _ hl, Int.zero_add]
    intro i
    rw [if_neg hne]
    refine hz _ i fun x hx => ?_
    have := (List.of_mem_zip hx).2
    unfold pieces at this
    rw [List.mem_map] at this
    obtain ⟨k, -, hk⟩ := this
    rw [← hk]
    exact hne
  · intro hs
    induction hs generalizing σ with
    | nil => intro i; simp [reachOf, Nat.mod_one]
    | cons h hs ih =>
      intro i
      rw [pieces_cons t σ h hs (fun x => absurd x h7), List.zip_cons_cons, reachOf, ih]
      by_cases hta : t = a
      · rw [if_pos hta, if_pos hta, if_pos hta, List.prod_cons, Nat.mod_mul]
        push_cast
        ring
      · rw [if_neg hta, if_neg hta, if_neg hta, Int.zero_add]

/-- Axes that merge reach what the merged one does. -/
theorem reachOf_merge {a : Nat} (ha : a < 4) (as : List Axis) : ∀ (g t : Nat) (σ : Int) (i : Nat), List.IsChain Links ((g, t, σ) :: as) →
    reachOf a ((g, t, σ) :: as) i = if t = a then σ * ((i % (g * (as.map Prod.fst).prod) : Nat) : Int) else 0 := by
  induction as with
  | nil => intro g t σ i _; simp [reachOf]
  | cons b as ih =>
    intro g t σ i hc
    obtain ⟨hl, hb⟩ := List.isChain_cons_cons.mp hc
    rw [reachOf, ih b.1 b.2.1 b.2.2 _ hb, List.map_cons, List.prod_cons]
    dsimp only
    obtain ⟨h1, h2⟩ | ⟨h1, h2, h3⟩ := hl
    · have h1 : t = 7 := h1
      rw [if_neg (by omega), if_neg (by omega), if_neg (by omega), Int.zero_add]
    · dsimp only at h2 h3
      by_cases hta : t = a
      · rw [if_pos hta, if_pos (h2.trans hta), if_pos hta, h3, Nat.mod_mul (x := i) (a := g)]
        push_cast
        ring
      · rw [if_neg hta, if_neg fun x => hta (h2.symm.trans x), if_neg hta, Int.zero_add]

/-- R44: matched axes reach the same coordinates, and describe every new size. -/
theorem matched_reach {a : Nat} (ha : a < 4) {os : List Axis} {ns : List Nat} {ds : List (Nat × Int)} (h : Matched os ns ds) :
    ds.length = ns.length ∧ ∀ i, reachOf a os i = reachOf a (ns.zip ds) i := by
  induction h with
  | none => exact ⟨rfl, fun _ => rfl⟩
  | keep g t σ _ ih =>
    obtain ⟨hl, ih⟩ := ih
    exact ⟨by rw [List.length_cons, List.length_cons, hl], fun i => by rw [List.zip_cons_cons, reachOf, reachOf, ih]⟩
  | @split t σ hs os ns ds hl _ ih =>
    obtain ⟨hlen, ih⟩ := ih
    have hp : (pieces t σ hs).length = hs.length := by simp [pieces]
    refine ⟨?_, fun i => ?_⟩
    · rw [List.length_append, List.length_append, hlen]
      exact congrArg (· + ns.length) hp
    · have hz : (hs ++ ns).zip (pieces t σ hs ++ ds) = hs.zip (pieces t σ hs) ++ ns.zip ds := List.zip_append hp.symm
      have hf : ((hs.zip (pieces t σ hs)).map Prod.fst).prod = hs.prod := by
        rw [List.map_fst_zip hp.ge]
      show reachOf a _ i = reachOf a ((hs ++ ns).zip (pieces t σ hs ++ ds)) i
      rw [hz, reachOf_append, hf, reachOf_pieces ha, reachOf, ih]
  | @merge g t σ as os ns ds hl hc _ ih =>
    obtain ⟨hlen, ih⟩ := ih
    refine ⟨by rw [List.length_cons, List.length_cons, hlen], fun i => ?_⟩
    have hf : (((g, t, σ) :: as).map Prod.fst).prod = g * (as.map Prod.fst).prod := by rw [List.map_cons, List.prod_cons]
    rw [reachOf_append, reachOf_merge ha as g t σ i hc, hf, List.zip_cons_cons, reachOf, ih]
    dsimp only
    congr 1
    by_cases hta : t = a
    · rw [if_pos hta, if_pos hta, if_neg (by omega)]
    · rw [if_neg hta, if_neg hta]

/-! ## Axes of size 1 -/

theorem reachOf_ones {a : Nat} (l : List Axis) : ∀ i, reachOf a (l.filter (·.1 ≠ 1)) i = reachOf a l i := by
  induction l with
  | nil => exact fun _ => rfl
  | cons x l ih =>
    intro i
    by_cases hx : x.1 = 1
    · rw [List.filter_cons_of_neg (by simpa using hx), ih, reachOf, hx]
      simp [Nat.mod_one]
    · rw [List.filter_cons_of_pos (by simpa using hx), reachOf, reachOf, ih]

/-- Descriptors put at the sizes above 1, the others feeding nothing. -/
theorem spread_length (news : List Nat) : ∀ ds, (spread news ds).length = news.length := by
  induction news with
  | nil => intro ds; rfl
  | cons h r ih =>
    intro ds
    unfold spread
    split
    · rw [List.length_cons, ih, List.length_cons]
    · cases ds with
      | nil => dsimp only; rw [List.length_cons, ih, List.length_cons]
      | cons => dsimp only; rw [List.length_cons, ih, List.length_cons]

theorem spread_one {h : Nat} (h1 : h = 1) (r : List Nat) (l : List (Nat × Int)) : spread (h :: r) l = (7, 0) :: spread r l := by
  conv_lhs => unfold spread
  rw [if_pos h1]

theorem spread_more {h : Nat} (h1 : h ≠ 1) (r : List Nat) (x : Nat × Int) (l : List (Nat × Int)) :
    spread (h :: r) (x :: l) = x :: spread r l := by
  conv_lhs => unfold spread
  rw [if_neg h1]

theorem spread_filter (news : List Nat) : ∀ ds, ds.length = (news.filter (· ≠ 1)).length →
    (news.zip (spread news ds)).filter (·.1 ≠ 1) = (news.filter (· ≠ 1)).zip ds := by
  induction news with
  | nil => intro ds _; rfl
  | cons h r ih =>
    intro ds hl
    by_cases h1 : h = 1
    · have hf : (h :: r).filter (· ≠ 1) = r.filter (· ≠ 1) := List.filter_cons_of_neg (by simpa using h1)
      rw [hf] at hl ⊢
      rw [spread_one h1, List.zip_cons_cons, List.filter_cons_of_neg (by simpa using h1), ih ds hl]
    · have hf : (h :: r).filter (· ≠ 1) = h :: r.filter (· ≠ 1) := List.filter_cons_of_pos (by simpa using h1)
      rw [hf] at hl ⊢
      cases ds with
      | nil => simp at hl
      | cons x ds =>
        rw [spread_more h1, List.zip_cons_cons, List.zip_cons_cons, List.filter_cons_of_pos (by simpa using h1), ih ds (by simpa using hl)]

/-- The descriptors of all new axes are those given, where they agree with the ones matched. -/
theorem spread_eq (news : List Nat) : ∀ ds full : List (Nat × Int), full.length = news.length →
    ((news.zip full).filter (·.1 ≠ 1)).map Prod.snd = ds → (∀ x ∈ news.zip full, x.1 = 1 → x.2 = (7, 0)) → spread news ds = full := by
  induction news with
  | nil => intro ds full hl _ _; exact (List.length_eq_zero_iff.mp hl).symm
  | cons h r ih =>
    intro ds full hl hd hz
    match full, hl with
    | y :: full, hl =>
      rw [List.zip_cons_cons] at hd hz
      obtain ⟨hz0, hz⟩ := List.forall_mem_cons.mp hz
      rw [List.length_cons, List.length_cons] at hl
      by_cases h1 : h = 1
      · rw [List.filter_cons_of_neg (by simpa using h1)] at hd
        have hy : y = (7, 0) := hz0 h1
        rw [spread_one h1, ih ds full (by omega) hd hz, hy]
      · rw [List.filter_cons_of_pos (by simpa using h1), List.map_cons] at hd
        rw [← hd, spread_more h1, ih _ full (by omega) rfl hz]

/-! ## Reshaping (R44) -/

/-- The old axes of an AFFINE map whose last size is `top`. -/
def oldAxes (g : Grant3) (t : Quad Nat) (st : Quad Int) (top : Nat) : List Axis :=
  [(g.g0, t.c0, st.c0), (g.g1, t.c1, st.c1), (g.g2, t.c2, st.c2), (top, t.c3, st.c3)]

/-- The map with all four descriptors of a list. -/
def mapWith (sh : Shape) (o : Quad (BitVec 32)) (e : Quad Nat) (d : List (Nat × Int)) : CMap :=
  let x := fun j => nth ((7 : Nat), (0 : Int)) d j
  CMap.check (.affine sh.grant3 ⟨(x 0).1, (x 1).1, (x 2).1, (x 3).1⟩ ⟨(x 0).2, (x 1).2, (x 2).2, (x 3).2⟩ o e)

section
variable {g : Grant3} {t : Quad Nat} {st : Quad Int} {o : Quad (BitVec 32)} {e : Quad Nat} {sh : Shape}

theorem slots_pos_sizes (h : 0 < sh.slots) : ∀ x ∈ sh.g.toList, 0 < x := by
  have h' : 0 < sh.g.c0 * sh.g.c1 * sh.g.c2 * sh.g.c3 := h
  have h3 := Nat.pos_of_mul_pos_left h'
  have h012 := Nat.pos_of_mul_pos_right h'
  have h2 := Nat.pos_of_mul_pos_left h012
  have h01 := Nat.pos_of_mul_pos_right h012
  intro x hx
  simp only [Quad.toList, List.mem_cons, List.not_mem_nil, or_false] at hx
  rcases hx with rfl | rfl | rfl | rfl
  · exact Nat.pos_of_mul_pos_right h01
  · exact Nat.pos_of_mul_pos_left h01
  · exact h2
  · exact h3

/-- The model's reshape of an AFFINE map, through the matching of R44. -/
theorem reshape_matched (hs : 0 < sh.slots) (hp : g.g0 * g.g1 * g.g2 ≠ 0) (hm : sh.slots % (g.g0 * g.g1 * g.g2) = 0) :
    (∀ ds, Matched ((oldAxes g t st (sh.slots / (g.g0 * g.g1 * g.g2))).filter (·.1 ≠ 1)) (sh.g.toList.filter (· ≠ 1)) ds →
      (CMap.affine g t st o e).reshape sh = mapWith sh o e (spread sh.g.toList ds)) ∧
    ((∀ ds, ¬ Matched ((oldAxes g t st (sh.slots / (g.g0 * g.g1 * g.g2))).filter (·.1 ≠ 1)) (sh.g.toList.filter (· ≠ 1)) ds) →
      (CMap.affine g t st o e).reshape sh = .lost) := by
  have hdiv := Nat.div_add_mod sh.slots (g.g0 * g.g1 * g.g2)
  rw [hm, Nat.add_zero] at hdiv
  have htop : 0 < sh.slots / (g.g0 * g.g1 * g.g2) := by
    rcases Nat.eq_zero_or_pos (sh.slots / (g.g0 * g.g1 * g.g2)) with h0 | h0
    · rw [h0, Nat.mul_zero] at hdiv; omega
    · exact h0
  have hp' := Nat.pos_of_ne_zero hp
  have hpos : ∀ x ∈ oldAxes g t st (sh.slots / (g.g0 * g.g1 * g.g2)), 0 < x.1 := by
    have h01 := Nat.pos_of_mul_pos_right hp'
    simp only [oldAxes, List.forall_mem_cons]
    exact ⟨Nat.pos_of_mul_pos_right h01, Nat.pos_of_mul_pos_left h01, Nat.pos_of_mul_pos_left hp', htop, by simp⟩
  let fresh := fun (x : Axis) => (⟨x.1, x.2.1, x.2.2, false, false⟩ : OldAxis)
  let olds := ((oldAxes g t st (sh.slots / (g.g0 * g.g1 * g.g2))).filter (·.1 ≠ 1)).map fresh
  have hback : olds.map OldAxis.axis = (oldAxes g t st (sh.slots / (g.g0 * g.g1 * g.g2))).filter (·.1 ≠ 1) := by
    rw [List.map_map]
    exact List.map_id _
  have holds : (((upFrom 0 4).map fun j => (⟨nth 1 [g.g0, g.g1, g.g2, sh.slots / (g.g0 * g.g1 * g.g2)] j, t.get j, st.get j, false, false⟩ :
      OldAxis)).filter fun a => a.size ≠ 1) = olds := by
    have : ((upFrom 0 4).map fun j => (⟨nth 1 [g.g0, g.g1, g.g2, sh.slots / (g.g0 * g.g1 * g.g2)] j, t.get j, st.get j, false, false⟩ :
        OldAxis)) = (oldAxes g t st (sh.slots / (g.g0 * g.g1 * g.g2))).map fresh := rfl
    rw [this, List.filter_map]
    rfl
  have hfresh : ∀ x ∈ olds, x.Fresh := by
    refine List.forall_mem_map.mpr fun x hx => ?_
    rw [List.mem_filter] at hx
    have h1 := hpos x hx.1
    have h2 : x.1 ≠ 1 := by simpa using hx.2
    exact ⟨by show 2 ≤ x.1; omega, rfl, rfl⟩
  have hnews : ∀ x ∈ sh.g.toList.filter (· ≠ 1), 2 ≤ x := fun x hx => by
    rw [List.mem_filter] at hx
    have h1 := slots_pos_sizes hs x hx.1
    have h2 : x ≠ 1 := by simpa using hx.2
    omega
  have hlen1 : olds.length ≤ 4 := by
    rw [List.length_map]
    exact List.length_filter_le _ _
  have hlen2 : (sh.g.toList.filter (· ≠ 1)).length ≤ 4 := List.length_filter_le _ _
  have hmatch : ∀ ds, matchAxes 16 olds (sh.g.toList.filter (· ≠ 1)) = some ds ↔
      Matched ((oldAxes g t st (sh.slots / (g.g0 * g.g1 * g.g2))).filter (·.1 ≠ 1)) (sh.g.toList.filter (· ≠ 1)) ds := by
    intro ds
    rw [← hback]
    clear_value olds
    cases olds with
    | nil => exact matchAxes_nil 15 _ ds
    | cons a r =>
      obtain ⟨ha, hr⟩ := List.forall_mem_cons.mp hfresh
      rw [List.length_cons] at hlen1
      rw [matchAxes_follows 16 a r _ ds (by omega) ha.sound hr hnews, follows_fresh ha]
      rfl
  have hre : (CMap.affine g t st o e).reshape sh = match matchAxes 16 olds (sh.g.toList.filter (· ≠ 1)) with
      | none => .lost
      | some l => mapWith sh o e (spread sh.g.toList l) := by
    rw [← holds]
    unfold CMap.reshape
    dsimp only
    rw [if_neg (by rw [hm]; simp [hp])]
    rfl
  rw [hre]
  refine ⟨fun ds hd => by rw [(hmatch ds).mpr hd], fun hno => ?_⟩
  cases hx : matchAxes 16 olds (sh.g.toList.filter (· ≠ 1)) with
  | none => rfl
  | some ds => exact absurd ((hmatch ds).mp hx) (hno ds)

/-- The coordinates of a slot, as what the axes of the map reach. -/
theorem affineAxis_reach {a i : Nat} (top : Nat) (hi : i / (g.g0 * g.g1 * g.g2) < top) :
    affineAxis t st o (slotIndex g i) a = wrap 32 (((o.get a).toNat : Int) + reachOf a (oldAxes g t st top) i) := by
  unfold affineAxis
  refine congrArg (wrap 32) ?_
  simp only [oldAxes, reachOf, slotIndex, Nat.div_div_eq_div_mul]
  rw [Nat.mod_eq_of_lt hi]
  show ((o.get a).toNat : Int) + (if t.c0 = a then st.c0 * ((i % g.g0 : Nat) : Int) else 0) +
      (if t.c1 = a then st.c1 * ((i / g.g0 % g.g1 : Nat) : Int) else 0) + (if t.c2 = a then st.c2 * ((i / (g.g0 * g.g1) % g.g2 : Nat) : Int) else 0) +
      (if t.c3 = a then st.c3 * ((i / (g.g0 * g.g1 * g.g2) : Nat) : Int) else 0) = _
  ring

theorem check_eq (g : Grant3) (t : Quad Nat) (st : Quad Int) (o : Quad (BitVec 32)) (e : Quad Nat) : CMap.check (.affine g t st o e) =
    if extentsOk e && stepOk st.c0 && stepOk st.c1 && stepOk st.c2 && stepOk st.c3 then .affine g t st o e else .lost := rfl

theorem check_affine {g : Grant3} (h : CMap.check (.affine g t st o e) ≠ .lost) : CMap.check (.affine g t st o e) = .affine g t st o e := by
  rw [check_eq] at h ⊢
  split at h
  · rename_i hc; rw [if_pos hc]
  · exact absurd rfl h

theorem readCoord_congr (w : Worker) {g' : Grant3} {t' : Quad Nat} {st' : Quad Int} {i : Nat}
    (h : ∀ a < 4, affineAxis t' st' o (slotIndex g' i) a = affineAxis t st o (slotIndex g i) a) :
    readCoord w (.affine g' t' st' o e) i = readCoord w (.affine g t st o e) i := by
  simp only [readCoord, h 0 (by omega), h 1 (by omega), h 2 (by omega), h 3 (by omega)]

/-- R44: a reshaped map that is not LOST gives every slot the coordinates it had. -/
theorem reshape_readCoord (m : CMap) (sh : Shape) (w : Worker) (i : Nat) (hi : i < sh.slots) (hm : m.reshape sh ≠ .lost) :
    readCoord w (m.reshape sh) i = readCoord w m i := by
  cases m with
  | lost => rfl
  | explicit g c e => rfl
  | affine g t st o e =>
    by_cases hbad : g.g0 * g.g1 * g.g2 = 0 ∨ sh.slots % (g.g0 * g.g1 * g.g2) ≠ 0
    · refine absurd ?_ hm
      unfold CMap.reshape
      dsimp only
      rw [if_pos hbad]
    push Not at hbad
    obtain ⟨hp, hmod⟩ := hbad
    obtain ⟨h1, h2⟩ := reshape_matched (t := t) (st := st) (o := o) (e := e) (by omega) hp hmod
    by_cases hex : ∃ ds, Matched ((oldAxes g t st (sh.slots / (g.g0 * g.g1 * g.g2))).filter (·.1 ≠ 1)) (sh.g.toList.filter (· ≠ 1)) ds
    · obtain ⟨ds, hd⟩ := hex
      rw [h1 ds hd] at hm ⊢
      unfold mapWith at hm ⊢
      rw [check_affine hm]
      refine readCoord_congr w fun a ha => ?_
      have hlen := spread_length sh.g.toList ds
      have hold : i / (g.g0 * g.g1 * g.g2) < sh.slots / (g.g0 * g.g1 * g.g2) := by
        refine (Nat.div_lt_iff_lt_mul (Nat.pos_of_ne_zero hp)).mpr ?_
        rwa [Nat.div_mul_cancel (Nat.dvd_of_mod_eq_zero hmod)]
      have hnew : i / (sh.grant3.g0 * sh.grant3.g1 * sh.grant3.g2) < sh.g.c3 := by
        have hs : i < sh.g.c3 * (sh.g.c0 * sh.g.c1 * sh.g.c2) := by rw [Nat.mul_comm]; exact hi
        have hp2 : 0 < sh.g.c0 * sh.g.c1 * sh.g.c2 := Nat.pos_of_mul_pos_left (Nat.zero_lt_of_lt hs)
        exact (Nat.div_lt_iff_lt_mul hp2).mpr hs
      obtain ⟨hdl, hreach⟩ := matched_reach ha hd
      rw [affineAxis_reach _ hnew, affineAxis_reach _ hold, ← reachOf_ones (oldAxes g t st _), hreach i,
        ← spread_filter sh.g.toList ds hdl, reachOf_ones]
      congr 3
      match spread sh.g.toList ds, hlen with
      | [d0, d1, d2, d3], _ => rfl
    · exact absurd (h2 fun ds hd => hex ⟨ds, hd⟩) hm

end

end Sys2Proof.Machine
end

section
/-! PROOF. The movement instructions of V and the maps they give (O38). -/
namespace Sys2Proof.Machine
open Sys2Proof

theorem activeLine_eq (t : State) (f : E64) (j i : Nat) : activeLine t.view.shape j (t.maskOf f.lo3) i = t.line f j i := by
  unfold activeLine State.line Shape.line
  rw [upFrom_zero]

/-! ## Movements of A alone -/

theorem moveRun_ok {f : E64} {g : CMap → CMap} {from_ : Shape → Nat → Option Nat} {s t : State} {a : Src}
    (h : Turn.Move f (ewWidth f) g s a t) {src : Nat → Nat} (hsrc : ∀ i, from_ t.view.shape i = some (src i)) :
    moveRun f g from_ s = .next (t.vOut f (ewWidth f) 1 (g a.map) fun i => a.slot (ewWidth f) (src i)) := by
  unfold moveRun
  refine move_ok h ?_
  rw [m_bind_ok (moveSlots_ok (v := fun i => a.slot (ewWidth f) (src i)) fun i _ => by rw [hsrc i])]
  exact deliverShape_ok _ _ _ _ _

theorem vmov_ok (f : E64) (s t : State) (a : Src) :
    let w := ewWidth f
    let raw := f.top2 = 1
    let side := ¬raw ∧ f.lo3 = 7
    let map := fun (m : CMap) => if raw then .lost else m
    Turn.Move f w map s a t →
    exec (.vmov f) s = .next (t.afterE .V f 1 [t.deliver f.d8 t.view.shape.slots w
      ⟨t.took f f.d8 w (a.slot w), if side then a.scale else 0, if side then a.tag else none, map a.map⟩]) := by
  intro w raw side map h
  have hmap : (fun m : CMap => if (f.top2 == 1) = true then CMap.lost else m) = map := by
    funext m
    simp only [map, raw, beq_iff_eq]
  have hside : ((!(f.top2 == 1) && f.lo3 == 7) = true) ↔ side := by
    simp only [side, raw, Bool.and_eq_true, Bool.not_eq_true', beq_eq_false_iff_ne, ne_eq, beq_iff_eq]
  rw [exec_vmov, execVmov]
  dsimp only
  rw [hmap]
  refine move_ok h ?_
  rw [m_bind_ok (moveSlots_ok (v := a.slot w) fun i _ => rfl)]
  rw [show (if (f.top2 == 1) = true then CMap.lost else a.map) = map a.map from congrFun hmap a.map]
  simp only [hside]
  exact deliverShape_ok _ _ _ _ _

/-! ## Movements by a number -/

theorem offsetRun_ok {f : E64} {g : Nat → Int → CMap → CMap} {from_ : Int → Int → Option Int} {s u t : State} {a b : Src}
    (h : Turn.Move f (ewWidth f) (fun _ => .lost) s a u) (hb : readSrc f.b8 (some 64) u = .ok (b, t)) {v : Nat → Nat}
    (hv : ∀ i, (match from_ (offsetOf b) (t.view.shape.indexOn f.top2 i) with
      | some k => if 0 ≤ k ∧ k < t.view.shape.size f.top2 then a.slot (ewWidth f) (t.view.shape.moveTo f.top2 i k.toNat) else 0
      | none => 0) = v i) :
    offsetRun f g from_ s = .next (t.vOut f (ewWidth f) 1 (g f.top2 (offsetOf b) a.map) v) := by
  unfold offsetRun
  refine go_run h.go ?_
  rw [m_bind_ok h.checks, m_bind_ok h.reads, m_bind_ok hb, m_bind_ok (moveSlots_ok (v := v) fun i _ => congrArg Except.ok (hv i))]
  exact deliverShape_ok _ _ _ _ _

theorem offsetMoves (f : E64) (s u t : State) (a b : Src) (n : Int) :
    let w := ewWidth f
    let j := f.top2
    let sh := t.view.shape
    let at_ := fun (k : Int) (i : Nat) => if 0 ≤ k ∧ k < sh.size j then a.slot w (sh.moveTo j i k.toNat) else 0
    Turn.Move f w (fun _ => .lost) s a u → readSrc f.b8 (some 64) u = .ok (b, t) → n = offsetOf b →
    exec (.vslice f) s =
      .next (t.vOut f w 1 (a.map.slice j n) fun i => if n < 0 then 0 else at_ (sh.indexOn j i + n) i) ∧
    exec (.vshift f) s = .next (t.vOut f w 1 (a.map.slice j (-n)) fun i => at_ (sh.indexOn j i - n) i) ∧
    exec (.vbcast f) s = .next (t.vOut f w 1 (a.map.bcast j n) fun i => at_ n i) := by
  intro w j sh at_ h hb hn
  subst hn
  refine ⟨?_, ?_, ?_⟩
  · rw [exec_vslice, execVslice]
    refine offsetRun_ok h hb fun i => ?_
    by_cases hneg : offsetOf b < 0
    · simp only [if_pos hneg]
    · simp only [if_neg hneg, at_, sh, j, w]
  · rw [exec_vshift, execVshift]
    exact offsetRun_ok h hb fun i => rfl
  · rw [exec_vbcast, execVbcast]
    exact offsetRun_ok h hb fun i => rfl

/-! ## Movements with a companion -/

theorem notOwn_ok {d c : BitVec 8} (h : isV c = true → c ≠ d) (s : State) : notOwn d c s = .ok ((), s) := by
  unfold notOwn
  rw [if_neg]
  · rfl
  · rw [Bool.and_eq_true, beq_iff_eq]
    exact fun x => h x.1 x.2

theorem vperm_ok (f : E64) (s u t : State) (a ix : Src) (ixl : Nat → Nat) :
    let w := ewWidth f
    let j := f.top2
    let g := s.view.shape.slots
    let on := activeIn (t.maskOf f.lo3)
    let k := fun (i : Nat) => signed 32 (ix.slot 32 i)
    let hit := fun (i : Nat) => on i && decide (0 ≤ k i ∧ k i < s.view.shape.size j)
    let src := fun (i : Nat) => s.view.shape.moveTo j i (k i).toNat
    Turn.Go .V f s → (isV f.c8 = true → f.c8 ≠ f.d8) → s.view.shape.fits w = true → s.view.shape.fits 32 = true →
    readSrc f.a8 (some w) (s.gained .V f) = .ok (a, u) → readSrc f.b8 (some 32) u = .ok (ix, t) →
    (∀ i < g, hit i = true → isV f.c8 = true → ∃ c, readCoord t.wk a.map (src i) = .ok c ∧ ixl i = wrap 32 c.ixl) →
    exec (.vperm f) s = .next (t.afterE .V f 1 (t.pairActs f.d8 f.c8 w
      ((List.range g).map fun i => if on i then (if hit i then a.slot w (src i) else 0) else t.inactive f.d8 f.zm w i)
      ((List.range g).map fun i => if hit i then (if isV f.c8 then ixl i else 0) else 2 ^ 32 - 1) a.map)) := by
  intro w j g on k hit src h ho hf hf32 ha hb hc
  rw [exec_vperm, execVperm]
  refine go_run h ?_
  dsimp only
  rw [m_bind_ok (notOwn_ok ho _), m_bind_ok (m_look State.view _), gained_view, m_bind_ok (legal_ok (by simp only [hf32]; exact (Bool.and_true _).trans hf) _),
    m_bind_ok ha, m_bind_ok hb, m_bind_ok (m_look id t)]
  dsimp only [id]
  rw [m_bind_ok (eachSlot_ok (v := fun i => if hit i then (if isV f.c8 then ixl i else 0) else 2 ^ 32 - 1) t fun i hi _ => ?_)]
  · have hdata : ((upFrom 0 s.view.shape.slots).map fun i => if activeIn (t.maskOf f.lo3) i = true then
        (match if (activeIn (t.maskOf f.lo3) i && decide (0 ≤ signed 32 (ix.slot 32 i) ∧ signed 32 (ix.slot 32 i) < s.view.shape.size f.top2)) = true
          then some (s.view.shape.moveTo f.top2 i (signed 32 (ix.slot 32 i)).toNat) else none with
        | some k => a.slot (ewWidth f) k
        | none => 0) else t.inactive f.d8 f.zm (ewWidth f) i) =
        (List.range g).map fun i => if on i then (if hit i then a.slot w (src i) else 0) else t.inactive f.d8 f.zm w i := by
      rw [upFrom_zero]
      refine List.map_congr_left fun i _ => ?_
      show (if on i = true then (match if hit i = true then some (src i) else none with
        | some k => a.slot w k
        | none => 0) else t.inactive f.d8 f.zm w i) = _
      cases hit i <;> rfl
    have hcomp : ((List.range s.view.shape.slots).map fun i => if activeIn none i = true then
        (if hit i = true then (if isV f.c8 = true then ixl i else 0) else 2 ^ 32 - 1) else 0) =
        (List.range g).map fun i => if hit i then (if isV f.c8 then ixl i else 0) else 2 ^ 32 - 1 := rfl
    refine Eq.trans ?_ (deliverPair_ok t f.d8 f.c8 w _ _ a.map)
    exact congrArg (fun l => deliverPair f.d8 f.c8 w l _ a.map t) hdata
  · show (match if hit i = true then some (src i) else none with
      | some k => if hasComp f.c8 = true then (do
          let c ← slotTrap i (readCoord t.wk a.map k)
          pure (wrap 32 c.ixl)) else pure 0
      | none => pure (2 ^ 32 - 1) : Except Stop Nat) = _
    cases hh : hit i with
    | false => rfl
    | true =>
      rw [if_pos rfl, if_pos rfl]
      by_cases hv : isV f.c8 = true
      · obtain ⟨c, h1, h2⟩ := hc i hi hh hv
        simp only [hasComp, hv, if_true, h1, h2]
        rfl
      · simp only [hasComp, hv]
        rfl

theorem moveTo_lt {sh : Shape} {j i k : Nat} (hj : j < 4) (hi : i < sh.slots) (hk : k < sh.size j) : sh.moveTo j i k < sh.slots := by
  have key : ∀ inner size outer : Nat, i < inner * size * outer → k < size →
      i - i / inner % size * inner + k * inner < inner * size * outer := by
    intro inner size outer h1 h2
    have hin : 0 < inner := Nat.pos_of_mul_pos_right (Nat.pos_of_mul_pos_right (Nat.zero_lt_of_lt h1))
    have hq : i / inner < size * outer := by
      rw [Nat.div_lt_iff_lt_mul hin, Nat.mul_comm, ← Nat.mul_assoc]; exact h1
    have ho : i / inner / size < outer := by
      rw [Nat.div_lt_iff_lt_mul (by omega), Nat.mul_comm]; exact hq
    have e1 : inner * (i / inner) + i % inner = i := Nat.div_add_mod i inner
    have e2 : size * (i / inner / size) + i / inner % size = i / inner := Nat.div_add_mod _ _
    have e3 : i - i / inner % size * inner = inner * (size * (i / inner / size)) + i % inner := by
      have : inner * (i / inner) = inner * (size * (i / inner / size)) + i / inner % size * inner := by
        conv_lhs => rw [← e2, Nat.mul_add, Nat.mul_comm inner (i / inner % size)]
      omega
    rw [e3]
    have hr := Nat.mod_lt i hin
    calc inner * (size * (i / inner / size)) + i % inner + k * inner
        < inner * (size * (i / inner / size)) + inner + k * inner := by omega
      _ = inner * (size * (i / inner / size) + (k + 1)) := by ring
      _ ≤ inner * (size * (i / inner / size) + size) := Nat.mul_le_mul_left _ (by omega)
      _ = inner * size * (i / inner / size + 1) := by ring
      _ ≤ inner * size * outer := Nat.mul_le_mul_left _ ho
  unfold Shape.moveTo Shape.indexOn
  interval_cases j
  · have := key 1 sh.g.c0 (sh.g.c1 * sh.g.c2 * sh.g.c3) (by rw [Nat.one_mul, ← Nat.mul_assoc, ← Nat.mul_assoc]; exact hi) hk
    rwa [Nat.one_mul, ← Nat.mul_assoc, ← Nat.mul_assoc] at this
  · have := key sh.g.c0 sh.g.c1 (sh.g.c2 * sh.g.c3) (by rw [← Nat.mul_assoc]; exact hi) hk
    rwa [← Nat.mul_assoc] at this
  · exact key (sh.g.c0 * sh.g.c1) sh.g.c2 sh.g.c3 hi hk
  · have := key (sh.g.c0 * sh.g.c1 * sh.g.c2) sh.g.c3 1 (by rw [Nat.mul_one]; exact hi) hk
    rwa [Nat.mul_one] at this

theorem top2_lt (f : E64) : f.top2 < 4 := by
  unfold E64.top2
  omega

theorem vcompact_ok (f : E64) (s t : State) (a : Src) (ixl : Nat → Nat) :
    let w := ewWidth f
    let j := f.top2
    let sh := s.view.shape
    let g := sh.slots
    let from_ := fun (i : Nat) => (t.line f j i)[sh.indexOn j i]?
    Turn.Go .V f s → (isV f.b8 = true → f.b8 ≠ f.d8) → sh.fits w = true → (isV f.b8 = true → sh.fits 32 = true) →
    readSrc f.a8 (some w) (s.gained .V f) = .ok (a, t) →
    (∀ i < g, activeIn (t.maskOf f.lo3) i = true → isV f.b8 = true → ∃ c, readCoord t.wk a.map i = .ok c ∧ ixl i = wrap 32 c.ixl) →
    (isV f.b8 = false → ∀ i, ixl i = 0) →
    exec (.vcompact f) s = .next (t.afterE .V f 1 (t.pairActs f.d8 f.b8 w
      ((List.range g).map fun i => (from_ i).elim 0 (a.slot w)) ((List.range g).map fun i => (from_ i).elim (2 ^ 32 - 1) ixl) a.map)) := by
  intro w j sh g from_ h ho hf hf32 ha hc hz
  have hview : t.view = s.view := (readSrc_view ha).trans (gained_view s .V f)
  have hlegal : (sh.fits w && (!hasComp f.b8 || sh.fits 32)) = true := by
    rw [hf, Bool.true_and]
    unfold hasComp
    cases hv : isV f.b8 with
    | false => rfl
    | true => rw [hf32 hv]; rfl
  have hline : ∀ i, activeLine sh j (t.maskOf f.lo3) i = t.line f j i := fun i => by rw [← activeLine_eq, hview]
  rw [exec_vcompact, execVcompact]
  refine go_run h ?_
  dsimp only
  rw [m_bind_ok (notOwn_ok ho _), m_bind_ok (m_look State.view _), gained_view, m_bind_ok (legal_ok hlegal _), m_bind_ok ha,
    m_bind_ok (m_look id t)]
  dsimp only [id]
  rw [m_bind_ok (eachSlot_ok (v := ixl) t fun i hi hact => ?_)]
  · refine Eq.trans ?_ (deliverPair_ok t f.d8 f.b8 w _ _ a.map)
    rw [upFrom_zero]
    refine congrArg₂ (fun l m => deliverPair f.d8 f.b8 w l m a.map t) (List.map_congr_left fun i hi => ?_) (List.map_congr_left fun i hi => ?_)
    · rw [hline i]
      show (match from_ i with
        | some k => a.slot w k
        | none => 0) = _
      cases from_ i <;> rfl
    · rw [hline i]
      show (match from_ i with
        | some k => nth 0 _ k
        | none => 2 ^ 32 - 1) = _
      cases hfr : from_ i with
      | none => rfl
      | some k =>
        have hmem : k ∈ t.line f j i := List.mem_of_getElem? hfr
        unfold State.line at hmem
        rw [List.mem_filter, List.mem_map] at hmem
        obtain ⟨⟨x, hx, rfl⟩, hact⟩ := hmem
        rw [List.mem_range, hview] at hx
        rw [hview] at hact ⊢
        have hlt : sh.moveTo j i x < sh.slots := moveTo_lt (top2_lt f) (List.mem_range.mp hi) hx
        show nth 0 ((List.range sh.slots).map fun i => if activeIn (t.maskOf f.lo3) i then ixl i else 0) (sh.moveTo j i x) = ixl _
        rw [nth_range, if_pos hlt, if_pos hact]
  · cases hv : isV f.b8 with
    | false =>
      simp only [hasComp, hv, hz hv]
      rfl
    | true =>
      obtain ⟨c, h1, h2⟩ := hc i hi hact hv
      simp only [hasComp, hv, if_true, h1, h2]
      rfl

theorem vexpand_ok (f : E64) (s t : State) (x : Lane) :
    let w := ewWidth f
    let j := f.top2
    let map := fun (m : CMap) => if f.ms = 0 then .lost else m
    Turn.Go .V f s → moveChecks f w map (s.gained .V f) = .ok ((), s.gained .V f) → readLane f 1 w (s.gained .V f) = .ok (x, t) →
    exec (.vexpand f) s = .next (t.vOut f w 1 (map x.map) fun i =>
      x.a.slot w (t.view.shape.moveTo j i ((t.line f j i).countP fun k => decide (k < i)))) := by
  intro w j map h hc hx
  rw [exec_vexpand, execVexpand]
  refine go_run h ?_
  dsimp only
  rw [m_bind_ok hc, m_bind_ok hx, m_bind_ok (moveSlots_ok (v := fun i =>
    x.a.slot w (t.view.shape.moveTo j i ((t.line f j i).countP fun k => decide (k < i)))) fun i _ => ?_)]
  · exact deliverShape_ok _ _ _ _ _
  · unfold activeRank
    rw [activeLine_eq, ← List.countP_eq_length_filter]

/-! ## What each map becomes (R43, R44) -/

theorem extentsOk_iff (e : Quad Nat) : extentsOk e = true ↔ (∀ k < 4, 1 ≤ e.get k) ∧ e.c0 * e.c1 * e.c2 * e.c3 ≤ 2 ^ 31 := by
  have h4 : (∀ k < 4, 1 ≤ e.get k) ↔ 1 ≤ e.c0 ∧ 1 ≤ e.c1 ∧ 1 ≤ e.c2 ∧ 1 ≤ e.c3 := by
    refine ⟨fun h => ⟨h 0 (by omega), h 1 (by omega), h 2 (by omega), h 3 (by omega)⟩, fun ⟨h0, h1, h2, h3⟩ k hk => ?_⟩
    interval_cases k <;> assumption
  rw [h4]
  simp only [extentsOk, Bool.and_eq_true, decide_eq_true_eq, and_assoc]

theorem stepsOk_iff (st : Quad Int) : (stepOk st.c0 && stepOk st.c1 && stepOk st.c2 && stepOk st.c3) = true ↔
    ∀ k < 4, -128 ≤ st.get k ∧ st.get k ≤ 127 := by
  have h4 : (∀ k < 4, -128 ≤ st.get k ∧ st.get k ≤ 127) ↔ (-128 ≤ st.c0 ∧ st.c0 ≤ 127) ∧ (-128 ≤ st.c1 ∧ st.c1 ≤ 127) ∧
      (-128 ≤ st.c2 ∧ st.c2 ≤ 127) ∧ (-128 ≤ st.c3 ∧ st.c3 ≤ 127) := by
    refine ⟨fun h => ⟨h 0 (by omega), h 1 (by omega), h 2 (by omega), h 3 (by omega)⟩, fun ⟨h0, h1, h2, h3⟩ k hk => ?_⟩
    interval_cases k <;> assumption
  rw [h4]
  simp only [stepOk, Bool.and_eq_true, decide_eq_true_eq, and_assoc]

/-- R40: a map that is not well formed is LOST. -/
theorem check_iff (g : Grant3) (t : Quad Nat) (st : Quad Int) (o : Quad (BitVec 32)) (e : Quad Nat) (comp : Nat) :
    let m : CMap := .affine g t st o e
    let x : CMap := .explicit g comp e
    let good := (∀ k < 4, 1 ≤ e.get k) ∧ e.c0 * e.c1 * e.c2 * e.c3 ≤ 2 ^ 31
    (good → x.check = x) ∧ (¬good → x.check = .lost ∧ m.check = .lost) ∧
      (good → (∀ k < 4, -128 ≤ st.get k ∧ st.get k ≤ 127) → m.check = m) ∧
      ((¬∀ k < 4, -128 ≤ st.get k ∧ st.get k ≤ 127) → m.check = .lost) := by
  intro m x good
  have hx : x.check = if extentsOk e then x else .lost := rfl
  have hm : m.check = if extentsOk e && (stepOk st.c0 && stepOk st.c1 && stepOk st.c2 && stepOk st.c3) then m else .lost := by
    show (if extentsOk e && stepOk st.c0 && stepOk st.c1 && stepOk st.c2 && stepOk st.c3 then m else CMap.lost) = _
    simp only [Bool.and_assoc]
  rw [hx, hm]
  simp only [Bool.and_eq_true, extentsOk_iff]
  have hst := stepsOk_iff st
  simp only [Bool.and_eq_true] at hst
  simp only [hst]
  refine ⟨fun h => if_pos h, fun h => ⟨if_neg h, if_neg fun y => h y.1⟩, fun h h' => if_pos ⟨h, h'⟩, fun h => if_neg fun y => h y.2⟩

theorem moveOrigin_eq (t : Quad Nat) (st : Quad Int) (o : Quad (BitVec 32)) (j : Nat) (n : Int) :
    moveOrigin t st o j n = if t.get j = 7 then o else o.set (t.get j) (o.get (t.get j) + BitVec.ofInt 32 (st.get j * n)) := by
  unfold moveOrigin
  rw [BitVec.ofInt_add, BitVec.ofInt_natCast, BitVec.ofNat_toNat, BitVec.setWidth_eq]

theorem freshMap_eq (sh : Shape) (feeds : Nat → Bool) (o : Quad (BitVec 32)) (e : Quad Nat) :
    let on := fun (k : Nat) => feeds k = true ∧ 1 < sh.size k
    let d := fun (k : Nat) => if on k then (k, (1 : Int)) else (7, 0)
    freshMap sh feeds o e =
      CMap.check (.affine sh.grant3 ⟨(d 0).1, (d 1).1, (d 2).1, (d 3).1⟩ ⟨(d 0).2, (d 1).2, (d 2).2, (d 3).2⟩ o e) := by
  intro on d
  have h1 : ∀ k, (d k).1 = if (feeds k && decide (1 < sh.size k)) = true then k else 7 := fun k => by
    simp only [d, on, Bool.and_eq_true, decide_eq_true_eq]
    split <;> rfl
  have h2 : ∀ k, (d k).2 = if (feeds k && decide (1 < sh.size k)) = true then 1 else 0 := fun k => by
    simp only [d, on, Bool.and_eq_true, decide_eq_true_eq]
    split <;> rfl
  simp only [h1, h2]
  rfl

/-- R44, with the descriptors written out. -/
theorem reshape_affine (g : Grant3) (t : Quad Nat) (st : Quad Int) (o : Quad (BitVec 32)) (e : Quad Nat) (sh : Shape) :
    let m : CMap := .affine g t st o e
    0 < sh.slots →
      let p := g.g0 * g.g1 * g.g2
      (p = 0 ∨ sh.slots % p ≠ 0 → m.reshape sh = .lost) ∧
      (p ≠ 0 → sh.slots % p = 0 →
        let olds := [(g.g0, t.c0, st.c0), (g.g1, t.c1, st.c1), (g.g2, t.c2, st.c2), (sh.slots / p, t.c3, st.c3)].filter (·.1 ≠ 1)
        let news := [sh.g.c0, sh.g.c1, sh.g.c2, sh.g.c3]
        (∀ (ds : List (Nat × Int)) (d0 d1 d2 d3 : Nat × Int),
          let all := news.zip [d0, d1, d2, d3]
          Matched olds (news.filter (· ≠ 1)) ds → (all.filter (·.1 ≠ 1)).map Prod.snd = ds → (∀ x ∈ all, x.1 = 1 → x.2 = (7, 0)) →
          m.reshape sh = CMap.check (.affine sh.grant3 ⟨d0.1, d1.1, d2.1, d3.1⟩ ⟨d0.2, d1.2, d2.2, d3.2⟩ o e)) ∧
        ((∀ ds, ¬ Matched olds (news.filter (· ≠ 1)) ds) → m.reshape sh = .lost)) := by
  intro m hs p
  refine ⟨fun hbad => ?_, fun hp hm => ?_⟩
  · show CMap.reshape (.affine g t st o e) sh = .lost
    unfold CMap.reshape
    dsimp only
    rw [if_pos hbad]
  · obtain ⟨h1, h2⟩ := reshape_matched (t := t) (st := st) (o := o) (e := e) hs hp hm
    refine ⟨fun ds d0 d1 d2 d3 hd hall hz => (h1 ds hd).trans ?_, h2⟩
    rw [spread_eq sh.g.toList ds [d0, d1, d2, d3] rfl hall hz]
    rfl

/-- Settles O38: each instruction slot by slot; the maps by their definitions; the reshape through the matching of its axes and
what they reach. -/
theorem movements : Obligations.Movements := by
  unfold Obligations.Movements
  refine ⟨vmov_ok, ?_, ?_, vperm_ok, vcompact_ok, vexpand_ok, ?_, reshape_readCoord⟩
  · intro f s u t a b n w j sh at_ h hb hn
    refine offsetMoves f s u t a b n h hb (hn.trans ?_)
    cases b <;> rfl
  · intro f s t a w
    refine ⟨fun h => ?_, fun h => ?_⟩
    · rw [exec_vtrn, execVtrn]
      exact moveRun_ok h fun i => rfl
    · rw [exec_vresh, execVresh]
      exact moveRun_ok (src := fun i => i) h fun i => rfl
  · intro g t st o e comp j n sh _ _ m x moved
    have hmoved : ∀ n, moveOrigin t st o j n = moved n := fun n => moveOrigin_eq t st o j n
    refine ⟨?_, ?_, rfl, rfl, rfl, rfl, rfl, rfl, rfl, rfl, rfl, ?_, check_iff g t st o e comp, fun feeds => freshMap_eq sh feeds o e,
      reshape_affine g t st o e sh⟩
    · rw [← hmoved n]; rfl
    · rw [← hmoved n]; rfl
    · simp only [List.forall_mem_cons]
      exact ⟨rfl, rfl, rfl, rfl, rfl, rfl, by simp⟩

end Sys2Proof.Machine
end

section
/-! PROOF. Extremes of a line and the rounding of a value that a pattern reads as (O39). -/
namespace Sys2Proof.Machine
open Sys2Proof

/-! ## The order of values as a linear order -/

/-- Where a value stands: −∞, the finite values, +∞, and −0 below +0. -/
def XReal.rank (x : XReal) : Int ×ₗ ℚ ×ₗ Nat :=
  toLex (match x with
    | .inf n => if n then -1 else 1
    | _ => 0, toLex (x.val, if x.sign then 0 else 1))

/-- R90, R111: below means at a lower rank. -/
theorem below_iff {x y : XReal} (hx : x ≠ .nan) (hy : y ≠ .nan) : x.Below y ↔ x.rank < y.rank := by
  unfold XReal.Below
  cases x with
  | nan => exact absurd rfl hx
  | inf a =>
    cases y with
    | nan => exact absurd rfl hy
    | inf b => cases a <;> cases b <;> simp [XReal.cmp, XReal.rank, XReal.sign, XReal.val, Prod.Lex.toLex_lt_toLex]
    | fin => cases a <;> simp [XReal.cmp, XReal.rank, Prod.Lex.toLex_lt_toLex]
  | fin na ma ea la =>
    cases y with
    | nan => exact absurd rfl hy
    | inf b => cases b <;> simp [XReal.cmp, XReal.rank, Prod.Lex.toLex_lt_toLex]
    | fin nb mb eb lb =>
      rw [cmp_fin rfl rfl]
      have hr : (XReal.fin na ma ea la).rank < (XReal.fin nb mb eb lb).rank ↔ (XReal.fin na ma ea la).val < (XReal.fin nb mb eb lb).val ∨
          (XReal.fin na ma ea la).val = (XReal.fin nb mb eb lb).val ∧ (if na then 0 else 1) < if nb then 0 else 1 := by
        simp only [XReal.rank, XReal.sign, Prod.Lex.toLex_lt_toLex, lt_irrefl, false_or, true_and]
        exact Iff.rfl
      rw [hr]
      rcases lt_trichotomy (XReal.fin na ma ea la).val (XReal.fin nb mb eb lb).val with h | h | h
      · simp [h]
      · rw [h]
        cases na <;> cases nb <;> simp [XReal.sign]
      · simp [h.not_gt, h.ne']

/-- Beating as a maximum or a minimum. -/
theorem beats_iff {x y : XReal} (hx : x ≠ .nan) (hy : y ≠ .nan) (mx : Bool) :
    beats mx x y = true ↔ if mx then y.Below x else x.Below y := by
  have hs := cmp_swap x y
  unfold beats XReal.Below
  rw [hs]
  have hnone : x.cmp y ≠ none := by
    cases x with
    | nan => exact absurd rfl hx
    | inf a =>
      cases y with
      | nan => exact absurd rfl hy
      | inf => simp [XReal.cmp]
      | fin => simp [XReal.cmp]
    | fin =>
      cases y with
      | nan => exact absurd rfl hy
      | inf => simp [XReal.cmp]
      | fin => simp [XReal.cmp]
  cases hc : x.cmp y with
  | none => exact absurd hc hnone
  | some o => cases o <;> cases mx <;> cases x.sign <;> cases y.sign <;> simp

theorem beats_nan {x y : XReal} (mx : Bool) (h : x = .nan ∨ y = .nan) : beats mx x y = false := by
  unfold beats
  rw [cmp_nan h]

/-! ## The extreme of a list -/

/-- Where the list is ordered by a key, the extreme is an element of the greatest key, and of those one of the lowest index. -/
theorem extreme_spec {α : Type} [LinearOrder α] {fmt : Nat} {ftz mx : Bool} (key : Nat × Int → α) (l : List (Nat × Int)) :
    (∀ a ∈ l, ∀ b ∈ l, (beats mx (readNum fmt ftz a.1) (readNum fmt ftz b.1) = true ↔ key b < key a)) → l ≠ [] →
    ∃ p ∈ l, extreme fmt ftz mx l = some p ∧ ∀ q ∈ l, key q ≤ key p ∧ (key q = key p → p.2 ≤ q.2) := by
  induction l with
  | nil => exact fun _ h => absurd rfl h
  | cons x r ih =>
    intro hk _
    by_cases hr : r = []
    · subst hr
      exact ⟨x, List.mem_cons_self, rfl, by simp⟩
    · obtain ⟨y, hy, hext, hbest⟩ := ih (fun a ha b hb => hk a (List.mem_cons_of_mem _ ha) b (List.mem_cons_of_mem _ hb)) hr
      have hxy := hk x List.mem_cons_self y (List.mem_cons_of_mem _ hy)
      have hyx := hk y (List.mem_cons_of_mem _ hy) x List.mem_cons_self
      have hx_best : key y ≤ key x → (key y = key x → x.2 ≤ y.2) → ∀ q ∈ x :: r, key q ≤ key x ∧ (key q = key x → x.2 ≤ q.2) := by
        intro h1 h2
        refine List.forall_mem_cons.mpr ⟨⟨le_refl _, fun _ => le_refl _⟩, fun q hq => ⟨(hbest q hq).1.trans h1, fun he => ?_⟩⟩
        have hyq : key q = key y := le_antisymm (hbest q hq).1 (by rw [he]; exact h1)
        exact (h2 (hyq.symm.trans he)).trans ((hbest q hq).2 hyq)
      have hy_best : key x ≤ key y → (key x = key y → y.2 ≤ x.2) → ∀ q ∈ x :: r, key q ≤ key y ∧ (key q = key y → y.2 ≤ q.2) :=
        fun h1 h2 => List.forall_mem_cons.mpr ⟨⟨h1, h2⟩, hbest⟩
      rw [extreme, hext]
      dsimp only
      by_cases hb1 : beats mx (readNum fmt ftz x.1) (readNum fmt ftz y.1) = true
      · rw [if_pos hb1]
        have hlt := hxy.mp hb1
        exact ⟨x, List.mem_cons_self, rfl, hx_best hlt.le fun he => absurd he hlt.ne⟩
      · rw [if_neg hb1]
        by_cases hb2 : beats mx (readNum fmt ftz y.1) (readNum fmt ftz x.1) = true
        · rw [if_pos hb2]
          have hlt := hyx.mp hb2
          exact ⟨y, List.mem_cons_of_mem _ hy, rfl, hy_best hlt.le fun he => absurd he hlt.ne⟩
        · rw [if_neg hb2]
          have he : key x = key y := le_antisymm (not_lt.mp fun h => hb1 (hxy.mpr h)) (not_lt.mp fun h => hb2 (hyx.mpr h))
          by_cases hle : x.2 ≤ y.2
          · rw [if_pos hle]
            exact ⟨x, List.mem_cons_self, rfl, hx_best he.ge fun _ => hle⟩
          · rw [if_neg hle]
            exact ⟨y, List.mem_cons_of_mem _ hy, rfl, hy_best he.le fun _ => by omega⟩

theorem contenders_all {fmt : Nat} {ftz : Bool} {l : List (Nat × Int)} (h : ∀ q ∈ l, readNum fmt ftz q.1 = .nan) :
    contenders fmt ftz l = l := by
  unfold contenders
  have : l.filter (fun x => !(readNum fmt ftz x.1).isNan) = [] := by
    refine List.filter_eq_nil_iff.mpr fun q hq => ?_
    rw [h q hq]
    simp [XReal.isNan]
  rw [this]
  rfl

theorem contenders_some {fmt : Nat} {ftz : Bool} {l : List (Nat × Int)} (h : ∃ q ∈ l, readNum fmt ftz q.1 ≠ .nan) :
    contenders fmt ftz l = l.filter fun x => !(readNum fmt ftz x.1).isNan := by
  unfold contenders
  obtain ⟨q, hq, hn⟩ := h
  have : (l.filter fun x => !(readNum fmt ftz x.1).isNan).isEmpty = false := by
    rw [List.isEmpty_eq_false_iff]
    refine List.ne_nil_of_mem (List.mem_filter.mpr ⟨hq, ?_⟩)
    rw [Bool.not_eq_true']
    exact Bool.eq_false_iff.mpr fun x => hn ((isNan_iff _).mp x)
  simp only [this]
  rfl

/-- R140, R141: the extreme of the contenders. -/
theorem best_spec (fmt : Nat) (ftz mx : Bool) (l : List (Nat × Int)) (hl : l ≠ []) :
    ∃ p ∈ l, extreme fmt ftz mx (contenders fmt ftz l) = some p ∧
      ((∀ q ∈ l, readNum fmt ftz q.1 = .nan) → ∀ q ∈ l, p.2 ≤ q.2) ∧
      ((∃ q ∈ l, readNum fmt ftz q.1 ≠ .nan) → readNum fmt ftz p.1 ≠ .nan ∧ ∀ q ∈ l, readNum fmt ftz q.1 ≠ .nan →
        (if mx then ¬ (readNum fmt ftz p.1).Below (readNum fmt ftz q.1) else ¬ (readNum fmt ftz q.1).Below (readNum fmt ftz p.1)) ∧
        ((if mx then ¬ (readNum fmt ftz q.1).Below (readNum fmt ftz p.1) else ¬ (readNum fmt ftz p.1).Below (readNum fmt ftz q.1)) →
          p.2 ≤ q.2)) := by
  by_cases hex : ∃ q ∈ l, readNum fmt ftz q.1 ≠ .nan
  · rw [contenders_some hex]
    have hmem : ∀ q, q ∈ (l.filter fun x => !(readNum fmt ftz x.1).isNan) ↔ q ∈ l ∧ readNum fmt ftz q.1 ≠ .nan := fun q => by
      rw [List.mem_filter, Bool.not_eq_true', Bool.eq_false_iff, Ne, isNan_iff]
    have hne : (l.filter fun x => !(readNum fmt ftz x.1).isNan) ≠ [] := by
      obtain ⟨q, hq, hn⟩ := hex
      exact List.ne_nil_of_mem ((hmem q).mpr ⟨hq, hn⟩)
    have hno : ¬ ∀ q ∈ l, readNum fmt ftz q.1 = .nan := fun h => by
      obtain ⟨q, hq, hn⟩ := hex
      exact hn (h q hq)
    cases mx with
    | true =>
      obtain ⟨p, hp, he, hb⟩ := extreme_spec (fmt := fmt) (ftz := ftz) (mx := true) (fun a => (readNum fmt ftz a.1).rank) _
        (fun a ha b hbm => by
          rw [beats_iff ((hmem a).mp ha).2 ((hmem b).mp hbm).2, if_pos rfl, below_iff ((hmem b).mp hbm).2 ((hmem a).mp ha).2]) hne
      obtain ⟨hpl, hpn⟩ := (hmem p).mp hp
      refine ⟨p, hpl, he, fun h => absurd h hno, fun _ => ⟨hpn, fun q hq hqn => ?_⟩⟩
      obtain ⟨h1, h2⟩ := hb q ((hmem q).mpr ⟨hq, hqn⟩)
      rw [if_pos rfl, if_pos rfl, below_iff hpn hqn, below_iff hqn hpn]
      exact ⟨not_lt.mpr h1, fun h => h2 (le_antisymm h1 (not_lt.mp h))⟩
    | false =>
      obtain ⟨p, hp, he, hb⟩ := extreme_spec (fmt := fmt) (ftz := ftz) (mx := false) (fun a => OrderDual.toDual (readNum fmt ftz a.1).rank) _
        (fun a ha b hbm => by
          rw [beats_iff ((hmem a).mp ha).2 ((hmem b).mp hbm).2, if_neg Bool.false_ne_true, below_iff ((hmem a).mp ha).2 ((hmem b).mp hbm).2]
          exact OrderDual.toDual_lt_toDual.symm) hne
      obtain ⟨hpl, hpn⟩ := (hmem p).mp hp
      refine ⟨p, hpl, he, fun h => absurd h hno, fun _ => ⟨hpn, fun q hq hqn => ?_⟩⟩
      obtain ⟨h1, h2⟩ := hb q ((hmem q).mpr ⟨hq, hqn⟩)
      have h1 : (readNum fmt ftz p.1).rank ≤ (readNum fmt ftz q.1).rank := h1
      rw [if_neg Bool.false_ne_true, if_neg Bool.false_ne_true, below_iff hpn hqn, below_iff hqn hpn]
      exact ⟨not_lt.mpr h1, fun h => h2 (congrArg OrderDual.toDual (le_antisymm (not_lt.mp h) h1))⟩
  · have hall : ∀ q ∈ l, readNum fmt ftz q.1 = .nan := fun q hq => by
      by_contra hn
      exact hex ⟨q, hq, hn⟩
    rw [contenders_all hall]
    obtain ⟨p, hp, he, hb⟩ := extreme_spec (fmt := fmt) (ftz := ftz) (mx := mx) (fun _ => (0 : Nat)) l
      (fun a ha b _ => by rw [beats_nan mx (Or.inl (hall a ha))]; simp) hl
    exact ⟨p, hp, he, fun _ q hq => (hb q hq).2 rfl, fun h => absurd h hex⟩

end Sys2Proof.Machine
end

section
/-! PROOF. Patterns and the values they read as, one to one; minima and maxima of a line (O39). -/
namespace Sys2Proof.Machine
open Sys2Proof

theorem floatRow_max : ∀ r ∈ floatRows, r.fmt ≠ 3 → r.inf = (2 ^ r.expo - 1) * 2 ^ r.mant ∧ r.max + 1 = r.inf := by
  simp only [floatRows, List.forall_mem_cons]
  refine ⟨fun _ => ⟨by decide, by decide⟩, fun _ => ⟨by decide, by decide⟩, fun _ => ⟨by decide, by decide⟩, fun h => absurd rfl h,
    fun _ => ⟨by decide, by decide⟩, by simp⟩

/-- What is cut exactly is not rounded. -/
theorem rounds_exact (rm n m : Nat) (neg : Bool) {e q : Int} (hq : q ≤ e) : Rounds rm neg m e q n (m * 2 ^ (e - q).toNat) := by
  rw [rounds_iff]
  unfold roundMag
  dsimp only
  rw [(cutAt_eq m e q).1, (cutAt_eq m e q).2.1, if_pos hq, if_pos hq]
  have hex : ∀ sh, roundsUp rm neg (m * 2 ^ (e - q).toNat % 2 == 1) false 0 sh n = false := by
    intro sh
    unfold roundsUp
    rw [if_pos (by simp)]
  rw [hex]
  rfl

/-- What FTZ makes of a pattern reads as the pattern does under FTZ. -/
theorem fully_flush_read {r : FloatRow} {f : FloatFmt} (h : r.Fully f) (h2 : r.fmt ≤ 2) (z : Bool) {v : Nat} (hv : v < 2 ^ (r.mant + r.expo + 1)) :
    readNum r.fmt z v = readNum r.fmt false (r.flush z v) ∧ r.flush z v < 2 ^ (r.mant + r.expo + 1) ∧
      (z = true → r.flush z v / 2 ^ r.mant % 2 ^ r.expo = 0 → r.flush z v % 2 ^ r.mant = 0) := by
  have hfl := flush_eq h.toDescribes z hv
  refine ⟨?_, ?_, fun hz => ?_⟩
  · rw [← hfl]
    simp [readNum, h.fmt, h.fp8, h2]
  · unfold FloatRow.flush
    split
    · exact (Nat.div_mul_le_self _ _).trans_lt hv
    · exact hv
  · intro hx
    unfold FloatRow.flush at hx ⊢
    subst hz
    by_cases h0 : v / 2 ^ r.mant % 2 ^ r.expo = 0
    · rw [if_pos ⟨rfl, h0⟩, pow_add, Nat.mul_comm (2 ^ r.mant), ← Nat.mul_assoc, Nat.mul_mod_left]
    · rw [if_neg fun x => h0 x.2] at hx
      exact absurd hx h0

section
variable {r : FloatRow} {f : FloatFmt} (hr : r ∈ floatRows) (h : r.Fully f) (h3 : r.fmt ≠ 3)
include hr h h3

/-- A pattern that is no NaN is a sign and a magnitude. -/
theorem fully_shape {u : Nat} (hu : u < 2 ^ (r.mant + r.expo + 1)) (hn : readNum r.fmt false u ≠ .nan) :
    ∃ neg b, u = r.sign neg + b ∧ b / 2 ^ r.mant = u / 2 ^ r.mant % 2 ^ r.expo ∧ b % 2 ^ r.mant = u % 2 ^ r.mant ∧
      (readNum r.fmt false u = .inf neg ∧ b = r.inf ∨ b ≤ r.max ∧ ∃ k z, readNum r.fmt false u = .fin neg k z false ∧ r.low ≤ z ∧
        k < 2 ^ (r.mant + 1) ∧ k * 2 ^ (z - r.low).toNat = magnitude r.mant b) := by
  obtain ⟨hinf, hmax⟩ := floatRow_max r hr h3
  have hp : 0 < 2 ^ r.mant := by positivity
  have hpow : 2 ^ (r.mant + 1) = 2 * 2 ^ r.mant := pow_succ' ..
  have hlow := Nat.mod_lt u (show 0 < 2 ^ (r.mant + r.expo) by positivity)
  have hbx : u % 2 ^ (r.mant + r.expo) / 2 ^ r.mant = u / 2 ^ r.mant % 2 ^ r.expo := by
    rw [pow_add, Nat.mod_mul_right_div_self]
  have hbm : u % 2 ^ (r.mant + r.expo) % 2 ^ r.mant = u % 2 ^ r.mant := Nat.mod_mod_of_dvd _ (Nat.pow_dvd_pow 2 (Nat.le_add_right _ _))
  have hsign : u = r.sign (u.testBit (r.mant + r.expo)) + u % 2 ^ (r.mant + r.expo) := by
    have h2 : u / 2 ^ (r.mant + r.expo) < 2 := by
      rw [Nat.div_lt_iff_lt_mul (by positivity), Nat.mul_comm, ← pow_succ]; exact hu
    have hd := Nat.div_add_mod u (2 ^ (r.mant + r.expo))
    rw [FloatRow.sign, Nat.testBit_eq_decide_div_mod_eq]
    generalize u / 2 ^ (r.mant + r.expo) = t at h2 hd
    rcases (by omega : t = 0 ∨ t = 1) with rfl | rfl
    · simp at hd ⊢; omega
    · simp at hd ⊢; omega
  have hread := fully_read h u
  have hb := Nat.div_add_mod' (u % 2 ^ (r.mant + r.expo)) (2 ^ r.mant)
  have hxlt := Nat.mod_lt (u / 2 ^ r.mant) (show 0 < 2 ^ r.expo by positivity)
  have hmlt := Nat.mod_lt u hp
  refine ⟨_, _, hsign, hbx, hbm, ?_⟩
  rw [hbx, hbm] at hb
  have hmag := magnitude_split r.mant (u / 2 ^ r.mant % 2 ^ r.expo) (u % 2 ^ r.mant) hmlt
  rw [hb] at hmag
  generalize u % 2 ^ (r.mant + r.expo) = b at hb hmag
  generalize u / 2 ^ r.mant % 2 ^ r.expo = x at *
  generalize u % 2 ^ r.mant = m at *
  generalize u.testBit (r.mant + r.expo) = neg at *
  by_cases hx0 : x = 0
  · rw [if_pos hx0] at hread hmag
    have hsub := h.sub
    refine Or.inr ⟨by rw [← hb, hx0]; omega, m, r.low, hread, le_refl _, by omega, ?_⟩
    rw [hmag, Int.sub_self, Int.toNat_zero, pow_zero, Nat.mul_one]
  · rw [if_neg hx0, if_neg h3] at hread
    by_cases hxm : x = 2 ^ r.expo - 1
    · rw [if_pos hxm] at hread
      by_cases hm0 : m = 0
      · rw [if_pos hm0] at hread
        exact Or.inl ⟨hread, by rw [← hb, hm0, hinf, hxm, Nat.add_zero]⟩
      · rw [if_neg hm0] at hread
        exact absurd hread hn
    · rw [if_neg hxm] at hread
      rw [if_neg hx0] at hmag
      have hble : b ≤ r.max := by
        have : (x + 1) * 2 ^ r.mant ≤ (2 ^ r.expo - 1) * 2 ^ r.mant := Nat.mul_le_mul_right _ (by omega)
        rw [Nat.add_mul x 1] at this
        omega
      refine Or.inr ⟨hble, m + 2 ^ r.mant, _, hread, by omega, by omega, ?_⟩
      rw [hmag]
      congr 2
      omega

/-- A value that a pattern reads as is rounded to that pattern, FTZ taken (R140). -/
theorem fully_roundtrip (h2 : r.fmt ≤ 2) (z : Bool) {v : Nat} (hv : v < 2 ^ (r.mant + r.expo + 1)) (hn : readNum r.fmt z v ≠ .nan) :
    (convTo r.fmt 0 false z 0 (readNum r.fmt z v)).bits = r.flush z v := by
  obtain ⟨hread, hlt, hz⟩ := fully_flush_read h h2 z hv
  rw [hread] at hn ⊢
  obtain ⟨neg, b, hu, hbx, hbm, ⟨hinf, hb⟩ | ⟨hb, k, e, hfin, he, hk, hmag⟩⟩ := fully_shape hr h h3 hlt hn
  · rw [hinf, fully_round_inf h, if_neg h3, hu, hb]
  · rw [hfin]
    rcases Nat.eq_zero_or_pos k with rfl | hkp
    · have hb0 : b = 0 := by
        rw [Nat.zero_mul] at hmag
        have h0 : magnitude r.mant 0 = 0 := by simp [magnitude]
        exact (magnitude_strictMono r.mant).injective (hmag.symm.trans h0.symm)
      rw [fully_round_zero h, hu, hb0, Nat.add_zero]
    · have hlog : k.log2 ≤ r.mant := by
        have := (Nat.log2_lt hkp.ne').mpr hk
        omega
      have hq : max ((k.log2 : Int) + e - r.mant) r.low ≤ e := by omega
      obtain ⟨b', hb', hbits⟩ := fully_round_fin h (sat := false) (ftz := z) hkp (rounds_exact 0 0 k neg hq)
      have hbb : b' = b := by
        refine (magnitude_strictMono r.mant).injective (hb'.trans (Eq.trans ?_ hmag))
        rw [Nat.mul_assoc, ← pow_add]
        congr 2
        omega
      rw [hbits, hbb, if_neg (Nat.not_lt.mpr hb), if_neg, hu]
      rintro ⟨hzt, -, hlt'⟩
      have hx0 : r.flush z v / 2 ^ r.mant % 2 ^ r.expo = 0 := by rw [← hbx]; exact Nat.div_eq_of_lt hlt'
      have hm0 := hz hzt hx0
      rw [← hbm, Nat.mod_eq_of_lt hlt'] at hm0
      rw [hm0] at hmag
      have h0 : magnitude r.mant 0 = 0 := by simp [magnitude]
      rw [h0] at hmag
      exact (Nat.mul_pos hkp (by positivity)).ne' hmag

/-- Two patterns of the same value and sign are one, FTZ taken. -/
theorem fully_same (h2 : r.fmt ≤ 2) (z : Bool) {v u : Nat} (hv : v < 2 ^ (r.mant + r.expo + 1)) (hu : u < 2 ^ (r.mant + r.expo + 1))
    (hn : readNum r.fmt z v ≠ .nan) (hm : readNum r.fmt z u ≠ .nan) (he : (readNum r.fmt z v).rank = (readNum r.fmt z u).rank) :
    r.flush z v = r.flush z u := by
  obtain ⟨hr1, hl1, -⟩ := fully_flush_read h h2 z hv
  obtain ⟨hr2, hl2, -⟩ := fully_flush_read h h2 z hu
  rw [hr1] at hn he
  rw [hr2] at hm he
  have hsign : ∀ {a b : Bool}, (if a then 0 else 1 : Nat) = (if b then 0 else 1) → a = b := by decide
  obtain ⟨n1, b1, hu1, -, -, ⟨hi1, hb1⟩ | ⟨-, k1, e1, hf1, he1, -, hm1⟩⟩ := fully_shape hr h h3 hl1 hn <;>
    obtain ⟨n2, b2, hu2, -, -, ⟨hi2, hb2⟩ | ⟨-, k2, e2, hf2, he2, -, hm2⟩⟩ := fully_shape hr h h3 hl2 hm
  · rw [hi1, hi2] at he
    have : n1 = n2 := by cases n1 <;> cases n2 <;> simp_all [XReal.rank]
    rw [hu1, hu2, hb1, hb2, this]
  · rw [hi1, hf2] at he
    cases n1 <;> simp [XReal.rank] at he
  · rw [hf1, hi2] at he
    cases n2 <;> simp [XReal.rank] at he
  · rw [hf1, hf2] at he
    simp only [XReal.rank, XReal.sign, EmbeddingLike.apply_eq_iff_eq, Prod.mk.injEq, true_and] at he
    obtain ⟨hval, hs⟩ := he
    have hnn := hsign hs
    have hmagval : ∀ {neg : Bool} {k b : Nat} {e : Int}, r.low ≤ e → k * 2 ^ (e - r.low).toNat = magnitude r.mant b →
        (XReal.fin neg k e false).val = (if neg then -1 else 1) * (magnitude r.mant b : ℚ) * 2 ^ r.low := by
      intro neg k b e hle hmag
      rw [val_fin, ← hmag]
      push_cast
      rw [mul_assoc, mul_assoc, mul_assoc, ← zpow_natCast, Int.toNat_of_nonneg (by omega), ← zpow_add₀ (by norm_num), Int.sub_add_cancel]
    rw [hmagval (neg := n1) he1 hm1, hmagval (neg := n2) he2 hm2, hnn] at hval
    have hc := mul_right_cancel₀ (two_zpow_pos r.low).ne' hval
    have hc : ((magnitude r.mant b1 : Nat) : ℚ) = magnitude r.mant b2 := by
      cases n2
      · simpa using hc
      · simpa using hc
    have hb : b1 = b2 := (magnitude_strictMono r.mant).injective (Nat.cast_injective hc)
    rw [hu1, hu2, hnn, hb]

end

end Sys2Proof.Machine
end

section
/-! PROOF. Sums and extremes of a line, as the exact values say (O39). -/
namespace Sys2Proof.Machine
open Sys2Proof

theorem read_exact (f : FloatFmt) (v : Nat) (h : (f.read v).isFin = true) : (f.read v).exact := by
  unfold FloatFmt.read at h ⊢
  dsimp only at h ⊢
  by_cases h1 : (f.noInf && bits v f.mant f.expo == 2 ^ f.expo - 1 && bits v 0 f.mant == 2 ^ f.mant - 1) = true
  · rw [if_pos h1] at h
    cases h
  · rw [if_neg h1] at h ⊢
    by_cases h2 : (!f.noInf && bits v f.mant f.expo == 2 ^ f.expo - 1) = true
    · rw [if_pos h2] at h
      by_cases h3 : bits v 0 f.mant = 0
      · rw [if_pos h3] at h; cases h
      · rw [if_neg h3] at h; cases h
    · rw [if_neg h2]
      by_cases h3 : bits v f.mant f.expo = 0
      · rw [if_pos h3]; exact ⟨_, _, _, rfl⟩
      · rw [if_neg h3]; exact ⟨_, _, _, rfl⟩

/-- A finite value that a pattern reads as is exact. -/
theorem readNum_exact {fmt : Nat} {z : Bool} {v : Nat} (h : (readNum fmt z v).isFin = true) : (readNum fmt z v).exact := by
  unfold readNum at h ⊢
  cases hf : floatFmt fmt with
  | some f =>
    rw [hf] at h
    exact read_exact f _ h
  | none =>
    rw [hf] at h
    cases hi : intFmt fmt with
    | some c => exact ⟨_, _, _, rfl⟩
    | none => rw [hi] at h; cases h

/-! ## Sums -/

/-- What adding up the values of a list gives: NaN, an infinity or the exact sum. -/
def SumsTo (l : List XReal) (y : XReal) : Prop :=
  y = .nan ∧ (.nan ∈ l ∨ .inf false ∈ l ∧ .inf true ∈ l) ∨
  (∃ n, y = .inf n ∧ .nan ∉ l ∧ .inf n ∈ l ∧ .inf (!n) ∉ l) ∨
  (∀ x ∈ l, x.isFin = true) ∧ y.exact ∧ y.val = (l.map XReal.val).sum

theorem SumsTo.one {x : XReal} (h : x.isFin = true → x.exact) : SumsTo [x] x := by
  cases x with
  | nan => exact Or.inl ⟨rfl, Or.inl List.mem_cons_self⟩
  | inf n => exact Or.inr (Or.inl ⟨n, rfl, by simp, List.mem_cons_self, by cases n <;> simp⟩)
  | fin => exact Or.inr (Or.inr ⟨by simp [XReal.isFin], h rfl, by simp⟩)

theorem SumsTo.add {l : List XReal} {y a : XReal} (rdn : Bool) (hy : SumsTo l y) (ha : a.isFin = true → a.exact) :
    SumsTo (l ++ [a]) (XReal.add rdn y a) := by
  rcases hy with ⟨rfl, h⟩ | ⟨n, rfl, hn, hi, ho⟩ | ⟨hf, he, hv⟩
  · refine Or.inl ⟨by cases a <;> rfl, ?_⟩
    rcases h with h | ⟨h1, h2⟩
    · exact Or.inl (List.mem_append_left _ h)
    · exact Or.inr ⟨List.mem_append_left _ h1, List.mem_append_left _ h2⟩
  · cases a with
    | nan => exact Or.inl ⟨rfl, Or.inl (by simp)⟩
    | inf b =>
      by_cases hb : n = b
      · subst hb
        exact Or.inr (Or.inl ⟨n, by simp [XReal.add], by simp [hn], by simp, by cases n <;> simpa using ho⟩)
      · refine Or.inl ⟨by simp [XReal.add, hb], Or.inr ?_⟩
        cases n <;> cases b <;> simp_all
    | fin => exact Or.inr (Or.inl ⟨n, rfl, by simp [hn], by simp [hi], by simp [ho]⟩)
  · obtain ⟨ny, my, ey, rfl⟩ := id he
    have hnan : XReal.nan ∉ l := fun h => Bool.false_ne_true (hf _ h)
    have hinf : ∀ n, XReal.inf n ∉ l := fun n h => Bool.false_ne_true (hf _ h)
    cases a with
    | nan => exact Or.inl ⟨rfl, Or.inl (by simp)⟩
    | inf b => exact Or.inr (Or.inl ⟨b, rfl, by simp [hnan], by simp, by cases b <;> simp [hinf]⟩)
    | fin na ma ea la =>
      obtain ⟨h1, h2⟩ := exact_add he (ha rfl) rdn
      refine Or.inr (Or.inr ⟨?_, h1, by rw [h2, hv]; simp⟩)
      intro x hx
      rcases List.mem_append.mp hx with h | h
      · exact hf x h
      · rw [List.mem_singleton.mp h]; rfl

theorem SumsTo.foldl (rdn : Bool) (r : List XReal) : ∀ (l : List XReal) (y : XReal), SumsTo l y → (∀ a ∈ r, a.isFin = true → a.exact) →
    SumsTo (l ++ r) (r.foldl (XReal.add rdn) y) := by
  induction r with
  | nil => intro l y h _; simpa using h
  | cons a r ih =>
    intro l y h hr
    have := ih (l ++ [a]) _ (h.add rdn (hr a List.mem_cons_self)) fun b hb => hr b (List.mem_cons_of_mem _ hb)
    rwa [List.append_assoc, List.singleton_append] at this

/-- R84: the sum of a line before it is rounded. -/
theorem sumReals_spec (rdn : Bool) {l : List XReal} (hl : ∀ a ∈ l, a.isFin = true → a.exact) :
    (.nan ∈ l ∨ .inf false ∈ l ∧ .inf true ∈ l → sumReals rdn l = .nan) ∧
    (∀ n, .nan ∉ l → .inf n ∈ l → .inf (!n) ∉ l → sumReals rdn l = .inf n) ∧
    (l ≠ [] → (∀ x ∈ l, x.isFin = true) →
      ((l.map XReal.val).sum ≠ 0 → (sumReals rdn l).exact ∧ (sumReals rdn l).val = (l.map XReal.val).sum) ∧
      ((l.map XReal.val).sum = 0 → ∃ e, sumReals rdn l = .fin (rdn || l.all XReal.sign) 0 e false)) := by
  cases l with
  | nil => simp
  | cons x r =>
    have hsum : SumsTo (x :: r) (r.foldl (XReal.add rdn) x) := SumsTo.foldl rdn r [x] x (SumsTo.one (hl x List.mem_cons_self))
      fun a ha => hl a (List.mem_cons_of_mem _ ha)
    unfold sumReals
    dsimp only
    generalize r.foldl (XReal.add rdn) x = y at hsum
    generalize x :: r = l at hsum
    rcases hsum with ⟨rfl, h⟩ | ⟨n, rfl, hn, hi, ho⟩ | ⟨hf, ⟨ny, my, ey, rfl⟩, hv⟩
    · refine ⟨fun _ => rfl, fun n hn hi ho => ?_, fun _ hf => ?_⟩
      · rcases h with h | ⟨h1, h2⟩
        · exact absurd h hn
        · cases n
          · exact absurd h2 ho
          · exact absurd h1 ho
      · rcases h with h | ⟨h, -⟩
        · cases hf _ h
        · cases hf _ h
    · refine ⟨fun h => ?_, fun k _ hk _ => ?_, fun _ hf => by cases hf _ hi⟩
      · rcases h with h | ⟨h1, h2⟩
        · exact absurd h hn
        · cases n
          · exact absurd h2 ho
          · exact absurd h1 ho
      · have : k = n := by
          by_contra hne
          have : k = !n := by cases k <;> cases n <;> simp_all
          exact ho (this ▸ hk)
        rw [this]
    · refine ⟨fun h => ?_, fun k _ hk _ => (by cases hf _ hk), fun _ _ => ⟨fun h0 => ?_, fun h0 => ?_⟩⟩
      · rcases h with h | ⟨h, -⟩
        · cases hf _ h
        · cases hf _ h
      · rw [← hv] at h0 ⊢
        rw [Ne, val_eq_zero] at h0
        simp only [h0, if_false]
        exact ⟨⟨_, _, _, rfl⟩, trivial⟩
      · rw [← hv, val_eq_zero] at h0
        simp only [h0, if_true]
        exact ⟨_, rfl⟩

theorem row_of_small {fmt : Nat} (h : fmt ≤ 2) : ∃ r ∈ floatRows, r.fmt = fmt := by
  have : ∀ k < 3, ∃ r ∈ floatRows, r.fmt = k := by decide
  exact this fmt (by omega)

theorem intFmt_small {fmt : Nat} (h : fmt ≤ 2) : intFmt fmt = none := by
  have : ∀ k < 3, intFmt k = none := by decide
  exact this fmt (by omega)

/-- R140: a float sum is the exact one, rounded once. -/
theorem sumSlots_float {fmt rm k : Nat} {ftz : Bool} {l : List Nat} (h : fmt ≤ 2) :
    let xs := l.map (readNum fmt ftz)
    let out := fun (x : XReal) => (convTo fmt rm false ftz k x).bits
    let r := sumSlots fmt rm ftz k l
    (l = [] → r = 0) ∧
    (.nan ∈ xs ∨ .inf false ∈ xs ∧ .inf true ∈ xs → r = out .nan) ∧
    (∀ n, .nan ∉ xs → .inf n ∈ xs → .inf (!n) ∉ xs → r = out (.inf n)) ∧
    (l ≠ [] → (∀ x ∈ xs, x.isFin = true) →
      let v := (xs.map XReal.val).sum
      (v ≠ 0 → ∃ y, y.exact ∧ y.val = v ∧ r = out y) ∧
      (v = 0 → r = out (.fin (rm == 3 || xs.all XReal.sign) 0 0 false))) := by
  obtain ⟨r, hr, rfl⟩ := row_of_small h
  obtain ⟨f, hf⟩ := floatRow_fully r hr
  have hread : ∀ a ∈ l.map (readNum r.fmt ftz), a.isFin = true → a.exact := by
    intro a ha
    obtain ⟨v, -, rfl⟩ := List.mem_map.mp ha
    exact readNum_exact
  have hs : sumSlots r.fmt rm ftz k l = (convTo r.fmt rm false ftz k (sumReals (rm == 3) (l.map (readNum r.fmt ftz)))).bits := by
    unfold sumSlots
    rw [intFmt_small h]
  intro xs out res
  obtain ⟨h1, h2, h3⟩ := sumReals_spec (rm == 3) hread
  refine ⟨fun hl => ?_, fun hn => ?_, fun n hn hi ho => ?_, fun hl hfin => ⟨fun hv => ?_, fun hv => ?_⟩⟩
  · rw [show res = _ from hs, hl]
    exact (fully_round_zero hf rm k false ftz false 0).trans rfl
  · rw [show res = _ from hs, h1 hn]
  · rw [show res = _ from hs, h2 n hn hi ho]
  · obtain ⟨he, hval⟩ := (h3 (by simpa using hl) hfin).1 hv
    exact ⟨_, he, hval, hs⟩
  · obtain ⟨e, he⟩ := (h3 (by simpa using hl) hfin).2 hv
    rw [show res = _ from hs, he]
    exact (fully_round_zero hf rm k false ftz _ e).trans (fully_round_zero hf rm k false ftz _ 0).symm

/-! ## Integer lines -/

theorem readNum_int {c : Nat × Bool × Nat} (hc : c ∈ intRows) (z : Bool) (v : Nat) : readNum c.1 z v =
    .fin (decide (readInt c.2.1 c.2.2 v < 0)) (readInt c.2.1 c.2.2 v).natAbs 0 false := by
  obtain ⟨h1, h2⟩ := intRow_fmt c hc
  simp only [readNum, h1, h2]

/-- Integers are ordered as the values they read as. -/
theorem below_int (a b : Int) : (XReal.fin (decide (a < 0)) a.natAbs 0 false).Below (.fin (decide (b < 0)) b.natAbs 0 false) ↔ a < b := by
  rw [below_iff (by simp) (by simp)]
  simp only [XReal.rank, XReal.sign, Prod.Lex.toLex_lt_toLex, lt_irrefl, false_or, true_and, val_signed, zpow_zero, mul_one]
  rw [Int.cast_lt, Int.cast_inj]
  constructor
  · rintro (h | ⟨rfl, h⟩)
    · exact h
    · exact absurd h (lt_irrefl _)
  · exact Or.inl

theorem emptyExtreme_int : ∀ c ∈ intRows, ∀ mx : Bool, (emptyExtreme c.1 mx : Int) =
    if c.2.1 then (if mx then 2 ^ (c.2.2 - 1) else 2 ^ (c.2.2 - 1) - 1) else if mx then 0 else 2 ^ c.2.2 - 1 := by
  decide

/-- R140: sums and extremes of integer lines. -/
theorem line_int {c : Nat × Bool × Nat} (hc : c ∈ intRows) (rm k : Nat) (ftz mx : Bool) (l : List Nat) :
    let w := c.2.2
    let num := fun (v : Nat) => if c.2.1 then signed w v else ((v % 2 ^ w : Nat) : Int)
    let e := extremeSlots c.1 ftz mx l
    sumSlots c.1 rm ftz k l = ((l.map num).sum % 2 ^ w).toNat ∧
    (l = [] → (e : Int) = (if c.2.1 then (if mx then 2 ^ (w - 1) else 2 ^ (w - 1) - 1) else if mx then 0 else 2 ^ w - 1)) ∧
    (l ≠ [] → ∃ v ∈ l, e = v % 2 ^ w ∧ ∀ u ∈ l, if mx then num u ≤ num v else num v ≤ num u) := by
  obtain ⟨-, hi⟩ := intRow_fmt c hc
  intro w num e
  refine ⟨?_, fun hl => ?_, fun hl => ?_⟩
  · unfold sumSlots
    rw [hi]
    exact wrap_eq _ _
  · rw [show e = emptyExtreme c.1 mx by rw [show e = extremeSlots c.1 ftz mx l from rfl, hl]; rfl]
    exact emptyExtreme_int c hc mx
  · obtain ⟨p, hp, he, -, hb⟩ := best_spec c.1 ftz mx (l.map fun x => (x, (0 : Int))) (by simpa using hl)
    obtain ⟨v, hv, rfl⟩ := List.mem_map.mp hp
    have hn : ∀ u, readNum c.1 ftz u ≠ .nan := fun u => by rw [readNum_int hc]; simp
    refine ⟨v, hv, ?_, fun u hu => ?_⟩
    · show extremeSlots c.1 ftz mx l = _
      unfold extremeSlots
      rw [he, hi]
    · obtain ⟨-, hall⟩ := hb ⟨_, hp, hn v⟩
      have := (hall (u, 0) (List.mem_map_of_mem hu) (hn u)).1
      dsimp only at this
      rw [readNum_int hc, readNum_int hc, below_int, below_int] at this
      cases mx
      · exact not_lt.mp this
      · exact not_lt.mp this

/-! ## Float lines -/

theorem extremeSlots_float {r : FloatRow} (hr : r ∈ floatRows) (h2 : r.fmt ≤ 2) (ftz mx : Bool) (l : List Nat)
    (hl : ∀ v ∈ l, v < 2 ^ (r.mant + r.expo + 1)) :
    let rd := readNum r.fmt ftz
    let e := extremeSlots r.fmt ftz mx l
    (l = [] → e = r.inf + if mx then 2 ^ (r.mant + r.expo) else 0) ∧
    (l ≠ [] → (∀ v ∈ l, rd v = .nan) → e = r.nan) ∧
    ((∃ v ∈ l, rd v ≠ .nan) → ∃ v ∈ l, rd v ≠ .nan ∧ e = r.flush ftz v ∧
      ∀ u ∈ l, rd u ≠ .nan → if mx then ¬ (rd v).Below (rd u) else ¬ (rd u).Below (rd v)) := by
  obtain ⟨f, hf⟩ := floatRow_fully r hr
  have h3 : r.fmt ≠ 3 := by omega
  intro rd e
  have hbest : l ≠ [] → ∃ v ∈ l, e = (convTo r.fmt 0 false ftz 0 (rd v)).bits ∧
      ((∃ v ∈ l, rd v ≠ .nan) → rd v ≠ .nan ∧ ∀ u ∈ l, rd u ≠ .nan →
        if mx then ¬ (rd v).Below (rd u) else ¬ (rd u).Below (rd v)) := by
    intro hne
    obtain ⟨p, hp, he, -, hb⟩ := best_spec r.fmt ftz mx (l.map fun x => (x, (0 : Int))) (by simpa using hne)
    obtain ⟨v, hv, rfl⟩ := List.mem_map.mp hp
    refine ⟨v, hv, ?_, fun ⟨u, hu, hn⟩ => ?_⟩
    · show extremeSlots r.fmt ftz mx l = _
      unfold extremeSlots
      rw [he, intFmt_small h2]
    · obtain ⟨h1, h2⟩ := hb ⟨(u, 0), List.mem_map_of_mem hu, hn⟩
      exact ⟨h1, fun q hq hqn => (h2 (q, 0) (List.mem_map_of_mem hq) hqn).1⟩
  refine ⟨fun h0 => ?_, fun hne hall => ?_, fun hex => ?_⟩
  · show extremeSlots r.fmt ftz mx l = _
    rw [h0]
    show emptyExtreme r.fmt mx = _
    unfold emptyExtreme
    rw [intFmt_small h2]
    refine (fully_round_inf hf 0 0 false false mx).trans ?_
    rw [if_neg h3, FloatRow.sign, Nat.add_comm]
  · obtain ⟨v, hv, he, -⟩ := hbest hne
    rw [he, hall v hv]
    exact fully_round_nan hf 0 0 false ftz
  · obtain ⟨u, hu, hun⟩ := hex
    obtain ⟨v, hv, he, hb⟩ := hbest (List.ne_nil_of_mem hu)
    obtain ⟨hn, hall⟩ := hb ⟨u, hu, hun⟩
    exact ⟨v, hv, hn, he.trans (fully_roundtrip hr hf h3 h2 ftz (hl v hv) hn), hall⟩

/-- R141: the element that `vrargmax` takes. -/
theorem best_max (fmt : Nat) (ftz : Bool) (l : List (Nat × Int)) :
    let rd := fun (p : Nat × Int) => readNum fmt ftz p.1
    let best := extreme fmt ftz true (contenders fmt ftz l)
    (l = [] → best = none) ∧
    (l ≠ [] → ∃ p ∈ l, best = some p ∧
      ((∀ q ∈ l, rd q = .nan) → ∀ q ∈ l, p.2 ≤ q.2) ∧
      ((∃ q ∈ l, rd q ≠ .nan) → rd p ≠ .nan ∧
        ∀ q ∈ l, rd q ≠ .nan → ¬ (rd p).Below (rd q) ∧ (¬ (rd q).Below (rd p) → p.2 ≤ q.2))) := by
  intro rd best
  refine ⟨fun h => ?_, fun h => ?_⟩
  · show extreme fmt ftz true (contenders fmt ftz l) = none
    rw [h]
    rfl
  · exact best_spec fmt ftz true l h

end Sys2Proof.Machine
end

section
/-! PROOF. Merging two triples of the attention unit (O39). -/
namespace Sys2Proof.Machine
open Sys2Proof

/-- The row of f32 in R66's table. -/
def f32Row : FloatRow := ⟨0, 23, 8, -149, 2 ^ 24 - 1, 104, 0x7F7FFFFF, 0x7F800000, 0x7FC00000⟩

theorem f32Row_mem : f32Row ∈ floatRows := List.mem_cons_self

theorem add_comm_even (x y : XReal) : XReal.add false x y = XReal.add false y x := by
  cases x with
  | nan => cases y <;> rfl
  | inf a =>
    cases y with
    | nan => rfl
    | inf b => cases a <;> cases b <;> rfl
    | fin => rfl
  | fin na ma ea la =>
    cases y with
    | nan => rfl
    | inf b => rfl
    | fin nb mb eb lb =>
      simp only [XReal.add, min_comm eb ea, Int.add_comm (atExp nb mb eb _)]
      cases na <;> cases nb <;> rfl

/-- The maximum of two numbers is the one of the higher rank. -/
theorem maxBits_ranks (z : Bool) {a b : Nat} (ha : a < 2 ^ 32) (hb : b < 2 ^ 32) (hna : readNum 0 z a ≠ .nan) (hnb : readNum 0 z b ≠ .nan) :
    minMaxBits 0 z true a b = if (readNum 0 z a).rank < (readNum 0 z b).rank then f32Row.flush z b else f32Row.flush z a := by
  obtain ⟨f, hf⟩ := floatRow_fully f32Row f32Row_mem
  refine (minMaxBits_eq (r := f32Row) hf.toDescribes (by decide) z true ha hb).trans ?_
  have hna' : readNum f32Row.fmt z a ≠ .nan := hna
  have hnb' : readNum f32Row.fmt z b ≠ .nan := hnb
  rw [if_neg hna', if_neg hnb']
  show (if keepsFirst true (readNum 0 z a) (readNum 0 z b) = true then _ else _) = _
  rcases lt_trichotomy (readNum 0 z a).rank (readNum 0 z b).rank with h | h | h
  · rw [keepsFirst_below true ((below_iff hna hnb).mpr h), if_pos h]
    rfl
  · have hsame : f32Row.flush z a = f32Row.flush z b := fully_same f32Row_mem hf (by decide) (by decide) z ha hb hna hnb h
    rw [if_neg h.not_lt, hsame, ite_self]
  · rw [keepsFirst_above true ((below_iff hnb hna).mpr h), if_neg h.not_gt]
    rfl

theorem maxBits_comm (z : Bool) {a b : Nat} (ha : a < 2 ^ 32) (hb : b < 2 ^ 32) (hna : readNum 0 z a ≠ .nan) (hnb : readNum 0 z b ≠ .nan) :
    minMaxBits 0 z true a b = minMaxBits 0 z true b a := by
  obtain ⟨f, hf⟩ := floatRow_fully f32Row f32Row_mem
  rw [maxBits_ranks z ha hb hna hnb, maxBits_ranks z hb ha hnb hna]
  rcases lt_trichotomy (readNum 0 z a).rank (readNum 0 z b).rank with h | h | h
  · rw [if_pos h, if_neg h.not_gt]
  · rw [if_neg h.not_lt, if_neg h.not_gt]
    exact fully_same f32Row_mem hf (by decide) (by decide) z ha hb hna hnb h
  · rw [if_neg h.not_gt, if_pos h]

theorem read_negInf (z : Bool) : readNum 0 z negInf = .inf true := by
  cases z <;> decide

theorem flush_read (z : Bool) {a : Nat} (ha : a < 2 ^ 32) : readNum 0 false (f32Row.flush z a) = readNum 0 z a := by
  obtain ⟨f, hf⟩ := floatRow_fully f32Row f32Row_mem
  exact (fully_flush_read (r := f32Row) hf (by decide) z ha).1.symm

/-- A value of −∞ is of the lowest rank. -/
theorem rank_negInf {x : XReal} (h : x ≠ .nan) (hx : x ≠ .inf true) : (XReal.inf true).rank < x.rank := by
  rw [← below_iff (by simp) h]
  refine Or.inl ?_
  rw [cmp_inf_left true h, if_neg hx, if_pos rfl]

/-- The maximum of two numbers is −∞ only where both are. -/
theorem maxBits_negInf (z : Bool) {a b : Nat} (ha : a < 2 ^ 32) (hb : b < 2 ^ 32) (hna : readNum 0 z a ≠ .nan) (hnb : readNum 0 z b ≠ .nan) :
    minMaxBits 0 z true a b = negInf ↔ readNum 0 z a = .inf true ∧ readNum 0 z b = .inf true := by
  obtain ⟨f, hf⟩ := floatRow_fully f32Row f32Row_mem
  have hflush : ∀ {v : Nat}, v < 2 ^ 32 → readNum 0 z v ≠ .nan → (f32Row.flush z v = negInf ↔ readNum 0 z v = .inf true) := by
    intro v hv hn
    refine ⟨fun h => ?_, fun h => ?_⟩
    · rw [← flush_read z hv, h, read_negInf]
    · have hs : f32Row.flush z v = f32Row.flush z negInf := fully_same f32Row_mem hf (by decide) (by decide) z hv (by decide) hn
        (by rw [show readNum f32Row.fmt z negInf = _ from read_negInf z]; simp)
        (by rw [show readNum f32Row.fmt z negInf = _ from read_negInf z]; exact congrArg XReal.rank h)
      rw [hs]
      cases z <;> decide
  rw [maxBits_ranks z ha hb hna hnb]
  by_cases hlt : (readNum 0 z a).rank < (readNum 0 z b).rank
  · rw [if_pos hlt, hflush hb hnb]
    refine ⟨fun h => ?_, And.right⟩
    rw [h] at hlt
    by_contra hne
    have : readNum 0 z a ≠ .inf true := fun x => hne ⟨x, h⟩
    exact absurd (rank_negInf hna this) hlt.not_gt
  · rw [if_neg hlt, hflush ha hna]
    refine ⟨fun h => ⟨h, ?_⟩, And.left⟩
    rw [h] at hlt
    by_contra hne
    exact hlt (rank_negInf hnb hne)

/-- The coefficient of a part, and two parts joined (R245). -/
def joinF32 (z : Bool) (m ml mr : Nat) (x y : Nat) : Nat :=
  let c := fun v => readNum 0 z (roundF32 z (Trans.exp (XReal.add false (readNum 0 z v) (readNum 0 z m).neg)))
  roundF32 z (XReal.add false ((readNum 0 z x).mul (c ml)) ((readNum 0 z y).mul (c mr)))

theorem joinF32_comm (z : Bool) (m ml mr x y : Nat) : joinF32 z m ml mr x y = joinF32 z m mr ml y x := by
  unfold joinF32
  dsimp only
  rw [add_comm_even]

theorem nth_getElem {α : Type} (d : α) {l : List α} {i : Nat} (h : i < l.length) : nth d l i = l[i] := by
  simp [nth, h]

theorem upFrom_map_nth {α β : Type} (d e : α) (g : α → α → β) : ∀ (l r : List α), l.length = r.length →
    (upFrom 0 l.length).map (fun k => g (nth d l k) (nth e r k)) = List.zipWith g l r := by
  intro l r h
  rw [upFrom_zero]
  refine List.ext_getElem (by simp [h]) fun i h1 h2 => ?_
  simp only [List.length_map, List.length_range] at h1
  simp only [List.getElem_map, List.getElem_range, List.getElem_zipWith]
  rw [nth_getElem d h1, nth_getElem e (h ▸ h1)]

theorem round_nan_f32 (z : Bool) : roundF32 z .nan = 0x7FC00000 := by
  cases z <;> rfl

/-- What spoils a merge: a NaN, or a maximum of +∞ (R245). -/
def Triple.Spoilt (z : Bool) (l r : Triple) : Prop :=
  (∃ x ∈ [l.m, r.m], readNum 0 z x = .nan ∨ readNum 0 z x = .inf false) ∨ readNum 0 z l.s = .nan ∨ readNum 0 z r.s = .nan

theorem Triple.Spoilt.swap {z : Bool} {l r : Triple} (h : l.Spoilt z r) : r.Spoilt z l := by
  rcases h with ⟨x, hx, hb⟩ | h | h
  · exact Or.inl ⟨x, by simpa [or_comm] using hx, hb⟩
  · exact Or.inr (Or.inr h)
  · exact Or.inr (Or.inl h)

theorem merge_spoilt {z : Bool} {l r : Triple} (h : l.Spoilt z r) :
    Triple.merge z l r = ⟨0x7FC00000, 0x7FC00000, l.a.map fun _ => 0x7FC00000⟩ := by
  unfold Triple.merge readF32
  dsimp only
  rw [if_pos, round_nan_f32]
  simp only [Triple.Spoilt, List.mem_cons, List.not_mem_nil, or_false, exists_eq_or_imp, exists_eq_left] at h
  simp only [Bool.or_eq_true, beq_iff_eq, isNan_iff]
  tauto

theorem merge_sound {z : Bool} {l r : Triple} (h : ¬ l.Spoilt z r) :
    Triple.merge z l r = if minMaxBits 0 z true l.m r.m = negInf then .identity l.a.length else
      ⟨minMaxBits 0 z true l.m r.m, joinF32 z (minMaxBits 0 z true l.m r.m) l.m r.m l.s r.s,
        (upFrom 0 l.a.length).map fun k => joinF32 z (minMaxBits 0 z true l.m r.m) l.m r.m (nth 0 l.a k) (nth 0 r.a k)⟩ := by
  unfold Triple.merge readF32
  dsimp only
  rw [if_neg]
  · rfl
  · simp only [Triple.Spoilt, List.mem_cons, List.not_mem_nil, or_false, exists_eq_or_imp, exists_eq_left] at h
    simp only [Bool.or_eq_true, beq_iff_eq, isNan_iff]
    tauto

theorem notSpoilt_nan {z : Bool} {l r : Triple} (h : ¬ l.Spoilt z r) : readNum 0 z l.m ≠ .nan ∧ readNum 0 z r.m ≠ .nan := by
  simp only [Triple.Spoilt, List.mem_cons, List.not_mem_nil, or_false, exists_eq_or_imp, exists_eq_left] at h
  tauto

/-- R245: what merging two triples gives, the same either way round. -/
theorem merge_gives (ftz : Bool) (l r : Triple) (hlen : l.a.length = r.a.length) (h32 : ∀ x ∈ l.toList ++ r.toList, x < 2 ^ 32) :
    let rd := readNum 0 ftz
    let rnd := fun (x : XReal) => (convTo 0 0 false ftz 0 x).bits
    let bad := ∃ x ∈ [l.m, r.m], rd x = .nan ∨ rd x = .inf false
    let m := minMaxBits 0 ftz true l.m r.m
    let t := Triple.merge ftz l r
    (bad ∨ rd l.s = .nan ∨ rd r.s = .nan → t = ⟨0x7FC00000, 0x7FC00000, l.a.map fun _ => 0x7FC00000⟩) ∧
    (rd l.m = .inf true → rd r.m = .inf true → rd l.s ≠ .nan → rd r.s ≠ .nan → t = ⟨0xFF800000, 0, l.a.map fun _ => 0⟩) ∧
    (¬bad → rd l.s ≠ .nan → rd r.s ≠ .nan → (rd l.m ≠ .inf true ∨ rd r.m ≠ .inf true) →
      let c := fun (x : Nat) => rd (rnd (Trans.exp (XReal.add false (rd x) (rd m).neg)))
      let join := fun (x y : Nat) => rnd (XReal.add false ((rd x).mul (c l.m)) ((rd y).mul (c r.m)))
      t = ⟨m, join l.s r.s, List.zipWith join l.a r.a⟩) ∧
    t = Triple.merge ftz r l := by
  have hl : l.m < 2 ^ 32 := h32 _ (by simp [Triple.toList])
  have hr : r.m < 2 ^ 32 := h32 _ (by simp [Triple.toList])
  intro rd rnd bad m t
  refine ⟨merge_spoilt, fun h1 h2 h3 h4 => ?_, fun hb h3 h4 hne => ?_, ?_⟩
  · have hs : ¬ l.Spoilt ftz r := by
      rintro (⟨x, hx, hbad⟩ | h | h)
      · have hx : x = l.m ∨ x = r.m := by simpa using hx
        have hinf : readNum 0 ftz x = .inf true := by rcases hx with rfl | rfl <;> assumption
        rw [hinf] at hbad
        simp at hbad
      · exact h3 h
      · exact h4 h
    obtain ⟨hnl, hnr⟩ := notSpoilt_nan hs
    refine (merge_sound hs).trans ?_
    rw [if_pos ((maxBits_negInf ftz hl hr hnl hnr).mpr ⟨h1, h2⟩)]
    simp only [Triple.identity, negInf, Triple.mk.injEq, true_and]
    rw [upFrom_zero, List.map_const', List.map_const', List.length_range]
  · have hs : ¬ l.Spoilt ftz r := by
      rintro (h | h | h)
      · exact hb h
      · exact h3 h
      · exact h4 h
    obtain ⟨hnl, hnr⟩ := notSpoilt_nan hs
    refine (merge_sound hs).trans ?_
    rw [if_neg (fun h => by
      obtain ⟨ha, hb⟩ := (maxBits_negInf ftz hl hr hnl hnr).mp h
      exact hne.elim (fun x => x ha) fun x => x hb), upFrom_map_nth 0 0 _ l.a r.a hlen]
    rfl
  · by_cases hs : l.Spoilt ftz r
    · rw [show t = _ from merge_spoilt hs, merge_spoilt hs.swap, List.map_const', List.map_const', hlen]
    · obtain ⟨hnl, hnr⟩ := notSpoilt_nan hs
      rw [show t = _ from merge_sound hs, merge_sound (fun h => hs h.swap), maxBits_comm ftz hr hl hnr hnl, ← hlen]
      congr 1
      rw [joinF32_comm]
      congr 1
      exact List.map_congr_left fun k _ => joinF32_comm ..

end Sys2Proof.Machine
end

section
/-! PROOF. Reductions, scans, vrargmax and vatmrg (O39). -/
namespace Sys2Proof.Machine
open Sys2Proof

/-- R140 to R142: the reductions and the scans. -/
theorem reductions_ok (f : E64) (s t : State) (a : Src) (key : Nat → Nat) (g : CMap → CMap) :
    let w := ewWidth f
    let fmt := bits f.c8.toNat 0 5
    let rm := bits f.c8.toNat 5 3
    let j := f.top2
    let vals := fun (l : List Nat) => l.map (a.slot w)
    let sum := fun (i : Nat) (l : List Nat) => sumSlots fmt rm t.view.ftz (key i) (vals l)
    Turn.Move f w g s a t → redOk fmt = true → fmtWidth fmt = w →
    (∀ i, t.active f i → if ftzFmt fmt then stoch t.wk t.view.nkey.c0 a.map rm i = .ok (key i) else key i = 0) →
    (g = (fun m => m.reduce j) →
      exec (.vrsum f) s = .next (t.vOut f w 3 (a.map.reduce j) fun i => sum i (t.line f j i)) ∧
      exec (.vrmax f) s =
        .next (t.vOut f w 3 (a.map.reduce j) fun i => extremeSlots fmt t.view.ftz true (vals (t.line f j i))) ∧
      exec (.vrmin f) s =
        .next (t.vOut f w 3 (a.map.reduce j) fun i => extremeSlots fmt t.view.ftz false (vals (t.line f j i)))) ∧
    (g = id →
      exec (.vscan f) s =
        .next (t.vOut f w 3 a.map fun i => sum i ((t.line f j i).filter fun k => decide (k ≤ i))) ∧
      exec (.vxscan f) s =
        .next (t.vOut f w 3 a.map fun i => sum i ((t.line f j i).filter fun k => decide (k < i)))) := by
  intro w fmt rm j vals sum h hr hw hk
  have hline : ∀ i, activeLine t.view.shape f.top2 (t.maskOf f.lo3) i = t.line f j i := activeLine_eq t f f.top2
  refine ⟨fun hg => ⟨?_, ?_, ?_⟩, fun hg => ⟨?_, ?_⟩⟩
  · subst hg
    rw [exec_vrsum, execVrsum]
    exact reduceRun_ok h hr hw hk fun i k hki => by rw [hline, hki rfl]; rfl
  · subst hg
    rw [exec_vrmax, execVrmax]
    exact reduceRun_ok h hr hw hk fun i k _ => by rw [hline]; rfl
  · subst hg
    rw [exec_vrmin, execVrmin]
    exact reduceRun_ok h hr hw hk fun i k _ => by rw [hline]; rfl
  · subst hg
    rw [exec_vscan, execVscan]
    exact reduceRun_ok h hr hw hk fun i k hki => by rw [hline, hki rfl]; rfl
  · subst hg
    rw [exec_vxscan, execVxscan]
    exact reduceRun_ok h hr hw hk fun i k hki => by rw [hline, hki rfl]; rfl

/-- A logical index that is read is a signed 32-bit number. -/
theorem readCoord_word {w : Worker} {m : CMap} {i : Nat} {c : Coord} (h : readCoord w m i = .ok c) : ∃ b : BitVec 32, c.ixl = b.toInt := by
  unfold readCoord at h
  cases m with
  | lost => cases h
  | affine g t st o e =>
    cases h
    exact ⟨_, signed_ofNat _⟩
  | explicit g comp e =>
    dsimp only at h
    by_cases h1 : 8192 ≤ i
    · rw [if_pos h1] at h
      cases h
    · rw [if_neg h1] at h
      split at h
      · cases h
      · cases h
        exact ⟨_, signed_ofNat _⟩

theorem signed_wrap_word (b : BitVec 32) : signed 32 (wrap 32 b.toInt) = b.toInt := by
  rw [wrap_ofInt, signed_ofNat, BitVec.ofNat_toNat, BitVec.setWidth_eq, BitVec.ofInt_toInt]

theorem mem_line {t : State} {f : E64} {i k : Nat} (hi : i < t.view.shape.slots) (h : k ∈ t.line f f.top2 i) :
    k < t.view.shape.slots ∧ activeIn (t.maskOf f.lo3) k = true := by
  unfold State.line at h
  rw [List.mem_filter, List.mem_map] at h
  obtain ⟨⟨x, hx, rfl⟩, hact⟩ := h
  exact ⟨moveTo_lt (top2_lt f) hi (List.mem_range.mp hx), hact⟩

/-- R141: the index of the maximum of each line. -/
theorem vrargmax_ok (f : E64) (s t : State) (a : Src) (ixl : Nat → Int) :
    let w := ewWidth f
    let fmt := bits f.c8.toNat 0 5
    let j := f.top2
    Turn.Move f w (fun m => m.reduce j) s a t → redOk fmt = true → fmtWidth fmt = w → s.view.shape.fits 32 = true →
    (∀ i, t.active f i → ∃ c, readCoord t.wk a.map i = .ok c ∧ c.ixl = ixl i) →
    exec (.vrargmax f) s = .next (t.vOut f 32 3 (a.map.reduce j) fun i =>
      match extreme fmt t.view.ftz true (contenders fmt t.view.ftz ((t.line f j i).map fun k => (a.slot w k, ixl k))) with
      | some x => wrap 32 x.2
      | none => 2 ^ 32 - 1) := by
  intro w fmt j h hr hw hfit hc
  have hview : t.view = s.view := (readSrc_view h.reads).trans (gained_view s .V f)
  have hlegal : (redOk (redFmt f) && fmtWidth (redFmt f) == ewWidth f && s.view.shape.fits 32) = true := by
    rw [show redOk (redFmt f) = true from hr, show fmtWidth (redFmt f) = ewWidth f from hw, hfit]
    simp
  have hslots : ∀ i, i < t.view.shape.slots → activeIn (t.maskOf f.lo3) i = true →
      (do let c ← coordAt t a.map i
          pure (wrap 32 c.ixl) : Except Stop Nat) = .ok (wrap 32 (ixl i)) := by
    intro i hi hact
    obtain ⟨c, hcr, hci⟩ := hc i ⟨hi, hact⟩
    rw [coordAt_ok hcr, ex_bind_ok, hci]
    rfl
  have hsigned : ∀ i, t.active f i → signed 32 (wrap 32 (ixl i)) = ixl i := by
    intro i hi
    obtain ⟨c, hcr, hci⟩ := hc i hi
    obtain ⟨b, hb⟩ := readCoord_word hcr
    rw [← hci, hb, signed_wrap_word]
  rw [exec_vrargmax, execVrargmax]
  refine go_run h.go ?_
  dsimp only
  rw [m_bind_ok h.checks, m_bind_ok (m_look State.view _), gained_view, m_bind_ok (legal_ok hlegal _), m_bind_ok h.reads,
    m_bind_ok (m_look id t), ← hview]
  dsimp only [id]
  rw [m_bind_ok (eachSlot_ok (v := fun i => wrap 32 (ixl i)) t hslots), m_bind_ok (moveSlots_ok (v := fun i =>
    match extreme fmt t.view.ftz true (contenders fmt t.view.ftz ((t.line f j i).map fun k => (a.slot w k, ixl k))) with
    | some x => wrap 32 x.2
    | none => 2 ^ 32 - 1) fun i hi => ?_)]
  · exact deliverShape_ok _ _ _ _ _
  · have hl : (activeLine t.view.shape f.top2 (t.maskOf f.lo3) i).map (fun k => (a.slot (ewWidth f) k,
        signed 32 (nth 0 ((List.range t.view.shape.slots).map fun i => if activeIn (t.maskOf f.lo3) i = true then wrap 32 (ixl i) else 0) k))) =
        (t.line f j i).map fun k => (a.slot w k, ixl k) := by
      rw [activeLine_eq]
      refine List.map_congr_left fun k hk => ?_
      obtain ⟨hkl, hact⟩ := mem_line hi.1 hk
      rw [nth_range, if_pos hkl, if_pos hact, hsigned k ⟨hkl, hact⟩]
    rw [hl]
    rfl

/-- R246: two registers of triples merged line by line, and the record of it. -/
theorem vatmrg_ok (f : E64) (s u t : State) (a b : Src) :
    let sh := t.view.shape
    let g := sh.size 0
    let row := fun (x : Src) (r : Nat) => Triple.ofList ((List.range g).map fun i => x.slot 32 (g * r + i))
    Turn.Move f 32 id s a u → readSrc f.b8 (some 32) u = .ok (b, t) →
    let v := t.modWk fun w => { w with treeLog := w.treeLog ++ [[BitVec.ofNat 64 t.st.pc.toNat, BitVec.ofNat 64 f.c8.toNat]] }
    exec (.vatmrg f) s = .next (v.afterE .V f 4 [v.deliver f.d8 v.view.shape.slots 32 ⟨packSlots 32
      ((List.range (sh.slots / g)).flatMap fun r => (Triple.merge t.view.ftz (row a r) (row b r)).toList), 0, none, a.map⟩]) := by
  intro sh g row h hb v
  rw [exec_vatmrg, execVatmrg]
  refine go_run h.go ?_
  dsimp only
  rw [m_bind_ok h.checks, m_bind_ok h.reads, m_bind_ok hb, m_bind_ok (m_look id t)]
  dsimp only [id]
  rw [m_bind_ok (m_work _ _)]
  have hrow : ∀ (x : Src) (r : Nat), Triple.ofList ((upFrom (t.view.shape.size 0 * r) (t.view.shape.size 0)).map (x.slot 32)) = row x r := by
    intro x r
    rw [upFrom_eq, List.map_map]
    rfl
  simp only [hrow, upFrom_zero]
  exact deliverShape_ok _ _ _ _ _

/-- Settles O39. -/
theorem reductionsAndMerges : Obligations.ReductionsAndMerges :=
  ⟨reductions_ok, vrargmax_ok, vatmrg_ok, fun _ _ _ _ _ h _ _ => sumSlots_float h, fun _ hc => line_int hc,
    fun _ hr h2 ftz mx l hl => extremeSlots_float hr h2 ftz mx l hl, fun fmt ftz l _ => best_max fmt ftz l, merge_gives⟩

end Sys2Proof.Machine
end

section
/-! PROOF. A coordinate in a field that an integer instruction does not read faults nothing (O40). -/
namespace Sys2Proof.Machine
open Sys2Proof

/-- A `viadd` of two small immediates whose MS selects C8, which names a coordinate: a form that the decoder refuses and that
the statement does not shut out. -/
def viaddMapC : E64 := ⟨0, Tests.on, 0x03A, 5, 0xE2, 0xDF, 0x90⟩

theorem viaddMapC_issues : Turn.Lane viaddMapC 2 32 Tests.v2 ⟨.imm 2, .imm (-1), .coord 0, .lost⟩ Tests.v2 :=
  ⟨Tests.go _ _ _ (by decide), rfl, rfl⟩

/-- Whether an outcome leaves the worker in turn alive. -/
def leavesLive : Host.Outcome State Fault Refusal → Bool
  | .next t => t.live
  | _ => false

theorem viaddMapC_goes_on : leavesLive (exec (.viadd viaddMapC) Tests.v2) = true := by
  decide +kernel

theorem v2_trap_aborts : leavesLive (.next (Tests.v2.takeTrap .V Tests.v2.st.pc ⟨3, 0, 0, some 0⟩)) = false := by
  decide +kernel

/-- Refutes O40: its first clause takes a coordinate in any of the three fields for an operand of an integer instruction, the
field that MS alone selects too. A `viadd` of two small immediates whose C8 names a coordinate adds them; the trap that the
statement claims, at slot 0 through a map that is LOST, would abort the launch. -/
theorem not_engineFaultsAndGuardedOff : ¬ Obligations.EngineFaultsAndGuardedOff := by
  rintro ⟨h, -⟩
  obtain ⟨-, hint⟩ := h viaddMapC Tests.v2 Tests.v2 ⟨.imm 2, .imm (-1), .coord 0, .lost⟩ 2 32 0 3 viaddMapC_issues
    ⟨by decide, by decide⟩ rfl fun k hk => absurd hk (Nat.not_lt_zero k)
  have htrap := hint (by decide) ⟨0, Or.inr (Or.inr rfl)⟩ rfl (.viadd viaddMapC) List.mem_cons_self
  have hlive := viaddMapC_goes_on
  rw [htrap, v2_trap_aborts] at hlive
  exact Bool.false_ne_true hlive

end Sys2Proof.Machine
end

section
/-! PROOF. Furrows: legality, captures and the advance (O41). -/
namespace Sys2Proof.Machine
open Sys2Proof

/-! ## Legality -/

theorem getLsbD_iff (n : Nat) (v : BitVec n) (k : Nat) : v.getLsbD k = true ↔ v.toNat / 2 ^ k % 2 = 1 := by
  rw [BitVec.getLsbD, Nat.testBit_eq_decide_div_mod_eq, decide_eq_true_eq]

theorem signed_48 (v : BitVec 64) : v.toInt = signed 48 v.toNat ↔ -2 ^ 47 ≤ v.toInt ∧ v.toInt < 2 ^ 47 := by
  have hi := BitVec.toInt_eq_toNat_cond v
  have hl := v.isLt
  simp only [signed]
  norm_num at hi hl ⊢
  split at hi <;> split <;> omega

theorem indSize_eq (u : Furrow) : u.entrySize = if u.ind.toNat / 4 % 2 = 1 then 8 else 4 := by
  unfold Furrow.entrySize
  by_cases h : u.ind.toNat / 4 % 2 = 1
  · rw [if_pos h, if_pos ((getLsbD_iff _ _ 2).mpr h)]
  · rw [if_neg h, if_neg fun x => h ((getLsbD_iff _ _ 2).mp x)]

theorem narrow_formats : ∀ e < 23, 8 ≤ fmtWidth e ↔ e ∉ [13, 17, 22] := by decide

theorem shiftRight_zero_iff (v k : Nat) : v >>> k = 0 ↔ v < 2 ^ k := by
  rw [Nat.shiftRight_eq_div_pow, Nat.div_eq_zero_iff]
  simp

/-- R152, R154: which furrows are legal. -/
theorem legal_iff (u : Furrow) (eff : Nat) :
    let v := u.fmt.toNat
    let size := if u.ind.toNat / 4 % 2 = 1 then 8 else 4
    u.legal eff = true ↔
      (∀ k < 4, u.ext.get k ≠ 0 ∧ -2 ^ 47 ≤ (u.st.get k).toInt ∧ (u.st.get k).toInt < 2 ^ 47) ∧
      v / 2 ^ 9 % 2 ^ 7 = 0 ∧ v < 2 ^ 28 ∧ u.ind.toNat < 16 ∧ u.itab.toNat < 2 ^ 19 ∧ v / 2 ^ 5 % 4 ≠ 3 ∧
      (v % 32 = 21 ∨ eff = 21 → -1100 ≤ signed 12 (v / 2 ^ 16) ∧ signed 12 (v / 2 ^ 16) ≤ 1000) ∧
      ¬(u.ind.toNat / 8 % 2 = 1 ∧ u.ind.toNat % 4 = 0) ∧ u.itab.toNat % size = 0 ∧ v % 32 < 23 ∧ eff < 23 ∧
      (eff ∈ [13, 17, 22] → u.st.c0 = 0) := by
  intro v size
  have hst : ∀ k, (u.st.get k).toInt = u.stride k ↔ -2 ^ 47 ≤ (u.st.get k).toInt ∧ (u.st.get k).toInt < 2 ^ 47 := fun k => signed_48 _
  have hext : ∀ k, u.extent k ≠ 0 ↔ u.ext.get k ≠ 0 := fun k => by
    unfold Furrow.extent
    rw [Ne, Ne, BitVec.toNat_eq]
    rfl
  have hfmt : u.format = v % 32 := by unfold Furrow.format; rw [bits_eq]; simp [v]
  have hanch : anchorOk u.anchor = true ↔ -1100 ≤ signed 12 (v / 2 ^ 16) ∧ signed 12 (v / 2 ^ 16) ≤ 1000 := by
    unfold anchorOk Furrow.anchor
    rw [Bool.and_eq_true, decide_eq_true_eq, decide_eq_true_eq, Nat.shiftRight_eq_div_pow]
  have hind : u.indirect = true ↔ u.ind.toNat / 8 % 2 = 1 := getLsbD_iff _ _ 3
  have hdim : u.indDim = u.ind.toNat % 4 := by unfold Furrow.indDim; rw [bits_eq]; simp
  have htab : u.itab.toNat < 2 ^ 19 → u.table = u.itab.toNat := fun h => by
    unfold Furrow.table
    rw [bits_eq, pow_zero, Nat.div_one, Nat.mod_eq_of_lt h]
  have hzero : ∀ h : -2 ^ 47 ≤ u.st.c0.toInt ∧ u.st.c0.toInt < 2 ^ 47, u.stride 0 = 0 ↔ u.st.c0 = 0 := fun h => by
    rw [← (hst 0).mpr h]
    exact ⟨fun x => BitVec.eq_of_toInt_eq (x.trans BitVec.toInt_zero.symm), fun x => by rw [show u.st.get 0 = u.st.c0 from rfl, x]; rfl⟩
  have hall : (∀ k < 4, u.ext.get k ≠ 0 ∧ -2 ^ 47 ≤ (u.st.get k).toInt ∧ (u.st.get k).toInt < 2 ^ 47) ↔
      (u.extent 0 ≠ 0 ∧ u.extent 1 ≠ 0 ∧ u.extent 2 ≠ 0 ∧ u.extent 3 ≠ 0) ∧ (u.st.get 0).toInt = u.stride 0 ∧
        (u.st.get 1).toInt = u.stride 1 ∧ (u.st.get 2).toInt = u.stride 2 ∧ (u.st.get 3).toInt = u.stride 3 := by
    simp only [hst, hext]
    constructor
    · intro h
      exact ⟨⟨(h 0 (by decide)).1, (h 1 (by decide)).1, (h 2 (by decide)).1, (h 3 (by decide)).1⟩,
        (h 0 (by decide)).2, (h 1 (by decide)).2, (h 2 (by decide)).2, (h 3 (by decide)).2⟩
    · rintro ⟨⟨h0, h1, h2, h3⟩, s0, s1, s2, s3⟩ k hk
      match k, hk with
      | 0, _ => exact ⟨h0, s0⟩
      | 1, _ => exact ⟨h1, s1⟩
      | 2, _ => exact ⟨h2, s2⟩
      | 3, _ => exact ⟨h3, s3⟩
  have hlast : ∀ h : -2 ^ 47 ≤ u.st.c0.toInt ∧ u.st.c0.toInt < 2 ^ 47, eff < 23 →
      ((8 ≤ fmtWidth eff ∨ u.stride 0 = 0) ↔ (eff ∈ [13, 17, 22] → u.st.c0 = 0)) := fun h he => by
    rw [narrow_formats eff he, hzero h, imp_iff_not_or]
  unfold Furrow.legal Furrow.fieldsOk
  simp only [Bool.and_eq_true, Bool.or_eq_true, Bool.not_eq_true', bne_iff_ne, beq_iff_eq, decide_eq_true_eq, hanch, hfmt, hdim,
    shiftRight_zero_iff, bits_eq, Bool.and_eq_false_iff, beq_eq_false_iff_ne]
  rw [hall, show size = u.entrySize from (indSize_eq u).symm, show (u.indirect = false ↔ ¬ u.ind.toNat / 8 % 2 = 1) from by rw [← hind, Bool.not_eq_true]]
  constructor
  · rintro ⟨⟨⟨⟨⟨⟨⟨⟨⟨⟨⟨⟨⟨⟨⟨⟨⟨⟨e0, e1⟩, e2⟩, e3⟩, hr⟩, hv⟩, s0⟩, s1⟩, s2⟩, s3⟩, hi⟩, ht⟩, hlb⟩, ha⟩, hd⟩, htb⟩, hf⟩, he⟩, hn⟩
    refine ⟨⟨⟨e0, e1, e2, e3⟩, s0, s1, s2, s3⟩, hr, hv, hi, ht, hlb, fun h => ?_, fun h => ?_, by rw [← htab ht]; exact htb, hf, he,
      (hlast ((hst 0).mp s0) he).mp hn⟩
    · rcases ha with h' | h'
      · exact absurd h (by rintro (x | x); exacts [h'.1 x, h'.2 x])
      · exact h'
    · rcases hd with h' | h'
      · exact h' h.1
      · exact h' h.2
  · rintro ⟨⟨⟨e0, e1, e2, e3⟩, s0, s1, s2, s3⟩, hr, hv, hi, ht, hlb, ha, hd, htb, hf, he, hn⟩
    refine ⟨⟨⟨⟨⟨⟨⟨⟨⟨⟨⟨⟨⟨⟨⟨⟨⟨⟨e0, e1⟩, e2⟩, e3⟩, hr⟩, hv⟩, s0⟩, s1⟩, s2⟩, s3⟩, hi⟩, ht⟩, hlb⟩, ?_⟩, ?_⟩, by rw [htab ht]; exact htb⟩, hf⟩, he⟩,
      (hlast ((hst 0).mp s0) he).mpr hn⟩
    · by_cases h : v % 32 = 21 ∨ eff = 21
      · exact Or.inr (ha h)
      · exact Or.inl (not_or.mp h)
    · exact not_and_or.mp hd

/-! ## Captures -/

theorem captured (u : Furrow) (m : Memory) (j : Nat) : ∃ c, u.capture m j = { u with capt := c } ∧
    ∀ i, tabFind c i = if i = j ∧ j < u.extent u.indDim then some (u.entryIn m j) else tabFind u.capt i := by
  unfold Furrow.capture
  by_cases h : u.extent u.indDim ≤ j
  · rw [if_pos h]
    exact ⟨u.capt, rfl, fun i => (if_neg fun x => absurd x.2 (by omega)).symm⟩
  · rw [if_neg h]
    refine ⟨_, rfl, fun i => ?_⟩
    have hentry : (if u.table + u.entrySize * j + u.entrySize ≤ Config.spadBytes then
        Capture.value (BitVec.ofNat 64 (m.nat (u.table + u.entrySize * j) u.entrySize)) else .absent) = u.entryIn m j := by
      unfold Furrow.entryIn Furrow.table
      rw [bits_eq, pow_zero, Nat.div_one]
      rfl
    rw [hentry]
    by_cases hi : i = j
    · rw [if_pos ⟨hi, by omega⟩, hi, tabFind_put_self]
    · rw [if_neg fun x => hi x.1, tabFind_put_ne _ _ _ _ hi]

/-- R157: what a recapture finds. -/
theorem recaptured (u : Furrow) (m : Memory) : ∃ c, u.recapture m = { u with capt := c } ∧ ∀ j, tabFind c j =
    if u.indirect = true ∧ u.atEnd = false ∧ u.pos.get u.indDim ≤ j ∧ j ≤ u.pos.get u.indDim + 2 ∧
      j < u.extent u.indDim then some (u.entryIn m j) else none := by
  unfold Furrow.recapture
  dsimp only
  by_cases h : (u.indirect && !u.atEnd) = true
  · have hc : u.indirect = true ∧ u.atEnd = false := by simpa using h
    obtain ⟨c1, h1, f1⟩ := captured { u with capt := [] } m (u.pos.get u.indDim)
    obtain ⟨c2, h2, f2⟩ := captured { u with capt := c1 } m (u.pos.get u.indDim + 1)
    obtain ⟨c3, h3, f3⟩ := captured { u with capt := c2 } m (u.pos.get u.indDim + 2)
    refine ⟨c3, ?_, fun j => ?_⟩
    · show (if (u.indirect && !u.atEnd) = true then _ else _) = _
      rw [if_pos h]
      show ((({ u with capt := [] } : Furrow).capture m (u.pos.get u.indDim)).capture m (u.pos.get u.indDim + 1)).capture m
        (u.pos.get u.indDim + 2) = _
      rw [h1, h2, h3]
    · have f1 : ∀ i, tabFind c1 i = if i = u.pos.get u.indDim ∧ u.pos.get u.indDim < u.extent u.indDim then
          some (u.entryIn m (u.pos.get u.indDim)) else none := f1
      have f2 : ∀ i, tabFind c2 i = if i = u.pos.get u.indDim + 1 ∧ u.pos.get u.indDim + 1 < u.extent u.indDim then
          some (u.entryIn m (u.pos.get u.indDim + 1)) else tabFind c1 i := f2
      have f3 : ∀ i, tabFind c3 i = if i = u.pos.get u.indDim + 2 ∧ u.pos.get u.indDim + 2 < u.extent u.indDim then
          some (u.entryIn m (u.pos.get u.indDim + 2)) else tabFind c2 i := f3
      rw [f3, f2, f1]
      generalize u.pos.get u.indDim = p
      simp only [hc, true_and]
      by_cases h2 : j = p + 2
      · subst h2
        simp
      · by_cases h1 : j = p + 1
        · subst h1
          simp
        · by_cases h0 : j = p
          · subst h0
            simp
          · have : ¬ (p ≤ j ∧ j ≤ p + 2 ∧ j < u.extent u.indDim) := by omega
            simp [h0, h1, h2, this]
  · refine ⟨[], ?_, fun j => ?_⟩
    · show (if (u.indirect && !u.atEnd) = true then _ else _) = _
      rw [if_neg h]
    · rw [if_neg fun x => h (by rw [x.1, x.2.1]; rfl)]
      rfl

/-- The carries of an advance (R155). -/
theorem carries (e g p : Quad Nat) :
    carry e g (carry e g (carry e g { p with c0 := p.c0 + g.c0 } 0) 1) 2 =
      let over0 := e.c0 ≤ p.c0 + g.c0
      let p1 := p.c1 + if over0 then g.c1 else 0
      let over1 := e.c1 ≤ p1
      let p2 := p.c2 + if over1 then g.c2 else 0
      let over2 := e.c2 ≤ p2
      let p3 := p.c3 + if over2 then g.c3 else 0
      ⟨if over0 then 0 else p.c0 + g.c0, if over1 then 0 else p1, if over2 then 0 else p2, p3⟩ := by
  have h0 : ∀ q : Quad Nat, carry e g q 0 = if e.c0 ≤ q.c0 then ⟨0, q.c1 + g.c1, q.c2, q.c3⟩ else q := fun q => rfl
  have h1 : ∀ q : Quad Nat, carry e g q 1 = if e.c1 ≤ q.c1 then ⟨q.c0, 0, q.c2 + g.c2, q.c3⟩ else q := fun q => rfl
  have h2 : ∀ q : Quad Nat, carry e g q 2 = if e.c2 ≤ q.c2 then ⟨q.c0, q.c1, 0, q.c3 + g.c3⟩ else q := fun q => rfl
  dsimp only
  rw [h0, h1, h2]
  dsimp only
  by_cases o0 : e.c0 ≤ p.c0 + g.c0
  · simp only [if_pos o0]
    by_cases o1 : e.c1 ≤ p.c1 + g.c1
    · simp only [if_pos o1]
      by_cases o2 : e.c2 ≤ p.c2 + g.c2
      · simp only [if_pos o2]
      · simp only [if_neg o2, Nat.add_zero]
    · simp only [if_neg o1, Nat.add_zero]
      by_cases o2 : e.c2 ≤ p.c2
      · simp only [if_pos o2]
      · simp only [if_neg o2, Nat.add_zero]
  · simp only [if_neg o0, Nat.add_zero]
    by_cases o1 : e.c1 ≤ p.c1
    · simp only [if_pos o1]
      by_cases o2 : e.c2 ≤ p.c2 + g.c2
      · simp only [if_pos o2]
      · simp only [if_neg o2, Nat.add_zero]
    · simp only [if_neg o1, Nat.add_zero]
      by_cases o2 : e.c2 ≤ p.c2
      · simp only [if_pos o2]
      · simp only [if_neg o2, Nat.add_zero]

theorem begun (u : Furrow) (m : Memory) : (u.begin m).atEnd = false ∧ ∃ q c, u.begin m = { u with pos := q, atEnd := false, capt := c } := by
  unfold Furrow.begin
  by_cases h : u.atEnd = true
  · rw [if_pos h]
    obtain ⟨c, hc, -⟩ := recaptured { u with pos := .all 0, atEnd := false } m
    have hs : u.restart m = { u with pos := .all 0, atEnd := false, capt := c } := hc
    rw [hs]
    exact ⟨rfl, _, _, rfl⟩
  · have h' : u.atEnd = false := by simpa using h
    rw [if_neg h]
    exact ⟨h', u.pos, u.capt, by rw [← h']⟩

/-- R155, R157: how a furrow advances. -/
theorem advance_gives (u : Furrow) (g : Quad Nat) (m : Memory) :
    let e := u.extents
    let k := u.indDim
    let here : Furrow := if u.atEnd then { u with pos := .all 0, atEnd := false } else u
    let v := u.begin m
    let p := v.pos
    let over0 := e.c0 ≤ p.c0 + g.c0
    let p1 := p.c1 + if over0 then g.c1 else 0
    let over1 := e.c1 ≤ p1
    let p2 := p.c2 + if over1 then g.c2 else 0
    let over2 := e.c2 ≤ p2
    let p3 := p.c3 + if over2 then g.c3 else 0
    let n : Quad Nat := ⟨if over0 then 0 else p.c0 + g.c0, if over1 then 0 else p1, if over2 then 0 else p2, p3⟩
    let t := u.advance g m
    (u.posLinear = if u.atEnd then e.c0 * e.c1 * e.c2 * e.c3 else u.pos.c0 + e.c0 * (u.pos.c1 + e.c1 * (u.pos.c2 + e.c2 * u.pos.c3))) ∧
    (u.atEnd = false → v = u) ∧ (u.atEnd = true → v = here.recapture m) ∧
    (∃ c, u.recapture m = { u with capt := c } ∧ ∀ j, tabFind c j =
      if u.indirect = true ∧ u.atEnd = false ∧ u.pos.get k ≤ j ∧ j ≤ u.pos.get k + 2 ∧
        j < u.extent k then some (u.entryIn m j) else none) ∧
    (e.c3 ≤ p3 → t = { v with pos := .all 0, atEnd := true }) ∧
    (p3 < e.c3 → ∃ c, t = { v with pos := n, capt := c } ∧ ∀ j, tabFind c j =
      if u.indirect = true ∧ n.get k ≠ p.get k ∧ j = n.get k + 2 ∧ j < u.extent k then some (u.entryIn m j) else tabFind v.capt j) := by
  intro e k here v p over0 p1 over1 p2 over2 p3 n t
  obtain ⟨hend, q, cv, hq⟩ := begun u m
  have hv : v = { u with pos := q, atEnd := false, capt := cv } := hq
  have hstep : t = if e.c3 ≤ p3 then { v with pos := .all 0, atEnd := true } else
      if v.indirect && p.get k != n.get k then ({ v with pos := n } : Furrow).capture m (n.get k + 2) else { v with pos := n } := by
    show (u.begin m).step g m = _
    unfold Furrow.step
    rw [hend]
    have hext : (u.begin m).extents = e := by rw [hq]; rfl
    have hdim : (u.begin m).indDim = k := by rw [hq]; rfl
    dsimp only
    rw [if_neg Bool.false_ne_true, hext, hdim, carries]
  refine ⟨rfl, fun h => ?_, fun h => ?_, recaptured u m, fun h => ?_, fun h => ?_⟩
  · show u.begin m = u
    unfold Furrow.begin
    rw [h]
    rfl
  · show u.begin m = _
    simp only [here]
    unfold Furrow.begin Furrow.restart
    rw [if_pos h, if_pos h]
  · rw [hstep, if_pos h]
  · rw [hstep, if_neg (by omega)]
    have hin : v.indirect = u.indirect := by rw [hv]; rfl
    obtain ⟨c, hc, hf⟩ := captured { v with pos := n } m (n.get k + 2)
    have hext : ({ v with pos := n } : Furrow).extent ({ v with pos := n } : Furrow).indDim = u.extent k := by rw [hv]; rfl
    have hentry : ∀ j, ({ v with pos := n } : Furrow).entryIn m j = u.entryIn m j := fun j => by rw [hv]; rfl
    rw [hext] at hf
    rw [hin]
    by_cases h1 : u.indirect = true
    · by_cases h2 : n.get k = p.get k
      · refine ⟨v.capt, ?_, fun j => ?_⟩
        · rw [h1, h2, bne_self_eq_false]
          rfl
        · rw [if_neg fun x => x.2.1 h2]
      · refine ⟨c, ?_, fun j => ?_⟩
        · have hb : (u.indirect && p.get k != n.get k) = true := by
            rw [h1, Bool.true_and, bne_iff_ne]
            exact fun x => h2 x.symm
          rw [if_pos hb, hc]
        · rw [hf j, hentry]
          by_cases hj : j = n.get k + 2
          · subst hj
            simp [h1, h2]
          · rw [if_neg fun x => hj x.1, if_neg fun x => hj x.2.2.1]
    · refine ⟨v.capt, ?_, fun j => ?_⟩
      · rw [if_neg]
        simp [h1]
      · rw [if_neg fun x => h1 x.1]

end Sys2Proof.Machine
end

section
/-! PROOF. Loads through furrows and what they leave pending (O41). -/
namespace Sys2Proof.Machine
open Sys2Proof

/-- Slots filled from a rising list are found in it. -/
theorem fillSlots_eq (off : Nat → Nat) (n : Nat) : ∀ (i : Nat) (l : Tab Nat), (l.map Prod.fst).Pairwise (· < ·) → (∀ e ∈ l, i ≤ e.1) →
    fillSlots off i n l = (List.range n).map fun k => (tabFind l (i + k)).getD (off (i + k)) := by
  induction n with
  | zero => intro i l _ _; cases l <;> rfl
  | succ n ih =>
    intro i l hp hl
    rw [List.range_succ_eq_map, List.map_cons, List.map_map]
    have hshift : ∀ m : Tab Nat, (List.range n).map ((fun k => (tabFind m (i + k)).getD (off (i + k))) ∘ Nat.succ) =
        (List.range n).map fun k => (tabFind m (i + 1 + k)).getD (off (i + 1 + k)) := fun m =>
      List.map_congr_left fun k _ => by
        show (tabFind m (i + (k + 1))).getD (off (i + (k + 1))) = _
        rw [show i + (k + 1) = i + 1 + k by omega]
    rw [hshift]
    cases l with
    | nil =>
      rw [fillSlots, ih (i + 1) [] List.Pairwise.nil (by simp)]
      rfl
    | cons e r =>
      rw [List.map_cons, List.pairwise_cons] at hp
      have hr : ∀ x ∈ r, e.1 < x.1 := fun x hx => hp.1 _ (List.mem_map_of_mem hx)
      have he := hl e List.mem_cons_self
      rw [fillSlots]
      by_cases h : e.1 = i
      · rw [if_pos h, ih (i + 1) r hp.2 fun x hx => by have := hr x hx; omega]
        congr 1
        · simp [tabFind, h]
        · refine List.map_congr_left fun k _ => ?_
          have hne : ¬ e.1 = i + 1 + k := by omega
          simp only [tabFind, if_neg hne]
      · rw [if_neg h, ih (i + 1) (e :: r) (by rw [List.map_cons, List.pairwise_cons]; exact hp) fun x hx => by
          rcases List.mem_cons.mp hx with rfl | hx
          · omega
          · have := hr x hx; omega]
        congr 1
        have hnone : tabFind (e :: r) i = none := by
          cases hf : tabFind (e :: r) i with
          | none => rfl
          | some y =>
            rcases List.mem_cons.mp (mem_of_find _ _ _ hf) with hx | hx
            · exact absurd (congrArg Prod.fst hx).symm h
            · have := hr _ hx
              dsimp only at this
              omega
        rw [Nat.add_zero, hnone]
        rfl

/-- What a load leaves pending, before its landing is looked at. -/
theorem deliverLoad_eq (d : BitVec 8) (m : Option Nat) (w : Nat) (tag : Option Tag) (x : Loaded) (map : CMap) (s : State)
    (h : (!isQ d || s.wk.pinRoom (pinsOf x.parts)) = true) :
    deliverLoad d m w tag x map s = .ok (⟨[(s.deliver d s.view.shape.slots w
      ⟨packSlots w (fillSlots (fun i => if activeIn m i then 0 else s.inactive d false w i) 0 s.view.shape.slots x.vals),
        (match tag with
          | none => 0
          | some t => packSlots 8 (fillSlots (fun b =>
            if blockActive m t.len b || isQ d then 0 else slotOf (s.vreg d).scale.toNat 8 b) 0 (s.view.shape.slots / t.len) x.scales)),
        tag, map⟩).fetch x.parts], 3, false⟩, s) := by
  unfold deliverLoad
  rw [m_bind_ok (m_look id s)]
  dsimp only [id]
  rw [h, m_bind_ok (m_await_true s)]
  rfl

theorem blockActive_eq (m : Option Nat) (len b : Nat) : blockActive m len b = (List.range len).any fun i => activeIn m (b * len + i) := by
  unfold blockActive
  rw [upFrom_eq, List.any_map]
  rfl

/-- R33, R156, R161: what a load leaves pending, slot by slot. -/
theorem deliverLoad_gives (s : State) (d : BitVec 8) (m : Option Nat) (w eff len : Nat) (x : Loaded) (map : CMap) :
    let g := s.view.shape.slots
    let tag : Option Tag := if len = 0 then none else some ⟨eff, len⟩
    let pick := fun (n : Nat) (l : Tab Nat) (off : Nat → Nat) => (List.range n).map fun i => (tabFind l i).getD (off i)
    let old := fun (i : Nat) => if isQ d then 0 else slotOf (s.vreg d).data.toNat w i
    let oldSb := fun (b : Nat) => if isQ d then 0 else slotOf (s.vreg d).scale.toNat 8 b
    let data := packSlots w (pick g x.vals fun i => if activeIn m i then 0 else old i)
    let side := if len = 0 then 0 else packSlots 8 (pick (g / len) x.scales fun b =>
      if (List.range len).any (fun i => activeIn m (b * len + i)) then 0 else oldSb b)
    let lines := dedup ((x.parts.filter fun p => decide (p.addr < 2 ^ 52)).map fun p => p.addr / 128)
    (x.vals.map Prod.fst).Pairwise (· < ·) → (∀ e ∈ x.vals, e.1 < g) →
    (x.scales.map Prod.fst).Pairwise (· < ·) → (∀ e ∈ x.scales, e.1 < g / len) →
    loadTag eff len = tag ∧
    (isQ d = false → deliverLoad d m w tag x map s = .ok (⟨[s.deliver d g w ⟨data, side, tag, map⟩], 3, false⟩, s)) ∧
    (isQ d = true →
      (s.wk.pinRoom lines = false → deliverLoad d m w tag x map s = .error .stall) ∧
      (s.wk.pinRoom lines = true →
        ∃ q e, s.deliver d g w ⟨data, side, tag, map⟩ = .image q e ∧
          deliverLoad d m w tag x map s = .ok (⟨[.fetched q { e with pins := lines } x.parts], 3, false⟩, s))) := by
  intro g tag pick old oldSb data side lines hv _ hs _
  have hfill : ∀ (off : Nat → Nat) (n : Nat) (l : Tab Nat), (l.map Prod.fst).Pairwise (· < ·) → fillSlots off 0 n l = pick n l off :=
    fun off n l hl => by
      rw [fillSlots_eq off n 0 l hl fun _ _ => Nat.zero_le _]
      simp only [Nat.zero_add, pick]
  have hdata : packSlots w (fillSlots (fun i => if activeIn m i then 0 else s.inactive d false w i) 0 g x.vals) = data := by
    rw [hfill _ _ _ hv]
    rfl
  have hside : (match tag with
      | none => 0
      | some t => packSlots 8 (fillSlots (fun b =>
        if blockActive m t.len b || isQ d then 0 else slotOf (s.vreg d).scale.toNat 8 b) 0 (g / t.len) x.scales)) = side := by
    simp only [tag, side]
    by_cases h0 : len = 0
    · rw [if_pos h0, if_pos h0]
    · rw [if_neg h0, if_neg h0]
      dsimp only
      rw [hfill _ _ _ hs]
      congr 2
      refine funext fun b => ?_
      rw [blockActive_eq]
      simp only [oldSb]
      cases (List.range len).any fun i => activeIn m (b * len + i) <;> simp
  have hlines : pinsOf x.parts = lines := rfl
  have heq := deliverLoad_eq d m w tag x map s
  rw [hdata, hside, hlines] at heq
  refine ⟨rfl, fun hq => ?_, fun hq => ⟨fun hp => ?_, fun hp => ?_⟩⟩
  · rw [heq (by rw [hq]; rfl)]
    obtain ⟨u, hu⟩ := deliver_vregs s d g w ⟨data, side, tag, map⟩ hq
    rw [hu]
    rfl
  · unfold deliverLoad
    rw [m_bind_ok (m_look id s)]
    dsimp only [id]
    have hf : (!isQ d || s.wk.pinRoom (pinsOf x.parts)) = false := by rw [hq, hlines, hp]; rfl
    rw [hf]
    rfl
  · rw [heq (by rw [hq, hp]; rfl)]
    have hdel : ∃ q e, s.deliver d g w ⟨data, side, tag, map⟩ = .image q e := by
      unfold State.deliver
      rw [if_pos hq]
      exact ⟨_, _, rfl⟩
    obtain ⟨q, e, he⟩ := hdel
    exact ⟨q, e, he, by rw [he]; rfl⟩

/-! ## The L instructions -/

/-- The advance that NA holds back (R155). -/
def State.moved (t : State) (x : BitVec 8) (na : Bool) (u : Furrow) : State := if na then t else t.putFurrow x u

/-- The last step of an instruction that moves its furrow unless NA is set. -/
theorem moves_ok (t : State) (x : BitVec 8) (na : Bool) (u : Furrow) (k : M Issue) :
    (do if na then pure () else putFurrow x u
        k : M Issue) t = k (t.moved x na u) := by
  cases na <;> rfl

theorem imageOk_checks {u : Furrow} {eff : Nat} {sh : Shape} {d : BitVec 8} (h : u.imageOk eff sh) (hv : isQ d = false → u.blockOk eff sh = true)
    (hq : isQ d = true → isBlock eff = true → sh.slots % u.blockLen = 0) :
    (u.legal eff && sh.fits (fmtWidth eff) && (if isQ d then u.wholeBlocks eff sh else u.blockOk eff sh) && u.indOk sh) = true := by
  obtain ⟨h1, h2, h3⟩ := h
  have hblocks : (if isQ d then u.wholeBlocks eff sh else u.blockOk eff sh) = true := by
    cases hd : isQ d with
    | false => exact hv hd
    | true =>
      show u.wholeBlocks eff sh = true
      unfold Furrow.wholeBlocks
      cases hb : isBlock eff with
      | false => rfl
      | true => rw [hq hd hb]; rfl
  rw [h1, h2, h3, hblocks]
  rfl

theorem gained_furrow (o : State) (e : Eng) (f : E64) (x : BitVec 8) : (o.gained e f).furrow x = o.furrow x := by
  unfold State.furrow
  rw [gained_view]

section
variable {f : E64} {o t : State} {x : Loaded} {acts : List Landing} (h : Turn.Go .L f o)
include h

theorem ldv_ok :
    let s := o.gained .L f
    let u := s.furrow f.a8
    let eff := u.effective f.fmt5.toNat
    let w := fmtWidth eff
    let sh := s.view.shape
    let m := s.maskOf f.lo3
    let v := u.begin s.wk.spad
    u.imageOk eff sh → (isQ f.d8 = false → u.blockOk eff sh = true) →
    (isQ f.d8 = true → isBlock eff = true → sh.slots % u.blockLen = 0) →
    loadElems v eff (v.blocked eff) (v.image sh m) s = .ok (x, t) →
    deliverLoad f.d8 m w (loadTag eff (v.blocked eff)) x
      (freshMap sh (fun _ => true) (v.pos.map (BitVec.ofNat 32)) v.extents) t = .ok (⟨acts, 3, false⟩, t) →
    exec (.ldv f) o = .next ((t.moved f.a8 (f.modBit 0) (v.advance sh.g s.wk.spad)).afterE .L f 3 acts) := by
  intro s u eff w sh m v hi hv hq hl hd
  rw [exec_ldv, execLdv, ← gained_furrow o .L f]
  refine go_run h ?_
  rw [m_bind_ok (m_look id _)]
  dsimp only [id]
  rw [m_bind_ok (legal_ok (imageOk_checks hi hv hq) _), m_bind_ok hl, m_bind_ok hd]
  exact moves_ok t f.a8 (f.modBit 0) _ _

theorem lbc_ok :
    let s := o.gained .L f
    let u := s.furrow f.a8
    let eff := u.effective f.fmt5.toNat
    let w := fmtWidth eff
    let sh := s.view.shape
    let m := s.maskOf f.lo3
    let v := u.begin s.wk.spad
    u.legal eff = true → sh.fits w = true → (u.blocked eff = 0 ∨ sh.slots % u.blocked eff = 0) →
    loadElems v eff (u.blocked eff)
      (match lowestActive m sh.slots with
        | some i => if v.inFrame v.pos then [(i, v.pos)] else []
        | none => []) s = .ok (x, t) →
    let val := nth 0 (x.vals.map Prod.snd) 0
    let sb := nth 0 (x.scales.map Prod.snd) 0
    let len := u.blocked eff
    deliverLoad f.d8 m w (loadTag eff len)
      ⟨((List.range sh.slots).filter (activeIn m)).map fun i => (i, val),
        if len = 0 then [] else ((List.range (sh.slots / len)).filter (blockActive m len)).map fun b => (b, sb),
        x.parts.flatMap fun p => ((List.range (if p.scale then sh.slots / len else sh.slots)).filter
          (if p.scale then blockActive m len else activeIn m)).map fun i => { p with slot := i }⟩
      (freshMap sh (fun _ => false) (v.pos.map (BitVec.ofNat 32)) v.extents) t = .ok (⟨acts, 3, false⟩, t) →
    exec (.lbc f) o = .next ((t.moved f.a8 (f.modBit 0) (v.advance (.all 1) s.wk.spad)).afterE .L f 3 acts) := by
  intro s u eff w sh m v hlegal hfit hlen hl val sb len hd
  have hc : (u.legal eff && sh.fits w && (u.blocked eff == 0 || sh.slots % u.blocked eff == 0)) = true := by
    rw [hlegal, hfit]
    simpa using hlen
  have hparts : (x.parts.flatMap fun p =>
      if p.scale then ((upFrom 0 (sh.slots / len)).filter (blockActive m len)).map fun b => { p with slot := b }
      else ((upFrom 0 sh.slots).filter (activeIn m)).map fun i => { p with slot := i }) =
      x.parts.flatMap fun p => ((List.range (if p.scale then sh.slots / len else sh.slots)).filter
        (if p.scale then blockActive m len else activeIn m)).map fun i => { p with slot := i } := by
    refine congrArg (x.parts.flatMap ·) (funext fun p => ?_)
    rw [upFrom_zero, upFrom_zero]
    cases p.scale <;> rfl
  rw [← hparts, ← upFrom_zero, ← upFrom_zero] at hd
  rw [exec_lbc, execLbc, ← gained_furrow o .L f]
  refine go_run h ?_
  rw [m_bind_ok (m_look id _)]
  dsimp only [id]
  rw [m_bind_ok (legal_ok hc _)]
  refine (m_bind_ok hl).trans ?_
  refine (m_bind_ok hd).trans ?_
  exact moves_ok t f.a8 (f.modBit 0) _ _

theorem lgth_ok :
    let s := o.gained .L f
    let u := s.furrow f.a8
    let eff := u.effective f.fmt5.toNat
    let w := fmtWidth eff
    let sh := s.view.shape
    let m := s.maskOf f.lo3
    f.d8 ≠ f.b8 → u.legal eff = true → sh.fits w = true → sh.fits 32 = true → isBlock eff = false → u.indirect = false →
    loadElems u eff 0 (u.indexed (fun i => signed 32 (slotOf (s.vreg f.b8).data.toNat 32 i)) sh.slots m) s = .ok (x, t) →
    deliverLoad f.d8 m w none x (CMap.check (.explicit sh.grant3 (s.phys f.b8) u.extents)) t = .ok (⟨acts, 3, false⟩, t) →
    exec (.lgth f) o = .next (t.afterE .L f 3 acts) := by
  intro s u eff w sh m hne hlegal hfit h32 hb hi hl hd
  have hc : (u.legal eff && sh.fits w && sh.fits 32 && !isBlock eff && !u.indirect) = true := by
    rw [hlegal, hfit, h32, hb, hi]
    rfl
  rw [exec_lgth, execLgth, ← gained_furrow o .L f]
  refine go_run h ?_
  rw [m_bind_ok (m_look id _)]
  dsimp only [id]
  rw [if_neg hne, m_bind_ok (legal_ok hc _), m_bind_ok hl]
  exact hd

theorem lmsk_ok :
    let s := o.gained .L f
    let u := s.furrow f.a8
    let sh := s.view.shape
    let v := u.begin s.wk.spad
    u.legal u.format = true → u.format = 22 → u.indOk sh = true →
    loadElems v 22 0 (v.image sh none) s = .ok (x, t) →
    exec (.lmsk f) o = .next ((t.moved f.a8 (f.modBit 0) (v.advance sh.g s.wk.spad)).afterE .L f 3
      [.mask f.d8.toNat (BitVec.ofNat 65536 (packSlots 1 (fillSlots (fun _ => 0) 0 sh.slots x.vals)))]) := by
  intro s u sh v hlegal hf hi hl
  have hc : (u.legal u.format && u.format == 22 && u.indOk sh) = true := by
    rw [hlegal, hf, hi]
    rfl
  rw [exec_lmsk, execLmsk]
  refine go_run h ?_
  rw [m_bind_ok (m_look id _)]
  dsimp only [id]
  rw [m_bind_ok (legal_ok hc _), m_bind_ok hl]
  exact moves_ok t f.a8 (f.modBit 0) _ _

theorem ldq_ok :
    let s := o.gained .L f
    let u := s.furrow f.a8
    let eff := u.effective f.fmt5.toNat
    let n := (immOf f.b8).toNat
    let e := u.elements s.wk.spad n
    u.legal eff = true → 8 ≤ fmtWidth eff → fmtWidth eff ≤ 64 →
    s.wk.q15.length + n ≤ Config.wordCap →
    loadEach eff e.1 s = .ok (x, t) →
    exec (.ldq f) o = .next ((t.moved f.a8 (f.modBit 0) e.2).afterE .L f 3
      [.words ((fillSlots (fun _ => 0) 0 n x.vals).map (pushedWord eff))]) := by
  intro s u eff n e hlegal h8 h64 hroom hl
  have hc : (u.legal eff && wordFmt eff) = true := by
    rw [hlegal, Bool.true_and]
    exact decide_eq_true ⟨h8, h64⟩
  have hw : awaitWords n s = .ok ((), s) := by
    unfold awaitWords
    rw [m_bind_ok (m_look State.wk s), decide_eq_true hroom]
    rfl
  rw [exec_ldq, execLdq]
  refine go_run h ?_
  rw [m_bind_ok (m_look id _)]
  dsimp only [id]
  rw [m_bind_ok (legal_ok hc _)]
  refine (m_bind_ok hw).trans ((m_bind_ok hl).trans ?_)
  exact moves_ok t f.a8 (f.modBit 0) _ _

theorem lcbld_ok :
    let s := o.gained .L f
    let u := s.furrow f.a8
    let eff := u.effective f.fmt5.toNat
    let n := f.bc.toNat
    let e := u.elements s.wk.spad n
    u.legal eff = true → 8 ≤ fmtWidth eff → fmtWidth eff ≤ 64 →
    loadEach eff e.1 s = .ok (x, t) →
    let r := t.moved f.a8 (f.modBit 1) e.2
    let b := (r.wk.bank f.d8.toNat).load (f.modBit 0) ((fillSlots (fun _ => 0) 0 n x.vals).map (BitVec.ofNat 64))
    exec (.lcbld f) o =
      .next ((r.setWk { r.wk.setBank f.d8.toNat b with codebookLog := r.wk.codebookLog ++
        [[BitVec.ofNat 64 f.d8.toNat, b.version.zeroExtend 64, BitVec.ofNat 64 n]] }).afterE .L f 0 []) := by
  intro s u eff n e hlegal h8 h64 hl r b
  have hc : (u.legal eff && wordFmt eff) = true := by
    rw [hlegal, Bool.true_and]
    exact decide_eq_true ⟨h8, h64⟩
  rw [exec_lcbld, execLcbld]
  refine go_none h ?_
  rw [m_bind_ok (m_look id _)]
  dsimp only [id]
  rw [m_bind_ok (legal_ok hc _), m_bind_ok hl]
  exact moves_ok t f.a8 (f.modBit 1) _ _

end

/-- R165, R166, R188, R202: the L instructions that load nothing. -/
theorem unloading_ok (f : E64) (o : State) (h : Turn.Go .L f o) :
    let s := o.gained .L f
    let u := s.furrow f.a8
    let b := s.wk.bank f.d8.toNat
    (u.legal u.format = true → u.indOk s.view.shape = true →
      (s.view.shape.fits (fmtWidth u.format) = true → exec (.lpre f) o = .next (s.afterE .L f 0 [])) ∧
      exec (.ladv f) o =
        .next ((s.putFurrow f.a8 (u.advanceBy s.view.shape.g s.wk.spad (immOf f.b8).toNat)).afterE .L f 0 [])) ∧
    (u.legal u.format = true → exec (.lrst f) o = .next ((s.putFurrow f.a8 (u.restart s.wk.spad)).afterE .L f 0 [])) ∧
    ∃ c, exec (.lcbsw f) o = .next ((s.setWk (s.wk.setBank f.d8.toNat c)).afterE .L f 0 []) ∧
      c.front = !b.front ∧ c.copy0 = b.copy0 ∧ c.copy1 = b.copy1 ∧ c.count0 = b.count0 ∧ c.count1 = b.count1 ∧
      c.version = b.version ∧ c.clean = b.clean := by
  intro s u b
  refine ⟨fun hl hi => ⟨fun hf => ?_, ?_⟩, fun hl => ?_, { b with front := !b.front }, ?_, rfl, rfl, rfl, rfl, rfl, rfl, rfl⟩
  · have hc : (u.legal u.format && s.view.shape.fits (fmtWidth u.format) && u.indOk s.view.shape) = true := by rw [hl, hf, hi]; rfl
    rw [exec_lpre, execLpre]
    refine go_none h ?_
    rw [m_bind_ok (m_look id _)]
    dsimp only [id]
    rw [m_bind_ok (legal_ok hc _)]
    rfl
  · have hc : (u.legal u.format && u.indOk s.view.shape) = true := by rw [hl, hi]; rfl
    rw [exec_ladv, execLadv]
    refine go_none h ?_
    rw [m_bind_ok (m_look id _)]
    dsimp only [id]
    rw [m_bind_ok (legal_ok hc _)]
    rfl
  · rw [exec_lrst, execLrst]
    refine go_none h ?_
    rw [m_bind_ok (m_look id _)]
    dsimp only [id]
    rw [m_bind_ok (legal_ok hl _)]
    rfl
  · rw [exec_lcbsw, execLcbsw]
    exact go_none h rfl

/-- Settles O41. -/
theorem loadsAndFurrowMoves : Obligations.LoadsAndFurrowMoves :=
  ⟨fun _ _ _ _ _ h => ⟨ldv_ok h, lbc_ok h, lgth_ok h, lmsk_ok h, fun hl h8 h64 => ⟨ldq_ok h hl h8 h64, lcbld_ok h hl h8 h64⟩⟩,
    deliverLoad_gives, unloading_ok, legal_iff, advance_gives⟩

end Sys2Proof.Machine
end

section
/-! PROOF. What reading a cell gives and counts (O42). -/
namespace Sys2Proof.Machine
open Sys2Proof

/-! ## How a conversion into a float format comes out -/

/-- The kind of a conversion is told by its bits, a clamp apart. -/
def Conv.Kinded (r : FloatRow) (c : Conv) : Prop :=
  (c.kind = .nan ∧ c.bits = r.nan) ∨ (c.kind = .inf ∧ r.fmt ≠ 3 ∧ ∃ neg, c.bits = r.sign neg + r.inf) ∨
    ((c.kind = .plain ∨ c.kind = .sat) ∧ ∃ neg b, b ≤ r.max ∧ c.bits = r.sign neg + b)

/-- The special patterns of a row stand apart from its finite ones. -/
theorem floatRow_apart : ∀ r ∈ floatRows, r.max < r.nan ∧ r.nan < 2 ^ (r.mant + r.expo) ∧
    (r.fmt ≠ 3 → r.max < r.inf ∧ r.inf < r.nan) := by
  decide

theorem kinded_nan {r : FloatRow} (hr : r ∈ floatRows) {c : Conv} (h : c.Kinded r) : c.kind = .nan ↔ c.bits = r.nan := by
  obtain ⟨h1, h2, h3⟩ := floatRow_apart r hr
  rcases h with ⟨hk, hb⟩ | ⟨hk, hf, neg, hb⟩ | ⟨hk, neg, b, hm, hb⟩
  · simp [hk, hb]
  · obtain ⟨h4, h5⟩ := h3 hf
    rw [hk, hb]
    refine iff_of_false (by simp) ?_
    cases neg <;> simp only [FloatRow.sign, if_true, if_false, Bool.false_eq_true] <;> omega
  · rw [hb]
    refine iff_of_false (by rcases hk with hk | hk <;> simp [hk]) ?_
    cases neg <;> simp only [FloatRow.sign, if_true, if_false, Bool.false_eq_true] <;> omega

theorem kinded_inf {r : FloatRow} (hr : r ∈ floatRows) {c : Conv} (h : c.Kinded r) :
    c.kind = .inf ↔ r.fmt ≠ 3 ∧ (c.bits = r.inf ∨ c.bits = r.inf + 2 ^ (r.mant + r.expo)) := by
  obtain ⟨h1, h2, h3⟩ := floatRow_apart r hr
  rcases h with ⟨hk, hb⟩ | ⟨hk, hf, neg, hb⟩ | ⟨hk, neg, b, hm, hb⟩
  · rw [hk, hb]
    refine iff_of_false (by simp) fun ⟨hf, hx⟩ => ?_
    obtain ⟨h4, h5⟩ := h3 hf
    omega
  · rw [hk, hb]
    refine iff_of_true rfl ⟨hf, ?_⟩
    cases neg
    · exact Or.inl (by simp [FloatRow.sign])
    · exact Or.inr (by simp [FloatRow.sign, Nat.add_comm])
  · rw [hb]
    refine iff_of_false (by rcases hk with hk | hk <;> simp [hk]) fun ⟨hf, hx⟩ => ?_
    obtain ⟨h4, h5⟩ := h3 hf
    cases neg <;> simp only [FloatRow.sign, if_true, if_false, Bool.false_eq_true] at hx <;> omega

section
variable {r : FloatRow} {f : FloatFmt} (h : r.Fully f)
include h

theorem overflow_kind (rm : Nat) (sat neg : Bool) :
    (f.overflow (!decide (r.fmt ≤ 2)) sat rm neg).Kinded r ∧
      ((f.overflow (!decide (r.fmt ≤ 2)) sat rm neg).kind = .sat ↔ 2 < r.fmt ∧ sat = true) := by
  unfold FloatFmt.overflow
  simp only [h.noInf, fully_signBits h, h.maxBits, h.nan, Bool.and_eq_true, Bool.not_eq_true', decide_eq_false_iff_not, decide_eq_true_eq, not_le]
  have hbig : ∀ k, k = .plain ∨ k = .sat → (⟨r.sign neg + r.max, k⟩ : Conv).Kinded r := fun k hk =>
    Or.inr (Or.inr ⟨hk, neg, r.max, le_refl _, rfl⟩)
  by_cases hs : 2 < r.fmt ∧ sat = true
  · rw [if_pos hs]
    exact ⟨hbig _ (Or.inr rfl), iff_of_true rfl hs⟩
  · rw [if_neg hs]
    by_cases h3 : r.fmt = 3
    · rw [if_pos h3]
      exact ⟨Or.inl ⟨rfl, rfl⟩, iff_of_false (by simp) hs⟩
    · rw [if_neg h3, h.inf h3]
      have hinf : (⟨r.sign neg + r.inf, .inf⟩ : Conv).Kinded r := Or.inr (Or.inl ⟨rfl, h3, neg, rfl⟩)
      have key : ∀ c : Conv, c = ⟨r.sign neg + r.max, .plain⟩ ∨ c = ⟨r.sign neg + r.inf, .inf⟩ →
          c.Kinded r ∧ (c.kind = .sat ↔ 2 < r.fmt ∧ sat = true) := by
        rintro c (rfl | rfl)
        · exact ⟨hbig _ (Or.inl rfl), iff_of_false (by simp) hs⟩
        · exact ⟨hinf, iff_of_false (by simp) hs⟩
      refine key _ ?_
      split
      · exact Or.inl rfl
      · cases neg <;> simp
      · cases neg <;> simp
      · exact Or.inr rfl

/-- A nonzero finite value converted: past the greatest finite pattern it overflows, else it is plain. -/
theorem conv_fin {rm m n y : Nat} {sat ftz neg : Bool} {e : Int} (hm : 0 < m)
    (hR : Rounds rm neg m e (max ((m.log2 : Int) + e - r.mant) r.low) n y) :
    ∃ b, magnitude r.mant b = y * 2 ^ (max ((m.log2 : Int) + e - r.mant) r.low - r.low).toNat ∧
      (r.max < b → convTo r.fmt rm sat ftz n (.fin neg m e false) = f.overflow (!decide (r.fmt ≤ 2)) sat rm neg) ∧
      (b ≤ r.max → ∃ b' ≤ r.max, convTo r.fmt rm sat ftz n (.fin neg m e false) = ⟨r.sign neg + b', .plain⟩) := by
  have hy := rounds_iff.mp hR
  have hlen : ((bitLen m : Nat) : Int) - 1 + e = (m.log2 : Int) + e := by
    unfold bitLen; rw [if_neg hm.ne']; push_cast; ring
  obtain ⟨hlt, hge⟩ := cutAt_bounds (p := r.mant) (e := e) (low := r.low) hm
  obtain ⟨hlo, hhi⟩ := roundMag_between rm m n neg false e (max ((m.log2 : Int) + e - r.mant) r.low)
  rw [hy] at hlo hhi
  have hrd : convTo r.fmt rm sat ftz n (.fin neg m e false) =
      if r.max < (max ((m.log2 : Int) + e - r.mant) r.low - r.low).toNat * 2 ^ r.mant + y then
        f.overflow (!decide (r.fmt ≤ 2)) sat rm neg
      else if ftz && !(!decide (r.fmt ≤ 2)) && (max ((m.log2 : Int) + e - r.mant) r.low - r.low).toNat * 2 ^ r.mant + y < 2 ^ r.mant then
        ⟨r.sign neg, .plain⟩
      else ⟨r.sign neg + ((max ((m.log2 : Int) + e - r.mant) r.low - r.low).toNat * 2 ^ r.mant + y), .plain⟩ := by
    rw [fully_conv h]
    unfold FloatFmt.round
    dsimp only
    rw [if_neg fun x => hm.ne' x.1, hlen, h.mant, h.low, h.maxBits, hy, fully_signBits h, Nat.shiftLeft_eq]
  generalize max ((m.log2 : Int) + e - r.mant) r.low = q at *
  refine ⟨(q - r.low).toNat * 2 ^ r.mant + y, magnitude_add (by omega) fun hk => (hge (by omega)).trans hlo, fun hb => ?_, fun hb => ?_⟩
  · rw [hrd, if_pos hb]
  · rw [hrd, if_neg (Nat.not_lt.mpr hb)]
    split
    · exact ⟨0, Nat.zero_le _, rfl⟩
    · exact ⟨_, hb, rfl⟩

theorem conv_zero (rm n : Nat) (sat ftz neg : Bool) (e : Int) :
    convTo r.fmt rm sat ftz n (.fin neg 0 e false) = ⟨r.sign neg, .plain⟩ := by
  rw [fully_conv h]
  simp [FloatFmt.round, fully_signBits h]

theorem conv_nan (rm n : Nat) (sat ftz : Bool) : convTo r.fmt rm sat ftz n .nan = ⟨r.nan, .nan⟩ := by
  rw [fully_conv h]
  simp [FloatFmt.round, h.nan]

theorem conv_inf (rm n : Nat) (sat ftz neg : Bool) : convTo r.fmt rm sat ftz n (.inf neg) =
    if r.fmt = 3 then (if sat then ⟨r.sign neg + r.max, .sat⟩ else ⟨r.nan, .nan⟩) else ⟨r.sign neg + r.inf, .inf⟩ := by
  rw [fully_conv h]
  simp only [FloatFmt.round, h.noInf, fully_signBits h, h.maxBits, h.nan, decide_eq_true_eq]
  by_cases h3 : r.fmt = 3
  · rw [if_pos h3, if_pos h3]
  · rw [if_neg h3, if_neg h3, h.inf h3]

theorem conv_kinded (rm n : Nat) (sat ftz : Bool) {x : XReal} (hx : x.isFin = true → x.exact) :
    (convTo r.fmt rm sat ftz n x).Kinded r := by
  cases x with
  | nan => rw [conv_nan h]; exact Or.inl ⟨rfl, rfl⟩
  | inf neg =>
    rw [conv_inf h]
    by_cases h3 : r.fmt = 3
    · rw [if_pos h3]
      cases sat
      · exact Or.inl ⟨rfl, rfl⟩
      · exact Or.inr (Or.inr ⟨Or.inr rfl, neg, r.max, le_refl _, rfl⟩)
    · rw [if_neg h3]
      exact Or.inr (Or.inl ⟨rfl, h3, neg, rfl⟩)
  | fin neg m e l =>
    obtain ⟨_, _, _, he⟩ := hx rfl
    cases he
    rcases Nat.eq_zero_or_pos m with rfl | hm
    · rw [conv_zero h]
      exact Or.inr (Or.inr ⟨Or.inl rfl, neg, 0, Nat.zero_le _, rfl⟩)
    · obtain ⟨b, -, h1, h2⟩ := conv_fin h (sat := sat) (ftz := ftz) (n := n) (rm := rm) (neg := neg) hm (rounds_iff.mpr rfl)
      by_cases hb : r.max < b
      · rw [h1 hb]
        exact (overflow_kind h rm sat neg).1
      · obtain ⟨b', hb', he⟩ := h2 (Nat.not_lt.mp hb)
        rw [he]
        exact Or.inr (Or.inr ⟨Or.inl rfl, neg, b', hb', rfl⟩)

/-- R83: when a nonzero finite value is clamped. -/
theorem conv_fin_sat {rm m n y : Nat} {sat ftz neg : Bool} {e : Int} (hm : 0 < m)
    (hR : Rounds rm neg m e (max ((m.log2 : Int) + e - r.mant) r.low) n y) :
    (convTo r.fmt rm sat ftz n (.fin neg m e false)).kind = .sat ↔ 2 < r.fmt ∧ sat = true ∧
      r.top * 2 ^ (r.topExp - r.low).toNat < y * 2 ^ (max ((m.log2 : Int) + e - r.mant) r.low - r.low).toNat := by
  obtain ⟨b, hb, h1, h2⟩ := conv_fin h (sat := sat) (ftz := ftz) hm hR
  rw [← hb, ← h.big, (magnitude_strictMono r.mant).lt_iff_lt, ← and_assoc]
  by_cases hlt : r.max < b
  · rw [h1 hlt, (overflow_kind h rm sat neg).2, and_iff_left hlt]
  · obtain ⟨b', -, he⟩ := h2 (Nat.not_lt.mp hlt)
    rw [he]
    exact iff_of_false (by simp) fun x => hlt x.2

end

/-! ## The flags of a cell -/

theorem flag_bit (c : BitVec 256) {k : Nat} (hk : k < 5) : bit (cellFlags c) k = c.getLsbD (240 + k) := by
  unfold bit cellFlags
  rw [bits_eq, BitVec.getLsbD, Nat.testBit_mod_two_pow, decide_eq_true hk, Bool.true_and, Nat.testBit_div_two_pow, Nat.add_comm]

theorem cellV_toInt (c : BitVec 256) : signed 240 (cellV c) = (c.extractLsb' 0 240).toInt := by
  unfold signed cellV
  rw [BitVec.toInt_eq_toNat_cond, BitVec.extractLsb'_toNat, Nat.shiftRight_zero, Nat.mod_mod]

/-- A count of one or none. -/
theorem count_eq {b : Bool} {p : Prop} [Decidable p] (h : b = true ↔ p) : BitVec.ofNat 32 (ofBool b) = if p then 1 else 0 := by
  by_cases hp : p
  · rw [if_pos hp, h.mpr hp]
    rfl
  · rw [if_neg hp, Bool.eq_false_iff.mpr fun x => hp (h.mp x)]
    rfl

theorem cellValue_exact (anchor : Int) (c : BitVec 256) (h : (cellValue anchor c).isFin = true) : (cellValue anchor c).exact := by
  unfold cellValue at h ⊢
  dsimp only at h ⊢
  by_cases h0 : (bit (cellFlags c) 0 || bit (cellFlags c) 1 && bit (cellFlags c) 2) = true
  · rw [if_pos h0] at h; cases h
  · rw [if_neg h0] at h ⊢
    by_cases h1 : bit (cellFlags c) 1 = true
    · rw [if_pos h1] at h; cases h
    · rw [if_neg h1] at h ⊢
      by_cases h2 : bit (cellFlags c) 2 = true
      · rw [if_pos h2] at h; cases h
      · rw [if_neg h2]
        exact ⟨_, _, _, rfl⟩

/-- R82: what a cell reads as. -/
theorem cellValue_eq (anchor : Int) (c : BitVec 256) :
    let v := (c.extractLsb' 0 240).toInt
    let flag := fun (k : Nat) => c.getLsbD (240 + k)
    let nan := flag 0 = true ∨ flag 1 = true ∧ flag 2 = true
    (nan → cellValue anchor c = .nan) ∧ (¬nan → flag 1 = true → cellValue anchor c = .inf false) ∧
    (¬nan → flag 2 = true → cellValue anchor c = .inf true) ∧
    (¬nan ∧ flag 1 = false ∧ flag 2 = false → cellValue anchor c = .fin (decide (v < 0)) v.natAbs anchor false) := by
  intro v flag nan
  have hv : cellValue anchor c = if flag 0 || (flag 1 && flag 2) then .nan else if flag 1 then .inf false
      else if flag 2 then .inf true else .fin (decide (v < 0)) v.natAbs anchor false := by
    unfold cellValue
    dsimp only
    rw [flag_bit c (show 0 < 5 by decide), flag_bit c (show 1 < 5 by decide), flag_bit c (show 2 < 5 by decide), cellV_toInt]
    simp only [XReal.ofInt, XReal.scale, Int.zero_add]
    rfl
  have hnan : (flag 0 || (flag 1 && flag 2)) = true ↔ nan := by rw [Bool.or_eq_true, Bool.and_eq_true]
  rw [hv]
  refine ⟨fun h => if_pos (hnan.mpr h), fun h h1 => ?_, fun h h2 => ?_, fun ⟨h, h1, h2⟩ => ?_⟩
  · rw [if_neg (fun x => h (hnan.mp x)), if_pos h1]
  · have h1 : ¬ flag 1 = true := fun x => h (Or.inr ⟨x, h2⟩)
    rw [if_neg (fun x => h (hnan.mp x)), if_neg h1, if_pos h2]
  · rw [if_neg (fun x => h (hnan.mp x)), if_neg (Bool.eq_false_iff.mp h1), if_neg (Bool.eq_false_iff.mp h2)]

/-! ## What a readout counts -/

theorem nan_count (k : ConvKind) {p : Prop} [Decidable p] (x : ConvKind) (h : k = x ↔ p) :
    BitVec.ofNat 32 (ofBool (k == x)) = if p then 1 else 0 := count_eq (by rw [beq_iff_eq]; exact h)

section
variable {x : FloatRow} (hx : x ∈ floatRows) (rm n : Nat) (sat ftz : Bool) (anchor : Int) (c : BitVec 256)
include hx

/-- R83: what a readout into a float format counts. -/
theorem readCell_float :
    let v := (c.extractLsb' 0 240).toInt
    let flag := fun (k : Nat) => c.getLsbD (240 + k)
    let nan := flag 0 = true ∨ flag 1 = true ∧ flag 2 = true
    let fin := ¬nan ∧ flag 1 = false ∧ flag 2 = false
    let r := readCell x.fmt rm sat ftz n anchor c
    let one := fun (p : Prop) [Decidable p] => if p then (1 : BitVec 32) else 0
    r.2.nanc = one (r.1 = x.nan) ∧
    r.2.infc = one (x.fmt ≠ 3 ∧ (r.1 = x.inf ∨ r.1 = x.inf + 2 ^ (x.mant + x.expo))) ∧
    (nan → r.2.satc = 0) ∧ (¬nan → flag 1 = true ∨ flag 2 = true → r.2.satc = one (x.fmt = 3 ∧ sat = true)) ∧
    (fin → v = 0 → r.2.satc = 0) ∧
    ∀ y, fin → v ≠ 0 →
      let q : Int := max ((v.natAbs.log2 : Int) + anchor - x.mant) x.low
      Rounds rm (decide (v < 0)) v.natAbs anchor q n y →
      r.2.satc = one (2 < x.fmt ∧ sat = true ∧ x.top * 2 ^ (x.topExp - x.low).toNat < y * 2 ^ (q - x.low).toNat) := by
  obtain ⟨f, hf⟩ := floatRow_fully x hx
  intro v flag nan fin r one
  obtain ⟨hn, h1, h2, h3⟩ := cellValue_eq anchor c
  have hkind := conv_kinded hf rm n sat ftz (cellValue_exact anchor c)
  have hinf : ∀ neg, cellValue anchor c = .inf neg → r.2.satc = one (x.fmt = 3 ∧ sat = true) := by
    intro neg hc
    refine nan_count _ .sat ?_
    rw [hc, conv_inf hf]
    by_cases h3 : x.fmt = 3
    · rw [if_pos h3]
      cases sat <;> simp [h3]
    · rw [if_neg h3]
      exact iff_of_false (by simp) fun y => h3 y.1
  refine ⟨nan_count _ .nan (kinded_nan hx hkind), nan_count _ .inf (kinded_inf hx hkind), fun h => ?_, fun h hi => ?_, fun h hv => ?_,
    fun y h hv hR => ?_⟩
  · refine (nan_count (p := False) _ .sat ?_).trans (if_neg not_false)
    rw [hn h, conv_nan hf]
    simp
  · rcases hi with hi | hi
    · exact hinf false (h1 h hi)
    · exact hinf true (h2 h hi)
  · refine (nan_count (p := False) _ .sat ?_).trans (if_neg not_false)
    have hv0 : v.natAbs = 0 := by omega
    rw [h3 h, show (c.extractLsb' 0 240).toInt.natAbs = 0 from hv0, conv_zero hf]
    simp
  · refine nan_count _ .sat ?_
    rw [h3 h]
    exact conv_fin_sat hf (by omega) hR

end

/-- R83: what a readout into an integer format counts. -/
theorem readCell_int {x : Nat × Bool × Nat} (hx : x ∈ intRows) (rm n : Nat) (sat ftz : Bool) (anchor : Int) (c : BitVec 256) :
    let v := (c.extractLsb' 0 240).toInt
    let flag := fun (k : Nat) => c.getLsbD (240 + k)
    let nan := flag 0 = true ∨ flag 1 = true ∧ flag 2 = true
    let fin := ¬nan ∧ flag 1 = false ∧ flag 2 = false
    let r := readCell x.1 rm sat ftz n anchor c
    let one := fun (p : Prop) [Decidable p] => if p then (1 : BitVec 32) else 0
    let w := x.2.2
    let lo : Int := if x.2.1 then -2 ^ (w - 1) else 0
    let hi : Int := if x.2.1 then 2 ^ (w - 1) - 1 else 2 ^ w - 1
    r.2.infc = 0 ∧ (nan → r.2.nanc = 1 ∧ r.2.satc = 0) ∧ (¬nan → r.2.nanc = 0) ∧
    (¬nan → flag 1 = true ∨ flag 2 = true → r.2.satc = 1) ∧
    ∀ (y : Nat), fin → Rounds rm (decide (v < 0)) v.natAbs anchor 0 n y →
      let i : Int := if v < 0 then -y else y
      r.2.satc = one (i < lo ∨ hi < i) := by
  obtain ⟨h1, h2⟩ := intRow_fmt x hx
  intro v flag nan fin r one w lo hi
  obtain ⟨hn, hp, hm, hf⟩ := cellValue_eq anchor c
  have hconv : ∀ y, convTo x.1 rm sat ftz n y = roundInt x.2.1 x.2.2 rm n y := fun y => by simp only [convTo, h1, h2]
  have hrange : intRange x.2.1 x.2.2 = (lo, hi) := by
    unfold intRange
    simp only [lo, hi, w]
    cases x.2.1 <;> simp
  have hr : r.2.nanc = BitVec.ofNat 32 (ofBool ((roundInt x.2.1 x.2.2 rm n (cellValue anchor c)).kind == .nan)) ∧
      r.2.infc = BitVec.ofNat 32 (ofBool ((roundInt x.2.1 x.2.2 rm n (cellValue anchor c)).kind == .inf)) ∧
      r.2.satc = BitVec.ofNat 32 (ofBool ((roundInt x.2.1 x.2.2 rm n (cellValue anchor c)).kind == .sat)) := by
    rw [← hconv]
    exact ⟨rfl, rfl, rfl⟩
  obtain ⟨hnan, hinf, hsat⟩ := hr
  have hclass : nan ∨ (¬nan ∧ ∃ neg, cellValue anchor c = .inf neg) ∨ fin := by
    by_cases h : nan
    · exact Or.inl h
    · by_cases hi1 : flag 1 = true
      · exact Or.inr (Or.inl ⟨h, _, hp h hi1⟩)
      · by_cases hi2 : flag 2 = true
        · exact Or.inr (Or.inl ⟨h, _, hm h hi2⟩)
        · exact Or.inr (Or.inr ⟨h, Bool.eq_false_iff.mpr hi1, Bool.eq_false_iff.mpr hi2⟩)
  have hkindfin : ∀ neg m e, (roundInt x.2.1 x.2.2 rm n (.fin neg m e false)).kind =
      if clampInt lo hi (if neg then -((roundMag rm neg false m e 0 n : Nat) : Int) else (roundMag rm neg false m e 0 n : Nat)) =
        (if neg then -((roundMag rm neg false m e 0 n : Nat) : Int) else (roundMag rm neg false m e 0 n : Nat)) then .plain else .sat := by
    intro neg m e
    simp only [roundInt, hrange]
  have hplain : ∀ {p : Prop} [Decidable p] {k : ConvKind}, k = (if p then ConvKind.plain else .sat) → k ≠ .nan ∧ k ≠ .inf ∧ (k = .sat ↔ ¬p) := by
    intro p _ k hk
    rw [hk]
    by_cases hp : p
    · simp [hp]
    · simp [hp]
  refine ⟨?_, fun h => ?_, fun h => ?_, fun h hi' => ?_, fun y h hR => ?_⟩
  · refine hinf.trans ((nan_count (p := False) _ .inf ?_).trans (if_neg not_false))
    rcases hclass with h | ⟨-, neg, h⟩ | h
    · rw [hn h]; simp [roundInt]
    · rw [h]; simp [roundInt]
    · rw [hf h]; exact iff_of_false (hplain (hkindfin ..)).2.1 not_false
  · rw [hnan, hsat, hn h]
    exact ⟨rfl, rfl⟩
  · refine hnan.trans ((nan_count (p := False) _ .nan ?_).trans (if_neg not_false))
    rcases hclass with h' | ⟨-, neg, h'⟩ | h'
    · exact absurd h' h
    · rw [h']; simp [roundInt]
    · rw [hf h']; exact iff_of_false (hplain (hkindfin ..)).1 not_false
  · rw [hsat]
    rcases hi' with hi' | hi'
    · rw [hp h hi']; rfl
    · rw [hm h hi']; rfl
  · intro i
    refine hsat.trans (nan_count _ .sat ?_)
    rw [hf h, (hplain (hkindfin ..)).2.2, rounds_iff.mp hR]
    have hi' : (if decide (v < 0) = true then -((y : Nat) : Int) else y) = i := by simp only [decide_eq_true_eq, i]
    rw [show (if decide ((c.extractLsb' 0 240).toInt < 0) = true then -((y : Nat) : Int) else y) = i from hi']
    have hle : lo ≤ hi := by
      have := intRange_le x.2.1 x.2.2
      rwa [hrange] at this
    unfold clampInt
    by_cases ha : i < lo
    · rw [if_pos ha]; omega
    · rw [if_neg ha]
      by_cases hb : hi < i
      · rw [if_pos hb]; omega
      · rw [if_neg hb]; omega

/-- R82, R83: what reading a cell gives and counts. -/
theorem readCell_gives (fmt rm n : Nat) (sat ftz : Bool) (anchor : Int) (c : BitVec 256) :
    let v := (c.extractLsb' 0 240).toInt
    let flag := fun (k : Nat) => c.getLsbD (240 + k)
    let nan := flag 0 = true ∨ flag 1 = true ∧ flag 2 = true
    let one := fun (p : Prop) [Decidable p] => if p then (1 : BitVec 32) else 0
    let r := readCell fmt rm sat ftz n anchor c
    let gives := fun (x : XReal) => cellValue anchor c = x ∧ r.1 = (convTo fmt rm sat ftz n x).bits
    let fin := ¬nan ∧ flag 1 = false ∧ flag 2 = false
    (nan → gives .nan) ∧ (¬nan → flag 1 = true → gives (.inf false)) ∧ (¬nan → flag 2 = true → gives (.inf true)) ∧
    (fin → gives (.fin (decide (v < 0)) v.natAbs anchor false)) ∧
    r.2.ovfc = one (flag 3 = true) ∧ r.2.inxc = one (flag 4 = true) ∧
    (∀ x ∈ floatRows, x.fmt = fmt →
      r.2.nanc = one (r.1 = x.nan) ∧
      r.2.infc = one (fmt ≠ 3 ∧ (r.1 = x.inf ∨ r.1 = x.inf + 2 ^ (x.mant + x.expo))) ∧
      (nan → r.2.satc = 0) ∧ (¬nan → flag 1 = true ∨ flag 2 = true → r.2.satc = one (fmt = 3 ∧ sat = true)) ∧
      (fin → v = 0 → r.2.satc = 0) ∧
      ∀ y, fin → v ≠ 0 →
        let q : Int := max ((v.natAbs.log2 : Int) + anchor - x.mant) x.low
        Rounds rm (decide (v < 0)) v.natAbs anchor q n y →
        r.2.satc = one (2 < fmt ∧ sat = true ∧ x.top * 2 ^ (x.topExp - x.low).toNat < y * 2 ^ (q - x.low).toNat)) ∧
    ∀ x ∈ intRows, x.1 = fmt →
      let w := x.2.2
      let lo : Int := if x.2.1 then -2 ^ (w - 1) else 0
      let hi : Int := if x.2.1 then 2 ^ (w - 1) - 1 else 2 ^ w - 1
      r.2.infc = 0 ∧ (nan → r.2.nanc = 1 ∧ r.2.satc = 0) ∧ (¬nan → r.2.nanc = 0) ∧
      (¬nan → flag 1 = true ∨ flag 2 = true → r.2.satc = 1) ∧
      ∀ (y : Nat), fin → Rounds rm (decide (v < 0)) v.natAbs anchor 0 n y →
        let i : Int := if v < 0 then -y else y
        r.2.satc = one (i < lo ∨ hi < i) := by
  intro v flag nan one r gives fin
  obtain ⟨hn, h1, h2, h3⟩ := cellValue_eq anchor c
  have hgives : ∀ {x}, cellValue anchor c = x → gives x := fun {x} h => ⟨h, by rw [← h]; rfl⟩
  have hcount : ∀ {k : Nat}, k < 5 → BitVec.ofNat 32 (ofBool (bit (cellFlags c) k)) = one (flag k = true) := fun {k} hk => by
    rw [flag_bit c hk]
    exact count_eq Iff.rfl
  refine ⟨fun h => hgives (hn h), fun h hf => hgives (h1 h hf), fun h hf => hgives (h2 h hf), fun h => hgives (h3 h),
    hcount (by decide), hcount (by decide), fun x hx hfmt => ?_, fun x hx hfmt => ?_⟩
  · subst hfmt
    exact readCell_float hx rm n sat ftz anchor c
  · subst hfmt
    exact readCell_int hx rm n sat ftz anchor c

end Sys2Proof.Machine
end

section
/-! PROOF. Admitting terms; clearing and counting tiles; the planes change places (O42). -/
namespace Sys2Proof.Machine
open Sys2Proof

/-! ## What admitting a term makes of a cell -/

theorem add_wrap {M v : Nat} {d : Int} (hM : 0 < M) : (v + (d % (M : Int)).toNat) % M = (((v : Int) + d) % (M : Int)).toNat := by
  have hM' : (M : Int) ≠ 0 := by omega
  have h0 : 0 ≤ d % (M : Int) := Int.emod_nonneg _ hM'
  have h1 : 0 ≤ ((v : Int) + d) % (M : Int) := Int.emod_nonneg _ hM'
  have hz : (((v + (d % (M : Int)).toNat) % M : Nat) : Int) = ((((v : Int) + d) % (M : Int)).toNat : Nat) := by
    rw [Int.toNat_of_nonneg h1]
    push_cast
    rw [Int.toNat_of_nonneg h0, Int.add_emod_emod]
  exact_mod_cast hz

/-- R80: what admitting a term makes of a cell. -/
theorem admitTerm_gives (anchor : Int) (c : BitVec 256) :
    let v := c.toNat % 2 ^ 240
    let fl := c.toNat / 2 ^ 240 % 32
    let cell := fun (v fl : Nat) => BitVec.ofNat 256 (v + fl * 2 ^ 240)
    admitTerm anchor .nan c = cell v (fl ||| 1) ∧ admitTerm anchor (.inf false) c = cell v (fl ||| 2) ∧
    admitTerm anchor (.inf true) c = cell v (fl ||| 4) ∧
    ∀ (neg : Bool) (m y : Nat) (e : Int), Rounds 0 neg m e anchor 0 y →
      let inex := if e < anchor ∧ m % 2 ^ (anchor - e).toNat ≠ 0 then fl ||| 16 else fl
      admitTerm anchor (.fin neg m e false) c = if 2 ^ 200 ≤ y then cell v (inex ||| 8)
        else cell (((v : Int) + if neg then -(y : Int) else y) % 2 ^ 240).toNat inex := by
  intro v fl cell
  have hv : cellV c = v := rfl
  have hfl : cellFlags c = fl := bits_eq ..
  have hvlt : v < 2 ^ 240 := Nat.mod_lt _ (by positivity)
  have hcell : ∀ a b, cellOf a b = cell (a % 2 ^ 240) b := fun a b => by
    simp only [cellOf, cell, Nat.shiftLeft_eq]
  have hcellv : ∀ b, cellOf v b = cell v b := fun b => by rw [hcell, Nat.mod_eq_of_lt hvlt]
  refine ⟨?_, ?_, ?_, fun neg m y e hR => ?_⟩
  · simp only [admitTerm, hv, hfl, hcellv]
  · simp only [admitTerm, hv, hfl, hcellv, Bool.false_eq_true, if_false]
  · simp only [admitTerm, hv, hfl, hcellv, if_true]
  · intro inex
    have hin : (if (cutAt m e anchor).2.1 = 0 then fl else fl ||| 16) = inex := by
      simp only [inex]
      rw [(cutAt_eq m e anchor).2.1]
      by_cases he : anchor ≤ e
      · rw [if_pos he, if_pos rfl, if_neg fun x => absurd x.1 (by omega)]
      · rw [if_neg he]
        by_cases hz : m % 2 ^ (anchor - e).toNat = 0
        · rw [if_pos hz, if_neg fun x => x.2 hz]
        · rw [if_neg hz, if_pos ⟨by omega, hz⟩]
    simp only [admitTerm, hv, hfl, rounds_iff.mp hR, hin]
    by_cases hy : 2 ^ 200 ≤ y
    · rw [if_pos hy, if_pos hy, hcellv]
    · rw [if_neg hy, if_neg hy, hcell]
      congr 1
      generalize (if neg = true then -(y : Int) else y) = d
      have hcast : ((2 ^ 240 : Nat) : Int) = 2 ^ 240 := Nat.cast_pow 2 240
      have := add_wrap (M := 2 ^ 240) (v := v) (d := d) (by positivity)
      rw [hcast] at this
      rw [wrap_eq, this]

/-! ## Writes of cells -/

/-- What recording edits of cells adds to the record: each edit, as a write of the strand in turn that is performed nowhere. -/
theorem noteCells_writes (l : List (Nat × Edit)) : ∀ s : State, ∃ new, (s.noteCells l).writes = new ++ s.writes ∧
    (∀ e ∈ l, ∃ x ∈ new, x.line = e.1) ∧
    ∀ x ∈ new, (∃ e ∈ l, x.line = e.1 ∧ x.edit = e.2) ∧ x.spot = .cell s.curKey ∧ x.who = some ⟨s.curKey, .strand s.curEng⟩ ∧
      x.reach = [] ∧ x.done = false := by
  induction l with
  | nil => exact fun s => ⟨[], rfl, by simp, by simp⟩
  | cons e r ih =>
    intro s
    have hstep : s.noteCells (e :: r) = (s.record s.strandAuthor .rc (.cell s.curKey) e.1 e.2).noteCells r := rfl
    obtain ⟨new, hw, hall, hnew⟩ := ih (s.record s.strandAuthor .rc (.cell s.curKey) e.1 e.2)
    refine ⟨new ++ [⟨s.nextWrite, .cell s.curKey, e.1, s.lineNow (.cell s.curKey) e.1, e.2, s.strandAuthor.who,
      s.strandAuthor.pos, .rc, s.strandAuthor.reach, none, [], s.strandAuthor.done⟩], ?_, fun x hx => ?_, fun x hx => ?_⟩
    · rw [hstep, hw, List.append_assoc]
      rfl
    · rcases List.mem_cons.mp hx with rfl | hx
      · exact ⟨_, List.mem_append_right _ List.mem_cons_self, rfl⟩
      · obtain ⟨u, hu, he⟩ := hall x hx
        exact ⟨u, List.mem_append_left _ hu, he⟩
    · rcases List.mem_append.mp hx with hx | hx
      · obtain ⟨⟨d, hd, h1⟩, h2⟩ := hnew x hx
        exact ⟨⟨d, List.mem_cons_of_mem _ hd, h1⟩, h2⟩
      · rw [List.mem_singleton.mp hx]
        exact ⟨⟨e, List.mem_cons_self, rfl, rfl⟩, rfl, rfl, rfl, rfl⟩

theorem mem_upFrom (a n i : Nat) : i ∈ upFrom a n ↔ a ≤ i ∧ i < a + n := by
  rw [upFrom_eq, List.mem_map]
  constructor
  · rintro ⟨k, hk, rfl⟩
    have := List.mem_range.mp hk
    omega
  · rintro ⟨h1, h2⟩
    exact ⟨i - a, List.mem_range.mpr (by omega), by omega⟩

theorem clearCells_wk (s : State) (lo n : Nat) : (s.clearCells lo n).wk = s.wk.clearCells lo n := by
  unfold State.clearCells
  rw [modWk_eq, setWk_wk]
  exact congrArg (fun w : Worker => w.clearCells lo n) (noteCells_wk s _)

/-- A cell clear, apart from the worker: the record and the bad sectors. -/
theorem clearCells_rest (s : State) (lo n : Nat) :
    (s.clearCells lo n).writes = (s.noteCells ((upFrom lo n).map fun i => (i, .put 0 256 0))).writes ∧
    (s.clearCells lo n).badLocal = s.badLocal.filter fun x => !x.among s.curKey (upFrom lo n) := by
  unfold State.clearCells
  rw [modWk_eq]
  refine ⟨rfl, ?_⟩
  show ((s.noteCells _).wipeCells _).badLocal = _
  rw [noteCells_same]
  rfl

theorem among_iff (x : LocalSector) (key lo n : Nat) :
    x.among key (upFrom lo n) = true ↔ x.key = key ∧ x.cell = true ∧ lo ≤ x.off / 32 ∧ x.off / 32 < lo + n := by
  unfold LocalSector.among
  rw [Bool.and_eq_true, Bool.and_eq_true, beq_iff_eq, List.contains_iff_mem, mem_upFrom, and_assoc]

theorem setCounts_same (w : Worker) (z : Nat) (c : Counts) : (w.setCounts z c).tileCounts z = c := by
  unfold Worker.setCounts Worker.tileCounts
  exact tabGet_set_self ..

theorem setCounts_other (w : Worker) {z y : Nat} (c : Counts) (h : y ≠ z) : (w.setCounts z c).tileCounts y = w.tileCounts y := by
  unfold Worker.setCounts Worker.tileCounts
  exact tabGet_set_ne _ _ _ _ _ h

/-- R192: clearing a tile. -/
theorem mzclr_ok {f : E64} {o : State} (h : Turn.Go .M f o) :
    let s := o.gained .M f
    let z := f.d8.toNat
    let tile := s.view.tile z
    let inTile := fun (i : Nat) => tile.base.toNat ≤ i ∧ i < tile.base.toNat + tile.rows.toNat * tile.cols.toNat
    tile.ok = true → ∃ u : State, exec (.mzclr f) o = .next (u.afterE .M f 0 []) ∧
      (∀ i, u.wk.cell i = if inTile i then 0 else s.wk.cell i) ∧
      u.wk.tileCounts z = .zero ∧ (∀ y ≠ z, u.wk.tileCounts y = s.wk.tileCounts y) ∧
      u.wk = { s.wk with cells := u.wk.cells, counters := u.wk.counters } ∧
      (∃ new, u.writes = new ++ s.writes ∧ (∀ i, inTile i ↔ ∃ x ∈ new, x.line = i) ∧
        ∀ x ∈ new, x.spot = .cell s.curKey ∧ x.edit = .put 0 256 0 ∧ x.who = some ⟨s.curKey, .strand s.curEng⟩ ∧ x.reach = [] ∧
          x.done = false) ∧
      (∀ x, x ∈ u.badLocal ↔ x ∈ s.badLocal ∧ ¬ (x.key = s.curKey ∧ x.cell = true ∧ inTile (x.off / 32))) := by
  intro s z tile inTile hok
  let t := s.clearCells tile.base.toNat (tile.rows.toNat * tile.cols.toNat)
  let u := t.modWk fun w => w.setCounts z .zero
  have hrun : exec (.mzclr f) o = .next (u.afterE .M f 0 []) := by
    rw [exec_mzclr, execMzclr]
    refine go_none h ?_
    rw [m_bind_ok (m_look State.view _), m_bind_ok (legal_ok hok _)]
    rfl
  have hwk : u.wk = (s.wk.clearCells tile.base.toNat (tile.rows.toNat * tile.cols.toNat)).setCounts z .zero := by
    simp only [u, t]
    rw [modWk_eq, setWk_wk, clearCells_wk]
  obtain ⟨hwr, hbad⟩ := clearCells_rest s tile.base.toNat (tile.rows.toNat * tile.cols.toNat)
  have hrest : u.writes = t.writes ∧ u.badLocal = t.badLocal := by
    simp only [u]
    rw [modWk_eq]
    exact ⟨rfl, rfl⟩
  refine ⟨u, hrun, fun i => ?_, ?_, fun y hy => ?_, ?_, ?_, fun x => ?_⟩
  · rw [hwk]
    exact clearCells_cell _ _ _ _
  · rw [hwk]
    exact setCounts_same _ _ _
  · rw [hwk]
    exact setCounts_other _ _ hy
  · rw [hwk]
    rfl
  · obtain ⟨new, hn, hall, hnew⟩ := noteCells_writes ((upFrom tile.base.toNat (tile.rows.toNat * tile.cols.toNat)).map
      fun i => (i, Edit.put 0 256 0)) s
    refine ⟨new, by rw [hrest.1, hwr, hn], fun i => ⟨fun hi => ?_, fun ⟨x, hx, he⟩ => ?_⟩, fun x hx => ?_⟩
    · exact hall (i, .put 0 256 0) (List.mem_map.mpr ⟨i, (mem_upFrom ..).mpr hi, rfl⟩)
    · obtain ⟨⟨e, he', h1, -⟩, -⟩ := hnew x hx
      obtain ⟨k, hk, rfl⟩ := List.mem_map.mp he'
      rw [← he, h1]
      exact (mem_upFrom ..).mp hk
    · obtain ⟨⟨e, he', -, h1⟩, h2, h3, h4, h5⟩ := hnew x hx
      obtain ⟨k, hk, rfl⟩ := List.mem_map.mp he'
      exact ⟨h2, h1, h3, h4, h5⟩
  · rw [hrest.2, hbad, List.mem_filter, Bool.not_eq_true', Bool.eq_false_iff, Ne, among_iff]

/-- R83, R200: what `mzcnt` leaves pending. -/
theorem mzcnt_ok {f : E64} {o : State} (h : Turn.Go .M f o) :
    let s := o.gained .M f
    let z := f.d8.toNat
    (s.view.tile z).ok = true →
      let c := (s.wk.tileCounts z).add (pendingCounts z s.st.pend)
      exec (.mzcnt f) o = .next (s.afterE .M f (waitBehind z s.st.pend)
        [.words ([c.nanc, c.infc, c.ovfc, c.satc, c.inxc].map (BitVec.zeroExtend 64)), .counts z .zero]) := by
  intro s z hok c
  rw [exec_mzcnt, execMzcnt]
  refine go_run h ?_
  rw [m_bind_ok (m_look id _)]
  dsimp only [id]
  rw [m_bind_ok (legal_ok hok _)]
  rfl

/-- R177, R195: the planes change places. -/
theorem mswap_ok {f : E64} {o : State} (h : Turn.Go .M f o) :
    let s := o.gained .M f
    tabFind s.planeOwner s.wk.core = none ∨ tabFind s.planeOwner s.wk.core = some s.curKey →
      exec (.mswap f) o =
        .next ((s.setWk { s.wk with active := s.wk.shadow, shadow := { s.wk.active with fixed := false } }).afterE .M f 0 []) := by
  intro s hp
  rw [exec_mswap, execMswap]
  refine go_none h ?_
  rw [m_bind_ok (awaitPlanes_ok hp)]
  rfl

end Sys2Proof.Machine
end

section
/-! PROOF. Reading tiles; loading the shadow plane; ranking (O42). -/
namespace Sys2Proof.Machine
open Sys2Proof

/-- R267, R269: what M sees of a cell is something that it may see. -/
theorem seenCell_maySee (s : State) (c : Nat) : s.maySee (.cell s.curKey c 0) 32 (s.seenCell c).toNat := by
  have hlt : s.loads (.cell s.curKey c 0) 32 < 2 ^ 256 := by
    unfold State.loads State.look State.readPlace
    dsimp only [Place.line?]
    split
    · exact Nat.mod_lt _ (by positivity)
    · rw [bits_eq]
      exact Nat.mod_lt _ (by positivity)
  unfold State.seenCell
  rw [BitVec.toNat_ofNat, Nat.mod_eq_of_lt hlt]
  exact loads_maySee s _ _

theorem meetCells_none {s : State} {l : List Nat} (h : s.cellCheck l = none) : meetCells l s = .ok ((), s.mendCells l) := by
  unfold meetCells
  rw [m_bind_ok (m_look id _)]
  dsimp only [id]
  rw [h]
  rfl

theorem meetCells_some {s : State} {l : List Nat} {x : Nat} (h : s.cellCheck l = some x) : meetCells l s = .error (.machine 2 x) := by
  unfold meetCells
  rw [m_bind_ok (m_look id _)]
  dsimp only [id]
  rw [h]
  rfl

theorem filterMap_if {α β : Type} (p : α → Prop) [DecidablePred p] (g : α → β) (l : List α) :
    l.filterMap (fun a => if p a then some (g a) else none) = (l.filter fun a => decide (p a)).map g := by
  induction l with
  | nil => rfl
  | cons a r ih =>
    by_cases h : p a
    · rw [List.filter_cons_of_pos (by simpa using h), List.map_cons, ← ih]
      exact List.filterMap_cons_some (if_pos h)
    · rw [List.filter_cons_of_neg (by simpa using h), ← ih]
      exact List.filterMap_cons_none (if_neg h)

/-- R82, R83, R199: reading a tile. -/
theorem mrdz_ok (f : E64) (o : State) (key : Nat → Nat) (h : Turn.Go .M f o) :
    let s := o.gained .M f
    let z := f.a8.toNat
    let tile := s.view.tile z
    let fmt := f.fmt5.toNat
    let w := fmtWidth fmt
    let sh := s.view.shape
    let g0 := sh.size 0
    let row := fun (i : Nat) => f.bc.toNat / 2 ^ 5 % 2 ^ 9 + i / g0
    let col := fun (i : Nat) => 16 * (f.bc.toNat % 2 ^ 5) + i % g0
    let origin : Quad (BitVec 32) := ⟨BitVec.ofNat 32 (col 0), BitVec.ofNat 32 (row 0), 0, 0⟩
    let map := freshMap sh (fun j => decide (j < 2)) origin ⟨tile.cols.toNat, tile.rows.toNat, 1, 1⟩
    let inTile := fun (i : Nat) => row i < tile.rows.toNat ∧ col i < tile.cols.toNat
    let cells := ((List.range sh.slots).filter fun i => decide (inTile i)).map fun i => tile.cell (row i) (col i)
    let val := fun (i : Nat) => if inTile i
      then readCell fmt f.lo3 (f.zm || s.view.e4m3sat) s.view.ftz (key i) tile.anch (s.seenCell (tile.cell (row i) (col i)))
      else (0, .zero)
    let vals := (List.range sh.slots).map val
    cvtFmt fmt = true → sh.fits w = true → sh.size 2 = 1 → sh.size 3 = 1 → tile.ok = true →
    (∀ i < sh.slots, row i < tile.rows.toNat → col i < tile.cols.toNat →
      stoch s.wk s.view.nkey.c0 map f.lo3 i = .ok (key i)) →
    (∀ c, s.maySee (.cell s.curKey c 0) 32 (s.seenCell c).toNat) ∧
    (∀ x, s.cellCheck cells = some x → exec (.mrdz f) o = .next (o.machineCheck o.wk 3 2 x o.st.pc)) ∧
    (s.cellCheck cells = none → exec (.mrdz f) o = .next (((s.mendCells cells).loadedCells cells).afterE .M f 3
      [s.deliver f.d8 sh.slots w ⟨packSlots w (vals.map Prod.fst), 0, none, map⟩, .counts z (sumCounts (vals.map Prod.snd))])) := by
  intro s z tile fmt w sh g0 row col origin map inTile cells val vals hfmt hfit h2 h3 hok hkey
  have hlegal : (cvtFmt fmt && sh.fits w && sh.size 2 == 1 && sh.size 3 == 1 && tile.ok) = true := by
    rw [hfmt, hfit, h2, h3, hok]
    rfl
  have hcell : ∀ i, rdzCell f s tile i = if inTile i then some (tile.cell (row i) (col i)) else none := fun i => by
    unfold rdzCell
    simp only [bits_eq, pow_zero, Nat.div_one]
    rfl
  have hcells : (upFrom 0 sh.slots).filterMap (rdzCell f s tile) = cells := by
    rw [upFrom_zero, funext hcell]
    exact filterMap_if inTile (fun i => tile.cell (row i) (col i)) _
  have hmap : freshMap sh (fun j => decide (j < 2)) ⟨BitVec.ofNat 32 (16 * bits f.bc.toNat 0 5), BitVec.ofNat 32 (bits f.bc.toNat 5 9), 0, 0⟩
      ⟨tile.cols.toNat, tile.rows.toNat, 1, 1⟩ = map := by
    simp only [map, origin, row, col, bits_eq, Nat.zero_mod, Nat.zero_div, Nat.add_zero, pow_zero, Nat.div_one]
  have hslots : listM (rdzSlot f s tile map) (upFrom 0 sh.slots) = .ok vals := by
    refine (listM_ok (v := val) sh.slots 0 fun i _ hi => ?_).trans (by simp only [Nat.zero_add]; rfl)
    rw [Nat.zero_add] at hi
    unfold rdzSlot
    rw [hcell]
    by_cases hin : inTile i
    · rw [if_pos hin]
      dsimp only
      rw [hkey i hi hin.1 hin.2]
      simp only [val, if_pos hin]
      rfl
    · simp only [if_neg hin, val]
      rfl
  refine ⟨seenCell_maySee s, fun x hx => ?_, fun hx => ?_⟩
  · rw [exec_mrdz, execMrdz]
    refine go_machine .M h ?_
    rw [m_bind_ok (m_look id _)]
    dsimp only [id]
    rw [m_bind_ok (legal_ok hlegal _)]
    refine m_bind_error (meetCells_some ?_)
    rw [hcells]
    exact hx
  · rw [exec_mrdz, execMrdz]
    refine go_run h ?_
    rw [m_bind_ok (m_look id _)]
    dsimp only [id]
    rw [m_bind_ok (legal_ok hlegal _), m_bind_ok (meetCells_none (by rw [hcells]; exact hx)), hmap]
    refine (m_bind_ok ((congrArg (fun r => M.lift r _) hslots).trans (lift_ok vals _))).trans ?_
    rw [m_bind_ok (m_change _ _), hcells]
    rfl

/-! ## The shadow plane -/

theorem isCb_ldb {c : Nat} (h : c = 17 ∨ c = 18) : isCb c = true := by
  rcases h with rfl | rfl <;> rfl

/-- Where the format of A's tag is taken, A has that tag. -/
theorem ldbFormat_tag {f : E64} {len sf : Nat} {s : State} (h : ldbFormat f len s = .ok (sf, s)) (hf : f.fmt5 = 0x1F) :
    ∃ t : Tag, peekTag f.a8 s = .ok (some t, s) ∧ t.fmt = sf := by
  unfold ldbFormat at h
  rw [if_pos hf] at h
  cases hp : peekTag f.a8 s with
  | error x => rw [m_bind_error hp] at h; cases h
  | ok y =>
    obtain ⟨g, t⟩ := y
    rw [m_bind_ok hp] at h
    cases g with
    | none => cases h
    | some t' =>
      dsimp only at h
      by_cases hc : (isKb t'.fmt || ldbCode t'.fmt) = true ∧ t'.len = len
      · rw [if_pos hc] at h
        cases h
        exact ⟨t', rfl, rfl⟩
      · rw [if_neg hc] at h
        cases h

theorem ldbBank_ok {f : E64} {len sf : Nat} {s : State} (h : ldbFormat f len s = .ok (sf, s))
    (hb : f.fmt5 = 0x1F → f.b8 ≠ 0 → sf = 17 ∨ sf = 18) : ldbBank f s = .ok ((), s) := by
  unfold ldbBank
  by_cases hc : f.fmt5 = 0x1F ∧ f.b8 ≠ 0
  · obtain ⟨t, ht, hf⟩ := ldbFormat_tag h hc.1
    rw [if_pos hc, m_bind_ok ht]
    dsimp only
    rw [hf, isCb_ldb (hb hc.1 hc.2)]
    rfl
  · rw [if_neg hc]
    rfl

/-- R177, R193, R194: loading a band of the shadow plane. -/
theorem mldb_ok (f : E64) (o t : State) (a : Src) (sf : Nat) (xs : Nat → XReal) (h : Turn.Go .M f o) :
    let s := o.gained .M f
    let wb := if f.zm then 16 else 8
    let len := 16 * 2 ^ f.ms
    let sh := s.view.shape
    let p := s.wk.shadow
    ldbFormat f len s = .ok (sf, s) → (f.fmt5 = 0x1F → f.b8 ≠ 0 → sf = 17 ∨ sf = 18) →
    (tabFind s.planeOwner s.wk.core = none ∨ tabFind s.planeOwner s.wk.core = some s.curKey) →
    sh.size 0 ≤ 128 → sh.size 0 % len = 0 → sh.size 2 = 1 → sh.size 3 = 1 → sh.size 1 ≤ (if f.zm then 256 else 512) →
    sh.fits (fmtWidth sf) = true → (p.fixed = true → p.wb = wb ∧ p.lb = len) →
    readSrc f.a8 (some (fmtWidth sf)) s = .ok (a, t) →
    (∀ i < sh.slots, exactSlot sf len s.view.ftz (s.wk.front f.b8.toNat) a i = .ok (xs i)) →
    let cols := (chunks (sh.size 0) (sh.size 1) ((List.range sh.slots).map xs)).map (bandColumn wb f.lo3 len (sh.size 0))
    exec (.mldb f) o =
      .next ((t.setWk { t.wk with shadow := t.wk.shadow.setBand f.d8.toNat wb len cols }).afterE .M f 0
        [.qsat (cols.map Column.sats).sum]) := by
  intro s wb len sh p hsf hbank hplanes h0 hdiv h2 h3 h1 hfit hfixed hread hxs cols
  have hlen : lbLen f.ms = len := lbLen_eq _
  have hlegal : (decide (sh.size 0 ≤ 128) && sh.size 0 % len == 0 && sh.size 2 == 1 && sh.size 3 == 1 &&
      decide (sh.size 1 ≤ if f.zm then 256 else 512) && sh.fits (fmtWidth sf) && (!p.fixed || (p.wb == wb && p.lb == len))) = true := by
    have hp : (!p.fixed || (p.wb == wb && p.lb == len)) = true := by
      cases hf : p.fixed with
      | false => rfl
      | true =>
        obtain ⟨hw, hl⟩ := hfixed hf
        rw [hw, hl]
        simp
    rw [decide_eq_true h0, hdiv, h2, h3, decide_eq_true h1, hfit, hp]
    rfl
  have hvals : listM (exactSlot sf len s.view.ftz (s.wk.front f.b8.toNat) a) (upFrom 0 sh.slots) = .ok ((List.range sh.slots).map xs) := by
    refine (listM_ok (v := xs) sh.slots 0 fun i _ hi => hxs i (by omega)).trans ?_
    simp only [Nat.zero_add]
  rw [exec_mldb, execMldb, hlen]
  refine go_run h ?_
  dsimp only
  rw [m_bind_ok (ldbBank_ok hsf hbank), m_bind_ok hsf, m_bind_ok (awaitPlanes_ok hplanes), m_bind_ok (m_look id _)]
  dsimp only [id]
  rw [m_bind_ok (legal_ok hlegal _), m_bind_ok hread]
  refine (m_bind_ok ((congrArg (fun r => M.lift r _) hvals).trans (lift_ok _ _))).trans ?_
  rfl

/-! ## Ranking -/

/-- R187, R198: ranking the lines of a register. -/
theorem mrank_ok (f : E64) (o t : State) (a : Src) (h : Turn.Go .M f o) :
    let s := o.gained .M f
    moveChecks f 32 id s = .ok ((), s) → s.view.shape.width = 32 →
    s.view.shape.size 0 ≤ 512 → readSrc f.a8 (some 32) s = .ok (a, t) →
    let x := fun (i : Nat) => readNum 0 false (a.slot 32 i)
    exec (.mrank f) o = .next (t.afterE .M f 3 [t.deliver f.d8 t.view.shape.slots 32
      ⟨t.took f f.d8 32 fun i => (t.line f 0 i).countP fun j => decide (j ≠ i) && ranksBefore (x j) (x i) (decide (j < i)),
        0, none, a.map⟩]) := by
  intro s hc hw h0 hread x
  have hlegal : (s.view.shape.width == 32 && decide (s.view.shape.size 0 ≤ 512)) = true := by
    rw [hw, decide_eq_true h0]
    rfl
  rw [exec_mrank, execMrank]
  refine go_run h ?_
  rw [m_bind_ok hc, m_bind_ok (m_look State.view _), m_bind_ok (legal_ok hlegal _), m_bind_ok hread]
  dsimp only
  rw [m_bind_ok (moveSlots_ok (v := fun i => (t.line f 0 i).countP fun j => decide (j ≠ i) && ranksBefore (x j) (x i) (decide (j < i)))
    fun i _ => ?_)]
  · exact deliverShape_ok _ _ _ _ _
  · rw [activeLine_eq, List.countP_eq_length_filter]
    refine congrArg (fun l : List Nat => (Except.ok l.length : Except Stop Nat)) (List.filter_congr fun j _ => ?_)
    refine congrArg (· && _) ?_
    by_cases hij : j = i
    · simp [hij]
    · simp [hij]

end Sys2Proof.Machine
end

section
/-! PROOF. Multiplying by the active plane (O42). -/
namespace Sys2Proof.Machine
open Sys2Proof

theorem tile_cell_inj (t : Tile) {r r' n n' : Nat} (hn : n < t.cols.toNat) (hn' : n' < t.cols.toNat) :
    t.cell r n = t.cell r' n' ↔ r = r' ∧ n = n' := by
  unfold Tile.cell
  constructor
  · intro h
    have hr : r = r' := by
      have h1 : (t.cols.toNat * r + n) / t.cols.toNat = r := by rw [Nat.mul_add_div (by omega), Nat.div_eq_of_lt hn, Nat.add_zero]
      have h2 : (t.cols.toNat * r' + n') / t.cols.toNat = r' := by rw [Nat.mul_add_div (by omega), Nat.div_eq_of_lt hn', Nat.add_zero]
      rw [← h1, ← h2, Nat.mul_comm t.cols.toNat r, Nat.mul_comm t.cols.toNat r']
      congr 1
      omega
    subst hr
    exact ⟨rfl, by omega⟩
  · rintro ⟨rfl, rfl⟩
    rfl

/-- The blocks of one row, of the blocks of all rows. -/
theorem filter_row (nb m r : Nat) (hr : r < m) :
    (List.range (m * nb)).filter (fun b => b / nb == r) = (List.range nb).map fun j => r * nb + j := by
  induction m with
  | zero => omega
  | succ m ih =>
    rw [Nat.succ_mul, List.range_add, List.filter_append]
    have hlast : ∀ j ∈ List.range nb, (m * nb + j) / nb = m := by
      intro j hj
      have hj := List.mem_range.mp hj
      rw [Nat.mul_comm, Nat.mul_add_div (by omega), Nat.div_eq_of_lt hj, Nat.add_zero]
    by_cases hm : r = m
    · subst hm
      have h1 : (List.range (r * nb)).filter (fun b => b / nb == r) = [] := by
        refine List.filter_eq_nil_iff.mpr fun b hb => ?_
        have hb := List.mem_range.mp hb
        have : b / nb < r := Nat.div_lt_of_lt_mul (by rwa [Nat.mul_comm])
        rw [beq_iff_eq]
        omega
      rw [h1, List.nil_append]
      refine List.filter_eq_self.mpr fun b hb => ?_
      obtain ⟨j, hj, rfl⟩ := List.mem_map.mp hb
      rw [beq_iff_eq, hlast j hj]
    · have h2 : ((List.range nb).map (m * nb + ·)).filter (fun b => b / nb == r) = [] := by
        refine List.filter_eq_nil_iff.mpr fun b hb => ?_
        obtain ⟨j, hj, rfl⟩ := List.mem_map.mp hb
        rw [beq_iff_eq, hlast j hj]
        omega
      rw [h2, List.append_nil, ih (by omega)]

theorem filter_range_eq (k n : Nat) (hn : n < k) : (List.range k).filter (fun x => x == n) = [n] := by
  induction k with
  | zero => omega
  | succ k ih =>
    rw [List.range_succ, List.filter_append]
    by_cases h : n = k
    · subst h
      have : (List.range n).filter (fun x => x == n) = [] := by
        refine List.filter_eq_nil_iff.mpr fun b hb => ?_
        have := List.mem_range.mp hb
        rw [beq_iff_eq]
        omega
      rw [this]
      simp
    · rw [ih (by omega)]
      simp [Ne.symm h]

/-- Of the product terms, those that go to the cell of row `r` and column `n`: one for each block, in order. -/
theorem filter_products (t : Tile) (nb m r n : Nat) (term : Nat → Nat → XReal) (hr : r < m) (hn : n < t.cols.toNat) :
    (((List.range (m * nb)).flatMap fun b => (List.range t.cols.toNat).map fun k => (t.cell (b / nb) k, term b k)).filter
      fun e => e.1 == t.cell r n) = (List.range nb).map fun j => (t.cell r n, term (r * nb + j) n) := by
  have hrow : ∀ b, ((List.range t.cols.toNat).map fun k => (t.cell (b / nb) k, term b k)).filter (fun e => e.1 == t.cell r n) =
      if b / nb == r then [(t.cell r n, term b n)] else [] := by
    intro b
    rw [List.filter_map]
    by_cases hb : b / nb = r
    · have hf : (List.range t.cols.toNat).filter ((fun e : Nat × XReal => e.1 == t.cell r n) ∘ fun k => (t.cell (b / nb) k, term b k)) =
          (List.range t.cols.toNat).filter fun x => x == n := by
        refine List.filter_congr fun k hk => ?_
        show (t.cell (b / nb) k == t.cell r n) = (k == n)
        rw [Bool.eq_iff_iff, beq_iff_eq, beq_iff_eq, tile_cell_inj t (List.mem_range.mp hk) hn]
        exact and_iff_right hb
      rw [hf, filter_range_eq _ _ hn, if_pos (by rw [hb, beq_self_eq_true]), List.map_singleton, hb]
    · rw [if_neg (by rw [beq_iff_eq]; exact hb)]
      rw [List.map_eq_nil_iff, List.filter_eq_nil_iff]
      intro k hk
      show ¬ (t.cell (b / nb) k == t.cell r n) = true
      rw [beq_iff_eq, tile_cell_inj t (List.mem_range.mp hk) hn]
      exact fun x => hb x.1
  have hsplit : ∀ l : List Nat, (l.flatMap fun b => (List.range t.cols.toNat).map fun k => (t.cell (b / nb) k, term b k)).filter
      (fun e => e.1 == t.cell r n) = (l.filter fun b => b / nb == r).map fun b => (t.cell r n, term b n) := by
    intro l
    induction l with
    | nil => rfl
    | cons b l ih =>
      rw [List.flatMap_cons, List.filter_append, hrow, ih, List.filter_cons]
      by_cases hb : (b / nb == r) = true
      · rw [if_pos hb, if_pos hb]
        rfl
      · rw [if_neg hb, if_neg hb]
        rfl
  rw [hsplit, filter_row nb m r hr, List.map_map]
  rfl

/-- R178 to R181, R196, R197: what multiplying by the active plane does. -/
theorem mmul_ok (f : E64) (o t : State) (a : Src) (sf wa : Nat) (h : Turn.Go .M f o) :
    let s := o.gained .M f
    let p := s.wk.active
    let sh := s.view.shape
    let tile := s.view.tile f.d8.toNat
    let nb := sh.size 0 / p.lb
    let blk := aBlock sf wa p.lb f.lo3 s.view.ftz a
    mulFormat f p.lb s = .ok ((sf, wa), s) → mulOk sh tile p sf wa = true →
    (tabFind s.planeOwner s.wk.core = none ∨ tabFind s.planeOwner s.wk.core = some s.curKey) →
    readSrc f.a8 (some (fmtWidth sf)) s = .ok (a, t) →
    let cells := (List.range (sh.size 1 * tile.cols.toNat)).map (tile.base.toNat + ·)
    let u := (t.mendCells cells).addTerms tile.anch ((List.range (sh.size 1 * nb)).flatMap fun b =>
      (List.range tile.cols.toNat).map fun n => (tile.cell (b / nb) n, productTerm p wa (b % nb) n (blk b)))
    (∀ x, t.cellCheck cells = some x → exec (.mmul f) o = .next (o.machineCheck o.wk 3 2 x o.st.pc)) ∧
    (t.cellCheck cells = none → exec (.mmul f) o = .next (u.afterE .M f 0
        [.qsat ((List.range (sh.size 1 * nb)).countP fun b => (blk b).sat)]) ∧
      (∀ r < sh.size 1, ∀ n < tile.cols.toNat, u.wk.cell (tile.cell r n) =
        (List.range nb).foldl (fun c j => admitTerm tile.anch (productTerm p wa j n (blk (r * nb + j))) c)
          (t.wk.cell (tile.cell r n))) ∧
      (∀ i, (∀ r < sh.size 1, ∀ n < tile.cols.toNat, i ≠ tile.cell r n) → u.wk.cell i = t.wk.cell i) ∧
      u.wk = { t.wk with cells := u.wk.cells }) := by
  intro s p sh tile nb blk hf hok hplanes hread cells u
  have hcells : upFrom tile.base.toNat (sh.size 1 * tile.cols.toNat) = cells := upFrom_eq _ _
  have huwk : u.wk = t.wk.addTerms tile.anch ((List.range (sh.size 1 * nb)).flatMap fun b =>
      (List.range tile.cols.toNat).map fun n => (tile.cell (b / nb) n, productTerm p wa (b % nb) n (blk b))) := by
    simp only [u]
    rw [addTerms_wk, mendCells_wk]
  refine ⟨fun x hx => ?_, fun hx => ⟨?_, fun r hr n hn => ?_, fun i hi => ?_, ?_⟩⟩
  · rw [exec_mmul, execMmul]
    refine go_machine .M h ?_
    rw [m_bind_ok (m_look id _)]
    dsimp only [id]
    rw [m_bind_ok hf]
    dsimp only
    rw [m_bind_ok (legal_ok hok _), m_bind_ok (awaitPlanes_ok hplanes), m_bind_ok hread]
    refine m_bind_error (meetCells_some ?_)
    exact hcells ▸ hx
  · have hterms : (((upFrom 0 (sh.size 1 * nb)).map fun b => (b, blk b)).flatMap fun b =>
        (upFrom 0 tile.cols.toNat).map fun n => (tile.cell (b.1 / nb) n, productTerm p wa (b.1 % nb) n b.2)) =
        (List.range (sh.size 1 * nb)).flatMap fun b =>
          (List.range tile.cols.toNat).map fun n => (tile.cell (b / nb) n, productTerm p wa (b % nb) n (blk b)) := by
      rw [upFrom_zero, upFrom_zero, List.flatMap_map]
    have hcount : (((upFrom 0 (sh.size 1 * nb)).map fun b => (b, blk b)).filter fun b => b.2.sat).length =
        (List.range (sh.size 1 * nb)).countP fun b => (blk b).sat := by
      rw [upFrom_zero, ← List.countP_eq_length_filter, List.countP_map]
      rfl
    rw [exec_mmul, execMmul]
    refine go_run h ?_
    rw [m_bind_ok (m_look id _)]
    dsimp only [id]
    rw [m_bind_ok hf]
    dsimp only
    rw [m_bind_ok (legal_ok hok _), m_bind_ok (awaitPlanes_ok hplanes), m_bind_ok hread]
    refine (m_bind_ok (meetCells_none (hcells ▸ hx))).trans ?_
    rw [m_bind_ok (m_change _ _)]
    refine (congrArg₂ (fun l c => (Except.ok (Issue.after 0 [Landing.qsat c], (t.mendCells (upFrom tile.base.toNat
      (sh.size 1 * tile.cols.toNat))).addTerms tile.anch l) : Except Stop (Issue × State))) hterms hcount).trans ?_
    rw [hcells]
  · rw [huwk, addTerms_cell, filter_products tile nb (sh.size 1) r n (fun b n => productTerm p wa (b % nb) n (blk b)) hr hn,
      List.foldl_map]
    refine List.foldl_ext _ _ _ fun c j hj => ?_
    have hj := List.mem_range.mp hj
    rw [Nat.add_comm, Nat.mul_comm r nb, Nat.add_mul_mod_self_left, Nat.mod_eq_of_lt hj]
  · rw [huwk, addTerms_cell]
    have hnone : ((List.range (sh.size 1 * nb)).flatMap fun b =>
        (List.range tile.cols.toNat).map fun n => (tile.cell (b / nb) n, productTerm p wa (b % nb) n (blk b))).filter
        (fun e => e.1 == i) = [] := by
      refine List.filter_eq_nil_iff.mpr fun e he => ?_
      obtain ⟨b, hb, he⟩ := List.mem_flatMap.mp he
      obtain ⟨n, hn, rfl⟩ := List.mem_map.mp he
      have hb := List.mem_range.mp hb
      have hr : b / nb < sh.size 1 := Nat.div_lt_of_lt_mul (by rwa [Nat.mul_comm])
      rw [beq_iff_eq]
      exact fun x => hi _ hr n (List.mem_range.mp hn) x.symm
    rw [hnone]
    rfl
  · rw [huwk]
    exact addTerms_shape _ _ _

/-- Settles O42. -/
theorem tilesAndTheArray : Obligations.TilesAndTheArray :=
  ⟨fun _ _ h => ⟨mzclr_ok h, mzcnt_ok h, mswap_ok h⟩, mrdz_ok, mldb_ok, mmul_ok, mrank_ok, admitTerm_gives,
    fun fmt rm n sat ftz anchor c _ _ => readCell_gives fmt rm n sat ftz anchor c⟩

end Sys2Proof.Machine
end

section
/-! PROOF. What the edits of a sheaf bank make of its cells (O43). -/
namespace Sys2Proof.Machine
open Sys2Proof

/-! ## Edits of cells -/

theorem edited_append (w : Worker) (l r : List (Nat × Edit)) : w.edited (l ++ r) = (w.edited l).edited r := List.foldl_append

theorem edited_rest (l : List (Nat × Edit)) : ∀ w : Worker, w.edited l = { w with cells := (w.edited l).cells } := by
  induction l with
  | nil => exact fun w => rfl
  | cons e r ih =>
    intro w
    have h : w.edited (e :: r) = (w.setCell e.1 (BitVec.ofNat 256 (e.2.run (w.cell e.1).toNat))).edited r := rfl
    rw [h, ih]
    rfl

theorem edited_other (l : List (Nat × Edit)) (c : Nat) : ∀ w : Worker, (∀ e ∈ l, e.1 ≠ c) → (w.edited l).cell c = w.cell c := by
  induction l with
  | nil => exact fun w _ => rfl
  | cons e r ih =>
    intro w h
    have he : w.edited (e :: r) = (w.setCell e.1 (BitVec.ofNat 256 (e.2.run (w.cell e.1).toNat))).edited r := rfl
    rw [he, ih _ fun x hx => h x (List.mem_cons_of_mem _ hx), cell_setCell, if_neg fun x => h e List.mem_cons_self x.symm]

/-- A cell that one edit of a list names. -/
theorem edited_one (l : List (Nat × Edit)) (c : Nat) (e : Edit) : ∀ w : Worker, (l.map Prod.fst).Nodup → (c, e) ∈ l →
    (w.edited l).cell c = BitVec.ofNat 256 (e.run (w.cell c).toNat) := by
  induction l with
  | nil => exact fun w _ h => by cases h
  | cons x r ih =>
    intro w hn hm
    rw [List.map_cons, List.nodup_cons] at hn
    have he : w.edited (x :: r) = (w.setCell x.1 (BitVec.ofNat 256 (x.2.run (w.cell x.1).toNat))).edited r := rfl
    rw [he]
    rcases List.mem_cons.mp hm with rfl | hm
    · rw [edited_other _ _ _ fun y hy hc => hn.1 (List.mem_map.mpr ⟨y, hy, hc⟩), cell_setCell, if_pos rfl]
    · have hne : c ≠ x.1 := fun hc => hn.1 (List.mem_map.mpr ⟨(c, e), hm, hc⟩)
      rw [ih _ hn.2 hm, cell_setCell, if_neg hne]

theorem run_whole (x v : Nat) : BitVec.ofNat 256 ((Edit.put 0 256 x).run v) = BitVec.ofNat 256 x := by
  refine BitVec.eq_of_getLsbD_eq fun k hk => ?_
  rw [BitVec.getLsbD_ofNat, BitVec.getLsbD_ofNat, testBit_putEdit, if_pos ⟨Nat.zero_le _, by omega⟩, Nat.sub_zero]

theorem run_term (anchor : Int) (y : XReal) (c : BitVec 256) :
    BitVec.ofNat 256 ((Edit.add (admitTerm anchor y 0)).run c.toNat) = admitTerm anchor y c := by
  rw [addEdit_run, BitVec.ofNat_toNat, BitVec.setWidth_eq]

theorem run_cell (a c : BitVec 256) : BitVec.ofNat 256 ((Edit.add c).run a.toNat) =
    BitVec.ofNat 256 ((a.toNat + c.toNat) % 2 ^ 240 + 2 ^ 240 * (a.toNat / 2 ^ 240 % 32 ||| c.toNat / 2 ^ 240 % 32)) := by
  show BitVec.ofNat 256 (addCellPair (BitVec.ofNat 256 a.toNat) c).toNat = _
  rw [BitVec.ofNat_toNat, BitVec.setWidth_eq, BitVec.ofNat_toNat, BitVec.setWidth_eq]
  unfold addCellPair cellOf cellV cellFlags
  rw [bits_eq, bits_eq, Nat.shiftLeft_eq, ← Nat.add_mod, Nat.mul_comm (2 ^ 240), show 2 ^ 5 = 32 from rfl]

/-! ## Entries -/

/-- The edits of all cells of an entry: its sums, and its count cell. -/
def Sheaf.entryEdits (h : Sheaf) (i : Nat) (g : Nat → Edit) (n : Nat) (valid : Bool) : List (Nat × Edit) :=
  h.onSums i g ++ [h.setCount i n valid]

theorem entryEdits_keys (h : Sheaf) (i : Nat) (g : Nat → Edit) (n : Nat) (valid : Bool) :
    (h.entryEdits i g n valid).map Prod.fst = (List.range (h.dim.toNat + 1)).map (h.cell i) := by
  unfold Sheaf.entryEdits Sheaf.onSums Sheaf.setCount
  rw [upFrom_zero, List.range_succ, List.map_append, List.map_append, List.map_map]
  rfl

theorem entryEdits_nodup (h : Sheaf) (i : Nat) (g : Nat → Edit) (n : Nat) (valid : Bool) :
    ((h.entryEdits i g n valid).map Prod.fst).Nodup := by
  rw [entryEdits_keys]
  refine List.Nodup.map (fun a b hab => ?_) List.nodup_range
  unfold Sheaf.cell at hab
  omega

/-- The edits of an entry make the entry. -/
theorem entry_edited (w : Worker) (h : Sheaf) (i : Nat) (g : Nat → Edit) (n : Nat) (valid : Bool) (sum : Nat → BitVec 256)
    (hs : ∀ k < h.dim.toNat, BitVec.ofNat 256 ((g k).run (w.cell (h.cell i k)).toNat) = sum k) :
    w.Entry h i sum n valid (w.edited (h.entryEdits i g n valid)) := by
  refine ⟨fun k hk => ?_, ?_, fun c hc => ?_, edited_rest _ _⟩
  · rw [← hs k hk]
    refine edited_one _ _ _ w (entryEdits_nodup ..) (List.mem_append_left _ ?_)
    exact List.mem_map.mpr ⟨k, (mem_upFrom ..).mpr ⟨Nat.zero_le _, by omega⟩, rfl⟩
  · have hc : (w.edited (h.entryEdits i g n valid)).cell (h.cell i h.dim.toNat) =
        BitVec.ofNat 256 (min n (2 ^ 64 - 1) + ofBool valid <<< 64) := by
      rw [edited_one _ _ _ w (entryEdits_nodup ..) (List.mem_append_right _ List.mem_cons_self), run_whole]
    show ((w.edited (h.entryEdits i g n valid)).cell (h.cell i h.dim.toNat)).toNat = _
    rw [hc, BitVec.toNat_ofNat]
    cases valid
    · simp only [ofBool, Bool.false_eq_true, if_false, Nat.zero_shiftLeft]
      omega
    · simp only [ofBool, if_true]
      omega
  · refine edited_other _ _ _ fun e he hec => ?_
    have hmem : e.1 ∈ (h.entryEdits i g n valid).map Prod.fst := List.mem_map_of_mem he
    rw [entryEdits_keys] at hmem
    obtain ⟨k, hk, hke⟩ := List.mem_map.mp hmem
    have hk := List.mem_range.mp hk
    unfold Sheaf.cell at hke
    rw [Nat.add_mul i 1] at hc
    omega

/-- R220: absorb. -/
theorem absorb_absorbed (w : Worker) (h : Sheaf) (i : Nat) (x : List XReal) :
    w.Absorbed h i (nth .nan x) (w.edited (w.absorb h i x)) := by
  have hc : w.entryCount h i = (w.cell (h.base.toNat + i * (h.dim.toNat + 1) + h.dim.toNat)).toNat % 2 ^ 64 := by
    unfold Worker.entryCount Worker.countCell Sheaf.cell
    rw [bits_eq, pow_zero, Nat.div_one]
  unfold Worker.Absorbed
  dsimp only
  rw [← hc]
  exact entry_edited w h i _ _ true _ fun k _ => run_term _ _ _

/-- R220: open. -/
theorem openEntry_opened (w : Worker) (h : Sheaf) (i : Nat) (x : List XReal) :
    w.Opened h i (nth .nan x) (w.edited (h.openEntry i x)) := by
  refine entry_edited w h i _ _ true _ fun k _ => ?_
  rw [run_whole, BitVec.ofNat_toNat, BitVec.setWidth_eq]
  rfl

/-- R220: merge. -/
theorem mergeEntries_merged (w : Worker) (h : Sheaf) (i j : Nat) : w.Merged h i j (w.edited (w.mergeEntries h i j)) := by
  have hc : ∀ i, w.entryCount h i = (w.cell (h.base.toNat + i * (h.dim.toNat + 1) + h.dim.toNat)).toNat % 2 ^ 64 := fun i => by
    unfold Worker.entryCount Worker.countCell Sheaf.cell
    rw [bits_eq, pow_zero, Nat.div_one]
  have hsplit : w.mergeEntries h i j = h.entryEdits i (fun k => .add (w.cell (h.cell j k))) (w.entryCount h i + w.entryCount h j) true ++
      h.entryEdits j (fun _ => .put 0 256 0) 0 false := by
    unfold Worker.mergeEntries Sheaf.entryEdits
    rw [List.append_assoc]
  rw [hsplit, edited_append]
  refine ⟨w.edited (h.entryEdits i (fun k => .add (w.cell (h.cell j k))) (w.entryCount h i + w.entryCount h j) true), ?_, ?_⟩
  · dsimp only
    rw [← hc, ← hc]
    exact entry_edited w h i _ _ true _ fun k _ => run_cell _ _
  · exact entry_edited _ h j _ 0 false _ fun k _ => run_whole 0 _

end Sys2Proof.Machine
end

section
/-! PROOF. Measures, the nearest entry and the closest pair of a sheaf bank (O43). -/
namespace Sys2Proof.Machine
open Sys2Proof

/-! ## The order of measures -/

/-- Where a value stands, the zeros together. -/
def XReal.level (x : XReal) : Int ×ₗ ℚ :=
  toLex (match x with
    | .inf n => if n then -1 else 1
    | _ => 0, x.val)

theorem cmp_level {x y : XReal} (hx : x ≠ .nan) (hy : y ≠ .nan) :
    (x.cmp y = some .lt ↔ x.level < y.level) ∧ (x.cmp y = some .gt ↔ y.level < x.level) := by
  cases x with
  | nan => exact absurd rfl hx
  | inf a =>
    cases y with
    | nan => exact absurd rfl hy
    | inf b => cases a <;> cases b <;> simp [XReal.cmp, XReal.level, XReal.val, Prod.Lex.toLex_lt_toLex]
    | fin => cases a <;> simp [XReal.cmp, XReal.level, Prod.Lex.toLex_lt_toLex]
  | fin na ma ea la =>
    cases y with
    | nan => exact absurd rfl hy
    | inf b => cases b <;> simp [XReal.cmp, XReal.level, Prod.Lex.toLex_lt_toLex]
    | fin nb mb eb lb =>
      rw [cmp_fin rfl rfl]
      simp only [XReal.level, Prod.Lex.toLex_lt_toLex, lt_irrefl, false_or, true_and]
      rcases lt_trichotomy (XReal.fin na ma ea la).val (XReal.fin nb mb eb lb).val with h | h | h
      · simp [h, h.not_gt]
      · simp [h]
      · simp [h, h.not_gt, h.ne']

/-- Nearer among numbers. -/
def Sheaf.Before (h : Sheaf) (a b : XReal) : Prop := if h.metric = 0 then a.level < b.level else b.level < a.level

theorem nearer_level {h : Sheaf} {a b : XReal} (ha : a ≠ .nan) (hb : b ≠ .nan) : h.Nearer a b ↔ h.Before a b := by
  unfold Sheaf.Nearer Sheaf.Before
  obtain ⟨h1, h2⟩ := cmp_level ha hb
  by_cases hm : h.metric = 0
  · rw [if_pos hm, if_pos hm, ← h1]
    exact ⟨fun x => x.2.resolve_left hb, fun x => ⟨ha, Or.inr x⟩⟩
  · rw [if_neg hm, if_neg hm, ← h2]
    exact ⟨fun x => x.2.resolve_left hb, fun x => ⟨ha, Or.inr x⟩⟩

theorem before_trans {h : Sheaf} {a b c : XReal} (h1 : h.Before a b) (h2 : h.Before b c) : h.Before a c := by
  unfold Sheaf.Before at *
  split at h1
  · rename_i hm
    rw [if_pos hm] at h2 ⊢
    exact h1.trans h2
  · rename_i hm
    rw [if_neg hm] at h2 ⊢
    exact h2.trans h1

theorem before_or {h : Sheaf} {a c : XReal} (b : XReal) (h1 : h.Before a c) : h.Before a b ∨ h.Before b c := by
  unfold Sheaf.Before at *
  split at h1
  · rename_i hm
    rw [if_pos hm, if_pos hm]
    exact (lt_or_ge a.level b.level).imp_right fun hle => hle.trans_lt h1
  · rename_i hm
    rw [if_neg hm, if_neg hm]
    exact (lt_or_ge b.level a.level).imp_right fun hle => h1.trans_le hle

theorem nearer_trans {h : Sheaf} {a b c : XReal} (h1 : h.Nearer a b) (h2 : h.Nearer b c) : h.Nearer a c := by
  by_cases hc : c = .nan
  · exact ⟨h1.1, Or.inl hc⟩
  · exact (nearer_level h1.1 hc).mpr (before_trans ((nearer_level h1.1 h2.1).mp h1) ((nearer_level h2.1 hc).mp h2))

theorem nearer_or {h : Sheaf} {a c : XReal} (b : XReal) (h1 : h.Nearer a c) : h.Nearer a b ∨ h.Nearer b c := by
  by_cases hb : b = .nan
  · exact Or.inl ⟨h1.1, Or.inl hb⟩
  · by_cases hc : c = .nan
    · exact Or.inr ⟨hb, Or.inl hc⟩
    · rw [nearer_level h1.1 hb, nearer_level hb hc]
      exact before_or b ((nearer_level h1.1 hc).mp h1)

theorem metric_zero (h : Sheaf) : h.metric.toNat = 0 ↔ h.metric = 0 := by
  rw [BitVec.toNat_eq]
  rfl

theorem nearer_iff (h : Sheaf) (a b : XReal) : nearer h.metric.toNat a b = true ↔ h.Nearer a b := by
  unfold nearer Sheaf.Nearer
  by_cases ha : a = .nan
  · subst ha
    simp [XReal.isNan]
  · rw [if_neg (fun x => ha ((isNan_iff a).mp x))]
    by_cases hb : b = .nan
    · subst hb
      simp [XReal.isNan, ha]
    · rw [if_neg (fun x => hb ((isNan_iff b).mp x)), beq_iff_eq]
      simp only [metric_zero, ha, hb, ne_eq, not_false_eq_true, true_and, false_or]

/-! ## The first of the nearest -/

/-- The first of the nearest of a list: nearer than all before it, and nothing behind it is nearer. -/
theorem nearestOf_spec {α : Type} (h : Sheaf) (l : List (α × XReal)) (hl : l ≠ []) :
    ∃ a y b, l = a ++ y :: b ∧ nearestOf h.metric.toNat l = some y ∧ (∀ z ∈ a, h.Nearer y.2 z.2) ∧ ∀ z ∈ b, ¬ h.Nearer z.2 y.2 := by
  induction l with
  | nil => exact absurd rfl hl
  | cons x r ih =>
    by_cases hr : r = []
    · subst hr
      exact ⟨[], x, [], rfl, rfl, by simp, by simp⟩
    · obtain ⟨a, y, b, hab, hy, h1, h2⟩ := ih hr
      rw [nearestOf, hy]
      dsimp only
      by_cases hn : nearer h.metric.toNat y.2 x.2 = true
      · rw [if_pos hn]
        refine ⟨x :: a, y, b, by rw [hab]; rfl, rfl, ?_, h2⟩
        exact List.forall_mem_cons.mpr ⟨(nearer_iff ..).mp hn, h1⟩
      · rw [if_neg hn]
        have hyx : ¬ h.Nearer y.2 x.2 := fun z => hn ((nearer_iff ..).mpr z)
        refine ⟨[], x, r, rfl, rfl, by simp, fun z hz hzx => ?_⟩
        rw [hab] at hz
        rcases List.mem_append.mp hz with hz | hz
        · exact hyx (nearer_trans (h1 z hz) hzx)
        · rcases List.mem_cons.mp hz with rfl | hz
          · exact hyx hzx
          · exact (nearer_or y.2 hzx).elim (h2 z hz) hyx

/-- The same where the list rises by an order of its elements. -/
theorem nearestOf_rising {α : Type} (h : Sheaf) (lt : α → α → Prop) (hirr : ∀ a, ¬ lt a a) (hasym : ∀ a b, lt a b → ¬ lt b a)
    (l : List (α × XReal)) (hl : l ≠ []) (hp : l.Pairwise fun a b => lt a.1 b.1) :
    ∃ y ∈ l, nearestOf h.metric.toNat l = some y ∧
      ∀ z ∈ l, (lt z.1 y.1 → h.Nearer y.2 z.2) ∧ (lt y.1 z.1 → ¬ h.Nearer z.2 y.2) := by
  obtain ⟨a, y, b, hab, hy, h1, h2⟩ := nearestOf_spec h l hl
  rw [hab, List.pairwise_append, List.pairwise_cons] at hp
  obtain ⟨-, ⟨hyb, -⟩, hax⟩ := hp
  refine ⟨y, by rw [hab]; exact List.mem_append_right _ List.mem_cons_self, hy, fun z hz => ?_⟩
  rw [hab] at hz
  rcases List.mem_append.mp hz with hz | hz
  · exact ⟨fun _ => h1 z hz, fun hlt => absurd hlt (hasym _ _ (hax z hz y List.mem_cons_self))⟩
  · rcases List.mem_cons.mp hz with rfl | hz
    · exact ⟨fun hlt => absurd hlt (hirr _), fun hlt => absurd hlt (hirr _)⟩
    · exact ⟨fun hlt => absurd hlt (hasym _ _ (hyb z hz)), fun _ => h2 z hz⟩

/-! ## The entries in use -/

theorem entryValid_iff (w : Worker) (h : Sheaf) (i : Nat) : i < h.cap.toNat → (w.entryValid h i = true ↔ w.Valid h i) := fun hi =>
  (and_iff_right hi).symm

theorem mem_validEntries (w : Worker) (h : Sheaf) (i : Nat) : i ∈ w.validEntries h ↔ w.Valid h i := by
  unfold Worker.validEntries
  rw [List.mem_filter, mem_upFrom]
  constructor
  · rintro ⟨⟨-, hi⟩, hv⟩
    exact (entryValid_iff w h i (by omega)).mp hv
  · exact fun hv => ⟨⟨Nat.zero_le _, by have := hv.1; omega⟩, hv.2⟩

theorem validEntries_rising (w : Worker) (h : Sheaf) : (w.validEntries h).Pairwise (· < ·) := by
  unfold Worker.validEntries
  rw [upFrom_zero]
  exact List.Pairwise.filter _ List.pairwise_lt_range

theorem mem_bankCells (w : Worker) (h : Sheaf) (c : Nat) : c ∈ w.bankCells h ↔
    ∃ i, i < h.cap.toNat ∧ (c = h.base.toNat + i * (h.dim.toNat + 1) + h.dim.toNat ∨
      w.Valid h i ∧ ∃ k < h.dim.toNat, c = h.base.toNat + i * (h.dim.toNat + 1) + k) := by
  unfold Worker.bankCells
  rw [List.mem_append, List.mem_map, List.mem_flatMap]
  constructor
  · rintro (⟨i, hi, rfl⟩ | ⟨i, hi, hc⟩)
    · exact ⟨i, by have := (mem_upFrom ..).mp hi; omega, Or.inl rfl⟩
    · obtain ⟨k, hk, rfl⟩ := List.mem_map.mp hc
      have hv := (mem_validEntries ..).mp hi
      exact ⟨i, hv.1, Or.inr ⟨hv, k, by have := (mem_upFrom ..).mp hk; omega, rfl⟩⟩
  · rintro ⟨i, hi, rfl | ⟨hv, k, hk, rfl⟩⟩
    · exact Or.inl ⟨i, (mem_upFrom ..).mpr ⟨Nat.zero_le _, by omega⟩, rfl⟩
    · exact Or.inr ⟨i, (mem_validEntries ..).mpr hv, List.mem_map.mpr ⟨k, (mem_upFrom ..).mpr ⟨Nat.zero_le _, by omega⟩, rfl⟩⟩

theorem freeEntry_some {w : Worker} {h : Sheaf} {i : Nat} (hi : w.LowestFree h i) : w.freeEntry h = some i := by
  obtain ⟨hlt, hv, hall⟩ := hi
  unfold Worker.freeEntry
  rw [upFrom_zero, List.find?_range_eq_some]
  refine ⟨?_, List.mem_range.mpr hlt, fun j hj => ?_⟩
  · rw [Bool.not_eq_true', Bool.eq_false_iff]
    exact fun x => hv ((entryValid_iff w h i hlt).mp x)
  · rw [Bool.not_not]
    exact (entryValid_iff w h j (by omega)).mpr (hall j hj)

theorem freeEntry_none {w : Worker} {h : Sheaf} (hf : ∀ i, ¬ w.LowestFree h i) : w.freeEntry h = none := by
  cases he : w.freeEntry h with
  | none => rfl
  | some i =>
    unfold Worker.freeEntry at he
    rw [upFrom_zero, List.find?_range_eq_some] at he
    obtain ⟨h1, h2, h3⟩ := he
    have hlt := List.mem_range.mp h2
    refine absurd ⟨hlt, fun hv => ?_, fun j hj => ?_⟩ (hf i)
    · rw [(entryValid_iff w h i hlt).mpr hv] at h1
      cases h1
    · have := h3 j hj
      rw [Bool.not_not] at this
      exact (entryValid_iff w h j (by omega)).mp this

/-! ## Centroids and measures -/

theorem near_eq (ftz : Bool) (x : XReal) : near ftz x = f32Near ftz x := rfl

theorem centroid_eq (w : Worker) (h : Sheaf) (ftz : Bool) (i : Nat) :
    w.centroid h ftz i = (List.range h.dim.toNat).map (w.cen h ftz i) := by
  unfold Worker.centroid
  rw [upFrom_zero]
  refine List.map_congr_left fun k _ => ?_
  have hc : w.entryCount h i = (w.cell (h.base.toNat + i * (h.dim.toNat + 1) + h.dim.toNat)).toNat % 2 ^ 64 := by
    unfold Worker.entryCount Worker.countCell Sheaf.cell
    rw [bits_eq, pow_zero, Nat.div_one]
  unfold centroidBits Worker.cen
  dsimp only
  rw [hc]
  by_cases hz : (w.cell (h.base.toNat + i * (h.dim.toNat + 1) + h.dim.toNat)).toNat % 2 ^ 64 = 0 ∧
      (cellValue h.anchor.toInt (w.cell (h.base.toNat + i * (h.dim.toNat + 1) + k))).isFin = true
  · rw [if_pos hz]
    exact congrArg (readF32 false) (if_pos hz)
  · rw [if_neg hz]
    exact congrArg (readF32 false) (if_neg hz)

/-- R219: the measure of a key to an entry. -/
theorem measure_dist (w : Worker) (h : Sheaf) (ftz : Bool) (x : Nat → XReal) (i : Nat) :
    measure h.metric.toNat ftz ((List.range h.dim.toNat).map x) (w.centroid h ftz i) = w.dist h ftz x i := by
  unfold measure Worker.dist
  dsimp only
  rw [centroid_eq, List.zip_map', List.map_map, near_eq]
  congr 2
  refine List.map_congr_left fun k _ => ?_
  simp only [Function.comp, metric_zero, near_eq]

theorem keys_map (key : List Nat) (n : Nat) (g : Nat → XReal) (hlen : key.length = n) :
    key.map g = (List.range n).map fun k => g (nth 0 key k) := by
  subst hlen
  conv_lhs => rw [← range_map_nth 0 key, List.map_map]
  rfl

/-- R219: the nearest entry. -/
theorem nearest_found {w : Worker} {h : Sheaf} {ftz : Bool} {x : Nat → XReal} {i : Nat} (hn : w.Nearest h ftz x i) :
    nearestOf h.metric.toNat ((w.validEntries h).map fun i =>
      (i, measure h.metric.toNat ftz ((List.range h.dim.toNat).map x) (w.centroid h ftz i))) = some (i, w.dist h ftz x i) := by
  simp only [measure_dist]
  have hmem : (i, w.dist h ftz x i) ∈ (w.validEntries h).map fun i => (i, w.dist h ftz x i) :=
    List.mem_map.mpr ⟨i, (mem_validEntries ..).mpr hn.1, rfl⟩
  obtain ⟨y, hy, he, hall⟩ := nearestOf_rising h (fun a b : Nat => a < b) (fun a => lt_irrefl a) (fun a b => fun x => x.not_gt)
    ((w.validEntries h).map fun i => (i, w.dist h ftz x i)) (List.ne_nil_of_mem hmem)
    (List.Pairwise.map _ (fun a b hab => hab) (validEntries_rising w h))
  obtain ⟨n, hv, rfl⟩ := List.mem_map.mp hy
  obtain ⟨h1, h2⟩ := hall _ hmem
  obtain ⟨h3, h4⟩ := hn.2 n ((mem_validEntries ..).mp hv)
  have hin : n = i := by
    rcases lt_trichotomy n i with hlt | heq | hgt
    · exact absurd (h3 hlt) (h2 hlt)
    · exact heq
    · exact absurd (h1 hgt) (h4 hgt)
  rw [he, hin]

/-! ## The closest pair -/

/-- The pairs of entries in use, lexicographically rising, with their distances. -/
def Worker.pairs (w : Worker) (h : Sheaf) (ftz : Bool) : List ((Nat × Nat) × XReal) :=
  (w.validEntries h).flatMap fun a => ((w.validEntries h).filter fun b => decide (a < b)).map fun b =>
    ((a, b), w.dist h ftz (w.cen h ftz a) b)

/-- Lexicographically lower. -/
def pairBelow (p q : Nat × Nat) : Prop := p.1 < q.1 ∨ p.1 = q.1 ∧ p.2 < q.2

theorem closestPair_eq (w : Worker) (h : Sheaf) (ftz : Bool) :
    w.closestPair h ftz = (nearestOf h.metric.toNat (w.pairs h ftz)).map Prod.fst := by
  unfold Worker.closestPair Worker.pairs
  dsimp only
  rw [List.flatMap_map]
  congr 2
  refine congrArg ((w.validEntries h).flatMap ·) (funext fun a => ?_)
  rw [List.filter_map, List.map_map]
  refine List.map_congr_left fun b _ => ?_
  show ((a, b), measure h.metric.toNat ftz (w.centroid h ftz a) (w.centroid h ftz b)) = _
  rw [centroid_eq w h ftz a, measure_dist]

theorem mem_pairs (w : Worker) (h : Sheaf) (ftz : Bool) (e : (Nat × Nat) × XReal) : e ∈ w.pairs h ftz ↔
    w.Valid h e.1.1 ∧ w.Valid h e.1.2 ∧ e.1.1 < e.1.2 ∧ e.2 = w.dist h ftz (w.cen h ftz e.1.1) e.1.2 := by
  obtain ⟨⟨a, b⟩, m⟩ := e
  unfold Worker.pairs
  rw [List.mem_flatMap]
  constructor
  · rintro ⟨i, hi, he⟩
    obtain ⟨j, hj, heq⟩ := List.mem_map.mp he
    cases heq
    obtain ⟨hv, hlt⟩ := List.mem_filter.mp hj
    exact ⟨(mem_validEntries ..).mp hi, (mem_validEntries ..).mp hv, of_decide_eq_true hlt, rfl⟩
  · rintro ⟨h1, h2, h3, h4⟩
    dsimp only at h1 h2 h3 h4
    exact ⟨a, (mem_validEntries ..).mpr h1, List.mem_map.mpr ⟨b, List.mem_filter.mpr ⟨(mem_validEntries ..).mpr h2, decide_eq_true h3⟩,
      by rw [h4]⟩⟩

theorem pairs_rising (w : Worker) (h : Sheaf) (ftz : Bool) : (w.pairs h ftz).Pairwise fun a b => pairBelow a.1 b.1 := by
  unfold Worker.pairs
  rw [List.pairwise_flatMap]
  refine ⟨fun a _ => ?_, ?_⟩
  · exact List.Pairwise.map _ (fun b c hbc => Or.inr ⟨rfl, hbc⟩) ((validEntries_rising w h).filter _)
  · refine (validEntries_rising w h).imp fun {a b} hab x hx y hy => ?_
    obtain ⟨i, -, rfl⟩ := List.mem_map.mp hx
    obtain ⟨j, -, rfl⟩ := List.mem_map.mp hy
    exact Or.inl hab

/-- What the search for the closest pair finds is closest, and it finds one where there are pairs. -/
theorem closestPair_spec (w : Worker) (h : Sheaf) (ftz : Bool) :
    (w.closestPair h ftz = none ∧ ∀ a b, ¬ w.Closest h ftz a b) ∨
      ∃ i j, w.closestPair h ftz = some (i, j) ∧ w.Closest h ftz i j := by
  rw [closestPair_eq]
  by_cases hl : w.pairs h ftz = []
  · refine Or.inl ⟨by rw [hl]; rfl, fun a b ⟨h1, h2, h3, _⟩ => ?_⟩
    have : ((a, b), w.dist h ftz (w.cen h ftz a) b) ∈ w.pairs h ftz := (mem_pairs ..).mpr ⟨h1, h2, h3, rfl⟩
    rw [hl] at this
    cases this
  · obtain ⟨y, hy, he, hall⟩ := nearestOf_rising h pairBelow (fun a x => by unfold pairBelow at x; omega)
      (fun a b x y => by unfold pairBelow at x y; omega) _ hl (pairs_rising w h ftz)
    obtain ⟨⟨i, j⟩, m⟩ := y
    obtain ⟨h1, h2, h3, h4⟩ := (mem_pairs ..).mp hy
    dsimp only at h1 h2 h3 h4
    refine Or.inr ⟨i, j, by rw [he]; rfl, h1, h2, h3, fun a b ha hb hab => ?_⟩
    obtain ⟨h5, h6⟩ := hall ((a, b), w.dist h ftz (w.cen h ftz a) b) ((mem_pairs ..).mpr ⟨ha, hb, hab, rfl⟩)
    dsimp only at h5 h6
    rw [h4] at h5 h6
    exact ⟨h5, h6⟩

/-- The closest pair is one. -/
theorem closest_unique {w : Worker} {h : Sheaf} {ftz : Bool} {i j a b : Nat} (h1 : w.Closest h ftz i j) (h2 : w.Closest h ftz a b) :
    (i, j) = (a, b) := by
  obtain ⟨vi, vj, hij, ho⟩ := h1
  obtain ⟨va, vb, hab, hp⟩ := h2
  obtain ⟨o1, o2⟩ := ho a b va vb hab
  obtain ⟨p1, p2⟩ := hp i j vi vj hij
  by_cases hlt : a < i ∨ a = i ∧ b < j
  · exact absurd (o1 hlt) (p2 hlt)
  · by_cases hgt : i < a ∨ i = a ∧ j < b
    · exact absurd (p1 hgt) (o2 hgt)
    · rw [Prod.mk.injEq]
      omega

end Sys2Proof.Machine
end

section
/-! PROOF. One indivisible event on a sheaf bank, and what a key of a `shins` does (O43). -/
namespace Sys2Proof.Machine
open Sys2Proof

/-! ## One write of M -/

theorem noteEvent_writes (l : List (Nat × Edit)) (n : Nat) (a : Author) (key : Nat) : ∀ t : State, ∃ new,
    l.foldl (fun t e => t.recordAs n a .rc (.cell key) e.1 e.2) t =
      { t with writes := (l.foldl (fun t e => t.recordAs n a .rc (.cell key) e.1 e.2) t).writes } ∧
    (l.foldl (fun t e => t.recordAs n a .rc (.cell key) e.1 e.2) t).writes = new ++ t.writes ∧
    (∀ e ∈ l, ∃ x ∈ new, x.line = e.1) ∧
    ∀ x ∈ new, x.spot = .cell key ∧ x.who = a.who ∧ x.pos = a.pos ∧ x.reach = a.reach ∧ x.done = a.done ∧ x.id = n := by
  induction l with
  | nil => exact fun t => ⟨[], rfl, rfl, by simp, by simp⟩
  | cons e r ih =>
    intro t
    obtain ⟨new, hs, hw, hall, hnew⟩ := ih (t.recordAs n a .rc (.cell key) e.1 e.2)
    rw [List.foldl_cons]
    refine ⟨new ++ [⟨n, .cell key, e.1, t.lineNow (.cell key) e.1, e.2, a.who, a.pos, .rc, a.reach, none, [], a.done⟩], ?_, ?_,
      List.forall_mem_cons.mpr ⟨⟨_, List.mem_append_right _ List.mem_cons_self, rfl⟩, fun x hx => ?_⟩, fun x hx => ?_⟩
    · conv_lhs => rw [hs]
      rfl
    · rw [hw, List.append_assoc]
      rfl
    · obtain ⟨u, hu, he⟩ := hall x hx
      exact ⟨u, List.mem_append_left _ hu, he⟩
    · rcases List.mem_append.mp hx with hx | hx
      · exact hnew x hx
      · rw [List.mem_singleton.mp hx]
        exact ⟨rfl, rfl, rfl, rfl, rfl, rfl⟩

/-- The state once M has searched cells of a bank. -/
def State.searched (s : State) (cells : List Nat) : State := (s.mendCells cells).readCells cells

theorem searched_same (s : State) (cells : List Nat) : s.searched cells =
    { s with writes := (s.searched cells).writes, softLocal := (s.mendCells cells).softLocal, mended := (s.mendCells cells).mended } :=
  markSeen_same (s.mendCells cells) _ _

theorem searched_wk (s : State) (cells : List Nat) : (s.searched cells).wk = s.wk := by rw [searched_same]; rfl

theorem searched_st (s : State) (cells : List Nat) : (s.searched cells).st = s.st := by rw [searched_same]; rfl

/-- Marks keep the numbers of the records. -/
theorem markSeen_nextWrite (s : State) (w : Who) (l : List Nat) : (s.markSeen w l).nextWrite = s.nextWrite := by
  unfold State.markSeen
  split
  · rfl
  · unfold State.nextWrite
    dsimp only
    cases s.writes with
    | nil => rfl
    | cons u r =>
      show (if l.contains u.id = true then u.seen w s.tick else u).id + 1 = u.id + 1
      split <;> rfl

theorem searched_nextWrite (s : State) (cells : List Nat) : (s.searched cells).nextWrite = s.nextWrite := markSeen_nextWrite _ _ _

/-- M has seen what it has searched. -/
theorem searched_seen (s : State) (cells : List Nat) : ∀ x ∈ (s.searched cells).writes, x.spot = .cell s.curKey → x.line ∈ cells →
    x.edit.meets 0 32 = true → (⟨s.curKey, .strand s.curEng⟩ : Who) ∈ x.seenBy ∨ x.who = some ⟨s.curKey, .strand s.curEng⟩ := by
  intro x hx hspot hline hmeets
  have hnum : ∀ u ∈ s.writes, u.spot = .cell s.curKey → u.line ∈ cells → u.edit.meets 0 32 = true →
      u.who ≠ some ⟨s.curKey, .strand s.curEng⟩ →
      u.id ∈ cells.flatMap fun i => seenIds (strandWho s.curKey s.curEng) 0 32 ((s.mendCells cells).lineLog (.cell s.curKey) i) := by
    intro u hu h1 h2 h3 h4
    refine List.mem_flatMap.mpr ⟨u.line, h2, List.mem_map.mpr ⟨u, List.mem_filter.mpr ⟨?_, ?_⟩, rfl⟩⟩
    · exact List.mem_filter.mpr ⟨hu, by rw [h1]; simp⟩
    · have ho : (strandWho s.curKey s.curEng).owns u = false := Bool.eq_false_iff.mpr fun hc => h4 ((who_owns _ _).mp hc).2
      rw [h3, ho]
      rfl
  unfold State.searched State.readCells State.markSeen at hx
  dsimp only at hx
  split at hx
  · rename_i he
    by_cases hw : x.who = some ⟨s.curKey, .strand s.curEng⟩
    · exact Or.inr hw
    · have := hnum x hx hspot hline hmeets hw
      rw [show s.curKey = (s.mendCells cells).curKey from rfl, show s.curEng = (s.mendCells cells).curEng from rfl,
        List.isEmpty_iff.mp he] at this
      cases this
  · obtain ⟨u, hu, hux⟩ := List.mem_map.mp hx
    split at hux
    · rw [← hux]
      exact Or.inl (seen_seenBy _ _ _).1
    · rename_i hno
      subst hux
      by_cases hw : u.who = some ⟨s.curKey, .strand s.curEng⟩
      · exact Or.inr hw
      · exact absurd (List.contains_iff_mem.mpr (hnum u hu hspot hline hmeets hw)) hno

/-- R212, R224: edits of a searched bank are one write. -/
theorem editBank_oneWrite (s : State) (cells : List Nat) (l : List (Nat × Edit)) :
    Sheaf.OneWrite s ((s.searched cells).editBank l) cells ∧ ((s.searched cells).editBank l).wk = s.wk.edited l := by
  obtain ⟨new, hs, hw, hall, hnew⟩ := noteEvent_writes l (s.searched cells).nextWrite (s.searched cells).strandAuthor
    (s.searched cells).curKey (s.searched cells)
  change (s.searched cells).noteEvent l = _ at hs
  change ((s.searched cells).noteEvent l).writes = _ at hw
  have hwk : ((s.searched cells).noteEvent l).wk = s.wk := by rw [hs]; exact searched_wk ..
  have hkey : (((s.searched cells).noteEvent l).wipeCells (wholeCells l)).curKey = s.curKey := by
    show ((s.searched cells).noteEvent l).curKey = _
    rw [hs, searched_same]
  have hq : ((s.searched cells).editBank l).wk = s.wk.edited l := by
    unfold State.editBank
    rw [modWk_eq, setWk_wk]
    exact congrArg (fun w : Worker => w.edited l) hwk
  refine ⟨⟨?_, fun k hk => ?_, ?_, ⟨new, hw, fun x hx => ?_, fun c hc => ?_⟩, searched_seen s cells⟩, hq⟩
  · obtain ⟨x, y, z, hx⟩ : ∃ x y z, (s.searched cells).noteEvent l = { s with writes := x, softLocal := y, mended := z } :=
      ⟨_, _, _, hs.trans (by rw [searched_same])⟩
    unfold State.editBank
    rw [hx]
    rfl
  · unfold State.editBank
    rw [modWk_eq, worker?_setWk_ne _ _ _ (by rw [hkey]; exact hk)]
    show ((s.searched cells).noteEvent l).worker? k = _
    rw [hs, searched_same]
    rfl
  · rw [hq]
    exact edited_rest l s.wk
  · obtain ⟨h1, h2, h3, h4, h5, h6⟩ := hnew x hx
    rw [searched_nextWrite] at h6
    have hau : (s.searched cells).strandAuthor = s.strandAuthor := by
      unfold State.strandAuthor
      rw [searched_st, searched_same]
    rw [hau] at h2 h3 h4 h5
    rw [searched_same] at h1
    exact ⟨h1, h2, h3, h4, h5, h6⟩
  · rw [hq] at hc
    by_contra hno
    exact hc (edited_other l c s.wk fun e he hec => hno (by
      obtain ⟨x, hx, hl⟩ := hall e he
      exact ⟨x, hx, by rw [hl, hec]⟩))

/-- A search alone. -/
theorem searched_oneWrite (s : State) (cells : List Nat) : Sheaf.OneWrite s (s.searched cells) cells := by
  refine ⟨?_, fun k _ => ?_, by rw [searched_wk], ⟨[], rfl, by simp, fun c hc => ?_⟩, searched_seen s cells⟩
  · obtain ⟨x, y, z, hx⟩ : ∃ x y z, s.searched cells = { s with writes := x, softLocal := y, mended := z } := ⟨_, _, _, searched_same ..⟩
    rw [hx]
  · rw [searched_same]
    rfl
  · rw [searched_wk] at hc
    exact absurd rfl hc

theorem searchBank_none {s : State} {h : Sheaf} (hc : s.cellCheck (s.wk.bankCells h) = none) :
    searchBank h s = .ok ((), s.searched (s.wk.bankCells h)) := by
  unfold searchBank
  rw [m_bind_ok (m_look _ _), m_bind_ok (meetCells_none hc)]
  rfl

theorem searchBank_some {s : State} {h : Sheaf} {y : Nat} (hc : s.cellCheck (s.wk.bankCells h) = some y) :
    searchBank h s = .error (.machine 2 y) := by
  unfold searchBank
  rw [m_bind_ok (m_look _ _), m_bind_error (meetCells_some hc)]

/-! ## One key -/

theorem nearestOf_none (w : Worker) (h : Sheaf) (g : Nat → XReal) (hv : ∀ i, ¬ w.Valid h i) :
    nearestOf h.metric.toNat ((w.validEntries h).map fun i => (i, g i)) = none := by
  have he : w.validEntries h = [] := List.eq_nil_iff_forall_not_mem.mpr fun i hi => hv i ((mem_validEntries ..).mp hi)
  rw [he]
  rfl

theorem within_iff_ordered (h : Sheaf) (m : XReal) : h.within m = true ↔ ∃ o, m.cmp (readNum 0 false h.rad2.toNat) = some o ∧
    (o = .eq ∨ o = if h.metric = 0 then .lt else .gt) := by
  unfold Sheaf.within
  show (match m.cmp (readNum 0 false h.rad2.toNat) with
    | none => false
    | some o => o == .eq || o == if h.metric.toNat = 0 then .lt else .gt) = true ↔ _
  cases m.cmp (readNum 0 false h.rad2.toNat) with
  | none => simp
  | some o => simp [metric_zero]

theorem any_nan_inf (n : Nat) (term : Nat → XReal) (h : ∃ k < n, term k = .nan ∨ ∃ b, term k = .inf b) :
    (((List.range n).map term).any fun v => !v.isFin) = true := by
  obtain ⟨k, hk, hv⟩ := h
  refine List.any_eq_true.mpr ⟨term k, List.mem_map.mpr ⟨k, List.mem_range.mpr hk, rfl⟩, ?_⟩
  rcases hv with hv | ⟨b, hv⟩ <;> rw [hv] <;> rfl

theorem any_exact (n : Nat) (term : Nat → XReal) (h : ∀ k < n, (term k).exact) :
    (((List.range n).map term).any fun v => !v.isFin) = false := by
  rw [List.any_eq_false]
  intro v hv
  obtain ⟨k, hk, rfl⟩ := List.mem_map.mp hv
  rw [exact_isFin (h k (List.mem_range.mp hk))]
  simp

theorem nth_terms (n : Nat) (term : Nat → XReal) {k : Nat} (hk : k < n) : nth .nan ((List.range n).map term) k = term k := by
  unfold nth
  rw [List.getD_eq_getElem?_getD, List.getElem?_map, List.getElem?_range hk]
  rfl

theorem absorbed_terms {w t : Worker} {h : Sheaf} {i : Nat} {x y : Nat → XReal} (hxy : ∀ k < h.dim.toNat, x k = y k)
    (ha : w.Absorbed h i x t) : w.Absorbed h i y t :=
  ⟨fun k hk => (ha.sums k hk).trans (by rw [hxy k hk]), ha.count, ha.others, ha.rest⟩

theorem opened_terms {w t : Worker} {h : Sheaf} {i : Nat} {x y : Nat → XReal} (hxy : ∀ k < h.dim.toNat, x k = y k)
    (ha : w.Opened h i x t) : w.Opened h i y t :=
  ⟨fun k hk => (ha.sums k hk).trans (by rw [hxy k hk]), ha.count, ha.others, ha.rest⟩

/-- What becomes of a key `y` whose nearest entry is `i`, at measure `m` (R220). -/
def Worker.placed (w : Worker) (h : Sheaf) (ftz lone : Bool) (y : List XReal) (i : Nat) (m : XReal) : List (Nat × Edit) × Int :=
  if h.within m then (w.absorb h i y, i)
  else
    match w.freeEntry h with
    | some j => (h.openEntry j y, j)
    | none =>
      match h.policy.toNat with
      | 0 => ([], -1)
      | 1 =>
        match w.closestPair h ftz with
        | some (a, b) => (w.mergeEntries h a b ++ h.openEntry b y, b)
        | none => if lone then (w.absorb h i y, i) else ([], -1)
      | _ => (w.absorb h i y, i)

section
variable (w : Worker) (h : Sheaf) (ftz lone : Bool) (key term : Nat → XReal)

/-- The edits of a key of values `key`, admitted as `term`, and the entry it goes to. -/
def Worker.keyed : List (Nat × Edit) × Int :=
  w.insertKey h ftz lone ((List.range h.dim.toNat).map key) ((List.range h.dim.toNat).map term)

variable {term}

/-- R220: a key with a NaN or an infinity is refused. -/
theorem keyed_refused (hk : ∃ k < h.dim.toNat, term k = .nan ∨ ∃ b, term k = .inf b) : w.keyed h ftz lone key term = ([], -1) := by
  unfold Worker.keyed Worker.insertKey
  rw [if_pos (any_nan_inf _ _ hk)]

/-- An edit list that absorbs. -/
theorem absorb_terms (i : Nat) : w.Absorbed h i term (w.edited (w.absorb h i ((List.range h.dim.toNat).map term))) :=
  absorbed_terms (fun _ hk => nth_terms _ _ hk) (absorb_absorbed ..)

/-- An edit list that opens. -/
theorem open_terms (i : Nat) : w.Opened h i term (w.edited (h.openEntry i ((List.range h.dim.toNat).map term))) :=
  opened_terms (fun _ hk => nth_terms _ _ hk) (openEntry_opened ..)

variable (hk : ∀ k < h.dim.toNat, (term k).exact)
include hk

/-- R220: the first key of an empty sheaf. -/
theorem keyed_first (hcap : 1 ≤ h.cap.toNat) (hv : ∀ i, ¬ w.Valid h i) :
    w.Opened h 0 term (w.edited (w.keyed h ftz lone key term).1) ∧ (w.keyed h ftz lone key term).2 = 0 := by
  have hf : w.LowestFree h 0 := ⟨hcap, hv 0, fun j hj => absurd hj (Nat.not_lt_zero j)⟩
  have he : w.keyed h ftz lone key term = (h.openEntry 0 ((List.range h.dim.toNat).map term), 0) := by
    unfold Worker.keyed Worker.insertKey
    rw [if_neg (by rw [any_exact _ _ hk]; exact Bool.false_ne_true)]
    dsimp only
    rw [nearestOf_none w h _ hv, freeEntry_some hf]
    rfl
  rw [he]
  exact ⟨opened_terms (fun k hk => nth_terms _ _ hk) (openEntry_opened ..), rfl⟩

variable {key} {i : Nat} (hn : w.Nearest h ftz key i)
include hn

theorem keyed_placed : w.keyed h ftz lone key term = w.placed h ftz lone ((List.range h.dim.toNat).map term) i (w.dist h ftz key i) := by
  unfold Worker.keyed Worker.insertKey
  rw [if_neg (by rw [any_exact _ _ hk]; exact Bool.false_ne_true)]
  dsimp only
  rw [nearest_found hn]
  rfl

/-- R220: a key whose nearest entry is `i`. -/
theorem keyed_nearest :
    let within := ∃ o, (w.dist h ftz key i).cmp (readNum 0 false h.rad2.toNat) = some o ∧
      (o = .eq ∨ o = if h.metric = 0 then .lt else .gt)
    let full := ∀ i, ¬ w.LowestFree h i
    let v := w.edited (w.keyed h ftz lone key term).1
    let r := (w.keyed h ftz lone key term).2
    (within → w.Absorbed h i term v ∧ r = i) ∧
    (¬within → ∀ j, w.LowestFree h j → w.Opened h j term v ∧ r = j) ∧
    (¬within → full → h.policy = 0 → v = w ∧ r = -1) ∧
    (¬within → full → h.policy = 2 → w.Absorbed h i term v ∧ r = i) ∧
    (¬within → full → h.policy = 1 → ∀ a b, w.Closest h ftz a b → ∃ m, w.Merged h a b m ∧ m.Opened h b term v ∧ r = b) ∧
    (¬within → full → h.policy = 1 → (∀ a b, ¬ w.Closest h ftz a b) →
      if lone = true then w.Absorbed h i term v ∧ r = i else v = w ∧ r = -1) := by
  intro within full v r
  have hv : v = w.edited (w.placed h ftz lone ((List.range h.dim.toNat).map term) i (w.dist h ftz key i)).1 := by
    rw [← keyed_placed w h ftz lone hk hn]
  have hr : r = (w.placed h ftz lone ((List.range h.dim.toNat).map term) i (w.dist h ftz key i)).2 := by
    rw [← keyed_placed w h ftz lone hk hn]
  have hin : ∀ hw : within, w.placed h ftz lone ((List.range h.dim.toNat).map term) i (w.dist h ftz key i) = _ :=
    fun hw => if_pos ((within_iff_ordered ..).mpr hw)
  have hout : ∀ hw : ¬within, w.placed h ftz lone ((List.range h.dim.toNat).map term) i (w.dist h ftz key i) = _ :=
    fun hw => if_neg fun x => hw ((within_iff_ordered ..).mp x)
  rw [hv, hr]
  refine ⟨fun hw => ?_, fun hw j hj => ?_, fun hw hf hp => ?_, fun hw hf hp => ?_, fun hw hf hp a b hab => ?_, fun hw hf hp hno => ?_⟩
  · rw [hin hw]
    exact ⟨absorb_terms w h i, rfl⟩
  · rw [hout hw, freeEntry_some hj]
    exact ⟨open_terms w h j, rfl⟩
  · rw [hout hw, freeEntry_none hf, hp]
    exact ⟨rfl, rfl⟩
  · rw [hout hw, freeEntry_none hf, hp]
    exact ⟨absorb_terms w h i, rfl⟩
  · obtain ⟨hnone, hno⟩ | ⟨c, d, hcd, hcl⟩ := closestPair_spec w h ftz
    · exact absurd hab (hno a b)
    · cases closest_unique hab hcl
      rw [hout hw, freeEntry_none hf, hp]
      simp only [hcd]
      refine ⟨w.edited (w.mergeEntries h a b), mergeEntries_merged .., ?_, rfl⟩
      show Worker.Opened (w.edited (w.mergeEntries h a b)) h b term
        (w.edited (w.mergeEntries h a b ++ h.openEntry b ((List.range h.dim.toNat).map term)))
      rw [edited_append]
      exact open_terms _ h b
  · obtain ⟨hnone, -⟩ | ⟨c, d, hcd, hcl⟩ := closestPair_spec w h ftz
    · rw [hout hw, freeEntry_none hf, hp]
      simp only [hnone]
      cases lone
      · exact ⟨rfl, rfl⟩
      · exact ⟨absorb_terms w h i, rfl⟩
    · exact absurd hcl (hno c d)

end

end Sys2Proof.Machine
end

section
/-! PROOF. The sheaf instructions (O43). -/
namespace Sys2Proof.Machine
open Sys2Proof

theorem gained_nbrValid (s : State) (e : Eng) (f : E64) : (s.gained e f).wk.nbrValid = s.wk.nbrValid := by
  unfold State.gained
  split
  · rfl
  · rw [acquire_wk]
    cases s.curEng <;> rfl

theorem awaitTable_ok {s : State} (h : s.wk.nbrValid = true) : awaitTable s = .ok ((), s) := by
  unfold awaitTable
  rw [m_bind_ok (m_look _ _), h]
  rfl

theorem sheaf_units (h : Sheaf) : h.units = (h.cap.toNat * h.dim.toNat + 4095) / 4096 := by
  unfold Sheaf.units ceilDiv
  rw [Nat.add_sub_assoc (by norm_num)]

theorem keysOf_eq (h : Sheaf) (sh : Shape) (w : Nat) (b : Src) : h.keysOf sh w b =
    (List.range (sh.slots / sh.size 0)).map fun r => (List.range h.dim.toNat).map fun i => b.slot w (sh.size 0 * r + i) := by
  unfold Sheaf.keysOf
  rw [upFrom_zero]
  refine List.map_congr_left fun r _ => ?_
  rw [upFrom_eq, List.map_map]
  rfl

theorem await_ok {b : Bool} (h : b = true) (s : State) : M.await b s = .ok ((), s) := by rw [h]; rfl

/-- R222: the beginning of a `shins`. -/
theorem shins_begins {f : E64} {s t : State} {b : Src} (h : Turn.Go .M f s) (hnbr : s.wk.nbrValid = true) (hno : s.wk.insertion = none)
    (hlegal : (ftzFmt f.fmt5.toNat && (s.view.sheaf f.a8.toNat).fits s.view.shape (fmtWidth f.fmt5.toNat)) = true)
    (hb : readSrc f.b8 (some (fmtWidth f.fmt5.toNat)) s = .ok (b, t)) :
    exec (.shins f) s = .next (((t.popped .M f).setWk { (t.popped .M f).wk with insertion := some ⟨f, s.view.sheaf f.a8.toNat,
      s.view.ftz, (s.view.sheaf f.a8.toNat).keysOf s.view.shape (fmtWidth f.fmt5.toNat) b, f.fmt5.toNat, []⟩ }).gained .M f) := by
  rw [exec_shins, execShins, hno]
  dsimp only
  rw [if_pos h.guard]
  refine runOwn_ok h.live h.turn ?_
  unfold beginInsertion
  rw [m_bind_ok (m_look id _)]
  dsimp only [id]
  have htok : ((tokPops .M f.tk).all fun q => decide (0 < s.wk.tokensIn q)) = true :=
    List.all_eq_true.mpr fun q hq => decide_eq_true (h.tokens q hq)
  have hroom : s.st.room = true := decide_eq_true h.room
  rw [m_bind_ok (await_ok hroom _), m_bind_ok (await_ok htok _), m_bind_ok (legal_ok hlegal _),
    m_bind_ok (awaitTable_ok hnbr), m_bind_ok hb, m_bind_ok (m_work _ _), popped_wk]
  unfold State.popped
  rw [setWk_setWk]
  rfl

/-! ## A key's turn -/

section
variable {f : E64} {s : State} {x : Insertion} (hl : s.live = true) (he : s.curEng = .M) (hx : s.wk.insertion = some x)
include hl he hx

theorem shins_machine {y : Nat} (hc : s.cellCheck (s.wk.bankCells x.sheaf) = some y) :
    exec (.shins f) s = .next (s.machineCheck s.wk 3 2 y s.st.pc) := by
  rw [exec_shins, execShins, hx]
  dsimp only
  rw [runOwn_next _ _ _ hl he]
  unfold insertionTurn
  rw [m_bind_error (searchBank_some hc)]
  unfold settleStop
  rw [he]
  rfl

variable (hc : s.cellCheck (s.wk.bankCells x.sheaf) = none)

/-- The state after the edits of the next key. -/
def State.keyed (s : State) (x : Insertion) : State := (s.searched (s.wk.bankCells x.sheaf)).editBank (s.wk.keyTurn x s.st.pos).1

include hc

omit hl he hx in
/-- The search of a key's turn, and the state it leaves. -/
theorem keyed_search : ∃ p, searchBank x.sheaf s = .ok ((), p) ∧ p.wk.keyTurn x p.st.pos = s.wk.keyTurn x s.st.pos ∧
    p.view = s.view ∧ p.editBank (s.wk.keyTurn x s.st.pos).1 = s.keyed x := by
  refine ⟨s.searched (s.wk.bankCells x.sheaf), searchBank_none hc, ?_, ?_, rfl⟩
  · rw [searched_st s (s.wk.bankCells x.sheaf), searched_wk s (s.wk.bankCells x.sheaf)]
  · unfold State.view
    rw [searched_st s (s.wk.bankCells x.sheaf)]

/-- R220: a key that is not the last. -/
theorem shins_goesOn (hn : x.done.length + 1 < x.keys.length) : exec (.shins f) s =
    .next ((s.keyed x).setWk { (s.keyed x).wk with insertion := some { x with done := (s.wk.keyTurn x s.st.pos).2 :: x.done } }) := by
  obtain ⟨p, hp, hr, -, hq⟩ := keyed_search hc
  rw [exec_shins, execShins, hx]
  refine runOwn_ok hl he ?_
  unfold insertionTurn
  rw [m_bind_ok hp, m_bind_ok (m_look id _)]
  dsimp only [id]
  generalize p.wk.keyTurn x p.st.pos = r at hr
  subst hr
  rw [m_bind_ok (m_change _ _)]
  refine (congrFun (if_pos (by rw [List.length_cons]; exact hn)) _).trans ?_
  exact congrArg (fun q : State => Except.ok ((), q.setWk { q.wk with insertion := some { x with done := _ :: x.done } })) hq

/-- The end of a `shins` (R213). -/
def insertionEnd (x : Insertion) (sh : Shape) (done : List Int) : M Unit := do
  M.work fun w => { w with insertion := none }
  let i ← deliverShape x.word.d8 32 0 (shinsResult sh done.reverse)
  M.work fun w => w.setStrand .M ((w.strands.get .M).issued 4 i (tokPushes .M x.word.tk))

/-- The state after the end of a `shins`. -/
def State.inserted (q : State) (x : Insertion) (sh : Shape) (done : List Int) : State :=
  let u := q.setWk { q.wk with insertion := none }
  u.issuedE .M x.word 0 [u.deliver x.word.d8 u.view.shape.slots 32 (shinsResult sh done.reverse)]

omit hl he hx hc in
theorem insertionEnd_ok (sh : Shape) (done : List Int) (q : State) : insertionEnd x sh done q = .ok ((), q.inserted x sh done) := by
  unfold insertionEnd
  rw [m_bind_ok (m_work _ _), m_bind_ok (deliverShape_ok _ _ _ _ _)]
  refine (m_work _ _).trans ?_
  exact congrArg (fun q => Except.ok ((), q)) (issuedE_eq _ .M x.word _ 0)

/-- R213: the last key, and the issue. -/
theorem shins_issues (hn : x.done.length + 1 = x.keys.length) :
    exec (.shins f) s = .next ((s.keyed x).inserted x s.view.shape ((s.wk.keyTurn x s.st.pos).2 :: x.done)) := by
  obtain ⟨p, hp, hr, hview, hq⟩ := keyed_search hc
  rw [exec_shins, execShins, hx]
  refine runOwn_ok hl he ?_
  unfold insertionTurn
  rw [m_bind_ok hp, m_bind_ok (m_look id _)]
  dsimp only [id]
  generalize p.wk.keyTurn x p.st.pos = r at hr
  subst hr
  rw [m_bind_ok (m_change _ _)]
  refine (congrFun (if_neg (by rw [List.length_cons]; omega)) _).trans ?_
  refine (insertionEnd_ok p.view.shape _ _).trans ?_
  rw [hq, hview]

end

/-- The key in turn as `insertKey` takes it. -/
theorem keyTurn_keyed {w : Worker} {x : Insertion} {pos : Nat} (hn : x.done.length < x.keys.length)
    (hlen : ∀ l ∈ x.keys, l.length = x.sheaf.dim.toNat) :
    w.keyTurn x pos = w.keyed x.sheaf x.ftz (Config.loneMerge w.wid pos x.done.length)
      (fun k => readNum x.fmt x.ftz (nth 0 (nth [] x.keys x.done.length) k))
      (fun k => readNum x.fmt false (nth 0 (nth [] x.keys x.done.length) k)) := by
  have hmem : nth [] x.keys x.done.length ∈ x.keys := by
    unfold nth
    rw [List.getD_eq_getElem _ _ hn]
    exact List.getElem_mem hn
  unfold Worker.keyTurn Worker.keyed
  dsimp only
  rw [keys_map _ _ _ (hlen _ hmem), keys_map _ _ _ (hlen _ hmem)]

theorem sheaf_cap {h : Sheaf} (hok : h.ok = true) : 1 ≤ h.cap.toNat := by
  unfold Sheaf.ok at hok
  simp only [Bool.and_eq_true, decide_eq_true_eq] at hok
  omega

/-! ## Merging, clearing, reading -/

section
variable {f : E64} {o : State} (hg : Turn.Go .M f o) (hnbr : o.wk.nbrValid = true)
include hg hnbr

/-- R223: merging the closest pair. -/
theorem shmrg_ok :
    let s := o.gained .M f
    let h := s.view.sheaf f.d8.toNat
    let cells := s.wk.bankCells h
    h.ok = true →
    (∀ y, s.cellCheck cells = some y → exec (.shmrg f) o = .next (o.machineCheck o.wk 3 2 y o.st.pc)) ∧
    (s.cellCheck cells = none → ∃ q : State, exec (.shmrg f) o = .next (q.afterE .M f 0 []) ∧ Sheaf.OneWrite s q cells ∧
      (∀ i j, s.wk.Closest h s.view.ftz i j → s.wk.Merged h i j q.wk) ∧
      ((∀ i j, ¬ s.wk.Closest h s.view.ftz i j) → q = (s.mendCells cells).readCells cells)) := by
  intro s h cells hok
  have hn : s.wk.nbrValid = true := (gained_nbrValid o .M f).trans hnbr
  refine ⟨fun y hy => ?_, fun hc => ?_⟩
  · rw [exec_shmrg, execShmrg]
    refine go_machine .M hg ?_
    rw [m_bind_ok (m_look State.view _), m_bind_ok (legal_ok hok _), m_bind_ok (awaitTable_ok hn)]
    exact m_bind_error (searchBank_some hy)
  · have hwk := searched_wk s cells
    generalize hp : s.searched cells = p at hwk
    have hsearch : searchBank h s = .ok ((), p) := by rw [← hp]; exact searchBank_none hc
    have hrun : ∀ q, (match s.wk.closestPair h s.view.ftz with
        | some (i, j) => p.editBank (s.wk.mergeEntries h i j)
        | none => p) = q → exec (.shmrg f) o = .next (q.afterE .M f 0 []) := fun q hq => by
      rw [exec_shmrg, execShmrg]
      refine go_none hg ?_
      rw [m_bind_ok (m_look State.view _), m_bind_ok (legal_ok hok _), m_bind_ok (awaitTable_ok hn), m_bind_ok hsearch,
        m_bind_ok (m_change _ _), hwk]
      rw [← hq]
      rfl
    obtain ⟨hnone, hno⟩ | ⟨i, j, hij, hcl⟩ := closestPair_spec s.wk h s.view.ftz
    · refine ⟨p, hrun p (by rw [hnone]), by rw [← hp]; exact searched_oneWrite s cells, fun i j hx => absurd hx (hno i j), fun _ => hp.symm⟩
    · obtain ⟨hone, hq⟩ := editBank_oneWrite s cells (s.wk.mergeEntries h i j)
      rw [hp] at hone hq
      refine ⟨p.editBank (s.wk.mergeEntries h i j), hrun _ (by rw [hij]), hone, fun a b hab => ?_, fun hno => absurd hcl (hno i j)⟩
      cases closest_unique hab hcl
      rw [hq]
      exact mergeEntries_merged ..

/-- R223: clearing a sheaf. -/
theorem shclr_ok :
    let s := o.gained .M f
    let h := s.view.sheaf f.d8.toNat
    let inBank := fun (i : Nat) => h.base.toNat ≤ i ∧ i < h.base.toNat + h.cap.toNat * (h.dim.toNat + 1)
    h.ok = true → ∃ q : State, exec (.shclr f) o = .next (q.afterE .M f 0 []) ∧
      (∀ i, q.wk.cell i = if inBank i then 0 else s.wk.cell i) ∧ q.wk = { s.wk with cells := q.wk.cells } ∧
      ∃ new, q.writes = new ++ s.writes ∧ (∀ i, inBank i ↔ ∃ x ∈ new, x.line = i) ∧
        ∀ x ∈ new, x.spot = .cell s.curKey ∧ x.edit = .put 0 256 0 ∧ x.who = some ⟨s.curKey, .strand s.curEng⟩ ∧ x.reach = [] ∧
          x.done = false := by
  intro s h inBank hok
  have hn : s.wk.nbrValid = true := (gained_nbrValid o .M f).trans hnbr
  have hwk := clearCells_wk s h.base.toNat (h.cap.toNat * (h.dim.toNat + 1))
  obtain ⟨hwr, -⟩ := clearCells_rest s h.base.toNat (h.cap.toNat * (h.dim.toNat + 1))
  refine ⟨s.clearCells h.base.toNat (h.cap.toNat * (h.dim.toNat + 1)), ?_, fun i => ?_, by rw [hwk]; rfl, ?_⟩
  · rw [exec_shclr, execShclr]
    refine go_none hg ?_
    rw [m_bind_ok (m_look State.view _), m_bind_ok (legal_ok hok _), m_bind_ok (awaitTable_ok hn)]
    rfl
  · rw [hwk]
    exact clearCells_cell _ _ _ _
  · obtain ⟨new, hn, hall, hnew⟩ := noteCells_writes ((upFrom h.base.toNat (h.cap.toNat * (h.dim.toNat + 1))).map
      fun i => (i, Edit.put 0 256 0)) s
    refine ⟨new, by rw [hwr, hn], fun i => ⟨fun hi => ?_, fun ⟨x, hx, he⟩ => ?_⟩, fun x hx => ?_⟩
    · exact hall (i, _) (List.mem_map.mpr ⟨i, (mem_upFrom ..).mpr hi, rfl⟩)
    · obtain ⟨⟨e, he', hle, -⟩, -⟩ := hnew x hx
      obtain ⟨j, hj, rfl⟩ := List.mem_map.mp he'
      rw [← he, hle]
      exact (mem_upFrom ..).mp hj
    · obtain ⟨⟨e, he', -, hed⟩, h1, h2, h3, h4⟩ := hnew x hx
      obtain ⟨j, hj, rfl⟩ := List.mem_map.mp he'
      exact ⟨h1, hed, h2, h3, h4⟩

end

end Sys2Proof.Machine
end

section
/-! PROOF. Reading a sheaf; O43. -/
namespace Sys2Proof.Machine
open Sys2Proof

theorem shrdCells_eq (h : Sheaf) (sh : Shape) (i : Nat) : shrdCells h sh i =
    if i / (sh.g.c0 * sh.g.c1) % sh.g.c2 = 0 ∧ i / (sh.g.c0 * sh.g.c1 * sh.g.c2) = 0 ∧ i % sh.g.c0 < h.dim.toNat ∧
        i / sh.g.c0 % sh.g.c1 < h.cap.toNat
    then some (h.base.toNat + i / sh.g.c0 % sh.g.c1 * (h.dim.toNat + 1) + h.dim.toNat,
      h.base.toNat + i / sh.g.c0 % sh.g.c1 * (h.dim.toNat + 1) + i % sh.g.c0)
    else none := rfl

/-- A slot of `shrd` at an entry and a dimension (R214). -/
theorem shrdSlot_eq (anchor : Int) (counts ftz first : Bool) (count sum : BitVec 256) : shrdSlot anchor counts ftz first count sum =
    if count.getLsbD 64 = true then
      if counts then (if first then min (count.toNat % 2 ^ 64) (2 ^ 32 - 1) else 0)
      else if count.toNat % 2 ^ 64 = 0 ∧ (cellValue anchor sum).isFin = true then (Config.emptyCentroid sum anchor).toNat
      else roundF32 ftz ((cellValue anchor sum).div (.ofInt (count.toNat % 2 ^ 64 : Nat)))
    else 0 := by
  unfold shrdSlot centroidBits
  rw [bits_eq, pow_zero, Nat.div_one]
  cases count.getLsbD 64 <;> rfl

/-- The state after cells have been loaded. -/
theorem loadedCells_view (s : State) (l : List Nat) : (s.loadedCells l).view = s.view := by
  unfold State.loadedCells
  dsimp only
  rw [markSeen_same]
  rfl

/-- R214, R223: reading a sheaf. -/
theorem shrd_ok {f : E64} {o : State} (hg : Turn.Go .M f o) (hnbr : o.wk.nbrValid = true) :
    let s := o.gained .M f
    let h := s.view.sheaf f.a8.toNat
    let sh := s.view.shape
    let k := fun (i : Nat) => i % sh.g.c0
    let e := fun (i : Nat) => i / sh.g.c0 % sh.g.c1
    let on := fun (i : Nat) =>
      i / (sh.g.c0 * sh.g.c1) % sh.g.c2 = 0 ∧ i / (sh.g.c0 * sh.g.c1 * sh.g.c2) = 0 ∧ k i < h.dim.toNat ∧ e i < h.cap.toNat
    let countAt := fun (i : Nat) => h.base.toNat + e i * (h.dim.toNat + 1) + h.dim.toNat
    let sumAt := fun (i : Nat) => h.base.toNat + e i * (h.dim.toNat + 1) + k i
    let valid := fun (i : Nat) => (s.seenCell (countAt i)).getLsbD 64
    let slots := (List.range sh.slots).filter fun i => decide (on i)
    let cells := slots.map countAt ++ if f.modBit 0 then [] else (slots.filter valid).map sumAt
    let u := (s.mendCells cells).loadedCells cells
    h.ok = true → sh.width = 32 → sh.fits 32 = true →
    (∀ y, s.cellCheck cells = some y → exec (.shrd f) o = .next (o.machineCheck o.wk 3 2 y o.st.pc)) ∧
    (s.cellCheck cells = none → exec (.shrd f) o = .next (u.afterE .M f 0 [u.deliver f.d8 sh.slots 32
      ⟨packSlots 32 ((List.range sh.slots).map fun i =>
        let n := (s.seenCell (countAt i)).toNat % 2 ^ 64
        let sum := s.seenCell (sumAt i)
        if on i ∧ valid i = true then
          if f.modBit 0 then (if k i = 0 then min n (2 ^ 32 - 1) else 0)
          else if n = 0 ∧ (cellValue h.anch sum).isFin = true then (Config.emptyCentroid sum h.anch).toNat
          else roundF32 s.view.ftz ((cellValue h.anch sum).div (.ofInt (n : Nat)))
        else 0), 0, none, freshMap sh (fun j => decide (j < 2)) (.all 0) ⟨h.dim.toNat, h.cap.toNat, 1, 1⟩⟩])) := by
  intro s h sh k e on countAt sumAt valid slots cells u hok hwidth hfit
  have hn : s.wk.nbrValid = true := (gained_nbrValid o .M f).trans hnbr
  have hlegal : (h.ok && sh.width == 32 && sh.fits 32) = true := by rw [hok, hwidth, hfit]; rfl
  have hpairs : (upFrom 0 sh.slots).filterMap (shrdCells h sh) = slots.map fun i => (countAt i, sumAt i) := by
    rw [upFrom_zero, funext (shrdCells_eq h sh)]
    exact filterMap_if on (fun i => (countAt i, sumAt i)) _
  have hcells : ((upFrom 0 sh.slots).filterMap (shrdCells h sh)).map Prod.fst ++
      (if f.modBit 0 then [] else (((upFrom 0 sh.slots).filterMap (shrdCells h sh)).filter
        fun c => (s.seenCell c.1).getLsbD 64).map Prod.snd) = cells := by
    rw [hpairs, List.map_map, List.filter_map, List.map_map]
    rfl
  refine ⟨fun y hy => ?_, fun hc => ?_⟩
  · rw [exec_shrd, execShrd]
    refine go_machine .M hg ?_
    rw [m_bind_ok (m_look id _)]
    dsimp only [id]
    rw [m_bind_ok (legal_ok hlegal _), m_bind_ok (awaitTable_ok hn)]
    exact m_bind_error (meetCells_some (by rw [hcells]; exact hy))
  · rw [exec_shrd, execShrd]
    refine go_run hg ?_
    rw [m_bind_ok (m_look id _)]
    dsimp only [id]
    rw [m_bind_ok (legal_ok hlegal _), m_bind_ok (awaitTable_ok hn), m_bind_ok (meetCells_none (by rw [hcells]; exact hc)),
      m_bind_ok (m_change _ _)]
    have hu : (s.mendCells cells).loadedCells cells = u := rfl
    rw [hcells, hu]
    refine (deliverShape_ok _ _ _ _ u).trans ?_
    rw [show u.view.shape = sh from congrArg View.shape (loadedCells_view _ _)]
    refine congrArg (fun l => Except.ok (Issue.after 0 [u.deliver f.d8 sh.slots 32 ⟨packSlots 32 l, 0, none, _⟩], u)) ?_
    rw [upFrom_zero]
    refine List.map_congr_left fun i _ => ?_
    rw [shrdCells_eq]
    by_cases hon : on i
    · refine Eq.trans (b := shrdSlot h.anch (f.modBit 0) s.view.ftz (k i == 0) (s.seenCell (countAt i)) (s.seenCell (sumAt i))) ?_ ?_
      · rw [if_pos hon]
        rfl
      · rw [shrdSlot_eq]
        simp only [hon, true_and, beq_iff_eq, valid]
    · rw [if_neg hon]
      exact (if_neg fun x => hon x.1).symm

/-- An event on a bank leaves the view of the strand in turn. -/
theorem oneWrite_view {s q : State} {cells : List Nat} (h : Sheaf.OneWrite s q cells) : q.view = s.view := by
  have he : q.curEng = s.curEng := (congrArg State.curEng h.rest).trans rfl
  have hs : q.wk.strands = s.wk.strands := (congrArg Worker.strands h.worker).trans rfl
  unfold State.view State.st
  rw [he, hs]

/-- R213, R220: a key's turn. -/
theorem shins_turn (f : E64) (s : State) (x : Insertion) (hl : s.live = true) (he : s.curEng = .M) (hx : s.wk.insertion = some x)
    (hn : x.done.length < x.keys.length) (hlen : ∀ l ∈ x.keys, l.length = x.sheaf.dim.toNat)
    (hc : s.cellCheck (s.wk.bankCells x.sheaf) = none) :
    let key := fun (k : Nat) => readNum x.fmt x.ftz (nth 0 (nth [] x.keys x.done.length) k)
    let term := fun (k : Nat) => readNum x.fmt false (nth 0 (nth [] x.keys x.done.length) k)
    let t := s.wk.keyed x.sheaf x.ftz (Config.loneMerge s.wk.wid s.st.pos x.done.length) key term
    ∃ q : State, Sheaf.OneWrite s q (s.wk.bankCells x.sheaf) ∧ q.wk = s.wk.edited t.1 ∧
      (x.done.length + 1 < x.keys.length →
        exec (.shins f) s = .next (q.setWk { q.wk with insertion := some { x with done := t.2 :: x.done } })) ∧
      (x.done.length + 1 = x.keys.length →
        let u := q.setWk { q.wk with insertion := none }
        exec (.shins f) s = .next (u.issuedE .M x.word 0 [u.deliver x.word.d8 u.view.shape.slots 32
          ⟨packSlots 32 ((List.range u.view.shape.slots).map fun i => wrap 32 (nth 0 (t.2 :: x.done).reverse i)), 0, none, .lost⟩])) := by
  intro key term t
  have ht : s.wk.keyTurn x s.st.pos = t := keyTurn_keyed hn hlen
  have hq : s.keyed x = (s.searched (s.wk.bankCells x.sheaf)).editBank t.1 := by rw [← ht]; rfl
  obtain ⟨hone, hwk⟩ := editBank_oneWrite s (s.wk.bankCells x.sheaf) t.1
  rw [← hq] at hone hwk
  refine ⟨s.keyed x, hone, hwk, fun hmore => ?_, fun hlast => ?_⟩
  · have := shins_goesOn (f := f) hl he hx hc hmore
    rw [ht] at this
    exact this
  · have := shins_issues (f := f) hl he hx hc hlast
    rw [ht] at this
    rw [← oneWrite_view hone] at this
    refine this.trans ?_
    unfold State.inserted shinsResult
    rw [upFrom_zero]
    have hshape : ((s.keyed x).setWk { (s.keyed x).wk with insertion := none }).view.shape = (s.keyed x).view.shape := by
      unfold State.view State.st
      rw [setWk_wk]
      rfl
    rw [← hshape]

/-- Settles O43: the cells a search of a bank reads, the beginning of a `shins` and each of its keys, and the other three
instructions. -/
theorem sheaves : Obligations.Sheaves := by
  unfold Obligations.Sheaves
  refine ⟨mem_bankCells, fun f s t b hg hnbr hno => ?_, fun f s x hl he hx hn hok hlen => ?_, fun f o hg hnbr => ?_, fun f o hg hnbr => ?_⟩
  · intro fmt w h sh g0 rows hfmt hok hdim hfit hfit32 hrows hb
    have hlegal : (ftzFmt fmt && h.fits sh w) = true := by
      unfold Sheaf.fits
      rw [hfmt, hok, hfit, hfit32, sheaf_units, decide_eq_true hdim, decide_eq_true hrows]
      rfl
    have := shins_begins hg hnbr hno hlegal hb
    rw [keysOf_eq] at this
    exact this
  · intro h w n key term within full cells
    refine ⟨fun y hy => shins_machine hl he hx hy, fun hc => ?_⟩
    obtain ⟨q, hone, hwk, hmore, hlast⟩ := shins_turn f s x hl he hx hn hlen hc
    refine ⟨q, _, hone, hmore, hlast, fun hk => ?_, fun hk => ⟨fun hv => ?_, fun i hi => ?_⟩⟩
    · rw [hwk, keyed_refused w h x.ftz _ key hk]
      exact ⟨rfl, rfl⟩
    · rw [hwk]
      exact keyed_first w h x.ftz _ key hk (sheaf_cap hok) hv
    · rw [hwk]
      exact keyed_nearest w h x.ftz _ hk hi
  · intro s h cells inBank hok
    obtain ⟨h1, h2⟩ := shmrg_ok hg hnbr hok
    exact ⟨h1, h2, shclr_ok hg hnbr hok⟩
  · exact shrd_ok hg hnbr

end Sys2Proof.Machine
end

section
/-! PROOF. The instructions of W through furrows (O44). -/
namespace Sys2Proof.Machine
open Sys2Proof

/-- One of two changes, or none, before the rest of an action. -/
theorem first_ok (q : State) (b c : Bool) (g k : State → State) (r : M Issue) :
    (if b then (do
        M.change g
        r)
      else if c then (do
        M.change k
        r)
      else r : M Issue) q = r (if b then g q else if c then k q else q) := by
  cases b <;> cases c <;> rfl

theorem change_ok (q : State) (b : Bool) (g : State → State) (r : M Issue) :
    (if b then (do
        M.change g
        r)
      else r : M Issue) q = r (if b then g q else q) := by
  cases b <;> rfl

theorem begin_format (u : Furrow) (m : Memory) : (u.begin m).format = u.format := by
  obtain ⟨-, q, c, hq⟩ := begun u m
  exact (congrArg Furrow.format hq).trans rfl

/-- A move at the end of an action. -/
theorem move_last (t : State) (x : BitVec 8) (na : Bool) (u : Furrow) :
    (if na then pure () else putFurrow x u : M Unit) t = .ok ((), t.moved x na u) := by
  cases na <;> rfl

section
variable {f : E64} {o p t : State} {a : Src} (h : Turn.Go .W f o)

/-- R168: the image store. -/
theorem storeImage_ok {s : State} (na : Bool) :
    let u := s.furrow f.d8
    let eff := u.effective f.fmt5.toNat
    let w := fmtWidth eff
    let sh := s.view.shape
    let v := u.begin s.wk.spad
    let len := u.blocked eff
    u.imageOk eff sh → (isBlock eff = true → sh.slots % u.blockLen = 0) → readSrc f.a8 (some w) s = .ok (a, p) →
    (len = 0 ∨ a.tag = some ⟨eff, len⟩) →
    storeElems v eff len (a.slot w) (slotOf a.scale 8) (v.image sh (s.maskOf f.lo3)) p = .ok ((), t) →
    storeImage f na s = .ok ((), t.moved f.d8 na (v.advance sh.g s.wk.spad)) := by
  intro u eff w sh v len hi hb hr ht hs
  obtain ⟨h1, h2, h3⟩ := hi
  have hwhole : u.wholeBlocks eff sh = true := by
    unfold Furrow.wholeBlocks
    cases hk : isBlock eff with
    | false => rfl
    | true => rw [hb hk]; rfl
  have hlegal : (u.legal eff && sh.fits w && u.wholeBlocks eff sh && u.indOk sh) = true := by
    rw [h1, h2, hwhole, h3]
    rfl
  have htag : (len == 0 || a.tag == some ⟨eff, len⟩) = true := by
    rw [Bool.or_eq_true, beq_iff_eq, beq_iff_eq]
    exact ht
  unfold storeImage
  rw [m_bind_ok (m_look id _)]
  dsimp only [id]
  rw [m_bind_ok (legal_ok hlegal _), m_bind_ok hr, m_bind_ok (legal_ok htag _), m_bind_ok hs]
  exact move_last ..

include h

theorem wst_ok {q : State} (hs : storeImage f (noAdvance f) (o.gained .W f) = .ok ((), q)) :
    exec (.wst f) o = .next (q.afterE .W f 0 []) := by
  rw [exec_wst, execWst]
  exact go_none h (m_bind_ok hs)

theorem wstq_ok {q : State} (hs : storeImage f false (o.gained .W f) = .ok ((), q)) :
    exec (.wstq f) o = .next (({ q with knotAdds := q.knotAdds ++ [⟨q.curKey, f.c8.toNat, f.end3, q.st.pos⟩] } : State).afterE .W f 0 []) := by
  rw [exec_wstq, execWstq]
  refine go_none h ?_
  rw [m_bind_ok hs]
  rfl

/-- R169: scatters. -/
theorem wsct_ok :
    let s := o.gained .W f
    let u := s.furrow f.d8
    let eff := u.effective f.fmt5.toNat
    let w := fmtWidth eff
    let sh := s.view.shape
    u.legal eff = true → sh.fits w = true → sh.fits 32 = true → isBlock eff = false → u.indirect = false →
    readSrc f.a8 (some w) s = .ok (a, p) →
    storeElems u eff 0 (a.slot w) (fun _ => 0) (u.indexed (s.indexAt f.b8) sh.slots (s.maskOf f.lo3)) p = .ok ((), t) →
    exec (.wsct f) o = .next (t.afterE .W f 0 []) := by
  intro s u eff w sh h1 h2 h3 h4 h5 hr hs
  have hlegal : (u.legal eff && sh.fits w && sh.fits 32 && !isBlock eff && !u.indirect) = true := by
    rw [h1, h2, h3, h4, h5]
    rfl
  rw [exec_wsct, execWsct]
  refine go_none h ?_
  rw [m_bind_ok (m_look id _)]
  dsimp only [id]
  rw [m_bind_ok (legal_ok hlegal _), m_bind_ok hr]
  exact m_bind_ok hs

/-- R167: mask stores. -/
theorem wmsk_ok :
    let s := o.gained .W f
    let u := s.furrow f.d8
    let sh := s.view.shape
    let v := u.begin s.wk.spad
    u.legal u.format = true → u.format = 22 → u.indOk sh = true →
    storeElems v 22 0 (fun i => (s.wk.mget f.a8.toNat).toNat / 2 ^ i % 2) (fun _ => 0) (v.image sh (s.maskOf f.lo3)) s = .ok ((), t) →
    exec (.wmsk f) o = .next ((t.moved f.d8 (noAdvance f) (v.advance sh.g s.wk.spad)).afterE .W f 0 []) := by
  intro s u sh v h1 h2 h3 hs
  have hlegal : (u.legal u.format && u.format == 22 && u.indOk sh) = true := by
    rw [h1, h2, h3]
    rfl
  have hbits : (fun i => bits (s.wk.mget f.a8.toNat).toNat i 1) = fun i => (s.wk.mget f.a8.toNat).toNat / 2 ^ i % 2 :=
    funext fun i => (bits_eq _ _ _).trans (by rw [pow_one])
  rw [exec_wmsk, execWmsk]
  refine go_none h ?_
  rw [m_bind_ok (m_look id _)]
  dsimp only [id]
  rw [m_bind_ok (legal_ok hlegal _), hbits, m_bind_ok hs]
  exact moves_ok t f.d8 (noAdvance f) _ _

omit h in
theorem hasIndex_iff (f : E64) : hasIndex f = true ↔ f.b8 ≠ 0xFF := by
  unfold hasIndex
  rw [bne_iff_ne]

/-- R170: atomics. -/
theorem wamo_ok {l : List Touch} {q : State} :
    let s := o.gained .W f
    let u := s.furrow f.d8
    let eff := u.effective f.fmt5.toNat
    let w := fmtWidth eff
    let sh := s.view.shape
    let v := u.begin s.wk.spad
    let scope := f.c8.toNat % 8
    let r := if l.any (fun y => y.place.isKnot) then q.release (max 3 scope) else if f.c8.getLsbD 4 then q.release scope else q
    let x := if hasIndex f then u else v
    indexOk f sh = true →
    u.legal eff = true → eff ∈ [7, 8, 11, 12] → u.indirect = false → sh.fits w = true → readSrc f.a8 (some w) s = .ok (a, p) →
    plan x (amoAccess f.end3) eff 0 none (targets f s x (s.maskOf f.lo3)) p = .ok (l, q) →
    M.each (fun y => do
      let _ ← atomicAt scope (y.place.atScope scope) y.size (amoOp f.end3) (a.slot w y.slot) 0
      pure ()) l r = .ok ((), t) →
    exec (.wamo f) o = .next ((t.moved f.d8 (hasIndex f) (x.advance sh.g s.wk.spad)).afterE .W f 0 []) := by
  intro s u eff w sh v scope r x hix h1 h2 h3 h4 hr hp he
  have hfmt : (eff == 7 || eff == 8 || eff == 11 || eff == 12) = true := by
    simpa [Bool.or_eq_true, beq_iff_eq, or_assoc] using h2
  have hlegal : (u.legal eff && (eff == 7 || eff == 8 || eff == 11 || eff == 12) && sh.fits w && indexOk f sh && !u.indirect) = true := by
    rw [h1, hfmt, h4, hix, h3]
    rfl
  have hscope : bits f.c8.toNat 0 3 = scope := by
    rw [bits_eq, pow_zero, Nat.div_one]
    rfl
  rw [exec_wamo, execWamo]
  dsimp only
  rw [hscope]
  refine go_none h ?_
  rw [m_bind_ok (m_look id _)]
  dsimp only [id]
  rw [m_bind_ok (legal_ok hlegal _), m_bind_ok hr, m_bind_ok hp]
  refine (first_ok q _ _ _ _ _).trans ?_
  refine (m_bind_ok he).trans ?_
  exact moves_ok t f.d8 (hasIndex f) _ _

/-- R171: cell adds. -/
theorem wcadd_ok {l : List Touch} {q : State} :
    let s := o.gained .W f
    let u := s.furrow f.d8
    let sf := f.fmt5.toNat
    let ws := fmtWidth sf
    let sh := s.view.shape
    let x := if hasIndex f then u else u.begin s.wk.spad
    u.legal u.format = true → u.format = 21 → caddFormat sf = true → sh.fits ws = true → targetsOk f u sh = true →
    readSrc f.a8 (some ws) s = .ok (a, p) →
    plan x cellAccess 21 0 none (targets f s x (s.maskOf f.lo3)) p = .ok (l, q) →
    addCells f.end3 x.anchor (fun i => termOf sf (a.slot ws i)) l q = .ok ((), t) →
    exec (.wcadd f) o = .next ((t.moved f.d8 (hasIndex f) (x.advance sh.g s.wk.spad)).afterE .W f 0 []) := by
  intro s u sf ws sh x h1 h2 h3 h4 h5 hr hp he
  have hlegal : (u.legal u.format && u.format == 21 && caddFormat sf && sh.fits ws && targetsOk f u sh) = true := by
    rw [h1, h2, h3, h4, h5]
    rfl
  rw [exec_wcadd, execWcadd]
  dsimp only
  refine go_none h ?_
  rw [m_bind_ok (m_look id _)]
  dsimp only [id]
  rw [m_bind_ok (legal_ok hlegal _), m_bind_ok hr, m_bind_ok hp, m_bind_ok he]
  exact moves_ok t f.d8 (hasIndex f) _ _

/-- R172: flushes. -/
theorem wflush_ok {l : List Touch} {q : State} :
    let s := o.gained .W f
    let u := s.furrow f.d8
    let sh := s.view.shape
    let v := u.begin s.wk.spad
    u.legal u.format = true → sh.fits (fmtWidth u.format) = true → u.indOk sh = true →
    flushPlan v (isBlock u.format) (v.image sh none) s = .ok (l, q) →
    let r := if f.modBit 0 || f.modBit 1 then l.foldl (fun z y => z.flushLine y.place) q else q
    exec (.wflush f) o = .next ((r.putFurrow f.d8 (v.advance sh.g s.wk.spad)).afterE .W f 0 []) := by
  intro s u sh v h1 h2 h3 hp r
  have hlegal : (u.legal u.format && sh.fits (fmtWidth u.format) && u.indOk sh) = true := by
    rw [h1, h2, h3]
    rfl
  rw [exec_wflush, execWflush]
  refine go_none h ?_
  rw [m_bind_ok (m_look id _)]
  dsimp only [id]
  rw [m_bind_ok (legal_ok hlegal _), begin_format, m_bind_ok hp]
  exact change_ok q _ _ _

end

/-- Settles O44: each W instruction through a furrow, its checks passed. -/
theorem storesThroughFurrows : Obligations.StoresThroughFurrows := by
  unfold Obligations.StoresThroughFurrows
  intro f o p t a h s u eff w sh m v len moved index
  refine ⟨fun hi hb hr ht hs => ⟨?_, ?_⟩, wsct_ok h, ?_, fun l q => ?_, fun l q => wflush_ok h⟩
  · exact wst_ok h (storeImage_ok (noAdvance f) hi hb hr ht hs)
  · exact wstq_ok h (storeImage_ok false hi hb hr ht hs)
  · exact wmsk_ok h
  · intro byIndex x es hfit
    have hcase : hasIndex f = true ∧ byIndex ∧ x = u ∨ hasIndex f = false ∧ ¬byIndex ∧ x = v := by
      by_cases hb : f.b8 ≠ 0xFF
      · exact Or.inl ⟨(hasIndex_iff f).mpr hb, hb, if_pos hb⟩
      · exact Or.inr ⟨Bool.eq_false_iff.mpr fun z => hb ((hasIndex_iff f).mp z), hb, if_neg hb⟩
    have hx : x = if hasIndex f then u else v := by
      obtain ⟨h1, -, h3⟩ | ⟨h1, -, h3⟩ := hcase <;> rw [h1, h3] <;> rfl
    have hes : es = targets f s x m := by
      unfold targets
      obtain ⟨h1, h2, h3⟩ | ⟨h1, h2, h3⟩ := hcase
      · rw [h1, h3]
        exact if_pos h2
      · rw [h1, h3]
        exact if_neg h2
    have hmoved : (if byIndex then t else moved) = t.moved f.d8 (hasIndex f) (x.advance sh.g s.wk.spad) := by
      unfold State.moved
      obtain ⟨h1, h2, h3⟩ | ⟨h1, h2, h3⟩ := hcase
      · rw [h1, h3]
        exact if_pos h2
      · rw [h1, h3]
        exact if_neg h2
    have hindex : indexOk f sh = true := by
      unfold indexOk
      cases hb : hasIndex f with
      | false => rfl
      | true => rw [hfit ((hasIndex_iff f).mp hb)]; rfl
    refine ⟨fun h1 h2 h3 h4 hr hp => ?_, ?_⟩
    · intro scope r he
      rw [hmoved, hx]
      rw [hes, hx] at hp
      exact wamo_ok h hindex h1 h2 h3 h4 hr hp he
    · intro sf ws h1 h2 h3 h4 h5 h6 hr hp he
      have htargets : targetsOk f u sh = true := by
        unfold targetsOk
        cases hb : hasIndex f with
        | false => exact h6 fun z => by rw [(hasIndex_iff f).mpr z] at hb; cases hb
        | true =>
          rw [if_pos rfl, hfit ((hasIndex_iff f).mp hb), h5 ((hasIndex_iff f).mp hb)]
          rfl
      rw [hmoved, hx]
      rw [hes, hx] at hp
      rw [hx] at he
      exact wcadd_ok h h1 h2 h3 h4 htargets hr hp he

end Sys2Proof.Machine
end

section
/-! PROOF. The checks of elements do not turn on queues, acquires and records of writes (O46). -/
namespace Sys2Proof.Machine
open Sys2Proof

/-! ## Translation -/

section
variable (s : State) (ws : Tab Worker) (l : List Write)

/-- `s` with other workers and other records of writes. -/
def State.withWorkers : State := { s with workers := ws, writes := l }

theorem walkFrom_workers (asid va level table : Nat) : (s.withWorkers ws l).walkFrom asid va level table = s.walkFrom asid va level table := by
  have hr : ∀ a, (s.withWorkers ws l).readEntry a = s.readEntry a := fun _ => rfl
  induction level generalizing table with
  | zero => rfl
  | succ level ih => simp only [State.walkFrom, hr, ih]

theorem lookup_workers (ag : Agent) (cx : Cx) (va : Nat) : (s.withWorkers ws l).lookup ag cx va = s.lookup ag cx va := by
  have hw : ∀ t, (s.withWorkers ws l).walk t cx va = s.walk t cx va := fun t => by
    unfold State.walk
    cases t.table cx.asid va <;> exact walkFrom_workers s ws l _ _ _ _
  have ht : (s.withWorkers ws l).tlb ag = s.tlb ag := by cases ag <;> rfl
  have hd : (s.withWorkers ws l).dieFind ag cx.asid va = s.dieFind ag cx.asid va := by cases ag <;> rfl
  simp only [State.lookup, hw, ht, hd]

theorem translate_workers (ag : Agent) (cx : Cx) (va : Nat) (acc : Acc) :
    (s.withWorkers ws l).translate ag cx va acc = s.translate ag cx va acc := by
  have hf : ∀ p, (s.withWorkers ws l).placeFault p = s.placeFault p := fun p => rfl
  simp only [State.translate, lookup_workers, hf]

theorem noteWalk_workers (ag : Agent) (cx : Cx) (va : Nat) (e : List WalkEntry) :
    (s.withWorkers ws l).noteWalk ag cx va e = (s.noteWalk ag cx va e).withWorkers ws l := by
  have key : ∀ (r : List Nat) (s : State), r.foldl (fun s a => s.correct a 8) (s.withWorkers ws l) =
      (r.foldl (fun s a => s.correct a 8) s).withWorkers ws l := by
    intro r
    induction r with
    | nil => exact fun s => rfl
    | cons a r ih => exact fun s => ih (s.correct a 8)
  exact key _ s

theorem resolve_workers (ag : Agent) (cx : Cx) (va : Nat) (acc : Acc) : (s.withWorkers ws l).resolve ag cx va acc =
    (s.resolve ag cx va acc).map fun r => (r.1, r.2.withWorkers ws l) := by
  unfold State.resolve
  rw [translate_workers]
  cases s.translate ag cx va acc with
  | error x => rfl
  | ok r =>
    obtain ⟨p, e, k, new⟩ := r
    dsimp only [Except.map]
    cases new with
    | false => rfl
    | true =>
      rw [if_pos rfl, if_pos rfl, noteWalk_workers]
      cases ag <;> rfl

end

/-! ## Checks of elements -/

/-- Of the workers `ws` the one in turn is, in its context, the worker in turn. -/
def State.Like (s : State) (ws : Tab Worker) : Prop :=
  let w := (tabFind ws s.curKey).getD .zero
  w.lid = s.wk.lid ∧ w.wid = s.wk.wid ∧ w.core = s.wk.core ∧ w.sup = s.wk.sup

theorem like_base {s t : State} {ws : Tab Worker} (h : SameBase s t) (hl : s.Like ws) : t.Like ws := by
  unfold State.Like at *
  rw [wk_of_SW h, h.k]
  exact hl

/-- The answer of an action, with other workers in the state it leaves. -/
def withWorkers {α : Type} (ws : Tab Worker) (l : List Write) (r : Except Stop (α × State)) : Except Stop (α × State) :=
  r.map fun x => (x.1, x.2.withWorkers ws l)

/-- An action that neither changes workers nor turns on them, their context apart. -/
structure Blind {α : Type} (ws : Tab Worker) (l : List Write) (act : M α) : Prop where
  base : KeepsBase act
  same : ∀ s : State, s.Like ws → act (s.withWorkers ws l) = withWorkers ws l (act s)

section
variable {ws : Tab Worker} {l : List Write} {α β : Type}

theorem blind_pure (a : α) : Blind ws l (pure a : M α) := ⟨base_pure a, fun _ _ => rfl⟩

theorem blind_stop (x : Stop) : Blind ws l (M.stop x : M α) := ⟨base_stop x, fun _ _ => rfl⟩

theorem blind_bind {x : M α} {f : α → M β} (hx : Blind ws l x) (hf : ∀ a, Blind ws l (f a)) : Blind ws l (x >>= f) := by
  refine ⟨base_bind hx.base fun a => (hf a).base, fun s hs => ?_⟩
  rw [m_bind, m_bind, hx.same s hs]
  cases hr : x s with
  | error e => rfl
  | ok r => exact (hf r.1).same r.2 (like_base (hx.base s r.1 r.2 hr) hs)

theorem blind_access (va : Nat) (slot : Option Nat) (r : Except AErr α) : Blind ws l (M.access va slot r) := by
  unfold M.access
  split
  · exact blind_pure _
  · exact blind_stop _
  · exact blind_stop _

/-- A look at what other workers do not change. -/
theorem blind_look {F : State → α} {f : α → M β} (hF : ∀ s : State, s.Like ws → F (s.withWorkers ws l) = F s) (hf : ∀ a, Blind ws l (f a)) :
    Blind ws l (M.look F >>= f) := by
  refine ⟨base_bind (base_look F) fun a => (hf a).base, fun s hs => ?_⟩
  have h := (hf (F s)).same s hs
  rw [m_bind_ok (m_look F s), m_bind_ok (m_look F _), hF s hs]
  exact h

theorem blind_placeIn (cx : Cx) (ag : Agent) (va size : Nat) (acc : Acc) (slot : Option Nat) (rights : Place → Bool)
    (bounds : Except AErr Unit) : Blind ws l (placeIn cx ag va size acc slot rights bounds) := by
  refine ⟨base_placeIn _ _ _ _ _ _ _ _, fun s hs => ?_⟩
  unfold placeIn
  rw [m_bind_ok (m_look id _), m_bind_ok (m_look id _)]
  dsimp only [id]
  have hres : ∀ (win : Option Place), (match win with
      | some p => pure p
      | none => do
        let r ← M.access va slot ((s.withWorkers ws l).resolve ag cx va acc)
        M.change fun _ => r.2
        pure (.phys r.1) : M Place) (s.withWorkers ws l) = withWorkers ws l ((match win with
      | some p => pure p
      | none => do
        let r ← M.access va slot (s.resolve ag cx va acc)
        M.change fun _ => r.2
        pure (.phys r.1) : M Place) s) := fun win => by
    cases win with
    | some p => rfl
    | none =>
      dsimp only
      rw [resolve_workers]
      cases s.resolve ag cx va acc with
      | error x => cases x <;> rfl
      | ok r => rfl
  cases windowOf cx rights va with
  | error x => cases x <;> rfl
  | ok win =>
    cases bounds with
    | error x => cases x <;> rfl
    | ok y =>
      cases aligned va size with
      | error x => cases x <;> rfl
      | ok z => exact hres win

theorem like_cx {s : State} (h : s.Like ws) : (s.withWorkers ws l).cxOf (s.withWorkers ws l).wk = s.cxOf s.wk ∧
    (s.withWorkers ws l).wk.agent = s.wk.agent := by
  obtain ⟨h1, h2, h3, h4⟩ := h
  have hw : (s.withWorkers ws l).wk = (tabFind ws s.curKey).getD .zero := rfl
  rw [hw]
  unfold State.cxOf Worker.agent
  rw [h1, h2, h3, h4]
  exact ⟨rfl, rfl⟩

theorem like_boundLive {s : State} (h : s.Like ws) (f : Furrow) : (s.withWorkers ws l).boundLive f = s.boundLive f := by
  obtain ⟨-, -, -, h4⟩ := h
  have hw : (s.withWorkers ws l).wk = (tabFind ws s.curKey).getD .zero := rfl
  have hp : ∀ n a, (s.withWorkers ws l).physNat a n = s.physNat a n := by
    intro n
    induction n with
    | zero => exact fun _ => rfl
    | succ n ih =>
      intro a
      unfold State.physNat
      rw [ih]
      rfl
  unfold State.boundLive State.layoutRecord
  simp only [hw, h4, hp]

theorem blind_touchAt (f : Furrow) (k : Access) (fmt slot va shift n : Nat) (block : Option Nat) :
    Blind ws l (touchAt f k fmt slot va shift n block) := by
  have he : touchAt f k fmt slot va shift n block = (M.look (fun s => (s.cxOf s.wk, s.wk.agent, s.boundLive f)) >>= fun c => do
      let _ ← M.access va (some slot) (windowOf c.1 (k.rights fmt) va)
      if c.2.2 then touchIn c.1 c.2.1 f k fmt slot va shift n block else M.trap 0x06 0 f.layout.toNat (some slot)) := by
    funext s
    unfold touchAt contextCheck
    simp only [m_bind_ok (m_look _ _), id]
    cases windowOf (s.cxOf s.wk) (k.rights fmt) va with
    | error x => cases x <;> rfl
    | ok win =>
      simp only [M.access, m_bind, m_pure, m_look, id]
      cases s.boundLive f <;> rfl
  rw [he]
  refine blind_look (fun s hs => ?_) fun c => blind_bind (blind_access _ _ _) fun _ => ?_
  · rw [like_boundLive hs, (like_cx hs).1, (like_cx hs).2]
  · split
    · exact blind_bind (blind_placeIn _ _ _ _ _ _ _ _) fun p => blind_pure _
    · exact blind_stop _

theorem blind_touchElem (f : Furrow) (k : Access) (eff : Nat) (e : Nat × Quad Nat) : Blind ws l (touchElem f k eff e) := by
  unfold touchElem
  split
  · exact blind_stop _
  · exact blind_touchAt _ _ _ _ _ _ _ _

theorem blind_plan (f : Furrow) (k : Access) (eff len : Nat) (es : List (Nat × Quad Nat)) : ∀ prev, Blind ws l (plan f k eff len prev es) := by
  induction es with
  | nil => exact fun prev => blind_pure _
  | cons e r ih =>
    intro prev
    unfold plan
    refine blind_bind (blind_touchElem f k eff e) fun t => ?_
    dsimp only
    split
    · exact blind_bind (blind_touchAt _ _ _ _ _ _ _ _) fun x => blind_bind (blind_pure _) fun sc =>
        blind_bind (ih _) fun l => blind_pure _
    · exact blind_bind (blind_pure _) fun sc => blind_bind (ih _) fun l => blind_pure _

end

/-! ## States that differ in workers and records alone -/

/-- `t` is `s` but for workers and records of writes; the context of the worker in turn is the same. -/
structure Twin (s t : State) : Prop where
  rest : t = s.withWorkers t.workers t.writes
  like : s.Like t.workers

theorem Twin.of_wk {s t : State} (h : t = s.withWorkers t.workers t.writes) (h1 : t.wk.lid = s.wk.lid) (h2 : t.wk.wid = s.wk.wid)
    (h3 : t.wk.core = s.wk.core) (h4 : t.wk.sup = s.wk.sup) : Twin s t := by
  refine ⟨h, ?_⟩
  have hw : (tabFind t.workers s.curKey).getD .zero = t.wk := by
    have hk : t.curKey = s.curKey := (congrArg State.curKey h).trans rfl
    unfold State.wk
    rw [hk]
    rfl
  unfold State.Like
  rw [hw]
  exact ⟨h1, h2, h3, h4⟩

theorem Twin.touched {s t : State} (h : Twin s t) (u : Furrow) (k : Access) (eff len : Nat) (es : List (Nat × Quad Nat)) :
    t.touched u k eff len es = s.touched u k eff len es := by
  unfold State.touched
  rw [h.rest, (blind_plan u k eff len es none).same s h.like]
  cases plan u k eff len none es s <;> rfl

end Sys2Proof.Machine
end

section
/-! PROOF. What the actions of W leave unchanged (O46). -/
namespace Sys2Proof.Machine
open Sys2Proof

/-! ## What a worker keeps -/

/-- Strand `t` is `r` but for how it stands in the text, and for furrows that `F` names. -/
structure StrandKept (F : Nat → Prop) (r t : Strand) : Prop where
  confq : t.confq = r.confq
  stack : t.stack = r.stack
  view : t.view = { r.view with furrows := t.view.furrows }
  furrow : ∀ n, ¬ F n → t.view.furrow n = r.view.furrow n

/-- Worker `x` is `w` but for the scratchpad bytes of `S`, the knots of `K`, the cells of `C`, the furrows of `F`, its queues, its
tokens and how its strands stand in the text. -/
structure StoreKept (S K C : Nat → Nat → Prop) (F : Nat → Eng → Nat → Prop) (k : Nat) (w x : Worker) : Prop where
  spad : ∀ a, ¬ S k a → x.spad.read a = w.spad.read a
  knot : ∀ j, ¬ K k j → x.knot j = w.knot j
  cell : ∀ c, ¬ C k c → x.cell c = w.cell c
  held : x.sregs = w.sregs ∧ x.vregs = w.vregs ∧ x.masks = w.masks ∧ x.q15 = w.q15 ∧ x.counters = w.counters ∧
    x.active = w.active ∧ x.shadow = w.shadow ∧ x.banks = w.banks
  strand : ∀ e, StrandKept (F k e) (w.strands.get e) (x.strands.get e)

section
variable {S K C : Nat → Nat → Prop} {F : Nat → Eng → Nat → Prop} {k : Nat} {w x : Worker}

theorem StrandKept.of_view {G : Nat → Prop} {r t : Strand} (h1 : t.confq = r.confq) (h2 : t.stack = r.stack) (h3 : t.view = r.view) :
    StrandKept G r t := ⟨h1, h2, by rw [h3], fun n _ => by rw [h3]⟩

theorem StrandKept.trans {G : Nat → Prop} {r t u : Strand} (h : StrandKept G r t) (g : StrandKept G t u) : StrandKept G r u :=
  ⟨g.confq.trans h.confq, g.stack.trans h.stack, by rw [g.view, h.view], fun n hn => (g.furrow n hn).trans (h.furrow n hn)⟩

/-- A worker whose queues, tokens and strands' places alone have changed. -/
theorem StoreKept.of_same (h1 : x.spad = w.spad) (h2 : x.knots = w.knots) (h3 : x.cells = w.cells)
    (h : x.sregs = w.sregs ∧ x.vregs = w.vregs ∧ x.masks = w.masks ∧ x.q15 = w.q15 ∧ x.counters = w.counters ∧
      x.active = w.active ∧ x.shadow = w.shadow ∧ x.banks = w.banks)
    (hs : ∀ e, StrandKept (F k e) (w.strands.get e) (x.strands.get e)) : StoreKept S K C F k w x :=
  ⟨fun _ _ => by rw [h1], fun _ _ => by rw [Worker.knot, h2]; rfl, fun _ _ => by rw [Worker.cell, h3]; rfl, h, hs⟩

theorem StoreKept.setStrand {e : Eng} {t : Strand} (h : StrandKept (F k e) (w.strands.get e) t) :
    StoreKept S K C F k w (w.setStrand e t) := by
  refine .of_same rfl rfl rfl ⟨rfl, rfl, rfl, rfl, rfl, rfl, rfl, rfl⟩ fun d => ?_
  by_cases hd : d = e
  · subst hd
    rw [setStrand_get]
    exact h
  · have : (w.setStrand e t).strands.get d = w.strands.get d := get_set_ne _ _ _ _ hd
    rw [this]
    exact .of_view rfl rfl rfl

theorem storeKept_rel (S K C : Nat → Nat → Prop) (F : Nat → Eng → Nat → Prop) : FrameRel (StoreKept S K C F) where
  refl _ _ := .of_same rfl rfl rfl ⟨rfl, rfl, rfl, rfl, rfl, rfl, rfl, rfl⟩ fun _ => .of_view rfl rfl rfl
  trans _ _ _ _ h g := by
    obtain ⟨a1, a2, a3, a4, a5, a6, a7, a8⟩ := h.held
    obtain ⟨b1, b2, b3, b4, b5, b6, b7, b8⟩ := g.held
    exact ⟨fun a ha => (g.spad a ha).trans (h.spad a ha), fun j hj => (g.knot j hj).trans (h.knot j hj),
      fun c hc => (g.cell c hc).trans (h.cell c hc),
      ⟨b1.trans a1, b2.trans a2, b3.trans a3, b4.trans a4, b5.trans a5, b6.trans a6, b7.trans a7, b8.trans a8⟩,
      fun e => (h.strand e).trans (g.strand e)⟩
  trapped _ _ _ _ _ := .of_same rfl rfl rfl ⟨rfl, rfl, rfl, rfl, rfl, rfl, rfl, rfl⟩ fun e => by cases e <;> exact .of_view rfl rfl rfl
  done _ _ := .of_same rfl rfl rfl ⟨rfl, rfl, rfl, rfl, rfl, rfl, rfl, rfl⟩ fun _ => .of_view rfl rfl rfl
  issued _ _ _ _ _ _ := .setStrand (.of_view rfl rfl rfl)
  acted _ _ _ _ _ := .setStrand (.of_view rfl rfl rfl)

theorem StoreKept.writeSpad {o : Nat} {l : List Byte} (h : ∀ a, o ≤ a → a < o + l.length → S k a) :
    StoreKept S K C F k w { w with spad := w.spad.writeBytes o l } :=
  ⟨fun a ha => by rw [Memory.read_writeBytes, if_neg (fun hb => ha (h a hb.1 hb.2))], fun _ _ => rfl, fun _ _ => rfl,
    ⟨rfl, rfl, rfl, rfl, rfl, rfl, rfl, rfl⟩, fun _ => .of_view rfl rfl rfl⟩

theorem StoreKept.addKnot {j : Nat} {n : BitVec 32} {err : Bool} {far : List Nat} (h : K k j) :
    StoreKept S K C F k w { w.addKnot j n err with farKnots := far } := by
  refine ⟨fun _ _ => rfl, fun i hi => ?_, fun _ _ => rfl, ⟨rfl, rfl, rfl, rfl, rfl, rfl, rfl, rfl⟩, fun e => ?_⟩
  · have : i ≠ j := fun hij => hi (hij ▸ h)
    exact (knot_setKnot w j i _).trans (if_neg this)
  · cases e <;> exact .of_view rfl rfl rfl

theorem StoreKept.setCell {c : Nat} {v : BitVec 256} (h : C k c) : StoreKept S K C F k w (w.setCell c v) :=
  ⟨fun _ _ => rfl, fun _ _ => rfl, fun i hi => by rw [cell_setCell]; exact if_neg fun hic => hi (by rw [hic]; exact h),
    ⟨rfl, rfl, rfl, rfl, rfl, rfl, rfl, rfl⟩, fun _ => .of_view rfl rfl rfl⟩

theorem StoreKept.setFurrow {e : Eng} {n : Nat} {u : Furrow} (h : F k e n) :
    StoreKept S K C F k w (w.setStrand e { w.strands.get e with view := (w.strands.get e).view.setFurrow n u }) := by
  refine .setStrand ⟨rfl, rfl, rfl, fun m hm => ?_⟩
  have hne : m ≠ n := fun hmn => hm (hmn ▸ h)
  exact tabGet_set_ne _ _ _ _ _ hne

/-- Queues and tokens are not kept. -/
theorem StoreKept.queues {i : Tab (List ImgEntry)} {q : List Word} : StoreKept S K C F k w { w with images := i, q14 := q } :=
  .of_same rfl rfl rfl ⟨rfl, rfl, rfl, rfl, rfl, rfl, rfl, rfl⟩ fun _ => .of_view rfl rfl rfl

theorem StoreKept.setTokens {q : TokQ} {n : Nat} : StoreKept S K C F k w (w.setTokens q n) :=
  .of_same rfl rfl rfl ⟨rfl, rfl, rfl, rfl, rfl, rfl, rfl, rfl⟩ fun _ => .of_view rfl rfl rfl

end

/-! ## Sources -/

/-- What reading a source changes: its queue. -/
theorem readSrc_pops {x : BitVec 8} {w : Option Nat} {s t : State} {a : Src} (h : readSrc x w s = .ok (a, t)) :
    t = s ∨ ∃ i q, t = s.setWk { s.wk with images := i, q14 := q } := by
  have hpure : ∀ v : Src, (pure v : M Src) s = .ok (a, t) → t = s := fun v hv => by
    rw [m_pure, Except.ok.injEq, Prod.mk.injEq] at hv
    exact hv.2.symm
  by_cases hv : isV x = true
  · rw [readSrc_register hv, Except.ok.injEq, Prod.mk.injEq] at h
    exact Or.inl h.2.symm
  · by_cases hq : isQ x = true
    · by_cases h14 : x = 0x8E
      · rw [readSrc_word h14] at h
        cases hw : s.wk.q14 with
        | nil => rw [m_bind_error (popWord_empty hw)] at h; cases h
        | cons v l =>
          rw [m_bind_ok (popWord_head hw), m_pure, Except.ok.injEq, Prod.mk.injEq] at h
          exact Or.inr ⟨s.wk.images, l, h.2.symm⟩
      · rw [readSrc_image hq h14] at h
        cases hw : s.wk.image (qNum x) with
        | nil => rw [popImage_empty hw] at h; cases h
        | cons e l =>
          cases hf : entryFits e s w with
          | true =>
            rw [popImage_fits hw hf, Except.ok.injEq, Prod.mk.injEq] at h
            exact Or.inr ⟨_, s.wk.q14, h.2.symm⟩
          | false =>
            unfold popImage at h
            rw [m_bind_ok (peekImage_head hw), m_bind, compareEntry_eq, if_neg (by rw [hf]; exact Bool.false_ne_true)] at h
            cases h
    · unfold readSrc at h
      rw [if_neg hv, if_neg hq] at h
      split at h <;> exact Or.inl (hpure _ h)

theorem readSrc_twin {x : BitVec 8} {w : Option Nat} {s t : State} {a : Src} (h : readSrc x w s = .ok (a, t)) : Twin s t := by
  rcases readSrc_pops h with rfl | ⟨i, q, rfl⟩
  · exact .of_wk rfl rfl rfl rfl rfl
  · exact .of_wk rfl (by rw [setWk_wk]) (by rw [setWk_wk]) (by rw [setWk_wk]) (by rw [setWk_wk])

theorem afterRead_twin (s : State) (x : BitVec 8) (w : Nat) : Twin s (s.afterRead x w) := by
  unfold State.afterRead
  cases h : readSrc x (some w) s with
  | error e => exact .of_wk rfl rfl rfl rfl rfl
  | ok r => exact readSrc_twin (a := r.1) h

theorem gained_twin (s : State) (e : Eng) (f : E64) : Twin s (s.gained e f) := by
  unfold State.gained
  split
  · exact .of_wk rfl rfl rfl rfl rfl
  · refine .of_wk rfl ?_ ?_ ?_ ?_ <;> rw [acquire_wk] <;> rfl

/-- The touches of an instruction are those of its plan, whatever it has popped. -/
theorem touched_plan {o q r : State} {e : Eng} {f : E64} {x : BitVec 8} {w : Option Nat} {n : Nat} {a : Src} {u : Furrow} {k : Access}
    {eff len : Nat} {es : List (Nat × Quad Nat)} {l : List Touch} (hr : readSrc x w (o.gained e f) = .ok (a, q))
    (hp : plan u k eff len none es q = .ok (l, r)) : (o.afterRead x n).touched u k eff len es = l := by
  rw [(afterRead_twin o x n).touched, ← (gained_twin o e f).touched, ← (readSrc_twin hr).touched]
  unfold State.touched
  rw [hp]

end Sys2Proof.Machine
end

section
/-! PROOF. The frames of W's instructions (O46). -/
namespace Sys2Proof.Machine
open Sys2Proof

section
variable {A : Nat → Prop} {P : Nat → Worker → Worker → Prop}

theorem framed_legal (hp : FrameRel P) (b : Bool) : Framed A P (M.legal b) := by
  unfold M.legal
  cases b
  · exact framed_stop _
  · exact framed_pure hp _

theorem framedAt_legal {α : Type} {s : State} {b : Bool} {f : Unit → M α} (h : FramedAt A P s (f ())) :
    FramedAt A P s (M.legal b >>= f) := by
  cases b
  · exact fun a t ht => by cases ht
  · exact h

theorem framed_touchAt (hp : FrameRel P) (f : Furrow) (k : Access) (fmt slot va shift n : Nat) (block : Option Nat) :
    Framed A P (touchAt f k fmt slot va shift n block) := by
  intro s y t h
  obtain ⟨_, p, hpl, _⟩ := touchAt_ok h
  exact framed_placeIn hp _ _ _ _ _ _ _ _ s p t hpl

theorem framed_plan (hp : FrameRel P) (f : Furrow) (k : Access) (eff len : Nat) (es : List (Nat × Quad Nat)) :
    ∀ prev, Framed A P (plan f k eff len prev es) := by
  have helem : ∀ e, Framed A P (touchElem f k eff e) := fun e => by
    unfold touchElem
    split
    · exact framed_stop _
    · exact framed_touchAt hp _ _ _ _ _ _ _ _
  induction es with
  | nil => exact fun prev => framed_pure hp _
  | cons e r ih =>
    intro prev
    unfold plan
    refine framed_bind hp (helem e) fun t => ?_
    dsimp only
    split
    · exact framed_bind hp (framed_touchAt hp _ _ _ _ _ _ _ _) fun x => framed_bind hp (framed_pure hp _) fun sc =>
        framed_bind hp (ih _) fun l => framed_pure hp _
    · exact framed_bind hp (framed_pure hp _) fun sc => framed_bind hp (ih _) fun l => framed_pure hp _

theorem noteItems_same (a : Author) (w : Nat) (l : List (Touch × Nat)) : ∀ s : State,
    s.noteItems a w l = { s with writes := (s.noteItems a w l).writes } := by
  induction l with
  | nil => exact fun s => rfl
  | cons x r ih =>
    intro s
    have h : s.noteItems a w (x :: r) = (s.recordAt a x.1.place (itemEdit (itemWidth w x) x)).noteItems a w r := rfl
    rw [h, ih, recordAt_same]

/-- An item goes to the bytes of its touch. -/
theorem Frame.putItem (hp : FrameRel P) (s : State) (w : Nat) (x : Touch × Nat) (hs : max 1 (w / 8) ≤ x.1.size)
    (h : Allowed A P x.1.place x.1.size) : Frame A P s (s.putItem w x) := by
  unfold State.putItem
  dsimp only
  split
  · exact Frame.writePlace hp s _ _ x.1.size (by rw [toBytes_length]; omega) h
  · exact Frame.writePlace hp s _ _ x.1.size (by rw [toBytes_length]; omega) h

theorem framed_storeItems (hp : FrameRel P) (w : Nat) (l : List (Touch × Nat)) (hs : ∀ x ∈ l, max 1 (itemWidth w x / 8) ≤ x.1.size)
    (h : ∀ x ∈ l, Allowed A P x.1.place x.1.size) : Framed A P (storeItems w l) := by
  unfold storeItems writeItems
  refine framed_bind hp (framed_look hp _) fun o => framed_bind hp (framed_bind hp (framed_look hp _) fun s => ?_) fun _ =>
    framed_change fun s => Frame.foldl hp _ l (fun x _ s => Frame.accessed hp s x.1.place) s
  split
  · exact framed_access hp _ _ _
  · refine framed_change fun s => Frame.trans hp (Frame.writes hp (noteItems_same o.strandAuthor w l s)) ?_
    exact Frame.trans hp (t := (s.noteItems o.strandAuthor w l).sweep (itemBytes l)) (Frame.same hp rfl rfl rfl rfl rfl)
      (Frame.foldl hp _ l (fun x hx s => Frame.putItem hp s _ x (hs x hx) (h x hx)) _)

/-- A store through a furrow goes to the places of its plan. -/
theorem framedAt_storeElems (hp : FrameRel P) {s : State} {u : Furrow} {eff len : Nat} {val scale : Nat → Nat}
    {es : List (Nat × Quad Nat)}
    (h : ∀ l q, plan u storeAccess eff len none es s = .ok (l, q) → ∀ y ∈ l, Allowed A P y.place y.size) :
    FramedAt A P s (storeElems u eff len val scale es) := by
  refine framedAt_bind hp fun l q hl => ⟨framed_plan hp _ _ _ _ _ _ s l q hl, framedAt_of ?_⟩
  refine framed_bind hp (framed_detectAll hp _ _) fun _ => framed_storeItems hp _ _ (fun x hx => ?_) fun x hx => ?_
  · obtain ⟨y, hy, rfl⟩ := List.mem_map.mp hx
    obtain ⟨hsize, -⟩ := plan_good es hl y hy
    unfold itemWidth
    dsimp only
    rw [hsize]
    cases y.block <;> simp
  · obtain ⟨y, hy, rfl⟩ := List.mem_map.mp hx
    exact h l q hl y hy

end

/-! ## The bytes, knots and cells of touches -/

section
variable (l : List Touch)

def memOf (a : Nat) : Prop := ∃ y ∈ l, ∃ x, y.place = .phys x ∧ x.addr ≤ a ∧ a < x.addr + y.size
def spadOf (k a : Nat) : Prop := ∃ y ∈ l, ∃ o, y.place = .spad k o ∧ o ≤ a ∧ a < o + y.size
def knotOf (k j : Nat) : Prop := ∃ y ∈ l, y.place = .knot k j
def cellsOf (k c : Nat) : Prop := ∃ y ∈ l, ∃ b, y.place = .cell k c b

/-- The furrow that an instruction of W names. -/
def ownFurrow (key : Nat) (x : BitVec 8) (k : Nat) (e : Eng) (n : Nat) : Prop := k = key ∧ e = .W ∧ n = x.toNat

end

/-- What W's instructions keep of workers. -/
abbrev TouchKept (l : List Touch) (key : Nat) (x : BitVec 8) := StoreKept (spadOf l) (knotOf l) (cellsOf l) (ownFurrow key x)

theorem touchKept_rel (l : List Touch) (key : Nat) (x : BitVec 8) : FrameRel (TouchKept l key x) := storeKept_rel _ _ _ _

section
variable {l : List Touch} {key : Nat} {x : BitVec 8}

/-- A touched place may be written, but for a cell. -/
theorem allowed_touch {y : Touch} (hy : y ∈ l) (hc : ∀ k i b, y.place ≠ .cell k i b) :
    Allowed (memOf l) (TouchKept l key x) y.place y.size := by
  cases hp : y.place with
  | spad k o => exact fun b w hb => .writeSpad fun a h1 h2 => ⟨y, hy, o, hp, h1, by omega⟩
  | cell k i b => exact hc k i b hp
  | knot k j => trivial
  | phys p => exact fun a h1 h2 => ⟨y, hy, p, hp, h1, h2⟩

theorem framedAt_bind2 {A : Nat → Prop} {P : Nat → Worker → Worker → Prop} (hp : FrameRel P) {α β : Type} {s : State} {y : M α} {f : α → M β}
    (hy : FramedAt A P s y) (hf : ∀ a t, t.curKey = s.curKey → t.curEng = s.curEng → FramedAt A P t (f a)) : FramedAt A P s (y >>= f) :=
  framedAt_bind hp fun a t h => ⟨hy a t h, hf a t (hy a t h).key (hy a t h).eng⟩

theorem framedAt_putFurrow {A : Nat → Prop} {s : State} (hk : s.curKey = key) (he : s.curEng = .W) (u : Furrow) :
    FramedAt A (TouchKept l key x) s (putFurrow x u) := by
  intro a t h
  obtain rfl : s.modSt (fun t => { t with view := t.view.setFurrow x.toNat u }) = t := congrArg Prod.snd (Except.ok.inj h)
  exact Frame.setWk (touchKept_rel l key x) (.setFurrow ⟨hk, he, rfl⟩)

theorem framed_readSrc {A : Nat → Prop} (y : BitVec 8) (w : Option Nat) : Framed A (TouchKept l key x) (readSrc y w) := by
  intro s a t h
  rcases readSrc_pops h with rfl | ⟨i, q, rfl⟩
  · exact Frame.refl (touchKept_rel l key x) _
  · exact Frame.setWk (touchKept_rel l key x) .queues

theorem framed_discard {A : Nat → Prop} (y : BitVec 8) (w : Option Nat) : Framed A (TouchKept l key x) (discard [(y, w)]) := by
  have hp := touchKept_rel l key x
  unfold discard
  split
  · exact framed_bind hp (framed_readSrc _ _) fun _ => framed_pure hp _
  · exact framed_pure hp _

/-- The move of the furrow at the end of an action. -/
theorem framedAt_move {A : Nat → Prop} {s : State} (hk : s.curKey = key) (he : s.curEng = .W) (na : Bool) (u : Furrow) :
    FramedAt A (TouchKept l key x) s (if na then pure () else putFurrow x u : M Unit) := by
  cases na
  · exact framedAt_putFurrow hk he u
  · exact framedAt_of (framed_pure (touchKept_rel l key x) _)

theorem framedAt_moves {A : Nat → Prop} {s : State} (hk : s.curKey = key) (he : s.curEng = .W) (na : Bool) (u : Furrow) (i : Issue) :
    FramedAt A (TouchKept l key x) s (do
      if na then pure () else putFurrow x u
      pure i : M Issue) := by
  have hp := touchKept_rel l key x
  cases na
  · exact framedAt_bind1 hp (framedAt_putFurrow hk he u) fun _ => framed_pure hp _
  · exact framedAt_of (framed_pure hp _)

theorem framedAt_offImage {A : Nat → Prop} {s : State} (hk : s.curKey = key) (he : s.curEng = .W) (na : Bool) (g : State → Quad Nat) :
    FramedAt A (TouchKept l key x) s (offImage x na g) := by
  unfold offImage
  exact framedAt_look (framedAt_move hk he na _)

theorem framedAt_offStore {A : Nat → Prop} {f : E64} {s : State} (hk : s.curKey = key) (he : s.curEng = .W) (w : Nat) (na : Bool) :
    FramedAt A (TouchKept l key f.d8) s (offStore f w na) := by
  have hp := touchKept_rel l key f.d8
  unfold offStore
  refine framedAt_bind2 hp (framedAt_of (framed_discard _ _)) fun _ t h1 h2 => ?_
  exact framedAt_bind1 hp (framedAt_offImage (h1.trans hk) (h2.trans he) na _) fun _ => framed_pure hp _

end

/-! ## The instructions -/

section
variable {o t : State} {f : E64} {l : List Touch}

/-- An instruction of W that has a next state has the turn. -/
theorem runE64_turn {on off : M Issue} (h : runE64 .W f on off o = .next t) : o.curEng = .W := by
  unfold runE64 runOwn at h
  split at h
  · split at h
    · assumption
    · cases h
  · cases h

/-- The frame of an instruction of W, from those of its actions. -/
theorem runE64_frame {on off : M Issue} (h : runE64 .W f on off o = .next t)
    (hon : o.curEng = .W → FramedAt (memOf l) (TouchKept l o.curKey f.d8) (o.gained .W f) on)
    (hoff : o.curEng = .W → FramedAt (memOf l) (TouchKept l o.curKey f.d8) (o.gained .W f) off) :
    Frame (memOf l) (TouchKept l o.curKey f.d8) o t :=
  fr_runE64 (touchKept_rel l o.curKey f.d8) (fun _ _ _ _ => .setTokens) (hon (runE64_turn h)) (hoff (runE64_turn h)) h

/-- A store's touches may be written. -/
theorem allowed_store {u : Furrow} {eff len : Nat} {es : List (Nat × Quad Nat)} {s q : State} {key : Nat} {x : BitVec 8}
    (h : plan u storeAccess eff len none es s = .ok (l, q)) : ∀ y ∈ l, Allowed (memOf l) (TouchKept l key x) y.place y.size := by
  intro y hy
  refine allowed_touch hy fun k i b hb => ?_
  obtain ⟨-, ⟨k, p, hs⟩ | ⟨p, hs⟩⟩ := plan_good es h y hy
  · rw [hs] at hb
    cases hb
  · rw [hs] at hb
    cases hb

theorem gained_spad (s : State) (e : Eng) (f : E64) : (s.gained e f).wk.spad = s.wk.spad := by
  unfold State.gained
  split
  · rfl
  · rw [acquire_wk]
    rfl

theorem gained_mask (s : State) (e : Eng) (f : E64) (m : Nat) : (s.gained e f).maskOf m = s.maskOf m := by
  unfold State.maskOf
  rw [gained_mget]

/-- An image store. -/
theorem framedAt_storeImage (he : o.curEng = .W) (na : Bool)
    (hl : l = (o.afterRead f.a8 (fmtWidth ((o.furrow f.d8).effective f.fmt5.toNat))).touched ((o.furrow f.d8).begin o.wk.spad) storeAccess
      ((o.furrow f.d8).effective f.fmt5.toNat) ((o.furrow f.d8).blocked ((o.furrow f.d8).effective f.fmt5.toNat))
      (((o.furrow f.d8).begin o.wk.spad).image o.view.shape (o.maskOf f.lo3))) :
    FramedAt (memOf l) (TouchKept l o.curKey f.d8) (o.gained .W f) (storeImage f na) := by
  have hp := touchKept_rel l o.curKey f.d8
  unfold storeImage
  refine framedAt_look ?_
  dsimp only [id]
  rw [gained_furrow, gained_spad, gained_view, gained_mask]
  refine framedAt_legal (framedAt_bind hp fun a q hr => ?_)
  have hfr := framed_readSrc (A := memOf l) (l := l) (key := o.curKey) (x := f.d8) _ _ _ a q hr
  refine ⟨hfr, framedAt_legal (framedAt_bind2 hp (framedAt_storeElems hp fun l' r hpl => ?_) fun _ v h1 h2 => ?_)⟩
  · rw [hl, touched_plan hr hpl]
    exact allowed_store hpl
  · refine framedAt_move (h1.trans (hfr.key.trans ?_)) (h2.trans (hfr.eng.trans ?_)) na _
    · rw [gained_curKey]
    · rw [gained_curEng, he]

theorem gained_turn (he : o.curEng = .W) : (o.gained .W f).curKey = o.curKey ∧ (o.gained .W f).curEng = .W := by
  rw [gained_curKey, gained_curEng, he]
  exact ⟨rfl, rfl⟩

theorem wst_frame
    (hl : l = (o.afterRead f.a8 (fmtWidth ((o.furrow f.d8).effective f.fmt5.toNat))).touched ((o.furrow f.d8).begin o.wk.spad) storeAccess
      ((o.furrow f.d8).effective f.fmt5.toNat) ((o.furrow f.d8).blocked ((o.furrow f.d8).effective f.fmt5.toNat))
      (((o.furrow f.d8).begin o.wk.spad).image o.view.shape (o.maskOf f.lo3)))
    (h : exec (.wst f) o = .next t ∨ exec (.wstq f) o = .next t) : Frame (memOf l) (TouchKept l o.curKey f.d8) o t := by
  have hp := touchKept_rel l o.curKey f.d8
  rcases h with h | h
  · rw [exec_wst, execWst] at h
    refine runE64_frame h (fun he => framedAt_bind1 hp (framedAt_storeImage he _ hl) fun _ => framed_pure hp _) fun he => ?_
    exact framedAt_offStore (gained_turn he).1 (gained_turn he).2 _ _
  · rw [exec_wstq, execWstq] at h
    refine runE64_frame h (fun he => framedAt_bind1 hp (framedAt_storeImage he _ hl) fun _ => ?_) fun he => ?_
    · exact framed_bind hp (framed_change fun s => Frame.same hp rfl rfl rfl rfl rfl) fun _ => framed_pure hp _
    · exact framedAt_offStore (gained_turn he).1 (gained_turn he).2 _ _

theorem gained_rrb (s : State) (e : Eng) (f : E64) : (s.gained e f).st.rrb = s.st.rrb := by
  unfold State.gained
  split
  · rfl
  · rw [acquire_st]

theorem gained_index (s : State) (e : Eng) (f : E64) (x : BitVec 8) : (s.gained e f).indexAt x = s.indexAt x := by
  unfold State.indexAt State.vreg State.phys Worker.vget
  rw [gained_vregs, gained_rrb]

theorem wsct_frame
    (hl : l = (o.afterRead f.a8 (fmtWidth ((o.furrow f.d8).effective f.fmt5.toNat))).touched (o.furrow f.d8) storeAccess
      ((o.furrow f.d8).effective f.fmt5.toNat) 0 ((o.furrow f.d8).indexed (o.indexAt f.b8) o.view.shape.slots (o.maskOf f.lo3)))
    (h : exec (.wsct f) o = .next t) : Frame (memOf l) (TouchKept l o.curKey f.d8) o t := by
  have hp := touchKept_rel l o.curKey f.d8
  rw [exec_wsct, execWsct] at h
  refine runE64_frame h (fun he => framedAt_look ?_) fun he => framedAt_bind1 hp (framedAt_of (framed_discard _ _)) fun _ => framed_pure hp _
  dsimp only [id]
  rw [gained_furrow, gained_view, gained_mask, gained_index]
  refine framedAt_legal (framedAt_bind hp fun a q hr => ?_)
  refine ⟨framed_readSrc _ _ _ a q hr, framedAt_bind1 hp (framedAt_storeElems hp fun l' r hpl => ?_) fun _ => framed_pure hp _⟩
  rw [hl, touched_plan hr hpl]
  exact allowed_store hpl

theorem wmsk_frame
    (hl : l = o.touched ((o.furrow f.d8).begin o.wk.spad) storeAccess 22 0
      (((o.furrow f.d8).begin o.wk.spad).image o.view.shape (o.maskOf f.lo3)))
    (h : exec (.wmsk f) o = .next t) : Frame (memOf l) (TouchKept l o.curKey f.d8) o t := by
  have hp := touchKept_rel l o.curKey f.d8
  rw [exec_wmsk, execWmsk] at h
  refine runE64_frame h (fun he => framedAt_look ?_) fun he =>
    framedAt_bind1 hp (framedAt_offImage (gained_turn he).1 (gained_turn he).2 _ _) fun _ => framed_pure hp _
  dsimp only [id]
  rw [gained_furrow, gained_view, gained_mask, gained_spad]
  refine framedAt_legal (framedAt_bind2 hp (framedAt_storeElems hp fun l' r hpl => ?_) fun _ v h1 h2 => ?_)
  · have : l = l' := by
      rw [hl, ← (gained_twin o .W f).touched]
      unfold State.touched
      rw [hpl]
    rw [this]
    exact allowed_store hpl
  · exact framedAt_moves (h1.trans (gained_turn he).1) (h2.trans (gained_turn he).2) _ _ _

/-- The touches of the elements that `wamo` and `wcadd` name (R164, R170, R171). -/
def State.aimed (o p : State) (f : E64) (k : Access) (fmt : Nat) : List Touch :=
  let u := if hasIndex f then o.furrow f.d8 else (o.furrow f.d8).begin o.wk.spad
  p.touched u k fmt 0 (targets f o u (o.maskOf f.lo3))

theorem gained_targets (s : State) (e : Eng) (f : E64) (u : Furrow) (m : Option Nat) : targets f (s.gained e f) u m = targets f s u m := by
  unfold targets
  rw [gained_index, gained_view]

theorem forall₂_right {α β : Type} {R : α → β → Prop} {l : List α} {r : List β} (h : List.Forall₂ R l r) : ∀ y ∈ r, ∃ x ∈ l, R x y := by
  induction h with
  | nil => exact fun y hy => by cases hy
  | cons hab _ ih =>
    refine List.forall_mem_cons.mpr ⟨⟨_, List.mem_cons_self, hab⟩, fun y hy => ?_⟩
    obtain ⟨x, hx, hr⟩ := ih y hy
    exact ⟨x, List.mem_cons_of_mem _ hx, hr⟩

/-- What the touches of a plan of elements are: places that the access has rights to, or in memory. -/
theorem plan_places {u : Furrow} {k : Access} {eff : Nat} {es : List (Nat × Quad Nat)} {s q : State}
    (h : plan u k eff 0 none es s = .ok (l, q)) : ∀ y ∈ l, y.size = max 1 (fmtWidth eff / 8) ∧
      (k.rights eff y.place = true ∨ ∃ p, y.place = .phys p) := by
  intro y hy
  obtain ⟨e, -, he⟩ := forall₂_right (plan_found u k eff s es none s q l (.refl s) h) y hy
  obtain ⟨-, -, h3, -, -, -, h7, h8⟩ := he
  refine ⟨h3, ?_⟩
  cases hw : inWindows y.addr with
  | true => exact Or.inl (h7 hw).2
  | false => exact Or.inr (h8 hw)

theorem wamo_frame
    (hl : l = o.aimed (o.afterRead f.a8 (fmtWidth ((o.furrow f.d8).effective f.fmt5.toNat))) f (amoAccess f.end3)
      ((o.furrow f.d8).effective f.fmt5.toNat))
    (h : exec (.wamo f) o = .next t) : Frame (memOf l) (TouchKept l o.curKey f.d8) o t := by
  have hp := touchKept_rel l o.curKey f.d8
  rw [exec_wamo, execWamo] at h
  refine runE64_frame h (fun he => framedAt_look ?_) fun he => ?_
  · dsimp only [id]
    rw [gained_furrow, gained_view, gained_mask, gained_spad, gained_targets]
    refine framedAt_legal (framedAt_bind hp fun a q hr => ?_)
    have hfr := framed_readSrc (A := memOf l) (l := l) (key := o.curKey) (x := f.d8) _ _ _ a q hr
    refine ⟨hfr, framedAt_bind hp fun l' r hpl => ?_⟩
    have hfp := framed_plan (A := memOf l) hp _ _ _ _ _ _ q l' r hpl
    have hll : l = l' := hl.trans (touched_plan hr hpl)
    refine ⟨hfp, ?_⟩
    have hk : r.curKey = o.curKey := hfp.key.trans (hfr.key.trans (gained_turn he).1)
    have hw : r.curEng = .W := hfp.eng.trans (hfr.eng.trans (gained_turn he).2)
    have hcells : ∀ y ∈ l, ∀ k i b, y.place ≠ .cell k i b := fun y hy k i b hb => by
      obtain ⟨h1, h2⟩ := plan_places hpl y (hll ▸ hy)
      rcases h2 with h2 | ⟨p, h2⟩
      · rw [hb] at h2
        cases h2
      · rw [hb] at h2
        cases h2
    have hrest : ∀ z : State, z.curKey = o.curKey → z.curEng = .W → FramedAt (memOf l) (TouchKept l o.curKey f.d8) z (do
        M.each (fun t => do
          let _ ← atomicAt (bits f.c8.toNat 0 3) (t.place.atScope (bits f.c8.toNat 0 3)) t.size (amoOp f.end3)
            (a.slot (fmtWidth ((o.furrow f.d8).effective f.fmt5.toNat)) t.slot) 0
          pure ()) l'
        if hasIndex f then pure () else putFurrow f.d8 ((if hasIndex f then o.furrow f.d8 else
          (o.furrow f.d8).begin o.wk.spad).advance o.view.shape.g o.wk.spad)
        pure .none : M Issue) := fun z hz1 hz2 => by
      refine framedAt_bind2 hp (framedAt_of (framed_each hp _ fun y hy => ?_)) fun _ v h1 h2 =>
        framedAt_moves (h1.trans hz1) (h2.trans hz2) _ _ _
      have hy : y ∈ l := by rw [hll]; exact hy
      refine framed_bind hp (framed_atomicAt hp (fun k j hkj w => ?_) ?_) fun _ => framed_pure hp _
      · refine .addKnot ⟨y, hy, ?_⟩
        cases hpl : y.place <;> rw [hpl] at hkj <;> cases hkj
        rfl
      · have := allowed_touch (key := o.curKey) (x := f.d8) hy (hcells y hy)
        cases hpl : y.place <;> rw [hpl] at this <;> exact this
    have hrel : ∀ n, FramedAt (memOf l) (TouchKept l o.curKey f.d8) r (M.change fun s => s.release n) :=
      fun n => framedAt_of (framed_change fun s => Frame.release hp s n)
    refine framedAt_ite (framedAt_bind2 hp (hrel _) fun _ z h1 h2 => hrest z (h1.trans hk) (h2.trans hw)) (framedAt_ite ?_ ?_)
    · exact framedAt_bind2 hp (hrel _) fun _ z h1 h2 => hrest z (h1.trans hk) (h2.trans hw)
    · exact hrest r hk hw
  · split
    · exact framedAt_bind1 hp (framedAt_of (framed_discard _ _)) fun _ => framed_pure hp _
    · exact framedAt_offStore (gained_turn he).1 (gained_turn he).2 _ _

end

end Sys2Proof.Machine
end

section
/-! PROOF. Cell adds and flushes; O46. -/
namespace Sys2Proof.Machine
open Sys2Proof

section
variable {o t : State} {f : E64} {l : List Touch} {key : Nat} {x : BitVec 8}

/-- A cell add goes to its cell, or to 32 bytes of memory. -/
theorem frame_addCell {y : Touch} (hy : y ∈ l) (hs : y.size = 32) (hr : cellAccess.rights 21 y.place = true ∨ ∃ p, y.place = .phys p)
    (s : State) (a : Author) (scope : Nat) (anchor : Int) (v : XReal) :
    Frame (memOf l) (TouchKept l key x) s (s.addCell a (y.place.atScope scope) anchor v) := by
  have hp := touchKept_rel l key x
  unfold State.addCell
  refine Frame.trans hp (t := s.recordAt a (y.place.atScope scope) (addEdit (admitTerm anchor v 0)))
    (Frame.writes hp (recordAt_same _ _ _ _)) ?_
  cases hpl : y.place with
  | cell k c b => exact Frame.modWorker hp fun w => .setCell ⟨y, hy, b, hpl⟩
  | phys p =>
    refine Frame.putBytes hp _ _ _ p.addr fun a h1 h2 => ⟨y, hy, p, hpl, h1, ?_⟩
    rw [toBytes_length] at h2
    omega
  | spad k c =>
    rw [hpl] at hr
    rcases hr with hr | ⟨p, hr⟩ <;> cases hr
  | knot k j =>
    rw [hpl] at hr
    rcases hr with hr | ⟨p, hr⟩ <;> cases hr

theorem wcadd_frame
    (hl : l = o.aimed (o.afterRead f.a8 (fmtWidth f.fmt5.toNat)) f cellAccess 21)
    (h : exec (.wcadd f) o = .next t) : Frame (memOf l) (TouchKept l o.curKey f.d8) o t := by
  have hp := touchKept_rel l o.curKey f.d8
  rw [exec_wcadd, execWcadd] at h
  refine runE64_frame h (fun he => framedAt_look ?_) fun he => ?_
  · dsimp only [id]
    rw [gained_furrow, gained_view, gained_mask, gained_spad, gained_targets]
    refine framedAt_legal (framedAt_bind hp fun a q hr => ?_)
    have hfr := framed_readSrc (A := memOf l) (l := l) (key := o.curKey) (x := f.d8) _ _ _ a q hr
    refine ⟨hfr, framedAt_bind hp fun l' r hpl => ?_⟩
    have hfp := framed_plan (A := memOf l) hp _ _ _ _ _ _ q l' r hpl
    have hll : l = l' := hl.trans (touched_plan hr hpl)
    refine ⟨hfp, framedAt_bind2 hp (framedAt_of (framed_each hp _ fun y hy => framed_bind hp (framed_look hp _) fun s => ?_)) fun _ z h1 h2 => ?_⟩
    · obtain ⟨hs, hrt⟩ := plan_places hpl y hy
      dsimp only [id]
      split
      · exact framed_access hp _ _ _
      · refine framed_change fun s => Frame.trans hp (Frame.trans hp (Frame.noteRead hp s _ _)
          (frame_addCell (by rw [hll]; exact hy) (hs.trans (by decide)) hrt _ _ _ _ _)) (Frame.accessed hp _ _)
    · exact framedAt_moves (h1.trans (hfp.key.trans (hfr.key.trans (gained_turn he).1)))
        (h2.trans (hfp.eng.trans (hfr.eng.trans (gained_turn he).2))) _ _ _
  · split
    · exact framedAt_bind1 hp (framedAt_of (framed_discard _ _)) fun _ => framed_pure hp _
    · exact framedAt_offStore (gained_turn he).1 (gained_turn he).2 _ _

theorem frame_flushLine {A : Nat → Prop} {P : Nat → Worker → Worker → Prop} (hp : FrameRel P) (s : State) (p : Place) :
    Frame A P s (s.flushLine p) := by
  unfold State.flushLine
  split
  · split
    · exact ⟨fun hs a _ => physByte_flushPool s _ _ a hs, fun _ => hp.refl _ _, fun hs => flushPool_dirty s _ _ hs, rfl, rfl⟩
    · exact Frame.refl hp s
  · exact Frame.refl hp s

theorem framed_flushPlan {A : Nat → Prop} {P : Nat → Worker → Worker → Prop} (hp : FrameRel P) (u : Furrow) (blocked : Bool)
    (es : List (Nat × Quad Nat)) : Framed A P (flushPlan u blocked es) := by
  induction es with
  | nil => exact framed_pure hp ([] : List Touch)
  | cons e r ih =>
    have hone : ∀ (c : Bool) (fmt va shift n : Nat) (block : Option Nat), Framed A P (if c then pure [] else do
        let x ← touchAt u flushAccess fmt e.1 va shift n block
        pure [x] : M (List Touch)) := fun c fmt va shift n block => by
      cases c
      · exact framed_bind hp (framed_touchAt hp _ _ _ _ _ _ _ _) fun _ => framed_pure hp _
      · exact framed_pure hp _
    have hrest : ∀ x y : List Touch, Framed A P (do
        let l ← flushPlan u blocked r
        pure (x ++ (y ++ l))) := fun x y => framed_bind hp ih fun _ => framed_pure hp _
    show Framed A P (match u.term e.2 with
      | none => _
      | some t => _)
    split
    · exact framed_stop _
    · refine framed_bind hp (framed_look hp id) fun s => framed_bind hp (hone _ _ _ _ _ _) fun x => ?_
      cases blocked
      · exact framed_bind hp (framed_pure hp _) fun y => hrest x y
      · exact framed_bind hp (hone _ _ _ _ _ _) fun y => hrest x y

theorem wflush_frame (h : exec (.wflush f) o = .next t) : Frame (memOf l) (TouchKept l o.curKey f.d8) o t := by
  have hp := touchKept_rel l o.curKey f.d8
  rw [exec_wflush, execWflush] at h
  refine runE64_frame h (fun he => framedAt_look ?_) fun he =>
    framedAt_bind1 hp (framedAt_offImage (gained_turn he).1 (gained_turn he).2 _ _) fun _ => framed_pure hp _
  dsimp only [id]
  refine framedAt_legal (framedAt_bind2 hp (framedAt_of (framed_flushPlan hp _ _ _)) fun a z h1 h2 => ?_)
  have hrest : ∀ z : State, z.curKey = o.curKey → z.curEng = .W → ∀ u, FramedAt (memOf l) (TouchKept l o.curKey f.d8) z (do
      putFurrow f.d8 u
      pure .none : M Issue) := fun z h1 h2 u => framedAt_bind1 hp (framedAt_putFurrow h1 h2 u) fun _ => framed_pure hp _
  have hz1 := h1.trans (gained_turn he).1
  have hz2 := h2.trans (gained_turn he).2
  refine framedAt_ite (framedAt_bind2 hp (framedAt_of (framed_change fun s => ?_)) fun _ v g1 g2 => hrest v (g1.trans hz1) (g2.trans hz2) _)
    (hrest z hz1 hz2 _)
  exact Frame.foldl hp _ a (fun y _ s => frame_flushLine hp s _) s

end

/-- Settles O46: every answer of an instruction of W keeps a frame that leaves out its touches and its furrow. -/
theorem storesKeepTheRest : Obligations.StoresKeepTheRest := by
  unfold Obligations.StoresKeepTheRest
  intro s t f i l hdirty u v eff sh m p es on hi hex
  have hon : ∀ q k fmt, on q k fmt = s.aimed q f k fmt := fun q k fmt => by
    unfold State.aimed targets
    by_cases hb : f.b8 ≠ 0xFF
    · simp only [(hasIndex_iff f).mpr hb, if_true]
      exact if_pos hb
    · simp only [Bool.eq_false_iff.mpr fun z => hb ((hasIndex_iff f).mp z), Bool.false_eq_true, if_false]
      exact if_neg hb
  have hframe : Frame (memOf l) (TouchKept l s.curKey f.d8) s t := by
    rcases hi with ⟨rfl | rfl, hl⟩ | ⟨rfl, hl⟩ | ⟨rfl, hl⟩ | ⟨rfl, hl⟩ | ⟨rfl, hl⟩ | ⟨rfl, hl⟩
    · exact wst_frame hl (Or.inl hex)
    · exact wst_frame hl (Or.inr hex)
    · exact wsct_frame hl hex
    · exact wmsk_frame hl hex
    · exact wamo_frame (hl.trans (hon _ _ _)) hex
    · exact wcadd_frame (hl.trans (hon _ _ _)) hex
    · exact wflush_frame hex
  refine ⟨fun a ha => hframe.mem hdirty a fun ⟨y, hy, x, hx, h1, h2⟩ => ha y hy x hx ⟨h1, h2⟩, fun k a ha => ?_, fun k => ?_⟩
  · exact (hframe.wk k).spad a fun ⟨y, hy, x, hx, h1, h2⟩ => ha y hy x hx ⟨h1, h2⟩
  · intro w x
    obtain ⟨h1, h2, h3, h4, h5, h6, h7, h8⟩ := (hframe.wk k).held
    refine ⟨h1, h2, h3, h4, fun j hj => (hframe.wk k).knot j fun ⟨y, hy, hx⟩ => hj y hy hx,
      fun c hc => (hframe.wk k).cell c fun ⟨y, hy, b, hx⟩ => hc y hy b hx, h5, h6, h7, h8, fun e => ?_⟩
    obtain ⟨g1, g2, g3, g4⟩ := (hframe.wk k).strand e
    exact ⟨g1, g2, g3, fun n hn => g4 n fun ⟨a1, a2, a3⟩ => hn a1 a2 a3⟩

end Sys2Proof.Machine
end

section
/-! PROOF. The instructions of W that hand work over (O47). -/
namespace Sys2Proof.Machine
open Sys2Proof

theorem engineScope_eq (f : E64) : engineScope f = f.mod11.toNat / 16 % 8 := bits_eq _ _ _

theorem copyXf_eq (f : E64) : copyXf f = f.mod11.toNat / 128 % 16 := bits_eq _ _ _

section
variable {f : E64} {o : State} (h : Turn.Go .W f o)
include h

/-- R229, R230: copies. -/
theorem wcpy_ok :
    let s := o.gained .W f
    let xf := f.mod11.toNat / 128 % 16
    let d := s.furrow f.d8
    let a := s.furrow f.a8
    let k := s.view.tile f.a8.toNat
    ∀ r, copyFurrowsOk xf d a k = true → copyRules xf d a k = true → copyContext d s = .ok ((), s) →
      (xf = 6 ∨ copyContext a s = .ok ((), s)) → remoteKnot f s = .ok (r, s) → (s.copiesOf s.curKey).length < 32 →
      let issued := fun (x : Bool) =>
        let q := s.release (f.mod11.toNat / 16 % 8)
        ({ q with copies := q.copies ++ [s.copyCmd f x r] } : State).modWk fun w => { w with copySeq := w.copySeq + 1 }
      exec (.wcpy f) o = .next ((issued false).afterE .W f 0 []) ∧ exec (.wcpyx f) o = .next ((issued true).afterE .W f 0 []) := by
  intro s xf d a k r h1 h2 h3 h4 h5 h6
  simp only [xf, ← copyXf_eq] at h1 h2 h4
  rw [← engineScope_eq]
  refine ⟨?_, ?_⟩
  · rw [exec_wcpy, execWcpy]
    exact go_none h (issueCopy_ok h1 h2 h3 h4 h5 h6)
  · rw [exec_wcpyx, execWcpyx]
    exact go_none h (issueCopy_ok h1 h2 h3 h4 h5 h6)

omit h in
theorem checkExperts_ok {l : Launch} {ix : Nat → Int} {rows : List Nat} {s : State}
    (hr : ∀ r ∈ rows, (ix r).toNat < l.nexp ∧ bit (l.placeOf (ix r).toNat) 63 = true) : checkExperts l ix rows s = .ok ((), s) := by
  induction rows with
  | nil => rfl
  | cons r rest ih =>
    obtain ⟨hr1, hr2⟩ := List.forall_mem_cons.mp hr
    unfold checkExperts
    dsimp only
    rw [if_pos hr1]
    exact ih hr2

omit h in
theorem farExpert_iff (s : State) (l : Launch) (e : Nat) : s.farExpert l e = true ↔ l.placeOf e / 2 ^ 48 % 2 ^ 10 ≠ s.devnum.toNat := by
  unfold State.farExpert
  rw [bits_eq, bne_iff_ne]

omit h in
/-- R209: the scope of the release. -/
theorem sendScope_eq (s : State) (l : Launch) (ix : Nat → Int) (rows : List Nat) :
    (if rows.any fun r => s.farExpert l (ix r).toNat then 5 else 3) =
      if ∃ r ∈ rows, l.placeOf (ix r).toNat / 2 ^ 48 % 2 ^ 10 ≠ s.devnum.toNat then 5 else 3 := by
  have h : (rows.any fun r => s.farExpert l (ix r).toNat) = true ↔ ∃ r ∈ rows, l.placeOf (ix r).toNat / 2 ^ 48 % 2 ^ 10 ≠ s.devnum.toNat := by
    simp only [List.any_eq_true, farExpert_iff]
  by_cases hany : (rows.any fun r => s.farExpert l (ix r).toNat) = true
  · rw [if_pos hany, if_pos (h.mp hany)]
  · rw [if_neg hany, if_neg fun x => hany (h.mpr x)]

omit h in
/-- R209: what a `wsend` does once its source is read. -/
theorem sends_ok {s p : State} {sel rows : List Nat} (a : Src) (ix : Nat → Int) (w g0 : Nat) (hsel : sel = rows)
    (hrows : ∀ r ∈ rows, (ix r).toNat < s.ln.nexp ∧ bit (s.ln.placeOf (ix r).toNat) 63 = true) : (do
      checkExperts s.ln ix sel
      M.change fun t => t.release (if sel.any fun r => s.farExpert s.ln (ix r).toNat then 5 else 3)
      M.change fun t => { t with sends := t.sends ++ sel.map (s.sendReq f a w g0) }
      M.work fun w => sel.foldl (fun w r => w.countSent (ix r).toNat) w
      pure .none : M Issue) p =
    let q := p.release (if ∃ r ∈ rows, s.ln.placeOf (ix r).toNat / 2 ^ 48 % 2 ^ 10 ≠ s.devnum.toNat then 5 else 3)
    .ok (.none, ({ q with sends := q.sends ++ rows.map (s.sendReq f a w g0) } : State).modWk
      fun w => rows.foldl (fun w r => w.countSent (ix r).toNat) w) := by
  rw [hsel, m_bind_ok (checkExperts_ok hrows), sendScope_eq]
  rfl

/-- R209: sending rows to experts. -/
theorem wsend_ok (a : Src) (p : State) :
    let s := o.gained .W f
    let sh := s.view.shape
    let fmt := f.fmt5.toNat
    let w := fmtWidth fmt
    let g0 := sh.size 0
    let ix := fun (i : Nat) => signed 32 (slotOf (s.vreg f.b8).data.toNat 32 i)
    let rows := (List.range (sh.slots / g0)).filter fun r => activeIn (s.maskOf f.lo3) r && decide (0 ≤ ix r)
    let far := fun (r : Nat) => s.ln.placeOf (ix r).toNat / 2 ^ 48 % 2 ^ 10 ≠ s.devnum.toNat
    cvtFmt fmt = true → sh.slots ≤ 8192 → sh.fits w = true → readSrc f.a8 (some w) s = .ok (a, p) →
    (∀ r ∈ rows, (ix r).toNat < s.ln.nexp ∧ bit (s.ln.placeOf (ix r).toNat) 63 = true) →
    let q := p.release (if ∃ r ∈ rows, far r then 5 else 3)
    let sent := ({ q with sends := q.sends ++ rows.map (s.sendReq f a w g0) } : State).modWk
      fun w => rows.foldl (fun w r => w.countSent (ix r).toNat) w
    exec (.wsend f) o = .next (sent.afterE .W f 0 []) := by
  intro s sh fmt w g0 ix rows far h1 h2 h3 hr hrows q sent
  have hlegal : (cvtFmt fmt && decide (sh.slots ≤ 8192) && sh.fits w) = true := by
    rw [h1, decide_eq_true h2, h3]
    rfl
  have hsel : (upFrom 0 (sh.slots / g0)).filter (sendsRow (s.maskOf f.lo3) (s.indexAt f.b8)) = rows := by
    rw [upFrom_zero]
    rfl
  rw [exec_wsend, execWsend]
  dsimp only
  refine go_none h ?_
  rw [m_bind_ok (m_look id _)]
  dsimp only [id]
  refine (m_bind_ok (legal_ok hlegal _)).trans ?_
  refine (m_bind_ok hr).trans ?_
  exact sends_ok (f := f) (s := s) a (s.indexAt f.b8) w g0 hsel hrows

/-- R247: decode jobs. -/
theorem wattd_ok :
    let s := o.gained .W f
    let j := s.newJob f
    descOk j.desc j.buf = true → jobFurrowOk j.dst j.desc = true →
      (j.buf = true → ∀ x ∈ s.jobs, x.key = s.curKey → x.buf = true → x.failed = none → descTag x.desc ≠ descTag j.desc) →
      copyContext j.dst s = .ok ((), s) → (s.jobsOf s.curKey).length < 16 →
      let r := (s.release (f.mod11.toNat / 16 % 8)).jobStep j j.capture
      exec (.wattd f) o = .next (({ r.1 with jobs := r.1.jobs ++ [r.2] } : State).afterE .W f 0 []) := by
  intro s j h1 h2 h3 h4 h5 r
  have htwin : (j.buf && (s.jobsOf s.curKey).any fun x => x.buf && x.failed.isNone && descTag x.desc == descTag j.desc) = false := by
    rw [Bool.and_eq_false_iff, ← Bool.not_eq_true, List.any_eq_false, or_iff_not_imp_left, not_not]
    intro hb x hx
    obtain ⟨hx, hk⟩ := List.mem_filter.mp hx
    rw [Bool.and_eq_true, Bool.and_eq_true, Option.isNone_iff_eq_none, beq_iff_eq]
    rintro ⟨⟨hb', hf⟩, ht⟩
    exact h3 hb x hx (by simpa using hk) hb' hf ht
  have hlegal : (descOk j.desc j.buf && !(j.buf && (s.jobsOf s.curKey).any fun x => x.buf && x.failed.isNone &&
      descTag x.desc == descTag j.desc) && jobFurrowOk j.dst j.desc) = true := by
    rw [htwin, h1, h2]
    rfl
  rw [exec_wattd, execWattd]
  refine go_none h ?_
  rw [m_bind_ok (m_look id _)]
  dsimp only [id]
  rw [m_bind_ok (legal_ok hlegal _), m_bind_ok h4, m_bind_ok (await_ok (decide_eq_true h5) _), m_bind_ok (m_change _ _)]
  refine (m_bind_ok (m_change _ _)).trans ?_
  simp only [r, ← engineScope_eq]
  rfl

/-- R254: score passes. -/
theorem watts_ok :
    let s := o.gained .W f
    (s.passesOf s.curKey).length < 16 →
      let q := s.release (f.mod11.toNat / 16 % 8)
      let lane := fun (i : Nat) => BitVec.ofNat 32 (slotOf (s.vreg f.a8).data.toNat 32 i)
      let pass : ScorePass :=
        { key := s.curKey, m := lane 0, s := lane 1, tag := f.bc, knot := f.d8.toNat % 32, scope := f.mod11.toNat / 16 % 8
          drop := f.modBit 3, ftz := s.view.ftz, priv := s.wk.sup.priv, pc := s.st.pc, born := s.tick }
      exec (.watts f) o = .next (({ q with passes := q.passes ++ [pass] } : State).afterE .W f 0 []) := by
  intro s h1 q lane pass
  rw [exec_watts, execWatts]
  refine go_none h ?_
  rw [m_bind_ok (m_look id _)]
  dsimp only [id]
  rw [m_bind_ok (await_ok (decide_eq_true h1) _), m_bind_ok (m_change _ _)]
  refine (m_bind_ok (m_change _ _)).trans ?_
  simp only [q, pass, ← engineScope_eq]
  rfl

end

end Sys2Proof.Machine
end

section
/-! PROOF. The copy transforms: which element goes where, converted values and the XOR (O47). -/
namespace Sys2Proof.Machine
open Sys2Proof

/-! ## Source elements -/

theorem inFrame_iff (f : Furrow) (x : Quad Nat) : f.inFrame x = true ↔ ∀ k < 4, x.get k < f.extents.get k := by
  have h : ∀ p : Nat → Prop, (∀ k < 4, p k) ↔ p 0 ∧ p 1 ∧ p 2 ∧ p 3 := fun p =>
    ⟨fun h => ⟨h 0 (by decide), h 1 (by decide), h 2 (by decide), h 3 (by decide)⟩,
      fun ⟨h0, h1, h2, h3⟩ k hk => by
        match k, hk with
        | 0, _ => exact h0
        | 1, _ => exact h1
        | 2, _ => exact h2
        | 3, _ => exact h3⟩
  rw [h]
  simp only [Furrow.inFrame, Bool.and_eq_true, decide_eq_true_eq, and_assoc]
  exact Iff.rfl

/-- R237, R238: the source element of a destination element. -/
theorem copy_from (c : CopyCmd) (e : Quad Nat) :
    let p := c.dst.pos
    let n := c.src.extents
    let j := (128 * e.c2 + e.c0) / c.src.blockLen
    (c.xf = 0 ∨ c.xf = 4 ∨ c.xf = 5 → c.from e = some e) ∧
    (c.xf = 1 → c.from e = some ⟨e.c1, e.c0, e.c2, e.c3⟩) ∧
    (c.xf = 2 → ∀ x, c.from e = some x ↔ ∀ k < 4, e.get k = p.get k + x.get k ∧ x.get k < n.get k) ∧
    (c.xf = 3 →
      c.from e = (if 128 * e.c2 + e.c0 < n.c0 then some ⟨128 * e.c2 + e.c0, e.c1, 0, 0⟩ else none) ∧
      c.scaleFrom e = (if j * c.src.blockLen < n.c0 then some ⟨j * c.src.blockLen, e.c1, 0, 0⟩ else none)) ∧
    (c.xf ≠ 3 → c.scaleFrom e = some e) := by
  intro p n j
  refine ⟨?_, ?_, ?_, ?_, ?_⟩
  · rintro (h | h | h) <;> simp only [CopyCmd.from, h]
  · intro h
    simp only [CopyCmd.from, h]
  · intro h x
    have hall : ∀ q : Nat → Prop, (∀ k < 4, q k) → q 0 ∧ q 1 ∧ q 2 ∧ q 3 := fun q h =>
      ⟨h 0 (by decide), h 1 (by decide), h 2 (by decide), h 3 (by decide)⟩
    unfold CopyCmd.from
    rw [h]
    simp only [Option.ite_none_right_eq_some, Option.some.injEq]
    constructor
    · rintro ⟨⟨h0, h1, h2, h3, hf⟩, rfl⟩ k hk
      refine ⟨?_, (inFrame_iff _ _).mp hf k hk⟩
      match k, hk with
      | 0, _ => exact (Nat.add_sub_cancel' h0).symm
      | 1, _ => exact (Nat.add_sub_cancel' h1).symm
      | 2, _ => exact (Nat.add_sub_cancel' h2).symm
      | 3, _ => exact (Nat.add_sub_cancel' h3).symm
    · intro hx
      obtain ⟨⟨h0, -⟩, ⟨h1, -⟩, ⟨h2, -⟩, ⟨h3, -⟩⟩ := hall _ hx
      have h0 : e.c0 = c.dst.pos.c0 + x.c0 := h0
      have h1 : e.c1 = c.dst.pos.c1 + x.c1 := h1
      have h2 : e.c2 = c.dst.pos.c2 + x.c2 := h2
      have h3 : e.c3 = c.dst.pos.c3 + x.c3 := h3
      have hxe : (⟨e.c0 - c.dst.pos.c0, e.c1 - c.dst.pos.c1, e.c2 - c.dst.pos.c2, e.c3 - c.dst.pos.c3⟩ : Quad Nat) = x := by
        obtain ⟨x0, x1, x2, x3⟩ := x
        dsimp only at h0 h1 h2 h3
        simp only [Quad.mk.injEq]
        omega
      rw [hxe]
      exact ⟨⟨by omega, by omega, by omega, by omega, (inFrame_iff _ _).mpr fun k hk => (hx k hk).2⟩, rfl⟩
  · intro h
    unfold CopyCmd.from CopyCmd.scaleFrom
    rw [h]
    exact ⟨rfl, rfl⟩
  · intro h
    unfold CopyCmd.scaleFrom
    rw [if_neg h]

theorem mayFind_noteRead (s : State) (r : Reader) (k i n m v : Nat) :
    (s.noteRead (.cell k i 0) m).mayFind r (.cell k i 0) n v ↔ s.mayFind r (.cell k i 0) n v := Iff.rfl

/-- R239: a copy's read of an accumulator cell. -/
theorem copy_cell (c : CopyCmd) (e : Quad Nat) (h : c.xf = 6) (s : State) :
    let q : Place := .cell c.key (c.tile.base.toNat + e.c1 * c.tile.cols.toNat + e.c0) 0
    (c.reader s).acq = .all (if c.ord then s.tick + 1 else c.born + 1) ∧
    (∀ k pa, s.readCheck q 32 = some (.machine k pa) → c.value e s = .error (.machine 4 pa)) ∧
    (s.readCheck q 32 = none → ∃ v t, s.mayFind (c.reader s) q 32 v ∧
      c.value e s = .ok (readCell c.dst.format 0 c.e4m3sat c.ftz 0 c.tile.anchor.toInt (BitVec.ofNat 256 v), t)) := by
  intro q
  have hvalue : c.value e s = (do
      let v ← engineRead (c.reader s) q 32
      pure (readCell c.dst.format 0 c.e4m3sat c.ftz 0 c.tile.anch (BitVec.ofNat 256 v)) : M (Nat × Counts)) s := by
    unfold CopyCmd.value
    rw [m_bind_ok (m_look id _)]
    dsimp only [id]
    rw [if_pos h]
    rfl
  refine ⟨rfl, fun k pa hk => ?_, fun hk => ?_⟩
  · have hc : engineCheck q 32 s = .error (.machine 4 pa) := by
      unfold engineCheck
      rw [m_bind_ok (m_look id _)]
      dsimp only [id]
      rw [hk]
      rfl
    have hr : engineRead (c.reader s) q 32 s = .error (.machine 4 pa) := m_bind_error hc
    exact hvalue.trans (m_bind_error hr)
  · have hc : engineCheck q 32 s = .ok ((), s.noteRead q 32) := by
      unfold engineCheck
      rw [m_bind_ok (m_look id _)]
      dsimp only [id]
      rw [hk]
      rfl
    have hr : engineRead (c.reader s) q 32 s = .ok ((s.noteRead q 32).look (c.reader s) q 32, (s.noteRead q 32).looked (c.reader s) q 32) :=
      m_bind_ok hc
    exact ⟨_, _, (mayFind_noteRead s _ _ _ 32 32 _).mp (look_mayFind (s.noteRead q 32) (c.reader s) q 32), hvalue.trans (m_bind_ok hr)⟩

/-! ## Conversions -/

theorem floatFmt_low {sf : Nat} (h : sf ≤ 4) : intFmt sf = none := by
  unfold intFmt
  rw [if_neg (by omega), if_neg (by omega)]

theorem convertBits_int {x y : Nat × Bool × Nat} {df sf : Nat} (hx : x ∈ intRows) (hy : y ∈ intRows) (hsf : x.1 = sf) (hdf : y.1 = df)
    (sat ftz : Bool) (v : Nat) :
    let i : Int := if x.2.1 then signed x.2.2 v else (v % 2 ^ x.2.2 : Nat)
    let w := y.2.2
    let lo : Int := if y.2.1 then -2 ^ (w - 1) else 0
    let hi : Int := if y.2.1 then 2 ^ (w - 1) - 1 else 2 ^ w - 1
    convertBits df sf sat ftz v = ((if sat then max lo (min hi i) else i) % 2 ^ w).toNat := by
  intro i w lo hi
  have hrange : intRange y.2.1 w = (lo, hi) := by
    unfold intRange
    simp only [lo, hi, w]
    cases y.2.1 <;> simp
  unfold convertBits
  rw [← hsf, ← hdf, (intRow_fmt x hx).2, (intRow_fmt y hy).2]
  dsimp only
  rw [clampInt_eq (intRange_le _ _), wrap_eq, hrange]
  rfl

/-- R118, R237: a converted value. -/
theorem convertBits_eq (df sf v : Nat) (sat ftz : Bool) :
    (∀ x ∈ intRows, x.1 = sf →
      let i : Int := if x.2.1 then signed x.2.2 v else (v % 2 ^ x.2.2 : Nat)
      (∀ y ∈ intRows, y.1 = df →
        let w := y.2.2
        let lo : Int := if y.2.1 then -2 ^ (w - 1) else 0
        let hi : Int := if y.2.1 then 2 ^ (w - 1) - 1 else 2 ^ w - 1
        convertBits df sf sat ftz v = ((if sat then max lo (min hi i) else i) % 2 ^ w).toNat) ∧
      (df ≤ 4 → convertBits df sf sat ftz v = (convTo df 0 sat ftz 0 (.fin (decide (i < 0)) i.natAbs 0 false)).bits)) ∧
    (sf ≤ 4 → convertBits df sf sat ftz v = (convTo df 0 sat ftz 0 (readNum sf ftz v)).bits) := by
  constructor
  · intro x hx hsf i
    refine ⟨fun y hy hdf => ?_, fun hdf => ?_⟩
    · exact convertBits_int hx hy hsf hdf sat ftz v
    · unfold convertBits
      rw [← hsf, (intRow_fmt x hx).2, floatFmt_low hdf]
      rfl
  · intro hsf
    unfold convertBits
    rw [floatFmt_low hsf]

/-! ## Re-block -/

/-- What is needed of a format that re-block writes: its blocks are of 16, 32 or 64 elements. -/
theorem blockLen_cases {d : Furrow} (h : d.fmt.toNat / 2 ^ 5 % 4 ≠ 3) : d.blockLen = 16 ∨ d.blockLen = 32 ∨ d.blockLen = 64 := by
  unfold Furrow.blockLen
  rw [bits_eq]
  have : d.fmt.toNat / 2 ^ 5 % 2 ^ 2 = 0 ∨ d.fmt.toNat / 2 ^ 5 % 2 ^ 2 = 1 ∨ d.fmt.toNat / 2 ^ 5 % 2 ^ 2 = 2 := by omega
  obtain h | h | h := this <;> rw [h] <;> decide

theorem reblock_width : ∀ x ∈ [13, 14, 15, 16, 17, 18], fmtWidth x = 4 ∨ fmtWidth x = 8 ∨ fmtWidth x = 16 := by
  decide

section
variable {d a : Furrow} {k n : Nat} (hfmt : d.format ∈ [13, 14, 15, 16, 17, 18]) (hlb : d.fmt.toNat / 2 ^ 5 % 4 ≠ 3)
  (hi : d.indirect = false) (h0 : a.extent 0 ≤ 512) (h1 : a.extent 1 ≤ 512) (hn : n < a.extent 1)
  (hk : k < 128 * ((a.extent 0 + 127) / 128))

theorem banded_fmt : (d.banded a).format = d.format ∧ (d.banded a).bax = 0 ∧ (d.banded a).blockLen = d.blockLen := by
  have hb : bits d.fmt.toNat 5 2 < 4 := by rw [bits_eq]; omega
  have hf : d.format < 32 := by
    unfold Furrow.format
    rw [bits_eq]
    omega
  have hword : ((d.banded a).fmt).toNat = d.format + bits d.fmt.toNat 5 2 * 32 := by
    show (BitVec.ofNat 64 (d.format + bits d.fmt.toNat 5 2 <<< 5)).toNat = _
    rw [BitVec.toNat_ofNat, Nat.shiftLeft_eq]
    omega
  refine ⟨?_, ?_, ?_⟩
  · show bits (d.banded a).fmt.toNat 0 5 = _
    rw [hword, bits_eq]
    omega
  · show bits (d.banded a).fmt.toNat 7 2 = _
    rw [hword, bits_eq]
    omega
  · unfold Furrow.blockLen
    rw [hword]
    congr 1
    rw [bits_eq]
    omega

include h0 h1 in
theorem banded_extents : (d.banded a).extents = ⟨128, a.extent 1, ceilDiv (a.extent 0) 128, 1⟩ := by
  have hc : ceilDiv (a.extent 0) 128 ≤ 4 := by
    unfold ceilDiv
    omega
  show (⟨(128 : BitVec 16).toNat, (BitVec.ofNat 16 (a.extent 1)).toNat, (BitVec.ofNat 16 (ceilDiv (a.extent 0) 128)).toNat,
    (1 : BitVec 16).toNat⟩ : Quad Nat) = _
  rw [BitVec.toNat_ofNat, BitVec.toNat_ofNat, Nat.mod_eq_of_lt (by omega), Nat.mod_eq_of_lt (by omega)]
  rfl

include h0 h1 hn hk in
theorem banded_inFrame : (d.banded a).inFrame ⟨k % 128, n, k / 128, 0⟩ = true := by
  rw [inFrame_iff, banded_extents h0 h1]
  intro i hi
  match i, hi with
  | 0, _ => exact Nat.mod_lt _ (by decide)
  | 1, _ => exact hn
  | 2, _ =>
    show k / 128 < ceilDiv (a.extent 0) 128
    unfold ceilDiv
    omega
  | 3, _ => exact Nat.one_pos

theorem signed_small {v : Nat} (h : 2 * v < 2 ^ 48) : signed 48 (BitVec.ofNat 64 v).toNat = v := by
  unfold signed
  rw [BitVec.toNat_ofNat, Nat.mod_eq_of_lt (by omega : v < 2 ^ 64), Nat.mod_eq_of_lt (by omega : v < 2 ^ 48), if_pos h]

include hfmt hi h1 in
theorem banded_addr :
    let w := fmtWidth d.format
    let run := k / 128 * a.extent 1 + n
    (d.banded a).addr d.format ⟨k % 128, n, k / 128, 0⟩ 0 =
      (((d.base.toNat : Int) + (run * (16 * w) + w * (k % 128) / 8 : Nat)).toNat % 2 ^ 64, w * (k % 128) % 8) := by
  intro w run
  have hw : w = 4 ∨ w = 8 ∨ w = 16 := reblock_width _ hfmt
  have hind : (d.banded a).indirect = false := hi
  have hs1 : (d.banded a).stride 1 = (16 * w : Nat) := signed_small (show 2 * (16 * w) < 2 ^ 48 by clear_value w; omega)
  have hs2 : (d.banded a).stride 2 = (a.extent 1 * 16 * w : Nat) := signed_small (by
    have : a.extent 1 * 16 * w ≤ 512 * 16 * 16 := Nat.mul_le_mul (Nat.mul_le_mul_right 16 h1) (by clear_value w; omega)
    calc 2 * (a.extent 1 * 16 * w) ≤ 2 * (512 * 16 * 16) := Nat.mul_le_mul_left 2 this
      _ < 2 ^ 48 := by decide)
  have hs3 : (d.banded a).stride 3 = 0 := rfl
  have hs0 : w ≠ 4 → (d.banded a).stride 0 = (w / 8 : Nat) := fun h => by
    show signed 48 (if w = 4 then (0 : BitVec 64) else BitVec.ofNat 64 (w / 8)).toNat = _
    rw [if_neg h]
    exact signed_small (by clear_value w; omega)
  have hwrap : ∀ x : Nat, wrap 64 ((d.base.toNat : Int) + (x : Int)) = ((d.base.toNat : Int) + (x : Int)).toNat % 2 ^ 64 := fun x => by
    unfold wrap
    omega
  unfold Furrow.addr
  simp only [hind, Bool.false_and, Bool.false_eq_true, if_false, hs1, hs2, hs3]
  have hrun : k / 128 * a.extent 1 * (16 * w) = a.extent 1 * 16 * w * (k / 128) := by ring
  have hsum : (run * (16 * w) + w * (k % 128) / 8 : Nat) =
      w * (k % 128) / 8 + 16 * w * n + a.extent 1 * 16 * w * (k / 128) := by
    simp only [run]
    rw [Nat.add_mul, hrun]
    ring
  rw [hsum, ← hwrap]
  by_cases h8 : fmtWidth d.format < 8
  · rw [if_pos h8, if_pos h8]
    refine congrArg (fun x => (wrap 64 x, w * (k % 128) % 8)) ?_
    show (d.base.toNat : Int) + _ + (16 * w : Nat) * (n : Int) + (a.extent 1 * 16 * w : Nat) * ((k / 128 : Nat) : Int) + 0 * ((0 : Nat) : Int) = _
    push_cast
    ring
  · rw [if_neg h8, if_neg h8, hs0 (fun h => h8 (lt_of_eq_of_lt h (by decide)))]
    have hlane : w * (k % 128) / 8 = w / 8 * (k % 128) ∧ w * (k % 128) % 8 = 0 := by
      have : ¬ w < 8 := h8
      clear_value w
      obtain rfl | rfl | rfl := hw <;> omega
    rw [hlane.1, hlane.2]
    refine congrArg (fun x => (wrap 64 x, 0)) ?_
    show (d.base.toNat : Int) + (w / 8 : Nat) * ((k % 128 : Nat) : Int) + (16 * w : Nat) * (n : Int) +
      (a.extent 1 * 16 * w : Nat) * ((k / 128 : Nat) : Int) + 0 * ((0 : Nat) : Int) = _
    push_cast
    ring

include hlb h0 h1 in
theorem banded_scale :
    let j := k / d.blockLen
    let per := 128 / d.blockLen
    (d.banded a).scaleAddr ⟨k % 128, n, k / 128, 0⟩ =
      (d.sbase.toNat + (j * d.blockLen / 128 * a.extent 1 + n) * per + j % per) % 2 ^ 64 := by
  intro j per
  obtain ⟨-, hbax, hlen⟩ := banded_fmt (d := d) (a := a)
  have hone : (d.banded a).sstride.toInt = 1 := rfl
  have hbase : (d.banded a).sbase = d.sbase := rfl
  have hext : (d.banded a).extent 0 = 128 := rfl
  unfold Furrow.scaleAddr Furrow.blockIndex
  simp only [hone, hbase, hbax, hlen, hext, banded_extents h0 h1]
  have hidx : linearIn ((⟨128, a.extent 1, ceilDiv (a.extent 0) 128, 1⟩ : Quad Nat).set 0 (ceilDiv 128 d.blockLen))
      ((⟨k % 128, n, k / 128, 0⟩ : Quad Nat).set 0 ((k % 128) / d.blockLen)) =
      (j * d.blockLen / 128 * a.extent 1 + n) * per + j % per := by
    have hband : j * d.blockLen / 128 = k / 128 ∧ j % per = k % 128 / d.blockLen ∧ ceilDiv 128 d.blockLen = per := by
      simp only [j, per]
      obtain h | h | h := blockLen_cases hlb <;> (rw [h]; refine ⟨by omega, by omega, rfl⟩)
    rw [hband.1, hband.2.1, hband.2.2]
    show k % 128 / d.blockLen + per * (n + a.extent 1 * (k / 128 + _ * 0)) = _
    ring
  have hsum : ((d.sbase.toNat : Int) + 1 * ((((j * d.blockLen / 128 * a.extent 1 + n) * per + j % per : Nat)) : Int)) =
      ((d.sbase.toNat + (j * d.blockLen / 128 * a.extent 1 + n) * per + j % per : Nat) : Int) := by
    push_cast
    ring
  refine (congrArg (fun x : Nat => wrap 64 ((d.sbase.toNat : Int) + 1 * (x : Int))) hidx).trans ?_
  rw [hsum]
  unfold wrap
  exact congrArg Int.toNat (Int.natCast_mod _ _).symm

end

/-! ## XOR -/

/-- Bytes from an address up, as a little-endian number. -/
def littleEndian (g : Nat → Byte) (a : Nat) : Nat → Nat
  | 0 => 0
  | n + 1 => (g a).toNat + littleEndian g (a + 1) n <<< 8

theorem physNat_eq (s : State) (n : Nat) : ∀ a, s.physNat a n = littleEndian s.physByte a n := by
  induction n with
  | zero => exact fun _ => rfl
  | succ n ih =>
    intro a
    unfold State.physNat littleEndian
    rw [ih]

theorem memoryNat_eq (m : Memory) (n : Nat) : ∀ a, m.nat a n = littleEndian m.read a n := by
  induction n with
  | zero => exact fun _ => rfl
  | succ n ih =>
    intro a
    unfold Memory.nat littleEndian
    rw [ih]

theorem littleEndian_lt (g : Nat → Byte) (n : Nat) : ∀ a, littleEndian g a n < 2 ^ (8 * n) := by
  induction n with
  | zero => exact fun _ => Nat.one_pos
  | succ n ih =>
    intro a
    unfold littleEndian
    have h1 := ih (a + 1)
    have h2 := (g a).isLt
    rw [Nat.shiftLeft_eq, show 8 * (n + 1) = 8 * n + 8 by omega, pow_add]
    omega

theorem littleEndian_written (g : Nat → Byte) (n : Nat) : ∀ a v,
    (∀ k < n, g (a + k) = nth 0 (toBytes v n) k) → littleEndian g a n = v % 2 ^ (8 * n) := by
  induction n with
  | zero => intro a v _; simp [littleEndian, Nat.mod_one]
  | succ n ih =>
    intro a v h
    have h0 : g a = BitVec.ofNat 8 v := h 0 (Nat.succ_pos n)
    have hrest := ih (a + 1) (v >>> 8) fun k hk => by
      have := h (k + 1) (by omega)
      rw [show a + 1 + k = a + (k + 1) by omega, this]
      rfl
    unfold littleEndian
    rw [hrest, h0, BitVec.toNat_ofNat, Nat.shiftLeft_eq, Nat.shiftRight_eq_div_pow, show 8 * (n + 1) = 8 + 8 * n by omega, pow_add,
      Nat.mod_mul]
    ring

theorem nat_of_written {g g' : Nat → Byte} {a n v : Nat}
    (h : ∀ b, g' b = if a ≤ b ∧ b < a + (toBytes v n).length then nth 0 (toBytes v n) (b - a) else g b) :
    littleEndian g' a n = v % 2 ^ (8 * n) := by
  refine littleEndian_written g' n a v fun k hk => ?_
  rw [h, toBytes_length, if_pos (by omega), Nat.add_sub_cancel_left]

theorem readPlace_lt {s : State} {p : Place} (n : Nat) (h : (∃ q, p = .phys q) ∨ ∃ k o, p = .spad k o) : s.readPlace p n < 2 ^ (8 * n) := by
  obtain ⟨q, rfl⟩ | ⟨k, o, rfl⟩ := h
  · exact (physNat_eq s n q.addr).trans_lt (littleEndian_lt _ _ _)
  · exact (memoryNat_eq _ n o).trans_lt (littleEndian_lt _ _ _)

/-- A number written to memory or to a scratchpad is read back. -/
theorem readPlace_writePlace {s : State} {p : Place} (n v : Nat)
    (h : (∃ q, p = .phys q) ∨ ∃ k o, p = .spad k o ∧ s.worker? k ≠ none) :
    (s.writePlace p (toBytes v n)).readPlace p n = v % 2 ^ (8 * n) := by
  obtain ⟨q, rfl⟩ | ⟨k, o, rfl, hk⟩ := h
  · exact (physNat_eq _ n q.addr).trans (nat_of_written (physByte_putBytes q _ s q.addr))
  · obtain ⟨w, hw⟩ := Option.ne_none_iff_exists'.mp hk
    have hworker : (s.writePlace (.spad k o) (toBytes v n)).worker k = { w with spad := w.spad.writeBytes o (toBytes v n) } :=
      worker_some (worker?_modWorker _ hw).1
    refine Eq.trans (congrArg (fun x : Worker => x.spad.nat o n) hworker) ?_
    exact (memoryNat_eq _ n o).trans (nat_of_written (Memory.read_writeBytes _ _ o))

theorem recordAt_reads (s : State) (a : Author) (p q : Place) (e : Nat → Edit) (n : Nat) :
    (s.recordAt a p e).readPlace q n = s.readPlace q n ∧ (s.recordAt a p e).workers = s.workers := by
  unfold State.recordAt
  cases p.line? with
  | none => exact ⟨rfl, rfl⟩
  | some x =>
    cases q with
    | phys p =>
      refine ⟨?_, rfl⟩
      show State.physNat _ _ _ = State.physNat _ _ _
      rw [physNat_eq, physNat_eq]
      rfl
    | spad k o => exact ⟨rfl, rfl⟩
    | cell k i b => exact ⟨rfl, rfl⟩
    | knot k i => exact ⟨rfl, rfl⟩

/-- R240: a destination element holds the XOR of both. -/
theorem xorItem_reads (s : State) (a : Author) (w v : Nat) (t : Touch) (h8 : 8 ≤ w) (hm : w % 8 = 0) (hn : t.size = w / 8)
    (hs : t.shift = 0) (hv : v < 2 ^ w) (hp : (∃ p, t.place = .phys p) ∨ (∃ k o, t.place = .spad k o ∧ s.worker? k ≠ none)) :
    (s.xorItem a w (t, v)).readPlace t.place t.size = s.readPlace t.place t.size ^^^ v := by
  have hw : 8 * (w / 8) = w := by omega
  have hlt : s.readPlace t.place t.size < 2 ^ w := by
    have := readPlace_lt (s := s) t.size (hp.imp id fun ⟨k, o, h, _⟩ => ⟨k, o, h⟩)
    rwa [hn, hw, ← hn] at this
  have hread : bits (s.readPlace t.place t.size) t.shift w = s.readPlace t.place t.size := by
    rw [hs, bits_eq, pow_zero, Nat.div_one, Nat.mod_eq_of_lt hlt]
  unfold State.xorItem State.putItem
  dsimp only
  rw [if_pos h8, hread]
  refine (congrArg (State.readPlace _ t.place) hn).trans ?_
  rw [readPlace_writePlace, hw, Nat.mod_eq_of_lt (Nat.xor_lt_two_pow hlt hv)]
  refine hp.imp id fun ⟨k, o, h, hk⟩ => ⟨k, o, h, ?_⟩
  unfold State.worker?
  rw [(recordAt_reads s a t.place t.place _ 0).2]
  exact hk

/-- Settles O47: what W hands over at issue, and the copy transforms. -/
theorem copiesSendsAndDecodeJobs : Obligations.CopiesSendsAndDecodeJobs := by
  unfold Obligations.CopiesSendsAndDecodeJobs
  refine ⟨fun f o h => ⟨wcpy_ok h, wsend_ok h, wattd_ok h, watts_ok h⟩, fun c e => ?_, fun df sf v sat ftz => convertBits_eq df sf v sat ftz,
    fun d a k n hfmt hlb hi h0 h1 hn hk => ⟨banded_inFrame h0 h1 hn hk, banded_addr hfmt hi h1, banded_scale hlb h0 h1⟩,
    fun s a w v t h8 hm hn hs hv hp => xorItem_reads s a w v t h8 hm hn hs hv hp⟩
  obtain ⟨h1, h2, h3, h4, h5⟩ := copy_from c e
  exact ⟨h1, h2, h3, h4, h5, copy_cell c e⟩

end Sys2Proof.Machine
end

section
/-! PROOF. Which pending result lands next, and what a landing does to the worker (O48). -/
namespace Sys2Proof.Machine
open Sys2Proof

/-! ## The entry that lands next -/

theorem any_take {α : Type} (l : List α) (i : Nat) (f : α → Bool) :
    (l.take i).any f = true ↔ ∃ j < i, ∃ x, l[j]? = some x ∧ f x = true := by
  rw [List.any_eq_true]
  constructor
  · rintro ⟨x, hx, hf⟩
    obtain ⟨j, hj, rfl⟩ := List.mem_iff_getElem.mp hx
    have hlen := List.length_take ▸ hj
    refine ⟨j, by omega, _, ?_, hf⟩
    rw [List.getElem_take]
    exact List.getElem?_eq_getElem _
  · rintro ⟨j, hj, x, hx, hf⟩
    refine ⟨x, List.mem_iff_getElem?.mpr ⟨j, ?_⟩, hf⟩
    rw [List.getElem?_take_of_lt hj, hx]

/-- An earlier entry whose landing point is passed. -/
def Ahead (l : List Pend) (i : Nat) (P : Pend → Prop) : Prop := ∃ j < i, ∃ x, l[j]? = some x ∧ x.count = 0 ∧ P x

/-- An act of an entry pushes a queue. -/
def Pend.Pushes (p : Pend) (q : Nat) : Prop := ∃ a ∈ p.acts, a.queue? = some q

/-- An entry can land, or push its next token (R23, R25, R27, R32, R200). -/
def Worker.Able (w : Worker) (l : List Pend) (i : Nat) (p : Pend) : Prop :=
  (p.count = 0 ∧ (p.last = true → i = 0)) ∧
    (p.now ≠ [] ∧ w.roomFor p.now = true ∧ ¬Ahead l i (fun x => ∃ q, p.Pushes q ∧ x.Pushes q) ∧
        (∀ m z c r, p.acts = .words m :: .counts z c :: r → ∀ j < i, ∀ x, l[j]? = some x → ∀ d, .counts z d ∉ x.acts) ∨
      p.now = [] ∧ ∀ q r, p.acts = .token q :: r → w.tokensIn q < 15 ∧ ¬Ahead l i (fun x => .token q ∈ x.acts))

theorem pushes_now (p : Pend) (q : Nat) : p.Pushes q ↔ ∃ a ∈ p.now, a.queue? = some q := by
  constructor
  · rintro ⟨a, ha, hq⟩
    refine ⟨a, List.mem_filter.mpr ⟨ha, ?_⟩, hq⟩
    cases a with
    | token _ => cases hq
    | _ => rfl
  · rintro ⟨a, ha, hq⟩
    exact ⟨a, (List.mem_filter.mp ha).1, hq⟩

theorem meets_iff (p x : Pend) : p.meets x = true ↔ ∃ q, p.Pushes q ∧ x.Pushes q := by
  simp only [Pend.meets, List.any_eq_true, Bool.and_eq_true, beq_iff_eq, pushes_now]
  constructor
  · rintro ⟨a, ha, hs, b, hb, hab⟩
    obtain ⟨q, hq⟩ := Option.isSome_iff_exists.mp hs
    exact ⟨q, ⟨a, ha, hq⟩, b, hb, hab ▸ hq⟩
  · rintro ⟨q, ⟨a, ha, hq⟩, b, hb, hq'⟩
    exact ⟨a, ha, by rw [hq]; rfl, b, hb, hq.trans hq'.symm⟩

theorem counts_iff (x : Pend) (z : Nat) : x.counts z = true ↔ ∃ d, Landing.counts z d ∈ x.acts := by
  simp only [Pend.counts, List.any_eq_true]
  constructor
  · rintro ⟨a, ha, h⟩
    cases a with
    | counts y c =>
      have hy : y = z := by simpa using h
      exact ⟨c, hy ▸ ha⟩
    | _ => cases h
  · rintro ⟨d, hd⟩
    exact ⟨_, hd, by simp⟩

theorem reports_some (p : Pend) (z : Nat) : p.reports = some z ↔ ∃ m c r, p.acts = .words m :: .counts z c :: r := by
  unfold Pend.reports
  split
  · next m y c r h => rw [h]; simp
  · next hno =>
    constructor
    · intro h
      cases h
    · rintro ⟨m, c, r, h⟩
      exact absurd h (hno m z c r)

theorem any_ahead (l : List Pend) (i : Nat) (f : Pend → Bool) :
    (l.take i).any (fun x => x.count == 0 && f x) = true ↔ Ahead l i fun x => f x = true := by
  rw [any_take]
  simp only [Bool.and_eq_true, beq_iff_eq]
  exact Iff.rfl

theorem ready_iff {w : Worker} {l : List Pend} {i : Nat} (hi : i < l.length) (p : Pend) : w.ready (l.take i) p = true ↔ w.Able l i p := by
  have hfirst : (l.take i).isEmpty = true ↔ i = 0 := by
    rw [List.isEmpty_iff, List.take_eq_nil_iff]
    have : l ≠ [] := List.ne_nil_of_length_pos (by omega)
    simp [this]
  have hdue : p.due (l.take i).isEmpty = true ↔ p.count = 0 ∧ (p.last = true → i = 0) := by
    simp only [Pend.due, Bool.and_eq_true, beq_iff_eq, Bool.or_eq_true, Bool.not_eq_true', hfirst]
    cases p.last <;> simp
  unfold Worker.ready Worker.Able
  rw [Bool.and_eq_true, hdue]
  refine and_congr_right fun _ => ?_
  by_cases hnow : p.now = []
  · rw [if_pos (List.isEmpty_iff.mpr hnow)]
    simp only [hnow, ne_eq, not_true, false_and, true_and, false_or]
    split
    · next q r hacts =>
      rw [Bool.and_eq_true, decide_eq_true_iff, Bool.not_eq_true', ← Bool.not_eq_true, any_ahead]
      simp only [List.contains_iff_mem, hacts, List.cons.injEq, Landing.token.injEq]
      constructor
      · rintro ⟨h1, h2⟩ q' r' ⟨rfl, -⟩
        exact ⟨h1, h2⟩
      · exact fun h => h q r ⟨rfl, rfl⟩
    · next hno => simp only [true_iff]; exact fun q r h => absurd h (hno q r)
  · rw [if_neg fun h => hnow (List.isEmpty_iff.mp h)]
    simp only [hnow, ne_eq, not_false_eq_true, true_and, false_and, or_false, Bool.and_eq_true, Bool.not_eq_true', ← Bool.not_eq_true,
      any_ahead, meets_iff, and_assoc]
    refine and_congr_right fun _ => and_congr_right fun _ => ?_
    cases hrep : p.reports with
    | none =>
      simp only [true_iff]
      exact fun m z c r h => absurd ((reports_some p z).mpr ⟨m, c, r, h⟩) (by rw [hrep]; exact Option.some_ne_none z ∘ Eq.symm)
    | some z =>
      obtain ⟨m, c, r, hacts⟩ := (reports_some p z).mp hrep
      dsimp only
      rw [Bool.not_eq_true', ← Bool.not_eq_true, any_take]
      simp only [counts_iff, not_exists, not_and, hacts, List.cons.injEq, Landing.words.injEq, Landing.counts.injEq]
      constructor
      · rintro h m' z' c' r' ⟨-, ⟨rfl, -⟩, -⟩ j hj x hx d
        exact h j hj x hx d
      · exact fun h j hj x hx d => h m z c r ⟨rfl, ⟨rfl, rfl⟩, rfl⟩ j hj x hx d

theorem readyFrom_first (w : Worker) {p : Pend} : ∀ (l a : List Pend) (j : Nat), l[j]? = some p → w.ready (a ++ l.take j) p = true →
    (∀ k < j, ∀ q, l[k]? = some q → w.ready (a ++ l.take k) q = false) → w.readyFrom a l = some (a.length + j, p)
  | [], _, _, h, _, _ => by simp at h
  | q :: l, a, 0, h, hr, _ => by
    have hq : q = p := by simpa using h
    unfold Worker.readyFrom
    rw [if_pos (by simpa [hq] using hr), hq]
    rfl
  | q :: l, a, j + 1, h, hr, hk => by
    have h0 : w.ready a q = false := by simpa using hk 0 (Nat.succ_pos j) q rfl
    unfold Worker.readyFrom
    rw [if_neg (by rw [h0]; exact Bool.false_ne_true), readyFrom_first w l (a ++ [q]) j (by simpa using h) (by simpa using hr)
      fun k hkj x hx => by simpa using hk (k + 1) (by omega) x (by simpa using hx)]
    simp only [List.length_append, List.length_singleton, Option.some.injEq, Prod.mk.injEq, and_true]
    omega

/-- R23, R25, R27: the first entry that can land is due. -/
theorem due_iff (w : Worker) (e : Eng) (i : Nat) (p : Pend) : w.due e = some (i, p) ↔
    (w.strands.get e).pend[i]? = some p ∧ w.Able (w.strands.get e).pend i p ∧
      ∀ j < i, ∀ x, (w.strands.get e).pend[j]? = some x → ¬w.Able (w.strands.get e).pend j x := by
  have hlen : ∀ {j : Nat} {x : Pend}, (w.strands.get e).pend[j]? = some x → j < (w.strands.get e).pend.length := fun h =>
    (List.getElem?_eq_some_iff.mp h).1
  constructor
  · intro h
    obtain ⟨h1, h2, h3⟩ := due_some h
    refine ⟨h1, (ready_iff (hlen h1) p).mp h2, fun j hj x hx hable => ?_⟩
    have := (ready_iff (hlen hx) x).mpr hable
    rw [h3 j hj x hx] at this
    cases this
  · rintro ⟨h1, h2, h3⟩
    have := readyFrom_first w (w.strands.get e).pend [] i h1 (by simpa using (ready_iff (hlen h1) p).mpr h2) fun k hk x hx => by
      rw [List.nil_append, ← Bool.not_eq_true]
      exact fun hr => h3 k hk x hx ((ready_iff (hlen hx) x).mp hr)
    simpa [Worker.due] using this

theorem imageRoom_iff (w : Worker) (q : Nat) (x : ImgEntry) : w.roomFor [.image q x] = true ↔
    (w.image q).length < 4 ∧
      (w.image q = [] ∨
        (w.images.map fun y => ((y.2.drop 1).map fun z => (z.count * z.width + 8191) / 8192 * 1024).sum).sum
          + (x.count * x.width + 8191) / 8192 * 1024 ≤ 65536) := by
  have hroom : w.roomFor [.image q x] = w.imageRoom q x := by
    unfold Worker.roomFor
    exact (if_pos rfl).trans (Bool.and_true _)
  rw [hroom]
  simp only [Worker.imageRoom, Bool.and_eq_true, decide_eq_true_eq, Bool.or_eq_true, List.isEmpty_iff]
  exact Iff.rfl

theorem wordRoom_iff (w : Worker) (l : List Word) : w.roomFor [.words l] = true ↔ w.q15.length + l.length ≤ 16 := by
  have hroom : w.roomFor [.words l] = decide (w.q15.length + l.length ≤ Config.wordCap) := by
    unfold Worker.roomFor
    exact (if_pos rfl).trans (Bool.and_true _)
  rw [hroom, decide_eq_true_iff]
  exact Iff.rfl

/-! ## What a landing leaves of the strand's queue -/

theorem putPend_eq {l : List Pend} {i : Nat} (hi : i < l.length) (p : Pend) (r : List Landing) :
    putPend l i { p with acts := r } = l.take i ++ (if r = [] then [] else [{ p with acts := r }]) ++ l.drop (i + 1) := by
  unfold putPend
  by_cases hr : r = []
  · subst hr
    simp [dropNth, List.eraseIdx_eq_take_drop_succ]
  · rw [if_neg fun h => hr (List.isEmpty_iff.mp h), if_neg hr]
    simp [setNth, List.set_eq_take_append_cons_drop, hi]

theorem without_nil (p : Pend) : Pend.without [] p = p := by
  have : ∀ a, Landing.without [] a = a := fun a => by
    cases a with
    | vregs l => simp [Landing.without]
    | _ => rfl
  rw [Pend.without, show Landing.without [] = id from funext this, List.map_id]

theorem map_without_nil (l : List Pend) : l.map (Pend.without []) = l := by
  rw [show Pend.without [] = id from funext without_nil, List.map_id]

/-- An act that leaves the strands alone. -/
def Aside (g : Worker → Worker) : Prop :=
  (∀ w, (g w).strands = w.strands) ∧ ∀ w e t, g (w.setStrand e t) = (g w).setStrand e t

theorem Aside.comp {g k : Worker → Worker} (hg : Aside g) (hk : Aside k) : Aside fun w => k (g w) :=
  ⟨fun w => (hk.1 _).trans (hg.1 w), fun w e t => by
    show k (g (w.setStrand e t)) = _
    rw [hg.2, hk.2]⟩

/-- What tokens behind an entry's acts are not. -/
def Tokens (r : List Landing) : Prop := ∀ a ∈ r, ∃ q, a = .token q

theorem Tokens.settled {r : List Landing} (h : Tokens r) (s : State) : r.map s.settled = r := by
  induction r with
  | nil => rfl
  | cons a r ih =>
    obtain ⟨q, rfl⟩ := h a List.mem_cons_self
    rw [List.map_cons, ih fun a ha => h a (List.mem_cons_of_mem _ ha)]
    rfl

theorem Tokens.facts {r : List Landing} (h : Tokens r) : r.flatMap Landing.parts = [] ∧
    r.any Landing.isKnotAdd = false ∧ r.filter Landing.isToken = r ∧ (r.filter fun a => !a.isToken) = [] := by
  induction r with
  | nil => exact ⟨rfl, rfl, rfl, rfl⟩
  | cons a r ih =>
    obtain ⟨q, rfl⟩ := h a List.mem_cons_self
    obtain ⟨h2, h3, h4, h5⟩ := ih fun a ha => h a (List.mem_cons_of_mem _ ha)
    refine ⟨h2, h3, ?_, h5⟩
    rw [List.filter_cons_of_pos (by rfl), h4]

/-- A whole landing whose acts leave the strands alone. -/
theorem landDue_aside {w : Worker} {e : Eng} {i : Nat} {p : Pend} {now r : List Landing} {g : Worker → Worker}
    (hi : i < (w.strands.get e).pend.length) (hnow : p.now = now) (hr : p.acts.filter Landing.isToken = r)
    (hg : ∀ w, now.foldl Worker.landAct w = g w) (ha : Aside g) :
    w.landDue e i p = (g w).setStrand e { w.strands.get e with
      pend := ((w.strands.get e).pend.take i).map (Pend.without (now.flatMap Landing.dests)) ++
        (if r = [] then [] else [{ p with acts := r }]) ++ (w.strands.get e).pend.drop (i + 1) } := by
  have hlen : (((w.strands.get e).pend.take i).map (Pend.without (now.flatMap Landing.dests))).length = i := by
    rw [List.length_map, List.length_take]
    omega
  have hempty : r.isEmpty = true ↔ r = [] := List.isEmpty_iff
  unfold Worker.landDue
  simp only [hnow, hr, hg, ha.2, setStrand_get, setStrand_setStrand, hempty, List.take_left' hlen, List.drop_left' hlen]

end Sys2Proof.Machine
end

section
/-! PROOF. What each kind of landing does to the device (O48). -/
namespace Sys2Proof.Machine
open Sys2Proof

theorem writeLanding_live {s t : State} (hl : s.live = true) (h : landReady .land s = t) : exec .writeLanding s = .next t :=
  congrArg Host.Outcome.next ((if_pos hl).trans h)

theorem queuePush_live {s t : State} (hl : s.live = true) (h : pushQueue s = t) : exec .queuePush s = .next t :=
  congrArg Host.Outcome.next ((if_pos hl).trans h)

theorem tokenPush_live {s t : State} (hl : s.live = true) (h : pushToken s = t) : exec .tokenPush s = .next t :=
  congrArg Host.Outcome.next ((if_pos hl).trans h)

/-- While nothing can land the three events change nothing. -/
theorem landings_idle {s : State} (h : s.live = false ∨ s.wk.due s.curEng = none) :
    exec .writeLanding s = .next s ∧ exec .queuePush s = .next s ∧ exec .tokenPush s = .next s := by
  rw [exec_writeLanding, exec_queuePush, exec_tokenPush]
  unfold execWriteLanding execQueuePush execTokenPush
  obtain h | h := h
  · rw [h]
    exact ⟨rfl, rfl, rfl⟩
  · have h1 : landWrite s = s := by
      unfold landWrite landReady
      rw [h]
    have h2 : pushQueue s = s := by
      unfold pushQueue landReady
      rw [h]
      rfl
    have h3 : pushToken s = s := by
      unfold pushToken
      rw [h]
    rw [h1, h2, h3, ite_self]
    exact ⟨rfl, rfl, rfl⟩

/-! ## An entry's kind and its acts -/

/-- Acts that land as they stand. -/
def Landing.Stands (a : Landing) : Prop := a.isToken = false ∧ a.isKnotAdd = false ∧ ∀ q e l, a ≠ .fetched q e l

theorem Landing.Stands.facts {a : Landing} (h : a.Stands) (s : State) : s.settled a = a ∧ a.parts = [] := by
  obtain ⟨-, -, h⟩ := h
  cases a with
  | fetched q e l => exact absurd rfl (h q e l)
  | _ => exact ⟨rfl, rfl⟩

section
variable {s : State} {i : Nat} {p : Pend} {now r : List Landing}

theorem now_eq (hr : Tokens r) (hacts : p.acts = now ++ r) (hnow : ∀ a ∈ now, a.isToken = false) :
    p.now = now ∧ p.acts.filter Landing.isToken = r := by
  obtain ⟨-, -, h4, h5⟩ := hr.facts
  have h1 : now.filter (fun a => !a.isToken) = now := List.filter_eq_self.mpr fun a ha => by rw [hnow a ha]; rfl
  have h2 : now.filter Landing.isToken = [] := List.filter_eq_nil_iff.mpr fun a ha => by rw [hnow a ha]; exact Bool.false_ne_true
  unfold Pend.now
  rw [hacts, List.filter_append, List.filter_append, h1, h2, h4, h5]
  exact ⟨List.append_nil _, rfl⟩

theorem kind_eq (hnow : p.now = now) (hne : now ≠ []) : p.kind = if now.any Landing.isPush then .push else .land := by
  unfold Pend.kind
  rw [hnow, if_neg fun h => hne (List.isEmpty_iff.mp h)]

theorem landReady_due {k : DueKind} (hd : s.wk.due s.curEng = some (i, p)) (hk : p.kind = k) : landReady k s =
    ((s.refetched p).modWk fun w => w.landDue s.curEng i (s.settledPend p)).landed p := by
  unfold landReady
  rw [hd]
  exact if_pos hk

theorem due_length (hd : s.wk.due s.curEng = some (i, p)) : i < s.st.pend.length :=
  (List.getElem?_eq_some_iff.mp (due_some hd).1).1

theorem stands_lands (hd : s.wk.due s.curEng = some (i, p)) (hr : Tokens r) (hacts : p.acts = now ++ r) (hne : now ≠ [])
    (hs : ∀ a ∈ now, a.Stands) : landReady (if now.any Landing.isPush then .push else .land) s = s.setWk (s.wk.landDue s.curEng i p) := by
  obtain ⟨h2, h3, -, -⟩ := hr.facts
  have hset : s.settledPend p = p := by
    have : p.acts.map s.settled = p.acts := by
      rw [hacts, List.map_append, hr.settled, List.map_congr_left fun a ha => ((hs a ha).facts s).1, List.map_id']
    unfold State.settledPend
    rw [this]
  have hparts : s.refetched p = s := by
    have : p.acts.flatMap Landing.parts = [] := by
      rw [hacts, List.flatMap_append, h2, List.append_nil, List.flatMap_eq_nil_iff]
      exact fun a ha => ((hs a ha).facts s).2
    unfold State.refetched
    rw [this]
    rfl
  have hknot : p.acts.any Landing.isKnotAdd = false := by
    rw [hacts, List.any_append, h3, Bool.or_false, List.any_eq_false]
    exact fun a ha => by rw [(hs a ha).2.1]; exact Bool.false_ne_true
  rw [landReady_due hd (kind_eq (now_eq hr hacts fun a ha => (hs a ha).1).1 hne), hset, hparts]
  unfold State.landed
  rw [if_neg (by rw [hknot]; exact Bool.false_ne_true)]
  rfl

/-- A whole landing whose acts stand as they are and leave the strands alone. -/
theorem aside_lands {g : Worker → Worker} (hd : s.wk.due s.curEng = some (i, p)) (hr : Tokens r) (hacts : p.acts = now ++ r)
    (hne : now ≠ []) (hs : ∀ a ∈ now, a.Stands) (hg : ∀ w, now.foldl Worker.landAct w = g w) (ha : Aside g) :
    landReady (if now.any Landing.isPush then .push else .land) s = s.setWk ((g s.wk).setStrand s.curEng { s.st with
      pend := (s.st.pend.take i).map (Pend.without (now.flatMap Landing.dests)) ++ (if r = [] then [] else [{ p with acts := r }]) ++
        s.st.pend.drop (i + 1) }) := by
  obtain ⟨h1, h2⟩ := now_eq hr hacts fun a ha => (hs a ha).1
  rw [stands_lands hd hr hacts hne hs, landDue_aside (due_length hd) h1 h2 hg ha]
  rfl

/-- The same where no act writes a destination. -/
theorem aside_left {g : Worker → Worker} (hd : s.wk.due s.curEng = some (i, p)) (hr : Tokens r) (hacts : p.acts = now ++ r)
    (hne : now ≠ []) (hs : ∀ a ∈ now, a.Stands) (hg : ∀ w, now.foldl Worker.landAct w = g w) (ha : Aside g)
    (hdest : now.flatMap Landing.dests = []) : landReady (if now.any Landing.isPush then .push else .land) s =
      s.setWk ((g s.wk).setStrand s.curEng { s.st with pend := putPend s.st.pend i { p with acts := r } }) := by
  rw [aside_lands hd hr hacts hne hs hg ha, hdest, map_without_nil, putPend_eq (due_length hd)]

end

/-! ## Acts that leave the strands alone -/

theorem satAdd_eq (a b : BitVec 32) : satAdd a b = BitVec.ofNat 32 (min (a.toNat + b.toNat) (2 ^ 32 - 1)) := by
  unfold satAdd
  by_cases h : a.toNat + b.toNat < 2 ^ 32
  · rw [if_pos h, Nat.min_eq_left (by omega)]
    exact BitVec.eq_of_toNat_eq (by rw [BitVec.toNat_add, BitVec.toNat_ofNat])
  · rw [if_neg h, Nat.min_eq_right (by omega)]
    rfl

theorem addQsat_eq (w : Worker) (n : Nat) : w.addQsat n = { w with qsat := BitVec.ofNat 32 (min (w.qsat.toNat + n) (2 ^ 32 - 1)) } := by
  unfold Worker.addQsat
  rw [satAdd_eq, BitVec.toNat_ofNat, Nat.mod_eq_of_lt (by omega), show min (w.qsat.toNat + min n (2 ^ 32 - 1)) (2 ^ 32 - 1) =
    min (w.qsat.toNat + n) (2 ^ 32 - 1) by omega]

/-- Counters with an update, saturating (R83). -/
def Worker.plusCounts (w : Worker) (z : Nat) (c : Counts) : Counts :=
  let sat := fun (a b : BitVec 32) => BitVec.ofNat 32 (min (a.toNat + b.toNat) (2 ^ 32 - 1))
  let a := w.tileCounts z
  ⟨sat a.nanc c.nanc, sat a.infc c.infc, sat a.ovfc c.ovfc, sat a.satc c.satc, sat a.inxc c.inxc⟩

theorem counts_land (w : Worker) (z : Nat) (c : Counts) : w.landAct (.counts z c) = w.setCounts z (w.plusCounts z c) := by
  show w.setCounts z ((w.tileCounts z).add c) = _
  unfold Counts.add
  simp only [satAdd_eq]
  rfl

theorem aside_sset (d : Nat) (v : Word) : Aside fun w => w.sset d v := by
  refine ⟨fun w => sset_strands w d v, fun w e t => ?_⟩
  unfold Worker.sset
  split
  · rfl
  · rfl

theorem aside_mset (m : Nat) (v : BitVec 65536) : Aside fun w => w.mset m v := ⟨fun _ => rfl, fun _ _ _ => rfl⟩

theorem aside_qsat (n : Nat) : Aside fun w => { w with qsat := BitVec.ofNat 32 (min (w.qsat.toNat + n) (2 ^ 32 - 1)) } :=
  ⟨fun _ => rfl, fun _ _ _ => rfl⟩

theorem aside_counts (z : Nat) (c : Counts) : Aside fun w => w.setCounts z (w.plusCounts z c) := ⟨fun _ => rfl, fun _ _ _ => rfl⟩

theorem aside_image (q : Nat) (x : ImgEntry) : Aside fun w => w.setImage q (w.image q ++ [x]) := ⟨fun _ => rfl, fun _ _ _ => rfl⟩

theorem aside_words (l : List Word) : Aside fun w => { w with q15 := w.q15 ++ l } := ⟨fun _ => rfl, fun _ _ _ => rfl⟩

/-! ## The landings, one kind after another -/

theorem stands_one {a : Landing} (ha : a.Stands) : ∀ x ∈ [a], x.Stands := fun _ hx => List.mem_singleton.mp hx ▸ ha

theorem stands_two {a b : Landing} (ha : a.Stands) (hb : b.Stands) : ∀ x ∈ [a, b], x.Stands := by
  intro x hx
  obtain rfl | hx := List.mem_cons.mp hx
  · exact ha
  · rw [List.mem_singleton.mp hx]
    exact hb

theorem sreg_stands (d : Nat) (v : Word) : (Landing.sreg d v).Stands := ⟨rfl, rfl, fun _ _ _ h => by cases h⟩
theorem mask_stands (m : Nat) (v : BitVec 65536) : (Landing.mask m v).Stands := ⟨rfl, rfl, fun _ _ _ h => by cases h⟩
theorem vregs_stands (l : List (Nat × VReg)) : (Landing.vregs l).Stands := ⟨rfl, rfl, fun _ _ _ h => by cases h⟩
theorem qsat_stands (n : Nat) : (Landing.qsat n).Stands := ⟨rfl, rfl, fun _ _ _ h => by cases h⟩
theorem counts_stands (z : Nat) (c : Counts) : (Landing.counts z c).Stands := ⟨rfl, rfl, fun _ _ _ h => by cases h⟩
theorem image_stands (q : Nat) (x : ImgEntry) : (Landing.image q x).Stands := ⟨rfl, rfl, fun _ _ _ h => by cases h⟩
theorem words_stands (l : List Word) : (Landing.words l).Stands := ⟨rfl, rfl, fun _ _ _ h => by cases h⟩

/-! ## The landings, one kind after another -/

section
variable {s : State} {i : Nat} {p : Pend} {r : List Landing} (hd : s.wk.due s.curEng = some (i, p)) (hr : Tokens r)
include hd hr

theorem sreg_lands {d : Nat} {v : Word} (h : p.acts = .sreg d v :: r) : landWrite s = s.setWk ((s.wk.sset d v).setStrand s.curEng { s.st with
    pend := (s.st.pend.take i).map (Pend.without [(0, d)]) ++ (if r = [] then [] else [{ p with acts := r }]) ++ s.st.pend.drop (i + 1) }) :=
  aside_lands hd hr (now := [.sreg d v]) h (List.cons_ne_nil _ _) (stands_one (sreg_stands d v)) (fun _ => rfl) (aside_sset d v)

theorem mask_lands {m : Nat} {v : BitVec 65536} (h : p.acts = .mask m v :: r) : landWrite s = s.setWk ((s.wk.mset m v).setStrand s.curEng
    { s.st with pend := (s.st.pend.take i).map (Pend.without [(2, m)]) ++ (if r = [] then [] else [{ p with acts := r }]) ++
      s.st.pend.drop (i + 1) }) :=
  aside_lands hd hr (now := [.mask m v]) h (List.cons_ne_nil _ _) (stands_one (mask_stands m v)) (fun _ => rfl) (aside_mset m v)

theorem qsat_lands {n : Nat} (h : p.acts = .qsat n :: r) :
    landWrite s = s.setWk (({ s.wk with qsat := BitVec.ofNat 32 (min (s.wk.qsat.toNat + n) (2 ^ 32 - 1)) } : Worker).setStrand s.curEng
      { s.st with pend := putPend s.st.pend i { p with acts := r } }) :=
  aside_left hd hr (now := [.qsat n]) h (List.cons_ne_nil _ _) (stands_one (qsat_stands n)) (fun w => addQsat_eq w n) (aside_qsat n) rfl

theorem counts_lands {z : Nat} {c : Counts} (h : p.acts = .counts z c :: r) :
    landWrite s = s.setWk ((s.wk.setCounts z (s.wk.plusCounts z c)).setStrand s.curEng
      { s.st with pend := putPend s.st.pend i { p with acts := r } }) :=
  aside_left hd hr (now := [.counts z c]) h (List.cons_ne_nil _ _) (stands_one (counts_stands z c)) (fun w => counts_land w z c)
    (aside_counts z c) rfl

/-- A push lands as any entry does, unless it is fetched again from a marked sector. -/
theorem pushQueue_stands {now : List Landing} (h : p.acts = now ++ r) (hs : ∀ a ∈ now, a.Stands) : pushQueue s = landReady .push s := by
  have hbad : s.badFetch p = none := by
    unfold State.badFetch
    rw [h, List.findSome?_eq_none_iff]
    intro a ha
    obtain ha | ha := List.mem_append.mp ha
    · obtain ⟨-, -, ha⟩ := hs a ha
      cases a with
      | fetched q e l => exact absurd rfl (ha q e l)
      | _ => rfl
    · obtain ⟨q, rfl⟩ := hr a ha
      rfl
  unfold pushQueue
  rw [hd]
  exact congrArg (fun o : Option Nat => match o with
    | some pa => s.machineCheck s.wk s.curEng.code (checkKind pa) pa s.st.pc
    | none => landReady .push s) hbad

theorem push_lands {g : Worker → Worker} {now : List Landing} (h : p.acts = now ++ r) (hne : now ≠ []) (hs : ∀ a ∈ now, a.Stands)
    (hpush : now.any Landing.isPush = true) (hg : ∀ w, now.foldl Worker.landAct w = g w) (ha : Aside g)
    (hdest : now.flatMap Landing.dests = []) :
    pushQueue s = s.setWk ((g s.wk).setStrand s.curEng { s.st with pend := putPend s.st.pend i { p with acts := r } }) := by
  have := aside_left hd hr h hne hs hg ha hdest
  rw [hpush] at this
  rw [pushQueue_stands hd hr h hs]
  exact this

theorem image_lands {q : Nat} {x : ImgEntry} (h : p.acts = .image q x :: r) :
    pushQueue s = s.setWk ((s.wk.setImage q (s.wk.image q ++ [x])).setStrand s.curEng
      { s.st with pend := putPend s.st.pend i { p with acts := r } }) :=
  push_lands hd hr (now := [.image q x]) h (List.cons_ne_nil _ _) (stands_one (image_stands q x)) rfl (fun _ => rfl) (aside_image q x) rfl

theorem image_qsat_lands {q n : Nat} {x : ImgEntry} (h : p.acts = .image q x :: .qsat n :: r) :
    pushQueue s = s.setWk (({ s.wk.setImage q (s.wk.image q ++ [x]) with
        qsat := BitVec.ofNat 32 (min (s.wk.qsat.toNat + n) (2 ^ 32 - 1)) } : Worker).setStrand s.curEng
      { s.st with pend := putPend s.st.pend i { p with acts := r } }) :=
  push_lands hd hr (now := [.image q x, .qsat n]) h (List.cons_ne_nil _ _) (stands_two (image_stands q x) (qsat_stands n)) rfl
    (fun _ => addQsat_eq _ n) ((aside_image q x).comp (aside_qsat n)) rfl

theorem image_counts_lands {q z : Nat} {x : ImgEntry} {c : Counts} (h : p.acts = .image q x :: .counts z c :: r) :
    pushQueue s = s.setWk (((s.wk.setImage q (s.wk.image q ++ [x])).setCounts z (s.wk.plusCounts z c)).setStrand s.curEng
      { s.st with pend := putPend s.st.pend i { p with acts := r } }) :=
  push_lands hd hr (now := [.image q x, .counts z c]) h (List.cons_ne_nil _ _) (stands_two (image_stands q x) (counts_stands z c)) rfl
    (fun _ => counts_land _ z c) ((aside_image q x).comp (aside_counts z c)) rfl

theorem words_lands {l : List Word} (h : p.acts = .words l :: r) :
    pushQueue s = s.setWk (({ s.wk with q15 := s.wk.q15 ++ l } : Worker).setStrand s.curEng
      { s.st with pend := putPend s.st.pend i { p with acts := r } }) :=
  push_lands hd hr (now := [.words l]) h (List.cons_ne_nil _ _) (stands_one (words_stands l)) rfl (fun _ => rfl) (aside_words l) rfl

theorem words_counts_lands {z : Nat} {l : List Word} {c : Counts} (h : p.acts = .words l :: .counts z c :: r) :
    pushQueue s = s.setWk ((({ s.wk with q15 := s.wk.q15 ++ l } : Worker).setCounts z (s.wk.plusCounts z c)).setStrand s.curEng
      { s.st with pend := putPend s.st.pend i { p with acts := r } }) :=
  push_lands hd hr (now := [.words l, .counts z c]) h (List.cons_ne_nil _ _) (stands_two (words_stands l) (counts_stands z c)) rfl
    (fun _ => counts_land _ z c) ((aside_words l).comp (aside_counts z c)) rfl

/-! ### A fetched entry -/

omit hd in
theorem fetched_bad {q : Nat} {x : ImgEntry} {l : List Part} (h : p.acts = .fetched q x l :: r) :
    s.badFetch p = s.badPart s.fetcher x l := by
  unfold State.badFetch
  rw [h]
  have hrest : (r.findSome? fun a => match a with
      | .fetched _ e l => s.badPart s.fetcher e l
      | _ => none) = none := by
    rw [List.findSome?_eq_none_iff]
    intro a ha
    obtain ⟨q, rfl⟩ := hr a ha
    rfl
  cases hb : s.badPart s.fetcher x l with
  | none => rw [List.findSome?_cons_of_isNone (by simp [hb])]; exact hrest
  | some pa => rw [List.findSome?_cons_of_isSome (by simp [hb])]; exact hb

omit hd hr in
theorem lookedAll_same (l : List Part) : ∀ s : State, ∃ ws,
    l.foldl (fun (s : State) x => s.looked s.fetcher (.phys (plain x.addr)) x.size) s = { s with writes := ws } := by
  induction l with
  | nil => exact fun s => ⟨s.writes, rfl⟩
  | cons x l ih =>
    intro s
    rw [List.foldl_cons, looked_same]
    obtain ⟨ws, h⟩ := ih { s with writes := (s.looked s.fetcher (.phys (plain x.addr)) x.size).writes }
    exact ⟨ws, h⟩

omit hd hr in
theorem refetched_same (s : State) (p : Pend) : s.refetched p = { s with writes := (s.refetched p).writes } := by
  obtain ⟨ws, h⟩ := lookedAll_same (p.acts.flatMap Landing.parts) s
  have h : s.refetched p = { s with writes := ws } := h
  rw [h]

theorem fetched_lands {q : Nat} {x : ImgEntry} {l : List Part} (h : p.acts = .fetched q x l :: r)
    (hb : s.badPart s.fetcher x l = none) : pushQueue s =
      { s.setWk ((s.wk.setImage q (s.wk.image q ++ [s.refetch s.fetcher x l])).setStrand s.curEng
        { s.st with pend := putPend s.st.pend i { p with acts := r } }) with writes := (s.refetched p).writes } := by
  have hp : p.acts.flatMap Landing.parts = l := by
    rw [h, List.flatMap_cons, hr.facts.1]
    exact List.append_nil l
  have hset : s.settledPend p = { p with acts := .image q (s.refetch s.fetcher x l) :: r } := by
    unfold State.settledPend
    rw [h, List.map_cons, hr.settled]
    rfl
  have hnow := now_eq (p := s.settledPend p) (now := [.image q (s.refetch s.fetcher x l)]) hr (by rw [hset]; rfl)
    fun a ha => by rw [List.mem_singleton.mp ha]; rfl
  have hland := landDue_aside (w := s.wk) (e := s.curEng) (i := i) (p := s.settledPend p) (due_length hd) hnow.1 hnow.2
    (fun _ => rfl) (aside_image q (s.refetch s.fetcher x l))
  have hkind : p.kind = .push := kind_eq (now_eq (now := [.fetched q x l]) hr h fun a ha => by rw [List.mem_singleton.mp ha]; rfl).1
    (List.cons_ne_nil _ _)
  have hknot : p.acts.any Landing.isKnotAdd = false := by
    rw [h, List.any_cons, hr.facts.2.1]
    rfl
  have hpush : pushQueue s = landReady .push s := by
    unfold pushQueue
    rw [hd]
    exact congrArg (fun o : Option Nat => match o with
      | some pa => s.machineCheck s.wk s.curEng.code (checkKind pa) pa s.st.pc
      | none => landReady .push s) ((fetched_bad hr h).trans hb)
  have hq : s.refetched p = { s with writes := (s.refetched p).writes } := refetched_same s p
  rw [hpush, landReady_due hd hkind]
  unfold State.landed
  rw [if_neg (by rw [hknot]; exact Bool.false_ne_true)]
  generalize (s.refetched p).writes = ws at hq
  rw [hq]
  refine (congrArg (fun w : Worker => ({ s with writes := ws } : State).setWk w) hland).trans ?_
  rw [hset, putPend_eq (due_length hd), ← map_without_nil (List.take i s.st.pend)]
  rfl

end

end Sys2Proof.Machine
end

section
/-! PROOF. Knot adds, vector registers, tokens and entries fetched again; the landings as a whole (O48). -/
namespace Sys2Proof.Machine
open Sys2Proof

theorem map_set {α : Type} (f : Five α) (g : α → α) (e : Eng) (x : α) : (f.set e x).map g = (f.map g).set e (g x) := by
  cases e <;> rfl

theorem get_map {α β : Type} (f : Five α) (g : α → β) (e : Eng) : (f.map g).get e = g (f.get e) := by
  cases e <;> rfl

/-- A knot add beside a strand put anew: the strand's wait is told. -/
theorem addKnot_setStrand (w : Worker) (e : Eng) (t : Strand) (k : Nat) (n : BitVec 32) (err : Bool) :
    (w.setStrand e t).addKnot k n err =
      (w.addKnot k n err).setStrand e (t.told k ⟨(w.knot k).val + n, (w.knot k).err || err⟩) := by
  unfold Worker.addKnot Worker.setKnot Worker.setStrand
  simp only [map_set]
  rfl

theorem landDue_knotAdd {w : Worker} {e : Eng} {i : Nat} {p : Pend} {k : Nat} {n : BitVec 32} {r : List Landing}
    (hi : i < (w.strands.get e).pend.length) (hnow : p.now = [.knotAdd k n]) (hr : p.acts.filter Landing.isToken = r) :
    w.landDue e i p =
      (w.setStrand e { w.strands.get e with pend := putPend (w.strands.get e).pend i { p with acts := r } }).addKnot k n false := by
  have hlen : ((w.strands.get e).pend.take i).length = i := by
    rw [List.length_take]
    omega
  have hempty : r.isEmpty = true ↔ r = [] := List.isEmpty_iff
  have hfold : ∀ u : Worker, [Landing.knotAdd k n].foldl Worker.landAct u = u.addKnot k n false := fun _ => rfl
  unfold Worker.landDue
  simp only [hnow, hr, hfold, addKnot_setStrand, setStrand_get, setStrand_setStrand, Strand.told, putPend_eq hi, hempty]
  rw [show List.flatMap Landing.dests [.knotAdd k n] = [] from rfl, map_without_nil, List.take_left' hlen, List.drop_left' hlen]

section
variable {s : State} {i : Nat} {p : Pend} {r : List Landing} (hd : s.wk.due s.curEng = some (i, p)) (hr : Tokens r)
include hd hr

/-- R100, R265: an engine's knot add lands as a release. -/
theorem knotAdd_lands {k : Nat} {n : BitVec 32} (h : p.acts = .knotAdd k n :: r) :
    landWrite s = (s.setWk ((s.wk.setStrand s.curEng { s.st with pend := putPend s.st.pend i { p with acts := r } }).addKnot k n
      false)).releaseTo s.curKey s.curEng p.pos 1 false := by
  have hi := due_length hd
  obtain ⟨hnow, hlater⟩ := now_eq (now := [.knotAdd k n]) hr h fun a ha => by rw [List.mem_singleton.mp ha]; rfl
  have hset : s.settledPend p = p := by
    unfold State.settledPend
    rw [h, List.map_cons, hr.settled]
    obtain ⟨acts, c, l, pos, last⟩ := p
    exact congrArg (fun a => (⟨a, c, l, pos, last⟩ : Pend)) h.symm
  have hparts : s.refetched p = s := by
    unfold State.refetched
    rw [h, List.flatMap_cons, hr.facts.1]
    rfl
  have hknot : p.acts.any Landing.isKnotAdd = true := by
    rw [h]
    rfl
  unfold landWrite
  rw [landReady_due (k := .land) hd (kind_eq hnow (List.cons_ne_nil _ _)), hset, hparts]
  unfold State.landed
  rw [if_pos hknot]
  exact congrArg (fun w : Worker => (s.setWk w).releaseTo s.curKey s.curEng p.pos 1 false) (landDue_knotAdd hi hnow hlater)

end

/-! ## Vector registers -/

/-- The registers, scalars, masks and scratchpad that a landing leaves, and its entry where tokens follow. -/
def Worker.RegsLanded (w : Worker) (e : Eng) (l : List (Nat × VReg)) (i : Nat) (p : Pend) (r : List Landing) (u : Worker) : Prop :=
  (∀ k, u.vget k = (w.landVregs l).vget k) ∧ u.sregs = w.sregs ∧ u.masks = w.masks ∧ u.spad = w.spad ∧
    (r ≠ [] → (u.strands.get e).pend[i]? = some { p with acts := r })

theorem foldl_vset (l : List (Nat × VReg)) : ∀ w : Worker, l.foldl (fun w e => w.vset e.1 e.2) w =
    { w with vregs := l.foldl (fun v e => tabSet .zero v e.1 e.2) w.vregs } := by
  induction l with
  | nil => exact fun _ => rfl
  | cons x l ih =>
    intro w
    rw [List.foldl_cons, ih]
    rfl

/-- What vector registers written by one landing change. -/
theorem landVregs_eq (w : Worker) (l : List (Nat × VReg)) : w.landVregs l = { w.killMaps (l.map Prod.fst) with
    vregs := l.foldl (fun v e => tabSet .zero v e.1 e.2) (w.killMaps (l.map Prod.fst)).vregs } := foldl_vset l _

theorem landVregs_setStrand (w : Worker) (e : Eng) (t : Strand) (l : List (Nat × VReg)) : (w.setStrand e t).landVregs l =
    { w.landVregs l with strands := (w.strands.set e t).map fun t => { t with pend := t.pend.map (Pend.kill (l.map Prod.fst)) } } := by
  rw [landVregs_eq, landVregs_eq]
  rfl

theorem landVregs_rest (w : Worker) (l : List (Nat × VReg)) : (w.landVregs l).sregs = w.sregs ∧ (w.landVregs l).masks = w.masks ∧
    (w.landVregs l).spad = w.spad ∧ (w.landVregs l).qsat = w.qsat ∧ (w.landVregs l).counters = w.counters := by
  rw [landVregs_eq]
  exact ⟨rfl, rfl, rfl, rfl, rfl⟩

/-- A landing that writes vector registers and then does acts that leave strands and registers alone. -/
theorem landDue_vregs {w : Worker} {e : Eng} {i : Nat} {p : Pend} {l : List (Nat × VReg)} {now r : List Landing} {g : Worker → Worker}
    (hi : i < (w.strands.get e).pend.length) (hnow : p.now = .vregs l :: now) (hr : p.acts.filter Landing.isToken = r)
    (hg : ∀ w, now.foldl Worker.landAct w = g w)
    (hregs : ∀ w, (g w).vregs = w.vregs ∧ (g w).sregs = w.sregs ∧ (g w).masks = w.masks ∧ (g w).spad = w.spad ∧ (g w).strands = w.strands) :
    w.RegsLanded e l i p r (w.landDue e i p) ∧ ∃ v t, w.landDue e i p = (g { w.landVregs l with strands := v }).setStrand e t := by
  let ds := (Landing.vregs l :: now).flatMap Landing.dests
  let older := ((w.strands.get e).pend.take i).map (Pend.without ds)
  let t1 : Strand := { w.strands.get e with pend := older ++ (w.strands.get e).pend.drop (i + 1) }
  let v := (w.strands.set e t1).map fun t => { t with pend := t.pend.map (Pend.kill (l.map Prod.fst)) }
  let w2 := g { w.landVregs l with strands := v }
  let t2 := w2.strands.get e
  have hland : w.landDue e i p = w2.setStrand e
      { t2 with pend := t2.pend.take i ++ (if r.isEmpty then [] else [{ p with acts := r }]) ++ t2.pend.drop i } := by
    have hw2 : p.now.foldl Worker.landAct (w.setStrand e { w.strands.get e with
        pend := ((w.strands.get e).pend.take i).map (Pend.without (p.now.flatMap Landing.dests)) ++ (w.strands.get e).pend.drop (i + 1) }) =
        w2 := by
      rw [hnow, List.foldl_cons, hg]
      exact congrArg g (landVregs_setStrand w e t1 l)
    unfold Worker.landDue
    rw [hr]
    dsimp only
    rw [hw2]
  obtain ⟨h1, h2, h3, h4, h5⟩ := hregs { w.landVregs l with strands := v }
  obtain ⟨k1, k2, k3, -, -⟩ := landVregs_rest w l
  have hlen : (t2.pend.take i).length = i := by
    have : t2.pend.length = older.length + ((w.strands.get e).pend.drop (i + 1)).length := by
      simp only [t2, w2, h5, v, get_map, get_set_self, List.length_map, t1, List.length_append]
    rw [List.length_take, this, List.length_map, List.length_take]
    omega
  rw [hland]
  refine ⟨⟨fun k => ?_, h2.trans k1, h3.trans k2, h4.trans k3, fun hne => ?_⟩, v, _, rfl⟩
  · exact congrArg (fun t => tabGet VReg.zero t k) h1
  · rw [setStrand_get, if_neg fun h => hne (List.isEmpty_iff.mp h)]
    show (List.take i t2.pend ++ [_] ++ _)[i]? = _
    rw [List.append_assoc, List.getElem?_append_right (by omega), hlen, Nat.sub_self]
    rfl

/-! ## Tokens -/

/-- R23, R24: a token enters its queue, a release of what the strand has written. -/
theorem token_lands {s : State} {i : Nat} {p : Pend} {q : TokQ} {r : List Landing} (hd : s.wk.due s.curEng = some (i, p))
    (h : p.acts = .token q :: r) : pushToken s =
      (s.setWk ((s.wk.setTokens q (s.wk.tokensIn q + 1)).setStrand s.curEng
        { s.st with pend := putPend s.st.pend i { p with acts := r } })).releaseTo s.curKey s.curEng p.pos 1 false := by
  unfold pushToken
  rw [hd]
  dsimp only
  rw [h]
  rfl

/-! ## Entries fetched again -/

theorem badPart_none (s : State) (a : Reader) (x : ImgEntry) (l : List Part) : s.badPart a x l = none ↔
    ∀ p ∈ l, s.partValue a p ≠ x.partOf p → sectorHit s.badSectors p.addr p.size = none := by
  unfold State.badPart
  simp only [List.findSome?_eq_none_iff, List.mem_filter, bne_iff_ne, and_imp]

theorem slotOf_putPart {e : ImgEntry} {p : Part} {n : Nat} (v : Nat) (hs : p.scale = false) (hw : p.width = n)
    {i : Nat} (hi : (i + 1) * n ≤ 262144) :
    slotOf (e.putPart p v).data.toNat n i = if i = p.slot then v % 2 ^ n else slotOf e.data.toNat n i := by
  have hput : (e.putPart p v).data = BitVec.ofNat 262144 ((Edit.put (n * p.slot) n v).run e.data.toNat) := by
    unfold ImgEntry.putPart
    rw [if_neg (by rw [hs]; exact Bool.false_ne_true), hw]
    rfl
  have hin : n * i + n ≤ 262144 := by
    rw [← Nat.mul_succ, Nat.mul_comm]
    exact hi
  refine Nat.eq_of_testBit_eq fun b => ?_
  by_cases hb : b < n
  · rw [slotOf_testBit, hput, BitVec.toNat_ofNat, Nat.testBit_mod_two_pow, decide_eq_true hb, decide_eq_true (by omega : n * i + b < 262144),
      testBit_putEdit, Bool.true_and, Bool.true_and]
    by_cases his : i = p.slot
    · rw [if_pos his, his, if_pos (by omega), Nat.testBit_mod_two_pow, decide_eq_true hb, Nat.add_sub_cancel_left, Bool.true_and]
    · have hout : ¬(n * p.slot ≤ n * i + b ∧ n * i + b < n * p.slot + n) := by
        rintro ⟨h1, h2⟩
        rcases Nat.lt_or_gt_of_ne his with h | h
        · have := Nat.mul_le_mul_left n h
          rw [Nat.mul_succ] at this
          omega
        · have := Nat.mul_le_mul_left n h
          rw [Nat.mul_succ] at this
          omega
      rw [if_neg hout, if_neg his, slotOf_testBit, decide_eq_true hb, Bool.true_and]
  · have hhigh : ∀ y : Nat, y < 2 ^ n → y.testBit b = false := fun y hy =>
      Nat.testBit_lt_two_pow (lt_of_lt_of_le hy (Nat.pow_le_pow_right (by decide) (by omega)))
    have hlt : v % 2 ^ n < 2 ^ n := Nat.mod_lt _ (by positivity)
    rw [hhigh _ (slotOf_lt _ _ _), hhigh]
    split
    · exact hlt
    · exact slotOf_lt _ _ _

/-- R33: what an entry holds whose parts are fetched again. -/
theorem refetch_slots (s : State) (a : Reader) (n : Nat) : ∀ (l : List Part) (x : ImgEntry),
    (∀ p ∈ l, p.scale = false ∧ p.width = n ∧ (p.slot + 1) * n ≤ 262144) → l.Pairwise (fun a b => a.slot ≠ b.slot) →
    let y := s.refetch a x l
    { y with data := x.data } = x ∧ (∀ p ∈ l, slotOf y.data.toNat n p.slot = s.partValue a p) ∧
      ∀ i, (i + 1) * n ≤ 262144 → (∀ p ∈ l, p.slot ≠ i) → slotOf y.data.toNat n i = slotOf x.data.toNat n i
  | [], _, _, _ => ⟨rfl, fun _ h => absurd h List.not_mem_nil, fun _ _ _ => rfl⟩
  | p :: l, x, hl, hdis => by
    obtain ⟨⟨hs, hw, hp⟩, hl⟩ := List.forall_mem_cons.mp hl
    obtain ⟨hne, hdis⟩ := List.pairwise_cons.mp hdis
    obtain ⟨h1, h2, h3⟩ := refetch_slots s a n l (x.putPart p (s.partValue a p)) hl hdis
    have hstep : s.refetch a x (p :: l) = s.refetch a (x.putPart p (s.partValue a p)) l := rfl
    have hrest : { x.putPart p (s.partValue a p) with data := x.data } = x := by
      unfold ImgEntry.putPart
      rw [if_neg (by rw [hs]; exact Bool.false_ne_true)]
    have hval : s.partValue a p % 2 ^ n = s.partValue a p := by
      unfold State.partValue
      rw [bits_eq, hw, Nat.mod_mod]
    rw [hstep]
    refine ⟨?_, fun q hq => ?_, fun i hi hno => ?_⟩
    · exact (congrArg (fun e : ImgEntry => { e with data := x.data }) h1).trans hrest
    · obtain rfl | hq := List.mem_cons.mp hq
      · rw [h3 _ hp fun b hb => (hne b hb).symm, slotOf_putPart _ hs hw hp, if_pos rfl, hval]
      · exact h2 q hq
    · obtain ⟨hip, hno⟩ := List.forall_mem_cons.mp hno
      rw [h3 i hi hno, slotOf_putPart _ hs hw hi, if_neg hip.symm]

/-! ## The landings as a whole -/

section
variable {s : State} {i : Nat} {p : Pend} {r : List Landing} (hd : s.wk.due s.curEng = some (i, p)) (hr : Tokens r)
include hd hr

/-- Vector registers, and acts behind them that leave strands and registers alone. -/
theorem vregs_lands {l : List (Nat × VReg)} {now : List Landing} {g : Worker → Worker} (h : p.acts = .vregs l :: now ++ r)
    (hs : ∀ a ∈ now, a.Stands) (hg : ∀ w, now.foldl Worker.landAct w = g w)
    (hregs : ∀ w, (g w).vregs = w.vregs ∧ (g w).sregs = w.sregs ∧ (g w).masks = w.masks ∧ (g w).spad = w.spad ∧ (g w).strands = w.strands) :
    ∃ u, landReady (if now.any Landing.isPush then .push else .land) s = s.setWk u ∧ s.wk.RegsLanded s.curEng l i p r u ∧
      ∃ v t, u = (g { s.wk.landVregs l with strands := v }).setStrand s.curEng t := by
  have hs : ∀ a ∈ .vregs l :: now, a.Stands := fun a ha => by
    obtain rfl | ha := List.mem_cons.mp ha
    · exact vregs_stands l
    · exact hs a ha
  obtain ⟨h1, h2⟩ := now_eq hr h fun a ha => (hs a ha).1
  obtain ⟨h3, h4⟩ := landDue_vregs (due_length hd) h1 h2 hg hregs
  exact ⟨_, stands_lands hd hr (now := .vregs l :: now) h (List.cons_ne_nil _ _) hs, h3, h4⟩

theorem vregs_image_lands {l : List (Nat × VReg)} {q : Nat} {x : ImgEntry} (h : p.acts = .vregs l :: .image q x :: r) :
    ∃ u, pushQueue s = s.setWk u ∧ u.image q = (s.wk.landVregs l).image q ++ [x] ∧ s.wk.RegsLanded s.curEng l i p r u := by
  obtain ⟨u, h1, h2, v, t, h3⟩ := vregs_lands hd hr (now := [.image q x]) h (stands_one (image_stands q x))
    (g := fun w => w.setImage q (w.image q ++ [x])) (fun _ => rfl) fun _ => ⟨rfl, rfl, rfl, rfl, rfl⟩
  refine ⟨u, (pushQueue_stands hd hr (now := [.vregs l, .image q x]) h (stands_two (vregs_stands l) (image_stands q x))).trans h1, ?_, h2⟩
  rw [h3]
  exact tabGet_set_self _ _ _ _

end

/-- Settles O48: which pending result lands next, and what each landing does. -/
theorem landings : Obligations.Landings := by
  unfold Obligations.Landings
  intro s w e t answers passed pushes ahead able rest left landed sat plus qsat regs
  refine ⟨due_iff w e, imageRoom_iff w, wordRoom_iff w, fun h => landings_idle h, fun i p hl hd => ⟨fun r hr => ?_, fun q r h => ?_⟩,
    badPart_none s, fun a x l n hn hl hdis => ?_⟩
  · refine ⟨fun d v h => writeLanding_live hl (sreg_lands hd hr h), fun m v h => writeLanding_live hl (mask_lands hd hr h), fun l h => ?_,
      fun k n h => writeLanding_live hl (knotAdd_lands hd hr h), fun n h => writeLanding_live hl (qsat_lands hd hr h),
      fun z c h => writeLanding_live hl (counts_lands hd hr h), fun l n h => ?_, fun l z c h => ?_, fun q x => ?_, fun q x l h => ?_,
      fun l => ?_, fun l q x h => ?_⟩
    · obtain ⟨u, h1, h2, -⟩ := vregs_lands hd hr (now := []) (g := fun w => w) h (fun a ha => absurd ha List.not_mem_nil) (fun _ => rfl)
        fun _ => ⟨rfl, rfl, rfl, rfl, rfl⟩
      exact ⟨u, writeLanding_live hl h1, h2⟩
    · obtain ⟨u, h1, h2, v, t, h3⟩ := vregs_lands hd hr (now := [.qsat n]) h (stands_one (qsat_stands n)) (fun w => addQsat_eq w n)
        fun _ => ⟨rfl, rfl, rfl, rfl, rfl⟩
      refine ⟨u, writeLanding_live hl h1, h2, ?_⟩
      rw [h3]
      obtain ⟨-, -, -, hq, -⟩ := landVregs_rest s.wk l
      exact congrArg (fun b : BitVec 32 => BitVec.ofNat 32 (min (b.toNat + n) (2 ^ 32 - 1))) hq
    · obtain ⟨u, h1, h2, v, t, h3⟩ := vregs_lands hd hr (now := [.counts z c]) h (stands_one (counts_stands z c))
        (fun w => counts_land w z c) fun _ => ⟨rfl, rfl, rfl, rfl, rfl⟩
      obtain ⟨-, -, -, -, hc⟩ := landVregs_rest s.wk l
      have hplus : ({ s.wk.landVregs l with strands := v } : Worker).plusCounts z c = plus z c := by
        unfold Worker.plusCounts Worker.tileCounts
        rw [show ({ s.wk.landVregs l with strands := v } : Worker).counters = s.wk.counters from hc]
        rfl
      refine ⟨u, writeLanding_live hl h1, h2, ?_, fun y hy => ?_⟩
      · rw [h3, hplus]
        exact tabGet_set_self _ _ _ _
      · rw [h3]
        exact (tabGet_set_ne _ _ _ _ _ hy).trans (congrArg (fun t => tabGet Counts.zero t y) hc)
    · exact ⟨fun h => queuePush_live hl (image_lands hd hr h), fun n h => queuePush_live hl (image_qsat_lands hd hr h),
        fun z c h => queuePush_live hl (image_counts_lands hd hr h)⟩
    · refine ⟨fun pa hb => queuePush_live hl ?_, fun hb => queuePush_live hl (fetched_lands hd hr h hb)⟩
      unfold pushQueue
      rw [hd]
      exact congrArg (fun o : Option Nat => match o with
        | some pa => s.machineCheck s.wk s.curEng.code (checkKind pa) pa s.st.pc
        | none => landReady .push s) ((fetched_bad hr h).trans hb)
    · exact ⟨fun h => queuePush_live hl (words_lands hd hr h), fun z c h => queuePush_live hl (words_counts_lands hd hr h)⟩
    · obtain ⟨u, h1, h2, h3⟩ := vregs_image_lands hd hr h
      exact ⟨u, queuePush_live hl h1, h2, h3⟩
  · exact tokenPush_live hl (token_lands hd h)
  · obtain ⟨h1, h2, h3⟩ := refetch_slots s a n l x hl hdis
    refine ⟨h1, fun p hp => ⟨s.look a (.phys (plain p.addr)) (max 1 (n / 8)), look_mayFind s a _ _, ?_⟩, h3⟩
    obtain ⟨-, hw, -⟩ := hl p hp
    rw [h2 p hp, ← hw]
    rfl

end Sys2Proof.Machine
end

section
/-! PROOF. Error records, and the chunks and completion of copy commands (O49). -/
namespace Sys2Proof.Machine
open Sys2Proof

/-! ## Error records -/

/-- No sector of memory has an error. -/
def State.Sound (s : State) : Prop := s.badSectors = [] ∧ s.softSectors = []

theorem sound_eta {s : State} (h : s.Sound) : { s with badSectors := [], softSectors := [] } = s := by
  obtain ⟨h1, h2⟩ := h
  cases s
  cases h1
  cases h2
  rfl

theorem State.Sound.resolve {s u : State} {ag : Agent} {cx : Cx} {va : Nat} {acc : Acc} {p : Phys} (hs : s.Sound)
    (h : s.resolve ag cx va acc = .ok (p, u)) : u.Sound := by
  have hwalk : ∀ (r : List Nat) (s : State), s.Sound → (r.foldl (fun s a => s.correct a 8) s).Sound := by
    intro r
    induction r with
    | nil => exact fun _ h => h
    | cons a r ih =>
      rintro s ⟨h1, h2⟩
      refine ih (s.correct a 8) ⟨h1, ?_⟩
      show s.softSectors.filter _ = []
      rw [h2]
      rfl
  unfold State.resolve at h
  split at h
  · cases h
  · next p' e l new _ =>
    cases h
    split
    · have hfill : ∀ t : State, t.Sound → (t.fill ag e l).Sound := fun t ht => by cases ag <;> exact ht
      exact hfill _ (hwalk _ s hs)
    · exact hs

theorem resolve_reach {s u : State} {ag : Agent} {cx : Cx} {va : Nat} {acc : Acc} {p : Phys} (h : s.resolve ag cx va acc = .ok (p, u)) :
    va < 2 ^ 57 := by
  by_contra hlt
  unfold State.resolve State.translate at h
  rw [if_pos (Nat.not_lt.mp hlt)] at h
  cases h

/-- A translated, aligned access through a context. -/
theorem placeIn_resolved {s u : State} {ag : Agent} {cx : Cx} {va size : Nat} {acc : Acc} {p : Phys} {slot : Option Nat}
    {rights : Place → Bool} (hw : inWindows va = false) (ha : va % size = 0) (h : s.resolve ag cx va acc = .ok (p, u)) :
    placeIn cx ag va size acc slot rights (.ok ()) s = .ok (.phys p, u) := by
  have hal : aligned va size = .ok () := if_pos ha
  unfold placeIn
  rw [m_bind_ok (m_look id s), windowOf_translated rights (resolve_reach h) hw, hal]
  dsimp only [id]
  rw [h]
  rfl

/-- The same where the translation reports a fault. -/
theorem placeIn_fault {s : State} {ag : Agent} {cx : Cx} {va size x : Nat} {acc : Acc} {slot : Option Nat}
    {rights : Place → Bool} (hw : inWindows va = false) (ha : va % size = 0) (h : s.resolve ag cx va acc = .error (.fault x)) :
    ∃ y, placeIn cx ag va size acc slot rights (.ok ()) s = .error (.trap y) := by
  have hal : aligned va size = .ok () := if_pos ha
  unfold placeIn
  rw [m_bind_ok (m_look id s), hal]
  dsimp only [id]
  by_cases h57 : va < 2 ^ 57
  · rw [windowOf_translated rights h57 hw, h]
    exact ⟨_, rfl⟩
  · rw [windowOf_lost rights (.inl (Nat.not_lt.mp h57))]
    exact ⟨_, rfl⟩

theorem localCoverage_phys (x : LocalSector) (p : Phys) (b : List Byte) : x.coverage [(.phys p, b)] = 0 := by
  unfold LocalSector.coverage
  rw [List.length_eq_zero_iff, List.filter_eq_nil_iff]
  exact fun a _ => Bool.false_ne_true

/-- A write to sound memory that every agent sees at once. -/
theorem writeAllM_sound {s : State} (hs : s.Sound) (p : Phys) (b : List Byte) :
    writeAllM [(.phys p, b)] s = .ok ((), (s.noteDoneAt (.phys p) b).putBytes p p.addr b) ∧
      ((s.noteDoneAt (.phys p) b).putBytes p p.addr b).Sound := by
  obtain ⟨h1, h2⟩ := hs
  have hcheck : s.writeCheck [(.phys p, b)] = none := by
    unfold State.writeCheck
    rw [h1]
    dsimp only [List.find?_nil]
    rw [List.find?_eq_none.mpr]
    · rfl
    · intro x _
      rw [localCoverage_phys]
      decide
  have hsweep : ∀ q : State, q.Sound → q.sweep [(.phys p, b)] = q := by
    rintro q ⟨k1, k2⟩
    have hloc : ∀ x : LocalSector, (x.coverage [(.phys p, b)] != 16) = true ∧ (!(x.coverage [(.phys p, b)] != 0)) = true ∧
        partly (x.coverage [(.phys p, b)]) = false := fun x => by
      rw [localCoverage_phys]
      decide
    have f1 : q.badLocal.filter (fun x => x.coverage [(.phys p, b)] != 16) = q.badLocal := List.filter_eq_self.mpr fun x _ => (hloc x).1
    have f2 : q.softLocal.filter (fun x => !(x.coverage [(.phys p, b)] != 0)) = q.softLocal := List.filter_eq_self.mpr fun x _ => (hloc x).2.1
    have f3 : q.softLocal.filter (fun x => partly (x.coverage [(.phys p, b)])) = [] := List.filter_eq_nil_iff.mpr fun x _ => by
      rw [(hloc x).2.2]
      exact Bool.false_ne_true
    unfold State.sweep State.mend
    dsimp only
    rw [k1, k2, f1, f2, f3, List.map_nil, List.append_nil]
    simp only [List.filter_nil, List.foldl_nil]
    exact sound_eta ⟨k1, k2⟩
  have hput : ∀ (l : List Byte) (q : State) (a : Nat), q.Sound → (q.putBytes p a l).Sound := by
    intro l
    induction l with
    | nil => exact fun _ _ h => h
    | cons x l ih =>
      intro q a hq
      refine ih _ _ ?_
      unfold State.putByte
      split
      · exact hq
      · exact hq
  have hnote : (s.noteDoneAt (.phys p) b).Sound := by
    unfold State.noteDoneAt
    split
    · exact ⟨h1, h2⟩
    · rw [noteDone_same]
      exact ⟨h1, h2⟩
  refine ⟨(writeAllM_ok hcheck).trans ?_, hput _ _ _ hnote⟩
  have : s.writeDone [(.phys p, b)] = (s.noteDoneAt (.phys p) b).writeAll [(.phys p, b)] := rfl
  rw [this, writeAll_phys, hsweep _ hnote]

theorem engineCheck_sound {s : State} (hs : s.Sound) (p : Phys) (n : Nat) : engineCheck (.phys p) n s = .ok ((), s) := by
  obtain ⟨h1, h2⟩ := hs
  have hread : s.readCheck (.phys p) n = none := by
    unfold State.readCheck sectorHit
    rw [h1]
    rfl
  have hnote : s.noteRead (.phys p) n = s := by
    show s.correct p.addr n = s
    unfold State.correct
    rw [h2]
    simp only [List.filter_nil, List.foldl_nil]
    exact (congrArg (fun l => { s with badSectors := l, softSectors := [] }) h1).trans (sound_eta ⟨h1, h2⟩)
  unfold engineCheck
  rw [m_bind_ok (m_look id s)]
  dsimp only [id]
  rw [hread]
  exact congrArg (fun t => Except.ok ((), t)) hnote

/-- R235: an error record goes where ERRLOG says, or is dropped. -/
theorem errorRecord_gives (s : State) (w : Worker) (ag : Agent) (r : List Word) :
    let log := w.sup.errlog.toNat
    let cx := { s.cxOf w with user := false }
    (log = 0 → errorRecord w ag r s = .ok ((), s)) ∧
    (∀ x, log ≠ 0 → log % 1024 = 0 → inWindows log = false → s.resolve ag cx log .atomic = .error (.fault x) →
      errorRecord w ag r s = .ok ((), s)) ∧
    ∀ p q, log ≠ 0 → log % 1024 = 0 → inWindows log = false → s.badSectors = [] → s.softSectors = [] →
      s.resolve ag cx log .atomic = .ok (p, q) →
      let n := q.physNat p.addr 4
      let put := fun (v : State) (y : Phys) (b : List Byte) => (v.noteDoneAt (.phys y) b).putBytes y y.addr b
      let u := put q p (toBytes (n + 1) 4)
      (∀ y v, u.resolve ag cx (log + 32 + 32 * (n % 31)) .store = .ok (y, v) →
        errorRecord w ag r s = .ok ((), put v y (r.flatMap fun x => toBytes x.toNat 8))) ∧
      ∀ x, u.resolve ag cx (log + 32 + 32 * (n % 31)) .store = .error (.fault x) → errorRecord w ag r s = .ok ((), s) := by
  intro log cx
  have hact : ∀ x : Except Stop (Unit × State), log ≠ 0 → (do
      let p ← placeIn cx ag log 4 .atomic none (fun _ => false) (.ok ())
      engineCheck p 4
      let n ← M.look fun s => s.readPlace p 4
      writeAllM [(p, toBytes (n + 1) 4)]
      let q ← placeIn cx ag (log + 32 + 32 * (n % 31)) 8 .store none (fun _ => false) (.ok ())
      writeAllM [(q, bytesOf r)] : M Unit) s = x →
      errorRecord w ag r s = match x with
        | .error (.trap _) => .ok ((), s)
        | x => x := by
    intro x hlog hx
    rw [← hx]
    exact if_neg hlog
  refine ⟨fun h => if_pos h, fun x h0 hm hw hr => ?_, fun p q h0 hm hw hb hsoft hr => ?_⟩
  · obtain ⟨y, hy⟩ := placeIn_fault (slot := none) (rights := fun _ => false) (size := 4) hw (by omega) hr
    exact hact _ h0 (m_bind_error hy)
  · intro n put u
    have hsq : q.Sound := State.Sound.resolve ⟨hb, hsoft⟩ hr
    have hcheck : engineCheck (.phys p) 4 q = .ok ((), q) := engineCheck_sound hsq p 4
    have hw1 := writeAllM_sound hsq p (toBytes (n + 1) 4)
    have hbase : inWindows (log + 32 + 32 * (n % 31)) = false := by
      have hpage : (log + 32 + 32 * (n % 31)) >>> 48 = log >>> 48 := by
        rw [Nat.shiftRight_eq_div_pow, Nat.shiftRight_eq_div_pow]
        omega
      unfold inWindows at hw ⊢
      rw [hpage]
      exact hw
    have hal : (log + 32 + 32 * (n % 31)) % 8 = 0 := by omega
    have hstart : ∀ x : Except Stop (Unit × State), (do
        let q ← placeIn cx ag (log + 32 + 32 * (n % 31)) 8 .store none (fun _ => false) (.ok ())
        writeAllM [(q, bytesOf r)] : M Unit) u = x →
        errorRecord w ag r s = match x with
          | .error (.trap _) => .ok ((), s)
          | x => x := fun x hx => hact x h0 (by
      rw [m_bind_ok (placeIn_resolved hw (by omega) hr), m_bind_ok hcheck, m_bind_ok (m_look _ _)]
      exact (m_bind_ok hw1.1).trans hx)
    refine ⟨fun y v hv => ?_, fun x hx => ?_⟩
    · have hsv : v.Sound := State.Sound.resolve hw1.2 hv
      exact hstart _ ((m_bind_ok (placeIn_resolved hbase hal hv)).trans (writeAllM_sound hsv y _).1)
    · obtain ⟨y, hy⟩ := placeIn_fault (slot := none) (rights := fun _ => false) (size := 8) hbase hal hx
      exact hstart _ (m_bind_error hy)

/-! ## Completion knots -/

/-- What a command, a decode job or a score pass has written, as it is seen at its end (R233, R281). -/
theorem visibleAt_eq (s : State) (key born scope : Nat) (err : Bool) : s.visibleAt key born scope err =
    let p := if err then s else { s with writes := s.writes.map fun u =>
      if (u.who == some ⟨key, .command born⟩) then u.perform ⟨s.tick, scope, (s.worker key).core⟩ else u }
    if 4 ≤ scope then p.flushAllPool else p := by
  unfold State.visibleAt
  cases err <;> rfl

/-- A stack attention unit's error: the record, then the knot add with the mark. -/
theorem sauFails_gives {s t : State} {key : Nat} {w : Worker} (hw : s.worker? key = some w) (born xf knot scope cause : Nat) (addr : Word)
    (pc : PAddr) (h : errorRecord w s.sauUnit
      [addr, BitVec.ofNat 64 (w.wid * 2 ^ 32 + knot * 2 ^ 24 + 0xFE * 2 ^ 16 + xf * 2 ^ 10 + cause), Config.openWord 0 w.wid pc.toNat,
        BitVec.ofNat 64 pc.toNat] s = .ok ((), t)) :
    s.sauFails key born xf knot scope cause addr pc =
      (t.visibleAt key born scope true).modWorker key fun u => u.addKnot knot 1 true := by
  have hrec : sauRecord w xf knot cause addr pc =
      [addr, BitVec.ofNat 64 (w.wid * 2 ^ 32 + knot * 2 ^ 24 + 0xFE * 2 ^ 16 + xf * 2 ^ 10 + cause), Config.openWord 0 w.wid pc.toNat,
        BitVec.ofNat 64 pc.toNat] := by
    unfold sauRecord
    simp only [Nat.shiftLeft_eq]
  unfold State.sauFails
  dsimp only
  rw [worker_some hw, hrec, h]
  rfl

/-! ## Copy chunks -/

section
variable {s : State} {key : Nat} {w : Worker} {c : CopyCmd} {pre post : List CopyCmd} (hw : s.worker? key = some w)
  (hs : s.copies = pre ++ c :: post) (hkey : c.key = key) (hpre : ∀ x ∈ pre, ¬(x.key = key ∧ x.seq = c.seq))

/-- A destination element lies whole in the page of a chunk's first. -/
def CopyCmd.Stays (c : CopyCmd) (page i : Nat) : Prop :=
  i < c.dst.frame ∧ (c.dst.addr c.dst.format (c.dst.coords i) 0).1 / 4096 = page ∧
    ((c.dst.addr c.dst.format (c.dst.coords i) 0).1 + max 1 (fmtWidth c.dst.format / 8) - 1) / 4096 = page

theorem within_run (c : CopyCmd) (page : Nat) : ∀ n i, ∃ m ≤ n, c.within page i n = (List.range m).map (i + ·) ∧
    (∀ k < m, c.Stays page (i + k)) ∧ (m < n → ¬c.Stays page (i + m))
  | 0, i => ⟨0, Nat.le_refl 0, rfl, fun k hk => absurd hk (Nat.not_lt_zero k), fun h => absurd h (Nat.not_lt_zero 0)⟩
  | n + 1, i => by
    have hyes : c.Stays page i → c.within page i (n + 1) = i :: c.within page (i + 1) n := fun h => (if_pos h.1).trans (if_pos h.2)
    have hno : ¬c.Stays page i → c.within page i (n + 1) = [] := fun h => by
      by_cases hi : i < c.dst.frame
      · exact (if_pos hi).trans (if_neg fun h' => h ⟨hi, h'⟩)
      · exact if_neg hi
    by_cases hst : c.Stays page i
    · obtain ⟨m, hm, h1, h2, h3⟩ := within_run c page n (i + 1)
      refine ⟨m + 1, by omega, ?_, fun k hk => ?_, fun hlt => ?_⟩
      · rw [hyes hst, h1, List.range_succ_eq_map, List.map_cons, List.map_map]
        refine congrArg (i :: ·) (List.map_congr_left fun k _ => ?_)
        show i + 1 + k = i + (k + 1)
        omega
      · match k with
        | 0 => exact hst
        | k + 1 =>
          have := h2 k (by omega)
          rwa [show i + 1 + k = i + (k + 1) by omega] at this
      · have := h3 (by omega)
        rwa [show i + 1 + m = i + (m + 1) by omega] at this
    · exact ⟨0, Nat.zero_le _, hno hst, fun k hk => absurd hk (Nat.not_lt_zero k), fun _ => hst⟩

/-- R232: the elements of a chunk. -/
theorem chunk_run (c : CopyCmd) : ∃ n, 0 < n ∧ n ≤ 4096 ∧ c.chunk = (List.range n).map (c.next + ·) ∧
    (∀ k, 0 < k → k < n → c.Stays ((c.dst.addr c.dst.format (c.dst.coords c.next) 0).1 / 4096) (c.next + k)) ∧
    (n < 4096 → ¬c.Stays ((c.dst.addr c.dst.format (c.dst.coords c.next) 0).1 / 4096) (c.next + n)) := by
  obtain ⟨m, hm, h1, h2, h3⟩ := within_run c ((c.dst.addr c.dst.format (c.dst.coords c.next) 0).1 / 4096) 4095 (c.next + 1)
  refine ⟨m + 1, by omega, by omega, ?_, fun k h0 hk => ?_, fun hlt => ?_⟩
  · show c.next :: c.within _ (c.next + 1) 4095 = _
    rw [h1, List.range_succ_eq_map, List.map_cons, List.map_map]
    refine congrArg (c.next :: ·) (List.map_congr_left fun k _ => ?_)
    show c.next + 1 + k = c.next + (k + 1)
    omega
  · have := h2 (k - 1) (by omega)
    rwa [show c.next + 1 + (k - 1) = c.next + k by omega] at this
  · have := h3 (by omega)
    rwa [show c.next + 1 + m = c.next + (m + 1) by omega] at this

include hs hkey hpre in
theorem copy?_first : s.copy? key c.seq = some c ∧ before key c.seq s.copies = pre := by
  have hmiss : ∀ x ∈ pre, ¬((x.key == key && x.seq == c.seq) = true) := fun x hx h => by
    rw [Bool.and_eq_true, beq_iff_eq, beq_iff_eq] at h
    exact hpre x hx h
  have hbefore : ∀ l, (∀ x ∈ l, ¬(x.key = key ∧ x.seq = c.seq)) → before key c.seq (l ++ c :: post) = l := by
    intro l
    induction l with
    | nil => exact fun _ => if_pos ⟨hkey, rfl⟩
    | cons x l ih =>
      intro hl
      obtain ⟨hx, hl⟩ := List.forall_mem_cons.mp hl
      exact (if_neg hx).trans (congrArg (x :: ·) (ih hl))
  constructor
  · unfold State.copy?
    rw [hs, List.find?_append, List.find?_eq_none.mpr hmiss, Option.none_or, List.find?_cons_of_pos]
    rw [hkey, beq_self_eq_true, beq_self_eq_true]
    rfl
  · rw [hs]
    exact hbefore pre hpre

include hw in
theorem agentsMay_iff : s.agentsMay key = true ↔ w.status ≠ .saved ∧ (s.launch w.lid).aborting = false := by
  unfold State.agentsMay
  rw [hw]
  simp only [Bool.and_eq_true, bne_iff_ne, Bool.not_eq_true']

include hw hs hkey hpre in
/-- R231: when a command may run its next chunk. -/
theorem chunkMay_iff : s.chunkMay c = true ↔ (w.status ≠ .saved ∧ (s.launch w.lid).aborting = false) ∧ c.failed = false ∧
    c.next < c.dst.frame ∧
    (0 < c.next ∨ c.ecode = 0xFF ∨
      ∀ x ∈ pre, x.ecode = 0xFF ∨ x.engine ≠ c.engine ∨ x.failed = true ∨ 0 < x.next ∨ s.agentsMay x.key = false) ∧
    (c.ord = true → ∀ x ∈ s.copies, x.key = key → c.seq ≤ x.seq) := by
  have hstart : s.mayStart c = true ↔ c.ecode = 0xFF ∨
      ∀ x ∈ pre, x.ecode = 0xFF ∨ x.engine ≠ c.engine ∨ x.failed = true ∨ 0 < x.next ∨ s.agentsMay x.key = false := by
    unfold State.mayStart
    rw [hkey, (copy?_first hs hkey hpre).2]
    simp only [Bool.or_eq_true, beq_iff_eq, Bool.not_eq_true', List.any_eq_false, Bool.and_eq_true, bne_iff_ne, CopyCmd.begun, not_and_or,
      not_not, ne_eq, Bool.not_eq_true, Bool.or_eq_false_iff, Bool.not_eq_false, decide_eq_true_eq, or_assoc]
  have hord : (!c.ord || !(s.copiesOf c.key).any fun x => decide (x.seq < c.seq)) = true ↔
      (c.ord = true → ∀ x ∈ s.copies, x.key = key → c.seq ≤ x.seq) := by
    unfold State.copiesOf
    simp only [Bool.or_eq_true, Bool.not_eq_true', List.any_eq_false, List.mem_filter, beq_iff_eq, decide_eq_true_eq, Nat.not_lt, hkey,
      and_imp]
    cases c.ord <;> simp
  have hover : (!c.isOver) = true ↔ c.failed = false ∧ c.next < c.dst.frame := by
    simp only [CopyCmd.isOver, Bool.not_eq_true', Bool.or_eq_false_iff, decide_eq_false_iff_not, Nat.not_le]
  have hbegun : c.failed = false → (c.begun = true ↔ 0 < c.next) := fun h => by
    simp only [CopyCmd.begun, h, Bool.false_or, decide_eq_true_eq]
  unfold State.chunkMay
  rw [Bool.and_eq_true, Bool.and_eq_true, Bool.and_eq_true, hkey, agentsMay_iff hw, Bool.or_eq_true, hstart, ← hkey, hord, hover]
  constructor
  · rintro ⟨⟨⟨h1, h2, h3⟩, h4⟩, h5⟩
    exact ⟨h1, h2, h3, h4.imp (hbegun h2).mp id, hkey ▸ h5⟩
  · rintro ⟨h1, h2, h3, h4, h5⟩
    exact ⟨⟨⟨h1, h2, h3⟩, h4.imp (hbegun h2).mpr id⟩, hkey ▸ h5⟩

include hs hkey hpre in
theorem copyChunk_idle (h : s.chunkMay c ≠ true) : s.copyChunk key c.seq = s := by
  unfold State.copyChunk
  rw [(copy?_first hs hkey hpre).1]
  exact if_neg h

include hs hkey hpre in
theorem copyChunk_ok {r : List (Touch × Nat) × Counts} {u t : State} (h : s.chunkMay c = true) (he : c.elements c.chunk s = .ok (r, u))
    (hwr : c.writes r.1 u = .ok ((), t)) : s.copyChunk key c.seq =
      t.putCopy { c with next := c.next + c.chunk.length, chunks := c.chunks + 1, counts := c.counts.add r.2 } := by
  have hrun : c.runChunk s = .ok ((), t.putCopy
      { c with next := c.next + c.chunk.length, chunks := c.chunks + 1, counts := c.counts.add r.2 }) := by
    unfold CopyCmd.runChunk
    rw [m_bind_ok he, m_bind_ok hwr]
    rfl
  unfold State.copyChunk
  rw [(copy?_first hs hkey hpre).1]
  dsimp only
  rw [if_pos h, hrun]
  rfl

include hw hs hkey hpre in
theorem copyChunk_machine {kind pa : Nat} (h : s.chunkMay c = true) (he : c.elements c.chunk s = .error (.machine kind pa)) :
    s.copyChunk key c.seq = s.machineCheck w 7 kind pa c.pc := by
  have hrun : c.runChunk s = .error (.machine kind pa) := m_bind_error he
  unfold State.copyChunk
  rw [(copy?_first hs hkey hpre).1]
  dsimp only
  rw [if_pos h, hrun]
  exact congrArg (fun w => s.machineCheck w 7 kind pa c.pc) (worker_some hw)

/-- R235: the error record of a command. -/
theorem record_eq (c : CopyCmd) (w : Worker) (x : Trap) : c.record w x = [BitVec.ofNat 64 x.addr,
    BitVec.ofNat 64 (w.wid * 2 ^ 32 + c.kcode.toNat * 2 ^ 24 + c.ecode.toNat * 2 ^ 16 + c.xf * 2 ^ 10 +
      ((if c.xor then 2 ^ 9 else 0) + (if x.slot = some 1 then 1 else 0) * 2 ^ 8 + x.cause)),
    BitVec.ofNat 64 (c.chunks * 2 ^ 32 + c.seq), BitVec.ofNat 64 c.pc.toNat] := by
  have hsum : ∀ side : Nat, w.wid <<< 32 + c.kcode.toNat <<< 24 + c.ecode.toNat <<< 16 + c.xf <<< 10 + ofBool c.xor <<< 9 + side <<< 8 +
      x.cause = w.wid * 2 ^ 32 + c.kcode.toNat * 2 ^ 24 + c.ecode.toNat * 2 ^ 16 + c.xf * 2 ^ 10 +
        ((if c.xor then 2 ^ 9 else 0) + side * 2 ^ 8 + x.cause) := fun side => by
    simp only [Nat.shiftLeft_eq, ofBool]
    cases c.xor <;> simp only [if_true, Bool.false_eq_true, if_false, Nat.zero_mul, Nat.one_mul] <;> omega
  unfold CopyCmd.record
  dsimp only
  rw [← Nat.shiftLeft_eq c.chunks 32]
  split
  · next h => rw [if_pos h, hsum 1]
  · next h => rw [if_neg h, hsum 0]

include hw hs hkey hpre in
/-- R234, R235: a fault in a chunk ends the command. -/
theorem copyChunk_trap {x : Trap} {t : State} (h : s.chunkMay c = true) (he : c.elements c.chunk s = .error (.trap x))
    (hrec : errorRecord w (.engine c.engine)
      [BitVec.ofNat 64 x.addr, BitVec.ofNat 64 (w.wid * 2 ^ 32 + c.kcode.toNat * 2 ^ 24 + c.ecode.toNat * 2 ^ 16 + c.xf * 2 ^ 10 +
          ((if c.xor then 2 ^ 9 else 0) + (if x.slot = some 1 then 1 else 0) * 2 ^ 8 + x.cause)),
        BitVec.ofNat 64 (c.chunks * 2 ^ 32 + c.seq), BitVec.ofNat 64 c.pc.toNat]
      ((if x.cause = 0x0B then s.modLaunch w.lid fun l => { l with detOff := true } else s).putCopy { c with failed := true }) =
        .ok ((), t)) : s.copyChunk key c.seq = t := by
  have hrun : c.runChunk s = .error (.trap x) := m_bind_error he
  have hfail : c.fail x s = t := by
    unfold CopyCmd.fail
    dsimp only
    have hw' : s.worker c.key = w := hkey ▸ worker_some hw
    rw [hw', record_eq, hrec]
    rfl
  unfold State.copyChunk
  rw [(copy?_first hs hkey hpre).1]
  dsimp only
  rw [if_pos h, hrun]
  exact hfail

/-! ## The end of a command -/

theorem modWorker_modWorker (s : State) (k : Nat) (f g : Worker → Worker) :
    (s.modWorker k f).modWorker k g = s.modWorker k fun u => g (f u) := by
  cases h : s.worker? k with
  | none =>
    have hno : ∀ f, s.modWorker k f = s := fun f => by
      unfold State.modWorker
      rw [h]
    rw [hno, hno, hno]
  | some u =>
    rw [modWorker_some h, modWorker_some h, modWorker_some (worker?_put s k (f u))]
    simp [State.putWorker, tabInsert_put_comm]

theorem completeKnot_window {s : State} {key knot k n : Nat} {va : Word} (err : Bool)
    (h : windowPlace (s.cxOf (s.worker key)) va.toNat = some (.knot k n)) :
    s.completeKnot key knot (some va) err = s.addFarKnot k n 1 err := by
  unfold State.completeKnot
  dsimp only
  rw [h]

include hw hs hkey hpre in
/-- R233, R234, R239: the end of a command, its knot local. -/
theorem copyDone_local (ha : (s.launch w.lid).aborting = false) (hover : c.failed = true ∨ c.dst.frame ≤ c.next) (hr : c.remote = none) :
    s.copyDone key c.seq =
      (({ s with copies := s.copies.filter fun x => !(x.key == key && x.seq == c.seq) } : State).visibleAt key c.born c.scope
        c.failed).modWorker key fun u => (if c.xf = 6 ∧ c.failed = false then
          u.setCounts c.tileNo ((u.tileCounts c.tileNo).add c.counts) else u).addKnot c.knot 1 c.failed := by
  have hcond : (c.isOver && !(s.launch (s.worker key).lid).aborting) = true := by
    unfold CopyCmd.isOver
    rw [worker_some hw, ha, Bool.not_false, Bool.and_true, Bool.or_eq_true, decide_eq_true_eq]
    exact hover
  unfold State.copyDone
  rw [(copy?_first hs hkey hpre).1]
  dsimp only
  rw [if_pos hcond, hr]
  by_cases h6 : c.xf = 6 ∧ c.failed = false
  · simp only [h6, Bool.not_false, and_self, if_true]
    exact modWorker_modWorker _ key _ _
  · have h6' : ¬(c.xf = 6 ∧ (!c.failed) = true) := by rwa [Bool.not_eq_true']
    rw [if_neg h6']
    simp only [h6, if_false]
    rfl

theorem visibleAt_workers (s : State) (key born scope : Nat) (err : Bool) :
    (s.visibleAt key born scope err).workers = s.workers ∧ (s.visibleAt key born scope err).launches = s.launches := by
  unfold State.visibleAt
  cases err <;> dsimp only <;> split <;> exact ⟨rfl, rfl⟩

include hw hs hkey hpre in
/-- The same, its knot in a window. -/
theorem copyDone_remote {va : Word} {k n : Nat} (ha : (s.launch w.lid).aborting = false) (hover : c.failed = true ∨ c.dst.frame ≤ c.next)
    (hr : c.remote = some va) (h6 : c.xf ≠ 6) (hwin : windowPlace (s.cxOf w) va.toNat = some (.knot k n)) :
    s.copyDone key c.seq =
      (({ s with copies := s.copies.filter fun x => !(x.key == key && x.seq == c.seq) } : State).visibleAt key c.born c.scope
        c.failed).modWorker k fun u =>
          { u.addKnot n 1 c.failed with farKnots := if n ∈ u.farKnots then u.farKnots else n :: u.farKnots } := by
  have hcond : (c.isOver && !(s.launch (s.worker key).lid).aborting) = true := by
    unfold CopyCmd.isOver
    rw [worker_some hw, ha, Bool.not_false, Bool.and_true, Bool.or_eq_true, decide_eq_true_eq]
    exact hover
  let gone := ({ s with copies := s.copies.filter fun x => !(x.key == key && x.seq == c.seq) } : State).visibleAt key c.born c.scope c.failed
  obtain ⟨hworkers, hlaunches⟩ := visibleAt_workers { s with copies := s.copies.filter fun x => !(x.key == key && x.seq == c.seq) } key
    c.born c.scope c.failed
  have hworker : gone.worker key = w := by
    have : gone.worker key = s.worker key := congrArg (fun t => (tabFind t key).getD Worker.zero) hworkers
    rw [this, worker_some hw]
  have hcx : gone.cxOf w = s.cxOf w := by
    unfold State.cxOf State.launch
    rw [show gone.launches = s.launches from hlaunches]
  have hplace : windowPlace (gone.cxOf (gone.worker key)) va.toNat = some (.knot k n) := by rw [hworker, hcx, hwin]
  unfold State.copyDone
  rw [(copy?_first hs hkey hpre).1]
  dsimp only
  rw [if_pos hcond, hr, if_neg fun h => h6 h.1]
  refine (completeKnot_window (s := gone) c.failed hplace).trans ?_
  refine congrArg (gone.modWorker k) (funext fun u => ?_)
  have hmem : (if u.farKnots.contains n then u.farKnots else n :: u.farKnots) = if n ∈ u.farKnots then u.farKnots else n :: u.farKnots := by
    simp only [List.contains_iff_mem]
  exact congrArg (fun l => { u.addKnot n 1 c.failed with farKnots := l }) hmem

end

end Sys2Proof.Machine
end

section
/-! PROOF. Decode jobs, score passes, knot adds of stores, requests and refusals (O49). -/
namespace Sys2Proof.Machine
open Sys2Proof

/-! ## Decode jobs -/

section
variable {s : State} {n : Nat} {j : SauJob} (hj : s.jobs[n]? = some j) (hmay : s.agentsMay j.key = true) (hc : j.complete = false)
include hj hmay hc

/-- R250: a job whose table is not captured yet tries again. -/
theorem spanFold_capture (span : Nat) (hf : j.failed = none) (he : j.entries = []) :
    s.spanFold n span = (s.jobStep j j.capture).1.putJob n (s.jobStep j j.capture).2 := by
  have hcond : (s.agentsMay j.key && j.failed.isNone && !j.complete) = true := by rw [hmay, hf, hc]; rfl
  unfold State.spanFold
  rw [hj]
  dsimp only
  rw [if_pos hcond, he]
  rfl

/-- R249: a span is folded. -/
theorem spanFold_fold {span : Nat} (hf : j.failed = none) (he : j.entries ≠ []) (hs : span < descSpans j.desc) (hn : span ∉ j.folded) :
    s.spanFold n span = (s.jobStep j (j.fold span)).1.putJob n (s.jobStep j (j.fold span)).2 := by
  have hcond : (s.agentsMay j.key && j.failed.isNone && !j.complete) = true := by rw [hmay, hf, hc]; rfl
  have hempty : ¬j.entries.isEmpty = true := fun h => he (List.isEmpty_iff.mp h)
  have hturn : (decide (span < descSpans j.desc) && !j.folded.contains span) = true := by
    rw [decide_eq_true hs, Bool.true_and, Bool.not_eq_true', ← Bool.not_eq_true, List.contains_iff_mem]
    exact hn
  unfold State.spanFold
  rw [hj]
  dsimp only
  rw [if_pos hcond, if_neg hempty, if_pos hturn]

theorem jobDone_failed {x : Nat × Word} (hf : j.failed = some x) : s.jobDone n =
    ({ s with jobs := dropNth s.jobs n } : State).sauFails j.key j.born 8 j.knot j.scope x.1 x.2 j.pc := by
  have hcond : ¬(!s.agentsMay j.key || j.complete) = true := by rw [hmay, hc]; decide
  unfold State.jobDone
  rw [hj]
  dsimp only
  rw [if_neg hcond, hf]

/-- R251, R253: a job whose triples are all written. -/
theorem jobDone_folded (hf : j.failed = none) (he : j.entries ≠ []) (hs : j.folded.length = descSpans j.desc) : s.jobDone n =
    ((if j.buf then s.putJob n { j with complete := true } else { s with jobs := dropNth s.jobs n }).visibleAt j.key j.born j.scope
      false).modWorker j.key fun u => u.addKnot j.knot 1 false := by
  have hcond : ¬(!s.agentsMay j.key || j.complete) = true := by rw [hmay, hc]; decide
  have hall : (!j.entries.isEmpty && j.folded.length == descSpans j.desc) = true := by
    rw [Bool.and_eq_true, Bool.not_eq_true', ← Bool.not_eq_true, List.isEmpty_iff, beq_iff_eq]
    exact ⟨he, hs⟩
  unfold State.jobDone
  rw [hj]
  dsimp only
  rw [if_neg hcond, hf]
  exact if_pos hall

end

/-! ## Score passes -/

section
variable {s : State} {n : Nat} {p : ScorePass} (hp : s.passes[n]? = some p) (hmay : s.agentsMay p.key = true)
include hp hmay

/-- A score pass whose worker's agents may work. -/
theorem passDone_eq : s.passDone n =
    match s.jobs.find? fun j => j.key == p.key && j.buf && descTag j.desc == p.tag.toNat with
    | none => (s.closePass n p.key p.tag.toNat).sauFails p.key p.born 9 p.knot p.scope 0x08
        (Config.openWord 1 (s.worker p.key).wid p.pc.toNat) p.pc
    | some j =>
      if !j.complete then s
      else if p.drop then
        ((s.closePass n p.key p.tag.toNat).visibleAt p.key p.born p.scope false).modWorker p.key fun u => u.addKnot p.knot 1 false
      else
        match p.add j s with
        | .ok (true, t) =>
          ((t.closePass n p.key p.tag.toNat).visibleAt p.key p.born p.scope false).modWorker p.key fun u => u.addKnot p.knot 1 false
        | .ok (false, _) => s
        | .error (.trap t) => (s.closePass n p.key p.tag.toNat).sauFails p.key p.born 9 p.knot p.scope t.cause (BitVec.ofNat 64 t.addr) p.pc
        | .error (.machine kind pa) => s.machineCheck (s.worker p.key) 7 kind pa p.pc
        | .error .stall => s := by
  have hcond : ¬(!s.agentsMay p.key) = true := by rw [hmay]; decide
  unfold State.passDone
  rw [hp]
  exact if_neg hcond

end

/-! ## Knot adds of stores -/

/-- R168, R265: the knot add of a `wstq`. -/
theorem wstqAdd_gives {s : State} {n : Nat} {k : KnotAdd} {w : Worker} (hk : s.knotAdds[n]? = some k) (hw : s.worker? k.key = some w) :
    let q : State := { s with writes := s.writes.map fun u =>
      if (u.who == some ⟨k.key, .strand .W⟩ && u.pos == k.pos) then u.perform ⟨s.tick, k.scope, (s.worker k.key).core⟩ else u }
    s.wstqAdd n = ({ q.releaseTo k.key .W k.pos k.scope false with knotAdds := dropNth s.knotAdds n } : State).putWorker k.key
      (w.addKnot k.knot 1 false) := by
  intro q
  unfold State.wstqAdd
  rw [hk]
  exact modWorker_some (s := { q.releaseTo k.key .W k.pos k.scope false with knotAdds := dropNth s.knotAdds n })
    ((congrArg (fun t : State => tabFind t.workers k.key) (releaseTo_same q k.key .W k.pos k.scope false)).trans hw) _

/-! ## Requests -/

theorem homeRequest_iff (s : State) (q : SendReq) : s.homeRequest q = true ↔
    q.peer = true ∨ (s.launch q.lid).placeOf q.expert / 2 ^ 48 % 2 ^ 10 = s.devnum.toNat := by
  unfold State.homeRequest
  rw [Bool.or_eq_true, Bool.not_eq_true', ← Bool.not_eq_true, farExpert_iff, not_not]

theorem placed_iff (s : State) (q : SendReq) : s.placed? q = true ↔
    (q.peer = true → q.expert < (s.launch q.lid).nexp ∧ bit ((s.launch q.lid).placeOf q.expert) 63 = true ∧
      (s.launch q.lid).placeOf q.expert / 2 ^ 48 % 2 ^ 10 = s.devnum.toNat) := by
  unfold State.placed?
  rw [Bool.or_eq_true, Bool.and_eq_true, Bool.and_eq_true, Bool.not_eq_true', Bool.not_eq_true', ← Bool.not_eq_true (s.farExpert _ _),
    farExpert_iff, not_not, decide_eq_true_iff, and_assoc]
  cases q.peer <;> simp

/-- A refused request: its packet goes back to the sender. -/
def State.refusing (s : State) (q : SendReq) (reason : Nat) : State :=
  let entry := BitVec.ofNat 64 (reason * 2 ^ 60 + q.expert * 2 ^ 32 + q.token.toNat)
  if q.peer then { s with replies := s.replies ++ [toBytes entry.toNat 8 ++ toBytes q.knot 8] }
  else { s with refusals := s.refusals ++ [⟨workerKey q.lid q.sender, entry, q.knot⟩] }

theorem sendRefusal_eq (s : State) (q : SendReq) (reason : Nat) : s.sendRefusal q (q.refusal reason) = s.refusing q reason := by
  unfold State.sendRefusal State.refusing SendReq.refusal RefusalMsg.packet
  simp only [Nat.shiftLeft_eq]

section
variable {s : State} {n : Nat} {q : SendReq} (hq : s.sends[n]? = some q)
include hq

theorem admitRequest_gone (h : (s.launch q.lid).aborting = true ∨
    ¬(q.peer = true ∨ (s.launch q.lid).placeOf q.expert / 2 ^ 48 % 2 ^ 10 = s.devnum.toNat)) :
    s.admitRequest n = { s with sends := dropNth s.sends n } := by
  have hcond : ((s.launch q.lid).aborting || !s.homeRequest q) = true := by
    rw [Bool.or_eq_true, Bool.not_eq_true', ← Bool.not_eq_true (s.homeRequest q), homeRequest_iff]
    exact h
  unfold State.admitRequest
  rw [hq]
  exact if_pos hcond

variable (ha : (s.launch q.lid).aborting = false)
  (hhome : q.peer = true ∨ (s.launch q.lid).placeOf q.expert / 2 ^ 48 % 2 ^ 10 = s.devnum.toNat)
include ha hhome

theorem admitRequest_eq : s.admitRequest n = if (s.launch q.lid).det then s else
    match (State.decideRequest { s with sends := dropNth s.sends n } q).2 with
    | none => (State.decideRequest { s with sends := dropNth s.sends n } q).1
    | some m => (State.decideRequest { s with sends := dropNth s.sends n } q).1.sendRefusal q m := by
  have hcond : ¬((s.launch q.lid).aborting || !s.homeRequest q) = true := by
    rw [ha, (homeRequest_iff s q).mpr hhome]
    decide
  unfold State.admitRequest
  rw [hq]
  exact if_neg hcond

theorem admitRequest_det (hd : (s.launch q.lid).det = true) : s.admitRequest n = s := by
  rw [admitRequest_eq hq ha hhome, if_pos hd]

variable (hd : (s.launch q.lid).det = false)
include hd

theorem admitRequest_taken {r : State} (h : State.decideRequest { s with sends := dropNth s.sends n } q = (r, none)) :
    s.admitRequest n = r := by
  rw [admitRequest_eq hq ha hhome, if_neg (by rw [hd]; exact Bool.false_ne_true), h]

theorem admitRequest_refused {r : State} {reason : Nat}
    (h : State.decideRequest { s with sends := dropNth s.sends n } q = (r, some (q.refusal reason))) :
    s.admitRequest n = r.refusing q reason := by
  rw [admitRequest_eq hq ha hhome, if_neg (by rw [hd]; exact Bool.false_ne_true), h]
  exact sendRefusal_eq r q reason

/-- A request whose window is not there is refused as invalid (log 32). -/
theorem admitRequest_unplaced (h : ¬(q.peer = true → q.expert < (s.launch q.lid).nexp ∧ bit ((s.launch q.lid).placeOf q.expert) 63 = true ∧
      (s.launch q.lid).placeOf q.expert / 2 ^ 48 % 2 ^ 10 = s.devnum.toNat) ∨
      s.worker? (workerKey q.lid ((s.launch q.lid).placeOf q.expert / 2 ^ 32 % 2 ^ 16)) = none) :
    s.admitRequest n = ({ s with sends := dropNth s.sends n } : State).refusing q 2 := by
  have hnone : (if s.placed? q then s.worker? (workerKey q.lid (bits ((s.launch q.lid).placeOf q.expert) 32 16)) else none) = none := by
    rw [bits_eq]
    obtain h | h := h
    · rw [if_neg fun hp => h ((placed_iff s q).mp hp)]
    · rw [h, ite_self]
  have hdec : State.decideRequest { s with sends := dropNth s.sends n } q = ({ s with sends := dropNth s.sends n }, some (q.refusal 2)) := by
    unfold State.decideRequest
    dsimp only
    split
    · rfl
    · next w hw => exact absurd (hw.symm.trans hnone) (Option.some_ne_none w)
  exact admitRequest_refused hq ha hhome hd hdec

variable {w : Worker}
  (hw : s.worker? (workerKey q.lid ((s.launch q.lid).placeOf q.expert / 2 ^ 32 % 2 ^ 16)) = some w)
  (hplaced : q.peer = true → q.expert < (s.launch q.lid).nexp ∧ bit ((s.launch q.lid).placeOf q.expert) 63 = true ∧
      (s.launch q.lid).placeOf q.expert / 2 ^ 48 % 2 ^ 10 = s.devnum.toNat)
include hw hplaced

omit hq ha hhome hd in
theorem window_found :
    (if s.placed? q then s.worker? (workerKey q.lid (bits ((s.launch q.lid).placeOf q.expert) 32 16)) else none) = some w := by
  rw [if_pos ((placed_iff s q).mpr hplaced), bits_eq, hw]

theorem admitRequest_turned {reason : Nat}
    (h : w.takeRow ((s.launch q.lid).placeOf q.expert % 2 ^ 19) q = .error reason) :
    s.admitRequest n = ({ s with sends := dropNth s.sends n } : State).refusing q reason := by
  have hoff : bits ((s.launch q.lid).placeOf q.expert) 0 19 = (s.launch q.lid).placeOf q.expert % 2 ^ 19 := by
    rw [bits_eq, pow_zero, Nat.div_one]
  have hdec : State.decideRequest { s with sends := dropNth s.sends n } q =
      ({ s with sends := dropNth s.sends n }, some (q.refusal reason)) := by
    unfold State.decideRequest
    dsimp only
    split
    · next hno => exact absurd (hno.symm.trans (window_found hw hplaced)) (Option.some_ne_none w).symm
    · next u hu =>
      have hu : u = w := Option.some.inj (hu.symm.trans (window_found hw hplaced))
      have htake : u.takeRow (bits ((s.launch q.lid).placeOf q.expert) 0 19) q = .error reason := by rw [hu, hoff, h]
      split
      · next w' h' => exact absurd (h'.symm.trans htake) (by simp)
      · next x h' =>
        have : x = reason := Except.error.inj (h'.symm.trans htake)
        rw [this]
  exact admitRequest_refused hq ha hhome hd hdec

theorem admitRequest_stored {w' : Worker} (h : w.takeRow ((s.launch q.lid).placeOf q.expert % 2 ^ 19) q = .ok w') :
    let key := workerKey q.lid ((s.launch q.lid).placeOf q.expert / 2 ^ 32 % 2 ^ 16)
    let off := (s.launch q.lid).placeOf q.expert % 2 ^ 19
    s.admitRequest n = ((q.slotWrites off (w.spad.nat (off + 4) 4) q.data.length).foldl
      (fun s x => s.noteDone (.spad key) x.1 x.2) ({ s with sends := dropNth s.sends n } : State)).putWorker key w' := by
  intro key off
  have hoff : bits ((s.launch q.lid).placeOf q.expert) 0 19 = off := by
    rw [bits_eq, pow_zero, Nat.div_one]
  have hkey : workerKey q.lid (bits ((s.launch q.lid).placeOf q.expert) 32 16) = key := by rw [bits_eq]
  have hdec : State.decideRequest { s with sends := dropNth s.sends n } q =
      (((q.slotWrites off (w.spad.nat (off + 4) 4) q.data.length).foldl
        (fun s x => s.noteDone (.spad key) x.1 x.2) ({ s with sends := dropNth s.sends n } : State)).putWorker key w', none) := by
    unfold State.decideRequest
    dsimp only
    split
    · next hno => exact absurd (hno.symm.trans (window_found hw hplaced)) (Option.some_ne_none w).symm
    · next u hu =>
      have hu : u = w := Option.some.inj (hu.symm.trans (window_found hw hplaced))
      have htake : u.takeRow (bits ((s.launch q.lid).placeOf q.expert) 0 19) q = .ok w' := by rw [hu, hoff, h]
      split
      · next v h' =>
        have hv : v = w' := Except.ok.inj (h'.symm.trans htake)
        rw [hv, hu, ← hoff, ← hkey]
        rfl
      · next x h' => exact absurd (h'.symm.trans htake) (by simp)
  exact admitRequest_taken hq ha hhome hd hdec

end

/-- R210: the decision at a window. -/
theorem takeRow_gives (w : Worker) (off : Nat) (q : SendReq) :
    let word := fun (i : Nat) => w.spad.nat (off + 4 * i) 4
    let good := word 3 ≤ 31 ∧ off + 32 + word 0 * (8 + word 2) ≤ 524288
    (¬good → w.takeRow off q = .error 2) ∧
    (good → word 2 ≠ q.data.length → w.takeRow off q = .error 1) ∧
    (good → word 2 = q.data.length → word 0 ≤ word 1 → w.takeRow off q = .error 0) ∧
    (good → word 2 = q.data.length → word 1 < word 0 → w.takeRow off q = .ok (({ w with
      spad := (w.spad.writeBytes (off + 4) (toBytes (word 1 + 1) 4)).writeBytes (off + 32 + word 1 * (8 + word 2))
        (toBytes q.token.toNat 8 ++ q.data) } : Worker).addKnot (word 3) 1 false)) := by
  intro word good
  have hbad : (31 < word 3 ∨ Config.spadBytes < off + 32 + word 0 * (8 + word 2)) ↔ ¬good := by
    show (31 < word 3 ∨ 524288 < off + 32 + word 0 * (8 + word 2)) ↔ _
    simp only [good]
    omega
  have hrow : (q.slotWrites off (word 1) (word 2)).foldl (fun (m : Memory) x => m.writeBytes x.1 x.2) w.spad =
      (w.spad.writeBytes (off + 4) (toBytes (word 1 + 1) 4)).writeBytes (off + 32 + word 1 * (8 + word 2))
        (toBytes q.token.toNat 8 ++ q.data) := by
    unfold SendReq.slotWrites
    rw [List.foldl_cons, List.foldl_cons, List.foldl_nil]
  have htake : w.takeRow off q = if 31 < word 3 ∨ Config.spadBytes < off + 32 + word 0 * (8 + word 2) then .error 2
      else if word 2 ≠ q.data.length then .error 1
      else if word 0 ≤ word 1 then .error 0
      else .ok (({ w with spad := (q.slotWrites off (word 1) (word 2)).foldl (fun (m : Memory) x => m.writeBytes x.1 x.2) w.spad } :
        Worker).addKnot (word 3) 1 false) := by
    unfold Worker.takeRow
    rfl
  refine ⟨fun hg => ?_, fun hg h2 => ?_, fun hg h2 h1 => ?_, fun hg h2 h1 => ?_⟩
  · rw [htake, if_pos (hbad.mpr hg)]
  · rw [htake, if_neg fun h => hbad.mp h hg, if_pos h2]
  · rw [htake, if_neg fun h => hbad.mp h hg, if_neg (not_not.mpr h2), if_pos h1]
  · rw [htake, if_neg fun h => hbad.mp h hg, if_neg (not_not.mpr h2), if_neg (Nat.not_le.mpr h1), hrow]

theorem refusalArrival_gives {s : State} {n : Nat} {m : RefusalMsg} {w : Worker} (hm : s.refusals[n]? = some m)
    (hw : s.worker? m.key = some w) : s.refusalArrival n =
      ({ s with refusals := dropNth s.refusals n } : State).putWorker m.key (w.refused m) := by
  unfold State.refusalArrival
  rw [hm]
  exact modWorker_some (s := { s with refusals := dropNth s.refusals n }) hw _

/-- Settles O49: the agents of a worker. -/
theorem agentEvents : Obligations.AgentEvents := by
  unfold Obligations.AgentEvents
  intro s key w hw answers l may word performed shown ended
  have hworker : s.worker key = w := worker_some hw
  have hended : ∀ (q : State) (born scope knot : Nat) (err : Bool),
      (q.visibleAt key born scope err).modWorker key (fun u => u.addKnot knot 1 err) = ended q born scope knot err :=
    fun q born scope knot err => by rw [visibleAt_eq]
  have hmay : may → s.agentsMay key = true := (agentsMay_iff hw).mpr
  refine ⟨fun ag r => errorRecord_gives s w ag r, fun born xf knot scope cause addr pc t h => ?_, fun c pre post hs hkey hpre => ?_,
    fun n j hj hkey hm hc => ?_, fun n p hp hkey hm => ?_, fun n k hk hkey => ?_, fun n q hq => ?_, fun n m hm hkey => ?_⟩
  · exact (sauFails_gives hw born xf knot scope cause addr pc h).trans (hended t born scope knot true)
  · intro at_ stays turn
    have hturn : s.chunkMay c = true ↔ turn := chunkMay_iff hw hs hkey hpre
    refine ⟨chunk_run c, fun h => congrArg Host.Outcome.next (copyChunk_idle hs hkey hpre fun h' => h (hturn.mp h')), fun h => ⟨?_, ?_, ?_⟩,
      fun ha hover => ?_⟩
    · exact fun r u t he hwr => congrArg Host.Outcome.next (copyChunk_ok hs hkey hpre (hturn.mpr h) he hwr)
    · exact fun kind pa he => congrArg Host.Outcome.next (copyChunk_machine hw hs hkey hpre (hturn.mpr h) he)
    · intro x t he q side flags hrec
      exact congrArg Host.Outcome.next (copyChunk_trap hw hs hkey hpre (hturn.mpr h) he hrec)
    · intro gone counted
      have hgone : ({ s with copies := s.copies.filter fun x => !(x.key == key && x.seq == c.seq) } : State).visibleAt key c.born c.scope
          c.failed = gone := by rw [visibleAt_eq]
      refine ⟨fun hr => congrArg Host.Outcome.next ?_, fun va k n hr h6 hwin => congrArg Host.Outcome.next ?_⟩
      · rw [copyDone_local hw hs hkey hpre ha hover hr, hgone]
      · rw [copyDone_remote hw hs hkey hpre ha hover hr h6 hwin, hgone]
  · intro put
    subst hkey
    have hm := hmay hm
    refine ⟨fun span hf => ⟨fun he => ?_, fun he hs hn => ?_⟩, fun x hf => ?_, fun hf he hs => ?_⟩
    · exact congrArg Host.Outcome.next (spanFold_capture hj hm hc span hf he)
    · exact congrArg Host.Outcome.next (spanFold_fold hj hm hc hf he hs hn)
    · exact congrArg Host.Outcome.next (jobDone_failed hj hm hc hf)
    · exact congrArg Host.Outcome.next ((jobDone_folded hj hm hc hf he hs).trans (hended _ _ _ _ _))
  · intro held closed
    subst hkey
    have heq := passDone_eq hp (hmay hm)
    refine ⟨fun hh => congrArg Host.Outcome.next ?_, fun j hh => ⟨fun hc => congrArg Host.Outcome.next ?_,
      fun hc => ⟨fun hd => congrArg Host.Outcome.next ?_, fun hd => ⟨fun t ht => congrArg Host.Outcome.next ?_,
        fun x hx => congrArg Host.Outcome.next ?_⟩⟩⟩⟩
    · rw [heq, show List.find? _ s.jobs = none from hh, hworker]
    · rw [heq, show List.find? _ s.jobs = some j from hh]
      exact if_pos (by rw [hc]; rfl)
    · rw [heq, show List.find? _ s.jobs = some j from hh, ← hended]
      exact (if_neg (by rw [hc]; decide)).trans (if_pos hd)
    · rw [heq, show List.find? _ s.jobs = some j from hh, ← hended]
      refine (if_neg (by rw [hc]; decide)).trans ((if_neg (by rw [hd]; decide)).trans ?_)
      rw [ht]
    · rw [heq, show List.find? _ s.jobs = some j from hh]
      refine (if_neg (by rw [hc]; decide)).trans ((if_neg (by rw [hd]; decide)).trans ?_)
      rw [hx]
  · subst hkey
    exact congrArg Host.Outcome.next (wstqAdd_gives hk hw)
  · intro lc rest place here home placed owner refuse
    refine ⟨fun h => congrArg Host.Outcome.next (admitRequest_gone hq h), fun ha hh => ⟨fun hd => congrArg Host.Outcome.next ?_,
      fun hd h => congrArg Host.Outcome.next ?_, fun hd hpl hown => ?_⟩⟩
    · exact admitRequest_det hq ha hh hd
    · exact admitRequest_unplaced hq ha hh hd h
    · intro at_ word' good
      have hw' : s.worker? owner = some w := hown ▸ hw
      obtain ⟨t1, t2, t3, t4⟩ := takeRow_gives w at_ q
      refine ⟨fun hg => congrArg Host.Outcome.next ?_, fun hg h2 => congrArg Host.Outcome.next ?_,
        fun hg h2 h1 => congrArg Host.Outcome.next ?_, fun hg h2 h1 => congrArg Host.Outcome.next ?_⟩
      · exact admitRequest_turned hq ha hh hd hw' hpl (t1 hg)
      · exact admitRequest_turned hq ha hh hd hw' hpl (t2 hg h2)
      · exact admitRequest_turned hq ha hh hd hw' hpl (t3 hg h2 h1)
      · refine (admitRequest_stored hq ha hh hd hw' hpl (t4 hg h2 h1)).trans ?_
        have howner : workerKey q.lid ((s.launch q.lid).placeOf q.expert / 2 ^ 32 % 2 ^ 16) = key := hown.symm
        rw [← h2, howner]
        unfold SendReq.slotWrites
        rfl
  · subst hkey
    exact congrArg Host.Outcome.next (refusalArrival_gives hm hw)

end Sys2Proof.Machine
end

section
/-! PROOF. Traps that wait, pre-emption, saving, moving images, planes, walks and invalidation (O50). -/
namespace Sys2Proof.Machine
open Sys2Proof

/-- The device in the turn of a worker's S. -/
def State.onS (s : State) (key : Nat) : State := { s with curKey := key, curEng := .S }

section
variable {s : State} {key : Nat} {w : Worker} (hw : s.worker? key = some w)
include hw

/-! ## Traps that wait -/

theorem enterTrap_stays {n : TrapNote} (hn : w.note = some n) (h : n.held = true ∨ w.insertion ≠ none) : s.enterTrap key = s := by
  have hcond : ¬(w.status = .running ∧ (!n.held) = true ∧ w.insertion.isNone = true) := by
    rintro ⟨-, h1, h2⟩
    obtain h | h := h
    · rw [h] at h1
      cases h1
    · exact h (Option.isNone_iff_eq_none.mp h2)
  unfold State.enterTrap
  rw [hw]
  dsimp only
  rw [hn]
  exact if_neg hcond

theorem enterTrap_enters {n : TrapNote} (hn : w.note = some n) (hr : w.status = .running) (hh : n.held = false) (hi : w.insertion = none) :
    s.enterTrap key = ((s.putWorker key { w with note := none }).onS key).takeTrap n.strand n.pc ⟨n.cause, n.sub, n.addr.toNat, n.slot⟩ := by
  have hcond : w.status = .running ∧ (!n.held) = true ∧ w.insertion.isNone = true := by
    rw [hh, hi]
    exact ⟨hr, rfl, rfl⟩
  unfold State.enterTrap
  rw [hw]
  dsimp only
  rw [hn]
  exact if_pos hcond

/-! ## Pre-emption -/

theorem requestPreemption_running (hr : w.status = .running) (hp : (s.launch w.lid).state = .preempted) :
    s.requestPreemption key = s.putWorker key { w with preempt := true } := by
  unfold State.requestPreemption
  rw [modWorker_some hw, if_pos ⟨hr, hp⟩]

theorem strandMove_yields (hk : s.curKey = key) (hr : w.status = .running) (hf : s.frozen = false) (hp : w.preempt = true)
    (hi : w.insertion = none) : s.strandMove = .done (s.putWorker key { w with status := .stopped }) := by
  subst hk
  have hwk : s.wk = w := worker_some hw
  have hlive : s.live = true := by
    unfold State.live
    rw [hw]
    dsimp only
    rw [hr]
    rfl
  have hy : w.yields = true := by
    unfold Worker.yields
    rw [hp, hi]
    rfl
  unfold State.strandMove
  rw [hwk]
  dsimp only
  rw [if_neg (by rw [hlive, hf]; decide), if_pos hy]
  rfl

/-! ## Saving -/

theorem save_stopped (hr : w.status = .stopped) : s.save key =
    { ({ s.putVault w.core (w.areaItems s.tick) with
        writes := s.writes.map fun u => if u.who.map Who.key = some key then u.perform ⟨s.tick, 3, w.core⟩ else u } : State).putWorker key
          { w with status := .saved, preempt := false, imageMoved := false
                   banks := w.banks.map fun e => (e.1, { e.2 with clean := true }) } with
      jobs := s.jobs.map fun j => if j.key = key then j.saved else j
      saveArea := tabPut s.saveArea w.core key
      coreUse := tabErase s.coreUse w.core } := by
  have hperf : ∀ items, (s.putVault w.core items).performWorker key 3 =
      { s.putVault w.core items with
        writes := s.writes.map fun u => if u.who.map Who.key = some key then u.perform ⟨s.tick, 3, w.core⟩ else u } := fun items => by
    have hcore : ((s.putVault w.core items).worker key).core = w.core := congrArg Worker.core (worker_some (s := s) hw)
    refine congrArg (fun l => { s.putVault w.core items with writes := l }) (List.map_congr_left fun u _ => ?_)
    have hpick : u.ofWorker key = true ↔ u.who.map Who.key = some key := by
      unfold Write.ofWorker
      cases u.who <;> simp
    rw [hcore]
    simp only [hpick]
    rfl
  unfold State.save
  rw [hw]
  dsimp only
  rw [if_pos hr, hperf]

theorem moveImage_back (hr : w.status = .saved) (hl : (s.launch w.lid).state = .running) (hm : w.imageMoved = true)
    (ha : tabFind s.saveArea w.core = none) : s.moveImage key = { s.putWorker key { w with imageMoved := false } with
      vaults := tabSet [] s.vaults w.core (tabGet [] s.movedImages key), movedImages := tabErase s.movedImages key
      saveArea := tabPut s.saveArea w.core key } := by
  unfold State.moveImage
  rw [hw]
  dsimp only
  rw [if_pos hr, if_pos hl, if_pos (by rw [hm, ha]; rfl)]
  rfl

theorem moveImage_out {lid : Nat} (hr : w.status = .saved) (hl : ¬(s.launch w.lid).state = .running) (hm : w.imageMoved = false)
    (hres : s.reserved = some lid) (hlid : lid ≠ w.lid) (ha : tabFind s.coreUse w.core = none) : s.moveImage key =
      { s.putWorker key { w with imageMoved := true } with
        movedImages := tabSet [] s.movedImages key (s.vault w.core), saveArea := tabErase s.saveArea w.core } := by
  have hcond : (!w.imageMoved && s.reserved.isSome && s.reserved != some w.lid && (tabFind s.coreUse w.core).isNone) = true := by
    have : (s.reserved != some w.lid) = true := by
      rw [hres, bne_iff_ne]
      exact fun h => hlid (Option.some.inj h)
    rw [hm, this, ha, hres]
    rfl
  unfold State.moveImage
  rw [hw]
  dsimp only
  rw [if_pos hr, if_neg hl, if_pos hcond]
  rfl

/-! ## Planes and neighbour tables -/

theorem transferPlanes_running (hr : w.status = .running) : s.transferPlanes key =
    { s.planesOut w.core key with planeOwner := tabPut s.planeOwner w.core key } := by
  unfold State.transferPlanes
  rw [hw]
  exact if_pos hr

theorem planesOut_own (h : tabFind s.planeOwner w.core = none ∨ tabFind s.planeOwner w.core = some key) : s.planesOut w.core key = s := by
  unfold State.planesOut
  obtain h | h := h
  · rw [h]
  · rw [h]
    dsimp only
    rw [hw]
    exact if_pos rfl

omit hw in
theorem planesOut_other {core k : Nat} {x : Worker} (h : tabFind s.planeOwner core = some k) (hk : k ≠ key) (hx : s.worker? k = some x) :
    s.planesOut core key = if x.imageMoved then
        { s with movedImages := tabSet [] s.movedImages k (Memory.putItems (tabGet [] s.movedImages k) x.planeItems) }
      else s.putVault core x.planeItems := by
  unfold State.planesOut
  rw [h]
  dsimp only
  rw [hx]
  exact if_neg hk

/-! ## Walks -/

theorem pageWalk_window {va : Nat} (h : 2 ^ 57 ≤ va ∨ inWindows va = true) : s.pageWalk key va = s := by
  have hcond : ¬walkable va = true := by
    unfold walkable
    rw [Bool.and_eq_true, decide_eq_true_iff, Bool.not_eq_true']
    rintro ⟨h1, h2⟩
    obtain h | h := h
    · omega
    · rw [h] at h2
      cases h2
  unfold State.pageWalk
  rw [hw]
  exact if_neg hcond

theorem pageWalk_error {va : Nat} {x : AErr} (h : s.lookup (.core w.core) (s.cxOf w) va = .error x) : s.pageWalk key va = s := by
  unfold State.pageWalk
  rw [hw]
  dsimp only
  rw [h]
  exact ite_self _

theorem pageWalk_noLeaf {va : Nat} {e : TlbEntry} {l : List WalkEntry} (h : s.lookup (.core w.core) (s.cxOf w) va = .ok (e, l, true))
    (hp : leafPhys e.size e.pte.toNat va = none) : s.pageWalk key va = s := by
  unfold State.pageWalk
  rw [hw]
  dsimp only
  rw [h]
  dsimp only
  rw [hp]
  exact ite_self _

theorem pageWalk_leaf {va : Nat} {e : TlbEntry} {l : List WalkEntry} (h : s.lookup (.core w.core) (s.cxOf w) va = .ok (e, l, true))
    (hp : leafPhys e.size e.pte.toNat va ≠ none) (h57 : va < 2 ^ 57) (hwin : inWindows va = false) :
    s.pageWalk key va = (s.noteWalk (.core w.core) (s.cxOf w) va l).fill (.core w.core) e l := by
  have hcond : walkable va = true := by
    unfold walkable
    rw [hwin, decide_eq_true h57]
    rfl
  unfold State.pageWalk
  rw [hw]
  dsimp only
  rw [if_pos hcond, h]
  exact if_pos (Option.isSome_iff_ne_none.mpr hp)

/-! ## Invalidation -/

/-- R309: the loads whose entries are still to be pushed are complete. -/
theorem completeLoads_gives (pick : Nat → Bool) : ∃ v, (s.completeLoads pick).worker? key = some v ∧
    v = { w with strands := { w.strands with l := { w.strands.l with pend := v.strands.l.pend } } } ∧
    List.Forall₂ (fun p q : Pend => q = { p with acts := q.acts } ∧ List.Forall₂ (fun a b =>
        (∀ n e l, a = .fetched n e l → b = .fetched n (s.refetch ⟨⟨key, .strand .L⟩, w.core, w.strands.l.acq, 0⟩ e (l.filter fun y => pick y.addr))
          (l.filter fun y => !pick y.addr)) ∧
        ((∀ n e l, a ≠ .fetched n e l) → b = a)) p.acts q.acts) w.strands.l.pend v.strands.l.pend := by
  let fix := fun (p : Pend) => { p with acts := p.acts.map (Landing.fixParts s (w.readerOf key .L) pick) }
  have hfind := tabFind_map (fun e : Nat × Worker => { e.2 with strands := { e.2.strands with l := { e.2.strands.l with
    pend := e.2.strands.l.pend.map fun (p : Pend) => { p with acts := p.acts.map (Landing.fixParts s (e.2.readerOf e.1 .L) pick) } } } })
    s.workers key
  have hfind : (s.completeLoads pick).worker? key = some { w with strands := { w.strands with l := { w.strands.l with
      pend := w.strands.l.pend.map fix } } } := by
    refine hfind.trans ?_
    rw [show tabFind s.workers key = some w from hw]
    rfl
  refine ⟨_, hfind, rfl, ?_⟩
  refine List.forall₂_map_right_iff.mpr (List.forall₂_same.mpr fun p _ => ⟨rfl, ?_⟩)
  refine List.forall₂_map_right_iff.mpr (List.forall₂_same.mpr fun a _ => ⟨fun n e l h => ?_, fun h => ?_⟩)
  · rw [h]
    rfl
  · cases a with
    | fetched n e l => exact absurd rfl (h n e l)
    | _ => rfl

end

/-- What a `satinv` leaves of a translation cache (R309). -/
def Satinv.left (x : Satinv) (c : Tab Tlb) : Tab Tlb :=
  let named := fun (y : TlbEntry) =>
    (decide (y.base < x.limit) && decide (x.base < y.base + y.size)) && (x.all || y.global || y.asid == x.asid)
  c.map fun e => (e.1,
    (⟨e.2.leaves.filter fun y => !named y,
      e.2.tables.filter fun y => !(decide (y.base < x.limit) && decide (x.base < y.base + y.size))⟩ : Tlb))

theorem drop_eq (x : Satinv) (c : Tab Tlb) : (c.map fun e => (e.1, e.2.drop x)) = x.left c := by
  unfold Satinv.left Tlb.drop meets
  simp only [Bool.decide_and]

/-- The frames that the dropped leaves lead to. -/
theorem dropsFrame_eq (s : State) (x : Satinv) : s.dropsFrame x = fun a =>
    (s.coreTlb ++ s.dieTlb ++ s.engTlb ++ s.sauTlb).any fun t => t.2.leaves.any fun y =>
      ((decide (y.base < x.limit) && decide (x.base < y.base + y.size)) && (x.all || y.global || y.asid == x.asid)) &&
        match leafPhys y.size y.pte.toNat y.base with
        | some p => decide (p.addr ≤ a ∧ a < p.addr + y.size)
        | none => false := by
  funext a
  unfold State.dropsFrame Satinv.hits meets
  simp only [Bool.decide_and] <;> rfl

/-- A knot with an add through the knot window. -/
def Worker.farAdd (w : Worker) (k : Nat) : Worker :=
  { w.addKnot k 1 false with farKnots := if k ∈ w.farKnots then w.farKnots else k :: w.farKnots }

theorem addFarKnot_one {s : State} {key k : Nat} {w : Worker} (hw : s.worker? key = some w) :
    s.addFarKnot key k 1 false = s.putWorker key (w.farAdd k) := by
  unfold State.addFarKnot Worker.farAdd
  rw [modWorker_some hw]
  simp only [List.contains_iff_mem]

section
variable {s : State} {n : Nat} {x : Satinv} {w : Worker} (hx : s.satinvs[n]? = some x) (hw : s.worker? x.key = some w)
include hx hw

theorem finishSatinv_empty (h : x.limit ≤ x.base) :
    s.finishSatinv n = { s.putWorker x.key (w.farAdd x.knot) with satinvs := dropNth s.satinvs n } := by
  unfold State.finishSatinv
  rw [hx]
  dsimp only
  rw [if_neg (Nat.not_lt.mpr h)]
  exact addFarKnot_one (s := { s with satinvs := dropNth s.satinvs n }) hw

theorem finishSatinv_drops (h : x.base < x.limit) : s.finishSatinv n =
    { (s.completeLoads (s.dropsFrame x)).putWorker x.key (((s.completeLoads (s.dropsFrame x)).worker x.key).farAdd x.knot) with
      writes := s.writes.map fun u => if u.spot = .mem then u.perform ⟨s.tick, 3, w.core⟩ else u
      coreTlb := x.left s.coreTlb, dieTlb := x.left s.dieTlb, engTlb := x.left s.engTlb, sauTlb := x.left s.sauTlb
      satinvs := dropNth s.satinvs n } := by
  obtain ⟨v, hv, -, -⟩ := completeLoads_gives hw (s.dropsFrame x)
  have hperf : (s.completeLoads (s.dropsFrame x)).performAll (·.spot == .mem) 3 (s.worker x.key).core =
      { s.completeLoads (s.dropsFrame x) with
        writes := s.writes.map fun u => if u.spot = .mem then u.perform ⟨s.tick, 3, w.core⟩ else u } := by
    refine congrArg (fun l => { s.completeLoads (s.dropsFrame x) with writes := l }) (List.map_congr_left fun u _ => ?_)
    rw [worker_some hw]
    simp only [beq_iff_eq]
    rfl
  unfold State.finishSatinv
  rw [hx]
  dsimp only
  rw [if_pos h, hperf, drop_eq, drop_eq, drop_eq, drop_eq, worker_some hv]
  exact addFarKnot_one hv

end

end Sys2Proof.Machine
end

section
/-! PROOF. Where a save puts every item of a context (O50). -/
namespace Sys2Proof.Machine
open Sys2Proof

theorem placeFrom_mem {x : Nat × Nat} : ∀ {l : List (Nat × Nat)} {off : Nat}, x ∈ l → ∃ o, off ≤ o ∧ (⟨o, x.1, x.2⟩ : AreaItem) ∈ placeFrom off l
  | y :: l, off, h => by
    obtain rfl | h := List.mem_cons.mp h
    · exact ⟨off, Nat.le_refl _, List.mem_cons_self⟩
    · obtain ⟨o, ho, hm⟩ := placeFrom_mem (off := off + y.1) h
      exact ⟨o, by omega, List.mem_cons_of_mem _ hm⟩

section
variable (w : Worker) (tick : Nat)

theorem areaItems_mem (x : AreaItem) : x ∈ w.areaItems tick ↔
    (∃ a < 0x10000, (⟨a, 1, (Config.controlByte tick a).toNat⟩ : AreaItem) = x) ∨ x ∈ w.vregItems ∨ x ∈ w.arrayItems ∨ x ∈ w.queueItems ∨
      x ∈ w.bookItems ∨ x ∈ w.pendItems := by
  unfold Worker.areaItems
  simp only [List.mem_append, List.mem_map, mem_upFrom, or_assoc, Nat.zero_add, Nat.zero_le, true_and]

theorem control_item {a : Nat} (h : a < 0x10000) : (⟨a, 1, (Config.controlByte tick a).toNat⟩ : AreaItem) ∈ w.areaItems tick :=
  (areaItems_mem w tick _).mpr (.inl ⟨a, h, rfl⟩)

theorem vreg_item {p : Nat} (h : p < 128) :
    (⟨0x010000 + 0x8000 * p, 0x8000, (w.vget p).data.toNat⟩ : AreaItem) ∈ w.areaItems tick ∧
      ((w.vget p).tag ≠ none → (⟨0x410000 + 0x1000 * p, 0x1000, (w.vget p).scale.toNat⟩ : AreaItem) ∈ w.areaItems tick) := by
  have hp : p ∈ upFrom 0 128 := (mem_upFrom ..).mpr ⟨Nat.zero_le _, by omega⟩
  refine ⟨(areaItems_mem w tick _).mpr (.inr (.inl (List.mem_flatMap.mpr ⟨p, hp, List.mem_cons_self⟩))), fun ht =>
    (areaItems_mem w tick _).mpr (.inr (.inl (List.mem_flatMap.mpr ⟨p, hp, List.mem_cons_of_mem _ ?_⟩)))⟩
  rw [if_pos (Option.isSome_iff_ne_none.mpr ht)]
  exact List.mem_cons_self

theorem arrayItems_mem (x : AreaItem) : x ∈ w.arrayItems ↔
    (∃ a < 0x80000, (⟨0x490000 + a, 1, (w.spad.read a).toNat⟩ : AreaItem) = x) ∨
    (∃ i < 32768, (⟨0x510000 + 32 * i, 32, (w.cell i).toNat⟩ : AreaItem) = x) ∨
    ∃ m < 8, (⟨0x690000 + 0x2000 * m, 0x2000, (w.mget m).toNat⟩ : AreaItem) = x := by
  unfold Worker.arrayItems
  simp only [List.mem_append, List.mem_map, mem_upFrom, or_assoc, Nat.zero_add, Nat.zero_le, true_and, Config.spadBytes, Config.cellCount]

theorem array_item {x : AreaItem} (h : x ∈ w.arrayItems) : x ∈ w.areaItems tick := (areaItems_mem w tick x).mpr (.inr (.inr (.inl h)))

theorem queue_item {x : AreaItem} (h : x ∈ w.queueItems) : x ∈ w.areaItems tick :=
  (areaItems_mem w tick x).mpr (.inr (.inr (.inr (.inl h))))

theorem image_item {q : Nat} {e : ImgEntry} (hq : q < 14) (he : e ∈ w.image q) :
    ∃ o, 0x610000 ≤ o ∧ (⟨o, e.size, e.data.toNat⟩ : AreaItem) ∈ w.areaItems tick := by
  obtain ⟨o, ho, hm⟩ := placeFrom_mem (off := 0x610000) (x := (e.size, e.data.toNat)) (l :=
    ((upFrom 0 14).flatMap fun q => (w.image q).map fun e => (e.size, e.data.toNat)) ++ (w.q14 ++ w.q15).map fun x => (8, x.toNat))
    (List.mem_append_left _ (List.mem_flatMap.mpr ⟨q, (mem_upFrom ..).mpr ⟨Nat.zero_le _, by omega⟩, List.mem_map.mpr ⟨e, he, rfl⟩⟩))
  exact ⟨o, ho, queue_item w tick hm⟩

theorem word_item {x : Word} (hx : x ∈ w.q14 ++ w.q15) : ∃ o, 0x610000 ≤ o ∧ (⟨o, 8, x.toNat⟩ : AreaItem) ∈ w.areaItems tick := by
  obtain ⟨o, ho, hm⟩ := placeFrom_mem (off := 0x610000) (x := (8, x.toNat)) (l :=
    ((upFrom 0 14).flatMap fun q => (w.image q).map fun e => (e.size, e.data.toNat)) ++ (w.q14 ++ w.q15).map fun x => (8, x.toNat))
    (List.mem_append_right _ (List.mem_map.mpr ⟨x, hx, rfl⟩))
  exact ⟨o, ho, queue_item w tick hm⟩

theorem book_item {b i : Nat} (hb : b < 16) (hc : (w.bank b).clean = false) (hi : i < 256) :
    (⟨0x6A0000 + 0x1000 * b + 8 * i, 8, (tabGet 0 (w.bank b).copy0 i).toNat⟩ : AreaItem) ∈ w.areaItems tick ∧
      (⟨0x6A0800 + 0x1000 * b + 8 * i, 8, (tabGet 0 (w.bank b).copy1 i).toNat⟩ : AreaItem) ∈ w.areaItems tick := by
  have hmem : ∀ x ∈ [(⟨0x6A0000 + 0x1000 * b + 8 * i, 8, (tabGet 0 (w.bank b).copy0 i).toNat⟩ : AreaItem),
      ⟨0x6A0800 + 0x1000 * b + 8 * i, 8, (tabGet 0 (w.bank b).copy1 i).toNat⟩], x ∈ w.areaItems tick := fun x hx => by
    refine (areaItems_mem w tick x).mpr (.inr (.inr (.inr (.inr (.inl ?_)))))
    refine List.mem_flatMap.mpr ⟨b, (mem_upFrom ..).mpr ⟨Nat.zero_le _, by omega⟩, ?_⟩
    dsimp only
    rw [if_neg (by rw [hc]; exact Bool.false_ne_true)]
    exact List.mem_flatMap.mpr ⟨i, (mem_upFrom ..).mpr ⟨Nat.zero_le _, by omega⟩, hx⟩
  exact ⟨hmem _ List.mem_cons_self, hmem _ (List.mem_cons_of_mem _ List.mem_cons_self)⟩

theorem pend_item {e : Eng} {p : Pend} {a : Landing} {x : Nat × Nat} (hp : p ∈ (w.strands.get e).pend ∨ p ∈ w.trapPend) (ha : a ∈ p.acts)
    (hx : x ∈ a.values) : ∃ o, 0x6B0000 ≤ o ∧ (⟨o, x.1, x.2⟩ : AreaItem) ∈ w.areaItems tick := by
  have hpend : p ∈ (w.strands.toList.flatMap fun t => t.pend) ++ w.trapPend := by
    obtain hp | hp := hp
    · refine List.mem_append_left _ (List.mem_flatMap.mpr ⟨w.strands.get e, ?_, hp⟩)
      cases e <;> simp [Five.toList, Five.get]
    · exact List.mem_append_right _ hp
  obtain ⟨o, ho, hm⟩ := placeFrom_mem (off := 0x6B0000) (List.mem_flatMap (f := fun p : Pend => p.acts.flatMap Landing.values).mpr
    ⟨p, hpend, List.mem_flatMap.mpr ⟨a, ha, hx⟩⟩)
  exact ⟨o, ho, (areaItems_mem w tick _).mpr (.inr (.inr (.inr (.inr (.inr hm)))))⟩

/-- R320: every item at its place. -/
theorem areaItems_hold :
    let items := w.areaItems tick
    (∀ a < 0x10000, (⟨a, 1, (Config.controlByte tick a).toNat⟩ : AreaItem) ∈ items) ∧
      (∀ p < 128,
        (⟨0x010000 + 0x8000 * p, 0x8000, (w.vget p).data.toNat⟩ : AreaItem) ∈ items ∧
        ((w.vget p).tag ≠ none → (⟨0x410000 + 0x1000 * p, 0x1000, (w.vget p).scale.toNat⟩ : AreaItem) ∈ items)) ∧
      (∀ a < 0x80000, (⟨0x490000 + a, 1, (w.spad.read a).toNat⟩ : AreaItem) ∈ items) ∧
      (∀ i < 32768, (⟨0x510000 + 32 * i, 32, (w.cell i).toNat⟩ : AreaItem) ∈ items) ∧
      (∀ q < 14, ∀ e ∈ w.image q, ∃ o, 0x610000 ≤ o ∧ (⟨o, e.size, e.data.toNat⟩ : AreaItem) ∈ items) ∧
      (∀ x ∈ w.q14 ++ w.q15, ∃ o, 0x610000 ≤ o ∧ (⟨o, 8, x.toNat⟩ : AreaItem) ∈ items) ∧
      (∀ m < 8, (⟨0x690000 + 0x2000 * m, 0x2000, (w.mget m).toNat⟩ : AreaItem) ∈ items) ∧
      (∀ b < 16, (w.bank b).clean = false → ∀ i < 256,
        (⟨0x6A0000 + 0x1000 * b + 8 * i, 8, (tabGet 0 (w.bank b).copy0 i).toNat⟩ : AreaItem) ∈ items ∧
        (⟨0x6A0800 + 0x1000 * b + 8 * i, 8, (tabGet 0 (w.bank b).copy1 i).toNat⟩ : AreaItem) ∈ items) ∧
      ∀ e p, p ∈ (w.strands.get e).pend ∨ p ∈ w.trapPend →
        (∀ r v, .sreg r v ∈ p.acts → ∃ o, 0x6B0000 ≤ o ∧ (⟨o, 8, v.toNat⟩ : AreaItem) ∈ items) ∧
        ∀ l y, .vregs l ∈ p.acts → y ∈ l → ∃ o, 0x6B0000 ≤ o ∧ (⟨o, 0x8000, y.2.data.toNat⟩ : AreaItem) ∈ items :=
  ⟨fun _ h => control_item w tick h, fun _ h => vreg_item w tick h,
    fun a h => array_item w tick ((arrayItems_mem w _).mpr (.inl ⟨a, h, rfl⟩)),
    fun i h => array_item w tick ((arrayItems_mem w _).mpr (.inr (.inl ⟨i, h, rfl⟩))),
    fun _ hq _ he => image_item w tick hq he, fun _ hx => word_item w tick hx,
    fun m h => array_item w tick ((arrayItems_mem w _).mpr (.inr (.inr ⟨m, h, rfl⟩))),
    fun _ hb hc _ hi => book_item w tick hb hc hi,
    fun _ _ hp => ⟨fun r v ha => pend_item w tick (a := .sreg r v) (x := (8, v.toNat)) hp ha List.mem_cons_self,
      fun l y ha hy => pend_item w tick (a := .vregs l) (x := (0x8000, y.2.data.toNat)) hp ha (List.mem_map.mpr ⟨y, hy, rfl⟩)⟩⟩

/-- R182: the items of a plane. -/
theorem plane_items : ∀ x ∈ [(w.active, 0x720000), (w.shadow, 0x768000)],
    (∀ i < 2048, (⟨x.2 + 128 * i, 128, (tabGet 0 x.1.mant i).toNat⟩ : AreaItem) ∈ w.planeItems ∧
      (⟨x.2 + 0x40000 + 8 * i, 8, (tabGet 0 x.1.scale i).toNat⟩ : AreaItem) ∈ w.planeItems) ∧
    (⟨x.2 + 0x44000, 1, x.1.wb⟩ : AreaItem) ∈ w.planeItems ∧ (⟨x.2 + 0x44001, 1, x.1.lb⟩ : AreaItem) ∈ w.planeItems ∧
    (⟨x.2 + 0x44002, 1, if x.1.fixed then 1 else 0⟩ : AreaItem) ∈ w.planeItems := by
  have hplane : ∀ (p : Plane) (off : Nat),
      (∀ i < 2048, (⟨off + 128 * i, 128, (tabGet 0 p.mant i).toNat⟩ : AreaItem) ∈ p.items off ∧
        (⟨off + 0x40000 + 8 * i, 8, (tabGet 0 p.scale i).toNat⟩ : AreaItem) ∈ p.items off) ∧
      (⟨off + 0x44000, 1, p.wb⟩ : AreaItem) ∈ p.items off ∧ (⟨off + 0x44001, 1, p.lb⟩ : AreaItem) ∈ p.items off ∧
      (⟨off + 0x44002, 1, if p.fixed then 1 else 0⟩ : AreaItem) ∈ p.items off := fun p off => by
    refine ⟨fun i hi => ?_, List.mem_append_right _ ?_, List.mem_append_right _ ?_, List.mem_append_right _ ?_⟩
    · have hmem : ∀ y ∈ [(⟨off + 128 * i, 128, (tabGet 0 p.mant i).toNat⟩ : AreaItem),
          ⟨off + 0x40000 + 8 * i, 8, (tabGet 0 p.scale i).toNat⟩], y ∈ p.items off := fun y hy =>
        List.mem_append_left _ (List.mem_flatMap.mpr ⟨i, (mem_upFrom ..).mpr ⟨Nat.zero_le _, by omega⟩, hy⟩)
      exact ⟨hmem _ List.mem_cons_self, hmem _ (List.mem_cons_of_mem _ List.mem_cons_self)⟩
    · exact List.mem_cons_self
    · exact List.mem_cons_of_mem _ List.mem_cons_self
    · exact List.mem_cons_of_mem _ (List.mem_cons_of_mem _ List.mem_cons_self)
  have hin : ∀ (p : Plane) (off : Nat), (∀ y ∈ p.items off, y ∈ w.planeItems) →
      (∀ i < 2048, (⟨off + 128 * i, 128, (tabGet 0 p.mant i).toNat⟩ : AreaItem) ∈ w.planeItems ∧
        (⟨off + 0x40000 + 8 * i, 8, (tabGet 0 p.scale i).toNat⟩ : AreaItem) ∈ w.planeItems) ∧
      (⟨off + 0x44000, 1, p.wb⟩ : AreaItem) ∈ w.planeItems ∧ (⟨off + 0x44001, 1, p.lb⟩ : AreaItem) ∈ w.planeItems ∧
      (⟨off + 0x44002, 1, if p.fixed then 1 else 0⟩ : AreaItem) ∈ w.planeItems := fun p off h => by
    obtain ⟨h1, h2, h3, h4⟩ := hplane p off
    exact ⟨fun i hi => ⟨h _ (h1 i hi).1, h _ (h1 i hi).2⟩, h _ h2, h _ h3, h _ h4⟩
  intro x hx
  obtain rfl | hx := List.mem_cons.mp hx
  · exact hin _ _ fun y hy => List.mem_append_left _ hy
  · obtain rfl := List.mem_singleton.mp hx
    exact hin _ _ fun y hy => List.mem_append_right _ hy

end

theorem nth_toBytes : ∀ (n v k : Nat), k < n → nth 0 (toBytes v n) k = BitVec.ofNat 8 (v / 256 ^ k)
  | n + 1, v, 0, _ => by simp [toBytes, nth]
  | n + 1, v, k + 1, h => by
    have hrest : nth 0 (toBytes v (n + 1)) (k + 1) = nth 0 (toBytes (v >>> 8) n) k := rfl
    have h8 : 2 ^ 8 * 256 ^ k = 256 ^ (k + 1) := (pow_succ' 256 k).symm
    rw [hrest, nth_toBytes n (v >>> 8) k (by omega), Nat.shiftRight_eq_div_pow, Nat.div_div_eq_div_mul, h8]

/-- Items are written one after another, each little-endian. -/
theorem putItems_reads (m : Memory) (x : AreaItem) (l : List AreaItem) (a : Nat) :
    Memory.putItems m (x :: l) = Memory.putItems (Memory.putItems m [x]) l ∧
      (Memory.putItems m [x]).read a =
        if x.off ≤ a ∧ a < x.off + x.size then BitVec.ofNat 8 (x.val / 256 ^ (a - x.off)) else m.read a := by
  refine ⟨rfl, (Memory.read_writeBytes (toBytes x.val x.size) m x.off a).trans ?_⟩
  rw [toBytes_length]
  by_cases h : x.off ≤ a ∧ a < x.off + x.size
  · rw [if_pos h, if_pos h, nth_toBytes _ _ _ (by omega)]
  · rw [if_neg h, if_neg h]

end Sys2Proof.Machine
end

section
/-! PROOF. Restoring a context; the events of contexts as a whole (O50). -/
namespace Sys2Proof.Machine
open Sys2Proof

/-! ## Cold caches -/

theorem cold_find (t : Tlb) (asid va : Nat) : (t.cold asid).find asid va = none := by
  unfold Tlb.find Tlb.cold
  rw [List.find?_eq_none]
  intro e he
  have := (List.mem_filter.mp he).2
  simp only [Bool.not_eq_true', Bool.or_eq_false_iff] at this
  rw [this.1, this.2]
  exact Bool.false_ne_true

theorem tabFind_mapValues {α β : Type} (f : Nat × α → β) (t : Tab α) (k : Nat) :
    tabFind (t.map fun e => (e.1, f e)) k = (tabFind t k).map fun w => f (k, w) := by
  induction t with
  | nil => rfl
  | cons a r ih =>
    obtain ⟨j, w⟩ := a
    rw [List.map_cons]
    unfold tabFind
    by_cases h : j = k
    · subst h
      simp
    · simp [h, ih]

/-- R321: after a restore the context finds nothing in its core's caches, or in the engines'. -/
theorem coldCaches_find (s : State) (core asid : Nat) (ag : Agent) (va : Nat) (h : ∀ c, ag = .core c → c = core) :
    ((s.coldCaches core asid).tlb ag).find asid va = none ∧ (s.coldCaches core asid).dieFind ag asid va = none := by
  have hempty : Tlb.empty.find asid va = none := rfl
  have hcold : ∀ (t : Tab Tlb) (n : Nat), ((tabFind (t.map fun e : Nat × Tlb => (e.1, e.2.cold asid)) n).getD Tlb.empty).find asid va = none :=
      fun t n => by
    rw [tabFind_mapValues (fun e : Nat × Tlb => e.2.cold asid)]
    cases tabFind t n with
    | none => exact hempty
    | some x => exact cold_find x asid va
  cases ag with
  | core c =>
    obtain rfl := h c rfl
    constructor
    · show ((tabFind (tabErase s.coreTlb c) c).getD Tlb.empty).find asid va = none
      rw [tabFind_erase_self]
      exact hempty
    · show ((tabFind (s.dieTlb.map fun e : Nat × Tlb => (e.1, if e.1 = dieOf c then e.2.cold asid else e.2))
        (dieOf c)).getD Tlb.empty).find asid va = none
      rw [tabFind_mapValues (fun e : Nat × Tlb => if e.1 = dieOf c then e.2.cold asid else e.2)]
      cases tabFind s.dieTlb (dieOf c) with
      | none => exact hempty
      | some x =>
        rw [Option.map_some, if_pos rfl]
        exact cold_find x asid va
  | engine n => exact ⟨hcold s.engTlb n, rfl⟩
  | sau n => exact ⟨hcold s.sauTlb n, rfl⟩

/-! ## Jobs captured again -/

/-- An action that leaves the workers alone where it goes on. -/
def KeepsWorkers {α : Type} (act : M α) : Prop := ∀ s a t, act s = .ok (a, t) → t.workers = s.workers

theorem KeepsWorkers.bind {α β : Type} {act : M α} {f : α → M β} (h : KeepsWorkers act) (hf : ∀ a, KeepsWorkers (f a)) :
    KeepsWorkers (act >>= f) := by
  intro s b t ht
  obtain ⟨a, u, hu, hb⟩ : ∃ a u, act s = .ok (a, u) ∧ f a u = .ok (b, t) := by
    cases hact : act s with
    | error x => rw [m_bind_error hact] at ht; cases ht
    | ok r => exact ⟨r.1, r.2, rfl, (m_bind_ok hact).symm.trans ht⟩
  exact (hf a _ _ _ hb).trans (h _ _ _ hu)

theorem KeepsWorkers.pure {α : Type} (a : α) : KeepsWorkers (pure a : M α) := by
  intro s b t h
  cases h
  rfl

theorem KeepsWorkers.look {α : Type} (f : State → α) : KeepsWorkers (M.look f) := by
  intro s b t h
  cases h
  rfl

theorem KeepsWorkers.change {f : State → State} (hf : ∀ s, (f s).workers = s.workers) : KeepsWorkers (M.change f) := by
  intro s b t h
  cases h
  exact hf s

theorem KeepsWorkers.stop {α : Type} (x : Stop) : KeepsWorkers (M.stop x : M α) := by
  intro s b t h
  cases h

theorem KeepsWorkers.gather {α β : Type} {f : α → M β} (hf : ∀ a, KeepsWorkers (f a)) : ∀ l : List α, KeepsWorkers (M.gather f l)
  | [] => .pure _
  | a :: l => (hf a).bind fun _ => (KeepsWorkers.gather hf l).bind fun _ => .pure _

theorem keepsWorkers_placeIn (cx : Cx) (ag : Agent) (va size : Nat) (acc : Acc) (slot : Option Nat) (rights : Place → Bool)
    (bounds : Except AErr Unit) : KeepsWorkers (placeIn cx ag va size acc slot rights bounds) := by
  intro s p t h
  obtain ⟨-, -, -, rfl⟩ | ⟨-, x, hr, -⟩ := placeIn_ok h
  · rfl
  · exact (resolve_same hr).1

theorem keepsWorkers_engineRead (r : Reader) (p : Place) (n : Nat) : KeepsWorkers (engineRead r p n) := by
  have hnote : ∀ s : State, (s.noteRead p n).workers = s.workers := fun s => by cases p <;> rfl
  have hcheck : KeepsWorkers (engineCheck p n) := by
    refine (KeepsWorkers.look id).bind fun s => ?_
    split
    · exact .stop _
    · exact .stop _
    · exact .change hnote
  refine hcheck.bind fun _ => (KeepsWorkers.look id).bind fun s => (KeepsWorkers.change fun s => ?_).bind fun _ => .pure _
  rw [looked_same]

theorem keepsWorkers_sauRead (g : SauAgent) (va n : Nat) : KeepsWorkers (sauRead g va n) := by
  have hplace : KeepsWorkers (sauPlace g.key g.priv va n .load) := (KeepsWorkers.look id).bind fun s => keepsWorkers_placeIn _ _ _ _ _ _ _ _
  exact hplace.bind fun p => (KeepsWorkers.look id).bind fun s => keepsWorkers_engineRead _ _ _

theorem keepsWorkers_captureTable (g : SauAgent) (d : BitVec 512) (gen : Option Word) : KeepsWorkers (captureTable g d gen) := by
  unfold captureTable
  refine (KeepsWorkers.look _).bind fun g => (keepsWorkers_sauRead g _ 4).bind fun h => ?_
  have hrest : KeepsWorkers (do
      let l ← M.gather (fun i => sauRead g (entryAt d i) 8) (upFrom (firstPage d) (pageCount d))
      if l.any fun e => bit e 63 && bits e 0 8 == (h + 1) % 256 then pure none
      else
        match invalidEntry d (firstPage d) l with
        | some a => M.trap 0x08 0 a none
        | none => pure (some (BitVec.ofNat 64 h, l.map (BitVec.ofNat 64))) : M (Option (Word × List Word))) := by
    refine (KeepsWorkers.gather (fun i => keepsWorkers_sauRead g _ 8) _).bind fun l => ?_
    split
    · exact .pure _
    · split
      · exact .stop _
      · exact .pure _
  dsimp only
  split
  · exact KeepsWorkers.bind (.stop _) fun _ => hrest
  · exact hrest

theorem keepsWorkers_capture (j : SauJob) : KeepsWorkers j.capture := by
  unfold SauJob.capture
  refine (keepsWorkers_captureTable _ _ _).bind fun r => (KeepsWorkers.look id).bind fun s => ?_
  cases r with
  | none => exact .pure _
  | some x => exact .pure _

/-- A worker has the supervisor state and the strands that it had. -/
def State.Holds (t : State) (key : Nat) (w : Worker) : Prop := ∃ v, t.worker? key = some v ∧ v.sup = w.sup ∧ v.strands = w.strands

theorem State.Holds.abortLaunch {s : State} {key : Nat} {w : Worker} (h : s.Holds key w) (lid : Nat) : (s.abortLaunch lid).Holds key w := by
  obtain ⟨v, hv, h1, h2⟩ := h
  refine ⟨if v.lid = lid then { v with status := .done } else v, ?_, ?_, ?_⟩
  · rw [abortLaunch_worker, hv]
    rfl
  · split <;> exact h1
  · split <;> exact h2

theorem State.Holds.jobStep {s : State} {key : Nat} {w : Worker} (h : s.Holds key w) (j : SauJob) {act : M SauJob} (ha : KeepsWorkers act) :
    (s.jobStep j act).1.Holds key w := by
  unfold State.jobStep
  split
  · next j' t ht =>
    obtain ⟨v, hv, h1, h2⟩ := h
    exact ⟨v, (congrArg (fun t => tabFind t key) (ha _ _ _ ht)).trans hv, h1, h2⟩
  · exact h
  · have hlog : ∀ r, (s.logCheck r).Holds key w := fun r => by
      obtain ⟨v, hv, hsame⟩ := h
      have hworkers : (s.logCheck r).workers = s.workers := by simp only [State.logCheck]
      exact ⟨v, (congrArg (fun t => tabFind t key) hworkers).trans hv, hsame⟩
    unfold State.machineCheck
    exact (hlog _).abortLaunch _
  · exact h

/-- One job's turn at a restore (R252). -/
def State.reissueAt (s : State) (key n : Nat) : State :=
  match s.jobs[n]? with
  | none => s
  | some j =>
    if j.key = key ∧ !j.complete ∧ j.failed.isNone then (s.jobStep j j.capture).1.putJob n (s.jobStep j j.capture).2 else s

theorem reissue_eq (s : State) (key : Nat) : s.reissue key = (upFrom 0 s.jobs.length).foldl (fun s n => s.reissueAt key n) s := rfl

theorem State.Holds.reissue {s : State} {key : Nat} {w : Worker} (h : s.Holds key w) : (s.reissue key).Holds key w := by
  rw [reissue_eq]
  generalize upFrom 0 s.jobs.length = l
  induction l generalizing s with
  | nil => exact h
  | cons n l ih =>
    have hstep : (s.reissueAt key n).Holds key w := by
      unfold State.reissueAt
      split
      · exact h
      · next j _ =>
        split
        · exact h.jobStep j (keepsWorkers_capture j)
        · exact h
    exact ih hstep

theorem reissue_none {s : State} {key : Nat} (h : ∀ j ∈ s.jobs, j.key = key → j.complete = true ∨ j.failed ≠ none) : s.reissue key = s := by
  have hstep : ∀ n, s.reissueAt key n = s := fun n => by
    unfold State.reissueAt
    split
    · rfl
    · next j hj =>
      refine if_neg ?_
      rintro ⟨h1, h2, h3⟩
      obtain h | h := h j (List.mem_of_getElem? hj) h1
      · rw [h] at h2
        cases h2
      · exact h (Option.isNone_iff_eq_none.mp h3)
  rw [reissue_eq]
  generalize upFrom 0 s.jobs.length = l
  induction l with
  | nil => rfl
  | cons n l ih => rw [List.foldl_cons, hstep, ih]

theorem reissue_one {s : State} {key : Nat} {j : SauJob} (hs : s.jobs = [j]) (hk : j.key = key) (hc : j.complete = false)
    (hf : j.failed = none) : s.reissue key = (s.jobStep j j.capture).1.putJob 0 (s.jobStep j j.capture).2 := by
  have hlist : upFrom 0 s.jobs.length = [0] := by
    rw [hs]
    rfl
  have hj : s.jobs[0]? = some j := by
    rw [hs]
    rfl
  rw [reissue_eq, hlist]
  show s.reissueAt key 0 = _
  unfold State.reissueAt
  rw [hj]
  exact if_pos ⟨hk, by rw [hc]; rfl, by rw [hf]; rfl⟩

/-! ## Restoring -/

section
variable {s : State} {key : Nat} {w : Worker} (h : s.Holds key w)
include h

theorem notify_none (hp : w.sup.pnote = false) : s.notify key = s := by
  obtain ⟨v, hv, h1, -⟩ := h
  unfold State.notify
  rw [worker_some hv]
  dsimp only
  rw [h1, hp]
  rfl

theorem notify_held (hp : w.sup.pnote = true) (ht : w.sup.tin = true) :
    s.notify key = s.putWorker key { s.worker key with note := some ⟨0x11, 0, 0, none, .S, 0, true⟩ } := by
  obtain ⟨v, hv, h1, -⟩ := h
  unfold State.notify
  rw [worker_some hv]
  dsimp only
  rw [h1, hp, ht]
  rfl

theorem notify_taken (hp : w.sup.pnote = true) (ht : w.sup.tin = false) :
    s.notify key = (s.onS key).takeTrap .S w.strands.s.pc ⟨0x11, 0, 0, none⟩ := by
  obtain ⟨v, hv, h1, h2⟩ := h
  unfold State.notify
  rw [worker_some hv]
  dsimp only
  rw [h1, h2, hp, ht]
  rfl

end

/-- The device with a worker back in its core, its caches cold. -/
def State.loadedBack (s : State) (key : Nat) (w : Worker) : State :=
  ({ s.putWorker key { w with status := .running, nbrValid := false, banks := w.banks.map fun e => (e.1, { e.2 with clean := true }) } with
    saveArea := tabErase s.saveArea w.core } : State).coldCaches w.core w.sup.asid.toNat

theorem loadedBack_holds (s : State) (key : Nat) (w : Worker) : (s.loadedBack key w).Holds key w :=
  ⟨_, worker?_put s key { w with status := .running, nbrValid := false, banks := w.banks.map fun e => (e.1, { e.2 with clean := true }) },
    rfl, rfl⟩

theorem restore_eq {s : State} {key : Nat} {w : Worker} (hw : s.worker? key = some w) (hs : w.status = .saved)
    (hl : (s.launch w.lid).state = .running) (hm : w.imageMoved = false) :
    s.restore key = ((s.loadedBack key w).reissue key).notify key := by
  unfold State.restore
  rw [hw]
  exact if_pos ⟨hs, hl, by rw [hm]; rfl⟩

/-- Settles O50: pre-emption, saving, moving and restoring contexts, walks and invalidation. -/
theorem contextEvents : Obligations.ContextEvents := by
  unfold Obligations.ContextEvents
  intro s key w hw answers cold onS area running items far
  refine ⟨fun n hn hr => ⟨fun h => congrArg Host.Outcome.next (enterTrap_stays hw hn (.inl h)),
      fun hh hi => congrArg Host.Outcome.next (enterTrap_enters hw hn hr hh hi),
      fun hi => congrArg Host.Outcome.next (enterTrap_stays hw hn (.inr hi))⟩,
    fun hr hp => congrArg Host.Outcome.next (requestPreemption_running hw hr hp),
    fun hk hr hf hp hi => strandMove_yields hw hk hr hf hp hi,
    fun hr => congrArg Host.Outcome.next (save_stopped hw hr), ?_,
    fun hr hl hm ha => congrArg Host.Outcome.next (moveImage_back hw hr hl hm ha),
    fun lid hr hl hm hres hlid ha => congrArg Host.Outcome.next (moveImage_out hw hr hl hm hres hlid ha),
    fun hs hl hm => ?_, fun hr => ?_,
    congrArg Host.Outcome.next (modWorker_some hw _), fun va => ?_, fun pick => completeLoads_gives hw pick, fun n x hx hk => ?_⟩
  · obtain ⟨h1, h2, h3, h4, h5, h6, h7, h8, h9⟩ := areaItems_hold w s.tick
    exact ⟨h1, h2, h3, h4, h5, h6, h7, h8, h9, putItems_reads⟩
  · intro u back t
    have hheld : t.Holds key w := (loadedBack_holds s key w).reissue
    have hrestore : s.restore key = t.notify key := restore_eq hw hs hl hm
    exact ⟨fun ag va h => coldCaches_find _ w.core w.sup.asid.toNat ag va h, fun h => reissue_none h,
      fun j hj hk hc hf => reissue_one hj hk hc hf, fun hp => congrArg Host.Outcome.next (hrestore.trans (notify_none hheld hp)),
      fun hp ht => congrArg Host.Outcome.next (hrestore.trans (notify_held hheld hp ht)),
      fun hp ht => congrArg Host.Outcome.next (hrestore.trans (notify_taken hheld hp ht))⟩
  · intro owner
    have hown : ∀ {t : State}, s.planesOut w.core key = t →
        s.transferPlanes key = { t with planeOwner := tabPut s.planeOwner w.core key } := fun h => by
      rw [transferPlanes_running hw hr, h]
    refine ⟨plane_items w, fun h => ?_, fun k x hk hne hx => ⟨fun hm => ?_, fun hm => ?_⟩⟩
    · exact congrArg Host.Outcome.next (hown (planesOut_own hw h))
    · have hout := planesOut_other (core := w.core) hk hne hx
      rw [if_neg (by rw [hm]; exact Bool.false_ne_true)] at hout
      generalize x.planeItems = l at hout ⊢
      exact congrArg Host.Outcome.next (hown hout)
    · have hout := planesOut_other (core := w.core) hk hne hx
      rw [if_pos hm] at hout
      generalize x.planeItems = l at hout ⊢
      exact congrArg Host.Outcome.next (hown hout)
  · exact ⟨fun h => congrArg Host.Outcome.next (pageWalk_window hw h), fun x h => congrArg Host.Outcome.next (pageWalk_error hw h),
      fun e l h => ⟨fun hp => congrArg Host.Outcome.next (pageWalk_noLeaf hw h hp),
      fun hp h57 hwin => congrArg Host.Outcome.next (pageWalk_leaf hw h hp h57 hwin)⟩⟩
  · subst hk
    intro named drop used done
    refine ⟨fun h => congrArg Host.Outcome.next (finishSatinv_empty hx hw h), fun h => congrArg Host.Outcome.next ?_⟩
    have hused : s.dropsFrame x = used := dropsFrame_eq s x
    refine (finishSatinv_drops hx hw h).trans ?_
    rw [hused]
    rfl

end Sys2Proof.Machine
end

section
/-! PROOF. A record that lies in a sector with an uncorrectable error (R332, log 39). -/
namespace Sys2Proof.Machine
open Sys2Proof

/-! ## What a write of the device leaves alone -/

/-- Bytes that the device stores change memory and the dirty pool bytes alone. -/
theorem putBytes_same (p : Phys) (l : List (BitVec 8)) : ∀ (s : State) (a : Nat),
    s.putBytes p a l = { s with mem := (s.putBytes p a l).mem, poolDirty := (s.putBytes p a l).poolDirty } := by
  induction l with
  | nil => exact fun _ _ => rfl
  | cons b r ih =>
    intro s a
    have hbyte : s.putByte p a b = { s with mem := (s.putByte p a b).mem, poolDirty := (s.putByte p a b).poolDirty } := by
      unfold State.putByte
      split <;> rfl
    change (s.putByte p a b).putBytes p (a + 1) r = { s with
      mem := ((s.putByte p a b).putBytes p (a + 1) r).mem, poolDirty := ((s.putByte p a b).putBytes p (a + 1) r).poolDirty }
    rw [ih]
    generalize (s.putByte p a b).putBytes p (a + 1) r = t
    rw [hbyte]

/-- A write of the device changes memory, the dirty pool bytes and the record of writes alone. -/
theorem putPhys_same (s : State) (a : Nat) (l : List (BitVec 8)) :
    s.putPhys a l = { s with
      mem := (s.putPhys a l).mem, poolDirty := (s.putPhys a l).poolDirty, writes := (s.putPhys a l).writes } := by
  unfold State.putPhys
  rw [putBytes_same]
  generalize (s.noteDone .mem a l).putBytes (plain a) a l = t
  rw [noteDone_same]

/-! ## The machine-check log under what an arbiter does -/

theorem putPhys_mclog (s : State) (a : Nat) (l : List (BitVec 8)) : (s.putPhys a l).mclog = s.mclog := by
  rw [putPhys_same]

theorem modLaunch_mclog (s : State) (lid : Nat) (f : Launch → Launch) : (s.modLaunch lid f).mclog = s.mclog := by
  unfold State.modLaunch
  split <;> rfl

theorem putLaunch_mclog (s : State) (lid : Nat) (l : Launch) : (s.putLaunch lid l).mclog = s.mclog := rfl

theorem advanceQueue_mclog (s : State) (q : Nat) : (s.advanceQueue q).mclog = s.mclog := by
  unfold State.advanceQueue
  dsimp only
  split
  · rfl
  · have hput : ∀ a l, (s.flushAllPool.putPhys a l).mclog = s.mclog := fun a l => putPhys_mclog _ a l
    split <;> exact hput _ _

/-- A completed record leaves no machine check behind. -/
theorem finish_mclog (s : State) (lid st : Nat) (d : Option (BitVec 256)) : (s.finish lid st d).mclog = s.mclog := by
  unfold State.finish
  refine (advanceQueue_mclog _ _).trans ?_
  refine (modLaunch_mclog _ _ _).trans ((putPhys_mclog _ _ _).trans ?_)
  cases d with
  | none => rfl
  | some d => exact putPhys_mclog _ _ _

/-! ## The counterexample -/

/-- A device with one record in queue 0, its ring slot in a sector with an uncorrectable error. -/
def badRecord : State :=
  { State.reset with queues := [(0, { QueueSt.zero with size := 64, tail := 1 })], badSectors := [0] }

theorem badRecord_due : (badRecord.account 0).head < (badRecord.account 0).tail ∧ badRecord.busyOf 0 < 4 ∧ badRecord.qerr 0 = false := by
  decide

theorem takeRecord_badRecord : (badRecord.takeRecord 0).mclog ≠ [] := by
  have hbad : sectorHit badRecord.badSectors (ringSlot (badRecord.account 0).ring (badRecord.account 0).size
      (badRecord.account 0).head) 256 = some 0 := by decide
  unfold State.takeRecord
  dsimp only
  rw [if_pos (by decide), hbad]
  dsimp only
  rw [finish_mclog, putLaunch_mclog]
  simp only [State.recordCheck, State.logCheck]
  simp

/-- Refutes O51: a record in a sector with an uncorrectable error is a machine check (R332, log 39), which is logged and ends
the record with STATUS 3; the clause on record taking has no premise on the sectors and gives the record its checks' answer. -/
theorem not_recordsAndDecisions : ¬ Obligations.RecordsAndDecisions := by
  unfold Obligations.RecordsAndDecisions
  intro h
  obtain ⟨hdue, hbusy, hq⟩ := badRecord_due
  obtain ⟨hok, herr⟩ := ((h badRecord).1 0).1 hdue hbusy hq
  have refuted : ∀ t : State, t.mclog = [] → exec (.recordTake 0) badRecord ≠ .next t := by
    intro t ht hx
    have hs : badRecord.takeRecord 0 = t := by
      rw [exec_recordTake, execRecordTake] at hx
      exact Host.Outcome.next.inj hx
    exact takeRecord_badRecord (hs ▸ ht)
  cases hl : badRecord.loadRecord _ _ _ with
  | ok l => exact refuted _ (putLaunch_mclog _ _ _) (hok l hl)
  | error st => exact refuted _ (finish_mclog _ _ _ _) (herr st hl)

end Sys2Proof.Machine
end

section
/-! PROOF. Phases and closes: when they are due, held requests in order, the deal, the new bias table (O52). -/
namespace Sys2Proof.Machine
open Sys2Proof

/-! ## Held requests in order (R211) -/

section
variable {α : Type} {before : α → α → Bool}

theorem insertBy_perm (x : α) (l : List α) : (insertBy before x l).Perm (x :: l) := by
  induction l with
  | nil => exact .refl _
  | cons y r ih =>
    unfold insertBy
    split
    · exact .refl _
    · exact (ih.cons y).trans (.swap x y r)

theorem sortBy_append_perm (l r : List α) : (l.foldl (fun r x => insertBy before x r) r).Perm (l ++ r) := by
  induction l generalizing r with
  | nil => exact .refl _
  | cons x l ih =>
    refine (ih _).trans (((insertBy_perm x r).append_left l).trans ?_)
    exact List.perm_middle

theorem sortBy_perm (l : List α) : (sortBy before l).Perm l := by
  have h := sortBy_append_perm (before := before) l []
  rwa [List.append_nil] at h

/-- Inserting keeps a list in order, for an order that is transitive together with its complement. -/
theorem insertBy_ordered (asymm : ∀ a b, before a b = true → before b a = false)
    (trans : ∀ a b c, before a b = true → before c b = false → before c a = false) (x : α) (l : List α)
    (h : l.Pairwise fun a b => before b a = false) : (insertBy before x l).Pairwise fun a b => before b a = false := by
  induction l with
  | nil => exact List.pairwise_singleton _ _
  | cons y r ih =>
    obtain ⟨hy, hr⟩ := List.pairwise_cons.mp h
    unfold insertBy
    split
    · next hx =>
      refine List.pairwise_cons.mpr ⟨fun z hz => ?_, h⟩
      rcases List.mem_cons.mp hz with rfl | hz
      · exact asymm _ _ hx
      · exact trans _ _ _ hx (hy z hz)
    · next hx =>
      refine List.pairwise_cons.mpr ⟨fun z hz => ?_, ih hr⟩
      rcases List.mem_cons.mp ((insertBy_perm x r).mem_iff.mp hz) with rfl | hz
      · exact Bool.eq_false_iff.mpr hx
      · exact hy z hz

theorem sortBy_ordered (asymm : ∀ a b, before a b = true → before b a = false)
    (trans : ∀ a b c, before a b = true → before c b = false → before c a = false) (l : List α) :
    (sortBy before l).Pairwise fun a b => before b a = false :=
  List.foldlRecOn (motive := fun r => r.Pairwise fun a b => before b a = false) l _ List.Pairwise.nil
    fun r hr x _ => insertBy_ordered asymm trans x r hr
end

/-- Token, sender and row as one list to compare by. -/
theorem heldBefore_iff (a b : SendReq) : a.before b = true ↔
    a.token.toNat < b.token.toNat ∨ a.token = b.token ∧ (a.sender < b.sender ∨ a.sender = b.sender ∧ a.row < b.row) := by
  simp [SendReq.before]

theorem heldBefore_asymm (a b : SendReq) (h : a.before b = true) : b.before a = false := by
  rw [← Bool.not_eq_true, heldBefore_iff]
  rw [heldBefore_iff] at h
  simp only [BitVec.toNat_eq] at h ⊢
  omega

theorem heldBefore_trans (a b c : SendReq) (h : a.before b = true) (hc : c.before b = false) : c.before a = false := by
  rw [← Bool.not_eq_true, heldBefore_iff] at hc ⊢
  rw [heldBefore_iff] at h
  simp only [BitVec.toNat_eq] at h hc ⊢
  omega

/-! ## What is due -/

theorem workersOf_eq (s : State) (lid : Nat) :
    s.workersOf lid = (List.range (s.launch lid).workersN).map fun w => s.worker (workerKey lid w) := by
  rw [State.workersOf, upFrom_zero]

theorem phaseOver_iff (s : State) (lid : Nat) :
    s.phaseOver lid = true ↔
      (s.launch lid).det = true ∧ (((s.launch lid).state = .running ∨ (s.launch lid).state = .preempted) ∧
        (s.launch lid).aborting = false) ∧ (s.launch lid).ended = false ∧
      ((s.launch lid).ntask = 0 → (∃ w ∈ s.workersOf lid, w.gone = false) ∧
        ∀ w ∈ s.workersOf lid, w.gone = true ∨ w.committed = true) ∧
      ((s.launch lid).ntask ≠ 0 → (s.launch lid).left = 0 ∧ (s.launch lid).phase < (s.launch lid).phases) := by
  unfold State.phaseOver
  dsimp only
  generalize s.workersOf lid = ws
  generalize s.launch lid = l
  by_cases hn : l.ntask = 0 <;>
    simp [hn, and_assoc]

theorem batchOver_iff (s : State) (lid : Nat) :
    s.batchOver lid = true ↔
      (s.launch lid).det = false ∧ (((s.launch lid).state = .running ∨ (s.launch lid).state = .preempted) ∧
        (s.launch lid).aborting = false) ∧
      (∀ w < (s.launch lid).workersN, (s.launch lid).contributions w ≠ [] ∨
        ∀ x, s.worker? (workerKey lid w) = some x → x.gone = true) ∧
      ∃ w < (s.launch lid).workersN, (s.launch lid).contributions w ≠ [] := by
  have hready : ∀ w, (match s.worker? (workerKey lid w) with
      | some x => x.gone
      | none => true) = true ↔ ∀ x, s.worker? (workerKey lid w) = some x → x.gone = true := by
    intro w
    cases s.worker? (workerKey lid w) with
    | none => simp
    | some x => simp
  unfold State.batchOver
  dsimp only
  rw [upFrom_zero]
  simp only [Bool.and_eq_true, Bool.or_eq_true, Bool.not_eq_true', beq_iff_eq, List.all_eq_true, List.any_eq_true,
    List.mem_range, List.isEmpty_eq_false_iff]
  constructor
  · rintro ⟨⟨⟨⟨hon, hdet⟩, hab⟩, hall⟩, hany⟩
    exact ⟨hdet, ⟨hon, hab⟩, fun w hw => (hall w hw).imp id (hready w).mp, hany⟩
  · rintro ⟨hdet, ⟨hon, hab⟩, hall, hany⟩
    exact ⟨⟨⟨⟨hon, hdet⟩, hab⟩, fun w hw => (hall w hw).imp id (hready w).mpr⟩, hany⟩

/-! ## The deal and the close -/

/-- A table filled for consecutive keys. -/
theorem tabGet_fill {α : Type} [DecidableEq α] (d : α) (f : Nat → α) (n i : Nat) (h : i < n) :
    tabGet d ((upFrom 0 n).foldl (fun t k => tabSet d t k (f k)) []) i = f i := by
  rw [upFrom_zero]
  induction n with
  | zero => omega
  | succ n ih =>
    rw [List.range_succ, List.foldl_append, List.foldl_cons, List.foldl_nil]
    by_cases hi : i = n
    · rw [hi, tabGet_set_self]
    · rw [tabGet_set_ne _ _ _ _ _ hi, ih (by omega)]

theorem deal_gives (l : Launch) (q i : Nat) (hn : l.ntask ≠ 0) (hi : i < l.workersN) :
    let b := if q = 0 then 0 else nth 0 l.phaseEnds (q - 1)
    let n := nth b l.phaseEnds q - b
    let at_ := fun (j : Nat) => j * n / l.workersN
    (l.deal q).left = n ∧ tabGet [] (l.deal q).deques i = (List.range (at_ (i + 1) - at_ i)).map (b + at_ i + ·) := by
  intro b n at_
  unfold Launch.deal
  rw [if_neg hn]
  exact ⟨rfl, (tabGet_fill [] _ _ _ hi).trans (upFrom_eq _ _)⟩

theorem close_gen (l : Launch) (c : List (Tab Nat)) (g : BitVec 32) : (l.close c g).biasGen = l.biasGen + 1 := rfl

theorem close_bias (l : Launch) (counts : List (Tab Nat)) (gamma : BitVec 32) (e : Nat) (he : e < l.nexp) :
    let c := fun (i : Nat) => (counts.map fun t => tabGet 0 t i).sum
    let total := ((List.range l.nexp).map c).sum
    let sign : Int := if c e * l.nexp < total then 1 else if total < c e * l.nexp then -1 else 0
    nth 0 (l.close counts gamma).bias e =
      BitVec.ofNat 32
        (roundF32 false (XReal.add false (readF32 false (nth 0 l.bias e).toNat) ((readF32 false gamma.toNat).mul (.ofInt sign)))) := by
  intro c total sign
  have htotal : ((upFrom 0 l.nexp).map (countOfExpert counts)).sum = total := by
    rw [upFrom_zero]
    rfl
  have hbias : (l.close counts gamma).bias = (upFrom 0 l.nexp).map fun e => closedBias (nth 0 l.bias e) gamma
      (if countOfExpert counts e * l.nexp < total then 1 else if total < countOfExpert counts e * l.nexp then -1 else 0) := by
    rw [← htotal]
    rfl
  rw [hbias, upFrom_zero, nth_getElem _ (by simpa using he)]
  simp only [List.getElem_map, List.getElem_range]
  rfl

section
variable {s : State} {lid : Nat}

theorem endPhase_not_due (h : s.phaseOver lid = false) : s.endPhase lid = s := by
  unfold State.endPhase
  rw [h]
  exact if_neg nofun

theorem nextPhase_eq (l : Launch) (last : Bool) (p : Prop) [Decidable p] (h : last = true ↔ p) :
    l.nextPhase last = if p then { l with ended := true } else { l.deal (l.phase + 1) with phase := l.phase + 1 } := by
  unfold Launch.nextPhase
  by_cases hp : p
  · rw [if_pos hp, if_pos (h.mpr hp)]
  · rw [if_neg hp, if_neg fun hl => hp (h.mp hl)]

theorem closePhase_none (h : (s.launch lid).smbend = false) : s.closePhase lid = s := by
  unfold State.closePhase
  dsimp only
  rw [h]
  exact if_neg nofun

theorem closePhase_some (h : (s.launch lid).smbend = true) :
    (s.closePhase lid).launch lid =
      { (s.launch lid).close ((s.keysOf lid).map fun k => (s.worker k).sent) (s.launch lid).phaseGamma with smbend := false } ∧
    ∀ k x, (s.closePhase lid).worker? k = some x → x.lid = lid → x.sent = [] := by
  unfold State.closePhase
  dsimp only
  rw [if_pos h]
  constructor
  · simp only [State.launch, State.putLaunch, tabFind_put_self]
    rfl
  · intro k x hx hlid
    rw [State.worker?, State.putLaunch, tabFind_map fun e => if e.2.lid = lid then { e.2 with sent := [] } else e.2] at hx
    obtain ⟨w, -, rfl⟩ := Option.map_eq_some_iff.mp hx
    by_cases hw : w.lid = lid
    · rw [if_pos hw]
    · rw [if_neg hw] at hlid
      exact absurd hlid hw

theorem closeBatch_not_due (h : s.batchOver lid = false) : s.closeBatch lid = s := by
  unfold State.closeBatch
  rw [h]
  exact if_neg nofun

theorem closeBatch_due (h : s.batchOver lid = true) :
    let l := s.launch lid
    let heads := (List.range l.workersN).flatMap fun w => (l.contributions w).take 1
    let gamma := (l.contributions 0).head?.elim l.exitGamma Prod.snd
    let k := l.close (heads.map Prod.fst) gamma
    s.closeBatch lid = s.putLaunch lid { k with contrib := k.contrib.map fun e => (e.1, e.2.drop 1) } := by
  intro l heads gamma k
  have hgamma : (match l.contributions 0 with
      | x :: _ => x.2
      | [] => l.exitGamma) = gamma := by
    change _ = (l.contributions 0).head?.elim l.exitGamma Prod.snd
    cases l.contributions 0 with
    | nil => rfl
    | cons x r => rfl
  unfold State.closeBatch
  rw [if_pos h]
  dsimp only
  rw [upFrom_zero]
  have hk : k = l.close (heads.map Prod.fst) (match l.contributions 0 with
      | x :: _ => x.2
      | [] => l.exitGamma) := by rw [hgamma]
  rw [hk] <;> rfl
end

end Sys2Proof.Machine
end

section
/-! PROOF. The completion of workers and launches (O52). -/
namespace Sys2Proof.Machine
open Sys2Proof

/-! ## A worker's completion -/

section
variable {s : State} {key : Nat} {w : Worker}

theorem workLeft_false (hc : ∀ c ∈ s.copies, c.key ≠ key) (hj : ∀ j ∈ s.jobs, j.key = key → j.complete = true)
    (hp : ∀ p ∈ s.passes, p.key ≠ key) (hk : ∀ k ∈ s.knotAdds, k.key ≠ key) (hx : ∀ x ∈ s.satinvs, x.key ≠ key) :
    s.workLeft key = false := by
  have none_of : ∀ {β : Type} (l : List β) (f : β → Nat), (∀ c ∈ l, f c ≠ key) → (l.any fun c => f c == key) = false := by
    intro β l f h
    rw [List.any_eq_false]
    exact fun c hc => by simpa using h c hc
  have hjobs : (s.jobs.any fun j => j.key == key && !j.complete) = false := by
    rw [List.any_eq_false]
    intro j hm
    by_cases hkey : j.key = key
    · simp [hkey, hj j hm hkey]
    · simp [hkey]
  have empty_of : ∀ {β : Type} (l : List β) (f : β → Nat), (∀ c ∈ l, f c ≠ key) →
      (l.filter fun c => f c == key).isEmpty = true := by
    intro β l f h
    rw [List.isEmpty_iff, List.filter_eq_nil_iff]
    exact fun c hc => by simpa using h c hc
  unfold State.workLeft State.copiesOf State.passesOf
  rw [empty_of _ CopyCmd.key hc, empty_of _ ScorePass.key hp, hjobs, none_of _ _ hk, none_of _ _ hx]
  rfl

theorem workerOver_of (hw : s.worker? key = some w) (hr : w.status = .running)
    (hs : ∀ e, (w.strands.get e).exited = true ∧ (w.strands.get e).pend = []) (hh : w.inHandler = false)
    (hn : ∀ n, w.note = some n → n.held = true) (hl : s.workLeft key = false) (hp : s.phaseOver w.lid = false)
    (hb : s.batchOver w.lid = false) : s.workerOver key = true := by
  have hgone : w.gone = true := strands_all _ _ fun e => (hs e).1
  have hpend : (w.strands.toList.all fun t => t.pend.isEmpty) = true := strands_all _ _ fun e => by rw [(hs e).2]; rfl
  have hnoted : w.noted = false := by
    unfold Worker.noted
    cases h : w.note with
    | none => rfl
    | some n => simp [hn n h]
  unfold State.workerOver
  rw [hw]
  dsimp only
  rw [hr, hgone, hh, hnoted, hpend, hl, hp, hb]
  rfl

/-- The writes of a worker, performed at device scope. -/
theorem performWorker_writes (hw : s.worker? key = some w) :
    s.performWorker key 3 = { s with
      writes := s.writes.map fun u => if u.who.map Who.key = some key then u.perform ⟨s.tick, 3, w.core⟩ else u } := by
  have hpick : ∀ u : Write, u.ofWorker key = true ↔ u.who.map Who.key = some key := by
    intro u
    unfold Write.ofWorker
    cases u.who <;> simp
  unfold State.performWorker State.performAll
  rw [worker_some hw]
  simp only [hpick]

/-- The state after a worker's completion, before what it leaves free. -/
def State.workerDone (s : State) (key : Nat) (w : Worker) : State :=
  { s.putWorker key { w with status := .done } with
    jobs := s.jobs.filter fun j => j.key != key
    writes := s.writes.map fun u => if u.who.map Who.key = some key then u.perform ⟨s.tick, 3, w.core⟩ else u }

theorem completeWorker_eq (hw : s.worker? key = some w) (hover : s.workerOver key = true) :
    s.completeWorker key =
      if ((s.workerDone key w).keysOf (key / 128)).all fun k => ((s.workerDone key w).worker k).status == .done then
        ((s.workerDone key w).modLaunch (key / 128) fun l => { l with state := .draining }).freeLaunch (key / 128)
      else if (s.launch (key / 128)).state = .preempted then (s.workerDone key w).freeDone (key / 128)
      else s.workerDone key w := by
  unfold State.completeWorker
  rw [if_pos hover, performWorker_writes hw]
  have hmod := modWorker_some (s := { s with
    writes := s.writes.map fun u => if u.who.map Who.key = some key then u.perform ⟨s.tick, 3, w.core⟩ else u })
    (w := w) hw fun w => { w with status := .done }
  rw [hmod]
  rfl

theorem workersDone_iff (t : State) (lid : Nat) :
    ((t.keysOf lid).all fun k => (t.worker k).status == .done) = true ↔ ∀ k ∈ t.keysOf lid, (t.worker k).status = .done := by
  simp

theorem completeWorker_last (hw : s.worker? key = some w) (hover : s.workerOver key = true)
    (hd : ∀ k ∈ (s.workerDone key w).keysOf (key / 128), ((s.workerDone key w).worker k).status = .done) :
    s.completeWorker key =
      { (s.workerDone key w).modLaunch (key / 128) fun l => { l with state := .draining } with
        coreUse := (s.workerDone key w).coreUse.filter fun e => e.2 / 128 != key / 128 } := by
  have hcore : ((s.workerDone key w).modLaunch (key / 128) fun l => { l with state := .draining }).coreUse =
      (s.workerDone key w).coreUse := by
    unfold State.modLaunch
    split <;> rfl
  rw [completeWorker_eq hw hover, if_pos ((workersDone_iff _ _).mpr hd), State.freeLaunch, hcore]

theorem completeWorker_other (hw : s.worker? key = some w) (hover : s.workerOver key = true)
    (hd : ∃ k ∈ (s.workerDone key w).keysOf (key / 128), ((s.workerDone key w).worker k).status ≠ .done) :
    ((s.launch (key / 128)).state ≠ .preempted → s.completeWorker key = s.workerDone key w) ∧
    ((s.launch (key / 128)).state = .preempted → s.completeWorker key = (s.workerDone key w).freeDone (key / 128)) := by
  obtain ⟨k, hk, hne⟩ := hd
  rw [completeWorker_eq hw hover, if_neg fun h => hne ((workersDone_iff _ _).mp h k hk)]
  exact ⟨fun h => if_neg h, fun h => if_pos h⟩
end

/-! ## A record's completion -/

section
variable (s : State) (lid : Nat)

/-- What a write of the device records stands before the writes that were there. -/
theorem putPhys_keeps (a : Nat) (l : List (BitVec 8)) : s.writes ⊆ (s.putPhys a l).writes := by
  have hput : (s.putPhys a l).writes = (s.noteDone .mem a l).writes := by
    unfold State.putPhys
    rw [putBytes_same]
  rw [hput]
  unfold State.noteDone
  split
  · exact List.Subset.refl _
  · generalize lineParts a l = ps
    clear * - ps
    induction ps generalizing s with
    | nil => exact List.Subset.refl _
    | cons p r ih =>
      rw [List.foldl_cons]
      refine List.Subset.trans ?_ (ih _)
      split
      · exact List.Subset.refl _
      · exact List.subset_cons_self _ _

theorem putPhys_launches (a : Nat) (l : List (BitVec 8)) : (s.putPhys a l).launches = s.launches := by
  rw [putPhys_same]

theorem modLaunch_writes (f : Launch → Launch) : (s.modLaunch lid f).writes = s.writes := by
  unfold State.modLaunch
  split <;> rfl

theorem advanceQueue_launches (q : Nat) : (s.advanceQueue q).launches = s.launches := by
  have hput : ∀ a l, (s.flushAllPool.putPhys a l).launches = s.launches := fun a l => putPhys_launches _ a l
  unfold State.advanceQueue
  dsimp only
  split
  · rfl
  · split <;> exact hput _ _

theorem advanceQueue_keeps (q : Nat) : s.writes ⊆ (s.advanceQueue q).writes := by
  have hput : ∀ a l, s.writes ⊆ (s.flushAllPool.putPhys a l).writes := fun a l => putPhys_keeps s.flushAllPool a l
  unfold State.advanceQueue
  dsimp only
  split
  · exact List.Subset.refl _
  · split <;> exact hput _ _

theorem finish_launch (st : Nat) (d : Option (BitVec 256)) {l : Launch} (h : tabFind s.launches lid = some l) :
    ((s.finish lid st d).launch lid).state = .complete ∧ ((s.finish lid st d).launch lid).status = st := by
  have hfound : tabFind (s.finish lid st d).launches lid =
      some { l with state := .complete, status := st, digest := d.getD 0 } := by
    unfold State.finish
    rw [advanceQueue_launches]
    refine tabFind_modLaunch _ ?_
    rw [putPhys_launches]
    cases d with
    | none => exact h
    | some d => exact (congrArg (tabFind · lid) (putPhys_launches _ _ _)).trans h
  unfold State.launch
  rw [hfound]
  exact ⟨rfl, rfl⟩

theorem finish_performs (st : Nat) (d : Option (BitVec 256)) {u : Write} (hu : u ∈ s.writes)
    (hof : ∃ a, u.who = some a ∧ a.key / 128 = lid) : u.perform ⟨s.tick, 5, 0⟩ ∈ (s.finish lid st d).writes := by
  obtain ⟨a, ha, hkey⟩ := hof
  have hpick : u.ofLaunch lid = true := by
    unfold Write.ofLaunch
    rw [ha]
    exact beq_iff_eq.mpr hkey
  have hmem : u.perform ⟨s.tick, 5, 0⟩ ∈ (s.performAll (·.ofLaunch lid) 5 0).writes :=
    List.mem_map.mpr ⟨u, hu, if_pos hpick⟩
  unfold State.finish
  refine advanceQueue_keeps _ _ ?_
  change _ ∈ (State.modLaunch _ _ _).writes
  rw [modLaunch_writes]
  refine putPhys_keeps _ _ _ ?_
  cases d with
  | none => exact hmem
  | some d => exact putPhys_keeps _ _ _ hmem
end

/-! ## A launch's completion -/

section
variable {s : State} {lid : Nat}

theorem completeLaunch_due (hs : (s.launch lid).state = .draining) (ha : (s.launch lid).aborting = false)
    (hp : ∀ d ∈ (s.launch lid).producers, s.isComplete d = true)
    (hq : (s.launch lid).det = true ∨ ((∀ q ∈ s.sends, q.lid ≠ lid) ∧ ∀ m ∈ s.refusals, m.key / 128 ≠ lid)) :
    s.completeLaunch lid = (s.finish lid 0 (some (s.digestOf lid))).forget lid := by
  have hleft : s.sendsLeft lid = false := by
    unfold State.sendsLeft
    rcases hq with hdet | ⟨hsend, href⟩
    · rw [hdet]
      rfl
    · have h1 : (s.sends.any fun q => q.lid == lid) = false := List.any_eq_false.mpr fun q hm => by simpa using hsend q hm
      have h2 : (s.refusals.any fun m => m.key / 128 == lid) = false := List.any_eq_false.mpr fun m hm => by simpa using href m hm
      rw [h1, h2]
      simp
  unfold State.completeLaunch
  dsimp only
  rw [hs, ha, (producersDone_iff _ _).mpr hp, hleft]
  rfl

theorem completeAborted_due (ha : (s.launch lid).aborting = true) (hs : (s.launch lid).state ≠ .complete)
    (hp : ∀ d ∈ (s.launch lid).producers, s.isComplete d = true) :
    s.completeAborted lid =
      ((s.finish lid 3 (some (s.digestOf lid))).forget lid).modLaunch lid fun l => { l with aborting := false } := by
  unfold State.completeAborted
  dsimp only
  rw [ha, (producersDone_iff _ _).mpr hp]
  exact if_pos (by simpa using hs)
end

/-- Settles O52, event by event: when the end of a phase or a close is due, what completion performs and frees, the order of the
held requests, the deal and the new bias table. -/
theorem completionsAndPhases : Obligations.CompletionsAndPhases := by
  unfold Obligations.CompletionsAndPhases
  intro s lid answers l ws on phaseDone batchDone
  have hws : s.workersOf lid = ws := workersOf_eq s lid
  have hphase : s.phaseOver lid = true ↔ phaseDone := by
    rw [phaseOver_iff, hws]
  have hbatch : s.batchOver lid = true ↔ batchDone := batchOver_iff s lid
  refine ⟨hphase, hbatch, ?_, ?_, ?_, ?_, ?_, ?_, ?_, ?_, ?_, ?_, ?_⟩
  · intro key w hw hr hs hh hn hc hj hp hk hx hpo hbo t mine
    have hover := workerOver_of hw hr hs hh hn (workLeft_false hc hj hp hk hx) hpo hbo
    refine ⟨fun hd => ⟨fun h => ?_, fun h => ?_⟩, fun hd => ?_⟩
    · exact congrArg Host.Outcome.next ((completeWorker_other hw hover hd).1 h)
    · exact congrArg Host.Outcome.next ((completeWorker_other hw hover hd).2 h)
    · exact congrArg Host.Outcome.next (completeWorker_last hw hover hd)
  · exact fun st d => ⟨fun h => finish_launch s lid st d h, fun u hu hof => finish_performs s lid st d hu hof⟩
  · exact fun hs ha hp hq => congrArg Host.Outcome.next (completeLaunch_due hs ha hp hq)
  · exact fun ha hs hp => congrArg Host.Outcome.next (completeAborted_due ha hs hp)
  · exact fun h => congrArg Host.Outcome.next (endPhase_not_due (Bool.eq_false_iff.mpr fun hp => h (hphase.mp hp)))
  · intro h u v
    refine congrArg Host.Outcome.next (?_ : s.endPhase lid = _)
    have hlast : (s.workersOf lid).all (·.gone) = true ↔ ∀ w ∈ ws, w.gone = true := by
      rw [hws]
      exact List.all_eq_true
    unfold State.endPhase
    rw [if_pos (hphase.mpr h)]
    dsimp only
    simp only [nextPhase_eq _ _ _ hlast]
    rfl
  · exact fun q => ⟨closePhase_none, closePhase_some⟩
  · intro r before
    refine ⟨sortBy_perm r, (sortBy_ordered heldBefore_asymm heldBefore_trans r).imp ?_⟩
    intro a b h hb
    rw [(heldBefore_iff b a).mpr hb] at h
    exact absurd h nofun
  · exact fun q i hn hi => deal_gives l q i hn hi
  · exact fun h => congrArg Host.Outcome.next (closeBatch_not_due (Bool.eq_false_iff.mpr fun hp => h (hbatch.mp hp)))
  · intro h heads gamma k
    exact ⟨congrArg Host.Outcome.next (closeBatch_due (hbatch.mpr h)), close_gen _ _ _, fun e he => close_bias l _ gamma e he⟩

end Sys2Proof.Machine
end

section
/-! PROOF. A RESUME of a region that is not lost, in a table that lists a region at its reset value (R328). -/
namespace Sys2Proof.Machine
open Sys2Proof

/-- A device of the host's whose table of regions lists region 0 with the value that an unlisted region has. -/
def listedRegion : State := { State.reset with own := 0, regions := [(0, .reset)] }

theorem resume_listedRegion : exec (.resume 0 0) listedRegion = .next { listedRegion with regions := [] } := by
  have howns : (0 : Nat) < 1026 ∧ listedRegion.own = BitVec.ofNat 16 0 := by decide
  have hregion : listedRegion.region 0 = .reset := by decide
  refine congrArg Host.Outcome.next ((ifOwner_yes howns).trans ?_)
  dsimp only
  rw [hregion]
  rfl

/-- Refutes O53: RESUME puts the region back as it is where it is not lost, and a table that lists the region at its reset value
does not list it afterwards, so that the state is not the one before. -/
theorem not_ownershipRegistersAndPool : ¬ Obligations.OwnershipRegistersAndPool := by
  unfold Obligations.OwnershipRegistersAndPool
  rintro ⟨-, h⟩
  obtain ⟨-, -, -, -, hsame, -⟩ := h listedRegion 0 0 0 0 (by decide) (by decide)
  have hstate : (listedRegion.region 0).state ≠ 2 := by decide
  have hnext := resume_listedRegion.symm.trans (hsame hstate)
  have hregions : ([] : Tab Region) = [(0, .reset)] := congrArg State.regions (Host.Outcome.next.inj hnext)
  exact absurd hregions nofun

end Sys2Proof.Machine
end

section
/-! PROOF. Fupel ports and the requests from outside (O54). -/
namespace Sys2Proof.Machine
open Sys2Proof

/-! ## Ports (R329) -/

section
variable {s : State} {p : Nat}

theorem port_setPort (s : State) (p : Nat) (x : Port) : (s.setPort p x).port p = x := tabGet_set_self _ _ _ _

/-- What the statement of a store in flight says is what the model tests. -/
theorem losesStore_iff (s : State) (p : Nat) (u : Write) :
    s.losesStore p u = true ↔
      (u.spot = .mem ∧ 2 ^ 52 ≤ 32 * u.line ∧ u.reach = [] ∧ u.shown = none ∧ u.seenBy = [] ∧ u.done = false ∧
        (tabGet 0 s.routes (32 * u.line / 2 ^ 52 - 1)).getLsbD p = true ∧ s.peerUp (32 * u.line / 2 ^ 52 - 1) = false) ∧
      Config.storeLost s.tick u.id = true := by
  unfold State.losesStore Write.inFlight Write.atPeer tabGet
  simp only [Nat.shiftRight_eq_div_pow, Bool.and_eq_true, Bool.not_eq_true', beq_iff_eq, decide_eq_true_eq,
    List.isEmpty_iff, Option.isNone_iff_eq_none, and_assoc]

theorem portDown_down (h : (s.port p).up = false) : s.portDown p = s := by
  unfold State.portDown
  rw [h]
  exact if_neg nofun

theorem portDown_up (h : (s.port p).up = true) :
    s.portDown p = (s.setPort p { s.port p with up := false, lanes := 0 }).loseStores p := by
  unfold State.portDown
  exact if_pos h

theorem loseStores_none (h : ∀ u ∈ s.writes, s.losesStore p u = false) : s.loseStores p = s := by
  unfold State.loseStores
  rw [List.any_eq_false.mpr fun u hu => by rw [h u hu]; exact nofun]
  exact if_neg nofun

theorem loseStores_one {u : Write} (hw : s.writes = [u]) (hu : s.losesStore p u = true) (hs : u.spot = .mem) :
    s.loseStores p = { s with mem := s.mem.writeBytes (32 * u.line) (toBytes u.old 32), writes := [] }.setPort p
      { s.port p with plost := true } := by
  have hlog : s.lineLog .mem u.line = [u] := by
    unfold State.lineLog
    rw [hw]
    simp [hs]
  have hwithout : s.lineWithout (s.losesStore p) u.line = u.old := by
    unfold State.lineWithout State.lineBase
    rw [hlog]
    simp [hu, lineAfter]
  have hundo : s.undo (s.losesStore p) =
      { s with mem := s.mem.writeBytes (32 * u.line) (toBytes u.old 32), writes := [] } := by
    unfold State.undo
    rw [← hwithout]
    simp only [hw, List.filter_cons, List.filter_nil, hu, if_true, List.foldl_cons, List.foldl_nil, Bool.not_true,
      Bool.false_eq_true, if_false, List.map_nil]
  unfold State.loseStores
  rw [hundo, if_pos (by rw [hw]; simpa using hu)]

theorem loseStores_older {u v : Write} (hw : s.writes = [v, u]) (hu : s.losesStore p u = true) (hs : u.spot = .mem)
    (hv : s.losesStore p v = false) (hvs : v.spot = .mem) (hl : v.line = u.line) :
    s.loseStores p =
      { s with
        mem := s.mem.writeBytes (32 * u.line) (toBytes (v.edit.run u.old) 32), writes := [{ v with old := u.old }] }.setPort p
        { s.port p with plost := true } := by
  have hlog : s.lineLog .mem u.line = [v, u] := by
    unfold State.lineLog
    rw [hw]
    simp [hs, hvs, hl]
  have hbase : s.lineBase u.line = u.old := by
    unfold State.lineBase
    rw [hlog]
    rfl
  have hwithout : s.lineWithout (s.losesStore p) u.line = v.edit.run u.old := by
    unfold State.lineWithout
    rw [hbase, hlog]
    simp [hu, hv, lineAfter]
  have hrebased : s.rebased (s.losesStore p) v = { v with old := u.old } := by
    unfold State.rebased
    rw [if_pos hvs, hl, hbase, hlog]
    simp [hu, hv, lineAfter]
  have hundo : s.undo (s.losesStore p) = { s with
      mem := s.mem.writeBytes (32 * u.line) (toBytes (v.edit.run u.old) 32), writes := [{ v with old := u.old }] } := by
    unfold State.undo
    rw [← hwithout, ← hrebased]
    simp only [hw, List.filter_cons, List.filter_nil, hu, hv, if_true, List.foldl_cons, List.foldl_nil, Bool.not_true,
      Bool.not_false, Bool.false_eq_true, if_false, List.map_cons, List.map_nil]
  unfold State.loseStores
  rw [hundo, if_pos (by rw [hw]; simpa using Or.inr hu)]
end

/-! ## Reads and writes of HBM from outside (R276, R323, R332) -/

section
variable {s : State} {pa n : Nat}

theorem inHbm_iff (pa n : Nat) : inHbm pa n = true ↔ physKind pa = some .hbm ∧ physKind (pa + n - 1) = some .hbm := by
  simp [inHbm]

/-- A machine check in HBM is of kind 3. -/
theorem checkKind_hbm (h : physKind pa = some .hbm) : checkKind pa = 3 := by
  have hlt : pa < 0x8000000000 := by
    by_contra hge
    unfold physKind at h
    rw [if_neg hge] at h
    split at h
    · dsimp only at h
      split at h <;> cases h
    · split at h
      · cases h
      · split at h <;> cases h
  unfold checkKind
  rw [Nat.mod_eq_of_lt (by omega), if_pos h]

theorem outsideRead_outside (h : ¬(physKind pa = some .hbm ∧ physKind (pa + n - 1) = some .hbm)) (go : State → Nat → State) :
    s.outsideRead pa n go = s := by
  unfold State.outsideRead
  exact if_neg fun hin => h ((inHbm_iff pa n).mp hin)

theorem outsideRead_sound (h : physKind pa = some .hbm ∧ physKind (pa + n - 1) = some .hbm)
    (hs : sectorHit s.badSectors pa n = none) (go : State → Nat → State) :
    s.outsideRead pa n go = go (s.correct pa n) (s.physNat pa n) := by
  unfold State.outsideRead
  rw [if_pos ((inHbm_iff pa n).mpr h), hs]

theorem outsideCheck_eq (s : State) (kind y : Nat) :
    s.outsideCheck kind y =
      s.logCheck [BitVec.ofNat 64 (kind * 2 ^ 8 + 0x0D), BitVec.allOnes 64, BitVec.ofNat 64 (7 * 2 ^ 54 + y % 2 ^ 52), 0] := by
  simp only [State.outsideCheck, Nat.shiftLeft_eq]

theorem outsideRead_bad (h : physKind pa = some .hbm ∧ physKind (pa + n - 1) = some .hbm) {y : Nat}
    (hs : sectorHit s.badSectors pa n = some y) (go : State → Nat → State) :
    s.outsideRead pa n go = s.outsideCheck 3 y := by
  unfold State.outsideRead
  rw [if_pos ((inHbm_iff pa n).mpr h), hs]
  dsimp only
  rw [checkKind_hbm h.1]

theorem outsideWrite_outside {l : List Byte} (h : ¬(physKind pa = some .hbm ∧ physKind (pa + l.length - 1) = some .hbm)) :
    s.outsideWrite pa l = s := by
  unfold State.outsideWrite
  exact if_neg fun hin => h ((inHbm_iff pa _).mp hin)

theorem outsideWrite_sound {l : List Byte} (h : physKind pa = some .hbm ∧ physKind (pa + l.length - 1) = some .hbm)
    (hc : s.writeCheck [(.phys (plain pa), l)] = none) :
    s.outsideWrite pa l = s.writeDone [(.phys (plain pa), l)] := by
  unfold State.outsideWrite
  rw [if_pos ((inHbm_iff pa _).mpr h), hc]

theorem outsideWrite_bad {l : List Byte} (h : physKind pa = some .hbm ∧ physKind (pa + l.length - 1) = some .hbm)
    {kind y : Nat} (hc : s.writeCheck [(.phys (plain pa), l)] = some (.machine kind y)) :
    s.outsideWrite pa l = s.outsideCheck kind y := by
  unfold State.outsideWrite
  rw [if_pos ((inHbm_iff pa _).mpr h), hc]

/-- Writes within sectors that carry no uncorrectable error meet none. -/
theorem writeCheck_clear {l : List Byte} (hs : sectorHit s.badSectors pa l.length = none) :
    s.writeCheck [(.phys (plain pa), l)] = none := by
  have haddr : (plain pa).addr = pa := rfl
  have hglobal : s.badSectors.find? (fun x => partly (coverage x [(.phys (plain pa), l)])) = none := by
    rw [List.find?_eq_none]
    intro x hx hpart
    have hpos : 0 < coverage x [(.phys (plain pa), l)] := (of_decide_eq_true hpart).1
    unfold coverage at hpos
    obtain ⟨a, ha⟩ := List.exists_mem_of_length_pos hpos
    simp only [List.mem_filter, List.any_cons, List.any_nil, Bool.or_false, decide_eq_true_eq, mem_upFrom, haddr] at ha
    have hmiss := List.find?_eq_none.mp hs x hx
    simp only [decide_eq_true_eq] at hmiss
    omega
  have hlocal : (s.badLocal.find? fun x => partly (x.coverage [(.phys (plain pa), l)])) = none := by
    rw [List.find?_eq_none]
    intro x _ hpart
    have hpos : 0 < x.coverage [(.phys (plain pa), l)] := (of_decide_eq_true hpart).1
    unfold LocalSector.coverage at hpos
    obtain ⟨a, ha⟩ := List.exists_mem_of_length_pos hpos
    have hnone : (Place.phys (plain pa)).local? = none := rfl
    simp [hnone] at ha
  unfold State.writeCheck
  rw [hglobal, hlocal]
  rfl

/-- An access that reads before it writes its bytes back: with no error in its sectors it does both. -/
theorem outsideWrite_read {l : List Byte} (hl : l.length = n) (h : physKind pa = some .hbm ∧ physKind (pa + n - 1) = some .hbm)
    (hs : sectorHit s.badSectors pa n = none) :
    (s.correct pa n).outsideWrite pa l = (s.correct pa n).writeDone [(.phys (plain pa), l)] := by
  subst hl
  exact outsideWrite_sound h (writeCheck_clear hs)

end

/-! ## Who asks -/

theorem serve_load (s : State) (pa n : Nat) :
    s.serve (.load pa n) = s.outsideRead pa n fun s v => { s with replies := s.replies ++ [toBytes v n] } := rfl

theorem serve_atomic (s : State) (pa n op : Nat) (x y : Nat) :
    s.serve (.atomic pa n op x y) = s.outsideRead pa n fun s v =>
      { s.outsideWrite pa (toBytes (atomicNew op (8 * n) v x y) n) with replies := s.replies ++ [toBytes v n] } := rfl

theorem serve_xor (s : State) (pa : Nat) (l : List Byte) :
    s.serve (.xor pa l) = s.outsideRead pa l.length fun s v => s.outsideWrite pa (toBytes (v ^^^ ofBytes l) l.length) := rfl

theorem serve_cellAdd (s : State) (pa : Nat) (anchor : Int) (t : BitVec 32) :
    s.serve (.cellAdd pa anchor t) = s.outsideRead pa 32 fun s _ =>
      s.addCell ⟨none, 0, [], true⟩ (.phys (plain pa)) anchor (readF32 false t.toNat) := rfl

section
variable {s : State} {d : Nat}

theorem peerRequest_serves (h : ∃ e ∈ s.ports, e.2.up = true ∧ e.2.peer = d) {rq : MemRequest} {t : State}
    (ht : s.serve rq = t) : exec (.peerRequest d rq) s = .next t := by
  refine congrArg Host.Outcome.next ((if_pos ?_).trans ht)
  simpa using h

theorem peerRequest_refuses (h : ¬∃ e ∈ s.ports, e.2.up = true ∧ e.2.peer = d) (rq : MemRequest) :
    exec (.peerRequest d rq) s = .next s := by
  refine congrArg Host.Outcome.next (if_neg ?_)
  simpa using h

theorem hostMemoryRequest_serves {rq : MemRequest} (hh : fromHost rq = true) {t : State} (ht : s.serve rq = t) :
    exec (.hostMemoryRequest rq) s = .next t := congrArg Host.Outcome.next ((if_pos hh).trans ht)

theorem hostMemoryRequest_refuses {rq : MemRequest} (hh : fromHost rq = false) : exec (.hostMemoryRequest rq) s = .next s :=
  congrArg Host.Outcome.next (if_neg (by rw [hh]; exact nofun))
end

/-- Settles O54, event by event: the ports, a store lost on its way, and every form of request from outside. -/
theorem fupelPortsAndOutsideRequests : Obligations.FupelPortsAndOutsideRequests := by
  unfold Obligations.FupelPortsAndOutsideRequests
  intro s m p d n x answers linked inside logged at_
  refine ⟨?_, ?_, ?_, ?_, ?_, ?_, ?_, ?_, ?_, ?_, ?_, ?_, ?_⟩
  · exact fun hm ho => congrArg Host.Outcome.next (ifOwner_yes ⟨hm, ho⟩)
  · intro q inFlight lost left
    have hport : q.port p = { x with up := false, lanes := 0 } := port_setPort s p _
    have hloses : ∀ u, q.losesStore p u = true ↔ inFlight u ∧ lost u := losesStore_iff q p
    refine ⟨fun h => congrArg Host.Outcome.next (portDown_down h), fun hup => ⟨fun hnone => ?_, fun u hu hlost => ⟨?_, ?_⟩⟩⟩
    · refine congrArg Host.Outcome.next ((portDown_up hup).trans (loseStores_none fun u hu => ?_))
      exact Bool.eq_false_iff.mpr fun h => hnone u hu ((hloses u).mp h).1 ((hloses u).mp h).2
    · intro hw
      refine congrArg Host.Outcome.next ((portDown_up hup).trans ?_)
      refine (loseStores_one (s := q) hw ((hloses u).mpr ⟨hu, hlost⟩) hu.1).trans ?_
      rw [hport]
      rfl
    · intro v hw hvs hl hid hv
      refine congrArg Host.Outcome.next ((portDown_up hup).trans ?_)
      have hkept : q.losesStore p v = false := Bool.eq_false_iff.mpr fun h => hv ((hloses v).mp h)
      refine (loseStores_older (s := q) hw ((hloses u).mpr ⟨hu, hlost⟩) hu.1 hkept hvs hl).trans ?_
      rw [hport]
      rfl
  · exact fun hp hd h1 h4 => congrArg Host.Outcome.next (if_pos ⟨hp, hd, h1, h4⟩)
  · exact fun hup => congrArg Host.Outcome.next (if_pos hup)
  · exact fun hup => congrArg Host.Outcome.next (if_neg (by rw [hup]; exact nofun))
  · exact fun hp => congrArg Host.Outcome.next (if_pos hp)
  · exact fun hup hsp => congrArg Host.Outcome.next (if_pos (by rw [hup, hsp]; rfl))
  · intro pa k
    refine ⟨fun h => hostMemoryRequest_serves rfl ((serve_load s pa k).trans (outsideRead_outside h _)), fun h hs => ?_, fun y h hs => ?_⟩
    · intro t
      have hserve : s.serve (.load pa k) = t := (serve_load s pa k).trans (outsideRead_sound h hs _)
      exact ⟨hostMemoryRequest_serves rfl hserve, fun hl => peerRequest_serves hl hserve⟩
    · have hserve : s.serve (.load pa k) = logged 3 y :=
        (serve_load s pa k).trans ((outsideRead_bad h hs _).trans (outsideCheck_eq s 3 y))
      exact ⟨hostMemoryRequest_serves rfl hserve, fun hl => peerRequest_serves hl hserve⟩
  · intro pa l
    refine ⟨fun h => hostMemoryRequest_serves rfl (outsideWrite_outside h), fun h hc => ?_, fun kind y h hc => ?_⟩
    · intro t
      have hserve : s.serve (.store pa l) = t := outsideWrite_sound h hc
      exact ⟨hostMemoryRequest_serves rfl hserve, fun hl => peerRequest_serves hl hserve⟩
    · have hserve : s.serve (.store pa l) = logged kind y := (outsideWrite_bad h hc).trans (outsideCheck_eq s kind y)
      exact ⟨hostMemoryRequest_serves rfl hserve, fun hl => peerRequest_serves hl hserve⟩
  · intro hl pa k h hs q v
    refine ⟨fun op y z => peerRequest_serves hl ?_, fun l hk => peerRequest_serves hl ?_, fun anchor t hk =>
      peerRequest_serves hl ?_⟩
    · refine (serve_atomic s pa k op y z).trans ((outsideRead_sound h hs _).trans ?_)
      rw [outsideWrite_read (toBytes_length _ _) h hs]
      rfl
    · subst hk
      refine (serve_xor s pa l).trans ((outsideRead_sound h hs _).trans ?_)
      exact outsideWrite_read (toBytes_length _ _) h hs
    · subst hk
      exact (serve_cellAdd s pa anchor t).trans (outsideRead_sound h hs _)
  · exact fun hl lid sender row expert token data knot entry =>
      ⟨peerRequest_serves hl rfl, peerRequest_serves hl rfl⟩
  · exact peerRequest_refuses
  · exact fun rq h => hostMemoryRequest_refuses h

end Sys2Proof.Machine
end

section
/-! PROOF. A freeze of a device with a port that is down already (R335). -/
namespace Sys2Proof.Machine
open Sys2Proof

/-- A device whose port 0 is down and still shows three lanes. -/
def downWithLanes : State := { State.reset with ports := [(0, { Port.reset with lanes := 3 })] }

/-- A freeze takes down the ports that are up alone: one that is down keeps its lanes. -/
theorem freeze_downWithLanes :
    ((downWithLanes.ports.map Prod.fst).foldl State.portDown ((List.range 4).foldl State.poolLost downWithLanes)).ports =
      downWithLanes.ports := by
  decide

/-- Refutes O55: after a freeze a port that was down before shows the lanes that it showed, which the model does not clear. -/
theorem not_packageEvents : ¬ Obligations.PackageEvents := by
  unfold Obligations.PackageEvents
  intro h
  obtain ⟨-, -, -, ⟨-, -, hports⟩, -⟩ := h downWithLanes
  have hlanes := (hports 0).2 (by decide)
  unfold State.port at hlanes
  rw [show ({ (downWithLanes.ports.map Prod.fst).foldl State.portDown ((List.range 4).foldl State.poolLost downWithLanes) with
    frozen := true } : State).ports = downWithLanes.ports from freeze_downWithLanes] at hlanes
  exact absurd hlanes (by decide)

end Sys2Proof.Machine
end

section
/-! PROOF. What a step runs (O57). -/
namespace Sys2Proof.Machine
open Sys2Proof

/-! ## A step and its move -/

/-- What a move comes to: the instruction it runs, or the state it leaves. -/
def Move.outcome (m : Move) : Host.Outcome State Fault Refusal :=
  match m.run with
  | some i => exec i m.state
  | none => .next m.state

theorem step_eq (s : State) : step s = s.move.outcome := rfl

theorem step_strand {s : State} {key : Nat} {e : Eng} (h : s.turn = .strand key e) :
    step s = (s.enter (.strand key e)).strandMove.outcome := by
  rw [step_eq]
  unfold State.move
  rw [h]

theorem step_event {s : State} {i : Instr} (h : s.turn = .event i) (hi : encode i = []) (hf : s.frozen = false) :
    step s = exec i { s with tick := s.tick + 1, agenda := s.agenda.drop 1 } := by
  have hevent : isEvent i = true := by
    unfold isEvent
    rw [hi]
    rfl
  rw [step_eq]
  unfold State.move
  rw [h]
  dsimp only
  rw [if_pos hevent, if_neg (by rw [hf]; exact nofun)]
  rfl

section
variable (s : State) (key : Nat) (e : Eng)

theorem modWorker_same (f : Worker → Worker) : s.modWorker key f = { s with workers := (s.modWorker key f).workers } := by
  unfold State.modWorker
  split <;> rfl

theorem enter_curKey : (s.enter (.strand key e)).curKey = key := by
  unfold State.enter
  dsimp only
  split
  · rfl
  · rw [modWorker_same]

theorem enter_curEng : (s.enter (.strand key e)).curEng = e := by
  unfold State.enter
  dsimp only
  split
  · rfl
  · rw [modWorker_same]

theorem enter_regFaults : (s.enter (.strand key e)).regFaults = s.regFaults := by
  unfold State.enter
  dsimp only
  split
  · rfl
  · rw [modWorker_same]
end

/-! ## The turn of a strand that may move -/

/-- The move of strand `e` once its worker may move: `w` is the worker as the turn finds it, `s` has the strand's configuration
brought up to its place. -/
def State.awakeMove (s : State) (w : Worker) (e : Eng) : Move :=
  match s.wk.dueKind e with
  | .land => ⟨s, some .writeLanding⟩
  | .push => ⟨s, some .queuePush⟩
  | .token => ⟨s, some .tokenPush⟩
  | .none =>
    if s.st.held then .done s
    else if let some x := w.inserting e then ⟨s, some (.shins x.word)⟩
    else if s.st.exited && !(e == .S && w.inHandler) then .done s
    else if w.atEnd e then ⟨s, some .repetitionEnd⟩
    else if w.gated e then .done s
    else
      match s.regFault? with
      | some x => .done (s.meetRegFault x)
      | none => s.fetchMove

theorem noted_held {w : Worker} (h : ∀ n, w.note = some n → n.held = true) : w.noted = false := by
  unfold Worker.noted
  cases hn : w.note with
  | none => rfl
  | some n => simp [h n hn]

theorem strandMove_awake {s : State} (hl : s.live = true) (hf : s.frozen = false) (hp : s.wk.preempt = false)
    (hn : ∀ n, s.wk.note = some n → n.held = true) (hh : s.wk.inHandler = true → s.curEng = .S)
    (ho : s.phaseOver s.wk.lid = false) :
    s.strandMove = (s.modSt fun t => t.sync s.wk.spad).awakeMove s.wk s.curEng := by
  have hyields : s.wk.yields = false := by
    unfold Worker.yields
    rw [hp]
    rfl
  have hhandler : (s.wk.inHandler && s.curEng != .S) = false := by
    cases h : s.wk.inHandler with
    | false => rfl
    | true => rw [hh h]; rfl
  unfold State.strandMove
  dsimp only
  rw [hl, hf, if_neg nofun, hyields, if_neg nofun, hp, ho, if_neg nofun, noted_held hn, hhandler, if_neg nofun]
  rfl

section
variable {s : State} {w : Worker} {e : Eng}

theorem awakeMove_land (h : s.wk.dueKind e = .land) : s.awakeMove w e = ⟨s, some .writeLanding⟩ := by
  unfold State.awakeMove
  rw [h]

theorem awakeMove_push (h : s.wk.dueKind e = .push) : s.awakeMove w e = ⟨s, some .queuePush⟩ := by
  unfold State.awakeMove
  rw [h]

theorem awakeMove_token (h : s.wk.dueKind e = .token) : s.awakeMove w e = ⟨s, some .tokenPush⟩ := by
  unfold State.awakeMove
  rw [h]

section
variable (hd : s.wk.dueKind e = .none)
include hd

theorem awakeMove_held (h : s.st.held = true) : s.awakeMove w e = .done s := by
  unfold State.awakeMove
  rw [hd]
  exact if_pos h

variable (hh : s.st.held = false)
include hh

theorem awakeMove_inserting {x : Insertion} (he : e = .M) (hx : w.insertion = some x) :
    s.awakeMove w e = ⟨s, some (.shins x.word)⟩ := by
  have hins : w.inserting e = some x := (if_pos he).trans hx
  unfold State.awakeMove
  rw [hd, hh]
  dsimp only
  rw [if_neg nofun, hins]

variable (hi : e = .M → w.insertion = none) (hx : s.st.exited = true → e = .S ∧ w.inHandler = true)
include hi hx

/-- With nothing due, the strand is at the end of a repetition, waits at its gate, meets an error of its registers, or fetches. -/
theorem awakeMove_text : s.awakeMove w e =
    if w.atEnd e then ⟨s, some .repetitionEnd⟩
    else if w.gated e then .done s
    else
      match s.regFault? with
      | some x => .done (s.meetRegFault x)
      | none => s.fetchMove := by
  have hins : w.inserting e = none := by
    unfold Worker.inserting
    split
    · next he => exact hi he
    · rfl
  have hexit : (s.st.exited && !(e == .S && w.inHandler)) = false := by
    cases h : s.st.exited with
    | false => rfl
    | true =>
      obtain ⟨he, hw⟩ := hx h
      rw [he, hw]
      rfl
  unfold State.awakeMove
  rw [hd, hh]
  dsimp only
  rw [if_neg nofun, hins]
  dsimp only
  rw [hexit, if_neg nofun]

theorem awakeMove_repetition (ha : w.atEnd e = true) : s.awakeMove w e = ⟨s, some .repetitionEnd⟩ := by
  rw [awakeMove_text hd hh hi hx, if_pos ha]

theorem awakeMove_regFault (ha : w.atEnd e = false) (hg : w.gated e = false) {x : RegFault} (hr : s.regFault? = some x) :
    s.awakeMove w e = .done (s.meetRegFault x) := by
  rw [awakeMove_text hd hh hi hx, ha, hg, if_neg nofun, if_neg nofun, hr]

theorem awakeMove_fetch (ha : w.atEnd e = false) (hg : w.gated e = false) (hr : s.regFault? = none) :
    s.awakeMove w e = s.fetchMove := by
  rw [awakeMove_text hd hh hi hx, ha, hg, if_neg nofun, if_neg nofun, hr]
end
end

/-! ## Errors of a strand's registers (R332) -/

section
variable {s : State} {x : RegFault}

theorem regFault?_some (h : s.regFault? = some x) : x ∈ s.regFaults ∧ x.key = s.curKey ∧ x.eng = s.curEng := by
  have hp := List.find?_some h
  simp only [Bool.and_eq_true, beq_iff_eq] at hp
  exact ⟨List.mem_of_find?_eq_some h, hp.1, hp.2⟩

theorem meetRegFault_single (h : x.kind = 0) (s : State) :
    s.meetRegFault x = { s with regFaults := s.regFaults.filter (· ≠ x), mended := s.mended ++ [(s.wk.core, .regs x.eng)] } :=
  if_pos h

theorem meetRegFault_double (h : x.kind ≠ 0) (s : State) :
    s.meetRegFault x =
      ({ s with regFaults := s.regFaults.filter (· ≠ x) } : State).machineCheck s.wk s.curEng.code x.kind 0 s.st.pc := if_neg h
end

/-! ## Fetched words -/

section
variable {s : State} {p0 p1 p2 p3 : Parcel} {l : List Parcel} {n : Nat} {x : Option (AErr × PAddr)}

theorem noteFetch_curEng (s : State) (n : Nat) : (s.noteFetch n).curEng = s.curEng := by
  unfold State.noteFetch
  split
  · rfl
  · split <;> rfl

theorem fetchMove_reserved (hf : s.fetchFour s.wk s.st.pc 4 = (p0 :: l, x)) (hl : formatLegal p0 = false) :
    s.fetchMove = if s.curEng = .S then .done (s.raise 1 1 0) else .done s := by
  unfold State.fetchMove
  dsimp only
  rw [hf]
  dsimp only
  rw [hl, if_neg nofun]

theorem fetchMove_word (hf : s.fetchFour s.wk s.st.pc 4 = (p0 :: l, x)) (hl : formatLegal p0 = true) (hn : lenOf p0 = some n)
    (hlen : n ≤ l.length + 1) : s.fetchMove = (s.noteFetch n).atWord n p0 (nth 0 l 0) (nth 0 l 1) (nth 0 l 2) := by
  unfold State.fetchMove
  dsimp only
  rw [hf]
  dsimp only
  rw [if_pos hl, hn]
  exact if_neg (by simpa using hlen)

theorem atWord_own (h : engine p0 = none ∨ engine p0 = some s.curEng) :
    s.atWord n p0 p1 p2 p3 =
      match decode p0 p1 p2 p3 with
      | .instr i => if s.awaits i then .done s else ⟨s, some i⟩
      | .reserved => .done s
      | .illegal _ => if engine p0 = none ∧ s.curEng ≠ .S then .done s else .done (s.raise 1 1 0)
      | .misuse _ => .done (s.raise 0x0E 0 0) := if_pos h

theorem atWord_instr (h : engine p0 = none ∨ engine p0 = some s.curEng) {i : Instr} (hd : decode p0 p1 p2 p3 = .instr i) :
    (s.atWord n p0 p1 p2 p3).outcome = if s.awaits i then .next s else exec i s := by
  rw [atWord_own h, hd]
  dsimp only
  split <;> rfl

theorem atWord_illegal {z : Eng} (hd : decode p0 p1 p2 p3 = .illegal z) :
    (engine p0 = some s.curEng ∨ engine p0 = none ∧ s.curEng = .S → s.atWord n p0 p1 p2 p3 = .done (s.raise 1 1 0)) ∧
    (engine p0 = none → s.curEng ≠ .S → s.atWord n p0 p1 p2 p3 = .done s) := by
  constructor
  · intro h
    rw [atWord_own (h.elim .inr fun h => .inl h.1), hd]
    refine if_neg fun hc => ?_
    rcases h with h | h
    · rw [hc.1] at h
      cases h
    · exact hc.2 h.2
  · intro h he
    rw [atWord_own (.inl h), hd]
    exact if_pos ⟨h, he⟩

theorem atWord_misuse (h : engine p0 = none ∨ engine p0 = some s.curEng) {z : Eng} (hd : decode p0 p1 p2 p3 = .misuse z) :
    s.atWord n p0 p1 p2 p3 = .done (s.raise 0x0E 0 0) := by
  rw [atWord_own h, hd]

/-- A word that decodes to an instruction is that instruction's. -/
theorem rawInstr_of_decode {i : Instr} (hd : decode p0 p1 p2 p3 = .instr i) : rawInstr p0 p1 p2 p3 = some i := by
  have judged : ∀ {e : Eng} {j : Instr}, judge e j = .instr i → j = i := by
    intro e j h
    unfold judge at h
    split at h
    · exact Decoded.instr.inj h
    · cases h
    · cases h
  unfold decode at hd
  split at hd
  · split at hd
    · next j hj => rw [hj, judged hd]
    · cases hd
  · cases hd

theorem atWord_foreign {z : Eng} (hz : engine p0 = some z) (hne : z ≠ s.curEng) {i : Instr}
    (hd : decode p0 p1 p2 p3 = .instr i) : s.atWord n p0 p1 p2 p3 = s.foreign n (some i) := by
  unfold State.atWord
  rw [rawInstr_of_decode hd]
  refine if_neg ?_
  rw [hz]
  rintro (h | h)
  · cases h
  · exact hne (Option.some.inj h)

theorem foreign_control {i : Instr} (he : s.curEng ≠ .S) (hc : isControl i = true) : s.foreign n (some i) = ⟨s, some i⟩ :=
  (if_neg he).trans (if_pos hc)

theorem foreign_skipped {i : Instr} (he : s.curEng ≠ .S) (hc : isControl i = false) (hg : isConfig i = false) :
    s.foreign n (some i) = .done (s.skipWord n) := by
  unfold State.foreign
  dsimp only
  rw [if_neg he, hc, hg]
  rfl

theorem foreign_skippedS {i : Instr} (he : s.curEng = .S) (hv : isVpset i = false) : s.foreign n (some i) = .done (s.skipWord n) := by
  unfold State.foreign
  dsimp only
  rw [if_pos he, hv]
  rfl
end

/-! ## Waiting for an interlocked write (R10, R27) -/

section
variable {s : State}

/-- A register that an interlocked entry is still to write. -/
theorem mem_awaited (t : Strand) (k : Nat) :
    k ∈ t.awaited ↔ ∃ p ∈ t.pend, p.count = 0 ∧ p.lock = true ∧ ∃ l, .vregs l ∈ p.acts ∧ k ∈ l.map Prod.fst := by
  have hnow : ∀ p : Pend, k ∈ (p.now.flatMap Landing.dests).filterMap (fun d => if d.1 = 1 then some d.2 else none) ↔
      ∃ l, .vregs l ∈ p.acts ∧ k ∈ l.map Prod.fst := by
    intro p
    simp only [List.mem_filterMap, List.mem_flatMap, Option.ite_none_right_eq_some, Option.some.injEq]
    constructor
    · rintro ⟨d, ⟨a, ha, hd⟩, h1, rfl⟩
      have hact : a ∈ p.acts := List.mem_of_mem_filter ha
      cases a with
      | vregs l =>
        obtain ⟨x, hx, rfl⟩ := List.mem_map.mp hd
        exact ⟨l, hact, List.mem_map_of_mem hx⟩
      | sreg r v =>
        rw [List.mem_singleton.mp hd] at h1
        cases h1
      | mask m v =>
        rw [List.mem_singleton.mp hd] at h1
        cases h1
      | _ => cases hd
    · rintro ⟨l, hl, hk⟩
      obtain ⟨x, hx, rfl⟩ := List.mem_map.mp hk
      exact ⟨(1, x.1), ⟨.vregs l, List.mem_filter.mpr ⟨hl, rfl⟩, List.mem_map.mpr ⟨x, hx, rfl⟩⟩, rfl, rfl⟩
  unfold Strand.awaited
  simp only [List.mem_flatMap]
  refine exists_congr fun p => and_congr_right fun _ => ?_
  rw [← hnow]
  cases hc : p.count == 0 <;> cases hl : p.lock <;> simp_all

/-- Whether a field that coordinates are read through names an awaited register as its companion. -/
def State.companionIn (s : State) (l : List Nat) (o : Option (BitVec 8 × Nat)) : Bool :=
  match o with
  | none => false
  | some (x, n) =>
    match s.mapAt x n with
    | .explicit _ c _ => l.contains c
    | _ => false

theorem companionIn_iff (s : State) (l : List Nat) (o : Option (BitVec 8 × Nat)) :
    s.companionIn l o = true ↔ ∃ x n g c y, o = some (x, n) ∧ s.mapAt x n = .explicit g c y ∧ c ∈ l := by
  unfold State.companionIn
  cases o with
  | none => simp
  | some d =>
    obtain ⟨x, n⟩ := d
    dsimp only
    cases hm : s.mapAt x n with
    | explicit g c y => simp [hm]
    | _ => simp [hm]

theorem awaits_reads {i : Instr} {r : Reads} (h : i.reads = some r) :
    s.awaits i = (!s.st.awaited.isEmpty && (s.view.guard r.guard &&
      ((r.srcs ++ r.dests).any (fun x => isV x && s.st.awaited.contains (physReg s.st.rrb x.toNat)) ||
        s.companionIn s.st.awaited r.coords))) := by
  unfold State.awaits
  rw [h]
  rfl

theorem awaits_none {i : Instr} (h : i.reads = none) : s.awaits i = false := by
  unfold State.awaits
  rw [h]
  exact Bool.and_false _

theorem awaits_iff (s : State) (i : Instr) :
    s.awaits i = true ↔ ∃ r, i.reads = some r ∧ s.view.guard r.guard = true ∧
      ((∃ x ∈ r.srcs ++ r.dests, isV x = true ∧ physReg s.st.rrb x.toNat ∈ s.st.awaited) ∨
        ∃ x n g c y, r.coords = some (x, n) ∧ s.mapAt x n = .explicit g c y ∧ c ∈ s.st.awaited) := by
  cases h : i.reads with
  | none => simp [awaits_none h]
  | some r =>
    rw [awaits_reads h]
    generalize s.st.awaited = l
    have hne : ((∃ x ∈ r.srcs ++ r.dests, isV x = true ∧ physReg s.st.rrb x.toNat ∈ l) ∨
        ∃ x n g c y, r.coords = some (x, n) ∧ s.mapAt x n = .explicit g c y ∧ c ∈ l) → l ≠ [] := by
      rintro (⟨x, -, -, hx⟩ | ⟨x, n, g, c, y, -, -, hc⟩)
      · exact List.ne_nil_of_mem hx
      · exact List.ne_nil_of_mem hc
    simp only [Bool.and_eq_true, Bool.or_eq_true, companionIn_iff, List.any_eq_true, Bool.not_eq_true', List.isEmpty_eq_false_iff,
      List.contains_iff_mem]
    constructor
    · rintro ⟨-, hg, hr⟩
      exact ⟨r, rfl, hg, hr⟩
    · rintro ⟨q, hq, hg, hr⟩
      cases hq
      exact ⟨hne hr, hg, hr⟩

/-- What `vsincos` reads: its one operand and its map, and both of its destinations where it keeps slots of them. -/
theorem vsincos_reads (f : E64) : (Instr.vsincos f).reads = some ⟨f.g, [f.a8, f.mapField],
    if f.mid3 = 5 ∨ isCoord f.a8 = true then some f.mapSource else none,
    if f.zm = true ∨ f.lo3 = 7 then [] else [f.d8, f.d8 + 1]⟩ := by
  have hdests : (f.merges.flatMap fun d => [d, d + 1]) = if f.zm = true ∨ f.lo3 = 7 then [] else [f.d8, f.d8 + 1] := by
    unfold E64.merges
    by_cases h : f.zm = true ∨ f.lo3 = 7
    · rw [if_pos h, if_pos (by simpa using h)]
      rfl
    · rw [if_neg h, if_neg (by simpa using h)]
      rfl
  have hcoords : (if f.mid3 == 5 || [f.a8].any isCoord then some f.mapSource else none) =
      if f.mid3 = 5 ∨ isCoord f.a8 = true then some f.mapSource else none := by
    simp
  rw [← hdests, ← hcoords]
  rfl
end

/-! ## The turn of a strand -/

section
variable {s : State} {key : Nat} {e : Eng}

/-- A step that takes the turn of a strand that may move. -/
theorem step_awake (ht : s.turn = .strand key e) {q0 q : State} (hq0 : s.enter (.strand key e) = q0)
    (hq : (q0.modSt fun t => t.sync q0.wk.spad) = q) (hl : q0.live = true) (hf : q0.frozen = false)
    (hp : q0.wk.preempt = false) (hn : ∀ n, q0.wk.note = some n → n.held = true) (hh : q0.wk.inHandler = true → e = .S)
    (ho : q0.phaseOver q0.wk.lid = false) : step s = (q.awakeMove q0.wk e).outcome := by
  have he : q0.curEng = e := hq0 ▸ enter_curEng s key e
  rw [step_strand ht, hq0, strandMove_awake hl hf hp hn (by rw [he]; exact hh) ho, hq, he]
end

/-- A word at hand: of the strand's own engine or a headland, or of another engine (R15, R16, R22, R47, R59, R145). -/
theorem atWord_gives {p : State} {e : Eng} (he : p.curEng = e) (n : Nat) (p0 p1 p2 p3 : Parcel) :
    (engine p0 = none ∨ engine p0 = some e →
      (∀ i, decode p0 p1 p2 p3 = .instr i →
        (p.atWord n p0 p1 p2 p3).outcome = if p.awaits i then .next p else exec i p) ∧
      (∀ z, decode p0 p1 p2 p3 = .illegal z →
        (engine p0 = some e ∨ e = .S → (p.atWord n p0 p1 p2 p3).outcome = .next (p.takeTrap e p.st.pc ⟨1, 1, 0, none⟩)) ∧
        (engine p0 = none → e ≠ .S → (p.atWord n p0 p1 p2 p3).outcome = .next p)) ∧
      ∀ z, decode p0 p1 p2 p3 = .misuse z →
        (p.atWord n p0 p1 p2 p3).outcome = .next (p.takeTrap e p.st.pc ⟨0x0E, 0, 0, none⟩)) ∧
    ∀ z, engine p0 = some z → z ≠ e →
      ∀ i, decode p0 p1 p2 p3 = .instr i →
        (e ≠ .S → isControl i = true → (p.atWord n p0 p1 p2 p3).outcome = exec i p) ∧
        (e ≠ .S → isControl i = false → isConfig i = false → (p.atWord n p0 p1 p2 p3).outcome = .next (p.skipWord n)) ∧
        (e = .S → isVpset i = false → (p.atWord n p0 p1 p2 p3).outcome = .next (p.skipWord n)) := by
  subst he
  refine ⟨fun h => ⟨fun i hd => atWord_instr h hd, fun z hd => ⟨fun hz => ?_, fun hz hne => ?_⟩, fun z hd => ?_⟩,
    fun z hz hne i hd => ⟨fun he hc => ?_, fun he hc hg => ?_, fun he hv => ?_⟩⟩
  · refine congrArg Move.outcome ((atWord_illegal hd).1 ?_)
    rcases hz with hz | hz
    · exact .inl hz
    · exact h.elim (fun h => .inr ⟨h, hz⟩) .inl
  · exact congrArg Move.outcome ((atWord_illegal hd).2 hz hne)
  · exact congrArg Move.outcome (atWord_misuse h hd)
  · exact congrArg Move.outcome ((atWord_foreign hz hne hd).trans (foreign_control he hc))
  · exact congrArg Move.outcome ((atWord_foreign hz hne hd).trans (foreign_skipped he hc hg))
  · exact congrArg Move.outcome ((atWord_foreign hz hne hd).trans (foreign_skippedS he hv))

/-- Settles O57: the branches of a strand's turn in their order, the words it meets, the registers it waits for, and the events. -/
theorem stepRunsDecoded : Obligations.StepRunsDecoded := by
  unfold Obligations.StepRunsDecoded
  refine ⟨?_, ?_, fun s i ht hi hf => step_event ht hi hf⟩
  · intro s key e ht q0 w hl hf hp hn hh ho q
    have hkey : q.curKey = key := enter_curKey s key e
    have heng : q.curEng = e := enter_curEng s key e
    have hfaults : q.regFaults = s.regFaults := enter_regFaults s key e
    have hwk : q.wk = w.setStrand q0.curEng (q0.st.sync w.spad) := setWk_wk q0 _
    have hcore : q.wk.core = w.core := (congrArg Worker.core hwk).trans rfl
    have hstep : step s = (q.awakeMove w e).outcome := step_awake ht rfl rfl hl hf hp hn hh ho
    rw [hstep]
    clear_value q
    refine ⟨fun hd => congrArg Move.outcome (awakeMove_land hd), fun hd => congrArg Move.outcome (awakeMove_push hd),
      fun hd => congrArg Move.outcome (awakeMove_token hd), fun hd hh => congrArg Move.outcome (awakeMove_held hd hh),
      fun hd hh => ⟨fun x he hx => congrArg Move.outcome (awakeMove_inserting hd hh he hx), fun hi hx => ⟨?_, ?_, ?_, ?_⟩⟩⟩
    · exact fun ha => congrArg Move.outcome (awakeMove_repetition hd hh hi hx ha)
    · intro x ha hg hr p
      obtain ⟨hmem, hk, he⟩ := regFault?_some hr
      rw [awakeMove_regFault hd hh hi hx ha hg hr]
      refine ⟨hfaults ▸ hmem, hk.trans hkey, he.trans heng, fun h0 => ?_, fun h0 => ?_⟩
      · refine congrArg Host.Outcome.next ((meetRegFault_single h0 q).trans ?_)
        rw [hcore, he, heng]
      · refine congrArg Host.Outcome.next ((meetRegFault_double h0 q).trans ?_)
        exact congrArg (fun z : Eng => p.machineCheck q.wk z.code x.kind 0 q.st.pc) heng
    · intro p0 r x ha hg hr hfetch hlegal
      rw [awakeMove_fetch hd hh hi hx ha hg hr, fetchMove_reserved hfetch hlegal, State.raise, heng]
      refine ⟨fun he => ?_, fun he => ?_⟩
      · rw [if_pos he, he]
        rfl
      · rw [if_neg he]
        rfl
    · intro p0 r n x ha hg hr hfetch hlegal hlen hn p d
      rw [awakeMove_fetch hd hh hi hx ha hg hr, fetchMove_word hfetch hlegal hlen hn]
      exact atWord_gives ((noteFetch_curEng q n).trans heng) n p0 _ _ _
  · intro s i late
    refine ⟨?_, fun f => ⟨rfl, vsincos_reads f⟩⟩
    rw [awaits_iff]
    simp only [mem_awaited]
    rfl

end Sys2Proof.Machine
end
